-- ==== Sys2Proof/Word.lean ====
section
/-!
DEFINITION. The words the spec names: bytes, 32-bit and 64-bit words, lane and slice masks, code offsets.
-/

namespace Sys2Proof

/-- One byte (R7). -/
abbrev Byte := BitVec 8

/-- A 32-bit register or operand word (R50). -/
abbrev Word := BitVec 32

/-- A 64-bit value: a register pair, a reference, an instruction word (R52, R66, R91). -/
abbrev DWord := BitVec 64

/-- One bit per lane of a wave (R24: lanes 0 to 95). -/
abbrev LaneMask := BitVec 96

/-- One bit per slice of a wave (R24: slices 0 to 23). -/
abbrev SliceMask := BitVec 24

/-- A word offset within a code object (R33). -/
abbrev CodeAddr := BitVec 39

end Sys2Proof
end

