-- ==== Sys2Proof/Config.lean ====
section
/-!
DEFINITION. What one part fixes and the manual leaves open: free values without a body, so that no proof can see one.
The state's `freeCount` numbers the ones that may differ from use to use.
-/

namespace Sys2Proof.Config

/-- Clocks of the 600 MHz die counter that pass at the n-th step (R64): the manual fixes no time for a step. -/
opaque clocks : Nat → Nat

/-- The n-th 32-bit value that the manual leaves open. -/
opaque freeWord : Nat → Word

/-- The n-th choice that the manual leaves to the device, as a number. -/
opaque freeChoice : Nat → Nat

/-- The n-th list of bytes that comes from outside this package: another package's data (R326). -/
opaque freeByte : Nat → Nat → Byte

/-- The hash of a superblock's number that chooses its L2 slice (R183). -/
opaque l2Slice : Nat → Nat

/-- The report that the workgroup of key k of the launch of start generation g, which another package runs, has ended is
here at step n (R374). -/
opaque otherEnded : Nat → Nat → Nat → Bool

/-- The receiver on a port is ready on a VC at step n (R382). -/
opaque vcReady : Nat → Nat → Nat → Bool

/-- The kill that the bytes delivered on VC 3 bring, whose form the manual leaves open: of the launches of a context
(true), or of the launch of a start generation (false), with its reason (R422, R423). -/
opaque fabricKill : List Byte → Option (Bool × Nat × Nat)

/-- DEVID's stepping (R377). -/
opaque stepping : BitVec 16

/-- Bytes of the device attached to expander port d (R380). -/
opaque expanderBytes : Nat → Nat

/-- ATS translates a 64 KiB granule of a PASID at step n, for a write or a read (R379, R468). -/
opaque translates : Nat → Nat → Bool → Nat → Bool

/-- ATS translates a 64 KiB granule of a PASID at step n under a queue's PGEN, for a write or a read of a Sluice core
(R469). -/
opaque sluiceTranslates : Nat → Word → Nat → Bool → Nat → Bool

/-- Byte i of a region of a save image, by its kind and the items it holds (R369, R370): their packing is the device's own. -/
opaque packing : Nat → List (BitVec 64) → Nat → Byte

/-- Item i that the device reads from the bytes of a region of a save image, by its kind. -/
opaque unpacked : Nat → List Byte → Nat → BitVec 64

/-- The image in flash verifies: its SHA-256 is signed under the public key whose hash is fused (R390). -/
opaque imageVerifies : List Byte → Bool

/-- The 32-bit version in an image's header (R390): the manual gives the header's fields and not their places. -/
opaque imageVersion : List Byte → Word

/-- The rollback floor in an image's header (R390), as the header holds it. -/
opaque imageFloor : List Byte → Nat

/-- The certificate chain of the device's identity key (R390). -/
opaque certificate : List Byte

/-- The SHA-256 digest of the certificate chain (R390). -/
opaque certDigest : List Byte

/-- The ECDSA P-256 signature of the identity key over a nonce (R390). -/
opaque signature : List Byte → List Byte

/-- SHA-256 of bytes (R390). -/
opaque sha256 : List Byte → List Byte

/-- Measurement 1, the ROM; 3, the fuses; 4, the security controller (R390), by the fuses' rollback counter and whether
the identity erase fuse is blown. -/
opaque measurement : Nat → Nat → Bool → List Byte

end Sys2Proof.Config
end

