-- ==== Sys2Proof/Syntax.lean ====
section
/-!
DEFINITION. The syntax of the machine's steps: operand specifiers, the six instruction formats, and Instr, one
constructor per row of the opcode table. An instruction keeps every field of its words, so no bit is lost; the
rows that are steps of engines, links and the platform carry what the step acts on.
-/

namespace Sys2Proof

/-- The special operands 0x18C to 0x1A1 (R65, R94). -/
inductive Special where
  | lane | slice | wave | wgx | wgy | wgz | crank | stage
  | ngx | ngy | ngz | ncl | nwave | nstage | prank | npkg | quad | core | die
  | kdatalo | kdatahi | launch
  deriving DecidableEq, Repr

/-- A 9-bit operand specifier (R94). -/
inductive Operand where
  /-- v0 to v255. -/
  | v (n : BitVec 8)
  /-- s0 to s127. -/
  | s (n : BitVec 7)
  /-- k0 to k7. -/
  | k (n : BitVec 3)
  /-- x0 to x3. -/
  | x (n : BitVec 2)
  | special (p : Special)
  /-- Reserved specifiers 0x1A2 to 0x1BF: 0x1A2 + i, i below 30. -/
  | reservedA (i : Fin 30)
  /-- Inline integers 0 to 31. -/
  | int (n : BitVec 5)
  /-- Inline integers -1 to -16: the value is -(n + 1). -/
  | neg (n : BitVec 4)
  /-- Inline floats, in the order of R94. -/
  | flt (n : BitVec 3)
  /-- Reserved specifiers 0x1F8 to 0x1FD: 0x1F8 + i, i below 6. -/
  | reservedB (i : Fin 6)
  | none
  /-- A literal in the extension word (R96). -/
  | lit
  deriving DecidableEq, Repr

/-- The 4-bit type codes of R99. Code 14 means mxf4 where a rule says so; code 15 is illegal. -/
inductive Ty where
  | s32 | z32 | f32 | f16 | bf16 | s16 | z16 | s8 | z8 | f64 | s64 | z64 | e4m3 | e5m2 | mxf4 | t15
  deriving DecidableEq, Repr

/-- The V format (R98). -/
structure VFmt where
  d : Operand
  a : Operand
  b : Operand
  c : Operand
  pred : BitVec 3
  neg : Bool
  ty : Ty
  rnd : BitVec 3
  sat : Bool
  la : BitVec 4
  ext : Option DWord
  deriving DecidableEq, Repr

/-- The M format (R100). `imm` is bits [24:16], an immediate or an operand specifier by instruction (R101). -/
structure MFmt where
  data : Operand
  ref : Operand
  index : Operand
  imm : BitVec 9
  pred : BitVec 3
  neg : Bool
  size : BitVec 3
  scope : BitVec 3
  order : BitVec 2
  la : BitVec 4
  ext : Option DWord
  deriving DecidableEq, Repr

/-- The C format (R102). -/
structure CFmt where
  offset : BitVec 24
  cond : Operand
  kind : BitVec 3
  pred : BitVec 3
  neg : Bool
  zero : BitVec 8
  la : BitVec 4
  ext : Option DWord
  deriving DecidableEq, Repr

/-- The X format (R103). -/
structure XFmt where
  tile : BitVec 4
  abase : Operand
  bbase : Operand
  sop : Operand
  shape : BitVec 5
  pred : BitVec 3
  neg : Bool
  ity : Ty
  mode : BitVec 4
  la : BitVec 4
  ext : Option DWord
  deriving DecidableEq, Repr

/-- The G format (R104). -/
structure GFmt where
  dbase : Operand
  cbase : Operand
  hdr : Operand
  extra : Operand
  pred : BitVec 3
  neg : Bool
  ctl : BitVec 8
  la : BitVec 4
  ext : Option DWord
  deriving DecidableEq, Repr

/-- The Y format (R105): `imm` is bits [51:16] whole; the three layouts read it through accessors. -/
structure YFmt where
  imm : BitVec 36
  pred : BitVec 3
  neg : Bool
  sub : BitVec 8
  la : BitVec 4
  ext : Option DWord
  deriving DecidableEq, Repr

/-- An instruction's fields, by format. -/
inductive Form where
  | v (f : VFmt)
  | m (f : MFmt)
  | c (f : CFmt)
  | x (f : XFmt)
  | g (f : GFmt)
  | y (f : YFmt)
  | none
  deriving DecidableEq, Repr

/-- The condition of a late condition (R455). -/
inductive LateCause where
  /-- Cause 0x06: residency not satisfiable. -/
  | residency
  /-- Cause 0x08: host translation failed. -/
  | translation
  /-- Cause 0x09: uncorrectable data. -/
  | uncorrectable
  /-- Cause 0x13: a network image that an evaluation fills again fails validation (R478). -/
  | network
  deriving DecidableEq, Repr

/-- What the checks of an arithmetic unit found in one operation (R473, R474). -/
inductive EngineOutcome where
  /-- The result passed after `repeats` repeats, at most three (R474). -/
  | done (repeats : BitVec 2)
  /-- A fourth detection (R474). -/
  | failed
  deriving DecidableEq, Repr

/-- The end of a pending long-latency instruction: its entry and what the checks of R473 found. -/
structure LatencyEnd where
  pend : Nat
  outcome : EngineOutcome
  deriving DecidableEq, Repr

/-- An error that the protection of R460 finds outside a scrub of HBM, or the checks of R473 outside an operation that has a
row of its own. -/
inductive HardError where
  /-- A die corrects an error, or absorbs one by a re-read or a refetch: in its SRAM (0), in HBM (1) or in the second
  tier (2). -/
  | corrected (die : BitVec 2) (kind : BitVec 2)
  /-- Registers, tiles, split table or gate stack of a wave. -/
  | wave (wave : Nat)
  /-- The scratchpad or a barrier word of a workgroup, cluster barrier words of CRANK 0 among them. -/
  | workgroup (wg : Nat)
  /-- A parity error in a line of a core's L1 and texel cache. -/
  | line (core line : Nat)
  /-- A parity error in an entry of a core's object cache. -/
  | object (core dom index : Nat)
  /-- A sector of a dirty line of the home L2, by its physical address / 32. -/
  | homeSector (sector : Nat)
  /-- A sector of a line of a die's remote data cache, by its physical address / 32. -/
  | remoteSector (die : BitVec 2) (sector : Nat)
  /-- A sector that an expander delivers as poisoned, by its physical address / 32. -/
  | secondTier (sector : Nat)
  /-- The ring of a stage queue of a launch. -/
  | stageQueue (launch queue : Nat)
  /-- What the checks of a vector pipe, or of a layer of a SAMPLE.N evaluation, find in an instruction of a wave. -/
  | pipe (wave : Nat) (outcome : EngineOutcome)
  /-- A parity error in a block of a network image in a core's weight cache, found by a SAMPLE.N that is being evaluated. -/
  | weights (wave pend : Nat)
  deriving DecidableEq, Repr

/-- What a scrub of HBM leaves uncorrectable, by physical address, and the errors found elsewhere meanwhile (R460, R465). -/
structure ScrubFindings where
  uncorrectable : List Nat
  others : List HardError
  deriving DecidableEq, Repr

/-- One host access over CXL.mem (R379). -/
inductive HostAccess where
  | read (n : Nat)
  | write (bytes : List Byte)
  deriving DecidableEq, Repr

/-- The steps of the machine, one constructor per row of the opcode table: the 220 instructions of R109 and the
steps of the engines, Sluice, the dispatcher, the platform and the links. -/
inductive Instr where
  /-- UADD (R117). -/
  | uadd (f : VFmt)
  /-- UADDC (R118). -/
  | uaddc (f : VFmt)
  /-- USUB (R117). -/
  | usub (f : VFmt)
  /-- USUBB (R118). -/
  | usubb (f : VFmt)
  /-- UMUL (R119). -/
  | umul (f : VFmt)
  /-- UMULHI (R119). -/
  | umulhi (f : VFmt)
  /-- UMULW (R119). -/
  | umulw (f : VFmt)
  /-- UDIV (R120). -/
  | udiv (f : VFmt)
  /-- UREM (R120). -/
  | urem (f : VFmt)
  /-- UMIN (R117). -/
  | umin (f : VFmt)
  /-- UMAX (R117). -/
  | umax (f : VFmt)
  /-- UAND (R117). -/
  | uand (f : VFmt)
  /-- UOR (R117). -/
  | uor (f : VFmt)
  /-- UXOR (R117). -/
  | uxor (f : VFmt)
  /-- UNOT (R117). -/
  | unot (f : VFmt)
  /-- USHL (R122). -/
  | ushl (f : VFmt)
  /-- USHR (R122). -/
  | ushr (f : VFmt)
  /-- USAR (R122). -/
  | usar (f : VFmt)
  /-- UBFE (R123). -/
  | ubfe (f : VFmt)
  /-- UBFI (R123). -/
  | ubfi (f : VFmt)
  /-- UPOPC (R123). -/
  | upopc (f : VFmt)
  /-- UCLZ (R123). -/
  | uclz (f : VFmt)
  /-- UCMP (R124). -/
  | ucmp (f : VFmt)
  /-- USEL (R125). -/
  | usel (f : VFmt)
  /-- UMOV (R125). -/
  | umov (f : VFmt)
  /-- ADD (R117). -/
  | add (f : VFmt)
  /-- ADDC (R118). -/
  | addc (f : VFmt)
  /-- SUB (R117). -/
  | sub (f : VFmt)
  /-- SUBB (R118). -/
  | subb (f : VFmt)
  /-- MUL (R119). -/
  | mul (f : VFmt)
  /-- MULHI (R119). -/
  | mulhi (f : VFmt)
  /-- MULW (R119). -/
  | mulw (f : VFmt)
  /-- MAD (R119). -/
  | mad (f : VFmt)
  /-- DIV (R120). -/
  | div (f : VFmt)
  /-- REM (R120). -/
  | rem (f : VFmt)
  /-- MIN (R117). -/
  | min (f : VFmt)
  /-- MAX (R117). -/
  | max (f : VFmt)
  /-- ABS (R117). -/
  | abs (f : VFmt)
  /-- AND (R117). -/
  | and (f : VFmt)
  /-- OR (R117). -/
  | or (f : VFmt)
  /-- XOR (R117). -/
  | xor (f : VFmt)
  /-- NOT (R117). -/
  | not (f : VFmt)
  /-- SHL (R122). -/
  | shl (f : VFmt)
  /-- SHR (R122). -/
  | shr (f : VFmt)
  /-- SAR (R122). -/
  | sar (f : VFmt)
  /-- BFE (R123). -/
  | bfe (f : VFmt)
  /-- BFI (R123). -/
  | bfi (f : VFmt)
  /-- BREV (R123). -/
  | brev (f : VFmt)
  /-- POPC (R123). -/
  | popc (f : VFmt)
  /-- CLZ (R123). -/
  | clz (f : VFmt)
  /-- CMP (R124). -/
  | cmp (f : VFmt)
  /-- SEL (R125). -/
  | sel (f : VFmt)
  /-- MOV (R125). -/
  | mov (f : VFmt)
  /-- MOVX (R126). -/
  | movx (f : VFmt)
  /-- MOVXS (R126). -/
  | movxs (f : VFmt)
  /-- FADD (R143). -/
  | fadd (f : VFmt)
  /-- FSUB (R143). -/
  | fsub (f : VFmt)
  /-- FMUL (R143). -/
  | fmul (f : VFmt)
  /-- FFMA (R143). -/
  | ffma (f : VFmt)
  /-- FMIN (R145). -/
  | fmin (f : VFmt)
  /-- FMAX (R145). -/
  | fmax (f : VFmt)
  /-- FABS (R143). -/
  | fabs (f : VFmt)
  /-- FNEG (R143). -/
  | fneg (f : VFmt)
  /-- FCMP (R146). -/
  | fcmp (f : VFmt)
  /-- FCLASS (R147). -/
  | fclass (f : VFmt)
  /-- FRCP (R148). -/
  | frcp (f : VFmt)
  /-- FRSQ (R148). -/
  | frsq (f : VFmt)
  /-- FSQRT (R148). -/
  | fsqrt (f : VFmt)
  /-- FDIV (R148). -/
  | fdiv (f : VFmt)
  /-- FEXP2 (R148). -/
  | fexp2 (f : VFmt)
  /-- FLOG2 (R148). -/
  | flog2 (f : VFmt)
  /-- FSIN (R148). -/
  | fsin (f : VFmt)
  /-- FCOS (R148). -/
  | fcos (f : VFmt)
  /-- FTANH (R148). -/
  | ftanh (f : VFmt)
  /-- FFLOOR (R149). -/
  | ffloor (f : VFmt)
  /-- FCEIL (R149). -/
  | fceil (f : VFmt)
  /-- FTRUNC (R149). -/
  | ftrunc (f : VFmt)
  /-- FRINT (R149). -/
  | frint (f : VFmt)
  /-- FFRAC (R149). -/
  | ffrac (f : VFmt)
  /-- FLDEXP (R150). -/
  | fldexp (f : VFmt)
  /-- FEXPO (R150). -/
  | fexpo (f : VFmt)
  /-- FMANT (R150). -/
  | fmant (f : VFmt)
  /-- FMED3 (R145). -/
  | fmed3 (f : VFmt)
  /-- FDOT2 (R151). -/
  | fdot2 (f : VFmt)
  /-- FDOT4 (R151). -/
  | fdot4 (f : VFmt)
  /-- CVT (R153). -/
  | cvt (f : VFmt)
  /-- CVTMX (R157). -/
  | cvtmx (f : VFmt)
  /-- PACK (R154). -/
  | pack (f : VFmt)
  /-- UNPACK (R155). -/
  | unpack (f : VFmt)
  /-- MXSCALE (R156). -/
  | mxscale (f : VFmt)
  /-- BPERM (R174). -/
  | bperm (f : VFmt)
  /-- SHFL (R170). -/
  | shfl (f : VFmt)
  /-- SHFLUP (R170). -/
  | shflup (f : VFmt)
  /-- SHFLDN (R170). -/
  | shfldn (f : VFmt)
  /-- SHFLX (R170). -/
  | shflx (f : VFmt)
  /-- VOTEANY (R171). -/
  | voteany (f : VFmt)
  /-- VOTEALL (R171). -/
  | voteall (f : VFmt)
  /-- VOTEEQ (R171). -/
  | voteeq (f : VFmt)
  /-- BALLOT (R171). -/
  | ballot (f : VFmt)
  /-- SCAN (R172). -/
  | scan (f : VFmt)
  /-- SCANX (R172). -/
  | scanx (f : VFmt)
  /-- REDUCE (R172). -/
  | reduce (f : VFmt)
  /-- COMPACT (R173). -/
  | compact (f : VFmt)
  /-- EXPAND (R173). -/
  | expand (f : VFmt)
  /-- RDFIRST (R171). -/
  | rdfirst (f : VFmt)
  /-- BRA (R161). -/
  | bra (f : CFmt)
  /-- BRP (R161). -/
  | brp (f : CFmt)
  /-- BRU (R161). -/
  | bru (f : CFmt)
  /-- CALL (R162). -/
  | call (f : CFmt)
  /-- CALLI (R162). -/
  | calli (f : CFmt)
  /-- RET (R162). -/
  | ret (f : CFmt)
  /-- JMPI (R162). -/
  | jmpi (f : CFmt)
  /-- EXIT (R163). -/
  | exit (f : CFmt)
  /-- REGANG (R164). -/
  | regang (f : CFmt)
  /-- PAND (R166). -/
  | pand (f : VFmt)
  /-- POR (R166). -/
  | por (f : VFmt)
  /-- PXOR (R166). -/
  | pxor (f : VFmt)
  /-- PANDN (R166). -/
  | pandn (f : VFmt)
  /-- PNOT (R166). -/
  | pnot (f : VFmt)
  /-- PMOV (R166). -/
  | pmov (f : VFmt)
  /-- LD (R204). -/
  | ld (f : MFmt)
  /-- ST (R204). -/
  | st (f : MFmt)
  /-- LDS (R205). -/
  | lds (f : MFmt)
  /-- STS (R205). -/
  | sts (f : MFmt)
  /-- LDSR (R205). -/
  | ldsr (f : MFmt)
  /-- STSR (R205). -/
  | stsr (f : MFmt)
  /-- SLD (R204). -/
  | sld (f : MFmt)
  /-- SST (R204). -/
  | sst (f : MFmt)
  /-- TLD (R206). -/
  | tld (f : MFmt)
  /-- TST (R206). -/
  | tst (f : MFmt)
  /-- PREF (R207). -/
  | pref (f : MFmt)
  /-- EVICT (R207). -/
  | evict (f : MFmt)
  /-- FENCE (R208). -/
  | fence (f : MFmt)
  /-- SQPUSH (R209). -/
  | sqpush (f : MFmt)
  /-- SQPOP (R209). -/
  | sqpop (f : MFmt)
  /-- AADD (R211). -/
  | aadd (f : MFmt)
  /-- AFADD (R212). -/
  | afadd (f : MFmt)
  /-- AMIN (R211). -/
  | amin (f : MFmt)
  /-- AMAX (R211). -/
  | amax (f : MFmt)
  /-- AAND (R211). -/
  | aand (f : MFmt)
  /-- AOR (R211). -/
  | aor (f : MFmt)
  /-- AXOR (R211). -/
  | axor (f : MFmt)
  /-- AXCHG (R211). -/
  | axchg (f : MFmt)
  /-- ACAS (R211). -/
  | acas (f : MFmt)
  /-- ATILE (R213). -/
  | atile (f : MFmt)
  /-- COPY (R216). -/
  | copy (f : MFmt)
  /-- COPYIN (R216). -/
  | copyin (f : MFmt)
  /-- COPYOUT (R216). -/
  | copyout (f : MFmt)
  /-- COPYT (R216). -/
  | copyt (f : MFmt)
  /-- BATCH (R217). -/
  | batch (f : YFmt)
  /-- WAITB (R218). -/
  | waitb (f : YFmt)
  /-- WAITBN (R218). -/
  | waitbn (f : YFmt)
  /-- BQUERY (R218). -/
  | bquery (f : YFmt)
  /-- MMA (R247). -/
  | mma (f : XFmt)
  /-- MMA_GRP (R253). -/
  | mmaGrp (f : XFmt)
  /-- MMA_LUT (R255). -/
  | mmaLut (f : XFmt)
  /-- MMA_SA (R261). -/
  | mmaSa (f : XFmt)
  /-- LUTB (R254). -/
  | lutb (f : XFmt)
  /-- BLOAD (R256). -/
  | bload (f : XFmt)
  /-- ACLR (R257). -/
  | aclr (f : XFmt)
  /-- AMOVR (R257). -/
  | amovr (f : XFmt)
  /-- AMOVW (R257). -/
  | amovw (f : XFmt)
  /-- ASCALE (R257). -/
  | ascale (f : XFmt)
  /-- DRAIN (R258). -/
  | drain (f : XFmt)
  /-- DRAIN_ADD (R259). -/
  | drainAdd (f : XFmt)
  /-- LEND (R260). -/
  | lend (f : XFmt)
  /-- RECALL (R260). -/
  | recall (f : XFmt)
  /-- ASTAT (R262). -/
  | astat (f : XFmt)
  /-- SAMPLE (R286). -/
  | sample (f : GFmt)
  /-- SAMPLE_N (R276). -/
  | sampleN (f : GFmt)
  /-- GATHER (R286). -/
  | gather (f : GFmt)
  /-- TEXQ (R286). -/
  | texq (f : GFmt)
  /-- WPIN (R282). -/
  | wpin (f : GFmt)
  /-- WUNPIN (R282). -/
  | wunpin (f : GFmt)
  /-- WINV (R283). -/
  | winv (f : GFmt)
  /-- RNG (R286). -/
  | rng (f : GFmt)
  /-- RAY_PIN (R304). -/
  | rayPin (f : GFmt)
  /-- RAY_TRACE (R305). -/
  | rayTrace (f : GFmt)
  /-- RAY_NEXT (R307). -/
  | rayNext (f : GFmt)
  /-- RAY_UNPIN (R304). -/
  | rayUnpin (f : GFmt)
  /-- BVH_BUILD (R310). -/
  | bvhBuild (f : GFmt)
  /-- BVH_REFIT (R310). -/
  | bvhRefit (f : GFmt)
  /-- BVH_BAL (R310). -/
  | bvhBal (f : GFmt)
  /-- BVH_PUB (R311). -/
  | bvhPub (f : GFmt)
  /-- BAR (R318). -/
  | bar (f : YFmt)
  /-- BAR_CL (R318). -/
  | barCl (f : YFmt)
  /-- ARRIVE (R318). -/
  | arrive (f : YFmt)
  /-- WAITBAR (R319). -/
  | waitbar (f : YFmt)
  /-- COLL_RED (R326). -/
  | collRed (f : YFmt)
  /-- COLL_GATH (R326). -/
  | collGath (f : YFmt)
  /-- COLL_SCAT (R326). -/
  | collScat (f : YFmt)
  /-- COLL_BCAST (R326). -/
  | collBcast (f : YFmt)
  /-- COLL_WAIT (R328). -/
  | collWait (f : YFmt)
  /-- GATE (R333). -/
  | gate (f : YFmt)
  /-- GATERET (R334). -/
  | gateret (f : YFmt)
  /-- OBJ_GRANT (R336). -/
  | objGrant (f : YFmt)
  /-- NOP (R343). -/
  | nop (f : YFmt)
  /-- TRAP (R338). -/
  | trap (f : YFmt)
  /-- RETT (R339). -/
  | rett (f : YFmt)
  /-- SREAD (R340). -/
  | sread (f : YFmt)
  /-- SWRITE (R340). -/
  | swrite (f : YFmt)
  /-- PHINT (R341). -/
  | phint (f : YFmt)
  /-- ENTER (R342). -/
  | enter (f : YFmt)
  /-- LEAVE (R342). -/
  | leave (f : YFmt)
  /-- BRK (R338). -/
  | brk (f : YFmt)
  /-- WAIT_CLK (R343). -/
  | waitClk (f : YFmt)
  /-- YIELD (R361). -/
  | yield (f : YFmt)
  /-- MARK (R342). -/
  | mark (f : YFmt)
  /-- DERIVE (R220). -/
  | derive (f : VFmt)
  /-- NARROW (R220). -/
  | narrow (f : VFmt)
  /-- REFADD (R220). -/
  | refadd (f : VFmt)
  /-- REFOFF (R220). -/
  | refoff (f : VFmt)
  /-- REFSET (R220). -/
  | refset (f : VFmt)
  /-- REFCMP (R220). -/
  | refcmp (f : VFmt)
  /-- REFCHK (R220). -/
  | refchk (f : VFmt)
  /-- OBJQ (R221). -/
  | objq (f : VFmt)
  /-- RELAYOUT (R223). -/
  | relayout (f : VFmt)
  /-- RLWAIT (R223). -/
  | rlwait (f : VFmt)
  /-- TADDR (R222). -/
  | taddr (f : VFmt)
  /-- TDESC (R221). -/
  | tdesc (f : VFmt)
  /-- NOT_AN_INSTRUCTION (R438): issue of a word that is not an instruction raises cause 0x40. -/
  | notAnInstruction (w : DWord)
  /-- HOLD_LIMIT (R36): A hold ends after the wave's other fragments issue 4,096 instructions. -/
  | holdLimit (wave frag : Nat)
  /-- LONG_LATENCY_COMPLETE (R107): A long-latency instruction writes its result for a slice. -/
  | longLatencyComplete (wave : Nat) (ended : LatencyEnd)
  /-- STORE_ACKNOWLEDGE (R185): A write is acknowledged at its point of coherence. -/
  | storeAcknowledge (store : Nat)
  /-- LATE_CONDITION (R455): A residency, translation or data condition found after issue traps, kills or damages. -/
  | lateCondition (wave pend : Nat) (c : LateCause)
  /-- COPY_COMPLETE (R216): the copy engine finishes a copy and its batch may complete. -/
  | copyComplete (copy : Nat)
  /-- MATRIX_OP_COMPLETE (R250): A matrix operation, BLOAD or drain completes after its checks and repeats. -/
  | matrixOpComplete (op : Nat) (outcome : EngineOutcome)
  /-- WEIGHT_FILL_COMPLETE (R281): A network image fill ends and is validated. -/
  | weightFillComplete (core fill : Nat)
  /-- RAY_TRAVERSAL_END (R306): A lane's traversal reaches a hit, miss or call-out and writes its result. -/
  | rayTraversalEnd (wave lane : Nat)
  /-- ARMATURE_OP_START (R309): the Armature engine takes the next builder operation and reclaims generations. -/
  | armatureOpStart (die : BitVec 2)
  /-- ARMATURE_OP_COMPLETE (R310): A builder operation writes STATUS and completes its batch. -/
  | armatureOpComplete (die : BitVec 2)
  /-- COLLECTIVE_COMPLETE (R326): the collective engine writes destinations and CSTAT. -/
  | collectiveComplete (coll : Nat) (outcome : EngineOutcome)
  /-- RASTER_TRIANGLE (R296): A raster unit takes a triangle record and emits fragment records. -/
  | rasterTriangle (launch : Nat) (binding : BitVec 1)
  /-- RASTER_MERGE (R299): A raster unit applies a merge record to the render targets. -/
  | rasterMerge (launch : Nat) (binding : BitVec 1)
  /-- MIGRATION_MOVE (R191): the migration engine takes a granule request and starts moving it. -/
  | migrationMove (die : BitVec 2)
  /-- GRANULE_ARRIVAL (R191): A granule copy ends, the entry is written and parked accesses replay. -/
  | granuleArrival (die : BitVec 2) (move : Nat)
  /-- CONVERSION_TILE (R197): the Chisel engine converts one 4 KiB target tile. -/
  | conversionTile (conv tile : Nat)
  /-- RESIDENCY_TIMEOUT (R457): A granule request waits RESLIM without a frame and fails. -/
  | residencyTimeout (die : BitVec 2) (request : Nat)
  /-- CONVERSION_WAIT_TIMEOUT (R458): A conversion sets no bit for RESLIM and its waiters fail. -/
  | conversionWaitTimeout (conv : Nat)
  /-- CONTEXT (R352): packet that sets a context's scheduling fields, rings, swap-out or resume. -/
  | context (die : BitVec 2) (q : BitVec 11)
  /-- OBJINV (R351): packet that invalidates an object entry in every object cache. -/
  | objinv (die : BitVec 2) (q : BitVec 11)
  /-- SIGNAL (R351): packet that writes or adds to a signal word with a release. -/
  | signal (die : BitVec 2) (q : BitVec 11)
  /-- WAIT (R351): packet that blocks its queue until a signal condition holds. -/
  | wait (die : BitVec 2) (q : BitVec 11)
  /-- LAUNCH (R354): packet that is checked and accepted as a launch. -/
  | launch (die : BitVec 2) (q : BitVec 11)
  /-- NOP_PACKET (R350): packet with no effect. -/
  | nopPacket (die : BitVec 2) (q : BitVec 11)
  /-- QUEUE_DOORBELL (R378): A doorbell write records a queue's new WPTR. -/
  | queueDoorbell (off : BitVec 26) (bytes : Nat) (wptr : DWord)
  /-- QUEUE_RESTART (R494): writing a QSTOP bit restarts a stopped queue. -/
  | queueRestart (die : BitVec 2) (w : BitVec 5) (bits : DWord)
  /-- LAUNCH_REPLICA (R376): A replicated multi-package LAUNCH arrives over Obton and is checked. -/
  | launchReplica (from_ : BitVec 6) (ctx : BitVec 12) (dom : BitVec 16) (packet : List Byte)
  /-- START_ARRIVAL (R46): an arrival stamped with a start generation is received. -/
  | startArrival (from_ : BitVec 6) (g : Word)
  /-- LAUNCH_REJECTION_STAMPED (R495): A rejection stamped G abandons the launch on every package. -/
  | launchRejectionStamped (from_ : BitVec 6) (g : Word)
  /-- START_TIMEOUT (R495): arrivals from all packages are not held within 10 ms and the launch is abandoned. -/
  | startTimeout (launch : Nat)
  /-- ARRIVAL_EXPIRY (R495): A kept arrival of an unknown generation is discarded after 10 ms. -/
  | arrivalExpiry (from_ : BitVec 6) (g : Word)
  /-- PACKAGE_END_REPORT (R376): A package reports launch end to the accepting package. -/
  | packageEndReport (from_ : BitVec 6) (g : Word)
  /-- CLUSTER_PLACEMENT (R355): the dispatcher places a waiting cluster once a die can take it. -/
  | clusterPlacement (launch : Nat)
  /-- SLICE_END (R360): A context's time slice ends and contended dies swap contexts out. -/
  | sliceEnd (core : Nat) (ctx : BitVec 12)
  /-- PREEMPT_STEP_PHASE (R362): the core starts the step phase of a pre-emption request. -/
  | preemptStepPhase (wg : Nat)
  /-- STEP_PHASE_TIMEOUT (R362): After 4,096 clocks remaining fragments stop before their next instruction. -/
  | stepPhaseTimeout (wg : Nat)
  /-- WORKGROUP_SAVE (R367): the save engine writes a stopped workgroup's image. -/
  | workgroupSave (wg : Nat)
  /-- WORKGROUP_RESTORE (R372): A swapped-out workgroup is restored on a core of its die. -/
  | workgroupRestore (wg : Nat)
  /-- WAIT_CLK_EXPIRY (R343): the die counter reaches a WAIT.CLK target and the fragment runs on. -/
  | waitClkExpiry (wave frag : Nat)
  /-- HALT_COMPLETE (R488): A halting wave's write-backs land, STATUS.HALT sets and a halt record is written. -/
  | haltComplete (wave : Nat)
  /-- DEBUG_SESSION_OPEN (R487): writing DBGCTL.EN = 1 attaches a session to a context. -/
  | debugSessionOpen (n : BitVec 3) (value : DWord)
  /-- DEBUG_SESSION_CLOSE (R487): writing DBGCTL.EN = 0 clears BRKEN and resumes. -/
  | debugSessionClose (n : BitVec 3)
  /-- DEBUG_HALT (R488): writing DBGCTL.HALT requests a halt of the context. -/
  | debugHalt (n : BitVec 3)
  /-- DEBUG_RESUME (R488): writing DBGCTL.RESUME resumes the context's halted waves. -/
  | debugResume (n : BitVec 3)
  /-- DBGDATA_READ (R489): reads the selected item of a halted wave's state. -/
  | dbgdataRead (n : BitVec 3)
  /-- DBGDATA_WRITE (R489): writes the selected item of a halted wave's state. -/
  | dbgdataWrite (n : BitVec 3) (value : DWord)
  /-- ISLAND_WRITE (R393): writing ISLAND TGT requests a frequency change. -/
  | islandWrite (i : BitVec 6) (value : DWord)
  /-- FREQUENCY_CHANGE_END (R393): an island's frequency change ends and a pending target applies. -/
  | frequencyChangeEnd (i : BitVec 6)
  /-- REGISTER_WRITE (R377): write to a platform register with no row of its own. -/
  | registerWrite (offset : BitVec 16) (value : DWord)
  /-- IDENTIFY (R395): mailbox command returning DEVID, image version and rollback counter. -/
  | identify
  /-- FWWRITE (R395): mailbox command writing payload bytes into the flash image. -/
  | fwwrite
  /-- FWACTIVATE (R395): mailbox command that verifies the image and resets the dies. -/
  | fwactivate
  /-- STATUS (R395): mailbox command returning the last boot's verification result. -/
  | status
  /-- POWER_ON_RESET (R390): reset: the boot ROM verifies the firmware image and advances the rollback counter. -/
  | powerOnReset
  /-- GET_VERSION (R390): SPDM request for supported versions. -/
  | getVersion
  /-- GET_CAPABILITIES (R390): SPDM request for capabilities. -/
  | getCapabilities
  /-- NEGOTIATE_ALGORITHMS (R390): SPDM request to negotiate algorithms. -/
  | negotiateAlgorithms (ecdsaP256 sha256 : Bool)
  /-- GET_DIGESTS (R390): SPDM request for certificate digests. -/
  | getDigests
  /-- GET_CERTIFICATE (R390): SPDM request for the certificate chain. -/
  | getCertificate (offset length : BitVec 16)
  /-- CHALLENGE (R390): SPDM challenge signed with the identity key. -/
  | challenge (nonce : List Byte)
  /-- GET_MEASUREMENTS (R390): SPDM request for the four measurements. -/
  | getMeasurements (index : BitVec 8)
  /-- FIRMWARE_REMEASURE (R432): periodic re-measurement of the running firmware. -/
  | firmwareRemeasure
  /-- SECURITY_ALARM (R433): an alarm source latches and its response is taken. -/
  | securityAlarm (sources : BitVec 8)
  /-- THERMAL_THROTTLE (R394): A 100 °C junction lowers CUR in the hottest islands and sets THROT. -/
  | thermalThrottle (temp : BitVec 8) (islands : List (BitVec 6 × BitVec 8))
  /-- THERMAL_TRIP (R394): A 110 °C junction latches the trip, stops every core and kills every context. -/
  | thermalTrip (temp : BitVec 8)
  /-- HOST_MEM_ACCESS (R379): A host CXL.mem access to device memory at the home L2. -/
  | hostMemAccess (addr : Nat) (a : HostAccess)
  /-- HOST_CACHE_SNOOP (R379): A host write snoops out device copies of a host-window line. -/
  | hostCacheSnoop (pasid : BitVec 20) (iova : Nat) (bytes : List Byte)
  /-- ATS_INVALIDATION (R379): an ATS invalidation request completes after users of the translation finish. -/
  | atsInvalidation (pasid : BitVec 20) (granule : Nat)
  /-- EXPANDER_LINK_LOSS (R466): an expander link is lost: capacity reads 0 and its lines and requests fail. -/
  | expanderLinkLoss (d : BitVec 2)
  /-- SCRUB_PASS (R465): A scrub pass rewrites corrected HBM data and retires frames. DESIGN CHOICE (log 115): the row also
  carries the other errors that have been found, for which the table has no row (R460, R473, R478). -/
  | scrubPass (die : BitVec 2) (corrected : List (Nat × Nat)) (found : ScrubFindings)
  /-- SKEW_MEASUREMENT (R391): the millisecond measurement of die and package skews. -/
  | skewMeasurement (pkg : Bool) (index : BitVec 6) (off : BitVec 48) (unc : BitVec 15)
  /-- FLIT_DATA (R382): A data flit is received, checked and delivered in order per VC. -/
  | flitData (port : BitVec 6) (bytes : List Byte)
  /-- FLIT_IDLE (R381): an idle flit is received. -/
  | flitIdle (port : BitVec 6) (bytes : List Byte)
  /-- FLIT_ACKNOWLEDGE (R382): an acknowledge flit frees the sender's kept flits. -/
  | flitAcknowledge (port : BitVec 6) (bytes : List Byte)
  /-- FLIT_REPLAY_REQUEST (R382): A replay request makes the sender resend from the named flit. -/
  | flitReplayRequest (port : BitVec 6) (bytes : List Byte)
  /-- PORT_RETRAIN (R498): more than 1,024 replays in 1 ms make a port retrain. -/
  | portRetrain (port : BitVec 6)
  /-- PORT_TRAINING_END (R498): retraining ends with the lanes that passed, or the port down. -/
  | portTrainingEnd (port : BitVec 6) (lanes : BitVec 3) (peer : BitVec 6)
  /-- PACKAGE_LOSS (R499): A package unreachable for 1 ms is lost. -/
  | packageLoss (pkg : BitVec 6)
  /-- PACKAGE_LOSS_REPORT (R500): A loss reported over the fabric takes the effects of R500. -/
  | packageLossReport (pkg : BitVec 6)
  /-- TRANSPORT_DOORBELL (R387): A connection doorbell write gives a send or receive ring's producer count. -/
  | transportDoorbell (off : BitVec 26) (bytes : Nat) (value : DWord)
  /-- WR_WRITE (R386): WRITE work request sending bytes to the peer. -/
  | wrWrite (die : BitVec 2) (c : BitVec 10)
  /-- WR_READ (R386): READ work request fetching bytes from the peer. -/
  | wrRead (die : BitVec 2) (c : BitVec 10)
  /-- WR_SEND (R386): SEND work request placing bytes in the peer's receive buffer. -/
  | wrSend (die : BitVec 2) (c : BitVec 10)
  /-- FRAME_WRITE (R389): A received WRITE frame is checked and applied in sequence. -/
  | frameWrite (die : BitVec 2) (bytes : List Byte)
  /-- FRAME_READ_REQUEST (R389): A received READ request is answered with READ responses. -/
  | frameReadRequest (die : BitVec 2) (bytes : List Byte)
  /-- FRAME_READ_RESPONSE (R389): A received READ response is written to the local destination. -/
  | frameReadResponse (die : BitVec 2) (bytes : List Byte)
  /-- FRAME_SEND (R386): A received SEND frame fills the oldest receive request, or is NAKed. -/
  | frameSend (die : BitVec 2) (bytes : List Byte)
  /-- FRAME_ACK (R389): A received ACK completes acknowledged work requests. -/
  | frameAck (die : BitVec 2) (bytes : List Byte)
  /-- FRAME_NAK (R389): A received NAK makes the sender resend from the NAK point. -/
  | frameNak (die : BitVec 2) (bytes : List Byte)
  /-- TRANSPORT_RETRANSMIT (R389): After 50 µs unacknowledged frames are resent, up to 7 tries. -/
  | transportRetransmit (die : BitVec 2) (c : BitVec 10)
  /-- COMPLETION_RECORD_WRITE (R389): A waiting completion record is written once the ring has room. -/
  | completionRecordWrite (die : BitVec 2) (c : BitVec 10)
  /-- ETHERNET_LINK_CHANGE (R501): the Ethernet link goes up or down. -/
  | ethernetLinkChange (die : BitVec 2) (up : Bool)
  /-- THERMAL_LIMIT_RELEASE (R393): the junction temperature falls back below the thermal limit, THROT clears and CUR may return towards TGT. -/
  | thermalLimitRelease (temp : BitVec 8)
  deriving DecidableEq, Repr

end Sys2Proof
end

