-- ==== Sys2Proof/Decode.lean ====
section
/-!
DEFINITION. The Tyreiz encoding: operand specifiers, the six formats, the opcode map, the decoder from bytes and the
encoder. Every bit of an instruction's words is held in the instruction, so nothing is dropped.
-/

namespace Sys2Proof

/-! ## Operand specifiers (R94) -/

/-- The special operands in specifier order, from 0x18C (R94). -/
def specials : List Special :=
  [.lane, .slice, .wave, .wgx, .wgy, .wgz, .crank, .stage, .ngx, .ngy, .ngz, .ncl, .nwave, .nstage, .prank, .npkg,
   .quad, .core, .die, .kdatalo, .kdatahi, .launch]

/-- The place of a special operand in specifier order. -/
def Special.index : Special → Nat
  | .lane => 0 | .slice => 1 | .wave => 2 | .wgx => 3 | .wgy => 4 | .wgz => 5 | .crank => 6 | .stage => 7
  | .ngx => 8 | .ngy => 9 | .ngz => 10 | .ncl => 11 | .nwave => 12 | .nstage => 13 | .prank => 14 | .npkg => 15
  | .quad => 16 | .core => 17 | .die => 18 | .kdatalo => 19 | .kdatahi => 20 | .launch => 21

/-- The operand a 9-bit specifier names (R94). -/
def Operand.ofBits (w : BitVec 9) : Operand :=
  let n := w.toNat
  if n < 0x100 then .v (BitVec.ofNat 8 n)
  else if n < 0x180 then .s (BitVec.ofNat 7 n)
  else if n < 0x188 then .k (BitVec.ofNat 3 n)
  else if n < 0x18C then .x (BitVec.ofNat 2 n)
  else if n < 0x1A2 then .special (specials.getD (n - 0x18C) .lane)
  else if n < 0x1C0 then .reservedA (Fin.ofNat 30 (n - 0x1A2))
  else if n < 0x1E0 then .int (BitVec.ofNat 5 n)
  else if n < 0x1F0 then .neg (BitVec.ofNat 4 n)
  else if n < 0x1F8 then .flt (BitVec.ofNat 3 n)
  else if n < 0x1FE then .reservedB (Fin.ofNat 6 (n - 0x1F8))
  else if n = 0x1FE then .none
  else .lit

/-- The 9-bit specifier of an operand (R94). -/
def Operand.bits : Operand → BitVec 9
  | .v n => BitVec.ofNat 9 n.toNat
  | .s n => BitVec.ofNat 9 (0x100 + n.toNat)
  | .k n => BitVec.ofNat 9 (0x180 + n.toNat)
  | .x n => BitVec.ofNat 9 (0x188 + n.toNat)
  | .special p => BitVec.ofNat 9 (0x18C + p.index)
  | .reservedA i => BitVec.ofNat 9 (0x1A2 + i.val)
  | .int n => BitVec.ofNat 9 (0x1C0 + n.toNat)
  | .neg n => BitVec.ofNat 9 (0x1E0 + n.toNat)
  | .flt n => BitVec.ofNat 9 (0x1F0 + n.toNat)
  | .reservedB i => BitVec.ofNat 9 (0x1F8 + i.val)
  | .none => 0x1FE#9
  | .lit => 0x1FF#9

/-- The type codes in order (R99). -/
def Ty.ofBits (w : BitVec 4) : Ty :=
  match w.toNat with
  | 0 => .s32 | 1 => .z32 | 2 => .f32 | 3 => .f16 | 4 => .bf16 | 5 => .s16 | 6 => .z16 | 7 => .s8
  | 8 => .z8 | 9 => .f64 | 10 => .s64 | 11 => .z64 | 12 => .e4m3 | 13 => .e5m2 | 14 => .mxf4 | _ => .t15

/-- The code of a type (R99). -/
def Ty.bits : Ty → BitVec 4
  | .s32 => 0 | .z32 => 1 | .f32 => 2 | .f16 => 3 | .bf16 => 4 | .s16 => 5 | .z16 => 6 | .s8 => 7
  | .z8 => 8 | .f64 => 9 | .s64 => 10 | .z64 => 11 | .e4m3 => 12 | .e5m2 => 13 | .mxf4 => 14 | .t15 => 15

/-! ## Formats (R98 to R105) -/

/-- The specifier in bits [lo + 8 : lo]. -/
def specAt (w : DWord) (lo : Nat) : Operand := Operand.ofBits (w.extractLsb' lo 9)

/-- The V format (R98). -/
def VFmt.ofWord (w : DWord) (ext : Option DWord) : VFmt :=
  { d := specAt w 43, a := specAt w 34, b := specAt w 25, c := specAt w 16, pred := w.extractLsb' 13 3,
    neg := w.getLsbD 12, ty := Ty.ofBits (w.extractLsb' 8 4), rnd := w.extractLsb' 5 3, sat := w.getLsbD 4,
    la := w.extractLsb' 0 4, ext := ext }

/-- Bits [51:0] of a V-format word. -/
def VFmt.body (f : VFmt) : BitVec 52 :=
  f.d.bits ++ f.a.bits ++ f.b.bits ++ f.c.bits ++ f.pred ++ BitVec.ofBool f.neg ++ f.ty.bits ++ f.rnd ++
    BitVec.ofBool f.sat ++ f.la

/-- The M format (R100). -/
def MFmt.ofWord (w : DWord) (ext : Option DWord) : MFmt :=
  { data := specAt w 43, ref := specAt w 34, index := specAt w 25, imm := w.extractLsb' 16 9,
    pred := w.extractLsb' 13 3, neg := w.getLsbD 12, size := w.extractLsb' 9 3, scope := w.extractLsb' 6 3,
    order := w.extractLsb' 4 2, la := w.extractLsb' 0 4, ext := ext }

/-- Bits [51:0] of an M-format word. -/
def MFmt.body (f : MFmt) : BitVec 52 :=
  f.data.bits ++ f.ref.bits ++ f.index.bits ++ f.imm ++ f.pred ++ BitVec.ofBool f.neg ++ f.size ++ f.scope ++
    f.order ++ f.la

/-- The C format (R102). -/
def CFmt.ofWord (w : DWord) (ext : Option DWord) : CFmt :=
  { offset := w.extractLsb' 28 24, cond := specAt w 19, kind := w.extractLsb' 16 3, pred := w.extractLsb' 13 3,
    neg := w.getLsbD 12, zero := w.extractLsb' 4 8, la := w.extractLsb' 0 4, ext := ext }

/-- Bits [51:0] of a C-format word. -/
def CFmt.body (f : CFmt) : BitVec 52 :=
  f.offset ++ f.cond.bits ++ f.kind ++ f.pred ++ BitVec.ofBool f.neg ++ f.zero ++ f.la

/-- The target register that CALLI and JMPI name in [36:28] (R102). -/
def CFmt.target (f : CFmt) : Operand := Operand.ofBits (f.offset.extractLsb' 0 9)

/-- The X format (R103). -/
def XFmt.ofWord (w : DWord) (ext : Option DWord) : XFmt :=
  { tile := w.extractLsb' 48 4, abase := specAt w 39, bbase := specAt w 30, sop := specAt w 21,
    shape := w.extractLsb' 16 5, pred := w.extractLsb' 13 3, neg := w.getLsbD 12,
    ity := Ty.ofBits (w.extractLsb' 8 4), mode := w.extractLsb' 4 4, la := w.extractLsb' 0 4, ext := ext }

/-- Bits [51:0] of an X-format word. -/
def XFmt.body (f : XFmt) : BitVec 52 :=
  f.tile ++ f.abase.bits ++ f.bbase.bits ++ f.sop.bits ++ f.shape ++ f.pred ++ BitVec.ofBool f.neg ++ f.ity.bits ++
    f.mode ++ f.la

/-- The G format (R104). -/
def GFmt.ofWord (w : DWord) (ext : Option DWord) : GFmt :=
  { dbase := specAt w 43, cbase := specAt w 34, hdr := specAt w 25, extra := specAt w 16,
    pred := w.extractLsb' 13 3, neg := w.getLsbD 12, ctl := w.extractLsb' 4 8, la := w.extractLsb' 0 4, ext := ext }

/-- Bits [51:0] of a G-format word. -/
def GFmt.body (f : GFmt) : BitVec 52 :=
  f.dbase.bits ++ f.cbase.bits ++ f.hdr.bits ++ f.extra.bits ++ f.pred ++ BitVec.ofBool f.neg ++ f.ctl ++ f.la

/-- The Y format (R105). -/
def YFmt.ofWord (w : DWord) (ext : Option DWord) : YFmt :=
  { imm := w.extractLsb' 16 36, pred := w.extractLsb' 13 3, neg := w.getLsbD 12, sub := w.extractLsb' 4 8,
    la := w.extractLsb' 0 4, ext := ext }

/-- Bits [51:0] of a Y-format word. -/
def YFmt.body (f : YFmt) : BitVec 52 :=
  f.imm ++ f.pred ++ BitVec.ofBool f.neg ++ f.sub ++ f.la

/-- The operand specifier of layouts Y1 and Y2, bits [51:43] (R105). -/
def YFmt.op1 (f : YFmt) : Operand := Operand.ofBits (f.imm.extractLsb' 27 9)

/-- The 27-bit immediate of layout Y1 (R105). -/
def YFmt.imm27 (f : YFmt) : BitVec 27 := f.imm.extractLsb' 0 27

/-- The second operand specifier of layout Y2, bits [42:34] (R105). -/
def YFmt.op2 (f : YFmt) : Operand := Operand.ofBits (f.imm.extractLsb' 18 9)

/-- The 18-bit immediate of layout Y2 (R105). -/
def YFmt.imm18 (f : YFmt) : BitVec 18 := f.imm.extractLsb' 0 18

/-! ## The opcode map (R109) -/

/-- Class 0x0, format V, in opcode order from 0x00 (R109). -/
def class0 : List (VFmt → Instr) :=
  [.uadd, .uaddc, .usub, .usubb, .umul, .umulhi, .umulw, .udiv, .urem, .umin, .umax, .uand, .uor, .uxor, .unot,
   .ushl, .ushr, .usar, .ubfe, .ubfi, .upopc, .uclz, .ucmp, .usel, .umov]

/-- Class 0x1, format V, in opcode order from 0x00 (R109). -/
def class1 : List (VFmt → Instr) :=
  [.add, .addc, .sub, .subb, .mul, .mulhi, .mulw, .mad, .div, .rem, .min, .max, .abs, .and, .or, .xor, .not, .shl,
   .shr, .sar, .bfe, .bfi, .brev, .popc, .clz, .cmp, .sel, .mov, .movx, .movxs]

/-- Class 0x2, format V, in opcode order from 0x00 (R109). -/
def class2 : List (VFmt → Instr) :=
  [.fadd, .fsub, .fmul, .ffma, .fmin, .fmax, .fabs, .fneg, .fcmp, .fclass, .frcp, .frsq, .fsqrt, .fdiv, .fexp2,
   .flog2, .fsin, .fcos, .ftanh, .ffloor, .fceil, .ftrunc, .frint, .ffrac, .fldexp, .fexpo, .fmant, .fmed3, .fdot2,
   .fdot4]

/-- Class 0x3, format V, in opcode order from 0x00 (R109). -/
def class3 : List (VFmt → Instr) :=
  [.cvt, .cvtmx, .pack, .unpack, .bperm, .shfl, .shflup, .shfldn, .shflx, .voteany, .voteall, .voteeq, .ballot,
   .scan, .scanx, .reduce, .compact, .expand, .rdfirst, .mxscale]

/-- Class 0x4, format C, in opcode order from 0x00 (R109). -/
def class4C : List (CFmt → Instr) :=
  [.bra, .brp, .bru, .call, .calli, .ret, .jmpi, .exit, .regang]

/-- Class 0x4, format V, in opcode order from 0x10 (R109). -/
def class4V : List (VFmt → Instr) :=
  [.pand, .por, .pxor, .pandn, .pnot, .pmov]

/-- Class 0x5, format M, in opcode order from 0x00 (R109). -/
def class5 : List (MFmt → Instr) :=
  [.ld, .st, .lds, .sts, .ldsr, .stsr, .sld, .sst, .tld, .tst, .pref, .evict, .fence, .sqpush, .sqpop]

/-- Class 0x6, format M, in opcode order from 0x00 (R109). -/
def class6 : List (MFmt → Instr) :=
  [.aadd, .afadd, .amin, .amax, .aand, .aor, .axor, .axchg, .acas, .atile]

/-- Class 0x7, format M, in opcode order from 0x00 (R109). -/
def class7M : List (MFmt → Instr) :=
  [.copy, .copyin, .copyout, .copyt]

/-- Class 0x7, format Y, in opcode order from 0x08 (R109). -/
def class7Y : List (YFmt → Instr) :=
  [.batch, .waitb, .waitbn, .bquery]

/-- Class 0x8, format X, in opcode order from 0x00 (R109). -/
def class8 : List (XFmt → Instr) :=
  [.mma, .mmaGrp, .mmaLut, .mmaSa, .lutb, .bload, .aclr, .amovr, .amovw, .ascale, .drain, .drainAdd, .lend,
   .recall, .astat]

/-- Class 0x9, format G, in opcode order from 0x00 (R109). -/
def class9 : List (GFmt → Instr) :=
  [.sample, .sampleN, .gather, .texq, .wpin, .wunpin, .winv, .rng, .rayPin, .rayTrace, .rayNext, .rayUnpin,
   .bvhBuild, .bvhRefit, .bvhBal, .bvhPub]

/-- Class 0xA, format Y, in opcode order from 0x00 (R109). -/
def classA : List (YFmt → Instr) :=
  [.bar, .barCl, .arrive, .waitbar, .collRed, .collGath, .collScat, .collBcast, .collWait, .gate, .gateret,
   .objGrant]

/-- Class 0xB, format Y, in opcode order from 0x00 (R109). -/
def classB : List (YFmt → Instr) :=
  [.nop, .trap, .rett, .sread, .swrite, .phint, .enter, .leave, .brk, .waitClk, .yield, .mark]

/-- Class 0xC, format V, in opcode order from 0x00 (R109). -/
def classC : List (VFmt → Instr) :=
  [.derive, .narrow, .refadd, .refoff, .refset, .refcmp, .refchk, .objq, .relayout, .rlwait, .taddr, .tdesc]

/-- The constructor a class and an opcode name, applied to a format's fields: the opcode map of R109. -/
def instrAt (cls op : Nat) (w : DWord) (ext : Option DWord) : Option Instr :=
  match cls with
  | 0x0 => (class0[op]?).map (· (VFmt.ofWord w ext))
  | 0x1 => (class1[op]?).map (· (VFmt.ofWord w ext))
  | 0x2 => (class2[op]?).map (· (VFmt.ofWord w ext))
  | 0x3 => (class3[op]?).map (· (VFmt.ofWord w ext))
  | 0x4 =>
    if op < 0x10 then (class4C[op]?).map (· (CFmt.ofWord w ext))
    else (class4V[op - 0x10]?).map (· (VFmt.ofWord w ext))
  | 0x5 => (class5[op]?).map (· (MFmt.ofWord w ext))
  | 0x6 => (class6[op]?).map (· (MFmt.ofWord w ext))
  | 0x7 =>
    if op < 0x08 then (class7M[op]?).map (· (MFmt.ofWord w ext))
    else (class7Y[op - 0x08]?).map (· (YFmt.ofWord w ext))
  | 0x8 => (class8[op]?).map (· (XFmt.ofWord w ext))
  | 0x9 => (class9[op]?).map (· (GFmt.ofWord w ext))
  | 0xA => (classA[op]?).map (· (YFmt.ofWord w ext))
  | 0xB => (classB[op]?).map (· (YFmt.ofWord w ext))
  | 0xC => (classC[op]?).map (· (VFmt.ofWord w ext))
  | _ => none

/-- The class of a word, bits [63:60] (R91). -/
def wordClass (w : DWord) : Nat := (w.extractLsb' 60 4).toNat

/-- The opcode of a word, bits [59:52] (R92). -/
def wordOp (w : DWord) : Nat := (w.extractLsb' 52 8).toNat

/-- The fields of an instruction by format; `none` for a row that is not an instruction. -/
def Instr.form : Instr → Form
  | .uadd f => .v f
  | .uaddc f => .v f
  | .usub f => .v f
  | .usubb f => .v f
  | .umul f => .v f
  | .umulhi f => .v f
  | .umulw f => .v f
  | .udiv f => .v f
  | .urem f => .v f
  | .umin f => .v f
  | .umax f => .v f
  | .uand f => .v f
  | .uor f => .v f
  | .uxor f => .v f
  | .unot f => .v f
  | .ushl f => .v f
  | .ushr f => .v f
  | .usar f => .v f
  | .ubfe f => .v f
  | .ubfi f => .v f
  | .upopc f => .v f
  | .uclz f => .v f
  | .ucmp f => .v f
  | .usel f => .v f
  | .umov f => .v f
  | .add f => .v f
  | .addc f => .v f
  | .sub f => .v f
  | .subb f => .v f
  | .mul f => .v f
  | .mulhi f => .v f
  | .mulw f => .v f
  | .mad f => .v f
  | .div f => .v f
  | .rem f => .v f
  | .min f => .v f
  | .max f => .v f
  | .abs f => .v f
  | .and f => .v f
  | .or f => .v f
  | .xor f => .v f
  | .not f => .v f
  | .shl f => .v f
  | .shr f => .v f
  | .sar f => .v f
  | .bfe f => .v f
  | .bfi f => .v f
  | .brev f => .v f
  | .popc f => .v f
  | .clz f => .v f
  | .cmp f => .v f
  | .sel f => .v f
  | .mov f => .v f
  | .movx f => .v f
  | .movxs f => .v f
  | .fadd f => .v f
  | .fsub f => .v f
  | .fmul f => .v f
  | .ffma f => .v f
  | .fmin f => .v f
  | .fmax f => .v f
  | .fabs f => .v f
  | .fneg f => .v f
  | .fcmp f => .v f
  | .fclass f => .v f
  | .frcp f => .v f
  | .frsq f => .v f
  | .fsqrt f => .v f
  | .fdiv f => .v f
  | .fexp2 f => .v f
  | .flog2 f => .v f
  | .fsin f => .v f
  | .fcos f => .v f
  | .ftanh f => .v f
  | .ffloor f => .v f
  | .fceil f => .v f
  | .ftrunc f => .v f
  | .frint f => .v f
  | .ffrac f => .v f
  | .fldexp f => .v f
  | .fexpo f => .v f
  | .fmant f => .v f
  | .fmed3 f => .v f
  | .fdot2 f => .v f
  | .fdot4 f => .v f
  | .cvt f => .v f
  | .cvtmx f => .v f
  | .pack f => .v f
  | .unpack f => .v f
  | .mxscale f => .v f
  | .bperm f => .v f
  | .shfl f => .v f
  | .shflup f => .v f
  | .shfldn f => .v f
  | .shflx f => .v f
  | .voteany f => .v f
  | .voteall f => .v f
  | .voteeq f => .v f
  | .ballot f => .v f
  | .scan f => .v f
  | .scanx f => .v f
  | .reduce f => .v f
  | .compact f => .v f
  | .expand f => .v f
  | .rdfirst f => .v f
  | .bra f => .c f
  | .brp f => .c f
  | .bru f => .c f
  | .call f => .c f
  | .calli f => .c f
  | .ret f => .c f
  | .jmpi f => .c f
  | .exit f => .c f
  | .regang f => .c f
  | .pand f => .v f
  | .por f => .v f
  | .pxor f => .v f
  | .pandn f => .v f
  | .pnot f => .v f
  | .pmov f => .v f
  | .ld f => .m f
  | .st f => .m f
  | .lds f => .m f
  | .sts f => .m f
  | .ldsr f => .m f
  | .stsr f => .m f
  | .sld f => .m f
  | .sst f => .m f
  | .tld f => .m f
  | .tst f => .m f
  | .pref f => .m f
  | .evict f => .m f
  | .fence f => .m f
  | .sqpush f => .m f
  | .sqpop f => .m f
  | .aadd f => .m f
  | .afadd f => .m f
  | .amin f => .m f
  | .amax f => .m f
  | .aand f => .m f
  | .aor f => .m f
  | .axor f => .m f
  | .axchg f => .m f
  | .acas f => .m f
  | .atile f => .m f
  | .copy f => .m f
  | .copyin f => .m f
  | .copyout f => .m f
  | .copyt f => .m f
  | .batch f => .y f
  | .waitb f => .y f
  | .waitbn f => .y f
  | .bquery f => .y f
  | .mma f => .x f
  | .mmaGrp f => .x f
  | .mmaLut f => .x f
  | .mmaSa f => .x f
  | .lutb f => .x f
  | .bload f => .x f
  | .aclr f => .x f
  | .amovr f => .x f
  | .amovw f => .x f
  | .ascale f => .x f
  | .drain f => .x f
  | .drainAdd f => .x f
  | .lend f => .x f
  | .recall f => .x f
  | .astat f => .x f
  | .sample f => .g f
  | .sampleN f => .g f
  | .gather f => .g f
  | .texq f => .g f
  | .wpin f => .g f
  | .wunpin f => .g f
  | .winv f => .g f
  | .rng f => .g f
  | .rayPin f => .g f
  | .rayTrace f => .g f
  | .rayNext f => .g f
  | .rayUnpin f => .g f
  | .bvhBuild f => .g f
  | .bvhRefit f => .g f
  | .bvhBal f => .g f
  | .bvhPub f => .g f
  | .bar f => .y f
  | .barCl f => .y f
  | .arrive f => .y f
  | .waitbar f => .y f
  | .collRed f => .y f
  | .collGath f => .y f
  | .collScat f => .y f
  | .collBcast f => .y f
  | .collWait f => .y f
  | .gate f => .y f
  | .gateret f => .y f
  | .objGrant f => .y f
  | .nop f => .y f
  | .trap f => .y f
  | .rett f => .y f
  | .sread f => .y f
  | .swrite f => .y f
  | .phint f => .y f
  | .enter f => .y f
  | .leave f => .y f
  | .brk f => .y f
  | .waitClk f => .y f
  | .yield f => .y f
  | .mark f => .y f
  | .derive f => .v f
  | .narrow f => .v f
  | .refadd f => .v f
  | .refoff f => .v f
  | .refset f => .v f
  | .refcmp f => .v f
  | .refchk f => .v f
  | .objq f => .v f
  | .relayout f => .v f
  | .rlwait f => .v f
  | .taddr f => .v f
  | .tdesc f => .v f
  | .notAnInstruction _ => .none
  | .holdLimit _ _ => .none
  | .longLatencyComplete _ _ => .none
  | .storeAcknowledge _ => .none
  | .lateCondition _ _ _ => .none
  | .copyComplete _ => .none
  | .matrixOpComplete _ _ => .none
  | .weightFillComplete _ _ => .none
  | .rayTraversalEnd _ _ => .none
  | .armatureOpStart _ => .none
  | .armatureOpComplete _ => .none
  | .collectiveComplete _ _ => .none
  | .rasterTriangle _ _ => .none
  | .rasterMerge _ _ => .none
  | .migrationMove _ => .none
  | .granuleArrival _ _ => .none
  | .conversionTile _ _ => .none
  | .residencyTimeout _ _ => .none
  | .conversionWaitTimeout _ => .none
  | .context _ _ => .none
  | .objinv _ _ => .none
  | .signal _ _ => .none
  | .wait _ _ => .none
  | .launch _ _ => .none
  | .nopPacket _ _ => .none
  | .queueDoorbell _ _ _ => .none
  | .queueRestart _ _ _ => .none
  | .launchReplica _ _ _ _ => .none
  | .startArrival _ _ => .none
  | .launchRejectionStamped _ _ => .none
  | .startTimeout _ => .none
  | .arrivalExpiry _ _ => .none
  | .packageEndReport _ _ => .none
  | .clusterPlacement _ => .none
  | .sliceEnd _ _ => .none
  | .preemptStepPhase _ => .none
  | .stepPhaseTimeout _ => .none
  | .workgroupSave _ => .none
  | .workgroupRestore _ => .none
  | .waitClkExpiry _ _ => .none
  | .haltComplete _ => .none
  | .debugSessionOpen _ _ => .none
  | .debugSessionClose _ => .none
  | .debugHalt _ => .none
  | .debugResume _ => .none
  | .dbgdataRead _ => .none
  | .dbgdataWrite _ _ => .none
  | .islandWrite _ _ => .none
  | .frequencyChangeEnd _ => .none
  | .registerWrite _ _ => .none
  | .identify => .none
  | .fwwrite => .none
  | .fwactivate => .none
  | .status => .none
  | .powerOnReset => .none
  | .getVersion => .none
  | .getCapabilities => .none
  | .negotiateAlgorithms _ _ => .none
  | .getDigests => .none
  | .getCertificate _ _ => .none
  | .challenge _ => .none
  | .getMeasurements _ => .none
  | .firmwareRemeasure => .none
  | .securityAlarm _ => .none
  | .thermalThrottle _ _ => .none
  | .thermalTrip _ => .none
  | .hostMemAccess _ _ => .none
  | .hostCacheSnoop _ _ _ => .none
  | .atsInvalidation _ _ => .none
  | .expanderLinkLoss _ => .none
  | .scrubPass _ _ _ => .none
  | .skewMeasurement _ _ _ _ => .none
  | .flitData _ _ => .none
  | .flitIdle _ _ => .none
  | .flitAcknowledge _ _ => .none
  | .flitReplayRequest _ _ => .none
  | .portRetrain _ => .none
  | .portTrainingEnd _ _ _ => .none
  | .packageLoss _ => .none
  | .packageLossReport _ => .none
  | .transportDoorbell _ _ _ => .none
  | .wrWrite _ _ => .none
  | .wrRead _ _ => .none
  | .wrSend _ _ => .none
  | .frameWrite _ _ => .none
  | .frameReadRequest _ _ => .none
  | .frameReadResponse _ _ => .none
  | .frameSend _ _ => .none
  | .frameAck _ _ => .none
  | .frameNak _ _ => .none
  | .transportRetransmit _ _ => .none
  | .completionRecordWrite _ _ => .none
  | .ethernetLinkChange _ _ => .none
  | .thermalLimitRelease _ => .none

/-- Class and opcode of an instruction (R109); none for a row that is not an instruction. -/
def Instr.opcode : Instr → Option (BitVec 4 × BitVec 8)
  | .uadd _ => some (0x0, 0x00)
  | .uaddc _ => some (0x0, 0x01)
  | .usub _ => some (0x0, 0x02)
  | .usubb _ => some (0x0, 0x03)
  | .umul _ => some (0x0, 0x04)
  | .umulhi _ => some (0x0, 0x05)
  | .umulw _ => some (0x0, 0x06)
  | .udiv _ => some (0x0, 0x07)
  | .urem _ => some (0x0, 0x08)
  | .umin _ => some (0x0, 0x09)
  | .umax _ => some (0x0, 0x0A)
  | .uand _ => some (0x0, 0x0B)
  | .uor _ => some (0x0, 0x0C)
  | .uxor _ => some (0x0, 0x0D)
  | .unot _ => some (0x0, 0x0E)
  | .ushl _ => some (0x0, 0x0F)
  | .ushr _ => some (0x0, 0x10)
  | .usar _ => some (0x0, 0x11)
  | .ubfe _ => some (0x0, 0x12)
  | .ubfi _ => some (0x0, 0x13)
  | .upopc _ => some (0x0, 0x14)
  | .uclz _ => some (0x0, 0x15)
  | .ucmp _ => some (0x0, 0x16)
  | .usel _ => some (0x0, 0x17)
  | .umov _ => some (0x0, 0x18)
  | .add _ => some (0x1, 0x00)
  | .addc _ => some (0x1, 0x01)
  | .sub _ => some (0x1, 0x02)
  | .subb _ => some (0x1, 0x03)
  | .mul _ => some (0x1, 0x04)
  | .mulhi _ => some (0x1, 0x05)
  | .mulw _ => some (0x1, 0x06)
  | .mad _ => some (0x1, 0x07)
  | .div _ => some (0x1, 0x08)
  | .rem _ => some (0x1, 0x09)
  | .min _ => some (0x1, 0x0A)
  | .max _ => some (0x1, 0x0B)
  | .abs _ => some (0x1, 0x0C)
  | .and _ => some (0x1, 0x0D)
  | .or _ => some (0x1, 0x0E)
  | .xor _ => some (0x1, 0x0F)
  | .not _ => some (0x1, 0x10)
  | .shl _ => some (0x1, 0x11)
  | .shr _ => some (0x1, 0x12)
  | .sar _ => some (0x1, 0x13)
  | .bfe _ => some (0x1, 0x14)
  | .bfi _ => some (0x1, 0x15)
  | .brev _ => some (0x1, 0x16)
  | .popc _ => some (0x1, 0x17)
  | .clz _ => some (0x1, 0x18)
  | .cmp _ => some (0x1, 0x19)
  | .sel _ => some (0x1, 0x1A)
  | .mov _ => some (0x1, 0x1B)
  | .movx _ => some (0x1, 0x1C)
  | .movxs _ => some (0x1, 0x1D)
  | .fadd _ => some (0x2, 0x00)
  | .fsub _ => some (0x2, 0x01)
  | .fmul _ => some (0x2, 0x02)
  | .ffma _ => some (0x2, 0x03)
  | .fmin _ => some (0x2, 0x04)
  | .fmax _ => some (0x2, 0x05)
  | .fabs _ => some (0x2, 0x06)
  | .fneg _ => some (0x2, 0x07)
  | .fcmp _ => some (0x2, 0x08)
  | .fclass _ => some (0x2, 0x09)
  | .frcp _ => some (0x2, 0x0A)
  | .frsq _ => some (0x2, 0x0B)
  | .fsqrt _ => some (0x2, 0x0C)
  | .fdiv _ => some (0x2, 0x0D)
  | .fexp2 _ => some (0x2, 0x0E)
  | .flog2 _ => some (0x2, 0x0F)
  | .fsin _ => some (0x2, 0x10)
  | .fcos _ => some (0x2, 0x11)
  | .ftanh _ => some (0x2, 0x12)
  | .ffloor _ => some (0x2, 0x13)
  | .fceil _ => some (0x2, 0x14)
  | .ftrunc _ => some (0x2, 0x15)
  | .frint _ => some (0x2, 0x16)
  | .ffrac _ => some (0x2, 0x17)
  | .fldexp _ => some (0x2, 0x18)
  | .fexpo _ => some (0x2, 0x19)
  | .fmant _ => some (0x2, 0x1A)
  | .fmed3 _ => some (0x2, 0x1B)
  | .fdot2 _ => some (0x2, 0x1C)
  | .fdot4 _ => some (0x2, 0x1D)
  | .cvt _ => some (0x3, 0x00)
  | .cvtmx _ => some (0x3, 0x01)
  | .pack _ => some (0x3, 0x02)
  | .unpack _ => some (0x3, 0x03)
  | .mxscale _ => some (0x3, 0x13)
  | .bperm _ => some (0x3, 0x04)
  | .shfl _ => some (0x3, 0x05)
  | .shflup _ => some (0x3, 0x06)
  | .shfldn _ => some (0x3, 0x07)
  | .shflx _ => some (0x3, 0x08)
  | .voteany _ => some (0x3, 0x09)
  | .voteall _ => some (0x3, 0x0A)
  | .voteeq _ => some (0x3, 0x0B)
  | .ballot _ => some (0x3, 0x0C)
  | .scan _ => some (0x3, 0x0D)
  | .scanx _ => some (0x3, 0x0E)
  | .reduce _ => some (0x3, 0x0F)
  | .compact _ => some (0x3, 0x10)
  | .expand _ => some (0x3, 0x11)
  | .rdfirst _ => some (0x3, 0x12)
  | .bra _ => some (0x4, 0x00)
  | .brp _ => some (0x4, 0x01)
  | .bru _ => some (0x4, 0x02)
  | .call _ => some (0x4, 0x03)
  | .calli _ => some (0x4, 0x04)
  | .ret _ => some (0x4, 0x05)
  | .jmpi _ => some (0x4, 0x06)
  | .exit _ => some (0x4, 0x07)
  | .regang _ => some (0x4, 0x08)
  | .pand _ => some (0x4, 0x10)
  | .por _ => some (0x4, 0x11)
  | .pxor _ => some (0x4, 0x12)
  | .pandn _ => some (0x4, 0x13)
  | .pnot _ => some (0x4, 0x14)
  | .pmov _ => some (0x4, 0x15)
  | .ld _ => some (0x5, 0x00)
  | .st _ => some (0x5, 0x01)
  | .lds _ => some (0x5, 0x02)
  | .sts _ => some (0x5, 0x03)
  | .ldsr _ => some (0x5, 0x04)
  | .stsr _ => some (0x5, 0x05)
  | .sld _ => some (0x5, 0x06)
  | .sst _ => some (0x5, 0x07)
  | .tld _ => some (0x5, 0x08)
  | .tst _ => some (0x5, 0x09)
  | .pref _ => some (0x5, 0x0A)
  | .evict _ => some (0x5, 0x0B)
  | .fence _ => some (0x5, 0x0C)
  | .sqpush _ => some (0x5, 0x0D)
  | .sqpop _ => some (0x5, 0x0E)
  | .aadd _ => some (0x6, 0x00)
  | .afadd _ => some (0x6, 0x01)
  | .amin _ => some (0x6, 0x02)
  | .amax _ => some (0x6, 0x03)
  | .aand _ => some (0x6, 0x04)
  | .aor _ => some (0x6, 0x05)
  | .axor _ => some (0x6, 0x06)
  | .axchg _ => some (0x6, 0x07)
  | .acas _ => some (0x6, 0x08)
  | .atile _ => some (0x6, 0x09)
  | .copy _ => some (0x7, 0x00)
  | .copyin _ => some (0x7, 0x01)
  | .copyout _ => some (0x7, 0x02)
  | .copyt _ => some (0x7, 0x03)
  | .batch _ => some (0x7, 0x08)
  | .waitb _ => some (0x7, 0x09)
  | .waitbn _ => some (0x7, 0x0A)
  | .bquery _ => some (0x7, 0x0B)
  | .mma _ => some (0x8, 0x00)
  | .mmaGrp _ => some (0x8, 0x01)
  | .mmaLut _ => some (0x8, 0x02)
  | .mmaSa _ => some (0x8, 0x03)
  | .lutb _ => some (0x8, 0x04)
  | .bload _ => some (0x8, 0x05)
  | .aclr _ => some (0x8, 0x06)
  | .amovr _ => some (0x8, 0x07)
  | .amovw _ => some (0x8, 0x08)
  | .ascale _ => some (0x8, 0x09)
  | .drain _ => some (0x8, 0x0A)
  | .drainAdd _ => some (0x8, 0x0B)
  | .lend _ => some (0x8, 0x0C)
  | .recall _ => some (0x8, 0x0D)
  | .astat _ => some (0x8, 0x0E)
  | .sample _ => some (0x9, 0x00)
  | .sampleN _ => some (0x9, 0x01)
  | .gather _ => some (0x9, 0x02)
  | .texq _ => some (0x9, 0x03)
  | .wpin _ => some (0x9, 0x04)
  | .wunpin _ => some (0x9, 0x05)
  | .winv _ => some (0x9, 0x06)
  | .rng _ => some (0x9, 0x07)
  | .rayPin _ => some (0x9, 0x08)
  | .rayTrace _ => some (0x9, 0x09)
  | .rayNext _ => some (0x9, 0x0A)
  | .rayUnpin _ => some (0x9, 0x0B)
  | .bvhBuild _ => some (0x9, 0x0C)
  | .bvhRefit _ => some (0x9, 0x0D)
  | .bvhBal _ => some (0x9, 0x0E)
  | .bvhPub _ => some (0x9, 0x0F)
  | .bar _ => some (0xA, 0x00)
  | .barCl _ => some (0xA, 0x01)
  | .arrive _ => some (0xA, 0x02)
  | .waitbar _ => some (0xA, 0x03)
  | .collRed _ => some (0xA, 0x04)
  | .collGath _ => some (0xA, 0x05)
  | .collScat _ => some (0xA, 0x06)
  | .collBcast _ => some (0xA, 0x07)
  | .collWait _ => some (0xA, 0x08)
  | .gate _ => some (0xA, 0x09)
  | .gateret _ => some (0xA, 0x0A)
  | .objGrant _ => some (0xA, 0x0B)
  | .nop _ => some (0xB, 0x00)
  | .trap _ => some (0xB, 0x01)
  | .rett _ => some (0xB, 0x02)
  | .sread _ => some (0xB, 0x03)
  | .swrite _ => some (0xB, 0x04)
  | .phint _ => some (0xB, 0x05)
  | .enter _ => some (0xB, 0x06)
  | .leave _ => some (0xB, 0x07)
  | .brk _ => some (0xB, 0x08)
  | .waitClk _ => some (0xB, 0x09)
  | .yield _ => some (0xB, 0x0A)
  | .mark _ => some (0xB, 0x0B)
  | .derive _ => some (0xC, 0x00)
  | .narrow _ => some (0xC, 0x01)
  | .refadd _ => some (0xC, 0x02)
  | .refoff _ => some (0xC, 0x03)
  | .refset _ => some (0xC, 0x04)
  | .refcmp _ => some (0xC, 0x05)
  | .refchk _ => some (0xC, 0x06)
  | .objq _ => some (0xC, 0x07)
  | .relayout _ => some (0xC, 0x08)
  | .rlwait _ => some (0xC, 0x09)
  | .taddr _ => some (0xC, 0x0A)
  | .tdesc _ => some (0xC, 0x0B)
  | .notAnInstruction _ => none
  | .holdLimit _ _ => none
  | .longLatencyComplete _ _ => none
  | .storeAcknowledge _ => none
  | .lateCondition _ _ _ => none
  | .copyComplete _ => none
  | .matrixOpComplete _ _ => none
  | .weightFillComplete _ _ => none
  | .rayTraversalEnd _ _ => none
  | .armatureOpStart _ => none
  | .armatureOpComplete _ => none
  | .collectiveComplete _ _ => none
  | .rasterTriangle _ _ => none
  | .rasterMerge _ _ => none
  | .migrationMove _ => none
  | .granuleArrival _ _ => none
  | .conversionTile _ _ => none
  | .residencyTimeout _ _ => none
  | .conversionWaitTimeout _ => none
  | .context _ _ => none
  | .objinv _ _ => none
  | .signal _ _ => none
  | .wait _ _ => none
  | .launch _ _ => none
  | .nopPacket _ _ => none
  | .queueDoorbell _ _ _ => none
  | .queueRestart _ _ _ => none
  | .launchReplica _ _ _ _ => none
  | .startArrival _ _ => none
  | .launchRejectionStamped _ _ => none
  | .startTimeout _ => none
  | .arrivalExpiry _ _ => none
  | .packageEndReport _ _ => none
  | .clusterPlacement _ => none
  | .sliceEnd _ _ => none
  | .preemptStepPhase _ => none
  | .stepPhaseTimeout _ => none
  | .workgroupSave _ => none
  | .workgroupRestore _ => none
  | .waitClkExpiry _ _ => none
  | .haltComplete _ => none
  | .debugSessionOpen _ _ => none
  | .debugSessionClose _ => none
  | .debugHalt _ => none
  | .debugResume _ => none
  | .dbgdataRead _ => none
  | .dbgdataWrite _ _ => none
  | .islandWrite _ _ => none
  | .frequencyChangeEnd _ => none
  | .registerWrite _ _ => none
  | .identify => none
  | .fwwrite => none
  | .fwactivate => none
  | .status => none
  | .powerOnReset => none
  | .getVersion => none
  | .getCapabilities => none
  | .negotiateAlgorithms _ _ => none
  | .getDigests => none
  | .getCertificate _ _ => none
  | .challenge _ => none
  | .getMeasurements _ => none
  | .firmwareRemeasure => none
  | .securityAlarm _ => none
  | .thermalThrottle _ _ => none
  | .thermalTrip _ => none
  | .hostMemAccess _ _ => none
  | .hostCacheSnoop _ _ _ => none
  | .atsInvalidation _ _ => none
  | .expanderLinkLoss _ => none
  | .scrubPass _ _ _ => none
  | .skewMeasurement _ _ _ _ => none
  | .flitData _ _ => none
  | .flitIdle _ _ => none
  | .flitAcknowledge _ _ => none
  | .flitReplayRequest _ _ => none
  | .portRetrain _ => none
  | .portTrainingEnd _ _ _ => none
  | .packageLoss _ => none
  | .packageLossReport _ => none
  | .transportDoorbell _ _ _ => none
  | .wrWrite _ _ => none
  | .wrRead _ _ => none
  | .wrSend _ _ => none
  | .frameWrite _ _ => none
  | .frameReadRequest _ _ => none
  | .frameReadResponse _ _ => none
  | .frameSend _ _ => none
  | .frameAck _ _ => none
  | .frameNak _ _ => none
  | .transportRetransmit _ _ => none
  | .completionRecordWrite _ _ => none
  | .ethernetLinkChange _ _ => none
  | .thermalLimitRelease _ => none

/-- Bits [51:0] of an instruction of a format. -/
def Form.body : Form → BitVec 52
  | .v f => f.body
  | .m f => f.body
  | .c f => f.body
  | .x f => f.body
  | .g f => f.body
  | .y f => f.body
  | .none => 0

/-- The extension word an instruction holds. -/
def Form.ext : Form → Option DWord
  | .v f => f.ext
  | .m f => f.ext
  | .c f => f.ext
  | .x f => f.ext
  | .g f => f.ext
  | .y f => f.ext
  | .none => Option.none

/-- The extension word an instruction holds. -/
def Instr.ext (i : Instr) : Option DWord := i.form.ext

/-- The operand-specifier fields of a word of the class and opcode (R91, R98 to R105). The IMM field of the M format
is one in classes 0x6 and 0x7 (R101); CVT's C holds a type code (R152); CALLI and JMPI name a target in OFFSET
(R102). -/
def specifierFields (cls op : Nat) : Form → List Operand
  | .v f => if cls = 0x3 ∧ op = 0x00 then [f.d, f.a, f.b] else [f.d, f.a, f.b, f.c]
  | .m f => if cls = 0x5 then [f.data, f.ref, f.index] else [f.data, f.ref, f.index, Operand.ofBits f.imm]
  | .c f => if op = 0x04 ∨ op = 0x06 then [f.cond, f.target] else [f.cond]
  | .x f => [f.abase, f.bbase, f.sop]
  | .g f => [f.dbase, f.cbase, f.hdr, f.extra]
  | .y f =>
    match cls, op with
    | 0x7, 0x09 => [f.op1]
    | 0x7, 0x0B => [f.op1]
    | 0xA, 0x04 => [f.op1, f.op2]
    | 0xA, 0x05 => [f.op1, f.op2]
    | 0xA, 0x06 => [f.op1, f.op2]
    | 0xA, 0x07 => [f.op1, f.op2]
    | 0xA, 0x09 => [f.op1]
    | 0xA, 0x0B => [f.op1, f.op2]
    | 0xB, 0x03 => [f.op1]
    | 0xB, 0x04 => [f.op1]
    | 0xB, 0x09 => [f.op1]
    | 0xB, 0x0B => [f.op1]
    | _, _ => []
  | .none => []

/-- The instruction is followed by an extension word: a specifier field holds 0x1FF, or the instruction is PHINT,
which always carries one (R91, R109). -/
def Instr.needsExt (i : Instr) : Bool :=
  match i.opcode with
  | none => false
  | some (c, o) =>
    (specifierFields c.toNat o.toNat i.form).any (fun p => decide (p = .lit)) || (c == 0xB && o == 0x05)

/-! ## Decoding -/

/-- Why bytes do not decode. -/
inductive DecodeReject where
  /-- Fewer than the eight bytes of a word. -/
  | truncated
  /-- The extension word is missing (R91). -/
  | noExtension
  /-- A class 0xD or 0xE word (sub-reason 0x01, R438). -/
  | reservedClass (w : DWord)
  /-- An opcode that its class does not assign (sub-reason 0x02, R438). -/
  | reservedOpcode (w : DWord)
  /-- A class 0xF word, which is a header (sub-reason 0x03, R439). -/
  | header (w : DWord)
  deriving DecidableEq, Repr

/-- The instruction of a first word and the word that follows it; a word that is not an instruction is held as such
(R91, R110). -/
def decodeWord (w next : DWord) : Instr :=
  match instrAt (wordClass w) (wordOp w) w none with
  | none => .notAnInstruction w
  | some i => if i.needsExt then (instrAt (wordClass w) (wordOp w) w (some next)).getD (.notAnInstruction w) else i

/-- Decode words: an instruction and the words after it. -/
def decodeWords : List DWord → Except DecodeReject (Instr × List DWord)
  | [] => .error .truncated
  | w :: rest =>
    match decodeWord w (rest.headD 0) with
    | .notAnInstruction w =>
      .error (if wordClass w = 0xF then .header w else if wordClass w < 0xD then .reservedOpcode w
        else .reservedClass w)
    | i => if i.needsExt then (if rest.isEmpty then .error .noExtension else .ok (i, rest.tail)) else .ok (i, rest)

/-- A word from its eight bytes, the first the least significant (R7). -/
def wordOfBytes (bs : List Byte) : DWord :=
  BitVec.ofNat 64 (bs.foldr (fun b acc => b.toNat + 256 * acc) 0)

/-- The eight bytes of a word, least significant first (R7). -/
def bytesOfWord (w : DWord) : List Byte := (List.range 8).map fun i => w.extractLsb' (8 * i) 8

/-- Decode bytes: an instruction and the bytes after it. -/
def decode (bs : List Byte) : Except DecodeReject (Instr × List Byte) :=
  if bs.length < 8 then .error .truncated
  else
    let w := wordOfBytes (bs.take 8)
    let rest := bs.drop 8
    match decodeWord w (wordOfBytes (rest.take 8)) with
    | .notAnInstruction w =>
      .error (if wordClass w = 0xF then .header w else if wordClass w < 0xD then .reservedOpcode w
        else .reservedClass w)
    | i =>
      if i.needsExt then (if rest.length < 8 then .error .noExtension else .ok (i, rest.drop 8)) else .ok (i, rest)

/-! ## Encoding -/

/-- The first word of an instruction; 0 for a row that is not an instruction. -/
def Instr.word (i : Instr) : DWord :=
  match i with
  | .notAnInstruction w => w
  | i =>
    match i.opcode with
    | some (c, o) => c ++ o ++ i.form.body
    | none => 0

/-- The words of an instruction; none for a row that is not an instruction. -/
def encode (i : Instr) : List DWord :=
  match i.opcode with
  | some _ => i.word :: i.ext.toList
  | none => []

/-- The bytes of an instruction as memory holds them (R7). -/
def encodeBytes (i : Instr) : List Byte := (encode i).flatMap bytesOfWord

/-! ## The host's question -/

/-- What the decoder reads from an instruction whose bits are w, the first word lowest and absent bits 0: the words
are laid out as 16 bytes in ascending order. -/
def decodeTableWord (_nbits w : Nat) : Option Instr :=
  match decode (bytesOfWord (BitVec.ofNat 64 w) ++ bytesOfWord (BitVec.ofNat 64 (w / 2 ^ 64))) with
  | .ok (i, _) => some i
  | .error _ => none

end Sys2Proof
end

