-- ==== Sys2Proof/Machine/Flags.lean ====
section
/-!
DEFINITION. The conditions an arithmetic instruction can raise (R141, R120), the sticky flags they set (R57, R59)
and the choice of a float trap's cause (R142).
-/

namespace Sys2Proof.Machine

/-- The conditions of one operation: invalid, overflow, float divide by zero (R141), integer divide by zero (R120). -/
structure Cond where
  nv : Bool
  of_ : Bool
  fdz : Bool
  dz : Bool
  deriving DecidableEq, Repr

/-- No condition. -/
def Cond.none : Cond := ⟨false, false, false, false⟩

/-- Conditions of several elements or lanes together: the flags are OR-ed (R59). -/
def Cond.or (a b : Cond) : Cond := ⟨a.nv || b.nv, a.of_ || b.of_, a.fdz || b.fdz, a.dz || b.dz⟩

/-- The sticky flags as MODE bits [15:12] hold them: FDZ 15, OF 14, NV 13, DZ 12; the trap enables lie in the
same order at [11:8] (R57). -/
def Cond.sticky (c : Cond) : BitVec 4 :=
  BitVec.ofBool c.fdz ++ BitVec.ofBool c.of_ ++ BitVec.ofBool c.nv ++ BitVec.ofBool c.dz

/-- Four bits in that order as conditions. -/
def Cond.ofBits (b : BitVec 4) : Cond :=
  { nv := b.getLsbD 1, of_ := b.getLsbD 2, fdz := b.getLsbD 3, dz := b.getLsbD 0 }

/-- MODE with the flags OR-ed into SF (R59). -/
def Cond.intoMode (c : Cond) (mode : Word) : Word := mode ||| (c.sticky.zeroExtend 32 <<< 12)

/-- The trap enables of MODE (R57). -/
def Cond.enables (mode : Word) : Cond := Cond.ofBits (mode.extractLsb' 8 4)

/-- Keep the conditions whose trap enable is 1 (R142 step 2). -/
def Cond.enabled (c en : Cond) : Cond := ⟨c.nv && en.nv, c.of_ && en.of_, c.fdz && en.fdz, c.dz && en.dz⟩

/-- The lowest-numbered float cause among the conditions: 0x21 NV, 0x22 OF, 0x23 FDZ (R141, R142). -/
def Cond.floatCause (c : Cond) : Option Nat :=
  if c.nv then some 0x21 else if c.of_ then some 0x22 else if c.fdz then some 0x23 else Option.none

/-- Whether a float cause's condition arises. -/
def Cond.has (c : Cond) (cause : Nat) : Bool :=
  if cause = 0x21 then c.nv else if cause = 0x22 then c.of_ else if cause = 0x23 then c.fdz else c.dz

end Sys2Proof.Machine
end

