-- ==== Sys2Proof/Machine/FloatCore.lean ====
section
/-!
DEFINITION. Floating-point values as exact rationals: the formats of R130 to R132, decoding, and the one rounding
function of R138 and R139 that every float result of the machine goes through.
-/

namespace Sys2Proof.Machine

/-- A floating-point format (R130). -/
structure FFmt where
  ebits : Nat
  fbits : Nat
  bias : Nat
  /-- It has infinities; its all-ones exponent then holds no finite value. -/
  inf : Bool
  /-- Code of the canonical NaN (R135); none in E2M1. -/
  nan : Option Nat
  deriving DecidableEq, Repr

def binary64 : FFmt := ⟨11, 52, 1023, true, some 0x7FF8000000000000⟩
def binary32 : FFmt := ⟨8, 23, 127, true, some 0x7FC00000⟩
def binary16 : FFmt := ⟨5, 10, 15, true, some 0x7E00⟩
def bfloat16 : FFmt := ⟨8, 7, 127, true, some 0x7FC0⟩
def e4m3 : FFmt := ⟨4, 3, 7, false, some 0x7F⟩
def e5m2 : FFmt := ⟨5, 2, 15, true, some 0x7E⟩
def e2m1 : FFmt := ⟨2, 1, 1, false, none⟩

/-- Width of an element in bits. -/
def FFmt.width (f : FFmt) : Nat := 1 + f.ebits + f.fbits

/-- A value of a format: NaN, an infinity, or (-1)^neg × m × 2^e (R130). -/
inductive FVal where
  | nan
  | inf (neg : Bool)
  | fin (neg : Bool) (m : Nat) (e : Int)
  deriving DecidableEq, Repr

/-- Number of bits of n. -/
def bitLen (n : Nat) : Nat := if n = 0 then 0 else n.log2 + 1

/-- The value a code stands for (R130). -/
def FFmt.decode (f : FFmt) (code : Nat) : FVal :=
  let fr := code % 2 ^ f.fbits
  let ex := code / 2 ^ f.fbits % 2 ^ f.ebits
  let s := code / 2 ^ (f.ebits + f.fbits) % 2 = 1
  if f.inf && ex = 2 ^ f.ebits - 1 then (if fr = 0 then .inf s else .nan)
  else if !f.inf && f.nan.isSome && ex = 2 ^ f.ebits - 1 && fr = 2 ^ f.fbits - 1 then .nan
  else if ex = 0 then .fin s fr (1 - (f.bias : Int) - f.fbits)
  else .fin s (2 ^ f.fbits + fr) ((ex : Int) - f.bias - f.fbits)

/-- A subnormal, read as a zero of the same sign when its format is flushed (R137). -/
def FFmt.decodeFz (f : FFmt) (fz : Bool) (code : Nat) : FVal :=
  match f.decode code with
  | .fin s m e => if fz && m < 2 ^ f.fbits then .fin s 0 e else .fin s m e
  | x => x

/-- Rounding modes of R138. SR carries the draw field and its width (R139). -/
inductive RMode where
  | rne | rz | rdn | rup | rna
  | sr (r b : Nat)
  deriving DecidableEq, Repr

/-- An exact magnitude: m × 2^e, or strictly between m × 2^e and (m+1) × 2^e where `more` is true. -/
structure Mag where
  m : Nat
  e : Int
  more : Bool
  deriving DecidableEq, Repr

/-- Exponent of the quantum of the format's grid at a magnitude, exponent range unbounded above (R138). -/
def FFmt.quantum (f : FFmt) (x : Mag) : Int :=
  let low := 1 - (f.bias : Int) - f.fbits
  if x.m = 0 then low else max ((bitLen x.m : Int) - 1 + x.e - f.fbits) low

/-- Whether the magnitude is rounded away from zero; lo and hi of R138 are n and n + 1 quanta, `rem`/2^k with
`more` is how far the magnitude lies above n. -/
def roundsUp (mode : RMode) (neg : Bool) (n rem k : Nat) (more : Bool) : Bool :=
  let half := 2 ^ k
  let twice := 2 * rem
  match mode with
  | .rne => twice > half || (twice = half && (more || n % 2 = 1))
  | .rz => false
  | .rdn => neg
  | .rup => !neg
  | .rna => twice ≥ half
  | .sr r b =>
    -- R139 measures d from lo: below zero, lo is the value of larger magnitude
    let frac := rem * 2 ^ b
    if neg then
      let d := if more || frac % half ≠ 0 then 2 ^ b - 1 - frac / half else 2 ^ b - frac / half
      !(r < d)
    else decide (r < frac / half)

/-- A rounded magnitude in quanta: n × 2^q. -/
structure Rounded where
  n : Nat
  q : Int
  exact : Bool
  deriving DecidableEq, Repr

/-- Round a magnitude onto the format's grid (R138). `more` requires that e lies below the quantum. -/
def FFmt.roundMag (f : FFmt) (mode : RMode) (neg : Bool) (x : Mag) : Rounded :=
  let q := f.quantum x
  if q ≤ x.e then { n := x.m * 2 ^ (x.e - q).toNat, q := q, exact := !x.more }
  else
    let k := (q - x.e).toNat
    let n := x.m / 2 ^ k
    let rem := x.m % 2 ^ k
    if rem = 0 && !x.more then { n := n, q := q, exact := true }
    else { n := if roundsUp mode neg n rem k x.more then n + 1 else n, q := q, exact := false }

/-- The largest finite value's significand and quantum (R130). -/
def FFmt.maxMag (f : FFmt) : Nat × Int :=
  let top : Int := 2 ^ f.ebits - 1
  if f.inf then (2 ^ (f.fbits + 1) - 1, top - 1 - f.bias - f.fbits)
  else if f.nan.isSome then (2 ^ (f.fbits + 1) - 2, top - f.bias - f.fbits)
  else (2 ^ (f.fbits + 1) - 1, top - f.bias - f.fbits)

/-- m × 2^e ≤ n × 2^q. -/
def magLe (m : Nat) (e : Int) (n : Nat) (q : Int) : Bool :=
  if e ≤ q then decide (m ≤ n * 2 ^ (q - e).toNat) else decide (m * 2 ^ (e - q).toNat ≤ n)

/-- The sign bit of a format's code. -/
def FFmt.signBit (f : FFmt) (neg : Bool) : Nat := if neg then 2 ^ (f.ebits + f.fbits) else 0

/-- Code of the largest finite value. -/
def FFmt.maxCode (f : FFmt) (neg : Bool) : Nat :=
  let top := 2 ^ (f.ebits + f.fbits) - 1
  f.signBit neg + (if f.inf then top - 2 ^ f.fbits else if f.nan.isSome then top - 1 else top)

/-- Code of an infinity; a format without infinities writes ±M (R138). -/
def FFmt.infCode (f : FFmt) (neg : Bool) : Nat :=
  if f.inf then f.signBit neg + (2 ^ f.ebits - 1) * 2 ^ f.fbits else f.maxCode neg

/-- Code of the canonical NaN (R135); 0 in E2M1, which has none (R153). -/
def FFmt.nanCode (f : FFmt) : Nat := f.nan.getD 0

/-- Code of n × 2^q, a value of the format's grid not above M. -/
def FFmt.encodeMag (f : FFmt) (neg : Bool) (n : Nat) (q : Int) : Nat :=
  let (n, q) := if n = 2 ^ (f.fbits + 1) then (2 ^ f.fbits, q + 1) else (n, q)
  let ex := if n < 2 ^ f.fbits then 0 else (q + f.fbits + f.bias).toNat
  f.signBit neg + ex * 2 ^ f.fbits + n % 2 ^ f.fbits

/-- A result code and the conditions it raised. -/
structure FRes where
  code : Nat
  cond : Cond
  deriving DecidableEq, Repr

/-- The canonical NaN with SF.NV or without. -/
def FFmt.nanRes (f : FFmt) (nv : Bool) : FRes := ⟨f.nanCode, { Cond.none with nv := nv }⟩

/-- What overflow writes (R138). -/
def FFmt.overCode (f : FFmt) (mode : RMode) (neg : Bool) : Nat :=
  match mode with
  | .rz => f.maxCode neg
  | .rdn => if neg then f.infCode neg else f.maxCode neg
  | .rup => if neg then f.maxCode neg else f.infCode neg
  | _ => f.infCode neg

/-- round(x, fmt, mode) of an exact finite real, with flushing of the result (R137, R138, R141). -/
def FFmt.round (f : FFmt) (fz : Bool) (mode : RMode) (neg : Bool) (x : Mag) : FRes :=
  let r := f.roundMag mode neg x
  let (mm, me) := f.maxMag
  if magLe r.n r.q mm me then
    let code := f.encodeMag neg r.n r.q
    let sub := r.n < 2 ^ f.fbits
    ⟨if fz && sub then f.signBit neg else code, Cond.none⟩
  else ⟨f.overCode mode neg, { Cond.none with of_ := true }⟩

/-- Write an infinity into a format: exact where the format has infinities, else ±M with OF (R141). -/
def FFmt.infRes (f : FFmt) (neg : Bool) : FRes := ⟨f.infCode neg, { Cond.none with of_ := !f.inf }⟩

/-- A value of any format rounded into f. -/
def FFmt.ofVal (f : FFmt) (fz : Bool) (mode : RMode) (x : FVal) : FRes :=
  match x with
  | .nan => f.nanRes false
  | .inf s => f.infRes s
  | .fin s m e => f.round fz mode s ⟨m, e, false⟩

/-! ## Exact arithmetic -/

/-- An exact product (R136, R141). -/
def FVal.mul (a b : FVal) : FVal × Bool :=
  match a, b with
  | .nan, _ => (.nan, false)
  | _, .nan => (.nan, false)
  | .inf s, .inf t => (.inf (s != t), false)
  | .inf s, .fin t m _ => if m = 0 then (.nan, true) else (.inf (s != t), false)
  | .fin s m _, .inf t => if m = 0 then (.nan, true) else (.inf (s != t), false)
  | .fin s m e, .fin t n f => (.fin (s != t) (m * n) (e + f), false)

/-- The negative of a value. -/
def FVal.neg : FVal → FVal
  | .nan => .nan
  | .inf s => .inf (!s)
  | .fin s m e => .fin (!s) m e

/-- The signed integer a finite value is at quantum 2^q, q at most its own exponent. -/
def scaled (s : Bool) (m : Nat) (e q : Int) : Int :=
  let x : Int := m * 2 ^ (e - q).toNat
  if s then -x else x

/-- An exact sum; the flag tells ∞ − ∞ (R141). A zero of opposite signs is +0, or −0 under RDN (R136). -/
def FVal.add (rdn : Bool) (a b : FVal) : FVal × Bool :=
  match a, b with
  | .nan, _ => (.nan, false)
  | _, .nan => (.nan, false)
  | .inf s, .inf t => if s = t then (.inf s, false) else (.nan, true)
  | .inf s, .fin _ _ _ => (.inf s, false)
  | .fin _ _ _, .inf t => (.inf t, false)
  | .fin s m e, .fin t n f =>
    let q := min e f
    let x := scaled s m e q + scaled t n f q
    if x = 0 then (.fin (if s = t then s else rdn) 0 q, false)
    else (.fin (decide (x < 0)) x.natAbs q, false)

/-- Is the rounding mode RDN (R136)? -/
def RMode.isRdn : RMode → Bool
  | .rdn => true
  | _ => false

/-- Round an exact value whose computation may have been invalid. -/
def FFmt.finish (f : FFmt) (fz : Bool) (mode : RMode) (x : FVal × Bool) : FRes :=
  match x with
  | (.nan, nv) => f.nanRes nv
  | (v, _) => f.ofVal fz mode v

/-- round(a + b). -/
def FFmt.addR (f : FFmt) (fz : Bool) (mode : RMode) (a b : FVal) : FRes :=
  f.finish fz mode (FVal.add mode.isRdn a b)

/-- round(a × b). -/
def FFmt.mulR (f : FFmt) (fz : Bool) (mode : RMode) (a b : FVal) : FRes :=
  f.finish fz mode (FVal.mul a b)

/-- The exact sum of exact terms, folded from the right. -/
def FVal.sum (rdn : Bool) : List FVal → FVal
  | [] => .fin false 0 0
  | [t] => t
  | t :: r => (FVal.add rdn t (FVal.sum rdn r)).1

/-- Invalid in a sum of terms: an invalid product, or both infinities among the terms (R141, R151). -/
def FVal.sumInvalid (ts : List (FVal × Bool)) : Bool :=
  ts.any (fun t => t.2) ||
    (ts.any (fun t => t.1 = .inf true) && ts.any (fun t => t.1 = .inf false))

/-- round(Σ terms): one rounding (R151). A NaN term alone raises nothing. -/
def FFmt.sumR (f : FFmt) (fz : Bool) (mode : RMode) (ts : List (FVal × Bool)) : FRes :=
  if FVal.sumInvalid ts then f.nanRes true else f.ofVal fz mode (FVal.sum mode.isRdn (ts.map (fun t => t.1)))

/-- Order of two numbers, −0 equal to +0: none where either is NaN (R146). -/
def FVal.cmp (a b : FVal) : Option Ordering :=
  match a, b with
  | .nan, _ => none
  | _, .nan => none
  | .inf s, .inf t => some (if s = t then .eq else if s then .lt else .gt)
  | .inf s, .fin _ _ _ => some (if s then .lt else .gt)
  | .fin _ _ _, .inf t => some (if t then .gt else .lt)
  | .fin s m e, .fin t n f =>
    let q := min e f
    some (compare (scaled s m e q) (scaled t n f q))

/-- The sign of a value; NaN counts as positive. -/
def FVal.isNeg : FVal → Bool
  | .nan => false
  | .inf s => s
  | .fin s _ _ => s

/-- FMIN of two values, −0 below +0 (R145). -/
def FVal.min (a b : FVal) : FVal :=
  match FVal.cmp a b with
  | none => if a = .nan then b else a
  | some .lt => a
  | some .gt => b
  | some .eq => if a.isNeg then a else b

/-- FMAX of two values, −0 below +0 (R145). -/
def FVal.max (a b : FVal) : FVal :=
  match FVal.cmp a b with
  | none => if a = .nan then b else a
  | some .gt => a
  | some .lt => b
  | some .eq => if a.isNeg then b else a

/-! ## Quotients and roots -/

/-- Bits of a quotient or root beyond the result's precision: enough for the 32 bits of a draw (R139). -/
def guardBits : Nat := 128

/-- m/n as a magnitude. -/
def Mag.quot (m : Nat) (e : Int) (n : Nat) (f : Int) : Mag :=
  let s := guardBits + bitLen n
  let x := m * 2 ^ s
  ⟨x / n, e - f - s, decide (x % n ≠ 0)⟩

/-- round(a / b) (R148, IEEE 754). -/
def FFmt.divR (f : FFmt) (fz : Bool) (mode : RMode) (a b : FVal) : FRes :=
  match a, b with
  | .nan, _ => f.nanRes false
  | _, .nan => f.nanRes false
  | .inf _, .inf _ => f.nanRes true
  | .inf s, .fin t _ _ => f.infRes (s != t)
  | .fin s _ _, .inf t => ⟨f.signBit (s != t), Cond.none⟩
  | .fin s m e, .fin t n g =>
    if n = 0 then
      if m = 0 then f.nanRes true else ⟨f.infCode (s != t), { Cond.none with fdz := true }⟩
    else f.round fz mode (s != t) (Mag.quot m e n g)

/-- The integer square root, by bits from 2^k down. -/
def isqrtFrom (n : Nat) : Nat → Nat → Nat
  | 0, r => r
  | k + 1, r =>
    let t := r + 2 ^ k
    isqrtFrom n k (if t * t ≤ n then t else r)

/-- floor(√n). -/
def isqrt (n : Nat) : Nat := isqrtFrom n (bitLen n / 2 + 1) 0

/-- The value with an even exponent: √ then halves it. -/
def evenExp (m : Nat) (e : Int) : Nat × Int := if e % 2 = 0 then (m, e) else (2 * m, e - 1)

/-- √(m × 2^e) as a magnitude. -/
def Mag.sqrt (m : Nat) (e : Int) : Mag :=
  let (m, e) := evenExp m e
  let s := guardBits
  let x := m * 2 ^ (2 * s)
  let r := isqrt x
  ⟨r, e / 2 - s, decide (r * r ≠ x)⟩

/-- 1/√(m × 2^e) as a magnitude, m not 0. -/
def Mag.rsqrt (m : Nat) (e : Int) : Mag :=
  let (m, e) := evenExp m e
  let s := guardBits + bitLen m
  let r := isqrt (2 ^ (2 * s) / m)
  ⟨r, -(e / 2) - s, decide (r * r * m ≠ 2 ^ (2 * s))⟩

/-- FRCP (R148). -/
def FFmt.rcpR (f : FFmt) (fz : Bool) (mode : RMode) (a : FVal) : FRes := f.divR fz mode (.fin false 1 0) a

/-- FSQRT (R148). -/
def FFmt.sqrtR (f : FFmt) (fz : Bool) (mode : RMode) (a : FVal) : FRes :=
  match a with
  | .nan => f.nanRes false
  | .inf s => if s then f.nanRes true else f.infRes false
  | .fin s m e =>
    if m = 0 then ⟨f.signBit s, Cond.none⟩
    else if s then f.nanRes true
    else f.round fz mode false (Mag.sqrt m e)

/-- FRSQ (R148). -/
def FFmt.rsqR (f : FFmt) (fz : Bool) (mode : RMode) (a : FVal) : FRes :=
  match a with
  | .nan => f.nanRes false
  | .inf s => if s then f.nanRes true else ⟨0, Cond.none⟩
  | .fin s m e =>
    if m = 0 then ⟨f.infCode s, { Cond.none with fdz := true }⟩
    else if s then f.nanRes true
    else f.round fz mode false (Mag.rsqrt m e)

/-! ## Integral values, exponents and mantissas -/

/-- floor(|a|) in units, and whether a fraction remains, of m × 2^e. -/
def wholePart (m : Nat) (e : Int) : Nat × Bool :=
  if 0 ≤ e then (m * 2 ^ e.toNat, false)
  else
    let k := (-e).toNat
    (m / 2 ^ k, decide (m % 2 ^ k ≠ 0))

/-- The integral value of |a| that a mode selects: the neighbours are integers (R149). -/
def integral (mode : RMode) (neg : Bool) (m : Nat) (e : Int) : Nat :=
  if 0 ≤ e then m * 2 ^ e.toNat
  else
    let k := (-e).toNat
    let n := m / 2 ^ k
    let rem := m % 2 ^ k
    if rem = 0 then n else if roundsUp mode neg n rem k false then n + 1 else n

/-- FFLOOR (RDN), FCEIL (RUP), FTRUNC (RZ), FRINT: an integral value, sign of a zero kept, no flag (R149). An
integral value of a format lies on the format's grid, so rounding it there changes nothing. -/
def FFmt.intR (f : FFmt) (fz : Bool) (mode : RMode) (a : FVal) : FRes :=
  match a with
  | .nan => f.nanRes false
  | .inf s => f.infRes s
  | .fin s m e => ⟨(f.round fz .rz s ⟨integral mode s m e, 0, false⟩).code, Cond.none⟩

/-- The largest value of the format below 1.0. -/
def FFmt.belowOne (f : FFmt) : Nat := f.bias * 2 ^ f.fbits - 1

/-- FFRAC (R149). -/
def FFmt.fracR (f : FFmt) (fz : Bool) (mode : RMode) (a : FVal) : FRes :=
  match a with
  | .nan => f.nanRes false
  | .inf _ => f.nanRes true
  | .fin s m e =>
    let fl : FVal := .fin s (integral .rdn s m e) 0
    let r := f.finish fz mode (FVal.add mode.isRdn a fl.neg)
    if r.code = f.bias * 2 ^ f.fbits then ⟨f.belowOne, r.cond⟩ else r

/-- FLDEXP: round(a × 2^b) (R150). Beyond ±5,000 every b gives the result that ±5,000 gives. -/
def FFmt.ldexpR (f : FFmt) (fz : Bool) (mode : RMode) (a : FVal) (b : Int) : FRes :=
  match a with
  | .nan => f.nanRes false
  | .inf s => f.infRes s
  | .fin s m e => f.round fz mode s ⟨m, e + max (-5000) (min 5000 b), false⟩

/-- FEXPO: floor(log2 |a|) as s32, 0x8000_0000 for zero, 0x7FFF_FFFF for ±∞ and NaN (R150). -/
def FVal.expo (a : FVal) : Word :=
  match a with
  | .fin _ m e => if m = 0 then 0x80000000#32 else BitVec.ofInt 32 ((bitLen m : Int) - 1 + e)
  | _ => 0x7FFFFFFF#32

/-- FMANT (R150). -/
def FFmt.mantR (f : FFmt) (a : FVal) : FRes :=
  match a with
  | .nan => f.nanRes false
  | .inf s => f.infRes s
  | .fin s m _ =>
    if m = 0 then ⟨f.signBit s, Cond.none⟩
    else f.round false .rz s ⟨m, 1 - (bitLen m : Int), false⟩

/-- The class bits of R147, read without flushing. -/
def FFmt.classBit (f : FFmt) (a : FVal) : Nat :=
  match a with
  | .nan => 8
  | .inf s => if s then 0 else 7
  | .fin s m _ =>
    if m = 0 then (if s then 3 else 4)
    else if m < 2 ^ f.fbits then (if s then 2 else 5)
    else (if s then 1 else 6)

/-- SAT: the rounded result clamped to [+0, 1.0], a NaN and every negative result +0 (R143). -/
def FFmt.clamp01 (f : FFmt) (r : FRes) : FRes :=
  let one := f.bias * 2 ^ f.fbits
  match f.decode r.code with
  | .nan => ⟨0, r.cond⟩
  | v => if v.isNeg then ⟨0, r.cond⟩ else if r.code > one then ⟨one, r.cond⟩ else r

/-! ## Conversion -/

/-- An exact integer rounded into a format (R153). -/
def FFmt.ofInt (f : FFmt) (fz : Bool) (mode : RMode) (x : Int) : FRes :=
  f.round fz mode (decide (x < 0)) ⟨x.natAbs, 0, false⟩

/-- Float to integer: rounded in the mode, the nearest bound outside [lo, hi] and 0 for NaN, with NV (R153). -/
def FVal.toIntR (mode : RMode) (lo hi : Int) (a : FVal) : Int × Cond :=
  let nv : Cond := { Cond.none with nv := true }
  match a with
  | .nan => (0, nv)
  | .inf s => (if s then lo else hi, nv)
  | .fin s m e =>
    -- beyond 2^80 every value is outside every range
    let n : Int := if e > 80 ∧ m ≠ 0 then 2 ^ 80 else integral mode s m e
    let x := if s then -n else n
    if x < lo then (lo, nv) else if x > hi then (hi, nv) else (x, Cond.none)

end Sys2Proof.Machine
end

