-- ==== Sys2Proof/Machine/IntCore.lean ====
section
/-!
DEFINITION. Element types and the exact arithmetic of the integer instructions (R115 to R125): every operation is a
function to Int, finished once by wrapping or saturating.
-/

namespace Sys2Proof
open Machine

/-! ## Element types -/

/-- Element width in bits (R99, R115); 4 for mxf4 and 0 for the reserved code. -/
def Ty.width : Ty → Nat
  | .s32 | .z32 | .f32 => 32
  | .f16 | .bf16 | .s16 | .z16 => 16
  | .s8 | .z8 | .e4m3 | .e5m2 => 8
  | .f64 | .s64 | .z64 => 64
  | .mxf4 => 4
  | .t15 => 0

/-- The type is a signed integer type. -/
def Ty.signed : Ty → Bool
  | .s32 | .s16 | .s8 | .s64 => true
  | _ => false

/-- The type is a floating type. -/
def Ty.isFloat : Ty → Bool
  | .f32 | .f16 | .bf16 | .f64 | .e4m3 | .e5m2 | .mxf4 => true
  | _ => false

/-- The floating format of a type (R130); binary32 where the type is no float. -/
def Ty.fmt : Ty → FFmt
  | .f16 => binary16
  | .bf16 => bfloat16
  | .f64 => binary64
  | .e4m3 => Machine.e4m3
  | .e5m2 => Machine.e5m2
  | .mxf4 => e2m1
  | _ => binary32

/-- Elements in one register of a packed type, 1 otherwise (R115, R134). -/
def Ty.elems (t : Ty) : Nat := if t.width < 32 ∧ 0 < t.width then 32 / t.width else 1

/-- Registers an operand of the type takes (R52). -/
def Ty.regs (t : Ty) : Nat := if t.width = 64 then 2 else 1

/-- A packed type: several elements in a register. -/
def Ty.packed (t : Ty) : Bool := decide (1 < t.elems)

/-- Element e of a register or pair. -/
def Ty.elem (t : Ty) (x : DWord) (e : Nat) : Nat := x.toNat / 2 ^ (t.width * e) % 2 ^ t.width

/-- A register or pair from its elements, each below 2^w. -/
def Ty.join (t : Ty) (es : List Nat) : DWord :=
  BitVec.ofNat 64 (es.foldr (fun x acc => x % 2 ^ t.width + acc * 2 ^ t.width) 0)

/-- The elements of a register or pair, in order. -/
def Ty.split (t : Ty) (x : DWord) : List Nat := (List.range t.elems).map (t.elem x)

/-- An element read at the signedness of the type (R115). -/
def Ty.value (t : Ty) (n : Nat) : Int :=
  if t.signed && decide (2 ^ (t.width - 1) ≤ n) then (n : Int) - 2 ^ t.width else n

/-- An element read as signed whatever the type says. -/
def Ty.signedValue (t : Ty) (n : Nat) : Int :=
  if 2 ^ (t.width - 1) ≤ n then (n : Int) - 2 ^ t.width else n

/-- Smallest value of the type (R116). -/
def Ty.lo (t : Ty) : Int := if t.signed then -(2 ^ (t.width - 1)) else 0

/-- Largest value of the type (R116). -/
def Ty.hi (t : Ty) : Int := if t.signed then 2 ^ (t.width - 1) - 1 else 2 ^ t.width - 1

/-- The last step of every integer instruction: clamp where SAT is 1, then wrap modulo 2^w (R116). -/
def Ty.finishInt (t : Ty) (sat : Bool) (x : Int) : Nat :=
  ((if sat then min (max x t.lo) t.hi else x) % 2 ^ t.width).toNat

/-- An element repeated over a register or pair. -/
def Ty.spread (t : Ty) (x : Nat) : DWord := t.join (List.replicate t.elems x)

end Sys2Proof

namespace Sys2Proof.Machine

/-! ## Element operations -/

/-- An operation on element codes a, b, c under a type: the exact result (R116). -/
abbrev IntOp := Ty → Nat → Nat → Nat → Int

/-- The operation on every element of registers a, b and c (R116). -/
def IntOp.run (o : IntOp) (t : Ty) (sat : Bool) (a b c : DWord) : DWord :=
  t.join ((List.range t.elems).map fun e => t.finishInt sat (o t (t.elem a e) (t.elem b e) (t.elem c e)))

def opAdd : IntOp := fun t a b _ => t.value a + t.value b
def opSub : IntOp := fun t a b _ => t.value a - t.value b
def opMul : IntOp := fun t a b _ => t.value a * t.value b
/-- The high half of the exact product (R119). -/
def opMulHi : IntOp := fun t a b _ => t.value a * t.value b / 2 ^ t.width
def opMad : IntOp := fun t a b c => t.value a * t.value b + t.value c
def opMin : IntOp := fun t a b _ => min (t.value a) (t.value b)
def opMax : IntOp := fun t a b _ => max (t.value a) (t.value b)
def opAbs : IntOp := fun t a _ _ => (t.value a).natAbs
def opAnd : IntOp := fun _ a b _ => (Nat.land a b : Nat)
def opOr : IntOp := fun _ a b _ => (Nat.lor a b : Nat)
def opXor : IntOp := fun _ a b _ => (Nat.xor a b : Nat)
def opNot : IntOp := fun t a _ _ => 2 ^ t.width - 1 - (a : Int)
/-- A copy (R125). -/
def opMov : IntOp := fun _ a _ _ => a

/-- Quotient, 0 for a zero divisor (R120). -/
def opDiv : IntOp := fun t a b _ => if b = 0 then 0 else (t.value a).tdiv (t.value b)
/-- Remainder, a for a zero divisor (R120). -/
def opRem : IntOp := fun t a b _ => if b = 0 then t.value a else (t.value a).tmod (t.value b)

/-- Shifts by the whole element b, never reduced (R122). -/
def opShl : IntOp := fun t a b _ => if t.width ≤ b then 0 else (a * 2 ^ b : Nat)
def opShr : IntOp := fun t a b _ => if t.width ≤ b then 0 else (a / 2 ^ b : Nat)
def opSar : IntOp := fun t a b _ => t.signedValue a / 2 ^ (min b t.width)

/-- BFE (R123). -/
def opBfe : IntOp := fun t a b c =>
  let off := b % 256
  let wd := min (c % 256) t.width
  if wd = 0 then 0
  else
    let f := t.value a / 2 ^ off % 2 ^ wd
    if t.signed && decide (2 ^ (wd - 1) ≤ f) then f - 2 ^ wd else f

/-- BFI (R123). -/
def opBfi : IntOp := fun t a b c =>
  let off := c % 256
  let wd := c / 256 % 256
  let m := (2 ^ wd - 1) * 2 ^ off % 2 ^ t.width
  (Nat.lor (Nat.land a (2 ^ t.width - 1 - m)) (Nat.land (b * 2 ^ off % 2 ^ t.width) m) : Nat)

/-- The low w bits of n in reverse order. -/
def revBits (n : Nat) : Nat → Nat
  | 0 => 0
  | w + 1 => n % 2 * 2 ^ w + revBits (n / 2) w

/-- The number of one bits among the low w bits of n. -/
def countOnes (n : Nat) : Nat → Nat
  | 0 => 0
  | w + 1 => n % 2 + countOnes (n / 2) w

def opBrev : IntOp := fun t a _ _ => (revBits a t.width : Nat)
/-- The count that POPC writes into one register (R123). -/
def popCount (t : Ty) (a : Nat) : Nat := countOnes a t.width
/-- The count that CLZ writes into one register (R123). -/
def leadingZeros (t : Ty) (a : Nat) : Nat := t.width - bitLen a

/-- The condition codes of CMP and UCMP (R124); code 7 is illegal. -/
def intCompare (t : Ty) (cc : BitVec 3) (a b : Nat) : Bool :=
  match cc.toNat with
  | 0 => t.value a = t.value b
  | 1 => t.value a ≠ t.value b
  | 2 => t.value a < t.value b
  | 3 => t.value a ≤ t.value b
  | 4 => t.value a > t.value b
  | 5 => t.value a ≥ t.value b
  | 6 => Nat.land a b ≠ 0
  | _ => false

/-- Sum and carry out of an add with carry, on unsigned operands (R118). -/
def addCarry (t : Ty) (a b cin : Nat) : Nat × Bool :=
  ((a + b + cin) % 2 ^ t.width, decide (2 ^ t.width ≤ a + b + cin))

/-- Difference and borrow out of a subtract with borrow, on unsigned operands (R118). -/
def subBorrow (t : Ty) (a b cin : Nat) : Nat × Bool :=
  ((((a : Int) - b - cin) % 2 ^ t.width).toNat, decide (a < b + cin))

/-- The exact 64-bit product of MULW (R119). -/
def mulWide (t : Ty) (a b : Nat) : DWord := BitVec.ofInt 64 (t.value a * t.value b)

/-! ## Inline constants (R95) -/

/-- The significand × 2 of the eight inline floats, in order (R94): 0.5, 1, 2, 4 and their negatives. -/
def inlineFloat (n : BitVec 3) : Bool × Nat := (decide (4 ≤ n.toNat), 2 ^ (n.toNat % 4))

/-- Code of an inline float in a format. -/
def inlineFloatCode (f : FFmt) (n : BitVec 3) : Nat :=
  let (s, m) := inlineFloat n
  (f.round false .rne s ⟨m, -1, false⟩).code

/-- One element of an inline integer under a type (R95). An integer that a format of few bits does not hold exactly
is rounded to nearest even, as R81 converts a constant. DEDUCED, unsafe: log entry 8. -/
def inlineIntElem (t : Ty) (x : Int) : Nat :=
  if t.isFloat then (t.fmt.ofInt false .rne x).code else (x % 2 ^ t.width).toNat

/-- One element of an inline float under a type: under an integer type the pattern of the floating format of the
element's width (R95). -/
def inlineFloatElem (t : Ty) (n : BitVec 3) : Nat :=
  if t.isFloat then inlineFloatCode t.fmt n
  else inlineFloatCode (match t.width with
    | 64 => binary64
    | 16 => binary16
    | 8 => e4m3
    | _ => binary32) n

end Sys2Proof.Machine
end

