-- ==== Sys2Proof/Machine/Legality.lean ====
section
/-!
DEFINITION. What an instruction word may hold: the operand positions of every instruction with the kinds, register
ranges and alignments each admits (R443 to R445), and the field values (R446). From these follow the sub-reasons of
stage A, the allocation test of stage B (R436, R444) and the register interlock of R107.
-/

namespace Sys2Proof
open Machine

/-! ## Kinds of operand -/

def isV : Operand → Bool
  | .v _ => true
  | _ => false
def isS : Operand → Bool
  | .s _ => true
  | _ => false
def isK : Operand → Bool
  | .k _ => true
  | _ => false
def isX : Operand → Bool
  | .x _ => true
  | _ => false
def isSpecial : Operand → Bool
  | .special _ => true
  | _ => false
def isLane : Operand → Bool
  | .special .lane => true
  | _ => false
/-- An inline constant or a literal. -/
def isConst : Operand → Bool
  | .int _ | .neg _ | .flt _ | .lit => true
  | _ => false
def isNone : Operand → Bool
  | .none => true
  | _ => false

/-- A source of class 0x0 (R111). -/
def uniSrc (o : Operand) : Bool := isS o || (isSpecial o && !isLane o) || isConst o
/-- A source that may be a vector register, a scalar register, a special operand or a constant (R168, R203). -/
def anySrc (o : Operand) : Bool := isV o || isS o || isSpecial o || isConst o
/-- A source of class 0x1, which may also be an index register (R112). -/
def vecSrc (o : Operand) : Bool := anySrc o || isX o
/-- A source of a once-per-fragment form: a scalar register, a special operand or a constant (R203, R215). -/
def onceSrc (o : Operand) : Bool := isS o || isSpecial o || isConst o
/-- A source of a floating type: an index register is no f32 source (R144). -/
def fltSrc (t : Ty) (o : Operand) : Bool := anySrc o || (isX o && t != .f32)

/-! ## Operand positions -/

/-- One operand position of an instruction. -/
structure Pos where
  o : Operand
  /-- The position admits this operand (R443). -/
  ok : Bool
  /-- Consecutive registers that a register named here stands for (R444). -/
  regs : Nat
  /-- The register number is a multiple of this (R52, R201). -/
  align : Nat
  /-- The position is 64 bits wide (R96). -/
  wide : Bool
  read : Bool
  written : Bool
  deriving DecidableEq, Repr

/-- A source of n registers, n of them aligned. -/
def Pos.src (ok : Operand → Bool) (o : Operand) (n : Nat) : Pos := ⟨o, ok o, n, n, n == 2, true, false⟩
/-- A destination of n registers, n of them aligned; 0x1FE discards the result (R97). -/
def Pos.dst (ok : Operand → Bool) (o : Operand) (n : Nat) : Pos := ⟨o, ok o || isNone o, n, n, false, false, true⟩
/-- A destination of n registers at another alignment; 0x1FE discards the result (R97). -/
def Pos.dstAt (ok : Operand → Bool) (o : Operand) (n align : Nat) : Pos :=
  { Pos.dst ok o n with align := align }
/-- A destination that must name a register: a predicate, a link, or a register the instruction also reads.
DEDUCED (log 95): 0x1FE as the predicate D of CMP, FCMP, FCLASS, VOTEANY, VOTEALL, VOTEEQ, PAND to PMOV, REFCMP and
REFCHK is refused with 0x06, as another kind where a predicate is named (R166, R168, R443). -/
def Pos.dstReq (ok : Operand → Bool) (o : Operand) (n align : Nat) : Pos := ⟨o, ok o, n, align, false, false, true⟩
/-- A range of n registers that is read. -/
def Pos.range (ok : Operand → Bool) (o : Operand) (n align : Nat) : Pos := ⟨o, ok o, n, align, false, true, false⟩
/-- A register both read and written, or 0x1FE. -/
def Pos.both (ok : Operand → Bool) (o : Operand) (n : Nat) : Pos := ⟨o, ok o || isNone o, n, n, false, true, true⟩
/-- A position that must hold 0x1FE. -/
def Pos.empty (o : Operand) : Pos := ⟨o, isNone o, 1, 1, false, false, false⟩
/-- A source that may also be 0x1FE. -/
def Pos.opt (ok : Operand → Bool) (o : Operand) (n : Nat) : Pos := Pos.src (fun o => ok o || isNone o) o n

def isVS (o : Operand) : Bool := isV o || isS o

/-- Class 0x0: D and the listed sources at the type, the others 0x1FE. -/
def uniPos (f : VFmt) (srcs : Nat) : List Pos :=
  let n := f.ty.regs
  let at_ (i : Nat) (o : Operand) : Pos := if i < srcs then .src uniSrc o n else .empty o
  [.dst isS f.d n, at_ 0 f.a, at_ 1 f.b, at_ 2 f.c]

/-- Class 0x1: D a vector register and the listed sources at the type, the others 0x1FE. -/
def vecPos (f : VFmt) (srcs : Nat) : List Pos :=
  let n := f.ty.regs
  let at_ (i : Nat) (o : Operand) : Pos := if i < srcs then .src vecSrc o n else .empty o
  [.dst isV f.d n, at_ 0 f.a, at_ 1 f.b, at_ 2 f.c]

/-- Class 0x2: D a vector register and the listed float sources, the others 0x1FE (R144). -/
def fltPos (f : VFmt) (srcs : Nat) : List Pos :=
  let n := f.ty.regs
  let at_ (i : Nat) (o : Operand) : Pos := if i < srcs then .src (fltSrc f.ty) o n else .empty o
  [.dst isV f.d n, at_ 0 f.a, at_ 1 f.b, at_ 2 f.c]

/-- MOVX's and MOVXS's window length: an inline integer or a literal; the value is a field test (R126, R446). -/
def windowOk (o : Operand) : Bool :=
  match o with
  | .int _ | .neg _ | .lit | .none => true
  | _ => false

/-- The source type that CVT holds in C[19:16] (R152). -/
def cvtFrom (f : VFmt) : Ty := Ty.ofBits (f.c.bits.extractLsb' 0 4)

/-- Bytes of an access by size code (R80). -/
def sizeBytes (s : BitVec 3) : Nat :=
  match s.toNat with
  | 0 | 6 => 1
  | 1 | 7 => 2
  | 2 => 4
  | 3 => 8
  | 4 => 16
  | _ => 32

/-- Registers of an access of n bytes (R201). -/
def bytesRegs (n : Nat) : Nat := max 1 (n / 4)

/-- The data of a store: a constant is 64 bits wide at 8 bytes only (R201). -/
def storePos (ok : Operand → Bool) (f : MFmt) : Pos :=
  let n := bytesRegs (sizeBytes f.size)
  ⟨f.data, ok f.data, n, n, sizeBytes f.size == 8, true, false⟩

/-- The destination of a load (R201). -/
def loadPos (ok : Operand → Bool) (f : MFmt) : Pos := .dst ok f.data (bytesRegs (sizeBytes f.size))

/-- A reference pair, vector or scalar (R200). -/
def refPos (o : Operand) : Pos := .src isVS o 2

/-- The destination of class 0xC: a scalar register only where no source is a vector register (R219). -/
def refDst (o : Operand) (n : Nat) (srcs : List Operand) : Pos :=
  .dst (fun o => isV o || (isS o && !srcs.any isV)) o n

/-- The second operand of an atomic or copy, held in bits [24:16] (R101). -/
def MFmt.immOp (f : MFmt) : Operand := Operand.ofBits f.imm

/-- Registers of an atomic's operand by size code (R210). -/
def atomRegs (s : BitVec 3) : Nat := if s = 3 ∨ s = 7 then 2 else 1

/-- The positions of AADD to AXCHG in their two forms (R210). -/
def atomPos (f : MFmt) : List Pos :=
  let n := atomRegs f.size
  if f.immOp = .none then [.src anySrc f.data n, refPos f.ref, .opt anySrc f.index 1, .empty f.immOp]
  else [.dst isV f.data n, refPos f.ref, .opt anySrc f.index 1, .src anySrc f.immOp n]

/-- Registers of one A row or one B column of K = 32(s+1) elements (R245). -/
def rowRegs (t : Ty) (s : Nat) : Nat :=
  match t with
  | .f16 | .bf16 => 16 * (s + 1)
  | .e4m3 | .e5m2 | .s8 | .z8 => 8 * (s + 1)
  | .mxf4 => 4 * (s + 1) + (s + 4) / 4
  | _ => 1

/-- The 12-bit special register number of SREAD and SWRITE (R337). -/
def srNumber (f : YFmt) : Nat := (f.imm.extractLsb' 0 12).toNat

/-- Special registers of 64 bits (R55). -/
def srWide (n : Nat) : Bool := n == 0x010 || n == 0x011 || n == 0x021 || n == 0x023 || n == 0x029 || n == 0x02B

/-- GATE's status register specifier, bits [32:24] (R332). -/
def gateSt (f : YFmt) : Operand := Operand.ofBits (f.imm.extractLsb' 8 9)

/-- s0 to s15, or none (R332). -/
def gateStOk : Operand → Bool
  | .s n => decide (n.toNat < 16)
  | .none => true
  | _ => false

/-- Operand positions of the sampler's sampling forms (R284). -/
def samplePos (f : GFmt) (dst align : Nat) (extra : Pos) : List Pos :=
  [.dstAt isV f.dbase dst align, .range isVS f.cbase 3 1, refPos f.hdr, extra]

/-- LODM, CTL bits [1:0] (R284). -/
def lodm (f : GFmt) : Nat := (f.ctl.extractLsb' 0 2).toNat

/-- A LOD or bias operand: absent exactly when LODM is implicit (R284). -/
def lodPos (f : GFmt) : Pos := if lodm f = 0 then .empty f.extra else .src anySrc f.extra 1

/-- Four coordinate registers, vector or scalar, a multiple of 4 (R206). -/
def coordPos (o : Operand) : Pos := .range isVS o 4 4

/-- A source of PACK: one register for two elements; for four an even pair or a constant, and no other kind (R154). -/
def packPos (f : VFmt) (o : Operand) : Pos :=
  if 2 < f.ty.elems then { Pos.src (fun o => isVS o || isConst o) o 2 with wide := false } else .src (fltSrc (if f.ty.isFloat then .f32 else .s32)) o 1

/-- Operand positions of each instruction; none for rows that are not instructions.
DEDUCED (log 97): the B of FLDEXP and of FCLASS is an s32 and a 32-bit mask (R147, R150) and so a single register, odd
ones included, under f64 too, although R144 has every register operand name an even pair there. -/
def Instr.positions : Instr → List Pos

  | .uadd f => [.dst isS f.d f.ty.regs, .src uniSrc f.a f.ty.regs, .src uniSrc f.b f.ty.regs, .both isS f.c 1]
  | .uaddc f => [.dst isS f.d f.ty.regs, .src uniSrc f.a f.ty.regs, .src uniSrc f.b f.ty.regs,
      { Pos.dstReq isS f.c 1 1 with read := true }]
  | .usub f => [.dst isS f.d f.ty.regs, .src uniSrc f.a f.ty.regs, .src uniSrc f.b f.ty.regs, .both isS f.c 1]
  | .usubb f => [.dst isS f.d f.ty.regs, .src uniSrc f.a f.ty.regs, .src uniSrc f.b f.ty.regs,
      { Pos.dstReq isS f.c 1 1 with read := true }]
  | .umul f => uniPos f 2
  | .umulhi f => uniPos f 2
  | .umulw f => [.dst isS f.d 2, .src uniSrc f.a 1, .src uniSrc f.b 1, .empty f.c]
  | .udiv f => uniPos f 2
  | .urem f => uniPos f 2
  | .umin f => uniPos f 2
  | .umax f => uniPos f 2
  | .uand f => uniPos f 2
  | .uor f => uniPos f 2
  | .uxor f => uniPos f 2
  | .unot f => uniPos f 1
  | .ushl f => uniPos f 2
  | .ushr f => uniPos f 2
  | .usar f => uniPos f 2
  | .ubfe f => uniPos f 3
  | .ubfi f => uniPos f 3
  | .upopc f => [.dst isS f.d 1, .src uniSrc f.a f.ty.regs, .empty f.b, .empty f.c]
  | .uclz f => [.dst isS f.d 1, .src uniSrc f.a f.ty.regs, .empty f.b, .empty f.c]
  | .ucmp f => [.dst isS f.d 1, .src uniSrc f.a f.ty.regs, .src uniSrc f.b f.ty.regs, .empty f.c]
  | .usel f => [.dst isS f.d f.ty.regs, .src uniSrc f.a f.ty.regs, .src uniSrc f.b f.ty.regs, .range isS f.c 1 1]
  | .umov f => uniPos f 1
  | .add f => [.dst isV f.d f.ty.regs, .src vecSrc f.a f.ty.regs, .src vecSrc f.b f.ty.regs, .both isK f.c 1]
  | .addc f => [.dst isV f.d f.ty.regs, .src vecSrc f.a f.ty.regs, .src vecSrc f.b f.ty.regs,
      { Pos.dstReq isK f.c 1 1 with read := true }]
  | .sub f => [.dst isV f.d f.ty.regs, .src vecSrc f.a f.ty.regs, .src vecSrc f.b f.ty.regs, .both isK f.c 1]
  | .subb f => [.dst isV f.d f.ty.regs, .src vecSrc f.a f.ty.regs, .src vecSrc f.b f.ty.regs,
      { Pos.dstReq isK f.c 1 1 with read := true }]
  | .mul f => vecPos f 2
  | .mulhi f => vecPos f 2
  | .mulw f => [.dst isV f.d 2, .src vecSrc f.a 1, .src vecSrc f.b 1, .empty f.c]
  | .mad f => vecPos f 3
  | .div f => vecPos f 2
  | .rem f => vecPos f 2
  | .min f => vecPos f 2
  | .max f => vecPos f 2
  | .abs f => vecPos f 1
  | .and f => vecPos f 2
  | .or f => vecPos f 2
  | .xor f => vecPos f 2
  | .not f => vecPos f 1
  | .shl f => vecPos f 2
  | .shr f => vecPos f 2
  | .sar f => vecPos f 2
  | .bfe f => vecPos f 3
  | .bfi f => vecPos f 3
  | .brev f => vecPos f 1
  | .popc f => [.dst isV f.d 1, .src vecSrc f.a f.ty.regs, .empty f.b, .empty f.c]
  | .clz f => [.dst isV f.d 1, .src vecSrc f.a f.ty.regs, .empty f.b, .empty f.c]
  | .cmp f => [.dstReq isK f.d 1 1, .src vecSrc f.a f.ty.regs, .src vecSrc f.b f.ty.regs, .empty f.c]
  | .sel f => [.dst isV f.d f.ty.regs, .src vecSrc f.a f.ty.regs, .src vecSrc f.b f.ty.regs, .range isK f.c 1 1]
  | .mov f => [.dst (fun o => isV o || (isX o && (f.ty == .s32 || f.ty == .z32))) f.d f.ty.regs,
      .src vecSrc f.a f.ty.regs, .empty f.b, .empty f.c]
  | .movx f => [.dst isV f.d f.ty.regs, .range isV f.a f.ty.regs f.ty.regs, .src windowOk f.b 1, .range isX f.c 1 1]
  | .movxs f => [.dstReq isV f.d f.ty.regs f.ty.regs, .src vecSrc f.a f.ty.regs, .src windowOk f.b 1,
      .range isX f.c 1 1]
  | .fadd f => fltPos f 2
  | .fsub f => fltPos f 2
  | .fmul f => fltPos f 2
  | .ffma f => fltPos f 3
  | .fmin f => fltPos f 2
  | .fmax f => fltPos f 2
  | .fabs f => fltPos f 1
  | .fneg f => fltPos f 1
  | .fcmp f => [.dstReq isK f.d 1 1, .src (fltSrc f.ty) f.a f.ty.regs, .src (fltSrc f.ty) f.b f.ty.regs, .empty f.c]
  | .fclass f => [.dstReq isK f.d 1 1, .src (fltSrc f.ty) f.a f.ty.regs, .src vecSrc f.b 1, .empty f.c]
  | .frcp f => fltPos f 1
  | .frsq f => fltPos f 1
  | .fsqrt f => fltPos f 1
  | .fdiv f => fltPos f 2
  | .fexp2 f => fltPos f 1
  | .flog2 f => fltPos f 1
  | .fsin f => fltPos f 1
  | .fcos f => fltPos f 1
  | .ftanh f => fltPos f 1
  | .ffloor f => fltPos f 1
  | .fceil f => fltPos f 1
  | .ftrunc f => fltPos f 1
  | .frint f => fltPos f 1
  | .ffrac f => fltPos f 1
  | .fldexp f => [.dst isV f.d f.ty.regs, .src (fltSrc f.ty) f.a f.ty.regs, .src vecSrc f.b 1, .empty f.c]
  | .fexpo f => [.dst isV f.d 1, .src (fltSrc f.ty) f.a f.ty.regs, .empty f.b, .empty f.c]
  | .fmant f => fltPos f 1
  | .fmed3 f => fltPos f 3
  | .fdot2 f => [.dst isV f.d 1, .src vecSrc f.a 1, .src vecSrc f.b 1, .src (fltSrc .f32) f.c 1]
  | .fdot4 f => [.dst isV f.d 1, .src vecSrc f.a 1, .src vecSrc f.b 1, .src (fltSrc .f32) f.c 1]
  | .cvt f => [.dst isV f.d f.ty.regs, .src (fltSrc (cvtFrom f)) f.a (cvtFrom f).regs, .empty f.b]
  | .cvtmx f => [.both isV f.d 1, .src (fltSrc .f32) f.a 1, .src vecSrc f.b 1, .src vecSrc f.c 1]
  | .pack f => [.dst isV f.d 1, packPos f f.a, packPos f f.b, .empty f.c]
  | .unpack f => [.dst isV f.d 1, .src vecSrc f.a 1, .src vecSrc f.b 1,
      if f.ty == .e4m3 || f.ty == .e5m2 || f.ty == .mxf4 then .opt vecSrc f.c 1 else .empty f.c]
  | .mxscale f => [.dst isV f.d 1, .src (fltSrc .f32) f.a 1, .empty f.b, .empty f.c]
  | .bperm f => [.dst isV f.d 1, .range isV f.a 1 1, .src anySrc f.b 1, .src anySrc f.c 1]
  | .shfl f => [.dst isV f.d f.ty.regs, .range isV f.a f.ty.regs f.ty.regs, .src anySrc f.b 1,
      .src anySrc f.c f.ty.regs]
  | .shflup f => [.dst isV f.d f.ty.regs, .range isV f.a f.ty.regs f.ty.regs, .src anySrc f.b 1,
      .src anySrc f.c f.ty.regs]
  | .shfldn f => [.dst isV f.d f.ty.regs, .range isV f.a f.ty.regs f.ty.regs, .src anySrc f.b 1,
      .src anySrc f.c f.ty.regs]
  | .shflx f => [.dst isV f.d f.ty.regs, .range isV f.a f.ty.regs f.ty.regs, .src anySrc f.b 1,
      .src anySrc f.c f.ty.regs]
  | .voteany f => [.dstReq isK f.d 1 1, .range isK f.a 1 1, .empty f.b, .empty f.c]
  | .voteall f => [.dstReq isK f.d 1 1, .range isK f.a 1 1, .empty f.b, .empty f.c]
  | .voteeq f => [.dstReq isK f.d 1 1, .range isV f.a f.ty.regs f.ty.regs, .empty f.b, .empty f.c]
  | .ballot f => [{ Pos.dst isVS f.d 3 with align := 1 }, .range isK f.a 1 1, .empty f.b, .empty f.c]
  | .scan f => [.dst isV f.d f.ty.regs, .range isV f.a f.ty.regs f.ty.regs, .empty f.b, .opt anySrc f.c f.ty.regs]
  | .scanx f => [.dst isV f.d f.ty.regs, .range isV f.a f.ty.regs f.ty.regs, .empty f.b, .opt anySrc f.c f.ty.regs]
  | .reduce f => [.dst isVS f.d f.ty.regs, .range isV f.a f.ty.regs f.ty.regs, .empty f.b, .opt anySrc f.c f.ty.regs]
  | .compact f => [.dst isV f.d f.ty.regs, .range isV f.a f.ty.regs f.ty.regs, .range isK f.b 1 1,
      .src anySrc f.c f.ty.regs]
  | .expand f => [.dst isV f.d f.ty.regs, .range isV f.a f.ty.regs f.ty.regs, .range isK f.b 1 1,
      .src anySrc f.c f.ty.regs]
  | .rdfirst f => [.dst isVS f.d f.ty.regs, .range isV f.a f.ty.regs f.ty.regs, .empty f.b, .empty f.c]
  | .bra f => [.empty f.cond]
  | .brp f => [.range isK f.cond 1 1]
  | .bru f => [.src (fun o => isS o || (isSpecial o && !isLane o)) f.cond 1]
  | .call f => [.dstReq isVS f.cond 2 2]
  | .calli f => [.dstReq isVS f.cond 2 2, .range isVS f.target 2 2]
  | .ret f => [.range isVS f.cond 2 2]
  | .jmpi f => [.empty f.cond, .range isVS f.target 2 2]
  | .exit f => [.empty f.cond]
  | .regang f => [.empty f.cond]
  | .pand f => [.dstReq isK f.d 1 1, .range isK f.a 1 1, .range isK f.b 1 1, .empty f.c]
  | .por f => [.dstReq isK f.d 1 1, .range isK f.a 1 1, .range isK f.b 1 1, .empty f.c]
  | .pxor f => [.dstReq isK f.d 1 1, .range isK f.a 1 1, .range isK f.b 1 1, .empty f.c]
  | .pandn f => [.dstReq isK f.d 1 1, .range isK f.a 1 1, .range isK f.b 1 1, .empty f.c]
  | .pnot f => [.dstReq isK f.d 1 1, .range isK f.a 1 1, .empty f.b, .empty f.c]
  | .pmov f => [.dstReq isK f.d 1 1, .src (fun o => isK o || isVS o || isConst o) f.a 1, .empty f.b, .empty f.c]
  | .ld f => [loadPos isV f, refPos f.ref, .opt anySrc f.index 1]
  | .st f => [storePos anySrc f, refPos f.ref, .opt anySrc f.index 1]
  | .lds f => [loadPos isV f, .src anySrc f.ref 1, .empty f.index]
  | .sts f => [storePos anySrc f, .src anySrc f.ref 1, .empty f.index]
  | .ldsr f => [loadPos isV f, .src anySrc f.ref 1, .src anySrc f.index 1]
  | .stsr f => [storePos anySrc f, .src anySrc f.ref 1, .src anySrc f.index 1]
  | .sld f => [loadPos isS f, .src isS f.ref 2, .opt onceSrc f.index 1]
  | .sst f => [storePos onceSrc f, .src isS f.ref 2, .opt onceSrc f.index 1]
  | .tld f => [loadPos isV f, refPos f.ref, coordPos f.index]
  | .tst f => [storePos anySrc f, refPos f.ref, coordPos f.index]
  | .pref f => [.empty f.data, refPos f.ref, .opt anySrc f.index 1]
  | .evict f => [.empty f.data, refPos f.ref, .opt anySrc f.index 1]
  | .fence f => [.empty f.data, .empty f.ref, .empty f.index]
  | .sqpush f => [.range isV f.data 16 16, .empty f.ref, .empty f.index]
  | .sqpop f => [.dst isV f.data 16, .empty f.ref, .dstReq isK f.index 1 1]
  | .aadd f => atomPos f
  | .afadd f => atomPos f
  | .amin f => atomPos f
  | .amax f => atomPos f
  | .aand f => atomPos f
  | .aor f => atomPos f
  | .axor f => atomPos f
  | .axchg f => atomPos f
  | .acas f => [{ Pos.dstReq isV f.data (atomRegs f.size) (atomRegs f.size) with read := true }, refPos f.ref,
      .opt anySrc f.index 1, .src anySrc f.immOp (atomRegs f.size)]
  | .atile f => [.range isV f.data 8 8, refPos f.ref, .opt anySrc f.index 1, .empty f.immOp]
  | .copy f => [.src isS f.data 2, .src isS f.ref 2, .src onceSrc f.index 1, .empty f.immOp]
  | .copyin f => [.src onceSrc f.data 1, .empty f.ref, .src onceSrc f.index 1, .src isS f.immOp 2]
  | .copyout f => [.empty f.data, .src onceSrc f.ref 1, .src onceSrc f.index 1, .src isS f.immOp 2]
  | .copyt f => [.src isS f.data 2, .src isS f.ref 2, .src onceSrc f.index 1, .range isS f.immOp 4 4]
  | .batch _ => []
  | .waitb f => [.src onceSrc f.op1 1]
  | .waitbn _ => []
  | .bquery f => [.dst isS f.op1 1]
  | .mma f => [.range isV f.abase (rowRegs f.ity f.shape.toNat) 4,
      .range isV f.bbase (rowRegs f.ity f.shape.toNat) 4, .empty f.sop]
  | .mmaGrp f => [.range isV f.abase (rowRegs f.ity f.shape.toNat) 4,
      .range isV f.bbase (rowRegs f.ity f.shape.toNat * ((f.mode.extractLsb' 0 2).toNat + 1)) 4,
      .range isS f.sop 1 1]
  | .mmaLut f => [.empty f.abase, .range isV f.bbase ((f.mode.extractLsb' 2 2).toNat + 1) 4]
  | .mmaSa f => [.range isV f.abase (rowRegs f.ity f.shape.toNat) 4,
      .range isV f.bbase (rowRegs f.ity f.shape.toNat) 4, .empty f.sop]
  | .lutb f => [.range isV f.abase (rowRegs f.ity 0) 4, .empty f.bbase, .empty f.sop]
  | .bload f => [.range isS f.abase 2 2, .dstAt isV f.bbase (rowRegs f.ity f.shape.toNat) 4, .range isS f.sop 4 4]
  | .aclr f => [.empty f.abase, .empty f.bbase, .empty f.sop]
  | .amovr f => [.dstAt isV f.abase (if f.shape = 4 then 32 else 8) 8, .empty f.bbase, .empty f.sop]
  | .amovw f => [.range isV f.abase (if f.shape = 4 then 32 else 8) 8, .empty f.bbase, .empty f.sop]
  | .ascale f => if f.mode.getLsbD 0 then [.range isV f.abase 1 4, .empty f.bbase,
      .empty f.sop] else [.empty f.abase, .range isV f.bbase 1 4, .empty f.sop]
  | .drain f => [.range isS f.abase 2 2, .empty f.bbase, .src onceSrc f.sop 1]
  | .drainAdd f => [.range isS f.abase 2 2, .empty f.bbase, .src onceSrc f.sop 1]
  | .lend f => [.empty f.abase, .empty f.bbase, .empty f.sop]
  | .recall f => [.empty f.abase, .empty f.bbase, .empty f.sop]
  | .astat f => [.dst isS f.abase 1, .empty f.bbase, .empty f.sop]
  | .sample f => samplePos f 4 4 (lodPos f)
  | .sampleN f => samplePos f 8 8 (lodPos f)
  | .gather f => samplePos f 4 4 (.opt anySrc f.extra 1)
  | .texq f => [.dst isV f.dbase 1, .empty f.cbase, refPos f.hdr, .opt anySrc f.extra 1]
  | .wpin f => [.dst isS f.dbase 1, .empty f.cbase, .src isS f.hdr 2, .empty f.extra]
  | .wunpin f => [.empty f.dbase, .empty f.cbase, .src isS f.hdr 2, .empty f.extra]
  | .winv f => [.empty f.dbase, .empty f.cbase, .src isS f.hdr 2, .empty f.extra]
  | .rng f => [.dstAt isV f.dbase ((f.ctl.extractLsb' 0 3).toNat + 1) 1, .empty f.cbase, .empty f.hdr,
      .opt anySrc f.extra 1]
  | .rayPin f => [.dst isS f.dbase 1, .empty f.cbase, .src isS f.hdr 2, .empty f.extra]
  | .rayTrace f => [.dst isV f.dbase 8, .range isVS f.cbase 8 8, refPos f.hdr, .src anySrc f.extra 1]
  | .rayNext f => [{ Pos.dstReq isV f.dbase 8 8 with read := true }, .empty f.cbase, .empty f.hdr, .src anySrc f.extra 1]
  | .rayUnpin f => [.empty f.dbase, .empty f.cbase, .src isS f.hdr 2, .src onceSrc f.extra 1]
  | .bvhBuild f => [.empty f.dbase, .src isS f.cbase 2, .src isS f.hdr 2, .src onceSrc f.extra 1]
  | .bvhRefit f => [.empty f.dbase, .src isS f.cbase 2, .src isS f.hdr 2, .src onceSrc f.extra 1]
  | .bvhBal f => [.empty f.dbase, .empty f.cbase, .src isS f.hdr 2, .empty f.extra]
  | .bvhPub f => [.empty f.dbase, .empty f.cbase, .src isS f.hdr 2, .empty f.extra]
  | .bar _ => []
  | .barCl _ => []
  | .arrive _ => []
  | .waitbar _ => []
  | .collRed f => [.src isS f.op1 2, .empty f.op2]
  | .collGath f => [.src isS f.op1 2, .empty f.op2]
  | .collScat f => [.src isS f.op1 2, .empty f.op2]
  | .collBcast f => [.src isS f.op1 2, .empty f.op2]
  | .collWait _ => []
  | .gate f => [.src isS f.op1 2, { Pos.dst gateStOk (gateSt f) 1 with ok := gateStOk (gateSt f) }]
  | .gateret _ => []
  | .objGrant f => [{ Pos.src isS f.op1 2 with written := true }, .src isS f.op2 2]
  | .nop _ => []
  | .trap _ => []
  | .rett _ => []
  | .sread f => [.dst isVS f.op1 (if srWide (srNumber f) then 2 else 1)]
  | .swrite f => [.src (fun o => isS o || isConst o) f.op1 (if srWide (srNumber f) then 2 else 1)]
  | .phint _ => []
  | .enter _ => []
  | .leave _ => []
  | .brk _ => []
  | .waitClk f => [.src onceSrc f.op1 1]
  | .yield _ => []
  | .mark f => [.src onceSrc f.op1 1]
  | .derive f => [refDst f.d 2 [f.a, f.b], .src anySrc f.a 1, .src anySrc f.b 1, .empty f.c]
  | .narrow f => [refDst f.d 2 [f.a, f.b], refPos f.a, .src anySrc f.b 1, .empty f.c]
  | .refadd f => [refDst f.d 2 [f.a, f.b], refPos f.a, .src anySrc f.b f.ty.regs, .empty f.c]
  | .refoff f => [refDst f.d f.ty.regs [f.a], refPos f.a, .empty f.b, .empty f.c]
  | .refset f => [refDst f.d 2 [f.a, f.b], refPos f.a, .src anySrc f.b f.ty.regs, .empty f.c]
  | .refcmp f => [.dstReq isK f.d 1 1, refPos f.a, refPos f.b, .empty f.c]
  | .refchk f => [.dstReq isK f.d 1 1, refPos f.a, .src anySrc f.b 1, .src anySrc f.c 1]
  | .objq f => [refDst f.d 1 [f.a, f.b], refPos f.a, .src anySrc f.b 1, .empty f.c]
  | .relayout f => [.empty f.d, .src isS f.a 2, .src onceSrc f.b 1, .empty f.c]
  | .rlwait f => [.empty f.d, .src isS f.a 2, .empty f.b, .empty f.c]
  | .taddr f => [refDst f.d 2 [f.a, f.c], refPos f.a, .empty f.b, coordPos f.c]
  | .tdesc f => [refDst f.d 1 [f.a, f.b], refPos f.a, .src anySrc f.b 1, .empty f.c]
  | .notAnInstruction _ => []
  | .holdLimit _ _ => []
  | .longLatencyComplete _ _ => []
  | .storeAcknowledge _ => []
  | .lateCondition _ _ _ => []
  | .copyComplete _ => []
  | .matrixOpComplete _ _ => []
  | .weightFillComplete _ _ => []
  | .rayTraversalEnd _ _ => []
  | .armatureOpStart _ => []
  | .armatureOpComplete _ => []
  | .collectiveComplete _ _ => []
  | .rasterTriangle _ _ => []
  | .rasterMerge _ _ => []
  | .migrationMove _ => []
  | .granuleArrival _ _ => []
  | .conversionTile _ _ => []
  | .residencyTimeout _ _ => []
  | .conversionWaitTimeout _ => []
  | .context _ _ => []
  | .objinv _ _ => []
  | .signal _ _ => []
  | .wait _ _ => []
  | .launch _ _ => []
  | .nopPacket _ _ => []
  | .queueDoorbell _ _ _ => []
  | .queueRestart _ _ _ => []
  | .launchReplica _ _ _ _ => []
  | .startArrival _ _ => []
  | .launchRejectionStamped _ _ => []
  | .startTimeout _ => []
  | .arrivalExpiry _ _ => []
  | .packageEndReport _ _ => []
  | .clusterPlacement _ => []
  | .sliceEnd _ _ => []
  | .preemptStepPhase _ => []
  | .stepPhaseTimeout _ => []
  | .workgroupSave _ => []
  | .workgroupRestore _ => []
  | .waitClkExpiry _ _ => []
  | .haltComplete _ => []
  | .debugSessionOpen _ _ => []
  | .debugSessionClose _ => []
  | .debugHalt _ => []
  | .debugResume _ => []
  | .dbgdataRead _ => []
  | .dbgdataWrite _ _ => []
  | .islandWrite _ _ => []
  | .frequencyChangeEnd _ => []
  | .registerWrite _ _ => []
  | .identify => []
  | .fwwrite => []
  | .fwactivate => []
  | .status => []
  | .powerOnReset => []
  | .getVersion => []
  | .getCapabilities => []
  | .negotiateAlgorithms _ _ => []
  | .getDigests => []
  | .getCertificate _ _ => []
  | .challenge _ => []
  | .getMeasurements _ => []
  | .firmwareRemeasure => []
  | .securityAlarm _ => []
  | .thermalThrottle _ _ => []
  | .thermalTrip _ => []
  | .hostMemAccess _ _ => []
  | .hostCacheSnoop _ _ _ => []
  | .atsInvalidation _ _ => []
  | .expanderLinkLoss _ => []
  | .scrubPass _ _ _ => []
  | .skewMeasurement _ _ _ _ => []
  | .flitData _ _ => []
  | .flitIdle _ _ => []
  | .flitAcknowledge _ _ => []
  | .flitReplayRequest _ _ => []
  | .portRetrain _ => []
  | .portTrainingEnd _ _ _ => []
  | .packageLoss _ => []
  | .packageLossReport _ => []
  | .transportDoorbell _ _ _ => []
  | .wrWrite _ _ => []
  | .wrRead _ _ => []
  | .wrSend _ _ => []
  | .frameWrite _ _ => []
  | .frameReadRequest _ _ => []
  | .frameReadResponse _ _ => []
  | .frameSend _ _ => []
  | .frameAck _ _ => []
  | .frameNak _ _ => []
  | .transportRetransmit _ _ => []
  | .completionRecordWrite _ _ => []
  | .ethernetLinkChange _ _ => []
  | .thermalLimitRelease _ => []

/-! ## Field values -/

/-- Sub-reasons 0x04 and 0x05 that a word's fields raise (R437, R446). -/
structure FieldFault where
  /-- A bit marked as zero is 1 (0x04). -/
  zero : Bool
  /-- A field holds a value its entry does not admit (0x05). -/
  value : Bool
  deriving DecidableEq, Repr

/-- TYPE among the codes, RND at most a top value, SAT where allowed: the V format's tests (R446). -/
def vFields (f : VFmt) (types : List Ty) (rndTop : Nat) (sat : Bool) : FieldFault :=
  ⟨false, !types.contains f.ty || decide (rndTop < f.rnd.toNat) || (f.sat && !sat)⟩

/-- Another 0x05 condition beside those already found. -/
def FieldFault.orValue (x : FieldFault) (b : Bool) : FieldFault := ⟨x.zero, x.value || b⟩

/-- The type sets of R117, R143 and R168. -/
def tyI : List Ty := [.s32, .z32, .s16, .z16, .s8, .z8, .s64, .z64]
def tyW : List Ty := [.s32, .z32, .s64, .z64]
def tyS : List Ty := [.s32, .s64, .s16, .s8]
def tyZ : List Ty := [.z32, .z64]
def tyF : List Ty := [.f32, .f16, .bf16, .f64]
def tyH : List Ty := [.f32, .f16, .f64]
def tyT : List Ty := [.f32, .f16]
def tyD : List Ty := [.f32, .f64]
def tyR : List Ty := [.s32, .z32, .f32, .s64, .z64, .f64]
def tyMx : List Ty := [.e4m3, .e5m2, .mxf4]

/-- ADD and SUB carry no C under a packed type or with SAT (R118). -/
def addFields (f : VFmt) : FieldFault :=
  (vFields f tyI 0 true).orValue (!isNone f.c && (f.sat || f.ty.packed))

/-- The window length of MOVX and MOVXS: 1 to 31 inline, 1 to 256 as a literal (R126). -/
def windowFields (f : VFmt) : FieldFault :=
  (vFields f tyZ 0 false).orValue
    (match f.b with
     | .int n => n = 0
     | .neg _ => true
     | .lit => let n := (f.ext.getD 0).toNat; n < 1 || 256 < n
     | _ => false)

/-- No rounding can occur in a conversion (R153): between integers, to a float that holds every source value. -/
def noRounding (dst src : Ty) : Bool :=
  if !dst.isFloat then !src.isFloat
  else if src.isFloat then decide (src.fmt.ebits ≤ dst.fmt.ebits ∧ src.fmt.fbits ≤ dst.fmt.fbits)
  else decide ((if src.signed then src.width - 1 else src.width) ≤ dst.fmt.fbits + 1)

/-- CVT's fields (R152, R153). DEDUCED (log 96): SAT = 1 is admitted from a float to a wider or equal float, where the
table of R153 gives it no effect and does not ask for 0. -/
def cvtFields (f : VFmt) : FieldFault :=
  let src := cvtFrom f
  ⟨f.c.bits.extractLsb' 4 5 != 0,
   f.ty == .t15 || src == .t15 || f.rnd == 7 || (f.rnd != 0 && noRounding f.ty src) ||
     (f.sat && src.isFloat && !f.ty.isFloat)⟩

/-- PACK's fields: an integer destination does not round (R154). -/
def packFields (f : VFmt) : FieldFault :=
  (vFields f [.f16, .bf16, .s16, .z16, .s8, .z8, .e4m3, .e5m2] 6 true).orValue (!f.ty.isFloat && f.rnd != 0)

/-- UNPACK's fields: only a scaled form rounds (R155). -/
def unpackFields (f : VFmt) : FieldFault :=
  (vFields f [.f16, .bf16, .s16, .z16, .s8, .z8, .e4m3, .e5m2, .mxf4] 6 false).orValue
    (!([Ty.e4m3, .e5m2, .mxf4].contains f.ty && !isNone f.c) && f.rnd != 0)

/-- OPSEL codes and SAT of SCAN, SCANX and REDUCE (R168, R172). -/
def scanFields (f : VFmt) : FieldFault :=
  (vFields f tyR 5 true).orValue
    ((f.ty.isFloat && decide (3 ≤ f.rnd.toNat)) || (f.sat && (f.rnd != 0 || f.ty.isFloat)))

/-- C-format fields: KIND up to a top value (0x05), where it must be 0 a set bit is 0x04; zero bits of OFFSET given
by the flag (R102, R160). -/
def cFields (f : CFmt) (kindTop : Nat) (offsetZero : Bool) : FieldFault :=
  ⟨f.zero != 0 || offsetZero || (kindTop == 0 && f.kind != 0), decide (0 < kindTop ∧ kindTop < f.kind.toNat)⟩

/-- M-format fields: SCOPE within bounds and ORDER among the codes (R202). -/
def mFields (f : MFmt) (lo hi : Nat) (orders : List (BitVec 2)) : FieldFault :=
  ⟨false, decide (f.scope.toNat < lo) || decide (hi < f.scope.toNat) || !orders.contains f.order⟩

/-- Another 0x04 condition beside those already found. -/
def FieldFault.orZero (x : FieldFault) (b : Bool) : FieldFault := ⟨x.zero || b, x.value⟩

/-- The X format: TILE at most a top value, SHAPE, ITYPE and MODE bits (R243, R446). -/
def xFields (f : XFmt) (tileTop shapeTop : Nat) (types : List Ty) (modeMask : BitVec 4) : FieldFault :=
  ⟨false, decide (tileTop < f.tile.toNat) || decide (shapeTop < f.shape.toNat) || !types.contains f.ity ||
    (f.mode &&& ~~~modeMask) != 0⟩

/-- Matrix input types (R244). -/
def tyMma : List Ty := [.f16, .bf16, .s8, .z8, .e4m3, .e5m2, .mxf4]

/-- The G format: CTL bits that the entry names (R284, R303). -/
def gFields (f : GFmt) (mask : BitVec 8) : FieldFault := ⟨(f.ctl &&& ~~~mask) != 0, false⟩

/-- The Y format: immediate bits that the entry assigns, SUB 0, PRED and NEG 0 where R314 requires it. -/
def yFields (f : YFmt) (mask : BitVec 36) (predZero : Bool) : FieldFault :=
  ⟨f.sub != 0 || (f.imm &&& ~~~mask) != 0 || (predZero && (f.pred != 0 || f.neg)), false⟩

/-- The region id of ENTER and LEAVE, bits [31:16], which is not 0 (R337, R446). -/
def regionFields (f : YFmt) : FieldFault :=
  (yFields f 0xFFFF false).orValue (f.imm.extractLsb' 0 16 == 0)

/-- The number of tile L that MMA.LUT's SOP gives, inline 0 or 4 (R255). -/
def lutBase (o : Operand) : Option Nat :=
  match o with
  | .int n => if n = 0 then some 0 else if n = 4 then some 4 else none
  | _ => none

/-- MMA.LUT: SOP inline 0 or 4, and an output tile outside L to L + 3 (R255). -/
def lutFields (f : XFmt) : FieldFault :=
  (xFields f 7 0 [.s32] 0xE).orValue
    (match lutBase f.sop with
     | none => true
     | some l => decide (l ≤ f.tile.toNat ∧ f.tile.toNat ≤ l + 3))

/-- The field tests of each instruction. -/
def Instr.fieldFault : Instr → FieldFault
  | .uadd f => vFields f tyW 0 false
  | .uaddc f => vFields f tyW 0 false
  | .usub f => vFields f tyW 0 false
  | .usubb f => vFields f tyW 0 false
  | .umul f => vFields f tyW 0 false
  | .umulhi f => vFields f tyW 0 false
  | .umulw f => vFields f [.s32, .z32] 0 false
  | .udiv f => vFields f tyW 0 false
  | .urem f => vFields f tyW 0 false
  | .umin f => vFields f tyW 0 false
  | .umax f => vFields f tyW 0 false
  | .uand f => vFields f tyW 0 false
  | .uor f => vFields f tyW 0 false
  | .uxor f => vFields f tyW 0 false
  | .unot f => vFields f tyW 0 false
  | .ushl f => vFields f tyW 0 false
  | .ushr f => vFields f tyW 0 false
  | .usar f => vFields f tyW 0 false
  | .ubfe f => vFields f tyW 0 false
  | .ubfi f => vFields f tyW 0 false
  | .upopc f => vFields f tyW 0 false
  | .uclz f => vFields f tyW 0 false
  | .ucmp f => vFields f tyW 6 false
  | .usel f => vFields f tyW 0 false
  | .umov f => vFields f tyW 0 false
  | .add f => addFields f
  | .addc f => vFields f tyW 0 false
  | .sub f => addFields f
  | .subb f => vFields f tyW 0 false
  | .mul f => vFields f tyI 0 true
  | .mulhi f => vFields f tyW 0 false
  | .mulw f => vFields f [.s32, .z32] 0 false
  | .mad f => vFields f tyI 0 true
  | .div f => vFields f tyW 0 false
  | .rem f => vFields f tyW 0 false
  | .min f => vFields f tyI 0 false
  | .max f => vFields f tyI 0 false
  | .abs f => vFields f tyS 0 true
  | .and f => vFields f tyI 0 false
  | .or f => vFields f tyI 0 false
  | .xor f => vFields f tyI 0 false
  | .not f => vFields f tyI 0 false
  | .shl f => vFields f tyI 0 false
  | .shr f => vFields f tyI 0 false
  | .sar f => vFields f tyI 0 false
  | .bfe f => vFields f tyW 0 false
  | .bfi f => vFields f tyW 0 false
  | .brev f => vFields f tyW 0 false
  | .popc f => vFields f tyW 0 false
  | .clz f => vFields f tyW 0 false
  | .cmp f => vFields f tyW 6 false
  | .sel f => vFields f tyI 0 false
  | .mov f => vFields f tyI 0 false
  | .movx f => windowFields f
  | .movxs f => windowFields f
  | .fadd f => vFields f tyF 6 true
  | .fsub f => vFields f tyF 6 true
  | .fmul f => vFields f tyF 6 true
  | .ffma f => vFields f tyF 6 true
  | .fmin f => vFields f tyF 0 false
  | .fmax f => vFields f tyF 0 false
  | .fabs f => vFields f tyF 0 false
  | .fneg f => vFields f tyF 0 false
  | .fcmp f => vFields f tyD 7 false
  | .fclass f => vFields f tyD 0 false
  | .frcp f => vFields f tyH 6 false
  | .frsq f => vFields f tyH 6 false
  | .fsqrt f => vFields f tyH 6 false
  | .fdiv f => vFields f tyH 6 false
  | .fexp2 f => vFields f tyT 6 false
  | .flog2 f => vFields f tyT 6 false
  | .fsin f => vFields f tyT 6 false
  | .fcos f => vFields f tyT 6 false
  | .ftanh f => vFields f tyT 6 false
  | .ffloor f => vFields f tyF 0 false
  | .fceil f => vFields f tyF 0 false
  | .ftrunc f => vFields f tyF 0 false
  | .frint f => vFields f tyF 6 false
  | .ffrac f => vFields f tyF 6 false
  | .fldexp f => vFields f tyD 6 false
  | .fexpo f => vFields f tyD 0 false
  | .fmant f => vFields f tyD 0 false
  | .fmed3 f => vFields f tyF 0 false
  | .fdot2 f => vFields f [.f16, .bf16] 6 true
  | .fdot4 f => vFields f [.e4m3, .e5m2] 6 true
  | .cvt f => cvtFields f
  | .cvtmx f => vFields f tyMx 6 false
  | .pack f => packFields f
  | .unpack f => unpackFields f
  | .mxscale f => vFields f tyMx 0 false
  | .bperm f => vFields f [.z32] 0 false
  | .shfl f => vFields f tyZ 0 false
  | .shflup f => vFields f tyZ 0 false
  | .shfldn f => vFields f tyZ 0 false
  | .shflx f => vFields f tyZ 0 false
  | .voteany f => vFields f [.s32] 0 false
  | .voteall f => vFields f [.s32] 0 false
  | .voteeq f => vFields f tyZ 0 false
  | .ballot f => vFields f [.s32] 0 false
  | .scan f => scanFields f
  | .scanx f => scanFields f
  | .reduce f => scanFields f
  | .compact f => vFields f tyZ 0 false
  | .expand f => vFields f tyZ 0 false
  | .rdfirst f => vFields f tyZ 0 false
  | .bra f => cFields f 0 false
  | .brp f => cFields f 3 false
  | .bru f => cFields f 3 false
  | .call f => cFields f 0 false
  | .calli f => cFields f 0 (f.offset.extractLsb' 9 15 != 0)
  | .ret f => cFields f 0 (f.offset != 0)
  | .jmpi f => cFields f 0 (f.offset.extractLsb' 9 15 != 0)
  | .exit f => cFields f 0 (f.offset != 0)
  | .regang f => cFields f 0 (f.offset != 0)
  | .pand f => vFields f [.s32] 0 false
  | .por f => vFields f [.s32] 0 false
  | .pxor f => vFields f [.s32] 0 false
  | .pandn f => vFields f [.s32] 0 false
  | .pnot f => vFields f [.s32] 0 false
  | .pmov f => vFields f [.s32] 0 false
  | .ld f => mFields f 0 7 [0, 1]
  | .st f => mFields f 0 7 [0, 2]
  | .lds f => mFields f 0 3 [0, 1]
  | .sts f => mFields f 0 3 [0, 2]
  | .ldsr f => mFields f 0 3 [0, 1]
  | .stsr f => mFields f 0 3 [0, 2]
  | .sld f => mFields f 0 7 [0, 1]
  | .sst f => mFields f 0 7 [0, 2]
  | .tld f => ((mFields f 0 7 [0, 1]).orZero (f.imm != 0)).orValue (f.size == 4 || f.size == 5)
  | .tst f => ((mFields f 0 7 [0, 2]).orZero (f.imm != 0)).orValue (f.size == 4 || f.size == 5)
  | .pref f => mFields f 0 0 [0]
  | .evict f => mFields f 0 0 [0]
  | .fence f => (mFields f 0 7 [1, 2, 3]).orZero (f.imm != 0 || f.size != 0)
  | .sqpush f => ((mFields f 5 7 [0]).orZero (f.size != 0)).orValue (decide (15 < f.imm.toNat))
  | .sqpop f => ((mFields f 5 7 [0]).orZero (f.size != 0)).orValue (decide (15 < f.imm.toNat))
  | .aadd f => (mFields f 0 7 [0, 1, 2, 3]).orValue (! [2, 3, 6, 7].contains f.size)
  | .afadd f => (mFields f 0 7 [0, 1, 2, 3]).orValue (f.size != 2)
  | .amin f => (mFields f 0 7 [0, 1, 2, 3]).orValue (! [2, 3, 6, 7].contains f.size)
  | .amax f => (mFields f 0 7 [0, 1, 2, 3]).orValue (! [2, 3, 6, 7].contains f.size)
  | .aand f => (mFields f 0 7 [0, 1, 2, 3]).orValue (! [2, 3, 6, 7].contains f.size)
  | .aor f => (mFields f 0 7 [0, 1, 2, 3]).orValue (! [2, 3, 6, 7].contains f.size)
  | .axor f => (mFields f 0 7 [0, 1, 2, 3]).orValue (! [2, 3, 6, 7].contains f.size)
  | .axchg f => (mFields f 0 7 [0, 1, 2, 3]).orValue (! [2, 3, 6, 7].contains f.size)
  | .acas f => (mFields f 0 7 [0, 1, 2, 3]).orValue (! [2, 3, 6, 7].contains f.size)
  | .atile f => (mFields f 0 7 [0, 2]).orValue (f.size != 5)
  | .copy f => (mFields f 0 7 [0, 1, 2, 3]).orZero (f.size != 0 || f.order != 0)
  | .copyin f => (mFields f 0 7 [0, 1, 2, 3]).orZero (f.size != 0 || f.order != 0)
  | .copyout f => (mFields f 0 7 [0, 1, 2, 3]).orZero (f.size != 0 || f.order != 0)
  | .copyt f => ((mFields f 0 7 [0, 1, 2, 3]).orZero (f.order != 0)).orValue (f.size == 4 || f.size == 5)
  | .batch f => yFields f 0 false
  | .waitb f => yFields f 0xFF8000007 false
  | .waitbn f => yFields f 0xFF7 false
  | .bquery f => yFields f 0xFF8000001 false
  | .mma f => xFields f 7 7 tyMma 0x1
  | .mmaGrp f => xFields f 7 7 tyMma 0x3
  | .mmaLut f => lutFields f
  | .mmaSa f => xFields f 7 7 tyMx 0
  | .lutb f => (xFields f 7 0 [.f16, .bf16, .e4m3, .e5m2] 0).orValue (f.tile != 0 && f.tile != 4)
  | .bload f => xFields f 0 7 tyMma 0xF
  | .aclr f => xFields f 7 0 [.s32] 0
  | .amovr f => xFields f 7 4 [.f32] 0
  | .amovw f => xFields f 7 4 [.f32] 0
  | .ascale f => xFields f 7 0 [.f32] 0x1
  | .drain f => xFields f 7 0 [.f32, .f16, .bf16, .e4m3, .e5m2] 0x7
  | .drainAdd f => xFields f 7 0 [.f32] 0x7
  | .lend f => xFields f 0 0 [.s32] 0
  | .recall f => xFields f 0 0 [.s32] 0
  | .astat f => xFields f 0 4 [.s32] 0
  | .sample f => (gFields f 0xFB).orValue (lodm f == 3 || f.ctl.extractLsb' 4 4 == 0)
  | .sampleN f => (gFields f 0x0B).orValue (lodm f == 3)
  | .gather f => gFields f 0x3F
  | .texq f => gFields f 0x07
  | .wpin f => gFields f 0
  | .wunpin f => gFields f 0
  | .winv f => gFields f 0x07
  | .rng f => gFields f 0x07
  | .rayPin f => gFields f 0
  | .rayTrace f => gFields f 0x07
  | .rayNext f => gFields f 0
  | .rayUnpin f => gFields f 0
  | .bvhBuild f => gFields f 0x0F
  | .bvhRefit f => gFields f 0x0F
  | .bvhBal f => gFields f 0x07
  | .bvhPub f => gFields f 0x07
  | .bar f => yFields f 0x3F true
  | .barCl f => yFields f 0x3F true
  | .arrive f => yFields f 0x7FFF true
  | .waitbar f => yFields f 0x7F true
  | .collRed f => yFields f 0xFFFFFF000 true
  | .collGath f => yFields f 0xFFFFFF000 true
  | .collScat f => yFields f 0xFFFFFF000 true
  | .collBcast f => yFields f 0xFFFFFF000 true
  | .collWait f => yFields f 0x3F true
  | .gate f => yFields f 0xFFFFFFF00 true
  | .gateret f => yFields f 0 true
  | .objGrant f => yFields f 0xFFFFFF000 false
  | .nop f => yFields f 0 false
  | .trap f => yFields f 0xFFFFFFFFF false
  | .rett f => yFields f 0 true
  | .sread f => yFields f 0xFF8000FFF false
  | .swrite f => yFields f 0xFF8000FFF false
  | .phint f => (yFields f 0x0FFFFFFFF false).orZero ((f.ext.getD 0).extractLsb' 48 16 != 0)
  | .enter f => regionFields f
  | .leave f => regionFields f
  | .brk f => yFields f 0xFFFF false
  | .waitClk f => yFields f 0xFF8000001 false
  | .yield f => yFields f 0 false
  | .mark f => yFields f 0xFF800FFFF false
  | .derive f => vFields f [.s32] 0 false
  | .narrow f => vFields f [.s32] 0 false
  | .refadd f => vFields f [.s32, .s64] 0 false
  | .refoff f => vFields f tyZ 0 false
  | .refset f => vFields f tyZ 0 false
  | .refcmp f => vFields f [.s32] 3 false
  | .refchk f => vFields f [.s32] 0 false
  | .objq f => vFields f [.s32] 0 false
  | .relayout f => vFields f [.s32] 0 false
  | .rlwait f => vFields f [.s32] 0 false
  | .taddr f => vFields f [.s32] 0 false
  | .tdesc f => vFields f [.s32] 0 false
  | .notAnInstruction _ => ⟨false, false⟩
  | .holdLimit _ _ => ⟨false, false⟩
  | .longLatencyComplete _ _ => ⟨false, false⟩
  | .storeAcknowledge _ => ⟨false, false⟩
  | .lateCondition _ _ _ => ⟨false, false⟩
  | .copyComplete _ => ⟨false, false⟩
  | .matrixOpComplete _ _ => ⟨false, false⟩
  | .weightFillComplete _ _ => ⟨false, false⟩
  | .rayTraversalEnd _ _ => ⟨false, false⟩
  | .armatureOpStart _ => ⟨false, false⟩
  | .armatureOpComplete _ => ⟨false, false⟩
  | .collectiveComplete _ _ => ⟨false, false⟩
  | .rasterTriangle _ _ => ⟨false, false⟩
  | .rasterMerge _ _ => ⟨false, false⟩
  | .migrationMove _ => ⟨false, false⟩
  | .granuleArrival _ _ => ⟨false, false⟩
  | .conversionTile _ _ => ⟨false, false⟩
  | .residencyTimeout _ _ => ⟨false, false⟩
  | .conversionWaitTimeout _ => ⟨false, false⟩
  | .context _ _ => ⟨false, false⟩
  | .objinv _ _ => ⟨false, false⟩
  | .signal _ _ => ⟨false, false⟩
  | .wait _ _ => ⟨false, false⟩
  | .launch _ _ => ⟨false, false⟩
  | .nopPacket _ _ => ⟨false, false⟩
  | .queueDoorbell _ _ _ => ⟨false, false⟩
  | .queueRestart _ _ _ => ⟨false, false⟩
  | .launchReplica _ _ _ _ => ⟨false, false⟩
  | .startArrival _ _ => ⟨false, false⟩
  | .launchRejectionStamped _ _ => ⟨false, false⟩
  | .startTimeout _ => ⟨false, false⟩
  | .arrivalExpiry _ _ => ⟨false, false⟩
  | .packageEndReport _ _ => ⟨false, false⟩
  | .clusterPlacement _ => ⟨false, false⟩
  | .sliceEnd _ _ => ⟨false, false⟩
  | .preemptStepPhase _ => ⟨false, false⟩
  | .stepPhaseTimeout _ => ⟨false, false⟩
  | .workgroupSave _ => ⟨false, false⟩
  | .workgroupRestore _ => ⟨false, false⟩
  | .waitClkExpiry _ _ => ⟨false, false⟩
  | .haltComplete _ => ⟨false, false⟩
  | .debugSessionOpen _ _ => ⟨false, false⟩
  | .debugSessionClose _ => ⟨false, false⟩
  | .debugHalt _ => ⟨false, false⟩
  | .debugResume _ => ⟨false, false⟩
  | .dbgdataRead _ => ⟨false, false⟩
  | .dbgdataWrite _ _ => ⟨false, false⟩
  | .islandWrite _ _ => ⟨false, false⟩
  | .frequencyChangeEnd _ => ⟨false, false⟩
  | .registerWrite _ _ => ⟨false, false⟩
  | .identify => ⟨false, false⟩
  | .fwwrite => ⟨false, false⟩
  | .fwactivate => ⟨false, false⟩
  | .status => ⟨false, false⟩
  | .powerOnReset => ⟨false, false⟩
  | .getVersion => ⟨false, false⟩
  | .getCapabilities => ⟨false, false⟩
  | .negotiateAlgorithms _ _ => ⟨false, false⟩
  | .getDigests => ⟨false, false⟩
  | .getCertificate _ _ => ⟨false, false⟩
  | .challenge _ => ⟨false, false⟩
  | .getMeasurements _ => ⟨false, false⟩
  | .firmwareRemeasure => ⟨false, false⟩
  | .securityAlarm _ => ⟨false, false⟩
  | .thermalThrottle _ _ => ⟨false, false⟩
  | .thermalTrip _ => ⟨false, false⟩
  | .hostMemAccess _ _ => ⟨false, false⟩
  | .hostCacheSnoop _ _ _ => ⟨false, false⟩
  | .atsInvalidation _ _ => ⟨false, false⟩
  | .expanderLinkLoss _ => ⟨false, false⟩
  | .scrubPass _ _ _ => ⟨false, false⟩
  | .skewMeasurement _ _ _ _ => ⟨false, false⟩
  | .flitData _ _ => ⟨false, false⟩
  | .flitIdle _ _ => ⟨false, false⟩
  | .flitAcknowledge _ _ => ⟨false, false⟩
  | .flitReplayRequest _ _ => ⟨false, false⟩
  | .portRetrain _ => ⟨false, false⟩
  | .portTrainingEnd _ _ _ => ⟨false, false⟩
  | .packageLoss _ => ⟨false, false⟩
  | .packageLossReport _ => ⟨false, false⟩
  | .transportDoorbell _ _ _ => ⟨false, false⟩
  | .wrWrite _ _ => ⟨false, false⟩
  | .wrRead _ _ => ⟨false, false⟩
  | .wrSend _ _ => ⟨false, false⟩
  | .frameWrite _ _ => ⟨false, false⟩
  | .frameReadRequest _ _ => ⟨false, false⟩
  | .frameReadResponse _ _ => ⟨false, false⟩
  | .frameSend _ _ => ⟨false, false⟩
  | .frameAck _ _ => ⟨false, false⟩
  | .frameNak _ _ => ⟨false, false⟩
  | .transportRetransmit _ _ => ⟨false, false⟩
  | .completionRecordWrite _ _ => ⟨false, false⟩
  | .ethernetLinkChange _ _ => ⟨false, false⟩
  | .thermalLimitRelease _ => ⟨false, false⟩

/-! ## Groups of instructions -/

/-- The long-latency instructions (R108). -/
def Instr.longLatency : Instr → Bool
  | .udiv _ | .urem _ | .div _ | .rem _ | .frcp _ | .frsq _ | .fsqrt _ | .fdiv _ | .fexp2 _ | .flog2 _
  | .fsin _ | .fcos _ | .ftanh _ | .shfl _ | .shflup _ | .shfldn _ | .shflx _ | .scan _ | .scanx _ | .reduce _
  | .compact _ | .expand _ | .ld _ | .lds _ | .ldsr _ | .sld _ | .tld _ | .sqpop _ | .aadd _ | .afadd _
  | .amin _ | .amax _ | .aand _ | .aor _ | .axor _ | .axchg _ | .acas _ | .amovr _ | .astat _ | .sample _
  | .sampleN _ | .gather _ | .texq _ | .rayTrace _ | .rayNext _ | .refchk _ | .objq _ | .taddr _ | .tdesc _ => true
  | _ => false

/-- The instructions that make memory accesses of the slices that issue them, or start an operation that does (R225). -/
def Instr.accessesMemory : Instr → Bool
  | .ld _ | .st _ | .lds _ | .sts _ | .ldsr _ | .stsr _ | .sld _ | .sst _ | .tld _ | .tst _ | .pref _ | .evict _ | .fence _
  | .sqpush _ | .sqpop _ | .aadd _ | .afadd _ | .amin _ | .amax _ | .aand _ | .aor _ | .axor _ | .axchg _ | .acas _ | .atile _
  | .copy _ | .copyin _ | .copyout _ | .copyt _ | .bload _ | .drain _ | .drainAdd _ | .sample _ | .sampleN _ | .gather _
  | .texq _ | .wpin _ | .winv _ | .rayPin _ | .rayTrace _ | .rayNext _ | .rayUnpin _ | .bvhBuild _ | .bvhRefit _ | .bvhBal _
  | .bvhPub _ | .collRed _ | .collGath _ | .collScat _ | .collBcast _ | .gate _ | .gateret _ | .objGrant _ | .relayout _ => true
  | _ => false

/-- The stores through references (R204, R206). -/
def Instr.isStore : Instr → Bool
  | .st _ | .sst _ | .tst _ => true
  | _ => false

/-- The gang points: REGANG and the wave-collective matrix instructions (R40, R164, R246). -/
def Instr.gangPoint : Instr → Bool
  | .regang _ | .mma _ | .mmaGrp _ | .mmaLut _ | .mmaSa _ | .lutb _ | .bload _ | .aclr _ | .ascale _ | .drain _
  | .drainAdd _ => true
  | _ => false

/-- Control transfers that must be the last instruction of their block (R89). -/
def Instr.endsBlock : Instr → Bool
  | .bra _ | .brp _ | .bru _ | .call _ | .calli _ | .ret _ | .jmpi _ => true
  | _ => false

/-- Class 0x8 instructions that name an accumulator tile (R448, R53). -/
def Instr.namesTile : Instr → Bool
  | .mma _ | .mmaGrp _ | .mmaLut _ | .mmaSa _ | .lutb _ | .aclr _ | .amovr _ | .amovw _ | .ascale _ | .drain _
  | .drainAdd _ => true
  | _ => false

/-- Not admitted while STATUS.TL is not 0 (R448). -/
def Instr.notAtTrapLevel : Instr → Bool
  | .exit _ | .bar _ | .barCl _ | .arrive _ | .waitbar _ | .collRed _ | .collGath _ | .collScat _
  | .collBcast _ | .collWait _ | .gate _ | .gateret _ => true
  | _ => false

/-- Not admitted while STATUS.GATE is 1, beside the instructions that name a tile (R448). -/
def Instr.notInGate : Instr → Bool
  | .exit _ | .bar _ | .barCl _ | .arrive _ | .waitbar _ | .collRed _ | .collGath _ | .collScat _
  | .collBcast _ | .collWait _ | .lds _ | .sts _ | .ldsr _ | .stsr _ | .copyin _ | .copyout _ => true
  | _ => false

/-- Instructions that execute once per fragment (R93, R111, R203, R215, R219, R246, R284, R303, R314). -/
def Instr.onceForm : Instr → Bool
  | .uadd _ | .uaddc _ | .usub _ | .usubb _ | .umul _ | .umulhi _ | .umulw _ | .udiv _ | .urem _ | .umin _
  | .umax _ | .uand _ | .uor _ | .uxor _ | .unot _ | .ushl _ | .ushr _ | .usar _ | .ubfe _ | .ubfi _ | .upopc _
  | .uclz _ | .ucmp _ | .usel _ | .umov _ | .sld _ | .sst _ | .fence _ | .copy _ | .copyin _ | .copyout _
  | .copyt _ | .batch _ | .waitb _ | .waitbn _ | .bquery _ | .lend _ | .recall _ | .astat _ | .wpin _
  | .wunpin _ | .winv _ | .rayPin _ | .rayUnpin _ | .bvhBuild _ | .bvhRefit _ | .bvhBal _ | .bvhPub _ | .bar _
  | .barCl _ | .arrive _ | .waitbar _ | .collRed _ | .collGath _ | .collScat _ | .collBcast _ | .collWait _
  | .gate _ | .gateret _ | .objGrant _ | .nop _ | .trap _ | .rett _ | .swrite _ | .phint _ | .enter _
  | .leave _ | .brk _ | .waitClk _ | .yield _ | .mark _ | .relayout _ | .rlwait _ => true
  | _ => false

/-! ## Stage A and stage B -/

/-- The predicate field, its negation and LA of an instruction (R92). -/
def formPred : Form → BitVec 3 × Bool
  | .v f => (f.pred, f.neg)
  | .m f => (f.pred, f.neg)
  | .c f => (f.pred, f.neg)
  | .x f => (f.pred, f.neg)
  | .g f => (f.pred, f.neg)
  | .y f => (f.pred, f.neg)
  | .none => (0, false)

/-- LA of an instruction (R107). -/
def formLa : Form → Nat
  | .v f => f.la.toNat
  | .m f => f.la.toNat
  | .c f => f.la.toNat
  | .x f => f.la.toNat
  | .g f => f.la.toNat
  | .y f => f.la.toNat
  | .none => 0

/-- The number of a vector or scalar register. -/
def regNo : Operand → Nat
  | .v n => n.toNat
  | .s n => n.toNat
  | _ => 0

/-- A register misaligned for its position (0x07). -/
def Pos.odd (p : Pos) : Bool := isVS p.o && decide (regNo p.o % p.align ≠ 0)

/-- A literal with bits [63:32] set in a position of 32 bits (0x08). -/
def Pos.badLit (p : Pos) (ext : Option DWord) : Bool :=
  decide (p.o = .lit) && !p.wide && decide (2 ^ 32 ≤ (ext.getD 0).toNat)

/-- The stage A sub-reason of an instruction word and its extension word alone, the lowest code first; a word that is
not an instruction reports 0x01, 0x02 or 0x03 (R436 to R439, R445). -/
def Instr.stageA (i : Instr) : Option Nat :=
  match i with
  | .notAnInstruction w =>
    let c := wordClass w
    if c = 0xF then some 0x03 else if c < 0xD then some 0x02 else some 0x01
  | i =>
    let ff := Instr.fieldFault i
    let ps := Instr.positions i
    if ff.zero then some 0x04
    else if ff.value then some 0x05
    else if ps.any (fun p => !p.ok) then some 0x06
    else if ps.any Pos.odd then some 0x07
    else if ps.any (fun p => p.badLit i.ext) then some 0x08
    else if formLa i.form ≠ 0 ∧ !Instr.longLatency i then some 0x09
    else none

/-- Stage A with the instruction's place in its block: `last` is the word offset just past the block less the
instruction's own offset (R437 sub-reason 0x0A, R445). An instruction whose extension word would fall outside the block has
none, so that only its first word is tested. -/
def Instr.stageAIn (i : Instr) (last : Nat) : Option Nat :=
  let words := if i.needsExt then 2 else 1
  let short := decide (last < words)
  let loose := Instr.endsBlock i && decide (last ≠ words)
  match Instr.stageA (if short then decodeWord i.word 1 else i) with
  | some n => if n < 0x08 then some n else if short then some 0x08 else some n
  | none => if short then some 0x08 else if loose then some 0x0A else none

/-- A position reaches a register at or beyond the allocation (R444). -/
def Pos.outside (vregs sregs : Nat) (p : Pos) : Bool :=
  match p.o with
  | .v n => decide (vregs < n.toNat + p.regs)
  | .s n => decide (sregs < n.toNat + p.regs)
  | _ => false

/-- Sub-reason 0x10: a register at or beyond the allocation (R444). -/
def Instr.outsideAllocation (i : Instr) (vregs sregs : Nat) : Bool :=
  (Instr.positions i).any (Pos.outside vregs sregs)

/-! ## Register use, for the interlock of R107 -/

/-- Two operands share a register. -/
def Pos.overlaps (p q : Pos) : Bool :=
  match p.o, q.o with
  | .v a, .v b => decide (a.toNat < b.toNat + q.regs ∧ b.toNat < a.toNat + p.regs)
  | .s a, .s b => decide (a.toNat < b.toNat + q.regs ∧ b.toNat < a.toNat + p.regs)
  | .k a, .k b => decide (a = b)
  | .x a, .x b => decide (a = b)
  | _, _ => false

/-- The predicate register an instruction reads. -/
def Instr.predPos (i : Instr) : Pos := .range isK (.k (formPred i.form).1) 1 1

/-- MOVX and MOVXS may reach any vector register (R126). -/
def Instr.anyVector : Instr → Bool
  | .movx _ | .movxs _ => true
  | _ => false

/-- The registers beyond its positions that an instruction may read: the coordinates of a drain to a tensor, which the
allocation test does not count (R258). -/
def Instr.alsoReads : Instr → List Pos
  | .drain f | .drainAdd f => if isS f.sop then [.range isS f.sop 4 1] else []
  | _ => []

/-- A later instruction must wait for a pending one: it reads the pending destination, or writes its destination or
one of its operands (R107). -/
def Instr.waitsFor (later pending : Instr) : Bool :=
  let ls := Instr.predPos later :: Instr.positions later ++ Instr.alsoReads later
  let ps := Instr.predPos pending :: Instr.positions pending
  ps.any fun p => (Instr.anyVector later && isV p.o) ||
    ls.any fun l => l.overlaps p && ((l.read && p.written) || l.written)

/-- A later instruction of the wave reads or writes a scalar register that a pending one is still to write (R114). -/
def Instr.sharesScalar (later pending : Instr) : Bool :=
  (Instr.positions pending).any fun p => p.written && isS p.o &&
    (Instr.positions later ++ Instr.alsoReads later).any fun l => l.overlaps p

end Sys2Proof
end

