-- ==== Sys2Proof/Machine/SMap.lean ====
section
/-!
DEFINITION. Sparse maps as plain data: a list of (key, value) pairs whose canonical form has strictly rising keys.
Memory, register files and every table of the machine are held in this form. `get`, `set` read an unlisted key as
a default and never list the default; `find?`, `insert`, `erase` treat an unlisted key as absent.
-/

namespace Sys2Proof.Machine

/-- A sparse map from Nat to α. -/
abbrev SMap (α : Type) := List (Nat × α)

/-- The value listed at k, if any. -/
def SMap.find? {α : Type} : SMap α → Nat → Option α
  | [], _ => none
  | (a, x) :: r, k => if k < a then none else if k = a then some x else SMap.find? r k

/-- List v at k. -/
def SMap.insert {α : Type} : SMap α → Nat → α → SMap α
  | [], k, v => [(k, v)]
  | (a, x) :: r, k, v =>
    if k < a then (k, v) :: (a, x) :: r
    else if k = a then (k, v) :: r
    else (a, x) :: SMap.insert r k v

/-- List nothing at k. -/
def SMap.erase {α : Type} : SMap α → Nat → SMap α
  | [], _ => []
  | (a, x) :: r, k =>
    if k < a then (a, x) :: r
    else if k = a then r.dropWhile (fun p => p.1 ≤ k)
    else (a, x) :: SMap.erase r k

/-- The value at k, or d where nothing is listed. -/
def SMap.get {α : Type} (d : α) (m : SMap α) (k : Nat) : α := (m.find? k).getD d

/-- Give k the value v, listing nothing where v is the default d. -/
def SMap.set {α : Type} [DecidableEq α] (d : α) (m : SMap α) (k : Nat) (v : α) : SMap α :=
  if v = d then m.erase k else m.insert k v

/-- The keys are strictly rising and all at least `lo`. -/
def SMap.risingFrom {α : Type} : Nat → SMap α → Bool
  | _, [] => true
  | lo, (a, _) :: r => decide (lo ≤ a) && SMap.risingFrom (a + 1) r

/-- Canonical form: rising keys, and no listed default. -/
def SMap.wf {α : Type} [DecidableEq α] (d : α) (m : SMap α) : Bool :=
  m.risingFrom 0 && m.all (fun p => decide (p.2 ≠ d))

/-- The first key at or above `k` that is not listed. -/
def SMap.firstFree {α : Type} : SMap α → Nat → Nat
  | [], k => k
  | (a, _) :: r, k => if a < k then SMap.firstFree r k else if a = k then SMap.firstFree r (k + 1) else k

/-- A key above every listed key. -/
def SMap.fresh {α : Type} (m : SMap α) : Nat := m.foldl (fun n p => max n (p.1 + 1)) 0

/-- The values, in key order. -/
def SMap.values {α : Type} (m : SMap α) : List α := m.map (fun p => p.2)

/-- Change the value listed at k, if any. -/
def SMap.modify {α : Type} (m : SMap α) (k : Nat) (f : α → α) : SMap α :=
  match m.find? k with
  | some x => m.insert k (f x)
  | none => m

end Sys2Proof.Machine
end

