-- ==== Sys2Proof/Machine/State.lean ====
section
/-!
DEFINITION. The state of one Y96 package as plain data: memory, platform registers, engines, launches, workgroups,
waves and their fragments; the reasons a step can stop; the state after reset.
Sparse maps list only what differs from the default that the field's docstring states.
-/

namespace Sys2Proof.Machine

/-! ## Reasons to stop -/

/-- Why a step stops. -/
inductive Fault where
  /-- Raised by every wave instruction's meaning when `State.cur` names no fragment of a wave that stands in the
  state: no step of the hardware corresponds to it. Safe: nothing is computed. -/
  | noFragment
  deriving DecidableEq, Repr

/-- Why a step has no meaning. -/
inductive Refusal where
  /-- Raised by exec for an instruction whose meaning is not written. Safe: nothing is computed. -/
  | notModelled (mnemonic : String)
  deriving DecidableEq, Repr

/-! ## Memory and objects -/

/-- An object table entry as its four words (R68). -/
structure ObjEntry where
  w0 : DWord
  w1 : DWord
  w2 : DWord
  w3 : DWord
  deriving DecidableEq, Repr

/-- A cached line of 128 bytes (R183). -/
structure Line where
  /-- The nibbles written and not yet at their home, two bits for each byte; the dirty bit of R184 is 1 where one is.
  DESIGN CHOICE (log 102): a write-back writes these nibbles only, as R206, R231 and R235 need where two dies write one
  line. -/
  dirty : BitVec 256
  bytes : List Byte
  /-- Its four sectors' poison, which travels with them (R461). -/
  bad : BitVec 4
  deriving DecidableEq, Repr

/-- A tag of an L2 slice: a superblock with a valid and a dirty bit for each of its four lines (R184). -/
structure L2Tag where
  block : Nat
  valid : BitVec 4
  dirty : BitVec 4
  deriving DecidableEq, Repr

/-- The place of one byte-addressed or coordinate access, captured at issue (R190). -/
inductive Target where
  /-- Byte offset within the object. -/
  | byte (off : Nat)
  /-- Tensor element (R195). -/
  | elem (c0 c1 c2 c3 : Nat)
  /-- Byte address in the scratchpad of a workgroup (R187). -/
  | scratch (wg addr : Nat)
  deriving DecidableEq, Repr

/-- One lane's access of an instruction, checked at issue and perhaps not yet performed (R190, R200). -/
structure Acc where
  lane : Nat
  dom : BitVec 16
  ref : DWord
  entry : ObjEntry
  tgt : Target
  size : Nat
  /-- The bytes a store or an atomic carries. -/
  data : List Byte
  /-- The compare value of ACAS. -/
  cmp : List Byte
  deriving DecidableEq, Repr

/-- Who made a write that is not yet acknowledged (R225). -/
structure Agent where
  wave : Nat
  slices : SliceMask
  deriving DecidableEq, Repr

/-- A write issued and not yet performed at its point of coherence (R185, R204). -/
structure PendingStore where
  agent : Agent
  core : Nat
  acc : Acc
  release : Bool
  scope : BitVec 3
  /-- The store of a 4-bit element, which changes one nibble of its byte (R206). -/
  nibble : Bool
  /-- A unit of an access that writes all bytes of its sector (R201, R461). -/
  whole : Bool
  deriving DecidableEq, Repr

/-! ## Waves -/

/-- A register write held back until its instruction completes (R107). -/
inductive RegWrite where
  | v (n lane : Nat) (x : Word)
  | s (n : Nat) (x : Word)
  | k (n lane : Nat) (b : Bool)
  | x (n lane : Nat) (w : BitVec 16)
  deriving DecidableEq, Repr

/-- What a pending long-latency instruction still waits for (R107, R190, R287). -/
inductive PendKind where
  /-- Only its result is outstanding. -/
  | result
  /-- Accesses are outstanding: granules or conversions (R190, R199). -/
  | access
  /-- A sampler evaluation waits: a fill, a lent array, or texels (R287). -/
  | sampler
  /-- A ray traversal runs in its lanes' slots (R305). -/
  | ray
  deriving DecidableEq, Repr

/-- One lane of a sampler instruction whose texels are still to be read: what its header and coordinates fixed at issue
(R272, R280, R287). -/
structure SampleJob where
  lane : Nat
  ref : DWord
  entry : ObjEntry
  /-- Texel format and latent channels (R267). -/
  fmt : Nat
  chans : Nat
  border : DWord
  /-- Texels by byte offset in the texture set, none for a border texel, with their weights. -/
  texels : List (Option Nat × Nat)
  /-- The weights add up to 2^shift. -/
  shift : Nat
  /-- The network image of a SAMPLE.N; empty once a parity error has made it be filled again (R478). -/
  net : List Byte
  /-- The reference of that image. -/
  netRef : DWord
  deriving DecidableEq, Repr

/-- A long-latency instruction that has issued and not completed, or a parked instruction (R107, R190). -/
structure Pending where
  id : Nat
  pc : CodeAddr
  instr : Instr
  slices : SliceMask
  /-- Instructions each slice may still issue before it must wait (R107), by slice; 0 unlisted. -/
  window : SMap Nat
  /-- A later instruction of the fragment has issued (R455). -/
  overtaken : Bool
  kind : PendKind
  /-- Unfinished lanes (R190). -/
  mask : LaneMask
  accs : List Acc
  writes : List RegWrite
  /-- Sticky flags to set at completion: FDZ, OF, NV, DZ as MODE bits [15:12] hold them (R57, R59). -/
  flags : BitVec 4
  /-- Unfinished lanes of a sampler instruction; a draw they reserved has already chosen their texels (R279, R287). -/
  samples : List SampleJob
  /-- The condition that has met the access (R455). -/
  late : Option LateCause
  /-- Slices whose later accesses wait for this instruction's parked ones: they joined with its slices (R37). -/
  fence : SliceMask
  deriving DecidableEq, Repr

/-- What holds a fragment at its instruction. -/
inductive Wait where
  | none
  /-- At a workgroup or cluster barrier (R319). -/
  | bar (cl : Bool) (b : Nat)
  /-- WAITB until DONE reaches n (R218), at a scope. -/
  | batch (n : Word) (scope : BitVec 3)
  /-- WAITBN until at most n batches are open (R218), at a scope. -/
  | batchN (n : Word) (scope : BitVec 3)
  /-- COLL.WAIT on a channel (R328). -/
  | coll (c : Nat)
  /-- WAIT.CLK until the die counter reaches a value (R343). -/
  | clkAt (target : DWord)
  /-- WAIT.CLK .abs on CLOCKLO (R343). -/
  | clkAbs (n : Word)
  /-- RLWAIT or OBJ.GRANT on the conversion of a descriptor (R223, R336). -/
  | conversion (desc : Nat)
  /-- OBJ.GRANT with MOVE on the accesses checked against the source entry it has cleared (R177, R336). -/
  | moved (dom index : Nat)
  /-- A pending instruction with nothing of its window left (R107). -/
  | pending (id : Nat)
  /-- A shared-B step waits for the group (R251). -/
  | sharedB
  /-- The commit token (R374). -/
  | token
  /-- A gang whose other lanes stopped in a step phase (R362). -/
  | gang
  /-- A granule that the instruction's own reads need, with the TVAL a failure reports (R190, R458). -/
  | granule (dom index gran : Nat) (val : DWord)
  /-- The fill of a network image, by key, with the TVAL a failure reports (R282, R476, R477). -/
  | fill (key : Nat) (val : DWord)
  /-- A full queue, an unacknowledged earlier write, a claim, or another engine condition: tried again. -/
  | again
  deriving DecidableEq, Repr

/-- How a fragment stopped for a pre-emption (R362, R363). -/
inductive StopHow where
  /-- After a PHINT with these bitmaps: vector blocks, scalar blocks, scratchpad chunks (R341). -/
  | hint (v : Word) (s : BitVec 16) (sp : Word)
  /-- Before the block of a SAFE header (R362). -/
  | safe (header : CodeAddr)
  /-- Where it stood (R362). -/
  | stood
  deriving DecidableEq, Repr

/-- A fragment of a wave (R34). -/
structure Frag where
  id : Nat
  slices : SliceMask
  /-- Word offset of the header of its current block. -/
  block : CodeAddr
  /-- It holds at `block` (R36) since the wave's issue count had this value. -/
  hold : Option Nat
  /-- Order in which it obtained its instruction-buffer slot (R357). -/
  age : Nat
  slot : Bool
  wait : Wait
  stopped : Option StopHow
  /-- 0, or the level at which it is trap-parked (R415). -/
  trapLevel : BitVec 2
  /-- Instructions issued by this fragment, for the hold limit of others (R36). -/
  issued : Nat
  /-- The model's own: the step of its latest turn, by which fragments take turns (R47). -/
  last : Nat
  /-- Without a slot: since when it has waited for one, by the order of R39; none while it needs none. -/
  slotSince : Option Nat
  deriving DecidableEq, Repr

/-- The banked registers of a trap level (R61) and the state banked with them (R415). -/
structure TrapBank where
  cause : Word
  ret : DWord
  stat : Word
  val : DWord
  codeObj : BitVec 18
  /-- The block in which the fragment raised the cause. -/
  block : CodeAddr
  /-- Join targets of the slices of the fragment; unlisted is none. -/
  join : SMap CodeAddr
  hold : SliceMask
  /-- H, the handler's lane set (R415). -/
  lanes : LaneMask
  /-- Lanes trap-parked at this level. -/
  parked : LaneMask
  /-- Parked instructions that the trap entry withdrew, with their unfinished lanes (R415, R456). -/
  withdrawn : List Pending
  deriving DecidableEq, Repr

/-- A region of a save image whose items the manual names and does not pack (R369, R370): which it is, where it lies in the image,
its size in bytes and its items. -/
structure Region where
  kind : Nat
  off : Nat
  size : Nat
  items : List DWord
  deriving DecidableEq, Repr

/-- A gate stack entry (R331). -/
structure GateEntry where
  dom : BitVec 16
  codeObj : BitVec 18
  ret : CodeAddr
  tvec : DWord
  tsave : DWord
  mode : Word
  st : Operand
  saveObj : BitVec 18
  slot : BitVec 13
  deriving DecidableEq, Repr

/-- A wave's part in one barrier (R317, R318). -/
structure BarWave where
  arrived : Bool
  pending : SliceMask
  /-- Wait target of each slice; 1 unlisted. -/
  w : SMap (BitVec 8)
  /-- The count of the latest arrival instruction of the phase that set pending bits. -/
  lastC : Nat
  deriving DecidableEq, Repr

/-- An accepted or offered hit of a ray (R306). -/
structure Hit where
  prim : Word
  t : Word
  u : Word
  v : Word
  front : Bool
  box : Bool
  deriving DecidableEq, Repr

/-- A lane's ray slot (R305). -/
structure RaySlot where
  dom : BitVec 16
  ref : DWord
  entry : ObjEntry
  gen : Word
  /-- ox, oy, oz, tmin, dx, dy, dz, tmax. -/
  ray : List Word
  opaque_ : Bool
  first : Bool
  cull : Bool
  /-- The bound on t: the ray's tmax, and the accepted t after that. -/
  tcur : Word
  best : Option Hit
  /-- Primitives not yet tested. -/
  todo : List Nat
  /-- The candidate a call-out offers. -/
  cand : Option Hit
  /-- The ray has ended and its result is still to be written. -/
  isOver : Bool
  deriving DecidableEq, Repr

/-- One wave (R50 to R64). -/
structure Wave where
  wg : Nat
  no : Nat
  /-- Residency slot on its quadrant (R487). -/
  slotNo : Nat
  /-- Vector register n of lane l at key 96 n + l; 0 unlisted (R50). -/
  v : SMap Word
  s : SMap Word
  /-- k1 to k7; 0 unlisted. k0 is not held (R51). -/
  k : SMap LaneMask
  /-- Index register n of lane l at key 96 n + l; 0 unlisted. -/
  x : SMap (BitVec 16)
  /-- Tile t, row i, column j at key 2048 t + 32 i + j; 0 unlisted (R50). -/
  tiles : SMap Word
  /-- The wave holds its quadrant's accumulator claim (R53). -/
  claim : Bool
  mode : Word
  status : Word
  dom : BitVec 16
  codeObj : BitVec 18
  /-- The region stack, top first (R63). -/
  regions : List (BitVec 16)
  tvec : DWord
  tsave : DWord
  bank1 : TrapBank
  bank2 : TrapBank
  /-- Resume PC of each lane; 0 unlisted (R31). -/
  pcs : SMap CodeAddr
  live : LaneMask
  gangParked : LaneMask
  /-- Join target of each slice; unlisted is none (R33). -/
  join : SMap CodeAddr
  /-- Hold bit of each slice (R33). -/
  hold : SliceMask
  frags : List Frag
  /-- Instructions the wave's fragments have issued in total, for R36. -/
  issueCount : Nat
  /-- CLOCKHI latch of each slice; 0 unlisted (R64). -/
  clockHi : SMap Word
  /-- Draw counter of each lane; 0 unlisted (R279). -/
  draws : SMap Word
  pend : List Pending
  nextPend : Nat
  nextFrag : Nat
  batchClosed : Word
  batchDone : Word
  lend : BitVec 4
  sharedStep : Nat
  /-- Weight pin counts by image key (R282); 0 unlisted. -/
  wpins : SMap Nat
  /-- The blocks of an image when the wave pinned it, by key (R282). -/
  wblocks : SMap Nat
  /-- Ray pin table: (domain, BVH reference, generation, count), at most 4 (R304). -/
  rayPins : List (BitVec 16 × DWord × Word × Nat)
  rays : SMap RaySlot
  /-- The gate stack, top first (R331). -/
  gates : List GateEntry
  /-- Workgroup barrier b at key b, cluster barrier b at key 64 + b (R317). -/
  bars : SMap BarWave
  /-- Written-block masks (R363). -/
  wblkV : Word
  wblkS : BitVec 16
  /-- A halt is in progress and not yet complete: its reason, and the lowest slice of the halting fragment (R338, R490). -/
  halting : Option (BitVec 2 × Nat)
  /-- Of a swapped-out wave, the regions of its image as the save engine wrote them (R370). -/
  regionsSaved : List Region
  deriving DecidableEq, Repr

/-! ## Launches and workgroups -/

/-- Where a record that a stage queue has accepted stands (R42). -/
inductive QRec where
  /-- In the ring: its sixteen words. -/
  | ring (r : List Word)
  /-- In the spill area, at this place of it. -/
  | spill (place : Nat)
  deriving DecidableEq, Repr

/-- A stage queue as the launch declares it (R42, R350). -/
structure StageQueue where
  producer : Nat
  consumer : Nat
  spillLimit : Nat
  spillRef : DWord
  /-- Records accepted and not delivered, oldest first, at most 512 of them in the ring (R42, R43). -/
  recs : List QRec
  closed : Bool
  deriving DecidableEq, Repr

/-- A raster binding (R289). -/
structure RasterBinding where
  unit : Nat
  ki : Nat
  ko : Nat
  km : Nat
  samples : Nat
  cull : Nat
  w : Nat
  h : Nat
  colour : DWord
  fmt : Nat
  depth : DWord
  compare : Nat
  depthWrite : Bool
  blend : Bool
  /-- Fragment records emitted so far (R296). -/
  emitted : Nat
  /-- Tokens not yet merged, with their quad positions (R296, R298). -/
  open_ : List (Nat × Nat × Nat)
  /-- Merge records taken from km and held back (R298). -/
  held : List (List Word)
  /-- Fragment records of the triangle in hand still to be pushed (R296). -/
  backlog : List (List Word)
  deriving DecidableEq, Repr

/-- A launch (R350 to R354). -/
structure Launch where
  ctx : BitVec 12
  die : BitVec 2
  queue : BitVec 11
  seq : Word
  pgen : Word
  dom : BitVec 16
  lid : Word
  args : DWord
  kdata : DWord
  code : DWord
  vregs : Nat
  sregs : Nat
  waves : Nat
  ncl : Nat
  nstage : Nat
  nbar : Nat
  idempotent : Bool
  scratch : Nat
  entries : List Nat
  gridX : Nat
  gridY : Nat
  gridZ : Nat
  tvec : DWord
  tsave : DWord
  seed : BitVec 8
  det : Bool
  queues : SMap StageQueue
  rasters : SMap RasterBinding
  /-- Package numbers by rank; one package without PKGS (R376). -/
  pkgs : List (BitVec 6)
  rank : Nat
  startGen : Option Word
  clogRef : DWord
  clogLen : Nat
  complete : Option (DWord × DWord)
  /-- The domain in which COMPLETE's reference is resolved: the queue's (R351). -/
  queueDom : BitVec 16
  queuePriv : Bool
  /-- Ranges: index, object reference, first byte, byte count, reuse class (R193). -/
  ranges : List (DWord × Nat × Nat × Nat)
  /-- Accesses and parks of each range's window (R193). -/
  rangeSeen : List (Nat × Nat)
  rangeReported : List Nat
  /-- Granules brought in for each range: (range, granule) (R193). -/
  rangeFetched : List (Nat × Nat)
  /-- Code objects read at acceptance: (domain, index, words) (R89). -/
  codeWords : List (Nat × Nat × List DWord)
  /-- Device memory as it stood when the launch was accepted (R89). -/
  image : SMap Byte
  /-- Region table: word offset and id, ascending (R353). -/
  regions : List (Nat × Nat)
  /-- The package may place clusters: R46 holds. -/
  started : Bool
  /-- The step at which it was accepted or last placed a cluster, by which launches take turns (R355). -/
  lastTurn : Nat
  /-- The next cluster to place, counted among this package's clusters (R355). -/
  nextCluster : Nat
  /-- Clusters to place again, ahead of the others (R430), and relaunch counts by cluster. -/
  relaunch : List Nat
  relaunches : SMap Nat
  /-- Key of the workgroup that holds the commit token (R374). -/
  token : Nat
  /-- Workgroup keys that have ended (R374). -/
  endedKeys : List Nat
  /-- A wave of the launch has issued a COLL instruction on this package (R429). -/
  usedColl : Bool
  ended : Bool
  killed : Bool
  /-- Packages that have reported launch end (R376). -/
  reports : List (BitVec 6)
  /-- This package accepted the launch from one of its queues. -/
  accepting : Bool
  /-- The package that accepted it (R376). -/
  acceptor : BitVec 6
  deriving DecidableEq, Repr

/-- Where a workgroup stands (R362 to R372). -/
inductive WgPhase where
  | running
  /-- Pre-empted, step phase; true once its 4,096 clocks are over (R362). -/
  | stepping (isOver : Bool) (byPacket : Bool)
  /-- Saved at this physical address of the pool (R368). -/
  | saved (base : Nat)
  | ended
  deriving DecidableEq, Repr

/-- One entry of the commit log (R374). -/
structure LogEntry where
  wave : Nat
  /-- The slices that made the update (R225). -/
  slices : SliceMask
  instr : Instr
  /-- The instruction that issued it, by which a kill is told (R426). -/
  pc : CodeAddr
  accs : List Acc
  /-- The batch that a DRAIN.ADD joined (R250). -/
  batch : Option Word
  /-- Slices whose later accesses wait for this update: they joined with its slices (R37). -/
  fence : SliceMask
  deriving DecidableEq, Repr

/-- A workgroup (R24 to R30). -/
structure Workgroup where
  launch : Nat
  stage : Nat
  index : Nat
  /-- The cluster, numbered over the stages: stage × clusters of a stage + q (R25). -/
  cluster : Nat
  crank : Nat
  core : Nat
  phase : WgPhase
  /-- Scratchpad bytes; 0 unlisted (R187, R430). -/
  scratch : SMap Byte
  /-- Workgroup barrier words (R316). -/
  bars : SMap DWord
  /-- Cluster barrier words, held by CRANK 0 (R315). -/
  clBars : SMap DWord
  /-- Waves that have ended. -/
  endedWaves : Nat
  logUsed : Nat
  log : List LogEntry
  /-- A pre-emption request, by a SWAPOUT packet or by the dispatcher, with the die counter at the request (R360,
  R362). -/
  request : Option (Bool × DWord)
  /-- The step at which it was swapped out, by which waiting work is ordered (R360). -/
  since : Nat
  /-- Its fragments have stopped for the request, and the overrun of the context has been charged (R360). -/
  charged : Bool
  deriving DecidableEq, Repr

/-! ## Engines -/

/-- A copy (R215). -/
structure Copy where
  wave : Nat
  slices : SliceMask
  core : Nat
  batch : Word
  instr : Instr
  /-- The instruction that issued it, by which a kill is told (R426). -/
  pc : CodeAddr
  dom : BitVec 16
  srcRef : DWord
  srcEntry : ObjEntry
  /-- Scratchpad workgroup and address in place of the source or destination, for COPYIN and COPYOUT. -/
  srcScratch : Option (Nat × Nat)
  dstRef : DWord
  dstEntry : ObjEntry
  dstScratch : Option (Nat × Nat)
  /-- Starting coordinates of the tensor of a COPYT; empty for the others. -/
  coords : List Nat
  bytes : Nat
  scope : BitVec 3
  /-- The 128-byte destination lines it has completed (R365). -/
  lines : BitVec 513
  /-- It has had to wait for a granule (R193). -/
  waited : Bool
  deriving DecidableEq, Repr

/-- A matrix operation in its queue (R249). -/
structure MatOp where
  wave : Nat
  core : Nat
  batch : Word
  instr : Instr
  /-- The instruction that issued it, by which a kill is told (R426). -/
  pc : CodeAddr
  dom : BitVec 16
  /-- Contributing lanes (R246). -/
  lanes : LaneMask
  /-- Registers captured at issue: vector values by key 96 n + l, and scalar values (R249). -/
  vregs : SMap Word
  sregs : List Word
  /-- B columns of a shared step, word m of column j at key 96 m + j, gathered at its start (R251). -/
  shared : Option (SMap Word)
  ref : DWord
  entry : ObjEntry
  coords : List Nat
  sampler : Bool
  /-- It has had to wait for a granule (R193). -/
  waited : Bool
  deriving DecidableEq, Repr

/-- Where a `.shb` MMA stands (R251, R252). -/
inductive StepStatus where
  /-- Another wave of the group has not issued its MMA of the step. -/
  | waiting
  /-- The step has started. -/
  | started
  /-- The step fails. -/
  | failed
  deriving DecidableEq, Repr

/-- A `.shb` MMA in its crossbar step (R251). -/
structure SharedB where
  wave : Nat
  step : Nat
  op : MatOp
  status : StepStatus
  deriving DecidableEq, Repr

/-- A granule request of a migration engine (R191). -/
structure GranReq where
  dom : BitVec 16
  index : Nat
  entry : ObjEntry
  granule : Nat
  /-- The launch whose range covers it, for reports (R193). -/
  launch : Option Nat
  /-- The frame it moves into, once its move has started. -/
  moving : Option Nat
  /-- No access has missed it: it is fetched with a missed granule of a class 1 range (R193). -/
  ahead : Bool
  deriving DecidableEq, Repr

/-- A conversion the Chisel engine carries out (R197). -/
structure Conv where
  die : BitVec 2
  desc : Nat
  dom : BitVec 16
  index : Nat
  /-- Granule words of the CURRENT layout (R197 step 1); 0 unlisted, which is no frame. -/
  source : SMap DWord
  srcLen : Nat
  extroot : Nat
  dead : Bool
  deriving DecidableEq, Repr

/-- The geometry of one draft or generation (R310, R311). -/
structure Geometry where
  boxes : Bool
  /-- Primitive records as words (R302): 10 for a triangle, 6 for a box. -/
  prims : List (List Word)
  /-- Where its nodes begin in the BVH object, the device's own, and how many bytes they take. -/
  place : Nat
  size : Nat
  refits : Nat
  rebals : Nat
  /-- Nodes, leaves, maximum depth and SAH cost (R301): the device's own. -/
  quality : List Word
  deriving DecidableEq, Repr

/-- A BVH's draft and live generations (R301, R311). -/
structure Bvh where
  draft : Option Geometry
  gens : List (Word × Geometry)
  deriving DecidableEq, Repr

/-- A builder operation (R309). -/
structure BuildOp where
  /-- The die that homes the BVH's first granule. -/
  die : BitVec 2
  core : Nat
  wave : Nat
  slices : SliceMask
  batch : Word
  instr : Instr
  /-- The instruction that issued it, by which a kill is told (R426). -/
  pc : CodeAddr
  dom : BitVec 16
  bvhRef : DWord
  bvhEntry : ObjEntry
  geoRef : DWord
  geoEntry : ObjEntry
  count : Nat
  scope : BitVec 3
  started : Bool
  /-- It has had to wait for a granule (R193). -/
  waited : Bool
  /-- The geometry records, read at the start. -/
  geo : List (List Word)
  /-- Where the nodes of its new tree begin, the device's own. -/
  place : Nat
  /-- Bytes reserved at the start; none when FREE was below the need (R310). -/
  reserved : Option Nat
  /-- Slices whose later accesses wait for its geometry reads: they joined with its slices (R37, R225). -/
  fence : SliceMask
  deriving DecidableEq, Repr

/-- A collective in progress on this package (R324). -/
structure Coll where
  wave : Nat
  slices : SliceMask
  launch : Nat
  instr : Instr
  /-- The instruction that issued it, by which a kill is told (R426). -/
  pc : CodeAddr
  dom : BitVec 16
  channel : Nat
  number : Nat
  desc : DWord
  descEntry : ObjEntry
  src : DWord
  srcEntry : Option ObjEntry
  dst : DWord
  dstEntry : ObjEntry
  w0 : DWord
  /-- It has had to wait for a granule (R193). -/
  waited : Bool
  /-- Its launch has ended under it: only CSTAT = 2 is still to be written (R500). -/
  lost : Bool
  deriving DecidableEq, Repr

/-- One image of the weight cache (R281), tagged by domain, object index and OFFSET. -/
structure WImage where
  dom : BitVec 16
  index : Nat
  off : Nat
  bytes : List Byte
  /-- The step of its latest use. -/
  used : Nat
  /-- The copy is cached; a pinned image keeps its place when its copy is dropped (R283, R479). -/
  live : Bool
  deriving DecidableEq, Repr

/-- A fill of the weight cache in progress (R281). -/
structure WFill where
  dom : BitVec 16
  ref : DWord
  wave : Nat
  slices : SliceMask
  /-- CH of the header, which K of layer 0 has to equal, for the fill of a SAMPLE.N or TEXQ (R275). -/
  ch : Option Nat
  /-- It has had to wait for a granule (R193). -/
  waited : Bool
  deriving DecidableEq, Repr

/-- The queue for which a Sluice core makes an access: its domain, and the PGEN and HOST that Sluice read (R469). -/
structure Asker where
  dom : BitVec 16
  die : Nat
  queue : Nat
  pgen : Word
  host : Bool
  deriving DecidableEq, Repr

/-- A context's scheduling state (R352, R360). -/
structure Context where
  weight : Nat
  slice : Nat
  pool : Option (Nat × Nat)
  notifyq : Option (Nat × Nat)
  traceq : Option (Nat × Nat)
  swappedOut : Bool
  /-- COMPLETE of SWAPOUT packets with their queue's domain and die, written once every image is saved (R352). -/
  swapComplete : List (DWord × DWord × Asker)
  /-- Debt D, in clocks (R360). -/
  debt : Nat
  /-- Issue count C by core (R359). -/
  issue : SMap Nat
  /-- Quadrants, as 4 × core + quadrant, on which it had a ready fragment at the last choice (R359). -/
  members : List Nat
  /-- The model's own: by quadrant, the step at which the present round of its fragments there began, in which each has its
  operands once (R47, R359). -/
  rounds : SMap Nat
  /-- Die counter at the start and the end of its slice, by core (R360). -/
  slices : SMap (Nat × Nat)
  /-- Cores on which the context's slice has ended (R360). -/
  sliceEnded : List Nat
  /-- Dies on which it is not chosen for swap-out until a pool unit frees (R496). -/
  noSwap : List Nat
  deriving DecidableEq, Repr

/-- A Sluice queue's running state (R345, R346). -/
structure QueueState where
  wptr : DWord
  rptr : DWord
  /-- Waits on residency (R351). -/
  resWait : Bool
  deriving DecidableEq, Repr

/-- A signal or COMPLETE write that waits for its granule (R351). -/
structure Signal where
  ref : DWord
  value : DWord
  add : Bool
  /-- The COMPLETE that is written after it (R351). -/
  andThen : Option (DWord × DWord)
  asker : Asker
  deriving DecidableEq, Repr

/-- An OBJINV that waits for accesses checked against the old entry (R177, R351). -/
structure ObjInv where
  dom : Nat
  index : Nat
  complete : Option (DWord × DWord)
  asker : Asker
  deriving DecidableEq, Repr

/-! ## Links and platform -/

/-- An Obton port (R381, R382, R498). -/
structure ObPort where
  expect : BitVec 10
  nextSeq : BitVec 10
  /-- Flits sent and not acknowledged, oldest first, at most 512. -/
  unacked : List (List Byte)
  /-- Payload bytes delivered on each VC, oldest first. -/
  delivered : SMap (List Byte)
  /-- Die 0's counter at each of the latest replay requests, those of one millisecond (R498). -/
  replays : List Nat
  deriving DecidableEq, Repr

/-- A frame or request kept until it is acknowledged (R389). -/
structure TxFrame where
  psn : Word
  bytes : List Byte
  last : Bool
  /-- The work request it belongs to; none for a READ response, which answers the peer's. -/
  wr : Option Nat
  deriving DecidableEq, Repr

/-- A work request the transport has taken (R386). -/
structure WorkReq where
  id : Nat
  ident : DWord
  opcode : Nat
  fence : Bool
  length : Nat
  ref : DWord
  remoteOff : DWord
  remoteObj : Word
  moved : Nat
  /-- Completed with a status, waiting for its turn in posting order. -/
  status : Option Nat
  deriving DecidableEq, Repr

/-- A transport connection's running state (R384 to R389). -/
structure Conn where
  sendProd : DWord
  recvProd : DWord
  sendCons : DWord
  recvCons : DWord
  nextPsn : Word
  expect : Word
  unacked : List TxFrame
  tries : Nat
  /-- NAKs that frames sent before the latest resending may still draw (R389). -/
  stale : Nat
  work : List WorkReq
  nextWork : Nat
  /-- The receive request in use: identifier, reference, length, bytes placed, bytes arrived. -/
  recv : Option (DWord × DWord × Nat × Nat × Nat)
  /-- Completion records waiting for room in the ring (R389). -/
  waiting : List (List Byte)
  deriving DecidableEq, Repr

/-- Something the device has sent or raised towards the outside. -/
inductive Outgoing where
  /-- MSI-X vector of the host port (R425, R490, R491). -/
  | msix (vector : Nat)
  /-- A start arrival stamped G to a package (R46). -/
  | arrival (pkg : BitVec 6) (g : Word)
  /-- A launch rejection stamped G (R376). -/
  | rejection (pkg : BitVec 6) (g : Word)
  /-- A replicated launch (R376): the packet's bytes. -/
  | replica (pkg : BitVec 6) (ctx : BitVec 12) (dom : BitVec 16) (packet : List Byte)
  /-- A package's launch end report (R376). -/
  | endReport (pkg : BitVec 6) (g : Word)
  /-- A kill of a context on another package (R423). -/
  | contextKill (pkg : BitVec 6) (ctx : BitVec 12)
  /-- A kill of a launch, told to another package of it by its start generation (R422). -/
  | launchKill (pkg : BitVec 6) (g : Word)
  /-- A flit sent on an Obton port (R381). -/
  | flit (port : Nat) (bytes : List Byte)
  /-- A transport frame sent by a die over UDP on IPv6: the peer's MAC and IPv6 address, the UDP port, the frame (R384,
  R385, R388). -/
  | frame (die : Nat) (mac ip : List Byte) (port : BitVec 16) (bytes : List Byte)
  /-- The data of a host read, each byte with its poison bit (R379, R461). -/
  | hostData (bytes : List (Byte × Bool))
  deriving DecidableEq, Repr

/-- A flit of a packet to another package that no port has taken yet (R382, R498). -/
structure Traffic where
  pkg : BitVec 6
  vc : Nat
  payload : List Byte
  /-- The packet's number for the choice of its port (R383). -/
  path : Nat
  /-- What the packet says, with its last flit. -/
  message : Option Outgoing
  deriving DecidableEq, Repr

/-- An SPDM response (R390, R434): the response code's name and its payload. -/
inductive SpdmResponse where
  | none
  | version
  | capabilities
  | algorithms (agreed : Bool)
  | digests (digest : List Byte)
  | certificate (bytes : List Byte)
  | challengeAuth (nonce signature : List Byte)
  | measurements (values : List (Nat × List Byte))
  | error
  deriving DecidableEq, Repr

/-- What moves next. -/
inductive Turn where
  /-- A fragment of a wave issues. -/
  | issue (wave frag : Nat)
  /-- An engine, link or platform step: a row of the opcode table that is not an instruction. -/
  | event (e : Instr)
  deriving DecidableEq, Repr

/-- The state of the package. -/
structure State where
  /-- Device memory by physical address; 0 unlisted (R181). -/
  mem : List Host.Cell
  /-- Host memory by 2^52 × PASID + I/O virtual address; 0 unlisted (R182). -/
  hostMem : SMap Byte
  /-- Poisoned sectors by physical address / 32, each with the 8-byte units that a write of the whole sector has replaced so
  far (R201, R461). -/
  poison : SMap (BitVec 4)
  /-- Platform registers by BAR0 offset; unlisted is the reset value (R377). -/
  bar0 : SMap DWord
  /-- Die counters (R64); 0 unlisted. -/
  counters : SMap DWord
  /-- Queue q of die d at key 2048 d + q (R345). -/
  queues : SMap QueueState
  /-- The slot that Sluice lane j of die d served last, at key 32 d + j (R347). -/
  served : SMap Nat
  signals : List Signal
  objinvs : List ObjInv
  contexts : SMap Context
  launches : SMap Launch
  workgroups : SMap Workgroup
  /-- Wave w of workgroup g at key 16 g + w. -/
  waves : SMap Wave
  /-- Core c, quadrant q at key 4 c + q: the wave that holds the accumulator claim (R53). -/
  claims : SMap Nat
  /-- Lend count of each core; 0 unlisted (R260). -/
  lends : SMap Nat
  /-- Object cache of each core: (domain, index, entry), latest last, at most 256 (R177). -/
  objCache : SMap (List (Nat × Nat × ObjEntry))
  /-- Lines of each core's L1 and texel cache, by line number, latest last (R183, R273). -/
  l1 : SMap (List (Nat × Line))
  texel : SMap (List (Nat × Line))
  /-- Remote data cache of each die: lines homed on other dies and other packages, latest last (R183). -/
  rdc : SMap (List (Nat × Line))
  /-- Tags of the L2, latest last, by 12,288 × die + 256 × slice + set (R183, R184); its data stand in `mem`. -/
  l2 : SMap (List L2Tag)
  wcache : SMap (List WImage)
  wfills : SMap (List WFill)
  storeQ : List PendingStore
  copies : List Copy
  /-- Matrix operations in issue order (R249). -/
  matOps : List MatOp
  sharedB : List SharedB
  /-- Free frames of each die: granule numbers (R191). -/
  freeFrames : SMap (List Nat)
  /-- Migration requests of each die (R191). -/
  requests : SMap (List GranReq)
  /-- Granules most recently used last (R192): domain, index, granule. -/
  useOrder : List (Nat × Nat × Nat)
  convs : List Conv
  /-- Draft and generations of a BVH, by the EXTROOT of its object (R301). -/
  bvhs : SMap Bvh
  builds : List BuildOp
  colls : List Coll
  /-- Numbers issued on channel c of launch n at key 64 n + c (R324). -/
  collCount : SMap Nat
  /-- Arrivals kept: package and generation (R46, R495). -/
  arrivals : List (BitVec 6 × Word)
  lostPkgs : List (BitVec 6)
  /-- Start generations of launches that this package has refused (R495). -/
  refusedGens : List Word
  ports : SMap ObPort
  /-- Flits that no port has taken yet, oldest first (R382, R498). -/
  traffic : List Traffic
  /-- Connection c of die d at key 1024 d + c. -/
  conns : SMap Conn
  /-- Pending target of each island whose change is in progress (R393). -/
  islandNext : SMap (BitVec 8)
  flash : SMap Byte
  /-- The image that booted, as its length in bytes and bytes. -/
  running : List Byte
  bootOk : Bool
  /-- Measurement 2, taken at boot (R390, R432). -/
  measured : List Byte
  /-- Fused rollback counter (R390). -/
  rollback : BitVec 6
  identityErased : Bool
  /-- Only CXL.io and the mailbox answer (R390, R433). -/
  recovery : Bool
  /-- The device was stopped by an alarm response (R433). -/
  halted : Bool
  tripped : Bool
  sessionKeys : Bool
  spdm : SpdmResponse
  /-- Sessions whose HALT request stands (R488). -/
  haltReq : List Nat
  /-- Frames retired (R465). -/
  retired : List Nat
  outbox : List Outgoing
  /-- The model's own: who moves next. -/
  turns : List Turn
  /-- The model's own: the fragment whose instruction exec runs, as wave key and fragment id. -/
  cur : Option (Nat × Nat)
  /-- The model's own: the index of the next free value. -/
  freeCount : Nat
  /-- The model's own: steps taken, by which ages are ordered. -/
  tick : Nat
  deriving DecidableEq, Repr

/-! ## Reset -/

/-- The state right after reset: platform registers at their table's reset values, device memory and every engine
empty, no queue, launch or wave (R377, R64). The rollback counter is 0, as the part ships (R390). -/
def State.reset : State :=
  { mem := [], hostMem := [], poison := [], bar0 := [], counters := [], queues := [], served := [], signals := [], objinvs := [], contexts := [],
    launches := [], workgroups := [], waves := [], claims := [], lends := [], objCache := [], l1 := [],
    texel := [], rdc := [], l2 := [], wcache := [], wfills := [], storeQ := [], copies := [], matOps := [],
    sharedB := [], freeFrames := [], requests := [], useOrder := [], convs := [], bvhs := [], builds := [],
    colls := [], collCount := [], arrivals := [], lostPkgs := [], refusedGens := [], ports := [], traffic := [], conns := [], islandNext := [],
    flash := [], running := [], bootOk := true, measured := [], rollback := 0, identityErased := false, recovery := false,
    halted := false, tripped := false, sessionKeys := false, spdm := .none, haltReq := [],
    retired := [], outbox := [], turns := [], cur := none, freeCount := 0, tick := 0 }

end Sys2Proof.Machine
end

