-- ==== Sys2Proof/Machine/Mem.lean ====
section
/-!
DEFINITION. Bytes and words of memory, platform registers, object table entries, extent maps and the checks of R178.
One byte address space: below 2^52 a device physical address (R181), above it host memory at
2^52 × (1 + PASID) + I/O virtual address (R182).
-/

namespace Sys2Proof.Machine

/-! ## Bytes -/

/-- The value of bytes, least significant first (R7). -/
def natOfBytes (bs : List Byte) : Nat := bs.foldr (fun b acc => b.toNat + 256 * acc) 0

/-- The n bytes of a value, least significant first (R7). -/
def bytesOfNat (n x : Nat) : List Byte := (List.range n).map fun i => BitVec.ofNat 8 (x / 256 ^ i)

/-- A field [lo + n - 1 : lo] as a number (R6). -/
def fieldOf {w : Nat} (x : BitVec w) (lo n : Nat) : Nat := (x.extractLsb' lo n).toNat

/-! ## Memory -/

/-- First address of host memory. -/
def hostBase : Nat := 2 ^ 52

/-- The byte at an address; memory nothing has written reads 0 (DESIGN CHOICE, unsafe: log entry 1). -/
def State.byte (s : State) (a : Nat) : Byte :=
  if a < hostBase then SMap.get 0 s.mem a else SMap.get 0 s.hostMem (a - hostBase)

/-- Write a byte. -/
def State.setByte (s : State) (a : Nat) (b : Byte) : State :=
  if a < hostBase then { s with mem := SMap.set 0 s.mem a b }
  else { s with hostMem := SMap.set 0 s.hostMem (a - hostBase) b }

/-- The canonical form of a memory: addresses strictly rising, and no byte listed that an unlisted address reads as. -/
def Memory.wf (m : List Host.Cell) : Bool := SMap.wf 0 m

/-- Both memories have the canonical form, and device memory lists device addresses only. -/
def State.memOk (s : State) : Bool :=
  Memory.wf s.mem && Memory.wf s.hostMem && s.mem.all fun c => decide (c.1 < hostBase)

/-- n bytes from an address on. -/
def State.bytes (s : State) (a n : Nat) : List Byte := (List.range n).map fun i => s.byte (a + i)

/-- Write bytes from an address on. -/
def State.setBytes (s : State) (a : Nat) : List Byte → State
  | [] => s
  | b :: r => (s.setByte a b).setBytes (a + 1) r

/-- A 64-bit word of memory (R7). -/
def State.word64 (s : State) (a : Nat) : DWord := BitVec.ofNat 64 (natOfBytes (s.bytes a 8))

/-- Write a 64-bit word. -/
def State.setWord64 (s : State) (a : Nat) (x : DWord) : State := s.setBytes a (bytesOfNat 8 x.toNat)

/-- The address lies on another package (R181). -/
def onOtherPackage (a : Nat) : Bool := decide (2 ^ 51 ≤ a ∧ a < 2 ^ 52)

/-- The address lies on a package that is lost (R500). -/
def State.lost (s : State) (a : Nat) : Bool := onOtherPackage a && s.lostPkgs.contains (BitVec.ofNat 6 (a / 2 ^ 45))

/-- The 32-byte sector of an address is poisoned (R461), or its package is lost, which its reads and updates meet in the
same way (R500). -/
def State.poisoned (s : State) (a : Nat) : Bool := (s.poison.find? (a / 32)).isSome || s.lost a

/-- Some sector of n bytes from a is poisoned. -/
def State.anyPoison (s : State) (a n : Nat) : Bool :=
  (List.range ((a + n + 31) / 32 - a / 32)).any fun i => s.poisoned (a + 32 * i)

/-! ## Platform registers -/

/-- Reset value of the platform register at a BAR0 offset (R377, R393, R425, R459, R487). -/
def regReset (off : Nat) : DWord :=
  if off = 0x0000 then (0x0096#16 ++ 0#32 ++ Config.stepping)
  else if off = 0x0038 then 0x5A7E#64
  else if off = 0x0080 then 0x8000000000000000#64
  else if 0x0040 ≤ off ∧ off < 0x0060 ∧ off % 8 = 0 then
    BitVec.ofNat 64 (min (Config.expanderBytes ((off - 0x0040) / 8) / 65536 * 65536) (2048 * 2 ^ 30))
  else if 0x0400 ≤ off ∧ off < 0x0600 ∧ off % 8 = 0 then 0x640064#64
  else if off = 0x0708 ∨ off = 0x0B88 then 4#64
  else if off = 0x0920 then 10000#64
  else if 0x2000 ≤ off ∧ off < 0x2200 ∧ off % 0x40 = 0x30 then 4#64
  else 0#64

/-- A platform register as BAR0 holds it. -/
def State.reg (s : State) (off : Nat) : DWord := (s.bar0.find? off).getD (regReset off)

/-- Store a platform register. -/
def State.setReg (s : State) (off : Nat) (x : DWord) : State := { s with bar0 := s.bar0.insert off x }

/-- Capacity of expander port d in bytes (R377, R380). -/
def State.expCap (s : State) (d : Nat) : Nat := (s.reg (0x0040 + 8 * d)).toNat

/-- The die counter of die d (R64). -/
def State.counter (s : State) (d : Nat) : DWord := SMap.get 0 s.counters d

/-- Take the next free value's number. -/
def State.bumpFree (s : State) : State := { s with freeCount := s.freeCount + 1 }

/-! ## Physical addresses (R181) -/

/-- First physical address of expander port d. -/
def tierTwoBase (d : Nat) : Nat := 0x10000000000 + d * 0x20000000000

/-- The expander port whose window holds an address, if one does. -/
def expanderOf (a : Nat) : Option Nat :=
  if 0x10000000000 ≤ a ∧ a < 0x90000000000 then some ((a - 0x10000000000) / 0x20000000000) else none

/-- The address names memory (R181): HBM, attached second tier, or another package. -/
def State.names (s : State) (a : Nat) : Bool :=
  let low := a % 2 ^ 44
  let inBoard := decide (low < 0x9000000000) ||
    (match expanderOf low with
     | some d => onOtherPackage a || decide (low - tierTwoBase d < s.expCap d)
     | none => false)
  inBoard && decide (if onOtherPackage a then a / 2 ^ 44 % 2 = 0 else a < 2 ^ 44)

/-- Home die of a device address on its package (R181). -/
def homeDie (a : Nat) : Nat :=
  let low := a % 2 ^ 44
  match expanderOf low with
  | some d => d
  | none => low / 65536 % 4

/-- A core's die (R13). -/
def dieOf (core : Nat) : Nat := core / 272

/-! ## Domains and object table entries -/

/-- Base of the domain descriptor table (R377). -/
def State.domBase (s : State) : Nat := fieldOf (s.reg 0x0008) 12 40 * 4096

/-- The descriptor of a domain exists: DOMBASE is not 0 and VALID is 1 (R176, R377). -/
def State.domValid (s : State) (dom : Nat) : Bool :=
  decide (s.domBase ≠ 0) && (s.word64 (s.domBase + 16 * dom)).getLsbD 63

/-- Object table base of a domain (R176). -/
def State.otBase (s : State) (dom : Nat) : Nat := fieldOf (s.word64 (s.domBase + 16 * dom)) 12 40 * 4096

/-- COUNT of a domain (R176). -/
def State.otCount (s : State) (dom : Nat) : Nat := fieldOf (s.word64 (s.domBase + 16 * dom + 8)) 0 19

/-- PASID of a domain (R176). -/
def State.pasid (s : State) (dom : Nat) : Nat := fieldOf (s.word64 (s.domBase + 16 * dom + 8)) 44 20

/-- Address of entry n of a domain's object table (R176). -/
def State.entryAddr (s : State) (dom n : Nat) : Nat := s.otBase dom + 32 * n

/-- Entry n of a domain's object table, read from memory (R68). -/
def State.tableEntry (s : State) (dom n : Nat) : ObjEntry :=
  let a := s.entryAddr dom n
  ⟨s.word64 a, s.word64 (a + 8), s.word64 (a + 16), s.word64 (a + 24)⟩

/-- Write an object table entry; VALID, in word 3, last (R336). -/
def State.setEntry (s : State) (dom n : Nat) (e : ObjEntry) : State :=
  let a := s.entryAddr dom n
  (((s.setWord64 a e.w0).setWord64 (a + 8) e.w1).setWord64 (a + 16) e.w2).setWord64 (a + 24) e.w3

def ObjEntry.kind (e : ObjEntry) : Nat := fieldOf e.w0 60 4
/-- RIGHTS: read, write, execute, atomic, grant from bit 4 downwards (R68). -/
def ObjEntry.rights (e : ObjEntry) : BitVec 5 := e.w0.extractLsb' 55 5
def ObjEntry.layout (e : ObjEntry) : Nat := fieldOf e.w0 48 4
def ObjEntry.length (e : ObjEntry) : Nat := fieldOf e.w0 0 42
def ObjEntry.extroot (e : ObjEntry) : Nat := fieldOf e.w1 6 46 * 64
def ObjEntry.tdesc (e : ObjEntry) : Nat := fieldOf e.w2 6 46 * 64
def ObjEntry.home (e : ObjEntry) : Nat := fieldOf e.w3 60 2
def ObjEntry.reuse (e : ObjEntry) : Nat := fieldOf e.w3 56 4
/-- The granules never move: PIN, or a Host window (R68, R182). -/
def ObjEntry.pinned (e : ObjEntry) : Bool := e.w3.getLsbD 62 || decide (e.kind = 6)
/-- The entry names an object: VALID, a KIND and a HOME that are not reserved (R68, R69). -/
def ObjEntry.valid (e : ObjEntry) : Bool := e.w3.getLsbD 63 && decide (e.kind ≤ 8) && decide (e.home ≠ 3)

/-- Fields of a reference (R66). -/
def refIndex (r : DWord) : Nat := fieldOf r 46 18
/-- Rights of a reference: R, W, X, A from bit 3 downwards (R66). -/
def refRights (r : DWord) : BitVec 4 := r.extractLsb' 42 4
def refOffset (r : DWord) : Nat := fieldOf r 0 42
/-- A reference from its fields (R66). -/
def mkRef (index : Nat) (rights : BitVec 4) (off : Nat) : DWord :=
  BitVec.ofNat 18 index ++ rights ++ BitVec.ofNat 42 off
/-- The reference with another OFFSET, modulo 2^42. -/
def withOffset (r : DWord) (off : Nat) : DWord := mkRef (refIndex r) (refRights r) off

/-- The rights an access needs, in the order R, W, X, A (R179). -/
def needR : BitVec 4 := 8
def needW : BitVec 4 := 4
def needRW : BitVec 4 := 12
def needX : BitVec 4 := 2
def needA : BitVec 4 := 1
def needRA : BitVec 4 := 9
def needNone : BitVec 4 := 0

/-- Tables of domain, index, entry that a core caches (R177). -/
def State.cachedEntry (s : State) (core dom n : Nat) : Option ObjEntry :=
  ((SMap.get [] s.objCache core).find? fun c => decide (c.1 = dom ∧ c.2.1 = n)).map fun c => c.2.2

/-- The entry an access of a core is checked against: the cached one, else the table's (R177). -/
def State.entryFor (s : State) (core dom n : Nat) : ObjEntry :=
  (s.cachedEntry core dom n).getD (s.tableEntry dom n)

/-- Fill a core's object cache with an entry; one that is not valid is not kept (R177, R336). DESIGN CHOICE (log 101): of 256
entries the one filled first is dropped. -/
def State.cacheEntry (s : State) (core dom n : Nat) : State :=
  if (s.cachedEntry core dom n).isSome || !s.domValid dom || !(s.tableEntry dom n).valid then s
  else
    let l := SMap.get [] s.objCache core ++ [(dom, n, s.tableEntry dom n)]
    { s with objCache := SMap.set [] s.objCache core (l.drop (l.length - 256)) }

/-- Drop an entry from every object cache (R177). -/
def State.dropEntry (s : State) (dom n : Nat) : State :=
  { s with objCache := s.objCache.map fun c => (c.1, c.2.filter fun x => !decide (x.1 = dom ∧ x.2.1 = n)) }

/-! ## The checks of R178 -/

/-- Which KIND an access admits (R180). -/
inductive KindRule where
  /-- Byte-addressed loads: every kind but BVH beyond its control block and gate table. -/
  | load
  /-- Byte-addressed stores and atomics. -/
  | store
  /-- Coordinate access: tensors only. -/
  | tensor
  /-- Every kind: no test. -/
  | any
  /-- One kind only. -/
  | only (k : Nat)
  /-- One of two kinds. -/
  | either (a b : Nat)
  deriving DecidableEq, Repr

/-- The kind is admitted (R180); a BVH admits byte loads of bytes 0 to 255, which `off` and `size` delimit. -/
def KindRule.admits (r : KindRule) (kind : Nat) (off : Int) (size : Nat) : Bool :=
  match r with
  | .load => kind != 7 && (kind != 5 || decide (0 ≤ off ∧ off + size ≤ 256))
  | .store => kind != 7 && kind != 5
  | .tensor => kind == 1
  | .any => true
  | .only k => kind == k
  | .either a b => kind == a || kind == b

/-- Steps 1 to 3 of R178: the cause of the first failure, or the entry; an uncorrectable descriptor or table entry is
cause 0x09 (R454). -/
def State.checkObject (s : State) (core dom : Nat) (ref : DWord) (need : BitVec 4) (rule : KindRule)
    (off : Int) (size : Nat) : Except Nat ObjEntry :=
  let n := refIndex ref
  let e := s.entryFor core dom n
  if decide (s.domBase ≠ 0) && s.poisoned (s.domBase + 16 * dom) then .error 0x09
  else if !s.domValid dom || decide (n = 0) || decide (s.otCount dom ≤ n) then .error 0x01
  else if (s.cachedEntry core dom n).isNone && s.poisoned (s.entryAddr dom n) then .error 0x09
  else if !e.valid then .error 0x01
  else if !rule.admits e.kind off size then .error 0x02
  else if (need &&& ~~~(refRights ref &&& e.rights.extractLsb' 1 4)) != 0 then .error 0x03
  else .ok e

/-- All five steps of R178 for a byte-addressed access of `size` bytes at an exact offset. -/
def State.checkBytes (s : State) (core dom : Nat) (ref : DWord) (need : BitVec 4) (rule : KindRule)
    (off : Int) (size align : Nat) : Except Nat ObjEntry :=
  match s.checkObject core dom ref need rule off size with
  | .error c => .error c
  | .ok e =>
    if off % align ≠ 0 then .error 0x04
    else if off < 0 ∨ (e.length : Int) < off + size then .error 0x05
    else .ok e

/-! ## Extent maps (R182) -/

/-- Address of the granule word of granule g of an extent map, if the level-one word is valid. -/
def State.granuleAddr (s : State) (extroot g : Nat) : Option Nat :=
  let w := s.word64 (extroot + 8 * (g / 512))
  if w.getLsbD 63 then some (fieldOf w 12 40 * 4096 + 8 * (g % 512)) else none

/-- The granule word; without a leaf, an absent granule (DESIGN CHOICE: log entry 9). -/
def State.granuleWord (s : State) (extroot g : Nat) : DWord :=
  match s.granuleAddr extroot g with
  | some a => s.word64 a
  | none => 0

def granTier (w : DWord) : Nat := fieldOf w 62 2
def granPresent (w : DWord) : Bool := w.getLsbD 61
def granMoving (w : DWord) : Bool := w.getLsbD 60
/-- FRAME, a granule number (R182). -/
def granFrame (w : DWord) : Nat := fieldOf w 16 36
/-- A granule word from its fields. -/
def mkGranule (tier : Nat) (present moving : Bool) (frame : Nat) : DWord :=
  BitVec.ofNat 2 tier ++ BitVec.ofBool present ++ BitVec.ofBool moving ++ 0#8 ++ BitVec.ofNat 36 frame ++ 0#16

/-- The granule is resident (R189). -/
def granResident (e : ObjEntry) (w : DWord) : Bool :=
  granPresent w && !granMoving w && (e.pinned || decide (granTier w = 0))

/-- Address of an object's byte through its extent map; host memory under TIER 2 (R182). -/
def State.addrOf (s : State) (dom : Nat) (e : ObjEntry) (off : Nat) : Nat :=
  let w := s.granuleWord e.extroot (off / 65536)
  let a := granFrame w * 65536 + off % 65536
  if granTier w = 2 then hostBase * (1 + s.pasid dom) + a else a

/-- The granule is resident and its frame names memory; an unpinned object's on this package (R189, R457). -/
def State.granUsable (s : State) (e : ObjEntry) (w : DWord) : Bool :=
  let a := granFrame w * 65536
  granResident e w && (granTier w == 2 || (s.names a && (e.pinned || !onOtherPackage a)))

/-- Every granule that n bytes from off touch can be accessed. -/
def State.residentRange (s : State) (e : ObjEntry) (off n : Nat) : Bool :=
  (List.range ((off + n - 1) / 65536 + 1 - off / 65536)).all fun i =>
    s.granUsable e (s.granuleWord e.extroot (off / 65536 + i))

/-- An extent-map word that n bytes from off need cannot be read (R454). -/
def State.mapPoisoned (s : State) (e : ObjEntry) (off n : Nat) : Bool :=
  !(s.poison.isEmpty && s.lostPkgs.isEmpty) && n != 0 &&
    (List.range ((off + n - 1) / 65536 + 1 - off / 65536)).any fun i =>
      let g := off / 65536 + i
      s.poisoned (e.extroot + 8 * (g / 512)) || ((s.granuleAddr e.extroot g).any s.poisoned)

end Sys2Proof.Machine
end

