-- ==== Sys2Proof/Machine/Cache.lean ====
section
/-!
DEFINITION. The caches of R183 and R184 as they stand: superblocks, sets and ways of the L1 and the remote data cache,
the tags of the L2, the write-back of a line's dirty bytes, and the directory of the home L2 (R185).
-/

namespace Sys2Proof.Machine

/-! ## Lines and superblocks (R183, R184) -/

/-- Line number of an address (R183). -/
def lineOf (a : Nat) : Nat := a / 128

/-- The superblock of a line (R184). -/
def superOf (line : Nat) : Nat := line / 4

/-- A line among cached lines. -/
def findLine (ls : List (Nat × Line)) (n : Nat) : Option Line := (ls.find? fun x => x.1 = n).map fun x => x.2

/-- The superblocks of one set, the one whose oldest line was filled first at the head. -/
def setBlocks (sets set : Nat) (ls : List (Nat × Line)) : List Nat :=
  ((ls.filter fun x => decide (superOf x.1 % sets = set)).map fun x => superOf x.1).eraseDups

/-- A line filled: the cache, and the lines of the superblock that has to go as a group where the set has no way left
(R184). DESIGN CHOICE (log 101): a superblock's set is its number modulo the number of sets, and the one filled first
goes; the manual gives neither. -/
def fillLine (sets ways : Nat) (ls : List (Nat × Line)) (n : Nat) (l : Line) : List (Nat × Line) × List (Nat × Line) :=
  let r := ls.filter (fun x => x.1 != n) ++ [(n, l)]
  match setBlocks sets (superOf n % sets) r with
  | b :: rest => if rest.length < ways then (r, []) else r.partition fun x => superOf x.1 != b
  | [] => (r, [])

/-- Sets and ways of a core's L1: 128 KiB, 8-way, a tag for each 512 bytes (R183). -/
def l1Sets : Nat := 32
def l1Ways : Nat := 8
/-- Sets and ways of a die's remote data cache: 32 MiB, 16-way (R183). -/
def rdcSets : Nat := 4096
def rdcWays : Nat := 16

/-- The nibbles of a byte: which of them a write changes, low and high. -/
abbrev Nibbles := BitVec 2

/-- The byte `old` with the nibbles `m` of the byte `new` (R206). -/
def mixNibbles (m : Nibbles) (old new : Byte) : Byte :=
  (if m.getLsbD 1 then new.extractLsb' 4 4 else old.extractLsb' 4 4) ++
    (if m.getLsbD 0 then new.extractLsb' 0 4 else old.extractLsb' 0 4)

/-- A 4-bit element's value in the nibble of its byte that holds it (R132). -/
def nibbleByte (high : Bool) (x : Byte) : Byte := if high then x.extractLsb' 0 4 ++ 0#4 else x

/-- The nibble that holds a 4-bit element. -/
def nibbleAt (high : Bool) : Nibbles := if high then 2 else 1

/-- Replace a nibble of a byte (R206). -/
def withNibble (high : Bool) (old new : Byte) : Byte := mixNibbles (nibbleAt high) old (nibbleByte high new)

/-- A byte of a cached line replaced; `m` marks nibbles of it as written and not yet at their home. -/
def patchLine (ls : List (Nat × Line)) (a : Nat) (b : Byte) (m : Nibbles) : List (Nat × Line) :=
  ls.map fun x =>
    if x.1 = lineOf a then
      (x.1, { x.2 with dirty := x.2.dirty ||| BitVec.ofNat 256 (m.toNat * 4 ^ (a % 128)), bytes := x.2.bytes.set (a % 128) b })
    else x

/-- Bytes from an address on replaced in the lines that are cached. -/
def patchRun (ls : List (Nat × Line)) (a : Nat) (bs : List Byte) : List (Nat × Line) :=
  if ls.any fun x => decide (lineOf a ≤ x.1 ∧ x.1 ≤ lineOf (a + bs.length - 1)) then
    (List.range bs.length).foldl (fun ls i => patchLine ls (a + i) (bs.getD i 0) 0) ls
  else ls

/-- The sector of an address is poisoned in a line that holds it (R461). -/
def Line.badAt (l : Line) (a : Nat) : Bool := l.bad.getLsbD (a % 128 / 32)

/-- The poison of the sectors of cached lines that n bytes from a touch, as `bad` says of the sector of an address. -/
def patchBad (ls : List (Nat × Line)) (a n : Nat) (bad : Nat → Bool) : List (Nat × Line) :=
  ls.map fun x =>
    if lineOf a ≤ x.1 ∧ x.1 ≤ lineOf (a + n - 1) then
      let m := (List.range 4).foldl (fun m i =>
        let k := 128 * x.1 + 32 * i
        if a < k + 32 ∧ k < a + n then (if bad k then m ||| BitVec.ofNat 4 (2 ^ i) else m &&& ~~~(BitVec.ofNat 4 (2 ^ i)))
        else m) x.2.bad
      (x.1, { x.2 with bad := m })
    else x

/-- The poison of a line's four sectors at their home (R461). -/
def State.homeBad (s : State) (line : Nat) : BitVec 4 :=
  (List.range 4).foldl (fun m i => if (s.poison.find? (4 * line + i)).isSome then m ||| BitVec.ofNat 4 (2 ^ i) else m) 0

/-- Write a line's dirty nibbles to its home; its sectors' poison travels with them, and a sector written whole and sound
clears what stood at home (R461). -/
def State.flushLine (s : State) (x : Nat × Line) : State :=
  let s := (List.range 128).foldl (fun s i =>
    let m : Nibbles := x.2.dirty.extractLsb' (2 * i) 2
    let a := 128 * x.1 + i
    if m = 0 then s else s.setByte a (mixNibbles m (s.byte a) (x.2.bytes.getD i 0))) s
  (List.range 4).foldl (fun s i =>
    let d : DWord := x.2.dirty.extractLsb' (64 * i) 64
    let k := 4 * x.1 + i
    if d = 0 then s
    else if x.2.bad.getLsbD i then { s with poison := s.poison.insert k ((s.poison.find? k).getD 0) }
    else if d = BitVec.allOnes 64 then { s with poison := s.poison.erase k }
    else s) s

/-- Write the dirty nibbles of lines to their homes. -/
def State.flushLines (s : State) (ls : List (Nat × Line)) : State :=
  (ls.filter fun x => x.2.dirty != 0).foldl State.flushLine s

/-! ## Homes (R181, R184) -/

/-- Home die of an address on its package; host-window lines are homed on die 0 (R184). -/
def homeOf (a : Nat) : Nat := if hostBase ≤ a then 0 else homeDie a

/-- The line is homed away from a die: on another die or another package. -/
def awayFrom (die a : Nat) : Bool := onOtherPackage a || homeOf a != die

/-! ## L2 tags (R183, R184) -/

/-- Key of the L2 set of an address: 48 slices of 256 sets on each die; the hash that chooses the slice is the
device's (R183). -/
def l2Key (a : Nat) : Nat := 12288 * homeOf a + 256 * (Config.l2Slice (a / 512) % 48) + a / 512 % 256

/-- A line of this package is read or written in its home L2: its tag is valid, and dirty after a write; where the set
has no way left the superblock filled first is written back and goes (R184). The L2's data is what `State.byte` gives. -/
def State.noteL2 (s : State) (write : Bool) (a : Nat) : State :=
  if onOtherPackage a then s
  else
    let bit : BitVec 4 := BitVec.ofNat 4 (2 ^ (lineOf a % 4))
    let mark (t : L2Tag) : L2Tag := { t with valid := t.valid ||| bit, dirty := if write then t.dirty ||| bit else t.dirty }
    let ts := SMap.get [] s.l2 (l2Key a)
    let ts := if ts.any fun t => t.block == a / 512 then ts.map fun t => if t.block = a / 512 then mark t else t
      else (ts ++ [mark ⟨a / 512, 0, 0⟩]).drop (ts.length - 15)
    { s with l2 := SMap.insert s.l2 (l2Key a) ts }

/-- The dirty lines of a die's L2 that hold second-tier memory. -/
def State.dirtySecond (s : State) (die : Nat) : List Nat :=
  (s.l2.filter fun x => x.1 / 12288 == die).flatMap fun x => x.2.flatMap fun t =>
    ((List.range 4).filter fun i => t.dirty.getLsbD i).filterMap fun i =>
      if (expanderOf (512 * t.block)).isSome then some (4 * t.block + i) else none

/-- Drop the L2 tags of superblocks that do not satisfy p. -/
def State.keepL2 (s : State) (p : Nat → Bool) : State :=
  { s with l2 := s.l2.map fun x => (x.1, x.2.filter fun t => p t.block) }

/-! ## The remote data cache and the directory (R183, R185) -/

/-- Bring a line that is homed away into a die's remote data cache (R183). The copy of another die's line has the bytes
of its home L2, which the directory keeps so (R185), and none of its own; another package's has its own bytes. -/
def State.fillRemote (s : State) (die a : Nat) : State :=
  if awayFrom die a && (findLine (SMap.get [] s.rdc die) (lineOf a)).isNone then
    let l : Line := if onOtherPackage a then ⟨0, s.bytes (128 * lineOf a) 128, s.homeBad (lineOf a)⟩ else ⟨0, [], 0⟩
    let r := fillLine rdcSets rdcWays (SMap.get [] s.rdc die) (lineOf a) l
    { s with rdc := SMap.insert s.rdc die r.1 }.flushLines r.2
  else s

/-- The dies whose remote data caches the home L2's directory knows to share a superblock of its die: it keeps one bit
for each other die (R185). -/
def State.sharers (s : State) (a : Nat) : List Nat :=
  (List.range 4).filter fun d => (SMap.get [] s.rdc d).any fun x => superOf x.1 == superOf (lineOf a)

/-- A write of n bytes from a reaches the home L2 of a line of this package: the directory invalidates the copies that
other dies hold, before the write is acknowledged (R185). `keep` is the die that wrote through, if one did. -/
def State.homeWritten (s : State) (keep : Option Nat) (a n : Nat) : State :=
  (List.range (lineOf (a + n - 1) + 1 - lineOf a)).foldl (fun s i =>
    let line := lineOf a + i
    if onOtherPackage (128 * line) then s
    else
      State.noteL2 { s with rdc := s.rdc.map fun x => (x.1, if some x.1 = keep then x.2 else x.2.filter fun y => y.1 != line) }
        true (128 * line)) s

/-- The byte a die's memory port sees: for another package's line the remote data cache's copy, else the home L2's
(R183, R185). -/
def State.portByte (s : State) (die a : Nat) : Byte :=
  if onOtherPackage a then
    match findLine (SMap.get [] s.rdc die) (lineOf a) with
    | some l => l.bytes.getD (a % 128) 0
    | none => s.byte a
  else s.byte a

/-- The sector of an address is poisoned as a die's memory port sees it: in the remote data cache's copy of another package's
line, else at its home; or its package is lost (R461, R500). -/
def State.portPoisoned (s : State) (die a : Nat) : Bool :=
  s.lost a ||
    match if onOtherPackage a then findLine (SMap.get [] s.rdc die) (lineOf a) else none with
    | some l => l.badAt a
    | none => (s.poison.find? (a / 32)).isSome

/-- A line as a die's memory port gives it, with its sectors' poison. -/
def State.portLine (s : State) (die line : Nat) : Line :=
  ⟨0, (List.range 128).map fun i => s.portByte die (128 * line + i),
    (List.range 4).foldl (fun m i => if s.portPoisoned die (128 * line + 32 * i) then m ||| BitVec.ofNat 4 (2 ^ i) else m) 0⟩

/-- n bytes as a die's memory port sees them. -/
def State.portBytes (s : State) (die a n : Nat) : List Byte := (List.range n).map fun i => s.portByte die (a + i)

/-- Write back every dirty line of a die's remote data cache (R186). -/
def State.writeBackRemote (s : State) (die : Nat) : State :=
  let ls := SMap.get [] s.rdc die
  let t := s.flushLines ls
  { t with rdc := SMap.set [] t.rdc die (ls.map fun x => (x.1, { x.2 with dirty := 0 })) }

/-- Write back and drop the lines of a die's remote data cache that satisfy p. -/
def State.dropRemote (s : State) (die : Nat) (p : Nat → Bool) : State :=
  let ls := SMap.get [] s.rdc die
  let t := s.flushLines (ls.filter fun x => p x.1)
  { t with rdc := SMap.set [] t.rdc die (ls.filter fun x => !p x.1) }

end Sys2Proof.Machine
end

