-- ==== Sys2Proof/Machine/Operands.lean ====
section
/-!
DEFINITION. Register files, lane sets and operand values: what an operand specifier supplies to a lane (R94 to R97,
R112, R113), and the writes an instruction makes.
-/

namespace Sys2Proof.Machine

/-! ## Lane sets -/

/-- The lanes of a mask, ascending. -/
def lanesOf (m : LaneMask) : List Nat := (List.range 96).filter fun l => m.getLsbD l

/-- The slices of a mask, ascending. -/
def slicesOf (m : SliceMask) : List Nat := (List.range 24).filter fun k => m.getLsbD k

/-- The mask of the lanes that satisfy p. -/
def maskOf (p : Nat → Bool) : LaneMask :=
  BitVec.ofNat 96 ((List.range 96).foldl (fun acc l => if p l then acc + 2 ^ l else acc) 0)

/-- The mask of the slices that satisfy p. -/
def sliceMaskOf (p : Nat → Bool) : SliceMask :=
  BitVec.ofNat 24 ((List.range 24).foldl (fun acc k => if p k then acc + 2 ^ k else acc) 0)

/-- The lanes 4s to 4s + 3 of the slices of a mask (R24). -/
def lanesOfSlices (m : SliceMask) : LaneMask := maskOf fun l => m.getLsbD (l / 4)

/-- The slices that hold a lane of a mask. -/
def slicesOfLanes (m : LaneMask) : SliceMask :=
  sliceMaskOf fun k => m.getLsbD (4 * k) || m.getLsbD (4 * k + 1) || m.getLsbD (4 * k + 2) || m.getLsbD (4 * k + 3)

/-- The lowest lane of a mask. -/
def lowestLane (m : LaneMask) : Nat := ((List.range 96).find? fun l => m.getLsbD l).getD 0

/-- The lowest slice of a mask. -/
def lowestSlice (m : SliceMask) : Nat := ((List.range 24).find? fun k => m.getLsbD k).getD 0

/-- One bit of a lane mask set or cleared. -/
def setLane (m : LaneMask) (l : Nat) (b : Bool) : LaneMask :=
  let bit : LaneMask := BitVec.ofNat 96 (2 ^ l)
  if b then m ||| bit else m &&& ~~~bit

/-! ## Register files (R50 to R52) -/

def Wave.vreg (w : Wave) (n l : Nat) : Word := SMap.get 0 w.v (96 * n + l)
def Wave.setV (w : Wave) (n l : Nat) (x : Word) : Wave := { w with v := SMap.set 0 w.v (96 * n + l) x }
def Wave.sreg (w : Wave) (n : Nat) : Word := SMap.get 0 w.s n
def Wave.setS (w : Wave) (n : Nat) (x : Word) : Wave := { w with s := SMap.set 0 w.s n x }
/-- A predicate register; k0 reads as all ones (R51). -/
def Wave.kreg (w : Wave) (n : Nat) : LaneMask := if n = 0 then BitVec.allOnes 96 else SMap.get 0 w.k n
/-- Write a predicate register; writes to k0 are discarded (R51). -/
def Wave.setK (w : Wave) (n : Nat) (m : LaneMask) : Wave :=
  if n = 0 then w else { w with k := SMap.set 0 w.k n m }
def Wave.xreg (w : Wave) (n l : Nat) : BitVec 16 := SMap.get 0 w.x (96 * n + l)
def Wave.setX (w : Wave) (n l : Nat) (x : BitVec 16) : Wave := { w with x := SMap.set 0 w.x (96 * n + l) x }
/-- Tile element (R50). -/
def Wave.tile (w : Wave) (t i j : Nat) : Word := SMap.get 0 w.tiles (2048 * t + 32 * i + j)
def Wave.setTile (w : Wave) (t i j : Nat) (x : Word) : Wave :=
  { w with tiles := SMap.set 0 w.tiles (2048 * t + 32 * i + j) x }

/-- A value's low and high registers (R52). -/
def lowWord (x : DWord) : Word := x.extractLsb' 0 32
def highWord (x : DWord) : Word := x.extractLsb' 32 32
def joinWords (hi lo : Word) : DWord := hi ++ lo

/-- A vector pair in a lane, a scalar pair (R52). -/
def Wave.vpair (w : Wave) (n l : Nat) : DWord := joinWords (w.vreg (n + 1) l) (w.vreg n l)
def Wave.spair (w : Wave) (n : Nat) : DWord := joinWords (w.sreg (n + 1)) (w.sreg n)

/-- Perform a register write. -/
def Wave.apply (w : Wave) : RegWrite → Wave
  | .v n l x => w.setV n l x
  | .s n x => w.setS n x
  | .k n l b => w.setK n (setLane (w.kreg n) l b)
  | .x n l x => w.setX n l x

/-- Perform register writes in order. -/
def Wave.applyAll (w : Wave) (ws : List RegWrite) : Wave := ws.foldl Wave.apply w

/-! ## The environment of an instruction -/

/-- What the fragment that issues an instruction sees. -/
structure Env where
  wk : Nat
  fid : Nat
  wave : Wave
  frag : Frag
  wg : Workgroup
  launch : Launch
  /-- The instruction's extension word. -/
  ext : Option DWord
  /-- active(F) (R32). -/
  active : LaneMask
  /-- The lanes that execute: active and passing the predicate (R93). -/
  lanes : LaneMask

/-- WGX, WGY, WGZ of a workgroup's linear index (R25). -/
def wgCoord (la : Launch) (i : Nat) : Nat × Nat × Nat := (i % la.gridX, i / la.gridX % la.gridY, i / la.gridX / la.gridY)

/-- Packages in the launch (R45). -/
def Launch.npkg (la : Launch) : Nat := max 1 la.pkgs.length

/-- A special operand's 32-bit value in a lane (R65, R94). -/
def specialValue (w : Wave) (wg : Workgroup) (la : Launch) (p : Special) (lane : Nat) : Nat :=
  match p with
  | .lane => lane
  | .slice => lane / 4
  | .wave => w.no
  | .wgx => (wgCoord la wg.index).1
  | .wgy => (wgCoord la wg.index).2.1
  | .wgz => (wgCoord la wg.index).2.2
  | .crank => wg.crank
  | .stage => wg.stage
  | .ngx => la.gridX
  | .ngy => la.gridY
  | .ngz => la.gridZ
  | .ncl => la.ncl
  | .nwave => la.waves
  | .nstage => la.nstage
  | .prank => la.rank
  | .npkg => la.npkg
  | .quad => w.no % 4
  | .core => wg.core
  | .die => dieOf wg.core
  | .kdatalo => fieldOf la.kdata 0 32
  | .kdatahi => fieldOf la.kdata 32 32
  | .launch => la.lid.toNat

/-- A special operand's value under a type: extended in a 64-bit position, sign-extended under s64 (R113); elsewhere
its 32 bits as one register (R112). DESIGN CHOICE (log 98): R113 gives s64 and z64 only; in an f64 position the 32 bits are
zero-extended. -/
def specialUnder (t : Ty) (x : Nat) : DWord :=
  if t = .s64 then (BitVec.ofNat 32 x).signExtend 64 else BitVec.ofNat 64 x

/-- An index register's value under a type: sign-extended, in every element (R112). -/
def indexUnder (t : Ty) (x : BitVec 16) : DWord := t.spread (x.toInt % 2 ^ t.width).toNat

/-- The value an operand supplies to a lane under a type (R94 to R96, R112, R113); 0 where it supplies none. -/
def Env.read (e : Env) (t : Ty) (o : Operand) (lane : Nat) : DWord :=
  match o with
  | .v n => if t.regs = 2 then e.wave.vpair n.toNat lane else (e.wave.vreg n.toNat lane).zeroExtend 64
  | .s n => if t.regs = 2 then e.wave.spair n.toNat else (e.wave.sreg n.toNat).zeroExtend 64
  | .k _ => 0
  | .x n => indexUnder t (e.wave.xreg n.toNat lane)
  | .special p => specialUnder t (specialValue e.wave e.wg e.launch p lane)
  | .reservedA _ => 0
  | .int n => t.spread (inlineIntElem t n.toNat)
  | .neg n => t.spread (inlineIntElem t (-(n.toNat : Int) - 1))
  | .flt n => t.spread (inlineFloatElem t n)
  | .reservedB _ => 0
  | .none => 0
  | .lit => if t.regs = 2 then e.ext.getD 0 else ((e.ext.getD 0).extractLsb' 0 32).zeroExtend 64

/-- A 32-bit unsigned operand value in a lane. -/
def Env.readZ (e : Env) (o : Operand) (lane : Nat) : Nat := (e.read .z32 o lane).toNat

/-- A reference operand's value in a lane (R200). -/
def Env.readRef (e : Env) (o : Operand) (lane : Nat) : DWord := e.read .z64 o lane

/-- The lane whose number and slice a once-per-fragment form reads: the lowest that executes (R111, R340). -/
def Env.first (e : Env) : Nat := lowestLane e.lanes

/-- The core on which the wave runs. -/
def Env.core (e : Env) : Nat := e.wg.core

/-- The current domain as a number (R63). -/
def Env.dom (e : Env) : Nat := e.wave.dom.toNat

/-- The bit a predicate operand holds in a lane. -/
def Env.pbit (e : Env) (o : Operand) (lane : Nat) : Bool :=
  match o with
  | .k n => (e.wave.kreg n.toNat).getLsbD lane
  | _ => false

/-! ## Destinations (R97) -/

/-- The writes of a 32-bit or 64-bit value to a destination in a lane: a register or pair by the type's width; a
scalar register once. 0x1FE discards. -/
def writeTo (t : Ty) (d : Operand) (lane : Nat) (x : DWord) : List RegWrite :=
  match d with
  | .v n =>
    if t.regs = 2 then [.v n.toNat lane (lowWord x), .v (n.toNat + 1) lane (highWord x)]
    else [.v n.toNat lane (lowWord x)]
  | .s n => if t.regs = 2 then [.s n.toNat (lowWord x), .s (n.toNat + 1) (highWord x)] else [.s n.toNat (lowWord x)]
  | .x n => [.x n.toNat lane (x.extractLsb' 0 16)]
  | _ => []

/-- The write of a predicate bit in a lane. -/
def writeP (d : Operand) (lane : Nat) (b : Bool) : List RegWrite :=
  match d with
  | .k n => [.k n.toNat lane b]
  | _ => []

/-- Successive 32-bit registers from a base register on, in a lane. -/
def writeRun (d : Operand) (lane : Nat) (xs : List Word) : List RegWrite :=
  match d with
  | .v n => (List.range xs.length).map fun i => .v (n.toNat + i) lane (xs.getD i 0)
  | .s n => (List.range xs.length).map fun i => .s (n.toNat + i) (xs.getD i 0)
  | _ => []

/-- Successive 32-bit registers from a base register on, read in a lane. -/
def Env.readRun (e : Env) (o : Operand) (lane count : Nat) : List Word :=
  match o with
  | .v n => (List.range count).map fun i => e.wave.vreg (n.toNat + i) lane
  | .s n => (List.range count).map fun i => e.wave.sreg (n.toNat + i)
  | _ => List.replicate count 0

end Sys2Proof.Machine
end

