-- ==== Sys2Proof/Machine/Ports.lean ====
section
/-!
DEFINITION. Obton flits and ports, and the packets that go to other packages (R377, R381, R382, R497, R498).
-/

namespace Sys2Proof.Machine

/-! ## CRC-32 (R381, R388) -/

/-- A number in bytes off to off + n - 1 of a value, little-endian; bytes that the value does not have count as 0. -/
def numAt (v : List Byte) (off n : Nat) : Nat := natOfBytes ((v.drop off).take n)

/-- One bit of CRC-32 with the IEEE 802.3 polynomial, least significant bit first. -/
def crcBit (c : Word) : Word := if c.getLsbD 0 then (c >>> 1) ^^^ 0xEDB88320#32 else c >>> 1

/-- CRC-32 of bytes: initial value and final inversion all ones. -/
def crc32 (bs : List Byte) : Word :=
  ~~~(bs.foldl (fun c b => (List.range 8).foldl (fun c _ => crcBit c) (c ^^^ b.zeroExtend 32)) (BitVec.allOnes 32))

/-! ## Flits (R381) -/

/-- First word of a flit. -/
def flitWord (bs : List Byte) : Nat := numAt bs 0 4
def flitSeq (bs : List Byte) : BitVec 10 := BitVec.ofNat 10 (flitWord bs / 2 ^ 22)
def flitVc (bs : List Byte) : Nat := flitWord bs / 2 ^ 20 % 4
def flitKind (bs : List Byte) : Nat := flitWord bs / 2 ^ 16 % 16

/-- The CRC of 256 bytes holds. -/
def flitGood (bs : List Byte) : Bool :=
  decide (bs.length = 256) && crc32 (bs.take 252) == BitVec.ofNat 32 (numAt bs 252 4)

/-- A flit from its fields and 248 payload bytes. -/
def mkFlit (seq : BitVec 10) (vc kind : Nat) (payload : List Byte) : List Byte :=
  let body := bytesOfNat 4 (seq.toNat * 2 ^ 22 + vc * 2 ^ 20 + kind * 2 ^ 16) ++ payload
  body ++ bytesOfNat 4 (crc32 body).toNat

/-- The same flit under another sequence number. -/
def renumber (seq : BitVec 10) (bs : List Byte) : List Byte := mkFlit seq (flitVc bs) (flitKind bs) ((bs.drop 4).take 248)

/-- An acknowledge or replay request that names a sequence number. -/
def controlFlit (kind : Nat) (seq : BitVec 10) : List Byte := mkFlit seq 0 kind (List.replicate 248 0)

/-! ## Ports (R497) -/

/-- The package number of this package (R377). -/
def State.myPackage (s : State) : BitVec 6 := (s.reg 0x0030).extractLsb' 0 6

/-- Offset of OBPORT p. -/
def portReg (p : Nat) : Nat := 0x0A00 + 8 * p
def State.portState (s : State) (p : Nat) : Nat := fieldOf (s.reg (portReg p)) 62 2
def State.portPeer (s : State) (p : Nat) : BitVec 6 := (s.reg (portReg p)).extractLsb' 50 6

/-- Store STATE, LANES and PEER of a port, keeping REPLAY. -/
def State.setPort (s : State) (p state lanes : Nat) (peer : BitVec 6) : State :=
  s.setReg (portReg p) (BitVec.ofNat 64 (state * 2 ^ 62 + lanes * 2 ^ 59 + peer.toNat * 2 ^ 50) |||
    (s.reg (portReg p) &&& 0xFFFFFFFFFFFF#64))

/-- The port's running state. -/
def State.port (s : State) (p : Nat) : ObPort := (s.ports.find? p).getD ⟨0, 0, [], [], []⟩

/-- Change a port's running state. -/
def State.modPort (s : State) (p : Nat) (f : ObPort → ObPort) : State := { s with ports := s.ports.insert p (f (s.port p)) }

/-- The far end of a port has the number that PKGID gives this package (R377). -/
def State.portLoops (s : State) (p : Nat) : Bool := (s.reg 0x0030).getLsbD 63 && s.portPeer p == s.myPackage

/-- The port carries packets: it is up, PKGID has been written and its far end is another package (R377, R497); in recovery and
after a halt no port answers (R390, R433). -/
def State.portCarries (s : State) (p : Nat) : Bool :=
  decide (p < 36 ∧ s.portState p = 2) && (s.reg 0x0030).getLsbD 63 && !s.portLoops p && !s.recovery && !s.halted

/-- Send a flit on a port. -/
def State.sendFlit (s : State) (p : Nat) (bs : List Byte) : State := { s with outbox := s.outbox ++ [.flit p bs] }

/-- Send flits on a port after those it keeps, under its own sequence numbers; it keeps them until they are
acknowledged. -/
def State.pushFlits (s : State) (p : Nat) (fs : List (List Byte)) : State :=
  fs.foldl (fun s f =>
    let g := renumber (s.port p).nextSeq f
    (s.modPort p fun x => { x with nextSeq := x.nextSeq + 1, unacked := x.unacked ++ [g] }).sendFlit p g) s

/-! ## Packets to other packages (R382, R383, R498) -/

/-- The port that takes the next flit of a packet: one of those that reach the package, by a free choice for the packet, if that one
keeps fewer than 512 flits and the receiver is ready on the VC (R382, R383). -/
def State.portFor (s : State) (t : Traffic) : Option Nat :=
  let ports := (List.range 36).filter fun p => s.portCarries p && s.portPeer p == t.pkg
  match ports[Config.freeChoice t.path % max 1 ports.length]? with
  | none => none
  | some p => if (s.port p).unacked.length < 512 ∧ Config.vcReady p t.vc s.tick then some p else none

/-- Give the waiting flits to the ports that can take them, in order within a VC to a package; the last flit of a packet
sends what the packet says. -/
def State.pump (s : State) : State :=
  s.traffic.foldl (fun s t =>
    if s.traffic.any fun u => u.pkg == t.pkg && u.vc == t.vc then { s with traffic := s.traffic ++ [t] }
    else
      match s.portFor t with
      | none => { s with traffic := s.traffic ++ [t] }
      | some p =>
        let s := s.pushFlits p [mkFlit 0 t.vc 0 t.payload]
        { s with outbox := s.outbox ++ t.message.toList }) { s with traffic := [] }

/-- Flits that a packet of n bytes takes. -/
def flitCount (n : Nat) : Nat := max 1 ((n + 247) / 248)

/-- Send a launch or control packet of n bytes to a package. The manual gives no form for the packets, so their bytes are
free values. -/
def State.sendPacket (s : State) (pkg : BitVec 6) (n : Nat) (message : Outgoing) : State :=
  let m := flitCount n
  let payload (i : Nat) : List Byte := (List.range 248).map fun j => Config.freeByte (s.freeCount + i) j
  { s with freeCount := s.freeCount + m,
           traffic := s.traffic ++ (List.range m).map fun i =>
      (⟨pkg, 3, payload i, s.freeCount, if i + 1 = m then some message else none⟩ : Traffic) }.pump

/-- Send a packet to each of several packages. -/
def State.sendAll (s : State) (pkgs : List (BitVec 6)) (n : Nat) (message : BitVec 6 → Outgoing) : State :=
  pkgs.foldl (fun s p => s.sendPacket p n (message p)) s

end Sys2Proof.Machine
end

