-- ==== Sys2Proof/Machine/Kill.lean ====
section
/-!
DEFINITION. Rings that the device writes (R352, R425), fault ring records (R426), what a wave releases when it ends,
and kills (R422, R423).
-/

namespace Sys2Proof.Machine

/-! ## Rings -/

/-- A ring with a 64-byte header: physical base, entry count, bytes per record. -/
structure Ring where
  base : Nat
  entries : Nat
  size : Nat

/-- Produced records not yet consumed (R352). -/
def State.ringLevel (s : State) (r : Ring) : Nat :=
  (s.word64 r.base - s.word64 (r.base + 8)).toNat

/-- The ring is full (R352, R425). -/
def State.ringFull (s : State) (r : Ring) : Bool := decide (s.ringLevel r = r.entries)

/-- Write a record and advance the producer count; a full ring drops it and counts the drop (R352, R425). -/
def State.ringWrite (s : State) (r : Ring) (record : List Byte) : State :=
  if s.ringFull r then s.setWord64 (r.base + 16) (s.word64 (r.base + 16) + 1)
  else
    let c := (s.word64 r.base).toNat
    (s.setBytes (r.base + 64 + r.size * (c % r.entries)) record).setWord64 r.base (BitVec.ofNat 64 (c + 1))

/-- A ring the host reads: MSI-X vector n is raised when a record is written while the counts are equal (R425). -/
def State.ringNotify (s : State) (r : Ring) (vector : Nat) (record : List Byte) : State :=
  let empty := decide (s.ringLevel r = 0)
  let t := s.ringWrite r record
  if empty then { t with outbox := t.outbox ++ [.msix vector] } else t

/-! ## Fault ring records -/

/-- What a fault ring record tells (R426). -/
structure FaultInfo where
  type : Nat
  reason : Nat := 0
  ctx : Nat := 0xFFFF
  lid : Nat := 0
  wgIndex : Nat := 0xFFFFFFFF
  stage : Nat := 0
  wave : Nat := 0xFF
  core : Nat := 0xFFFF
  cause : Nat := 0
  tl : Nat := 0
  die : Nat := 0
  sources : Nat := 0
  seq : Nat := 0
  pc : Nat := 0
  tval : Nat := 0
  queue : Nat := 0xFFFF
  relaunches : Nat := 0
  dom : Nat := 0

/-- The 64 bytes of a record (R426). -/
def FaultInfo.bytes (i : FaultInfo) (counter : Nat) : List Byte :=
  bytesOfNat 1 i.type ++ bytesOfNat 1 i.reason ++ bytesOfNat 2 i.ctx ++ bytesOfNat 4 i.lid ++
    bytesOfNat 4 i.wgIndex ++ bytesOfNat 1 i.stage ++ bytesOfNat 1 i.wave ++ bytesOfNat 2 i.core ++
    bytesOfNat 1 i.cause ++ bytesOfNat 1 i.tl ++ bytesOfNat 1 i.die ++ bytesOfNat 1 i.sources ++
    bytesOfNat 4 i.seq ++ bytesOfNat 8 i.pc ++ bytesOfNat 8 i.tval ++ bytesOfNat 2 i.queue ++
    bytesOfNat 2 i.relaunches ++ bytesOfNat 4 i.dom ++ bytesOfNat 8 counter ++ bytesOfNat 8 0

/-- Write a fault ring record where FRBASE.EN is 1; otherwise it is discarded (R425). -/
def State.faultRecord (s : State) (i : FaultInfo) : State :=
  let base := s.reg 0x0700
  if base.getLsbD 63 then
    s.ringNotify ⟨fieldOf base 6 46 * 64, 2 ^ fieldOf (s.reg 0x0708) 0 5, 64⟩ 0 (i.bytes (s.counter i.die).toNat)
  else s

/-- The queue that carried a launch here; 0xFFFF for a launch that another package accepted (R426). -/
def Launch.queueNo (la : Launch) : Nat := if la.accepting then 2048 * la.die.toNat + la.queue.toNat else 0xFFFF

/-- A record about a wave: the wave that decided the kill (R426). -/
def waveFault (w : Wave) (wg : Workgroup) (la : Launch) (type reason cause tl : Nat) (pc : CodeAddr) (tval : DWord) :
    FaultInfo :=
  { type := type, reason := reason, ctx := la.ctx.toNat, lid := la.lid.toNat, wgIndex := wg.index, stage := wg.stage,
    wave := w.no, core := wg.core, cause := cause, tl := tl, die := dieOf wg.core, seq := la.seq.toNat,
    pc := pc.toNat, tval := tval.toNat, queue := la.queueNo,
    relaunches := SMap.get 0 la.relaunches wg.cluster, dom := w.dom.toNat }

/-- A record about a launch with no deciding wave. -/
def launchFault (la : Launch) (type reason cause : Nat) : FaultInfo :=
  { type := type, reason := reason, ctx := la.ctx.toNat, lid := la.lid.toNat, cause := cause, die := la.die.toNat,
    seq := la.seq.toNat, queue := la.queueNo, dom := la.dom.toNat }

/-! ## Contexts and their slices (R352, R360) -/

/-- A context's scheduling state, with the defaults of R350. -/
def Context.default : Context :=
  { weight := 16, slice := 100, pool := none, notifyq := none, traceq := none, swappedOut := false, swapComplete := [],
    debt := 0, issue := [], members := [], rounds := [], slices := [], sliceEnded := [], noSwap := [] }

/-- The context. -/
def State.context (s : State) (ctx : Nat) : Context := (s.contexts.find? ctx).getD Context.default

/-- Change a context, listing it. -/
def State.modContext (s : State) (ctx : Nat) (f : Context → Context) : State :=
  { s with contexts := s.contexts.insert ctx (f (s.context ctx)) }

/-- The context of a workgroup. -/
def State.ctxOf (s : State) (wg : Workgroup) : Option Nat := (s.launches.find? wg.launch).map fun la => la.ctx.toNat

/-- The step phase of a pre-emption is on; true when its 4,096 clocks are over. -/
def Workgroup.stepping (g : Workgroup) : Option Bool :=
  match g.phase with
  | .stepping isOver _ => some isOver
  | _ => none

/-- The workgroup is resident on its core: it runs, or is in a step phase. -/
def Workgroup.resident (g : Workgroup) : Bool := g.phase == .running || g.stepping.isSome

/-- Contexts resident on a core. -/
def State.residentContexts (s : State) (core : Nat) : List Nat :=
  (s.workgroups.filterMap fun x =>
    if x.2.resident ∧ x.2.core = core then s.ctxOf x.2 else none).eraseDups

/-- A context that no longer stands on a core has no slice there (R360). -/
def State.dropSlice (s : State) (ctx core : Nat) : State :=
  if (s.residentContexts core).contains ctx then s
  else { s with contexts := s.contexts.modify ctx fun c =>
    { c with slices := c.slices.erase core, sliceEnded := c.sliceEnded.filter fun x => x != core } }

/-! ## What a wave releases -/

/-- The live slot of a generation in a BVH's control block, whose slots lie at bytes 32 + 16m (R301). -/
def State.genSlot (s : State) (dom : Nat) (e : ObjEntry) (gen : Nat) : Option Nat :=
  (List.range 8).find? fun m =>
    natOfBytes (s.bytes (s.addrOf dom e (32 + 16 * m)) 4) == gen && (s.byte (s.addrOf dom e (44 + 16 * m))).getLsbD 0

/-- Change a generation's PINS (R304). -/
def State.modPins (s : State) (dom : Nat) (e : ObjEntry) (gen : Word) (f : Nat → Nat) : State :=
  match s.genSlot dom e gen.toNat with
  | some m =>
    let a := s.addrOf dom e (36 + 16 * m)
    s.setBytes a (bytesOfNat 4 (f (natOfBytes (s.bytes a 4))))
  | none => s

/-- Subtract from a generation's PINS (R304). -/
def State.unpinGeneration (s : State) (dom : Nat) (ref : DWord) (gen : Word) (count : Nat) : State :=
  s.modPins dom (s.tableEntry dom (refIndex ref)) gen fun n => n - count

/-- Clear a save-slot bit: bit k mod 64 of the word at byte 8 (k / 64) of the Save area object (R330). -/
def State.clearSlot (s : State) (dom obj k : Nat) : State :=
  let e := s.tableEntry dom obj
  let a := s.addrOf dom e (8 * (k / 64))
  s.setWord64 a (s.word64 a &&& ~~~(BitVec.ofNat 64 (2 ^ (k % 64))))

/-- The callee domains of a wave's gate stack entries, top first: the current domain, then each saved caller's. -/
def gateDomains (w : Wave) : List (GateEntry × BitVec 16) := w.gates.zip (w.dom :: w.gates.map fun g => g.dom)

/-- Release what a wave holds when it ends: its accumulator claim, lend count, ray pins and save-slot bits
(R53, R260, R304, R330, R423). Weight pins are the wave's own counts (R282). -/
def State.releaseWave (s : State) (wk : Nat) (w : Wave) (core : Nat) : State :=
  let s := { s with claims := s.claims.filter fun c => c.2 != wk,
                    lends := SMap.set 0 s.lends core (SMap.get 0 s.lends core - w.lend.toNat) }
  let s := w.rayPins.foldl (fun s p => s.unpinGeneration p.1.toNat p.2.1 p.2.2.1 p.2.2.2) s
  let s := w.rays.foldl (fun s r => s.unpinGeneration r.2.dom.toNat r.2.ref r.2.gen 1) s
  (gateDomains w).foldl (fun s g => s.clearSlot g.2.toNat g.1.saveObj.toNat g.1.slot.toNat) s

/-! ## Kills -/

/-- The wave keys of a workgroup. -/
def waveKeys (g waves : Nat) : List Nat := (List.range waves).map fun w => 16 * g + w

/-- Stop every engine operation and pending store of the waves that satisfy p (R423). DESIGN CHOICE (log 123): the bytes of a
node pool that a stopped builder operation has reserved are not given back. -/
def State.stopEngines (s : State) (p : Nat → Bool) : State :=
  { s with storeQ := s.storeQ.filter fun x => !p x.agent.wave,
           copies := s.copies.filter fun x => !p x.wave,
           matOps := s.matOps.filter fun x => !p x.wave,
           sharedB := s.sharedB.filter fun x => !p x.wave,
           builds := s.builds.filter fun x => !p x.wave,
           colls := s.colls.filter fun x => !p x.wave || x.lost }

/-- The 64 KiB units of a pool that the image of a workgroup takes (R368, R369). -/
def Launch.imageUnits (la : Launch) : Nat := (0x1000 + la.scratch + 0x32000 * la.waves + 65535) / 65536

/-- Set or clear the bits of n units from `first` in the bitmap that opens a pool (R368). -/
def State.markUnits (s : State) (pool first n : Nat) (used : Bool) : State :=
  (List.range n).foldl (fun s i =>
    let a := pool + (first + i) / 8
    let bit : Byte := BitVec.ofNat 8 (2 ^ ((first + i) % 8))
    s.setByte a (if used then s.byte a ||| bit else s.byte a &&& ~~~bit)) s

/-- Give the pool units of a launch's image at an address back (R368); its context may be chosen for swap-out again
(R496). -/
def State.freeImage (s : State) (la : Launch) (base : Nat) : State :=
  match (s.contexts.find? la.ctx.toNat).bind fun c => c.pool with
  | none => s
  | some (pool, _) =>
    let s := s.markUnits pool ((base - pool) / 65536) la.imageUnits false
    { s with contexts := s.contexts.modify la.ctx.toNat fun c => { c with noSwap := [] } }

/-- A sector of the bitmap of a context's save pool cannot be read (R422). -/
def State.poolBad (s : State) (ctx : Nat) : Bool :=
  match (s.context ctx).pool with
  | some (pool, size) => s.anyPoison pool ((size / 65536 + 7) / 8)
  | none => false

/-- Remove a workgroup with its waves and save image (R423); the lend counts of a swapped-out wave have left its core
already. -/
def State.removeWorkgroup (s : State) (g : Nat) : State :=
  match s.workgroups.find? g with
  | none => s
  | some wg =>
    let base := match wg.phase with
      | .saved base => some base
      | _ => none
    let s := match base, s.launches.find? wg.launch with
      | some base, some la => s.freeImage la base
      | _, _ => s
    let s := (s.waves.filter fun x => decide (x.1 / 16 = g)).foldl
      (fun s x => s.releaseWave x.1 (if base.isSome then { x.2 with lend := 0 } else x.2) wg.core) s
    let s := { s with waves := s.waves.filter fun x => decide (x.1 / 16 ≠ g), workgroups := s.workgroups.erase g }
    match s.ctxOf wg with
    | some ctx => s.dropSlice ctx wg.core
    | none => s

/-- Kill the workgroups that satisfy p. -/
def State.killWorkgroups (s : State) (p : Nat → Workgroup → Bool) : State :=
  let dead := (s.workgroups.filter fun x => p x.1 x.2).map fun x => x.1
  let s := s.stopEngines fun wk => dead.contains (wk / 16)
  dead.foldl State.removeWorkgroup s

/-- Clear VALID in a queue's descriptor (R345, R423). -/
def State.invalidateQueue (s : State) (die q : Nat) : State :=
  let base := fieldOf (s.reg (0x0010 + 8 * die)) 12 40 * 4096
  if base = 0 then s
  else
    let a := base + 64 * q
    s.setWord64 a (s.word64 a &&& ~~~(1#64))

/-- Mark a launch killed: it writes no COMPLETE and counts as ended (R423). -/
def State.markKilled (s : State) (n : Nat) : State :=
  { s with launches := s.launches.modify n fun la => { la with ended := true, killed := true, queues := [] } }

/-- Clear VALID of the queue that carried a launch, which stands on the accepting package. -/
def State.dropQueue (s : State) (la : Launch) : State :=
  if la.accepting then s.invalidateQueue la.die.toNat la.queue.toNat else s

/-- The other packages of a launch that spans several. -/
def State.otherPackages (s : State) (la : Launch) : List (BitVec 6) :=
  la.pkgs.filter fun p => p != s.myPackage

/-- Bytes that a message of the device to another package is taken to have; its form is not given. -/
def messageBytes : Nat := 8

/-- Kill a context: one record, every workgroup and launch of it, and VALID of every queue whose CTX it is; its
multi-package launches are killed on the other packages (R422, R423). -/
def State.killContext (s : State) (ctx : Nat) (info : FaultInfo) : State :=
  let s := s.faultRecord { info with type := 1, ctx := ctx }
  let mine := (s.launches.filter fun x => decide (x.2.ctx.toNat = ctx) && !x.2.ended).map fun x => x.1
  let s := s.killWorkgroups fun _ wg => mine.contains wg.launch
  let others := (s.launches.filter fun x => mine.contains x.1).flatMap fun x => s.otherPackages x.2
  let s := s.sendAll others.eraseDups messageBytes fun p => .contextKill p (BitVec.ofNat 12 ctx)
  let s := mine.foldl State.markKilled s
  (List.range 4).foldl (fun s d =>
    let base := fieldOf (s.reg (0x0010 + 8 * d)) 12 40 * 4096
    if base = 0 then s
    else ((List.range 2048).filter fun q =>
        (s.word64 (base + 64 * q)).getLsbD 0 && decide (fieldOf (s.word64 (base + 64 * q + 24)) 0 12 = ctx)).foldl
      (fun s q => s.invalidateQueue d q) s) s

/-- Kill the workgroups that satisfy p, all of the context of one launch; where one of them has a save image and the bitmap of the
pool, in which its units are freed, cannot be read, the context is killed as well (R422, R368). -/
def State.killSome (s : State) (la : Launch) (p : Nat → Workgroup → Bool) : State :=
  let bad := s.poolBad la.ctx.toNat && s.workgroups.any fun x => p x.1 x.2 && (match x.2.phase with
    | .saved _ => true
    | _ => false)
  let t := s.killWorkgroups p
  if bad then t.killContext la.ctx.toNat (launchFault la 1 4 0) else t

/-- Kill a launch on this package: record, waves, queue (R422, R423). -/
def State.killHere (s : State) (n : Nat) (info : FaultInfo) : State :=
  match s.launches.find? n with
  | none => s
  | some la =>
    if la.ended then s
    else (((s.faultRecord { info with type := 2 }).dropQueue la).markKilled n).killSome la fun _ wg => decide (wg.launch = n)

/-- Kill a launch, on every package of it (R422). -/
def State.killLaunch (s : State) (n : Nat) (info : FaultInfo) : State :=
  match s.launches.find? n with
  | none => s
  | some la =>
    if la.ended then s
    else
      match la.startGen with
      | none => s.killHere n info
      | some g => (s.killHere n info).sendAll (s.otherPackages la) messageBytes fun p => .launchKill p g

/-- Uncorrectable damage to a workgroup's state: its cluster is relaunched where R429 allows it and R431 does not
forbid it, else its launch is killed (R422, R429 to R431, R464). -/
def State.damage (s : State) (g : Nat) (w : Wave) (cause : Nat) (pc : CodeAddr) : State :=
  match s.workgroups.find? g with
  | none => s
  | some wg =>
    match s.launches.find? wg.launch with
    | none => s
    | some la =>
      let inCluster (x : Workgroup) : Bool := decide (x.launch = wg.launch ∧ x.cluster = wg.cluster)
      let members := (s.workgroups.filter fun x => inCluster x.2).map fun x => x.1
      let gated := s.waves.any fun x => members.contains (x.1 / 16) && !x.2.gates.isEmpty
      let key (x : Workgroup) : Nat := x.index + la.gridX * la.gridY * la.gridZ * x.stage
      let gotToken := la.det && s.workgroups.any fun x => inCluster x.2 && decide (key x.2 ≤ la.token)
      let count := SMap.get 0 la.relaunches wg.cluster
      let allowed := la.idempotent && decide (la.nstage = 1) && la.rasters.isEmpty && !la.usedColl && !gated && !gotToken
      if !allowed then s.killLaunch wg.launch (waveFault w wg la 2 3 cause (fieldOf w.status 0 2) pc 0)
      else if 2 ≤ count then s.killLaunch wg.launch (waveFault w wg la 2 5 cause (fieldOf w.status 0 2) pc 0)
      else
        let again := (List.range la.ncl).map fun r => key { wg with index := wg.index / max 1 la.ncl * la.ncl + r }
        let s := s.faultRecord { waveFault w wg la 3 0 cause (fieldOf w.status 0 2) pc 0 with relaunches := count + 1 }
        let s := s.killSome la fun _ x => inCluster x
        let note (la : Launch) : Launch :=
          { la with relaunch := la.relaunch ++ [wg.cluster], endedKeys := la.endedKeys.filter fun k => !again.contains k,
                    relaunches := SMap.set 0 la.relaunches wg.cluster (count + 1) }
        { s with launches := s.launches.modify wg.launch fun la => if la.ended then la else note la }

end Sys2Proof.Machine
end

