-- ==== Sys2Proof/Machine/Tensor.lean ====
section
/-!
DEFINITION. Tensor descriptors (R70, R71), layouts (R72, R195, R196), and where an access finds its bytes while a
conversion is pending (R198, R199).
-/

namespace Sys2Proof.Machine

/-- The fields of a tensor descriptor (R70). -/
structure Tensor where
  addr : Nat
  qv : Bool
  qlayout : Nat
  pend : Bool
  target : Nat
  current : Nat
  etype : Nat
  rank : Nat
  dims : List Nat
  bitmap : Nat
  tiles : Nat

/-- Read a tensor descriptor. -/
def State.tensorAt (s : State) (a : Nat) : Tensor :=
  let w := s.word64 a
  { addr := a, qv := w.getLsbD 24, qlayout := fieldOf w 20 4, pend := w.getLsbD 16, target := fieldOf w 12 4,
    current := fieldOf w 8 4, etype := fieldOf w 4 4, rank := fieldOf w 0 3,
    dims := (List.range 4).map fun k => natOfBytes (s.bytes (a + 8 + 4 * k) 4),
    bitmap := (s.word64 (a + 24)).toNat, tiles := (s.word64 (a + 32)).toNat }

/-- The tensor an entry names. -/
def State.tensor (s : State) (e : ObjEntry) : Tensor := s.tensorAt e.tdesc

/-- The layout that the entry's LAYOUT names: TARGET while PEND is 1 (R70). -/
def Tensor.layout (t : Tensor) : Nat := if t.pend then t.target else t.current

/-- Extent of a dimension. -/
def Tensor.dim (t : Tensor) (k : Nat) : Nat := t.dims.getD k 1

/-- Element size in nibbles by ETYPE (R71). DESIGN CHOICE (log 99): an element of the reserved ETYPE 15 counts one byte. -/
def etypeNibbles (etype : Nat) : Nat :=
  match etype with
  | 2 | 3 | 6 | 7 => 4
  | 4 | 5 | 8 => 8
  | 11 | 12 | 13 => 1
  | 14 => 16
  | _ => 2

/-- Tile edge of a layout tag (R195). -/
def tileEdge (tag : Nat) : Nat := if tag = 2 then 8 else if tag = 3 ∨ tag = 4 then 32 else 1

/-- n rounded up to a multiple of t. -/
def roundUp (n t : Nat) : Nat := (n + t - 1) / t * t

/-- The low three bits of a and b interleaved, a's in the even positions (R195 tag 2). -/
def interleave3 (a b : Nat) : Nat :=
  (List.range 3).foldl (fun acc i => acc + a / 2 ^ i % 2 * 4 ^ i + b / 2 ^ i % 2 * (2 * 4 ^ i)) 0

/-- Position of an element in elements (R195, tags 0 to 4). -/
def Tensor.position (t : Tensor) (tag i0 i1 i2 i3 : Nat) : Nat :=
  let b := i2 + t.dim 2 * i3
  let e0 := roundUp (t.dim 0) (tileEdge tag)
  let e1 := roundUp (t.dim 1) (tileEdge tag)
  match tag with
  | 0 => i0 + t.dim 0 * (i1 + t.dim 1 * b)
  | 1 => i1 + t.dim 1 * (i0 + t.dim 0 * b)
  | 2 => 64 * (i0 / 8 + e0 / 8 * (i1 / 8) + e0 * e1 / 64 * b) + interleave3 (i0 % 8) (i1 % 8)
  | 3 => 1024 * (i0 / 32 + e0 / 32 * (i1 / 32) + e0 * e1 / 1024 * b) + 32 * (i1 % 32) + i0 % 32
  | _ => 1024 * (i0 / 32 + e0 / 32 * (i1 / 32)) + 256 * (i0 % 32 / 8) + 8 * (i1 % 32) + i0 % 8

/-- Bytes of a block under tag 5 (R195). -/
def Tensor.blockBytes (t : Tensor) : Nat := if t.etype = 11 then 17 else 33

/-- Place of an element under a layout tag, in nibbles from byte 0 (R195). -/
def Tensor.nibble (t : Tensor) (tag i0 i1 i2 i3 : Nat) : Nat :=
  if tag = 5 then
    let k := i0 / 32 + t.dim 0 / 32 * (i1 + t.dim 1 * (i2 + t.dim 2 * i3))
    2 * (t.blockBytes * k) + i0 % 32 * etypeNibbles t.etype
  else t.position tag i0 i1 i2 i3 * etypeNibbles t.etype

/-- Byte of the scale of an element's block under tag 5 (R195). -/
def Tensor.scaleByte (t : Tensor) (i0 i1 i2 i3 : Nat) : Nat :=
  t.blockBytes * (i0 / 32 + t.dim 0 / 32 * (i1 + t.dim 1 * (i2 + t.dim 2 * i3))) + t.blockBytes - 1

/-- Size of a layout in bytes (R196). -/
def Tensor.sizeOf (t : Tensor) (tag : Nat) : Nat :=
  if tag = 5 then t.blockBytes * (t.dim 0 / 32 * t.dim 1 * t.dim 2 * t.dim 3)
  else
    let e (k : Nat) := roundUp (t.dim k) (tileEdge tag)
    (e 0 * e 1 * t.dim 2 * t.dim 3 * etypeNibbles t.etype + 1) / 2

/-- A layout tag admits the tensor's element type and rank (R72). -/
def Tensor.admits (t : Tensor) (tag : Nat) : Bool :=
  match tag with
  | 0 => true
  | 1 => decide (2 ≤ t.rank)
  | 2 => !(t.etype == 11 || t.etype == 12 || t.etype == 13) && decide (2 ≤ t.rank)
  | 3 => decide (2 ≤ t.rank)
  | 4 => (t.etype == 0 || t.etype == 1 || t.etype == 6 || t.etype == 7 || t.etype == 9 || t.etype == 10 || t.etype == 11) &&
      decide (t.rank = 2)
  | 5 => (t.etype == 9 || t.etype == 10 || t.etype == 11) && decide (t.dim 0 % 32 = 0)
  | _ => false

/-- Every coordinate is below its extent, and those beyond RANK are 0 (R178 step 5, R206). -/
def Tensor.inside (t : Tensor) (cs : List Nat) : Bool :=
  (List.range 4).all fun k => if k < t.rank then decide (cs.getD k 0 < t.dim k) else cs.getD k 0 == 0

/-- The bit of a tile in the conversion bitmap (R70). -/
def State.tileDone (s : State) (t : Tensor) (tile : Nat) : Bool :=
  (s.byte (t.bitmap + tile / 8)).getLsbD (tile % 8)

/-- The conversion in progress on a descriptor. -/
def State.convOf (s : State) (desc : Nat) : Option Conv := s.convs.find? fun c => c.desc == desc

/-- The number under which requests name granule g of the source of a conversion (R197 step 1), which the object's extent map
no longer holds. -/
def sourceBase : Nat := 2 ^ 32

/-- The word of a granule that a request names: of the extent map, or of the source of the tensor's conversion. -/
def State.needWord (s : State) (e : ObjEntry) (g : Nat) : DWord :=
  if g < sourceBase then s.granuleWord e.extroot g
  else
    match s.convOf e.tdesc with
    | some c => SMap.get 0 c.source (g - sourceBase)
    | none => 0

/-- A port carries packets to the package of an address, or the address is this package's own; what reaches for a lost
package is answered at once (R377, R500). -/
def State.linked (s : State) (a : Nat) : Bool :=
  !onOtherPackage a || s.lost a || (List.range 36).any fun p => s.portCarries p && s.portPeer p == BitVec.ofNat 6 (a / 2 ^ 45)

/-- Address of a byte of the CURRENT layout while its tensor is being converted (R197 step 1); none while its granule is not
resident (R190, R471). -/
def State.sourceAddr (s : State) (dom : Nat) (e : ObjEntry) (off : Nat) : Option Nat :=
  let w := s.needWord e (sourceBase + off / 65536)
  if s.granUsable e w then
    let a := granFrame w * 65536 + off % 65536
    some (if granTier w = 2 then hostBase * (1 + s.pasid dom) + a else a)
  else none

/-- The packages of n bytes of an object can be reached (R377). -/
def State.linkedRange (s : State) (dom : Nat) (e : ObjEntry) (off n : Nat) : Bool :=
  (List.range ((off + n - 1) / 65536 + 1 - off / 65536)).all fun i => s.linked (s.addrOf dom e (65536 * (off / 65536 + i)))

/-- Byte offset of an object as an address, where the granules of n bytes are resident and their packages can be reached (R189,
R377). DESIGN CHOICE (log 129): an access to a package that no port carries waits. -/
def State.residentAddr (s : State) (dom : Nat) (e : ObjEntry) (off n : Nat) : Option Nat :=
  if s.residentRange e off n && s.linkedRange dom e off n then some (s.addrOf dom e off) else none

/-- Where a tensor's element lies: an address and which nibble of its byte (0 the low one), or none while the access
must wait (R198). The bytes counted are the element's own. -/
def State.elemAddr (s : State) (dom : Nat) (e : ObjEntry) (c0 c1 c2 c3 : Nat) : Option (Nat × Nat) :=
  let t := s.tensor e
  let n := (etypeNibbles t.etype + 1) / 2
  let at_ (tag : Nat) := t.nibble tag c0 c1 c2 c3
  if !t.pend || s.tileDone t (at_ t.target / 2 / 4096) then
    let p := at_ t.layout
    (s.residentAddr dom e (p / 2) n).map fun a => (a, p % 2)
  else
    let p := at_ t.current
    (s.sourceAddr dom e (p / 2)).map fun a => (a, p % 2)

/-- A coordinate access that finds its element in the source of the tensor's conversion: the byte there (R198). -/
def State.sourceByte (s : State) (e : ObjEntry) (c0 c1 c2 c3 : Nat) : Option Nat :=
  let t := s.tensor e
  if t.pend && !s.tileDone t (t.nibble t.target c0 c1 c2 c3 / 2 / 4096) then some (t.nibble t.current c0 c1 c2 c3 / 2) else none

/-- The tensor is waited for by byte-addressed accesses (R199). -/
def State.converting (s : State) (e : ObjEntry) : Bool :=
  decide (e.kind = 1) && (let t := s.tensor e; t.pend || t.qv)

/-- Where a captured access finds its bytes now; none while it must wait for a granule or a conversion
(R190, R198, R199). A scratchpad access has no such address. -/
def State.accPlace (s : State) (a : Acc) : Option (Nat × Nat) :=
  match a.tgt with
  | .byte off =>
    if s.converting a.entry then none
    else (s.residentAddr a.dom.toNat a.entry off a.size).map fun x => (x, 0)
  | .elem c0 c1 c2 c3 => s.elemAddr a.dom.toNat a.entry c0 c1 c2 c3
  | .scratch _ _ => none

end Sys2Proof.Machine
end

