-- ==== Sys2Proof/Machine/Access.lean ====
section
/-!
DEFINITION. How bytes are read and written through the caches of R183: loads through a core's L1, writes at the point
of coherence (R185) with the poison they clear (R461), stores on their way there and the cache actions of acquires and
releases (R186).
-/

namespace Sys2Proof.Machine

/-! ## Loads -/

/-- A core's load of n bytes that lie in one line: from the core's L1 where it holds the line, else the line is
brought in first, through the remote data cache or the die's own L2 (R183). A held line may be stale (R186). -/
def State.loadBytes (s : State) (core a n : Nat) : State × List Byte :=
  let ls := SMap.get [] s.l1 core
  match findLine ls (lineOf a) with
  | some l => (s, (List.range n).map fun i => l.bytes.getD ((a + i) % 128) 0)
  | none =>
    let s := (s.fillRemote (dieOf core) a).noteL2 false a
    let line := s.portLine (dieOf core) (lineOf a)
    ({ s with l1 := SMap.insert s.l1 core (fillLine l1Sets l1Ways ls (lineOf a) line).1 },
      (List.range n).map fun i => line.bytes.getD ((a + i) % 128) 0)

/-- The sector of an address is poisoned as a core's load meets it: in the L1 line that holds it, else as the die's memory port
sees it (R461, R462). -/
def State.coreBad (s : State) (core a : Nat) : Bool :=
  match findLine (SMap.get [] s.l1 core) (lineOf a) with
  | some l => s.lost a || l.badAt a
  | none => s.portPoisoned (dieOf core) a

/-- Some sector of n bytes from a is poisoned as a core's load meets it. -/
def State.anyBad (s : State) (core a n : Nat) : Bool :=
  (List.range ((a + n + 31) / 32 - a / 32)).any fun i => s.coreBad core (a + 32 * i)

/-! ## Writes at the point of coherence -/

/-- Poison of the sectors that a write of n bytes from a covers whole is cleared at their home (R461). -/
def State.clearPoison (s : State) (a n : Nat) : State :=
  let first := (a + 31) / 32
  { s with poison := s.poison.filter fun x => !decide (first ≤ x.1 ∧ x.1 < (a + n) / 32) }

/-- The same for a write that a die makes: another package's line is cleared in the die's copy, which its write-back brings
home. -/
def State.clearPort (s : State) (die a n : Nat) : State :=
  if onOtherPackage a then
    let first := (a + 31) / 32
    { s with rdc := SMap.set [] s.rdc die (patchBad (SMap.get [] s.rdc die) (32 * first) (32 * ((a + n) / 32) - 32 * first) fun _ => false) }
  else s.clearPoison a n

/-- An 8-byte unit of an access that writes all of its sector has been performed: the poison goes with the sector's last unit
(R201, R461). -/
def State.clearUnit (s : State) (die a : Nat) : State :=
  match s.poison.find? (a / 32) with
  | none => s.clearPort die (a / 32 * 32) 32
  | some m =>
    let m := m ||| BitVec.ofNat 4 (2 ^ (a % 32 / 8))
    if m = 15 then { s with poison := s.poison.insert (a / 32) 0 }.clearPort die (a / 32 * 32) 32
    else { s with poison := s.poison.insert (a / 32) m }

/-- Write nibbles of one byte where it is coherent: the die's remote data cache for another package's line, marked dirty
there, else the home L2 (R185, R206). -/
def State.coherentByte (s : State) (die a : Nat) (b : Byte) (m : Nibbles) : State :=
  if onOtherPackage a then
    let s := s.fillRemote die a
    { s with rdc := SMap.insert s.rdc die (patchLine (SMap.get [] s.rdc die) a (mixNibbles m (s.portByte die a) b) m) }
  else s.setByte a (mixNibbles m (s.byte a) b)

/-- Write nibbles of bytes at their point of coherence. -/
def State.coherentBytes (s : State) (die : Nat) (m : Nibbles) : Nat → List Byte → State
  | _, [] => s
  | a, b :: r => (s.coherentByte die a b m).coherentBytes die m (a + 1) r

/-- A die's write of nibbles performed at their point of coherence, with the directory's invalidations and the poison it
clears (R185, R206, R461). -/
def State.portNibbles (s : State) (die a : Nat) (bs : List Byte) (m : Nibbles) : State :=
  ((s.coherentBytes die m a bs).homeWritten (some die) a bs.length).clearPort die a bs.length

/-- A die's write of bytes performed at their point of coherence. -/
def State.portWrite (s : State) (die a : Nat) (bs : List Byte) : State := s.portNibbles die a bs 3

/-- A write of bytes performed at their home itself, past every cache of the package (R185, R461). -/
def State.homeWrite (s : State) (a : Nat) (bs : List Byte) : State :=
  ((s.setBytes a bs).homeWritten none a bs.length).clearPoison a bs.length

/-- A core's texel cache keeps no copy of the lines that the core writes (R273). -/
def State.dropTexels (s : State) (core a n : Nat) : State :=
  { s with texel := SMap.set [] s.texel core ((SMap.get [] s.texel core).filter fun x =>
      !decide (lineOf a ≤ x.1 ∧ x.1 ≤ lineOf (a + n - 1))) }

/-- Count events in an error counter of a die: k = 0 SRAMCOR to 4 RETIRED; it saturates (R463). -/
def State.countError (s : State) (die k n : Nat) : State :=
  let off := 0x0800 + 64 * die + 8 * k
  s.setReg off (BitVec.ofNat 64 (min (2 ^ 48 - 1) ((s.reg off).toNat + n)))

/-- A write that a unit of a die makes; one to a lost package is discarded and counted (R500). -/
def State.dieWrite (s : State) (die a : Nat) (bs : List Byte) : State :=
  if s.lost a then s.countError die 3 1 else s.portWrite die a bs

/-- The core's own L1 lines hold what stands at n bytes from a: a store updates them and never allocates one (R183). -/
def State.patchL1 (s : State) (core a n : Nat) : State :=
  let ls := patchRun (SMap.get [] s.l1 core) a (s.portBytes (dieOf core) a n)
  { s with l1 := SMap.set [] s.l1 core (patchBad ls a n (s.portPoisoned (dieOf core))) }

/-- A core's write of nibbles performed: memory, poison, and the core's own L1 lines (R183, R185, R206). A write to a lost
package is discarded and counted (R500). -/
def State.performNibbles (s : State) (core a : Nat) (bs : List Byte) (m : Nibbles) : State :=
  if s.lost a then s.countError (dieOf core) 3 1
  else ((s.portNibbles (dieOf core) a bs m).dropTexels core a bs.length).patchL1 core a bs.length

/-- A core's write of bytes performed. -/
def State.performWrite (s : State) (core a : Nat) (bs : List Byte) : State := s.performNibbles core a bs 3

/-- Count a sector poisoned on a die, and hold its address where the die holds none: SRC 0 HBM, 1 second tier, 2 L2 dirty line,
3 remote data cache dirty line, 4 host (R463). -/
def State.notePoison (s : State) (die src a : Nat) : State :=
  let s := s.countError die 3 1
  if (s.reg (0x0900 + 8 * die)).getLsbD 63 then s
  else s.setReg (0x0900 + 8 * die) (BitVec.ofNat 64 (2 ^ 63 + src * 2 ^ 60 + a % 2 ^ 52 / 32 * 32))

/-- SRC of a sector that is poisoned where it is stored. -/
def homeSrc (a : Nat) : Nat := if hostBase ≤ a then 4 else if (expanderOf (a % 2 ^ 44)).isSome then 1 else 0

/-- Poison a sector at its home that is not poisoned yet; it is counted (R461, R463). -/
def State.poisonAs (s : State) (src k : Nat) : State :=
  if (s.poison.find? k).isSome then { s with poison := s.poison.insert k 0 }
  else { s with poison := s.poison.insert k 0 }.notePoison (homeOf (32 * k)) src (32 * k)

/-- Poison a sector where it is stored. -/
def State.poisonSector (s : State) (k : Nat) : State := s.poisonAs (homeSrc (32 * k)) k

/-- Poison the sectors of n bytes from a, counting each new one (R461, R463). -/
def State.addPoison (s : State) (a n : Nat) : State :=
  (List.range ((a + n + 31) / 32 - a / 32)).foldl (fun s i => s.poisonSector (a / 32 + i)) s

/-- Poison the sector of an address that a die has written: another package's in the die's own copy (R461, R462). -/
def State.portPoison (s : State) (die a : Nat) : State :=
  if s.lost a then s
  else if onOtherPackage a then
    if s.portPoisoned die a then s
    else
      let s := s.fillRemote die a
      { s with rdc := SMap.set [] s.rdc die (patchBad (SMap.get [] s.rdc die) a 1 fun _ => true) }.notePoison die 3 a
  else s.poisonSector (a / 32)

/-! ## Stores in flight -/

/-- Where an access in flight lies: its byte address, through the extent map as it stands. -/
def State.accAddr (s : State) (a : Acc) : Nat :=
  match s.accPlace a with
  | some x => x.1
  | none => 0

/-- A 4-bit element lies in the high nibble of its byte (R132). -/
def State.accHigh (s : State) (a : Acc) : Bool :=
  match s.accPlace a with
  | some x => x.2 == 1
  | none => false

/-- Perform a pending store at its point of coherence (R185, R204, R206). -/
def State.performStore (s : State) (p : PendingStore) : State :=
  let a := s.accAddr p.acc
  if p.nibble then
    let high := s.accHigh p.acc
    s.performNibbles p.core a [nibbleByte high (p.acc.data.getD 0 0)] (nibbleAt high)
  else
    let s := s.performWrite p.core a p.acc.data
    if p.whole then (s.clearUnit (dieOf p.core) a).patchL1 p.core a p.acc.data.length else s

/-- The indivisible units of a byte-addressed access: 8 bytes of a 16-byte or 32-byte one, else the whole (R201). -/
def Acc.units (a : Acc) : List Acc :=
  match a.tgt with
  | .byte off =>
    if a.size ≤ 8 then [a]
    else (List.range (a.size / 8)).map fun i =>
      { a with tgt := .byte (off + 8 * i), size := 8, data := (a.data.drop (8 * i)).take 8 }
  | _ => [a]

/-- A store in units on its way to its point of coherence; one of 32 bytes or more writes its sectors whole (R185, R201,
R461). -/
def State.queueStore (s : State) (agent : Agent) (core : Nat) (release : Bool) (scope : BitVec 3) (a : Acc) : State :=
  { s with storeQ := s.storeQ ++ a.units.map fun u => ⟨agent, core, u, release, scope, false, decide (32 ≤ a.size)⟩ }

/-- A pending store can be performed: its granule is resident. -/
def State.storeReady (s : State) (p : PendingStore) : Bool := (s.accPlace p.acc).isSome

/-- Two pending stores of a common slice write a common byte: they stand in that slice's order (R228, R229 case 1). -/
def State.ordered (s : State) (x y : PendingStore) : Bool :=
  decide (x.agent.wave = y.agent.wave) && (x.agent.slices &&& y.agent.slices) != 0 &&
    (let a := s.accAddr x.acc
     let b := s.accAddr y.acc
     decide (a < b + y.acc.data.length ∧ b < a + x.acc.data.length))

/-- The pending stores, oldest first, each with whether it is performed now: it can be, and it satisfies p or is ordered
before a later one that is performed. -/
def State.mustPerform (s : State) (p : PendingStore → Bool) : List PendingStore → List (Bool × PendingStore)
  | [] => []
  | x :: rest =>
    let later := s.mustPerform p rest
    ((p x || later.any fun y => y.1 && s.ordered x y.2) && s.storeReady x, x) :: later

/-- Perform, oldest first, the pending stores that satisfy p and can be performed, with those that their slices' order puts
before them, and remove them (R229). -/
def State.drainStores (s : State) (p : PendingStore → Bool) : State :=
  let q := s.mustPerform p s.storeQ
  let t := (q.filter fun x => x.1).foldl (fun s x => s.performStore x.2) s
  { t with storeQ := (q.filter fun x => !x.1).map fun x => x.2 }

/-- Pending stores of a wave's slices. -/
def ofSlices (wk : Nat) (m : SliceMask) (p : PendingStore) : Bool :=
  decide (p.agent.wave = wk) && (p.agent.slices &&& m) != 0

/-- A byte as a slice's own pending stores leave it: the latest that covers the address (R229 case 1). A nibble
store changes its nibble of what stands. -/
def State.ownByte (s : State) (wk : Nat) (m : SliceMask) (a : Nat) (b : Byte) : Byte :=
  s.storeQ.foldl (fun b p =>
    let base := s.accAddr p.acc
    if ofSlices wk m p && decide (base ≤ a ∧ a < base + p.acc.data.length) then
      let x := p.acc.data.getD (a - base) 0
      if p.nibble then withNibble (s.accHigh p.acc) b x else x
    else b) b

/-- A slice's load of n bytes: the core's view with the slice's own pending stores over it. -/
def State.sliceLoad (s : State) (core wk : Nat) (m : SliceMask) (a n : Nat) : State × List Byte :=
  let r := s.loadBytes core a n
  (r.1, (List.range n).map fun i => s.ownByte wk m (a + i) (r.2.getD i 0))

/-! ## Outstanding accesses (R177) -/

/-- The object entries against which outstanding accesses were checked: domain, reference, entry. -/
def State.checkedEntries (s : State) : List (BitVec 16 × DWord × ObjEntry) :=
  let acc (a : Acc) := (a.dom, a.ref, a.entry)
  let pends (ps : List Pending) := ps.flatMap fun p => p.accs.map acc
  (s.waves.flatMap fun x => pends x.2.pend ++ pends x.2.bank1.withdrawn ++ pends x.2.bank2.withdrawn ++
      x.2.rays.map fun r => (r.2.dom, r.2.ref, r.2.entry)) ++
    (s.workgroups.flatMap fun g => g.2.log.flatMap fun l => l.accs.map acc) ++ (s.storeQ.map fun p => acc p.acc) ++
    (s.copies.flatMap fun c => [(c.dom, c.srcRef, c.srcEntry), (c.dom, c.dstRef, c.dstEntry)]) ++
    (s.matOps.map fun o => (o.dom, o.ref, o.entry)) ++
    (s.builds.flatMap fun b => [(b.dom, b.bvhRef, b.bvhEntry), (b.dom, b.geoRef, b.geoEntry)]) ++
    s.colls.flatMap fun c => [(c.dom, c.desc, c.descEntry), (c.dom, c.dst, c.dstEntry)] ++
      c.srcEntry.toList.map fun e => (c.dom, c.src, e)

/-- An access checked against an entry of the object that the table no longer holds is outstanding. -/
def State.staleUse (s : State) (dom n : Nat) : Bool :=
  s.checkedEntries.any fun x =>
    decide (x.1.toNat = dom ∧ refIndex x.2.1 = n) && x.2.2 != s.tableEntry dom n && x.2.2 != ⟨0, 0, 0, 0⟩

/-! ## Acquire and release actions (R186, R379) -/

/-- The extra action of an acquire at a scope: from cluster up the core's L1 and texel lines go (R186, R273); from
domain up dirty lines of other packages are written back and those lines go; at system scope the die's lines of host
windows go as well (R379). -/
def State.acquireAct (s : State) (core : Nat) (scope : BitVec 3) : State :=
  let n := scope.toNat
  let s := if 3 ≤ n then { s with l1 := SMap.set [] s.l1 core [], texel := SMap.set [] s.texel core [] } else s
  if 6 ≤ n then
    s.dropRemote (dieOf core) fun line => onOtherPackage (128 * line) || decide (n = 7 ∧ hostBase ≤ 128 * line)
  else s

/-- The extra action of a release at a scope (R186). -/
def State.releaseAct (s : State) (core : Nat) (scope : BitVec 3) : State :=
  if 6 ≤ scope.toNat then s.writeBackRemote (dieOf core) else s

/-- Every core drops its L1 and texel lines and every die its lines of other packages and of host windows, which are
written back: what a launch's acceptance and a host's acquire at system scope ask for (R186, R232, R379). -/
def State.acquireAll (s : State) : State :=
  (List.range 4).foldl (fun s d => s.dropRemote d fun line => onOtherPackage (128 * line) || decide (hostBase ≤ 128 * line))
    { s with l1 := [], texel := [] }

/-- Every die writes its dirty lines of other packages back (R186, R232). -/
def State.releaseAll (s : State) : State := (List.range 4).foldl State.writeBackRemote s

/-- A release: every earlier write of the slices has been performed, and the release action is taken (R186). -/
def State.release (s : State) (core wk : Nat) (m : SliceMask) (scope : BitVec 3) : State :=
  (s.drainStores (ofSlices wk m)).releaseAct core scope

end Sys2Proof.Machine
end

