-- ==== Sys2Proof/Machine/Ops.lean ====
section
/-!
DEFINITION. How a wave runs: its lanes' addresses and fragments (R31 to R41), instruction fetch (R88, R89), taking a
trap and returning from one (R415 to R421), the unwinding of a gate call (R484), and the issue of one instruction
with every check that comes before its meaning (R436, R107, R40).
-/

namespace Sys2Proof.Machine

/-! ## Code (R89) -/

/-- Memory as it stood when a launch was accepted (R89). -/
def State.accepted (s : State) (la : Launch) : State :=
  { s with mem := la.image.filter fun c => decide (c.1 < hostBase),
           hostMem := (la.image.filter fun c => decide (hostBase ≤ c.1)).map fun c => (c.1 - hostBase, c.2) }

/-- The words of a code object that were given as such, if they were. -/
def Launch.words (la : Launch) (dom obj : Nat) : Option (List DWord) :=
  (la.codeWords.find? fun c => decide (c.1 = dom ∧ c.2.1 = obj)).map fun c => c.2.2

/-- LENGTH of a code object in words. -/
def State.codeLen (s : State) (la : Launch) (dom obj : Nat) : Nat :=
  match la.words dom obj with
  | some ws => ws.length
  | none => ((s.accepted la).tableEntry dom obj).length / 8

/-- A word of a code object as a fetch of the launch returns it (R89); none beyond the object. -/
def State.codeWord (s : State) (la : Launch) (dom obj off : Nat) : Option DWord :=
  match la.words dom obj with
  | some ws => ws[off]?
  | none =>
    let t := s.accepted la
    let e := t.tableEntry dom obj
    if off < e.length / 8 then some (t.word64 (t.addrOf dom e (8 * off))) else none

/-- Byte address of a code word, in memory as it stood at acceptance (R89); none for words given as such. -/
def State.codePlace (s : State) (la : Launch) (dom obj off : Nat) : Option Nat :=
  match la.words dom obj with
  | some _ => none
  | none =>
    let t := s.accepted la
    some (t.addrOf dom (t.tableEntry dom obj) (8 * off))

/-- The fetch of a code word meets a poisoned sector, of the word or of the extent map that leads to it (R454, R462). -/
def State.wordPoisoned (s : State) (la : Launch) (dom obj off : Nat) : Bool :=
  match s.codePlace la dom obj off with
  | some a => s.poisoned a || s.mapPoisoned ((s.accepted la).tableEntry dom obj) (8 * off) 8
  | none => false

/-- The word is a block header (R88). -/
def isHeader (w : Option DWord) : Bool :=
  match w with
  | some h => wordClass h == 0xF
  | none => false

/-- LENGTH of a header (R88). -/
def headerLength (h : DWord) : Nat := fieldOf h 50 10
/-- RECONV of a header as a word offset, none for 0 (R88). -/
def headerReconv (h : DWord) (at_ : CodeAddr) : Option CodeAddr :=
  let r : BitVec 16 := h.extractLsb' 34 16
  if r = 0 then none else some (at_ + r.signExtend 39)
/-- SAFE of a header (R88). -/
def headerSafe (h : DWord) : Bool := h.getLsbD 14
/-- WHOLE of a header (R88). -/
def headerWhole (h : DWord) : Bool := h.getLsbD 12

/-- A malformed header (R440). -/
def State.headerBad (s : State) (la : Launch) (dom obj : Nat) (at_ : CodeAddr) (h : DWord) : Bool :=
  let r : BitVec 16 := h.extractLsb' 34 16
  let target : Int := at_.toNat + r.toInt
  decide (fieldOf h 0 12 ≠ 0) || decide (headerLength h = 0) ||
    decide (s.codeLen la dom obj < at_.toNat + headerLength h) ||
    (decide (r ≠ 0) && (decide (target < 0) || !isHeader (s.codeWord la dom obj target.toNat)))

/-- The block that holds a word: headers are followed from word 0 by their LENGTH (R85). -/
def State.blockOf (s : State) (la : Launch) (dom obj : Nat) (p : Nat) : Nat → Nat → Nat
  | 0, at_ => at_
  | fuel + 1, at_ =>
    match s.codeWord la dom obj at_ with
    | some h =>
      if wordClass h = 0xF ∧ 0 < headerLength h ∧ at_ + headerLength h ≤ p then
        s.blockOf la dom obj p fuel (at_ + headerLength h)
      else at_
    | none => at_

/-! ## Lanes and slices (R31, R32, R416) -/

/-- Lanes parked by a trap at any level (R416). -/
def Wave.trapParked (w : Wave) : LaneMask := w.bank1.parked ||| w.bank2.parked

/-- The lanes that take part in a gang: live and not trap-parked (R40). -/
def Wave.partakers (w : Wave) : LaneMask := w.live &&& ~~~w.trapParked

/-- The lanes that run: they take part and are not gang-parked (R32). -/
def Wave.runnable (w : Wave) : LaneMask := w.partakers &&& ~~~w.gangParked

/-- Resume PC of a lane (R31). -/
def Wave.pc (w : Wave) (l : Nat) : CodeAddr := SMap.get 0 w.pcs l

/-- Resume PCs from a function of the lane. -/
def Wave.withPcs (w : Wave) (f : Nat → CodeAddr) : Wave :=
  { w with pcs := (List.range 96).filterMap fun l => if f l = 0 then none else some (l, f l) }

/-- Set the resume PC of the lanes of a mask. -/
def Wave.setPcs (w : Wave) (m : LaneMask) (p : CodeAddr) : Wave :=
  w.withPcs fun l => if m.getLsbD l then p else w.pc l

/-- The lower of two optional addresses. -/
def lowerPc (a b : Option CodeAddr) : Option CodeAddr :=
  match a, b with
  | none, b => b
  | a, none => a
  | some a, some b => some (if b.toNat < a.toNat then b else a)

/-- The slice PC: the lowest resume PC among the slice's running lanes (R32). -/
def Wave.slicePc (w : Wave) (k : Nat) : Option CodeAddr :=
  (List.range 4).foldl (fun acc i =>
    if w.runnable.getLsbD (4 * k + i) then lowerPc acc (some (w.pc (4 * k + i))) else acc) none

/-- The address of a fragment: the slice PC of its lowest slice. -/
def Wave.fragPc (w : Wave) (f : Frag) : Option CodeAddr := w.slicePc (lowestSlice f.slices)

/-- active(F) at an address (R32). -/
def Wave.activeAt (w : Wave) (m : SliceMask) (p : CodeAddr) : LaneMask :=
  maskOf fun l => m.getLsbD (l / 4) && w.runnable.getLsbD l && decide (w.pc l = p)

/-- active(F) (R32). -/
def Wave.active (w : Wave) (f : Frag) : LaneMask :=
  match w.fragPc f with
  | some p => w.activeAt f.slices p
  | none => 0

/-- A fragment of the wave by number. -/
def Wave.frag? (w : Wave) (id : Nat) : Option Frag := w.frags.find? fun f => f.id == id

/-- Change a fragment. -/
def Wave.modFrag (w : Wave) (id : Nat) (f : Frag → Frag) : Wave :=
  { w with frags := w.frags.map fun x => if x.id = id then f x else x }

/-- Change a wave. -/
def State.modWave (s : State) (wk : Nat) (f : Wave → Wave) : State := { s with waves := s.waves.modify wk f }

/-- The fragment waits at a barrier, which for a hold counts as a gang point (R319). -/
def Frag.atBarrier (f : Frag) : Bool :=
  match f.wait with
  | .bar _ _ => true
  | _ => false

/-- The slices that run outside a set: they have a slice PC, and do not wait at a barrier (R36, R319). -/
def Wave.runningOutside (w : Wave) (m : SliceMask) : SliceMask :=
  let waiting : SliceMask := w.frags.foldl (fun acc f => if f.atBarrier && f.trapLevel == 0 then acc ||| f.slices else acc) 0
  sliceMaskOf fun k => !m.getLsbD k && !waiting.getLsbD k && (w.slicePc k).isSome

/-! ## Register write-backs that wait (R107) -/

/-- Land the results that are outstanding: their register writes and their flags (R59, R107). -/
def Wave.landResult (w : Wave) (p : Pending) : Wave :=
  let w := w.applyAll p.writes
  { w with mode := (Cond.ofBits p.flags).intoMode w.mode, pend := w.pend.filter fun q => q.id != p.id }

/-- Land every result that is outstanding (R415). -/
def Wave.landAll (w : Wave) : Wave :=
  (w.pend.filter fun p => p.kind == .result).foldl Wave.landResult w

/-- A ray of the wave is in flight. -/
def Wave.hasRays (w : Wave) : Bool :=
  w.pend.any fun p => p.kind == .ray && (lanesOf p.mask).any fun l => !p.accs.any fun a => a.lane == l

/-! ## Region and status words -/

/-- STATUS.TL. -/
def Wave.tl (w : Wave) : Nat := fieldOf w.status 0 2
/-- STATUS.GDEPTH. -/
def Wave.gdepth (w : Wave) : Nat := fieldOf w.status 4 4
/-- STATUS.GATE. -/
def Wave.gated (w : Wave) : Bool := w.status.getLsbD 2
/-- STATUS.HALT. -/
def Wave.halted (w : Wave) : Bool := w.status.getLsbD 3
/-- A STATUS word of its fields (R60). -/
def mkStatus (gdepth tl : Nat) (halt : Bool) : Word :=
  BitVec.ofNat 32 (16 * gdepth + (if halt then 8 else 0) + (if gdepth = 0 then 0 else 4) + tl)
/-- STATUS with another TL. -/
def Wave.withTl (w : Wave) (tl : Nat) : Wave := { w with status := mkStatus w.gdepth tl w.halted }
/-- The banked registers of level 1 or 2 (R61). -/
def Wave.bank (w : Wave) (n : Nat) : TrapBank := if n = 1 then w.bank1 else w.bank2
/-- Change the banked registers of a level. -/
def Wave.setBank (w : Wave) (n : Nat) (b : TrapBank) : Wave := if n = 1 then { w with bank1 := b } else { w with bank2 := b }
/-- A trap bank at 0 (R54). -/
def TrapBank.zero : TrapBank := ⟨0, 0, 0, 0, 0, 0, [], 0, 0, 0, []⟩

/-- Set the join target of every slice of a mask (R33). -/
def Wave.setJoins (w : Wave) (m : SliceMask) (j : Option CodeAddr) : Wave :=
  { w with join := (slicesOf m).foldl (fun js k =>
      match j with
      | some a => SMap.insert js k a
      | none => SMap.erase js k) w.join }

/-! ## The unwinding of a gate call (R484) -/

/-- Registers that a write touches, in the written-block masks (R363). -/
def Wave.markBlocks (w : Wave) (ws : List RegWrite) : Wave :=
  ws.foldl (fun w x =>
    match x with
    | .v n _ _ => { w with wblkV := w.wblkV ||| BitVec.ofNat 32 (2 ^ (n / 8)) }
    | .s n _ => { w with wblkS := w.wblkS ||| BitVec.ofNat 16 (2 ^ (n / 8)) }
    | _ => w) w

/-- Registers after a gate call or return: v0 to v7 and s0 to s15 carried, the others 0 (R74). -/
def Wave.scrub (w : Wave) : Wave :=
  { w with v := w.v.filter fun c => decide (c.1 < 96 * 8), s := w.s.filter fun c => decide (c.1 < 16), k := [], x := [] }

/-- MODE of a caller restored, with SEED kept (R74). -/
def keepSeed (saved now : Word) : Word := (saved &&& ~~~(0x00FF0000#32)) ||| (now &&& 0x00FF0000#32)

/-- Unwind a wave to the caller of its gate call; `cause` is the cause being entered (R484). -/
def State.unwindGate (s : State) (wk fid : Nat) (cause : Nat) : State :=
  match s.waves.find? wk with
  | none => s
  | some w =>
    match w.gates with
    | [] => s
    | e :: rest =>
      let la := (s.workgroups.find? w.wg).bind fun g => s.launches.find? g.launch
      let block := (la.map fun la =>
        BitVec.ofNat 39 (s.blockOf la e.dom.toNat e.codeObj.toNat e.ret.toNat e.ret.toNat 0)).getD e.ret
      let c := if 1 ≤ w.tl then fieldOf w.bank1.cause 0 8 else cause
      let s := s.clearSlot w.dom.toNat e.saveObj.toNat e.slot.toNat
      let w := w.landAll
      let gd := w.gdepth - 1
      let w : Wave := { w with
        gates := rest, dom := e.dom, codeObj := e.codeObj, tvec := e.tvec, tsave := e.tsave,
        mode := keepSeed e.mode w.mode, v := [], s := [], k := [], x := [], pend := [],
        bank1 := .zero, bank2 := .zero, status := mkStatus gd 0 w.halted,
        gangParked := w.gangParked &&& ~~~w.live, join := [], hold := 0 }
      let w := match e.st with
        | .s n => (w.markBlocks [.s n.toNat 0]).setS n.toNat (BitVec.ofNat 32 (0x10000 + c))
        | _ => w
      let w := w.setPcs w.live e.ret
      let f : Frag := { (w.frag? fid).getD ⟨fid, 0, 0, none, 0, true, .none, none, 0, 0, 0, none⟩ with
        slices := slicesOfLanes w.live, hold := none, wait := .none, trapLevel := 0, block := block }
      s.modWave wk fun _ => { w with frags := [f] }

/-! ## Taking a trap (R415, R418, R419) -/

/-- TVEC passes the checks of R419: the header it names, else none. -/
def State.checkTvec (s : State) (core : Nat) (la : Launch) (dom : Nat) (tvec : DWord) : Option (Nat × Nat) :=
  match s.checkObject core dom tvec needX (.only 2) 0 0 with
  | .error _ => none
  | .ok e =>
    if refOffset tvec % 8 = 0 ∧ refOffset tvec < e.length ∧
        isHeader (s.codeWord la dom (refIndex tvec) (refOffset tvec / 8)) then
      some (refIndex tvec, refOffset tvec / 8)
    else none

/-- TSAVE passes the checks of R419. -/
def State.checkTsave (s : State) (core dom : Nat) (tsave : DWord) : Option ObjEntry :=
  match s.checkObject core dom tsave needRW (.either 0 8) 0 0 with
  | .error _ => none
  | .ok e => if refOffset tsave % 64 = 0 ∧ refOffset tsave + 1024 ≤ e.length then some e else none

/-- The entry record of a level (R418). -/
def entryRecord (b : TrapBank) (slices : SliceMask) (clock : DWord) (dom : BitVec 16) : List Byte :=
  bytesOfNat 4 b.cause.toNat ++ bytesOfNat 4 b.stat.toNat ++ bytesOfNat 8 b.ret.toNat ++ bytesOfNat 8 b.val.toNat ++
    bytesOfNat 12 b.lanes.toNat ++ bytesOfNat 4 slices.toNat ++ bytesOfNat 4 (lowWord clock).toNat ++
    bytesOfNat 4 dom.toNat ++ bytesOfNat 16 0

/-- The banked registers that a trap entry writes (R415, R61). -/
def trapBankOf (w : Wave) (f : Frag) (cause : Nat) (ret : CodeAddr) (val : DWord) (kept : List Pending) : TrapBank :=
  { cause := BitVec.ofNat 32 (256 * lowestSlice f.slices + cause), ret := ret.zeroExtend 64, stat := w.status,
    val := val, codeObj := w.codeObj, block := f.block, join := w.join.filter fun j => f.slices.getLsbD j.1,
    hold := w.hold &&& f.slices, lanes := w.active f,
    parked := w.live &&& ~~~(w.active f) &&& ~~~w.trapParked, withdrawn := kept }

/-- A wave after trap entry to level n: H at the handler's header, every other live lane trap-parked (R415). -/
def Wave.enterLevel (w : Wave) (f : Frag) (n : Nat) (b : TrapBank) (obj : Nat) (header : CodeAddr) : Wave :=
  let h := b.lanes
  let w := (w.setBank n b).setPcs h header
  let w : Wave := { w with codeObj := BitVec.ofNat 18 obj, pend := [],
                           hold := w.hold &&& ~~~f.slices }
  let w := (w.setJoins f.slices none).withTl n
  { w with frags := w.frags.map fun g =>
      if g.id = f.id then { g with block := header, hold := none, wait := .none, trapLevel := 0 }
      else if g.trapLevel = 0 then { g with trapLevel := BitVec.ofNat 2 n } else g }

/-- A fragment raises a cause at the word `pc`: trap entry (R415). `ret` is TRETn, `late` the instruction of a late condition, which
entry withdraws (R456). While a ray of the wave is in flight its write-back is awaited first. -/
def State.enterTrap (s : State) (wk fid : Nat) (cause : Nat) (pc ret : CodeAddr) (val : DWord) : State :=
  match s.waves.find? wk with
  | none => s
  | some w0 =>
    match w0.frag? fid, s.workgroups.find? w0.wg with
    | some f, some wg =>
      match s.launches.find? wg.launch with
      | none => s
      | some la =>
        let n := w0.tl + 1
        if w0.hasRays then s.modWave wk fun w => w.modFrag fid fun f => { f with wait := .again }
        else
          let w := w0.landAll
          let s := s.modWave wk fun _ => w
          let fail (reason : Nat) : State :=
            if w.gated then s.unwindGate wk fid cause
            else s.killContext la.ctx.toNat (waveFault w wg la 1 reason cause w.tl pc val)
          if n = 3 then fail 1
          else
            match s.checkTvec wg.core la w.dom.toNat w.tvec, s.checkTsave wg.core w.dom.toNat w.tsave with
            | some (obj, off), some e =>
              let b := trapBankOf w f cause ret val w.pend
              let header := BitVec.ofNat 39 off
              let s := s.modWave wk fun _ => w.enterLevel f n b obj header
              let record := entryRecord b f.slices (s.counter (dieOf wg.core)) w.dom
              let acc : Acc := ⟨lowestLane b.lanes, w.dom, w.tsave, e,
                .byte (refOffset w.tsave + 512 * (n - 1)), 64, record, []⟩
              s.queueStore ⟨wk, f.slices⟩ wg.core false 0 acc
            | _, _ => fail 2
    | _, _ => s

/-- TVAL of cause 0x40: the word's bits [63:48] and the sub-reason (R413). -/
def illegalVal (word : DWord) (sub : Nat) : DWord := word.extractLsb' 48 16 ++ BitVec.ofNat 48 sub

/-! ## Entering blocks (R34 to R37, R90, R440, R441) -/

/-- A fragment stands at the header of its block and has not entered it. -/
def Wave.atHeader (w : Wave) (f : Frag) : Bool := f.trapLevel == 0 && f.stopped.isNone && w.fragPc f == some f.block

/-- H is the join target of a slice of the fragment (R36). -/
def Wave.joinsAt (w : Wave) (f : Frag) : Bool :=
  (slicesOf f.slices).any fun k => w.join.find? k == some f.block

/-- A running slice outside the fragment has a lower slice PC (R36). -/
def Wave.lowerOutside (w : Wave) (f : Frag) : Bool :=
  let others := w.runningOutside f.slices
  (slicesOf others).any fun k =>
    match w.slicePc k with
    | some p => decide (p.toNat < f.block.toNat)
    | none => false

/-- The hold limit is reached (R36 condition 2). -/
def Wave.holdOver (w : Wave) (f : Frag) : Bool :=
  match f.hold with
  | some c => decide (c + 4096 ≤ w.issueCount)
  | none => false

/-- Two fragments become one, which keeps the older slot (R357). -/
def Frag.join (f g : Frag) : Frag :=
  let older := if g.slot && (!f.slot || decide (g.age < f.age)) then g else f
  { f with slices := f.slices ||| g.slices, age := older.age, slot := older.slot,
           slotSince := match f.slotSince, g.slotSince with
             | some a, some b => some (min a b)
             | some a, none => some a
             | none, b => b,
           hold := match f.hold with
             | some c => some c
             | none => g.hold }

/-- A pending instruction has accesses that are still to be performed (R190, R287). -/
def Pending.unperformed (p : Pending) : Bool := p.kind == .access || p.kind == .sampler

/-- Joining is a wave-scope fence among the slices (R37): their stores are performed; accesses of theirs that are parked, updates
of theirs in the commit log, and the geometry reads of builder operations of theirs (R225) come before every later access of
any of them. -/
def State.joinFence (s : State) (wk : Nat) (m : SliceMask) : State :=
  let s := (s.drainStores (ofSlices wk m)).modWave wk fun w => { w with pend := w.pend.map fun p =>
    if p.unperformed && (p.slices &&& m) != 0 then { p with fence := p.fence ||| m } else p }
  { s with
    workgroups := s.workgroups.modify (wk / 16) fun g => { g with log := g.log.map fun x =>
      if x.wave == wk && (x.slices &&& m) != 0 then { x with fence := x.fence ||| m } else x },
    builds := s.builds.map fun o =>
      if o.wave == wk && !o.started && (o.slices &&& m) != 0 then { o with fence := o.fence ||| m } else o }

/-- The wave's workgroup is in a step phase (R362). -/
def State.steps (s : State) (w : Wave) : Bool := ((s.workgroups.find? w.wg).bind Workgroup.stepping).isSome

/-- Fragment f enters the block at whose header it stands: the end of a hold sets its join targets (R36); the header's
checks (R440, R441, R442, R90); then its lanes pass the header, and stand at the next one where the block holds no
other word (R441). -/
def State.enterBlock (s : State) (wk : Nat) (f : Frag) : State :=
  match s.waves.find? wk with
  | none => s
  | some w =>
    match s.workgroups.find? w.wg with
    | none => s
    | some wg =>
      match s.launches.find? wg.launch with
      | none => s
      | some la =>
        let word := s.codeWord la w.dom.toNat w.codeObj.toNat f.block.toNat
        let h := word.getD 0
        let joined := w.joinsAt f || f.hold.isSome
        let w1 := if joined then
            { w.setJoins f.slices (if isHeader word then headerReconv h f.block else none) with
              hold := w.hold &&& ~~~f.slices }
          else w
        let w1 := w1.modFrag f.id fun g => { g with hold := none, wait := .none }
        let s1 := s.modWave wk fun _ => w1
        let outside := w.runningOutside f.slices
        if s.wordPoisoned la w.dom.toNat w.codeObj.toNat f.block.toNat then
          s1.enterTrap wk f.id 0x09 f.block f.block (mkRef w.codeObj.toNat needX (8 * f.block.toNat))
        else if !isHeader word then
          if w.issueCount = 0 ∧ f.block.toNat = la.entries.getD wg.stage 0 then s1.enterTrap wk f.id 0x41 f.block f.block (f.block.zeroExtend 64)
          else s1.enterTrap wk f.id 0x40 f.block f.block (illegalVal h 0x31)
        else if s.headerBad la w.dom.toNat w.codeObj.toNat f.block h then
          s1.enterTrap wk f.id 0x40 f.block f.block (illegalVal h 0x30)
        else if wg.stepping.isSome && headerSafe h then
          s1.modWave wk fun w => w.modFrag f.id fun g => { g with stopped := some (.safe f.block) }
        else if headerWhole h && outside != 0 then
          s1.enterTrap wk f.id 0x11 f.block f.block (outside.zeroExtend 64)
        else s1.modWave wk fun w =>
          let w := w.setPcs (w.activeAt f.slices f.block) (f.block + 1)
          if headerLength h = 1 then w.modFrag f.id fun g => { g with block := f.block + 1 } else w

/-- The next arrival of the wave: two fragments at one header join, a fragment begins to hold, or one enters its
block; none when nothing of the kind is left. DESIGN CHOICE (log 29): a fragment that holds keeps its instruction-buffer slot
until another fragment needs one. -/
def State.arrival (s : State) (wk : Nat) (w : Wave) : Option State :=
  let waiting := w.frags.filter fun f => w.atHeader f
  match waiting.findSome? fun f => (waiting.find? fun g => decide (f.id ≠ g.id) && g.block == f.block).map (f, ·) with
  | some (f, g) =>
    let s := s.joinFence wk (f.slices ||| g.slices)
    some (s.modWave wk fun w =>
      let w := { w with hold := if f.hold.isSome || g.hold.isSome then w.hold ||| f.slices ||| g.slices else w.hold }
      { w with frags := (w.frags.filter fun x => x.id != g.id).map fun x => if x.id = f.id then f.join g else x })
  | none =>
    match waiting.find? fun f => !(w.joinsAt f || f.hold.isSome) || !w.lowerOutside f || w.holdOver f with
    | some f => if f.wait == .again && w.hasRays then none else some (s.enterBlock wk f)
    | none =>
      match waiting.find? fun f => f.hold.isNone with
      | some f => some (s.modWave wk fun w =>
          { w.modFrag f.id fun g => { g with hold := some w.issueCount,
                                             stopped := if s.steps w then some .stood else g.stopped }
            with hold := w.hold ||| f.slices })
      | none => none

/-- Clusters of the launch that this package runs (R45). -/
def Launch.myClusters (la : Launch) : Nat :=
  let total := la.gridX * la.gridY * la.gridZ / max 1 la.ncl
  (total + la.npkg - 1 - la.rank) / la.npkg

/-- The waves of the launch may issue: it has started, and with several stages every workgroup of every stage has been placed
(R29, R46). -/
def Launch.begun (la : Launch) : Bool :=
  la.started && (decide (la.nstage ≤ 1) || decide (la.myClusters * la.nstage ≤ la.nextCluster))

/-- The waves of a wave's launch may issue. -/
def State.begun (s : State) (w : Wave) : Bool :=
  match (s.workgroups.find? w.wg).bind fun g => s.launches.find? g.launch with
  | some la => la.begun
  | none => true

/-- Let every arrival happen that can; a launch yet to begin has none. -/
def State.arrive (wk : Nat) : Nat → State → State
  | 0, s => s
  | fuel + 1, s =>
    match s.waves.find? wk with
    | none => s
    | some w =>
      if w.halted || w.halting.isSome || !s.begun w then s
      else
        match s.arrival wk w with
        | some t => State.arrive wk fuel t
        | none => s

/-- Arrivals that one settling can need: each joins two fragments, begins a hold or enters a block, three times over
where entry traps. -/
def arriveFuel : Nat := 256

/-- The slices of a fragment grouped by slice PC, in ascending order of their lowest slice (R35, R357). -/
def Wave.groups (w : Wave) (m : SliceMask) : List (CodeAddr × SliceMask) :=
  (slicesOf m).foldl (fun acc k =>
    match w.slicePc k with
    | none => acc
    | some p =>
      let bit : SliceMask := BitVec.ofNat 24 (2 ^ k)
      if acc.any fun g => g.1 == p then acc.map fun g => if g.1 = p then (g.1, g.2 ||| bit) else g
      else acc ++ [(p, bit)]) []

/-- The block in which an address lies for a fragment that came from `block`; `seq` is the word after the instruction
it issued, if it issued one. -/
def State.locate (s : State) (la : Launch) (w : Wave) (block : CodeAddr) (seq : Option CodeAddr) (p : CodeAddr) :
    CodeAddr :=
  let word (a : Nat) := s.codeWord la w.dom.toNat w.codeObj.toNat a
  let last := if isHeader (word block.toNat) then block.toNat + headerLength ((word block.toNat).getD 0) else 0
  if some p = seq ∧ block.toNat < p.toNat ∧ p.toNat < last then block
  else if isHeader (word p.toNat) then p
  else if p.toNat = last then p
  else if block.toNat < p.toNat ∧ p.toNat < last then block
  else BitVec.ofNat 39 (s.blockOf la w.dom.toNat w.codeObj.toNat p.toNat p.toNat 0)

/-- Form the fragments that a fragment's slices make after it has moved (R34, R35). -/
def State.form (s : State) (wk fid : Nat) (seq : Option CodeAddr) (branch : Bool) : State :=
  match s.waves.find? wk with
  | none => s
  | some w =>
    match w.frag? fid, s.workgroups.find? w.wg with
    | some f, some wg =>
      match s.launches.find? wg.launch with
      | none => s
      | some la =>
        let gs := w.groups f.slices
        let w := if branch && decide (1 < gs.length) then
            let h := s.codeWord la w.dom.toNat w.codeObj.toNat f.block.toNat
            w.setJoins f.slices (h.bind fun h => headerReconv h f.block)
          else w
        let mk (i : Nat) (g : CodeAddr × SliceMask) : Frag :=
          let block := s.locate la w f.block seq g.1
          if i = 0 then { f with slices := g.2, block := block }
          else ⟨w.nextFrag + i, g.2, block, none, 32 * s.tick + i, false, .none, none, f.trapLevel, f.issued, f.last, none⟩
        let fs := (List.range gs.length).map fun i => mk i (gs.getD i (0, 0))
        let w := { w with frags := (w.frags.filter fun x => x.id != fid) ++ fs, nextFrag := w.nextFrag + gs.length }
        s.modWave wk fun _ => w
    | _, _ => s

/-- Form the fragments of a fragment that has moved, and let them arrive (R34 to R37). -/
def State.settle (s : State) (wk fid : Nat) (seq : Option CodeAddr) (branch : Bool) : State :=
  State.arrive wk arriveFuel (s.form wk fid seq branch)

/-! ## Return from a trap (R339, R420, R421) -/

/-- The lanes of a level resume at TRETn and what entry parked at the level resumes (R420). Where TRETn still names
the instruction of a late condition, that instruction replays for its unfinished lanes and its lanes stand after it;
else it is discarded (R456). -/
def Wave.leaveLevel (w : Wave) (fid n : Nat) (tl : Nat) : Wave :=
  let b := w.bank n
  let ret : CodeAddr := b.ret.extractLsb' 0 39
  let slices := slicesOfLanes b.lanes
  let back := b.withdrawn.filter fun p => p.late.isNone || p.pc == ret
  let replayed := b.withdrawn.find? fun p => p.late.isSome && p.pc == ret
  let w := w.setPcs (b.lanes &&& w.live) (match replayed with
    | some p => ret + BitVec.ofNat 39 (if p.instr.needsExt then 2 else 1)
    | none => ret)
  let w := w.setBank n { b with parked := 0, withdrawn := [] }
  let w : Wave := { w with
    codeObj := b.codeObj, join := b.join.foldl (fun js j => SMap.insert js j.1 j.2) (w.setJoins slices none).join,
    hold := (w.hold &&& ~~~slices) ||| b.hold, pend := back.map (fun p => { p with late := none }) ++ w.pend }
  let w := w.withTl tl
  { w with frags := w.frags.map fun g =>
      if g.id = fid then { g with block := ret, hold := none, wait := .none }
      else if g.trapLevel.toNat = n then { g with trapLevel := 0 } else g }

/-! ## The issue of an instruction -/

/-- What an instruction's own effect asks for. -/
inductive Act where
  /-- Registers and conditions in a state; the lanes advance. A long-latency instruction with LA above 0 holds its
  writes back (R107). -/
  | writes (s : State) (ws : List RegWrite) (c : Cond)
  /-- Registers written by an instruction whose accesses may be unfinished (R190): its pending record. -/
  | access (s : State) (p : Pending)
  /-- A late condition found as the instruction's accesses are made: its record is withdrawn by trap entry (R455,
  R456). -/
  | late (s : State) (p : Pending) (c : LateCause) (val : DWord)
  /-- The fragment waits and tries again; nothing else happens. -/
  | hold (s : State) (w : Wait)
  /-- Some slices of the fragment advance; those of the mask wait at the instruction (R319). -/
  | split (s : State) (stay : SliceMask) (w : Wait)
  /-- A cause at the instruction (R415). -/
  | trap (cause : Nat) (val : DWord)
  /-- A cause at the instruction, in a state that the instruction has changed (R252). -/
  | trapIn (s : State) (cause : Nat) (val : DWord)
  /-- A cause after the instruction (R338). -/
  | trapNext (cause : Nat) (val : DWord)
  /-- Lanes whose resume PC the instruction sets; the other active lanes advance (R159). -/
  | jump (s : State) (to_ : List (Nat × CodeAddr))
  /-- Every lane stands where the instruction leaves it: gate calls and returns. -/
  | placed (s : State)

/-- The cause code of a late condition (R413). -/
def lateCode : LateCause → Nat
  | .residency => 0x06
  | .translation => 0x08
  | .uncorrectable => 0x09
  | .network => 0x13

/-- Words of an instruction (R91). -/
def Instr.words (i : Instr) : Nat := if i.needsExt then 2 else 1

/-- What the fragment that issues an instruction sees; none where `State.cur` names no fragment. -/
def State.env (s : State) (i : Instr) : Option Env :=
  match s.cur with
  | none => none
  | some (wk, fid) =>
    match s.waves.find? wk with
    | none => none
    | some w =>
      match w.frag? fid, s.workgroups.find? w.wg with
      | some f, some wg =>
        match s.launches.find? wg.launch with
        | none => none
        | some la =>
          let act := w.active f
          let p := formPred i.form
          let k := w.kreg p.1.toNat
          some ⟨wk, fid, w, f, wg, la, i.ext, act, act &&& (if p.2 then ~~~k else k)⟩
      | _, _ => none

/-- The address of the instruction. -/
def Env.pc (e : Env) : CodeAddr := (e.wave.fragPc e.frag).getD 0

/-- The fragment may issue: its launch has begun, it runs, is not halted, stopped or trap-parked, and has passed its block's
header. -/
def Env.canIssue (e : Env) : Bool :=
  e.launch.begun && e.wg.phase != .ended && e.frag.stopped.isNone && e.frag.trapLevel == 0 && !e.wave.halted &&
    e.wave.halting.isNone && !(match e.wg.phase with
      | .saved _ => true
      | _ => false) && (e.wave.fragPc e.frag).isSome && e.wave.fragPc e.frag != some e.frag.block

/-- The pending instruction that holds this one back: an exhausted window or a register it must wait for (R107), a
scalar register that it is still to write, whichever fragment reads or writes that (R114), or an access that a joining
orders before the later accesses of the joined slices (R37). -/
def Env.blocker (e : Env) (i : Instr) : Option Pending :=
  e.wave.pend.find? fun p =>
    ((p.slices &&& e.frag.slices) != 0 &&
      (((slicesOf (p.slices &&& e.frag.slices)).any fun k => SMap.get 0 p.window k == 0) || Instr.waitsFor i p.instr)) ||
    Instr.sharesScalar i p.instr || ((p.fence &&& e.frag.slices) != 0 && Instr.accessesMemory i)

/-- An update of memory that returns nothing: in deterministic mode it may go to the commit log (R374). -/
def Instr.updatesOnly : Instr → Bool
  | .aadd f | .afadd f | .amin f | .amax f | .aand f | .aor f | .axor f | .axchg f => f.immOp == .none
  | .atile _ | .drainAdd _ => true
  | _ => false

/-- What a joining still puts before an access of the fragment (R37): the geometry reads of a builder operation, or an update in
the commit log, which another update may follow there. -/
def Env.joinWait (e : Env) (s : State) (i : Instr) : Option Wait :=
  if !Instr.accessesMemory i then none
  else if s.builds.any fun o => o.wave == e.wk && !o.started && o.count != 0 && (o.fence &&& e.frag.slices) != 0 then some .again
  else if !Instr.updatesOnly i && (match s.workgroups.find? e.wave.wg with
      | some g => g.log.any fun x => x.wave == e.wk && (x.fence &&& e.frag.slices) != 0
      | none => false) then some .token
  else none

/-- Words left in the block from the instruction on (R445). -/
def State.wordsLeft (s : State) (e : Env) : Nat :=
  match s.codeWord e.launch e.wave.dom.toNat e.wave.codeObj.toNat e.frag.block.toNat with
  | some h => e.frag.block.toNat + headerLength h - e.pc.toNat
  | none => 0

/-- The barrier an instruction names, and whether it is a cluster barrier (R322). -/
def barrierNumber : Instr → Option (Nat × Bool)
  | .bar f => some (fieldOf f.imm 0 6, false)
  | .barCl f => some (fieldOf f.imm 0 6, true)
  | .arrive f => some (fieldOf f.imm 0 6, f.imm.getLsbD 6)
  | .waitbar f => some (fieldOf f.imm 0 6, f.imm.getLsbD 6)
  | _ => none

/-- The stage queue an instruction names, and whether it pushes (R209). -/
def queueNumber : Instr → Option (Nat × Bool)
  | .sqpush f => some (f.imm.toNat, true)
  | .sqpop f => some (f.imm.toNat, false)
  | _ => none

/-- A raster unit stands at the end of the queue that the instruction takes: it produces into ko and consumes ki and km
(R290). -/
def Launch.unitEnd (la : Launch) (q : Nat) (push : Bool) : Bool :=
  la.rasters.any fun r => if push then r.2.ko == q else r.2.ki == q || r.2.km == q

/-- The sub-reason of stage B (R436, R437). -/
def Env.stageB (e : Env) (i : Instr) : Option Nat :=
  let badBarrier := match barrierNumber i with
    | some (b, cl) => decide (e.launch.nbar ≤ b) || (cl && decide (e.launch.ncl = 1))
    | none => false
  let badQueue := match queueNumber i with
    | some (q, push) =>
      match e.launch.queues.find? q with
      | some sq => decide ((if push then sq.producer else sq.consumer) ≠ e.wg.stage) || e.launch.unitEnd q push
      | none => true
    | none => false
  if Instr.outsideAllocation i e.launch.vregs e.launch.sregs then some 0x10
  else if badBarrier then some 0x12
  else if badQueue then some 0x13
  else none

/-- The special register number of SREAD and SWRITE and whether it is written (R337). -/
def specialNumber : Instr → Option (Nat × Bool)
  | .sread f => some (fieldOf f.imm 0 12, false)
  | .swrite f => some (fieldOf f.imm 0 12, true)
  | _ => none

/-- A special register access that R447 does not admit. -/
def badSpecial (tl n : Nat) (write : Bool) : Bool :=
  let rw := decide (n = 0x000 ∨ n = 0x010 ∨ n = 0x011)
  let ro := decide (n = 0x001 ∨ n = 0x002 ∨ n = 0x003 ∨ n = 0x040 ∨ n = 0x041 ∨ (0x080 ≤ n ∧ n ≤ 0x087))
  let b1 := decide (0x020 ≤ n ∧ n ≤ 0x023 ∧ 1 ≤ tl)
  let b2 := decide (0x028 ≤ n ∧ n ≤ 0x02B ∧ tl = 2)
  !(rw || b1 || b2 || (ro && !write))

/-- The whole wave stands at the instruction: every live lane is active in the fragment (R332, R334). -/
def Env.whole (e : Env) : Bool := (e.wave.live &&& ~~~e.active) == 0

/-- Region stack misuse (R342). -/
def Env.badRegion (e : Env) : Instr → Bool
  | .enter _ => decide (8 ≤ e.wave.regions.length)
  | .leave f =>
    match e.wave.regions with
    | [] => true
    | id :: _ => id != f.imm.extractLsb' 0 16
  | _ => false

/-- RETT at level n: a live lane of H that is not trap-parked at a higher level is not active (R420). -/
def Env.rettPartial (e : Env) : Bool :=
  let b := e.wave.bank e.wave.tl
  (b.lanes &&& e.wave.live &&& ~~~(if e.wave.tl = 1 then e.wave.bank2.parked else 0) &&& ~~~e.active) != 0

/-- The sub-reason of stage C that the wave's registers alone decide (R447 to R449, R332, R342). -/
def Env.stageC (e : Env) (i : Instr) : Option Nat :=
  let w := e.wave
  let special := match specialNumber i with
    | some (n, write) => badSpecial w.tl n write
    | none => false
  let gate : Bool := match i with
    | .objGrant _ => !w.gated
    | .gateret _ => decide (w.gdepth = 0)
    | .gate f => decide (w.gdepth = 4) && decide (gateSt f = .none)
    | _ => false
  let notWhole := match i with
    | .gate _ => !e.whole
    | .gateret _ => !e.whole
    | .rett _ => if w.tl = 0 then !e.whole else e.rettPartial
    | _ => false
  let noLend := match i with
    | .recall _ => decide (w.lend = 0)
    | .mmaSa _ => decide (w.lend = 0)
    | .mma f => f.mode.getLsbD 0 && decide (e.launch.waves < w.no / 4 * 4 + 4)
    | _ => false
  let rettAtZero := match i with
    | .rett _ => decide (w.tl = 0)
    | _ => false
  if special then some 0x20
  else if Instr.notAtTrapLevel i && decide (w.tl ≠ 0) then some 0x21
  else if (Instr.notInGate i || Instr.namesTile i) && w.gated then some 0x22
  else if gate then some 0x23
  else if notWhole then some 0x24
  else if e.badRegion i then some 0x25
  else if noLend then some 0x26
  else if rettAtZero then some 0x28
  else none

/-- A shared-B MMA takes part in its step even where no lane passes its predicate (R246). -/
def Instr.sharesB : Instr → Bool
  | .mma f => f.mode.getLsbD 0
  | _ => false

/-- Stage C is tested whenever the fragment issues a gang point or an instruction that must carry PRED = 0 (R436). -/
def Instr.alwaysTested (i : Instr) : Bool :=
  Instr.gangPoint i || (match i with
    | .bar _ | .barCl _ | .arrive _ | .waitbar _ | .collRed _ | .collGath _ | .collScat _ | .collBcast _
    | .collWait _ | .gate _ | .gateret _ | .rett _ => true
    | _ => false)

/-- Count the issue of an instruction by slices: the wave's and the fragment's counts, and the windows of the pending
instructions of those slices (R36, R107). -/
def Wave.countIssue (w : Wave) (fid : Nat) (m : SliceMask) : Wave :=
  let w := w.modFrag fid fun f => { f with issued := f.issued + 1, wait := .none }
  { w with issueCount := w.issueCount + 1,
           pend := w.pend.map fun p =>
             if (p.slices &&& m) = 0 then p
             else { p with overtaken := true,
                           window := (slicesOf (p.slices &&& m)).foldl
                             (fun ws k => SMap.set 0 ws k (SMap.get 0 ws k - 1)) p.window } }

/-- Issue clocks of an instruction: a multiple of ceil(a / 8), where a is the number of the fragment's active slices, or a fixed
count (R38, R128, R158, R165, R175, R224, R264, R288, R313, R344). -/
def Env.issueClocks (e : Env) (i : Instr) : Nat :=
  let g := ((slicesOf (slicesOfLanes e.active)).length + 7) / 8
  let v (f : VFmt) (narrow wide : Nat) : Nat := (if f.ty.regs = 2 then wide else narrow) * g
  let m (f : MFmt) : Nat := (if f.size = 4 then 2 else if f.size = 5 then 4 else 1) * g
  let scan (f : VFmt) : Nat := if f.ty = .f64 then 48 else if f.ty = .s32 ∨ f.ty = .z32 then 12 else 24
  let heads (f : GFmt) : Nat := g + (((lanesOf e.lanes).map fun l => e.readRef f.hdr l).eraseDups.length - 1)
  let move (f : XFmt) : Nat := if f.shape = 4 then 4 * g else g
  match i with
  | .add f | .addc f | .sub f | .subb f | .min f | .max f | .abs f | .and f | .or f | .xor f | .not f | .shl f | .shr f | .sar f | .bfe f
  | .bfi f | .brev f | .popc f | .clz f | .cmp f | .sel f | .mov f | .movx f | .movxs f => v f 1 2
  | .mul f | .mulhi f | .mad f => v f 2 8
  | .mulw _ => 2 * g
  | .div f | .rem f => v f 16 48
  | .fadd f | .fsub f | .fmul f | .ffma f | .fmin f | .fmax f | .fabs f | .fneg f | .fcmp f | .fclass f | .fmed3 f | .ffloor f | .fceil f
  | .ftrunc f | .frint f | .ffrac f | .fldexp f | .fexpo f | .fmant f | .fdot2 f | .fdot4 f => v f 1 4
  | .frcp f | .frsq f | .fsqrt f => v f 4 16
  | .fexp2 f | .flog2 f | .fsin f | .fcos f | .ftanh f => v f 4 4
  | .fdiv f => v f 8 32
  | .cvt f => if f.ty.regs = 2 ∨ (cvtFrom f).regs = 2 then 2 * g else g
  | .pack f => if f.ty.elems = 4 then 2 * g else g
  | .cvtmx _ | .unpack _ | .mxscale _ | .bperm _ | .voteany _ | .voteall _ | .ballot _ | .rdfirst _ => g
  | .voteeq f => v f 1 2
  | .pand _ | .por _ | .pxor _ | .pandn _ | .pnot _ | .pmov _ => g
  | .shfl f | .shflup f | .shfldn f | .shflx f | .compact f | .expand f => v f 1 2 + 1
  | .scan f | .scanx f | .reduce f => scan f
  | .ld f | .st f | .lds f | .sts f | .ldsr f | .stsr f | .tld f | .tst f | .pref f | .evict f | .aadd f | .afadd f | .amin f | .amax f
  | .aand f | .aor f | .axor f | .axchg f | .acas f => m f
  | .atile _ | .sqpush _ | .sqpop _ => 4 * g
  | .refchk _ | .objq _ | .taddr _ | .tdesc _ => g
  | .derive _ | .narrow _ | .refadd _ | .refoff _ | .refset _ | .refcmp _ => 2 * g
  | .amovr f | .amovw f => move f
  | .sample f | .gather f | .texq f | .sampleN f => heads f
  | .rng f => ((f.ctl.extractLsb' 0 3).toNat + 1) * g
  | .rayTrace _ | .rayNext _ => g
  | .sread f => if isV f.op1 then g else 1
  | _ => 1

/-- Charge an issue to the context's count on the core (R359). -/
def State.chargeIssue (s : State) (ctx core clocks : Nat) : State :=
  { s with contexts := s.contexts.modify ctx fun c =>
      { c with issue := SMap.set 0 c.issue core (SMap.get 0 c.issue core + clocks) } }

/-- A wait of R362 case 3, in which a step phase stops a fragment where it stands: a barrier, a WAITB, WAITBN, COLL.WAIT or
WAIT.CLK, a gang, a conversion, or a granule. -/
def Wait.stands : Wait → Bool
  | .bar _ _ | .batch _ _ | .batchN _ _ | .coll _ | .clkAt _ | .clkAbs _ | .gang | .conversion _ | .moved _ _ | .granule _ _ _ _ => true
  | _ => false

/-- A wait that the instruction itself has begun, with what it noted then: an arrival made, a number or a time taken. -/
def Wait.begun : Wait → Bool
  | .bar _ _ | .batch _ _ | .batchN _ _ | .coll _ | .clkAt _ | .clkAbs _ => true
  | _ => false

/-- The fragment waits; in a step phase a wait of R362 case 3 stops it where it stands. -/
def State.setWait (s : State) (e : Env) (wt : Wait) : State :=
  let parked := match wt with
    | .pending id => e.wave.pend.any fun p => p.id == id && p.unperformed
    | _ => false
  let stop := e.wg.stepping.isSome && (wt.stands || parked)
  let s := s.modWave e.wk fun w => w.modFrag e.fid fun f =>
    { f with wait := wt, slot := f.slot && wt == .again, slotSince := if wt == .again then f.slotSince else none,
             stopped := if stop then some .stood else f.stopped }
  State.arrive e.wk arriveFuel s

/-- Something outside the instruction holds it back; a wait that it has begun stands. -/
def State.holdBack (s : State) (e : Env) (wt : Wait) : State :=
  if e.frag.wait.begun then State.arrive e.wk arriveFuel s else s.setWait e wt

/-- The address after the instruction. -/
def Env.after (e : Env) (i : Instr) : CodeAddr := e.pc + BitVec.ofNat 39 (Instr.words i)

/-- The active lanes move past the instruction, but for those with a target of their own. -/
def State.moveLanes (s : State) (e : Env) (i : Instr) (to_ : List (Nat × CodeAddr)) : State :=
  s.modWave e.wk fun w =>
    w.withPcs fun l =>
      if e.active.getLsbD l then (match to_.find? fun t => t.1 = l with
        | some t => t.2
        | none => e.after i) else w.pc l

/-- The active lanes move past the instruction, but for those with a target of their own; then fragments form
anew. -/
def State.advance (s : State) (e : Env) (i : Instr) (to_ : List (Nat × CodeAddr)) (branch : Bool) : State :=
  (s.moveLanes e i to_).settle e.wk e.fid (some (e.after i)) branch

/-- Count the issue, for the wave and for the context. -/
def State.countIssue (s : State) (e : Env) (i : Instr) : State :=
  (s.modWave e.wk fun w => w.countIssue e.fid e.frag.slices).chargeIssue e.launch.ctx.toNat e.core (e.issueClocks i)

/-- A long-latency instruction's writes are held back: LA is not 0, and no float trap enable is 1 (R107, R142). -/
def Env.delays (e : Env) (i : Instr) : Bool :=
  Instr.longLatency i && decide (formLa i.form ≠ 0) && decide ((Cond.enables e.wave.mode).floatCause = none)

/-- A pending record for an instruction that issues now. -/
def Env.pendingOf (e : Env) (w : Wave) (i : Instr) (kind : PendKind) (mask : LaneMask) (accs : List Acc)
    (ws : List RegWrite) (c : Cond) : Pending :=
  { id := w.nextPend, pc := e.pc, instr := i, slices := e.frag.slices,
    window := (slicesOf e.frag.slices).foldl (fun m k => SMap.set 0 m k (formLa i.form)) [],
    overtaken := false, kind := kind, mask := mask, accs := accs, writes := ws, flags := c.sticky, samples := [],
    late := none, fence := 0 }

/-- Add a pending record to the wave. -/
def Wave.pushPending (w : Wave) (p : Pending) : Wave :=
  { w with pend := w.pend ++ [p], nextPend := w.nextPend + 1 }

/-- Complete the act of an instruction. -/
def State.perform (e : Env) (i : Instr) (s0 : State) : Act → State
  | .writes s ws c =>
    let s := s.countIssue e i
    let s := s.modWave e.wk fun w =>
      let w := w.markBlocks ws
      if e.delays i then w.pushPending (e.pendingOf w i .result 0 [] ws c)
      else { w.applyAll ws with mode := c.intoMode w.mode }
    s.advance e i [] false
  | .access s p =>
    let s := s.countIssue e i
    let s := s.modWave e.wk fun w => (w.markBlocks p.writes).pushPending { p with id := w.nextPend }
    s.advance e i [] false
  | .late s p c v =>
    if e.wave.hasRays then s0.setWait e .again
    else
      let s := (s.countIssue e i).modWave e.wk fun w =>
        (w.markBlocks p.writes).pushPending { p with id := w.nextPend, late := some c }
      (s.enterTrap e.wk e.fid (lateCode c) e.pc e.pc v).settle e.wk e.fid none false
  | .hold s wt => s.setWait e wt
  | .split s stay wt =>
    let s := State.countIssue s { e with frag := { e.frag with slices := e.frag.slices &&& ~~~stay } } i
    let s := s.moveLanes e i ((lanesOf (e.active &&& lanesOfSlices stay)).map fun l => (l, e.pc))
    let s := (s.form e.wk e.fid (some (e.after i)) false).modWave e.wk fun w => { w with frags := w.frags.map fun f =>
      if f.trapLevel = 0 ∧ (f.slices &&& stay) ≠ 0 then
        { f with wait := wt, slot := false, slotSince := none, stopped := if e.wg.stepping.isSome then some .stood else f.stopped }
      else f }
    State.arrive e.wk arriveFuel s
  | .trap c v => (s0.enterTrap e.wk e.fid c e.pc e.pc v).settle e.wk e.fid none false
  | .trapIn s c v => (s.enterTrap e.wk e.fid c e.pc e.pc v).settle e.wk e.fid none false
  | .trapNext c v =>
    if e.wave.hasRays then s0.setWait e .again
    else
      ((s0.countIssue e i).enterTrap e.wk e.fid c e.pc (e.pc + BitVec.ofNat 39 (Instr.words i)) v).settle e.wk e.fid none false
  | .jump s to_ => (s.countIssue e i).advance e i to_ (Instr.endsBlock i)
  | .placed s => State.arrive e.wk arriveFuel (s.countIssue e i)

/-- The fragment that a gang makes, with the slices of every lane that takes part: its executing lanes are those that pass the
predicate, from every fragment (R40, R41). -/
def Env.ganged (e : Env) (i : Instr) (s : State) : Env :=
  let w := e.wave
  let m := slicesOfLanes w.partakers
  let h := s.codeWord e.launch w.dom.toNat w.codeObj.toNat e.frag.block.toNat
  let f := { e.frag with slices := m }
  let w1 : Wave := { w with gangParked := w.gangParked &&& ~~~w.partakers,
                            frags := (w.frags.filter fun g : Frag => g.trapLevel != 0) ++ [f] }
  let w1 := w1.setJoins m (h.bind fun h => headerReconv h e.frag.block)
  let k := w1.kreg (formPred i.form).1.toNat
  { e with wave := w1, frag := f, active := w.partakers,
           lanes := w.partakers &&& (if (formPred i.form).2 then ~~~k else k) }

/-- The state in which a gang executes: its slices have joined (R37), as one fragment. -/
def State.ganged (s : State) (e : Env) (i : Instr) : State :=
  let s := s.joinFence e.wk (slicesOfLanes e.wave.partakers)
  s.modWave e.wk fun _ => (e.ganged i s).wave

/-- A fragment at a gang point: mismatch, parking, or the execution for the whole gang, once the parked accesses of its
slices have been performed (R37, R40, R41). In a step phase the slices that are gang-parked have stopped, so the gang
completes only after restore (R362). -/
def State.gang (s : State) (e : Env) (i : Instr) (body : Env → State → Act) : State :=
  let w := e.wave
  let elsewhere := lanesOf (w.gangParked &&& ~~~w.trapParked) |>.find? fun l => w.pc l != e.pc
  match elsewhere with
  | some l => State.perform e i s (.trap 0x10 ((w.pc l).zeroExtend 64))
  | none =>
    let parked := w.gangParked ||| e.active
    if (w.partakers &&& ~~~parked) ≠ 0 then
      let s := s.modWave e.wk fun w => { w with gangParked := parked }
      s.settle e.wk e.fid none false
    else if e.wg.stepping.isSome ∧ (w.partakers &&& ~~~e.active) ≠ 0 then s.setWait e .gang
    else
      match w.pend.find? fun p => p.unperformed && (p.slices &&& slicesOfLanes w.partakers) != 0 with
      | some p => s.setWait e (.pending p.id)
      | none =>
        let e1 := e.ganged i s
        let t := s.ganged e i
        match e1.joinWait t i with
        | some w => s.setWait e w
        | none => State.perform e1 i t (if e1.lanes = 0 ∧ !Instr.sharesB i then .writes t [] .none else body e1 t)

/-- A register that an incomplete BLOAD of the wave writes is read or written (R249). -/
def State.bloadBusy (s : State) (wk : Nat) (i : Instr) : Bool :=
  s.matOps.any fun o => decide (o.wave = wk) && (match o.instr with
    | .bload _ => Instr.waitsFor i o.instr
    | _ => false)

/-- The first of the words that a fetch reads, the fragment's and its extension's, that cannot be had: TVAL names it (R454,
R462). -/
def State.fetchPoison (s : State) (e : Env) (i : Instr) : Option DWord :=
  let dom := e.wave.dom.toNat
  let obj := e.wave.codeObj.toNat
  ((List.range (min (Instr.words i) (max 1 (s.wordsLeft e)))).find? fun k => s.wordPoisoned e.launch dom obj (e.pc.toNat + k)).map fun k =>
    mkRef obj needX (8 * (e.pc.toNat + k))

/-- The fetch of the fragment's instruction meets poison. -/
def State.fetchPoisoned (s : State) (e : Env) (i : Instr) : Bool := (s.fetchPoison e i).isSome

/-- The entry record of a trap that a fragment's slices took waits for its granule: entry has begun and not completed (R416,
R418). -/
def State.entryOwed (s : State) (wk : Nat) (f : Frag) : Bool := s.storeQ.any fun p => ofSlices wk f.slices p && !s.storeReady p

/-- The target of a direct branch as a 64-bit code address (R159, R442). -/
def Env.direct (e : Env) (f : CFmt) : DWord := e.pc.zeroExtend 64 + f.offset.signExtend 64

/-- A target passes the tests of R442: bits [63:39] zero, inside the code object, a header. -/
def State.goodTarget (s : State) (e : Env) (t : DWord) : Bool :=
  decide (t.extractLsb' 39 25 = 0) &&
    isHeader (s.codeWord e.launch e.wave.dom.toNat e.wave.codeObj.toNat t.toNat)

/-- The bad direct target of a CALL that some lane takes: tested as in stage A (R436), since its link may fail stage
B. The other direct branches have no operand that stage B or C tests before their lanes are known to take them. -/
def State.badCall (s : State) (e : Env) (i : Instr) : Option DWord :=
  match i with
  | .call f => if e.lanes ≠ 0 ∧ !s.goodTarget e (e.direct f) then some (e.direct f) else none
  | _ => none

/-- Issue an instruction in a fragment: fetch, interlock, stages A and B, gang, predicate, stage C, then its own effect. -/
def State.issueIn (s : State) (e : Env) (i : Instr) (body : Env → State → Act) : State :=
  if !e.canIssue then State.arrive e.wk arriveFuel s
  else if s.entryOwed e.wk e.frag then s.holdBack e .again
  else
    match e.blocker i, e.joinWait s i with
    | some p, _ =>
      if p.kind = .result then s.modWave e.wk fun w => w.landResult p else s.holdBack e (.pending p.id)
    | none, some w => s.holdBack e w
    | none, none =>
      match s.fetchPoison e i with
      | some v => State.perform e i s (.trap 0x09 v)
      | none =>
      if s.bloadBusy e.wk i then s.holdBack e .again
      else
      match Instr.stageAIn i (s.wordsLeft e), s.badCall e i, e.stageB i with
      | some sub, _, _ => State.perform e i s (.trap 0x40 (illegalVal i.word sub))
      | none, some t, _ => State.perform e i s (.trap 0x41 t)
      | none, none, some sub => State.perform e i s (.trap 0x40 (illegalVal i.word sub))
      | none, none, none =>
        if e.lanes = 0 ∧ !Instr.alwaysTested i then State.perform e i s (.jump s [])
        else
          match e.stageC i with
          | some sub => State.perform e i s (.trap 0x40 (illegalVal i.word sub))
          | none => if Instr.gangPoint i then s.gang e i body else State.perform e i s (body e s)

/-- Issue an instruction in the current fragment. -/
def issue (i : Instr) (body : Env → State → Act) (s : State) : Host.Outcome State Fault Refusal :=
  match s.env i with
  | none => .fault .noFragment
  | some e => .next (s.issueIn e i body)

end Sys2Proof.Machine
end

