-- ==== Sys2Proof/Machine/Trans.lean ====
section
/-!
DEFINITION. FEXP2, FLOG2, FSIN, FCOS and FTANH: the exact real value bracketed between two fixed-point numbers and
rounded once (R148). Every result that is not exactly representable here is irrational, so it lies strictly between
the numbers that bracket it.
-/

namespace Sys2Proof.Machine

/-- floor(π × 2^704). -/
def piFix704 : Nat :=
  0x3243f6a8885a308d313198a2e03707344a4093822299f31d0082efa98ec4e6c89452821e638d01377be5466cf34e90c6cc0ac29b7c97c50dd3f84d5b5b54709179216d5d98979fb1bd1310ba698dfb5ac2ffd72dbd01adfb7

/-- floor(ln 2 × 2^704). -/
def ln2Fix704 : Nat :=
  0xb17217f7d1cf79abc9e3b39803f2f6af40f343267298b62d8a0d175b8baafa2be7b876206debac98559552fb4afa1b10ed2eae35c138214427573b291169b8253e96ca16224ae8c51acbda11317c387eb9ea9bc3b136603b

/-- π × 2^p, p at most 704. -/
def piFix (p : Nat) : Nat := piFix704 / 2 ^ (704 - p)

/-- ln 2 × 2^p, p at most 704. -/
def ln2Fix (p : Nat) : Nat := ln2Fix704 / 2 ^ (704 - p)

/-- Bound on the error of every fixed-point value below, in units of 2^-p. -/
def fixErr : Nat := 2 ^ 20

/-- Σ r^k / k! from term k on, in units of 2^-p; r and the current term in the same units. -/
def expTerms (p r : Nat) : Nat → Nat → Nat → Nat
  | 0, _, _ => 0
  | fuel + 1, k, t => if t = 0 then 0 else t + expTerms p r fuel (k + 1) (t * r / 2 ^ p / (k + 1))

/-- e^r for r in [0, 1), scaled by 2^p. -/
def expFix (p r : Nat) : Nat := expTerms p r 200 0 (2 ^ p)

/-- Σ z^(2k+1) / (2k+1), scaled by 2^p; z2 is z squared. -/
def atanhTerms (p z2 : Nat) : Nat → Nat → Nat → Nat
  | 0, _, _ => 0
  | fuel + 1, k, t => if t = 0 then 0 else t / (2 * k + 1) + atanhTerms p z2 fuel (k + 1) (t * z2 / 2 ^ p)

/-- ln m for m in [1, 2), scaled by 2^p. -/
def lnFix (p m : Nat) : Nat :=
  let z := (m - 2 ^ p) * 2 ^ p / (m + 2 ^ p)
  2 * atanhTerms p (z * z / 2 ^ p) 300 0 z

/-- The alternating series t − t y²/((k+1)(k+2)) + …, scaled by 2^p. -/
def trigTerms (p y2 : Nat) : Nat → Nat → Nat → Int
  | 0, _, _ => 0
  | fuel + 1, k, t =>
    if t = 0 then 0 else (t : Int) - trigTerms p y2 fuel (k + 2) (t * y2 / 2 ^ p / ((k + 1) * (k + 2)))

/-- sin y for y in [0, π/2], scaled by 2^p. -/
def sinFix (p y : Nat) : Int := trigTerms p (y * y / 2 ^ p) 120 1 y

/-- cos y for y in [0, π/2], scaled by 2^p. -/
def cosFix (p y : Nat) : Int := trigTerms p (y * y / 2 ^ p) 120 0 (2 ^ p)

/-- Leading bits a bracket must agree on: a result's precision and the bits of a draw (R139). -/
def leadBits : Nat := 72

/-- The magnitude between lo and hi units of 2^e, if their leading bits agree. -/
def bracket (lo hi : Nat) (e : Int) : Option Mag :=
  let k := bitLen lo - leadBits
  if lo / 2 ^ k = hi / 2 ^ k then some ⟨lo / 2 ^ k, e + k, true⟩ else none

/-- The two precisions tried: the second brackets whatever the first does not. -/
def refine (f : Nat → Option Mag) : Mag :=
  match f 320 with
  | some x => x
  | none => (f 640).getD ⟨0, 0, true⟩

/-- A signed magnitude. -/
structure Signed where
  neg : Bool
  mag : Mag
  deriving DecidableEq, Repr

/-- An exact integer. -/
def Signed.int (x : Int) : Signed := ⟨decide (x < 0), ⟨x.natAbs, 0, false⟩⟩

/-- The value m × 2^e in units of 2^-p, where it is a whole number of them. -/
def fixOf (p m : Nat) (e : Int) : Nat := m * 2 ^ (e + p).toNat

/-- m × 2^e is an integer. -/
def isWhole (m : Nat) (e : Int) : Bool := !(wholePart m e).2

/-- 2^a of a finite a. Beyond ±5,000 every a overflows or vanishes alike. -/
def exp2Mag (neg : Bool) (m : Nat) (e : Int) : Mag :=
  if isWhole m e then
    let n : Int := min 5000 ((wholePart m (min e 40)).1 : Int)
    ⟨1, if neg then -n else n, false⟩
  else refine fun p =>
    let x : Int := fixOf p m e
    let a := if neg then -x else x
    let n := a / 2 ^ p
    let v := expFix p ((a % 2 ^ p).toNat * ln2Fix p / 2 ^ p)
    bracket (max (2 ^ p) (v - fixErr)) (min (2 ^ (p + 1) - 1) (v + fixErr)) (n - p)

/-- log2 of a positive finite value. -/
def log2Val (m : Nat) (e : Int) : Signed :=
  let l := bitLen m
  let ex : Int := (l : Int) - 1 + e
  if m = 2 ^ (l - 1) then Signed.int ex
  else
    let at_ (p : Nat) : Int := ex * 2 ^ p + (lnFix p (m * 2 ^ (p + 1 - l)) * 2 ^ p / ln2Fix p : Nat)
    ⟨decide (at_ 320 < 0), refine fun p =>
      let t := (at_ p).natAbs
      bracket (t - fixErr) (t + fixErr) (-(p : Int))⟩

/-- sin (quarter q) or cos (quarter q + 1) of a turn's fraction: quarter q and the fraction g of a quarter turn. -/
def quarterMag (useCos : Bool) (m : Nat) (e : Int) : Mag :=
  refine fun p =>
    let g := fixOf p m e * 4 % 2 ^ p
    let y := g * piFix p / 2 ^ (p + 1)
    let v := (if useCos then cosFix p y else sinFix p y).toNat
    bracket (v - fixErr) (min (2 ^ p - 1) (v + fixErr)) (-(p : Int))

/-- Which quarter of a turn |a| lies in, and whether it lies exactly at its start; a a multiple of 2^-320. -/
def quarterOf (m : Nat) (e : Int) : Nat × Bool :=
  if 0 ≤ e then (0, true)
  else
    let f := fixOf 320 m e * 4
    (f / 2 ^ 320 % 4, decide (f % 2 ^ 320 = 0))

/-- sin(2πa) of a finite a (R148). -/
def sinVal (neg : Bool) (m : Nat) (e : Int) : Signed :=
  let (q, start) := quarterOf m e
  if start then
    if q % 2 = 0 then ⟨neg, ⟨0, 0, false⟩⟩ else ⟨neg != decide (q = 3), ⟨1, 0, false⟩⟩
  else ⟨neg != decide (2 ≤ q), quarterMag (decide (q % 2 = 1)) m e⟩

/-- cos(2πa) of a finite a (R148). -/
def cosVal (m : Nat) (e : Int) : Signed :=
  let (q, start) := quarterOf m e
  if start then
    if q % 2 = 1 then ⟨false, ⟨0, 0, false⟩⟩ else ⟨decide (q = 2), ⟨1, 0, false⟩⟩
  else ⟨decide (q = 1 ∨ q = 2), quarterMag (decide (q % 2 = 0)) m e⟩

/-- |tanh a| of a finite nonzero a. Below 2^-64 it lies within |a|^3 under |a|; from 128 up within 2^-300 under 1. -/
def tanhMag (m : Nat) (e : Int) : Mag :=
  let top : Int := (bitLen m : Int) + e
  if top ≤ -64 then ⟨m * 2 ^ 80 - 1, e - 80, true⟩
  else if 7 < top then ⟨2 ^ 200 - 1, -200, true⟩
  else refine fun p =>
    let y := 2 * fixOf p m e
    let n := y / ln2Fix p
    let t := expFix p (y - n * ln2Fix p) * 2 ^ n
    let v := (t - 2 ^ p) * 2 ^ p / (t + 2 ^ p)
    bracket (v - fixErr) (min (2 ^ p - 1) (v + fixErr)) (-(p : Int))

/-- Round a signed magnitude. -/
def FFmt.roundS (f : FFmt) (fz : Bool) (mode : RMode) (x : Signed) : FRes := f.round fz mode x.neg x.mag

/-- FEXP2 (R148). -/
def FFmt.exp2R (f : FFmt) (fz : Bool) (mode : RMode) (a : FVal) : FRes :=
  match a with
  | .nan => f.nanRes false
  | .inf s => if s then ⟨0, Cond.none⟩ else f.infRes false
  | .fin s m e => f.round fz mode false (exp2Mag s m e)

/-- FLOG2 (R148). -/
def FFmt.log2R (f : FFmt) (fz : Bool) (mode : RMode) (a : FVal) : FRes :=
  match a with
  | .nan => f.nanRes false
  | .inf s => if s then f.nanRes true else f.infRes false
  | .fin s m e =>
    if m = 0 then ⟨f.infCode true, { Cond.none with fdz := true }⟩
    else if s then f.nanRes true
    else f.roundS fz mode (log2Val m e)

/-- FSIN (R148). -/
def FFmt.sinR (f : FFmt) (fz : Bool) (mode : RMode) (a : FVal) : FRes :=
  match a with
  | .nan => f.nanRes false
  | .inf _ => f.nanRes true
  | .fin s m e => f.roundS fz mode (sinVal s m e)

/-- FCOS (R148). -/
def FFmt.cosR (f : FFmt) (fz : Bool) (mode : RMode) (a : FVal) : FRes :=
  match a with
  | .nan => f.nanRes false
  | .inf _ => f.nanRes true
  | .fin _ m e => f.roundS fz mode (cosVal m e)

/-- FTANH (R148). -/
def FFmt.tanhR (f : FFmt) (fz : Bool) (mode : RMode) (a : FVal) : FRes :=
  match a with
  | .nan => f.nanRes false
  | .inf s => ⟨f.signBit s + f.bias * 2 ^ f.fbits, Cond.none⟩
  | .fin s m e => if m = 0 then ⟨f.signBit s, Cond.none⟩ else f.round fz mode s (tanhMag m e)

end Sys2Proof.Machine
end

