-- ==== Sys2Proof/Machine/Arith.lean ====
section
/-!
DEFINITION. What the arithmetic instructions share: per-lane writes, rounding modes, draws (R140, R278, R279) and
the float trap decision (R142).
-/

namespace Sys2Proof.Machine

/-! ## Lanes -/

/-- The writes of every executing lane, ascending. -/
def Env.lanewise (e : Env) (g : Nat → List RegWrite) : List RegWrite := (lanesOf e.lanes).flatMap g

/-- A once-per-fragment integer result (R111, R116). -/
def uniOp (o : IntOp) (f : VFmt) (e : Env) (s : State) : Act :=
  let x (p : Operand) := e.read f.ty p e.first
  .writes s (writeTo f.ty f.d 0 (o.run f.ty f.sat (x f.a) (x f.b) (x f.c))) .none

/-- A per-lane integer result (R112, R116). -/
def vecOp (o : IntOp) (f : VFmt) (e : Env) (s : State) : Act :=
  .writes s (e.lanewise fun l =>
    let x (p : Operand) := e.read f.ty p l
    writeTo f.ty f.d l (o.run f.ty f.sat (x f.a) (x f.b) (x f.c))) .none

/-! ## Draws -/

/-- The mixing function of R140. -/
def mix (w : Word) : Word :=
  let w := w ^^^ (w >>> 16)
  let w := w * 0x7A3CD2E5#32
  let w := w ^^^ (w >>> 15)
  let w := w * 0x4B1D9F37#32
  w ^^^ (w >>> 16)

/-- A lane's logical number (R278). -/
def lidOf (lane wave stage index : Nat) : Word := BitVec.ofNat 32 (lane + 96 * (wave + 16 * (stage + 16 * index)))

/-- The draw of a key and a counter value (R278). -/
def drawOf (key lid n : Word) : Word := mix (mix (key ^^^ lid) + n * 0x2E5BA1C7#32)

/-- The key of a launch and a seed (R278). -/
def drawKey (launch : Word) (seed : BitVec 8) : Word := mix (launch + (seed.zeroExtend 32 <<< 24))

/-- MODE.SEED. -/
def Wave.seed (w : Wave) : BitVec 8 := w.mode.extractLsb' 16 8

/-- The draw a lane takes for its k-th next counter value (R278, R279). -/
def Env.draw (e : Env) (lane k : Nat) : Word :=
  drawOf (drawKey e.launch.lid e.wave.seed) (lidOf lane e.wave.no e.wg.stage e.wg.index)
    (SMap.get 0 e.wave.draws lane + BitVec.ofNat 32 k)

/-- Reserve n counter values in every executing lane (R279). -/
def Env.reserve (e : Env) (n : Nat) (s : State) : State :=
  s.modWave e.wk fun w =>
    let next (m : SMap Word) (l : Nat) : SMap Word := SMap.set 0 m l (SMap.get 0 m l + BitVec.ofNat 32 n)
    { w with draws := (lanesOf e.lanes).foldl next w.draws }

/-! ## Rounding and flushing -/

/-- The rounding code in force: RND, or MODE.RM for 0 (R58, R99). -/
def Env.rounding (e : Env) (rnd : BitVec 3) : Nat := if rnd = 0 then fieldOf e.wave.mode 0 3 else rnd.toNat

/-- A rounding mode of its code; SR with the draw field of element i of n (R139). -/
def modeOf (code : Nat) (draw : Word) (i n : Nat) : RMode :=
  match code with
  | 2 => .rz
  | 3 => .rdn
  | 4 => .rup
  | 5 => .rna
  | 6 => .sr (draw.toNat / 2 ^ (32 / n * i) % 2 ^ (32 / n)) (32 / n)
  | _ => .rne

/-- Subnormals of the type's format are flushed (R57, R58, R137). -/
def Wave.flushes (w : Wave) (t : Ty) : Bool :=
  match t with
  | .f16 => w.mode.getLsbD 4
  | .f32 | .bf16 => w.mode.getLsbD 3
  | _ => false

/-! ## Results with conditions -/

/-- What a lane's operation gives: the writes, and the conditions of each element. -/
structure LaneRes where
  ws : List RegWrite
  conds : List Cond

/-- The conditions of every element of every lane together (R59). -/
def allConds (rs : List (Nat × LaneRes)) : Cond :=
  rs.foldl (fun c r => r.2.conds.foldl Cond.or c) .none

/-- TVAL of a float trap: the lowest lane in which the cause arises and its lowest element (R142). -/
def floatTval (cause : Nat) (rs : List (Nat × LaneRes)) : DWord :=
  match rs.find? fun r => r.2.conds.any fun c => c.has cause with
  | some r =>
    BitVec.ofNat 64 (128 * ((List.range r.2.conds.length).find? fun i => (r.2.conds.getD i .none).has cause).getD 0 + r.1)
  | none => 0

/-- The act of a float instruction: the trap decision of R142, else its writes, its flags and its draws. -/
def floatAct (e : Env) (s : State) (draws : Nat) (rs : List (Nat × LaneRes)) : Act :=
  let c := allConds rs
  match (c.enabled (Cond.enables e.wave.mode)).floatCause with
  | some cause => .trap cause (floatTval cause rs)
  | none => .writes (if draws = 0 then s else e.reserve draws s) (rs.flatMap fun r => r.2.ws) c

/-- The results of every executing lane. -/
def Env.results (e : Env) (g : Nat → LaneRes) : List (Nat × LaneRes) := (lanesOf e.lanes).map fun l => (l, g l)

/-- A register or pair of a type from element results. -/
def Ty.joinRes (t : Ty) (rs : List FRes) : DWord := t.join (rs.map fun r => r.code)

/-- A float operation on decoded operands of one element: flush of the result, rounding mode, a, b, c. -/
abbrev FloatOp := FFmt → Bool → RMode → FVal → FVal → FVal → FRes

/-- A class 0x2 instruction whose D has the type of its operands (R143, R144): each element by itself. -/
def floatOp (o : FloatOp) (rounds : Bool) (f : VFmt) (e : Env) (s : State) : Act :=
  let t := f.ty
  let fz := e.wave.flushes t
  let code := if rounds then e.rounding f.rnd else 1
  floatAct e s (if rounds ∧ code = 6 then 1 else 0) (e.results fun l =>
    let v (p : Operand) (i : Nat) := t.fmt.decodeFz fz (t.elem (e.read t p l) i)
    let rs := (List.range t.elems).map fun i =>
      let r := o t.fmt fz (modeOf code (e.draw l 0) i t.elems) (v f.a i) (v f.b i) (v f.c i)
      if f.sat then t.fmt.clamp01 r else r
    ⟨writeTo t f.d l (Ty.joinRes t rs), rs.map fun r => r.cond⟩)

end Sys2Proof.Machine
end

