-- ==== Sys2Proof/Machine/Migrate.lean ====
section
/-!
DEFINITION. Residency: granule requests (R190, R191), which fail at once (R457), the use order and ranks of granules
(R192), and the ranges of a launch with their reports (R193, R194, R467).
-/

namespace Sys2Proof.Machine

/-! ## Free frames (R191) -/

/-- The free frames of a die. -/
def State.frames (s : State) (die : Nat) : List Nat := SMap.get [] s.freeFrames die

/-- Give a frame of this package back to its home die's list; a retired frame is never given back (R465). -/
def State.returnFrame (s : State) (frame : Nat) : State :=
  if s.retired.contains frame then s
  else
    let d := homeDie (frame * 65536)
    { s with freeFrames := SMap.set [] s.freeFrames d (s.frames d ++ [frame]) }

/-- Give the frame of a granule word back: a host granule to the list of its PASID. -/
def State.returnGranule (s : State) (dom : Nat) (w : DWord) : State :=
  if !granPresent w then s
  else
    match granTier w with
    | 0 | 1 => s.returnFrame (granFrame w)
    | 2 => { s with freeFrames := SMap.set [] s.freeFrames (16 + s.pasid dom) (s.frames (16 + s.pasid dom) ++ [granFrame w]) }
    | _ => s

/-- A frame lies in the second tier. -/
def inSecondTier (frame : Nat) : Bool := (expanderOf (frame * 65536)).isSome

/-- Take the oldest free frame of a list that satisfies p; a retired frame of this package is not given out (R465). -/
def State.takeFrom (s : State) (list : Nat) (p : Nat → Bool) : Option (Nat × State) :=
  match (s.frames list).find? fun f => p f && (decide (16 ≤ list) || !s.retired.contains f) with
  | none => none
  | some f => some (f, { s with freeFrames := SMap.set [] s.freeFrames list ((s.frames list).erase f) })

/-- Take the oldest free HBM frame of a die (R191). -/
def State.takeFrame (s : State) (die : Nat) : Option (Nat × State) := s.takeFrom die fun f => !inSecondTier f

/-- Write the granule word of an extent map. -/
def State.setGranule (s : State) (extroot g : Nat) (w : DWord) : State :=
  match s.granuleAddr extroot g with
  | some a => s.setWord64 a w
  | none => s

/-- Write the word of a granule that a request names. -/
def State.setNeed (s : State) (e : ObjEntry) (g : Nat) (w : DWord) : State :=
  if g < sourceBase then s.setGranule e.extroot g w
  else { s with convs := s.convs.map fun c =>
      if c.desc = e.tdesc then { c with source := SMap.set 0 c.source (g - sourceBase) w } else c }

/-! ## Use order (R192) -/

/-- The granule is the most recently used. -/
def State.touch (s : State) (dom index g : Nat) : State :=
  { s with useOrder := (s.useOrder.filter fun x => x != (dom, index, g)) ++ [(dom, index, g)] }

/-- The granules of n bytes of an object. -/
def granulesOf (off n : Nat) : List Nat := (List.range ((off + n - 1) / 65536 + 1 - off / 65536)).map (off / 65536 + ·)

/-- The granules of n bytes of an object are the most recently used. -/
def State.touchRange (s : State) (dom index off n : Nat) : State :=
  (granulesOf off n).foldl (fun s g => s.touch dom index g) s

/-! ## Ranges of a launch (R193, R194) -/

/-- Range r covers a byte of the n from off on, of an object in the launch's domain. -/
def covers (dom index off n : Nat) (launchDom : Nat) (r : DWord × Nat × Nat × Nat) : Bool :=
  decide (launchDom = dom ∧ refIndex r.1 = index ∧ r.2.1 < off + n ∧ off < r.2.1 + r.2.2.1)

/-- The lowest-numbered range of a launch that covers a byte of n from off on. -/
def Launch.rangeOf (la : Launch) (dom index off n : Nat) : Option Nat :=
  (List.range la.ranges.length).find? fun i => match la.ranges[i]? with
    | some r => covers dom index off n la.dom.toNat r
    | none => false

/-- The lowest-numbered range of a launch that covers a byte of a granule (R193). -/
def Launch.rangeOfGranule (la : Launch) (dom index g : Nat) : Option Nat := la.rangeOf dom index (65536 * g) 65536

/-- The bytes of a report (R194). -/
def reportBytes (lid : Word) (range cls reason low hi lo : Nat) : List Byte :=
  bytesOfNat 8 (lid.toNat * 2 ^ 32 + range * 2 ^ 26 + cls * 2 ^ 22 + reason * 2 ^ 20 + low) ++ bytesOfNat 8 (hi * 2 ^ 32 + lo)

/-- Report a contradiction of a range once; a full ring counts the report against the launch (R194, R467). -/
def State.report (s : State) (n range reason hi lo : Nat) : State :=
  match s.launches.find? n with
  | none => s
  | some la =>
    if la.rangeReported.contains range then s
    else
      let s := { s with launches := s.launches.modify n fun la => { la with rangeReported := la.rangeReported ++ [range] } }
      match (s.contexts.find? la.ctx.toNat).bind fun c => c.notifyq with
      | none => s
      | some (base, entries) =>
        let cls := match la.ranges[range]? with
          | some r => r.2.2.2
          | none => 0
        let ring : Ring := ⟨base, entries, 16⟩
        if s.ringFull ring then
          let s := s.setWord64 (base + 16) (s.word64 (base + 16) + 1)
          let held := s.word64 (base + 24)
          let count := if highWord held = la.lid then (lowWord held).toNat else 0
          s.setWord64 (base + 24) (joinWords la.lid (BitVec.ofNat 32 (count + 1)))
        else s.ringWrite ring (reportBytes la.lid range cls reason 0 hi lo)

/-- Count an access of `len` bytes to a range, and whether it parked; over a window of 65,536 accesses too many parks contradict
classes 2 to 14 (R193). -/
def State.countRange (s : State) (n dom index off len : Nat) (parked : Bool) : State :=
  match s.launches.find? n with
  | none => s
  | some la =>
    match la.rangeOf dom index off len with
    | none => s
    | some r =>
      let cls := match la.ranges[r]? with
        | some x => x.2.2.2
        | none => 0
      let (acc, parks) := la.rangeSeen.getD r (0, 0)
      let acc := acc + 1
      let parks := parks + (if parked then 1 else 0)
      let isOver := decide (2 ≤ cls ∧ cls ≤ 14 ∧ 65536 / 2 ^ (cls - 1) < parks)
      let padded := la.rangeSeen ++ List.replicate (r + 1 - la.rangeSeen.length) (0, 0)
      let seen := padded.set r (if acc = 65536 then (0, 0) else (acc, parks))
      let s := { s with launches := s.launches.modify n fun la => { la with rangeSeen := seen } }
      if isOver && acc == 65536 then s.report n r 0 acc parks else s

/-- Count an engine's accesses to the ranges of a launch, one for each 128-byte line (R193, R365). -/
def State.countLines (s : State) (launch : Option Nat) (dom index : Nat) (lines : Unit → List Nat) (waited : Bool) : State :=
  match launch.bind fun l => (s.launches.find? l).map fun la => (l, la) with
  | none => s
  | some (l, la) =>
    if la.ranges.isEmpty then s else (lines ()).foldl (fun s i => s.countRange l dom index (128 * i) 128 waited) s

/-- Note an engine's access to n bytes of an object: for the use order, and for the ranges of the launch with whether
the operation had to wait (R192, R193). -/
def State.noteEngine (s : State) (launch : Option Nat) (dom index off n : Nat) (waited : Bool) : State :=
  (s.touchRange dom index off n).countLines launch dom index
    (fun _ => (List.range ((off + n - 1) / 128 + 1 - off / 128)).map (off / 128 + ·)) waited

/-- Note an engine's accesses to elements of an object by their byte offsets. -/
def State.noteOffsets (s : State) (launch : Option Nat) (dom index : Nat) (offs : List Nat) (waited : Bool) : State :=
  (((offs.map (· / 65536)).eraseDups).foldl (fun s g => s.touch dom index g) s).countLines launch dom index
    (fun _ => (offs.map (· / 128)).eraseDups) waited

/-! ## Requests (R190, R191, R457) -/

/-- The granule can never be made resident: its request fails at once (R457). -/
def State.failsAtOnce (s : State) (e : ObjEntry) (w : DWord) : Bool :=
  let a := granFrame w * 65536
  if e.pinned then !granPresent w || (granTier w != 2 && !s.names a)
  else granPresent w && granTier w != 2 && (onOtherPackage a || !s.names a)

/-- The request is for a granule of an object. -/
def GranReq.isFor (r : GranReq) (dom index g : Nat) : Bool := decide (r.dom = BitVec.ofNat 16 dom ∧ r.index = index ∧ r.granule = g)

/-- Queue a request for a granule unless it is queued or moving already (R191); an access that misses a granule that is queued
ahead makes it a miss of its own (R193). -/
def State.queueRequest (s : State) (die dom index : Nat) (e : ObjEntry) (g : Nat) (launch : Option Nat) (ahead : Bool) : State :=
  if s.requests.any fun d => d.2.any fun r => r.isFor dom index g then
    if ahead then s
    else { s with requests := s.requests.map fun d => (d.1, d.2.map fun r =>
        if r.isFor dom index g then { r with ahead := false } else r) }
  else
    let q := SMap.get [] s.requests die
    { s with requests := SMap.set [] s.requests die (q ++ [⟨BitVec.ofNat 16 dom, index, e, g, launch, none, ahead⟩]) }

/-- Queue the request of an access that misses a granule. -/
def State.request (s : State) (die dom index : Nat) (e : ObjEntry) (g : Nat) (launch : Option Nat) : State :=
  s.queueRequest die dom index e g launch false

/-- The byte range of an object that an access touches now, for residency. -/
def State.accRange (s : State) (a : Acc) : Nat × Nat :=
  match a.tgt with
  | .byte off => (off, a.size)
  | .elem c0 c1 c2 c3 =>
    let t := s.tensor a.entry
    (t.nibble t.layout c0 c1 c2 c3 / 2, (etypeNibbles t.etype + 1) / 2)
  | .scratch _ _ => (0, 0)

/-- The conversion of a tensor has set no bit for RESLIM (R458). -/
def State.convDead (s : State) (e : ObjEntry) : Bool :=
  match s.convOf e.tdesc with
  | some c => c.dead
  | none => false

/-- The access waits for a conversion: a byte access for its end (R199), a coordinate access where nothing converts the tensor
whose tile is not done. -/
def State.waitsConversion (s : State) (a : Acc) : Bool :=
  match a.tgt with
  | .byte _ => s.converting a.entry
  | .elem c0 c1 c2 c3 => (s.sourceByte a.entry c0 c1 c2 c3).isSome && (s.convOf a.entry.tdesc).isNone
  | .scratch _ _ => false

/-- The granules that an access touches now, those of a conversion's source under their own numbers (R190, R198, R471). -/
def State.accGranules (s : State) (a : Acc) : List Nat :=
  let r := s.accRange a
  match a.tgt with
  | .elem c0 c1 c2 c3 =>
    match s.sourceByte a.entry c0 c1 c2 c3 with
    | some b => [sourceBase + b / 65536]
    | none => granulesOf r.1 r.2
  | _ => granulesOf r.1 r.2

/-- Request the granules that keep an access from its bytes. -/
def State.requestAcc (s : State) (die launch : Nat) (a : Acc) : State :=
  if s.waitsConversion a then s
  else (s.accGranules a).foldl (fun s g =>
    if s.granUsable a.entry (s.needWord a.entry g) then s
    else s.request die a.dom.toNat (refIndex a.ref) a.entry g (some launch)) s

/-- The access fails: a granule of it at once (R457), or the conversion it waits for (R458). -/
def State.accFails (s : State) (a : Acc) : Bool :=
  if s.waitsConversion a then s.convDead a.entry
  else (s.accGranules a).any fun g =>
    let w := s.needWord a.entry g
    !s.granUsable a.entry w && s.failsAtOnce a.entry w

end Sys2Proof.Machine
end

