-- ==== Sys2Proof/Machine/MemCore.lean ====
section
/-!
DEFINITION. What the memory instructions share: lanes' offsets and checks (R100, R178, R200, R453), data placement
(R201), the performing of one lane's access (R204, R206, R211 to R213), parking and late conditions (R190, R455).
-/

namespace Sys2Proof.Machine

/-! ## Data (R80, R201) -/

/-- Registers of an access of n bytes. -/
def wordsOf (n : Nat) : Nat := if n ≤ 4 then 1 else n / 4

/-- The bytes that a data operand supplies in a lane (R201). -/
def Env.data (e : Env) (o : Operand) (lane n : Nat) : List Byte :=
  match o with
  | .v _ | .s _ => ((e.readRun o lane (wordsOf n)).flatMap fun x => bytesOfNat 4 x.toNat).take n
  | _ =>
    if n = 8 then bytesOfNat 8 (e.read .z64 o lane).toNat
    else if n ≤ 4 then bytesOfNat n (e.readZ o lane)
    else (List.replicate (n / 4) (bytesOfNat 4 (e.readZ o lane))).flatten

/-- The register writes of loaded bytes, extended by the size code (R80, R201). -/
def loadWrites (d : Operand) (lane : Nat) (size : BitVec 3) (bs : List Byte) : List RegWrite :=
  let x := natOfBytes bs
  match size.toNat with
  | 6 => writeRun d lane [(BitVec.ofNat 8 x).signExtend 32]
  | 7 => writeRun d lane [(BitVec.ofNat 16 x).signExtend 32]
  | _ => writeRun d lane ((List.range (wordsOf bs.length)).map fun j => BitVec.ofNat 32 (natOfBytes ((bs.drop (4 * j)).take 4)))

/-! ## Checks -/

/-- TVAL of a byte access: the reference with its OFFSET replaced by the effective offset (R453). -/
def byteTval (ref : DWord) (off : Int) : DWord := withOffset ref (off % 2 ^ 42).toNat

/-- A byte-addressed access of a lane as M format gives it (R100), with the rights it needs. -/
def Env.byteAcc (e : Env) (s : State) (f : MFmt) (imm : Int) (need : BitVec 4) (rule : KindRule) (n lane : Nat)
    (data cmp : List Byte) : Except (Nat × DWord) Acc :=
  let ref := e.readRef f.ref lane
  let idx := if f.index = .none then 0 else e.readZ f.index lane
  let off : Int := refOffset ref + idx + imm * n
  match s.checkBytes e.core e.dom ref need rule off n n with
  | .error c => .error (c, byteTval ref off)
  | .ok entry => .ok ⟨lane, e.wave.dom, ref, entry, .byte off.toNat, n, data, cmp⟩

/-- The coordinates of a lane (R206). -/
def Env.coords (e : Env) (o : Operand) (lane : Nat) : List Nat := (e.readRun o lane 4).map fun x => x.toNat

/-- A coordinate access of a lane (R178 with step 5 on coordinates, R206). -/
def Env.elemAcc (e : Env) (s : State) (f : MFmt) (need : BitVec 4) (lane : Nat) (data : List Byte) :
    Except (Nat × DWord) Acc :=
  let ref := e.readRef f.ref lane
  match s.checkObject e.core e.dom ref need .tensor 0 0 with
  | .error c => .error (c, ref)
  | .ok entry =>
    let cs := e.coords f.index lane
    if !(s.tensor entry).inside cs then .error (0x05, ref)
    else
      .ok ⟨lane, e.wave.dom, ref, entry, .elem (cs.getD 0 0) (cs.getD 1 0) (cs.getD 2 0) (cs.getD 3 0),
        sizeBytes f.size, data, []⟩

/-- The lowest failing lane's cause, or every lane's access (R178, R414). -/
def checkAll (xs : List (Except (Nat × DWord) Acc)) : Except (Nat × DWord) (List Acc) :=
  xs.foldr (fun x r =>
    match x with
    | .error c => .error c
    | .ok a => match r with
      | .error c => .error c
      | .ok l => .ok (a :: l)) (.ok [])

/-- Fill the object cache with the entries that checked accesses read (R177). -/
def State.fillObjects (s : State) (core : Nat) (accs : List Acc) : State :=
  accs.foldl (fun s a => s.cacheEntry core a.dom.toNat (refIndex a.ref)) s

/-! ## One lane's access -/

/-- Who makes an access: wave, core, launch and slices. -/
structure Who where
  wk : Nat
  core : Nat
  launch : Nat
  slices : SliceMask
  /-- A parked access is tried again: it has been counted (R193). -/
  again : Bool

/-- What an attempt to perform one access gives. -/
inductive AccOut where
  | done (s : State) (ws : List RegWrite)
  | wait (s : State)
  | late (s : State) (c : LateCause)

/-- The slices that make a lane's access: the lane's own, or all for a once-per-fragment form (R225, R228). -/
def Who.at (w : Who) (i : Instr) (lane : Nat) : SliceMask :=
  if Instr.onceForm i then w.slices else BitVec.ofNat 24 (2 ^ (lane / 4))

/-- Note an access for the use order, and at its first attempt for the launch's ranges, with whether it parks (R192,
R193). -/
def State.noteUse (s : State) (w : Who) (a : Acc) (parked : Bool) : State :=
  let r := s.accRange a
  let s := if parked then s else (s.accGranules a).foldl (fun s g => s.touch a.dom.toNat (refIndex a.ref) g) s
  if w.again then s else s.countRange w.launch a.dom.toNat (refIndex a.ref) r.1 r.2 parked

/-- A tensor whose descriptor or bitmap cannot be read while it is converted (R471). -/
def State.tensorDamaged (s : State) (e : ObjEntry) : Bool :=
  decide (e.kind = 1) && (let t := s.tensor e
    t.pend && (s.anyPoison t.addr 64 || s.anyPoison t.bitmap ((t.tiles + 7) / 8)))

/-- An access cannot learn where its bytes are: its tensor's descriptor or bitmap, or its extent map, cannot be read (R454,
R471). -/
def State.unreadable (s : State) (a : Acc) : Bool :=
  s.tensorDamaged a.entry || ((s.accGranules a).any fun g => decide (g < sourceBase) && s.mapPoisoned a.entry (65536 * g) 1)

/-- What stands between an access and its bytes. -/
inductive Reach where
  /-- Nothing: the address, and the nibble of a 4-bit element. -/
  | place (a nib : Nat)
  /-- A granule or a conversion (R190, R199). -/
  | wait
  /-- A condition that ends it (R454, R455, R457, R468, R471). -/
  | late (c : LateCause)

/-- What stands between an access and its bytes as things are. -/
def State.reaches (s : State) (a : Acc) (write : Bool) : Reach :=
  if s.unreadable a then .late .uncorrectable
  else
    match s.accPlace a with
    | none => if s.accFails a then .late .residency else .wait
    | some (p, nib) =>
      if hostBase ≤ p ∧ !Config.translates (s.pasid a.dom.toNat) (p % hostBase / 65536) write s.tick then .late .translation
      else .place p nib

/-- Ask for what an access waits for, and note that it parks. -/
def State.parks (s : State) (w : Who) (a : Acc) : State := (s.requestAcc (dieOf w.core) w.launch a).noteUse w a true

/-- Reach the bytes of an access: wait for its granule or conversion, meet a late condition, or go on with the
address and the nibble (R190, R457, R468). -/
def State.reach (s : State) (w : Who) (a : Acc) (write : Bool) (go : State → Nat → Nat → AccOut) : AccOut :=
  match s.reaches a write with
  | .late c => .late s c
  | .wait => .wait (s.parks w a)
  | .place p nib => go (s.noteUse w a false) p nib

/-- A load of n bytes at p meets poison (R462): the slice's own stores to those bytes are performed first, which may have
cleared it (R229, R461). -/
def State.loadBad (s : State) (w : Who) (m : SliceMask) (p n : Nat) : State × Bool :=
  if s.anyBad w.core p n then
    let s := s.drainStores fun x =>
      ofSlices w.wk m x && decide (s.accAddr x.acc < p + n ∧ p < s.accAddr x.acc + x.acc.data.length)
    (s, s.anyBad w.core p n)
  else (s, false)

/-- Bytes that a coordinate element occupies. -/
def State.elemBytes (s : State) (a : Acc) : Nat := (etypeNibbles (s.tensor a.entry).etype + 1) / 2

/-- A lane's load (R204, R206): poison is a late condition (R462). -/
def State.loadAcc (s : State) (w : Who) (i : Instr) (f : MFmt) (a : Acc) : AccOut :=
  s.reach w a false fun s p nib =>
    match a.tgt with
    | .elem c0 c1 c2 c3 =>
      let t := s.tensor a.entry
      let n := s.elemBytes a
      let scale := t.scaleByte c0 c1 c2 c3
      let scaleAt := s.residentAddr a.dom.toNat a.entry scale 1
      let bad := s.loadBad w (w.at i a.lane) p n
      let s := bad.1
      if bad.2 || (decide (t.layout = 5) && s.mapPoisoned a.entry scale 1) then .late s .uncorrectable
      else if t.layout = 5 ∧ scaleAt.isNone then
        let w' := s.granuleWord a.entry.extroot (scale / 65536)
        if s.failsAtOnce a.entry w' && !s.granUsable a.entry w' then .late s .residency
        else .wait (s.request (dieOf w.core) a.dom.toNat (refIndex a.ref) a.entry (scale / 65536) (some w.launch))
      else if decide (t.layout = 5) && s.anyBad w.core (scaleAt.getD 0) 1 then .late s .uncorrectable
      else
        let r := s.sliceLoad w.core w.wk (w.at i a.lane) p n
        let x : List Byte :=
          if etypeNibbles t.etype = 1 then
            let nibble : BitVec 4 := (r.2.getD 0 0).extractLsb' (4 * nib) 4
            [if f.size = 6 then nibble.signExtend 8 else nibble.zeroExtend 8]
          else r.2
        if t.layout = 5 then
          let q := r.1.sliceLoad w.core w.wk (w.at i a.lane) (scaleAt.getD 0) 1
          .done q.1 (writeRun f.data a.lane [BitVec.ofNat 32 (natOfBytes (x ++ q.2))])
        else .done r.1 (loadWrites f.data a.lane f.size x)
    | _ =>
      let bad := s.loadBad w (w.at i a.lane) p a.size
      if bad.2 then .late bad.1 .uncorrectable
      else
        let r := bad.1.sliceLoad w.core w.wk (w.at i a.lane) p a.size
        .done r.1 (loadWrites f.data a.lane f.size r.2)

/-- A lane's store: its write goes on its way to the point of coherence, by indivisible units (R185, R201, R204,
R206). -/
def State.storeAcc (s : State) (w : Who) (i : Instr) (f : MFmt) (a : Acc) : AccOut :=
  s.reach w a true fun s _ _ =>
    let agent : Agent := ⟨w.wk, w.at i a.lane⟩
    match a.tgt with
    | .elem c0 c1 c2 c3 =>
      let t := s.tensor a.entry
      let x := { a with size := s.elemBytes a, data := a.data.take (s.elemBytes a) }
      let s1 := { s with storeQ := s.storeQ ++
        [⟨agent, w.core, x, f.order.getLsbD 1, f.scope, decide (etypeNibbles t.etype = 1), false⟩] }
      if t.layout = 5 then
        let off := t.scaleByte c0 c1 c2 c3
        if s.mapPoisoned a.entry off 1 then .late s .uncorrectable
        else if (s.residentAddr a.dom.toNat a.entry off 1).isNone then
          let w' := s.granuleWord a.entry.extroot (off / 65536)
          if s.failsAtOnce a.entry w' && !s.granUsable a.entry w' then .late s .residency
          else .wait (s.request (dieOf w.core) a.dom.toNat (refIndex a.ref) a.entry (off / 65536) (some w.launch))
        else
          .done (s1.queueStore agent w.core (f.order.getLsbD 1) f.scope { a with tgt := .byte off, size := 1, data := [a.data.getD 1 0] }) []
      else .done s1 []
    | _ => .done (s.queueStore agent w.core (f.order.getLsbD 1) f.scope a) []

/-! ## Atomics -/

/-- Update units bypass the L1 and the remote data cache: the issuing core and die keep no copy of the line
(R185). -/
def State.bypass (s : State) (core p : Nat) : State :=
  let s := s.dropRemote (dieOf core) fun line => line == lineOf p
  { s with l1 := SMap.set [] s.l1 core ((SMap.get [] s.l1 core).filter fun x => x.1 != lineOf p) }.dropTexels core p 1

/-- The new value of an atomic: old value m, operand x, compare value c, width in bytes, signed (R210 to R212). -/
def atomValue (i : Instr) (bytes : Nat) (signed : Bool) (m x c : Nat) : Nat :=
  let t : Ty := match bytes, signed with
    | 8, true => .s64
    | 8, false => .z64
    | _, true => .s32
    | _, false => .z32
  match i with
  | .aadd _ => (m + x) % 2 ^ (8 * bytes)
  | .afadd _ => (binary32.addR false .rne (binary32.decode m) (binary32.decode x)).code
  | .amin _ => if t.value x < t.value m then x else m
  | .amax _ => if t.value m < t.value x then x else m
  | .aand _ => Nat.land m x
  | .aor _ => Nat.lor m x
  | .axor _ => Nat.xor m x
  | .axchg _ => x
  | .acas _ => if m = c then x else m
  | _ => m

/-- Eight f32 sums of a tile update (R213). -/
def tileAdd (old add : List Byte) : List Byte :=
  (List.range (old.length / 4)).flatMap fun j =>
    let w (l : List Byte) := binary32.decode (natOfBytes ((l.drop (4 * j)).take 4))
    bytesOfNat 4 (binary32.addR false .rne (w old) (w add)).code

/-- The slices' pending stores to n bytes at p are performed, with those that their order puts before them (R229 case 1). -/
def State.drainOverlap (s : State) (w : Who) (m : SliceMask) (p n : Nat) : State :=
  s.drainStores fun x => ofSlices w.wk m x && decide (s.accAddr x.acc < p + n ∧ p < s.accAddr x.acc + x.acc.data.length)

/-- A lane's update, one indivisible step at its home (R185, R211, R213, R462). A poisoned sector takes no update:
with a result the condition is late, else the discarded update is counted. -/
def State.atomicAcc (s : State) (w : Who) (i : Instr) (f : MFmt) (a : Acc) : AccOut :=
  s.reach w a true fun s p _ =>
    let returns := f.immOp != .none || (match i with
      | .acas _ => true
      | _ => false)
    let isTile := match i with
      | .atile _ => true
      | _ => false
    let s := (s.drainOverlap w (w.at i a.lane) p a.size).bypass w.core p
    if s.anyPoison p a.size then
      if returns && !isTile then .late s .uncorrectable
      else .done (if isTile then s else s.countError (homeOf p) 3 1) []
    else
      let old := s.bytes p a.size
      let new := if isTile then tileAdd old a.data
        else bytesOfNat a.size
          (atomValue i a.size (f.size == 6 || f.size == 7) (natOfBytes old) (natOfBytes a.data) (natOfBytes a.cmp))
      let s := (s.setBytes p new).homeWritten none p a.size
      .done s (if returns && !isTile then loadWrites f.data a.lane (if a.size = 8 then 3 else 2) old else [])

/-- One element of a DRAIN.ADD, under the arithmetic of R212, in the update unit of its home (R258, R259); in a
poisoned sector nothing is updated (R462). -/
def State.drainAddAcc (s : State) (w : Who) (a : Acc) : AccOut :=
  s.reach w a true fun s p _ =>
    let s := s.bypass w.core p
    if s.anyPoison p 4 then .done s []
    else .done ((s.setBytes p (tileAdd (s.bytes p 4) a.data)).homeWritten none p 4) []

/-! ## Stage queues (R42, R43, R209) -/

/-- Records in the ring. -/
def StageQueue.ringed (q : StageQueue) : Nat := (q.recs.filter fun r => match r with
  | .ring _ => true
  | .spill _ => false).length

/-- Places of the spill area that hold a record. -/
def StageQueue.spilled (q : StageQueue) : List Nat := q.recs.filterMap fun r => match r with
  | .ring _ => none
  | .spill n => some n

/-- The ring is full and the spilled records number the spill limit (R43). -/
def StageQueue.full (q : StageQueue) : Bool := decide (512 ≤ q.ringed ∧ q.spillLimit ≤ q.spilled.length)

/-- The lowest free place of the spill area. -/
def StageQueue.freePlace (q : StageQueue) : Nat := ((List.range q.spillLimit).find? fun n => !q.spilled.contains n).getD 0

/-- Change a stage queue of a launch. -/
def State.modQueue (s : State) (launch q : Nat) (f : StageQueue → StageQueue) : State :=
  { s with launches := s.launches.modify launch fun la => { la with queues := la.queues.modify q f } }

/-- The sixteen words of a record. -/
def recordWords (bs : List Byte) : List Word :=
  (List.range 16).map fun j => BitVec.ofNat 32 (natOfBytes ((bs.drop (4 * j)).take 4))

/-- The access to a place of a queue's spill area. DESIGN CHOICE (log 103): the area is an array of records from the
reference's OFFSET on, of which a spilled one takes the lowest free; the manual does not lay it out. -/
def State.spillAcc (s : State) (w : Who) (q : StageQueue) (place : Nat) : Acc :=
  let dom := ((s.launches.find? w.launch).map fun la => la.dom).getD 0
  ⟨0, dom, q.spillRef, s.entryFor w.core dom.toNat (refIndex q.spillRef), .byte (refOffset q.spillRef + 64 * place), 64, [], []⟩

/-- Queue k of a launch accepts a record: in its ring in the L2 of die k mod 4, or where that is full in its spill area;
it waits while both are full (R42, R43). -/
def State.pushRecord (s : State) (w : Who) (k : Nat) (bs : List Byte) : AccOut :=
  match (s.launches.find? w.launch).bind fun la => la.queues.find? k with
  | none => .done s []
  | some q =>
    let add (r : QRec) (s : State) : AccOut := .done (s.modQueue w.launch k fun q => { q with recs := q.recs ++ [r] }) []
    if q.full then .wait s
    else if q.ringed < 512 then add (.ring (recordWords bs)) s
    else s.reach w (s.spillAcc w q q.freePlace) true fun s p _ => add (.spill q.freePlace) (s.dieWrite (k % 4) p bs)

/-- Queue k of a launch delivers its oldest record to `got`, from its ring or its spill area; it waits on an empty open queue,
and says the end of a closed one (R42, R43). A spilled record whose granule is not resident is waited for (R190), and one in a
poisoned sector meets a late condition (R462). -/
def State.popRecord (s : State) (w : Who) (k : Nat) (got : State → List Word → AccOut) (atEnd : AccOut) : AccOut :=
  match (s.launches.find? w.launch).bind fun la => la.queues.find? k with
  | none => .done s []
  | some q =>
    match q.recs with
    | .ring r :: rest => got (s.modQueue w.launch k fun q => { q with recs := rest }) r
    | .spill n :: rest => s.reach w (s.spillAcc w q n) false fun s p _ =>
        if s.portPoisoned (k % 4) p || s.portPoisoned (k % 4) (p + 32) then .late s .uncorrectable
        else got (s.modQueue w.launch k fun q => { q with recs := rest }) (recordWords (s.portBytes (k % 4) p 64))
    | [] => if q.closed then atEnd else .wait s

/-- A lane's push (R209). -/
def State.pushAcc (s : State) (w : Who) (f : MFmt) (a : Acc) : AccOut := s.pushRecord w f.imm.toNat a.data

/-- A lane's pop, with its predicate saying the end of a closed queue (R43, R209). -/
def State.popAcc (s : State) (w : Who) (f : MFmt) (a : Acc) : AccOut :=
  s.popRecord w f.imm.toNat (fun s r => .done s (writeRun f.data a.lane r ++ writeP f.index a.lane false))
    (.done s (writeP f.index a.lane true))

/-- Perform one lane's access of a memory instruction. -/
def State.perform1 (s : State) (w : Who) (i : Instr) (a : Acc) : AccOut :=
  match i with
  | .ld f | .sld f | .tld f => s.loadAcc w i f a
  | .st f | .sst f | .tst f => s.storeAcc w i f a
  | .aadd f | .afadd f | .amin f | .amax f | .aand f | .aor f | .axor f | .axchg f | .acas f | .atile f =>
    s.atomicAcc w i f a
  | .sqpush f => s.pushAcc w f a
  | .sqpop f => s.popAcc w f a
  | .drainAdd _ => s.drainAddAcc w a
  | _ => .done s []

/-! ## All lanes -/

/-- What a run over the lanes leaves: register writes, unfinished accesses, late conditions. -/
structure RunRes where
  s : State
  ws : List RegWrite
  left : List Acc
  late : List (Acc × LateCause)

/-- Perform accesses in ascending lane order; those that cannot be performed are left. -/
def runAccs (w : Who) (i : Instr) (s : State) (accs : List Acc) : RunRes :=
  accs.foldl (fun r a =>
    match r.s.perform1 w i a with
    | .done s ws => { r with s := s, ws := r.ws ++ ws }
    | .wait s => { r with s := s, left := r.left ++ [a] }
    | .late s c => { r with s := s, late := r.late ++ [(a, c)] }) ⟨s, [], [], []⟩

/-- A list in an order that the device chooses: the elements left are taken one at a time. -/
def permuted {α : Type} (choose : Nat → Nat) : Nat → List α → List α
  | 0, l => l
  | n + 1, l =>
    match l with
    | [] => []
    | x :: _ =>
      let k := choose n % l.length
      l.getD k x :: permuted choose n (l.eraseIdx k)

/-- Some element and a later one satisfy p. -/
def anyPair {α : Type} (p : α → α → Bool) : List α → Bool
  | [] => false
  | x :: rest => rest.any (p x) || anyPair p rest

/-- A list in an order that the device chooses where two of its elements meet, else as it stands. -/
def State.anyOrder {α : Type} (s : State) (meets : α → α → Bool) (l : List α) : State × List α :=
  if anyPair meets l then
    ({ s with freeCount := s.freeCount + l.length },
      permuted (fun k => Config.freeChoice (s.freeCount + k)) l.length l)
  else (s, l)

/-- Two captured accesses may touch a common location: their entries name one extent map, as entries do that OBJ.GRANT
has made of one another (R226, R336). -/
def accOverlap (a b : Acc) : Bool :=
  decide (a.entry.extroot = b.entry.extroot ∨ (a.dom = b.dom ∧ refIndex a.ref = refIndex b.ref)) &&
    (match a.tgt, b.tgt with
     | .byte x, .byte y => decide (x < y + b.size ∧ y < x + a.size)
     | .elem a0 a1 a2 a3, .elem b0 b1 b2 b3 => decide (a0 = b0 ∧ a1 = b1 ∧ a2 = b2 ∧ a3 = b3)
     | _, _ => true)

/-- The lanes' updates at one location come in an order that the device chooses (R211): the atomics but ATILE, whose
lanes are ordered (R213). -/
def Instr.unorderedLanes : Instr → Bool
  | .aadd _ | .afadd _ | .amin _ | .amax _ | .aand _ | .aor _ | .axor _ | .axchg _ | .acas _ => true
  | _ => false

/-- ATILE and DRAIN.ADD, whose additions are one update (R213, R259). -/
def Instr.isWhole : Instr → Bool
  | .atile _ | .drainAdd _ => true
  | _ => false

/-- Perform the additions of one tile update: all of them, or none while one must wait or meets a late condition
(R213, R259). Those in poisoned sectors are discarded, which counts once for the update (R462, R463). -/
def runWhole (w : Who) (i : Instr) (s : State) (accs : List Acc) : RunRes :=
  let met := accs.map fun a => (a, s.reaches a true)
  let late := met.filterMap fun x => match x.2 with
    | .late c => some (x.1, c)
    | _ => none
  let waiting := met.filterMap fun x => match x.2 with
    | .wait => some x.1
    | _ => none
  if !late.isEmpty then
    ⟨s, [], accs.filter fun a => !late.any fun x => x.1 == a, late⟩
  else if !waiting.isEmpty then ⟨waiting.foldl (fun s a => s.parks w a) s, [], accs, []⟩
  else
    let bad := met.findSome? fun x => match x.2 with
      | .place p _ => if s.anyPoison p x.1.size then some p else none
      | _ => none
    let r := runAccs w i s accs
    match bad with
    | some p => { r with s := r.s.countError (homeOf p) 3 1 }
    | none => r

/-- The launch is in deterministic mode (R373). -/
def State.det (s : State) (launch : Nat) : Bool := ((s.launches.find? launch).map fun la => la.det).getD false

/-- The pending stores pushed since the queue held n: where some of them write common bytes they stand in an order that
the device chooses (R201). -/
def State.mixStores (s : State) (n : Nat) : State :=
  let r := s.anyOrder (fun x y => accOverlap x.acc y.acc) (s.storeQ.drop n)
  { r.1 with storeQ := s.storeQ.take n ++ r.2 }

/-- Perform the lanes' accesses of an instruction. Lanes of one atomic that meet do so in an order that the device
chooses, in deterministic mode in ascending order (R211); of lanes of one store that write the same bytes the device
chooses the last (R201); a tile update is whole (R213). -/
def runLanes (w : Who) (i : Instr) (s : State) (accs : List Acc) : RunRes :=
  if Instr.isWhole i then runWhole w i s accs
  else if Instr.unorderedLanes i && !s.det w.launch then
    let r := s.anyOrder accOverlap accs
    runAccs w i r.1 r.2
  else
    let r := runAccs w i s accs
    { r with s := if Instr.isStore i then r.s.mixStores s.storeQ.length else r.s }

/-- TVAL of a late condition (R453, R458). -/
def accTval (a : Acc) : DWord :=
  match a.tgt with
  | .byte off => byteTval a.ref off
  | _ => a.ref

/-- The condition that is reported among several: the lowest cause code, for its lowest lane (R414). -/
def worstLate (l : List (Acc × LateCause)) : Option (Acc × LateCause) :=
  l.foldl (fun b x =>
    match b with
    | none => some x
    | some y => if lateCode x.2 < lateCode y.2 then some x else some y) none

/-- The lanes of accesses. -/
def accMask (accs : List Acc) : LaneMask := accs.foldl (fun m a => setLane m a.lane true) 0

/-- The state with a short-latency instruction's register writes in the wave. -/
def State.regsNow (s : State) (wk : Nat) (ws : List RegWrite) : State :=
  s.modWave wk fun w => (w.markBlocks ws).applyAll ws

/-- ORDER and SCOPE of a memory instruction; a push is a release and a pop an acquire (R44). -/
def memOrder (i : Instr) : BitVec 2 × BitVec 3 :=
  match i with
  | .ld f | .st f | .sld f | .sst f | .tld f | .tst f | .lds f | .sts f | .ldsr f | .stsr f | .fence f
  | .aadd f | .afadd f | .amin f | .amax f | .aand f | .aor f | .axor f | .axchg f | .acas f | .atile f =>
    (f.order, f.scope)
  | .sqpush f => (2, f.scope)
  | .sqpop f => (1, f.scope)
  | _ => (0, 0)


/-- Who issues the instruction. -/
def Env.who (e : Env) : Who := ⟨e.wk, e.core, e.wg.launch, slicesOfLanes e.active, false⟩

/-- An earlier instruction with accesses comes before accesses of an order of the fragment: a slice of theirs made both, and it
has acquire order, they have release order, or both touch a common location (R229). -/
def Env.meets (e : Env) (order : BitVec 2) (accs : List Acc) (i : Instr) (m : SliceMask) (xs : List Acc) : Bool :=
  (m &&& e.frag.slices) != 0 && ((memOrder i).1.getLsbD 0 || order.getLsbD 1 || xs.any fun a => accs.any fun b => accOverlap a b)

/-- What accesses of an order have to wait for outside the commit log: a parked access of their slices, or the geometry reads of
a builder operation of theirs, which are the slice's own (R225, R229). -/
def Env.followsOps (e : Env) (s : State) (order : BitVec 2) (accs : List Acc) : Option Wait :=
  let reads (o : BuildOp) : Bool := !o.started && o.wave == e.wk && (o.slices &&& e.frag.slices) != 0 && o.count != 0 &&
    (order.getLsbD 1 || accs.any fun a => decide (a.dom = o.dom ∧ refIndex a.ref = refIndex o.geoRef))
  match e.wave.pend.find? fun p => p.unperformed && e.meets order accs p.instr p.slices p.accs with
  | some p => some (.pending p.id)
  | none => if s.builds.any reads then some .again else none

/-- What accesses of an order have to wait for: an earlier operation, or an update of theirs in the commit log (R214, R225,
R229). -/
def Env.mustFollow (e : Env) (s : State) (order : BitVec 2) (accs : List Acc) : Option Wait :=
  match e.followsOps s order accs with
  | some w => some w
  | none => if e.wg.log.any fun x => x.wave == e.wk && e.meets order accs x.instr x.slices x.accs then some .token else none

/-- The act of checked accesses: release before them, acquire with them, then every lane that can; the others park,
and a late condition traps (R186, R190, R200, R455). -/
def Env.accessAct (e : Env) (i : Instr) (s : State) (accs : List Acc) : Act :=
  let (order, scope) := memOrder i
  match e.mustFollow s order accs with
  | some w => .hold s w
  | none =>
    let s := s.fillObjects e.core accs
    let s := if order.getLsbD 1 then s.release e.core e.wk e.who.slices scope else s
    let s := if order.getLsbD 0 then s.acquireAct e.core scope else s
    let r := runLanes e.who i s accs
    if r.left.isEmpty && r.late.isEmpty then .writes r.s r.ws .none
    else
      let unfinished := r.left ++ r.late.map fun x => x.1
      let p := { e.pendingOf e.wave i .access (accMask unfinished) unfinished [] .none with writes := [] }
      let s := r.s.regsNow e.wk r.ws
      match worstLate r.late with
      | some (a, c) => .late s p c (accTval a)
      | none => .access s p

/-- Checked accesses, or the trap of the lowest failing lane. -/
def Env.accesses (e : Env) (i : Instr) (s : State) (xs : List (Except (Nat × DWord) Acc)) : Act :=
  match checkAll xs with
  | .error (c, v) => .trap c v
  | .ok accs => e.accessAct i s accs

/-! ## Replay (R190, R455) -/

/-- A late condition of a pending instruction: a trap while nothing later of the fragment has issued, else a launch
kill or damage (R455, R456). Traversals in flight are awaited first: the condition is found again when the access is tried
again. -/
def State.lateTrap (s : State) (wk : Nat) (p : Pending) (c : LateCause) (val : DWord) : State :=
  match s.waves.find? wk with
  | none => s
  | some w =>
    match s.workgroups.find? w.wg with
    | none => s
    | some wg =>
      match s.launches.find? wg.launch with
      | none => s
      | some la =>
        if p.overtaken then
          if c = .uncorrectable then s.damage w.wg w (lateCode c) p.pc
          else s.killLaunch wg.launch (waveFault w wg la 2 9 (lateCode c) w.tl p.pc 0)
        else if w.hasRays then s
        else
          match w.frags.find? fun f => f.trapLevel == 0 && (f.slices &&& p.slices) != 0 with
          | none => s
          | some f =>
            let s := s.modWave wk fun w =>
              { w with pend := w.pend.map fun q => if q.id = p.id then { p with late := some c } else q }
            (s.enterTrap wk f.id (lateCode c) p.pc p.pc val).settle wk f.id none false

/-- Try the unfinished lanes of a pending access again. -/
def State.replay (s : State) (wk : Nat) (p : Pending) : State :=
  match s.waves.find? wk with
  | none => s
  | some w =>
    match s.workgroups.find? w.wg with
    | none => s
    | some wg =>
      let (order, scope) := memOrder p.instr
      let s := if order.getLsbD 0 then s.acquireAct wg.core scope else s
      let r := runLanes ⟨wk, wg.core, wg.launch, p.slices, true⟩ p.instr s p.accs
      let unfinished := r.left ++ r.late.map fun x => x.1
      let s := r.s.regsNow wk r.ws
      let q := { p with accs := unfinished, mask := accMask unfinished }
      let s := s.modWave wk fun w =>
        { w with pend := if unfinished.isEmpty then w.pend.filter fun x => x.id != p.id
                         else w.pend.map fun x => if x.id = p.id then q else x }
      match worstLate r.late with
      | some (a, c) => s.lateTrap wk q c (accTval a)
      | none => s

end Sys2Proof.Machine
end

