-- ==== Sys2Proof/Machine/Memory.lean ====
section
/-!
DEFINITION. Class 0x5: loads, stores, scratchpad accesses, coordinate accesses, cache hints, fences and stage queues
(R200 to R209).
-/

namespace Sys2Proof.Machine

/-! ## Loads and stores through references (R204, R206) -/

/-- The checks of every lane of a byte-addressed load. -/
def Env.loadChecks (e : Env) (s : State) (f : MFmt) (ls : List Nat) : List (Except (Nat × DWord) Acc) :=
  ls.map fun l => e.byteAcc s f f.imm.toInt needR .load (sizeBytes f.size) l [] []

/-- The checks of every lane of a byte-addressed store, with its data. -/
def Env.storeChecks (e : Env) (s : State) (f : MFmt) (ls : List Nat) : List (Except (Nat × DWord) Acc) :=
  ls.map fun l =>
    e.byteAcc s f f.imm.toInt needW .store (sizeBytes f.size) l (e.data f.data l (sizeBytes f.size)) []

/-- LD (R204). -/
def execLd (f : MFmt) : State → Host.Outcome State Fault Refusal :=
  issue (.ld f) fun e s => e.accesses (.ld f) s (e.loadChecks s f (lanesOf e.lanes))

/-- ST (R204). -/
def execSt (f : MFmt) : State → Host.Outcome State Fault Refusal :=
  issue (.st f) fun e s => e.accesses (.st f) s (e.storeChecks s f (lanesOf e.lanes))

/-- SLD (R204). -/
def execSld (f : MFmt) : State → Host.Outcome State Fault Refusal :=
  issue (.sld f) fun e s => e.accesses (.sld f) s (e.loadChecks s f [e.first])

/-- SST (R204). -/
def execSst (f : MFmt) : State → Host.Outcome State Fault Refusal :=
  issue (.sst f) fun e s => e.accesses (.sst f) s (e.storeChecks s f [e.first])

/-- SIZE matches the element type (R206). -/
def sizeFits (etype : Nat) (size : BitVec 3) : Bool :=
  match etype with
  | 0 | 12 => size == 6
  | 1 | 9 | 10 | 11 | 13 => size == 0
  | 2 => size == 7
  | 3 | 6 | 7 => size == 1
  | 4 | 5 | 8 => size == 2
  | 14 => size == 3
  | _ => false

/-- Checked coordinate accesses whose SIZE must match the element type (R206, R450). -/
def Env.elements (e : Env) (i : Instr) (f : MFmt) (s : State) (xs : List (Except (Nat × DWord) Acc)) : Act :=
  match checkAll xs with
  | .error (c, v) => .trap c v
  | .ok accs =>
    if accs.any fun a => !sizeFits (s.tensor a.entry).etype f.size then .trap 0x40 (illegalVal i.word 0x27)
    else e.accessAct i s accs

/-- TLD (R206). -/
def execTld (f : MFmt) : State → Host.Outcome State Fault Refusal :=
  issue (.tld f) fun e s => e.elements (.tld f) f s ((lanesOf e.lanes).map fun l => e.elemAcc s f needR l [])

/-- TST (R206): the element from the low bits of the source, the scale of a block from bits [15:8]. -/
def execTst (f : MFmt) : State → Host.Outcome State Fault Refusal :=
  issue (.tst f) fun e s =>
    e.elements (.tst f) f s ((lanesOf e.lanes).map fun l =>
      e.elemAcc s f needW l (e.data f.data l (if f.size = 3 then 8 else 4)))

/-! ## Scratchpads (R187, R188, R205) -/

/-- The workgroup of the cluster with a CRANK (R188). -/
def State.peer (s : State) (wg : Workgroup) (crank : Nat) : Option (Nat × Workgroup) :=
  List.find? (fun x => decide (x.2.launch = wg.launch ∧ x.2.cluster = wg.cluster ∧ x.2.crank = crank)) s.workgroups

/-- A scratchpad byte; of a workgroup that is swapped out, in its save image (R188, R369). -/
def State.scratchByte (s : State) (g a : Nat) : Byte :=
  match s.workgroups.find? g with
  | none => 0
  | some wg =>
    match wg.phase with
    | .saved base => s.byte (base + 0x1000 + a)
    | _ => SMap.get 0 wg.scratch a

/-- Write a scratchpad byte. -/
def State.setScratch (s : State) (g a : Nat) (b : Byte) : State :=
  match s.workgroups.find? g with
  | none => s
  | some wg =>
    match wg.phase with
    | .saved base => s.setByte (base + 0x1000 + a) b
    | _ => { s with workgroups := s.workgroups.insert g { wg with scratch := SMap.set 0 wg.scratch a b } }

/-- Bytes of a scratchpad. -/
def State.scratchBytes (s : State) (g a n : Nat) : List Byte := (List.range n).map fun i => s.scratchByte g (a + i)

/-- Write bytes of a scratchpad. -/
def State.setScratchBytes (s : State) (g : Nat) : Nat → List Byte → State
  | _, [] => s
  | a, b :: r => (s.setScratch g a b).setScratchBytes g (a + 1) r

/-- The scratchpad, address and lane of a scratchpad access, or its fault: alignment, then bounds (R205, R453).
`crank` is the peer's, none for the wave's own workgroup. -/
def Env.scratchAcc (e : Env) (s : State) (f : MFmt) (crank : Option Operand) (lane : Nat) :
    Except (Nat × DWord) (Nat × Nat × Nat) :=
  let n := sizeBytes f.size
  let a : Int := e.readZ f.ref lane + f.imm.toInt * n
  let low := (a % 2 ^ 32).toNat
  let r := match crank with
    | some o => e.readZ o lane
    | none => e.wg.crank
  let tval := BitVec.ofNat 64 (low + (if crank.isSome then r % 256 * 2 ^ 32 else 0))
  if a % n ≠ 0 then .error (0x04, tval)
  else if a < 0 ∨ (e.launch.scratch : Int) < a + n then .error (0x05, tval)
  else
    match crank with
    | none => .ok (e.wave.wg, low, lane)
    | some _ =>
      if e.launch.ncl ≤ r then .error (0x05, tval)
      else .ok (((s.peer e.wg r).map fun x => x.1).getD e.wave.wg, low, lane)

/-- Every lane's place, or the lowest failing lane's cause (R205, R414). -/
def checkPlaces (xs : List (Except (Nat × DWord) (Nat × Nat × Nat))) : Except (Nat × DWord) (List (Nat × Nat × Nat)) :=
  xs.foldr (fun x r =>
    match x with
    | .error c => .error c
    | .ok a => match r with
      | .error c => .error c
      | .ok l => .ok (a :: l)) (.ok [])

/-- A scratchpad access waits for parked accesses of its slices that stand before it in their order (R229), and
takes a release before it and an acquire with it (R186). -/
def Env.scratchOrdered (e : Env) (i : Instr) (s : State) (go : State → Act) : Act :=
  let (order, scope) := memOrder i
  match e.mustFollow s order [] with
  | some w => .hold s w
  | none =>
    let s := if order.getLsbD 1 then s.release e.core e.wk e.who.slices scope else s
    go (if order.getLsbD 0 then s.acquireAct e.core scope else s)

/-- A scratchpad load (R205). -/
def scratchLoad (i : Instr) (f : MFmt) (crank : Option Operand) (e : Env) (s : State) : Act :=
  match checkPlaces ((lanesOf e.lanes).map fun l => e.scratchAcc s f crank l) with
  | .error (c, v) => .trap c v
  | .ok ps => e.scratchOrdered i s fun s =>
      .writes s (ps.flatMap fun p => loadWrites f.data p.2.2 f.size (s.scratchBytes p.1 p.2.1 (sizeBytes f.size))) .none

/-- The units of 8 bytes at most in which bytes are written to a scratchpad (R201): scratchpad, address, bytes. -/
def scratchUnits (g a : Nat) (bs : List Byte) : List (Nat × Nat × List Byte) :=
  (List.range ((bs.length + 7) / 8)).map fun i => (g, a + 8 * i, (bs.drop (8 * i)).take 8)

/-- Two writes to scratchpads touch a common byte. -/
def scratchMeets (x y : Nat × Nat × List Byte) : Bool :=
  decide (x.1 = y.1 ∧ x.2.1 < y.2.1 + y.2.2.length ∧ y.2.1 < x.2.1 + x.2.2.length)

/-- A scratchpad store (R205); of lanes that write the same bytes the device chooses the last (R201). -/
def scratchStore (i : Instr) (f : MFmt) (crank : Option Operand) (e : Env) (s : State) : Act :=
  match checkPlaces ((lanesOf e.lanes).map fun l => e.scratchAcc s f crank l) with
  | .error (c, v) => .trap c v
  | .ok ps => e.scratchOrdered i s fun s =>
      let r := s.anyOrder scratchMeets (ps.flatMap fun p =>
        scratchUnits p.1 p.2.1 (e.data f.data p.2.2 (sizeBytes f.size)))
      .writes (r.2.foldl (fun s u => s.setScratchBytes u.1 u.2.1 u.2.2) r.1) [] .none

/-- LDS (R205). -/
def execLds (f : MFmt) : State → Host.Outcome State Fault Refusal := issue (.lds f) (scratchLoad (.lds f) f none)

/-- STS (R205). -/
def execSts (f : MFmt) : State → Host.Outcome State Fault Refusal := issue (.sts f) (scratchStore (.sts f) f none)

/-- LDSR (R205). -/
def execLdsr (f : MFmt) : State → Host.Outcome State Fault Refusal :=
  issue (.ldsr f) (scratchLoad (.ldsr f) f (some f.index))

/-- STSR (R205). -/
def execStsr (f : MFmt) : State → Host.Outcome State Fault Refusal :=
  issue (.stsr f) (scratchStore (.stsr f) f (some f.index))

/-! ## Cache hints (R207) -/

/-- The lanes of a hint that pass the checks, with their accesses; the others are skipped (R179, R207). -/
def Env.hints (e : Env) (s : State) (f : MFmt) : List Acc :=
  (lanesOf e.lanes).filterMap fun l =>
    match e.byteAcc s f f.imm.toInt needR .load (sizeBytes f.size) l [] [] with
    | .ok a => some a
    | .error _ => none

/-- Bring a hinted line into the core's caches, or ask for its granule (R207). -/
def State.prefetch (s : State) (e : Env) (a : Acc) : State :=
  match s.accPlace a with
  | some (p, _) => (s.loadBytes e.core p a.size).1
  | none => if s.accFails a then s else s.requestAcc (dieOf e.core) e.wg.launch a

/-- PREF (R207). -/
def execPref (f : MFmt) : State → Host.Outcome State Fault Refusal :=
  issue (.pref f) fun e s =>
    let accs := e.hints s f
    .writes (accs.foldl (fun s a => s.prefetch e a) (s.fillObjects e.core accs)) [] .none

/-- Write back and drop the superblock of an address in a core's L1 and its die's remote data cache (R184, R207). -/
def State.evictBlock (s : State) (core p : Nat) : State :=
  let inBlock (line : Nat) : Bool := decide (superOf line = superOf (lineOf p))
  let t := s.dropRemote (dieOf core) inBlock
  { t with l1 := SMap.set [] t.l1 core ((SMap.get [] t.l1 core).filter fun x => !inBlock x.1) }

/-- EVICT (R207). -/
def execEvict (f : MFmt) : State → Host.Outcome State Fault Refusal :=
  issue (.evict f) fun e s =>
    let accs := e.hints s f
    .writes (accs.foldl (fun s a =>
      match s.accPlace a with
      | some (p, _) => s.evictBlock e.core p
      | none => s) (s.fillObjects e.core accs)) [] .none

/-! ## Fences (R208) -/

/-- What an instruction that comes after every earlier access of slices waits for: a parked access of theirs, the
geometry reads of a builder operation of theirs, or the token where an update of theirs stands in the commit log (R208,
R214, R216, R225, R229). -/
def Env.awaits (e : Env) (s : State) (m : SliceMask) : Option Wait :=
  match e.wave.pend.find? fun p => p.unperformed && (p.slices &&& m) != 0 with
  | some p => some (.pending p.id)
  | none =>
    if s.builds.any fun o => !o.started && o.wave == e.wk && (o.slices &&& m) != 0 && o.count != 0 then some .again
    else if e.wg.log.any fun x => x.wave == e.wk && (x.slices &&& m) != 0 then some .token else none

/-- FENCE (R208): accesses that are parked or stand in the commit log are performed first (R229). -/
def execFence (f : MFmt) : State → Host.Outcome State Fault Refusal :=
  issue (.fence f) fun e s =>
    match e.awaits s e.who.slices with
    | some w => .hold s w
    | none =>
      let s := if f.order.getLsbD 1 then s.release e.core e.wk e.who.slices f.scope else s
      .writes (if f.order.getLsbD 0 then s.acquireAct e.core f.scope else s) [] .none

/-! ## Stage queues (R209) -/

/-- A lane's access to a stage queue: its number stands as an address, its record as data, and the reference of its
spill area as the one that a failed access reports (R455). -/
def queueAcc (e : Env) (q lane : Nat) (data : List Byte) : Acc :=
  ⟨lane, e.wave.dom, ((e.launch.queues.find? q).map fun x => x.spillRef).getD 0, ⟨0, 0, 0, 0⟩, .scratch 0 q, 64, data, []⟩

/-- SQPUSH (R209): the lanes' records in ascending order; lanes the queue does not accept park. -/
def execSqpush (f : MFmt) : State → Host.Outcome State Fault Refusal :=
  issue (.sqpush f) fun e s =>
    e.accessAct (.sqpush f) s ((lanesOf e.lanes).map fun l =>
      queueAcc e f.imm.toNat l ((e.readRun f.data l 16).flatMap fun x => bytesOfNat 4 x.toNat))

/-- SQPOP (R209): the lanes take records in ascending order; lanes without one park. -/
def execSqpop (f : MFmt) : State → Host.Outcome State Fault Refusal :=
  issue (.sqpop f) fun e s =>
    e.accessAct (.sqpop f) s ((lanesOf e.lanes).map fun l => queueAcc e f.imm.toNat l [])

end Sys2Proof.Machine
end

