-- ==== Sys2Proof/Machine/Engine.lean ====
section
/-!
DEFINITION. What the asynchronous engines share: where a range or a run of tensor elements lies, the granules an
operation still needs (R190, R458), writes by whole runs (R461), batches (R217), and the fate of an operation whose
data cannot be had (R458, R462, R464).
-/

namespace Sys2Proof.Machine

/-! ## Needed granules -/

/-- An entry that stands for no object. -/
def noEntry : ObjEntry := ⟨0, 0, 0, 0⟩

/-- A granule an engine operation needs: domain, object index, entry, granule. -/
abbrev Need := Nat × Nat × ObjEntry × Nat

/-- The granules of n bytes that are not resident. -/
def State.missing (s : State) (dom index : Nat) (e : ObjEntry) (off n : Nat) : List Need :=
  ((granulesOf off n).filter fun g => !s.granUsable e (s.granuleWord e.extroot g)).map fun g => (dom, index, e, g)

/-- The granule of a conversion's source that a byte of it still needs (R471). -/
def State.sourceMissing (s : State) (dom index : Nat) (e : ObjEntry) (b : Nat) : List Need :=
  let g := sourceBase + b / 65536
  if (s.convOf e.tdesc).isNone || s.granUsable e (s.needWord e g) then [] else [(dom, index, e, g)]

/-- Ask for needed granules (R190, R191). -/
def State.requestNeeds (s : State) (die : Nat) (launch : Option Nat) (ns : List Need) : State :=
  ns.foldl (fun s n => s.request die n.1 n.2.1 n.2.2.1 n.2.2.2 launch) s

/-- A needed granule fails at once (R457). -/
def State.needsFail (s : State) (ns : List Need) : Bool :=
  ns.any fun n => s.failsAtOnce n.2.2.1 (s.needWord n.2.2.1 n.2.2.2)

/-- An instruction's own reads need granules: it waits for the first of them, or raises cause 0x06 where one fails
(R190, R458). -/
def Env.holdFor (e : Env) (s : State) (ns : List Need) (val : DWord) : Act :=
  if s.needsFail ns then .trap 0x06 val
  else
    let s := s.requestNeeds (dieOf e.core) (some e.wg.launch) ns
    match ns with
    | n :: _ => .hold s (.granule n.1 n.2.1 n.2.2.2 val)
    | [] => .hold s .again

/-- An engine's operation cannot read the extent map at one of the offsets of an object, or the descriptor or bitmap of a
tensor that is being converted (R454, R471). Later instructions have issued since, so it is damage to the workgroup's
state (R455). -/
def State.objectUnreadable (s : State) (e : ObjEntry) (offs : List Nat) : Bool :=
  !(s.poison.isEmpty && s.lostPkgs.isEmpty) && (s.tensorDamaged e || offs.any fun o => s.mapPoisoned e o 1)

/-- The same for n bytes from an offset on. -/
def State.rangeUnreadable (s : State) (e : ObjEntry) (off n : Nat) : Bool :=
  s.objectUnreadable e [] || s.mapPoisoned e off n

/-- A sector of n bytes of an object, or its extent map there, is poisoned as a die's memory port sees it (R454, R462). -/
def State.objectPoison (s : State) (die dom : Nat) (e : ObjEntry) (off n : Nat) : Bool :=
  !(s.poison.isEmpty && s.lostPkgs.isEmpty && s.rdc.isEmpty) && (s.mapPoisoned e off n ||
    (List.range ((off + n + 31) / 32 - off / 32)).any fun i => s.portPoisoned die (s.addrOf dom e (32 * (off / 32 + i))))

/-! ## Places of an operation's bytes -/

/-- The coordinates of the p-th element in row-major order, DIM0 fastest (R70). -/
def Tensor.coordsAt (t : Tensor) (p : Nat) : List Nat :=
  [p % t.dim 0, p / t.dim 0 % t.dim 1, p / t.dim 0 / t.dim 1 % t.dim 2, p / t.dim 0 / t.dim 1 / t.dim 2]

/-- The place of coordinates in row-major order. -/
def Tensor.linear (t : Tensor) (cs : List Nat) : Nat :=
  cs.getD 0 0 + t.dim 0 * (cs.getD 1 0 + t.dim 1 * (cs.getD 2 0 + t.dim 2 * cs.getD 3 0))

/-- Addresses of n bytes from an offset, or none while they must be waited for. -/
def State.rangePlaces (s : State) (dom : Nat) (e : ObjEntry) (off n : Nat) : Option (List Nat) :=
  if s.converting e || (s.residentAddr dom e off n).isNone then none
  else some ((List.range n).map fun i => s.addrOf dom e (off + i))

/-- Addresses of the bytes of `count` elements in row-major order from coordinates on, or none while one of them must
be waited for (R198, R216). -/
def State.elemPlaces (s : State) (dom : Nat) (e : ObjEntry) (cs : List Nat) (count : Nat) : Option (List Nat) :=
  let t := s.tensor e
  let size := etypeNibbles t.etype / 2
  (List.range count).foldr (fun i acc =>
    let c := t.coordsAt (t.linear cs + i)
    match acc, s.elemAddr dom e (c.getD 0 0) (c.getD 1 0) (c.getD 2 0) (c.getD 3 0) with
    | some l, some (a, _) => some ((List.range size).map (a + ·) ++ l)
    | _, _ => none) (some [])

/-- Granules that the elements still need, those of a conversion's source under their own numbers (R198, R471). -/
def State.elemMissing (s : State) (dom index : Nat) (e : ObjEntry) (cs : List (List Nat)) : List Need :=
  let t := s.tensor e
  let need (c : List Nat) : List Need :=
    match s.sourceByte e (c.getD 0 0) (c.getD 1 0) (c.getD 2 0) (c.getD 3 0) with
    | some b => s.sourceMissing dom index e b
    | none => s.missing dom index e (t.nibble t.layout (c.getD 0 0) (c.getD 1 0) (c.getD 2 0) (c.getD 3 0) / 2)
        ((etypeNibbles t.etype + 1) / 2)
  (cs.flatMap need).eraseDups

/-- Bytes at addresses that follow one another, as runs. -/
def byteRuns : List (Nat × Byte) → List (Nat × List Byte)
  | [] => []
  | (a, b) :: r =>
    match byteRuns r with
    | (a', bs) :: more => if a + 1 = a' then (a, b :: bs) :: more else (a, [b]) :: (a', bs) :: more
    | [] => [(a, [b])]

/-- An engine's write of bytes at their point of coherence; the destination sectors of `bad` addresses are poisoned
(R461, R462). -/
def State.engineWrite (s : State) (core : Nat) (cells : List (Nat × Byte)) (bad : List Nat) : State :=
  let s := (byteRuns cells).foldl (fun s r => s.performWrite core r.1 r.2) s
  bad.foldl (fun s a => (s.portPoison (dieOf core) a).patchL1 core a 1) s

/-! ## Checks at issue -/

/-- A range of n bytes at a reference's OFFSET, at any alignment (R216). -/
def Env.copyRange (e : Env) (s : State) (ref : DWord) (need : BitVec 4) (rule : KindRule) (n : Nat) :
    Except (Nat × DWord) ObjEntry :=
  match s.checkObject e.core e.dom ref need rule (refOffset ref) n with
  | .error c => .error (c, ref)
  | .ok entry => if entry.length < refOffset ref + n then .error (0x05, ref) else .ok entry

/-- Two checks in order: the first failure is reported (R216). -/
def bothOk {α β : Type} (a : Except (Nat × DWord) α) (b : Except (Nat × DWord) β) : Except (Nat × DWord) (α × β) :=
  match a with
  | .error c => .error c
  | .ok x => match b with
    | .error c => .error c
    | .ok y => .ok (x, y)

/-- Fill the object cache with the entries of objects that checked references name (R177). -/
def State.fillRefs (s : State) (core dom : Nat) (refs : List DWord) : State :=
  refs.foldl (fun s r => s.cacheEntry core dom (refIndex r)) s

/-! ## Batches (R217) -/

/-- A batch of a wave still holds an operation. -/
def State.batchOpen (s : State) (wk : Nat) (b : Word) : Bool :=
  (s.copies.any fun c => decide (c.wave = wk ∧ c.batch = b)) ||
    (s.matOps.any fun o => decide (o.wave = wk ∧ o.batch = b)) ||
    (s.builds.any fun o => decide (o.wave = wk ∧ o.batch = b)) ||
    s.workgroups.any fun g => g.2.log.any fun x => decide (x.wave = wk ∧ x.batch = some b)

/-- DONE after n further batches at most. -/
def State.doneFrom (s : State) (wk : Nat) (closed : Word) : Nat → Word → Word
  | 0, d => d
  | n + 1, d => if d = closed ∨ s.batchOpen wk (d + 1) then d else s.doneFrom wk closed n (d + 1)

/-- Bring a wave's DONE up to date (R217). -/
def State.updateBatches (s : State) (wk : Nat) : State :=
  s.modWave wk fun w => { w with batchDone := s.doneFrom wk w.batchClosed 16 w.batchDone }

/-- The number of the wave's open batch. -/
def Wave.openBatch (w : Wave) : Word := w.batchClosed + 1

/-! ## Operations that fail -/

/-- Kill the launch of a wave for an engine operation that the instruction at pc issued: REASON 9 with a cause (R426,
R458). -/
def State.engineKill (s : State) (wk : Nat) (pc : CodeAddr) (reason cause : Nat) : State :=
  match s.waves.find? wk with
  | none => s
  | some w =>
    match s.workgroups.find? w.wg with
    | none => s
    | some wg =>
      match s.launches.find? wg.launch with
      | none => s
      | some la => s.killLaunch wg.launch (waveFault w wg la 2 reason cause w.tl pc 0)

/-- Uncorrectable damage to the state of a wave's workgroup (R462, R464). -/
def State.engineDamage (s : State) (wk : Nat) (pc : CodeAddr) : State :=
  match s.waves.find? wk with
  | none => s
  | some w => s.damage w.wg w 0x09 pc

/-- The launch of a wave, for requests. -/
def State.launchOf (s : State) (wk : Nat) : Option Nat :=
  (s.waves.find? wk).bind fun w => (s.workgroups.find? w.wg).map fun g => g.launch

/-- The wave's workgroup is on a core: its engines act. -/
def State.onCore (s : State) (wk : Nat) : Bool :=
  match (s.waves.find? wk).bind fun w => s.workgroups.find? w.wg with
  | some g => (match g.phase with
    | .saved _ => false
    | _ => true)
  | none => false

/-- An address of an operation that ATS does not translate (R468). -/
def State.noTranslation (s : State) (dom : Nat) (write : Bool) (places : List Nat) : Bool :=
  places.any fun p => decide (hostBase ≤ p) && !Config.translates (s.pasid dom) (p % hostBase / 65536) write s.tick

end Sys2Proof.Machine
end

