-- ==== Sys2Proof/Machine/Commit.lean ====
section
/-!
DEFINITION. Deterministic mode (R374): workgroup keys, the commit token and the commit log.
-/

namespace Sys2Proof.Machine

/-- The key of a workgroup (R374). -/
def Launch.keyOf (la : Launch) (wg : Workgroup) : Nat := wg.index + la.gridX * la.gridY * la.gridZ * wg.stage

/-- Bytes of a commit log that an instruction's entries take: 32 for a lane of an atomic, 64 for a lane of an ATILE,
8,256 for a DRAIN.ADD (R374). -/
def logBytes (i : Instr) (lanes : Nat) : Nat :=
  match i with
  | .drainAdd _ => 8256
  | .atile _ => 64 * lanes
  | _ => 32 * lanes

/-- Store the remaining log of a workgroup. -/
def State.setLog (s : State) (g : Nat) (log : List LogEntry) : State :=
  { s with workgroups := s.workgroups.modify g fun wg => { wg with log := log } }

/-- Apply log entries in order, each an acquire where its order says so (R231); one that must wait for a granule stays, with those after it. A tile update is applied
whole (R213, R259). An entry that is a DRAIN.ADD's leaves its batch (R250). -/
def State.applyEntries (s : State) (g core launch : Nat) : List LogEntry → State
  | [] => s.setLog g []
  | x :: rest =>
    let (order, scope) := memOrder x.instr
    let s := if order.getLsbD 0 then s.acquireAct core scope else s
    let r := runLanes ⟨x.wave, core, launch, x.slices, false⟩ x.instr s x.accs
    match worstLate r.late with
    | some (_, c) => (r.s.engineKill x.wave x.pc 9 (lateCode c)).setLog g []
    | none =>
      if r.left.isEmpty then ((r.s.setLog g rest).updateBatches x.wave).applyEntries g core launch rest
      else r.s.setLog g ({ x with accs := r.left } :: rest)

/-- The workgroup holds the token of its launch: apply its log (R374). -/
def State.applyLog (s : State) (g : Nat) : State :=
  match s.workgroups.find? g with
  | none => s
  | some wg =>
    match s.launches.find? wg.launch with
    | none => s
    | some la =>
      if la.det && decide (la.token = la.keyOf wg) && !wg.log.isEmpty then s.applyEntries g wg.core wg.launch wg.log
      else s

/-- Bytes of the CLOG object that a new entry of `n` bytes takes: they stand after those that the workgroup has written
since it was placed, from byte (k mod 65,536) × L on (R374). -/
def Launch.logPlace (la : Launch) (wg : Workgroup) : Nat := la.keyOf wg % 65536 * la.clogLen + wg.logUsed

/-- The entries of an instruction written to the CLOG object: their layout within their sizes is the device's own
(R374), so the bytes are free values. -/
def State.writeLog (s : State) (core : Nat) (dom : BitVec 16) (la : Launch) (place n : Nat) : State :=
  let e := s.entryFor core dom.toNat (refIndex la.clogRef)
  let cells := (List.range n).map fun i => (s.addrOf dom.toNat e (refOffset la.clogRef + place + i), Config.freeByte s.freeCount i)
  (s.engineWrite core cells []).bumpFree

/-- The granules of the CLOG object that new entries need. -/
def State.logNeeds (s : State) (core : Nat) (dom : BitVec 16) (la : Launch) (place n : Nat) : List Need :=
  s.missing dom.toNat (refIndex la.clogRef) (s.entryFor core dom.toNat (refIndex la.clogRef)) (refOffset la.clogRef + place) n

/-- Log an update that returns no value: its entries are written, and the update waits for the token (R374). -/
def Env.logUpdate (e : Env) (i : Instr) (s : State) (wg : Workgroup) (accs : List Acc) (batch : Option Word) : Act :=
  let n := logBytes i accs.length
  let needs := s.logNeeds e.core e.launch.dom e.launch (e.launch.logPlace wg) n
  if !needs.isEmpty then e.holdFor s needs e.launch.clogRef
  else
    let (order, scope) := memOrder i
    let s := s.fillObjects e.core accs
    let s := if order.getLsbD 1 then s.release e.core e.wk e.who.slices scope else s
    let s := s.writeLog e.core e.launch.dom e.launch (e.launch.logPlace wg) n
    .writes { s with workgroups := s.workgroups.modify e.wave.wg fun wg =>
      { wg with log := wg.log ++ [⟨e.wk, e.who.slices, i, e.pc, accs, batch, 0⟩], logUsed := wg.logUsed + n } } [] .none

/-- Complete an update of class 0x6 under deterministic mode: directly with the token, else in the log, where its slices' earlier
updates stand before it (R229), else the fragment holds (R374). -/
def Env.commit (e : Env) (i : Instr) (returns : Bool) (s : State) (accs : List Acc) : Act :=
  if !e.launch.det then e.accessAct i s accs
  else
    let s := s.applyLog e.wave.wg
    match s.workgroups.find? e.wave.wg with
    | none => .hold s .token
    | some wg =>
      if e.launch.token = e.launch.keyOf wg ∧ wg.log.isEmpty then e.accessAct i s accs
      else if returns || decide (e.launch.clogLen < wg.logUsed + logBytes i accs.length) || e.launch.token == e.launch.keyOf wg then
        .hold s .token
      else
        match e.followsOps s (memOrder i).1 accs with
        | some w => .hold s w
        | none => e.logUpdate i s wg accs (match i with
            | .drainAdd _ => some e.wave.openBatch
            | _ => none)

end Sys2Proof.Machine
end

