-- ==== Sys2Proof/Machine/MatMath.lean ====
section
/-!
DEFINITION. The arithmetic of the matrix arrays (R244 to R248, R253 to R257): elements held in registers, group sums,
and what each tile operation writes.
-/

namespace Sys2Proof.Machine

/-! ## Elements in registers (R244, R245) -/

/-- Element k of a row or column whose registers are `reg` (R245). -/
def elemRaw (t : Ty) (reg : Nat → Word) (k : Nat) : Nat :=
  let per := 32 / t.width
  fieldOf (reg (k / per)) (t.width * (k % per)) t.width

/-- The E8M0 scale of group g; 127 for types without scales (R245, R247). -/
def scaleRaw (t : Ty) (reg : Nat → Word) (s g : Nat) : Nat :=
  if t = .mxf4 then fieldOf (reg (4 * (s + 1) + g / 4)) (8 * (g % 4)) 8 else 127

/-- The exact product of two elements; integers have one zero (R247). -/
def elemProduct (t : Ty) (a b : Nat) : FVal × Bool :=
  if t.isFloat then FVal.mul (t.fmt.decode a) (t.fmt.decode b)
  else
    let p := t.value a * t.value b
    (.fin (decide (p < 0)) p.natAbs 0, false)

/-- A value times a power of two. -/
def FVal.scale (v : FVal) (e : Int) : FVal :=
  match v with
  | .fin s m x => .fin s m (x + e)
  | v => v

/-- q of R247 for group g: the exact group sum rounded to f32. -/
def groupSum (t : Ty) (s : Nat) (ra rb : Nat → Word) (g : Nat) : Nat :=
  let sa := scaleRaw t ra s g
  let sb := scaleRaw t rb s g
  if sa = 255 ∨ sb = 255 then binary32.nanCode
  else
    (binary32.sumR false .rne ((List.range 32).map fun k =>
      let p := elemProduct t (elemRaw t ra (32 * g + k)) (elemRaw t rb (32 * g + k))
      (p.1.scale ((sa : Int) + sb - 254), p.2))).code

/-- round(a + b, f32, RNE) of codes, without flushing (R247, R248). -/
def addF32 (a b : Nat) : Nat := (binary32.addR false .rne (binary32.decode a) (binary32.decode b)).code

/-- One tile element after the groups of R247. -/
def macElem (t : Ty) (s : Nat) (ra rb : Nat → Word) (acc : Word) : Word :=
  BitVec.ofNat 32 ((List.range (s + 1)).foldl (fun acc g => addF32 acc (groupSum t s ra rb g)) acc.toNat)

/-! ## Tile operations -/

/-- Change the elements of the rows of a tile. -/
def Wave.mapTile (w : Wave) (t : Nat) (rows : List Nat) (f : Nat → Nat → Word → Word) : Wave :=
  rows.foldl (fun w i => (List.range 32).foldl (fun w j => w.setTile t i j (f i j (w.tile t i j))) w) w

/-- Register m of a lane's row of A: zero in a lane that does not contribute (R246). -/
def MatOp.rowReg (o : MatOp) (base : Operand) (i m : Nat) : Word :=
  if o.lanes.getLsbD i then SMap.get 0 o.vregs (96 * (regNo base + m) + i) else 0

/-- Register m of a column of B; of the shared B in a crossbar step (R245, R251). -/
def MatOp.colReg (o : MatOp) (base : Operand) (off j m : Nat) : Word :=
  match o.shared with
  | some b => SMap.get 0 b (96 * m + j)
  | none => SMap.get 0 o.vregs (96 * (regNo base + off + m) + j)

/-- MMA over rows (R247), with B at a register offset. -/
def MatOp.mma (o : MatOp) (f : XFmt) (rows : List Nat) (off : Nat) (w : Wave) : Wave :=
  w.mapTile f.tile.toNat rows fun i j acc =>
    macElem f.ity f.shape.toNat (o.rowReg f.abase i) (o.colReg f.bbase off j) acc

/-- The end row of each of the first h segments of MMA.GRP (R253). -/
def segmentStart (counts : Word) : Nat → Nat
  | 0 => 0
  | h + 1 => min (segmentStart counts h + fieldOf counts (8 * h) 8) 64

/-- MMA.GRP (R253). -/
def MatOp.mmaGrp (o : MatOp) (f : XFmt) (w : Wave) : Wave :=
  let counts := o.sregs.getD 0 0
  (List.range ((f.mode.extractLsb' 0 2).toNat + 1)).foldl (fun w h =>
    let a := segmentStart counts h
    let b := segmentStart counts (h + 1)
    o.mma f ((List.range (b - a)).map (a + ·)) (h * rowRegs f.ity f.shape.toNat) w) w

/-- LUTB: the table entry of row i, group g, index x (R254). -/
def MatOp.lutEntry (o : MatOp) (f : XFmt) (i g x : Nat) : Word :=
  let terms := (List.range 4).filterMap fun b =>
    if x.testBit b then some (f.ity.fmt.decode (elemRaw f.ity (o.rowReg f.abase i) (4 * g + b)), false) else none
  BitVec.ofNat 32 (binary32.sumR false .rne terms).code

/-- LUTB (R254). -/
def MatOp.lutb (o : MatOp) (f : XFmt) (w : Wave) : Wave :=
  (List.range 4).foldl (fun w q =>
    w.mapTile (f.tile.toNat + q) (List.range 64) fun i j _ => o.lutEntry f i (2 * q + j / 16) (j % 16)) w

/-- The weight of plane p (R255). -/
def planeWeight (f : XFmt) (p : Nat) : Int :=
  let n := (f.mode.extractLsb' 2 2).toNat
  if p = n ∧ f.mode.getLsbD 1 then -(2 ^ n : Nat) else (2 ^ p : Nat)

/-- The first tile of the tables of an MMA.LUT (R255). -/
def lutBase (f : XFmt) : Nat :=
  match f.sop with
  | .int n => n.toNat
  | _ => 0

/-- The weight w[k][j] of an MMA.LUT (R255). -/
def MatOp.lutWeight (o : MatOp) (f : XFmt) (k j : Nat) : Nat :=
  let n := (f.mode.extractLsb' 2 2).toNat + 1
  let string := (List.range n).foldl (fun acc m =>
    acc + (SMap.get 0 o.vregs (96 * (regNo f.bbase + m) + j)).toNat * 2 ^ (32 * m)) 0
  string / 2 ^ (n * k) % 2 ^ n

/-- MMA.LUT: the exact sum of table entries, rounded, then added (R255). The sum starts from +0. -/
def MatOp.mmaLut (o : MatOp) (f : XFmt) (w0 : Wave) : Wave :=
  let n := (f.mode.extractLsb' 2 2).toNat + 1
  w0.mapTile f.tile.toNat (List.range 64) fun i j acc =>
    let terms := (List.range 8).flatMap fun g => (List.range n).map fun p =>
      let x := (List.range 4).foldl (fun x b => x + (if (o.lutWeight f (4 * g + b) j).testBit p then 2 ^ b else 0)) 0
      let c := planeWeight f p
      FVal.mul (.fin (decide (c < 0)) c.natAbs 0)
        (binary32.decode (w0.tile (lutBase f + g / 2) i (16 * (g % 2) + x)).toNat)
    BitVec.ofNat 32 (addF32 acc.toNat (binary32.sumR false .rne ((.fin false 0 0, false) :: terms)).code)

/-- ASCALE (R257). -/
def MatOp.ascale (o : MatOp) (f : XFmt) (w : Wave) : Wave :=
  w.mapTile f.tile.toNat (List.range 64) fun i j acc =>
    let scale := if f.mode.getLsbD 0 then SMap.get 0 o.vregs (96 * regNo f.abase + i)
      else SMap.get 0 o.vregs (96 * regNo f.bbase + j)
    BitVec.ofNat 32 (binary32.mulR false .rne (binary32.decode acc.toNat) (binary32.decode scale.toNat)).code

/-- The tile operations that write their tile from captured registers and tiles. -/
def MatOp.run (o : MatOp) (w : Wave) : Wave :=
  match o.instr with
  | .mma f | .mmaSa f => o.mma f (List.range 64) 0 w
  | .mmaGrp f => o.mmaGrp f w
  | .mmaLut f => o.mmaLut f w
  | .lutb f => o.lutb f w
  | .aclr f => w.mapTile f.tile.toNat (List.range 64) fun _ _ _ => 0
  | .ascale f => o.ascale f w
  | _ => w

/-- The tiles that a matrix operation reads or writes (R249). -/
def opTiles : Instr → List Nat
  | .mma f | .mmaGrp f | .mmaSa f | .aclr f | .ascale f | .drain f | .drainAdd f => [f.tile.toNat]
  | .mmaLut f => f.tile.toNat :: (List.range 4).map (lutBase f + ·)
  | .lutb f => (List.range 4).map (f.tile.toNat + ·)
  | _ => []

/-! ## Element types -/

/-- The ETYPE of a matrix type (R71, R244). -/
def etypeOf : Ty → Nat
  | .s8 => 0
  | .z8 => 1
  | .f16 => 6
  | .bf16 => 7
  | .f32 => 8
  | .e4m3 => 9
  | .e5m2 => 10
  | .mxf4 => 11
  | _ => 15

/-- Bytes of an element that DRAIN writes. -/
def drainSize (t : Ty) : Nat := t.width / 8

/-- A tile element as DRAIN writes it, a NaN as the canonical NaN (R258). -/
def drainBytes (t : Ty) (x : Word) : List Byte :=
  bytesOfNat (drainSize t) (t.fmt.ofVal false .rne (binary32.decode x.toNat)).code

end Sys2Proof.Machine
end

