-- ==== Sys2Proof/Machine/Texture.lean ====
section
/-!
DEFINITION. Texture headers (R266 to R269), coordinates and levels (R270, R271), footprints (R272, R280) and the
values of texels (R267, R272).
-/

namespace Sys2Proof.Machine

/-! ## Headers (R266) -/

/-- A texture header as its eight words. -/
abbrev THeader := List DWord

namespace TexHdr

/-- A field of a header word. -/
def fld (h : THeader) (word lo n : Nat) : Nat := fieldOf (h.getD word 0) lo n

def hkind (h : THeader) : Nat := fld h 0 60 4
def fmt (h : THeader) : Nat := fld h 0 54 6
def nlev (h : THeader) : Nat := fld h 0 50 4
def wrapU (h : THeader) : Nat := fld h 0 48 2
def wrapV (h : THeader) : Nat := fld h 0 46 2
def filter (h : THeader) : Nat := fld h 0 44 2
def ch (h : THeader) : Nat := fld h 0 36 8
/-- Level-0 width and height. -/
def width0 (h : THeader) : Nat := fld h 0 16 16 + 1
def height0 (h : THeader) : Nat := fld h 0 0 16 + 1
def laym1 (h : THeader) : Nat := fld h 1 52 12
def data (h : THeader) : Nat := fld h 1 0 42
def netref (h : THeader) : DWord := h.getD 2 0
def border (h : THeader) : DWord := h.getD 3 0
def minlod (h : THeader) : Nat := fld h 4 16 16
def maxlod (h : THeader) : Nat := fld h 4 0 16

/-- Bytes of a texel (R267, R274). -/
def texelBytes (fmt ch : Nat) : Nat :=
  match fmt with
  | 0x01 => 1
  | 0x02 | 0x05 => 2
  | 0x03 | 0x04 | 0x06 | 0x08 => 4
  | 0x07 | 0x09 => 8
  | 0x0A => 16
  | 0x10 => ch
  | 0x11 => 2 * ch
  | _ => 0

/-- Channels of a texel (R267). -/
def channels (fmt ch : Nat) : Nat :=
  match fmt with
  | 0x01 | 0x05 | 0x08 => 1
  | 0x02 | 0x06 | 0x09 => 2
  | 0x03 | 0x04 | 0x07 | 0x0A => 4
  | _ => ch

/-- Width and height of a level (R268). -/
def width (h : THeader) (m : Nat) : Nat := max 1 (width0 h / 2 ^ m)
def height (h : THeader) (m : Nat) : Nat := max 1 (height0 h / 2 ^ m)
/-- Row pitch of a level (R268). -/
def pitch (h : THeader) (m : Nat) : Nat := roundUp (width h m * texelBytes (fmt h) (ch h)) 64
/-- Size of a level (R268). -/
def levelSize (h : THeader) (m : Nat) : Nat := roundUp (pitch h m * height h m) 256
/-- The sizes of the first n levels together. -/
def levelsSize (h : THeader) (n : Nat) : Nat := (List.range n).foldl (fun a m => a + levelSize h m) 0

/-- The format belongs to the kind of header (R267). -/
def fmtAgrees (hkind fmt : Nat) : Bool :=
  (hkind == 0 && decide (1 ≤ fmt ∧ fmt ≤ 0x0A)) || (hkind == 1 && (fmt == 0x10 || fmt == 0x11))

/-- Reserved fields are zero (R266). -/
def reservedZero (h : THeader) : Bool :=
  fld h 0 32 4 == 0 && fld h 1 42 10 == 0 && fld h 4 32 32 == 0 && h.getD 5 0 == 0 && h.getD 6 0 == 0 && h.getD 7 0 == 0

/-- The header is valid in a texture set of this length (R269). -/
def valid (h : THeader) (length : Nat) : Bool :=
  fmtAgrees (hkind h) (fmt h) && filter h != 3 && decide (nlev h ≤ (max (width0 h) (height0 h)).log2) &&
    (if hkind h = 1 then decide (1 ≤ ch h ∧ ch h ≤ 64) else ch h == 0) && data h % 256 == 0 && reservedZero h &&
    decide (data h + (laym1 h + 1) * levelsSize h (nlev h + 1) ≤ length)

/-- Byte offset of a texel (R268). -/
def place (h : THeader) (m layer i j : Nat) : Nat :=
  data h + layer * levelsSize h (nlev h + 1) + levelsSize h m + j * pitch h m + i * texelBytes (fmt h) (ch h)

/-! ## Wrapping (R270) -/

/-- The stored index of texel i along an axis of n texels; none outside under border. -/
def wrap (mode : Nat) (i : Int) (n : Nat) : Option Nat :=
  match mode with
  | 0 => some (i % n).toNat
  | 1 =>
    let m := (i % (2 * n : Nat)).toNat
    some (if m < n then m else 2 * n - 1 - m)
  | 2 => some (min (max i 0) ((n : Int) - 1)).toNat
  | _ => if 0 ≤ i ∧ i < n then some i.toNat else none

/-- The stored place of texel (i, j), none for a border texel. -/
def stored (h : THeader) (m layer : Nat) (i j : Int) : Option Nat :=
  match wrap (wrapU h) i (width h m), wrap (wrapV h) j (height h m) with
  | some a, some b => some (place h m layer a b)
  | _, _ => none

end TexHdr

/-! ## Coordinates (R270 to R272) -/

/-- An f32 coordinate; a NaN is read as 0 (R270). -/
def coordVal (x : Word) : FVal :=
  match binary32.decode x.toNat with
  | .nan => .fin false 0 0
  | v => v

/-- The bounds of an index or a level. -/
def clamp32 (x : Int) : Int := min (max x (-(2 ^ 31))) (2 ^ 31 - 1)

/-- n / 2^k to the nearest integer, ties to even. -/
def rneShift (n : Int) (k : Nat) : Int :=
  let f := n / 2 ^ k
  let r := 2 * (n % 2 ^ k)
  if r < 2 ^ k then f else if 2 ^ k < r then f + 1 else if f % 2 = 0 then f else f + 1

/-- v × scale − sub to the nearest integer, clamped (R271, R272). -/
def scaledRound (v : FVal) (scale sub : Int) : Int :=
  match v with
  | .nan => 0
  | .inf neg => if neg then -(2 ^ 31) else 2 ^ 31 - 1
  | .fin neg m e =>
    let x : Int := (if neg then -(m : Int) else m) * scale
    clamp32 (if 0 ≤ e then x * 2 ^ e.toNat - sub else rneShift (x - sub * 2 ^ (-e).toNat) (-e).toNat)

/-- floor(v × n), clamped (R272). -/
def scaledFloor (v : FVal) (n : Nat) : Int :=
  match v with
  | .nan => 0
  | .inf neg => if neg then -(2 ^ 31) else 2 ^ 31 - 1
  | .fin neg m e =>
    let x : Int := (if neg then -(m : Int) else m) * n
    clamp32 (if 0 ≤ e then x * 2 ^ e.toNat else x / 2 ^ (-e).toNat)

/-- The difference of two coordinates rounded to f32. -/
def coordDiff (a b : FVal) : FVal := binary32.decode (binary32.addR false .rne a b.neg).code

/-- A difference times an extent, rounded to f32. -/
def diffTimes (d : FVal) (n : Nat) : FVal := binary32.decode (binary32.mulR false .rne d (.fin false n 0)).code

/-- round(a² + b²): one rounding of the sum of exact squares (R271). -/
def squares (a b : FVal) : FVal := binary32.decode (binary32.sumR false .rne [FVal.mul a a, FVal.mul b b]).code

/-- t of the implicit mode from the coordinates of a quad's lanes 0, 1 and 2 (R271). -/
def implicitT (w h : Nat) (u v : Nat → FVal) : FVal :=
  let p (k : Nat) := squares (diffTimes (coordDiff (u k) (u 0)) w) (diffTimes (coordDiff (v k) (v 0)) h)
  let m : FVal := match p 1, p 2 with
    | .nan, _ => .nan
    | _, .nan => .nan
    | a, b => FVal.max a b
  let l := match m with
    | .fin _ 0 _ => FVal.inf true
    | x => binary32.decode (binary32.log2R false .rne x).code
  binary32.decode (binary32.mulR false .rne l (.fin false 1 (-1))).code

/-- L′ of a level value (R271). -/
def levelOf (h : THeader) (l : Int) : Nat :=
  (min (max l (TexHdr.minlod h)) (min (TexHdr.maxlod h) (256 * TexHdr.nlev h) : Nat)).toNat

/-! ## Footprints (R272, R280) -/

/-- The two texels of an axis: the first index and the weight of the second. -/
def axis (v : FVal) (n : Nat) : Int × Nat :=
  let x := scaledRound v (256 * n) 128
  (x / 256, (x % 256).toNat)

/-- The four footprint texels of a level with the weights of its axes (R272, R280). -/
def footprint (h : THeader) (m layer : Nat) (u v : FVal) : List (Option Nat × Nat) :=
  let (i, fx) := axis u (TexHdr.width h m)
  let (j, fy) := axis v (TexHdr.height h m)
  [(TexHdr.stored h m layer i j, (256 - fx) * (256 - fy)), (TexHdr.stored h m layer (i + 1) j, fx * (256 - fy)),
   (TexHdr.stored h m layer i (j + 1), (256 - fx) * fy), (TexHdr.stored h m layer (i + 1) (j + 1), fx * fy)]

/-- The level of point and bilinear filtering (R272). -/
def pointLevel (h : THeader) (l : Nat) : Nat := min ((l + 128) / 256) (TexHdr.nlev h)

/-- The texel that point filtering reads. -/
def pointTexel (h : THeader) (l layer : Nat) (u v : FVal) : Option Nat :=
  let m := pointLevel h l
  TexHdr.stored h m layer (scaledFloor u (TexHdr.width h m)) (scaledFloor v (TexHdr.height h m))

/-- The weighted texels of a filter at level L′ and the power of two of their sum (R272). -/
def filtered (h : THeader) (l layer : Nat) (u v : FVal) : List (Option Nat × Nat) × Nat :=
  match TexHdr.filter h with
  | 0 => ([(pointTexel h l layer u v, 1)], 0)
  | 1 => ((footprint h (pointLevel h l) layer u v).filter fun x => x.2 != 0, 16)
  | _ =>
    let f := l % 256
    let m0 := l / 256
    let m1 := min (m0 + 1) (TexHdr.nlev h)
    (((footprint h m0 layer u v).map (fun x => (x.1, x.2 * (256 - f))) ++
      (footprint h m1 layer u v).map fun x => (x.1, x.2 * f)).filter fun x => x.2 != 0, 24)

/-- The first texel whose running sum of weights exceeds r (R280). -/
def pick (r : Nat) : List (Option Nat × Nat) → Nat → Option Nat
  | [], _ => none
  | x :: rest, sum => if r < sum + x.2 then x.1 else pick r rest (sum + x.2)

/-- The texel that a draw selects (R280). -/
def drawn (h : THeader) (l layer : Nat) (u v : FVal) (r : Word) : Option Nat :=
  let low := fieldOf r 0 16
  match TexHdr.filter h with
  | 0 => pointTexel h l layer u v
  | 1 => pick low (footprint h (pointLevel h l) layer u v) 0
  | _ =>
    let m0 := l / 256
    let m := if fieldOf r 16 8 < l % 256 then min (m0 + 1) (TexHdr.nlev h) else m0
    pick low (footprint h m layer u v) 0

/-! ## Channel values (R267, R272) -/

/-- Largest f32 code, at most `top`, that satisfies p, which holds from 0 up to some code: by bits. -/
def lastCode (p : Nat → Bool) : Nat → Nat → Nat
  | 0, c => c
  | k + 1, c => lastCode p k (if p (c + 2 ^ k) then c + 2 ^ k else c)

/-- y ≤ ((c + 0.055) / 1.055)^2.4 for y = n / 2^k and c = t / 255: the fifth power of y against the twelfth power of
the base. -/
def srgbBelow (n k t : Nat) : Bool :=
  let num := 1000 * t + 55 * 255
  let den := 1055 * 255
  decide (n ^ 5 * den ^ 12 ≤ num ^ 12 * 2 ^ (5 * k))

/-- dec(t) of R267 as an f32 code. -/
def srgbDecode (t : Nat) : Nat :=
  if t * 100000 ≤ 4045 * 255 then (binary32.round false .rne false (Mag.quot (25 * t) 0 (323 * 255) 0)).code
  else
    let value (c : Nat) : Nat := match binary32.decode c with
      | .fin _ m e => m * 2 ^ (e + 149).toNat
      | _ => 0
    let c := lastCode (fun c => srgbBelow (value c) 149 t) 30 0
    -- c is the largest code not above; the tie point is half way to the next
    if srgbBelow (value c + value (c + 1)) 150 t then c + 1 else c

/-- A channel of a texel, times its denominator: 255 for the normalised formats, else 1 (R267). -/
def texelChannel (fmt ch : Nat) (bytes : List Byte) (c : Nat) : FVal :=
  let int (n : Nat) : FVal := .fin false n 0
  let den := match fmt with
    | 0x01 | 0x02 | 0x03 => 255
    | 0x04 => if c = 3 then 255 else 1
    | _ => 1
  if TexHdr.channels fmt ch ≤ c then int (if c = 3 then den else 0)
  else
    let size := TexHdr.texelBytes fmt ch / max 1 (TexHdr.channels fmt ch)
    let raw := natOfBytes ((bytes.drop (c * size)).take size)
    match fmt with
    | 0x01 | 0x02 | 0x03 => int raw
    | 0x04 => if c = 3 then int raw else binary32.decode (srgbDecode raw)
    | 0x05 | 0x06 | 0x07 | 0x11 => binary16.decode raw
    | 0x10 => e4m3.decode raw
    | _ => binary32.decode raw

/-- The denominator of a channel's values. -/
def channelDen (fmt c : Nat) : Nat :=
  match fmt with
  | 0x01 | 0x02 | 0x03 => 255
  | 0x04 => if c = 3 then 255 else 1
  | _ => 1

/-- The border value of a channel times its denominator; a border latent is zero (R270). -/
def borderChannel (fmt : Nat) (border : DWord) (c : Nat) : FVal :=
  if fmt = 0x10 ∨ fmt = 0x11 then .fin false 0 0
  else (FVal.mul (binary16.decode (fieldOf border (16 * c) 16)) (.fin false (channelDen fmt c) 0)).1

/-- round(sum / D) of a channel over weighted texels, whose bytes are none for a border texel (R272). -/
def channelValue (fmt ch : Nat) (border : DWord) (texels : List (Option (List Byte) × Nat)) (shift c : Nat) : Nat :=
  let terms := texels.map fun x =>
    FVal.mul (match x.1 with
      | some bs => texelChannel fmt ch bs c
      | none => borderChannel fmt border c) (.fin false x.2 0)
  if FVal.sumInvalid terms then binary32.nanCode
  else
    match FVal.sum false (terms.map fun t => t.1) with
    | .nan => binary32.nanCode
    | .inf s => binary32.infCode s
    | .fin s m e => (binary32.round false .rne s (Mag.quot m (e - shift) (channelDen fmt c) 0)).code

end Sys2Proof.Machine
end

