-- ==== Sys2Proof/Machine/Network.lean ====
section
/-!
DEFINITION. Network images (R275), their evaluation (R276, R277) and the weight cache (R281 to R283).
-/

namespace Sys2Proof.Machine

/-! ## Images (R275) -/

/-- A little-endian value within an image. -/
def imageNat (bs : List Byte) (off n : Nat) : Nat := natOfBytes ((bs.drop off).take n)

/-- A layer's descriptor (R275). -/
structure NetLayer where
  woff : Nat
  boff : Nat
  k : Nat
  n : Nat
  wt : Nat
  act : Nat

def imageLayers (bs : List Byte) : Nat := imageNat bs 0 4 % 8
def imageSize (bs : List Byte) : Nat := imageNat bs 4 2

/-- The descriptor of layer h. -/
def imageLayer (bs : List Byte) (h : Nat) : NetLayer :=
  let w : DWord := BitVec.ofNat 64 (imageNat bs (16 + 8 * h) 8)
  ⟨fieldOf w 48 16, fieldOf w 32 16, fieldOf w 24 8, fieldOf w 16 8, fieldOf w 12 4, fieldOf w 8 4⟩

/-- Kp: the input width rounded up to a group of 32 (R275). -/
def NetLayer.kp (l : NetLayer) : Nat := roundUp l.k 32

/-- Rb: the bytes of a weight row (R275). -/
def NetLayer.rowBytes (l : NetLayer) : Nat := if l.wt = 14 then l.kp / 2 + l.kp / 32 else l.kp

/-- A layer's fields are in range and its rows and biases lie within the image (R275). -/
def NetLayer.valid (l : NetLayer) (size : Nat) (last : Bool) : Bool :=
  decide (l.woff % 64 = 0 ∧ l.boff % 4 = 0 ∧ 1 ≤ l.k ∧ l.k ≤ 64 ∧ 1 ≤ l.n ∧ l.n ≤ (if last then 8 else 64) ∧
    12 ≤ l.wt ∧ l.wt ≤ 14 ∧ l.act ≤ 3 ∧ l.woff + l.n * l.rowBytes ≤ size ∧ l.boff + 4 * l.n ≤ size)

/-- The header's own fields are in range (R275). -/
def imageHeaderOk (bs : List Byte) : Bool :=
  let w := imageNat bs 0 4
  decide (w / 2 ^ 28 = 0 ∧ w / 2 ^ 24 % 16 = 1 ∧ w / 8 % 2 ^ 21 = 0 ∧ 1 ≤ w % 8 ∧ w % 8 ≤ 4 ∧ imageNat bs 6 2 = 0 ∧
    imageNat bs 8 8 = 0 ∧ imageSize bs % 64 = 0 ∧ 64 ≤ imageSize bs ∧ imageSize bs ≤ 16384)

/-- The image is valid (R275), but for the width of its first layer, which its header must match. -/
def imageValid (bs : List Byte) : Bool :=
  let nl := imageLayers bs
  imageHeaderOk bs && (List.range 4).all fun h =>
    let l := imageLayer bs h
    if nl ≤ h then imageNat bs (16 + 8 * h) 8 == 0
    else l.valid (imageSize bs) (decide (h + 1 = nl)) && imageNat bs (16 + 8 * h) 1 == 0 &&
      (h == 0 || l.k == (imageLayer bs (h - 1)).n)

/-! ## Evaluation (R276) -/

/-- The element type of a layer's weights. -/
def NetLayer.ty (l : NetLayer) : Ty := if l.wt = 12 then .e4m3 else if l.wt = 13 then .e5m2 else .mxf4

/-- The E8M0 byte of R156 for the greatest magnitude of a group under E2M1; 0xFF for a NaN or an infinity. -/
def groupScale (xs : List FVal) : Nat :=
  if xs.any fun x => x = .nan || x = .inf true || x = .inf false then 255
  else
    let mags := xs.map fun x => match x with
      | .fin _ m e => FVal.fin false m e
      | v => v
    match mags.foldl FVal.max (.fin false 0 0) with
    | .fin _ m e => if m = 0 then 0x7F else (min (max ((bitLen m : Int) - 1 + e - 2) (-127)) 127 + 127).toNat
    | _ => 255

/-- Rounded to a format, ±M for overflow and for infinities (R157, R276). -/
def quantise (t : Ty) (x : FVal) : Nat :=
  match x with
  | .nan => t.fmt.nanCode
  | .inf s => t.fmt.maxCode s
  | .fin s m e =>
    let r := t.fmt.round false .rne s ⟨m, e, false⟩
    if r.cond.of_ then t.fmt.maxCode s else r.code

/-- The activation of R276, on f32 codes. -/
def sigmoidMag (neg : Bool) (m : Nat) (e : Int) : Mag :=
  let top : Int := (bitLen m : Int) + e
  if m = 0 then ⟨1, -1, false⟩
  else if top ≤ -64 then (if neg then ⟨2 ^ 100 - 1, -101, true⟩ else ⟨2 ^ 100, -101, true⟩)
  else if 7 < top then (if neg then ⟨0, -184, true⟩ else ⟨2 ^ 200 - 1, -200, true⟩)
  else refine fun p =>
    let y := fixOf p m e
    let n := y / ln2Fix p
    let t := expFix p (y - n * ln2Fix p) * 2 ^ n
    let v := (if neg then 2 ^ p else t) * 2 ^ p / (t + 2 ^ p)
    bracket (v - fixErr) (min (2 ^ p - 1) (v + fixErr)) (-(p : Int))

/-- act(v) of R276. -/
def activation (act code : Nat) : Nat :=
  let v := binary32.decode code
  match act with
  | 0 => code
  | 1 => (match v with
    | .nan => code
    | .inf s => if s then 0 else code
    | .fin s m _ => if s || m == 0 then 0 else code)
  | 2 => (match v with
    | .nan => 0
    | .inf s => if s then 0 else 0x3F800000
    | .fin s m e => if s || m == 0 then 0 else if FVal.cmp (.fin s m e) (.fin false 1 0) = some .lt then code else 0x3F800000)
  | _ => (match v with
    | .nan => code
    | .inf s => if s then 0 else 0x3F800000
    | .fin s m e => (binary32.round false .rne false (sigmoidMag s m e)).code)

/-- One layer over its input, as f32 codes (R276). -/
def NetLayer.run (l : NetLayer) (bs : List Byte) (x : List Nat) : List Nat :=
  let t := l.ty
  let groups := l.kp / 32
  let xs := x.map binary32.decode
  let sa (g : Nat) : Nat := if t = .mxf4 then groupScale ((xs.drop (32 * g)).take 32) else 127
  let scales := (List.range groups).map sa
  let a (k : Nat) : Nat :=
    if l.k ≤ k then 0
    else
      let s := scales.getD (k / 32) 127
      if s = 255 then 0 else quantise t ((xs.getD k (.fin false 0 0)).scale (127 - (s : Int)))
  let acts := (List.range l.kp).map a
  (List.range l.n).map fun j =>
    let row := l.woff + j * l.rowBytes
    let w (k : Nat) : Nat :=
      if l.k ≤ k then 0
      else if t = .mxf4 then imageNat bs (row + k / 2) 1 / 16 ^ (k % 2) % 16
      else imageNat bs (row + k) 1
    let sw (g : Nat) : Nat := if t = .mxf4 then imageNat bs (row + l.kp / 2 + g) 1 else 127
    let sum (g : Nat) : Nat :=
      let s := scales.getD g 127
      if s = 255 ∨ sw g = 255 then binary32.nanCode
      else (binary32.sumR false .rne ((List.range 32).map fun i =>
        let p := elemProduct t (acts.getD (32 * g + i) 0) (w (32 * g + i))
        (p.1.scale ((s : Int) + sw g - 254), p.2))).code
    activation l.act ((List.range groups).foldl (fun acc g => addF32 acc (sum g)) (imageNat bs (l.boff + 4 * j) 4))

/-- The network's outputs for a latent vector (R276). -/
def evaluate (bs : List Byte) (x : List Nat) : List Nat :=
  (List.range (imageLayers bs)).foldl (fun x h => (imageLayer bs h).run bs x) x

/-! ## The weight cache (R281, R282) -/

/-- The tag of an image as a key: domain, object index, OFFSET (R281). -/
def imageKey (dom : Nat) (ref : DWord) : Nat := (dom * 2 ^ 18 + refIndex ref) * 2 ^ 42 + refOffset ref

def WImage.key (i : WImage) : Nat := (i.dom.toNat * 2 ^ 18 + i.index) * 2 ^ 42 + i.off

/-- Blocks of 1 KiB. -/
def WImage.blocks (i : WImage) : Nat := (i.bytes.length + 1023) / 1024

/-- The images of a core. -/
def State.images (s : State) (core : Nat) : List WImage := SMap.get [] s.wcache core

/-- The cached image of a key. -/
def State.image? (s : State) (core key : Nat) : Option WImage := (s.images core).find? fun i => i.key == key && i.live

/-- Some wave on the core holds a pin of the key (R282). -/
def State.pinnedImage (s : State) (core key : Nat) : Bool :=
  s.waves.any fun x => decide (SMap.get 0 x.2.wpins key ≠ 0) && (match s.workgroups.find? x.2.wg with
    | some g => decide (g.core = core) && (match g.phase with
      | .saved _ => false
      | _ => true)
    | none => false)

/-- Mark an image used now. -/
def State.useImage (s : State) (core key : Nat) : State :=
  { s with wcache := SMap.set [] s.wcache core ((s.images core).map fun i => if i.key = key then { i with used := s.tick } else i) }

/-- The least recently used unpinned image. -/
def State.victim (s : State) (core : Nat) (is : List WImage) : Option WImage :=
  (is.filter fun i => i.live && !s.pinnedImage core i.key).foldl (fun v i =>
    match v with
    | none => some i
    | some x => if i.used < x.used then some i else v) none

/-- Evict until at most `room` blocks are used (R281). -/
def State.shrink (s : State) (core room : Nat) : Nat → List WImage → List WImage
  | 0, is => is
  | fuel + 1, is =>
    if ((is.filter fun i => i.live).map WImage.blocks).sum ≤ room then is
    else
      match s.victim core is with
      | some v => s.shrink core room fuel (is.filter fun i => i.key != v.key)
      | none => is

/-- Cache an image, after evicting what must make room. -/
def State.cacheImage (s : State) (core : Nat) (dom : BitVec 16) (ref : DWord) (bytes : List Byte) : State :=
  let new : WImage := ⟨dom, refIndex ref, refOffset ref, bytes, s.tick, true⟩
  let others := (s.images core).filter fun i => i.key != new.key
  { s with wcache := SMap.set [] s.wcache core (s.shrink core (32 - new.blocks) 33 others ++ [new]) }

/-- Drop the cached copies that satisfy p; an image that is pinned keeps its place (R283, R479). -/
def State.dropImages (s : State) (core : Nat) (p : WImage → Bool) : State :=
  { s with wcache := SMap.set [] s.wcache core ((s.images core).filterMap fun i =>
      if !p i then some i else if s.pinnedImage core i.key then some { i with live := false } else none) }

/-! ## Fills (R274, R281, R477) -/

/-- What a fill gives. -/
inductive FillOut where
  | wait (needs : List Need)
  /-- A cause for every instruction that waits on the fill. -/
  | fail (cause : Nat)
  | done (bytes : List Byte)

/-- Read and validate a whole image for a core, after the slices' earlier stores; with a header's CH, K of layer 0 has to
equal it (R274, R275, R281). -/
def State.fillImage (s : State) (core dom : Nat) (ref : DWord) (ch : Option Nat) : FillOut :=
  let index := refIndex ref
  match s.checkObject core dom ref needR (.only 4) 0 0 with
  | .error _ => .fail 0x13
  | .ok e =>
    let off := refOffset ref
    if off % 64 ≠ 0 ∨ e.length < off + 64 then .fail 0x13
    else if s.mapPoisoned e off 64 then .fail 0x09
    else if !s.residentRange e off 64 then .wait (s.missing dom index e off 64)
    else
      let read (n : Nat) : List Byte := (List.range n).map fun i => s.portByte (dieOf core) (s.addrOf dom e (off + i))
      let bad (n : Nat) : Bool := s.objectPoison (dieOf core) dom e off n
      let size := imageSize (read 64)
      if bad 64 then .fail 0x09
      else if !imageHeaderOk (read 64) || decide (e.length < off + size) then .fail 0x13
      else if s.mapPoisoned e off size then .fail 0x09
      else if !s.residentRange e off size then .wait (s.missing dom index e off size)
      else if bad size then .fail 0x09
      else if imageValid (read size) && (ch.map fun n => (imageLayer (read size) 0).k == n).getD true then .done (read size)
      else .fail 0x13

/-- Start the fill of an image, or share one in progress (R281). -/
def State.startFill (s : State) (core : Nat) (dom : BitVec 16) (ref : DWord) (wk : Nat) (m : SliceMask) (ch : Option Nat) :
    State :=
  let fs := SMap.get [] s.wfills core
  if fs.any fun f => imageKey f.dom.toNat f.ref == imageKey dom.toNat ref then s
  else { s with wfills := SMap.set [] s.wfills core (fs ++ [⟨dom, ref, wk, m, ch, false⟩]) }

end Sys2Proof.Machine
end

