-- ==== Sys2Proof/Machine/Sampler.lean ====
section
/-!
DEFINITION. The sampler instructions of class 0x9 (R284 to R287): SAMPLE, SAMPLE.N, GATHER, TEXQ, WPIN, WUNPIN, WINV
and RNG.
-/

namespace Sys2Proof.Machine

/-! ## Header reads (R265, R269, R476) -/

/-- A lane's header that has been read and is valid. -/
structure LaneHdr where
  lane : Nat
  ref : DWord
  entry : ObjEntry
  hdr : THeader

/-- What reading every lane's header gives. -/
inductive HdrOut where
  | stop (a : Act)
  | ok (hs : List LaneHdr)

/-- The bytes of an object that lie at an offset, as the core's die sees them. -/
def State.objectBytes (s : State) (core dom : Nat) (e : ObjEntry) (off n : Nat) : List Byte :=
  (List.range n).map fun i => s.portByte (dieOf core) (s.addrOf dom e (off + i))

/-- A lane's header: a failed check or one that is not valid, granules that it needs first, a poisoned one, or one that is
in hand. -/
inductive HdrLane where
  | bad (c : Nat)
  | missing (ns : List Need)
  | poison
  | ok (h : LaneHdr)

/-- Check, read and validate a lane's header (R265, R269); `kindOk` is the instruction's own test of its kind. -/
def Env.laneHeader (e : Env) (s : State) (ref : DWord) (kindOk : THeader → Bool) (lane : Nat) : HdrLane :=
  match s.checkBytes e.core e.dom ref needR (.only 3) (refOffset ref) 64 64 with
  | .error c => .bad c
  | .ok entry =>
    match if s.mapPoisoned entry (refOffset ref) 64 then [] else s.missing e.dom (refIndex ref) entry (refOffset ref) 64 with
    | n :: ns => .missing (n :: ns)
    | [] =>
      if s.objectPoison (dieOf e.core) e.dom entry (refOffset ref) 64 then .poison
      else
        let bs := s.objectBytes e.core e.dom entry (refOffset ref) 64
        let h : THeader := (List.range 8).map fun i => BitVec.ofNat 64 (imageNat bs (8 * i) 8)
        if !TexHdr.valid h entry.length || !kindOk h then .bad 0x12 else .ok ⟨lane, ref, entry, h⟩

/-- Every executing lane's header: the lowest lane that fails a check of R178, R265 or R269 is reported at its first
failing step, before what a header's read meets (R414). Granules that are needed below that lane are waited for; the
reads follow the slice's parked accesses as R229 says. -/
def Env.headers (e : Env) (s : State) (o : Operand) (kindOk : THeader → Bool) : HdrOut :=
  let xs := (lanesOf e.lanes).map fun l => (e.readRef o l, e.laneHeader s (e.readRef o l) kindOk l)
  let isBad (x : DWord × HdrLane) : Bool := match x.2 with
    | .bad _ => true
    | _ => false
  let needs := ((xs.takeWhile fun x => !isBad x).flatMap fun x => match x.2 with
    | .missing ns => ns
    | _ => []).eraseDups
  let ref := ((xs.find? fun x => match x.2 with
    | .missing _ => true
    | _ => false).map fun x => x.1).getD 0
  match xs.findSome? fun x => match x.2 with
    | .bad c => some (c, x.1)
    | _ => none with
  | some (c, v) => .stop (if needs.isEmpty || s.needsFail needs then .trap c v else e.holdFor s needs ref)
  | none =>
    if !needs.isEmpty then .stop (e.holdFor s needs ref)
    else
      match xs.find? fun x => match x.2 with
        | .poison => true
        | _ => false with
      | some x => .stop (.trap 0x09 x.1)
      | none =>
        let hs := xs.filterMap fun x => match x.2 with
          | .ok h => some h
          | _ => none
        match e.mustFollow s 0 (hs.map fun h => ⟨h.lane, e.wave.dom, h.ref, h.entry, .byte (refOffset h.ref), 64, [], []⟩) with
        | some w => .stop (.hold s w)
        | none => .ok hs

/-! ## Levels and coordinates of a lane (R270, R271) -/

/-- u and v of a lane, from vector or scalar registers. -/
def Env.coordUV (e : Env) (o : Operand) (lane : Nat) : FVal × FVal :=
  let r := e.readRun o lane 2
  (coordVal (r.getD 0 0), coordVal (r.getD 1 0))

/-- The layer of a lane. -/
def Env.layer (e : Env) (o : Operand) (h : THeader) (lane : Nat) : Nat :=
  if TexHdr.laym1 h = 0 then 0 else min ((e.readRun o lane 3).getD 2 0).toNat (TexHdr.laym1 h)

/-- t of the implicit mode in a lane; a scalar CBASE gives −∞ (R271). -/
def Env.implicit (e : Env) (o : Operand) (h : THeader) (lane : Nat) : FVal :=
  match o with
  | .v _ =>
    let q := lane / 4 * 4
    implicitT (TexHdr.width0 h) (TexHdr.height0 h) (fun k => (e.coordUV o (q + k)).1) (fun k => (e.coordUV o (q + k)).2)
  | _ => .inf true

/-- L′ of a lane under a LOD mode (R271). -/
def Env.level (e : Env) (lodm : Nat) (c x : Operand) (h : THeader) (lane : Nat) : Nat :=
  let ext := binary32.decode (e.read .f32 x lane).toNat
  levelOf h (match lodm with
    | 0 => scaledRound (e.implicit c h lane) 256 0
    | 1 => scaledRound (binary32.decode (binary32.addR false .rne (e.implicit c h lane) ext).code) 256 0
    | _ => scaledRound ext 256 0)

/-! ## Jobs (R272, R280, R286, R287) -/

/-- A lane's job without texels. -/
def LaneHdr.job (h : LaneHdr) (texels : List (Option Nat × Nat)) (shift : Nat) (net : List Byte) : SampleJob :=
  ⟨h.lane, h.ref, h.entry, TexHdr.fmt h.hdr, TexHdr.ch h.hdr, TexHdr.border h.hdr, texels, shift, net, TexHdr.netref h.hdr⟩

/-- The job of a SAMPLE or SAMPLE.N in a lane: the filter's texels, or the one its draw selects. -/
def Env.sampleJob (e : Env) (f : GFmt) (net : List Byte) (h : LaneHdr) : SampleJob :=
  let (u, v) := e.coordUV f.cbase h.lane
  let l := e.level (lodm f) f.cbase f.extra h.hdr h.lane
  let layer := e.layer f.cbase h.hdr h.lane
  if f.ctl.getLsbD 3 then h.job [(drawn h.hdr l layer u v (e.draw h.lane 0), 1)] 0 net
  else
    let t := filtered h.hdr l layer u v
    h.job t.1 t.2 net

/-- The job of a GATHER in a lane: the four bilinear texels of the point level. -/
def Env.gatherJob (e : Env) (f : GFmt) (h : LaneHdr) : SampleJob :=
  let (u, v) := e.coordUV f.cbase h.lane
  let l := if f.extra = .none then levelOf h.hdr 0 else e.level 2 f.cbase f.extra h.hdr h.lane
  h.job (footprint h.hdr (pointLevel h.hdr l) (e.layer f.cbase h.hdr h.lane) u v) 0 []

/-- The texel reads of a job as accesses. -/
def SampleJob.accs (j : SampleJob) (dom : BitVec 16) : List Acc :=
  j.texels.filterMap fun t => t.1.map fun off =>
    ⟨j.lane, dom, j.ref, j.entry, .byte off, TexHdr.texelBytes j.fmt j.chans, [], []⟩

/-- Sets and ways of a core's texel cache. DESIGN CHOICE (log 101): the manual gives it no size; 64 KiB, 8-way. -/
def texelSets : Nat := 16
def texelWays : Nat := 8

/-- Read a byte through a core's texel cache, filling the line (R273). -/
def State.texelByte (s : State) (core a : Nat) : State × Byte :=
  let ls := SMap.get [] s.texel core
  match findLine ls (lineOf a) with
  | some l => (s, l.bytes.getD (a % 128) 0)
  | none =>
    let s := (s.fillRemote (dieOf core) a).noteL2 false a
    let line := s.portLine (dieOf core) (lineOf a)
    ({ s with texel := SMap.insert s.texel core (fillLine texelSets texelWays ls (lineOf a) line).1 }, line.bytes.getD (a % 128) 0)

/-- The sector of an address is poisoned as a core's texel read meets it (R461, R462). -/
def State.texelBad (s : State) (core a : Nat) : Bool :=
  match findLine (SMap.get [] s.texel core) (lineOf a) with
  | some l => s.lost a || l.badAt a
  | none => s.portPoisoned (dieOf core) a

/-- The bytes of a job's texels, none for a border texel. -/
def State.readTexels (s : State) (core : Nat) (dom : Nat) (j : SampleJob) : State × List (Option (List Byte) × Nat) :=
  j.texels.foldl (fun r t =>
    match t.1 with
    | none => (r.1, r.2 ++ [(none, t.2)])
    | some off =>
      let x := (List.range (TexHdr.texelBytes j.fmt j.chans)).foldl (fun (q : State × List Byte) i =>
        let y := q.1.texelByte core (q.1.addrOf dom j.entry (off + i))
        (y.1, q.2 ++ [y.2])) (r.1, [])
      (x.1, r.2 ++ [(some x.2, t.2)])) (s, [])

/-- The write of register n of the destination of a sampler instruction; 0x1FE discards it (R97). -/
def destReg (o : Operand) (n lane x : Nat) : List RegWrite :=
  match o with
  | .v r => [.v (r.toNat + n) lane (BitVec.ofNat 32 x)]
  | _ => []

/-- What a job writes once its texels are read (R276, R286). -/
def jobWrites (i : Instr) (j : SampleJob) (texels : List (Option (List Byte) × Nat)) : List RegWrite :=
  let value (c : Nat) := channelValue j.fmt j.chans j.border texels j.shift c
  match i with
  | .sample f => ((List.range 4).filter fun c => f.ctl.getLsbD (4 + c)).flatMap fun c => destReg f.dbase c j.lane (value c)
  | .sampleN f =>
    let y := evaluate j.net ((List.range j.chans).map value)
    (List.range y.length).flatMap fun k => destReg f.dbase k j.lane (y.getD k 0)
  | .gather f => (List.range texels.length).flatMap fun k =>
      destReg f.dbase k j.lane (channelValue j.fmt j.chans j.border [((texels.getD k (none, 0)).1, 1)] 0
        (f.ctl.extractLsb' 0 6).toNat)
  | _ => []

/-- SAMPLE.N waits while the core's dot array is lent, and until every queued MMA.SA of the core has completed (R260,
R287). -/
def State.arrayLent (s : State) (core : Nat) (i : Instr) : Bool :=
  match i with
  | .sampleN _ => decide (SMap.get 0 s.lends core ≠ 0) || s.matOps.any fun o => o.sampler && o.core == core
  | _ => false

/-- The network image with which a job runs: the one that it has, or, after a parity error, the core's copy or a new fill (R478). -/
def State.jobNet (s : State) (core : Nat) (dom : BitVec 16) (i : Instr) (j : SampleJob) : FillOut :=
  let neural := match i with
    | .sampleN _ => true
    | _ => false
  if !neural || !j.net.isEmpty then .done j.net
  else
    match s.image? core (imageKey dom.toNat j.netRef) with
    | some x => .done x.bytes
    | none => s.fillImage core dom.toNat j.netRef (some j.chans)

/-- Try one lane whose network image is in hand: its texels' granules, translation and poison, then its result (R273, R287,
R462). -/
def State.runJob (s : State) (w : Who) (dom : BitVec 16) (i : Instr) (j : SampleJob) : AccOut :=
  let accs := j.accs dom
  let places := accs.flatMap fun a => match a.tgt with
    | .byte off => (List.range a.size).map fun k => s.addrOf dom.toNat a.entry (off + k)
    | _ => []
  if accs.any s.unreadable then .late s .uncorrectable
  else if accs.any fun a => (s.accPlace a).isNone then
    if accs.any s.accFails then .late s .residency
    else .wait (accs.foldl (fun s a => (s.requestAcc (dieOf w.core) w.launch a).noteUse w a true) s)
  else if s.noTranslation dom.toNat false places then .late s .translation
  else if places.any (s.texelBad w.core) then .late s .uncorrectable
  else if s.arrayLent w.core i then .wait s
  else
    let s := accs.foldl (fun s a => s.noteUse w a false) s
    let r := s.readTexels w.core dom.toNat j
    .done r.1 (jobWrites i j r.2)

/-- Try one lane, after the refill of its network image where one is needed (R287, R478). DESIGN CHOICE (log 136): a refill that
fails validation is a late condition with cause 0x13. -/
def State.tryJob (s : State) (w : Who) (dom : BitVec 16) (i : Instr) (j : SampleJob) : AccOut :=
  match s.jobNet w.core dom i j with
  | .wait needs =>
    if s.needsFail needs then .late s .residency else .wait (s.requestNeeds (dieOf w.core) (some w.launch) needs)
  | .fail c => .late s (if c = 0x13 then .network else .uncorrectable)
  | .done net =>
    let s := if j.net.isEmpty && !net.isEmpty then s.cacheImage w.core dom j.netRef net else s
    s.runJob w dom i { j with net := net }

/-- What a run over the jobs leaves. -/
structure JobRes where
  s : State
  ws : List RegWrite
  left : List SampleJob
  late : List (SampleJob × LateCause)

/-- Try the lanes in ascending order. -/
def runJobs (w : Who) (dom : BitVec 16) (i : Instr) (s : State) (js : List SampleJob) : JobRes :=
  js.foldl (fun r j =>
    match r.s.tryJob w dom i j with
    | .done s ws => { r with s := s, ws := r.ws ++ ws }
    | .wait s => { r with s := s, left := r.left ++ [j] }
    | .late s c => { r with s := s, late := r.late ++ [(j, c)] }) ⟨s, [], [], []⟩

/-- The condition of lowest code among those the lanes met (R414). -/
def worstJob (l : List (SampleJob × LateCause)) : Option (SampleJob × LateCause) :=
  l.foldl (fun b x =>
    match b with
    | none => some x
    | some y => if lateCode x.2 < lateCode y.2 then some x else some y) none

/-- A pending record with its unfinished jobs. -/
def Pending.withJobs (p : Pending) (dom : BitVec 16) (js : List SampleJob) : Pending :=
  { p with samples := js, mask := js.foldl (fun m j => setLane m j.lane true) 0, accs := js.flatMap fun j => j.accs dom }

/-- Note the reads of texture headers, for the use order and the ranges of the launch (R192, R193). -/
def Env.noteHeaders (e : Env) (s : State) (refs : List DWord) : State :=
  let waited := match e.frag.wait with
    | .granule _ _ _ _ => true
    | _ => false
  refs.foldl (fun s r => s.noteEngine (some e.wg.launch) e.dom (refIndex r) (refOffset r) 64 waited) s

/-- The act of a sampler instruction whose headers and images are in hand: it waits for a parked access with acquire
order or to a common location; then every lane that can be finished is (R229, R287). -/
def Env.sampleAct (e : Env) (i : Instr) (s : State) (draws : Nat) (js : List SampleJob) : Act :=
  match e.mustFollow s 0 (js.flatMap fun j => j.accs e.wave.dom) with
  | some w => .hold s w
  | none =>
    let s := e.noteHeaders (s.fillObjects e.core (js.flatMap fun j => j.accs e.wave.dom)) (js.map fun j => j.ref)
    let s := if draws = 0 then s else e.reserve draws s
    let r := runJobs e.who e.wave.dom i s js
    if r.left.isEmpty && r.late.isEmpty then .writes r.s r.ws .none
    else
      let p := (e.pendingOf e.wave i .sampler 0 [] [] .none).withJobs e.wave.dom (r.left ++ r.late.map fun x => x.1)
      let s := r.s.regsNow e.wk r.ws
      match worstJob r.late with
      | some (j, c) => .late s p c j.ref
      | none => .access s p

/-- Try the unfinished lanes of a pending sampler instruction again (R287). The domain is the one at issue. -/
def State.replaySampler (s : State) (wk : Nat) (p : Pending) : State :=
  match s.waves.find? wk with
  | none => s
  | some w =>
    match s.workgroups.find? w.wg with
    | none => s
    | some wg =>
      let dom := match p.accs with
        | a :: _ => a.dom
        | [] => w.dom
      let r := runJobs ⟨wk, wg.core, wg.launch, p.slices, true⟩ dom p.instr s p.samples
      let left := r.left ++ r.late.map fun x => x.1
      let q := p.withJobs dom left
      let s := (r.s.regsNow wk r.ws).modWave wk fun w =>
        { w with pend := if left.isEmpty then w.pend.filter fun x => x.id != p.id
                         else w.pend.map fun x => if x.id = p.id then q else x }
      match worstJob r.late with
      | some (j, c) => s.lateTrap wk q c (if c = .network then j.netRef else j.ref)
      | none => s

/-- A parity error in a block of a pending SAMPLE.N's image: the evaluation is abandoned, the copy dropped, and the image filled
and validated anew before the lanes run again, with the draws they reserved (R478). -/
def State.parityError (s : State) (wk id : Nat) : State :=
  match (s.waves.find? wk).bind fun w => (s.workgroups.find? w.wg).bind fun g => (w.pend.find? fun p => p.id == id).map fun p => (w, g, p) with
  | some (w, g, p) =>
    match p.kind, p.instr with
    | .sampler, .sampleN _ =>
      if !s.onCore wk then s
      else
        let dom := match p.accs with
          | a :: _ => a.dom
          | [] => w.dom
        let keys := p.samples.map fun j => imageKey dom.toNat j.netRef
        let q := { p with samples := p.samples.map fun j => { j with net := [] } }
        let s := (s.dropImages g.core fun i => keys.contains i.key).modWave wk fun w =>
          { w with pend := w.pend.map fun x => if x.id = id then q else x }
        s.replaySampler wk q
    | _, _ => s
  | none => s

/-! ## SAMPLE, GATHER, TEXQ -/

/-- The fragment's earlier stores are performed before its sampler reads (R229, R273). -/
def Env.sampleReady (e : Env) (s : State) : State := s.drainStores (ofSlices e.wk e.who.slices)

/-- STOCH. -/
def stoch (f : GFmt) : Nat := if f.ctl.getLsbD 3 then 1 else 0

/-- SAMPLE (R286). -/
def execSample (f : GFmt) : State → Host.Outcome State Fault Refusal :=
  issue (.sample f) fun e s =>
    let s := e.sampleReady s
    match e.headers s f.hdr fun h => TexHdr.hkind h == 0 with
    | .stop a => a
    | .ok hs => e.sampleAct (.sample f) s (stoch f) (hs.map (e.sampleJob f []))

/-- GATHER (R286): a channel that the format lacks is sub-reason 0x27 (R450). -/
def execGather (f : GFmt) : State → Host.Outcome State Fault Refusal :=
  issue (.gather f) fun e s =>
    let s := e.sampleReady s
    match e.headers s f.hdr fun _ => true with
    | .stop a => a
    | .ok hs =>
      let channel := (f.ctl.extractLsb' 0 6).toNat
      if hs.any fun h => decide (TexHdr.channels (TexHdr.fmt h.hdr) (TexHdr.ch h.hdr) ≤ channel) then
        .trap 0x40 (illegalVal (Instr.gather f).word 0x27)
      else e.sampleAct (.gather f) s 0 (hs.map (e.gatherJob f))

/-! ## Images of lanes (R274, R281, R476) -/

/-- What getting every lane's image gives. -/
inductive NetOut where
  | stop (a : Act)
  | ok (s : State) (images : List (LaneHdr × List Byte))

/-- The bytes of an image as an access; an image is at most 16 KiB. -/
def Env.imageAcc (e : Env) (ref : DWord) : Acc := ⟨0, e.wave.dom, ref, noEntry, .byte (refOffset ref), 16384, [], []⟩

/-- The fragment waits for the fill of an image, which starts after the slice's earlier accesses as R229 says (R281). -/
def Env.awaitFill (e : Env) (s : State) (ref : DWord) (ch : Option Nat) : Act :=
  match e.mustFollow s 0 [e.imageAcc ref] with
  | some w => .hold s w
  | none => .hold (s.startFill e.core e.wave.dom ref e.wk e.who.slices ch) (.fill (imageKey e.dom ref) ref)

/-- The images of the lanes are in the cache, in the state that marks them used, and each fits its header. -/
def Env.cachedNets (e : Env) (s : State) (hs : List LaneHdr) : NetOut :=
  let key (h : LaneHdr) := imageKey e.dom (TexHdr.netref h.hdr)
  let got := hs.map fun h => (h, match s.image? e.core (key h) with
    | some i => i.bytes
    | none => [])
  match got.find? fun x => (imageLayer x.2 0).k != TexHdr.ch x.1.hdr with
  | some x => .stop (.trap 0x13 (TexHdr.netref x.1.hdr))
  | none => .ok (hs.foldl (fun s h => s.useImage e.core (key h)) s) got

/-- The images of the lanes one after another, each filled where it is not cached: for lanes whose images do not fit
the cache together. -/
def Env.fillNets (e : Env) (s : State) : List LaneHdr → List (LaneHdr × List Byte) → NetOut
  | [], acc => .ok s acc
  | h :: r, acc =>
    let ref := TexHdr.netref h.hdr
    match s.image? e.core (imageKey e.dom ref) with
    | some i =>
      if (imageLayer i.bytes 0).k ≠ TexHdr.ch h.hdr then .stop (.trap 0x13 ref)
      else Env.fillNets e (s.useImage e.core i.key) r (acc ++ [(h, i.bytes)])
    | none =>
      match e.mustFollow s 0 [e.imageAcc ref] with
      | some w => .stop (.hold s w)
      | none =>
        match s.fillImage e.core e.dom ref (some (TexHdr.ch h.hdr)) with
        | .wait needs => .stop (e.holdFor s needs ref)
        | .fail c => .stop (.trap c ref)
        | .done bytes =>
          Env.fillNets e ((s.cacheImage e.core e.wave.dom ref bytes).noteEngine (some e.wg.launch) e.dom (refIndex ref)
            (refOffset ref) bytes.length false) r (acc ++ [(h, bytes)])

/-- Every lane's image: from the cache, after the fills of those that are missing, which the fragment waits for. -/
def Env.nets (e : Env) (s : State) (hs : List LaneHdr) : NetOut :=
  let key (h : LaneHdr) := imageKey e.dom (TexHdr.netref h.hdr)
  let keys := (hs.map key).eraseDups
  let kept := ((s.images e.core).filter fun i => i.live && (keys.contains i.key || s.pinnedImage e.core i.key)).map WImage.blocks
  match hs.find? fun h => (s.image? e.core (key h)).isNone with
  | none => e.cachedNets s hs
  | some h =>
    if 16 < kept.sum then e.fillNets s hs []
    else
      .stop (e.awaitFill (keys.foldl (fun s k => s.useImage e.core k) s) (TexHdr.netref h.hdr) (some (TexHdr.ch h.hdr)))

/-- SAMPLE.N (R276, R286). -/
def execSampleN (f : GFmt) : State → Host.Outcome State Fault Refusal :=
  issue (.sampleN f) fun e s =>
    let s := e.sampleReady s
    match e.headers s f.hdr fun h => TexHdr.hkind h == 1 with
    | .stop a => a
    | .ok hs =>
      match e.nets s hs with
      | .stop a => a
      | .ok s images => e.sampleAct (.sampleN f) s (stoch f) (images.map fun x => e.sampleJob f x.2 x.1)

/-- TEXQ's value (R286). -/
def texqValue (h : THeader) (sel m : Nat) (net : List Byte) : Nat :=
  match sel with
  | 0 => if TexHdr.nlev h < m then 0 else TexHdr.width h m
  | 1 => if TexHdr.nlev h < m then 0 else TexHdr.height h m
  | 2 => TexHdr.nlev h + 1
  | 3 => TexHdr.laym1 h + 1
  | 4 => TexHdr.fmt h
  | 5 => TexHdr.hkind h
  | 6 => TexHdr.ch h
  | _ => if TexHdr.hkind h = 0 then 0 else (imageLayer net (imageLayers net - 1)).n

/-- TEXQ (R286): selector 7 needs the images of the lanes whose header is neural. -/
def execTexq (f : GFmt) : State → Host.Outcome State Fault Refusal :=
  issue (.texq f) fun e s =>
    let s := e.sampleReady s
    let sel := (f.ctl.extractLsb' 0 3).toNat
    match e.headers s f.hdr fun _ => true with
    | .stop a => a
    | .ok hs =>
      let neural := if sel = 7 then hs.filter fun h => TexHdr.hkind h.hdr == 1 else []
      match e.nets s neural with
      | .stop a => a
      | .ok s images =>
        .writes (e.noteHeaders (s.fillRefs e.core e.dom (hs.map fun h => h.ref)) (hs.map fun h => h.ref)) (hs.flatMap fun h =>
          let net := ((images.find? fun x => x.1.lane == h.lane).map fun x => x.2).getD []
          let m := if f.extra = .none then 0 else e.readZ f.extra h.lane
          writeTo .z32 f.dbase h.lane (BitVec.ofNat 64 (texqValue h.hdr sel m net))) .none

/-! ## Pins (R282) and WINV (R283) -/

/-- A network image reference passes R178 steps 1 to 3 (R284). -/
def Env.netRef (e : Env) (s : State) (o : Operand) : Except (Nat × DWord) DWord :=
  let ref := e.readRef o e.first
  match s.checkObject e.core e.dom ref needR (.only 4) 0 0 with
  | .error c => .error (c, ref)
  | .ok _ => .ok ref

/-- The keys pinned on a core. -/
def State.pinnedKeys (s : State) (core : Nat) : List Nat :=
  ((s.waves.flatMap fun x => x.2.wpins.map fun p => p.1).eraseDups).filter fun k => s.pinnedImage core k

/-- The blocks that a pinned image takes on a core: those of its copy there, else as many as it had when it was pinned (R282). -/
def State.pinBlocks (s : State) (core key : Nat) : Nat :=
  match (s.images core).find? fun i => i.key == key with
  | some i => i.blocks
  | none => (s.waves.findSome? fun x => x.2.wblocks.find? key).getD 0

/-- A further image can be pinned on a core: at most 8 images, and 16 blocks (R282). -/
def State.pinFits (s : State) (core key : Nat) : Bool :=
  let pinned := s.pinnedKeys core
  pinned.contains key || (decide (pinned.length < 8) && decide ((pinned.map (s.pinBlocks core)).sum + s.pinBlocks core key ≤ 16))

/-- The status of a WPIN of a cached image (R282). -/
def Env.pinStatus (e : Env) (s : State) (i : WImage) : Nat :=
  if SMap.get 0 e.wave.wpins i.key = 15 then 2 else if s.pinFits e.core i.key then 0 else 1

/-- WPIN (R282). -/
def execWpin (f : GFmt) : State → Host.Outcome State Fault Refusal :=
  issue (.wpin f) fun e s =>
    match e.netRef s f.hdr with
    | .error (c, v) => .trap c v
    | .ok ref =>
      let key := imageKey e.dom ref
      match s.image? e.core key with
      | none => e.awaitFill s ref none
      | some i =>
        let status := e.pinStatus s i
        let s := s.useImage e.core key
        let s := if status = 0 then s.modWave e.wk fun w =>
            { w with wpins := SMap.set 0 w.wpins key (SMap.get 0 w.wpins key + 1), wblocks := w.wblocks.insert key i.blocks } else s
        .writes s (writeTo .z32 f.dbase e.first (BitVec.ofNat 64 status)) .none

/-- WUNPIN (R282). -/
def execWunpin (f : GFmt) : State → Host.Outcome State Fault Refusal :=
  issue (.wunpin f) fun e s =>
    match e.netRef s f.hdr with
    | .error (c, v) => .trap c v
    | .ok ref =>
      let key := imageKey e.dom ref
      .writes (s.modWave e.wk fun w => { w with wpins := SMap.set 0 w.wpins key (SMap.get 0 w.wpins key - 1) }) [] .none

/-- WINV (R283): a fence of order 3 at its scope, then the image's copy goes. -/
def execWinv (f : GFmt) : State → Host.Outcome State Fault Refusal :=
  issue (.winv f) fun e s =>
    match e.netRef s f.hdr with
    | .error (c, v) => .trap c v
    | .ok ref =>
      match e.awaits s e.who.slices with
      | some w => .hold s w
      | none =>
        let scope : BitVec 3 := f.ctl.extractLsb' 0 3
        let s := (s.release e.core e.wk e.who.slices scope).acquireAct e.core scope
        .writes (s.dropImages e.core fun i => i.key == imageKey e.dom ref) [] .none

/-! ## RNG (R278, R286) -/

/-- RNG (R286): with a key its counter values come from the key, and none is reserved. -/
def execRng (f : GFmt) : State → Host.Outcome State Fault Refusal :=
  issue (.rng f) fun e s =>
    let n := (f.ctl.extractLsb' 0 3).toNat + 1
    let value (lane j : Nat) : Word :=
      if f.extra = .none then e.draw lane j
      else drawOf (drawKey e.launch.lid e.wave.seed) (lidOf lane e.wave.no e.wg.stage e.wg.index)
        (BitVec.ofNat 32 (e.readZ f.extra lane + j))
    .writes (if f.extra = .none then e.reserve n s else s)
      (e.lanewise fun l => writeRun f.dbase l ((List.range n).map (value l))) .none

/-! ## Fills (R281, R477) -/

/-- WEIGHT_FILL_COMPLETE: a fill reads and validates its image and caches it; a fill that fails leaves no copy, and
every fragment that waits on it takes the cause, one of a halted wave when it runs on (R281, R477, R488). -/
def execWeightFillComplete (core fill : Nat) (s : State) : Host.Outcome State Fault Refusal :=
  let fs := SMap.get [] s.wfills core
  match fs[fill]? with
  | none => .next s
  | some f =>
    let s := s.drainStores (ofSlices f.wave f.slices)
    let filled : State := { s with wfills := SMap.set [] s.wfills core (fs.eraseIdx fill) }
    let fail (c : Nat) : State :=
      (filled.waves.flatMap fun x =>
        if filled.onCore x.1 ∧ !x.2.halted ∧ x.2.halting.isNone ∧ ((filled.workgroups.find? x.2.wg).map fun g => g.core) = some core then
          x.2.frags.filterMap fun fr => match fr.wait with
            | .fill k v => if k = imageKey f.dom.toNat f.ref then some (x.1, fr.id, v) else none
            | _ => none
        else []).foldl (fun s x =>
          match (s.waves.find? x.1).bind fun w => (w.frag? x.2.1).bind fun g => w.fragPc g with
          | some pc => (s.enterTrap x.1 x.2.1 c pc pc x.2.2).settle x.1 x.2.1 none false
          | none => s) filled
    match s.fillImage core f.dom.toNat f.ref f.ch with
    | .wait needs =>
      if s.needsFail needs then .next (fail 0x06)
      else
        .next (State.requestNeeds { s with wfills := SMap.set [] s.wfills core (fs.set fill { f with waited := true }) }
          (dieOf core) (s.launchOf f.wave) needs)
    | .fail c => .next (fail c)
    | .done bytes =>
      .next ((filled.cacheImage core f.dom f.ref bytes).noteEngine (s.launchOf f.wave) f.dom.toNat (refIndex f.ref)
        (refOffset f.ref) bytes.length f.waited)

end Sys2Proof.Machine
end

