-- ==== Sys2Proof/Machine/Ray.lean ====
section
/-!
DEFINITION. The ray instructions (R303 to R307) and the traversal of a lane's ray (R305, R306).
-/

namespace Sys2Proof.Machine

/-! ## Arithmetic on f32 values, every step rounded (R305) -/

def rAdd (a b : FVal) : FVal := binary32.decode (binary32.addR false .rne a b).code
def rSub (a b : FVal) : FVal := rAdd a b.neg
def rMul (a b : FVal) : FVal := binary32.decode (binary32.mulR false .rne a b).code
def rDiv (a b : FVal) : FVal := binary32.decode (binary32.divR false .rne a b).code

/-- a < b, false where either is NaN. -/
def rLt (a b : FVal) : Bool := FVal.cmp a b == some .lt
/-- a ≤ b, false where either is NaN. -/
def rLe (a b : FVal) : Bool := FVal.cmp a b == some .lt || FVal.cmp a b == some .eq
/-- a = b. -/
def rEq (a b : FVal) : Bool := FVal.cmp a b == some .eq

def rZero : FVal := .fin false 0 0
def rOne : FVal := .fin false 1 0

/-- A point or vector. -/
structure Vec3 where
  x : FVal
  y : FVal
  z : FVal

def Vec3.sub (a b : Vec3) : Vec3 := ⟨rSub a.x b.x, rSub a.y b.y, rSub a.z b.z⟩
/-- x, then y, then z, each product rounded. -/
def Vec3.dot (a b : Vec3) : FVal := rAdd (rAdd (rMul a.x b.x) (rMul a.y b.y)) (rMul a.z b.z)
/-- Each product rounded, then their difference. -/
def Vec3.cross (a b : Vec3) : Vec3 :=
  ⟨rSub (rMul a.y b.z) (rMul a.z b.y), rSub (rMul a.z b.x) (rMul a.x b.z), rSub (rMul a.x b.y) (rMul a.y b.x)⟩

/-- The f32 code of a value that is one. -/
def f32Code (v : FVal) : Word := BitVec.ofNat 32 (binary32.ofVal false .rne v).code

/-- Words n to n + 2 as a vector. -/
def vecAt (ws : List Word) (n : Nat) : Vec3 :=
  let x (i : Nat) := binary32.decode (ws.getD (n + i) 0).toNat
  ⟨x 0, x 1, x 2⟩

/-! ## Primitives (R302, R305) -/

/-- A coordinate is not finite. -/
def notFinite (w : Word) : Bool :=
  match binary32.decode w.toNat with
  | .fin _ _ _ => false
  | _ => true

/-- The primitive is degenerate (R302). -/
def degenerate (boxes : Bool) (ws : List Word) : Bool :=
  if boxes then
    (ws.take 6).any notFinite || (List.range 3).any fun i =>
      rLt (binary32.decode (ws.getD (i + 3) 0).toNat) (binary32.decode (ws.getD i 0).toNat)
  else (ws.take 9).any notFinite

/-- A triangle's t, u, v and the sign of its determinant, unless the ray misses it (R305). -/
def hitTriangle (ray : List Word) (cull : Bool) (ws : List Word) : Option (FVal × FVal × FVal × Bool) :=
  let o := vecAt ray 0
  let d := vecAt ray 4
  let v0 := vecAt ws 0
  let e1 := (vecAt ws 3).sub v0
  let e2 := (vecAt ws 6).sub v0
  let p := d.cross e2
  let det := e1.dot p
  if rEq det rZero || (cull && rLt det rZero) then none
  else
    let inv := rDiv rOne det
    let s := o.sub v0
    let u := rMul (s.dot p) inv
    if rLt u rZero || rLt rOne u then none
    else
      let q := s.cross e1
      let v := rMul (d.dot q) inv
      if rLt v rZero || rLt rOne (rAdd u v) then none
      else some (rMul (e2.dot q) inv, u, v, rLt rZero det)

/-- The lesser and the greater slab crossing of an axis: a NaN stands for −∞ in the lesser and +∞ in the greater
(R305). -/
def slab (o d lo hi : FVal) : FVal × FVal :=
  let r := rDiv rOne d
  let at_ (x : FVal) : FVal := binary32.decode (binary32.finish false .rne (FVal.mul (FVal.add false x o.neg).1 r)).code
  let t1 := at_ lo
  let t2 := at_ hi
  let low (t : FVal) : FVal := if t = .nan then .inf true else t
  let high (t : FVal) : FVal := if t = .nan then .inf false else t
  (FVal.min (low t1) (low t2), FVal.max (high t1) (high t2))

/-- tnear and tfar of a box (R305). -/
def hitBox (ray ws : List Word) : FVal × FVal :=
  let o := vecAt ray 0
  let d := vecAt ray 4
  let lo := vecAt ws 0
  let hi := vecAt ws 3
  let a := slab o.x d.x lo.x hi.x
  let b := slab o.y d.y lo.y hi.y
  let c := slab o.z d.z lo.z hi.z
  (FVal.max (FVal.max a.1 b.1) c.1, FVal.min (FVal.min a.2 b.2) c.2)

/-- A triangle's t lies below the bound: below tcur, or equal to the accepted t at a lower primitive index (R305,
R306). -/
def RaySlot.below (r : RaySlot) (t : FVal) (prim : Nat) : Bool :=
  rLt t (binary32.decode r.tcur.toNat) || (match r.best with
    | some h => rEq t (binary32.decode h.t.toNat) && decide (prim < h.prim.toNat)
    | none => false)

/-- The candidate that a primitive gives, and whether it needs a call-out (R305, R306). -/
def RaySlot.candidate (r : RaySlot) (boxes : Bool) (prim : Nat) (ws : List Word) : Option (Hit × Bool) :=
  let tmin := binary32.decode (r.ray.getD 3 0).toNat
  let no := BitVec.ofNat 32 prim
  if degenerate boxes ws then none
  else if boxes then
    let (near, far) := hitBox r.ray ws
    if rLe near far && rLe tmin far && rLt near (binary32.decode r.tcur.toNat) then
      some (⟨no, f32Code (FVal.max near tmin), 0, 0, false, true⟩, true)
    else none
  else
    match hitTriangle r.ray r.cull ws with
    | some (t, u, v, front) =>
      if rLe tmin t && r.below t prim then
        some (⟨no, f32Code t, f32Code u, f32Code v, front, false⟩, !r.opaque_ && (ws.getD 9 0).getLsbD 0)
      else none
    | none => none

/-! ## Traversal (R306) -/

/-- Accept a candidate; with `.first` the ray ends (R306). -/
def RaySlot.accept (r : RaySlot) (h : Hit) : RaySlot :=
  { r with best := some h, tcur := h.t, cand := none, isOver := r.isOver || r.first }

/-- Traverse until a call-out or the end. The device chooses the order: `choose` gives the k-th choice. -/
def RaySlot.traverse (g : Geometry) (choose : Nat → Nat) : Nat → RaySlot → RaySlot
  | 0, r => { r with isOver := true }
  | fuel + 1, r =>
    if r.isOver then r
    else
      match r.todo with
      | [] => { r with isOver := true }
      | p :: rest =>
        let k := if rest.isEmpty then 0 else choose fuel % r.todo.length
        let prim := r.todo.getD k p
        let r := { r with todo := r.todo.eraseIdx k }
        match r.candidate g.boxes prim (g.prims.getD prim []) with
        | none => RaySlot.traverse g choose fuel r
        | some (h, true) => { r with cand := some h }
        | some (h, false) => RaySlot.traverse g choose fuel (r.accept h)

/-- The six result words (R306). -/
def RaySlot.result (r : RaySlot) : List Word :=
  let hit (status : Nat) (h : Hit) : List Word :=
    [BitVec.ofNat 32 status, h.prim, h.t, h.u, h.v,
     BitVec.ofNat 32 ((if h.front then 1 else 0) + (if h.box then 2 else 0))]
  match r.cand, r.best with
  | some h, _ => hit 2 h
  | none, some h => hit 1 h
  | none, none => [0, BitVec.allOnes 32, r.ray.getD 7 0, 0, 0, 0]

/-- The geometry of a generation of a BVH. -/
def State.generation (s : State) (e : ObjEntry) (gen : Word) : Option Geometry :=
  (s.bvhs.find? e.extroot).bind fun b => (b.gens.find? fun g => g.1 == gen).map fun g => g.2

/-- DBASE of a ray instruction. -/
def rayDest : Instr → Operand
  | .rayTrace f => f.dbase
  | .rayNext f => f.dbase
  | _ => .none

/-- A lane's traversal reaches a call-out or the end of its ray, and its registers are written; a ray that has ended
releases its generation and its slot (R306, R307). -/
def State.endTraversal (s : State) (wk lane : Nat) : State :=
  match s.waves.find? wk with
  | none => s
  | some w =>
    match w.pend.find? fun p => p.kind == .ray && p.mask.getLsbD lane, w.rays.find? lane with
    | some p, some r =>
        let g := (s.generation r.entry r.gen).getD ⟨false, [], 0, 0, 0, 0, []⟩
        let r := if r.isOver then r
          else r.traverse g (fun k => Config.freeChoice (s.freeCount + k)) (r.todo.length + 1)
        let s := { s with freeCount := s.freeCount + r.todo.length + g.prims.length + 1 }
        let ws := writeRun (rayDest p.instr) lane r.result
        let s := if r.isOver then s.modPins r.dom.toNat r.entry r.gen fun n => n - 1 else s
        let mask := setLane p.mask lane false
        s.modWave wk fun w =>
          let w := (w.markBlocks ws).applyAll ws
          { w with rays := if r.isOver then SMap.erase w.rays lane else SMap.insert w.rays lane r,
                   pend := if mask = 0 then w.pend.filter fun q => q.id != p.id
                           else w.pend.map fun q => if q.id = p.id then
                     { q with mask := mask, accs := q.accs.filter fun a => a.lane != lane } else q }
    | _, _ => s

/-- The 32-byte sectors of nodes that a traversal reads, by their offsets: which ones is the device's choice, at least one; a ray
that has ended reads none. -/
def State.visited (s : State) (r : RaySlot) (g : Geometry) : List Nat :=
  let all := (List.range ((g.place + g.size + 31) / 32 - g.place / 32)).map fun k => (k, 32 * (g.place / 32 + k))
  let read := (all.filter fun x => Config.freeChoice (s.freeCount + x.1) % 2 == 1).map fun x => x.2
  if r.isOver || g.size == 0 then [] else if read.isEmpty then [g.place] else read

/-- What a traversal of a wave meets at the nodes of its tree: granules that it needs first, and whether it reads a poisoned sector
(R190, R483). Its reads are accesses of the launch (R192, R193). -/
def State.readNodes (s : State) (wk : Nat) (waited : Bool) (r : RaySlot) : State × List Need × Bool :=
  match s.generation r.entry r.gen with
  | none => (s, [], false)
  | some g =>
    let dom := r.dom.toNat
    let die := dieOf (((s.waves.find? wk).bind fun w => (s.workgroups.find? w.wg).map fun g => g.core).getD 0)
    let offs := s.visited r g
    let t := { s with freeCount := s.freeCount + ((g.place + g.size + 31) / 32 - g.place / 32) }
    let needs := (offs.flatMap fun o => if s.mapPoisoned r.entry o 1 then [] else s.missing dom (refIndex r.ref) r.entry o 1).eraseDups
    let poison := offs.any fun o => s.mapPoisoned r.entry o 1 ||
      (s.residentRange r.entry o 1 && s.portPoisoned die (s.addrOf dom r.entry o))
    (if needs.isEmpty then t.noteOffsets (t.launchOf wk) dom (refIndex r.ref) offs waited else t, needs, poison)

/-- RAY_TRAVERSAL_END: a lane's traversal reaches a call-out or the end of its ray (R306, R307). A lane that needs granules
of its tree parks, and one that reads a poisoned node or whose granules cannot be had meets a late condition (R190, R457,
R483). -/
def execRayTraversalEnd (wk lane : Nat) (s : State) : Host.Outcome State Fault Refusal :=
  if !s.onCore wk then .next s
  else
    match s.waves.find? wk with
    | none => .next s
    | some w =>
      match w.pend.find? fun p => p.kind == .ray && p.mask.getLsbD lane, w.rays.find? lane with
      | some p, some r =>
        let (t, needs, poison) := s.readNodes wk (p.accs.any fun a => a.lane == lane) r
        if needs.isEmpty && !poison then .next (t.endTraversal wk lane)
        else
          let acc (g : Nat) : Acc := ⟨lane, r.dom, r.ref, r.entry, .byte (65536 * g), 1, [], []⟩
          let waits := if needs.isEmpty then [acc 0] else needs.map fun n => acc n.2.2.2
          let q := { p with accs := (p.accs.filter fun a => a.lane != lane) ++ waits }
          let t := t.modWave wk fun w => { w with pend := w.pend.map fun x => if x.id = p.id then q else x }
          if needs.isEmpty then .next (t.lateTrap wk q .uncorrectable r.ref)
          else if t.needsFail needs then .next (t.lateTrap wk q .residency r.ref)
          else
            let core := ((s.workgroups.find? w.wg).map fun g => g.core).getD 0
            .next (t.requestNeeds (dieOf core) (t.launchOf wk) needs)
      | _, _ => .next s

/-- The traversals of a wave run on after a request for pre-emption (R308): each to its next call-out or its completion
where the device reaches that within 512 node visits, else, or where it is parked, it stays as it stands, to be resumed after
restore. -/
def State.runRaysOn (s : State) (wk : Nat) : State :=
  match s.waves.find? wk with
  | none => s
  | some w =>
    ((w.pend.filter fun p => p.kind == .ray).flatMap fun p => lanesOf p.mask).foldl (fun s l =>
      match w.rays.find? l with
      | none => s
      | some r =>
        let (t, needs, poison) := s.readNodes wk false r
        if needs.isEmpty && !poison && Config.freeChoice t.freeCount % 1024 < 512 then t.bumpFree.endTraversal wk l else t.bumpFree) s

/-! ## Instructions -/

/-- The wave's pin entry for a generation of a BVH: its count (R304). -/
def Wave.rayPin (w : Wave) (ref : DWord) (gen : Word) : Nat :=
  ((w.rayPins.find? fun p => decide (p.1 = w.dom ∧ refIndex p.2.1 = refIndex ref ∧ p.2.2.1 = gen)).map fun p => p.2.2.2).getD 0

/-- Set the wave's pin entry for a generation; 0 removes it. -/
def Wave.setRayPin (w : Wave) (ref : DWord) (gen : Word) (n : Nat) : Wave :=
  let rest := w.rayPins.filter fun p => !decide (p.1 = w.dom ∧ refIndex p.2.1 = refIndex ref ∧ p.2.2.1 = gen)
  { w with rayPins := if n = 0 then rest else rest ++ [(w.dom, ref, gen, n)] }

/-- RAY.PIN (R304). -/
def execRayPin (f : GFmt) : State → Host.Outcome State Fault Refusal :=
  issue (.rayPin f) fun e s =>
    let ref := e.readRef f.hdr e.first
    match s.checkObject e.core e.dom ref needR (.only 5) 0 0 with
    | .error c => .trap c ref
    | .ok entry =>
      if !s.mapPoisoned entry 0 32 && !s.residentRange entry 0 256 then e.holdFor s (s.missing e.dom (refIndex ref) entry 0 256) ref
      else if s.objectPoison (dieOf e.core) e.dom entry 0 32 then .trap 0x09 ref
      else
        let s := s.acquireAct e.core 5
        let gen : Word := BitVec.ofNat 32 (natOfBytes (s.bytes (s.addrOf e.dom entry 0) 4))
        let held := e.wave.rayPin ref gen
        if gen = 0 ∨ held = 255 ∨ (held = 0 ∧ 4 ≤ e.wave.rayPins.length) then
          .writes s (writeTo .z32 f.dbase e.first 0) .none
        else
          let s := (s.modPins e.dom entry gen (· + 1)).modWave e.wk fun w => w.setRayPin ref gen (held + 1)
          .writes s (writeTo .z32 f.dbase e.first (gen.zeroExtend 64)) .none

/-- A lane's ray as RAY.TRACE starts it (R305). -/
def Env.raySlot (e : Env) (f : GFmt) (s : State) (ref : DWord) (entry : ObjEntry) (gen : Word) (lane : Nat) : RaySlot :=
  let ray := e.readRun f.cbase lane 8
  let prims := ((s.generation entry gen).map fun g => g.prims.length).getD 0
  { dom := e.wave.dom, ref := ref, entry := entry, gen := gen, ray := ray, opaque_ := f.ctl.getLsbD 0,
    first := f.ctl.getLsbD 1, cull := f.ctl.getLsbD 2, tcur := ray.getD 7 0, best := none, todo := List.range prims,
    cand := none, isOver := false }

/-- A ray instruction goes on its way: its lanes' slots run. -/
def Env.rayAct (e : Env) (i : Instr) (s : State) : Act :=
  .access s { e.pendingOf e.wave i .ray e.lanes [] [] .none with writes := [] }

/-- The lanes' slots are busy with an earlier ray instruction of the wave. -/
def Env.raysBusy (e : Env) : Option Nat :=
  (e.wave.pend.find? fun p => p.kind == .ray && (p.mask &&& e.lanes) != 0).map fun p => p.id

/-- RAY.TRACE (R305): each lane needs a pin on its generation (R449); a ray that its slot held is abandoned. -/
def execRayTrace (f : GFmt) : State → Host.Outcome State Fault Refusal :=
  issue (.rayTrace f) fun e s =>
    let lanes := (lanesOf e.lanes).map fun l => (l, e.readRef f.hdr l, (lowWord (e.read .z32 f.extra l) : Word))
    if lanes.any fun x => e.wave.rayPin x.2.1 x.2.2 == 0 then .trap 0x40 (illegalVal (Instr.rayTrace f).word 0x26)
    else
      let checked := lanes.map fun x => (x, s.checkObject e.core e.dom x.2.1 needR (.only 5) 0 0)
      match checked.findSome? fun x => match x.2 with
        | .error c => some (c, x.1.2.1)
        | .ok _ => none with
      | some (c, v) => .trap c v
      | none =>
        match e.raysBusy with
        | some id => .hold s (.pending id)
        | none =>
          let entries := checked.filterMap fun x => match x.2 with
            | .ok entry => some (x.1, entry)
            | .error _ => none
          let start (s : State) (x : (Nat × DWord × Word) × ObjEntry) : State :=
            let (l, ref, gen) := x.1
            let s := match ((s.waves.find? e.wk).bind fun w => w.rays.find? l) with
              | some r => s.modPins r.dom.toNat r.entry r.gen fun n => n - 1
              | none => s
            (s.modPins e.dom x.2 gen (· + 1)).modWave e.wk fun w =>
              { w with rays := SMap.insert w.rays l (e.raySlot f s ref x.2 gen l) }
          e.rayAct (.rayTrace f) (entries.foldl start s)

/-- The decision of RAY.NEXT on a slot's candidate (R307); a value that the manual does not list is one of the three. -/
def RaySlot.decide (r : RaySlot) (decision : Nat) (t : Word) : RaySlot :=
  match r.cand with
  | none => r
  | some h =>
    let tv := binary32.decode t.toNat
    let inRange := rLe (binary32.decode (r.ray.getD 3 0).toNat) tv && rLt tv (binary32.decode r.tcur.toNat)
    let r := { r with cand := none }
    if decision = 0 then r
    else
      let r := if !h.box then r.accept h else if inRange then r.accept { h with t := t } else r
      { r with isOver := r.isOver || decision == 2 || r.first }

/-- RAY.NEXT (R307): every executing lane's slot holds a call-out (R449). -/
def execRayNext (f : GFmt) : State → Host.Outcome State Fault Refusal :=
  issue (.rayNext f) fun e s =>
    let lanes := lanesOf e.lanes
    if lanes.any fun l => ((e.wave.rays.find? l).bind fun r => r.cand).isNone then
      .trap 0x40 (illegalVal (Instr.rayNext f).word 0x26)
    else
      let step (s : State) (l : Nat) : State :=
        let d := e.readZ f.extra l
        let d := if d ≤ 2 then d else Config.freeChoice s.freeCount % 3
        (s.modWave e.wk fun w =>
          { w with rays := w.rays.modify l fun r => r.decide d (w.vreg (regNo f.dbase + 2) l) }).bumpFree
      e.rayAct (.rayNext f) (lanes.foldl step s)

/-- RAY.UNPIN (R304, R449). -/
def execRayUnpin (f : GFmt) : State → Host.Outcome State Fault Refusal :=
  issue (.rayUnpin f) fun e s =>
    let ref := e.readRef f.hdr e.first
    let gen : Word := lowWord (e.read .z32 f.extra e.first)
    let held := e.wave.rayPin ref gen
    if held = 0 then .trap 0x40 (illegalVal (Instr.rayUnpin f).word 0x26)
    else .writes ((s.unpinGeneration e.dom ref gen 1).modWave e.wk fun w => w.setRayPin ref gen (held - 1)) [] .none

end Sys2Proof.Machine
end

