-- ==== Sys2Proof/Machine/Armature.lean ====
section
/-!
DEFINITION. The builder instructions (R303, R309) and the Armature engine (R301, R302, R309 to R312, R480 to R483).
-/

namespace Sys2Proof.Machine

/-! ## Issue -/

/-- Bytes of a geometry record (R302). -/
def recordBytes (boxes : Bool) : Nat := if boxes then 32 else 48

/-- The die that homes a BVH's first granule (R309). DESIGN CHOICE (log 122): as its granule word stands when the operation issues. -/
def State.bvhDie (s : State) (e : ObjEntry) : BitVec 2 :=
  BitVec.ofNat 2 (homeDie (granFrame (s.granuleWord e.extroot 0) * 65536))

/-- A builder operation that has passed its checks; it waits for a parked access of its slices (R309). -/
def Env.build (e : Env) (s : State) (i : Instr) (bvh : DWord) (be : ObjEntry) (geo : DWord) (ge : ObjEntry) (n : Nat)
    (scope : BitVec 3) : Act :=
  match e.awaits s e.frag.slices with
  | some w => .hold s w
  | none =>
    let op : BuildOp :=
      { die := s.bvhDie be, core := e.core, wave := e.wk, slices := e.who.slices, batch := e.wave.openBatch, instr := i,
        pc := e.pc, dom := e.wave.dom, bvhRef := bvh, bvhEntry := be, geoRef := geo, geoEntry := ge, count := n, scope := scope,
        started := false, waited := false, geo := [], place := 0, reserved := none, fence := 0 }
    .writes { s.fillRefs e.core e.dom (if n = 0 then [bvh] else [bvh, geo]) with builds := s.builds ++ [op] } [] .none

/-- The checks of BVH.BUILD and BVH.REFIT: W on the BVH, R over the records, then n (R303, R450). -/
def Env.buildChecked (e : Env) (s : State) (i : Instr) (f : GFmt) : Act :=
  let bvh := e.readRef f.hdr e.first
  let geo := e.readRef f.cbase e.first
  let n := e.readZ f.extra e.first
  match s.checkObject e.core e.dom bvh needW (.only 5) 0 0 with
  | .error c => .trap c bvh
  | .ok be =>
    match e.copyRange s geo needR (.only 0) (recordBytes (f.ctl.getLsbD 3) * n) with
    | .error (c, v) => .trap c v
    | .ok ge =>
      if n = 0 ∨ 2 ^ 24 < n then .trap 0x40 (illegalVal i.word 0x27)
      else e.build s i bvh be geo ge n (f.ctl.extractLsb' 0 3)

/-- The checks of BVH.BAL and BVH.PUB. -/
def Env.buildPlain (e : Env) (s : State) (i : Instr) (f : GFmt) : Act :=
  let bvh := e.readRef f.hdr e.first
  match s.checkObject e.core e.dom bvh needW (.only 5) 0 0 with
  | .error c => .trap c bvh
  | .ok be => e.build s i bvh be 0 noEntry 0 (f.ctl.extractLsb' 0 3)

/-- BVH.BUILD (R303, R310). -/
def execBvhBuild (f : GFmt) : State → Host.Outcome State Fault Refusal :=
  issue (.bvhBuild f) fun e s => e.buildChecked s (.bvhBuild f) f

/-- BVH.REFIT (R303, R310). -/
def execBvhRefit (f : GFmt) : State → Host.Outcome State Fault Refusal :=
  issue (.bvhRefit f) fun e s => e.buildChecked s (.bvhRefit f) f

/-- BVH.BAL (R303, R310). -/
def execBvhBal (f : GFmt) : State → Host.Outcome State Fault Refusal :=
  issue (.bvhBal f) fun e s => e.buildPlain s (.bvhBal f) f

/-- BVH.PUB (R303, R311). -/
def execBvhPub (f : GFmt) : State → Host.Outcome State Fault Refusal :=
  issue (.bvhPub f) fun e s => e.buildPlain s (.bvhPub f) f

/-! ## The control block (R301) -/

/-- A 32-bit field of a BVH's control block. -/
def State.ctrl (s : State) (o : BuildOp) (off : Nat) : Nat :=
  natOfBytes (s.bytes (s.addrOf o.dom.toNat o.bvhEntry off) 4)

/-- An engine's write for an operation: performed at its home, and held by the L1 of the core that issued the operation, where a
wait below cluster scope reads it (R218). -/
def State.builderWrite (s : State) (o : BuildOp) (a : Nat) (bs : List Byte) : State :=
  (s.homeWrite a bs).patchL1 o.core a bs.length

/-- Write n bytes of a control block. -/
def State.setCtrl (s : State) (o : BuildOp) (off n x : Nat) : State :=
  s.builderWrite o (s.addrOf o.dom.toNat o.bvhEntry off) (bytesOfNat n x)

/-- FREE. -/
def State.ctrlFree (s : State) (o : BuildOp) : Nat :=
  natOfBytes (s.bytes (s.addrOf o.dom.toNat o.bvhEntry 16) 8)

/-- The BVH of an operation. -/
def State.bvh (s : State) (o : BuildOp) : Bvh := (s.bvhs.find? o.bvhEntry.extroot).getD ⟨none, []⟩

/-- Change the BVH of an operation. -/
def State.setBvh (s : State) (o : BuildOp) (b : Bvh) : State := { s with bvhs := SMap.insert s.bvhs o.bvhEntry.extroot b }

/-- Reclaim every generation other than GEN whose PINS is 0 (R312). -/
def State.reclaim (s : State) (o : BuildOp) : State :=
  (List.range 8).foldl (fun s m =>
    let gen := s.ctrl o (32 + 16 * m)
    let flags := s.ctrl o (44 + 16 * m)
    if flags % 2 = 1 ∧ gen ≠ s.ctrl o 0 ∧ s.ctrl o (36 + 16 * m) = 0 then
      let b := s.bvh o
      let size := ((b.gens.find? fun g => g.1.toNat == gen).map fun g => g.2.size).getD 0
      let s := s.setBvh o { b with gens := b.gens.filter fun g => g.1.toNat != gen }
      (s.setCtrl o (44 + 16 * m) 4 (flags - 1)).setCtrl o 16 8 (s.ctrlFree o + size)
    else s) s

/-! ## The start of an operation (R309, R310) -/

/-- The tree that a REFIT or BAL starts from: the draft, else a copy of GEN (R310). -/
def State.startTree (s : State) (o : BuildOp) : Option Geometry :=
  let b := s.bvh o
  b.draft.or ((b.gens.find? fun g => g.1.toNat == s.ctrl o 0).map fun g => g.2)

/-- The bytes an operation reserves: for a BUILD at most 176n or 160n, the device's own number (R310). -/
def State.reservation (s : State) (o : BuildOp) : Nat :=
  match o.instr with
  | .bvhBuild f => Config.freeChoice s.freeCount % ((if f.ctl.getLsbD 3 then 160 else 176) * o.count + 1)
  | .bvhPub _ => 0
  | _ => ((s.startTree o).map fun g => g.size).getD 0

/-- Where the nodes of an operation's new tree begin in the node pool: the device's own, with what it reserves inside the
object (R301, R310). -/
def State.treePlace (s : State) (o : BuildOp) (need : Nat) : Nat :=
  256 + Config.freeChoice s.freeCount % (o.bvhEntry.length - 256 - need + 1)

/-- The primitive kind that an operation reads. -/
def BuildOp.boxes (o : BuildOp) : Bool :=
  match o.instr with
  | .bvhBuild f => f.ctl.getLsbD 3
  | .bvhRefit f => f.ctl.getLsbD 3
  | _ => false

/-- The tree whose nodes a REFIT or BAL reads. -/
def State.oldTree (s : State) (o : BuildOp) : Option Geometry :=
  match o.instr with
  | .bvhRefit _ => s.startTree o
  | .bvhBal _ => s.startTree o
  | _ => none

/-- Granules that n bytes of nodes need. -/
def State.nodesMissing (s : State) (o : BuildOp) (place n : Nat) : List Need :=
  if n = 0 then [] else s.missing o.dom.toNat (refIndex o.bvhRef) o.bvhEntry place n

/-- Granules an operation needs: the control block, and at its start the records it reads, later the nodes it reads and
writes. -/
def State.buildNeeds (s : State) (o : BuildOp) : List Need :=
  s.missing o.dom.toNat (refIndex o.bvhRef) o.bvhEntry 0 256 ++
    if o.started then
      s.nodesMissing o o.place (o.reserved.getD 0) ++ (((s.oldTree o).map fun g => s.nodesMissing o g.place g.size).getD [])
    else if o.count = 0 then []
    else s.missing o.dom.toNat (refIndex o.geoRef) o.geoEntry (refOffset o.geoRef) (recordBytes o.boxes * o.count)

/-- The control block, the records or the nodes of an operation cannot be found (R454). -/
def State.buildUnreadable (s : State) (o : BuildOp) : Bool :=
  s.mapPoisoned o.bvhEntry 0 256 ||
    if o.started then
      s.mapPoisoned o.bvhEntry o.place (o.reserved.getD 0) || ((s.oldTree o).map fun g => s.mapPoisoned o.bvhEntry g.place g.size).getD false
    else s.mapPoisoned o.geoEntry (refOffset o.geoRef) (recordBytes o.boxes * o.count)

/-- Note an operation's accesses for the use order and the ranges of its launch (R192, R193). -/
def State.noteBuild (s : State) (o : BuildOp) : State :=
  let s := s.noteEngine (s.launchOf o.wave) o.dom.toNat (refIndex o.bvhRef) 0 256 o.waited
  if o.count = 0 then s
  else s.noteEngine (s.launchOf o.wave) o.dom.toNat (refIndex o.geoRef) (refOffset o.geoRef) (recordBytes o.boxes * o.count) o.waited

/-- A geometry record as words; one that holds a poisoned byte is degenerate (R483). -/
def State.geoRecord (s : State) (o : BuildOp) (boxes : Bool) (i : Nat) : List Word :=
  let off := refOffset o.geoRef + recordBytes boxes * i
  let count := if boxes then 6 else 10
  if s.objectPoison (dieOf o.core) o.dom.toNat o.geoEntry off (recordBytes boxes) then List.replicate count 0x7FC00000
  else
    let bs := s.objectBytes o.core o.dom.toNat o.geoEntry off (4 * count)
    (List.range count).map fun j => BitVec.ofNat 32 (imageNat bs (4 * j) 4)

/-- Replace an operation. -/
def State.setBuild (s : State) (n : Nat) (o : BuildOp) : State := { s with builds := s.builds.set n o }

/-- ARMATURE_OP_START: an idle engine takes the oldest operation of some wave, in the order the device chooses, once
its granules are resident; it reads the geometry, after the earlier accesses of its fragment, reclaims generations and
reserves the operation's bytes (R309, R310, R312). -/
def execArmatureOpStart (die : BitVec 2) (s : State) : Host.Outcome State Fault Refusal :=
  if s.builds.any fun o => o.die == die && o.started then .next s
  else
    let heads := (List.range s.builds.length).filter fun n => match s.builds[n]? with
      | some o => o.die == die && s.onCore o.wave && !((s.builds.take n).any fun p => p.wave == o.wave && p.die == die)
      | none => false
    let k := if heads.length ≤ 1 then 0 else Config.freeChoice s.freeCount % heads.length
    let s := if heads.length ≤ 1 then s else s.bumpFree
    match heads[k]? with
    | none => .next s
    | some n =>
      match s.builds[n]? with
      | none => .next s
      | some o =>
        let needs := s.buildNeeds o
        if s.buildUnreadable o then .next (s.engineDamage o.wave o.pc)
        else if !needs.isEmpty then
          if s.needsFail needs then .next (s.engineKill o.wave o.pc 9 0x06)
          else .next ((s.setBuild n { o with waited := true }).requestNeeds die.toNat (s.launchOf o.wave) needs)
        else
          let s := ((s.drainStores (ofSlices o.wave o.slices)).noteBuild o).reclaim o
          let o := { o with started := true, geo := (List.range o.count).map (s.geoRecord o o.boxes) }
          let need := s.reservation o
          let s := s.bumpFree
          if s.ctrlFree o < need then .next (s.setBuild n { o with reserved := none })
          else
            let o := { o with reserved := some need, place := s.treePlace o need }
            .next ((s.bumpFree.setBuild n o).setCtrl o 16 8 (s.ctrlFree o - need))

/-! ## Its completion -/

/-- A tree of an operation: its size lies within the reservation; node counts, depth and cost are the device's own. -/
def State.newTree (s : State) (o : BuildOp) (boxes : Bool) (prims : List (List Word)) (refits rebals : Nat) : Geometry :=
  { boxes := boxes, prims := prims, place := o.place, size := Config.freeChoice s.freeCount % (o.reserved.getD 0 + 1), refits := refits,
    rebals := rebals, quality := (List.range 4).map fun k => Config.freeWord (s.freeCount + k) }

/-- The poisoned sectors in which nodes of a tree lie. -/
def State.treePoison (s : State) (o : BuildOp) (g : Geometry) : Nat :=
  if s.poison.isEmpty && s.lostPkgs.isEmpty then 0
  else ((List.range ((g.place + g.size + 31) / 32 - g.place / 32)).filter fun i =>
    s.poisoned (s.addrOf o.dom.toNat o.bvhEntry (32 * (g.place / 32 + i)))).length

/-- The nodes of a tree stand in the node pool; their bytes are the device's own. For each poisoned
sector of nodes of the tree it came from, a sector of them is poisoned too, which one is open (R301, R461, R483). -/
def State.writeNodes (s : State) (o : BuildOp) (g : Geometry) : State :=
  if g.size = 0 then s
  else
    let at_ (off : Nat) : Nat := s.addrOf o.dom.toNat o.bvhEntry off
    let bad := ((s.oldTree o).map fun t => s.treePoison o t).getD 0
    let t := (granulesOf g.place g.size).foldl (fun t k =>
      let lo := max g.place (65536 * k)
      let hi := min (g.place + g.size) (65536 * (k + 1))
      t.builderWrite o (at_ lo) ((List.range (hi - lo)).map fun i => Config.freeByte s.freeCount (lo + i)))
      (s.touchRange o.dom.toNat (refIndex o.bvhRef) g.place g.size)
    { (List.range bad).foldl (fun t i => t.addPoison (at_ (g.place + Config.freeChoice (s.freeCount + 1 + i) % g.size)) 1) t with
      freeCount := s.freeCount + 1 + bad }

/-- The draft becomes a tree: its nodes are written, and the bytes of the draft it replaces and what was reserved and not used
are free (R310). -/
def State.putDraft (s : State) (o : BuildOp) (g : Geometry) : State :=
  let s := s.writeNodes o g
  let b := s.bvh o
  let old := (b.draft.map fun d => d.size).getD 0
  let s := s.setBvh o { b with draft := some g }
  let s := s.setCtrl o 16 8 (s.ctrlFree o + o.reserved.getD 0 - g.size + old)
  let s := s.setCtrl o 4 4 (s.ctrl o 4 / 4 * 4 + (if g.boxes then 2 else 0) + 1)
  { s.setCtrl o 12 4 g.prims.length with freeCount := s.freeCount + 4 }

/-- Degenerate primitives of a tree (R302). -/
def Geometry.degenerates (g : Geometry) : Nat := (g.prims.filter (degenerate g.boxes)).length

/-- PUB: the draft becomes generation GEN + 1, and GEN is written as a release at its scope (R311). -/
def State.publish (s : State) (o : BuildOp) (d : Geometry) (m : Nat) : State :=
  let next := (s.ctrl o 0 + 1) % 2 ^ 32
  let gen := if next = 0 then 1 else next
  let b := s.bvh o
  let s := s.setBvh o { draft := none, gens := b.gens ++ [(BitVec.ofNat 32 gen, d)] }
  let s := s.setCtrl o (32 + 16 * m) 16
    (gen + 2 ^ 64 * d.prims.length + 2 ^ 96 * (1 + (if d.boxes then 2 else 0)))
  let counters := (d.quality.map fun w => w.toNat) ++ [d.degenerates, d.refits, d.rebals]
  let s := (List.range 7).foldl (fun s k => s.setCtrl o (160 + 4 * k) 4 (counters.getD k 0)) s
  let s := s.setCtrl o 4 4 (s.ctrl o 4 / 2 * 2)
  (s.releaseAct o.core o.scope).setCtrl o 0 4 gen

/-- The effect of a started operation and its STATUS (R310, R311). DESIGN CHOICE: a BVH.PUB without a draft is given status 4
though a GEN exists (log 120), and a REFIT that differs from its start status 2 before 1 (log 121). -/
def State.runBuild (s : State) (o : BuildOp) : State × Nat :=
  let give (s : State) : State := s.setCtrl o 16 8 (s.ctrlFree o + o.reserved.getD 0)
  match o.instr with
  | .bvhBuild f =>
    if o.reserved.isNone then (s, 1)
    else (s.putDraft o (s.newTree o (f.ctl.getLsbD 3) o.geo 0 0), 0)
  | .bvhRefit f =>
    (match s.startTree o with
    | none => (give s, 4)
    | some g =>
      if g.prims.length ≠ o.count ∨ g.boxes ≠ f.ctl.getLsbD 3 then (give s, 2)
      else if o.reserved.isNone then (s, 1)
      else
        let t := s.newTree o g.boxes o.geo (g.refits + 1) g.rebals
        (s.putDraft o { t with quality := g.quality.take 3 ++ t.quality.drop 3 }, 0))
  | .bvhBal _ =>
    (match s.startTree o with
    | none => (give s, 4)
    | some g => if o.reserved.isNone then (s, 1) else (s.putDraft o (s.newTree o g.boxes g.prims g.refits (g.rebals + 1)), 0))
  | _ =>
    (match (s.bvh o).draft with
    | none => (s, 4)
    | some d =>
      match (List.range 8).find? fun m => s.ctrl o (44 + 16 * m) % 2 == 0 with
      | none => (s, 3)
      | some m => (s.publish o d m, 0))

/-- ARMATURE_OP_COMPLETE: the engine's operation takes effect, its STATUS is written, its results are visible at its scope
and its batch may complete (R309 to R311). -/
def execArmatureOpComplete (die : BitVec 2) (s : State) : Host.Outcome State Fault Refusal :=
  match s.builds.findIdx? fun o => o.die == die && o.started with
  | none => .next s
  | some n =>
    match s.builds[n]? with
    | none => .next s
    | some o =>
      let needs := s.buildNeeds o
      if !s.onCore o.wave then .next s
      else if s.buildUnreadable o then .next (s.engineDamage o.wave o.pc)
      else if !needs.isEmpty then
        if s.needsFail needs then .next (s.engineKill o.wave o.pc 9 0x06)
        else .next (s.requestNeeds die.toNat (s.launchOf o.wave) needs)
      else
        let (t, status) := s.runBuild o
        let t := (t.setCtrl o 8 4 (t.ctrl o 8 / 256 * 256 + status)).releaseAct o.core o.scope
        .next ({ t with builds := t.builds.eraseIdx n }.updateBatches o.wave)

end Sys2Proof.Machine
end

