-- ==== Sys2Proof/Machine/Atomic.lean ====
section
/-!
DEFINITION. Class 0x6: atomics and tile updates (R210 to R214).
-/

namespace Sys2Proof.Machine

/-- Operand bytes of an atomic by its SIZE code (R210). -/
def atomBytes (size : BitVec 3) : Nat :=
  match size.toNat with
  | 3 | 7 => 8
  | 5 => 32
  | _ => 4

/-- The type under which an atomic reads its operand (R210). -/
def atomTy (size : BitVec 3) (float : Bool) : Ty :=
  match size.toNat with
  | 3 => .z64
  | 6 => .s32
  | 7 => .s64
  | _ => if float then .f32 else .z32

/-- The bytes an atomic's operand supplies in a lane. -/
def Env.atomData (e : Env) (f : MFmt) (float : Bool) (o : Operand) (lane : Nat) : List Byte :=
  if atomBytes f.size = 32 then e.data o lane 32
  else bytesOfNat (atomBytes f.size) (e.read (atomTy f.size float) o lane).toNat

/-- An update of class 0x6: its lanes' checks, with the A right and, where it returns, the R right (R179, R210); then
the update or its commit (R374). -/
def atomOp (i : Instr) (f : MFmt) (float returns : Bool) (x cmp : Operand) (e : Env) (s : State) : Act :=
  let acc (l : Nat) := e.byteAcc s f 0 (if returns then needRA else needA) .store (atomBytes f.size) l
    (e.atomData f float x l) (e.atomData f float cmp l)
  match checkAll ((lanesOf e.lanes).map acc) with
  | .error (c, v) => .trap c v
  | .ok accs => e.commit i returns s accs

/-- The two forms without and with a result (R210). -/
def atomForm (i : Instr) (f : MFmt) (float : Bool) : Env → State → Act :=
  if f.immOp = .none then atomOp i f float false f.data .none else atomOp i f float true f.immOp .none

/-- AADD (R211). -/
def execAadd (f : MFmt) : State → Host.Outcome State Fault Refusal := issue (.aadd f) (atomForm (.aadd f) f false)

/-- AFADD (R212). -/
def execAfadd (f : MFmt) : State → Host.Outcome State Fault Refusal := issue (.afadd f) (atomForm (.afadd f) f true)

/-- AMIN (R211). -/
def execAmin (f : MFmt) : State → Host.Outcome State Fault Refusal := issue (.amin f) (atomForm (.amin f) f false)

/-- AMAX (R211). -/
def execAmax (f : MFmt) : State → Host.Outcome State Fault Refusal := issue (.amax f) (atomForm (.amax f) f false)

/-- AAND (R211). -/
def execAand (f : MFmt) : State → Host.Outcome State Fault Refusal := issue (.aand f) (atomForm (.aand f) f false)

/-- AOR (R211). -/
def execAor (f : MFmt) : State → Host.Outcome State Fault Refusal := issue (.aor f) (atomForm (.aor f) f false)

/-- AXOR (R211). -/
def execAxor (f : MFmt) : State → Host.Outcome State Fault Refusal := issue (.axor f) (atomForm (.axor f) f false)

/-- AXCHG (R211). -/
def execAxchg (f : MFmt) : State → Host.Outcome State Fault Refusal := issue (.axchg f) (atomForm (.axchg f) f false)

/-- ACAS: DATA holds the new value on entry and receives the old one; the compare value is the second operand
(R210, R211). -/
def execAcas (f : MFmt) : State → Host.Outcome State Fault Refusal :=
  issue (.acas f) (atomOp (.acas f) f false true f.data f.immOp)

/-- ATILE (R213). -/
def execAtile (f : MFmt) : State → Host.Outcome State Fault Refusal :=
  issue (.atile f) (atomOp (.atile f) f true false f.data .none)

end Sys2Proof.Machine
end

