-- ==== Sys2Proof/Machine/Matrix.lean ====
section
/-!
DEFINITION. Class 0x8: issue of matrix operations, the claim of the accumulators (R53), crossbar steps (R251, R252),
BLOAD and the drains (R256, R258, R259), lending (R260), and the completion of operations (R250, R473, R474).
-/

namespace Sys2Proof.Machine

/-! ## Claim and queue -/

/-- Quadrant q of core c as a key (R53, R242). -/
def Env.quad (e : Env) : Nat := 4 * e.core + e.wave.no % 4

/-- The wave that holds the quadrant's accumulator claim, if one does. -/
def State.claimant (s : State) (e : Env) : Option Nat := s.claims.find? e.quad

/-- Claim the quadrant's tiles for the wave, or hold while another wave has them (R53). -/
def Env.withClaim (e : Env) (s : State) (go : State → Act) : Act :=
  match s.claimant e with
  | some wk => if wk = e.wk then go s else .hold s .again
  | none =>
    go { s.modWave e.wk (fun w => { w with claim := true }) with claims := s.claims.insert e.quad e.wk }

/-- The quadrant key of an operation, none for one on the sampler array. -/
def State.opQuad (s : State) (o : MatOp) : Option Nat :=
  if o.sampler then none else (s.waves.find? o.wave).map fun w => 4 * o.core + w.no % 4

/-- Entries in use in a quadrant's matrix queue (R241). -/
def State.queueUsed (s : State) (quad : Nat) : Nat := (s.matOps.filter fun o => s.opQuad o == some quad).length

/-- Entries in use in a core's queue of MMA.SA operations (R261). -/
def State.samplerUsed (s : State) (core : Nat) : Nat :=
  (s.matOps.filter fun o => o.sampler && decide (o.core = core)).length

/-- An operation with what it captures at issue (R249). -/
def Env.matOp (e : Env) (i : Instr) : MatOp :=
  { wave := e.wk, core := e.core, batch := e.wave.openBatch, instr := i, pc := e.pc, dom := e.wave.dom, lanes := e.lanes,
    vregs := e.wave.v, sregs := [], shared := none, ref := 0, entry := noEntry, coords := [], sampler := false, waited := false }

/-- Put an operation into its queue, or hold while all 8 entries are taken (R241, R261). -/
def Env.enqueue (e : Env) (s : State) (o : MatOp) : Act :=
  let used := if o.sampler then s.samplerUsed e.core else s.queueUsed e.quad
  if 8 ≤ used then .hold s .again else .writes { s with matOps := s.matOps ++ [o] } [] .none

/-- A tile operation: claim, then queue. -/
def tileOp (i : Instr) (change : Env → MatOp → MatOp) (e : Env) (s : State) : Act :=
  e.withClaim s fun s => e.enqueue s (change e (e.matOp i))

/-! ## Shared-B mode (R251, R252) -/

/-- The wave keys of the wave's B group (R242). -/
def Env.groupKeys (e : Env) : List Nat := (List.range 4).map fun q => e.wk - e.wave.no % 4 + q

/-- A wave's entry in the shared steps. -/
def State.stepOf (s : State) (wk : Nat) : Option SharedB := s.sharedB.find? fun x => x.wave == wk

/-- Take a wave's entry out of the shared steps. -/
def State.dropStep (s : State) (wk : Nat) : State := { s with sharedB := s.sharedB.filter fun x => x.wave != wk }

/-- Mark the entries of waves. -/
def State.markSteps (s : State) (wks : List Nat) (st : StepStatus) : State :=
  { s with sharedB := s.sharedB.map fun x => if wks.contains x.wave then { x with status := st } else x }

/-- ITYPE and SHAPE of an MMA. -/
def stepShape : Instr → Ty × BitVec 5
  | .mma f => (f.ity, f.shape)
  | _ => (.s32, 0)

/-- The shared B of a step: column j is lane j of the B registers of wave j / 8 of the group (R251). -/
def sharedColumns (ops : List MatOp) : SMap Word :=
  (List.range 128).foldl (fun m r => (List.range 32).foldl (fun m j =>
    match ops[j / 8]? with
    | some o =>
      match o.instr with
      | .mma f =>
        if r < rowRegs f.ity f.shape.toNat then SMap.set 0 m (96 * r + j) (SMap.get 0 o.vregs (96 * (regNo f.bbase + r) + j)) else m
      | _ => m
    | none => m) m) []

/-- Start a step: each wave's MMA enters its quadrant's queue with the shared B. -/
def State.startStep (s : State) (keys : List Nat) : State :=
  let ops := keys.filterMap fun k => (s.stepOf k).map fun x => x.op
  let b := sharedColumns ops
  { s.markSteps keys .started with matOps := s.matOps ++ ops.map fun o => { o with shared := some b } }

/-- A `.shb` MMA (R251): it waits until the four waves of its group have issued the step; then its operation is queued
and it issues. A mismatch, or a wave of the group that has ended, is cause 0x10 with the step number (R252). -/
def sharedMma (f : XFmt) (e : Env) (s : State) : Act :=
  let step := e.wave.sharedStep
  let tval : DWord := BitVec.ofNat 64 (2 ^ 63 + step % 2 ^ 32)
  match s.stepOf e.wk with
  | some ⟨_, _, _, .started⟩ =>
    .writes ((s.dropStep e.wk).modWave e.wk fun w => { w with sharedStep := step + 1 }) [] .none
  | some ⟨_, _, _, .failed⟩ => .trapIn (s.dropStep e.wk) 0x10 tval
  | _ =>
    e.withClaim s fun s =>
      let t := { s.dropStep e.wk with sharedB := (s.dropStep e.wk).sharedB ++ [⟨e.wk, step, e.matOp (.mma f), .waiting⟩] }
      if e.groupKeys.any fun k => (s.waves.find? k).isNone then .trapIn (s.dropStep e.wk) 0x10 tval
      else
        let here := e.groupKeys.filterMap fun k => (t.stepOf k).bind fun x => if x.step = step then some x else none
        if here.length < 4 then .hold t .sharedB
        else if here.any fun x => stepShape x.op.instr != (f.ity, f.shape) then
          .trapIn ((t.markSteps e.groupKeys .failed).dropStep e.wk) 0x10 tval
        else if here.any fun x => 8 ≤ t.queueUsed (4 * x.op.core + x.wave % 4) then .hold t .again
        else
          let t := t.startStep e.groupKeys
          .writes ((t.dropStep e.wk).modWave e.wk fun w => { w with sharedStep := step + 1 }) [] .none

/-! ## Issue of tile operations -/

/-- MMA (R247), shared or not. -/
def execMma (f : XFmt) : State → Host.Outcome State Fault Refusal :=
  issue (.mma f) fun e s => if f.mode.getLsbD 0 then sharedMma f e s else tileOp (.mma f) (fun _ o => o) e s

/-- MMA.GRP (R253). -/
def execMmaGrp (f : XFmt) : State → Host.Outcome State Fault Refusal :=
  issue (.mmaGrp f) (tileOp (.mmaGrp f) fun e o => { o with sregs := [lowWord (e.read .z32 f.sop e.first)] })

/-- MMA.LUT (R255). -/
def execMmaLut (f : XFmt) : State → Host.Outcome State Fault Refusal := issue (.mmaLut f) (tileOp (.mmaLut f) fun _ o => o)

/-- MMA.SA: on the sampler dot array (R261). -/
def execMmaSa (f : XFmt) : State → Host.Outcome State Fault Refusal :=
  issue (.mmaSa f) (tileOp (.mmaSa f) fun _ o => { o with sampler := true })

/-- LUTB (R254). -/
def execLutb (f : XFmt) : State → Host.Outcome State Fault Refusal := issue (.lutb f) (tileOp (.lutb f) fun _ o => o)

/-- ACLR (R257). -/
def execAclr (f : XFmt) : State → Host.Outcome State Fault Refusal := issue (.aclr f) (tileOp (.aclr f) fun _ o => o)

/-- ASCALE (R257). -/
def execAscale (f : XFmt) : State → Host.Outcome State Fault Refusal := issue (.ascale f) (tileOp (.ascale f) fun _ o => o)

/-! ## BLOAD (R256) -/

/-- BLOAD: R178 on the starting coordinates, then the fit of ETYPE, layout tag and c0 (cause 0x07); it reads after
every earlier access of the wave. -/
def execBload (f : XFmt) : State → Host.Outcome State Fault Refusal :=
  issue (.bload f) fun e s =>
    let ref := e.readRef f.abase e.first
    let cs := e.coords f.sop e.first
    match s.checkObject e.core e.dom ref needR .tensor 0 0 with
    | .error c => .trap c ref
    | .ok entry =>
      let t := s.tensor entry
      if !t.inside cs then .trap 0x05 ref
      else if t.etype ≠ etypeOf f.ity ∨ (f.ity = .mxf4 ∧ t.layout ≠ 5) ∨ (t.layout = 5 ∧ cs.getD 0 0 % 32 ≠ 0) then
        .trap 0x07 ref
      else
        match e.awaits s (BitVec.allOnes 24) with
        | some w => .hold s w
        | none =>
          e.enqueue (s.cacheEntry e.core e.dom (refIndex ref))
            { e.matOp (.bload f) with ref := ref, entry := entry, coords := cs }

/-- Coordinates of the element of position (k, j) (R256). -/
def bloadCoords (t : Tensor) (cs : List Nat) (k j : Nat) : List Nat :=
  if t.layout = 5 then [cs.getD 0 0 + k, cs.getD 1 0 + j, cs.getD 2 0, cs.getD 3 0]
  else [cs.getD 0 0 + j, cs.getD 1 0 + k, cs.getD 2 0, cs.getD 3 0]

/-- Coordinates within the extents. -/
def Tensor.holds (t : Tensor) (c : List Nat) : Bool := (List.range 4).all fun d => decide (c.getD d 0 < t.dim d)

/-- An element of a BLOAD: its code, none while it must be waited for, and whether its sector is poisoned. -/
def State.bloadElem (s : State) (o : MatOp) (t : Tensor) (k j : Nat) : Option (Nat × Bool) :=
  let c := bloadCoords t o.coords k j
  if !t.holds c then some (0, false)
  else
    match s.elemAddr o.dom.toNat o.entry (c.getD 0 0) (c.getD 1 0) (c.getD 2 0) (c.getD 3 0) with
    | none => none
    | some (a, nib) =>
      let n := (etypeNibbles t.etype + 1) / 2
      let x := natOfBytes ((List.range n).map fun i => s.portByte (dieOf o.core) (a + i))
      some (if etypeNibbles t.etype = 1 then x / 16 ^ nib % 16 else x, (List.range n).any fun i => s.portPoisoned (dieOf o.core) (a + i))

/-- The block scale of a BLOAD's group g in column j; 0x7F beyond an extent (R256). -/
def State.bloadScale (s : State) (o : MatOp) (t : Tensor) (g j : Nat) : Option (Nat × Bool) :=
  let c := bloadCoords t o.coords (32 * g) j
  if !t.holds c then some (0x7F, false)
  else
    match s.residentAddr o.dom.toNat o.entry (t.scaleByte (c.getD 0 0) (c.getD 1 0) (c.getD 2 0) (c.getD 3 0)) 1 with
    | none => none
    | some a => some ((s.portByte (dieOf o.core) a).toNat, s.portPoisoned (dieOf o.core) a)

/-- All values of a list, or none. -/
def allSome {α : Type} (xs : List (Option α)) : Option (List α) :=
  xs.foldr (fun x acc => match x, acc with
    | some a, some l => some (a :: l)
    | _, _ => none) (some [])

/-- The columns that a BLOAD writes (R256). -/
def bloadColumns (f : XFmt) : List Nat := (List.range 32).filter fun j => f.mode.getLsbD (j / 8)

/-- The registers of one column, from its element codes and scales (R245); the bytes of the last scale register that
hold no scale are open, `open_`. -/
def columnWords (t : Ty) (s : Nat) (codes scales : List Nat) (open_ : Word) : List Word :=
  let per := 32 / t.width
  let data := (List.range (32 * (s + 1) / per)).map fun r =>
    BitVec.ofNat 32 ((List.range per).foldl (fun acc i => acc + codes.getD (per * r + i) 0 * 2 ^ (t.width * i)) 0)
  if t = .mxf4 then
    data ++ (List.range ((s + 4) / 4)).map fun r =>
      BitVec.ofNat 32 ((List.range 4).foldl (fun acc i =>
        acc + (if 4 * r + i < s + 1 then scales.getD (4 * r + i) 0 else fieldOf open_ (8 * i) 8) * 2 ^ (8 * i)) 0)
  else data

/-- The granules that a BLOAD still needs. -/
def State.bloadNeeds (s : State) (o : MatOp) (f : XFmt) : List Need :=
  let t := s.tensor o.entry
  let cs := (bloadColumns f).flatMap fun j => (List.range (32 * (f.shape.toNat + 1))).filterMap fun k =>
    let c := bloadCoords t o.coords k j
    if t.holds c then some c else none
  let scales := if t.layout = 5 then cs.flatMap fun c =>
      s.missing o.dom.toNat (refIndex o.ref) o.entry
        (t.scaleByte (c.getD 0 0) (c.getD 1 0) (c.getD 2 0) (c.getD 3 0)) 1
    else []
  (s.elemMissing o.dom.toNat (refIndex o.ref) o.entry cs ++ scales).eraseDups

/-- The byte offsets of the elements and block scales that a BLOAD reads. -/
def State.bloadOffsets (s : State) (o : MatOp) (f : XFmt) : List Nat :=
  let t := s.tensor o.entry
  (bloadColumns f).flatMap fun j => (List.range (32 * (f.shape.toNat + 1))).flatMap fun k =>
    let c := bloadCoords t o.coords k j
    if t.holds c then
      let at_ (p : Nat → Nat → Nat → Nat → Nat) : Nat := p (c.getD 0 0) (c.getD 1 0) (c.getD 2 0) (c.getD 3 0)
      (at_ (t.nibble t.layout) / 2) :: (if t.layout = 5 then [at_ t.scaleByte] else [])
    else []

/-- What an attempt to complete an operation gives. -/
inductive OpOut where
  | done (s : State)
  | wait (needs : List Need)
  | lost (s : State)

/-- Complete a BLOAD (R256): poison is damage to the workgroup's state (R462). -/
def State.bloadRun (s : State) (o : MatOp) (f : XFmt) : OpOut :=
  let s := s.drainStores (ofSlices o.wave (BitVec.allOnes 24))
  let t := s.tensor o.entry
  let k := 32 * (f.shape.toNat + 1)
  let column (j : Nat) : Option (List (Nat × Bool) × List (Nat × Bool)) :=
    match allSome ((List.range k).map fun k => s.bloadElem o t k j),
        allSome ((List.range (f.shape.toNat + 1)).map fun g => if f.ity = .mxf4 then s.bloadScale o t g j else some (0, false)) with
    | some a, some b => some (a, b)
    | _, _ => none
  if s.objectUnreadable o.entry (s.bloadOffsets o f) then .lost (s.engineDamage o.wave o.pc)
  else
    match allSome ((bloadColumns f).map column) with
    | none => .wait (s.bloadNeeds o f)
    | some cols =>
      if cols.any fun c => (c.1 ++ c.2).any fun x => x.2 then .lost (s.engineDamage o.wave o.pc)
      else
        let ws := ((bloadColumns f).zip cols).flatMap fun jc =>
          writeRun f.bbase jc.1 (columnWords f.ity f.shape.toNat (jc.2.1.map fun x => x.1) (jc.2.2.map fun x => x.1)
            (Config.freeWord (s.freeCount + jc.1)))
        let s := s.noteOffsets (s.launchOf o.wave) o.dom.toNat (refIndex o.ref) (s.bloadOffsets o f) o.waited
        .done { s.modWave o.wave (fun w => (w.markBlocks ws).applyAll ws) with freeCount := s.freeCount + 32 }

/-! ## Drains (R258, R259) -/

/-- The first failing position of a drain to bytes, with its cause: the alignment of OFFSET and pitch, then bounds. -/
def drainFault (off p z align length : Nat) : Option (Nat × Nat) :=
  if off % align ≠ 0 then some (0x04, off)
  else if p % align ≠ 0 then some (0x04, off + p)
  else
    ((List.range 2048).find? fun n => decide (length < off + n / 32 * p + (n % 32 + 1) * z)).map fun n =>
      (0x05, off + n / 32 * p + n % 32 * z)

/-- The checks of a drain: the operation with its destination, or the cause (R258, R453). -/
def Env.drainChecks (e : Env) (s : State) (i : Instr) (f : XFmt) (need : BitVec 4) (align : Nat) :
    Except (Nat × DWord) MatOp :=
  let ref := e.readRef f.abase e.first
  let o := e.matOp i
  match s.checkObject e.core e.dom ref need .store 0 0 with
  | .error c => .error (c, ref)
  | .ok entry =>
    if entry.kind = 1 then
      match f.sop with
      | .s n =>
        let cs := e.coords f.sop e.first
        let t := s.tensor entry
        if n.toNat % 4 ≠ 0 ∨ e.launch.sregs < n.toNat + 4 then .error (0x07, ref)
        else if !t.inside cs then .error (0x05, ref)
        else if t.etype ≠ etypeOf f.ity ∨ t.layout = 5 then .error (0x07, ref)
        else .ok { o with ref := ref, entry := entry, coords := cs }
      | _ => .error (0x07, ref)
    else
      let p := e.readZ f.sop e.first
      match drainFault (refOffset ref) p (drainSize f.ity) align entry.length with
      | some (c, off) => .error (c, withOffset ref (off % 2 ^ 42))
      | none => .ok { o with ref := ref, entry := entry, sregs := [BitVec.ofNat 32 p] }

/-- The elements that a drain writes, in ascending (i, j) order, as accesses that carry their bytes. -/
def State.drainAccs (s : State) (o : MatOp) (f : XFmt) (w : Wave) : List Acc :=
  let z := drainSize f.ity
  let t := s.tensor o.entry
  (List.range 2048).filterMap fun n =>
    let i := n / 32
    let j := n % 32
    let data := drainBytes f.ity (w.tile f.tile.toNat i j)
    if o.entry.kind = 1 then
      let c := [o.coords.getD 0 0 + j, o.coords.getD 1 0 + i, o.coords.getD 2 0, o.coords.getD 3 0]
      if t.holds c then
        some ⟨0, o.dom, o.ref, o.entry, .elem (c.getD 0 0) (c.getD 1 0) (c.getD 2 0) (c.getD 3 0), z, data, []⟩
      else none
    else
      some ⟨0, o.dom, o.ref, o.entry, .byte (refOffset o.ref + i * (o.sregs.getD 0 0).toNat + j * z), z, data, []⟩

/-- The granules that accesses still need. -/
def State.accNeeds (s : State) (accs : List Acc) : List Need :=
  (accs.flatMap fun a => match a.tgt with
    | .byte off => s.missing a.dom.toNat (refIndex a.ref) a.entry off a.size
    | .elem c0 c1 c2 c3 => s.elemMissing a.dom.toNat (refIndex a.ref) a.entry [[c0, c1, c2, c3]]
    | .scratch _ _ => []).eraseDups

/-- Complete a drain: every write at once where its granules are resident, performed at its scope, bits 6 to 4 of the word (R250,
R258, R259). -/
def State.drainRun (s : State) (o : MatOp) (f : XFmt) (add : Bool) : OpOut :=
  match s.waves.find? o.wave with
  | none => .lost s
  | some w =>
    let s := s.drainStores (ofSlices o.wave (BitVec.allOnes 24))
    let accs := s.drainAccs o f w
    if accs.any s.unreadable then .lost (s.engineDamage o.wave o.pc)
    else
      match allSome (accs.map s.accPlace) with
      | none => .wait (s.accNeeds accs)
      | some ps =>
        if s.noTranslation o.dom.toNat true (ps.map fun p => p.1) then .lost (s.engineKill o.wave o.pc 9 0x08)
        else
          let s := s.noteOffsets (s.launchOf o.wave) o.dom.toNat (refIndex o.ref) (accs.map fun a => (s.accRange a).1) o.waited
          let s := if add then (runWhole ⟨o.wave, o.core, (s.launchOf o.wave).getD 0, 0, true⟩ o.instr s accs).s
            else s.engineWrite o.core ((ps.zip accs).flatMap fun x =>
              (List.range x.2.size).map fun i => (x.1.1 + i, x.2.data.getD i 0)) []
          .done (s.releaseAct o.core (f.mode.extractLsb' 0 3))

/-- DRAIN (R258). -/
def execDrain (f : XFmt) : State → Host.Outcome State Fault Refusal :=
  issue (.drain f) fun e s =>
    match e.drainChecks s (.drain f) f needW (drainSize f.ity) with
    | .error (c, v) => .trap c v
    | .ok o =>
      match e.awaits s e.frag.slices with
      | some w => .hold s w
      | none => e.withClaim s fun s => e.enqueue (s.cacheEntry e.core e.dom (refIndex o.ref)) o

/-- An earlier operation of the wave on a tile is incomplete. -/
def State.tileBusy (s : State) (wk t : Nat) : Bool := s.matOps.any fun o => decide (o.wave = wk) && (opTiles o.instr).contains t

/-- DRAIN.ADD (R258, R259). In deterministic mode without the token it is logged once its tile is ready, or holds
(R374); it holds while all 8 entries of the queue are taken (R241). -/
def execDrainAdd (f : XFmt) : State → Host.Outcome State Fault Refusal :=
  issue (.drainAdd f) fun e s =>
    match e.drainChecks s (.drainAdd f) f needA 32 with
    | .error (c, v) => .trap c v
    | .ok o =>
      match e.awaits s e.frag.slices with
      | some w => .hold s w
      | none =>
        e.withClaim s fun s =>
          let s := s.applyLog e.wave.wg
          let held := match s.workgroups.find? e.wave.wg with
            | some wg => decide (e.launch.token = e.launch.keyOf wg) && wg.log.isEmpty
            | none => false
          if !e.launch.det || held then e.enqueue (s.cacheEntry e.core e.dom (refIndex o.ref)) o
          else if s.tileBusy e.wk f.tile.toNat || decide (8 ≤ s.queueUsed e.quad) then .hold s .again
          else
            match s.waves.find? e.wk with
            | none => .hold s .token
            | some w => e.commit (.drainAdd f) false s (s.drainAccs o f w)

/-! ## Tile moves, lending, status -/

/-- The column and register pairs of AMOVR and AMOVW (R257). -/
def moveColumns (f : XFmt) : List (Nat × Nat) :=
  if f.shape = 4 then (List.range 32).map fun m => (m, m)
  else (List.range 8).map fun m => (8 * f.shape.toNat + m, m)

/-- AMOVR: after every earlier operation on the tile (R249, R257). -/
def execAmovr (f : XFmt) : State → Host.Outcome State Fault Refusal :=
  issue (.amovr f) fun e s =>
    e.withClaim s fun s =>
      if s.tileBusy e.wk f.tile.toNat then .hold s .again
      else
        let ls := (lanesOf e.lanes).filter fun l => decide (l < 64)
        .writes s (ls.flatMap fun l => writeRun f.abase l
          ((moveColumns f).map fun c => e.wave.tile f.tile.toNat l c.1)) .none

/-- AMOVW: it writes after every earlier operation on the tile and before any later one, and holds while all 8 entries
of the queue are taken (R241, R249, R257). -/
def execAmovw (f : XFmt) : State → Host.Outcome State Fault Refusal :=
  issue (.amovw f) fun e s =>
    e.withClaim s fun s =>
      if s.tileBusy e.wk f.tile.toNat || decide (8 ≤ s.queueUsed e.quad) then .hold s .again
      else
        let ls := (lanesOf e.lanes).filter fun l => decide (l < 64)
        let put (w : Wave) (l : Nat) : Wave := (moveColumns f).foldl (fun w c =>
          w.setTile f.tile.toNat l c.1 (e.wave.vreg (regNo f.abase + c.2) l)) w
        .writes (s.modWave e.wk fun w => ls.foldl put w) [] .none

/-- LEND; at a wave count of 15 nothing changes (R260, R449). -/
def execLend (f : XFmt) : State → Host.Outcome State Fault Refusal :=
  issue (.lend f) fun e s =>
    if e.wave.lend = 15 then .writes s [] .none
    else
      .writes { s.modWave e.wk (fun w => { w with lend := w.lend + 1 }) with
        lends := SMap.set 0 s.lends e.core (SMap.get 0 s.lends e.core + 1) } [] .none

/-- RECALL (R260). -/
def execRecall (f : XFmt) : State → Host.Outcome State Fault Refusal :=
  issue (.recall f) fun e s =>
    .writes { s.modWave e.wk (fun w => { w with lend := w.lend - 1 }) with
      lends := SMap.set 0 s.lends e.core (SMap.get 0 s.lends e.core - 1) } [] .none

/-- Bit t: an operation on tile t of the quadrant is incomplete (R262). -/
def State.busyTiles (s : State) (e : Env) : Nat :=
  (List.range 8).foldl (fun acc t =>
    if s.matOps.any fun o => decide (o.core = e.core) && (opTiles o.instr).contains t &&
        (match s.waves.find? o.wave with
         | some w => w.no % 4 == e.wave.no % 4
         | none => false) then acc + 2 ^ t else acc) 0

/-- ASTAT (R262). -/
def execAstat (f : XFmt) : State → Host.Outcome State Fault Refusal :=
  issue (.astat f) fun e s =>
    let x := match f.shape.toNat with
      | 0 => s.busyTiles e
      | 1 => s.queueUsed e.quad
      | 2 => e.wave.lend.toNat
      | 3 => SMap.get 0 s.lends e.core
      | _ => if e.wave.claim then 1 else 0
    .writes s (writeTo .z32 f.abase e.first (BitVec.ofNat 64 x)) .none

/-! ## Completion (R250, R473 to R475) -/

/-- Checked units: an error is detected and the operation repeated (R473). -/
def checkedOp : Instr → Bool
  | .mma _ | .mmaGrp _ | .mmaLut _ | .mmaSa _ | .lutb _ | .ascale _ => true
  | _ => false

/-- Add to a saturating 48-bit counter register. -/
def State.addCount (s : State) (off n : Nat) : State :=
  s.setReg off (BitVec.ofNat 64 (min (2 ^ 48 - 1) ((s.reg off).toNat + n)))

/-- Count what the checks of a die's arithmetic unit found: its repeats, and a fourth detection after three (R474, R475). -/
def State.countOutcome (s : State) (die : Nat) (outcome : EngineOutcome) : State :=
  let retry := 0x0B40 + 16 * die
  match outcome with
  | .done r => if r = 0 then s else s.addCount retry r.toNat
  | .failed => (s.addCount retry 3).addCount (retry + 8) 1

/-- Operation n waits for an earlier operation of its wave on one of its tiles (R249). -/
def State.opOrdered (s : State) (n : Nat) (o : MatOp) : Bool :=
  (s.matOps.take n).any fun p => decide (p.wave = o.wave) && (opTiles p.instr).any fun t => (opTiles o.instr).contains t

/-- Carry out operation n, which has passed its checks. -/
def State.finishOp (s : State) (n : Nat) (o : MatOp) : State :=
  let out : OpOut := match o.instr with
    | .bload f => s.bloadRun o f
    | .drain f => s.drainRun o f false
    | .drainAdd f => s.drainRun o f true
    | _ => .done (s.modWave o.wave o.run)
  match out with
  | .done t => { t with matOps := t.matOps.eraseIdx n }.updateBatches o.wave
  | .lost t => t
  | .wait needs =>
    if s.needsFail needs then s.engineKill o.wave o.pc 9 0x06
    else
      State.requestNeeds { s with matOps := s.matOps.set n { o with waited := true } } (dieOf o.core) (s.launchOf o.wave) needs

/-- MATRIX_OP_COMPLETE: an operation whose turn on its tile has come completes after its repeats, which are counted; a
fourth detection is damage to the workgroup's state (R249, R250, R474, R475). -/
def execMatrixOpComplete (n : Nat) (outcome : EngineOutcome) (s : State) : Host.Outcome State Fault Refusal :=
  match s.matOps[n]? with
  | none => .next s
  | some o =>
    if !s.onCore o.wave || s.opOrdered n o then .next s
    else
      match outcome, checkedOp o.instr with
      | .failed, true => .next ((s.countOutcome (dieOf o.core) outcome).engineDamage o.wave o.pc)
      | .done _, true => .next ((s.countOutcome (dieOf o.core) outcome).finishOp n o)
      | _, false => .next (s.finishOp n o)

end Sys2Proof.Machine
end

