-- ==== Sys2Proof/Machine/Barrier.lean ====
section
/-!
DEFINITION. Barriers: words, arrivals, waits (R315 to R323), and what the end of a wave does to them (R320).
-/

namespace Sys2Proof.Machine

/-! ## Barrier words (R316, R321) -/

/-- The workgroup that holds a wave's barriers: its own, or CRANK 0's for a cluster barrier (R315). -/
def State.barHolder (s : State) (g : Nat) (cl : Bool) : Nat :=
  if cl then
    match s.workgroups.find? g with
    | some wg => ((s.peer wg 0).map fun x => x.1).getD g
    | none => g
  else g

/-- A barrier word; of a holder that is swapped out, the word of its save image (R321, R369). -/
def State.barWord (s : State) (holder : Nat) (cl : Bool) (b : Nat) : DWord :=
  match s.workgroups.find? holder with
  | none => 0
  | some wg =>
    match wg.phase with
    | .saved base => s.word64 (base + (if cl then 0x300 else 0x100) + 8 * b)
    | _ => SMap.get 0 (if cl then wg.clBars else wg.bars) b

/-- Store a barrier word. -/
def State.setBarWord (s : State) (holder : Nat) (cl : Bool) (b : Nat) (x : DWord) : State :=
  match s.workgroups.find? holder with
  | none => s
  | some wg =>
    match wg.phase with
    | .saved base => s.setWord64 (base + (if cl then 0x300 else 0x100) + 8 * b) x
    | _ =>
      let wg := if cl then { wg with clBars := SMap.set 0 wg.clBars b x } else { wg with bars := SMap.set 0 wg.bars b x }
      { s with workgroups := s.workgroups.insert holder wg }

/-- A barrier word from PHASE, RELOAD and COUNT (R316). -/
def mkBar (phase reload count : Nat) : DWord :=
  0#8 ++ BitVec.ofNat 8 phase ++ BitVec.ofNat 16 reload ++ 0#16 ++ BitVec.ofNat 16 count
def barPhase (x : DWord) : Nat := fieldOf x 48 8
def barReload (x : DWord) : Nat := fieldOf x 32 16
def barCount (x : DWord) : Nat := fieldOf x 0 16

/-- The key of a barrier in a wave's own state (R317). -/
def barKey (cl : Bool) (b : Nat) : Nat := if cl then 64 + b else b

/-- A wave's part in a barrier; W is 1 at the start (R317). -/
def Wave.barOf (w : Wave) (cl : Bool) (b : Nat) : BarWave := (w.bars.find? (barKey cl b)).getD ⟨false, 0, [], 1⟩

/-- Change a wave's part in a barrier. -/
def Wave.modBar (w : Wave) (cl : Bool) (b : Nat) (f : BarWave → BarWave) : Wave :=
  { w with bars := w.bars.insert (barKey cl b) (f (w.barOf cl b)) }

/-- Wave k belongs to the workgroups that a barrier of a holder spans. -/
def State.barMember (s : State) (holder : Nat) (cl : Bool) (k : Nat) : Bool :=
  if cl then
    match s.workgroups.find? holder, s.workgroups.find? (k / 16) with
    | some h, some g => decide (g.launch = h.launch ∧ g.cluster = h.cluster)
    | _, _ => false
  else k / 16 == holder

/-- Place of the arrived bit of barrier key in the save image of wave no (R317, R370). -/
def Launch.arrivedPlace (la : Launch) (base no key : Nat) : Nat := base + 0x1000 + la.scratch + 0x32000 * no + 0xE00 + 32 * key

/-- Clear the arrived bits of a barrier in the save images of members that are swapped out (R318, R321). -/
def State.clearSavedArrived (s : State) (holder : Nat) (cl : Bool) (b : Nat) : State :=
  s.waves.foldl (fun s x =>
    match s.workgroups.find? (x.1 / 16) with
    | none => s
    | some wg =>
      match wg.phase, s.launches.find? wg.launch with
      | .saved base, some la =>
        if s.barMember holder cl x.1 then s.setByte (la.arrivedPlace base x.2.no (barKey cl b)) 0 else s
      | _, _ => s) s

/-- Reduce COUNT by c; at 0 or less the phase completes, unless RELOAD is 0 (R318, R320). -/
def State.reduceCount (s : State) (holder : Nat) (cl : Bool) (b c : Nat) : State :=
  let x := s.barWord holder cl b
  if barCount x ≤ c then
    if barReload x = 0 then s.setBarWord holder cl b (mkBar (barPhase x) 0 0)
    else
      let s := s.setBarWord holder cl b (mkBar ((barPhase x + 1) % 256) (barReload x) (barReload x))
      let s := s.clearSavedArrived holder cl b
      { s with waves := s.waves.map fun k =>
          if s.barMember holder cl k.1 && (k.2.barOf cl b).arrived then
            (k.1, k.2.modBar cl b fun v => { v with arrived := false })
          else k }
  else s.setBarWord holder cl b (mkBar (barPhase x) (barReload x) (barCount x - c))

/-- One arrival of a wave (R318). -/
def State.arriveAt (s : State) (wk : Nat) (cl : Bool) (b c : Nat) : State :=
  let s := s.modWave wk fun w => w.modBar cl b fun v => { v with pending := 0, arrived := true }
  s.reduceCount (s.barHolder (wk / 16) cl) cl b c

/-- Every live slice of a wave has its pending bit set. -/
def Wave.allPending (w : Wave) (v : BarWave) : Bool :=
  v.pending != 0 && (slicesOfLanes w.live &&& ~~~v.pending) == 0

/-- Set the pending bits of slices, with count c; the arrival follows when the set is complete (R318). -/
def State.setPending (s : State) (wk : Nat) (m : SliceMask) (cl : Bool) (b c : Nat) : State :=
  let s := s.modWave wk fun w => w.modBar cl b fun v => { v with pending := v.pending ||| m, lastC := c }
  match s.waves.find? wk with
  | none => s
  | some w => if w.allPending (w.barOf cl b) then s.arriveAt wk cl b c else s

/-! ## Waits (R319) -/

/-- A slice passes the wait: (PHASE − W) mod 256 is below 128. -/
def passesBar (phase : Nat) (w : BitVec 8) : Bool := decide ((BitVec.ofNat 8 phase - w).toNat < 128)

/-- The slices of the fragment that pass a wait. -/
def State.passing (s : State) (e : Env) (cl : Bool) (b : Nat) : SliceMask :=
  match s.waves.find? e.wk with
  | none => 0
  | some w =>
    let phase := barPhase (s.barWord (s.barHolder e.wave.wg cl) cl b)
    sliceMaskOf fun k => e.frag.slices.getLsbD k && passesBar phase (SMap.get 1 (w.barOf cl b).w k)

/-- Raise W of slices by 1. -/
def State.raiseTargets (s : State) (wk : Nat) (m : SliceMask) (cl : Bool) (b : Nat) : State :=
  s.modWave wk fun w => w.modBar cl b fun v =>
    { v with w := (slicesOf m).foldl (fun t k => SMap.set 1 t k (SMap.get 1 t k + 1)) v.w }

/-- The scope of a barrier (R323). -/
def barScope (cl : Bool) : BitVec 3 := if cl then 3 else 2

/-- The wait of BAR, BAR.CL and WAITBAR: slices that pass run on after an acquire, the others wait (R319, R323). -/
def waitAt (cl : Bool) (b : Nat) (e : Env) (s : State) : Act :=
  let go := s.passing e cl b
  if go = 0 then .hold s (.bar cl b)
  else
    let t := (s.raiseTargets e.wk go cl b).acquireAct e.core (barScope cl)
    if go = e.frag.slices then .writes t [] .none else .split t (e.frag.slices &&& ~~~go) (.bar cl b)

/-- An arrival of the fragment's slices, a release (R318, R323); then what follows it. -/
def arriveThen (cl : Bool) (b c : Nat) (e : Env) (s : State) (go : State → Act) : Act :=
  match e.awaits s e.frag.slices with
  | some w => .hold s w
  | none => go ((s.release e.core e.wk e.frag.slices (barScope cl)).setPending e.wk e.frag.slices cl b c)

/-- BAR and BAR.CL: the arrival once, then the wait. -/
def barBody (cl : Bool) (b : Nat) (e : Env) (s : State) : Act :=
  if e.frag.wait = .bar cl b then waitAt cl b e s else arriveThen cl b 1 e s (waitAt cl b e)

/-- BAR (R318, R319). -/
def execBar (f : YFmt) : State → Host.Outcome State Fault Refusal := issue (.bar f) (barBody false (fieldOf f.imm 0 6))

/-- BAR.CL (R318, R319). -/
def execBarCl (f : YFmt) : State → Host.Outcome State Fault Refusal := issue (.barCl f) (barBody true (fieldOf f.imm 0 6))

/-- ARRIVE (R318, R322). -/
def execArrive (f : YFmt) : State → Host.Outcome State Fault Refusal :=
  issue (.arrive f) fun e s =>
    arriveThen (f.imm.getLsbD 6) (fieldOf f.imm 0 6) (fieldOf f.imm 7 8 + 1) e s fun s => .writes s [] .none

/-- WAITBAR (R319, R322). -/
def execWaitbar (f : YFmt) : State → Host.Outcome State Fault Refusal :=
  issue (.waitbar f) (waitAt (f.imm.getLsbD 6) (fieldOf f.imm 0 6))

/-! ## Ends (R318, R320) -/

/-- Slices of a wave have ended: a set of pending bits may now be complete (R318). -/
def State.slicesEnded (s : State) (wk : Nat) : State :=
  match s.waves.find? wk with
  | none => s
  | some w =>
    if w.live = 0 then s
    else
      w.bars.foldl (fun s x =>
        if w.allPending x.2 then s.arriveAt wk (decide (64 ≤ x.1)) (x.1 % 64) x.2.lastC else s) s

/-- A wave ends: each barrier of its workgroup and its cluster loses one arrival (R320). -/
def State.leaveBarriers (s : State) (wk : Nat) (w : Wave) (la : Launch) : State :=
  let one (cl : Bool) (s : State) (b : Nat) : State :=
    let h := s.barHolder (wk / 16) cl
    let x := s.barWord h cl b
    let s := s.setBarWord h cl b (mkBar (barPhase x) (barReload x - 1) (barCount x))
    if (w.barOf cl b).arrived then s else s.reduceCount h cl b 1
  let s := (List.range la.nbar).foldl (one false) s
  if 1 < la.ncl then (List.range la.nbar).foldl (one true) s else s

end Sys2Proof.Machine
end

