-- ==== Sys2Proof/Machine/Finish.lean ====
section
/-!
DEFINITION. EXIT (R163) and what follows when waves, workgroups, clusters and launches end (R30, R43, R252, R320,
R351, R374, R376, R469).
-/

namespace Sys2Proof.Machine

/-! ## Signals (R351) -/

/-- Sluice runs: the package has booted and was not stopped (R390, R394, R433). -/
def State.sluiceRuns (s : State) : Bool := !s.recovery && !s.halted && !s.tripped

/-- Address of a queue's descriptor (R345). -/
def State.queueDesc (s : State) (die q : Nat) : Nat := fieldOf (s.reg (0x0010 + 8 * die)) 12 40 * 4096 + 64 * q

/-- The descriptor of a queue is valid and holds a PGEN (R469). -/
def State.holdsPgen (s : State) (die q : Nat) (pgen : Word) : Bool :=
  (s.word64 (s.queueDesc die q)).getLsbD 0 && (s.word64 (s.queueDesc die q + 16)).extractLsb' 32 32 == pgen

/-- What Sluice asked for on behalf of a queue is still to be made (R469). -/
def State.askerCurrent (s : State) (x : Asker) : Bool := !x.host || s.holdsPgen x.die x.queue x.pgen

/-- ATS gives an access of a Sluice core to an address no translation: a queue with HOST asks under its PGEN (R468,
R469). -/
def State.sluiceDenied (s : State) (host : Bool) (pasid : Nat) (pgen : Word) (a : Nat) (write : Bool) : Bool :=
  decide (hostBase ≤ a) && !(if host then Config.sluiceTranslates pasid pgen (a % hostBase / 65536) write s.tick
    else Config.translates pasid (a % hostBase / 65536) write s.tick)

/-- Address of a signal word, where its granule is resident and can be reached. DESIGN CHOICE (log 130): where ATS gives no
translation the access waits. -/
def State.signalPlace (s : State) (x : Asker) (ref : DWord) (write : Bool) : Option Nat :=
  let e := s.tableEntry x.dom.toNat (refIndex ref)
  if s.converting e then none
  else (s.residentAddr x.dom.toNat e (refOffset ref) 8).filter fun a =>
    !s.sluiceDenied x.host (s.pasid x.dom.toNat) x.pgen a write

/-- Ask for the granule of a signal word, for the Sluice core's die (R191). -/
def State.askSignal (s : State) (x : Asker) (ref : DWord) : State :=
  let e := s.tableEntry x.dom.toNat (refIndex ref)
  s.requestNeeds x.die none (s.missing x.dom.toNat (refIndex ref) e (refOffset ref) 8)

/-- The write or add of a signal word at its home, a release at system scope; none where it must wait. -/
def State.writeSignal (s : State) (x : Signal) : Option State :=
  (s.signalPlace x.asker x.ref true).map fun a =>
    let v := if x.add then s.word64 a + x.value else x.value
    (if s.lost a then s.countError x.asker.die 3 1 else s.homeWrite a (bytesOfNat 8 v.toNat)).touchRange
      x.asker.dom.toNat (refIndex x.ref) (refOffset x.ref) 8

/-- Let a signal write wait for its granule. -/
def State.awaitSignal (s : State) (x : Signal) : State :=
  let s := s.askSignal x.asker x.ref
  { s with signals := s.signals ++ [x] }

/-- Write or add to a signal word and then write what follows it; where a granule is not resident it is asked for and
the rest waits, as all does while Sluice does not run (R433). A write for a queue whose PGEN or VALID has changed is not made
(R469). -/
def State.putSignal (s : State) (x : Signal) : State :=
  if !s.sluiceRuns then { s with signals := s.signals ++ [x] }
  else if !s.askerCurrent x.asker then s
  else
    match s.writeSignal x with
    | none => s.awaitSignal x
    | some t =>
      match x.andThen with
      | none => t
      | some c =>
        let y : Signal := { x with ref := c.1, value := c.2, add := false, andThen := none }
        (t.writeSignal y).getD (t.awaitSignal y)

/-- Try the waiting signal writes again, in order. -/
def State.retrySignals (s : State) : State := s.signals.foldl State.putSignal { s with signals := [] }

/-- Write a COMPLETE, if the packet carries one. -/
def State.complete (s : State) (x : Asker) (c : Option (DWord × DWord)) : State :=
  match c with
  | some (ref, v) => s.putSignal ⟨ref, v, false, none, x⟩
  | none => s

/-! ## Launch end -/

/-- The queue that carried a launch, with the PGEN read at acceptance and HOST as its descriptor stands. -/
def State.askerOf (s : State) (la : Launch) : Asker :=
  ⟨la.queueDom, la.die.toNat, la.queue.toNat, la.pgen, (s.word64 (s.queueDesc la.die.toNat la.queue.toNat)).getLsbD 1⟩

/-- Merge records of the launch are still to be applied (R300). -/
def Launch.merging (la : Launch) : Bool :=
  la.rasters.any fun r => !r.2.held.isEmpty || (match la.queues.find? r.2.km with
    | some q => !q.recs.isEmpty
    | none => false)

/-- Every workgroup of the launch on this package has been placed and has ended, and nothing of it is left to do. -/
def State.allEnded (s : State) (n : Nat) (la : Launch) : Bool :=
  la.started && decide (la.nextCluster = la.myClusters * la.nstage) && la.relaunch.isEmpty &&
    !la.merging && !s.workgroups.any fun x => decide (x.2.launch = n) && (x.2.phase != .ended || !x.2.log.isEmpty)

/-- A package reports that its part has ended; with every report in, the launch has ended and COMPLETE is written,
where the queue is still the one that carried it (R351, R376, R469). -/
def State.reportEnd (s : State) (n : Nat) (pkg : BitVec 6) : State :=
  match s.launches.find? n with
  | none => s
  | some la =>
    if la.ended then s
    else
      let la := { la with reports := if la.reports.contains pkg then la.reports else la.reports ++ [pkg] }
      if !la.accepting then
        { s with launches := s.launches.insert n { la with ended := true } }.sendPacket la.acceptor messageBytes
          (.endReport la.acceptor (la.startGen.getD 0))
      else if la.pkgs.all fun p => la.reports.contains p then
        let t := { s with launches := s.launches.insert n { la with ended := true } }
        if s.holdsPgen la.die.toNat la.queue.toNat la.pgen then t.complete (s.askerOf la) la.complete else t
      else { s with launches := s.launches.insert n la }

/-- The launch's part on this package ends when all its workgroups have (R30), with every write of theirs performed at
system scope (R232). -/
def State.checkLaunchEnd (s : State) (n : Nat) : State :=
  match s.launches.find? n with
  | none => s
  | some la =>
    if la.ended || la.reports.contains s.myPackage || !s.allEnded n la then s
    else
      let s := s.drainStores fun p => match s.workgroups.find? (p.agent.wave / 16) with
        | some wg => decide (wg.launch = n)
        | none => false
      let s := { s.releaseAll with workgroups := s.workgroups.filter fun x => x.2.launch != n }
      s.reportEnd n (if la.pkgs.isEmpty then 0 else s.myPackage)

/-! ## Workgroups, stages, the token -/

/-- A key's workgroup runs on this package (R45). -/
def Launch.runsKey (la : Launch) (k : Nat) : Bool :=
  let i := k % max 1 (la.gridX * la.gridY * la.gridZ)
  decide (i / max 1 la.ncl % la.npkg = la.rank)

/-- Another package has told that its workgroup of a key has ended (R374). -/
def State.otherEnded (s : State) (la : Launch) (k : Nat) : Bool := Config.otherEnded (la.startGen.getD 0).toNat k s.tick

/-- The workgroup of a key. -/
def State.wgOfKey (s : State) (n : Nat) (la : Launch) (k : Nat) : Option Nat :=
  (List.find? (fun x => decide (x.2.launch = n ∧ la.keyOf x.2 = k)) s.workgroups).map fun x => x.1

/-- Pass the token on from workgroups that have ended, whose logs have been applied (R374). That another package's
workgroup has ended is told from outside: when is open (log 40). -/
def State.passToken (n : Nat) : Nat → State → State
  | 0, s => s
  | fuel + 1, s =>
    match s.launches.find? n with
    | none => s
    | some la =>
      let s := match s.wgOfKey n la la.token with
        | some g => s.applyLog g
        | none => s
      let logged := match (s.wgOfKey n la la.token).bind fun g => s.workgroups.find? g with
        | some wg => !wg.log.isEmpty
        | none => false
      if (la.endedKeys.contains la.token && !logged) || (!la.runsKey la.token &&
          decide (la.token < la.gridX * la.gridY * la.gridZ * la.nstage) && s.otherEnded la la.token) then
        State.passToken n fuel { s with launches := s.launches.modify n fun la => { la with token := la.token + 1 } }
      else s

/-- Pass the token of a launch in deterministic mode as far as it goes. -/
def State.passTokens (s : State) (n : Nat) : State :=
  match s.launches.find? n with
  | none => s
  | some la => if la.det then State.passToken n ((la.endedKeys.length + 1) * (la.npkg * la.ncl + 1) + 1) s else s

/-- Close the stage queues whose producer stage has ended; a raster unit closes its own fragment queue (R43, R290). -/
def State.closeQueues (s : State) (n : Nat) : State :=
  match s.launches.find? n with
  | none => s
  | some la =>
    let running (stage : Nat) : Bool :=
      s.workgroups.any fun x => decide (x.2.launch = n ∧ x.2.stage = stage) && x.2.phase != .ended
    let queues := la.queues.map fun q =>
      if (la.rasters.any fun r => decide (r.2.ko = q.1)) || running q.2.producer then q
      else (q.1, { q.2 with closed := true })
    { s with launches := s.launches.insert n { la with queues := queues } }

/-- Workgroup g ends; a cluster's workgroups go together (R30). -/
def State.endWorkgroup (s : State) (g : Nat) : State :=
  match s.workgroups.find? g with
  | none => s
  | some wg =>
    match s.launches.find? wg.launch with
    | none => s
    | some la =>
      let s := { s with workgroups := s.workgroups.insert g { wg with phase := .ended, request := none },
                        launches := s.launches.insert wg.launch { la with endedKeys := la.endedKeys ++ [la.keyOf wg] } }
      let s := (s.dropSlice la.ctx.toNat wg.core).passTokens wg.launch
      let mine (x : Workgroup) : Bool := decide (x.launch = wg.launch ∧ x.cluster = wg.cluster)
      let whole := !s.workgroups.any fun x => mine x.2 && x.2.phase != .ended
      let s := if whole then { s with workgroups := s.workgroups.filter fun x => !(mine x.2 && x.2.log.isEmpty) } else s
      (s.closeQueues wg.launch).checkLaunchEnd wg.launch

/-! ## Wave end -/

/-- Nothing the wave has issued is outstanding: engine operations, pending results and accesses, stores. -/
def State.waveIdle (s : State) (wk : Nat) : Bool :=
  let idleWave := match s.waves.find? wk with
    | some w => !w.pend.any fun p => p.kind != .result
    | none => true
  idleWave && !(s.copies.any fun c => c.wave == wk) && !(s.matOps.any fun o => o.wave == wk) &&
    !(s.builds.any fun b => b.wave == wk) && !(s.colls.any fun c => c.wave == wk) &&
    !(s.storeQ.any fun p => p.agent.wave == wk)

/-- The steps of shared-B mode that the ended wave did not issue fail for the waves that wait in them (R252). -/
def State.failSteps (s : State) (wk : Nat) (w : Wave) : State :=
  let first := wk - w.no % 4
  { s with sharedB := s.sharedB.map fun x =>
      if first ≤ x.wave ∧ x.wave < first + 4 ∧ w.sharedStep ≤ x.step ∧ x.status = .waiting then { x with status := .failed } else x }

/-- A wave whose lanes have all ended (R30, R320). -/
def State.endWave (s : State) (wk : Nat) : State :=
  match s.waves.find? wk with
  | none => s
  | some w =>
    match s.workgroups.find? w.wg with
    | none => s
    | some wg =>
      match s.launches.find? wg.launch with
      | none => s
      | some la =>
        let s := ((s.releaseWave wk w wg.core).leaveBarriers wk w la).failSteps wk w
        let s := { s with waves := s.waves.erase wk,
                          workgroups := s.workgroups.modify w.wg fun wg => { wg with endedWaves := wg.endedWaves + 1 } }
        if wg.endedWaves + 1 = la.waves then s.endWorkgroup w.wg else s

/-- EXIT (R163): no lane may be gang-parked; the executing lanes end. The wave's end waits until what it has issued is
done. DEDUCED (log 100): an EXIT under a predicate is no branch (R35), so slices that it leaves at different slice PCs set no
join targets. -/
def execExit (f : CFmt) : State → Host.Outcome State Fault Refusal :=
  issue (.exit f) fun e s =>
    match lanesOf e.wave.gangParked with
    | l :: _ => .trap 0x10 ((e.wave.pc l).zeroExtend 64)
    | [] =>
      let live := e.wave.live &&& ~~~e.lanes
      if live = 0 then
        let s := s.drainStores fun p => decide (p.agent.wave = e.wk)
        if s.waveIdle e.wk then .writes ((s.modWave e.wk fun w => { w.landAll with live := 0 }).endWave e.wk) [] .none
        else .hold s .again
      else .writes ((s.modWave e.wk fun w => { w with live := live }).slicesEnded e.wk) [] .none

end Sys2Proof.Machine
end

