-- ==== Sys2Proof/Machine/Gate.lean ====
section
/-!
DEFINITION. Gate calls: GATE, GATERET and OBJ.GRANT (R329 to R336, R74).
-/

namespace Sys2Proof.Machine

/-! ## Save slots (R330) -/

/-- Number of slots of a Save area object. -/
def slotCount (length : Nat) : Nat := min 8192 ((length - 1024) / 1024)

/-- The lowest free slot of a Save area object, none where all are taken. -/
def State.freeSlot (s : State) (dom : Nat) (e : ObjEntry) : Option Nat :=
  (List.range (slotCount e.length)).find? fun k => !(s.word64 (s.addrOf dom e (8 * (k / 64)))).getLsbD (k % 64)

/-- Set a slot's bit. -/
def State.claimSlot (s : State) (dom : Nat) (e : ObjEntry) (k : Nat) : State :=
  let a := s.addrOf dom e (8 * (k / 64))
  s.setWord64 a (s.word64 a ||| BitVec.ofNat 64 (2 ^ (k % 64)))

/-- The whole wave's register results have landed, and nothing later can write a register: GATE and GATERET write
them all (R74, R107, R249). -/
def Env.settled (e : Env) (s : State) : Option Wait :=
  match e.wave.pend.find? fun p => p.kind != .result with
  | some p => some (.pending p.id)
  | none =>
    if s.matOps.any fun o => decide (o.wave = e.wk) && (match o.instr with
        | .bload _ => true
        | _ => false) then some .again else none

/-- The wave as one fragment of all its live lanes at an address, no join target (R333, R334). -/
def Wave.gathered (w : Wave) (f : Frag) (block p : CodeAddr) : Wave :=
  let w := w.setPcs w.live p
  { w with join := [], hold := 0, frags := [{ f with slices := slicesOfLanes w.live, block := block, hold := none, wait := .none }] }

/-- MODE of a callee: RM = 1, DET and SEED kept (R74). -/
def calleeMode (mode : Word) : Word := (mode &&& 0x01FF0000#32) ||| 1#32

/-! ## GATE (R332, R333) -/

/-- A gate table entry as its four words (R329). -/
structure GateWords where
  w0 : DWord
  entry : DWord
  ctvec : DWord
  save : DWord

def GateWords.valid (g : GateWords) : Bool := g.w0.getLsbD 63
def GateWords.cdom (g : GateWords) : Nat := fieldOf g.w0 32 16
def GateWords.vmin (g : GateWords) : Nat := fieldOf g.w0 23 9
def GateWords.smin (g : GateWords) : Nat := fieldOf g.w0 15 8

/-- The entry, the trap vector, the save area and the domain of a callee are valid (R333 status 5). -/
def Env.calleeOk (e : Env) (s : State) (g : GateWords) : Bool :=
  let code := match s.checkObject e.core g.cdom g.entry needX (.only 2) 0 0 with
    | .ok o => decide (refOffset g.entry % 8 = 0 ∧ refOffset g.entry < o.length) &&
        isHeader (s.codeWord e.launch g.cdom (refIndex g.entry) (refOffset g.entry / 8))
    | .error _ => false
  let save := match s.checkObject e.core g.cdom g.save needRW (.only 8) 0 0 with
    | .ok _ => true
    | .error _ => false
  s.domValid g.cdom && code && (s.checkTvec e.core e.launch g.cdom g.ctvec).isSome && save

/-- The caller's entry for the gate stack, with MODE as it stands once every outstanding result has landed (R59, R331). -/
def Env.gateEntry (e : Env) (f : YFmt) (mode : Word) (ret : CodeAddr) (save k : Nat) : GateEntry :=
  { dom := e.wave.dom, codeObj := e.wave.codeObj, ret := ret, tvec := e.wave.tvec, tsave := e.wave.tsave,
    mode := mode, st := gateSt f, saveObj := BitVec.ofNat 18 save, slot := BitVec.ofNat 13 k }

/-- The wave inside the callee (R74, R333). -/
def Env.enterCallee (e : Env) (f : YFmt) (g : GateWords) (k : Nat) (w : Wave) : Wave :=
  let header := BitVec.ofNat 39 (refOffset g.entry / 8)
  let ret := e.pc + 1
  let w := w.landAll.scrub
  let w : Wave := { w with
    gates := e.gateEntry f w.mode ret (refIndex g.save) k :: w.gates, dom := BitVec.ofNat 16 g.cdom,
    codeObj := BitVec.ofNat 18 (refIndex g.entry), tvec := g.ctvec,
    tsave := mkRef (refIndex g.save) needRW (1024 + 1024 * k), mode := calleeMode w.mode,
    status := mkStatus (w.gdepth + 1) w.tl w.halted }
  w.gathered e.frag header header

/-- A GATE that does not call: its status, written unless st is 0x1FE (R333). -/
def gateStatus (f : YFmt) (s : State) (n : Nat) : Act := .writes s (writeTo .z32 (gateSt f) 0 (BitVec.ofNat 64 n)) .none

/-- GATE (R333). -/
def execGate (f : YFmt) : State → Host.Outcome State Fault Refusal :=
  issue (.gate f) fun e s =>
    let i := fieldOf f.imm 17 10
    let ref := e.readRef f.op1 e.first
    let tval := withOffset ref (32 * i)
    match s.checkObject e.core e.dom ref needX (.only 7) 0 0 with
    | .error c => .trap c tval
    | .ok table =>
      if table.length < 32 * i + 32 then .trap 0x05 tval
      else
        match e.settled s with
        | some w => .hold s w
        | none =>
          if s.mapPoisoned table (32 * i) 32 then .trap 0x09 tval
          else
          match s.residentAddr e.dom table (32 * i) 32 with
          | none => e.holdFor s (s.missing e.dom (refIndex ref) table (32 * i) 32) tval
          | some a =>
            let s := s.touchRange e.dom (refIndex ref) (32 * i) 32
            let g : GateWords := ⟨s.word64 a, s.word64 (a + 8), s.word64 (a + 16), s.word64 (a + 24)⟩
            if s.objectPoison (dieOf e.core) e.dom table (32 * i) 32 then .trap 0x09 tval
            else if !g.valid then gateStatus f s 1
            else if e.wave.gdepth = 4 then gateStatus f s 3
            else if e.launch.vregs < g.vmin ∨ e.launch.sregs < g.smin then gateStatus f s 4
            else if !e.calleeOk s g then gateStatus f s 5
            else
              let area := s.entryFor e.core g.cdom (refIndex g.save)
              if s.mapPoisoned area 0 1024 then .trap 0x09 g.save
              else if (s.residentAddr g.cdom area 0 1024).isNone then
                e.holdFor s (s.missing g.cdom (refIndex g.save) area 0 1024) tval
              else if s.objectPoison (dieOf e.core) g.cdom area 0 1024 then .trap 0x09 g.save
              else
                match s.freeSlot g.cdom area with
                | none => gateStatus f s 2
                | some k => .placed (((s.touchRange g.cdom (refIndex g.save) 0 1024).claimSlot g.cdom area k).modWave e.wk (e.enterCallee f g k))

/-! ## GATERET (R334) -/

/-- The wave back in its caller (R74, R334). -/
def Env.leaveCallee (e : Env) (g : GateEntry) (rest : List GateEntry) (block : CodeAddr) (w : Wave) : Wave :=
  let w := w.landAll.scrub
  let w : Wave := { w with gates := rest, dom := g.dom, codeObj := g.codeObj, tvec := g.tvec, tsave := g.tsave,
                           mode := keepSeed g.mode w.mode, status := mkStatus (w.gdepth - 1) w.tl w.halted }
  let w := match g.st with
    | .s n => w.setS n.toNat 0
    | _ => w
  w.gathered e.frag block g.ret

/-- GATERET (R334). -/
def execGateret (f : YFmt) : State → Host.Outcome State Fault Refusal :=
  issue (.gateret f) fun e s =>
    match e.wave.gates with
    | [] => .trap 0x40 (illegalVal (Instr.gateret f).word 0x23)
    | g :: rest =>
      match e.settled s with
      | some w => .hold s w
      | none =>
        let area := s.tableEntry e.dom g.saveObj.toNat
        if s.mapPoisoned area (8 * (g.slot.toNat / 64)) 8 then .trap 0x09 (mkRef g.saveObj.toNat needRW (8 * (g.slot.toNat / 64)))
        else if (s.residentAddr e.dom area (8 * (g.slot.toNat / 64)) 8).isNone then
          e.holdFor s (s.missing e.dom g.saveObj.toNat area (8 * (g.slot.toNat / 64)) 8)
            (mkRef g.saveObj.toNat needRW (8 * (g.slot.toNat / 64)))
        else
          let block := BitVec.ofNat 39 (s.blockOf e.launch g.dom.toNat g.codeObj.toNat g.ret.toNat g.ret.toNat 0)
          let s := s.touchRange e.dom g.saveObj.toNat (8 * (g.slot.toNat / 64)) 8
          .placed ((s.clearSlot e.dom g.saveObj.toNat g.slot.toNat).modWave e.wk (e.leaveCallee g rest block))

/-! ## OBJ.GRANT (R336) -/

/-- The rights mask of OBJ.GRANT: read, write, execute, atomic, grant from bit 4 downwards. -/
def grantMask (f : YFmt) : BitVec 5 := f.imm.extractLsb' 13 5

/-- MOVE. -/
def grantMove (f : YFmt) : Bool := f.imm.getLsbD 12

/-- An entry with its RIGHTS masked (R336). -/
def ObjEntry.maskRights (e : ObjEntry) (m : BitVec 5) : ObjEntry :=
  { e with w0 := (e.w0.extractLsb' 60 4 ++ (e.rights &&& m) ++ e.w0.extractLsb' 0 55 : BitVec 64) }

/-- The entry that OBJ.GRANT with MOVE has invalidated, on whose earlier accesses it still waits (R177). -/
def Env.movedEntry (e : Env) : Option (Nat × Nat) :=
  match e.frag.wait with
  | .moved dom n => some (dom, n)
  | _ => none

/-- What OBJ.GRANT leaves in d: the granted reference. -/
def Env.granted (e : Env) (f : YFmt) (s : State) : Act :=
  .writes s (writeTo .z64 f.op1 e.first (mkRef (refIndex (e.readRef f.op1 e.first)) ((grantMask f).extractLsb' 1 4) 0)) .none

/-- OBJ.GRANT (R336). With MOVE it ends once no access checked against the source entry is outstanding; the fragment's own
parked accesses are performed before it begins. -/
def execObjGrant (f : YFmt) : State → Host.Outcome State Fault Refusal :=
  issue (.objGrant f) fun e s =>
    match e.movedEntry with
    | some (dom, n) => if s.staleUse dom n then .hold s (.moved dom n) else e.granted f s
    | none =>
    let src := e.readRef f.op2 e.first
    let n := refIndex src
    match s.checkObject e.core e.dom src needNone .any 0 0, e.wave.gates with
    | .error c, _ => .trap c src
    | .ok _, [] => .trap 0x40 (illegalVal (Instr.objGrant f).word 0x23)
    | .ok entry, g :: _ =>
      if !entry.rights.getLsbD 0 then .trap 0x03 src
      else
        let x := refIndex (e.readRef f.op1 e.first)
        let t := g.dom.toNat
        if x = 0 ∨ s.otCount t ≤ x ∨ (s.tableEntry t x).valid ∨ (entry.kind = 1 ∧ !grantMove f) then
          .writes s (writeTo .z64 f.op1 e.first 0) .none
        else if s.converting entry then
          if s.tensorDamaged entry then .trap 0x09 src
          else if s.convDead entry then .trap 0x06 src
          else .hold s (.conversion entry.tdesc)
        else if !grantMove f then e.granted f (s.setEntry t x (entry.maskRights (grantMask f)))
        else
          match e.awaits s e.frag.slices with
          | some w => .hold s w
          | none =>
            let s := s.setEntry t x (entry.maskRights (grantMask f))
            let s := (s.setEntry e.dom n { entry with w3 := entry.w3 &&& ~~~(BitVec.ofNat 64 (2 ^ 63)) }).dropEntry e.dom n
            if s.staleUse e.dom n then .hold s (.moved e.dom n) else e.granted f s

end Sys2Proof.Machine
end

