-- ==== Sys2Proof/Machine/Collective.lean ====
section
/-!
DEFINITION. Collectives (R324 to R328): issue, waiting, and the collective engine.
-/

namespace Sys2Proof.Machine

/-! ## The descriptor (R325) -/

def collCountOf (w0 : DWord) : Nat := fieldOf w0 32 32
def collOp (w0 : DWord) : Nat := fieldOf w0 28 4
def collEtype (w0 : DWord) : Nat := fieldOf w0 24 4
def collRoot (w0 : DWord) : Nat := fieldOf w0 16 8

/-- Bytes of n elements of a type. -/
def elemBytesOf (etype n : Nat) : Nat := (n * etypeNibbles etype + 1) / 2

/-- Bytes that this package reads from SRC and writes to DST (R326). -/
def collBytes (i : Instr) (w0 : DWord) (npkg rank : Nat) : Nat × Nat :=
  let part := elemBytesOf (collEtype w0) (collCountOf w0)
  match i with
  | .collRed _ => (part, part)
  | .collGath _ => (part, npkg * part)
  | .collScat _ => (if collRoot w0 = rank then npkg * part else 0, part)
  | _ => (if collRoot w0 = rank then part else 0, part)

/-! ## Issue (R324, R325, R328) -/

/-- A collective's range of an object; none where the package does not touch it. -/
def Env.collRange (e : Env) (s : State) (ref : DWord) (need : BitVec 4) (rule : KindRule) (n : Nat) :
    Except (Nat × DWord) (Option ObjEntry) :=
  if n = 0 then .ok none
  else
    match e.copyRange s ref need rule n with
    | .error c => .error c
    | .ok x => .ok (some x)

/-- Join a collective on a channel (R324, R328): checks, the earlier accesses of the fragment at domain scope, then
the engine takes it. A ninth on its channel holds the fragment. -/
def collOpBody (i : Instr) (f : YFmt) (e : Env) (s : State) : Act :=
  let ref := e.readRef f.op1 e.first
  let channel := fieldOf f.imm 12 6
  match s.checkBytes e.core e.dom ref needRW (.only 0) (refOffset ref) 64 64 with
  | .error c => .trap c ref
  | .ok de =>
    match e.awaits s e.frag.slices with
    | some w => .hold s w
    | none =>
      let s := s.release e.core e.wk e.frag.slices 6
      match s.residentAddr e.dom de (refOffset ref) 64 with
      | none => e.holdFor s (s.missing e.dom (refIndex ref) de (refOffset ref) 64) ref
      | some a =>
        let w0 := s.word64 a
        let src := s.word64 (a + 8)
        let dst := s.word64 (a + 16)
        let n := collBytes i w0 e.launch.npkg e.launch.rank
        if s.portPoisoned (dieOf e.core) a || s.portPoisoned (dieOf e.core) (a + 32) then .trap 0x09 ref
        else
          match bothOk (e.collRange s src needR .load n.1) (e.collRange s dst needW .store n.2) with
          | .error (c, v) => .trap c v
          | .ok (se, dd) =>
            let s := s.fillRefs e.core e.dom ([ref] ++ (if n.1 = 0 then [] else [src]) ++ (if n.2 = 0 then [] else [dst]))
            if 8 ≤ (s.colls.filter fun c => decide (c.launch = e.wg.launch ∧ c.channel = channel)).length then .hold s .again
            else
              let key := 64 * e.wg.launch + channel
              let number := SMap.get 0 s.collCount key + 1
              let c : Coll :=
                { wave := e.wk, slices := e.frag.slices, launch := e.wg.launch, instr := i, pc := e.pc, dom := e.wave.dom,
                  channel := channel, number := number, desc := ref, descEntry := de, src := src, srcEntry := se,
                  dst := dst, dstEntry := dd.getD noEntry, w0 := w0, waited := false, lost := false }
              .writes { s with colls := s.colls ++ [c], collCount := SMap.set 0 s.collCount key number,
                               launches := s.launches.modify e.wg.launch fun la => { la with usedColl := true } } [] .none

/-- COLL.RED (R326). -/
def execCollRed (f : YFmt) : State → Host.Outcome State Fault Refusal := issue (.collRed f) (collOpBody (.collRed f) f)

/-- COLL.GATH (R326). -/
def execCollGath (f : YFmt) : State → Host.Outcome State Fault Refusal := issue (.collGath f) (collOpBody (.collGath f) f)

/-- COLL.SCAT (R326). -/
def execCollScat (f : YFmt) : State → Host.Outcome State Fault Refusal := issue (.collScat f) (collOpBody (.collScat f) f)

/-- COLL.BCAST (R326). -/
def execCollBcast (f : YFmt) : State → Host.Outcome State Fault Refusal :=
  issue (.collBcast f) (collOpBody (.collBcast f) f)

/-- COLL.WAIT: until every collective of the wave on the channel has completed; then an acquire at domain scope
(R328). -/
def execCollWait (f : YFmt) : State → Host.Outcome State Fault Refusal :=
  issue (.collWait f) fun e s =>
    let c := fieldOf f.imm 0 6
    if s.colls.any fun x => decide (x.wave = e.wk ∧ x.channel = c) then .hold s (.coll c)
    else .writes (s.acquireAct e.core 6) [] .none

/-! ## The engine (R326) -/

/-- The element type of a reduction, if the descriptor names one that R325 admits. -/
def redType (etype : Nat) : Option Ty :=
  match etype with
  | 4 => some .s32
  | 5 => some .z32
  | 6 => some .f16
  | 7 => some .bf16
  | 8 => some .f32
  | _ => none

/-- One step of a reduction in the accumulator's type, f32 for the float types (R326). -/
def redStep (t : Ty) (op acc x : Nat) : Nat :=
  if t.isFloat then
    let a := binary32.decode acc
    let b := binary32.decode x
    match op with
    | 0 => (binary32.addR false .rne a b).code
    | 1 => (binary32.ofVal false .rne (FVal.min a b)).code
    | _ => (binary32.ofVal false .rne (FVal.max a b)).code
  else
    match op with
    | 0 => (acc + x) % 2 ^ 32
    | 1 => if t.value x < t.value acc then x else acc
    | _ => if t.value acc < t.value x then x else acc

/-- An element reduced over the ranks in ascending order (R326). -/
def redElem (t : Ty) (op : Nat) (xs : List Nat) : Nat :=
  let wide (x : Nat) : Nat := if t.isFloat then (binary32.ofVal false .rne (t.fmt.decode x)).code else x
  match xs.map wide with
  | [] => 0
  | x :: rest =>
    let acc := rest.foldl (redStep t op) x
    if t.isFloat then (t.fmt.ofVal false .rne (binary32.decode acc)).code else acc

/-- The part of rank q as this package's engine receives it: its own bytes, or another package's, which come over the
links (free bytes). `own` lists this package's source bytes. -/
def collPart (s : State) (rank q n : Nat) (own : List Byte) : List Byte :=
  if q = rank then own.take n ++ List.replicate (n - own.length) 0
  else (List.range n).map fun i => Config.freeByte (s.freeCount + q) i

/-- The bytes that a collective gives this package's DST, and for each the own source bytes it derives from
(R326). A descriptor value that R325 does not admit leaves the bytes open. -/
def collResult (s : State) (c : Coll) (npkg rank : Nat) (own : List Byte) : List (Byte × List Nat) :=
  let e := elemBytesOf (collEtype c.w0) 1
  let part := elemBytesOf (collEtype c.w0) (collCountOf c.w0)
  let open_ (n : Nat) : List (Byte × List Nat) := (List.range n).map fun i => (Config.freeByte (s.freeCount + 64) i, [])
  let rooted (n off : Nat) : List (Byte × List Nat) :=
    if npkg ≤ collRoot c.w0 then open_ part
    else
      let src := collPart s rank (collRoot c.w0) n own
      (List.range part).map fun i => (src.getD (off + i) 0, if collRoot c.w0 = rank then [off + i] else [])
  match c.instr with
  | .collRed _ =>
    match redType (collEtype c.w0) with
    | none => open_ part
    | some t =>
      if 2 < collOp c.w0 then open_ part
      else
        let parts := (List.range npkg).map fun q => collPart s rank q part own
        (List.range (collCountOf c.w0)).flatMap fun i =>
          let x := redElem t (collOp c.w0) (parts.map fun p => natOfBytes ((p.drop (e * i)).take e))
          (bytesOfNat e x).map fun b => (b, (List.range e).map (e * i + ·))
  | .collGath _ =>
    (List.range npkg).flatMap fun q =>
      (List.range part).map fun i => ((collPart s rank q part own).getD i 0, if q = rank then [i] else [])
  | .collScat _ => rooted (npkg * part) (rank * part)
  | _ => rooted part 0

/-- Write CSTAT (R325). -/
def State.setCstat (s : State) (c : Coll) (n : Nat) : State :=
  match s.residentAddr c.dom.toNat c.descEntry (refOffset c.desc) 64 with
  | some a => s.homeWrite (a + 28) (bytesOfNat 4 n)
  | none => s

/-- The objects that a collective reads and writes. -/
def Coll.entries (c : Coll) : List ObjEntry := c.descEntry :: c.srcEntry.toList ++ [c.dstEntry]

/-- A tensor of the collective is being converted: its bytes are reached once that has ended (R199). -/
def State.collConverts (s : State) (c : Coll) : Bool := c.entries.any s.converting

/-- Granules that a collective still needs. -/
def State.collNeeds (s : State) (c : Coll) (n : Nat × Nat) : List Need :=
  let dom := c.dom.toNat
  s.missing dom (refIndex c.desc) c.descEntry (refOffset c.desc) 64 ++
    (match c.srcEntry with
     | some e => if n.1 = 0 then [] else s.missing dom (refIndex c.src) e (refOffset c.src) n.1
     | none => []) ++
    (if n.2 = 0 then [] else s.missing dom (refIndex c.dst) c.dstEntry (refOffset c.dst) n.2)

/-- The packages on which a collective's objects lie can be reached (R377). -/
def State.collLinked (s : State) (c : Coll) (n : Nat × Nat) : Bool :=
  s.linkedRange c.dom.toNat c.descEntry (refOffset c.desc) 64 &&
    ((c.srcEntry.map fun e => n.1 == 0 || s.linkedRange c.dom.toNat e (refOffset c.src) n.1).getD true) &&
    (n.2 == 0 || s.linkedRange c.dom.toNat c.dstEntry (refOffset c.dst) n.2)

/-- ATS does not translate a granule that a collective reads or writes (R468). -/
def State.collUntranslated (s : State) (c : Coll) (n : Nat × Nat) : Bool :=
  let dom := c.dom.toNat
  let places (e : ObjEntry) (off k : Nat) : List Nat := if k = 0 then [] else (granulesOf off k).map fun g => s.addrOf dom e (65536 * g)
  s.noTranslation dom true (places c.descEntry (refOffset c.desc) 64 ++ places c.dstEntry (refOffset c.dst) n.2) ||
    ((c.srcEntry.map fun e => s.noTranslation dom false (places e (refOffset c.src) n.1)).getD false)

/-- An object of a collective cannot be read (R454, R471). -/
def State.collUnreadable (s : State) (c : Coll) (n : Nat × Nat) : Bool :=
  s.rangeUnreadable c.descEntry (refOffset c.desc) 64 ||
    ((c.srcEntry.map fun e => s.rangeUnreadable e (refOffset c.src) n.1).getD false) ||
    s.rangeUnreadable c.dstEntry (refOffset c.dst) n.2

/-- Count the accesses that a collective makes to its objects (R192, R193). -/
def State.noteColl (s : State) (c : Coll) (n : Nat × Nat) : State :=
  let dom := c.dom.toNat
  let s := s.noteEngine (some c.launch) dom (refIndex c.desc) (refOffset c.desc) 64 c.waited
  let s := if n.1 = 0 then s else s.noteEngine (some c.launch) dom (refIndex c.src) (refOffset c.src) n.1 c.waited
  if n.2 = 0 then s else s.noteEngine (some c.launch) dom (refIndex c.dst) (refOffset c.dst) n.2 c.waited

/-- The source bytes of this package and their poison. -/
def State.collSource (s : State) (die : Nat) (c : Coll) (n : Nat) : List (Byte × Bool) :=
  match c.srcEntry with
  | none => []
  | some e => (List.range n).map fun i =>
      let a := s.addrOf c.dom.toNat e (refOffset c.src + i)
      (s.portByte die a, s.portPoisoned die a)

/-- A collective whose launch has ended under it writes CSTAT = 2 once the descriptor's granule is resident (R500). -/
def State.finishLost (s : State) (n : Nat) (c : Coll) : State :=
  let needs := s.missing c.dom.toNat (refIndex c.desc) c.descEntry (refOffset c.desc) 64
  let gone : State := { s with colls := s.colls.eraseIdx n }
  if (s.residentAddr c.dom.toNat c.descEntry (refOffset c.desc) 64).isSome then gone.setCstat c 2
  else if s.needsFail needs then gone
  else s.requestNeeds 0 none needs

/-- COLLECTIVE_COMPLETE: the engine reads every participant's source, writes this package's destination and CSTAT
(R326); destination sectors derived from poison are poisoned, which other packages' sources may be (R462, R500). While a tensor
of it is being converted, or a package of its objects cannot be reached, it waits (R199, R377). Whether another package's collective differs is not to be
seen here: with several packages it is a free choice, which gives CSTAT = 1. A reduction's repeats are counted; a
fourth detection kills the launch (R474). -/
def execCollectiveComplete (n : Nat) (outcome : EngineOutcome) (s : State) : Host.Outcome State Fault Refusal :=
  match s.colls[n]? with
  | none => .next s
  | some c =>
    if c.lost then .next (s.finishLost n c)
    else
    match s.launches.find? c.launch with
    | none => .next { s with colls := s.colls.eraseIdx n }
    | some la =>
      let size := collBytes c.instr c.w0 la.npkg la.rank
      let needs := s.collNeeds c size
      let die := match s.waves.find? c.wave with
        | some w => match s.workgroups.find? w.wg with
          | some g => dieOf g.core
          | none => 0
        | none => 0
      let reduces := match c.instr with
        | .collRed _ => true
        | _ => false
      let waiting (s : State) : State := { s with colls := s.colls.set n { c with waited := true } }
      if s.collUnreadable c size then .next (s.engineDamage c.wave c.pc)
      else if s.collConverts c then .next (waiting s)
      else if !needs.isEmpty then
        if s.needsFail needs then .next (s.engineKill c.wave c.pc 9 0x06)
        else .next ((waiting s).requestNeeds die (some c.launch) needs)
      else if !s.collLinked c size then .next (waiting s)
      else if s.collUntranslated c size then .next (s.engineKill c.wave c.pc 9 0x08)
      else if reduces && outcome == .failed then
        .next ((s.countOutcome die outcome).engineKill c.wave c.pc 3 0)
      else
        let s := if reduces then s.countOutcome die outcome else s
        let differs := decide (1 < la.npkg) && decide (Config.freeChoice s.freeCount % 2 = 1)
        let core := match s.waves.find? c.wave with
          | some w => ((s.workgroups.find? w.wg).map fun g => g.core).getD 0
          | none => 0
        let s := s.noteColl c size
        let done (s : State) (stat : Nat) : State :=
          { (s.setCstat c stat).releaseAct core 6 with colls := s.colls.eraseIdx n, freeCount := s.freeCount + 66 + size.2 / 32 }
        if differs then .next (done s 1)
        else
          let own := s.collSource die c size.1
          let res := collResult s c la.npkg la.rank (own.map fun x => x.1)
          let places := (List.range size.2).map fun i => s.addrOf c.dom.toNat c.dstEntry (refOffset c.dst + i)
          let other (i : Nat) : Bool := decide (1 < la.npkg) && decide (Config.freeChoice (s.freeCount + 65 + i / 32) % 2 = 1)
          let mine := ((places.zip res).filter fun x => x.2.2.any fun i => (own.getD i (0, false)).2).map fun x => x.1
          let bad := mine ++ (places.zipIdx.filter fun x => other x.2).map fun x => x.1
          .next (done (s.engineWrite core (places.zip (res.map fun x => x.1)) bad) 0)

end Sys2Proof.Machine
end

