-- ==== Sys2Proof/Machine/Copy.lean ====
section
/-!
DEFINITION. Class 0x7: copies and batches (R215 to R218), and the copy engine.
-/

namespace Sys2Proof.Machine

/-! ## Checks at issue (R216) -/

/-- A scratchpad range (R205 without the alignment test). -/
def Env.copyScratch (e : Env) (a n : Nat) : Except (Nat × DWord) (Nat × Nat) :=
  if e.launch.scratch < a + n then .error (0x05, BitVec.ofNat 64 a) else .ok (e.wave.wg, a)

/-- An object of a COPYT: its range, or for a tensor its coordinates and that its elements do not end before n bytes. -/
def Env.copySide (e : Env) (s : State) (ref : DWord) (need : BitVec 4) (rule : KindRule) (cs : List Nat) (n : Nat) :
    Except (Nat × DWord) ObjEntry :=
  if (s.entryFor e.core e.dom (refIndex ref)).kind = 1 then
    match s.checkObject e.core e.dom ref need .tensor 0 0 with
    | .error c => .error (c, ref)
    | .ok entry =>
      let t := s.tensor entry
      let size := etypeNibbles t.etype / 2
      if !t.inside cs ∨
          (size ≠ 0 ∧ t.dim 0 * t.dim 1 * t.dim 2 * t.dim 3 < t.linear cs + (n + size - 1) / size) then .error (0x05, ref)
      else .ok entry
  else e.copyRange s ref need rule n

/-- A copy that has passed its checks. -/
def Env.copyOf (e : Env) (i : Instr) (scope : BitVec 3) (n : Nat) : Copy :=
  { wave := e.wk, slices := e.who.slices, core := e.core, batch := e.wave.openBatch, instr := i, pc := e.pc, dom := e.wave.dom,
    srcRef := 0, srcEntry := noEntry, srcScratch := none, dstRef := 0, dstEntry := noEntry, dstScratch := none,
    coords := [], bytes := n, scope := scope, lines := 0, waited := false }

/-- Issue a checked copy: it waits for a parked access of its slices, and for one of the core's 64 entries (R216). -/
def Env.startCopy (e : Env) (i : Instr) (s : State) (c : Copy) : Act :=
  if c.bytes = 0 ∨ 65536 < c.bytes then .trap 0x40 (illegalVal i.word 0x27)
  else
    match e.awaits s e.frag.slices with
    | some w => .hold s w
    | none =>
      if 64 ≤ (s.copies.filter fun x => decide (x.core = e.core) && s.onCore x.wave).length then .hold s .again
      else
        let refs := (if c.srcScratch.isSome then [] else [c.srcRef]) ++ (if c.dstScratch.isSome then [] else [c.dstRef])
        .writes { s.fillRefs e.core e.dom refs with copies := s.copies ++ [c] } [] .none

/-- COPY (R216). -/
def execCopy (f : MFmt) : State → Host.Outcome State Fault Refusal :=
  issue (.copy f) fun e s =>
    let n := e.readZ f.index e.first
    let src := e.readRef f.ref e.first
    let dst := e.readRef f.data e.first
    match bothOk (e.copyRange s src needR .load n) (e.copyRange s dst needW .store n) with
    | .error (c, v) => .trap c v
    | .ok (se, de) =>
      e.startCopy (.copy f) s
        { e.copyOf (.copy f) f.scope n with srcRef := src, srcEntry := se, dstRef := dst, dstEntry := de }

/-- COPYIN (R216). -/
def execCopyin (f : MFmt) : State → Host.Outcome State Fault Refusal :=
  issue (.copyin f) fun e s =>
    let n := e.readZ f.index e.first
    let src := e.readRef f.immOp e.first
    match bothOk (e.copyRange s src needR .load n) (e.copyScratch (e.readZ f.data e.first) n) with
    | .error (c, v) => .trap c v
    | .ok (se, d) =>
      e.startCopy (.copyin f) s
        { e.copyOf (.copyin f) f.scope n with srcRef := src, srcEntry := se, dstScratch := some d }

/-- COPYOUT (R216). -/
def execCopyout (f : MFmt) : State → Host.Outcome State Fault Refusal :=
  issue (.copyout f) fun e s =>
    let n := e.readZ f.index e.first
    let dst := e.readRef f.immOp e.first
    match bothOk (e.copyScratch (e.readZ f.ref e.first) n) (e.copyRange s dst needW .store n) with
    | .error (c, v) => .trap c v
    | .ok (a, de) =>
      e.startCopy (.copyout f) s
        { e.copyOf (.copyout f) f.scope n with srcScratch := some a, dstRef := dst, dstEntry := de }

/-- COPYT (R216, R450): one of the two objects is a tensor without tag 5 and without 4-bit elements, whose element
size the instruction names; the elements lie within it. -/
def execCopyt (f : MFmt) : State → Host.Outcome State Fault Refusal :=
  issue (.copyt f) fun e s =>
    let n := e.readZ f.index e.first
    let cs := e.coords f.immOp e.first
    let src := e.readRef f.ref e.first
    let dst := e.readRef f.data e.first
    match bothOk (e.copySide s src needR .load cs n) (e.copySide s dst needW .store cs n) with
    | .error (c, v) => .trap c v
    | .ok (se, de) =>
      if (se.kind = 1) = (de.kind = 1) then .trap 0x07 src
      else
        let (te, tref) := if se.kind = 1 then (se, src) else (de, dst)
        let t := s.tensor te
        let size := etypeNibbles t.etype / 2
        if t.layout = 5 ∨ size = 0 ∨ !sizeFits t.etype f.size then .trap 0x07 tref
        else if n % size ≠ 0 then .trap 0x40 (illegalVal (Instr.copyt f).word 0x27)
        else
          e.startCopy (.copyt f) s
            { e.copyOf (.copyt f) f.scope n with srcRef := src, srcEntry := se, dstRef := dst, dstEntry := de,
                                                 coords := cs }

/-! ## Batches (R217, R218) -/

/-- BATCH: close the open batch; with 16 batches open the fragment holds (R217). -/
def execBatch (f : YFmt) : State → Host.Outcome State Fault Refusal :=
  issue (.batch f) fun e s =>
    if e.wave.batchClosed - e.wave.batchDone = 16 then .hold s .again
    else .writes ((s.modWave e.wk fun w => { w with batchClosed := w.batchClosed + 1 }).updateBatches e.wk) [] .none

/-- The batch number a WAITB waits for: its operand, or CLOSED where the operand lies ahead (R218). -/
def Env.batchTarget (e : Env) (f : YFmt) : Word :=
  match e.frag.wait with
  | .batch n _ => n
  | _ =>
    let n : Word := lowWord (e.read .z32 f.op1 e.first)
    if 2 ^ 31 ≤ (e.wave.batchClosed - n).toNat then e.wave.batchClosed else n

/-- Bits of the scope in a wait instruction. -/
def batchScope (f : YFmt) : BitVec 3 := f.imm.extractLsb' 0 3

/-- WAITB (R218): hold until DONE reaches the number, then acquire. -/
def execWaitb (f : YFmt) : State → Host.Outcome State Fault Refusal :=
  issue (.waitb f) fun e s =>
    let n := e.batchTarget f
    if (e.wave.batchDone - n).toNat < 2 ^ 31 then .writes (s.acquireAct e.core (batchScope f)) [] .none
    else .hold s (.batch n (batchScope f))

/-- WAITBN (R218): hold until at most n batches are open, then acquire. -/
def execWaitbn (f : YFmt) : State → Host.Outcome State Fault Refusal :=
  issue (.waitbn f) fun e s =>
    let n : Word := BitVec.ofNat 32 (fieldOf f.imm 4 8)
    if (e.wave.batchClosed - e.wave.batchDone).toNat ≤ n.toNat then
      .writes (s.acquireAct e.core (batchScope f)) [] .none
    else .hold s (.batchN n (batchScope f))

/-- BQUERY (R218). -/
def execBquery (f : YFmt) : State → Host.Outcome State Fault Refusal :=
  issue (.bquery f) fun e s =>
    let x := if f.imm.getLsbD 0 then e.wave.batchDone else e.wave.batchClosed
    .writes s (writeTo .z32 f.op1 e.first (x.zeroExtend 64)) .none

/-! ## The copy engine (R216, R365) -/

/-- Bytes of an element of a tensor that a COPYT moves. -/
def State.elemSize (s : State) (e : ObjEntry) : Nat := max 1 (etypeNibbles (s.tensor e).etype / 2)

/-- One side of a copy is the tensor of a COPYT. -/
def Copy.isTensor (c : Copy) (e : ObjEntry) : Bool := !c.coords.isEmpty && decide (e.kind = 1)

/-- The address of byte i of one side of a copy, or none while it must wait. -/
def State.copyPlace (s : State) (c : Copy) (ref : DWord) (e : ObjEntry) (i : Nat) : Option Nat :=
  if c.isTensor e then
    let t := s.tensor e
    let x := t.coordsAt (t.linear c.coords + i / s.elemSize e)
    (s.elemAddr c.dom.toNat e (x.getD 0 0) (x.getD 1 0) (x.getD 2 0) (x.getD 3 0)).map fun p => p.1 + i % s.elemSize e
  else if s.converting e then none
  else s.residentAddr c.dom.toNat e (refOffset ref + i) 1

/-- Granules that byte i of one side of a copy still needs. -/
def State.copyMissing (s : State) (c : Copy) (ref : DWord) (e : ObjEntry) (i : Nat) : List Need :=
  if c.isTensor e then
    let t := s.tensor e
    s.elemMissing c.dom.toNat (refIndex ref) e [t.coordsAt (t.linear c.coords + i / s.elemSize e)]
  else s.missing c.dom.toNat (refIndex ref) e (refOffset ref + i) 1

/-- The byte offset of byte i of one side of a copy, for the use order and the ranges. -/
def State.copyOffset (s : State) (c : Copy) (ref : DWord) (e : ObjEntry) (i : Nat) : Nat :=
  if c.isTensor e then
    let t := s.tensor e
    let x := t.coordsAt (t.linear c.coords + i / s.elemSize e)
    t.nibble t.layout (x.getD 0 0) (x.getD 1 0) (x.getD 2 0) (x.getD 3 0) / 2 + i % s.elemSize e
  else refOffset ref + i

/-- Where a copy's destination begins within a 128-byte line; the elements of a tensor are counted from 0 on (R365). -/
def Copy.start (c : Copy) : Nat :=
  match c.dstScratch with
  | some (_, a) => a % 128
  | none => if c.isTensor c.dstEntry then 0 else refOffset c.dstRef % 128

/-- The number of a copy's destination lines. -/
def Copy.lineCount (c : Copy) : Nat := (c.start + c.bytes + 127) / 128

/-- The bytes of the copy that lie in its destination line j. -/
def Copy.bytesOf (c : Copy) (j : Nat) : List Nat :=
  let first := 128 * j - c.start
  (List.range (min c.bytes (128 * (j + 1) - c.start) - first)).map (first + ·)

/-- Source and destination may overlap: the engine then carries the copy out at once (R216, R365). -/
def State.copyOverlaps (s : State) (c : Copy) : Bool :=
  match c.srcScratch, c.dstScratch with
  | none, none =>
    let frames (ref : DWord) (e : ObjEntry) : List Nat :=
      (granulesOf (refOffset ref) c.bytes).map fun g => s.addrOf c.dom.toNat e (65536 * g)
    decide (refIndex c.srcRef = refIndex c.dstRef) ||
      (c.coords.isEmpty && (frames c.srcRef c.srcEntry).any fun a => (frames c.dstRef c.dstEntry).contains a)
  | _, _ => false

/-- A byte of a copy: its index, the addresses of its source and destination, 0 for a scratchpad's. -/
def State.copyByte (s : State) (c : Copy) (i : Nat) : Option (Nat × Nat × Nat) :=
  let side (scratch : Option (Nat × Nat)) (ref : DWord) (e : ObjEntry) : Option Nat :=
    if scratch.isSome then some 0 else s.copyPlace c ref e i
  match side c.srcScratch c.srcRef c.srcEntry, side c.dstScratch c.dstRef c.dstEntry with
  | some p, some q => some (i, p, q)
  | _, _ => none

/-- Granules that bytes of a copy still need. -/
def State.copyNeeds (s : State) (c : Copy) (is : List Nat) : List Need :=
  (is.flatMap fun i =>
    (if c.srcScratch.isSome then [] else s.copyMissing c c.srcRef c.srcEntry i) ++
      (if c.dstScratch.isSome then [] else s.copyMissing c c.dstRef c.dstEntry i)).eraseDups

/-- Note a copy's accesses for the use order and the ranges of its launch (R192, R193). -/
def State.noteCopy (s : State) (c : Copy) (is : List Nat) : State :=
  let note (s : State) (scratch : Option (Nat × Nat)) (ref : DWord) (e : ObjEntry) : State :=
    if scratch.isSome then s
    else s.noteOffsets (s.launchOf c.wave) c.dom.toNat (refIndex ref) (is.map (s.copyOffset c ref e)) c.waited
  note (note s c.srcScratch c.srcRef c.srcEntry) c.dstScratch c.dstRef c.dstEntry

/-- Write bytes of a copy, each with its index, to its destination: scratchpad bytes, or memory with the poison that
their sources carry (R462). -/
def State.copyOut (s : State) (c : Copy) (xs : List ((Nat × Nat × Nat) × Byte)) (bad : List Nat) : State :=
  match c.dstScratch with
  | some (g, a) => xs.foldl (fun s x => s.setScratch g (a + x.1.1) x.2) s
  | none => s.engineWrite c.core (xs.map fun x => (x.1.2.2, x.2)) bad

/-- Carry out lines of a copy whose bytes can be had; their sources are read before anything is written (R216). -/
def State.copyLines (s : State) (c : Copy) (xs : List (Nat × Nat × Nat)) : State :=
  let byte (x : Nat × Nat × Nat) : Byte :=
    match c.srcScratch with
    | some (g, a) => s.scratchByte g (a + x.1)
    | none => s.portByte (dieOf c.core) x.2.1
  let bad := if c.srcScratch.isSome then [] else (xs.filter fun x => s.portPoisoned (dieOf c.core) x.2.1).map fun x => x.2.2
  (s.copyOut c (xs.map fun x => (x, byte x)) bad).noteCopy c (xs.map fun x => x.1)

/-- Bytes of a copy lie where its objects cannot be read (R454, R471). -/
def State.copyUnreadable (s : State) (c : Copy) (is : List Nat) : Bool :=
  (c.srcScratch.isNone && s.objectUnreadable c.srcEntry (is.map (s.copyOffset c c.srcRef c.srcEntry))) ||
    (c.dstScratch.isNone && s.objectUnreadable c.dstEntry (is.map (s.copyOffset c c.dstRef c.dstEntry)))

/-- COPY_COMPLETE: after the earlier accesses of its slices a copy carries out every line whose bytes can be had, at once
where source and destination overlap. With its last line its writes are performed at its scope, and its batch may
complete (R216, R217, R365). Needed granules are asked for; one that fails kills the launch (R458). A copy of a
workgroup that is not on a core waits. -/
def execCopyComplete (n : Nat) (s : State) : Host.Outcome State Fault Refusal :=
  match s.copies[n]? with
  | none => .next s
  | some c =>
    if !s.onCore c.wave then .next s
    else
      let left := (List.range c.lineCount).filter fun j => !c.lines.getLsbD j
      let met := left.map fun j => (j, (c.bytesOf j).map (s.copyByte c))
      let whole (x : Nat × List (Option (Nat × Nat × Nat))) : Bool := x.2.all fun b => b.isSome
      let ready := if s.copyOverlaps c && !met.all whole then [] else met.filter whole
      let xs := (ready.flatMap fun x => x.2).filterMap fun b => b
      if s.copyUnreadable c (left.flatMap c.bytesOf) then .next (s.engineDamage c.wave c.pc)
      else if (c.srcScratch.isNone && s.noTranslation c.dom.toNat false (xs.map fun x => x.2.1)) ||
          (c.dstScratch.isNone && s.noTranslation c.dom.toNat true (xs.map fun x => x.2.2)) then
        .next (s.engineKill c.wave c.pc 9 0x08)
      else
        let s := s.drainStores (ofSlices c.wave c.slices)
        if c.dstScratch.isSome && c.srcScratch.isNone && xs.any fun x => s.portPoisoned (dieOf c.core) x.2.1 then .next (s.engineDamage c.wave c.pc)
        else
          let t := s.copyLines c xs
          if ready.length = left.length then
            .next ({ t.releaseAct c.core c.scope with copies := t.copies.eraseIdx n }.updateBatches c.wave)
          else
            let c' := { c with lines := ready.foldl (fun m x => m ||| BitVec.ofNat 513 (2 ^ x.1)) c.lines, waited := true }
            let needs := t.copyNeeds c (left.flatMap c.bytesOf)
            if s.needsFail needs then .next (s.engineKill c.wave c.pc 9 0x06)
            else .next (State.requestNeeds { t with copies := t.copies.set n c' } (dieOf c.core) (t.launchOf c.wave) needs)

end Sys2Proof.Machine
end

