-- ==== Sys2Proof/Machine/Reference.lean ====
section
/-!
DEFINITION. Class 0xC: references as data, object and tensor queries, relayout (R219 to R223), and the start of a
conversion (R197).
-/

namespace Sys2Proof.Machine

/-! ## References as data (R220) -/

/-- A reference result in each lane that executes. DESIGN CHOICE (log 119): in a scalar destination the highest lane's stands, where a
per-lane special operand makes them differ. -/
def Env.refWrites (e : Env) (d : Operand) (f : Nat → DWord) : List RegWrite :=
  (lanesOf e.lanes).flatMap fun l => writeTo .z64 d l (f l)

/-- A 32-bit result in each lane that executes. -/
def Env.wordWrites (e : Env) (d : Operand) (f : Nat → Nat) : List RegWrite :=
  (lanesOf e.lanes).flatMap fun l => writeTo .z32 d l (BitVec.ofNat 64 (f l % 2 ^ 32))

/-- A rights operand: its bits [3:0]. -/
def Env.rights (e : Env) (o : Operand) (lane : Nat) : BitVec 4 := BitVec.ofNat 4 (e.readZ o lane)

/-- DERIVE (R220). -/
def execDerive (f : VFmt) : State → Host.Outcome State Fault Refusal :=
  issue (.derive f) fun e s =>
    .writes s (e.refWrites f.d fun l => mkRef (e.readZ f.a l) (e.rights f.b l) 0) .none

/-- NARROW (R220). -/
def execNarrow (f : VFmt) : State → Host.Outcome State Fault Refusal :=
  issue (.narrow f) fun e s =>
    .writes s (e.refWrites f.d fun l =>
      let r := e.readRef f.a l
      mkRef (refIndex r) (refRights r &&& e.rights f.b l) (refOffset r)) .none

/-- REFADD (R220). -/
def execRefadd (f : VFmt) : State → Host.Outcome State Fault Refusal :=
  issue (.refadd f) fun e s =>
    .writes s (e.refWrites f.d fun l =>
      let r := e.readRef f.a l
      byteTval r (refOffset r + f.ty.value (e.read f.ty f.b l).toNat)) .none

/-- REFOFF (R220). -/
def execRefoff (f : VFmt) : State → Host.Outcome State Fault Refusal :=
  issue (.refoff f) fun e s =>
    .writes s ((lanesOf e.lanes).flatMap fun l =>
      writeTo f.ty f.d l (BitVec.ofNat 64 (refOffset (e.readRef f.a l) % 2 ^ f.ty.width))) .none

/-- REFSET (R220). -/
def execRefset (f : VFmt) : State → Host.Outcome State Fault Refusal :=
  issue (.refset f) fun e s =>
    .writes s (e.refWrites f.d fun l => withOffset (e.readRef f.a l) ((e.read f.ty f.b l).toNat % 2 ^ 42)) .none

/-- The relation of REFCMP (R220). -/
def refRelation (cond : Nat) (a b : DWord) : Bool :=
  match cond with
  | 0 => decide (refIndex a = refIndex b)
  | 1 => decide (a = b)
  | 2 => decide (refIndex a = refIndex b ∧ refOffset a < refOffset b)
  | _ => decide (refIndex a = refIndex b ∧ refOffset a ≤ refOffset b)

/-- REFCMP (R220). -/
def execRefcmp (f : VFmt) : State → Host.Outcome State Fault Refusal :=
  issue (.refcmp f) fun e s =>
    .writes s ((lanesOf e.lanes).flatMap fun l =>
      writeP f.d l (refRelation f.rnd.toNat (e.readRef f.a l) (e.readRef f.b l))) .none

/-- Steps 1, 2, 3 and 5 of R178 pass for a byte-addressed access (R220): a store or an atomic where the rights name
write or atomic, else a load. -/
def Env.refOk (e : Env) (s : State) (ref : DWord) (need : BitVec 4) (n : Nat) : Bool :=
  let rule : KindRule := if (need &&& 5) = 0 then .load else .store
  match s.checkObject e.core e.dom ref need rule (refOffset ref) n with
  | .error _ => false
  | .ok entry => decide (refOffset ref + n ≤ entry.length)

/-- REFCHK (R220). -/
def execRefchk (f : VFmt) : State → Host.Outcome State Fault Refusal :=
  issue (.refchk f) fun e s =>
    .writes s ((lanesOf e.lanes).flatMap fun l =>
      writeP f.d l (e.refOk s (e.readRef f.a l) (e.rights f.b l) (e.readZ f.c l))) .none

/-! ## Queries (R221, R222) -/

/-- The entry of a reference that passes step 1 of R178. -/
def Env.entryOf (e : Env) (s : State) (ref : DWord) : Option ObjEntry :=
  match s.checkObject e.core e.dom ref needNone .any 0 0 with
  | .ok entry => some entry
  | .error _ => none

/-- OBJQ's value (R221). -/
def objqValue (entry : ObjEntry) (ref : DWord) (sel : Nat) : Nat :=
  match sel with
  | 0 => entry.length % 2 ^ 32
  | 1 => entry.length / 2 ^ 32
  | 2 => 2 ^ 31 + (if entry.pinned then 2 ^ 16 else 0) + fieldOf entry.w0 48 4 * 2 ^ 12 +
      ((entry.rights &&& (refRights ref ++ 1#1)).toNat) * 2 ^ 4 + entry.kind
  | _ => 0

/-- OBJQ (R221). -/
def execObjq (f : VFmt) : State → Host.Outcome State Fault Refusal :=
  issue (.objq f) fun e s =>
    .writes s (e.wordWrites f.d fun l =>
      let ref := e.readRef f.a l
      match e.entryOf s ref with
      | some entry => objqValue entry ref (e.readZ f.b l)
      | none => 0) .none

/-- TDESC's value (R221). -/
def tdescValue (entry : ObjEntry) (t : Tensor) (sel : Nat) : Nat :=
  if entry.kind ≠ 1 then 0
  else
    match sel with
    | 0 => fieldOf entry.w0 48 4 * 2 ^ 8 + t.etype * 2 ^ 4 + t.rank
    | 1 | 2 | 3 | 4 => t.dim (sel - 1)
    | _ => 0

/-- TDESC (R221). -/
def execTdesc (f : VFmt) : State → Host.Outcome State Fault Refusal :=
  issue (.tdesc f) fun e s =>
    .writes s (e.wordWrites f.d fun l =>
      match e.entryOf s (e.readRef f.a l) with
      | some entry => tdescValue entry (s.tensor entry) (e.readZ f.b l)
      | none => 0) .none

/-- A lane's TADDR: step 1, step 2 for a tensor and step 5 of R178, then the element's place in the entry's layout, in
bytes, or in nibbles for 4-bit elements (R222). -/
def Env.taddr (e : Env) (s : State) (f : VFmt) (lane : Nat) : Except (Nat × DWord) DWord :=
  let ref := e.readRef f.a lane
  match s.checkObject e.core e.dom ref needNone .tensor 0 0 with
  | .error c => .error (c, ref)
  | .ok entry =>
    let t := s.tensor entry
    let cs := e.coords f.c lane
    if !t.inside cs then .error (0x05, ref)
    else
      let p := t.nibble t.layout (cs.getD 0 0) (cs.getD 1 0) (cs.getD 2 0) (cs.getD 3 0)
      .ok (BitVec.ofNat 64 (if etypeNibbles t.etype = 1 then p else p / 2))

/-- TADDR (R222). -/
def execTaddr (f : VFmt) : State → Host.Outcome State Fault Refusal :=
  issue (.taddr f) fun e s =>
    let rs := (lanesOf e.lanes).map fun l => (l, e.taddr s f l)
    match rs.findSome? fun r => match r.2 with
      | .error c => some c
      | .ok _ => none with
    | some (c, v) => .trap c v
    | none => .writes s (rs.flatMap fun r => match r.2 with
      | .ok x => writeTo .z64 f.d r.1 x
      | .error _ => []) .none

/-! ## Relayout (R197, R223) -/

/-- Granules of n bytes of an object from its first. -/
def granuleCount (n : Nat) : Nat := (n + 65535) / 65536

/-- Requests for granules of an extent map go on as requests for granules of the conversion's source (R191, R197 step 1). -/
def State.requestsOfSource (s : State) (e : ObjEntry) : State :=
  { s with requests := s.requests.map fun q => (q.1, q.2.map fun r =>
      if r.entry.extroot = e.extroot ∧ r.granule < sourceBase then { r with granule := sourceBase + r.granule } else r) }

/-- Start the conversion of a tensor to a layout (R197 step 1): earlier stores to it are performed, the granules of its
CURRENT layout become the source, no target granule has a frame, the bitmap is clear, PEND is set, and the entry
names the target. The entry's change is seen by every object cache (R177). -/
def State.startConversion (s : State) (die dom index : Nat) (e : ObjEntry) (tag : Nat) : State :=
  let s := s.drainStores fun p => decide (p.acc.dom.toNat = dom ∧ refIndex p.acc.ref = index)
  let t := s.tensor e
  let source := (List.range (granuleCount e.length)).foldl
    (fun m g => SMap.set 0 m g (s.granuleWord e.extroot g)) []
  let size := t.sizeOf tag
  let tiles := (size + 4095) / 4096
  let s := (List.range (max (granuleCount e.length) (granuleCount size))).foldl
    (fun s g => s.setGranule e.extroot g (mkGranule 3 false false 0)) s
  let s := s.setBytes t.bitmap (List.replicate ((tiles + 7) / 8) 0)
  let w := s.word64 t.addr
  let s := s.setWord64 t.addr ((w &&& ~~~(0x1F000#64)) ||| BitVec.ofNat 64 (0x10000 + tag * 0x1000))
  let s := s.setWord64 (t.addr + 32) (BitVec.ofNat 64 tiles)
  let a := s.entryAddr dom index
  let w0 := s.word64 a
  let s := s.setWord64 a ((w0 &&& ~~~(0x000F03FFFFFFFFFF#64)) ||| BitVec.ofNat 64 (tag * 2 ^ 48 + size))
  { (s.dropEntry dom index).requestsOfSource e with
    convs := s.convs ++ [⟨BitVec.ofNat 2 die, t.addr, BitVec.ofNat 16 dom, index, source, e.length, e.extroot, false⟩] }

/-- The layout tag may be asked for (R72, R196). -/
def Tensor.relayoutOk (t : Tensor) (tag : Nat) : Bool := t.admits tag && ((t.layout == 5) == (tag == 5))

/-- QV and QLAYOUT of a descriptor. -/
def State.queueLayout (s : State) (t : Tensor) (qv : Bool) (tag : Nat) : State :=
  s.setWord64 t.addr ((s.word64 t.addr &&& ~~~(0x1F00000#64)) |||
    BitVec.ofNat 64 ((if qv then 0x1000000 else 0) + tag * 0x100000))

/-- A request reaches a descriptor (R223). -/
def State.relayout (s : State) (die dom index : Nat) (e : ObjEntry) (tag : Nat) : State :=
  let t := s.tensor e
  if !t.pend then if tag = t.current then s else s.startConversion die dom index e tag
  else if !t.qv then if tag = t.target then s else s.queueLayout t true tag
  else if tag = t.target then s.queueLayout t false t.qlayout
  else s.queueLayout t true tag

/-- The extent map of an object names a frame on another package (R470). -/
def State.foreignFrames (s : State) (e : ObjEntry) : Bool :=
  (List.range (granuleCount e.length)).any fun g =>
    let w := s.granuleWord e.extroot g
    granPresent w && decide (granTier w < 2) && onOtherPackage (granFrame w * 65536)

/-- RELAYOUT (R223, R450, R470). -/
def execRelayout (f : VFmt) : State → Host.Outcome State Fault Refusal :=
  issue (.relayout f) fun e s =>
    let ref := e.readRef f.a e.first
    let tag := e.readZ f.b e.first
    match s.checkObject e.core e.dom ref needW (.only 1) 0 0 with
    | .error c => .trap c ref
    | .ok entry =>
      if !(s.tensor entry).relayoutOk tag then .trap 0x40 (illegalVal (Instr.relayout f).word 0x27)
      else if s.foreignFrames entry then .trap 0x07 ref
      else .writes (s.relayout (dieOf e.core) e.dom (refIndex ref) (s.tableEntry e.dom (refIndex ref)) tag) [] .none

/-- RLWAIT (R223): a wait for the conversion, which may fail (R458). -/
def execRlwait (f : VFmt) : State → Host.Outcome State Fault Refusal :=
  issue (.rlwait f) fun e s =>
    let ref := e.readRef f.a e.first
    match s.checkObject e.core e.dom ref needR (.only 1) 0 0 with
    | .error c => .trap c ref
    | .ok entry =>
      if !s.converting entry then .writes s [] .none
      else if s.tensorDamaged entry then .trap 0x09 ref
      else if s.convDead entry then .trap 0x06 ref
      else .hold s (.conversion entry.tdesc)

end Sys2Proof.Machine
end

