-- ==== Sys2Proof/Machine/Residency.lean ====
section
/-!
DEFINITION. The migration engine: eviction (R192), the move of a granule (R191), what its arrival sets free, and the
failure of a request (R457, R458).
-/

namespace Sys2Proof.Machine

/-! ## Moving bytes -/

/-- No byte of a range is listed: it reads 0. -/
def State.clearRange (s : State) (a n : Nat) : State :=
  let out (x : Nat) : Bool := !decide (a ≤ x ∧ x < a + n)
  let s := if a < hostBase then { s with mem := s.mem.filter fun c => out c.1 }
    else { s with hostMem := s.hostMem.filter fun c => out (c.1 + hostBase) }
  { s with poison := s.poison.filter fun x => out (32 * x.1) }

/-- Copy a granule from one address to another, with its poison, which is counted (R461, R463). -/
def State.copyGranule (s : State) (src dst : Nat) : State :=
  let cells : List (Nat × Byte) :=
    if src < hostBase then s.mem.filter fun c => decide (src ≤ c.1 ∧ c.1 < src + 65536)
    else (s.hostMem.filter fun c => decide (src ≤ c.1 + hostBase ∧ c.1 + hostBase < src + 65536)).map fun c =>
      (c.1 + hostBase, c.2)
  let bad := (s.poison.filter fun x => decide (src ≤ 32 * x.1 ∧ 32 * x.1 < src + 65536)).map fun x => x.1
  let s := cells.foldl (fun s c => s.setByte (dst + (c.1 - src)) c.2) (s.clearRange dst 65536)
  bad.foldl (fun s k => s.poisonSector (dst / 32 + (k - src / 32))) s

/-- Write back and invalidate the lines of a range in every L1 and texel cache, every remote data cache and the L2
(R191). -/
def State.dropLines (s : State) (a n : Nat) : State :=
  let out (k : Nat) : Bool := !decide (a ≤ 128 * k ∧ 128 * k < a + n)
  let keep (m : SMap (List (Nat × Line))) : SMap (List (Nat × Line)) :=
    m.map fun x => (x.1, x.2.filter fun l => out l.1)
  let s := { s with l1 := keep s.l1, texel := keep s.texel }
  ((List.range 4).foldl (fun s d => s.dropRemote d fun k => !out k) s).keepL2 fun b => out (4 * b)

/-- Writes in flight to a granule are performed (R191 step 2). -/
def State.drainGranule (s : State) (dom index g : Nat) : State :=
  s.drainStores fun p => decide (p.acc.dom.toNat = dom ∧ refIndex p.acc.ref = index) && (s.accGranules p.acc).contains g

/-- Address of the frame that a granule word of a domain names. -/
def State.frameAddr (s : State) (dom : Nat) (w : DWord) : Nat :=
  if granTier w = 2 then hostBase * (1 + s.pasid dom) + granFrame w * 65536 else granFrame w * 65536

/-! ## Eviction (R192) -/

/-- The reuse class of a granule of an object: that of the lowest-numbered range of a launch that covers some of it
(R193). -/
def State.classOf (s : State) (dom index g : Nat) : Option (Nat × Nat × Nat) :=
  s.launches.findSome? fun x =>
    if x.2.ended then none
    else (x.2.rangeOfGranule dom index g).bind fun r => (x.2.ranges[r]?).map fun y => (x.1, r, y.2.2.2)

/-- Eviction rank: class 0 ranks as class 8 (R193). -/
def State.rankOf (s : State) (dom index g : Nat) : Nat :=
  match s.classOf dom index g with
  | some (_, _, 0) => 8
  | some (_, _, c) => c
  | none => 8

/-- Age in the use order: 0 for a granule no access has used. -/
def State.ageOf (s : State) (dom index g : Nat) : Nat :=
  match s.useOrder.findIdx? fun x => x == (dom, index, g) with
  | some i => i + 1
  | none => 0

/-- The records of a table of n records of `size` bytes at `base` that hold a byte other than 0, in ascending order. -/
def State.listed (s : State) (base size n : Nat) : List Nat :=
  (s.mem.foldl (fun acc c =>
    let k := (c.1 - base) / size
    if base ≤ c.1 ∧ c.1 < base + size * n ∧ acc.head? ≠ some k then k :: acc else acc) []).reverse

/-- The resident granules in HBM frames of a die of unpinned objects. Descriptors and entries whose bytes are all 0 are
not valid. -/
def State.evictable (s : State) (die : Nat) : List Need :=
  ((s.listed s.domBase 16 65536).filter s.domValid).flatMap fun d =>
    ((s.listed (s.otBase d) 32 (s.otCount d)).filter fun i => decide (i ≠ 0) && (s.tableEntry d i).valid && !(s.tableEntry d i).pinned).flatMap fun i =>
      let e := s.tableEntry d i
      ((List.range (granuleCount e.length)).filter fun g =>
        let w := s.granuleWord e.extroot g
        granResident e w && decide (homeDie (granFrame w * 65536) = die)).map fun g => (d, i, e, g)

/-- A free frame in the tier to which an evicted granule goes: its tier, frame and the state without it (R192). The
frames of a list are those of the evicting die. DESIGN CHOICE (log 128): a host frame that ATS does not translate for writing
takes no granule. -/
def State.evictionFrame (s : State) (die dom : Nat) (e : ObjEntry) : Option (Nat × Nat × State) :=
  let second := (s.takeFrom die inSecondTier).map fun x => (1, x.1, x.2)
  let host := (s.takeFrom (16 + s.pasid dom) fun f => Config.translates (s.pasid dom) f true s.tick).map fun x => (2, x.1, x.2)
  match e.home with
  | 0 => second.or host
  | 1 => second
  | _ => host

/-- Evict the granule of lowest rank, and among equals the least recently used, that some tier can take (R192). -/
def State.evict (s : State) (die : Nat) : Option State :=
  let better (a b : Need) : Bool :=
    let ra := s.rankOf a.1 a.2.1 a.2.2.2
    let rb := s.rankOf b.1 b.2.1 b.2.2.2
    decide (ra < rb ∨ (ra = rb ∧ s.ageOf a.1 a.2.1 a.2.2.2 < s.ageOf b.1 b.2.1 b.2.2.2))
  let best := ((s.evictable die).filter fun n => (s.evictionFrame die n.1 n.2.2.1).isSome).foldl (fun m n =>
    match m with
    | none => some n
    | some x => if better n x then some n else m) none
  match best with
  | none => none
  | some (d, i, e, g) =>
    let s := s.drainGranule d i g
    match s.evictionFrame die d e with
    | none => none
    | some (tier, frame, t) =>
      let w := t.granuleWord e.extroot g
      let new := mkGranule tier true false frame
      let t := (t.dropLines (granFrame w * 65536) 65536).copyGranule (granFrame w * 65536) (t.frameAddr d new)
      let t := (t.setGranule e.extroot g new).returnFrame (granFrame w)
      match t.classOf d i g with
      | some (n, r, 15) =>
        let first := ((t.launches.find? n).bind fun la => la.ranges[r]?).map fun x => x.2.1 / 65536
        some (t.report n r 2 0 (g - first.getD 0))
      | _ => some t

/-- A free HBM frame of a die, after an eviction where the list holds none. -/
def State.getFrame (s : State) (die : Nat) : Option (Nat × State) :=
  match s.takeFrame die with
  | some x => some x
  | none => (s.evict die).bind fun t => t.takeFrame die

/-! ## The move of a granule (R191) -/

/-- The next three granules of a class 1 range are fetched with a missed one (R193). -/
def State.streamAhead (s : State) (die : Nat) (r : GranReq) : State :=
  match if r.ahead then none else s.classOf r.dom.toNat r.index r.granule with
  | some (n, k, 1) =>
    match (s.launches.find? n).bind fun la => la.ranges[k]? with
    | some x => [1, 2, 3].foldl (fun s j =>
        let g := r.granule + j
        if 65536 * g < x.2.1 + x.2.2.1 ∧ !s.granUsable r.entry (s.granuleWord r.entry.extroot g) then
          s.queueRequest die r.dom.toNat r.index r.entry g r.launch true
        else s) s
    | none => s
  | _ => s

/-- A granule starts to move into a frame: MOVING is set, and what the caches and the write paths hold of it is waited for and
dropped (R191 steps 1 to 3). `i` is the place of its request in its die's queue. -/
def State.startMove (s : State) (die i : Nat) (r : GranReq) (frame : Nat) : State :=
  let t := s.drainGranule r.dom.toNat r.index r.granule
  let w := t.needWord r.entry r.granule
  let t := if granPresent w && granTier w != 2 then t.dropLines (granFrame w * 65536) 65536 else t
  let t := t.setNeed r.entry r.granule (mkGranule (granTier w) (granPresent w) true (granFrame w))
  let q := SMap.get [] t.requests die
  { t with requests := SMap.set [] t.requests die (q.set i { r with moving := some frame }) }.streamAhead die r

/-! ## What an arrival sets free -/

/-- Replay the parked accesses of every wave on a core (R190). -/
def State.replayParked (s : State) : State :=
  let all := s.waves.flatMap fun x =>
    if s.onCore x.1 then (x.2.pend.filter fun p => p.kind == .access).map fun p => (x.1, p.id) else []
  all.foldl (fun s x =>
    match (s.waves.find? x.1).bind fun w => w.pend.find? fun p => p.id == x.2 with
    | some p => s.replay x.1 p
    | none => s) s

/-- Queues that wait on residency look again at their lane's next turn (R351, R458). -/
def State.rearmQueues (s : State) : State :=
  { s with queues := s.queues.map fun q => (q.1, { q.2 with resWait := false }) }

/-- What waits for granules or conversions is tried again: parked accesses, signal writes, queues, commit tokens. -/
def State.retryWaiters (s : State) : State :=
  let s := s.replayParked.retrySignals.rearmQueues
  (s.launches.map fun x => x.1).foldl State.passTokens s

/-- Note that a granule of a range has been brought in; a second time contradicts class 1 (R193). -/
def State.noteFetched (s : State) (dom index g : Nat) : State :=
  s.launches.foldl (fun s x =>
    match (s.launches.find? x.1).bind fun la => (la.rangeOfGranule dom index g).map fun r => (la, r) with
    | none => s
    | some (la, r) =>
      let again := la.rangeFetched.contains (r, g)
      let cls := ((la.ranges[r]?).map fun y => y.2.2.2).getD 0
      let first := ((la.ranges[r]?).map fun y => y.2.1 / 65536).getD 0
      let s := if again then s
        else { s with launches := s.launches.modify x.1 fun la => { la with rangeFetched := la.rangeFetched ++ [(r, g)] } }
      if again && cls == 1 && !la.ended then s.report x.1 r 1 0 (g - first) else s) s

/-- GRANULE_ARRIVAL: a granule's copy into its frame ends, or zeros are written where it had no backing; its entry
names the frame and what waited on it goes on (R191 steps 4 to 6). -/
def execGranuleArrival (die : BitVec 2) (move : Nat) (s : State) : Host.Outcome State Fault Refusal :=
  if s.halted then .next s
  else
  let q := SMap.get [] s.requests die.toNat
  match q[move]? with
  | none => .next s
  | some r =>
    match r.moving with
    | none => .next s
    | some frame =>
      let w := s.needWord r.entry r.granule
      let dst := frame * 65536
      let s := if granTier w = 3 then s.clearRange dst 65536 else s.copyGranule (s.frameAddr r.dom.toNat w) dst
      let s := (s.setNeed r.entry r.granule (mkGranule 0 true false frame)).returnGranule r.dom.toNat w
      let s := { s with requests := SMap.set [] s.requests die.toNat (q.eraseIdx move) }
      let s := s.touch r.dom.toNat r.index r.granule
      .next ((s.noteFetched r.dom.toNat r.index r.granule).retryWaiters)

/-! ## Failure of a wait (R457, R458) -/

/-- The access waits for a granule. -/
def State.waitsGranule (s : State) (a : Acc) (dom index g : Nat) : Bool :=
  decide (a.dom.toNat = dom ∧ refIndex a.ref = index) && !s.waitsConversion a && (s.accGranules a).contains g

/-- The parked accesses that satisfy p fail: the cause for the lowest such lane, which TVAL names as R453 gives it (R458,
R468). -/
def State.failParked (s : State) (c : LateCause) (p : State → Acc → Bool) : State :=
  let all := s.waves.flatMap fun x =>
    if s.onCore x.1 then
      x.2.pend.filterMap fun q => if q.kind != .result && q.accs.any (p s) then some (x.1, q.id) else none
    else []
  all.foldl (fun s x =>
    match (s.waves.find? x.1).bind fun w => w.pend.find? fun q => q.id == x.2 with
    | some q => (match q.accs.find? (p s) with
      | some a => s.lateTrap x.1 q c (if q.kind == .access then accTval a else a.ref)
      | none => s)
    | none => s) s

/-- An instruction that holds its fragment for a granule or a conversion raises the cause (R458, R468); a halted wave finds the
condition when it runs on (R488). -/
def State.failHolders (s : State) (c : LateCause) (p : Wait → Option DWord) : State :=
  let all := s.waves.flatMap fun x =>
    if s.onCore x.1 && !x.2.halted && x.2.halting.isNone then x.2.frags.filterMap fun f => (p f.wait).map fun v => (x.1, f.id, v) else []
  all.foldl (fun s x =>
    match (s.waves.find? x.1).bind fun w => (w.frag? x.2.1).bind fun f => w.fragPc f with
    | some pc => (s.enterTrap x.1 x.2.1 (lateCode c) pc pc x.2.2).settle x.1 x.2.1 none false
    | none => s) s

/-- Kill the launches of engine operations that wait for a granule or conversion: REASON 9 with the cause (R458, R468). -/
def State.failEngines (s : State) (c : LateCause) (ops : List (Nat × CodeAddr)) : State :=
  ops.foldl (fun s x => s.engineKill x.1 x.2 9 (lateCode c)) s

/-- An uncounted write that a wave's trap entry still owes fails: its context is killed (R458). -/
def State.failRecords (s : State) (c : LateCause) (p : State → Acc → Bool) : State :=
  ((s.storeQ.filter fun x => !s.storeReady x && p s x.acc).map fun x => x.agent.wave).eraseDups.foldl (fun s wk =>
    match s.waves.find? wk with
    | none => s
    | some w =>
      match s.workgroups.find? w.wg with
      | none => s
      | some wg =>
        match s.launches.find? wg.launch with
        | none => s
        | some la =>
          let b := w.bank w.tl
          s.killContext la.ctx.toNat (waveFault w wg la 1 9 (lateCode c) w.tl (b.ret.extractLsb' 0 39) b.val)) s

end Sys2Proof.Machine
end

