-- ==== Sys2Proof/Machine/System.lean ====
section
/-!
DEFINITION. Class 0xB: special registers, traps and returns, hints, regions, breakpoints, clocks (R337 to R343).
-/

namespace Sys2Proof.Machine

/-! ## Special registers (R55 to R64) -/

/-- The REGION register (R63). -/
def Wave.regionWord (w : Wave) : Word :=
  BitVec.ofNat 32 (w.regions.length * 65536 + (w.regions.headD 0).toNat)

/-- A special register of a wave; `slice` is the one whose clock latch is read, `lane` the one of LANE and SLICE. -/
def specialRead (w : Wave) (wg : Workgroup) (la : Launch) (counter : DWord) (slice lane n : Nat) : DWord :=
  let coord (p : Special) : DWord := BitVec.ofNat 64 (specialValue w wg la p lane)
  match n with
  | 0x000 => w.mode.zeroExtend 64
  | 0x001 => w.status.zeroExtend 64
  | 0x002 => w.dom.zeroExtend 64
  | 0x003 => w.regionWord.zeroExtend 64
  | 0x010 => w.tvec
  | 0x011 => w.tsave
  | 0x020 => w.bank1.cause.zeroExtend 64
  | 0x021 => w.bank1.ret
  | 0x022 => w.bank1.stat.zeroExtend 64
  | 0x023 => w.bank1.val
  | 0x028 => w.bank2.cause.zeroExtend 64
  | 0x029 => w.bank2.ret
  | 0x02A => w.bank2.stat.zeroExtend 64
  | 0x02B => w.bank2.val
  | 0x040 => (lowWord counter).zeroExtend 64
  | 0x041 => (SMap.get 0 w.clockHi slice).zeroExtend 64
  | 0x080 => coord .lane
  | 0x081 => coord .slice
  | 0x082 => coord .wave
  | 0x083 => coord .wgx
  | 0x084 => coord .wgy
  | 0x085 => coord .wgz
  | 0x086 => coord .crank
  | 0x087 => coord .stage
  | _ => 0

/-- MODE after a write: DET and reserved fields keep, RM 0 and 7 store 1 (R57, R58, R9). -/
def writeMode (old x : Word) : Word :=
  let rm := fieldOf x 0 3
  let rm := if rm = 0 ∨ rm = 7 then 1 else rm
  (old &&& 0x01000000#32) ||| (x &&& 0x00FFFF18#32) ||| BitVec.ofNat 32 rm

/-- Write a special register; TCAUSE keeps its assigned bits, while TRET and TSTAT hold what RETT will test
(R9, R55, R60, R61). -/
def Wave.writeSpecial (w : Wave) (n : Nat) (x : DWord) : Wave :=
  match n with
  | 0x000 => { w with mode := writeMode w.mode (lowWord x) }
  | 0x010 => { w with tvec := x }
  | 0x011 => { w with tsave := x }
  | 0x020 => { w with bank1 := { w.bank1 with cause := lowWord x &&& 0x1FFF#32 } }
  | 0x021 => { w with bank1 := { w.bank1 with ret := x } }
  | 0x022 => { w with bank1 := { w.bank1 with stat := lowWord x } }
  | 0x023 => { w with bank1 := { w.bank1 with val := x } }
  | 0x028 => { w with bank2 := { w.bank2 with cause := lowWord x &&& 0x1FFF#32 } }
  | 0x029 => { w with bank2 := { w.bank2 with ret := x } }
  | 0x02A => { w with bank2 := { w.bank2 with stat := lowWord x } }
  | 0x02B => { w with bank2 := { w.bank2 with val := x } }
  | _ => w

/-- Write the high half of the counter into the clock latches of slices (R64). -/
def Wave.latchClock (w : Wave) (m : SliceMask) (counter : DWord) : Wave :=
  { w with clockHi := (slicesOf m).foldl (fun c k => SMap.set 0 c k (highWord counter)) w.clockHi }

/-- SREAD (R340, R64). -/
def execSread (f : YFmt) : State → Host.Outcome State Fault Refusal :=
  issue (.sread f) fun e s =>
    let n := srNumber f
    let t : Ty := if srWide n then .z64 else .z32
    let counter := s.counter (dieOf e.core)
    let s := if n = 0x040 then s.modWave e.wk fun w => w.latchClock e.frag.slices counter else s
    let x (lane : Nat) := specialRead e.wave e.wg e.launch counter (lowestSlice e.frag.slices) lane n
    .writes s (if isS f.op1 then writeTo t f.op1 0 (x e.first) else e.lanewise fun l => writeTo t f.op1 l (x l)) .none

/-- SWRITE (R340). -/
def execSwrite (f : YFmt) : State → Host.Outcome State Fault Refusal :=
  issue (.swrite f) fun e s =>
    let n := srNumber f
    let x := e.read (if srWide n then .z64 else .z32) f.op1 e.first
    .writes (s.modWave e.wk fun w => w.writeSpecial n x) [] .none

/-! ## Traps and returns (R338, R339, R420, R421) -/

/-- NOP (R343). -/
def execNop (f : YFmt) : State → Host.Outcome State Fault Refusal := issue (.nop f) fun _ s => .writes s [] .none

/-- TRAP (R338). -/
def execTrap (f : YFmt) : State → Host.Outcome State Fault Refusal :=
  issue (.trap f) fun _ _ => .trapNext 0x30 (f.imm.zeroExtend 64)

/-- TSTATn admits the return from level n (R339). -/
def goodStatus (w : Wave) (n : Nat) (st : Word) : Bool :=
  decide (fieldOf st 8 24 = 0 ∧ fieldOf st 4 4 = w.gdepth ∧ st.getLsbD 2 = w.gated ∧ st.getLsbD 3 = w.halted ∧
    fieldOf st 0 2 < n)

/-- The fragments that are not trap-parked become one, and none of their lanes is gang-parked: the lanes of a level that
is left from above all resume at its TRET (R421). -/
def Wave.fuseRunning (w : Wave) (fid : Nat) : Wave :=
  let m := (w.frags.filter fun f => f.trapLevel == 0).foldl (fun m f => m ||| f.slices) 0
  let m := m ||| slicesOfLanes (w.gangParked &&& w.bank1.lanes &&& w.live)
  { w with
    gangParked := w.gangParked &&& ~~~w.bank1.lanes
    frags := (w.frags.filter fun f => f.trapLevel != 0 || f.id == fid).map fun f =>
      if f.id = fid then { f with slices := m } else f }

/-- RETT (R339, R420, R421): from level n, and from level 1 too where TSTAT2 names level 0. A return address inside the
block that raised the cause continues that block. -/
def execRett (f : YFmt) : State → Host.Outcome State Fault Refusal :=
  issue (.rett f) fun e s =>
    let n := e.wave.tl
    let b := e.wave.bank n
    let tl := fieldOf b.stat 0 2
    if fieldOf b.ret 39 25 ≠ 0 ∨ s.codeLen e.launch e.dom b.codeObj.toNat ≤ b.ret.toNat then .trap 0x41 b.ret
    else if !goodStatus e.wave n b.stat then .trap 0x42 (b.stat.zeroExtend 64)
    else
      let block (k : Nat) : CodeAddr :=
        let c := e.wave.bank k
        let h := s.codeWord e.launch e.dom c.codeObj.toNat c.block.toNat
        if isHeader h ∧ c.block.toNat < c.ret.toNat ∧ c.ret.toNat < c.block.toNat + headerLength (h.getD 0) then c.block
        else BitVec.ofNat 39 (s.blockOf e.launch e.dom c.codeObj.toNat c.ret.toNat c.ret.toNat 0)
      let place (k : Nat) (w : Wave) : Wave := w.modFrag e.fid fun g => { g with block := block k }
      let back (w : Wave) : Wave :=
        let w := place n (w.leaveLevel e.fid n tl)
        if n = 2 ∧ tl = 0 then place 1 ((w.fuseRunning e.fid).leaveLevel e.fid 1 0) else w
      .placed ((s.modWave e.wk back).settle e.wk e.fid (some (b.ret.extractLsb' 0 39)) false)

/-! ## Breakpoints (R338, R486 to R488) -/

/-- DBGCTL of session n. -/
def State.dbgCtl (s : State) (n : Nat) : DWord := s.reg (0x2000 + 0x40 * n)

/-- The open session that is attached to a context, if one is. -/
def State.sessionOf (s : State) (ctx : Nat) : Option Nat :=
  (List.range 8).find? fun n => (s.dbgCtl n).getLsbD 63 && decide (fieldOf (s.dbgCtl n) 0 12 = ctx)

/-- A session holds the debug right of a domain (R487). -/
def State.holdsRight (s : State) (n dom : Nat) : Bool :=
  let base := fieldOf (s.reg (0x2008 + 0x40 * n)) 12 40 * 4096
  decide (base ≠ 0) && (s.byte (base + dom / 8)).getLsbD (dom % 8)

/-- A BRK of the wave halts it: a session of its context has breakpoints enabled and, in a callee, holds the domain's
right (R338, R486). -/
def State.breaks (s : State) (w : Wave) (la : Launch) : Bool :=
  match s.sessionOf la.ctx.toNat with
  | some n => (s.dbgCtl n).getLsbD 62 && (!w.gated || s.holdsRight n w.dom.toNat)
  | none => false

/-- BRK (R338, R488): a trap, or under a debugger a halt of the wave with the lanes past the BRK. -/
def execBrk (f : YFmt) : State → Host.Outcome State Fault Refusal :=
  issue (.brk f) fun e s =>
    if s.breaks e.wave e.launch then .writes (s.modWave e.wk fun w => { w with halting := some (0, lowestSlice e.frag.slices) }) [] .none
    else .trapNext 0x31 (f.imm.zeroExtend 64)

/-! ## Hints, regions, traces (R341, R342) -/

/-- PHINT: where a pre-emption is pending the fragment stops after it, with the hint, in a callee without its scratchpad chunks
(R341, R362, R452). -/
def execPhint (f : YFmt) : State → Host.Outcome State Fault Refusal :=
  issue (.phint f) fun e s =>
    let x := f.ext.getD 0
    let hint : StopHow := .hint (lowWord x) (x.extractLsb' 32 16)
      (if e.wave.gated then 0 else f.imm.extractLsb' 0 32)
    let s := if e.wg.request.isSome then
        s.modWave e.wk fun w => w.modFrag e.fid fun g => { g with stopped := some hint }
      else s
    .writes s [] .none

/-- ENTER (R342). -/
def execEnter (f : YFmt) : State → Host.Outcome State Fault Refusal :=
  issue (.enter f) fun e s =>
    .writes (s.modWave e.wk fun w => { w with regions := f.imm.extractLsb' 0 16 :: w.regions }) [] .none

/-- LEAVE (R342). -/
def execLeave (f : YFmt) : State → Host.Outcome State Fault Refusal :=
  issue (.leave f) fun e s => .writes (s.modWave e.wk fun w => { w with regions := w.regions.tail }) [] .none

/-- The bytes of a trace record (R352). -/
def traceBytes (e : Env) (id : Nat) (x : Word) (counter : DWord) : List Byte :=
  bytesOfNat 2 (e.wave.regions.headD 0).toNat ++ bytesOfNat 2 id ++ bytesOfNat 4 x.toNat ++
    bytesOfNat 8 counter.toNat ++ bytesOfNat 4 e.launch.lid.toNat ++ bytesOfNat 2 e.core ++ bytesOfNat 2 e.wave.no ++
    bytesOfNat 4 e.wg.index ++ bytesOfNat 4 e.wg.stage

/-- MARK: one trace record where the context has a trace ring (R342, R352). -/
def execMark (f : YFmt) : State → Host.Outcome State Fault Refusal :=
  issue (.mark f) fun e s =>
    let x : Word := lowWord (e.read .z32 f.op1 e.first)
    match (s.contexts.find? e.launch.ctx.toNat).bind fun c => c.traceq with
    | none => .writes s [] .none
    | some (base, entries) =>
      .writes (s.ringWrite ⟨base, entries, 32⟩ (traceBytes e (fieldOf f.imm 0 16) x (s.counter (dieOf e.core)))) [] .none

/-! ## Clocks and yielding (R343, R361) -/

/-- WAIT.CLK (R343): n is read when the wait begins. -/
def execWaitClk (f : YFmt) : State → Host.Outcome State Fault Refusal :=
  issue (.waitClk f) fun e s =>
    let counter := s.counter (dieOf e.core)
    let n : Word := lowWord (e.read .z32 f.op1 e.first)
    let w : Wait := match e.frag.wait with
      | .clkAt t => .clkAt t
      | .clkAbs m => .clkAbs m
      | _ => if f.imm.getLsbD 0 then .clkAbs n else .clkAt (counter + n.zeroExtend 64)
    let isOver : Bool := match w with
      | .clkAt t => decide (t.toNat ≤ counter.toNat)
      | .clkAbs m => decide ((lowWord counter - m).toNat < 2 ^ 31)
      | _ => true
    if isOver then .writes s [] .none else .hold s w

/-- A fragment that could issue: it runs and waits for nothing. -/
def Wave.fragReady (w : Wave) (f : Frag) : Bool :=
  f.trapLevel == 0 && f.stopped.isNone && f.wait == .none && !w.halted && w.halting.isNone &&
    (w.fragPc f).isSome && w.fragPc f != some f.block

/-- The contexts other than one that have a ready fragment on a core. -/
def State.readyContexts (s : State) (core ctx : Nat) : List Nat :=
  (s.waves.filterMap fun x =>
    match s.workgroups.find? x.2.wg with
    | none => none
    | some wg =>
      if wg.core = core ∧ wg.resident ∧ x.2.frags.any x.2.fragReady then
        (s.ctxOf wg).bind fun c => if c = ctx then none else some c
      else none).eraseDups

/-- A context's issue count on a core (R359). -/
def State.issueOf (s : State) (ctx core : Nat) : Nat :=
  match s.contexts.find? ctx with
  | some c => SMap.get 0 c.issue core
  | none => 0

/-- YIELD: where another context is ready on the core, the slice ends and the context's issue count becomes the
largest there, its own YIELD counted (R359, R361). -/
def execYield (f : YFmt) : State → Host.Outcome State Fault Refusal :=
  issue (.yield f) fun e s =>
    let ctx := e.launch.ctx.toNat
    if (s.readyContexts e.core ctx).isEmpty then .writes s [] .none
    else
      let clocks := e.issueClocks (.yield f)
      let top := ((s.residentContexts e.core).map fun c => s.issueOf c e.core).foldl max (s.issueOf ctx e.core + clocks)
      .writes { s with contexts := s.contexts.modify ctx fun c =>
        { c with issue := SMap.set 0 c.issue e.core (top - clocks),
                 slices := c.slices.modify e.core fun t => (t.1, (s.counter (dieOf e.core)).toNat),
                 sliceEnded := if c.sliceEnded.contains e.core then c.sliceEnded else c.sliceEnded ++ [e.core] } } [] .none

end Sys2Proof.Machine
end

