-- ==== Sys2Proof/Machine/Place.lean ====
section
/-!
DEFINITION. Placement of clusters (R25 to R29, R54, R355, R356, R373), time slices and swap-out requests (R360),
pre-emption, save images and restore (R362 to R372, R496).
-/

namespace Sys2Proof.Machine

/-! ## Resources (R356) -/

/-- The workgroups that hold resources on the cores that satisfy p, with their launches. -/
def State.onCores (s : State) (p : Nat → Bool) : List (Workgroup × Launch) :=
  s.workgroups.filterMap fun x =>
    match x.2.phase with
    | .saved _ => none
    | _ => if p x.2.core then (s.launches.find? x.2.launch).map fun la => (x.2, la) else none

/-- Waves of a workgroup on quadrant q (R242). -/
def quadWaves (waves q : Nat) : Nat := (waves + 3 - q) / 4

/-- A total over workgroups. -/
def total (l : List (Workgroup × Launch)) (f : Workgroup → Launch → Nat) : Nat := l.foldl (fun n x => n + f x.1 x.2) 0

/-- A core can take a workgroup of a launch with a CRANK: every row of R356 still fits. `claims` holds the quadrants on
which a restored wave brings an accumulator claim. What an ended workgroup of a cluster keeps reserved is its
scratchpad and the cluster's barrier slots (R30). -/
def State.canTake (s : State) (la : Launch) (crank core : Nat) (claims : List Nat) : Bool :=
  let here := s.onCores fun c => c == core
  let busy := here.filter fun x => x.1.phase != .ended
  let pair := (s.onCores fun c => c / 2 == core / 2).filter fun x => x.1.phase != .ended
  let kept := here.filter fun x => x.1.phase != .ended || decide (1 < x.2.ncl)
  let clusterBars (l : Launch) (r : Nat) : Nat := if r = 0 ∧ 1 < l.ncl then l.nbar else 0
  let quad (q : Nat) : Bool :=
    decide (total busy (fun _ l => quadWaves l.waves q) + quadWaves la.waves q ≤ 12) &&
    decide (total busy (fun _ l => quadWaves l.waves q * (l.vregs / 8)) + quadWaves la.waves q * (la.vregs / 8) ≤ 85)
  (List.range 4).all quad &&
    decide (total pair (fun _ l => l.waves * (l.sregs / 8)) + la.waves * (la.sregs / 8) ≤ 384) &&
    decide (total busy (fun _ l => l.waves) + la.waves ≤ 48) &&
    decide (total kept (fun _ l => l.scratch) + la.scratch ≤ 262144) &&
    decide (total busy (fun _ l => l.nbar) + total kept (fun g l => clusterBars l g.crank) + la.nbar + clusterBars la crank
      ≤ 64) &&
    decide ((la.ctx :: busy.map fun x => x.2.ctx).eraseDups.length ≤ 8) &&
    (claims.eraseDups.length == claims.length && claims.all fun q => (s.claims.find? (4 * core + q)).isNone)

/-! ## Choosing cores (R355, R373) -/

/-- Workgroup of stage and linear index of a launch, on a core. -/
def Launch.workgroup (la : Launch) (n stage q r core : Nat) : Workgroup :=
  let clusters := la.gridX * la.gridY * la.gridZ / max 1 la.ncl
  { launch := n, stage := stage, index := q * la.ncl + r, cluster := stage * clusters + q, crank := r, core := core,
    phase := .running, scratch := [],
    bars := (List.range la.nbar).map fun b => (b, mkBar 0 la.waves la.waves),
    clBars := if r = 0 ∧ 1 < la.ncl then
        (List.range la.nbar).map fun b => (b, mkBar 0 (la.waves * la.ncl) (la.waves * la.ncl)) else [],
    endedWaves := 0, logUsed := 0, log := [], request := none, since := 0, charged := false }

/-- Take cores for the workgroups of a list from candidates in order, each the next that can take it; the state holds
them then. -/
def State.takeCores (la : Launch) (claims : List Nat) : List Nat → List Workgroup → State → Option (State × List Nat)
  | _, [], s => some (s, [])
  | [], _ :: _, _ => none
  | c :: cs, g :: gs, s =>
    if s.canTake la g.crank c claims then
      (State.takeCores la claims cs gs
          { s with workgroups := s.workgroups.insert s.workgroups.fresh { g with core := c } }).map fun r => (r.1, c :: r.2)
    else State.takeCores la claims cs (g :: gs) s

/-- The cores of a die offered to a cluster, q′ its index among the package's clusters. -/
def Launch.offered (la : Launch) (q' die : Nat) : List Nat :=
  if la.det then (List.range la.ncl).map fun r => 272 * die + (q' / 4 * la.ncl + r) % 272
  else (List.range 272).map (272 * die + ·)

/-- The dies offered to a cluster, in order. -/
def Launch.diesFor (la : Launch) (q' : Nat) : List Nat :=
  if la.det then [q' % 4] else (List.range 4).map fun i => (q' + i) % 4

/-- The workgroups of the package's cluster q′ of a stage, with cores still to choose (R25, R45). -/
def Launch.members (la : Launch) (n stage q' : Nat) : List Workgroup :=
  (List.range la.ncl).map fun r => la.workgroup n stage (q' * la.npkg + la.rank) r 0

/-- Place a cluster on the first die offered that can take the whole of it (R355). -/
def State.placeCluster (s : State) (n : Nat) (la : Launch) (stage q' : Nat) : Option State :=
  (la.diesFor q').findSome? fun die =>
    (State.takeCores la [] (la.offered q' die) (la.members n stage q') s).map fun r => r.1

/-- Place the package's clusters from number c on, counted over the stages (R29). -/
def State.placeAll (n : Nat) (la : Launch) : Nat → Nat → State → Option State
  | 0, _, s => some s
  | k + 1, c, s =>
    match s.placeCluster n la (c / max 1 la.myClusters) (c % max 1 la.myClusters) with
    | some t => State.placeAll n la k (c + 1) t
    | none => none

/-- The launch can be resident (R29): one of its clusters on an empty die, and with several stages every workgroup on
the empty package. -/
def State.canReside (s : State) (la : Launch) : Bool :=
  let t := { s with workgroups := [], claims := [], launches := s.launches.insert s.launches.fresh la }
  let n := s.launches.fresh
  if la.nstage = 1 then (t.placeCluster n la 0 0).isSome else (State.placeAll n la (la.myClusters * la.nstage) 0 t).isSome

/-! ## Beginning waves (R26, R54, R354, R487) -/

/-- The lowest residency slot free on a quadrant of a core. -/
def State.freeSlotNo (s : State) (core quad : Nat) : Nat :=
  let used := s.waves.filterMap fun x =>
    match s.workgroups.find? x.2.wg with
    | some g => if s.onCore x.1 && g.core == core && x.2.no % 4 == quad then some x.2.slotNo else none
    | none => none
  ((List.range 12).find? fun k => !used.contains k).getD 0

/-- A wave at its start (R26, R54, R354). -/
def Launch.wave (la : Launch) (g : Nat) (wg : Workgroup) (no slotNo tick : Nat) : Wave :=
  let entry : CodeAddr := BitVec.ofNat 39 (la.entries.getD wg.stage 0)
  let args := mkRef (refIndex la.args) (refRights la.args &&& needR) (refOffset la.args)
  let save := refOffset la.tsave + 1024 * (no + la.waves * (wg.index + la.gridX * la.gridY * la.gridZ * wg.stage))
  let w : Wave :=
    { wg := g, no := no, slotNo := slotNo, v := [], s := [], k := [], x := [], tiles := [], claim := false,
      mode := (if la.det then 0x01000000#32 else 0) ||| BitVec.ofNat 32 (la.seed.toNat * 65536) ||| 1#32, status := 0,
      dom := la.dom, codeObj := BitVec.ofNat 18 (refIndex la.code), regions := [], tvec := la.tvec,
      tsave := withOffset la.tsave save, bank1 := TrapBank.zero, bank2 := TrapBank.zero, pcs := [],
      live := BitVec.allOnes 96, gangParked := 0, join := [], hold := 0,
      frags := [⟨0, BitVec.allOnes 24, entry, none, 32 * tick + 1, false, .none, none, 0, 0, 0, none⟩], issueCount := 0,
      clockHi := [], draws := [], pend := [], nextPend := 0, nextFrag := 1, batchClosed := 0, batchDone := 0, lend := 0,
      sharedStep := 0, wpins := [], wblocks := [], rayPins := [], rays := [], gates := [], bars := [], wblkV := 0, wblkS := 0,
      halting := none, regionsSaved := [] }
  ((w.setPcs (BitVec.allOnes 96) entry).setS 0 (lowWord args)).setS 1 (highWord args)

/-- A session's HALT request stands for a context (R488). -/
def State.haltStands (s : State) (ctx : Nat) : Bool :=
  match s.sessionOf ctx with
  | some n => s.haltReq.contains n
  | none => false

/-- The shared-B step that a wave waits in is withdrawn (R252). -/
def State.withdrawStep (s : State) (wk : Nat) : State :=
  { s with sharedB := s.sharedB.filter fun x => !(x.wave == wk && x.status == .waiting) }

/-- Halt a wave under a standing HALT request: reason 1, or 2 at restore (R488, R490); its shared-B step is withdrawn
(R252). -/
def State.haltWave (s : State) (wk ctx : Nat) (reason : BitVec 2) : State :=
  if s.haltStands ctx then
    (s.withdrawStep wk).modWave wk fun w =>
      if w.halted || w.halting.isSome then w
      else { w with halting := some (reason, lowestSlice (slicesOfLanes w.runnable)) }
  else s

/-- The fragments of a launch that stand at their first headers go on, once the launch has begun (R29, R46). -/
def State.beginLaunch (s : State) (n : Nat) : State :=
  let keys := (s.waves.filter fun x => s.onCore x.1 && ((s.workgroups.find? x.2.wg).map fun g => g.launch) == some n).map fun x => x.1
  keys.foldl (fun s wk => State.arrive wk arriveFuel s) s

/-- Begin the waves of a placed workgroup; their headers are passed after all have begun, where the launch has. -/
def State.beginWaves (s : State) (g : Nat) : State :=
  match s.workgroups.find? g with
  | none => s
  | some wg =>
    match s.launches.find? wg.launch with
    | none => s
    | some la =>
      let s := (List.range la.waves).foldl (fun s no =>
        { s with waves := s.waves.insert (16 * g + no) (la.wave g wg no (s.freeSlotNo wg.core (no % 4)) s.tick) }) s
      (waveKeys g la.waves).foldl (fun s wk => (State.arrive wk arriveFuel s).haltWave wk la.ctx.toNat 1) s

/-! ## Time slices (R360) -/

/-- Start a context's slice on a core where it has none: max(L − D, L / 16) clocks, and D falls by L minus that. -/
def State.startSlice (s : State) (ctx core : Nat) : State :=
  if ((s.context ctx).slices.find? core).isSome then s
  else
    s.modContext ctx fun c =>
      let l := 600 * c.slice
      let len := max (l - c.debt) (l / 16)
      let now := (s.counter (dieOf core)).toNat
      { c with slices := c.slices.insert core (now, now + len), debt := c.debt - (l - len),
               sliceEnded := c.sliceEnded.filter fun x => x != core }

/-- Request the pre-emption of a workgroup (R362). -/
def State.requestPreempt (s : State) (g : Nat) (byPacket : Bool) : State :=
  { s with workgroups := s.workgroups.modify g fun wg =>
      match wg.phase with
      | .running =>
        if wg.request.isSome && !byPacket then wg
        else { wg with request := some (byPacket, s.counter (dieOf wg.core)), charged := false }
      | .stepping isOver _ => if byPacket then { wg with phase := .stepping isOver true } else wg
      | _ => wg }

/-- A workgroup whose pre-emption is requested or under way. -/
def Workgroup.leaving (wg : Workgroup) : Bool := wg.request.isSome || wg.stepping.isSome

/-- The workgroup may be swapped out for a die's waiting work: its context's slice on its core has ended, it has a save
pool, and it is not passed over (R352, R360, R496). -/
def State.swappable (s : State) (wg : Workgroup) : Bool :=
  match s.ctxOf wg with
  | none => false
  | some c =>
    let x := s.context c
    x.sliceEnded.contains wg.core && x.pool.isSome && !x.noSwap.contains (dieOf wg.core)

/-- Work that waits for a die (R360): a launch with a cluster to place, or a swapped-out workgroup. -/
inductive Waiting where
  | cluster (launch q' stage : Nat)
  | restore (wg : Nat)
  deriving DecidableEq, Repr

/-- The cluster a launch places next: stage and q′ (R355, R430). -/
def Launch.nextPlace (la : Launch) : Option (Nat × Nat) :=
  match la.relaunch with
  | c :: _ => some (0, c / la.npkg)
  | [] => if la.nextCluster < la.myClusters * la.nstage then
      some (la.nextCluster / max 1 la.myClusters, la.nextCluster % max 1 la.myClusters) else none

/-- The launch may place clusters now: it has started, or it has several stages and reserves what R29 requires (R46, R352,
R374). -/
def State.mayPlace (s : State) (la : Launch) : Bool :=
  (la.started || decide (1 < la.nstage)) && !la.ended && !(s.context la.ctx.toNat).swappedOut && !s.tripped && !s.recovery && !s.halted &&
    (match la.nextPlace with
    | none => false
    | some (stage, q') =>
      !la.det || (la.members 0 stage q').all fun g =>
        let k := la.keyOf g
        decide (k < 65536 ∨ k - 65536 < la.token) || la.endedKeys.contains (k - 65536) ||
          (!la.runsKey (k - 65536) && s.otherEnded la (k - 65536)))

/-- A swapped-out workgroup may be restored now (R352, R372). -/
def State.mayRestore (s : State) (wg : Workgroup) : Bool :=
  (match wg.phase with
  | .saved _ => true
  | _ => false) && !s.tripped && !s.recovery && !s.halted &&
    (match s.launches.find? wg.launch with
    | some la => !la.ended && !(s.context la.ctx.toNat).swappedOut
    | none => false)

/-- Cores of its die on which a swapped-out workgroup may be restored, the one it left first, without those of its
cluster peers; in deterministic mode only its own (R372, R373). -/
def State.restoreCores (s : State) (g : Nat) (wg : Workgroup) (la : Launch) : List Nat :=
  let peers := s.workgroups.filterMap fun x =>
    if x.1 ≠ g ∧ x.2.launch = wg.launch ∧ x.2.cluster = wg.cluster then some x.2.core else none
  let all := if la.det then [wg.core] else wg.core :: (List.range 272).map (272 * dieOf wg.core + ·)
  all.filter fun c => !peers.contains c

/-- Quadrants on which a workgroup's waves bring accumulator claims (R356). -/
def State.imageClaims (s : State) (g : Nat) : List Nat :=
  s.waves.filterMap fun x => if x.1 / 16 = g ∧ x.2.claim then some (x.2.no % 4) else none

/-- The work that waits for a die and is not held back, longest first. -/
def State.waitingFor (s : State) (die : Nat) : List (Nat × Waiting) :=
  let clusters := s.launches.filterMap fun x =>
    match x.2.nextPlace with
    | some (stage, q') =>
      if s.mayPlace x.2 && (x.2.diesFor q').contains die then some (x.2.lastTurn, Waiting.cluster x.1 q' stage) else none
    | none => none
  let saved := s.workgroups.filterMap fun x =>
    if s.mayRestore x.2 && dieOf x.2.core == die then some (x.2.since, Waiting.restore x.1) else none
  (clusters ++ saved).mergeSort fun a b => decide (a.1 ≤ b.1)

/-- The cores of a die that would take waiting work in a state; none where no set of them can. -/
def State.coresFor (s : State) (die : Nat) : Waiting → Option (List Nat)
  | .cluster n q' stage =>
    (s.launches.find? n).bind fun la =>
      (State.takeCores la [] (la.offered q' die) (la.members n stage q') s).map fun r => r.2
  | .restore g =>
    (s.workgroups.find? g).bind fun wg => (s.launches.find? wg.launch).bind fun la =>
      ((s.restoreCores g wg la).find? fun c => s.canTake la wg.crank c (s.imageClaims g)).map fun c => [c]

/-- The state without the workgroups that satisfy p, and without their claims. -/
def State.without (s : State) (p : Workgroup → Bool) : State :=
  let gone (x : Nat × Workgroup) : Bool := p x.2 && (match x.2.phase with
    | .saved _ => false
    | .ended => false
    | _ => true)
  { s with workgroups := s.workgroups.filter fun x => !gone x,
           claims := s.claims.filter fun c => !s.workgroups.any fun x => x.1 == c.2 / 16 && gone x }

/-- The part of waiting work that its r-th core takes: the workgroup of CRANK r of a cluster. -/
def Waiting.part (w : Waiting) (r : Nat) : Waiting × Nat := (w, r)

/-- A core of a die could take its part of waiting work. -/
def State.coreFits (s : State) (core : Nat) : Waiting × Nat → Bool
  | (.cluster n _ _, r) => match s.launches.find? n with
    | some la => s.canTake la r core []
    | none => true
  | (.restore g, _) => match s.workgroups.find? g with
    | some wg => match s.launches.find? wg.launch with
      | some la => s.canTake la wg.crank core (s.imageClaims g)
      | none => true
    | none => true

/-- The contexts whose slice on a core has ended, the earliest-ended first. -/
def State.endedContexts (s : State) (core : Nat) : List Nat :=
  let l := s.contexts.filterMap fun c =>
    if c.2.sliceEnded.contains core then some (((c.2.slices.find? core).map fun t => t.2).getD 0, c.1) else none
  (l.mergeSort fun a b => decide (a.1 ≤ b.1)).map fun x => x.2

/-- Swap contexts out on a core until waiting work fits (R360 step 2). -/
def State.makeRoom (w : Waiting × Nat) (core : Nat) : List Nat → State → State
  | [], s => s
  | c :: cs, s =>
    if (s.without Workgroup.leaving).coreFits core w then s
    else
      let mine := s.workgroups.filter fun x => x.2.core == core && s.ctxOf x.2 == some c && s.swappable x.2
      State.makeRoom w core cs (mine.foldl (fun s x => s.requestPreempt x.1 false) s)

/-- Choose the cores that would take waiting work if every context whose slice has ended were absent, and swap contexts
out there (R360). -/
def State.relieveFor (s : State) (die : Nat) (w : Waiting) : State :=
  if (s.coresFor die w).isSome then s
  else
    match (s.without fun g => g.leaving || s.swappable g).coresFor die w with
    | none => s
    | some cores => (cores.zipIdx).foldl (fun s c => State.makeRoom (w.part c.2) c.1 (s.endedContexts c.1) s) s

/-- Serve the work that waits longest for a contended die (R360). -/
def State.relieve (s : State) (die : Nat) : State :=
  match s.waitingFor die with
  | [] => s
  | (_, w) :: _ => s.relieveFor die w

/-- SLICE_END: a context's slice on a core has run its length (R360). -/
def execSliceEnd (core : Nat) (ctx : BitVec 12) (s : State) : Host.Outcome State Fault Refusal :=
  match (s.context ctx.toNat).slices.find? core with
  | none => .next s
  | some (_, last) =>
    if (s.counter (dieOf core)).toNat < last then .next s
    else
      let s := s.modContext ctx.toNat fun c =>
        { c with sliceEnded := if c.sliceEnded.contains core then c.sliceEnded else c.sliceEnded ++ [core] }
      .next (s.relieve (dieOf core))

/-! ## Starting together (R46, R495) -/

/-- The arrivals a launch waits for are held. -/
def State.allArrived (s : State) (la : Launch) (g : Word) : Bool := la.pkgs.all fun q => s.arrivals.contains (q, g)

/-- A launch of several packages whose start generation is g and which still runs. -/
def State.launchOfGen (s : State) (g : Word) : Option (Nat × Launch) :=
  List.find? (fun x => x.2.startGen == some g && !x.2.ended) s.launches

/-- Hold an arrival; placement begins once arrivals from every package are held (R46). -/
def State.arrived (s : State) (q : BitVec 6) (g : Word) : State :=
  let s := { s with arrivals := if s.arrivals.contains (q, g) then s.arrivals else s.arrivals ++ [(q, g)] }
  match s.launchOfGen g with
  | some (n, la) =>
    if !la.started && s.allArrived la g then
      ({ s with launches := s.launches.insert n { la with started := true, lastTurn := s.tick },
                arrivals := s.arrivals.filter fun a => a.2 != g }.beginLaunch n).checkLaunchEnd n
    else s
  | none => s

/-- Send this package's arrival stamped g to the others of a launch. -/
def State.sendArrival (s : State) (la : Launch) (g : Word) : State :=
  (s.sendAll (s.otherPackages la) messageBytes fun q => .arrival q g).arrived s.myPackage g

/-- Send the arrival of a launch over several packages once what R29 requires is reserved: with one stage nothing, with several
a place for every workgroup (R46). -/
def State.reserve (s : State) (n : Nat) : State :=
  match s.launches.find? n with
  | none => s
  | some la =>
    match la.startGen with
    | none => s
    | some g =>
      if la.started || la.ended || s.arrivals.contains (s.myPackage, g) || !{ la with started := true }.begun then s
      else s.sendArrival la g

/-! ## CLUSTER_PLACEMENT -/

/-- Note a placement: the launch's turn, and its place in the order. -/
def Launch.placed (la : Launch) (tick : Nat) : Launch :=
  match la.relaunch with
  | _ :: r => { la with relaunch := r, lastTurn := tick }
  | [] => { la with nextCluster := la.nextCluster + 1, lastTurn := tick }

/-- The placement of a launch's next cluster (R28, R355). -/
def State.placeNext (s : State) (n : Nat) (la : Launch) : Option State :=
  match la.nextPlace with
  | none => none
  | some (stage, q') => if s.mayPlace la then s.placeCluster n la stage q' else none

/-- A launch whose turn comes before another's can place a cluster now (R355). -/
def State.turnOfOther (s : State) (n : Nat) (la : Launch) : Bool :=
  s.launches.any fun x => decide (x.1 ≠ n ∧ (x.2.lastTurn < la.lastTurn ∨ x.2.lastTurn = la.lastTurn ∧ x.1 < n)) &&
    (s.placeNext x.1 x.2).isSome

/-- CLUSTER_PLACEMENT: the next cluster of a launch is placed once its turn has come and a die can take it (R28, R355); where
none can, contended dies swap out (R360). With the last cluster of several stages the launch begins (R29). A relaunched cluster's
accesses follow the kill (R430). A launch that waits for other packages reserves its cores in the same way (R46). -/
def execClusterPlacement (n : Nat) (s : State) : Host.Outcome State Fault Refusal :=
  let s := (s.reserve n).passTokens n
  match s.launches.find? n with
  | none => .next s
  | some la =>
    match la.nextPlace with
    | none => .next s
    | some (_, q') =>
      if !s.mayPlace la || s.turnOfOther n la then .next s
      else
        match s.placeNext n la with
        | none => .next ((la.diesFor q').foldl State.relieve s)
        | some t =>
          let new := t.workgroups.filter fun x => (s.workgroups.find? x.1).isNone
          let t := { t with launches := t.launches.insert n (la.placed s.tick) }
          let t := if la.relaunch.isEmpty then t else t.releaseAll.acquireAll
          let t := new.foldl (fun t x => t.startSlice la.ctx.toNat x.2.core) t
          let t := new.foldl (fun t x => t.beginWaves x.1) t
          let t := if la.nstage = 1 then t else t.beginLaunch n
          .next ((t.reserve n).passTokens n)

/-! ## Instruction-buffer slots (R39, R357) -/

/-- Core and quadrant of a wave. -/
def State.quadOf (s : State) (w : Wave) : Option (Nat × Nat) := (s.workgroups.find? w.wg).map fun g => (g.core, w.no % 4)

/-- The fragments of the waves on a quadrant, with their waves. -/
def State.quadFrags (s : State) (q : Nat × Nat) : List (Nat × Wave × Frag) :=
  s.waves.flatMap fun x =>
    if s.quadOf x.2 = some q ∧ s.onCore x.1 then x.2.frags.map fun f => (x.1, x.2, f) else []

/-- Slots of a quadrant that fragments hold. -/
def State.slotsUsed (s : State) (q : Nat × Nat) : Nat := ((s.quadFrags q).filter fun x => x.2.2.slot).length

/-- The fragment waits for a slot: it could issue, or test its instruction again, but for one. -/
def Wave.wantsSlot (w : Wave) (f : Frag) : Bool := !f.slot && f.slotSince.isSome && w.fragReady { f with wait := .none }

/-- The fragments of a quadrant that wait for a slot, in the order in which they began to (R39). -/
def State.slotQueue (s : State) (q : Nat × Nat) : List (Nat × Nat) :=
  (((s.quadFrags q).filter fun x => x.2.1.wantsSlot x.2.2).mergeSort fun a b =>
    decide (a.2.2.slotSince.getD 0 ≤ b.2.2.slotSince.getD 0)).map fun x => (x.1, x.2.2.id)

/-- Note at a step which fragments begin to wait for a slot: those that could issue but for one (R39). -/
def State.noteSlots (s : State) : State :=
  let note (w : Wave) (f : Frag) : Frag :=
    if f.slot = false ∧ f.slotSince = none ∧ w.fragReady f = true then { f with slotSince := some s.tick } else f
  { s with waves := s.waves.map fun x => (x.1, { x.2 with frags := x.2.frags.map (note x.2) }) }

/-- The oldest of some fragments. -/
def oldest (l : List (Nat × Wave × Frag)) : Option (Nat × Wave × Frag) :=
  l.foldl (fun v x => match v with
    | none => some x
    | some y => if x.2.2.age < y.2.2.age then some x else some y) none

/-- The holder that hands its slot over where all 16 are taken and another fragment needs one: the oldest that cannot issue,
else the oldest that has had a turn since it obtained the slot (R47; log entry 29). -/
def State.slotVictim (s : State) (q : Nat × Nat) : Option (Nat × Nat) :=
  let holders := (s.quadFrags q).filter fun x => x.2.2.slot
  ((oldest (holders.filter fun x => !x.2.1.fragReady x.2.2)).or
    (oldest (holders.filter fun x => decide (x.2.2.age ≤ 32 * x.2.2.last + 31)))).map fun x => (x.1, x.2.2.id)

/-- A fragment holds a slot or may have one now: waiting fragments receive slots oldest first, and one whose instruction is tested
again begins to wait with the test (R39). -/
def State.maySlot (s : State) (wk fid : Nat) : Bool :=
  match s.waves.find? wk with
  | none => false
  | some w =>
    match w.frag? fid, s.quadOf w with
    | some f, some q =>
      f.slot ||
        (let free := 16 - s.slotsUsed q
         let queue := s.slotQueue q
         let rank := (queue.findIdx? fun x => x == (wk, fid)).getD queue.length
         decide (rank < free) || (decide (rank = 0) && (s.slotVictim q).isSome))
    | _, _ => false

/-- Give a fragment a slot, with the youngest age, where it holds none; where none is free a holder hands its own over. -/
def State.giveSlot (s : State) (wk fid : Nat) : State :=
  let set (s : State) (wk fid : Nat) (b : Bool) : State :=
    s.modWave wk fun w => w.modFrag fid fun f => { f with slot := b, age := 32 * s.tick, slotSince := none }
  match (s.waves.find? wk).bind fun w => (w.frag? fid).bind fun f => (s.quadOf w).map fun q => (f, q) with
  | none => s
  | some (f, q) =>
    if f.slot then s
    else if s.slotsUsed q < 16 then set s wk fid true
    else
      match s.slotVictim q with
      | none => s
      | some v => set (set s v.1 v.2 false) wk fid true

/-- A fragment whose turn finds no slot for it waits for one (R39). -/
def State.denySlot (s : State) (wk fid : Nat) : State :=
  s.modWave wk fun w => w.modFrag fid fun f => { f with slotSince := some (f.slotSince.getD s.tick) }

/-! ## Step phase (R362) -/

/-- The fragment cannot issue as R362 case 3 lists it: it holds, is in a wait of the list, is held behind a parked instruction, or
is halted (R488). Gang-parked slices form no fragment. -/
def Wave.stands (w : Wave) (f : Frag) : Bool :=
  f.hold.isSome || f.wait.stands || w.halted || w.halting.isSome || (match f.wait with
    | .pending id => w.pend.any fun p => p.id == id && p.unperformed
    | _ => false)

/-- Stop the fragments that satisfy p where they stand. -/
def Wave.stopWhere (w : Wave) (p : Frag → Bool) : Wave :=
  { w with frags := w.frags.map fun f => if f.stopped.isNone && p f then { f with stopped := some .stood, slot := false } else f }

/-- Change the waves of a workgroup. -/
def State.modWaves (s : State) (g : Nat) (f : Wave → Wave) : State :=
  { s with waves := s.waves.map fun x => if x.1 / 16 = g then (x.1, f x.2) else x }

/-- A shared-B step that waits is withdrawn for the waves of a workgroup (R252). -/
def State.withdrawSteps (s : State) (g : Nat) : State :=
  { s with sharedB := s.sharedB.filter fun x => !(x.wave / 16 == g && x.status == .waiting) }

/-- Stop the fragments of a workgroup in its step phase that have to stop: those that cannot issue as R362 case 3 lists it, those
that wait for an instruction-buffer slot, and all once its 4,096 clocks are over. A trap entry under way completes first (R416). -/
def State.stopStanding (s : State) (g : Nat) (isOver : Bool) : State :=
  s.modWaves g fun w => w.stopWhere fun f =>
    let wk := 16 * w.wg + w.no
    (isOver || f.trapLevel == 0 && (w.stands f || (w.wantsSlot f || w.fragReady f) && !s.maySlot wk f.id)) && !s.entryOwed wk f

/-- Every fragment of a workgroup has stopped for a request; one that is trap-parked issues nothing (R362, R416). -/
def State.hasStopped (s : State) (g : Nat) : Bool :=
  s.waves.all fun x => decide (x.1 / 16 ≠ g) || x.2.frags.all fun f =>
    (f.stopped.isSome || f.trapLevel != 0) && !s.entryOwed x.1 f

/-- Charge the overrun of a swap-out to its context: the clocks from the dispatcher's request to the moment at which every
fragment of the context's workgroups on the core has stopped (R360). -/
def State.chargeOverrun (s : State) : State :=
  s.workgroups.foldl (fun s x =>
    match s.ctxOf x.2, x.2.request, (s.workgroups.find? x.1).map fun g => g.charged with
    | some ctx, some (false, t), some false =>
      let peers := s.workgroups.filter fun y => y.2.resident && y.2.core == x.2.core && s.ctxOf y.2 == some ctx
      if peers.all fun y => y.2.stepping.isSome && s.hasStopped y.1 then
        { s.modContext ctx fun c => { c with debt := c.debt + (s.counter (dieOf x.2.core) - t).toNat } with
          workgroups := s.workgroups.map fun y => if peers.any fun z => z.1 == y.1 then (y.1, { y.2 with charged := true }) else y }
      else s
    | _, _, _ => s) s

/-- What happens in step phases as time passes: fragments that have to stop do, and overruns are charged. -/
def State.stepPhases (s : State) : State :=
  (s.workgroups.foldl (fun s x => match x.2.stepping with
    | some isOver => s.stopStanding x.1 isOver
    | none => s) s).chargeOverrun

/-- PREEMPT_STEP_PHASE: the core starts the step phase of a request (R362). -/
def execPreemptStepPhase (g : Nat) (s : State) : Host.Outcome State Fault Refusal :=
  match s.workgroups.find? g with
  | none => .next s
  | some wg =>
    match wg.phase, wg.request with
    | .running, some (byPacket, _) =>
      let s := { s with workgroups := s.workgroups.insert g { wg with phase := .stepping false byPacket } }
      .next ((s.stopStanding g false).withdrawSteps g)
    | _, _ => .next s

/-- STEP_PHASE_TIMEOUT: 4,096 clocks after the step phase began every remaining fragment stops before its next
instruction, one whose trap entry is under way after it (R362 case 4, R416). -/
def execStepPhaseTimeout (g : Nat) (s : State) : Host.Outcome State Fault Refusal :=
  match s.workgroups.find? g with
  | none => .next s
  | some wg =>
    match wg.phase with
    | .stepping _ byPacket =>
      let s := { s with workgroups := s.workgroups.insert g { wg with phase := .stepping true byPacket } }
      .next ((s.stopStanding g true).withdrawSteps g)
    | _ => .next s

/-! ## Save images (R363 to R370) -/

/-- The blocks of 8 registers that the live counts of a header name: v0 to v(LIVEV − 1), s0 to s(LIVES − 1) (R88). -/
def liveBlocks (h : DWord) : Word × BitVec 16 :=
  let v := if fieldOf h 26 8 = 255 then 256 else fieldOf h 26 8
  let n := if fieldOf h 19 7 = 127 then 128 else fieldOf h 19 7
  (BitVec.ofNat 32 (2 ^ ((v + 7) / 8) - 1), BitVec.ofNat 16 (2 ^ ((n + 7) / 8) - 1))

/-- The trap level at which a lane is parked; 0 for one that is not (R415). -/
def Wave.parkedAt (w : Wave) (l : Nat) : BitVec 2 := if w.bank2.parked.getLsbD l then 2 else if w.bank1.parked.getLsbD l then 1 else 0

/-- The code object in which lanes of a trap level stand. -/
def Wave.codeAt (w : Wave) (level : BitVec 2) : BitVec 18 := if level = 0 then w.codeObj else (w.bank level.toNat).codeObj

/-- The vector and scalar blocks saved for a fragment (R363). -/
def State.savedBlocks (s : State) (la : Launch) (w : Wave) (f : Frag) : Word × BitVec 16 :=
  let obj := w.codeAt f.trapLevel
  let header (p : CodeAddr) : Word × BitVec 16 := match s.codeWord la w.dom.toNat obj.toNat p.toNat with
    | some h => liveBlocks h
    | none => (0, 0)
  match f.stopped with
  | some (.hint v n _) => (v, n)
  | some (.safe p) => header p
  | _ => ((header f.block).1 ||| w.wblkV, (header f.block).2 ||| w.wblkS)

/-- The slices that are gang-parked as fragments that stopped where they stood, each with the block it stands in
(R362, R363). -/
def State.gangFrags (s : State) (la : Launch) (w : Wave) : List Frag :=
  (lanesOf (w.gangParked &&& w.live)).map fun l =>
    let obj := (w.codeAt (w.parkedAt l)).toNat
    ⟨0, 0, BitVec.ofNat 39 (s.blockOf la w.dom.toNat obj (w.pc l).toNat (w.pc l).toNat 0), none, 0, false, .none,
      some .stood, w.parkedAt l, 0, 0, none⟩

/-- The blocks saved for a wave, within its allocation. -/
def State.waveBlocks (s : State) (la : Launch) (w : Wave) : List Nat × List Nat :=
  let m := (w.frags ++ s.gangFrags la w).foldl (fun acc f =>
    let b := s.savedBlocks la w f
    (acc.1 ||| b.1, acc.2 ||| b.2)) ((0 : Word), (0 : BitVec 16))
  ((List.range (la.vregs / 8)).filter fun b => m.1.getLsbD b, (List.range (la.sregs / 8)).filter fun b => m.2.getLsbD b)

/-- The scratchpad chunks of 8 KiB a wave contributes: its hints', or all (R341, R363). -/
def Wave.chunks (w : Wave) : Word :=
  let hint (f : Frag) : Option Word := match f.stopped with
    | some (.hint _ _ c) => some c
    | _ => none
  if (w.gangParked &&& w.live) = 0 ∧ w.frags.all fun f => (hint f).isSome then w.frags.foldl (fun m f => m ||| (hint f).getD 0) 0 else BitVec.allOnes 32

/-- The parts of a wave image whose places R370 gives, as (offset, bytes): predicate, index, scalar and vector
registers, barrier state and the tiles of a claim. A scalar block that is not saved is written as 0, as restore reads it. -/
def Wave.image (w : Wave) (vblocks sblocks : List Nat) (bars : List Nat) : List (Nat × List Byte) :=
  ((List.range 7).map fun i => (0x400 + 12 * i, bytesOfNat 12 (w.kreg (i + 1)).toNat)) ++
    ((List.range 4).map fun n => (0x480 + 192 * n, (List.range 96).flatMap fun l => bytesOfNat 2 (w.xreg n l).toNat)) ++
    ((List.range 16).map fun b => (0x800 + 32 * b,
      (List.range 8).flatMap fun i => bytesOfNat 4 (if sblocks.contains b then (w.sreg (8 * b + i)).toNat else 0))) ++
    (bars.map fun b =>
      let v := (w.bars.find? b).getD ⟨false, 0, [], 1⟩
      (0xE00 + 32 * b, bytesOfNat 4 (if v.arrived then 1 else 0) ++ bytesOfNat 3 v.pending.toNat ++ bytesOfNat 1 0 ++
        (List.range 24).map fun k => SMap.get 1 v.w k)) ++
    (vblocks.flatMap fun b => (List.range 8).map fun i =>
      (0x2000 + 384 * (8 * b + i), (List.range 96).flatMap fun l => bytesOfNat 4 (w.vreg (8 * b + i) l).toNat)) ++
    (if w.claim then (List.range 512).map fun r =>
      (0x1A000 + 128 * r, (List.range 32).flatMap fun j => bytesOfNat 4 (w.tile (r / 64) (r % 64) j).toNat) else [])

/-- The barriers of a wave's workgroup and cluster. -/
def Launch.barList (la : Launch) : List Nat :=
  List.range la.nbar ++ (if 1 < la.ncl then (List.range la.nbar).map (64 + ·) else [])

/-- Offset in the Save area object of the image area of a gated wave's slot (R366). -/
def gateArea (g : GateEntry) : Nat := 0x800400 + 0x32000 * g.slot.toNat

/-- Address of a byte of a wave image: in the pool, or for a gated wave in its callee's image area, but for the gate
stack, the tiles and the barrier state (R366, R369). -/
def State.imagePlace (s : State) (la : Launch) (base : Nat) (w : Wave) (off : Nat) : Nat :=
  let pool := base + 0x1000 + la.scratch + 0x32000 * w.no + off
  match w.gates with
  | [] => pool
  | g :: _ =>
    if (0xA00 ≤ off ∧ off < 0xB00) ∨ (0xE00 ≤ off ∧ off < 0x1E00) ∨ (0x1A000 ≤ off ∧ off < 0x2A000) then pool
    else s.addrOf w.dom.toNat (s.tableEntry w.dom.toNat g.saveObj.toNat) (gateArea g + off)

/-- A word of a gate stack entry (R489 SPACE 8). -/
def GateEntry.word (g : GateEntry) (w : Nat) : DWord :=
  match w with
  | 0 => BitVec.ofNat 64 (g.dom.toNat + g.codeObj.toNat * 2 ^ 16 + g.st.bits.toNat * 2 ^ 34)
  | 1 => g.ret.zeroExtend 64
  | 2 => g.tvec
  | 3 => g.tsave
  | 4 => g.mode.zeroExtend 64
  | 5 => BitVec.ofNat 64 (g.saveObj.toNat + g.slot.toNat * 2 ^ 18)
  | _ => 0

/-- Four bits of a lane mask: those of a slice. -/
def sliceBits (m : LaneMask) (k : Nat) : Nat := (m.extractLsb' (4 * k) 4).toNat

/-- A word of the split table entry of slice k (R489 SPACE 6). -/
def Wave.splitWord (w : Wave) (k n : Nat) : DWord :=
  match n with
  | 0 => ((w.slicePc k).getD 0).zeroExtend 64
  | 1 => match w.join.find? k with
    | some j => 0x8000000000000000#64 ||| j.zeroExtend 64
    | none => 0
  | 2 => BitVec.ofNat 64 ((if w.hold.getLsbD k then 1 else 0) + 16 * sliceBits w.live k + 256 * sliceBits w.gangParked k)
  | 3 => 0
  | n => (w.pc (4 * k + n - 4)).zeroExtend 64

/-- Write a word of the split table entry of slice k. -/
def Wave.setSplit (w : Wave) (k n : Nat) (x : DWord) : Wave :=
  match n with
  | 0 => w
  | 1 => if x.getLsbD 63 then { w with join := w.join.insert k (x.extractLsb' 0 39) } else { w with join := w.join.erase k }
  | 2 => let bit : SliceMask := BitVec.ofNat 24 (2 ^ k)
    { w with hold := if x.getLsbD 0 then w.hold ||| bit else w.hold &&& ~~~bit }
  | 3 => w
  | n => w.withPcs fun l => if l = 4 * k + n - 4 then x.extractLsb' 0 39 else w.pc l

/-- An entry of the gate stack from its words, but for its status operand. -/
def GateEntry.ofWords (g : GateEntry) (x : Nat → DWord) : GateEntry :=
  { g with dom := (x 0).extractLsb' 0 16, codeObj := (x 0).extractLsb' 16 18, ret := (x 1).extractLsb' 0 39, tvec := x 2,
           tsave := x 3, mode := lowWord (x 4), saveObj := (x 5).extractLsb' 0 18, slot := (x 5).extractLsb' 18 13 }

/-- How a fragment stopped, with its hint bitmaps, as items (R370). -/
def Frag.stopItems (f : Frag) : List DWord :=
  f.slices.zeroExtend 64 :: match f.stopped with
    | some (.hint v n c) => [1, v.zeroExtend 64, n.zeroExtend 64, c.zeroExtend 64]
    | some (.safe h) => [2, h.zeroExtend 64]
    | some .stood => [3]
    | none => [0]

/-- What a copy's record holds: its operands and the lines it has completed (R365). -/
def Copy.items (c : Copy) : List DWord :=
  [c.srcRef, c.dstRef, BitVec.ofNat 64 c.bytes, c.scope.zeroExtend 64] ++ (c.coords.map (BitVec.ofNat 64)) ++
    (List.range 9).map fun i => c.lines.extractLsb' (64 * i) 64

/-- A copy whose record has been read back: the lines it has completed. -/
def Copy.ofItems (c : Copy) (x : Nat → DWord) : Copy :=
  { c with lines := (List.range 513).foldl (fun m i =>
      if (x (4 + c.coords.length + i / 64)).getLsbD (i % 64) then m ||| BitVec.ofNat 513 (2 ^ i) else m) 0 }

/-- What a lane's ray slot holds (R305, R308). -/
def RaySlot.items (r : RaySlot) : List DWord :=
  [r.ref, r.gen.zeroExtend 64, r.tcur.zeroExtend 64, (if r.opaque_ then 1 else 0) + (if r.first then 2 else 0) + (if r.cull then 4 else 0)] ++
    (r.ray.map (BitVec.zeroExtend 64)) ++
    (r.best.toList ++ r.cand.toList).flatMap fun h => [h.prim, h.t, h.u, h.v].map (BitVec.zeroExtend 64)

/-- A ray slot that has been read back: the ray and its bound. -/
def RaySlot.ofItems (r : RaySlot) (x : Nat → DWord) : RaySlot :=
  { r with tcur := lowWord (x 2), ray := (List.range r.ray.length).map fun i => lowWord (x (4 + i)) }

/-- The regions of a wave image that R370 gives without a packing of their items: special registers, split table, parked
instructions, gate stack, counts and pins, draws, a record for each copy, a slot for each ray, and what pads the predicate
registers. -/
def State.openRegions (s : State) (wk : Nat) (w : Wave) : List Region :=
  let bank (b : TrapBank) : List DWord := [b.cause.zeroExtend 64, b.ret, b.stat.zeroExtend 64, b.val]
  [⟨0, 0, 256, [w.mode.zeroExtend 64, w.status.zeroExtend 64, BitVec.ofNat 64 w.regions.length] ++
      ((List.range 8).map fun i => (w.regions.getD i 0).zeroExtend 64) ++ [w.tvec, w.tsave] ++ bank w.bank1 ++ bank w.bank2 ++
      ((List.range 24).map fun k => (SMap.get 0 w.clockHi k).zeroExtend 64) ++ w.frags.flatMap Frag.stopItems⟩,
    ⟨1, 0x100, 768, (List.range 192).map fun i => w.splitWord (i / 8) (i % 8)⟩,
    ⟨2, 0x780, 128, (w.pend.filter Pending.unperformed).flatMap fun p =>
      [p.pc.zeroExtend 64, p.mask.extractLsb' 0 64, p.mask.extractLsb' 64 32 |>.zeroExtend 64]⟩,
    ⟨3, 0xA00, 256, w.gates.reverse.flatMap fun g => (List.range 8).map g.word⟩,
    ⟨4, 0xB00, 256, [w.batchClosed.zeroExtend 64, w.batchDone.zeroExtend 64, BitVec.ofNat 64 w.sharedStep, w.lend.zeroExtend 64,
      if w.claim then 1 else 0] ++ (w.rayPins.flatMap fun p => [p.1.zeroExtend 64, p.2.1, p.2.2.1.zeroExtend 64, BitVec.ofNat 64 p.2.2.2]) ++
      w.wpins.flatMap fun p => [BitVec.ofNat 64 p.1, BitVec.ofNat 64 p.2]⟩,
    ⟨5, 0xC00, 512, ((List.range 96).map fun l => (SMap.get 0 w.draws l).zeroExtend 64) ++
      w.pend.flatMap fun p => p.samples.map fun j => BitVec.ofNat 64 j.lane⟩,
    ⟨9, 0x454, 44, []⟩] ++
    ((s.copies.filter fun c => c.wave == wk).zipIdx.map fun c => ⟨6, 0x2A000 + 128 * c.2, 128, c.1.items⟩) ++
    (w.rays.map fun r => ⟨7, 0x2C000 + 256 * r.1, 256, r.2.items⟩)

/-- The bytes of a region: a packing of its items that is the device's own (log 44). -/
def Region.bytes (r : Region) : List Byte := (List.range r.size).map (Config.packing r.kind r.items)

/-- A wave with a region's items read back. DESIGN CHOICE (log 44): STATUS, how fragments stopped, pins, the lend count and
the claim stay as they are. -/
def Wave.ofItems (w : Wave) (kind : Nat) (x : Nat → DWord) : Wave :=
  match kind with
  | 0 =>
    let w := { w with regions := (List.range (min 8 (x 2).toNat)).map fun i => (x (3 + i)).extractLsb' 0 16,
                      clockHi := (List.range 24).foldl (fun m k => SMap.set 0 m k (lowWord (x (21 + k)))) [] }
    [(0x000, 0), (0x010, 11), (0x011, 12), (0x020, 13), (0x021, 14), (0x022, 15), (0x023, 16), (0x028, 17), (0x029, 18),
      (0x02A, 19), (0x02B, 20)].foldl (fun w i => w.writeSpecial i.1 (x i.2)) w
  | 1 => (List.range 192).foldl (fun w i => w.setSplit (i / 8) (i % 8) (x i)) w
  | 2 =>
    { w with pend := (w.pend.foldl (fun (r : List Pending × Nat) p =>
        if p.unperformed then
          (r.1 ++ [{ p with pc := (x (3 * r.2)).extractLsb' 0 39, mask := (lowWord (x (3 * r.2 + 2))) ++ x (3 * r.2 + 1) }], r.2 + 1)
        else (r.1 ++ [p], r.2)) ([], 0)).1 }
  | 3 => { w with gates := (w.gates.reverse.zipIdx.map fun g => g.1.ofWords fun i => x (8 * g.2 + i)).reverse }
  | 4 => { w with batchClosed := lowWord (x 0), batchDone := lowWord (x 1), sharedStep := (x 2).toNat }
  | 5 => { w with draws := (List.range 96).foldl (fun m l => SMap.set 0 m l (lowWord (x l))) [] }
  | _ => w

/-- Write parts of a wave's image: bytes that follow one another are one write of the save engine (R461). -/
def State.storeParts (s : State) (la : Launch) (base : Nat) (w : Wave) (parts : List (Nat × List Byte)) : State :=
  let parts := parts.mergeSort fun a b => decide (a.1 ≤ b.1)
  let cells := parts.flatMap fun c => c.2.zipIdx.map fun b => (s.imagePlace la base w (c.1 + b.2), b.1)
  (byteRuns cells).foldl (fun s r => s.homeWrite r.1 r.2) s

/-- Write a wave's image (R370), and note the regions whose packing is the device's own. -/
def State.storeImage (s : State) (la : Launch) (base wk : Nat) (w : Wave) : State :=
  let b := s.waveBlocks la w
  let regions := s.openRegions wk w
  (s.storeParts la base w (w.image b.1 b.2 la.barList ++ regions.map fun r => (r.off, r.bytes))).modWave wk fun w =>
    { w with regionsSaved := regions }

/-- The items of the regions of a kind that a store has reached while the wave was swapped out, with the regions' places: they are
read back from the image. -/
def State.changedRegions (s : State) (la : Launch) (base : Nat) (w : Wave) : List (Region × (Nat → DWord)) :=
  w.regionsSaved.filterMap fun r =>
    let bs := (List.range r.size).map fun i => s.byte (s.imagePlace la base w (r.off + i))
    if bs = r.bytes then none else some (r, Config.unpacked r.kind bs)

/-- A wave read back from its image; registers that were not saved are 0 (R366, R372). -/
def State.loadImage (s : State) (la : Launch) (base : Nat) (w : Wave) : Wave :=
  let b := s.waveBlocks la w
  let num (off n : Nat) : Nat := natOfBytes ((List.range n).map fun i => s.byte (s.imagePlace la base w (off + i)))
  let w := (List.range 7).foldl (fun w i => w.setK (i + 1) (BitVec.ofNat 96 (num (0x400 + 12 * i) 12))) { w with k := [], x := [], s := [], v := [], tiles := [] }
  let w := (List.range 384).foldl (fun w i => w.setX (i / 96) (i % 96) (BitVec.ofNat 16 (num (0x480 + 2 * i) 2))) w
  let w := b.2.foldl (fun w b => (List.range 8).foldl (fun w i =>
    w.setS (8 * b + i) (BitVec.ofNat 32 (num (0x800 + 4 * (8 * b + i)) 4))) w) w
  let w := b.1.foldl (fun w b => (List.range 768).foldl (fun w i =>
    w.setV (8 * b + i / 96) (i % 96) (BitVec.ofNat 32 (num (0x2000 + 4 * (768 * b + i)) 4))) w) w
  let w := { w with bars := la.barList.map fun b =>
    let old := (w.bars.find? b).getD ⟨false, 0, [], 1⟩
    (b, { old with arrived := num (0xE00 + 32 * b) 1 % 2 == 1, pending := BitVec.ofNat 24 (num (0xE04 + 32 * b) 3),
                   w := (List.range 24).foldl (fun m k => SMap.set 1 m k (BitVec.ofNat 8 (num (0xE08 + 32 * b + k) 1))) [] }) }
  let w := if w.claim then
      (List.range 16384).foldl (fun w i =>
        w.setTile (i / 2048) (i / 32 % 64) (i % 32) (BitVec.ofNat 32 (num (0x1A000 + 4 * i) 4))) w
    else w
  let changed := s.changedRegions la base w
  let w := { w with rays := w.rays.map fun r =>
    match changed.find? fun c => c.1.off == 0x2C000 + 256 * r.1 with
    | some c => (r.1, r.2.ofItems c.2)
    | none => r }
  changed.foldl (fun w c => w.ofItems c.1.kind c.2) w

/-- The lowest run of n free units of a pool; unit 0 holds the bitmap (R368). -/
def State.freeRun (s : State) (pool units n : Nat) : Option Nat :=
  (List.range (units + 1 - n)).find? fun u => decide (1 ≤ u) && (List.range n).all fun i =>
    !(s.byte (pool + (u + i) / 8)).getLsbD ((u + i) % 8)

/-- Why a save fails (R496). -/
inductive SaveFault where
  | noRoom
  | gateArea
  deriving DecidableEq, Repr

/-- Where a workgroup's image goes, or why it cannot be saved (R366, R368). -/
def State.saveBase (s : State) (g : Nat) (la : Launch) : Except SaveFault Nat :=
  let beyond := s.waves.any fun x => decide (x.1 / 16 = g) && (match x.2.gates with
    | e :: _ => decide ((s.tableEntry x.2.dom.toNat e.saveObj.toNat).length < gateArea e + 0x32000)
    | [] => false)
  if beyond then .error .gateArea
  else
    match (s.context la.ctx.toNat).pool with
    | none => .error .noRoom
    | some (pool, size) =>
      match s.freeRun pool (size / 65536) la.imageUnits with
      | some u => .ok (pool + 65536 * u)
      | none => .error .noRoom

/-- The granules of image areas that a save of a workgroup still waits for (R366, R457). -/
def State.saveNeeds (s : State) (g : Nat) : List Need :=
  s.waves.flatMap fun x =>
    match x.2.gates with
    | e :: _ =>
      if x.1 / 16 = g then
        let dom := x.2.dom.toNat
        s.missing dom e.saveObj.toNat (s.tableEntry dom e.saveObj.toNat) (gateArea e) 0x32000
      else []
    | [] => []

/-- Every fragment of a workgroup has stopped and what R364 waits for is done. -/
def State.readyToSave (s : State) (g : Nat) : Bool :=
  s.hasStopped g && !s.matOps.any fun o => o.wave / 16 == g

/-- A workgroup runs on after a save that failed or a restore: withdrawn instructions replay, waits are tested again,
and headers are passed (R364, R372, R496). After a restore a wait for the clock ends (R343). -/
def State.runOn (s : State) (g : Nat) (restored : Bool) : State :=
  let s := { s with workgroups := s.workgroups.modify g fun wg => { wg with phase := .running, request := none, charged := false } }
  let s := s.modWaves g fun w => { w with frags := w.frags.map fun f =>
    { f with stopped := none, age := 32 * s.tick, slotSince := none, wait := if restored then (match f.wait with
      | .clkAt _ => .clkAt 0
      | .clkAbs _ => .clkAt 0
      | x => x) else f.wait } }
  let keys := (s.waves.filter fun x => decide (x.1 / 16 = g)).map fun x => x.1
  let form (s : State) (wk : Nat) : State :=
    match s.waves.find? wk with
    | none => s
    | some w => (w.frags.filter fun f => f.trapLevel == 0 && (w.fragPc f).isSome).foldl (fun s f => s.form wk f.id none false) s
  keys.foldl (fun s wk =>
    let s := State.arrive wk arriveFuel (if restored then form s wk else s)
    match s.waves.find? wk with
    | none => s
    | some w => w.pend.foldl (fun s p => match p.kind with
      | .access => s.replay wk p
      | .sampler => s.replaySampler wk p
      | _ => s) s) s

/-- SWAPOUT is complete when no workgroup of its context is still to be saved (R352). -/
def State.checkSwapout (s : State) (ctx : Nat) : State :=
  let c := s.context ctx
  let left := s.workgroups.any fun x => s.ctxOf x.2 == some ctx && x.2.leaving
  if c.swapComplete.isEmpty || left then s
  else c.swapComplete.foldl (fun s x => s.complete x.2.2 (some (x.1, x.2.1))) (s.modContext ctx fun c => { c with swapComplete := [] })

/-- A save that cannot be made (R496). -/
def State.saveFails (s : State) (g : Nat) (wg : Workgroup) (la : Launch) (byPacket : Bool) : State :=
  let ctx := la.ctx.toNat
  if byPacket then s.killContext ctx { launchFault la 1 10 0 with wgIndex := wg.index, stage := wg.stage, core := wg.core }
  else
    let s := s.modContext ctx fun c =>
      { c with noSwap := if c.noSwap.contains (dieOf wg.core) then c.noSwap else c.noSwap ++ [dieOf wg.core] }
    s.chargeOverrun.runOn g false

/-- Write the image of a workgroup at an address and leave its core (R363 to R369): its rays run on first (R308), and what it
has written goes with it, to whichever core takes it (R240). -/
def State.writeImage (s : State) (g : Nat) (wg : Workgroup) (la : Launch) (base : Nat) : State :=
  let s := match (s.context la.ctx.toNat).pool with
    | some (pool, _) => s.markUnits pool ((base - pool) / 65536) la.imageUnits true
    | none => s
  let s := s.withdrawSteps g
  let s := s.modWaves g fun w => w.landAll.stopWhere fun _ => true
  let s := ((s.waves.filter fun x => decide (x.1 / 16 = g)).map fun x => x.1).foldl State.runRaysOn s
  let ws := s.waves.filter fun x => decide (x.1 / 16 = g)
  let chunks : Word := ws.foldl (fun m x => m ||| x.2.chunks) 0
  let copies := (s.copies.filter fun c => c.wave / 16 == g).length
  let header : Region := ⟨8, 0, 256, [la.lid.zeroExtend 64, chunks.zeroExtend 64] ++
    [wg.stage, wg.index, wg.crank, wg.core, la.waves, la.scratch, copies].map (BitVec.ofNat 64)⟩
  let words (m : SMap DWord) : List Byte := (List.range la.nbar).flatMap fun b => bytesOfNat 8 (SMap.get 0 m b).toNat
  let s := [(0, header.bytes), (0x100, words wg.bars), (0x300, words wg.clBars),
      (0x1000, (List.range la.scratch).map fun a => if chunks.getLsbD (a / 8192) then SMap.get 0 wg.scratch a else 0)].foldl
    (fun s c => if c.2.isEmpty then s else s.homeWrite (base + c.1) c.2) s
  let s := ws.foldl (fun s x => s.storeImage la base x.1 x.2) s
  let lend := ws.foldl (fun n x => n + x.2.lend.toNat) 0
  let s := s.modWaves g fun w => { w with v := [], s := [], k := [], x := [], tiles := [] }
  { s.releaseAct wg.core 6 with
           claims := s.claims.filter fun c => c.2 / 16 != g,
           lends := SMap.set 0 s.lends wg.core (SMap.get 0 s.lends wg.core - lend),
           workgroups := s.workgroups.insert g
             { wg with phase := .saved base, scratch := [], bars := [], clBars := [], request := none, since := s.tick } }

/-- WORKGROUP_SAVE: the save engine writes a stopped workgroup's image once matrix operations are done (R364, R367,
R496). -/
def execWorkgroupSave (g : Nat) (s : State) : Host.Outcome State Fault Refusal :=
  match s.workgroups.find? g with
  | none => .next s
  | some wg =>
    match wg.phase, s.launches.find? wg.launch with
    | .stepping _ byPacket, some la =>
      if !s.readyToSave g then .next s
      else
        if s.poolBad la.ctx.toNat then .next (s.killContext la.ctx.toNat { launchFault la 1 4 0 with core := wg.core })
        else
        match s.saveBase g la with
        | .error _ => .next (s.saveFails g wg la byPacket)
        | .ok base =>
          if !(s.saveNeeds g).isEmpty then
            if s.needsFail (s.saveNeeds g) then .next (s.killContext la.ctx.toNat { launchFault la 1 9 6 with core := wg.core })
            else .next (s.requestNeeds (dieOf wg.core) none (s.saveNeeds g))
          else
            let ctx := la.ctx.toNat
            .next (((s.chargeOverrun.writeImage g wg la base).dropSlice ctx wg.core).checkSwapout ctx)
    | _, _ => .next s

/-! ## Restore (R372) -/

/-- A sector of a workgroup's image is poisoned (R460). -/
def State.imageBad (s : State) (g base : Nat) (la : Launch) : Bool :=
  s.anyPoison base (0x1000 + la.scratch + 0x32000 * la.waves) ||
    s.waves.any fun x => decide (x.1 / 16 = g ∧ x.2.gated) &&
      (List.range 0x1900).any fun i => s.poisoned (s.imagePlace la base x.2 (32 * i))

/-- Add a wave's pin counts back on its core, without those that would break the limits of 8 images and 16 blocks there
(R282). -/
def State.restorePins (s : State) (wk core : Nat) (pins : SMap Nat) : State :=
  pins.foldl (fun s p =>
    if s.pinFits core p.1 then
      s.modWave wk fun w => { w with wpins := SMap.set 0 w.wpins p.1 p.2 }
    else s) s

/-- What the waves of a workgroup have in flight goes on at the core it stands on now: stores, copies and builder operations
(R216, R240, R365). -/
def State.moveTo (s : State) (g core : Nat) : State :=
  { s with storeQ := s.storeQ.map fun p => if p.agent.wave / 16 = g then { p with core := core } else p,
           copies := s.copies.map fun c => if c.wave / 16 = g then { c with core := core } else c,
           builds := s.builds.map fun o => if o.wave / 16 = g then { o with core := core } else o }

/-- The copies of a workgroup go on from their records in its image, as state t holds it (R365). -/
def State.resumeCopies (s t : State) (la : Launch) (base g : Nat) : State :=
  { s with copies := (s.copies.foldl (fun (r : List Copy × SMap Nat) c =>
      if c.wave / 16 = g then
        let j := SMap.get 0 r.2 c.wave
        let w := t.waves.find? c.wave
        let back := (w.map fun w => t.changedRegions la base w).getD []
        let c' := match back.find? fun x => x.1.off == 0x2A000 + 128 * j with
          | some x => c.ofItems x.2
          | none => c
        (r.1 ++ [c'], SMap.set 0 r.2 c.wave (j + 1))
      else (r.1 ++ [c], r.2)) ([], [])).1 }

/-- Put a swapped-out workgroup on a core: scratchpad, barrier words, waves, then claims, lend counts and pins; its pool
units are free again. The core keeps no line older than the workgroup's own accesses (R240). -/
def State.readImage (s : State) (g : Nat) (wg : Workgroup) (la : Launch) (base core : Nat) : State :=
  let scratch := (List.range la.scratch).foldl (fun m a => SMap.set 0 m a (s.byte (base + 0x1000 + a))) []
  let words (at_ : Nat) : SMap DWord := (List.range la.nbar).foldl (fun m b => SMap.set 0 m b (s.word64 (base + at_ + 8 * b))) []
  let t := s
  let s := s.modWaves g fun w => { t.loadImage la base w with wblkV := 0, wblkS := 0, slotNo := 12, wpins := [], regionsSaved := [] }
  let s := (s.resumeCopies t la base g).moveTo g core
  let ws := s.waves.filter fun x => decide (x.1 / 16 = g)
  let s := { s with workgroups := s.workgroups.insert g
                      { wg with phase := .running, core := core, scratch := scratch, bars := words 0x100,
                                clBars := words 0x300 } }
  let s := ws.foldl (fun s x =>
    let u : State :=
      { s with waves := s.waves.modify x.1 fun w => { w with slotNo := s.freeSlotNo core (w.no % 4) },
               claims := if x.2.claim then s.claims.insert (4 * core + x.2.no % 4) x.1 else s.claims,
               lends := SMap.set 0 s.lends core (SMap.get 0 s.lends core + x.2.lend.toNat) }
    u.restorePins x.1 core (((t.waves.find? x.1).map fun w => w.wpins).getD [])) s
  (s.acquireAct core 6).freeImage la base

/-- WORKGROUP_RESTORE: a swapped-out workgroup is restored on a core of the die it left (R372); where none can take it
the die swaps out (R360). -/
def execWorkgroupRestore (g : Nat) (s : State) : Host.Outcome State Fault Refusal :=
  match s.workgroups.find? g with
  | none => .next s
  | some wg =>
    match wg.phase, s.launches.find? wg.launch with
    | .saved base, some la =>
      if !s.mayRestore wg then .next s
      else
        match s.coresFor (dieOf wg.core) (.restore g) with
        | some (core :: _) =>
          let ctx := la.ctx.toNat
          if s.imageBad g base la || s.poolBad ctx then .next (s.killContext ctx { launchFault la 1 4 0 with core := wg.core })
          else
            let s := ((s.readImage g wg la base core).runOn g true).startSlice ctx core
            .next ((waveKeys g la.waves).foldl (fun s wk => s.haltWave wk ctx 2) s)
        | _ => .next (s.relieve (dieOf wg.core))
    | _, _ => .next s

end Sys2Proof.Machine
end

