-- ==== Sys2Proof/Machine/Chisel.lean ====
section
/-!
DEFINITION. The Chisel engine's conversions (R197, R198, R458, R471), and the end of waits for granules and
conversions (R457, R458).
-/

namespace Sys2Proof.Machine

/-! ## One tile (R197 step 2) -/

/-- Address of a byte of a conversion's source, whose granule is resident (R197, R471). -/
def State.convSource (s : State) (c : Conv) (off : Nat) : Nat :=
  s.frameAddr c.dom.toNat (SMap.get 0 c.source (off / 65536)) + off % 65536

/-- The elements whose target place lies in a tile: target and source place in nibbles. -/
def Tensor.tileElems (t : Tensor) (tile : Nat) : List (Nat × Nat) :=
  (List.range (t.dim 0 * t.dim 1 * t.dim 2 * t.dim 3)).filterMap fun p =>
    let c := t.coordsAt p
    let at_ (tag : Nat) := t.nibble tag (c.getD 0 0) (c.getD 1 0) (c.getD 2 0) (c.getD 3 0)
    if at_ t.target / 8192 = tile then some (at_ t.target, at_ t.current) else none

/-- The bytes of a tile: every element from its source, zero elsewhere (R196, R197). -/
def State.tileBytes (s : State) (c : Conv) (t : Tensor) (tile : Nat) : SMap Byte :=
  let n := etypeNibbles t.etype
  let source (q : Nat) : Byte := s.byte (s.convSource c q)
  (t.tileElems tile).foldl (fun m e =>
    let off := e.1 / 2 - 4096 * tile
    if n = 1 then
      let x := (source (e.2 / 2)).extractLsb' (4 * (e.2 % 2)) 4
      SMap.set 0 m off (withNibble (e.1 % 2 == 1) (SMap.get 0 m off) (x.zeroExtend 8))
    else (List.range (n / 2)).foldl (fun m i => SMap.set 0 m (off + i) (source (e.2 / 2 + i))) m) []

/-- Bytes of a tile that come from a poisoned source sector (R471). -/
def State.tilePoison (s : State) (c : Conv) (t : Tensor) (tile : Nat) : List Nat :=
  let n := (etypeNibbles t.etype + 1) / 2
  (t.tileElems tile).flatMap fun e => (List.range n).filterMap fun i =>
    if s.poisoned (s.convSource c (e.2 / 2 + i)) then some (e.1 / 2 - 4096 * tile + i) else none

/-- The source granules that a tile still needs, which the engine's reads ask for (R190, R471). -/
def State.tileNeeds (s : State) (c : Conv) (e : ObjEntry) (t : Tensor) (tile : Nat) : List Need :=
  (((t.tileElems tile).map fun x => sourceBase + x.2 / 2 / 65536).eraseDups.filter fun g =>
    !s.granUsable e (s.needWord e g)).map fun g => (c.dom.toNat, c.index, e, g)

/-- Give a tile's target granule a zeroed frame where it has none (R191, R197); none while it must be waited for. -/
def State.targetGranule (s : State) (c : Conv) (e : ObjEntry) (g : Nat) : Option State :=
  let w := s.granuleWord e.extroot g
  if granResident e w then some s
  else if granTier w = 3 ∧ !granMoving w then
    match s.getFrame c.die.toNat with
    | some (frame, t) =>
      let t := (t.dropLines (frame * 65536) 65536).clearRange (frame * 65536) 65536
      some ((t.setGranule e.extroot g (mkGranule 0 true false frame)).touch c.dom.toNat c.index g)
    | none => none
  else none

/-- End of a conversion: CURRENT becomes TARGET, the source granules are free, nothing moves them any more, and a queued
conversion starts (R197 step 3). -/
def State.endConversion (s : State) (n : Nat) (c : Conv) : State :=
  let t := s.tensorAt c.desc
  let mine (r : GranReq) : Bool := r.entry.tdesc == c.desc && decide (sourceBase ≤ r.granule)
  let moving := s.requests.flatMap fun q => (q.2.filter mine).filterMap fun r => r.moving
  let s := { s with convs := s.convs.eraseIdx n, requests := s.requests.map fun q => (q.1, q.2.filter fun r => !mine r) }
  let s := moving.foldl State.returnFrame s
  let w := s.word64 c.desc
  let s := s.setWord64 c.desc ((w &&& ~~~(0x10F00#64)) ||| BitVec.ofNat 64 (t.target * 0x100))
  let s := c.source.foldl (fun s x =>
    let s := if granPresent x.2 && granTier x.2 != 2 then s.dropLines (granFrame x.2 * 65536) 65536 else s
    s.returnGranule c.dom.toNat x.2) s
  if t.qv then
    let s := s.queueLayout (s.tensorAt c.desc) false t.qlayout
    s.startConversion c.die.toNat c.dom.toNat c.index (s.tableEntry c.dom.toNat c.index) t.qlayout
  else s

/-- CONVERSION_TILE: a tile that is not yet converted is converted, as one step; the conversion ends with its last
tile (R197). Stores accepted before are performed first (R198); its reads of the source wait for granules (R471). -/
def execConversionTile (n tile : Nat) (s : State) : Host.Outcome State Fault Refusal :=
  if s.halted then .next s
  else
  match s.convs[n]? with
  | none => .next s
  | some c =>
    let t := s.tensorAt c.desc
    let e := s.tableEntry c.dom.toNat c.index
    let e := { e with w1 := BitVec.ofNat 64 c.extroot, w2 := BitVec.ofNat 64 c.desc }
    let g := 4096 * tile / 65536
    if t.tiles ≤ tile ∨ s.tileDone t tile ∨ s.tensorDamaged { e with w0 := 0x1000000000000000#64 } then .next s
    else if !(s.tileNeeds c e t tile).isEmpty then .next (s.requestNeeds c.die.toNat none (s.tileNeeds c e t tile))
    else
      match s.targetGranule c e g with
      | none =>
        if granTier (s.granuleWord e.extroot g) = 3 then .next s
        else .next (s.request c.die.toNat c.dom.toNat c.index e g none)
      | some s =>
        let s := s.drainStores fun p => decide (p.acc.dom = c.dom ∧ refIndex p.acc.ref = c.index)
        let bytes := s.tileBytes c t tile
        let bad := s.tilePoison c t tile
        let base := s.addrOf c.dom.toNat e (4096 * tile)
        let s := (s.clearRange base 4096)
        let s := bytes.foldl (fun s b => s.setByte (base + b.1) b.2) s
        let s := bad.foldl (fun s i => s.addPoison (base + i) 1) s
        let s := s.setByte (t.bitmap + tile / 8) (s.byte (t.bitmap + tile / 8) ||| BitVec.ofNat 8 (2 ^ (tile % 8)))
        let s := { s with convs := s.convs.set n { c with dead := false } }
        let whole := (List.range t.tiles).all fun k => s.tileDone t k
        .next (if whole then s.endConversion n c else s).retryWaiters

/-! ## Timeouts (R457, R458) -/

/-- The engine operation of a step asks for a granule. -/
def asksFor (o : Host.Outcome State Fault Refusal) (dom index g : Nat) : Bool :=
  match o with
  | .next t => t.requests.any fun q => q.2.any fun r => decide (r.dom.toNat = dom ∧ r.index = index ∧ r.granule = g)
  | _ => false

/-- Engine operations that wait for a granule: their waves and instructions. -/
def State.engineWaiters (s : State) (dom index g : Nat) : List (Nat × CodeAddr) :=
  let t := { s with requests := [] }
  let pick (n : Nat) (run : Nat → Host.Outcome State Fault Refusal) (op : Nat → Option (Nat × CodeAddr)) :
      List (Nat × CodeAddr) :=
    (List.range n).filterMap fun i => if asksFor (run i) dom index g then op i else none
  (pick s.copies.length (fun i => execCopyComplete i t) (fun i => (s.copies[i]?).map fun c => (c.wave, c.pc)) ++
    pick s.matOps.length (fun i => execMatrixOpComplete i (.done 0) t) (fun i => (s.matOps[i]?).map fun c => (c.wave, c.pc)) ++
    pick s.colls.length (fun i => execCollectiveComplete i (.done 0) t) (fun i => (s.colls[i]?).map fun c => (c.wave, c.pc)) ++
    pick s.builds.length (fun i =>
        let one := { t with builds := (t.builds.drop i).take 1 }
        match t.builds[i]? with
        | some o => if o.started then execArmatureOpComplete o.die one else execArmatureOpStart o.die one
        | none => .next s)
      (fun i => (s.builds[i]?).map fun c => (c.wave, c.pc))).eraseDups

/-- A save that waits for a granule of a gate image area kills its context (R496). -/
def State.failSaves (s : State) (c : LateCause) (dom index g : Nat) : State :=
  let bad := s.workgroups.filterMap fun x =>
    if x.2.stepping.isSome && s.readyToSave x.1 &&
        (s.saveNeeds x.1).any fun n => decide (n.1 = dom ∧ n.2.1 = index ∧ n.2.2.2 = g) then
      (s.launches.find? x.2.launch).map fun la => (la, x.2.core)
    else none
  bad.foldl (fun s x => s.killContext x.1.ctx.toNat { launchFault x.1 1 9 (lateCode c) with core := x.2 }) s

/-- A request of a die fails, and with it everything that waits on its granule: cause 0x06, or 0x08 where ATS does not translate
its copy; queues and signal writes ask again (R457, R458, R468). -/
def State.failRequest (s : State) (die : Nat) (r : GranReq) (c : LateCause) : State :=
  let dom := r.dom.toNat
  let s := { s with requests := SMap.set [] s.requests die ((SMap.get [] s.requests die).filter fun x => x != r) }
  let waiters := s.engineWaiters dom r.index r.granule
  let s := s.failParked c fun s a => s.waitsGranule a dom r.index r.granule
  let s := s.failHolders c fun w => match w with
    | .granule d i g v => if d = dom ∧ i = r.index ∧ g = r.granule then some v else none
    | _ => none
  let s := s.failRecords c fun s a => s.waitsGranule a dom r.index r.granule
  ((s.failSaves c dom r.index r.granule).failEngines c waiters).rearmQueues.retrySignals

/-- The copy of a granule that a request brings in reads host memory that ATS does not translate (R468). -/
def State.copyFails (s : State) (r : GranReq) : Bool :=
  let w := s.needWord r.entry r.granule
  granPresent w && decide (granTier w = 2) && !Config.translates (s.pasid r.dom.toNat) (granFrame w) false s.tick

/-- MIGRATION_MOVE: a die's engine takes its oldest request that has not started. One that fails does so at once (R457, R468); one
that has become idle is dropped; for another a frame is taken, and the granule starts to move (R191 steps 1 to 3). -/
def execMigrationMove (die : BitVec 2) (s : State) : Host.Outcome State Fault Refusal :=
  if s.halted then .next s
  else
  let q := SMap.get [] s.requests die.toNat
  match q.findIdx? fun r => r.moving.isNone with
  | none => .next s
  | some i =>
    match q[i]? with
    | none => .next s
    | some r =>
      let w := s.needWord r.entry r.granule
      if s.failsAtOnce r.entry w then .next (s.failRequest die.toNat r .residency)
      else if granResident r.entry w || r.entry.pinned || granMoving w then
        .next { s with requests := SMap.set [] s.requests die.toNat (q.eraseIdx i) }
      else if s.copyFails r then .next (s.failRequest die.toNat r .translation)
      else
        match s.getFrame die.toNat with
        | none => .next s
        | some (frame, t) => .next (t.startMove die.toNat i r frame)

/-- RESIDENCY_TIMEOUT: a request for which no frame of the die has become free for RESLIM fails (R457). -/
def execResidencyTimeout (die : BitVec 2) (n : Nat) (s : State) : Host.Outcome State Fault Refusal :=
  match (SMap.get [] s.requests die.toNat)[n]? with
  | none => .next s
  | some r => .next (if r.moving.isSome ∨ fieldOf (s.reg 0x0920) 0 32 = 0 ∨ (s.getFrame die.toNat).isSome then s
      else s.failRequest die.toNat r .residency)

/-- Engine operations that wait for the end of the conversion on a descriptor: a copy with a side of bytes in the tensor, and a
collective on it (R199, R458). The other engines read tensors by coordinates, which find their bytes meanwhile (R198); a
builder's objects are no tensors. -/
def State.conversionWaiters (s : State) (desc : Nat) : List (Nat × CodeAddr) :=
  let mine (e : ObjEntry) : Bool := e.kind == 1 && e.tdesc == desc
  let side (x : Copy) (scratch : Option (Nat × Nat)) (e : ObjEntry) : Bool := scratch.isNone && mine e && !x.isTensor e
  (((s.copies.filter fun x => (side x x.srcScratch x.srcEntry || side x x.dstScratch x.dstEntry) && s.onCore x.wave).map fun x =>
      (x.wave, x.pc)) ++
    ((s.colls.filter fun x => x.entries.any mine).map fun x => (x.wave, x.pc))).eraseDups

/-- CONVERSION_WAIT_TIMEOUT: a conversion has set no bit for RESLIM, and every wait on it fails; the conversion itself
goes on (R458). -/
def execConversionWaitTimeout (n : Nat) (s : State) : Host.Outcome State Fault Refusal :=
  match s.convs[n]? with
  | none => .next s
  | some c =>
    if fieldOf (s.reg 0x0920) 0 32 = 0 then .next s
    else
      let s := { s with convs := s.convs.set n { c with dead := true } }
      .next (s.replayParked.failEngines .residency (s.conversionWaiters c.desc))

end Sys2Proof.Machine
end

