-- ==== Sys2Proof/Machine/Control.lean ====
section
/-!
DEFINITION. Class 0x4 control transfers (R159 to R164); EXIT stands with the end of a wave.
-/

namespace Sys2Proof.Machine

/-- The word after the instruction (R159). -/
def Env.next (e : Env) (i : Instr) : CodeAddr := e.pc + BitVec.ofNat 39 (Instr.words i)

/-- A code address from a 64-bit value. -/
def codeAddr (t : DWord) : CodeAddr := t.extractLsb' 0 39

/-- The lanes that take a direct branch go to its target; a bad target that some lane takes is cause 0x41 (R161,
R442). -/
def branchTo (f : CFmt) (takes : Env → Nat → Bool) (e : Env) (s : State) : Act :=
  let taking := (lanesOf e.lanes).filter fun l => takes e l
  if taking.isEmpty then .jump s []
  else if !s.goodTarget e (e.direct f) then .trap 0x41 (e.direct f)
  else .jump s (taking.map fun l => (l, codeAddr (e.direct f)))

/-- BRA (R161). -/
def execBra (f : CFmt) : State → Host.Outcome State Fault Refusal := issue (.bra f) (branchTo f fun _ _ => true)

/-- Which lanes a BRP takes: its kinds .t, .f, .any, .all (R160, R161). -/
def brpTakes (f : CFmt) (e : Env) (l : Nat) : Bool :=
  match f.kind.toNat with
  | 0 => e.pbit f.cond l
  | 1 => !e.pbit f.cond l
  | 2 => (lanesOf e.lanes).any fun m => e.pbit f.cond m
  | _ => (lanesOf e.lanes).all fun m => e.pbit f.cond m

/-- BRP (R161). -/
def execBrp (f : CFmt) : State → Host.Outcome State Fault Refusal := issue (.brp f) (branchTo f (brpTakes f))

/-- Which way a BRU goes: .nz, .z, .neg, .nneg of a value read once as s32 (R160, R161). -/
def bruTakes (f : CFmt) (e : Env) : Bool :=
  let x : Word := lowWord (e.read .s32 f.cond e.first)
  match f.kind.toNat with
  | 0 => x != 0
  | 1 => x == 0
  | 2 => x.msb
  | _ => !x.msb

/-- BRU (R161). -/
def execBru (f : CFmt) : State → Host.Outcome State Fault Refusal :=
  issue (.bru f) (branchTo f fun e _ => bruTakes f e)

/-- The writes of a link: a value in every executing lane, or once to a scalar pair (R162). -/
def linkWrites (e : Env) (i : Instr) (link : Operand) : List RegWrite :=
  let x : DWord := (e.next i).zeroExtend 64
  if isS link then writeTo .z64 link 0 x else e.lanewise fun l => writeTo .z64 link l x

/-- The state with a short-latency instruction's register writes in the wave. -/
def State.writeNow (s : State) (e : Env) (ws : List RegWrite) : State :=
  s.modWave e.wk fun w => (w.markBlocks ws).applyAll ws

/-- CALL (R162); a bad target has been found in stage A (`State.badCall`). -/
def execCall (f : CFmt) : State → Host.Outcome State Fault Refusal :=
  issue (.call f) fun e s =>
    .jump (s.writeNow e (linkWrites e (.call f) f.cond)) ((lanesOf e.lanes).map fun l => (l, codeAddr (e.direct f)))

/-- The lanes go where a pair says; a bad target in any lane stops them all (R162, R442). -/
def indirect (e : Env) (s t : State) (pair : Operand) : Act :=
  match (lanesOf e.lanes).find? fun l => !s.goodTarget e (e.readRef pair l) with
  | some l => .trap 0x41 (e.readRef pair l)
  | none => .jump t ((lanesOf e.lanes).map fun l => (l, codeAddr (e.readRef pair l)))

/-- CALLI: the target is read before the link is written (R162). -/
def execCalli (f : CFmt) : State → Host.Outcome State Fault Refusal :=
  issue (.calli f) fun e s => indirect e s (s.writeNow e (linkWrites e (.calli f) f.cond)) f.target

/-- RET (R162). -/
def execRet (f : CFmt) : State → Host.Outcome State Fault Refusal :=
  issue (.ret f) fun e s => indirect e s s f.cond

/-- JMPI (R162). -/
def execJmpi (f : CFmt) : State → Host.Outcome State Fault Refusal :=
  issue (.jmpi f) fun e s => indirect e s s f.target

/-- REGANG: a gang point with no effect of its own (R164). -/
def execRegang (f : CFmt) : State → Host.Outcome State Fault Refusal :=
  issue (.regang f) fun _ s => .writes s [] .none

end Sys2Proof.Machine
end

