-- ==== Sys2Proof/Machine/Convert.lean ====
section
/-!
DEFINITION. Conversion and packing in class 0x3 (R152 to R157).
-/

namespace Sys2Proof.Machine

/-- A conversion of one value between two types (R153): the code of the destination and the conditions. -/
def convert (dst src : Ty) (sat : Bool) (mode : RMode) (fzSrc fzDst : Bool) (x : Nat) : FRes :=
  let v := src.fmt.decodeFz fzSrc x
  if dst.isFloat then
    if src.isFloat then
      if v = .nan ∧ dst.fmt.nan.isNone then ⟨0, { Cond.none with nv := true }⟩
      else
        let r := dst.fmt.ofVal fzDst mode v
        match v with
        | .fin s _ _ => if r.cond.of_ && sat then ⟨dst.fmt.maxCode s, r.cond⟩ else r
        | _ => r
    else
      let n := src.value x
      let r := dst.fmt.ofInt fzDst mode n
      if r.cond.of_ && sat then ⟨dst.fmt.maxCode (decide (n < 0)), r.cond⟩ else r
  else if src.isFloat then
    let r := FVal.toIntR mode dst.lo dst.hi v
    ⟨(r.1 % 2 ^ dst.width).toNat, r.2⟩
  else ⟨dst.finishInt sat (src.value x), .none⟩

/-- A converted value as CVT writes it: a narrow integer extended to 32 bits by its signedness, a narrow float in the
low bits (R153). -/
def widen (t : Ty) (x : Nat) : DWord :=
  if t.width < 32 ∧ !t.isFloat then BitVec.ofInt 64 (t.value x) &&& 0xFFFFFFFF#64 else BitVec.ofNat 64 x

/-- CVT (R153). -/
def execCvt (f : VFmt) : State → Host.Outcome State Fault Refusal :=
  issue (.cvt f) fun e s =>
    let src := cvtFrom f
    let code := e.rounding f.rnd
    let draws := if code = 6 ∧ !noRounding f.ty src then 1 else 0
    floatAct e s draws (e.results fun l =>
      let r := convert f.ty src f.sat (modeOf code (e.draw l 0) 0 1) (e.wave.flushes src) (e.wave.flushes f.ty)
        (src.elem (e.read src f.a l) 0)
      ⟨writeTo (if f.ty.regs = 2 then .z64 else .z32) f.d l (widen f.ty r.code), [r.cond]⟩)

/-- CVTMX: the value of a over a scale, into element C mod n of D (R157). -/
def execCvtmx (f : VFmt) : State → Host.Outcome State Fault Refusal :=
  issue (.cvtmx f) fun e s =>
    let t := f.ty
    let code := e.rounding f.rnd
    floatAct e s (if code = 6 then 1 else 0) (e.results fun l =>
      let n := t.elems
      let i := e.readZ f.c l % n
      let scale := e.readZ f.b l % 256
      let nan : FRes := ⟨t.fmt.nanCode, { Cond.none with nv := true }⟩
      let r : FRes :=
        if scale = 255 then nan
        else
          match binary32.decodeFz (e.wave.flushes .f32) (Ty.f32.elem (e.read .f32 f.a l) 0) with
          | .nan => nan
          | .inf neg => ⟨t.fmt.maxCode neg, { Cond.none with of_ := true }⟩
          | .fin neg m x =>
            let r := t.fmt.round false (modeOf code (e.draw l 0) 0 1) neg ⟨m, x + 127 - scale, false⟩
            if r.cond.of_ then ⟨t.fmt.maxCode neg, r.cond⟩ else r
      let old := (e.read .z32 f.d l).toNat
      let new := old - t.elem (BitVec.ofNat 64 old) i * 2 ^ (t.width * i) + r.code * 2 ^ (t.width * i)
      ⟨writeTo .z32 f.d l (BitVec.ofNat 64 new), List.replicate i .none ++ [r.cond]⟩)

/-- The type of PACK's sources (R154). -/
def packFrom (t : Ty) : Ty := if t.isFloat then .f32 else if t.signed then .s32 else .z32

/-- Source element i of PACK: for four elements A and B name pairs, and a constant stands for both (R154). -/
def packSource (f : VFmt) (e : Env) (l i : Nat) : Nat :=
  let src := packFrom f.ty
  let second (o : Operand) : Operand :=
    match o with
    | .v n => .v (n + 1)
    | .s n => .s (n + 1)
    | o => o
  let o := if f.ty.elems = 2 then (if i = 0 then f.a else f.b)
    else
      let p := if i < 2 then f.a else f.b
      if i % 2 = 0 then p else second p
  src.elem (e.read src o l) 0

/-- PACK (R154). -/
def execPack (f : VFmt) : State → Host.Outcome State Fault Refusal :=
  issue (.pack f) fun e s =>
    let t := f.ty
    let code := e.rounding f.rnd
    floatAct e s (if code = 6 ∧ t.isFloat then 1 else 0) (e.results fun l =>
      let rs := (List.range t.elems).map fun i =>
        convert t (packFrom t) f.sat (modeOf code (e.draw l 0) i t.elems) (e.wave.flushes (packFrom t))
          (e.wave.flushes t) (packSource f e l i)
      ⟨writeTo t f.d l (Ty.joinRes t rs), rs.map fun r => r.cond⟩)

/-- UNPACK: one element, extended or as its exact f32 value, or scaled (R155). -/
def execUnpack (f : VFmt) : State → Host.Outcome State Fault Refusal :=
  issue (.unpack f) fun e s =>
    let t := f.ty
    let scaled := !isNone f.c
    let code := e.rounding f.rnd
    floatAct e s (if scaled ∧ code = 6 then 1 else 0) (e.results fun l =>
      let x := t.elem (e.read t f.a l) (e.readZ f.b l % t.elems)
      let r : FRes :=
        if !t.isFloat then ⟨(widen t x).toNat, .none⟩
        else
          let v := t.fmt.decodeFz (e.wave.flushes t) x
          if !scaled then binary32.ofVal false .rne v
          else if e.readZ f.c l % 256 = 255 then binary32.nanRes false
          else
            binary32.ofVal (e.wave.flushes .f32) (modeOf code (e.draw l 0) 0 1) (match v with
              | .fin neg m y => .fin neg m (y + (e.readZ f.c l % 256 : Nat) - 127)
              | v => v)
      ⟨writeTo .z32 f.d l (BitVec.ofNat 64 r.code), [r.cond]⟩)

/-- MXSCALE: the E8M0 scale of a block whose absolute maximum is a (R156). -/
def execMxscale (f : VFmt) : State → Host.Outcome State Fault Refusal :=
  issue (.mxscale f) fun e s =>
    let emax : Int := match f.ty with
      | .mxf4 => 2
      | .e4m3 => 8
      | _ => 15
    floatAct e s 0 (e.results fun l =>
      let r : FRes :=
        match binary32.decodeFz (e.wave.flushes .f32) (Ty.f32.elem (e.read .f32 f.a l) 0) with
        | .fin _ m y =>
          if m = 0 then ⟨0x7F, .none⟩
          else ⟨(min (max ((bitLen m : Int) - 1 + y - emax) (-127)) 127 + 127).toNat, .none⟩
        | _ => ⟨0xFF, { Cond.none with nv := true }⟩
      ⟨writeTo .z32 f.d l (BitVec.ofNat 64 r.code), [r.cond]⟩)

end Sys2Proof.Machine
end

