-- ==== Sys2Proof/Machine/Debug.lean ====
section
/-!
DEFINITION. Debugger sessions: opening, halting, resuming, the state of halted waves and halt records (R486 to R490).
-/

namespace Sys2Proof.Machine

/-- Context of a session. -/
def State.sessionCtx (s : State) (n : Nat) : Nat := fieldOf (s.dbgCtl n) 0 12

/-- The session is open. -/
def State.sessionOpen (s : State) (n : Nat) : Bool := (s.dbgCtl n).getLsbD 63

/-- The wave belongs to a context. -/
def State.waveOfCtx (s : State) (w : Wave) (ctx : Nat) : Bool :=
  match s.workgroups.find? w.wg with
  | some g => s.ctxOf g == some ctx
  | none => false

/-! ## Halts (R338, R488, R490) -/

/-- The 32 bytes of a halt record (R490). -/
def haltRecord (w : Wave) (wg : Workgroup) (la : Launch) (reason : BitVec 2) (pc : CodeAddr) (counter : DWord) : List Byte :=
  bytesOfNat 1 reason.toNat ++ bytesOfNat 1 (w.no % 4) ++ bytesOfNat 1 w.slotNo ++ bytesOfNat 1 w.no ++
    bytesOfNat 2 wg.core ++ bytesOfNat 2 la.ctx.toNat ++ bytesOfNat 4 la.lid.toNat ++ bytesOfNat 4 wg.index ++
    bytesOfNat 8 pc.toNat ++ bytesOfNat 8 counter.toNat

/-- A BLOAD of the wave is still to write its registers (R256, R338). -/
def State.loadsRegs (s : State) (wk : Nat) : Bool :=
  s.matOps.any fun o => o.wave == wk && (match o.instr with
    | .bload _ => true
    | _ => false)

/-- HALT_COMPLETE: every outstanding write-back of a halting wave has landed and no trap entry's record is owed;
STATUS.HALT becomes 1 and the halt record is written (R338, R488). -/
def execHaltComplete (wk : Nat) (s : State) : Host.Outcome State Fault Refusal :=
  match s.waves.find? wk with
  | none => .next s
  | some w =>
    match w.halting, s.workgroups.find? w.wg with
    | some (reason, k), some wg =>
      match s.launches.find? wg.launch with
      | none => .next s
      | some la =>
        if (w.pend.any fun p => p.kind != .result) || s.loadsRegs wk || w.frags.any (s.entryOwed wk) then .next s
        else
          let s := s.modWave wk fun w =>
            let w := w.landAll
            { w with status := mkStatus w.gdepth w.tl true, halting := none }
          match s.sessionOf la.ctx.toNat with
          | none => .next s
          | some n =>
            let r := s.reg (0x2030 + 0x40 * n)
            let pc := ((w.slicePc k).or (w.slicePc (lowestSlice (slicesOfLanes w.runnable)))).getD 0
            .next (s.ringNotify ⟨fieldOf r 6 46 * 64, 2 ^ fieldOf r 0 5, 32⟩ 2
              (haltRecord w wg la reason pc (s.counter (dieOf wg.core))))
    | _, _ => .next s

/-- A HALT request: it stands, and every resident wave of the context stops at its next instruction boundary (R488). -/
def State.haltContext (s : State) (n : Nat) : State :=
  let ctx := s.sessionCtx n
  let s := { s with haltReq := if s.haltReq.contains n then s.haltReq else s.haltReq ++ [n] }
  let keys := (s.waves.filter fun x => s.onCore x.1 && s.waveOfCtx x.2 ctx).map fun x => x.1
  keys.foldl (fun s wk => s.haltWave wk ctx 1) s

/-- A wave runs on from its resume PCs, join targets and hold bits as they stand (R488). -/
def State.resumeWave (s : State) (wk : Nat) : State :=
  let s := s.modWave wk fun w =>
    { w with status := mkStatus w.gdepth w.tl false, halting := none,
             frags := w.frags.map fun f => { f with hold := if (w.hold &&& f.slices) = 0 then none else f.hold } }
  if !s.onCore wk then s
  else
    match s.waves.find? wk with
    | none => s
    | some w => w.frags.foldl (fun s f => if f.trapLevel = 0 ∧ (w.fragPc f).isSome then s.settle wk f.id none false else s) s

/-- RESUME: the standing request is withdrawn and every halted wave of the context runs on (R488). -/
def State.resumeContext (s : State) (n : Nat) : State :=
  let ctx := s.sessionCtx n
  let s := { s with haltReq := s.haltReq.filter fun x => x != n }
  let keys := (s.waves.filter fun x => (x.2.halted || x.2.halting.isSome) && s.waveOfCtx x.2 ctx).map fun x => x.1
  keys.foldl State.resumeWave s

/-- DEBUG_HALT (R488). -/
def execDebugHalt (n : BitVec 3) (s : State) : Host.Outcome State Fault Refusal :=
  .next (if s.sessionOpen n.toNat then s.haltContext n.toNat else s)

/-- DEBUG_RESUME (R488). -/
def execDebugResume (n : BitVec 3) (s : State) : Host.Outcome State Fault Refusal :=
  .next (if s.sessionOpen n.toNat then s.resumeContext n.toNat else s)

/-- DEBUG_SESSION_OPEN: a write of DBGCTL with EN = 1; it is ignored where another session is attached to the context,
and CTX keeps while EN is 1. Its RESUME and HALT bits act after it (R487). -/
def execDebugSessionOpen (n : BitVec 3) (value : DWord) (s : State) : Host.Outcome State Fault Refusal :=
  let k := n.toNat
  let ctx := if s.sessionOpen k then s.sessionCtx k else fieldOf value 0 12
  let taken := (List.range 8).any fun m => m != k && s.sessionOpen m && s.sessionCtx m == ctx
  if !value.getLsbD 63 ∨ taken then .next s
  else
    let s := s.setReg (0x2000 + 0x40 * k) (0x8000000000000000#64 ||| (value &&& 0x4000000000000000#64) ||| BitVec.ofNat 64 ctx)
    let s := if value.getLsbD 60 then s.resumeContext k else s
    .next (if value.getLsbD 61 then s.haltContext k else s)

/-- DEBUG_SESSION_CLOSE: a write of DBGCTL with EN = 0 clears BRKEN and acts as RESUME (R487). -/
def execDebugSessionClose (n : BitVec 3) (s : State) : Host.Outcome State Fault Refusal :=
  let k := n.toNat
  if s.sessionOpen k then
    let s := s.resumeContext k
    .next (s.setReg (0x2000 + 0x40 * k) (s.dbgCtl k &&& 0xFFF#64))
  else .next s

/-- A register write to DBGCTL: with EN = 1 it opens the session or acts on it, with EN = 0 it closes it; CTX is stored where
EN is 0 at the write (R487). -/
def execDbgctlWrite (n : BitVec 3) (value : DWord) (s : State) : Host.Outcome State Fault Refusal :=
  if value.getLsbD 63 then execDebugSessionOpen n value s
  else if s.sessionOpen n.toNat then execDebugSessionClose n s
  else .next (s.setReg (0x2000 + 0x40 * n.toNat) (value &&& 0xFFF#64))

/-! ## The state of a halted wave (R486, R489) -/

/-- The key of the halted wave of the session's context that DBGSEL names. -/
def State.selected (s : State) (n : Nat) : Option Nat :=
  let sel := s.reg (0x2010 + 0x40 * n)
  (List.find? (fun x =>
    match s.workgroups.find? x.2.wg with
    | some g => x.2.halted && g.core == fieldOf sel 0 11 && x.2.no % 4 == fieldOf sel 24 2 && x.2.slotNo == fieldOf sel 28 4 &&
        s.ctxOf g == some (s.sessionCtx n)
    | none => false) s.waves).map fun x => x.1

/-- The item exists: no reserved space, no register beyond the allocation, no lane above 95, no slice above 23. -/
def itemExists (la : Launch) (space index : Nat) : Bool :=
  match space with
  | 1 => decide (index / 256 % 256 < la.vregs ∧ index % 128 < 96)
  | 2 => decide (index % 128 < la.sregs)
  | 4 => decide (index / 256 % 128 < 96)
  | 6 => decide (index % 32 < 24)
  | 9 => decide (index % 32 < 24)
  | n => decide (n ≤ 9)

/-- The value of an item of a wave (R489). -/
def Wave.item (w : Wave) (wg : Workgroup) (la : Launch) (counter : DWord) (space index : Nat) : DWord :=
  match space with
  | 0 => specialRead w wg la counter 0 0 (index % 4096)
  | 1 => (w.vreg (index / 256 % 256) (index % 128)).zeroExtend 64
  | 2 => (w.sreg (index % 128)).zeroExtend 64
  | 3 => if index / 256 % 2 = 0 then (w.kreg (index % 8)).extractLsb' 0 64 else ((w.kreg (index % 8)).extractLsb' 64 32).zeroExtend 64
  | 4 => (w.xreg (index % 4) (index / 256 % 128)).signExtend 64
  | 5 => if w.claim then (w.tile (index / 65536 % 8) (index / 256 % 64) (index % 32)).zeroExtend 64 else 0
  | 6 => w.splitWord (index % 32) (index / 256 % 8)
  | 7 => (w.regions.reverse.getD (index % 8) 0).zeroExtend 64
  | 8 => match w.gates.reverse[index % 4]? with
    | some g => g.word (index / 256 % 8)
    | none => 0
  | 9 => (SMap.get 0 w.clockHi (index % 32)).zeroExtend 64
  | _ => 0

/-- Write an item of a wave; what R489 makes read-only keeps. -/
def Wave.setItem (w : Wave) (space index : Nat) (x : DWord) : Wave :=
  match space with
  | 0 => w.writeSpecial (index % 4096) x
  | 1 => w.setV (index / 256 % 256) (index % 128) (lowWord x)
  | 2 => w.setS (index % 128) (lowWord x)
  | 3 => let m := w.kreg (index % 8)
    w.setK (index % 8) (if index / 256 % 2 = 0 then m.extractLsb' 64 32 ++ x else lowWord x ++ m.extractLsb' 0 64)
  | 4 => w.setX (index % 4) (index / 256 % 128) (x.extractLsb' 0 16)
  | 5 => if w.claim then w.setTile (index / 65536 % 8) (index / 256 % 64) (index % 32) (lowWord x) else w
  | 6 => w.setSplit (index % 32) (index / 256 % 8) x
  | _ => w

/-- What a DBGDATA access reaches: the wave, as its save image holds it where it is swapped out, with the image's
address; or none, a refusal (R489). -/
def State.debugTarget (s : State) (n : Nat) : Option (Nat × Wave × Workgroup × Launch × Option Nat × Nat × Nat) :=
  let adr := s.reg (0x2018 + 0x40 * n)
  let space := fieldOf adr 60 4
  let index := fieldOf adr 0 32
  match s.selected n with
  | none => none
  | some wk =>
    match s.waves.find? wk with
    | none => none
    | some w =>
      match s.workgroups.find? w.wg with
      | none => none
      | some wg =>
        match s.launches.find? wg.launch with
        | none => none
        | some la =>
          if !itemExists la space index then none
          else
            match wg.phase with
            | .saved base => some (wk, s.loadImage la base w, wg, la, some base, space, index)
            | _ => some (wk, w, wg, la, none, space, index)

/-- The session may reach an item: it holds the right of a callee's domain, or the item is STATUS, DOMAIN or REGION
(R486). -/
def State.mayReach (s : State) (n : Nat) (w : Wave) (space index : Nat) : Bool :=
  !w.gated || s.holdsRight n w.dom.toNat || (space == 0 && decide (1 ≤ index % 4096 ∧ index % 4096 ≤ 3))

/-- Set DBGSTAT.ERR. -/
def State.debugError (s : State) (n : Nat) : State :=
  s.setReg (0x2028 + 0x40 * n) (s.reg (0x2028 + 0x40 * n) ||| 0x8000000000000000#64)

/-- DBGDATA_READ: DBGDATA takes the selected item; a refused read gives 0 and sets ERR (R489). -/
def execDbgdataRead (n : BitVec 3) (s : State) : Host.Outcome State Fault Refusal :=
  let k := n.toNat
  let put (x : DWord) (s : State) : State := s.setReg (0x2020 + 0x40 * k) x
  if !s.sessionOpen k then .next (put 0 (s.debugError k))
  else
    match s.debugTarget k with
    | none => .next (put 0 (s.debugError k))
    | some (_, w, wg, la, _, space, index) =>
      .next (put (if s.mayReach k w space index then w.item wg la (s.counter (dieOf wg.core)) space index else 0) s)

/-- DBGDATA_WRITE: the selected item is written; a refused write is discarded and sets ERR (R489). -/
def execDbgdataWrite (n : BitVec 3) (value : DWord) (s : State) : Host.Outcome State Fault Refusal :=
  let k := n.toNat
  if !s.sessionOpen k then .next (s.debugError k)
  else
    match s.debugTarget k with
    | none => .next (s.debugError k)
    | some (wk, w, _, la, base, space, index) =>
      if !s.mayReach k w space index then .next s
      else
        let w := w.setItem space index value
        match base with
        | none => .next (s.modWave wk fun _ => w)
        | some base =>
          let t := s.storeImage la base wk w
          let saved := ((t.waves.find? wk).map fun w => w.regionsSaved).getD []
          .next (t.modWave wk fun _ => { w with v := [], s := [], k := [], x := [], tiles := [], regionsSaved := saved })

end Sys2Proof.Machine
end

