-- ==== Sys2Proof/Machine/Float.lean ====
section
/-!
DEFINITION. Class 0x2: the floating-point instructions, per lane and per element (R143 to R151).
-/

namespace Sys2Proof.Machine

/-- A unary rounded function as a FloatOp. -/
def unary (o : FFmt → Bool → RMode → FVal → FRes) : FloatOp := fun f fz m a _ _ => o f fz m a

/-- round(a + b), round(a − b), round(a × b), round(a × b + c) with one rounding (R143). -/
def opFadd : FloatOp := fun f fz m a b _ => f.addR fz m a b
def opFsub : FloatOp := fun f fz m a b _ => f.addR fz m a b.neg
def opFmul : FloatOp := fun f fz m a b _ => f.mulR fz m a b
def opFfma : FloatOp := fun f fz m a b c =>
  match FVal.mul a b with
  | (.nan, nv) => f.nanRes nv
  | (p, _) => f.addR fz m p c
/-- FMIN, FMAX and FMED3 select an operand (R145). -/
def opFmin : FloatOp := fun f fz m a b _ => ⟨(f.ofVal fz m (FVal.min a b)).code, .none⟩
def opFmax : FloatOp := fun f fz m a b _ => ⟨(f.ofVal fz m (FVal.max a b)).code, .none⟩
def opFmed3 : FloatOp := fun f fz m a b c =>
  ⟨(f.ofVal fz m (FVal.max (FVal.min a b) (FVal.min (FVal.max a b) c))).code, .none⟩
def opFdiv : FloatOp := fun f fz m a b _ => f.divR fz m a b
/-- FFLOOR, FCEIL and FTRUNC: the mode is the instruction's own (R149). -/
def opInt (mode : RMode) : FloatOp := fun f fz _ a _ _ => f.intR fz mode a
def opFmant : FloatOp := fun f _ _ a _ _ => f.mantR a

/-- FABS and FNEG act on the sign bit of each element and on nothing else (R135, R137). -/
def opFabs : IntOp := fun t a _ _ => (a % 2 ^ (t.width - 1) : Nat)
def opFneg : IntOp := fun t a _ _ => (Nat.xor a (2 ^ (t.width - 1)) : Nat)

/-- The condition of FCMP and the flag it raises (R146). -/
def floatCompare (cc : BitVec 3) (a b : FVal) : Bool × Cond :=
  let o := FVal.cmp a b
  let nan := o.isNone
  let nv : Cond := { Cond.none with nv := nan }
  match cc.toNat with
  | 0 => (o == some .eq, .none)
  | 1 => (o != some .eq, .none)
  | 2 => (o == some .lt, nv)
  | 3 => (o == some .lt || o == some .eq, nv)
  | 4 => (o == some .gt, nv)
  | 5 => (o == some .gt || o == some .eq, nv)
  | 6 => (!nan, .none)
  | _ => (nan, .none)

/-- FDOT2 and FDOT4: an exact sum of exact products and the f32 addend, rounded once (R151). -/
def dotOp (f : VFmt) (e : Env) (s : State) : Act :=
  let t := f.ty
  let fz := e.wave.flushes t
  let fz32 := e.wave.flushes .f32
  let code := e.rounding f.rnd
  floatAct e s (if code = 6 then 1 else 0) (e.results fun l =>
    let v (p : Operand) (i : Nat) := t.fmt.decodeFz fz (t.elem (e.read t p l) i)
    let c := binary32.decodeFz fz32 (Ty.f32.elem (e.read .f32 f.c l) 0)
    let terms := ((List.range t.elems).map fun i => FVal.mul (v f.a i) (v f.b i)) ++ [(c, false)]
    let r := binary32.sumR fz32 (modeOf code (e.draw l 0) 0 1) terms
    let r := if f.sat then binary32.clamp01 r else r
    ⟨writeTo .f32 f.d l (BitVec.ofNat 64 r.code), [r.cond]⟩)

/-- FADD (R143). -/
def execFadd (f : VFmt) : State → Host.Outcome State Fault Refusal := issue (.fadd f) (floatOp opFadd true f)

/-- FSUB (R143). -/
def execFsub (f : VFmt) : State → Host.Outcome State Fault Refusal := issue (.fsub f) (floatOp opFsub true f)

/-- FMUL (R143). -/
def execFmul (f : VFmt) : State → Host.Outcome State Fault Refusal := issue (.fmul f) (floatOp opFmul true f)

/-- FFMA (R143). -/
def execFfma (f : VFmt) : State → Host.Outcome State Fault Refusal := issue (.ffma f) (floatOp opFfma true f)

/-- FMIN (R145). -/
def execFmin (f : VFmt) : State → Host.Outcome State Fault Refusal := issue (.fmin f) (floatOp opFmin false f)

/-- FMAX (R145). -/
def execFmax (f : VFmt) : State → Host.Outcome State Fault Refusal := issue (.fmax f) (floatOp opFmax false f)

/-- FABS (R143). -/
def execFabs (f : VFmt) : State → Host.Outcome State Fault Refusal := issue (.fabs f) (vecOp opFabs f)

/-- FNEG (R143). -/
def execFneg (f : VFmt) : State → Host.Outcome State Fault Refusal := issue (.fneg f) (vecOp opFneg f)

/-- FCMP: a predicate bit per lane, NV for an ordered comparison with a NaN (R146). -/
def execFcmp (f : VFmt) : State → Host.Outcome State Fault Refusal :=
  issue (.fcmp f) fun e s =>
    let v (p : Operand) (l : Nat) := f.ty.fmt.decodeFz (e.wave.flushes f.ty) (f.ty.elem (e.read f.ty p l) 0)
    floatAct e s 0 (e.results fun l =>
      let r := floatCompare f.rnd (v f.a l) (v f.b l)
      ⟨writeP f.d l r.1, [r.2]⟩)

/-- FCLASS: the class bit of a, read without flushing, against the mask (R147). -/
def execFclass (f : VFmt) : State → Host.Outcome State Fault Refusal :=
  issue (.fclass f) fun e s =>
    floatAct e s 0 (e.results fun l =>
      let bit := f.ty.fmt.classBit (f.ty.fmt.decode (f.ty.elem (e.read f.ty f.a l) 0))
      ⟨writeP f.d l ((e.readZ f.b l).testBit bit), []⟩)

/-- FRCP (R148). -/
def execFrcp (f : VFmt) : State → Host.Outcome State Fault Refusal := issue (.frcp f) (floatOp (unary FFmt.rcpR) true f)

/-- FRSQ (R148). -/
def execFrsq (f : VFmt) : State → Host.Outcome State Fault Refusal := issue (.frsq f) (floatOp (unary FFmt.rsqR) true f)

/-- FSQRT (R148). -/
def execFsqrt (f : VFmt) : State → Host.Outcome State Fault Refusal := issue (.fsqrt f) (floatOp (unary FFmt.sqrtR) true f)

/-- FDIV (R148). -/
def execFdiv (f : VFmt) : State → Host.Outcome State Fault Refusal := issue (.fdiv f) (floatOp opFdiv true f)

/-- FEXP2 (R148). -/
def execFexp2 (f : VFmt) : State → Host.Outcome State Fault Refusal := issue (.fexp2 f) (floatOp (unary FFmt.exp2R) true f)

/-- FLOG2 (R148). -/
def execFlog2 (f : VFmt) : State → Host.Outcome State Fault Refusal := issue (.flog2 f) (floatOp (unary FFmt.log2R) true f)

/-- FSIN (R148). -/
def execFsin (f : VFmt) : State → Host.Outcome State Fault Refusal := issue (.fsin f) (floatOp (unary FFmt.sinR) true f)

/-- FCOS (R148). -/
def execFcos (f : VFmt) : State → Host.Outcome State Fault Refusal := issue (.fcos f) (floatOp (unary FFmt.cosR) true f)

/-- FTANH (R148). -/
def execFtanh (f : VFmt) : State → Host.Outcome State Fault Refusal := issue (.ftanh f) (floatOp (unary FFmt.tanhR) true f)

/-- FFLOOR (R149). -/
def execFfloor (f : VFmt) : State → Host.Outcome State Fault Refusal := issue (.ffloor f) (floatOp (opInt .rdn) false f)

/-- FCEIL (R149). -/
def execFceil (f : VFmt) : State → Host.Outcome State Fault Refusal := issue (.fceil f) (floatOp (opInt .rup) false f)

/-- FTRUNC (R149). -/
def execFtrunc (f : VFmt) : State → Host.Outcome State Fault Refusal := issue (.ftrunc f) (floatOp (opInt .rz) false f)

/-- FRINT (R149). -/
def execFrint (f : VFmt) : State → Host.Outcome State Fault Refusal := issue (.frint f) (floatOp (unary FFmt.intR) true f)

/-- FFRAC (R149). -/
def execFfrac (f : VFmt) : State → Host.Outcome State Fault Refusal := issue (.ffrac f) (floatOp (unary FFmt.fracR) true f)

/-- FLDEXP: a × 2^b with b read as s32 (R150). -/
def execFldexp (f : VFmt) : State → Host.Outcome State Fault Refusal :=
  issue (.fldexp f) fun e s =>
    let t := f.ty
    let fz := e.wave.flushes t
    let code := e.rounding f.rnd
    floatAct e s (if code = 6 then 1 else 0) (e.results fun l =>
      let b := ((e.read .s32 f.b l).extractLsb' 0 32).toInt
      let r := t.fmt.ldexpR fz (modeOf code (e.draw l 0) 0 1) (t.fmt.decodeFz fz (t.elem (e.read t f.a l) 0)) b
      ⟨writeTo t f.d l (BitVec.ofNat 64 r.code), [r.cond]⟩)

/-- FEXPO: the exponent as s32 in one register (R150). -/
def execFexpo (f : VFmt) : State → Host.Outcome State Fault Refusal :=
  issue (.fexpo f) fun e s =>
    let t := f.ty
    floatAct e s 0 (e.results fun l =>
      let a := t.fmt.decodeFz (e.wave.flushes t) (t.elem (e.read t f.a l) 0)
      ⟨writeTo .z32 f.d l (a.expo.zeroExtend 64), []⟩)

/-- FMANT (R150). -/
def execFmant (f : VFmt) : State → Host.Outcome State Fault Refusal := issue (.fmant f) (floatOp opFmant false f)

/-- FMED3 (R145). -/
def execFmed3 (f : VFmt) : State → Host.Outcome State Fault Refusal := issue (.fmed3 f) (floatOp opFmed3 false f)

/-- FDOT2 (R151). -/
def execFdot2 (f : VFmt) : State → Host.Outcome State Fault Refusal := issue (.fdot2 f) (dotOp f)

/-- FDOT4 (R151). -/
def execFdot4 (f : VFmt) : State → Host.Outcome State Fault Refusal := issue (.fdot4 f) (dotOp f)

end Sys2Proof.Machine
end

