-- ==== Sys2Proof/Machine/Integer.lean ====
section
/-!
DEFINITION. Class 0x1: the integer instructions, per lane (R112, R117 to R126).
-/

namespace Sys2Proof.Machine

/-- A result with its carry or borrow in a predicate; without a predicate named, and under a packed type, the plain
sum or difference (R116, R118). -/
def vecCarry (o : Ty → Nat → Nat → Nat → Nat × Bool) (takes : Bool) (f : VFmt) (e : Env) (s : State) : Act :=
  .writes s (e.lanewise fun l =>
    let x (p : Operand) := (e.read f.ty p l).toNat
    let r := o f.ty (x f.a) (x f.b) (if takes && e.pbit f.c l then 1 else 0)
    writeTo f.ty f.d l (BitVec.ofNat 64 r.1) ++ writeP f.c l r.2) .none

/-- ADD and SUB: with a carry where C names a predicate (R116, R118). -/
def vecAddSub (o : IntOp) (k : Ty → Nat → Nat → Nat → Nat × Bool) (f : VFmt) (e : Env) (s : State) : Act :=
  if f.c = .none then vecOp o f e s else vecCarry k false f e s

/-- A quotient or remainder; a zero divisor in a lane traps where TE.DZ is 1, else sets SF.DZ (R120, R121). -/
def vecDivide (o : IntOp) (f : VFmt) (e : Env) (s : State) : Act :=
  match (lanesOf e.lanes).find? fun l => e.read f.ty f.b l = 0 with
  | some l =>
    if (Cond.enables e.wave.mode).dz then .trap 0x20 (BitVec.ofNat 64 l)
    else
      match vecOp o f e s with
      | .writes s ws _ => .writes s ws { Cond.none with dz := true }
      | a => a
  | none => vecOp o f e s

/-- A count into one register (R123). -/
def vecCount (o : Ty → Nat → Nat) (f : VFmt) (e : Env) (s : State) : Act :=
  .writes s (e.lanewise fun l =>
    writeTo .z32 f.d l (BitVec.ofNat 64 (o f.ty (e.read f.ty f.a l).toNat))) .none

/-- The window length of MOVX and MOVXS; none for 0x1FE (R126). -/
def windowLength (e : Env) (b : Operand) : Option Int :=
  match b with
  | .int n => some n.toNat
  | .lit => some ((e.ext.getD 0).toNat : Int)
  | _ => none

/-- The lanes' register numbers base + i × g, or the trap of R126: the window first, then the allocation. -/
def windowTrap (f : VFmt) (e : Env) (i : Instr) (base g : Nat) : Option (Nat × DWord) :=
  let at_ (l : Nat) : Int :=
    match f.c with
    | .x n => (e.wave.xreg n.toNat l).toInt
    | _ => 0
  let inWindow (l : Nat) : Bool :=
    match windowLength e f.b with
    | some n => decide (0 ≤ at_ l ∧ at_ l < n)
    | none => true
  match (lanesOf e.lanes).find? fun l => !inWindow l with
  | some l => some (0x24, 0#32 ++ BitVec.ofInt 16 (at_ l) ++ BitVec.ofNat 16 l)
  | none =>
    if (lanesOf e.lanes).any fun l =>
        decide ((base : Int) + at_ l * g < 0 ∨ (e.launch.vregs : Int) < base + at_ l * g + g) then
      some (0x40, illegalVal i.word 0x11)
    else none

/-- The register a lane's index reaches (R126). -/
def windowReg (f : VFmt) (e : Env) (base g l : Nat) : Nat :=
  match f.c with
  | .x n => ((base : Int) + (e.wave.xreg n.toNat l).toInt * g).toNat
  | _ => base

/-- ADD (R117, R118). -/
def execAdd (f : VFmt) : State → Host.Outcome State Fault Refusal := issue (.add f) (vecAddSub opAdd addCarry f)

/-- ADDC (R118). -/
def execAddc (f : VFmt) : State → Host.Outcome State Fault Refusal := issue (.addc f) (vecCarry addCarry true f)

/-- SUB (R117, R118). -/
def execSub (f : VFmt) : State → Host.Outcome State Fault Refusal := issue (.sub f) (vecAddSub opSub subBorrow f)

/-- SUBB (R118). -/
def execSubb (f : VFmt) : State → Host.Outcome State Fault Refusal := issue (.subb f) (vecCarry subBorrow true f)

/-- MUL (R119). -/
def execMul (f : VFmt) : State → Host.Outcome State Fault Refusal := issue (.mul f) (vecOp opMul f)

/-- MULHI (R119). -/
def execMulhi (f : VFmt) : State → Host.Outcome State Fault Refusal := issue (.mulhi f) (vecOp opMulHi f)

/-- MULW: the whole product into a pair (R119). -/
def execMulw (f : VFmt) : State → Host.Outcome State Fault Refusal :=
  issue (.mulw f) fun e s =>
    .writes s (e.lanewise fun l =>
      let x (p : Operand) := (e.read f.ty p l).toNat
      writeTo .z64 f.d l (mulWide f.ty (x f.a) (x f.b))) .none

/-- MAD (R119). -/
def execMad (f : VFmt) : State → Host.Outcome State Fault Refusal := issue (.mad f) (vecOp opMad f)

/-- DIV (R120, R121). -/
def execDiv (f : VFmt) : State → Host.Outcome State Fault Refusal := issue (.div f) (vecDivide opDiv f)

/-- REM (R120, R121). -/
def execRem (f : VFmt) : State → Host.Outcome State Fault Refusal := issue (.rem f) (vecDivide opRem f)

/-- MIN (R117). -/
def execMin (f : VFmt) : State → Host.Outcome State Fault Refusal := issue (.min f) (vecOp opMin f)

/-- MAX (R117). -/
def execMax (f : VFmt) : State → Host.Outcome State Fault Refusal := issue (.max f) (vecOp opMax f)

/-- ABS (R117). -/
def execAbs (f : VFmt) : State → Host.Outcome State Fault Refusal := issue (.abs f) (vecOp opAbs f)

/-- AND (R117). -/
def execAnd (f : VFmt) : State → Host.Outcome State Fault Refusal := issue (.and f) (vecOp opAnd f)

/-- OR (R117). -/
def execOr (f : VFmt) : State → Host.Outcome State Fault Refusal := issue (.or f) (vecOp opOr f)

/-- XOR (R117). -/
def execXor (f : VFmt) : State → Host.Outcome State Fault Refusal := issue (.xor f) (vecOp opXor f)

/-- NOT (R117). -/
def execNot (f : VFmt) : State → Host.Outcome State Fault Refusal := issue (.not f) (vecOp opNot f)

/-- SHL (R122). -/
def execShl (f : VFmt) : State → Host.Outcome State Fault Refusal := issue (.shl f) (vecOp opShl f)

/-- SHR (R122). -/
def execShr (f : VFmt) : State → Host.Outcome State Fault Refusal := issue (.shr f) (vecOp opShr f)

/-- SAR (R122). -/
def execSar (f : VFmt) : State → Host.Outcome State Fault Refusal := issue (.sar f) (vecOp opSar f)

/-- BFE (R123). -/
def execBfe (f : VFmt) : State → Host.Outcome State Fault Refusal := issue (.bfe f) (vecOp opBfe f)

/-- BFI (R123). -/
def execBfi (f : VFmt) : State → Host.Outcome State Fault Refusal := issue (.bfi f) (vecOp opBfi f)

/-- BREV (R123). -/
def execBrev (f : VFmt) : State → Host.Outcome State Fault Refusal := issue (.brev f) (vecOp opBrev f)

/-- POPC (R123). -/
def execPopc (f : VFmt) : State → Host.Outcome State Fault Refusal := issue (.popc f) (vecCount popCount f)

/-- CLZ (R123). -/
def execClz (f : VFmt) : State → Host.Outcome State Fault Refusal := issue (.clz f) (vecCount leadingZeros f)

/-- CMP: a predicate bit per lane (R124). -/
def execCmp (f : VFmt) : State → Host.Outcome State Fault Refusal :=
  issue (.cmp f) fun e s =>
    .writes s (e.lanewise fun l =>
      let x (p : Operand) := (e.read f.ty p l).toNat
      writeP f.d l (intCompare f.ty f.rnd (x f.a) (x f.b))) .none

/-- SEL: a where the predicate C is 1 in the lane, else b (R125). -/
def execSel (f : VFmt) : State → Host.Outcome State Fault Refusal :=
  issue (.sel f) fun e s =>
    .writes s (e.lanewise fun l =>
      writeTo f.ty f.d l (e.read f.ty (if e.pbit f.c l then f.a else f.b) l)) .none

/-- MOV (R125). -/
def execMov (f : VFmt) : State → Host.Outcome State Fault Refusal := issue (.mov f) (vecOp opMov f)

/-- MOVX: read the vector register that the lane's index reaches (R126). -/
def execMovx (f : VFmt) : State → Host.Outcome State Fault Refusal :=
  issue (.movx f) fun e s =>
    let base := regNo f.a
    match windowTrap f e (.movx f) base f.ty.regs with
    | some t => .trap t.1 t.2
    | none =>
      .writes s (e.lanewise fun l =>
        writeTo f.ty f.d l (e.read f.ty (.v (BitVec.ofNat 8 (windowReg f e base f.ty.regs l))) l)) .none

/-- MOVXS: write the vector register that the lane's index reaches (R126). -/
def execMovxs (f : VFmt) : State → Host.Outcome State Fault Refusal :=
  issue (.movxs f) fun e s =>
    let base := regNo f.d
    match windowTrap f e (.movxs f) base f.ty.regs with
    | some t => .trap t.1 t.2
    | none =>
      .writes s (e.lanewise fun l =>
        writeTo f.ty (.v (BitVec.ofNat 8 (windowReg f e base f.ty.regs l))) l (e.read f.ty f.a l)) .none

end Sys2Proof.Machine
end

