-- ==== Sys2Proof/Machine/Lane.lean ====
section
/-!
DEFINITION. The lane instructions of class 0x3 (R167 to R174) and the predicate logic of class 0x4 (R166).
-/

namespace Sys2Proof.Machine

/-! ## Shuffles -/

/-- A shuffle: each member receives A of the lane that `from_` names, where that lane is a member, else the fill
(R170). -/
def shuffle (from_ : Nat → Nat → Int) (f : VFmt) (e : Env) (s : State) : Act :=
  .writes s (e.lanewise fun l =>
    let j := from_ l (e.readZ f.b l)
    if 0 ≤ j ∧ j ≤ 95 ∧ e.lanes.getLsbD j.toNat then writeTo f.ty f.d l (e.read f.ty f.a j.toNat)
    else writeTo f.ty f.d l (e.read f.ty f.c l)) .none

/-- SHFL (R170). -/
def execShfl (f : VFmt) : State → Host.Outcome State Fault Refusal := issue (.shfl f) (shuffle (fun _ b => b) f)

/-- SHFLUP (R170). -/
def execShflup (f : VFmt) : State → Host.Outcome State Fault Refusal :=
  issue (.shflup f) (shuffle (fun l b => (l : Int) - b) f)

/-- SHFLDN (R170). -/
def execShfldn (f : VFmt) : State → Host.Outcome State Fault Refusal :=
  issue (.shfldn f) (shuffle (fun l b => (l : Int) + b) f)

/-- SHFLX (R170). -/
def execShflx (f : VFmt) : State → Host.Outcome State Fault Refusal :=
  issue (.shflx f) (shuffle (fun l b => (Nat.xor l b : Nat)) f)

/-- BPERM: bytes of a and b by the nibbles of c[15:0] (R174). -/
def execBperm (f : VFmt) : State → Host.Outcome State Fault Refusal :=
  issue (.bperm f) fun e s =>
    .writes s (e.lanewise fun l =>
      let bytes := bytesOfNat 4 (e.readZ f.a l) ++ bytesOfNat 4 (e.readZ f.b l)
      let pick (i : Nat) : Byte :=
        let n := e.readZ f.c l / 16 ^ i % 16
        if n < 8 then bytes.getD n 0 else 0
      writeTo .z32 f.d l (BitVec.ofNat 64 (natOfBytes ((List.range 4).map pick)))) .none

/-! ## Votes -/

/-- One bit into the predicate D of every member (R171). -/
def vote (p : List Nat → Bool) (f : VFmt) (e : Env) (s : State) : Act :=
  let b := p (lanesOf e.lanes)
  .writes s (e.lanewise fun l => writeP f.d l b) .none

/-- VOTEANY (R171). -/
def execVoteany (f : VFmt) : State → Host.Outcome State Fault Refusal :=
  issue (.voteany f) fun e s => vote (fun ls => ls.any fun l => e.pbit f.a l) f e s

/-- VOTEALL (R171). -/
def execVoteall (f : VFmt) : State → Host.Outcome State Fault Refusal :=
  issue (.voteall f) fun e s => vote (fun ls => ls.all fun l => e.pbit f.a l) f e s

/-- VOTEEQ (R171). -/
def execVoteeq (f : VFmt) : State → Host.Outcome State Fault Refusal :=
  issue (.voteeq f) fun e s =>
    vote (fun ls => ls.all fun l => e.read f.ty f.a l == e.read f.ty f.a e.first) f e s

/-- BALLOT: the members' bits in three registers, once to scalars or in every member (R171). -/
def execBallot (f : VFmt) : State → Host.Outcome State Fault Refusal :=
  issue (.ballot f) fun e s =>
    let m := maskOf fun l => e.lanes.getLsbD l && e.pbit f.a l
    let ws : List Word := [m.extractLsb' 0 32, m.extractLsb' 32 32, m.extractLsb' 64 32]
    .writes s (if isS f.d then writeRun f.d 0 ws else e.lanewise fun l => writeRun f.d l ws) .none

/-- RDFIRST: A of the lowest member (R171). -/
def execRdfirst (f : VFmt) : State → Host.Outcome State Fault Refusal :=
  issue (.rdfirst f) fun e s =>
    let x := e.read f.ty f.a e.first
    .writes s (if isS f.d then writeTo f.ty f.d 0 x else e.lanewise fun l => writeTo f.ty f.d l x) .none

/-! ## Scans and reductions (R172) -/

/-- One step of comb on codes. -/
def combine (t : Ty) (op : Nat) (sat fz : Bool) (a b : Nat) : FRes :=
  if t.isFloat then
    let x := t.fmt.decodeFz fz a
    let y := t.fmt.decodeFz fz b
    match op with
    | 0 => t.fmt.addR fz .rne x y
    | 1 => ⟨(t.fmt.ofVal fz .rne (FVal.min x y)).code, .none⟩
    | _ => ⟨(t.fmt.ofVal fz .rne (FVal.max x y)).code, .none⟩
  else
    let o : IntOp := match op with
      | 0 => opAdd
      | 1 => opMin
      | 2 => opMax
      | 3 => opAnd
      | 4 => opOr
      | _ => opXor
    ⟨t.finishInt sat (o t a b 0), .none⟩

/-- The identity of an operation (R172). -/
def identity (t : Ty) (op : Nat) : Nat :=
  match op with
  | 1 => if t.isFloat then t.fmt.infCode false else (t.hi % 2 ^ t.width).toNat
  | 2 => if t.isFloat then t.fmt.infCode true else (t.lo % 2 ^ t.width).toNat
  | 3 => 2 ^ t.width - 1
  | _ => 0

/-- The running value after each member, with the conditions of its step: before, after (R172). -/
def scanSteps (t : Ty) (op : Nat) (sat fz : Bool) (value : Nat → Nat) :
    Option Nat → List Nat → List (Nat × Option Nat × FRes)
  | _, [] => []
  | acc, m :: r =>
    let x : FRes := match acc with
      | none => ⟨value m, .none⟩
      | some a => combine t op sat fz a (value m)
    (m, acc, x) :: scanSteps t op sat fz value (some x.code) r

/-- The steps of SCAN, SCANX and REDUCE over the members. -/
def Env.scan (e : Env) (f : VFmt) : List (Nat × Option Nat × FRes) :=
  let init := if f.c = .none then none else some (e.read f.ty f.c e.first).toNat
  scanSteps f.ty f.rnd.toNat f.sat (e.wave.flushes f.ty) (fun l => (e.read f.ty f.a l).toNat) init (lanesOf e.lanes)

/-- SCAN: the running value with the member's own (R172). -/
def execScan (f : VFmt) : State → Host.Outcome State Fault Refusal :=
  issue (.scan f) fun e s =>
    floatAct e s 0 ((e.scan f).map fun x =>
      (x.1, ⟨writeTo f.ty f.d x.1 (BitVec.ofNat 64 x.2.2.code), [x.2.2.cond]⟩))

/-- SCANX: the running value before the member's own (R172). -/
def execScanx (f : VFmt) : State → Host.Outcome State Fault Refusal :=
  issue (.scanx f) fun e s =>
    floatAct e s 0 ((e.scan f).map fun x =>
      (x.1, ⟨writeTo f.ty f.d x.1 (BitVec.ofNat 64 (x.2.1.getD (identity f.ty f.rnd.toNat))), [x.2.2.cond]⟩))

/-- REDUCE: the last running value in every member, or once to a scalar (R172). -/
def execReduce (f : VFmt) : State → Host.Outcome State Fault Refusal :=
  issue (.reduce f) fun e s =>
    let steps := e.scan f
    let x : DWord := match steps.getLast? with
      | some y => BitVec.ofNat 64 y.2.2.code
      | none => 0
    let ws := if isS f.d then writeTo f.ty f.d 0 x else e.lanewise fun l => writeTo f.ty f.d l x
    floatAct e s 0 (steps.map (fun y => (y.1, ⟨[], [y.2.2.cond]⟩)) ++ [(0, ⟨ws, []⟩)])

/-! ## COMPACT and EXPAND (R173) -/

/-- The members whose predicate B is 1. -/
def Env.chosen (e : Env) (b : Operand) : List Nat := (lanesOf e.lanes).filter fun l => e.pbit b l

/-- COMPACT: the chosen members' values to the lowest members, the fill to the others. -/
def execCompact (f : VFmt) : State → Host.Outcome State Fault Refusal :=
  issue (.compact f) fun e s =>
    let ms := lanesOf e.lanes
    let qs := e.chosen f.b
    .writes s ((List.range ms.length).flatMap fun i =>
      let m := ms.getD i 0
      writeTo f.ty f.d m (match qs[i]? with
        | some q => e.read f.ty f.a q
        | none => e.read f.ty f.c m)) .none

/-- EXPAND: the lowest members' values to the chosen members, the fill to the others. -/
def execExpand (f : VFmt) : State → Host.Outcome State Fault Refusal :=
  issue (.expand f) fun e s =>
    let ms := lanesOf e.lanes
    let qs := e.chosen f.b
    .writes s (e.lanewise fun l =>
      writeTo f.ty f.d l (if e.pbit f.b l then e.read f.ty f.a (ms.getD (qs.idxOf l) 0) else e.read f.ty f.c l)) .none

/-! ## Predicate logic (R166) -/

/-- A predicate result per lane. -/
def logic (o : Bool → Bool → Bool) (f : VFmt) (e : Env) (s : State) : Act :=
  .writes s (e.lanewise fun l => writeP f.d l (o (e.pbit f.a l) (e.pbit f.b l))) .none

/-- PAND (R166). -/
def execPand (f : VFmt) : State → Host.Outcome State Fault Refusal := issue (.pand f) (logic (fun a b => a && b) f)
/-- POR (R166). -/
def execPor (f : VFmt) : State → Host.Outcome State Fault Refusal := issue (.por f) (logic (fun a b => a || b) f)
/-- PXOR (R166). -/
def execPxor (f : VFmt) : State → Host.Outcome State Fault Refusal := issue (.pxor f) (logic (fun a b => a != b) f)
/-- PANDN (R166). -/
def execPandn (f : VFmt) : State → Host.Outcome State Fault Refusal := issue (.pandn f) (logic (fun a b => a && !b) f)
/-- PNOT (R166). -/
def execPnot (f : VFmt) : State → Host.Outcome State Fault Refusal := issue (.pnot f) (logic (fun a _ => !a) f)

/-- PMOV: a predicate's bit, or whether a vector register, scalar register or constant is not 0 (R166). -/
def execPmov (f : VFmt) : State → Host.Outcome State Fault Refusal :=
  issue (.pmov f) fun e s =>
    .writes s (e.lanewise fun l =>
      writeP f.d l (if isK f.a then e.pbit f.a l else decide (e.read f.ty f.a l ≠ 0))) .none

end Sys2Proof.Machine
end

