-- ==== Sys2Proof/Machine/Sluice.lean ====
section
/-!
DEFINITION. Sluice: queues and their packets (R345 to R352), rejections and stopped queues (R491 to R494), PASID
generations (R469).
-/

namespace Sys2Proof.Machine

/-! ## Queues (R345, R346) -/

/-- A queue descriptor (R345). -/
structure QueueDesc where
  base : Nat
  size : Nat
  rptrAddr : Nat
  pasid : Nat
  host : Bool
  priv : Bool
  pgen : Word
  ctx : Nat
  dom : Nat

/-- The descriptor of a queue that exists. -/
def State.queueOf (s : State) (die q : Nat) : Option QueueDesc :=
  let a := s.queueDesc die q
  let w0 := s.word64 a
  let w2 := s.word64 (a + 16)
  let w3 := s.word64 (a + 24)
  if fieldOf (s.reg (0x0010 + 8 * die)) 12 40 = 0 ∨ w0.getLsbD 0 = false then none
  else
    let host := w0.getLsbD 1
    let pasid := fieldOf w2 0 20
    let space := if host then hostBase * (1 + pasid) else 0
    some { base := space + fieldOf w0 12 52 * 4096, size := 2 ^ (12 + fieldOf w0 8 4),
           rptrAddr := space + fieldOf (s.word64 (a + 8)) 3 61 * 8, pasid := pasid, host := host, priv := w0.getLsbD 2,
           pgen := highWord w2, ctx := fieldOf w3 0 12, dom := fieldOf w3 16 16 }

/-- Running state of queue q of a die. -/
def State.queueState (s : State) (die q : Nat) : QueueState := (s.queues.find? (2048 * die + q)).getD ⟨0, 0, false⟩

/-- Change a queue's running state. -/
def State.modSluice (s : State) (die q : Nat) (f : QueueState → QueueState) : State :=
  { s with queues := s.queues.insert (2048 * die + q) (f (s.queueState die q)) }

/-- Offset of the stop word of a queue (R494). -/
def stopReg (die q : Nat) : Nat := 0x0C00 + 256 * die + 8 * (q / 64)

/-- The queue is stopped (R494). -/
def State.stopped (s : State) (die q : Nat) : Bool := (s.reg (stopReg die q)).getLsbD (q % 64)

/-- Stop a queue. -/
def State.stopQueue (s : State) (die q : Nat) : State :=
  s.setReg (stopReg die q) (s.reg (stopReg die q) ||| BitVec.ofNat 64 (2 ^ (q % 64)))

/-- An ATS translation of an address of a queue's ring or RPTR fails (R469, R493). -/
def State.untranslated (s : State) (d : QueueDesc) (a : Nat) (write : Bool) : Bool :=
  s.sluiceDenied d.host d.pasid d.pgen a write

/-- The queue that a packet's later accesses are made for. -/
def QueueDesc.asker (d : QueueDesc) (die q : Nat) : Asker := ⟨BitVec.ofNat 16 d.dom, die, q, d.pgen, d.host⟩

/-- Addresses of n ring bytes from a count on: count c lies at byte c mod the ring's size (R346). -/
def QueueDesc.ring (d : QueueDesc) (c : DWord) (n : Nat) : List Nat :=
  (List.range n).map fun i => d.base + (c.toNat + i) % d.size

/-- A ring read is uncorrectable, poisoned or untranslated (R493 code 12). -/
def State.ringBad (s : State) (d : QueueDesc) (places : List Nat) : Bool :=
  places.any fun a => s.poisoned a || s.untranslated d a false

/-- Write RPTR, as a release at system scope (R346). -/
def State.writeRptr (s : State) (die q : Nat) (d : QueueDesc) (rptr : DWord) : State :=
  let s := s.modSluice die q fun x => { x with rptr := rptr }
  if s.untranslated d d.rptrAddr true then s else (s.setWord64 d.rptrAddr rptr).clearPoison d.rptrAddr 8

/-! ## Rejections (R491 to R494) -/

/-- What a rejection record tells (R492). -/
structure Rejection where
  code : Nat
  tag : Nat := 0
  type : Nat := 0xFFFF
  seq : Nat := 0
  lid : Nat := 0
  gen : Nat := 0

/-- Write a rejection record where RJBASE.EN is 1. -/
def State.rejectionRecord (s : State) (queue : Nat) (rptr : DWord) (ctx dom die : Nat) (r : Rejection) : State :=
  let base := s.reg 0x0B80
  if base.getLsbD 63 then
    s.ringNotify ⟨fieldOf base 6 46 * 64, 2 ^ fieldOf (s.reg 0x0B88) 0 5, 64⟩ 1
      (bytesOfNat 2 r.code ++ bytesOfNat 2 queue ++ bytesOfNat 4 r.seq ++ bytesOfNat 8 rptr.toNat ++ bytesOfNat 2 r.type ++
        bytesOfNat 2 r.tag ++ bytesOfNat 4 r.lid ++ bytesOfNat 2 ctx ++ bytesOfNat 2 dom ++ bytesOfNat 4 0 ++
        bytesOfNat 8 (s.counter die).toNat ++ bytesOfNat 4 r.gen ++ bytesOfNat 20 0)
  else s

/-- Reject what stands at a queue's RPTR: the record, the queue stopped, and RPTR past the packet but for codes 2, 12
and 13 (R493, R494). -/
def State.reject (s : State) (die q : Nat) (d : QueueDesc) (len : Nat) (r : Rejection) : State :=
  let rptr := (s.queueState die q).rptr
  let s := (s.rejectionRecord (2048 * die + q) rptr d.ctx d.dom die r).stopQueue die q
  if r.code = 2 ∨ r.code = 12 ∨ r.code = 13 then s else s.writeRptr die q d (rptr + BitVec.ofNat 64 len)

/-- The die and queue whose doorbell a BAR2 offset is (R378). -/
def queueBell (off : Nat) : Option (Nat × Nat) :=
  if off < 0x2000000 ∧ off % 4096 = 0 then some (off / 4096 / 2048, off / 4096 % 2048) else none

/-- QUEUE_DOORBELL: a 64-bit write to a queue's doorbell records WPTR, on a stopped queue too; a write of another size or
to another offset is discarded (R346, R378). -/
def execQueueDoorbell (off : BitVec 26) (bytes : Nat) (wptr : DWord) (s : State) : Host.Outcome State Fault Refusal :=
  match queueBell off.toNat with
  | some (die, q) => .next (if bytes = 8 then s.modSluice die q fun x => { x with wptr := wptr } else s)
  | none => .next s

/-- QUEUE_RESTART: writing 1 to stop bits restarts those queues at RPTR (R494); Sluice tests WPTR when their turn comes
(R346). -/
def execQueueRestart (die : BitVec 2) (w : BitVec 5) (bits : DWord) (s : State) : Host.Outcome State Fault Refusal :=
  let off := stopReg die.toNat (64 * w.toNat)
  .next (s.setReg off (s.reg off &&& ~~~bits))

/-! ## Packets (R348, R349) -/

/-- A field of a packet: its identity and value. -/
structure Field where
  tag : Nat
  val : List Byte

/-- The fields a packet type admits, with their value lengths; PKGS has a length of its own (R350). -/
def admittedFields : Nat → List (Nat × Option Nat)
  | 1 => [(0x20, some 4), (0x21, some 4), (0x22, some 4), (0x23, some 16), (0x24, some 16), (0x25, some 16),
          (0x26, some 0), (0x27, some 0), (0x01, some 16)]
  | 2 => [(0x30, some 8), (0x01, some 16)]
  | 3 => [(0x40, some 8), (0x41, some 8), (0x42, some 4), (0x01, some 16)]
  | 4 => [(0x40, some 8), (0x41, some 8), (0x43, some 4)]
  | 5 => [(0x10, some 8), (0x11, some 8), (0x12, some 12), (0x13, some 4), (0x14, some 4), (0x15, some 16), (0x16, some 4),
          (0x17, some 4), (0x18, some 16), (0x19, some 32), (0x1A, none), (0x1B, some 16), (0x1C, some 0), (0x01, some 16)]
  | _ => []

/-- The fields a packet type requires (R350). -/
def requiredFields : Nat → List Nat
  | 1 => [0x20]
  | 2 => [0x30]
  | 3 => [0x40, 0x41]
  | 4 => [0x40, 0x41]
  | 5 => [0x10, 0x11, 0x12, 0x13, 0x14, 0x15]
  | _ => []

/-- How often a field may stand in a packet: SQ 16 times, RASTER twice, others once (R349, R350). -/
def fieldLimit (tag : Nat) : Nat := if tag = 0x18 then 16 else if tag = 0x19 then 2 else 1

/-- Read a packet's fields in order, up to the first that rejects it: code and tag (R348, R349). Zero padding reads as
unknown fields without the mandatory bit. -/
def parseFields (type : Nat) : Nat → List Byte → List Field → List Field × Option (Nat × Nat)
  | 0, _, acc => (acc, none)
  | fuel + 1, bs, acc =>
    if bs.length < 4 then (acc, none)
    else
      let tag := natOfBytes (bs.take 2)
      let id := tag % 0x8000
      let n := natOfBytes ((bs.drop 2).take 2)
      if bs.length < 4 + (n + 3) / 4 * 4 then (acc, some (4, id))
      else
        let rest := bs.drop (4 + (n + 3) / 4 * 4)
        match (admittedFields type).find? fun x => x.1 == id with
        | none => if 0x8000 ≤ tag then (acc, some (3, id)) else parseFields type fuel rest acc
        | some (_, len) =>
          if len.any fun k => k != n then (acc, some (4, id))
          else if fieldLimit id ≤ (acc.filter fun f => f.tag == id).length then (acc, some (5, id))
          else parseFields type fuel rest (acc ++ [⟨id, (bs.drop 4).take n⟩])

/-- A packet's fields. -/
structure Packet where
  seq : Nat
  len : Nat
  fields : List Field
  /-- The whole packet, for replication (R376). -/
  bytes : List Byte

/-- The packet carries a field. -/
def Packet.has (p : Packet) (tag : Nat) : Bool := p.fields.any fun f => f.tag == tag
/-- The value bytes of a field. -/
def Packet.val (p : Packet) (tag : Nat) : List Byte := ((p.fields.find? fun f => f.tag == tag).map fun f => f.val).getD []
/-- Bytes of a field as a number; 0 without the field. -/
def Packet.num (p : Packet) (tag off n : Nat) : Nat := numAt (p.val tag) off n
/-- Eight bytes of a field. -/
def Packet.word (p : Packet) (tag off : Nat) : DWord := BitVec.ofNat 64 (p.num tag off 8)
/-- COMPLETE (R350). -/
def Packet.completion (p : Packet) : Option (DWord × DWord) :=
  if p.has 0x01 then some (p.word 0x01 0, p.word 0x01 8) else none

/-- What a packet's own checks and effects come to. -/
inductive Verdict where
  /-- Rejected: code and tag. -/
  | reject (code tag : Nat)
  /-- The queue is blocked (R347). -/
  | blocked (s : State)
  /-- Accepted. -/
  | taken (s : State)

/-- The fields of a packet body, or why it is rejected (R349): the first failing field in order, then a missing one. -/
def readFields (type : Nat) (seq len : Nat) (bytes : List Byte) : Packet × Option (Nat × Nat) :=
  let r := parseFields type bytes.length (bytes.drop 8) []
  let p : Packet := ⟨seq, len, r.1, bytes⟩
  (p, r.2.or (((requiredFields type).find? fun t => !p.has t).map fun t => (6, t)))

/-- Note the queue that its lane's turn has reached (R347). -/
def State.noteServed (s : State) (die q : Nat) : State :=
  { s with served := s.served.insert (32 * die + q / 64) (q % 64) }

/-- The type of the packet that stands whole at a queue's RPTR, of the queues that Sluice may take from (R346, R347);
0 where the packet is one to reject whatever its type. -/
def State.headType (s : State) (die q : Nat) : Option Nat :=
  match s.queueOf die q with
  | none => none
  | some d =>
    let x := s.queueState die q
    let pending := (x.wptr - x.rptr).toNat
    if !s.sluiceRuns || s.stopped die q then none
    else if d.size < pending then some 0
    else if pending < 8 then none
    else
      let head := d.ring x.rptr 8
      let h := natOfBytes (head.map s.byte)
      let len := h / 2 ^ 16 % 2 ^ 16
      if s.ringBad d head || decide (len % 8 ≠ 0 ∨ len < 8 ∨ 65528 < len ∨ d.size < len) then some 0
      else if pending < len then none
      else if s.ringBad d (d.ring x.rptr len) || decide (h / 2 ^ 12 % 16 ≠ 1 ∨ h % 2 ^ 12 = 0 ∨ 6 < h % 2 ^ 12) then some 0
      else some (h % 2 ^ 12)

/-- Sluice takes the packet of a type from a queue, or rejects what stands there (R346 to R349, R493). The tests are
made in this order: WPTR, ring read, LEN, version and type, PRIV, fields, the packet's own. -/
def State.takePacket (s : State) (die q type : Nat) (act : QueueDesc → Packet → State → Verdict) : State :=
  match s.queueOf die q with
  | none => s
  | some d =>
    let x := s.queueState die q
    match s.headType die q with
    | none => s
    | some t =>
      let head := d.ring x.rptr 8
      let h := natOfBytes (head.map s.byte)
      let seq := h / 2 ^ 32
      let len := h / 2 ^ 16 % 2 ^ 16
      let r : Rejection := { code := 1, type := h % 2 ^ 12, seq := seq }
      let s' := s.noteServed die q
      if t = 0 then
        if d.size < (x.wptr - x.rptr).toNat then s'.reject die q d 0 { code := 13 }
        else if s.ringBad d head then s'.reject die q d 0 { code := 12 }
        else if len % 8 ≠ 0 ∨ len < 8 ∨ 65528 < len ∨ d.size < len then s'.reject die q d 0 { r with code := 2 }
        else if s.ringBad d (d.ring x.rptr len) then s'.reject die q d 0 { r with code := 12 }
        else s'.reject die q d len r
      else if t ≠ type then s
      else if !d.priv && decide (type = 1 ∨ type = 2) then s'.reject die q d len { r with code := 8 }
      else
        let (p, bad) := readFields type seq len ((d.ring x.rptr len).map s.byte)
        let r := { r with lid := p.num 0x14 0 4, gen := if type = 5 then p.num 0x1A 0 4 else 0 }
        match bad with
        | some (code, tag) => s'.reject die q d len { r with code := code, tag := tag }
        | none =>
          match act d p s with
          | .reject code tag => s'.reject die q d len { r with code := code, tag := tag }
          | .blocked t => t
          | .taken t => (t.noteServed die q).writeRptr die q d (x.rptr + BitVec.ofNat 64 len)

/-! ## References of packets (R351) -/

/-- The agent whose checks Sluice makes: it has no object cache. -/
def sluiceCore : Nat := 4096

/-- A signal reference passes R178 with the rights of its use. -/
def State.goodSignal (s : State) (dom : Nat) (ref : DWord) (write : Bool) : Bool :=
  (s.checkBytes sluiceCore dom ref (if write then needRW else needR) (if write then .store else .load) (refOffset ref) 8 8).isOk

/-- COMPLETE's reference passes where the packet carries one. -/
def State.goodComplete (s : State) (d : QueueDesc) (p : Packet) : Bool :=
  !p.has 0x01 || s.goodSignal d.dom (p.word 0x01 0) true

/-! ## NOP, SIGNAL, WAIT, OBJINV -/

/-- NOP_PACKET (R350). -/
def execNopPacket (die : BitVec 2) (q : BitVec 11) (s : State) : Host.Outcome State Fault Refusal :=
  .next (s.takePacket die.toNat q.toNat 6 fun _ _ s => .taken s)

/-- SIGNAL: a write or an add, a release at system scope; then COMPLETE (R351). -/
def execSignal (die : BitVec 2) (q : BitVec 11) (s : State) : Host.Outcome State Fault Refusal :=
  .next (s.takePacket die.toNat q.toNat 3 fun d p s =>
    if 1 < p.num 0x42 0 4 then .reject 7 0x42
    else if !s.goodSignal d.dom (p.word 0x40 0) true then .reject 9 0x40
    else if !s.goodComplete d p then .reject 9 0x01
    else
      .taken (s.putSignal ⟨p.word 0x40 0, p.word 0x41 0, p.num 0x42 0 4 == 1, p.completion, d.asker die.toNat q.toNat⟩))

/-- WAIT's condition: at least, equal, not equal (R350). -/
def waitHolds (cond : Nat) (x v : DWord) : Bool :=
  if cond = 0 then decide (v.toNat ≤ x.toNat) else if cond = 1 then x == v else x != v

/-- WAIT: the packet is accepted, as an acquire at system scope, once its condition holds; a signal word whose granule
is not resident is asked for and the queue waits on it (R351, R458). -/
def execWait (die : BitVec 2) (q : BitVec 11) (s : State) : Host.Outcome State Fault Refusal :=
  .next (s.takePacket die.toNat q.toNat 4 fun d p s =>
    let ref := p.word 0x40 0
    if 2 < p.num 0x43 0 4 then .reject 7 0x43
    else if !s.goodSignal d.dom ref false then .reject 9 0x40
    else
      let x := d.asker die.toNat q.toNat
      match s.signalPlace x ref false with
      | none =>
        let e := s.tableEntry d.dom (refIndex ref)
        let away := !s.converting e && (s.residentAddr d.dom e (refOffset ref) 8).isNone
        .blocked ((s.askSignal x ref).modSluice die.toNat q.toNat fun x => { x with resWait := away })
      | some a =>
        let s := s.touchRange d.dom (refIndex ref) (refOffset ref) 8
        if waitHolds (p.num 0x43 0 4) (s.word64 a) (p.word 0x41 0) then
          .taken (s.acquireAll.modSluice die.toNat q.toNat fun x => { x with resWait := false })
        else .blocked s)

/-- Complete the OBJINV packets for which no access checked against the old entry is outstanding (R177, R351). -/
def State.finishInvs (s : State) : State :=
  if !s.sluiceRuns then s
  else
    s.objinvs.foldl (fun s x =>
      if s.staleUse x.dom x.index then { s with objinvs := s.objinvs ++ [x] } else s.complete x.asker x.complete)
      { s with objinvs := [] }

/-- OBJINV: no object cache holds the entry, and the images of the object leave the weight caches; it completes when no
access checked against an entry that the table no longer holds is outstanding, and its queue goes on meanwhile (R177,
R347, R351, R479). -/
def execObjinv (die : BitVec 2) (q : BitVec 11) (s : State) : Host.Outcome State Fault Refusal :=
  .next ((s.takePacket die.toNat q.toNat 2 fun d p s =>
    if s.domBase = 0 then .reject 9 0x30
    else if !s.goodComplete d p then .reject 9 0x01
    else
      let dom := p.num 0x30 0 2
      let n := p.num 0x30 4 4
      let s := (s.wcache.map fun c => c.1).foldl
        (fun s c => s.dropImages c fun i => i.dom.toNat == dom && i.index == n) (s.dropEntry dom n)
      .taken { s with objinvs := s.objinvs ++ [⟨dom, n, p.completion, d.asker die.toNat q.toNat⟩] }).finishInvs)

/-! ## CONTEXT (R352) -/

/-- A ring field's base and entry count; none outside the range of R350. -/
def Packet.ring (p : Packet) (tag : Nat) : Option (Nat × Nat) :=
  let log := p.num tag 8 8 % 32
  if p.num tag 0 8 % 64 ≠ 0 ∨ log < 4 ∨ 20 < log then none else some (p.num tag 0 8, 2 ^ log)

/-- The tag of a CONTEXT field whose value lies outside its range. -/
def Packet.badContext (p : Packet) : Option Nat :=
  if p.has 0x21 ∧ p.num 0x21 0 1 = 0 then some 0x21
  else if p.has 0x22 ∧ (p.num 0x22 0 4 < 10 ∨ 10000 < p.num 0x22 0 4) then some 0x22
  else if p.has 0x23 ∧ (p.num 0x23 0 8 % 65536 ≠ 0 ∨ p.num 0x23 8 8 % 65536 ≠ 0) then some 0x23
  else if p.has 0x24 ∧ (p.ring 0x24).isNone then some 0x24
  else if p.has 0x25 ∧ (p.ring 0x25).isNone then some 0x25
  else if p.has 0x26 ∧ p.has 0x27 then some 0x26
  else none

/-- The fields of a CONTEXT packet take effect. -/
def Packet.setContext (p : Packet) (c : Context) : Context :=
  { c with weight := if p.has 0x21 then p.num 0x21 0 1 else c.weight,
           slice := if p.has 0x22 then p.num 0x22 0 4 else c.slice,
           pool := if p.has 0x23 then some (p.num 0x23 0 8, p.num 0x23 8 8) else c.pool,
           noSwap := if p.has 0x23 then [] else c.noSwap,
           notifyq := if p.has 0x24 then p.ring 0x24 else c.notifyq,
           traceq := if p.has 0x25 then p.ring 0x25 else c.traceq,
           swappedOut := if p.has 0x26 then true else if p.has 0x27 then false else c.swappedOut }

/-- The keys of a context's workgroups that satisfy p. -/
def State.workgroupsOf (s : State) (ctx : Nat) (p : Workgroup → Bool) : List Nat :=
  (s.workgroups.filter fun x => s.ctxOf x.2 == some ctx && p x.2).map fun x => x.1

/-- CONTEXT: weights, slice, rings, pool; SWAPOUT pre-empts every workgroup of the context, and its COMPLETE follows the
last image (R352). -/
def execContext (die : BitVec 2) (q : BitVec 11) (s : State) : Host.Outcome State Fault Refusal :=
  .next (s.takePacket die.toNat q.toNat 1 fun d p s =>
    let ctx := p.num 0x20 0 2 % 4096
    let saved := !(s.workgroupsOf ctx fun g => match g.phase with
      | .saved _ => true
      | _ => false).isEmpty
    match p.badContext with
    | some tag => .reject 7 tag
    | none =>
      if !s.goodComplete d p then .reject 9 0x01
      else if p.has 0x23 && saved then .reject 10 0x23
      else if p.has 0x26 && (p.setContext (s.context ctx)).pool.isNone then .reject 10 0x26
      else
        let s := s.modContext ctx p.setContext
        if p.has 0x26 then
          let s := (s.workgroupsOf ctx fun _ => true).foldl (fun s g => s.requestPreempt g true) s
          let c := p.completion.toList.map fun x => (x.1, x.2, d.asker die.toNat q.toNat)
          .taken ((s.modContext ctx fun x => { x with swapComplete := x.swapComplete ++ c }).checkSwapout ctx)
        else .taken (s.complete (d.asker die.toNat q.toNat) p.completion))

end Sys2Proof.Machine
end

