-- ==== Sys2Proof/Machine/Launch.lean ====
section
/-!
DEFINITION. Kernel descriptors (R353), the acceptance of launches (R350, R354), launches over several packages (R45, R46,
R376, R495).
-/

namespace Sys2Proof.Machine

/-! ## Kernel descriptors (R353) -/

/-- The head of a kernel descriptor. -/
structure Kernel where
  code : DWord
  kdata : DWord
  vregs : Nat
  sregs : Nat
  waves : Nat
  ncl : Nat
  nstage : Nat
  nbar : Nat
  idempotent : Bool
  deterministic : Bool
  scratch : Nat
  nrange : Nat
  ngate : Nat
  entries : List Nat
  nregion : Nat

/-- The head from its 128 bytes. -/
def readKernel (b : List Byte) : Kernel :=
  { code := BitVec.ofNat 64 (numAt b 0 8), kdata := BitVec.ofNat 64 (numAt b 8 8), vregs := numAt b 16 2,
    sregs := numAt b 18 1, waves := numAt b 19 1, ncl := numAt b 20 1, nstage := numAt b 21 1, nbar := numAt b 22 1,
    idempotent := numAt b 23 1 % 2 == 1, deterministic := numAt b 23 1 / 2 % 2 == 1, scratch := numAt b 24 4,
    nrange := numAt b 28 2, ngate := numAt b 30 2, entries := (List.range 16).map fun k => numAt b (32 + 4 * k) 4,
    nregion := numAt b 96 4 }

/-- Every number of the head lies in its range. -/
def Kernel.inRange (k : Kernel) : Bool :=
  decide (8 ≤ k.vregs ∧ k.vregs ≤ 256 ∧ k.vregs % 8 = 0 ∧ 8 ≤ k.sregs ∧ k.sregs ≤ 128 ∧ k.sregs % 8 = 0 ∧
    1 ≤ k.waves ∧ k.waves ≤ 16 ∧ 1 ≤ k.ncl ∧ k.ncl ≤ 16 ∧ 1 ≤ k.nstage ∧ k.nstage ≤ 16 ∧ k.nbar ≤ 64 ∧
    k.scratch ≤ 262144 ∧ k.scratch % 256 = 0 ∧ k.nrange ≤ 64 ∧ k.ngate ≤ 1024 ∧ k.nregion ≤ 65536)

/-- Bytes of the whole descriptor. -/
def Kernel.size (k : Kernel) : Nat := 128 + 16 * k.nrange + 8 * k.ngate + 8 * k.nregion

/-- A range of the descriptor: in the data object, byte offset of its reference, class, byte count. -/
structure KRange where
  inData : Bool
  off : Nat
  cls : Nat
  count : Nat

/-- Range r of the descriptor's bytes. -/
def readRange (b : List Byte) (r : Nat) : KRange :=
  let w0 := numAt b (128 + 16 * r) 8
  let w1 := numAt b (136 + 16 * r) 8
  ⟨2 ^ 63 ≤ w0, w0 % 2 ^ 42, w1 / 2 ^ 60, w1 % 2 ^ 43⟩

/-- The region table (R353). -/
def readRegions (b : List Byte) (k : Kernel) : List (Nat × Nat) :=
  (List.range k.nregion).map fun e =>
    let w := numAt b (128 + 16 * k.nrange + 8 * k.ngate + 8 * e) 8
    (w % 2 ^ 39, w / 2 ^ 48)

/-! ## The fields of a LAUNCH packet (R350) -/

/-- The values of the fields with a tag. -/
def Packet.all (p : Packet) (tag : Nat) : List (List Byte) := (p.fields.filter fun f => f.tag == tag).map fun f => f.val

/-- The stage queue an SQ field declares, with its number. -/
def readQueue (v : List Byte) : Nat × StageQueue :=
  (numAt v 0 1, { producer := numAt v 1 1 % 16, consumer := numAt v 1 1 / 16, spillLimit := numAt v 4 4,
                  spillRef := BitVec.ofNat 64 (numAt v 8 8), recs := [], closed := false })

/-- The raster binding a RASTER field declares, with its number (R289, R290). -/
def readRaster (v : List Byte) : Nat × RasterBinding :=
  let b := numAt v 0 1
  let flags := numAt v 7 1
  (b, { unit := 2 * (numAt v 1 1 % 4) + b, ki := numAt v 1 1, ko := numAt v 2 1, km := numAt v 3 1, samples := numAt v 4 1,
        cull := numAt v 5 1, compare := numAt v 6 1, depthWrite := flags % 2 == 1, blend := flags / 2 % 2 == 1,
        w := numAt v 8 2, h := numAt v 10 2, fmt := numAt v 12 1, colour := BitVec.ofNat 64 (numAt v 16 8),
        depth := BitVec.ofNat 64 (numAt v 24 8), emitted := 0, open_ := [], held := [], backlog := [] })

/-- A raster binding meets R289 and R290, its targets apart. -/
def RasterBinding.inRange (b : RasterBinding) (n : Nat) (queues : SMap StageQueue) : Bool :=
  let consumer (q : Nat) : Bool := match queues.find? q with
    | some x => x.consumer == 0
    | none => false
  let producer (q : Nat) : Bool := match queues.find? q with
    | some x => x.producer == 0
    | none => false
  decide (n < 2 ∧ b.ki ≠ b.ko ∧ b.ki ≠ b.km ∧ b.ko ≠ b.km ∧ b.ki % 4 = b.ko % 4 ∧ b.ki % 4 = b.km % 4) &&
    consumer b.ki && producer b.ko && consumer b.km && [1, 2, 4, 8].contains b.samples &&
    decide (b.cull ≤ 2 ∧ b.compare ≤ 3 ∧ 1 ≤ b.w ∧ b.w ≤ 16384 ∧ 1 ≤ b.h ∧ b.h ≤ 16384 ∧ (b.fmt = 3 ∨ b.fmt = 7)) &&
    !(b.depthWrite && b.depth == 0)

/-- The packages of PKGS by rank; none where the field is out of its range (R376). -/
def Packet.packages (p : Packet) (mine : BitVec 6) : Option (List (BitVec 6)) :=
  if !p.has 0x1A then some []
  else
    let v := p.val 0x1A
    let n := numAt v 4 1
    let l := (List.range n).map fun i => BitVec.ofNat 6 (numAt v (8 + i) 1)
    if n = 0 ∨ 64 < n ∨ v.length ≠ 8 + n ∨ l.eraseDups.length ≠ n ∨ !l.contains mine then none else some l

/-- The tag of a LAUNCH field whose value lies outside its range. -/
def Packet.badLaunch (p : Packet) (qdom : Nat) (priv : Bool) (mine : BitVec 6) : Option Nat :=
  let extent (i : Nat) : Bool := decide (1 ≤ p.num 0x12 (4 * i) 4 ∧ p.num 0x12 (4 * i) 4 ≤ 65535)
  let qs := (p.all 0x18).map readQueue
  let queues := qs.foldl (fun m q => SMap.insert m q.1 q.2) []
  let rs := (p.all 0x19).map readRaster
  if !(extent 0 && extent 1 && extent 2) then some 0x12
  else if p.num 0x13 0 2 ≠ qdom ∧ !priv then some 0x13
  else if qs.any fun q => decide (15 < q.1) then some 0x18
  else if (rs.any fun r => !r.2.inRange r.1 queues) || decide ((rs.map fun r => r.1).eraseDups.length ≠ rs.length) then some 0x19
  else if (p.packages mine).isNone then some 0x1A
  else if p.has 0x1B ∧ p.num 0x1B 8 4 % 4096 ≠ 0 then some 0x1B
  else none

/-! ## Acceptance (R354) -/

/-- What the check of a LAUNCH comes to. -/
inductive LaunchCheck where
  | reject (code tag : Nat)
  /-- Granules that the check reads are not resident. -/
  | wait (needs : List Need)
  /-- The launch, and the entries whose REUSE its ranges set: index and class (R193). -/
  | ok (la : Launch) (reuse : List (Nat × Nat))

/-- Bytes of an object that are resident, or what to ask for, or none where they are uncorrectable. While the object is being
converted there is nothing to ask for (R199). -/
def State.readObject (s : State) (dom : Nat) (ref : DWord) (e : ObjEntry) (off n : Nat) : Except (List Need) (Option (List Byte)) :=
  let needs := s.missing dom (refIndex ref) e off n
  if s.converting e then .error []
  else if !needs.isEmpty then .error needs
  else
    let places := (List.range n).map fun i => s.addrOf dom e (off + i)
    .ok (if places.any s.poisoned then none else some (places.map s.byte))

/-- The references that a launch's ranges name, read from the argument and data objects at acceptance (R193, R350). -/
def State.readRanges (s : State) (dom : Nat) (args kdata : DWord) :
    List KRange → Except LaunchCheck (List (DWord × Nat × Nat × Nat))
  | [] => .ok []
  | r :: rs =>
    let holder := if r.inData then kdata else args
    let tag := if r.inData then 0x10 else 0x11
    let off := refOffset holder + r.off
    match s.checkBytes sluiceCore dom holder needR .load off 8 1 with
    | .error _ => .error (.reject 9 tag)
    | .ok e =>
      match s.readObject dom holder e off 8 with
      | .error needs => .error (.wait needs)
      | .ok none => .error (.reject 9 tag)
      | .ok (some b) =>
        let ref : DWord := BitVec.ofNat 64 (natOfBytes b)
        if r.count = 0 ∨ 2 ^ 42 < r.count then .error (.reject 7 0x10)
        else (s.readRanges dom args kdata rs).map fun l => (ref, refOffset ref, r.count, r.cls) :: l

/-- A raster binding's targets pass (R289). -/
def State.goodTargets (s : State) (dom : Nat) (b : RasterBinding) : Bool :=
  let n := b.w * b.h * b.samples
  let ok (ref : DWord) (need : BitVec 4) (size : Nat) : Bool :=
    (s.checkBytes sluiceCore dom ref need (.only 0) (refOffset ref) size 1).isOk
  ok b.colour (if b.blend then needRW else needW) (n * (if b.fmt = 3 then 4 else 8)) &&
    (b.depth == 0 || ok b.depth needRW (n * 4))

/-- The first field whose reference fails R178, kernel descriptor and COMPLETE apart. -/
def State.badReference (s : State) (dom : Nat) (p : Packet) (span : Nat) : Option Nat :=
  let save := p.word 0x15 8
  let queues := (p.all 0x18).map readQueue
  let rasters := (p.all 0x19).map readRaster
  if !(s.checkBytes sluiceCore dom save needRW (.either 0 8) (refOffset save) span 1).isOk || refOffset save % 64 != 0 then some 0x15
  else if queues.any fun q => decide (q.2.spillLimit ≠ 0) && !(s.checkObject sluiceCore dom q.2.spillRef needRW .store 0 0).isOk then
    some 0x18
  else if rasters.any fun r => !s.goodTargets dom r.2 then some 0x19
  else if p.has 0x1B ∧ !(s.checkObject sluiceCore dom (p.word 0x1B 0) needRW .store 0 0).isOk then some 0x1B
  else none

/-- Check a LAUNCH (R354). The queue's descriptor supplies context, domain and PRIV; `die` and `queue` say which queue
carried it. DESIGN CHOICE (log 118): a launch of one stage may carry SQ fields, and has their queues. -/
def State.checkLaunch (s : State) (d : QueueDesc) (die : BitVec 2) (queue : BitVec 11) (p : Packet) : LaunchCheck :=
  let mine := s.myPackage
  if s.domBase = 0 then .reject 9 0x13
  else
  match p.badLaunch d.dom d.priv mine with
  | some tag => .reject 7 tag
  | none =>
    let dom := p.num 0x13 0 2
    let kref := p.word 0x10 0
    let koff := refOffset kref
    match s.checkBytes sluiceCore dom kref needR .load koff 128 256 with
    | .error _ => .reject 9 0x10
    | .ok ke =>
      match s.readObject dom kref ke koff 128 with
      | .error needs => .wait needs
      | .ok none => .reject 9 0x10
      | .ok (some head) =>
        let k := readKernel head
        if !k.inRange then .reject 7 0x10
        else if !(s.checkBytes sluiceCore dom kref needR .load koff k.size 256).isOk then .reject 9 0x10
        else if !(s.checkObject sluiceCore dom k.code needX (.only 2) 0 0).isOk then .reject 9 0x10
        else
          match s.readObject dom kref ke koff k.size with
          | .error needs => .wait needs
          | .ok none => .reject 9 0x10
          | .ok (some b) =>
            let args := p.word 0x11 0
            match s.readRanges dom args k.kdata ((List.range k.nrange).map (readRange b)) with
            | .error c => c
            | .ok ranges =>
              let x := p.num 0x12 0 4
              let y := p.num 0x12 4 4
              let z := p.num 0x12 8 4
              let det := p.num 0x17 0 4 % 2 == 1
              let qs := (p.all 0x18).map readQueue
              let pkgs := (p.packages mine).getD []
              match s.badReference dom p (1024 * (x * y * z * k.nstage * k.waves)) with
              | some tag => .reject 9 tag
              | none =>
                if !s.goodComplete d p then .reject 9 0x01
                else if x * y * z % k.ncl ≠ 0 then .reject 10 0x12
                else if (qs.any fun q => decide (k.nstage ≤ q.2.producer ∨ k.nstage ≤ q.2.consumer)) ||
                    decide ((qs.map fun q => q.1).eraseDups.length ≠ qs.length) then .reject 10 0x18
                else if k.deterministic && !det then .reject 10 0x17
                else if det && !p.has 0x1B then .reject 10 0x1B
                else
                  let la : Launch :=
                    { ctx := BitVec.ofNat 12 d.ctx, die := die, queue := queue, seq := BitVec.ofNat 32 p.seq, pgen := d.pgen,
                      dom := BitVec.ofNat 16 dom, lid := BitVec.ofNat 32 (p.num 0x14 0 4), args := args, kdata := mkRef (refIndex k.kdata) (refRights k.kdata &&& needR) (refOffset k.kdata),
                      code := k.code, vregs := k.vregs, sregs := k.sregs, waves := k.waves, ncl := k.ncl,
                      nstage := k.nstage, nbar := k.nbar, idempotent := k.idempotent, scratch := k.scratch,
                      entries := k.entries, gridX := x, gridY := y, gridZ := z, tvec := p.word 0x15 0,
                      tsave := p.word 0x15 8, seed := BitVec.ofNat 8 (p.num 0x16 0 1), det := det,
                      queues := qs.foldl (fun m q => SMap.insert m q.1 q.2) [],
                      rasters := ((p.all 0x19).map readRaster).foldl (fun m r => SMap.insert m r.1 r.2) [],
                      pkgs := pkgs, rank := (pkgs.findIdx? fun q => q == mine).getD 0,
                      startGen := if p.has 0x1A then some (BitVec.ofNat 32 (p.num 0x1A 0 4)) else none,
                      clogRef := p.word 0x1B 0, clogLen := p.num 0x1B 8 4, complete := p.completion,
                      queueDom := BitVec.ofNat 16 d.dom, queuePriv := d.priv, ranges := ranges, rangeSeen := [],
                      rangeReported := [], rangeFetched := [], codeWords := [],
                      image := s.mem ++ s.hostMem.map fun c => (c.1 + hostBase, c.2), regions := readRegions b k,
                      started := pkgs.isEmpty, lastTurn := s.tick, nextCluster := 0, relaunch := [], relaunches := [],
                      token := 0, endedKeys := [], usedColl := false, ended := false, killed := false, reports := [],
                      accepting := true, acceptor := mine }
                  if !s.canReside la then .reject 11 0
                  else
                    let named := (ranges.map fun r => refIndex r.1).eraseDups
                    .ok la (named.map fun n => (n, ranges.foldl (fun m r => if refIndex r.1 = n then max m r.2.2.2 else m) 0))

/-- Write REUSE of the objects that ranges name (R193). -/
def State.writeReuse (s : State) (dom : Nat) (l : List (Nat × Nat)) : State :=
  l.foldl (fun s x =>
    let e := s.tableEntry dom x.1
    if x.1 < s.otCount dom then
      s.setWord64 (s.entryAddr dom x.1 + 24) ((e.w3 &&& ~~~0x0F00000000000000#64) ||| BitVec.ofNat 64 (x.2 * 2 ^ 56))
    else s) s

/-! ## Launches over several packages (R46, R376, R495) -/

/-- Abandon a launch on this package, which is a launch kill: a record of TYPE 2 and REASON 8, no COMPLETE, and VALID of its
queue cleared, which is not stopped (R423, R494, R495). -/
def State.abandon (s : State) (n : Nat) : State :=
  match s.launches.find? n with
  | none => s
  | some la =>
    let s := s.faultRecord (launchFault la 2 8 0)
    let s := ((s.killWorkgroups fun _ wg => decide (wg.launch = n)).dropQueue la).markKilled n
    { s with arrivals := s.arrivals.filter fun a => some a.2 != la.startGen }

/-- List an accepted launch, which reads nothing older than its acceptance (R232); over several packages, replicate it where
this package accepted it from a queue, and reserve for it and send arrivals (R46, R376). One that lists a lost package is
abandoned (R495). -/
def State.accept (s : State) (la : Launch) (reuse : List (Nat × Nat)) (packet : List Byte) : State :=
  let s := (s.acquireAll.modContext la.ctx.toNat id).writeReuse la.dom.toNat reuse
  let n := s.launches.fresh
  let s := { s with launches := s.launches.insert n la }
  let s := if la.accepting then
      s.sendAll (s.otherPackages la) packet.length fun q => .replica q la.ctx la.queueDom packet
    else s
  if la.pkgs.any fun q => s.lostPkgs.contains q then s.abandon n else s.reserve n

/-- Send a rejection stamped g to packages. -/
def State.sendRejections (s : State) (to_ : List (BitVec 6)) (g : Word) : State :=
  s.sendAll (to_.filter fun q => q != s.myPackage) messageBytes fun q => .rejection q g

/-- The granules that the check of an accepted launch has read: of its kernel descriptor, and of the objects that hold its ranges'
references (R192, R193, R353). -/
def State.noteLaunch (s : State) (p : Packet) : State :=
  let dom := p.num 0x13 0 2
  let kref := p.word 0x10 0
  let koff := refOffset kref
  let ke := s.tableEntry dom (refIndex kref)
  let read (n : Nat) : List Byte := (List.range n).map fun i => s.byte (s.addrOf dom ke (koff + i))
  let k := readKernel (read 128)
  let b := read k.size
  let holder (r : KRange) : DWord := if r.inData then k.kdata else p.word 0x11 0
  ((List.range k.nrange).map (readRange b)).foldl
    (fun s r => s.touchRange dom (refIndex (holder r)) (refOffset (holder r) + r.off) 8) (s.touchRange dom (refIndex kref) koff k.size)

/-! ## Events -/

/-- LAUNCH (R347, R350, R354, R376). -/
def execLaunch (die : BitVec 2) (q : BitVec 11) (s : State) : Host.Outcome State Fault Refusal :=
  .next (s.takePacket die.toNat q.toNat 5 fun d p s =>
    let earlier := s.launches.any fun x => x.2.accepting && x.2.die == die && x.2.queue == q && !x.2.ended
    if p.has 0x1C && earlier then .blocked s
    else
      match s.checkLaunch d die q p with
      | .reject code tag => .reject code tag
      | .wait needs =>
        .blocked ((s.requestNeeds die.toNat none needs).modSluice die.toNat q.toNat fun x => { x with resWait := !needs.isEmpty })
      | .ok la reuse =>
        .taken (((s.noteLaunch p).accept la reuse p.bytes).modSluice die.toNat q.toNat fun x => { x with resWait := false }))

/-- LAUNCH_REPLICA: a launch that another package accepted is checked here; a rejection is recorded, sent to every
package, and the launch abandoned (R354, R376, R495). While granules that the check reads are not resident it only asks
for them, and the row happens again. -/
def execLaunchReplica (from_ : BitVec 6) (ctx : BitVec 12) (dom : BitVec 16) (packet : List Byte) (s : State) :
    Host.Outcome State Fault Refusal :=
  let h := numAt packet 0 8
  let len := h / 2 ^ 16 % 2 ^ 16
  let (p, bad) := readFields 5 (h / 2 ^ 32) len (packet.take len)
  let d : QueueDesc := { base := 0, size := 0, rptrAddr := 0, pasid := 0, host := false, priv := true, pgen := 0,
                         ctx := ctx.toNat, dom := dom.toNat }
  let g : Word := BitVec.ofNat 32 (p.num 0x1A 0 4)
  let all := (List.range (numAt (p.val 0x1A) 4 1)).map fun i => BitVec.ofNat 6 (numAt (p.val 0x1A) (8 + i) 1)
  let refuse (code tag : Nat) : State :=
    let s := s.rejectionRecord 0xFFFF 0 ctx.toNat dom.toNat 0
      { code := code, tag := tag, type := 5, seq := p.seq, lid := p.num 0x14 0 4, gen := g.toNat }
    let s := s.faultRecord { type := 2, reason := 8, ctx := ctx.toNat, lid := p.num 0x14 0 4, seq := p.seq,
                             dom := p.num 0x13 0 2 }
    ({ s with arrivals := s.arrivals.filter fun a => a.2 != g, refusedGens := if s.refusedGens.contains g then s.refusedGens else s.refusedGens ++ [g] }).sendRejections all g
  if !s.sluiceRuns then .next s
  else
    match bad with
    | some (code, tag) => .next (refuse code tag)
    | none =>
      match s.checkLaunch d 0 0 { p with fields := p.fields.filter fun f => f.tag != 0x01 } with
      | .reject code tag => .next (refuse code tag)
      | .wait needs => .next (s.requestNeeds 0 none needs)
      | .ok la reuse =>
        .next ((s.noteLaunch p).accept { la with accepting := false, acceptor := from_, started := false } reuse packet)

/-- START_ARRIVAL: an arrival counts for the launch of its generation, is kept for one not yet accepted, and is
discarded for one that was abandoned or that this package has refused (R46, R495). DESIGN CHOICE (log 135): such a generation
stays refused. -/
def execStartArrival (from_ : BitVec 6) (g : Word) (s : State) : Host.Outcome State Fault Refusal :=
  let gone := (s.launchOfGen g).isNone &&
    (s.refusedGens.contains g || s.launches.any fun x => x.2.startGen == some g && x.2.killed)
  .next (if gone then s else s.arrived from_ g)

/-- LAUNCH_REJECTION_STAMPED: the launch of a generation is abandoned (R376, R495). -/
def execLaunchRejectionStamped (_from : BitVec 6) (g : Word) (s : State) : Host.Outcome State Fault Refusal :=
  match s.launchOfGen g with
  | some (n, _) => .next (s.abandon n)
  | none => .next s

/-- START_TIMEOUT: 10 ms after acceptance arrivals from every package are not held; the launch is abandoned on every
package (R495). -/
def execStartTimeout (n : Nat) (s : State) : Host.Outcome State Fault Refusal :=
  match s.launches.find? n with
  | none => .next s
  | some la =>
    match la.startGen with
    | none => .next s
    | some g => .next (if la.started || la.ended then s else (s.abandon n).sendRejections la.pkgs g)

/-- ARRIVAL_EXPIRY: an arrival of a generation that no accepted launch carries is discarded after 10 ms (R495). -/
def execArrivalExpiry (from_ : BitVec 6) (g : Word) (s : State) : Host.Outcome State Fault Refusal :=
  .next (if (s.launchOfGen g).isSome then s else { s with arrivals := s.arrivals.filter fun a => a != (from_, g) })

/-- PACKAGE_END_REPORT: a package's part of a launch has ended (R376). -/
def execPackageEndReport (from_ : BitVec 6) (g : Word) (s : State) : Host.Outcome State Fault Refusal :=
  match s.launchOfGen g with
  | some (n, la) => .next (if la.accepting && la.pkgs.contains from_ then s.reportEnd n from_ else s)
  | none => .next s

end Sys2Proof.Machine
end

