-- ==== Sys2Proof/Machine/Fetch.lean ====
section
/-!
DEFINITION. The fetch of an instruction (R89, R91).
-/

namespace Sys2Proof.Machine

/-- The instruction at which a fragment stands (R89, R91). -/
def State.fetched (s : State) (wk fid : Nat) : Option Instr :=
  match s.waves.find? wk with
  | none => none
  | some w =>
    match w.frag? fid, s.workgroups.find? w.wg with
    | some f, some wg =>
      match s.launches.find? wg.launch, w.fragPc f with
      | some la, some p =>
        let word (n : Nat) := s.codeWord la w.dom.toNat w.codeObj.toNat n
        some (decodeWord ((word p.toNat).getD 0) ((word (p.toNat + 1)).getD 0))
      | _, _ => none
    | _, _ => none

end Sys2Proof.Machine
end

