-- ==== Sys2Proof/Machine/Raster.lean ====
section
/-!
DEFINITION. The raster units: triangle set-up and fragment records (R291 to R297), and the output merge (R298 to
R300).
-/

namespace Sys2Proof.Machine

/-! ## Triangles (R291 to R293) -/

/-- A triangle record's vertices in 16.8 fixed point, its depths and its primitive id. -/
structure Triangle where
  x : List Int
  y : List Int
  z : List FVal
  id : Word

/-- A coordinate in 16.8 fixed point, none where the triangle is dropped (R292). -/
def snap (w : Word) : Option Int :=
  match binary32.decode w.toNat with
  | .fin neg m e =>
    let n : Int := 256 * (if neg then -(m : Int) else m)
    let x : Int := if 0 ≤ e then n * 2 ^ e.toNat else rneShift n (-e).toNat
    if -(2 ^ 23) ≤ x ∧ x ≤ 2 ^ 23 - 1 then some x else none
  | _ => none

/-- A triangle of a record, none where a coordinate drops it (R291, R292). -/
def readTriangle (r : List Word) : Option Triangle :=
  let xs := (List.range 3).map fun i => snap (r.getD (3 * i) 0)
  let ys := (List.range 3).map fun i => snap (r.getD (3 * i + 1) 0)
  let zs := (List.range 3).map fun i => r.getD (3 * i + 2) 0
  if xs.any Option.isNone || ys.any Option.isNone || zs.any notFinite then none
  else some ⟨xs.map (·.getD 0), ys.map (·.getD 0), zs.map fun z => binary32.decode z.toNat, r.getD 9 0⟩

/-- The edge function of vertices a and b at a point (R293). -/
def Triangle.edge (t : Triangle) (a b : Nat) (px py : Int) : Int :=
  let v (l : List Int) (i : Nat) := l.getD i 0
  (v t.x b - v t.x a) * (py - v t.y a) - (v t.y b - v t.y a) * (px - v t.x a)

/-- A (R293). -/
def Triangle.area (t : Triangle) : Int := t.edge 0 1 (t.x.getD 2 0) (t.y.getD 2 0)

/-- The sign by which A, E, dx and dy are taken: −1 for a back-facing triangle that is kept (R293). -/
def Triangle.sign (t : Triangle) : Int := if t.area < 0 then -1 else 1

/-- Sample offsets within a pixel (R294). -/
def sampleOffsets (samples : Nat) : List (Int × Int) :=
  match samples with
  | 1 => [(128, 128)]
  | 2 => [(192, 192), (64, 64)]
  | 4 => [(96, 32), (224, 96), (32, 160), (160, 224)]
  | _ => [(144, 112), (112, 176), (208, 144), (80, 48), (48, 208), (16, 80), (176, 16), (240, 240)]

/-- A point is inside an edge, or on a top or left one (R295). -/
def Triangle.inside (t : Triangle) (a b : Nat) (px py : Int) : Bool :=
  let e := t.sign * t.edge a b px py
  let dx := t.sign * (t.x.getD b 0 - t.x.getD a 0)
  let dy := t.sign * (t.y.getD b 0 - t.y.getD a 0)
  decide (0 < e ∨ (e = 0 ∧ ((dy = 0 ∧ 0 < dx) ∨ dy < 0)))

/-- Samples of a pixel that the triangle covers (R295). -/
def Triangle.covered (t : Triangle) (b : RasterBinding) (x y : Nat) : Nat :=
  if b.w ≤ x ∨ b.h ≤ y then 0
  else
    let offs := sampleOffsets b.samples
    (List.range offs.length).foldl (fun acc s =>
      let o := offs.getD s (0, 0)
      let px : Int := 256 * x + o.1
      let py : Int := 256 * y + o.2
      if t.inside 0 1 px py && t.inside 1 2 px py && t.inside 2 0 px py then acc + 2 ^ s else acc) 0

/-- An integer as an f32 value, rounded. -/
def intF32 (x : Int) : FVal := binary32.decode (binary32.ofInt false .rne x).code

/-- (b1, b2) and z at a pixel's centre (R297). -/
def Triangle.centre (t : Triangle) (x y : Nat) : FVal × FVal × FVal :=
  let cx : Int := 256 * x + 128
  let cy : Int := 256 * y + 128
  let z (i : Nat) := t.z.getD i rZero
  let inv := rDiv rOne (intF32 (t.sign * t.area))
  let b1 := rMul (intF32 (t.sign * t.edge 2 0 cx cy)) inv
  let b2 := rMul (intF32 (t.sign * t.edge 0 1 cx cy)) inv
  let t1 := rMul b1 (rSub (z 1) (z 0))
  (b1, b2, rAdd (rAdd (z 0) t1) (rMul b2 (rSub (z 2) (z 0))))

/-- The four pixels of a quad. -/
def quadPixels (x y : Nat) : List (Nat × Nat) := [(x, y), (x + 1, y), (x, y + 1), (x + 1, y + 1)]

/-- A quad's fragment record without its token, none where no sample is covered (R296). -/
def Triangle.quad (t : Triangle) (b : RasterBinding) (x y : Nat) : Option (List Word) :=
  let px := quadPixels x y
  let cov := (List.range 4).foldl (fun acc p => acc + t.covered b (px.getD p (0, 0)).1 (px.getD p (0, 0)).2 * 2 ^ (8 * p)) 0
  if cov = 0 then none
  else
    let cs := px.map fun p => t.centre p.1 p.2
    some ([BitVec.ofNat 32 (x + 65536 * y), (if 0 < t.area then 0x80000000#32 else 0#32), BitVec.ofNat 32 cov, t.id] ++
      (cs.flatMap fun c => [f32Code c.1, f32Code c.2.1]) ++ cs.map fun c => f32Code c.2.2)

/-- Even positions of an axis that the triangle's vertices span, within the extent. -/
def evens (vs : List Int) (extent : Nat) : List Nat :=
  let lo := (vs.foldl min (vs.getD 0 0) / 256).toNat / 2
  let hi := ((vs.foldl max (vs.getD 0 0)) / 256).toNat / 2
  ((List.range (hi + 1 - lo)).map fun i => 2 * (lo + i)).filter fun x => decide (x < extent)

/-- The fragment records of a triangle, in ascending order of (Y, X) (R296); none where it is culled or its area is 0
(R292, R293). -/
def Triangle.quads (t : Triangle) (b : RasterBinding) : List (List Word) :=
  if t.area = 0 ∨ (b.cull = 1 ∧ t.area < 0) ∨ (b.cull = 2 ∧ 0 < t.area) then []
  else (evens t.y b.h).flatMap fun y => (evens t.x b.w).filterMap fun x => t.quad b x y

/-! ## The unit's queues (R290, R296) -/

/-- Change a raster binding of a launch. -/
def State.modRaster (s : State) (launch b : Nat) (f : RasterBinding → RasterBinding) : State :=
  { s with launches := s.launches.modify launch fun la => { la with rasters := la.rasters.modify b f } }

/-- A raster unit as the maker of its accesses: it stands on the die of its queues (R290). -/
def unitWho (launch ki : Nat) : Who := ⟨0, 272 * (ki % 4), launch, 0, false⟩

/-- A record of the spill area that a unit cannot have ends the launch (log 103). -/
def State.unitFails (s : State) (launch : Nat) (c : LateCause) : State :=
  match s.launches.find? launch with
  | some la => s.killLaunch launch (launchFault la 2 9 (lateCode c))
  | none => s

/-- Push fragment records while the fragment queue accepts them and fewer than 4,096 tokens are unmerged (R296). -/
def State.emit (launch b ko : Nat) : List (List Word) → State → State
  | [], s => s.modRaster launch b fun x => { x with backlog := [] }
  | r :: rest, s =>
    match (s.launches.find? launch).bind fun la => la.rasters.find? b with
    | none => s
    | some x =>
      let stop (s : State) : State := s.modRaster launch b fun x => { x with backlog := r :: rest }
      if 4096 ≤ x.open_.length then stop s
      else
        let token := x.emitted % 2 ^ 31
        let w0 := (r.getD 0 0).toNat
        let r := r.set 1 (r.getD 1 0 ||| BitVec.ofNat 32 token)
        match s.pushRecord (unitWho launch ko) ko (r.flatMap fun w => bytesOfNat 4 w.toNat) with
        | .wait s => stop s
        | .late s c => s.unitFails launch c
        | .done s _ =>
          State.emit launch b ko rest
            (s.modRaster launch b fun x => { x with emitted := x.emitted + 1,
                                                    open_ := x.open_ ++ [(token, w0 % 65536, w0 / 65536)] })

/-- A unit takes the oldest record of its input queue k, if there is one; `atEnd` where the queue is closed and empty. -/
def State.unitPop (s : State) (launch k : Nat) (take : State → List Word → State) (atEnd : State → State) : State :=
  match (s.launches.find? launch).bind fun la => la.queues.find? k with
  | none => s
  | some _ =>
    match s.popRecord (unitWho launch k) k (fun s r => .done (take s r) []) (.done (atEnd s) []) with
    | .wait s => s
    | .late s c => s.unitFails launch c
    | .done t _ => t

/-- RASTER_TRIANGLE: a unit emits what it has in hand, else takes the next triangle record; with its input closed and
empty and everything emitted it closes its fragment queue (R290, R296). -/
def execRasterTriangle (launch : Nat) (b : BitVec 1) (s : State) : Host.Outcome State Fault Refusal :=
  match (s.launches.find? launch).bind fun la => (la.rasters.find? b.toNat).map fun x => (la, x) with
  | none => .next s
  | some (la, x) =>
    if la.ended then .next s
    else if !x.backlog.isEmpty then .next (State.emit launch b.toNat x.ko x.backlog s)
    else
      .next (s.unitPop launch x.ki
        (fun s r => State.emit launch b.toNat x.ko (((readTriangle r).map fun t => t.quads x).getD []) s)
        (fun s => s.modQueue launch x.ko fun q => { q with closed := true }))

/-! ## Output merge (R298, R299) -/

/-- A target's element: its granule is resident, or is still needed; none where the write fails R178 (R289). -/
inductive TargetOut where
  | discard
  | wait (needs : List Need)
  | at_ (addr : Nat)

/-- The place of an element of a target, checked again under R178 as the merge reaches it (R289, R299). -/
def State.targetPlace (s : State) (la : Launch) (ref : DWord) (need : BitVec 4) (elem size : Nat) : TargetOut :=
  let dom := la.dom.toNat
  let off := refOffset ref + elem * size
  let e := s.tableEntry dom (refIndex ref)
  let ok := s.domValid dom && decide (refIndex ref ≠ 0 ∧ refIndex ref < s.otCount dom) && e.valid && decide (e.kind = 0) &&
    ((need &&& ~~~(refRights ref &&& e.rights.extractLsb' 1 4)) == 0) && decide (off % size = 0 ∧ off + size ≤ e.length)
  if !ok then .discard
  else if !s.residentRange e off size then .wait (s.missing dom (refIndex ref) e off size)
  else .at_ (s.addrOf dom e off)

/-- The depth test (R299). -/
def depthPass (compare : Nat) (z zt : FVal) : Bool :=
  match compare with
  | 0 => true
  | 1 => rLt z zt
  | 2 => rLe z zt
  | _ => rLt zt z

/-- A stored channel as an f32 value (R299). -/
def storedChannel (fmt : Nat) (bs : List Byte) (c : Nat) : FVal :=
  if fmt = 3 then rDiv (intF32 (imageNat bs c 1)) (intF32 255) else binary16.decode (imageNat bs (2 * c) 2)

/-- A channel blended with what is stored (R299). -/
def blended (blend : Bool) (src : Nat → FVal) (dst : Nat → FVal) (c : Nat) : FVal :=
  if blend then rAdd (rMul (src c) (src 3)) (rMul (dst c) (rSub rOne (src 3))) else src c

/-- The bytes of a channel (R299). -/
def channelBytes (fmt : Nat) (v : FVal) : List Byte :=
  if fmt = 3 then
    let x := match v with
      | .nan => 0
      | v => scaledRound (FVal.min (FVal.max v rZero) rOne) 255 0
    bytesOfNat 1 x.toNat
  else bytesOfNat 2 (binary16.ofVal false .rne v).code

/-- A merge write of bytes at a place, made by the unit of a die at package scope (R300); a discarded one writes
nothing (R289). -/
def State.mergeWrite (s : State) (die : Nat) (p : TargetOut) (bs : List Byte) : State :=
  match p with
  | .at_ a => s.dieWrite die a bs
  | _ => s

/-- Merge one sample: element, source colour and depth; the granules it still needs, or the state (R299). Each target is
checked by itself (R289). DESIGN CHOICE (log 104): where the stored depth fails its check, whether the sample passes is
open. -/
def State.mergeSample (s : State) (la : Launch) (b : RasterBinding) (elem : Nat) (src : Nat → FVal) (z : Word) :
    Except (List Need) State :=
  let die := b.ki % 4
  let size := if b.fmt = 3 then 4 else 8
  let stored := if b.depth = 0 then .discard else s.targetPlace la b.depth needR elem 4
  let depth := if b.depth = 0 ∨ !b.depthWrite then .discard else s.targetPlace la b.depth needW elem 4
  let colour := s.targetPlace la b.colour (if b.blend then needRW else needW) elem size
  match [stored, depth, colour].findSome? fun p => match p with
    | .wait n => some n
    | _ => none with
  | some n => .error n
  | none =>
    let pass := if b.depth = 0 ∨ b.compare = 0 then true
      else match stored with
        | .at_ a => depthPass b.compare (binary32.decode z.toNat) (binary32.decode (natOfBytes (s.portBytes die a 4)))
        | _ => Config.freeChoice s.freeCount % 2 == 1
    if !pass then .ok s.bumpFree
    else
      let s := s.bumpFree.mergeWrite die depth (bytesOfNat 4 z.toNat)
      let old := match colour with
        | .at_ a => s.portBytes die a size
        | _ => []
      .ok (s.mergeWrite die colour
        ((List.range 4).flatMap fun c => channelBytes b.fmt (blended b.blend src (storedChannel b.fmt old) c)))

/-- Merge every covered sample of a record (R298, R299). -/
def State.mergeRecord (s : State) (la : Launch) (b : RasterBinding) (r : List Word) : Except (List Need) State :=
  let w0 := (r.getD 0 0).toNat
  let cov := r.getD 2 0
  let px := quadPixels (w0 % 65536) (w0 / 65536)
  (List.range (4 * b.samples)).foldl (fun acc k =>
    match acc with
    | .error n => .error n
    | .ok s =>
      let p := k / b.samples
      let sample := k % b.samples
      let (x, y) := px.getD p (0, 0)
      if !cov.getLsbD (8 * p + sample) || decide (b.w ≤ x ∨ b.h ≤ y) then .ok s
      else
        let src (c : Nat) : FVal := binary16.decode (fieldOf (r.getD (4 + 2 * p + c / 2) 0) (16 * (c % 2)) 16)
        s.mergeSample la b ((y * b.w + x) * b.samples + sample) src (r.getD (12 + p) 0)) (.ok s)

/-- The first held record of which no earlier token of its position is unmerged. -/
def RasterBinding.ready (b : RasterBinding) : Option Nat :=
  b.held.findIdx? fun r =>
    let token := (r.getD 1 0).toNat % 2 ^ 31
    match b.open_.find? fun t => t.1 == token with
    | some (_, x, y) => (b.open_.find? fun t => t.2.1 == x && t.2.2 == y).map (fun t => t.1) == some token
    | none => true

/-- The tokens that count as merged once the merge queue is closed and empty: those without a held record (R298). -/
def RasterBinding.closeTokens (b : RasterBinding) : RasterBinding :=
  { b with open_ := b.open_.filter fun t => b.held.any fun r => (r.getD 1 0).toNat % 2 ^ 31 == t.1 }

/-- RASTER_MERGE: a unit applies a merge record whose turn has come, else takes one from its merge queue (R298 to
R300). A record whose token is not open merges nothing. -/
def execRasterMerge (launch : Nat) (b : BitVec 1) (s : State) : Host.Outcome State Fault Refusal :=
  match (s.launches.find? launch).bind fun la => (la.rasters.find? b.toNat).map fun x => (la, x) with
  | none => .next s
  | some (la, x) =>
    if la.ended then .next s
    else
      match x.ready with
      | some n =>
        let r := x.held.getD n []
        let token := (r.getD 1 0).toNat % 2 ^ 31
        let done (s : State) : State :=
          (s.modRaster launch b.toNat fun x => { x with held := x.held.eraseIdx n,
                                                        open_ := x.open_.filter fun t => t.1 != token }).checkLaunchEnd launch
        if !x.open_.any fun t => t.1 == token then .next (done s)
        else
          (match s.mergeRecord la x r with
          | .ok t => .next (done t)
          | .error needs =>
            if s.needsFail needs then .next (s.killLaunch launch (launchFault la 2 9 0x06))
            else .next (s.requestNeeds (x.ki % 4) (some launch) needs))
      | none =>
        .next (s.unitPop launch x.km
          (fun s r => s.modRaster launch b.toNat fun x => { x with held := x.held ++ [r] })
          (fun s => s.modRaster launch b.toNat RasterBinding.closeTokens))

end Sys2Proof.Machine
end

