-- ==== Sys2Proof/Machine/Waves.lean ====
section
/-!
DEFINITION. Steps of a wave that are not instructions: holds (R36), write-backs and replays (R107, R190, R287), stores
(R185), late conditions (R455), WAIT.CLK (R343) and a word that is no instruction (R438).
-/

namespace Sys2Proof.Machine

/-- NOT_AN_INSTRUCTION: sub-reason 0x01 or 0x02 is found in stage A (R436, R438); this is never reached. -/
def execNotAnInstruction (w : DWord) : State → Host.Outcome State Fault Refusal :=
  issue (.notAnInstruction w) fun _ _ => .trap 0x40 (illegalVal w 0x02)

/-- HOLD_LIMIT: a hold ends once the wave's other fragments have issued 4,096 instructions (R36). -/
def execHoldLimit (wk fid : Nat) (s : State) : Host.Outcome State Fault Refusal :=
  match (s.waves.find? wk).bind fun w => (w.frag? fid).map fun f => (w, f) with
  | some (w, f) => .next (if w.atHeader f && w.holdOver f then State.arrive wk arriveFuel s else s)
  | none => .next s

/-- The long-latency instructions that a vector pipe executes, and SAMPLE.N: an arithmetic unit checks their results (R473). -/
def Instr.checked : Instr → Bool
  | .div _ | .rem _ | .frcp _ | .frsq _ | .fsqrt _ | .fdiv _ | .fexp2 _ | .flog2 _ | .fsin _ | .fcos _ | .ftanh _ | .shfl _
  | .shflup _ | .shfldn _ | .shflx _ | .scan _ | .scanx _ | .reduce _ | .compact _ | .expand _ | .sampleN _ => true
  | _ => false

/-- What the checks of a vector pipe or of a SAMPLE.N's layers found in an instruction of a wave: repeats are counted, and a fourth
detection is damage to the workgroup's state (R473 to R475). -/
def State.checkResult (s : State) (wk : Nat) (pc : CodeAddr) (outcome : EngineOutcome) (pass : State → State) : State :=
  match (s.waves.find? wk).bind fun w => s.workgroups.find? w.wg with
  | none => s
  | some g =>
    let t := s.countOutcome (dieOf g.core) outcome
    match outcome with
    | .done _ => pass t
    | .failed => t.engineDamage wk pc

/-- LONG_LATENCY_COMPLETE: a pending instruction's result lands once its check has passed, or its unfinished lanes are tried again
(R107, R190, R287, R473). -/
def execLongLatencyComplete (wk : Nat) (ended : LatencyEnd) (s : State) : Host.Outcome State Fault Refusal :=
  match (s.waves.find? wk).bind fun w => w.pend.find? fun p => p.id == ended.pend with
  | none => .next s
  | some p =>
    if !s.onCore wk then .next s
    else
      let done (s : State) : State := match p.kind with
        | .result => s.modWave wk fun w => w.landResult p
        | .access => s.replay wk p
        | .sampler => s.replaySampler wk p
        | .ray => s
      .next (if Instr.checked p.instr then s.checkResult wk p.pc ended.outcome done else done s)

/-- A store waits behind an earlier one of one of its slices to a common byte (R229 case 1); the lanes of one store that meet
stand in the queue in an order that the device has chosen (R201). -/
def State.storeBehind (s : State) (n : Nat) (p : PendingStore) : Bool := (s.storeQ.take n).any fun q => s.ordered q p

/-- STORE_ACKNOWLEDGE: a write is performed at its point of coherence (R185). A trap entry record whose granule is not
resident asks for it; one that cannot be had kills the context (R458). -/
def execStoreAcknowledge (n : Nat) (s : State) : Host.Outcome State Fault Refusal :=
  match s.storeQ[n]? with
  | none => .next s
  | some p =>
    if !s.storeReady p then
      if s.accFails p.acc then .next (s.failRecords .residency fun s a => s.accFails a)
      else
        match s.launchOf p.agent.wave with
        | some la => .next (s.requestAcc (dieOf p.core) la p.acc)
        | none => .next { s with storeQ := s.storeQ.eraseIdx n }
    else if s.storeBehind n p then .next s
    else .next { s.performStore p with storeQ := s.storeQ.eraseIdx n }

/-- LATE_CONDITION: a residency, translation or data condition is found for a pending access (R455). -/
def execLateCondition (wk id : Nat) (c : LateCause) (s : State) : Host.Outcome State Fault Refusal :=
  match (s.waves.find? wk).bind fun w => w.pend.find? fun p => p.id == id with
  | none => .next s
  | some p =>
    if !s.onCore wk then .next s
    else
      match p.kind, p.accs, p.samples with
      | .access, a :: _, _ => .next (s.lateTrap wk p c (accTval a))
      | .ray, a :: _, _ => .next (s.lateTrap wk p c a.ref)
      | .sampler, _, j :: _ => .next (s.lateTrap wk p c (if c = .network then j.netRef else j.ref))
      | _, _, _ => .next s

/-- WAIT_CLK_EXPIRY: the counter has reached a WAIT.CLK's target and the fragment runs on (R343). -/
def execWaitClkExpiry (wk fid : Nat) (s : State) : Host.Outcome State Fault Refusal :=
  let waiting := match (s.waves.find? wk).bind fun w => w.frag? fid with
    | some f => (match f.wait with
      | .clkAt _ => true
      | .clkAbs _ => true
      | _ => false)
    | none => false
  match s.fetched wk fid with
  | some (.waitClk f) => if waiting then execWaitClk f { s with cur := some (wk, fid) } else .next s
  | _ => .next s

end Sys2Proof.Machine
end

