-- ==== Sys2Proof/Machine/Platform.lean ====
section
/-!
DEFINITION. Platform registers (R377), islands and thermal limits (R392 to R394), the mailbox and boot (R390, R395),
SPDM (R390, R434), security alarms (R432, R433), host accesses (R379), the second tier's links and scrubbing (R465, R466),
skews (R391).
-/

namespace Sys2Proof.Machine

/-! ## Platform registers (R377) -/

/-- Bits hi to lo of a value kept, the others 0. -/
def keepBits (x : DWord) (hi lo : Nat) : DWord := BitVec.ofNat 64 (x.toNat / 2 ^ lo % 2 ^ (hi + 1 - lo) * 2 ^ lo)

/-- LOG2N of a ring register: below 4 stored as 4, above 20 as 20 (R425, R487, R491). -/
def clampLog (x : DWord) : Nat := max 4 (min 20 (fieldOf x 0 5))

/-- A launch is accepted and not ended. -/
def State.busy (s : State) : Bool := s.launches.any fun x => !x.2.ended

/-- What a host write leaves in a register with no row of its own: its RW fields take the value, its W1C bits clear,
and the rest keeps (R377). None where the write is discarded. -/
def State.written (s : State) (off : Nat) (x : DWord) : Option DWord :=
  let old := s.reg off
  let count (hi : Nat) : DWord := (old &&& ~~~(BitVec.ofNat 64 (2 ^ (hi + 1) - 1))) ||| keepBits x hi 0
  let debug := off % 0x40
  if off = 0x0008 ∨ (0x0010 ≤ off ∧ off < 0x0030) ∨ (0x0060 ≤ off ∧ off < 0x0080) then some (keepBits x 51 12)
  else if off = 0x0030 then if s.busy then none else some (0x8000000000000000#64 ||| keepBits x 5 0)
  else if off = 0x0038 then some (keepBits x 15 0)
  else if off = 0x0700 ∨ off = 0x0B80 then some ((x &&& 0x8000000000000000#64) ||| keepBits x 51 6)
  else if off = 0x0708 ∨ off = 0x0B88 then some (BitVec.ofNat 64 (clampLog x))
  else if off = 0x0710 then some (old &&& ~~~(x &&& 0x7F#64))
  else if (0x0800 ≤ off ∧ off < 0x0900 ∧ off % 0x40 < 0x28) ∨ (0x0A00 ≤ off ∧ off < 0x0B80 ∧ (off < 0x0B20 ∨ 0x0B40 ≤ off)) ∨
      (0x0B20 ≤ off ∧ off < 0x0B40) then some (count 47)
  else if 0x0900 ≤ off ∧ off < 0x0920 then some (old &&& ~~~(x &&& 0x8000000000000000#64))
  else if off = 0x0920 then some (keepBits x 31 0)
  else if 0x1100 ≤ off ∧ off < 0x2000 then some x
  else if 0x2000 ≤ off ∧ off < 0x2200 then
    if debug = 0x08 then some (keepBits x 51 12)
    else if debug = 0x10 then some (keepBits x 31 28 ||| keepBits x 25 24 ||| keepBits x 10 0)
    else if debug = 0x18 then some (keepBits x 63 60 ||| keepBits x 31 0)
    else if debug = 0x28 then some (old &&& ~~~(x &&& 0x8000000000000000#64))
    else if debug = 0x30 then some (keepBits x 51 6 ||| BitVec.ofNat 64 (clampLog x))
    else none
  else none

/-- Halted waves of a context on the package, resident or swapped out (R487). -/
def State.haltedCount (s : State) (ctx : Nat) : Nat :=
  (s.waves.filter fun x => x.2.halted && (match s.workgroups.find? x.2.wg with
    | some g => s.ctxOf g == some ctx
    | none => false)).length

/-- What a host read of a register returns: write-only bits read 0; DBGSTAT counts halted waves; the package's own
PSKEW is valid and 0; a port whose far end has the package's own number reads STATE 0; MBSTAT reads 0xE in
recovery (R377, R390, R391, R433, R487). -/
def State.readRegister (s : State) (off : Nat) : DWord :=
  if off = 0x1008 ∧ (s.recovery ∨ s.halted) then 0xE#64
  else if 0x0A00 ≤ off ∧ off < 0x0B20 ∧ s.portLoops ((off - 0x0A00) / 8) then s.reg off &&& 0x3FFFFFFFFFFFFFFF#64
  else if 0x0100 ≤ off ∧ off < 0x0300 ∧ (off - 0x0100) / 8 = s.myPackage.toNat then 0x8000000000000000#64
  else if 0x2000 ≤ off ∧ off < 0x2200 ∧ off % 0x40 = 0x28 then
    (s.reg off &&& 0x8000000000000000#64) ||| BitVec.ofNat 64 (s.haltedCount (s.sessionCtx ((off - 0x2000) / 0x40)))
  else s.reg off

/-! ## Mailbox (R395) -/

/-- Status of the last mailbox command as the controller holds it. -/
def State.mailbox (s : State) : Nat := fieldOf (s.reg 0x1008) 0 4

/-- Set the mailbox status. -/
def State.setMailbox (s : State) (n : Nat) : State := s.setReg 0x1008 (BitVec.ofNat 64 n)

/-- A command that the mailbox knows. -/
def knownCommand (c : Nat) : Bool := c == 0x0001 || c == 0x0010 || c == 0x0011 || c == 0x0020

/-- REGISTER_WRITE: a write to a register with no row of its own. MBCMD starts a command unless one runs; a command the
mailbox does not know is rejected; DBGCTL opens and closes its session (R377, R395, R487). -/
def execRegisterWrite (off : BitVec 16) (value : DWord) (s : State) : Host.Outcome State Fault Refusal :=
  let n := off.toNat
  if n % 8 ≠ 0 then .next s
  else if n = 0x1000 then
    if s.mailbox = 1 then .next s
    else
      let s := s.setReg 0x1000 (keepBits value 47 32 ||| keepBits value 15 0)
      .next (s.setMailbox (if knownCommand (fieldOf value 0 16) then 1 else 2))
  else if 0x2000 ≤ n ∧ n < 0x2200 ∧ n % 0x40 = 0 then execDbgctlWrite (BitVec.ofNat 3 ((n - 0x2000) / 0x40)) value s
  else
    match s.written n value with
    | some x => .next (if n = 0x0030 then (s.setReg n x).pump else s.setReg n x)
    | none => .next s

/-- A mailbox command runs. -/
def State.runs (s : State) (c : Nat) : Bool := s.mailbox == 1 && fieldOf (s.reg 0x1000) 0 16 == c

/-- Payload bytes of the command. -/
def State.payload (s : State) : List Byte :=
  let n := fieldOf (s.reg 0x1000) 32 16
  ((List.range 480).flatMap fun i => bytesOfNat 8 (s.reg (0x1100 + 8 * i)).toNat).take n

/-- The firmware image in flash (R390). -/
def State.flashImage (s : State) : List Byte := (List.range s.flash.fresh).map fun a => SMap.get 0 s.flash a

/-- IDENTIFY returns DEVID, the image version and the rollback counter, in the first three words of MBDATA
(DESIGN CHOICE: log entry 82), the version that of the image in flash (DESIGN CHOICE: log 127). -/
def execIdentify (s : State) : Host.Outcome State Fault Refusal :=
  if s.runs 0x0001 then
    .next ((((s.setReg 0x1100 (s.reg 0x0000)).setReg 0x1108 ((Config.imageVersion s.flashImage).zeroExtend 64)).setReg 0x1110
      (s.rollback.zeroExtend 64)).setMailbox 0)
  else .next s

/-- FWWRITE: bytes 0 to 7 of the payload are an offset, the rest goes to the image in flash; a payload without an offset
or beyond MBDATA is rejected (DESIGN CHOICE: log 131). -/
def execFwwrite (s : State) : Host.Outcome State Fault Refusal :=
  if s.runs 0x0010 then
    let n := fieldOf (s.reg 0x1000) 32 16
    if n < 8 ∨ 3840 < n then .next (s.setMailbox 2)
    else
      let off := numAt s.payload 0 8
      let data := s.payload.drop 8
      let flash := (List.range data.length).foldl (fun m i => SMap.set 0 m (off + i) (data.getD i 0)) s.flash
      .next ({ s with flash := flash }.setMailbox 0)
  else .next s

/-- STATUS returns the last boot's verification result: 1 where the image was accepted (DESIGN CHOICE: log entry 82). -/
def execStatus (s : State) : Host.Outcome State Fault Refusal :=
  if s.runs 0x0020 then .next ((s.setReg 0x1100 (if s.bootOk then 1 else 0)).setMailbox 0) else .next s

/-! ## Boot (R390, R434) -/

/-- The boot ROM accepts an image: it verifies, its version is not below the counter, and its floor exceeds neither 63
nor the version. -/
def State.accepts (s : State) (image : List Byte) : Bool :=
  Config.imageVerifies image && decide (s.rollback.toNat ≤ (Config.imageVersion image).toNat) &&
    decide (Config.imageFloor image ≤ 63 ∧ Config.imageFloor image ≤ (Config.imageVersion image).toNat)

/-- Reset: the state right after reset, but for what the part keeps: memory (HBM cleared where a halt came before),
flash and fuses. The boot ROM then verifies the image; the boot firmware, which a rejected image is not, writes EXPCAP (R380,
R390, R434). -/
def State.boot (s : State) : State :=
  let image := s.flashImage
  let ok := s.accepts image
  let floor := Config.imageFloor image
  { State.reset with
    mem := if s.halted then s.mem.filter fun c => decide (0x9000000000 ≤ c.1) else s.mem,
    hostMem := s.hostMem,
    poison := if s.halted then s.poison.filter fun x => decide (0x9000000000 ≤ 32 * x.1) else s.poison,
    bar0 := (if ok then [] else [(0x0040, 0), (0x0048, 0), (0x0050, 0), (0x0058, 0)]) ++
      if s.identityErased then [(0x0710, 0x300#64)] else [],
    flash := s.flash, running := if ok then image else [], bootOk := ok, measured := if ok then Config.sha256 image else [],
    rollback := if ok && decide (s.rollback.toNat < floor) then BitVec.ofNat 6 floor else s.rollback,
    identityErased := s.identityErased, recovery := !ok, outbox := s.outbox, turns := s.turns,
    freeCount := s.freeCount, tick := s.tick }

/-- POWER_ON_RESET (R390). -/
def execPowerOnReset (s : State) : Host.Outcome State Fault Refusal := .next s.boot

/-- FWACTIVATE: busy while a launch is accepted and not ended; else the dies are reset and boot the image in flash. -/
def execFwactivate (s : State) : Host.Outcome State Fault Refusal :=
  if s.runs 0x0011 then .next (if s.busy then s.setMailbox 3 else s.boot) else .next s

/-! ## SPDM (R390, R434) -/

/-- The response stands for the requester to read. -/
def State.respond (s : State) (r : SpdmResponse) : State := { s with spdm := r }

/-- GET_VERSION. -/
def execGetVersion (s : State) : Host.Outcome State Fault Refusal := .next (s.respond .version)

/-- GET_CAPABILITIES. -/
def execGetCapabilities (s : State) : Host.Outcome State Fault Refusal := .next (s.respond .capabilities)

/-- NEGOTIATE_ALGORITHMS: ECDSA P-256 and SHA-256 only. -/
def execNegotiateAlgorithms (ecdsaP256 sha256 : Bool) (s : State) : Host.Outcome State Fault Refusal :=
  .next (s.respond (.algorithms (ecdsaP256 && sha256)))

/-- GET_DIGESTS. -/
def execGetDigests (s : State) : Host.Outcome State Fault Refusal := .next (s.respond (.digests Config.certDigest))

/-- GET_CERTIFICATE: part of the chain, or ERROR once the identity is erased. -/
def execGetCertificate (offset length : BitVec 16) (s : State) : Host.Outcome State Fault Refusal :=
  .next (s.respond (if s.identityErased then .error
    else .certificate ((Config.certificate.drop offset.toNat).take length.toNat)))

/-- CHALLENGE: a signature by the identity key, or ERROR once it is erased. The device's own nonce is a free value. -/
def execChallenge (nonce : List Byte) (s : State) : Host.Outcome State Fault Refusal :=
  let own := (List.range 32).map (Config.freeByte s.freeCount)
  .next (s.bumpFree.respond (if s.identityErased then .error else .challengeAuth own (Config.signature (nonce ++ own))))

/-- A measurement: 1 the ROM, 2 the firmware image, 3 the fuses, 4 the security controller. -/
def State.measurement (s : State) (i : Nat) : List Byte :=
  if i = 2 then s.measured else Config.measurement i s.rollback.toNat s.identityErased

/-- GET_MEASUREMENTS: one measurement by index, all of them for 0xFF (R390), ERROR for another index (DESIGN CHOICE: log 132). -/
def execGetMeasurements (index : BitVec 8) (s : State) : Host.Outcome State Fault Refusal :=
  let i := index.toNat
  let l := if i = 0xFF then [1, 2, 3, 4] else if 1 ≤ i ∧ i ≤ 4 then [i] else []
  .next (s.respond (if l.isEmpty then .error else .measurements (l.map fun i => (i, s.measurement i))))

/-! ## Security alarms and thermal trip (R394, R432, R433) -/

/-- Every context of the package: those named by a packet or a launch, and those of the queues that exist. -/
def State.allContexts (s : State) : List Nat :=
  let queues := (List.range 4).flatMap fun d =>
    if fieldOf (s.reg (0x0010 + 8 * d)) 12 40 = 0 then []
    else (List.range 2048).filterMap fun q => (s.queueOf d q).map fun x => x.ctx
  ((s.contexts.map fun x => x.1) ++ (s.launches.map fun x => x.2.ctx.toNat) ++ queues).eraseDups

/-- Kill every context for a reason, after a record of its own type. -/
def State.killAll (s : State) (record : FaultInfo) (reason : Nat) : State :=
  let s := s.faultRecord record
  s.allContexts.foldl (fun s c => s.killContext c { type := 1, reason := reason }) s

/-- The response to alarm sources: 1 contexts killed, 2 halted, 3 identity erased. -/
def alarmLevel (sources : BitVec 8) : Nat :=
  if sources.getLsbD 2 then 3 else if sources.getLsbD 4 || sources.getLsbD 5 then 2 else if sources &&& 0x4B = 0 then 0 else 1

/-- Latch alarm sources and take the most severe response (R432, R433). -/
def State.alarm (s : State) (sources : BitVec 8) : State :=
  let level := alarmLevel sources
  if level = 0 then s
  else
    let old := s.reg 0x0710
    let resp := max level (fieldOf old 8 8)
    let s := s.setReg 0x0710 (BitVec.ofNat 64 (((old.extractLsb' 0 8 ||| sources) &&& 0x7F).toNat + 256 * resp))
    let s := { (s.killAll { type := 4, sources := sources.toNat % 128 } 6) with sessionKeys := false }
    { s with halted := s.halted || decide (2 ≤ level), identityErased := s.identityErased || decide (level = 3) }

/-- SECURITY_ALARM (R432, R433). -/
def execSecurityAlarm (sources : BitVec 8) (s : State) : Host.Outcome State Fault Refusal := .next (s.alarm sources)

/-- FIRMWARE_REMEASURE: the running firmware is measured again; where it differs from measurement 2, source MEAS latches
(R432). -/
def execFirmwareRemeasure (s : State) : Host.Outcome State Fault Refusal :=
  .next (if s.recovery || s.running.isEmpty || Config.sha256 s.running == s.measured then s else s.alarm 0x10)

/-- Store the hottest junction in THERM. -/
def State.setTemp (s : State) (temp : BitVec 8) : State :=
  s.setReg 0x0600 ((s.reg 0x0600 &&& 0x100#64) ||| temp.zeroExtend 64)

/-- THERMAL_TRIP: at 110 °C the trip latches, every core stops and every context is killed with reason 7 (R394, R433). -/
def execThermalTrip (temp : BitVec 8) (s : State) : Host.Outcome State Fault Refusal :=
  if temp.toNat < 110 then .next s
  else
    let s := s.setTemp temp
    let s := s.setReg 0x0600 (s.reg 0x0600 ||| 0x100#64)
    .next { (s.killAll { type := 5 } 7) with tripped := true }

/-! ## Islands (R393, R394) -/

/-- ISLAND i from its fields. -/
def mkIsland (busy throt : Bool) (cur tgt : Nat) : DWord :=
  BitVec.ofNat 64 ((if busy then 2 ^ 31 else 0) + (if throt then 2 ^ 30 else 0) + cur % 256 * 2 ^ 16 + tgt % 256)

/-- A target as stored: 17 to 100. -/
def clampTarget (x : Nat) : Nat := max 17 (min 100 x)

/-- Change ISLAND i by its fields BUSY, THROT, CUR, TGT. -/
def State.modIsland (s : State) (i : Nat) (f : Bool → Bool → Nat → Nat → DWord) : State :=
  let x := s.reg (0x0400 + 8 * i)
  s.setReg (0x0400 + 8 * i) (f (x.getLsbD 31) (x.getLsbD 30) (fieldOf x 16 8) (fieldOf x 0 8))

/-- A new target: a change begins unless the island runs at it. THROT stays only while the island is held below the target. DESIGN
CHOICE (log 138): the limit of a throttle that THROT no longer shows is forgotten. -/
def State.retarget (s : State) (i t : Nat) : State :=
  s.modIsland i fun _ throt cur _ => mkIsland (cur != t) (throt && decide (cur < t)) cur t

/-- ISLAND_WRITE: a target, or while a change is in progress the target to apply at its end, the last one winning. -/
def execIslandWrite (i : BitVec 6) (value : DWord) (s : State) : Host.Outcome State Fault Refusal :=
  let t := clampTarget (fieldOf value 0 8)
  if (s.reg (0x0400 + 8 * i.toNat)).getLsbD 31 then
    .next { s with islandNext := s.islandNext.insert i.toNat (BitVec.ofNat 8 t) }
  else .next (s.retarget i.toNat t)

/-- FREQUENCY_CHANGE_END: CUR reaches TGT, unless the thermal limit holds it below, which is what THROT says; a target
written meanwhile applies. -/
def execFrequencyChangeEnd (i : BitVec 6) (s : State) : Host.Outcome State Fault Refusal :=
  let k := i.toNat
  if (s.reg (0x0400 + 8 * k)).getLsbD 31 then
    let s := s.modIsland k fun _ throt cur tgt => mkIsland false (throt && decide (cur < tgt)) (if throt && decide (cur < tgt) then cur else tgt) tgt
    match s.islandNext.find? k with
    | some t => .next ({ s with islandNext := s.islandNext.erase k }.retarget k t.toNat)
    | none => .next s
  else .next s

/-- THERMAL_THROTTLE: at 100 °C CUR falls in the hottest islands and THROT is set where the limit holds one below its TGT. -/
def execThermalThrottle (temp : BitVec 8) (islands : List (BitVec 6 × BitVec 8)) (s : State) : Host.Outcome State Fault Refusal :=
  if temp.toNat < 100 then .next s
  else .next (islands.foldl (fun s x =>
    s.modIsland x.1.toNat fun busy _ cur tgt => mkIsland busy (decide (min cur x.2.toNat < tgt)) (min cur x.2.toNat) tgt) (s.setTemp temp))

/-- THERMAL_LIMIT_RELEASE: below the limit THROT clears and CUR returns to TGT. -/
def execThermalLimitRelease (temp : BitVec 8) (s : State) : Host.Outcome State Fault Refusal :=
  if 100 ≤ temp.toNat then .next s
  else .next ((List.range 64).foldl (fun s i =>
    if (s.reg (0x0400 + 8 * i)).getLsbD 30 then
      s.modIsland i fun busy _ cur tgt => mkIsland busy false (if busy then cur else tgt) tgt
    else s) (s.setTemp temp))

/-! ## Skews (R391) -/

/-- SKEW_MEASUREMENT: the measured offset of a die, or of another package; die 0 and the package itself keep 0. -/
def execSkewMeasurement (pkg : Bool) (index : BitVec 6) (off : BitVec 48) (unc : BitVec 15) (s : State) :
    Host.Outcome State Fault Refusal :=
  let x : DWord := (1#1 ++ unc) ++ off
  let i := index.toNat
  if pkg then .next (if index = s.myPackage then s else s.setReg (0x0100 + 8 * i) x)
  else .next (if i = 0 ∨ 4 ≤ i then s else s.setReg (0x0080 + 8 * i) x)

/-! ## Host accesses (R379) -/

/-- HOST_MEM_ACCESS: the host reads or writes the HBM range at the home L2 of the line; a read returns poison with its
bytes (R379, R461). Outside the HBM range, in recovery and after a halt nothing answers. -/
def execHostMemAccess (addr : Nat) (a : HostAccess) (s : State) : Host.Outcome State Fault Refusal :=
  let n := match a with
    | .read n => n
    | .write bs => bs.length
  if 0x9000000000 < addr + n ∨ s.recovery ∨ s.halted then .next s
  else
    match a with
    | .read n => .next { s with outbox := s.outbox ++
        [.hostData ((List.range n).map fun i => (s.byte (addr + i), s.poisoned (addr + i)))] }
    | .write bs => .next (s.homeWrite addr bs)

/-- HOST_CACHE_SNOOP: a host write to a host-window range snoops out every device copy before it completes. -/
def execHostCacheSnoop (pasid : BitVec 20) (iova : Nat) (bytes : List Byte) (s : State) : Host.Outcome State Fault Refusal :=
  if hostBase ≤ iova + bytes.length then .next s
  else
    let a := hostBase * (1 + pasid.toNat) + iova
    let s := s.dropLines (128 * (a / 128)) (128 * ((a + bytes.length + 127) / 128 - a / 128))
    .next ((s.setBytes a bytes).clearPoison a bytes.length)

/-- ATS_INVALIDATION: it completes after every access that used the translation has been performed. -/
def execAtsInvalidation (pasid : BitVec 20) (granule : Nat) (s : State) : Host.Outcome State Fault Refusal :=
  let base := hostBase * (1 + pasid.toNat) + 65536 * granule
  let t := s
  .next (s.drainStores fun p => decide (base ≤ t.accAddr p.acc ∧ t.accAddr p.acc < base + 65536))

/-! ## Expander links and scrubbing (R465, R466) -/

/-- EXPANDER_LINK_LOSS: EXPCAP reads 0, dirty lines of the port are discarded and counted, and every request for one of
its granules fails at once (R457, R466). -/
def execExpanderLinkLoss (d : BitVec 2) (s : State) : Host.Outcome State Fault Refusal :=
  let k := d.toNat
  let lines := s.dirtySecond k
  let s := (s.countError k 3 lines.length).setReg (0x0040 + 8 * k) 0
  let s := s.keepL2 fun b => expanderOf (512 * b) != some k
  let lost := s.requests.flatMap fun q => (q.2.filter fun r =>
    let w := s.granuleWord r.entry.extroot r.granule
    granPresent w && granTier w == 1 && expanderOf (granFrame w * 65536) == some k).map fun r => (q.1, r)
  .next (lost.foldl (fun s x => s.failRequest x.1 x.2 .residency) s)

/-- Move an unpinned granule out of a retired frame, where a frame is free for it and the engines run (R191, R433, R465). -/
def State.moveRetired (s : State) (die frame : Nat) : State :=
  if s.halted then s
  else
    match (s.evictable die).find? fun n => granFrame (s.granuleWord n.2.2.1.extroot n.2.2.2) == frame with
    | none => s
    | some (dom, index, e, g) =>
      match (s.drainGranule dom index g).getFrame die with
      | none => s
      | some (new, t) =>
        let w := t.granuleWord e.extroot g
        if granTier w = 0 ∧ granFrame w = frame then
          (((t.dropLines (frame * 65536) 65536).copyGranule (frame * 65536) (new * 65536)).setGranule e.extroot g
            (mkGranule 0 true false new)).returnGranule dom w
        else t

/-- Move what still stands in a die's retired frames. -/
def State.moveAllRetired (s : State) (die : Nat) : State :=
  (s.retired.filter fun f => homeDie (65536 * f) == die).foldl (fun s f => s.moveRetired die f) s

/-- Retire a frame: the frame is never given back, and an unpinned granule in it moves to another frame, at once or as soon as
one is free (R465). -/
def State.retire (s : State) (die frame : Nat) : State :=
  if s.retired.contains frame then s
  else { (s.countError die 4 1) with retired := s.retired ++ [frame] }.moveRetired die frame

/-! ## Hardware errors (R460, R463, R464, R473, R478) -/

/-- The line of an address is dirty in the L2. -/
def State.dirtyHome (s : State) (a : Nat) : Bool :=
  s.l2.any fun x => x.2.any fun t => decide (t.block = a / 512) && t.dirty.getLsbD (a / 128 % 4)

/-- Uncorrectable words of a workgroup's state, the deciding wave one of its own or of its cluster's (R463, R464). DESIGN CHOICE
(log 116): a wave of the workgroup stands in the record, and where none is left, one of its cluster. -/
def State.damageWorkgroup (s : State) (g : Nat) : State :=
  match s.workgroups.find? g with
  | none => s
  | some wg =>
    let mine : Option (Nat × Wave) := List.find? (fun x => x.1 / 16 == g) s.waves
    let peer : Option (Nat × Wave) := List.find? (fun x => match s.workgroups.find? x.2.wg with
      | some y => decide (y.launch = wg.launch ∧ y.cluster = wg.cluster)
      | none => false) s.waves
    match wg.phase, mine.or peer with
    | .saved _, _ => s
    | _, some (_, w) =>
      (s.countError (dieOf wg.core) 3 1).damage g w 0x09 ((w.slicePc (lowestSlice (slicesOfLanes w.runnable))).getD 0)
    | _, none => s

/-- One error takes its effect. DESIGN CHOICE (log 115): what is absorbed by a re-read or a refetch is counted with the corrected errors
of its storage. -/
def State.hardError (s : State) : HardError → State
  | .corrected die kind => if kind = 3 then s else s.countError die.toNat kind.toNat 1
  | .wave wk =>
    if !s.onCore wk then s
    else
      match s.waves.find? wk with
      | none => s
      | some w =>
        match s.workgroups.find? w.wg with
        | none => s
        | some g => (s.countError (dieOf g.core) 3 1).damage w.wg w 0x09 ((w.slicePc (lowestSlice (slicesOfLanes w.runnable))).getD 0)
  | .workgroup g => s.damageWorkgroup g
  | .line core line =>
    let out (m : SMap (List (Nat × Line))) := SMap.set [] m core ((SMap.get [] m core).filter fun x => x.1 != line)
    { (s.countError (dieOf core) 0 1) with l1 := out s.l1, texel := out s.texel }
  | .object core dom index =>
    { (s.countError (dieOf core) 0 1) with
      objCache := SMap.set [] s.objCache core ((SMap.get [] s.objCache core).filter fun x => !decide (x.1 = dom ∧ x.2.1 = index)) }
  | .homeSector k =>
    if s.dirtyHome (32 * k) then (s.dropLines (32 * k / 128 * 128) 128).poisonAs 2 k
    else (s.countError (homeDie (32 * k)) 0 1).keepL2 fun b => b != 32 * k / 512
  | .remoteSector die k =>
    let ls := SMap.get [] s.rdc die.toNat
    match findLine ls (lineOf (32 * k)) with
    | none => s
    | some l =>
      if l.dirty = 0 then
        { (s.countError die.toNat 0 1) with rdc := SMap.set [] s.rdc die.toNat (ls.filter fun x => x.1 != lineOf (32 * k)) }
      else { s with rdc := SMap.set [] s.rdc die.toNat (patchBad ls (32 * k) 32 fun _ => true) }.notePoison die.toNat 3 (32 * k)
  | .secondTier k => if (expanderOf (32 * k)).isSome then s.poisonAs 1 k else s
  | .stageQueue n q =>
    match s.launches.find? n with
    | none => s
    | some la =>
      if (la.queues.find? q).isSome then (s.countError (q % 4) 3 1).killLaunch n (launchFault la 2 3 0) else s
  | .pipe wk outcome =>
    match s.waves.find? wk with
    | none => s
    | some w =>
      if s.onCore wk then s.checkResult wk ((w.slicePc (lowestSlice (slicesOfLanes w.runnable))).getD 0) outcome id else s
  | .weights wk id => s.parityError wk id

/-- SCRUB_PASS: corrected sectors by frame are rewritten and counted, 16 in a frame retire it, and sectors that stay
uncorrectable are poisoned (R460, R463, R465). The other errors that have been found take their effects. -/
def execScrubPass (die : BitVec 2) (corrected : List (Nat × Nat)) (found : ScrubFindings) (s : State) :
    Host.Outcome State Fault Refusal :=
  let d := die.toNat
  let mine (a : Nat) : Bool := decide (a < 0x9000000000) && homeDie a == d
  let s := (corrected.filter fun x => mine (65536 * x.1)).foldl (fun s x =>
    let s := s.countError d 1 x.2
    if 16 ≤ x.2 then s.retire d x.1 else s) s
  .next (found.others.foldl State.hardError ((found.uncorrectable.filter mine).foldl (fun s a => s.poisonSector (a / 32)) s))

end Sys2Proof.Machine
end

