-- ==== Sys2Proof/Machine/Obton.lean ====
section
/-!
DEFINITION. Obton ports: flits, acknowledgement and replay (R381, R382), retraining and moved paths (R497, R498), the
loss of a package (R499, R500).
-/

namespace Sys2Proof.Machine

/-! ## Collectives that end early (R423, R500) -/

/-- A collective that a lost package or a kill on another leaves: each destination element holds its old value or its result, by a free choice for
each, and CSTAT is 2 (R500). Where a granule of it is not resident or a tensor of it is being converted, every element holds
its old value, and CSTAT is written as soon as the descriptor's granule is resident. -/
def State.endCollective (s : State) (la : Launch) (c : Coll) : State :=
  let size := collBytes c.instr c.w0 la.npkg la.rank
  let die := match (s.waves.find? c.wave).bind fun w => s.workgroups.find? w.wg with
    | some g => dieOf g.core
    | none => 0
  if (s.collNeeds c size).isEmpty && !s.collConverts c then
    let own := s.collSource die c size.1
    let nib := etypeNibbles (collEtype c.w0)
    let new (k : Nat) : Bool := decide (Config.freeChoice (s.freeCount + 65 + k / nib) % 2 = 1)
    let cells := ((collResult s c la.npkg la.rank (own.map fun x => x.1)).take size.2).zipIdx.map fun x =>
      let a := s.addrOf c.dom.toNat c.dstEntry (refOffset c.dst + x.2)
      let old := (s.byte a).toNat
      let lo := if new (2 * x.2) then x.1.1.toNat % 16 else old % 16
      let hi := if new (2 * x.2 + 1) then x.1.1.toNat / 16 else old / 16
      (a, BitVec.ofNat 8 (lo + 16 * hi),
        (new (2 * x.2) || new (2 * x.2 + 1)) && x.1.2.any fun i => (own.getD i (0, false)).2)
    let core := match s.waves.find? c.wave with
      | some w => ((s.workgroups.find? w.wg).map fun g => g.core).getD 0
      | none => 0
    let t := s.engineWrite core (cells.map fun x => (x.1, x.2.1)) ((cells.filter fun x => x.2.2).map fun x => x.1)
    { (t.setCstat c 2).releaseAct core 6 with
      freeCount := s.freeCount + 65 + 2 * size.2 }
  else if (s.residentAddr c.dom.toNat c.descEntry (refOffset c.desc) 64).isSome then s.setCstat c 2
  else
    let s := s.requestNeeds die none (s.missing c.dom.toNat (refIndex c.desc) c.descEntry (refOffset c.desc) 64)
    { s with colls := s.colls ++ [{ c with lost := true }] }

/-- The collectives of such a launch end (R500). -/
def State.endCollectives (s : State) (n : Nat) : State :=
  let s := match s.launches.find? n with
    | none => s
    | some la => (s.colls.filter fun c : Coll => c.launch == n && !c.lost).foldl (fun s c => s.endCollective la c) s
  { s with colls := s.colls.filter fun c => c.launch != n || c.lost }

/-! ## Receiving (R382) -/

/-- Count a replay request sent or received: REPLAY, which saturates, and those of the last millisecond (600,000 clocks). -/
def State.countReplay (s : State) (p : Nat) : State :=
  let r := s.reg (portReg p)
  let n := fieldOf r 0 48
  let s := if n = 2 ^ 48 - 1 then s else s.setReg (portReg p) (r + 1)
  let now := (s.counter 0).toNat
  s.modPort p fun x => { x with replays := ((x.replays.filter fun t => decide (now < t + 600000)) ++ [now]) }

/-- Sequence numbers from b (exclusive) back to a: a was sent no later than b. -/
def seqBefore (a b : BitVec 10) : Bool := decide ((b - a).toNat ≤ 512 ∧ a ≠ b)

/-- A flit is dropped, and a replay from the expected SEQ asked for (R382). -/
def State.askReplay (s : State) (p : Nat) : State := (s.sendFlit p (controlFlit 3 (s.port p).expect)).countReplay p

/-- Flits without a payload are dropped where their CRC fails, as every flit is (R382). -/
def State.checkFlit (s : State) (p : Nat) (bytes : List Byte) (good : State → State) : State :=
  if !s.portCarries p then s else if !flitGood bytes then s.askReplay p else good s

/-- A launch that a kill on another package reaches ends here: its collectives with CSTAT 2, then its waves, with a record
(R422, R423, R500). -/
def State.killTold (s : State) (reason n : Nat) : State :=
  match s.launches.find? n with
  | none => s
  | some la => (s.endCollectives n).killHere n (launchFault la 2 reason 0)

/-- What the bytes delivered on VC 3 say of kills elsewhere: of every launch of a context that spans packages, or of one
launch. -/
def State.hearKill (s : State) (bytes : List Byte) : State :=
  match Config.fabricKill bytes with
  | none => s
  | some (whole, number, reason) =>
    ((s.launches.filter fun x => !x.2.ended && (match x.2.startGen with
      | none => false
      | some g => if whole then x.2.ctx.toNat == number else g.toNat == number)).map fun x => x.1).foldl
      (fun s n => s.killTold reason n) s

/-- FLIT_DATA: a flit with a good CRC and the expected SEQ is delivered on its VC and acknowledged; any other is dropped
and a replay from the expected SEQ asked for (R382). -/
def execFlitData (port : BitVec 6) (bytes : List Byte) (s : State) : Host.Outcome State Fault Refusal :=
  let p := port.toNat
  let x := s.port p
  if !s.portCarries p then .next s
  else if !flitGood bytes then .next (s.askReplay p)
  else if flitKind bytes ≠ 0 then .next s
  else if flitSeq bytes ≠ x.expect then .next (s.askReplay p)
  else
    let vc := flitVc bytes
    let s := s.modPort p fun x =>
      { x with expect := x.expect + 1, delivered := x.delivered.insert vc (SMap.get [] x.delivered vc ++ (bytes.drop 4).take 248) }
    let s := s.sendFlit p (controlFlit 2 (x.expect + 1))
    .next (if vc = 3 then s.hearKill (SMap.get [] (s.port p).delivered 3) else s)

/-- FLIT_IDLE: nothing is delivered; one whose CRC fails or whose SEQ is not the one expected is dropped as every flit is, and
draws a replay request (R381, R382). -/
def execFlitIdle (port : BitVec 6) (bytes : List Byte) (s : State) : Host.Outcome State Fault Refusal :=
  let p := port.toNat
  .next (s.checkFlit p bytes fun s => if flitKind bytes = 1 ∧ flitSeq bytes ≠ (s.port p).expect then s.askReplay p else s)

/-- The flits kept that were sent before a sequence number are no longer kept. -/
def State.freeFlits (s : State) (p : Nat) (seq : BitVec 10) : State :=
  s.modPort p fun x => { x with unacked := x.unacked.filter fun f => !seqBefore (flitSeq f) seq }

/-- FLIT_ACKNOWLEDGE: it names the next SEQ expected and frees the flits kept before it (R382). -/
def execFlitAcknowledge (port : BitVec 6) (bytes : List Byte) (s : State) : Host.Outcome State Fault Refusal :=
  let p := port.toNat
  .next (s.checkFlit p bytes fun s => if flitKind bytes = 2 then (s.freeFlits p (flitSeq bytes)).pump else s)

/-- FLIT_REPLAY_REQUEST: the sender resends from the named flit on (R382). -/
def execFlitReplayRequest (port : BitVec 6) (bytes : List Byte) (s : State) : Host.Outcome State Fault Refusal :=
  let p := port.toNat
  .next (s.checkFlit p bytes fun s =>
    if flitKind bytes = 3 then
      let s := (s.freeFlits p (flitSeq bytes)).countReplay p
      ((s.port p).unacked.foldl (fun s f => s.sendFlit p f) s).pump
    else s)

/-! ## Training and moved paths (R498) -/

/-- The flits that ports which carry no longer have not had acknowledged go before all other traffic to a package, once another
port reaches it; such a port numbers its next flit as the first of them (log 106). Up to 512 flits at a time are sent on (R382). -/
def State.movePaths (s : State) (pkg : BitVec 6) : State :=
  if (List.range 36).any fun q => s.portCarries q && s.portPeer q == pkg then
    let down := (List.range 36).filter fun p => !s.portCarries p && s.portPeer p == pkg && !(s.port p).unacked.isEmpty
    let kept := down.flatMap fun p => (s.port p).unacked.map fun f => (⟨pkg, flitVc f, (f.drop 4).take 248, s.freeCount, none⟩ : Traffic)
    let s := down.foldl (fun s p => s.modPort p fun x =>
      { x with nextSeq := ((x.unacked.head?).map flitSeq).getD x.nextSeq, unacked := [] }) s
    { s with traffic := kept ++ s.traffic, freeCount := s.freeCount + 1 }.pump
  else s

/-- PORT_RETRAIN: more than 1,024 replay requests within 1 ms make a port train again. -/
def execPortRetrain (port : BitVec 6) (s : State) : Host.Outcome State Fault Refusal :=
  let p := port.toNat
  if s.portState p = 2 ∧ 1024 < (s.port p).replays.length then
    .next (((s.setPort p 1 0 (s.portPeer p)).modPort p fun x => { x with replays := [] }).movePaths (s.portPeer p))
  else .next s

/-- PORT_TRAINING_END: the port runs on 4, 2 or 1 of the lanes that passed and sends again what was not acknowledged, with what
other ports to its far end have kept before all later traffic; or it is down, and PEER stands (R498, R499). A far end with the
package's own number carries nothing and reads STATE 0 (R377). -/
def execPortTrainingEnd (port : BitVec 6) (lanes : BitVec 3) (peer : BitVec 6) (s : State) : Host.Outcome State Fault Refusal :=
  let p := port.toNat
  let n := lanes.toNat
  let use := if 4 ≤ n then 4 else if 2 ≤ n then 2 else n
  if 36 ≤ p ∨ s.portState p = 2 ∨ s.recovery ∨ s.halted then .next s
  else if use = 0 then .next ((s.setPort p 0 0 (s.portPeer p)).movePaths (s.portPeer p))
  else
    let s := s.setPort p 2 use peer
    .next (if s.portLoops p then s
      else (((s.port p).unacked.foldl (fun s f => s.sendFlit p f) s).movePaths peer).pump)

/-! ## Loss of a package (R499, R500) -/

/-- The effects of a package's loss: its launches are abandoned, dirty lines homed there discarded and counted, requests
for its frames fail; its ports read STATE 0. Reads and updates of its memory meet the loss where they are made (R500). -/
def State.losePackage (s : State) (q : BitVec 6) : State :=
  if s.lostPkgs.contains q ∨ q = s.myPackage then s
  else
    let s := { s with lostPkgs := s.lostPkgs ++ [q] }
    let s := (List.range 36).foldl (fun s p => if s.portPeer p = q then s.setPort p 0 0 q else s)
      { s with traffic := s.traffic.filter fun t => t.pkg != q }
    let gone := (s.launches.filter fun x => !x.2.ended && x.2.pkgs.contains q).map fun x => x.1
    let s := gone.foldl (fun s n => (s.endCollectives n).abandon n) s
    let away (l : Nat × Line) : Bool := onOtherPackage (128 * l.1) && BitVec.ofNat 6 (128 * l.1 / 2 ^ 45) == q
    let s := (List.range 4).foldl (fun s d =>
      let lines := SMap.get [] s.rdc d
      let s := s.countError d 3 (lines.filter fun l => away l && l.2.dirty != 0).length
      { s with rdc := SMap.set [] s.rdc d (lines.filter fun l => !away l) }) s
    let bad := s.requests.flatMap fun x => (x.2.filter fun r =>
      let w := s.granuleWord r.entry.extroot r.granule
      granPresent w && s.lost (granFrame w * 65536)).map fun r => (x.1, r)
    (bad.foldl (fun s x => s.failRequest x.1 x.2 .residency) s).replayParked

/-- PACKAGE_LOSS: no port reaches a package (R499). -/
def execPackageLoss (pkg : BitVec 6) (s : State) : Host.Outcome State Fault Refusal :=
  if (List.range 36).any fun p => s.portState p == 2 && !s.portLoops p && s.portPeer p == pkg then .next s else .next (s.losePackage pkg)

/-- PACKAGE_LOSS_REPORT: a loss reported over the fabric (R499). -/
def execPackageLossReport (pkg : BitVec 6) (s : State) : Host.Outcome State Fault Refusal := .next (s.losePackage pkg)

end Sys2Proof.Machine
end

