-- ==== Sys2Proof/Machine/Transport.lean ====
section
/-!
DEFINITION. The scale-out transport: connections and rings (R384 to R387), frames, acknowledgement and retransmission
(R388, R389), the Ethernet link (R497, R501).
-/

namespace Sys2Proof.Machine

/-! ## Connections (R385, R386) -/

/-- A connection descriptor. -/
structure ConnDesc where
  mac : List Byte
  ip : List Byte
  pconn : Nat
  dom : Nat
  send : Ring
  recv : Ring
  cmpl : Ring

/-- The ring of a descriptor word, with entries of a size. -/
def connRing (w : DWord) (size : Nat) : Ring := ⟨fieldOf w 6 46 * 64, 2 ^ fieldOf w 0 5, size⟩

/-- The descriptor of a connection that exists; none while TXBASE is 0 or the transport does not run. -/
def State.connDesc (s : State) (die c : Nat) : Option ConnDesc :=
  let base := fieldOf (s.reg (0x0060 + 8 * die)) 12 40 * 4096
  let a := base + 64 * c
  if base = 0 ∨ !s.sluiceRuns ∨ (s.byte (a + 6)).getLsbD 0 = false then none
  else some { mac := s.bytes a 6, ip := s.bytes (a + 8) 16, pconn := natOfBytes (s.bytes (a + 24) 4) % 1024, dom := natOfBytes (s.bytes (a + 28) 2),
              send := connRing (s.word64 (a + 32)) 64, recv := connRing (s.word64 (a + 40)) 32,
              cmpl := connRing (s.word64 (a + 48)) 32 }

/-- A connection's running state. -/
def State.conn (s : State) (die c : Nat) : Conn :=
  (s.conns.find? (1024 * die + c)).getD
    { sendProd := 0, recvProd := 0, sendCons := 0, recvCons := 0, nextPsn := 0, expect := 0, unacked := [], tries := 0, stale := 0,
      work := [], nextWork := 0, recv := none, waiting := [] }

/-- Change a connection's running state. -/
def State.modConn (s : State) (die c : Nat) (f : Conn → Conn) : State :=
  { s with conns := s.conns.insert (1024 * die + c) (f (s.conn die c)) }

/-- Address of entry n of a ring. -/
def Ring.entryAt (r : Ring) (n : Nat) : Nat := r.base + 64 + r.size * (n % r.entries)

/-- The die and connection whose doorbell a BAR2 offset is (R378). -/
def connBell (off : Nat) : Option (Nat × Nat) :=
  if 0x2000000 ≤ off ∧ off < 0x3000000 ∧ off % 4096 = 0 then
    some ((off - 0x2000000) / 4096 / 1024, off / 4096 % 1024)
  else none

/-- TRANSPORT_DOORBELL: a 64-bit write to a connection's doorbell gives the producer count of a ring; a value behind the
consumer count or beyond the ring is discarded, and so is a write of another size or to another offset (R378, R387). DESIGN
CHOICE (log 124): a write while the connection has VALID = 0, or TXBASE is 0, is discarded. -/
def execTransportDoorbell (off : BitVec 26) (bytes : Nat) (value : DWord) (s : State) : Host.Outcome State Fault Refusal :=
  match (connBell off.toNat).bind fun b => (s.connDesc b.1 b.2).map fun d => (b, d) with
  | none => .next s
  | some ((die, c), d) =>
    let x := s.conn die c
    let recv := value.getLsbD 63
    let n := value.toNat % 2 ^ 63
    let cons := if recv then x.recvCons.toNat else x.sendCons.toNat
    let ahead := (n + 2 ^ 63 - cons) % 2 ^ 63
    if bytes ≠ 8 ∨ (if recv then d.recv.entries else d.send.entries) < ahead then .next s
    else .next (s.modConn die c fun x =>
      if recv then { x with recvProd := BitVec.ofNat 64 n } else { x with sendProd := BitVec.ofNat 64 n })

/-! ## Frames (R388) -/

/-- The Ethernet link of a die is up (R497). -/
def State.linkUp (s : State) (die : Nat) : Bool := (s.reg (0x0B20 + 8 * die)).getLsbD 63

/-- A frame from its fields. -/
def mkFrame (op : Nat) (last : Bool) (conn : Nat) (psn ack : Word) (off : DWord) (obj : Word) (len : Nat) (payload : List Byte) :
    List Byte :=
  let body := bytesOfNat 1 op ++ bytesOfNat 1 (if last then 1 else 0) ++ bytesOfNat 2 0 ++ bytesOfNat 4 conn ++
    bytesOfNat 4 psn.toNat ++ bytesOfNat 4 ack.toNat ++ bytesOfNat 8 off.toNat ++ bytesOfNat 4 obj.toNat ++
    bytesOfNat 4 len ++ payload
  body ++ bytesOfNat 4 (crc32 body).toNat

/-- Send bytes as a frame to a connection's peer, to the port that SPORT names; with the link down they are lost (R384,
R385, R501). -/
def State.sendFrame (s : State) (die : Nat) (d : ConnDesc) (bs : List Byte) : State :=
  if s.linkUp die then { s with outbox := s.outbox ++ [.frame die d.mac d.ip ((s.reg 0x0038).extractLsb' 0 16) bs] } else s

/-- Send a sequenced frame of a connection and keep it until it is acknowledged. -/
def State.postFrame (s : State) (die c op : Nat) (d : ConnDesc) (last : Bool) (off : DWord) (obj : Word) (len : Nat)
    (payload : List Byte) (wr : Option Nat) : State :=
  let x := s.conn die c
  let f := mkFrame op last d.pconn x.nextPsn (x.expect - 1) off obj len payload
  (s.modConn die c fun x =>
    { x with nextPsn := x.nextPsn + 1, unacked := x.unacked ++ [⟨x.nextPsn, f, last, wr⟩] }).sendFrame die d f

/-- Payload in segments of up to 4,096 bytes, with their offsets. -/
def segments (bs : List Byte) : List (Nat × List Byte) :=
  (List.range ((bs.length + 4095) / 4096)).map fun i => (4096 * i, (bs.drop (4096 * i)).take 4096)

/-- Send a payload in frames, the last one marked. -/
def State.postAll (s : State) (die c op : Nat) (d : ConnDesc) (off : DWord) (obj : Word) (bs : List Byte) (wr : Option Nat) :
    State :=
  let segs := segments bs
  (List.range segs.length).foldl (fun s i =>
    match segs[i]? with
    | some (o, p) => s.postFrame die c op d (i + 1 == segs.length) (off + BitVec.ofNat 64 o) obj p.length p wr
    | none => s) s

/-- ACK or NAK of everything applied so far: a cumulative sequence number. A NAK with the last bit set says that the
frame after it failed its check, and that the receiver waits for another in its place (DESIGN CHOICE: log entry 85). -/
def State.answer (s : State) (die c op : Nat) (d : ConnDesc) (failed : Bool) : State :=
  s.sendFrame die d (mkFrame op failed d.pconn 0 ((s.conn die c).expect - 1) 0 0 0 [])

/-! ## Completions (R389) -/

/-- A completion record. -/
def completionBytes (ident : DWord) (status op bytes : Nat) (counter : DWord) : List Byte :=
  bytesOfNat 8 ident.toNat ++ bytesOfNat 1 status ++ bytesOfNat 1 op ++ bytesOfNat 2 0 ++ bytesOfNat 4 bytes ++
    bytesOfNat 8 counter.toNat ++ bytesOfNat 8 0

/-- Write a completion record, a release at system scope, or let it wait behind others for room in the ring. -/
def State.emitRecord (s : State) (die c : Nat) (d : ConnDesc) (r : List Byte) : State :=
  let s := s.writeBackRemote die
  if (s.conn die c).waiting.isEmpty && !s.ringFull d.cmpl then s.ringWrite d.cmpl r
  else s.modConn die c fun x => { x with waiting := x.waiting ++ [r] }

/-- Write the records of completed work requests, in posting order. -/
def State.flushWork (die c : Nat) (d : ConnDesc) : List WorkReq → State → State
  | [], s => s
  | w :: ws, s =>
    match w.status with
    | none => s
    | some st =>
      let s := s.modConn die c fun x => { x with work := x.work.drop 1 }
      State.flushWork die c d ws
        (s.emitRecord die c d (completionBytes w.ident st w.opcode (if st = 0 then w.length else w.moved) (s.counter die)))

/-- A work request completes with a status; once its tries are exhausted its frames are kept no longer. -/
def State.endWork (s : State) (die c : Nat) (d : ConnDesc) (id status : Nat) : State :=
  let s := s.modConn die c fun x =>
    { x with work := x.work.map fun w => if w.id = id ∧ w.status = none then { w with status := some status } else w,
             unacked := if status ≠ 2 then x.unacked else x.unacked.filter fun f => f.wr != some id }
  State.flushWork die c d (s.conn die c).work s

/-! ## Work requests (R386) -/

/-- Read n bytes of an object as the die's port sees them. -/
def State.transportRead (s : State) (die dom : Nat) (e : ObjEntry) (off n : Nat) : List Byte :=
  (List.range n).map fun i => s.portByte die (s.addrOf dom e (off + i))

/-- Write bytes of an object at their points of coherence. -/
def State.transportWrite (s : State) (die dom : Nat) (e : ObjEntry) (off : Nat) (bs : List Byte) : State :=
  (byteRuns ((List.range bs.length).map fun i => (s.addrOf dom e (off + i), bs.getD i 0))).foldl
    (fun s r => s.dieWrite die r.1 r.2) s

/-- The transport's access to n bytes of an object waits for a conversion or for granules, which it asks for; else it is
noted for the use order (R190, R192, R199). -/
def State.transportReach (s : State) (die dom index : Nat) (e : ObjEntry) (off n : Nat) (wait : State → State)
    (go : State → State) : State :=
  let needs := s.missing dom index e off n
  if n = 0 then go s
  else if s.converting e then wait s
  else if !needs.isEmpty then wait (s.requestNeeds die none needs)
  else go (s.touchRange dom index off n)

/-- Check a range under R178 in the connection's domain. -/
def State.transportCheck (s : State) (d : ConnDesc) (ref : DWord) (write : Bool) (n : Nat) : Except Nat ObjEntry :=
  s.checkBytes sluiceCore d.dom ref (if write then needW else needR) (if write then .store else .load) (refOffset ref) n 1

/-- Take the next work request of a connection where it is of an opcode, or of none of the three: it is checked, its
frames are sent, and the consumer count is written (R386). DESIGN CHOICE (log 125): a length of 0 or above 2^30 is status 3. -/
def State.takeWork (s : State) (die c op : Nat) : State :=
  match s.connDesc die c with
  | none => s
  | some d =>
    let x := s.conn die c
    let a := d.send.entryAt x.sendCons.toNat
    let b := s.bytes a 64
    let opcode := numAt b 8 1
    let fence := numAt b 9 1 % 2 == 1
    if x.sendCons = x.sendProd ∨ !x.waiting.isEmpty ∨ (fence && !x.work.isEmpty) then s
    else if opcode ≠ op ∧ (opcode = 1 ∨ opcode = 2 ∨ opcode = 4) then s
    else
      let w : WorkReq := { id := x.nextWork, ident := BitVec.ofNat 64 (numAt b 0 8), opcode := opcode, fence := fence,
                           length := numAt b 12 4, ref := BitVec.ofNat 64 (numAt b 16 8),
                           remoteOff := BitVec.ofNat 64 (numAt b 24 8), remoteObj := BitVec.ofNat 32 (numAt b 32 4),
                           moved := 0, status := none }
      let take (s : State) : State :=
        let cons := BitVec.ofNat 64 ((x.sendCons.toNat + 1) % 2 ^ 63)
        (s.modConn die c fun x => { x with sendCons := cons, nextWork := x.nextWork + 1, work := x.work ++ [w] }).setWord64
          (d.send.base + 8) cons
      let known := opcode = 1 ∨ opcode = 2 ∨ opcode = 4
      match s.transportCheck d w.ref (opcode == 2) w.length with
      | .error _ => (take s).endWork die c d w.id 3
      | .ok e =>
        if ¬ known ∨ w.length = 0 ∨ 2 ^ 30 < w.length then (take s).endWork die c d w.id 3
        else
          let off := refOffset w.ref
          s.transportReach die d.dom (refIndex w.ref) e off w.length id fun s =>
            if opcode = 2 then (take s).postFrame die c 2 d true w.remoteOff w.remoteObj w.length [] (some w.id)
            else
              let off' : DWord := if opcode = 1 then w.remoteOff else 0
              (take s).postAll die c opcode d off' (if opcode = 1 then w.remoteObj else 0)
                (s.transportRead die d.dom e off w.length) (some w.id)

/-- WR_WRITE (R386). -/
def execWrWrite (die : BitVec 2) (c : BitVec 10) (s : State) : Host.Outcome State Fault Refusal :=
  .next (s.takeWork die.toNat c.toNat 1)

/-- WR_READ (R386). -/
def execWrRead (die : BitVec 2) (c : BitVec 10) (s : State) : Host.Outcome State Fault Refusal :=
  .next (s.takeWork die.toNat c.toNat 2)

/-- WR_SEND (R386). -/
def execWrSend (die : BitVec 2) (c : BitVec 10) (s : State) : Host.Outcome State Fault Refusal :=
  .next (s.takeWork die.toNat c.toNat 4)

/-! ## Received frames (R388, R389) -/

/-- A frame's fields. -/
structure Frame where
  op : Nat
  last : Bool
  conn : Nat
  psn : Word
  ack : Word
  off : Nat
  obj : Nat
  len : Nat
  payload : List Byte

/-- The fields of a frame's bytes. -/
def readFrame (bs : List Byte) : Frame :=
  { op := numAt bs 0 1, last := numAt bs 1 1 % 2 == 1, conn := numAt bs 4 4, psn := BitVec.ofNat 32 (numAt bs 8 4),
    ack := BitVec.ofNat 32 (numAt bs 12 4), off := numAt bs 16 8, obj := numAt bs 24 4, len := numAt bs 28 4,
    payload := (bs.drop 32).take (bs.length - 36) }

/-- The CRC of a frame holds. -/
def frameGood (bs : List Byte) : Bool :=
  decide (36 ≤ bs.length ∧ bs.length ≤ 4132) &&
    crc32 (bs.take (bs.length - 4)) == BitVec.ofNat 32 (numAt bs (bs.length - 4) 4)

/-- Sequence number a was sent no later than b. -/
def psnUpTo (a b : Word) : Bool := decide ((b - a).toNat < 2 ^ 31)

/-- Frames up to a sequence number are acknowledged; a work request whose last segment is among them completes, a READ
only with its last response. -/
def State.acknowledge (s : State) (die c : Nat) (d : ConnDesc) (ack : Word) : State :=
  let x := s.conn die c
  let done := x.unacked.filter fun f => psnUpTo f.psn ack
  let s := s.modConn die c fun x =>
    { x with unacked := x.unacked.filter fun f => !psnUpTo f.psn ack, tries := if done.isEmpty then x.tries else 0,
               stale := if done.isEmpty then x.stale else 0 }
  done.foldl (fun s f =>
    match (s.conn die c).work.find? fun w => some w.id == f.wr && w.status.isNone with
    | some w => if f.last ∧ w.opcode ≠ 2 then s.endWork die c d w.id 0 else s
    | none => s) s

/-- Receive a frame of an opcode on a die: one whose CRC fails is dropped and counted, one for no connection dropped
(R385, R501). Every frame that carries work acknowledges in passing (R388). -/
def State.receive (s : State) (die op : Nat) (bs : List Byte) (act : ConnDesc → Frame → State → State) : State :=
  if !s.linkUp die then s
  else if !frameGood bs then
    let r := s.reg (0x0B20 + 8 * die)
    if fieldOf r 0 48 = 2 ^ 48 - 1 then s else s.setReg (0x0B20 + 8 * die) (r + 1)
  else
    let f := readFrame bs
    if f.op ≠ op ∨ 1024 ≤ f.conn then s
    else
      match s.connDesc die f.conn with
      | none => s
      | some d => act d f (if op < 5 then s.acknowledge die f.conn d f.ack else s)

/-- Apply a sequenced frame where it is the next: an earlier one is acknowledged again, a later one answered with a NAK.
`act` gives none where the frame is refused, which leaves the sequence where it stands. -/
def State.inSequence (s : State) (die : Nat) (d : ConnDesc) (f : Frame) (act : State → Option State) : State :=
  let x := s.conn die f.conn
  if f.psn = x.expect then
    match act s with
    | some t => (t.modConn die f.conn fun x => { x with expect := x.expect + 1 }).answer die f.conn 5 d false
    | none => s
  else if psnUpTo f.psn x.expect then s.answer die f.conn 5 d false
  else s.answer die f.conn 6 d false

/-- The reference of a remote access: object, OFFSET, every right. -/
def Frame.ref (f : Frame) : DWord := mkRef f.obj 15 f.off

/-- A remote access passes R178; a frame that fails is answered with a NAK that says so each time it comes, and while
the access must wait the frame is dropped, to be sent again. -/
def State.remote (s : State) (die : Nat) (d : ConnDesc) (f : Frame) (write : Bool) (go : ObjEntry → State → State) : State :=
  let x := s.conn die f.conn
  if f.psn ≠ x.expect then s.inSequence die d f fun _ => none
  else
    let refuse := s.answer die f.conn 6 d true
    match s.transportCheck d f.ref write f.len with
    | .error _ => refuse
    | .ok e =>
      if 2 ^ 42 ≤ f.off ∨ 2 ^ 18 ≤ f.obj then refuse
      else s.transportReach die d.dom f.obj e f.off f.len id fun s => s.inSequence die d f fun s => some (go e s)

/-- FRAME_WRITE (R389). -/
def execFrameWrite (die : BitVec 2) (bytes : List Byte) (s : State) : Host.Outcome State Fault Refusal :=
  .next (s.receive die.toNat 1 bytes fun d f s =>
    if f.len ≠ f.payload.length then s
    else s.remote die.toNat d f true fun e s => s.transportWrite die.toNat d.dom e f.off f.payload)

/-- FRAME_READ_REQUEST: the range is read and sent back in READ responses (R386, R389). -/
def execFrameReadRequest (die : BitVec 2) (bytes : List Byte) (s : State) : Host.Outcome State Fault Refusal :=
  .next (s.receive die.toNat 2 bytes fun d f s =>
    s.remote die.toNat d f false fun e s =>
      s.postAll die.toNat f.conn 3 d (BitVec.ofNat 64 f.off) (BitVec.ofNat 32 f.obj)
        (s.transportRead die.toNat d.dom e f.off f.len) none)

/-- FRAME_READ_RESPONSE: the bytes go to the destination of the oldest READ that is not complete (R386). -/
def execFrameReadResponse (die : BitVec 2) (bytes : List Byte) (s : State) : Host.Outcome State Fault Refusal :=
  .next (s.receive die.toNat 3 bytes fun d f s =>
    let k := die.toNat
    let x := s.conn k f.conn
    match x.work.find? fun w => w.opcode == 2 && w.status.isNone with
    | none => s.inSequence k d f fun s => some s
    | some w =>
      if f.psn ≠ x.expect then s.inSequence k d f fun _ => none
      else
        match s.transportCheck d w.ref true w.length with
        | .error _ => s.inSequence k d f fun s => some (s.endWork k f.conn d w.id 3)
        | .ok e =>
          let off := refOffset w.ref + w.moved
          let data := f.payload.take (w.length - w.moved)
          s.transportReach k d.dom (refIndex w.ref) e off data.length id fun s => s.inSequence k d f fun s =>
            let s := (s.transportWrite k d.dom e off data).modConn k f.conn fun x =>
              { x with work := x.work.map fun y => if y.id = w.id then { y with moved := y.moved + data.length } else y }
            some (if f.last then s.endWork k f.conn d w.id 0 else s))

/-- Take the next receive request of a connection: identifier, reference, length; the consumer count is written. -/
def State.takeReceive (s : State) (die c : Nat) (d : ConnDesc) : Option (State × DWord × DWord × Nat) :=
  let x := s.conn die c
  if x.recvCons = x.recvProd then none
  else
    let b := s.bytes (d.recv.entryAt x.recvCons.toNat) 32
    let cons := BitVec.ofNat 64 ((x.recvCons.toNat + 1) % 2 ^ 63)
    some ((s.modConn die c fun x => { x with recvCons := cons }).setWord64 (d.recv.base + 8) cons,
      BitVec.ofNat 64 (numAt b 0 8), BitVec.ofNat 64 (numAt b 8 8), numAt b 16 4)

/-- FRAME_SEND: the bytes go, in order, to the buffer of the oldest unused receive request; with none posted, or while a
record of the connection waits, a new SEND is answered with a NAK (R386, R389). DESIGN CHOICE (log 133): so is one whose receive
request completes with status 3, which is then sent again, to the next request. -/
def execFrameSend (die : BitVec 2) (bytes : List Byte) (s : State) : Host.Outcome State Fault Refusal :=
  .next (s.receive die.toNat 4 bytes fun d f s =>
    let k := die.toNat
    let x := s.conn k f.conn
    if f.psn ≠ x.expect then s.inSequence k d f fun _ => none
    else
      let begun : Option State := match x.recv with
        | some _ => some s
        | none =>
          if !x.waiting.isEmpty then none
          else
            match s.takeReceive k f.conn d with
            | none => none
            | some (t, ident, ref, len) => some (t.modConn k f.conn fun x => { x with recv := some (ident, ref, len, 0, 0) })
      match begun with
      | none => s.answer k f.conn 6 d false
      | some t =>
        match (t.conn k f.conn).recv with
        | none => t
        | some (ident, ref, len, placed, seen) =>
          match t.transportCheck d ref true len with
          | .error _ =>
            let t := (t.modConn k f.conn fun x => { x with recv := none }).emitRecord k f.conn d
              (completionBytes ident 3 4 placed (t.counter k))
            t.answer k f.conn 6 d false
          | .ok e =>
            let data := f.payload.take (len - placed)
            let off := refOffset ref + placed
            t.transportReach k d.dom (refIndex ref) e off data.length id fun t => t.inSequence k d f fun t =>
                let t := t.transportWrite k d.dom e off data
                let placed := placed + data.length
                let seen := seen + f.payload.length
                if f.last then
                  some ((t.modConn k f.conn fun x => { x with recv := none }).emitRecord k f.conn d
                    (completionBytes ident (if placed < seen then 4 else 0) 4 placed (t.counter k)))
                else some (t.modConn k f.conn fun x => { x with recv := some (ident, ref, len, placed, seen) }))

/-- FRAME_ACK (R389). -/
def execFrameAck (die : BitVec 2) (bytes : List Byte) (s : State) : Host.Outcome State Fault Refusal :=
  .next (s.receive die.toNat 5 bytes fun d f s => s.acknowledge die.toNat f.conn d f.ack)

/-- Send every unacknowledged frame again; after 7 tries the oldest work request completes with status 2 (R389). DESIGN CHOICE (log
126): its sequence numbers are not used again. -/
def State.resend (s : State) (die c : Nat) (d : ConnDesc) : State :=
  let x := s.conn die c
  match x.unacked with
  | [] => s
  | f :: _ =>
    if 7 ≤ x.tries then
      let s := s.modConn die c fun x => { x with tries := 0, unacked := x.unacked.filter fun g => g.wr != f.wr }
      match f.wr with
      | some id => s.endWork die c d id 2
      | none => s
    else
      let s := s.modConn die c fun x => { x with tries := x.tries + 1, stale := 0 }
      x.unacked.foldl (fun s f => s.sendFrame die d f.bytes) s

/-- A NAK out of sequence has everything sent again. DESIGN CHOICE (log 117): as many further ones as frames stood behind the lost
one answer what was sent before, and are no tries of their own. -/
def State.resendFrom (s : State) (die c : Nat) (d : ConnDesc) : State :=
  let x := s.conn die c
  if 0 < x.stale then s.modConn die c fun x => { x with stale := x.stale - 1 }
  else (s.resend die c d).modConn die c fun y => { y with stale := y.unacked.length - 1 }

/-- A kept frame under another sequence number. -/
def TxFrame.renumber (f : TxFrame) (psn : Word) : TxFrame :=
  let body := f.bytes.take 8 ++ bytesOfNat 4 psn.toNat ++ (f.bytes.take (f.bytes.length - 4)).drop 12
  { f with psn := psn, bytes := body ++ bytesOfNat 4 (crc32 body).toNat }

/-- The frames of a work request are given up, and those after them take their sequence numbers, for which the receiver
waits (log entry 85). -/
def Conn.giveUp (x : Conn) (g : TxFrame) : Conn :=
  let left := x.unacked.filter fun f => if g.wr.isSome then f.wr != g.wr else f.psn != g.psn
  let fs := (List.range left.length).filterMap fun i => (left[i]?).map fun f => f.renumber (g.psn + BitVec.ofNat 32 i)
  { x with unacked := fs, nextPsn := g.psn + BitVec.ofNat 32 fs.length }

/-- FRAME_NAK: what it acknowledges is done; the request whose frame failed its check completes with status 1; then
everything after it is sent again (R389). -/
def execFrameNak (die : BitVec 2) (bytes : List Byte) (s : State) : Host.Outcome State Fault Refusal :=
  .next (s.receive die.toNat 6 bytes fun d f s =>
    let s := s.acknowledge die.toNat f.conn d f.ack
    match (s.conn die.toNat f.conn).unacked with
    | [] => s
    | g :: _ =>
      if f.last then
        let s := s.modConn die.toNat f.conn fun x => x.giveUp g
        let s := (s.conn die.toNat f.conn).unacked.foldl (fun s f => s.sendFrame die.toNat d f.bytes) s
        match g.wr with
        | some id => s.endWork die.toNat f.conn d id 1
        | none => s
      else s.resendFrom die.toNat f.conn d)

/-- TRANSPORT_RETRANSMIT: 50 µs have passed without an acknowledgement (R389). -/
def execTransportRetransmit (die : BitVec 2) (c : BitVec 10) (s : State) : Host.Outcome State Fault Refusal :=
  match s.connDesc die.toNat c.toNat with
  | none => .next s
  | some d => .next (s.resend die.toNat c.toNat d)

/-- COMPLETION_RECORD_WRITE: a record that waits is written once the ring has room (R389). -/
def execCompletionRecordWrite (die : BitVec 2) (c : BitVec 10) (s : State) : Host.Outcome State Fault Refusal :=
  match s.connDesc die.toNat c.toNat, (s.conn die.toNat c.toNat).waiting with
  | some d, r :: rs =>
    if s.ringFull d.cmpl then .next s
    else .next (((s.modConn die.toNat c.toNat fun x => { x with waiting := rs }).writeBackRemote die.toNat).ringWrite d.cmpl r)
  | _, _ => .next s

/-- ETHERNET_LINK_CHANGE (R497, R501). -/
def execEthernetLinkChange (die : BitVec 2) (up : Bool) (s : State) : Host.Outcome State Fault Refusal :=
  let off := 0x0B20 + 8 * die.toNat
  let r := s.reg off &&& 0xFFFFFFFFFFFF#64
  .next (s.setReg off (if up then 0x8000000000000000#64 ||| r else r))

end Sys2Proof.Machine
end

