-- ==== Sys2Proof/Machine/Uniform.lean ====
section
/-!
DEFINITION. Class 0x0: the uniform instructions, once per fragment on scalar registers (R111, R117 to R125).
-/

namespace Sys2Proof.Machine

/-- The carry operand's value: bit 0 of a scalar register (R118). -/
def uniCarryIn (e : Env) (c : Operand) : Nat := fieldOf (e.read .z32 c e.first) 0 1

/-- The carry written as 0 or 1 to a scalar register, where one is named (R118). -/
def uniCarryOut (c : Operand) (b : Bool) : List RegWrite := writeTo .z32 c 0 (if b then 1 else 0)

/-- A result with its carry or borrow (R118). -/
def uniCarry (o : Ty → Nat → Nat → Nat → Nat × Bool) (takes : Bool) (f : VFmt) (e : Env) (s : State) : Act :=
  let x (p : Operand) := (e.read f.ty p e.first).toNat
  let r := o f.ty (x f.a) (x f.b) (if takes then uniCarryIn e f.c else 0)
  .writes s (writeTo f.ty f.d 0 (BitVec.ofNat 64 r.1) ++ uniCarryOut f.c r.2) .none

/-- A quotient or remainder; a zero divisor traps where TE.DZ is 1, else sets SF.DZ (R120, R121). -/
def uniDivide (o : IntOp) (f : VFmt) (e : Env) (s : State) : Act :=
  let zero := decide (e.read f.ty f.b e.first = 0)
  if zero && (Cond.enables e.wave.mode).dz then .trap 0x20 127
  else
    match uniOp o f e s with
    | .writes s ws _ => .writes s ws { Cond.none with dz := zero }
    | a => a

/-- A count into one register (R123). -/
def uniCount (o : Ty → Nat → Nat) (f : VFmt) (e : Env) (s : State) : Act :=
  .writes s (writeTo .z32 f.d 0 (BitVec.ofNat 64 (o f.ty (e.read f.ty f.a e.first).toNat))) .none

/-- UADD (R118). -/
def execUadd (f : VFmt) : State → Host.Outcome State Fault Refusal := issue (.uadd f) (uniCarry addCarry false f)

/-- UADDC (R118). -/
def execUaddc (f : VFmt) : State → Host.Outcome State Fault Refusal := issue (.uaddc f) (uniCarry addCarry true f)

/-- USUB (R118). -/
def execUsub (f : VFmt) : State → Host.Outcome State Fault Refusal := issue (.usub f) (uniCarry subBorrow false f)

/-- USUBB (R118). -/
def execUsubb (f : VFmt) : State → Host.Outcome State Fault Refusal := issue (.usubb f) (uniCarry subBorrow true f)

/-- UMUL (R119). -/
def execUmul (f : VFmt) : State → Host.Outcome State Fault Refusal := issue (.umul f) (uniOp opMul f)

/-- UMULHI (R119). -/
def execUmulhi (f : VFmt) : State → Host.Outcome State Fault Refusal := issue (.umulhi f) (uniOp opMulHi f)

/-- UMULW: the whole product into a pair (R119). -/
def execUmulw (f : VFmt) : State → Host.Outcome State Fault Refusal :=
  issue (.umulw f) fun e s =>
    let x (p : Operand) := (e.read f.ty p e.first).toNat
    .writes s (writeTo .z64 f.d 0 (mulWide f.ty (x f.a) (x f.b))) .none

/-- UDIV (R120, R121). -/
def execUdiv (f : VFmt) : State → Host.Outcome State Fault Refusal := issue (.udiv f) (uniDivide opDiv f)

/-- UREM (R120, R121). -/
def execUrem (f : VFmt) : State → Host.Outcome State Fault Refusal := issue (.urem f) (uniDivide opRem f)

/-- UMIN (R117). -/
def execUmin (f : VFmt) : State → Host.Outcome State Fault Refusal := issue (.umin f) (uniOp opMin f)

/-- UMAX (R117). -/
def execUmax (f : VFmt) : State → Host.Outcome State Fault Refusal := issue (.umax f) (uniOp opMax f)

/-- UAND (R117). -/
def execUand (f : VFmt) : State → Host.Outcome State Fault Refusal := issue (.uand f) (uniOp opAnd f)

/-- UOR (R117). -/
def execUor (f : VFmt) : State → Host.Outcome State Fault Refusal := issue (.uor f) (uniOp opOr f)

/-- UXOR (R117). -/
def execUxor (f : VFmt) : State → Host.Outcome State Fault Refusal := issue (.uxor f) (uniOp opXor f)

/-- UNOT (R117). -/
def execUnot (f : VFmt) : State → Host.Outcome State Fault Refusal := issue (.unot f) (uniOp opNot f)

/-- USHL (R122). -/
def execUshl (f : VFmt) : State → Host.Outcome State Fault Refusal := issue (.ushl f) (uniOp opShl f)

/-- USHR (R122). -/
def execUshr (f : VFmt) : State → Host.Outcome State Fault Refusal := issue (.ushr f) (uniOp opShr f)

/-- USAR (R122). -/
def execUsar (f : VFmt) : State → Host.Outcome State Fault Refusal := issue (.usar f) (uniOp opSar f)

/-- UBFE (R123). -/
def execUbfe (f : VFmt) : State → Host.Outcome State Fault Refusal := issue (.ubfe f) (uniOp opBfe f)

/-- UBFI (R123). -/
def execUbfi (f : VFmt) : State → Host.Outcome State Fault Refusal := issue (.ubfi f) (uniOp opBfi f)

/-- UPOPC (R123). -/
def execUpopc (f : VFmt) : State → Host.Outcome State Fault Refusal := issue (.upopc f) (uniCount popCount f)

/-- UCLZ (R123). -/
def execUclz (f : VFmt) : State → Host.Outcome State Fault Refusal := issue (.uclz f) (uniCount leadingZeros f)

/-- UCMP: 1 or 0 into one scalar register (R124). -/
def execUcmp (f : VFmt) : State → Host.Outcome State Fault Refusal :=
  issue (.ucmp f) fun e s =>
    let x (p : Operand) := (e.read f.ty p e.first).toNat
    .writes s (writeTo .z32 f.d 0 (if intCompare f.ty f.rnd (x f.a) (x f.b) then 1 else 0)) .none

/-- USEL: a where the scalar register C is not 0, else b (R125). -/
def execUsel (f : VFmt) : State → Host.Outcome State Fault Refusal :=
  issue (.usel f) fun e s =>
    let c := e.readZ f.c e.first
    .writes s (writeTo f.ty f.d 0 (e.read f.ty (if c ≠ 0 then f.a else f.b) e.first)) .none

/-- UMOV (R125). -/
def execUmov (f : VFmt) : State → Host.Outcome State Fault Refusal := issue (.umov f) (uniOp opMov f)

end Sys2Proof.Machine
end

