-- ==== Sys2Proof/Machine/Dispatch.lean ====
section
/-!
DEFINITION. The meaning of every step of the machine: one arm per constructor of Instr.
-/

namespace Sys2Proof.Machine

def exec (i : Instr) (s : State) : Host.Outcome State Fault Refusal :=
  match i with
  | .uadd f => Sys2Proof.Machine.execUadd f s
  | .uaddc f => Sys2Proof.Machine.execUaddc f s
  | .usub f => Sys2Proof.Machine.execUsub f s
  | .usubb f => Sys2Proof.Machine.execUsubb f s
  | .umul f => Sys2Proof.Machine.execUmul f s
  | .umulhi f => Sys2Proof.Machine.execUmulhi f s
  | .umulw f => Sys2Proof.Machine.execUmulw f s
  | .udiv f => Sys2Proof.Machine.execUdiv f s
  | .urem f => Sys2Proof.Machine.execUrem f s
  | .umin f => Sys2Proof.Machine.execUmin f s
  | .umax f => Sys2Proof.Machine.execUmax f s
  | .uand f => Sys2Proof.Machine.execUand f s
  | .uor f => Sys2Proof.Machine.execUor f s
  | .uxor f => Sys2Proof.Machine.execUxor f s
  | .unot f => Sys2Proof.Machine.execUnot f s
  | .ushl f => Sys2Proof.Machine.execUshl f s
  | .ushr f => Sys2Proof.Machine.execUshr f s
  | .usar f => Sys2Proof.Machine.execUsar f s
  | .ubfe f => Sys2Proof.Machine.execUbfe f s
  | .ubfi f => Sys2Proof.Machine.execUbfi f s
  | .upopc f => Sys2Proof.Machine.execUpopc f s
  | .uclz f => Sys2Proof.Machine.execUclz f s
  | .ucmp f => Sys2Proof.Machine.execUcmp f s
  | .usel f => Sys2Proof.Machine.execUsel f s
  | .umov f => Sys2Proof.Machine.execUmov f s
  | .add f => Sys2Proof.Machine.execAdd f s
  | .addc f => Sys2Proof.Machine.execAddc f s
  | .sub f => Sys2Proof.Machine.execSub f s
  | .subb f => Sys2Proof.Machine.execSubb f s
  | .mul f => Sys2Proof.Machine.execMul f s
  | .mulhi f => Sys2Proof.Machine.execMulhi f s
  | .mulw f => Sys2Proof.Machine.execMulw f s
  | .mad f => Sys2Proof.Machine.execMad f s
  | .div f => Sys2Proof.Machine.execDiv f s
  | .rem f => Sys2Proof.Machine.execRem f s
  | .min f => Sys2Proof.Machine.execMin f s
  | .max f => Sys2Proof.Machine.execMax f s
  | .abs f => Sys2Proof.Machine.execAbs f s
  | .and f => Sys2Proof.Machine.execAnd f s
  | .or f => Sys2Proof.Machine.execOr f s
  | .xor f => Sys2Proof.Machine.execXor f s
  | .not f => Sys2Proof.Machine.execNot f s
  | .shl f => Sys2Proof.Machine.execShl f s
  | .shr f => Sys2Proof.Machine.execShr f s
  | .sar f => Sys2Proof.Machine.execSar f s
  | .bfe f => Sys2Proof.Machine.execBfe f s
  | .bfi f => Sys2Proof.Machine.execBfi f s
  | .brev f => Sys2Proof.Machine.execBrev f s
  | .popc f => Sys2Proof.Machine.execPopc f s
  | .clz f => Sys2Proof.Machine.execClz f s
  | .cmp f => Sys2Proof.Machine.execCmp f s
  | .sel f => Sys2Proof.Machine.execSel f s
  | .mov f => Sys2Proof.Machine.execMov f s
  | .movx f => Sys2Proof.Machine.execMovx f s
  | .movxs f => Sys2Proof.Machine.execMovxs f s
  | .fadd f => Sys2Proof.Machine.execFadd f s
  | .fsub f => Sys2Proof.Machine.execFsub f s
  | .fmul f => Sys2Proof.Machine.execFmul f s
  | .ffma f => Sys2Proof.Machine.execFfma f s
  | .fmin f => Sys2Proof.Machine.execFmin f s
  | .fmax f => Sys2Proof.Machine.execFmax f s
  | .fabs f => Sys2Proof.Machine.execFabs f s
  | .fneg f => Sys2Proof.Machine.execFneg f s
  | .fcmp f => Sys2Proof.Machine.execFcmp f s
  | .fclass f => Sys2Proof.Machine.execFclass f s
  | .frcp f => Sys2Proof.Machine.execFrcp f s
  | .frsq f => Sys2Proof.Machine.execFrsq f s
  | .fsqrt f => Sys2Proof.Machine.execFsqrt f s
  | .fdiv f => Sys2Proof.Machine.execFdiv f s
  | .fexp2 f => Sys2Proof.Machine.execFexp2 f s
  | .flog2 f => Sys2Proof.Machine.execFlog2 f s
  | .fsin f => Sys2Proof.Machine.execFsin f s
  | .fcos f => Sys2Proof.Machine.execFcos f s
  | .ftanh f => Sys2Proof.Machine.execFtanh f s
  | .ffloor f => Sys2Proof.Machine.execFfloor f s
  | .fceil f => Sys2Proof.Machine.execFceil f s
  | .ftrunc f => Sys2Proof.Machine.execFtrunc f s
  | .frint f => Sys2Proof.Machine.execFrint f s
  | .ffrac f => Sys2Proof.Machine.execFfrac f s
  | .fldexp f => Sys2Proof.Machine.execFldexp f s
  | .fexpo f => Sys2Proof.Machine.execFexpo f s
  | .fmant f => Sys2Proof.Machine.execFmant f s
  | .fmed3 f => Sys2Proof.Machine.execFmed3 f s
  | .fdot2 f => Sys2Proof.Machine.execFdot2 f s
  | .fdot4 f => Sys2Proof.Machine.execFdot4 f s
  | .cvt f => Sys2Proof.Machine.execCvt f s
  | .cvtmx f => Sys2Proof.Machine.execCvtmx f s
  | .pack f => Sys2Proof.Machine.execPack f s
  | .unpack f => Sys2Proof.Machine.execUnpack f s
  | .mxscale f => Sys2Proof.Machine.execMxscale f s
  | .bperm f => Sys2Proof.Machine.execBperm f s
  | .shfl f => Sys2Proof.Machine.execShfl f s
  | .shflup f => Sys2Proof.Machine.execShflup f s
  | .shfldn f => Sys2Proof.Machine.execShfldn f s
  | .shflx f => Sys2Proof.Machine.execShflx f s
  | .voteany f => Sys2Proof.Machine.execVoteany f s
  | .voteall f => Sys2Proof.Machine.execVoteall f s
  | .voteeq f => Sys2Proof.Machine.execVoteeq f s
  | .ballot f => Sys2Proof.Machine.execBallot f s
  | .scan f => Sys2Proof.Machine.execScan f s
  | .scanx f => Sys2Proof.Machine.execScanx f s
  | .reduce f => Sys2Proof.Machine.execReduce f s
  | .compact f => Sys2Proof.Machine.execCompact f s
  | .expand f => Sys2Proof.Machine.execExpand f s
  | .rdfirst f => Sys2Proof.Machine.execRdfirst f s
  | .bra f => Sys2Proof.Machine.execBra f s
  | .brp f => Sys2Proof.Machine.execBrp f s
  | .bru f => Sys2Proof.Machine.execBru f s
  | .call f => Sys2Proof.Machine.execCall f s
  | .calli f => Sys2Proof.Machine.execCalli f s
  | .ret f => Sys2Proof.Machine.execRet f s
  | .jmpi f => Sys2Proof.Machine.execJmpi f s
  | .exit f => Sys2Proof.Machine.execExit f s
  | .regang f => Sys2Proof.Machine.execRegang f s
  | .pand f => Sys2Proof.Machine.execPand f s
  | .por f => Sys2Proof.Machine.execPor f s
  | .pxor f => Sys2Proof.Machine.execPxor f s
  | .pandn f => Sys2Proof.Machine.execPandn f s
  | .pnot f => Sys2Proof.Machine.execPnot f s
  | .pmov f => Sys2Proof.Machine.execPmov f s
  | .ld f => Sys2Proof.Machine.execLd f s
  | .st f => Sys2Proof.Machine.execSt f s
  | .lds f => Sys2Proof.Machine.execLds f s
  | .sts f => Sys2Proof.Machine.execSts f s
  | .ldsr f => Sys2Proof.Machine.execLdsr f s
  | .stsr f => Sys2Proof.Machine.execStsr f s
  | .sld f => Sys2Proof.Machine.execSld f s
  | .sst f => Sys2Proof.Machine.execSst f s
  | .tld f => Sys2Proof.Machine.execTld f s
  | .tst f => Sys2Proof.Machine.execTst f s
  | .pref f => Sys2Proof.Machine.execPref f s
  | .evict f => Sys2Proof.Machine.execEvict f s
  | .fence f => Sys2Proof.Machine.execFence f s
  | .sqpush f => Sys2Proof.Machine.execSqpush f s
  | .sqpop f => Sys2Proof.Machine.execSqpop f s
  | .aadd f => Sys2Proof.Machine.execAadd f s
  | .afadd f => Sys2Proof.Machine.execAfadd f s
  | .amin f => Sys2Proof.Machine.execAmin f s
  | .amax f => Sys2Proof.Machine.execAmax f s
  | .aand f => Sys2Proof.Machine.execAand f s
  | .aor f => Sys2Proof.Machine.execAor f s
  | .axor f => Sys2Proof.Machine.execAxor f s
  | .axchg f => Sys2Proof.Machine.execAxchg f s
  | .acas f => Sys2Proof.Machine.execAcas f s
  | .atile f => Sys2Proof.Machine.execAtile f s
  | .copy f => Sys2Proof.Machine.execCopy f s
  | .copyin f => Sys2Proof.Machine.execCopyin f s
  | .copyout f => Sys2Proof.Machine.execCopyout f s
  | .copyt f => Sys2Proof.Machine.execCopyt f s
  | .batch f => Sys2Proof.Machine.execBatch f s
  | .waitb f => Sys2Proof.Machine.execWaitb f s
  | .waitbn f => Sys2Proof.Machine.execWaitbn f s
  | .bquery f => Sys2Proof.Machine.execBquery f s
  | .mma f => Sys2Proof.Machine.execMma f s
  | .mmaGrp f => Sys2Proof.Machine.execMmaGrp f s
  | .mmaLut f => Sys2Proof.Machine.execMmaLut f s
  | .mmaSa f => Sys2Proof.Machine.execMmaSa f s
  | .lutb f => Sys2Proof.Machine.execLutb f s
  | .bload f => Sys2Proof.Machine.execBload f s
  | .aclr f => Sys2Proof.Machine.execAclr f s
  | .amovr f => Sys2Proof.Machine.execAmovr f s
  | .amovw f => Sys2Proof.Machine.execAmovw f s
  | .ascale f => Sys2Proof.Machine.execAscale f s
  | .drain f => Sys2Proof.Machine.execDrain f s
  | .drainAdd f => Sys2Proof.Machine.execDrainAdd f s
  | .lend f => Sys2Proof.Machine.execLend f s
  | .recall f => Sys2Proof.Machine.execRecall f s
  | .astat f => Sys2Proof.Machine.execAstat f s
  | .sample f => Sys2Proof.Machine.execSample f s
  | .sampleN f => Sys2Proof.Machine.execSampleN f s
  | .gather f => Sys2Proof.Machine.execGather f s
  | .texq f => Sys2Proof.Machine.execTexq f s
  | .wpin f => Sys2Proof.Machine.execWpin f s
  | .wunpin f => Sys2Proof.Machine.execWunpin f s
  | .winv f => Sys2Proof.Machine.execWinv f s
  | .rng f => Sys2Proof.Machine.execRng f s
  | .rayPin f => Sys2Proof.Machine.execRayPin f s
  | .rayTrace f => Sys2Proof.Machine.execRayTrace f s
  | .rayNext f => Sys2Proof.Machine.execRayNext f s
  | .rayUnpin f => Sys2Proof.Machine.execRayUnpin f s
  | .bvhBuild f => Sys2Proof.Machine.execBvhBuild f s
  | .bvhRefit f => Sys2Proof.Machine.execBvhRefit f s
  | .bvhBal f => Sys2Proof.Machine.execBvhBal f s
  | .bvhPub f => Sys2Proof.Machine.execBvhPub f s
  | .bar f => Sys2Proof.Machine.execBar f s
  | .barCl f => Sys2Proof.Machine.execBarCl f s
  | .arrive f => Sys2Proof.Machine.execArrive f s
  | .waitbar f => Sys2Proof.Machine.execWaitbar f s
  | .collRed f => Sys2Proof.Machine.execCollRed f s
  | .collGath f => Sys2Proof.Machine.execCollGath f s
  | .collScat f => Sys2Proof.Machine.execCollScat f s
  | .collBcast f => Sys2Proof.Machine.execCollBcast f s
  | .collWait f => Sys2Proof.Machine.execCollWait f s
  | .gate f => Sys2Proof.Machine.execGate f s
  | .gateret f => Sys2Proof.Machine.execGateret f s
  | .objGrant f => Sys2Proof.Machine.execObjGrant f s
  | .nop f => Sys2Proof.Machine.execNop f s
  | .trap f => Sys2Proof.Machine.execTrap f s
  | .rett f => Sys2Proof.Machine.execRett f s
  | .sread f => Sys2Proof.Machine.execSread f s
  | .swrite f => Sys2Proof.Machine.execSwrite f s
  | .phint f => Sys2Proof.Machine.execPhint f s
  | .enter f => Sys2Proof.Machine.execEnter f s
  | .leave f => Sys2Proof.Machine.execLeave f s
  | .brk f => Sys2Proof.Machine.execBrk f s
  | .waitClk f => Sys2Proof.Machine.execWaitClk f s
  | .yield f => Sys2Proof.Machine.execYield f s
  | .mark f => Sys2Proof.Machine.execMark f s
  | .derive f => Sys2Proof.Machine.execDerive f s
  | .narrow f => Sys2Proof.Machine.execNarrow f s
  | .refadd f => Sys2Proof.Machine.execRefadd f s
  | .refoff f => Sys2Proof.Machine.execRefoff f s
  | .refset f => Sys2Proof.Machine.execRefset f s
  | .refcmp f => Sys2Proof.Machine.execRefcmp f s
  | .refchk f => Sys2Proof.Machine.execRefchk f s
  | .objq f => Sys2Proof.Machine.execObjq f s
  | .relayout f => Sys2Proof.Machine.execRelayout f s
  | .rlwait f => Sys2Proof.Machine.execRlwait f s
  | .taddr f => Sys2Proof.Machine.execTaddr f s
  | .tdesc f => Sys2Proof.Machine.execTdesc f s
  | .notAnInstruction a => Sys2Proof.Machine.execNotAnInstruction a s
  | .holdLimit a b => Sys2Proof.Machine.execHoldLimit a b s
  | .longLatencyComplete a b => Sys2Proof.Machine.execLongLatencyComplete a b s
  | .storeAcknowledge a => Sys2Proof.Machine.execStoreAcknowledge a s
  | .lateCondition a b c => Sys2Proof.Machine.execLateCondition a b c s
  | .copyComplete a => Sys2Proof.Machine.execCopyComplete a s
  | .matrixOpComplete a b => Sys2Proof.Machine.execMatrixOpComplete a b s
  | .weightFillComplete a b => Sys2Proof.Machine.execWeightFillComplete a b s
  | .rayTraversalEnd a b => Sys2Proof.Machine.execRayTraversalEnd a b s
  | .armatureOpStart a => Sys2Proof.Machine.execArmatureOpStart a s
  | .armatureOpComplete a => Sys2Proof.Machine.execArmatureOpComplete a s
  | .collectiveComplete a b => Sys2Proof.Machine.execCollectiveComplete a b s
  | .rasterTriangle a b => Sys2Proof.Machine.execRasterTriangle a b s
  | .rasterMerge a b => Sys2Proof.Machine.execRasterMerge a b s
  | .migrationMove a => Sys2Proof.Machine.execMigrationMove a s
  | .granuleArrival a b => Sys2Proof.Machine.execGranuleArrival a b s
  | .conversionTile a b => Sys2Proof.Machine.execConversionTile a b s
  | .residencyTimeout a b => Sys2Proof.Machine.execResidencyTimeout a b s
  | .conversionWaitTimeout a => Sys2Proof.Machine.execConversionWaitTimeout a s
  | .context a b => Sys2Proof.Machine.execContext a b s
  | .objinv a b => Sys2Proof.Machine.execObjinv a b s
  | .signal a b => Sys2Proof.Machine.execSignal a b s
  | .wait a b => Sys2Proof.Machine.execWait a b s
  | .launch a b => Sys2Proof.Machine.execLaunch a b s
  | .nopPacket a b => Sys2Proof.Machine.execNopPacket a b s
  | .queueDoorbell a b c => Sys2Proof.Machine.execQueueDoorbell a b c s
  | .queueRestart a b c => Sys2Proof.Machine.execQueueRestart a b c s
  | .launchReplica a b c d => Sys2Proof.Machine.execLaunchReplica a b c d s
  | .startArrival a b => Sys2Proof.Machine.execStartArrival a b s
  | .launchRejectionStamped a b => Sys2Proof.Machine.execLaunchRejectionStamped a b s
  | .startTimeout a => Sys2Proof.Machine.execStartTimeout a s
  | .arrivalExpiry a b => Sys2Proof.Machine.execArrivalExpiry a b s
  | .packageEndReport a b => Sys2Proof.Machine.execPackageEndReport a b s
  | .clusterPlacement a => Sys2Proof.Machine.execClusterPlacement a s
  | .sliceEnd a b => Sys2Proof.Machine.execSliceEnd a b s
  | .preemptStepPhase a => Sys2Proof.Machine.execPreemptStepPhase a s
  | .stepPhaseTimeout a => Sys2Proof.Machine.execStepPhaseTimeout a s
  | .workgroupSave a => Sys2Proof.Machine.execWorkgroupSave a s
  | .workgroupRestore a => Sys2Proof.Machine.execWorkgroupRestore a s
  | .waitClkExpiry a b => Sys2Proof.Machine.execWaitClkExpiry a b s
  | .haltComplete a => Sys2Proof.Machine.execHaltComplete a s
  | .debugSessionOpen a b => Sys2Proof.Machine.execDebugSessionOpen a b s
  | .debugSessionClose a => Sys2Proof.Machine.execDebugSessionClose a s
  | .debugHalt a => Sys2Proof.Machine.execDebugHalt a s
  | .debugResume a => Sys2Proof.Machine.execDebugResume a s
  | .dbgdataRead a => Sys2Proof.Machine.execDbgdataRead a s
  | .dbgdataWrite a b => Sys2Proof.Machine.execDbgdataWrite a b s
  | .islandWrite a b => Sys2Proof.Machine.execIslandWrite a b s
  | .frequencyChangeEnd a => Sys2Proof.Machine.execFrequencyChangeEnd a s
  | .registerWrite a b => Sys2Proof.Machine.execRegisterWrite a b s
  | .identify => Sys2Proof.Machine.execIdentify s
  | .fwwrite => Sys2Proof.Machine.execFwwrite s
  | .fwactivate => Sys2Proof.Machine.execFwactivate s
  | .status => Sys2Proof.Machine.execStatus s
  | .powerOnReset => Sys2Proof.Machine.execPowerOnReset s
  | .getVersion => Sys2Proof.Machine.execGetVersion s
  | .getCapabilities => Sys2Proof.Machine.execGetCapabilities s
  | .negotiateAlgorithms a b => Sys2Proof.Machine.execNegotiateAlgorithms a b s
  | .getDigests => Sys2Proof.Machine.execGetDigests s
  | .getCertificate a b => Sys2Proof.Machine.execGetCertificate a b s
  | .challenge a => Sys2Proof.Machine.execChallenge a s
  | .getMeasurements a => Sys2Proof.Machine.execGetMeasurements a s
  | .firmwareRemeasure => Sys2Proof.Machine.execFirmwareRemeasure s
  | .securityAlarm a => Sys2Proof.Machine.execSecurityAlarm a s
  | .thermalThrottle a b => Sys2Proof.Machine.execThermalThrottle a b s
  | .thermalTrip a => Sys2Proof.Machine.execThermalTrip a s
  | .hostMemAccess a b => Sys2Proof.Machine.execHostMemAccess a b s
  | .hostCacheSnoop a b c => Sys2Proof.Machine.execHostCacheSnoop a b c s
  | .atsInvalidation a b => Sys2Proof.Machine.execAtsInvalidation a b s
  | .expanderLinkLoss a => Sys2Proof.Machine.execExpanderLinkLoss a s
  | .scrubPass a b c => Sys2Proof.Machine.execScrubPass a b c s
  | .skewMeasurement a b c d => Sys2Proof.Machine.execSkewMeasurement a b c d s
  | .flitData a b => Sys2Proof.Machine.execFlitData a b s
  | .flitIdle a b => Sys2Proof.Machine.execFlitIdle a b s
  | .flitAcknowledge a b => Sys2Proof.Machine.execFlitAcknowledge a b s
  | .flitReplayRequest a b => Sys2Proof.Machine.execFlitReplayRequest a b s
  | .portRetrain a => Sys2Proof.Machine.execPortRetrain a s
  | .portTrainingEnd a b c => Sys2Proof.Machine.execPortTrainingEnd a b c s
  | .packageLoss a => Sys2Proof.Machine.execPackageLoss a s
  | .packageLossReport a => Sys2Proof.Machine.execPackageLossReport a s
  | .transportDoorbell a b c => Sys2Proof.Machine.execTransportDoorbell a b c s
  | .wrWrite a b => Sys2Proof.Machine.execWrWrite a b s
  | .wrRead a b => Sys2Proof.Machine.execWrRead a b s
  | .wrSend a b => Sys2Proof.Machine.execWrSend a b s
  | .frameWrite a b => Sys2Proof.Machine.execFrameWrite a b s
  | .frameReadRequest a b => Sys2Proof.Machine.execFrameReadRequest a b s
  | .frameReadResponse a b => Sys2Proof.Machine.execFrameReadResponse a b s
  | .frameSend a b => Sys2Proof.Machine.execFrameSend a b s
  | .frameAck a b => Sys2Proof.Machine.execFrameAck a b s
  | .frameNak a b => Sys2Proof.Machine.execFrameNak a b s
  | .transportRetransmit a b => Sys2Proof.Machine.execTransportRetransmit a b s
  | .completionRecordWrite a b => Sys2Proof.Machine.execCompletionRecordWrite a b s
  | .ethernetLinkChange a b => Sys2Proof.Machine.execEthernetLinkChange a b s
  | .thermalLimitRelease a => Sys2Proof.Machine.execThermalLimitRelease a s

end Sys2Proof.Machine
end

