-- ==== Sys2Proof/Machine/Sched.lean ====
section
/-!
DEFINITION. What moves next: the choice of a fragment (R39, R359), Sluice's lanes
(R347), the engines in turn; and the placing of one instruction for the host's question.
-/

namespace Sys2Proof.Machine

/-- Time passes: the die counters advance by clocks that the manual leaves open (R64), and the step is counted. What step phases
have stopped is noted before (R360, R362). -/
def State.pass (s : State) : State :=
  { s.stepPhases with counters := (List.range 4).map fun d => (d, s.counter d + BitVec.ofNat 64 (Config.clocks (4 * s.tick + d))),
                      tick := s.tick + 1 }

/-! ## The choice of a fragment (R359) -/

/-- A fragment of `ready`, with its context, core and quadrant. -/
structure Ready where
  wk : Nat
  fid : Nat
  ctx : Nat
  core : Nat
  quad : Nat
  age : Nat
  last : Nat
  /-- Where the current round of its context on its quadrant began (log 83). -/
  round : Nat

/-- The quadrant of a ready fragment, numbered over the package. -/
def Ready.place (r : Ready) : Nat := 4 * r.core + r.quad

/-- The fragments that hold a slot or may have one now, and wait for nothing; one that takes its slot now is the youngest. -/
def State.slotted (s : State) : List Ready :=
  s.waves.flatMap fun x =>
    match s.workgroups.find? x.2.wg with
    | none => []
    | some wg =>
      match s.ctxOf wg with
      | none => []
      | some ctx =>
        if s.onCore x.1 && wg.phase != .ended then
          (x.2.frags.filter fun f => x.2.fragReady f && s.maySlot x.1 f.id).map fun f =>
            ⟨x.1, f.id, ctx, wg.core, x.2.no % 4, if f.slot then f.age else 32 * s.tick, f.last,
              SMap.get 0 (s.context ctx).rounds (4 * wg.core + x.2.no % 4)⟩
        else []

/-- Every fragment of a context on a quadrant has issued in the current round: the next one begins. -/
def roundOver (all : List Ready) (r : Ready) : Bool := all.all fun x => decide (x.place ≠ r.place ∨ x.ctx ≠ r.ctx ∨ x.round ≤ x.last)

/-- A fragment's next instruction has its operands. The manual gives no latencies: those of a fragment that has issued are taken to
be there once every other fragment of its context on the quadrant that could issue has done so in the same round (log entry
83), which gives each its turn (R47). -/
def Ready.hasOperands (all : List Ready) (r : Ready) : Bool := decide (r.last < r.round) || roundOver all r

/-- Fragment a goes before fragment b of its quadrant: the context of the smaller C / weight, then of the lower number, then the
older (R359). -/
def State.goesBefore (s : State) (a b : Ready) : Bool :=
  let ca := s.issueOf a.ctx a.core * (s.context b.ctx).weight
  let cb := s.issueOf b.ctx b.core * (s.context a.ctx).weight
  if ca ≠ cb then decide (ca < cb)
  else if a.ctx ≠ b.ctx then decide (a.ctx < b.ctx)
  else decide (a.age ≤ b.age)

/-- The first of the ready fragments. -/
def State.firstReady (s : State) : List Ready → Option Ready
  | [] => none
  | r :: rs => match s.firstReady rs with
    | none => some r
    | some b => some (if s.goesBefore r b then r else b)

/-- A context that gains a member of `ready` on a quadrant, newly resident ones among them, takes at least the smallest C of the
others that have one. -/
def State.catchUp (s : State) (core quad : Nat) (members : List Nat) : State :=
  let here := 4 * core + quad
  let s := members.foldl (fun s c =>
    if (s.context c).members.contains here then s
    else
      match (members.filter fun d => d != c).map fun d => s.issueOf d core with
      | [] => s
      | x :: xs => s.modContext c fun k => { k with issue := SMap.set 0 k.issue core (max (SMap.get 0 k.issue core) (xs.foldl min x)) }) s
  { s with contexts := s.contexts.map fun c =>
      (c.1, { c.2 with members := (c.2.members.filter fun x => x != here) ++ if members.contains c.1 then [here] else [] }) }

/-- Choose a fragment to issue on one of the quadrants, which take turns (R359). -/
def State.choose (s : State) : Option (State × Nat × Nat) :=
  let slotted := s.slotted
  let all := slotted.filter (Ready.hasOperands slotted)
  let places := (all.map Ready.place).eraseDups
  match places[(s.tick / 4 * 2 + s.tick % 4) % max 1 places.length]? with
  | none => none
  | some place =>
    let here := all.filter fun r => r.place == place
    let s := s.catchUp (place / 4) (place % 4) ((here.map fun r => r.ctx).eraseDups)
    (s.firstReady here).map fun r =>
      (if roundOver slotted r then s.modContext r.ctx fun c => { c with rounds := SMap.set 0 c.rounds place s.tick } else s, r.wk, r.fid)

/-! ## Sluice's lanes (R347) -/

/-- A step that may stop is taken as the state it gives. -/
def after (s : State) (o : Host.Outcome State Fault Refusal) : State :=
  match o with
  | .next t => t
  | _ => s

/-- Sluice deals with the packet of a type at the head of a queue. -/
def State.servePacket (die : BitVec 2) (s : State) (t q : Nat) : State :=
  let q : BitVec 11 := BitVec.ofNat 11 q
  after s (match t with
    | 1 => execContext die q s
    | 2 => execObjinv die q s
    | 3 => execSignal die q s
    | 4 => execWait die q s
    | 5 => execLaunch die q s
    | _ => execNopPacket die q s)

/-- What lane j of a die takes: type and queue of the first packet, in slot order after the slot it served last, whose
queue is not blocked (R347). A WAIT or LAUNCH is blocked where dealing with it leaves it at its queue's head; what a WAIT
notes of its queue's residency then stands (R351). -/
def State.laneTake (s : State) (die : BitVec 2) (j : Nat) : State × Option (Nat × Nat) :=
  let last := match s.served.find? (32 * die.toNat + j) with
    | some k => k + 1
    | none => 0
  ((List.range 64).map fun i => 64 * j + (last + i) % 64).foldl (fun (r : State × Option (Nat × Nat)) q =>
    if r.2.isSome || (r.1.queues.find? (2048 * die.toNat + q)).isNone || (r.1.queueState die.toNat q).resWait then r
    else
      match r.1.headType die.toNat q with
      | none => r
      | some t =>
        let u := r.1.servePacket die t q
        if (t = 4 ∨ t = 5) ∧ (u.queueState die.toNat q).rptr = (r.1.queueState die.toNat q).rptr ∧ !u.stopped die.toNat q then
          (u, none)
        else (r.1, some (t, q))) (s, none)

/-- One Sluice step of a die: each lane takes a queue, and the packets are served in ascending type. -/
def State.sluiceStep (die : BitVec 2) (s : State) : State :=
  let lanes := (s.queues.filterMap fun x => if x.1 / 2048 = die.toNat then some (x.1 % 2048 / 64) else none).eraseDups
  let r := lanes.foldl (fun (r : State × List (Nat × Nat)) j =>
    let x := r.1.laneTake die j
    (x.1, r.2 ++ x.2.toList)) (s, [])
  (r.2.mergeSort fun a b => decide (a.1 ≤ b.1)).foldl (fun s x => s.servePacket die x.1 x.2) r.1

/-! ## The engines in turn -/

/-- The fragments of a wave that stand at headers go on where they can. -/
def State.tryArrivals (wk : Nat) (s : State) : State :=
  match s.waves.find? wk with
  | none => s
  | some w => if w.halted || w.halting.isSome then s else State.arrive wk arriveFuel s

/-- The moves that engines, Sluice, the dispatchers and the memory system may make now, each a step of the opcode
table; timeouts, links, the debugger and the platform move only by `turns`. -/
def State.moves (s : State) : List (State → Host.Outcome State Fault Refusal) :=
  let die (f : BitVec 2 → State → Host.Outcome State Fault Refusal) := (List.range 4).map fun d => f (BitVec.ofNat 2 d)
  (List.range s.storeQ.length).map execStoreAcknowledge ++
    (s.waves.flatMap fun x => x.2.pend.map fun p => execLongLatencyComplete x.1 ⟨p.id, .done 0⟩) ++
    (s.waves.flatMap fun x => x.2.rays.map fun r => execRayTraversalEnd x.1 r.1) ++
    (s.waves.map fun x => execHaltComplete x.1) ++
    (s.waves.flatMap fun x => x.2.frags.map fun f => execHoldLimit x.1 f.id) ++
    (s.waves.map fun x => fun (t : State) => Host.Outcome.next (t.tryArrivals x.1)) ++
    (List.range s.copies.length).map execCopyComplete ++
    (List.range s.matOps.length).map (fun n => execMatrixOpComplete n (.done 0)) ++
    (List.range s.colls.length).map (fun n => execCollectiveComplete n (.done 0)) ++
    die execArmatureOpStart ++ die execArmatureOpComplete ++ die execMigrationMove ++
    (s.requests.flatMap fun q => (List.range q.2.length).map fun n => execGranuleArrival (BitVec.ofNat 2 q.1) n) ++
    ((List.range s.convs.length).flatMap fun n =>
      match s.convs[n]? with
      | some c =>
        let t := s.tensor (s.tableEntry c.dom.toNat c.index)
        match (List.range t.tiles).find? fun k => !s.tileDone t k with
        | some k => [execConversionTile n k]
        | none => []
      | none => []) ++
    (s.wfills.flatMap fun x => (List.range x.2.length).map fun n => execWeightFillComplete x.1 n) ++
    (s.launches.flatMap fun x => x.2.rasters.flatMap fun r =>
      [execRasterTriangle x.1 (BitVec.ofNat 1 r.1), execRasterMerge x.1 (BitVec.ofNat 1 r.1)]) ++
    die (fun d s => Host.Outcome.next (s.sluiceStep d)) ++
    ((s.launches.filter fun x => x.2.nextPlace.isSome || !x.2.started).map fun x => execClusterPlacement x.1) ++
    (s.contexts.flatMap fun c => c.2.slices.map fun x => execSliceEnd x.1 (BitVec.ofNat 12 c.1)) ++
    (s.workgroups.flatMap fun x => [execPreemptStepPhase x.1, execWorkgroupSave x.1, execWorkgroupRestore x.1]) ++
    (s.conns.flatMap fun x =>
      let d : BitVec 2 := BitVec.ofNat 2 (x.1 / 1024)
      let c : BitVec 10 := BitVec.ofNat 10 x.1
      [execWrWrite d c, execWrRead d c, execWrSend d c, execCompletionRecordWrite d c]) ++
    [fun (s : State) => Host.Outcome.next (((s.contexts.map fun c => c.1).foldl State.checkSwapout s).retrySignals.finishInvs.pump),
     fun (s : State) => Host.Outcome.next ((s.launches.map fun x => x.1).foldl State.passTokens s),
     fun (s : State) => Host.Outcome.next ((List.range 4).foldl State.moveAllRetired s)]

/-- The fragments that wait, which try their instructions again in turn. -/
def State.waiters (s : State) : List (Nat × Nat) :=
  s.waves.flatMap fun x =>
    if s.onCore x.1 then
      (x.2.frags.filter fun f => f.wait != .none && f.stopped.isNone && f.trapLevel == 0).map fun f => (x.1, f.id)
    else []

/-- What a turn comes to. -/
inductive Moved where
  /-- The fragment or event runs this step of the opcode table. -/
  | run (i : Instr) (s : State)
  /-- An engine has moved, or only time has passed. -/
  | moved (s : State)

/-- Note a fragment's fetch in the use order: its instruction's words lie in its code object (R192). Words that are given as such
lie in none. -/
def State.noteFetch (s : State) (wk fid : Nat) (i : Instr) : State :=
  match s.waves.find? wk with
  | none => s
  | some w =>
    match (s.workgroups.find? w.wg).bind fun g => s.launches.find? g.launch, (w.frag? fid).bind w.fragPc with
    | some la, some pc =>
      if (la.words w.dom.toNat w.codeObj.toNat).isSome then s
      else s.touchRange w.dom.toNat w.codeObj.toNat (8 * pc.toNat) (8 * Instr.words i)
    | _, _ => s

/-- A fragment takes its turn: it needs a slot (R39). -/
def State.issueTurn (s : State) (wk fid : Nat) : Moved :=
  if s.maySlot wk fid then
    let s := { (s.giveSlot wk fid).modWave wk fun w => w.modFrag fid fun f => { f with last := s.tick } with
               cur := some (wk, fid) }
    match s.fetched wk fid with
    | some i => .run i (s.noteFetch wk fid i).pass
    | none => .moved s.pass
  else .moved (s.denySlot wk fid).pass

/-- The default choice, in turn by the step's number: ready fragments twice, a waiting fragment, an engine. -/
def State.auto (s : State) : Moved :=
  let engine : Moved := match s.moves[s.tick / 4 % max 1 s.moves.length]? with
    | some m => .moved (after s (m s)).pass
    | none => .moved s.pass
  if s.tick % 4 < 2 then
    match s.choose with
    | some (t, wk, fid) => t.issueTurn wk fid
    | none => engine
  else if s.tick % 4 = 2 then
    match s.waiters[s.tick / 4 % max 1 s.waiters.length]? with
    | some (wk, fid) => s.issueTurn wk fid
    | none => engine
  else engine

/-- The next of the listed turns, or the default choice. -/
def State.nextTurn (s : State) : Moved :=
  let s := s.noteSlots
  match s.turns with
  | .issue wk fid :: r => { s with turns := r }.issueTurn wk fid
  | .event e :: r => .run e { s with turns := r }.pass
  | [] => s.auto

/-! ## The host's question -/

/-- A launch whose code object 1 of domain 0 holds the words of one instruction between two headers, and EXIT after
them. -/
def Launch.holding (w : DWord) (ext : Option DWord) : Launch :=
  let header (len : Nat) : DWord := BitVec.ofNat 64 (15 * 2 ^ 60 + len * 2 ^ 50)
  let exit : DWord := (Instr.exit ⟨0, .none, 0, 0, false, 0, 0, none⟩).word
  { ctx := 0, die := 0, queue := 0, seq := 0, pgen := 0, dom := 0, lid := 0, args := 0, kdata := 0, code := mkRef 1 needX 0,
    vregs := 256, sregs := 128, waves := 1, ncl := 1, nstage := 1, nbar := 1, idempotent := false, scratch := 262144,
    entries := [0], gridX := 1, gridY := 1, gridZ := 1, tvec := 0, tsave := 0, seed := 0, det := false, queues := [],
    rasters := [], pkgs := [], rank := 0, startGen := none, clogRef := 0, clogLen := 0, complete := none, queueDom := 0,
    queuePriv := false, ranges := [], rangeSeen := [], rangeReported := [], rangeFetched := [],
    codeWords := [(0, 1, [header (2 + ext.toList.length), w] ++ ext.toList ++ [header 2, exit])], image := [], regions := [],
    started := true, lastTurn := 0, nextCluster := 1, relaunch := [], relaunches := [], token := 0, endedKeys := [],
    usedColl := false, ended := false, killed := false, reports := [], accepting := true, acceptor := 0 }

/-- A launch of one wave whose fragment stands at an instruction's words, past its block's header; the next step issues
it. -/
def State.placeWords (s : State) (w : DWord) (ext : Option DWord) : State :=
  let n := s.launches.fresh
  let g := s.workgroups.fresh
  let la := Launch.holding w ext
  let wg := la.workgroup n 0 0 0 0
  let wave := (la.wave g wg 0 0 s.tick).setPcs (BitVec.allOnes 96) 1
  { s with launches := s.launches.insert n la, workgroups := s.workgroups.insert g wg,
           waves := s.waves.insert (16 * g) { wave with frags := wave.frags.map fun f => { f with slot := true } },
           turns := .issue (16 * g) 0 :: s.turns }

/-- The words of a numbered instruction placed for the next step. -/
def State.placeNumber (s : State) (w : Nat) : State :=
  let first : DWord := BitVec.ofNat 64 w
  let second : DWord := BitVec.ofNat 64 (w / 2 ^ 64)
  s.placeWords first (if (decodeWord first second).needsExt then some second else none)

end Sys2Proof.Machine
end

