-- ==== Sys2Proof/Machine/Step.lean ====
section
/-!
DEFINITION. One step of the machine: the agent whose turn it is moves.
-/

namespace Sys2Proof.Machine

/-- One step: a fragment issues the instruction it stands at, or an engine, link or platform step happens; where
nothing can move, time passes. -/
def step (s : State) : Host.Outcome State Fault Refusal :=
  match s.nextTurn with
  | .run i t => exec i t
  | .moved t => .next t

/-- The state with one instruction, numbered as the opcode table numbers it, placed where the next step fetches: a
launch with one wave whose fragment stands at it (log entry 81). -/
def State.withFetchWord (s : State) (_nbits w : Nat) : State := s.placeNumber w

end Sys2Proof.Machine
end

