-- ==== Sys2Proof/Safety.lean ====
section
/-!
DEFINITION. What the statements speak of: when an instruction passes every check before its own effect, when its fragment
goes straight on to the next word, and the state that a completed instruction leaves.
-/

namespace Sys2Proof.Machine

/-- The fragment issues `i` now and every check that comes before the instruction's own effect passes: it may issue
(R34, R36), nothing it must wait for is outstanding (R37, R107, R249), its fetch is sound (R462), stages A, B and C find
nothing (R436), and some active lane passes its predicate (R93). -/
def State.admits (s : State) (e : Env) (i : Instr) : Bool :=
  e.canIssue && !s.entryOwed e.wk e.frag && (e.blocker i).isNone && (e.joinWait s i).isNone && !s.fetchPoisoned e i &&
    !s.bloadBusy e.wk i &&
    (Instr.stageAIn i (s.wordsLeft e)).isNone && (s.badCall e i).isNone && (e.stageB i).isNone && e.lanes != 0 && (e.stageC i).isNone

/-- The word after the instruction (R159). -/
def Env.seq (e : Env) (i : Instr) : CodeAddr := e.pc + BitVec.ofNat 39 (Instr.words i)

/-- The fragment goes straight on: the next word lies in its block, all its slices stand at the instruction and come to
the next word together, and no other fragment of the wave stands at a header. -/
def State.flows (s : State) (e : Env) (i : Instr) : Bool :=
  let w := e.wave
  let word := s.codeWord e.launch w.dom.toNat w.codeObj.toNat e.frag.block.toNat
  isHeader word && decide (e.frag.block.toNat < (e.seq i).toNat) &&
    decide ((e.seq i).toNat < e.frag.block.toNat + headerLength (word.getD 0)) &&
    (e.frag.slices != 0) && ((slicesOf e.frag.slices).all fun k => w.slicePc k == some e.pc) &&
    ((lanesOf (lanesOfSlices e.frag.slices &&& w.runnable &&& ~~~e.active)).all fun l =>
      decide ((e.seq i).toNat ≤ (w.pc l).toNat)) &&
    ((w.frags.filter fun g => g.id != e.fid).all fun g =>
      (g.slices &&& e.frag.slices) == 0 && g.slices != 0 && !w.atHeader g)

/-- Instruction i issues in environment e and passes every check before its own effect. -/
def State.Issues (s : State) (e : Env) (i : Instr) : Prop := s.env i = some e ∧ s.admits e i = true

/-- The state after the fragment has raised a cause at its instruction: trap entry (R415), with the instruction's own
address as the return address, and no effect of the instruction. -/
def State.trapped (s : State) (e : Env) (cause : Nat) (val : DWord) : State :=
  (s.enterTrap e.wk e.fid cause e.pc e.pc val).settle e.wk e.fid none false

/-- Instruction i issues in environment e, passes every check, and its fragment goes straight on after it. -/
def State.Runs (s : State) (e : Env) (i : Instr) : Prop := s.env i = some e ∧ s.admits e i = true ∧ s.flows e i = true

/-- A wave whose fragment has passed an instruction: its active lanes stand at the next word. -/
def Wave.past (w : Wave) (e : Env) (i : Instr) : Wave :=
  { w.withPcs (fun l => if e.active.getLsbD l then e.seq i else w.pc l) with
    frags := (w.frags.filter fun g => g.id != e.fid) ++
      [{ e.frag with issued := e.frag.issued + 1, wait := .none }],
    nextFrag := w.nextFrag + 1 }

/-- The state after an instruction that changes its wave by g: the issue is counted (R36, R107, R359), and the lanes have
passed it. -/
def State.completed (s : State) (e : Env) (i : Instr) (g : Wave → Wave) : State :=
  (s.countIssue e i).modWave e.wk fun w => (g w).past e i

/-- What register writes and conditions do to a wave: at once, or, for a long-latency instruction whose LA is not 0,
when its result lands (R107). -/
def Env.result (e : Env) (i : Instr) (ws : List RegWrite) (c : Cond) (w : Wave) : Wave :=
  let w := w.markBlocks ws
  if e.delays i then w.pushPending (e.pendingOf w i .result 0 [] ws c)
  else { w.applyAll ws with mode := c.intoMode w.mode }

/-- The state after an instruction whose whole effect is register writes and conditions. -/
def State.wrote (s : State) (e : Env) (i : Instr) (ws : List RegWrite) (c : Cond) : State :=
  s.completed e i (e.result i ws c)

/-- The state after an instruction that changes its wave by g: the issue is counted, its active lanes move to the next word,
and fragments form anew (R34, R35). -/
def State.after (s : State) (e : Env) (i : Instr) (g : Wave → Wave) : State :=
  ((s.countIssue e i).modWave e.wk g).advance e i [] false

/-- The state after a control transfer: the active lanes with a target of their own go there, the others to the next word,
and fragments form anew, with join targets where they part (R35, R159). -/
def State.transferred (s : State) (e : Env) (i : Instr) (target : Nat → Option CodeAddr) : State :=
  ((s.countIssue e i).modWave e.wk fun w => w.withPcs fun l =>
    if e.active.getLsbD l then (target l).getD (e.seq i) else w.pc l).settle e.wk e.fid (some (e.seq i)) true

/-- All lanes that take part in a gang stand at the instruction, in this fragment, none is parked at another gang
point, and no access of theirs is parked (R37, R40, R41). -/
def Env.gathered (e : Env) : Bool :=
  e.wave.partakers == e.active && (e.wave.gangParked &&& ~~~e.wave.trapParked) == 0 &&
    (e.wave.pend.find? fun p => p.unperformed && (p.slices &&& slicesOfLanes e.wave.partakers) != 0).isNone

/-- Gang point i issues with the whole gang present, the joining leaves it nothing to wait for (R37), and some lane that takes
part passes its predicate. -/
def State.Gangs (s : State) (e : Env) (i : Instr) : Prop :=
  s.Issues e i ∧ e.gathered = true ∧ (e.ganged i s).joinWait (s.ganged e i) i = none ∧ (e.ganged i s).lanes ≠ 0

/-- The state in which the wave holds its quadrant's accumulator claim (R53): it had it, or takes it. -/
def State.claimed (s : State) (e : Env) : State :=
  if s.claimant e = some e.wk then s
  else { s.modWave e.wk (fun w => { w with claim := true }) with claims := s.claims.insert e.quad e.wk }

/-- No other wave holds the claim of the wave's quadrant. -/
def State.claimFree (s : State) (e : Env) : Prop := s.claimant e = none ∨ s.claimant e = some e.wk

/-- What an instruction with accesses does to its wave: its pending record (R190). -/
def pends (p : Pending) (w : Wave) : Wave := (w.markBlocks p.writes).pushPending { p with id := w.nextPend }

/-- The state in which an update that returns nothing stands in its workgroup's commit log, in n bytes of the CLOG object, until the
token comes; its release is taken before it (R374). -/
def State.logged (s : State) (e : Env) (i : Instr) (accs : List Acc) (batch : Option Word) (n : Nat) : State :=
  let s1 := s.fillObjects e.core accs
  let s2 := if (memOrder i).1.getLsbD 1 then s1.release e.core e.wk e.who.slices (memOrder i).2 else s1
  let s3 := s2.writeLog e.core e.launch.dom e.launch (e.launch.logPlace e.wg) n
  { s3 with workgroups := s3.workgroups.modify e.wave.wg fun g =>
      { g with log := g.log ++ [⟨e.wk, e.who.slices, i, e.pc, accs, batch, 0⟩], logUsed := g.logUsed + n } }

/-- Where a Sluice packet of a type stands whole at a queue's RPTR and passes the checks made before its own (R346 to R349):
its queue and the packet. -/
def State.heads (s : State) (die q type : Nat) (d : QueueDesc) (p : Packet) : Prop :=
  let rptr := (s.queueState die q).rptr
  let h := natOfBytes ((d.ring rptr 8).map s.byte)
  s.queueOf die q = some d ∧ s.headType die q = some type ∧ (d.priv = true ∨ 2 < type) ∧
    readFields type (h / 2 ^ 32) (h / 2 ^ 16 % 2 ^ 16) ((d.ring rptr (h / 2 ^ 16 % 2 ^ 16)).map s.byte) = (p, none)

/-- The state after a packet with effect t has been taken: RPTR stands after it, in the queue and in memory (R346). -/
def State.took (s t : State) (die q : Nat) (d : QueueDesc) (p : Packet) : State :=
  (t.noteServed die q).writeRptr die q d ((s.queueState die q).rptr + BitVec.ofNat 64 p.len)

/-- The state after a packet's own check has rejected it: the rejection is recorded and the queue stopped (R491 to R494). -/
def State.refused (s : State) (die q type : Nat) (d : QueueDesc) (p : Packet) (code tag : Nat) : State :=
  (s.noteServed die q).reject die q d p.len
    { code := code, tag := tag, type := type, seq := p.seq, lid := p.num 0x14 0 4, gen := if type = 5 then p.num 0x1A 0 4 else 0 }

/-- A die's port delivers a good frame of an opcode for a connection that exists (R385, R388, R501). -/
def State.framed (s : State) (die op : Nat) (bs : List Byte) (d : ConnDesc) : Prop :=
  s.linkUp die = true ∧ frameGood bs = true ∧ (readFrame bs).op = op ∧ (readFrame bs).conn < 1024 ∧
    s.connDesc die (readFrame bs).conn = some d

end Sys2Proof.Machine
end

