-- ==== Sys2Proof/WellFormed.lean ====
section
/-!
DEFINITION. Which instructions are well-formed: those that the opcode map has, that carry an extension word exactly
where R91 wants one, and whose fields pass every test of stage A (R436 to R446).
-/

namespace Sys2Proof

/-- The instruction is a row of the opcode map (R109). -/
def Instr.encodable (i : Instr) : Bool := i.opcode.isSome

/-- The extension word is there exactly where the instruction needs one (R91). -/
def Instr.extFits (i : Instr) : Bool := i.ext.isSome == i.needsExt

/-- No sub-reason of stage A applies (R436, R437). -/
def Instr.legal (i : Instr) : Bool := (Instr.stageA i).isNone

/-- A well-formed instruction. -/
def WellFormed (i : Instr) : Bool := i.encodable && i.extFits && i.legal

end Sys2Proof
end

