-- ==== Sys2Proof/Certificates/Slice0/Obligations.lean ====
section
/-!
DEFINITION. The statements for the provers. An instruction "runs" in an environment (`State.Runs`) when every check before
its own effect passes and its fragment goes straight on to the next word; `State.wrote` and `State.completed` are then the
state it leaves, in which nothing differs but what they write out.
-/

open Sys2Proof Sys2Proof.Machine

/-! ## The machine as a whole -/

/-- R377, R393, R425, R459, R487, R64: what stands in the package after reset: the registers whose reset value the spec states, the
die counters at 0, and no launch, workgroup, wave or context. -/
def Obligations.ResetState : Prop :=
  let s := State.reset
  (∀ off ∈ [0x0008, 0x0010, 0x0018, 0x0020, 0x0028, 0x0030, 0x0060, 0x0068, 0x0070, 0x0078, 0x0600, 0x0700, 0x1000, 0x1008],
    s.reg off = 0) ∧
  s.reg 0x0038 = 0x5A7E ∧ s.reg 0x0708 = 4 ∧ s.reg 0x0920 = 10000 ∧ (∀ i < 64, s.reg (0x0400 + 8 * i) = mkIsland false false 100 100) ∧
  (∀ n < 8, s.sessionOpen n = false ∧ s.reg (0x2030 + 0x40 * n) = 4) ∧ (s.reg 0x0000).toNat / 2 ^ 16 = 0x0096 * 2 ^ 32 ∧
  (∀ d < 4, s.counter d = 0) ∧ s.launches = [] ∧ s.workgroups = [] ∧ s.waves = [] ∧ s.contexts = [] ∧ s.domBase = 0

/-- At reset both memories have their canonical form and list nothing. That an unlisted byte reads as 0 is the model's choice
(log entry 1). -/
def Obligations.ResetMemory : Prop :=
  State.reset.memOk = true ∧ State.reset.mem = [] ∧ State.reset.hostMem = [] ∧ ∀ a, State.reset.byte a = 0

/-- Every step keeps the canonical form of both memories: addresses strictly rising, no byte listed that an unlisted address
reads as, and device memory within the device's addresses. -/
def Obligations.MemoryInvariant : Prop :=
  ∀ s t : State, s.memOk = true → step s = .next t → t.memOk = true

/-- R7, R91 to R105, R109: decoding an instruction's bytes gives the instruction and leaves the bytes after it; and no bit of an
instruction word is lost in what the decoder reads from it. -/
def Obligations.RoundTrip : Prop :=
  (∀ (i : Instr) (rest : List Byte), i.encodable = true → i.extFits = true → decode (encodeBytes i ++ rest) = .ok (i, rest)) ∧
  (∀ w next : DWord, (decodeWord w next).word = w)

/-- R438: the words that are instructions: those of an assigned opcode of their class. An extension word is taken as it stands. Every
other word has no extension word, and at its issue raises cause 0x40 with its own address: sub-reason 0x02 for an unassigned opcode,
0x01 in classes 0xD and 0xE. -/
def Obligations.OpcodeMap : Prop :=
  ∀ w next : DWord,
    let c := w.toNat / 2 ^ 60
    let o := w.toNat / 2 ^ 52 % 256
    let i := decodeWord w next
    let assigned : Prop := c = 0 ∧ o ≤ 0x18 ∨ (c = 1 ∨ c = 2) ∧ o ≤ 0x1D ∨ c = 3 ∧ o ≤ 0x13 ∨ c = 4 ∧ (o ≤ 0x08 ∨ 0x10 ≤ o ∧ o ≤ 0x15) ∨
      c = 5 ∧ o ≤ 0x0E ∨ c = 6 ∧ o ≤ 0x09 ∨ c = 7 ∧ (o ≤ 0x03 ∨ 0x08 ≤ o ∧ o ≤ 0x0B) ∨ c = 8 ∧ o ≤ 0x0E ∨ c = 9 ∧ o ≤ 0x0F ∨
      (c = 10 ∨ c = 11 ∨ c = 12) ∧ o ≤ 0x0B
    (assigned → i.opcode = some (BitVec.ofNat 4 c, BitVec.ofNat 8 o) ∧ (i.needsExt = true → i.ext = some next ∧ Instr.words i = 2) ∧
      (i.needsExt = false → i.ext = none ∧ Instr.words i = 1)) ∧
    (¬ assigned → i = .notAnInstruction w ∧ Instr.words i = 1 ∧ (c ≤ 14 → Instr.stageA i = some (if c ≤ 12 then 0x02 else 0x01)) ∧
      ∀ (s : State) (e : Env), s.env i = some e → e.canIssue = true → s.entryOwed e.wk e.frag = false → e.blocker i = none →
        e.joinWait s i = none → s.fetchPoisoned e i = false → s.bloadBusy e.wk i = false → c ≤ 14 →
        exec i s = .next (s.trapped e 0x40 (illegalVal w (if c ≤ 12 then 0x02 else 0x01))))

/-- R89, R91: a turn of a fragment that holds a slot, or may take one, is exec of the instruction that the words at its address decode
to, with that fragment as the one that issues; the words are those of the launch's code object, eight bytes each, as memory held
them when the launch was accepted. The step counts its tick and the die counters besides (log entry 7). -/
def Obligations.StepRuns : Prop :=
  (∀ (s : State) (wk fid : Nat) (rest : List Turn) (i : Instr), s.turns = .issue wk fid :: rest →
    let s0 := { s with turns := rest }
    let s1 : State := { (s0.giveSlot wk fid).modWave wk fun w => w.modFrag fid fun f => { f with last := s.tick } with cur := some (wk, fid) }
    s0.maySlot wk fid = true → s1.fetched wk fid = some i → step s = exec i s1.pass) ∧
  (∀ (s : State) (e : Instr) (rest : List Turn), s.turns = .event e :: rest → step s = exec e { s with turns := rest }.pass) ∧
  (∀ (s : State) (wk fid : Nat) (w : Wave) (f : Frag) (wg : Workgroup) (la : Launch) (p : CodeAddr) (i : Instr),
    s.waves.find? wk = some w → w.frag? fid = some f → s.workgroups.find? w.wg = some wg → s.launches.find? wg.launch = some la →
    w.fragPc f = some p → la.words w.dom.toNat w.codeObj.toNat = none →
    let t := s.accepted la
    let entry := t.tableEntry w.dom.toNat w.codeObj.toNat
    let bytes (n : Nat) : List Byte := t.bytes (t.addrOf w.dom.toNat entry (8 * n)) 8
    p.toNat < entry.length / 8 → (i.needsExt = true → p.toNat + 1 < entry.length / 8) →
      decode (bytes p.toNat ++ bytes (p.toNat + 1)) = .ok (i, if i.needsExt then [] else bytes (p.toNat + 1)) →
      s.fetched wk fid = some i)

/-- Words of the spec's own examples, and what they decode to (R109, R124, R152, R159, R208, R216, R240, R276, R318, R341). -/
def Obligations.DecodedWords : Prop :=
  decodeWord 0x50681403FC000600 0 = .sld ⟨.s 2, .s 0, .none, 0, 0, false, 3, 0, 0, 0, none⟩ ∧
  decodeWord 0x1110263385FE0100 0 = .shl ⟨.v 4, .special .lane, .int 2, .none, 0, false, .z32, 0, false, 0, none⟩ ∧
  decodeWord 0x4020000068210000 0 = .bru ⟨6, .s 4, 1, 0, false, 0, 0, none⟩ ∧
  decodeWord 0x407000000FF00000 0 = .exit ⟨0, .none, 0, 0, false, 0, 0, none⟩ ∧
  decodeWord 0x119C0E33FFFE0040 0x30 = .cmp ⟨.k 1, .special .lane, .lit, .none, 0, false, .s32, 2, false, 0, some 0x30⟩ ∧
  decodeWord 0x3000180BFC020C00 0 = .cvt ⟨.v 3, .v 2, .none, .v 2, 0, false, .e4m3, 0, false, 0, none⟩ ∧
  decodeWord 0x50CFF7FBFC000070 0 = .fence ⟨.none, .none, .none, 0, 0, false, 0, 1, 3, 0, none⟩ ∧
  decodeWord 0x701E07FBFF080080 0x1000 = .copyin ⟨.int 0, .none, .lit, 0x108, 0, false, 0, 2, 0, 0, some 0x1000⟩ ∧
  decodeWord 0x800200103FC10300 0 = .mma ⟨2, .v 0, .v 64, .none, 1, 0, false, .f16, 0, 0, none⟩ ∧
  decodeWord 0x9010A00A15FE0082 0 = .sampleN ⟨.v 20, .v 2, .s 10, .none, 0, false, 8, 2, none⟩ ∧
  decodeWord 0xA000000000020000 0 = .bar ⟨2, 0, false, 0, 0, none⟩ ∧
  decodeWord 0xB050000000010000 0x3000000FF = .phint ⟨1, 0, false, 0, 0, some 0x3000000FF⟩

/-! Instructions on registers alone, each with how many registers from D on it writes and where its carry goes. -/

/-- The uniform instructions (class 0x0). -/
def Rules.onRegisters1 (f : VFmt) : List (Instr × Nat × Operand) :=
  [(.umul f, f.ty.regs, .none), (.umulhi f, f.ty.regs, .none), (.umin f, f.ty.regs, .none), (.umax f, f.ty.regs, .none),
   (.uand f, f.ty.regs, .none), (.uor f, f.ty.regs, .none), (.uxor f, f.ty.regs, .none), (.unot f, f.ty.regs, .none),
   (.ushl f, f.ty.regs, .none), (.ushr f, f.ty.regs, .none), (.usar f, f.ty.regs, .none), (.ubfe f, f.ty.regs, .none),
   (.ubfi f, f.ty.regs, .none), (.umov f, f.ty.regs, .none), (.uadd f, f.ty.regs, f.c), (.uaddc f, f.ty.regs, f.c),
   (.usub f, f.ty.regs, f.c), (.usubb f, f.ty.regs, f.c), (.umulw f, 2, .none), (.upopc f, 1, .none), (.uclz f, 1, .none),
   (.ucmp f, 1, .none), (.usel f, f.ty.regs, .none), (.udiv f, f.ty.regs, .none), (.urem f, f.ty.regs, .none)]

/-- The integer instructions, first part (class 0x1). -/
def Rules.onRegisters2 (f : VFmt) : List (Instr × Nat × Operand) :=
  [(.mul f, f.ty.regs, .none), (.mulhi f, f.ty.regs, .none), (.mad f, f.ty.regs, .none), (.min f, f.ty.regs, .none),
   (.max f, f.ty.regs, .none), (.abs f, f.ty.regs, .none), (.and f, f.ty.regs, .none), (.or f, f.ty.regs, .none),
   (.xor f, f.ty.regs, .none), (.not f, f.ty.regs, .none), (.shl f, f.ty.regs, .none), (.shr f, f.ty.regs, .none),
   (.sar f, f.ty.regs, .none), (.bfe f, f.ty.regs, .none), (.bfi f, f.ty.regs, .none), (.brev f, f.ty.regs, .none),
   (.mov f, f.ty.regs, .none), (.add f, f.ty.regs, f.c), (.addc f, f.ty.regs, f.c), (.sub f, f.ty.regs, f.c),
   (.subb f, f.ty.regs, f.c), (.mulw f, 2, .none), (.popc f, 1, .none), (.clz f, 1, .none), (.cmp f, 1, .none)]

/-- The rest of class 0x1 but for MOVX and MOVXS, and the first of class 0x2. -/
def Rules.onRegisters3 (f : VFmt) : List (Instr × Nat × Operand) :=
  [(.sel f, f.ty.regs, .none), (.div f, f.ty.regs, .none), (.rem f, f.ty.regs, .none), (.fadd f, f.ty.regs, .none),
   (.fsub f, f.ty.regs, .none), (.fmul f, f.ty.regs, .none), (.ffma f, f.ty.regs, .none), (.fmin f, f.ty.regs, .none),
   (.fmax f, f.ty.regs, .none), (.fabs f, f.ty.regs, .none), (.fneg f, f.ty.regs, .none), (.fcmp f, 1, .none),
   (.fclass f, 1, .none), (.frcp f, f.ty.regs, .none), (.frsq f, f.ty.regs, .none), (.fsqrt f, f.ty.regs, .none),
   (.fdiv f, f.ty.regs, .none), (.fexp2 f, f.ty.regs, .none), (.flog2 f, f.ty.regs, .none), (.fsin f, f.ty.regs, .none),
   (.fcos f, f.ty.regs, .none), (.ftanh f, f.ty.regs, .none), (.ffloor f, f.ty.regs, .none), (.fceil f, f.ty.regs, .none),
   (.ftrunc f, f.ty.regs, .none)]

/-- The rest of class 0x2, and class 0x3 up to REDUCE. -/
def Rules.onRegisters4 (f : VFmt) : List (Instr × Nat × Operand) :=
  [(.frint f, f.ty.regs, .none), (.ffrac f, f.ty.regs, .none), (.fldexp f, f.ty.regs, .none), (.fexpo f, 1, .none),
   (.fmant f, f.ty.regs, .none), (.fmed3 f, f.ty.regs, .none), (.fdot2 f, 1, .none), (.fdot4 f, 1, .none),
   (.cvt f, f.ty.regs, .none), (.cvtmx f, 1, .none), (.pack f, f.ty.regs, .none), (.unpack f, 1, .none), (.mxscale f, 1, .none),
   (.bperm f, 1, .none), (.shfl f, f.ty.regs, .none), (.shflup f, f.ty.regs, .none), (.shfldn f, f.ty.regs, .none),
   (.shflx f, f.ty.regs, .none), (.voteany f, 1, .none), (.voteall f, 1, .none), (.voteeq f, 1, .none), (.ballot f, 3, .none),
   (.scan f, f.ty.regs, .none), (.scanx f, f.ty.regs, .none), (.reduce f, f.ty.regs, .none)]

/-- The rest of class 0x3, the predicate logic, and the reference operations and queries of class 0xC that have no other effect. -/
def Rules.onRegisters5 (f : VFmt) : List (Instr × Nat × Operand) :=
  [(.compact f, f.ty.regs, .none), (.expand f, f.ty.regs, .none), (.rdfirst f, f.ty.regs, .none), (.pand f, 1, .none),
   (.por f, 1, .none), (.pxor f, 1, .none), (.pandn f, 1, .none), (.pnot f, 1, .none), (.pmov f, 1, .none),
   (.derive f, 2, .none), (.narrow f, 2, .none), (.refadd f, 2, .none), (.refoff f, f.ty.regs, .none), (.refset f, 2, .none),
   (.refcmp f, 1, .none), (.refchk f, 1, .none), (.objq f, 1, .none), (.tdesc f, 1, .none)]

/-- What an instruction on registers leaves as it was, with no trap enabled: memory, the writes on their way, the platform registers,
every launch, workgroup and other wave; and of its own wave every register but the destination's in the lanes that execute (and the
carry's, where it has one), the tiles, the special, trap and gate registers, the regions, and all of MODE but the sticky flags. -/
def Obligations.RegisterFrame : Prop :=
  ∀ (s : State) (e : Env) (f : VFmt),
    ∀ p ∈ Rules.onRegisters1 f ++ Rules.onRegisters2 f ++ Rules.onRegisters3 f ++ Rules.onRegisters4 f ++ Rules.onRegisters5 f,
      s.Runs e p.1 → e.wave.mode.extractLsb' 8 4 = 0 →
      ∃ (t : State) (w : Wave), exec p.1 s = .next t ∧ t.waves.find? e.wk = some w ∧
        (∀ k, k ≠ e.wk → t.waves.find? k = s.waves.find? k) ∧ (∀ a, t.byte a = s.byte a) ∧ t.bar0 = s.bar0 ∧ t.storeQ = s.storeQ ∧
        t.launches = s.launches ∧ t.workgroups = s.workgroups ∧
        (∀ r, ∀ l < 96, (∀ b, f.d = .v b → r < b.toNat ∨ b.toNat + p.2.1 ≤ r ∨ e.lanes.getLsbD l = false) → w.vreg r l = e.wave.vreg r l) ∧
        (∀ r, (∀ b, (f.d = .s b → r < b.toNat ∨ b.toNat + p.2.1 ≤ r) ∧ (p.2.2 = .s b → r ≠ b.toNat)) → w.sreg r = e.wave.sreg r) ∧
        (∀ r l, (∀ b, f.d = .k b ∨ p.2.2 = .k b → r ≠ b.toNat ∨ e.lanes.getLsbD l = false) → (w.kreg r).getLsbD l = (e.wave.kreg r).getLsbD l) ∧
        (∀ r, ∀ l < 96, (∀ b, f.d = .x b → r ≠ b.toNat ∨ e.lanes.getLsbD l = false) → w.xreg r l = e.wave.xreg r l) ∧
        w.tiles = e.wave.tiles ∧ w.claim = e.wave.claim ∧ w.status = e.wave.status ∧ w.dom = e.wave.dom ∧ w.codeObj = e.wave.codeObj ∧
        w.tvec = e.wave.tvec ∧ w.tsave = e.wave.tsave ∧ w.bank1 = e.wave.bank1 ∧ w.bank2 = e.wave.bank2 ∧ w.regions = e.wave.regions ∧
        w.gates = e.wave.gates ∧ w.live = e.wave.live ∧ w.gangParked = e.wave.gangParked ∧ w.join = e.wave.join ∧
        (∀ b < 32, b < 12 ∨ 15 < b → w.mode.getLsbD b = e.wave.mode.getLsbD b)

/-- R54: the state of a wave at its start, as it stands when its workgroup's waves begin at their entry: registers 0 but s0:s1, the reference to the argument object
with its read right alone; MODE, STATUS, TVEC, TSAVE, the trap banks, the regions and the split table. (TSAVE's OFFSET then moves to the
wave's own save block.) -/
def Obligations.WaveStart : Prop :=
  (∀ (la : Launch) (g : Nat) (wg : Workgroup) (no slotNo tick : Nat),
    let w := la.wave g wg no slotNo tick
    let args : Nat := (w.sreg 1).toNat * 2 ^ 32 + (w.sreg 0).toNat
    args % 2 ^ 42 = la.args.toNat % 2 ^ 42 ∧ args / 2 ^ 46 = la.args.toNat / 2 ^ 46 ∧
    args / 2 ^ 42 % 16 = (if la.args.getLsbD 45 then 8 else 0) ∧
    (∀ n, 2 ≤ n → w.sreg n = 0) ∧ (∀ n l, w.vreg n l = 0) ∧ (∀ n, 1 ≤ n → w.kreg n = 0) ∧ (∀ n l, w.xreg n l = 0) ∧
    (∀ t i j, w.tile t i j = 0) ∧ w.claim = false ∧
    w.mode.extractLsb' 0 3 = 1 ∧ w.mode.getLsbD 24 = la.det ∧ w.mode.extractLsb' 16 8 = la.seed ∧
    w.mode.extractLsb' 3 13 = 0 ∧ w.mode.extractLsb' 25 7 = 0 ∧ w.status = 0 ∧ w.tvec = la.tvec ∧
    w.tsave = withOffset la.tsave (refOffset la.tsave + 1024 * (no + la.waves * (wg.index + la.gridX * la.gridY * la.gridZ * wg.stage))) ∧
    w.bank1 = TrapBank.zero ∧ w.bank2 = TrapBank.zero ∧ w.regions = [] ∧
    w.live = BitVec.allOnes 96 ∧ w.gangParked = 0 ∧ w.join = [] ∧ w.hold = 0 ∧
    (∀ l < 96, w.pc l = BitVec.ofNat 39 (la.entries.getD wg.stage 0)) ∧
    ∃ f, w.frags = [f] ∧ f.slices = BitVec.allOnes 24 ∧ w.active f = BitVec.allOnes 96) ∧
  (∀ (s : State) (g : Nat) (wg : Workgroup) (la : Launch), s.workgroups.find? g = some wg → s.launches.find? wg.launch = some la →
    ∃ s0 : State, (∀ no < la.waves, ∃ slotNo, s0.waves.find? (16 * g + no) = some (la.wave g wg no slotNo s.tick)) ∧
      s.beginWaves g = (waveKeys g la.waves).foldl (fun s wk => (State.arrive wk arriveFuel s).haltWave wk la.ctx.toNat 1) s0)

/-! ## Class 0x0: uniform instructions -/

/-- R111, R117: a uniform instruction reads its operands once and writes the result to its scalar destination, the low
element first where the type is packed. -/
def Rules.UniformResults : Prop :=
  ∀ (s : State) (e : Env) (f : VFmt),
    ∀ p ∈ [(Instr.umul f, opMul), (.umulhi f, opMulHi), (.umin f, opMin), (.umax f, opMax), (.uand f, opAnd),
      (.uor f, opOr), (.uxor f, opXor), (.unot f, opNot), (.ushl f, opShl), (.ushr f, opShr), (.usar f, opSar),
      (.ubfe f, opBfe), (.ubfi f, opBfi), (.umov f, opMov)],
    s.Runs e p.1 →
      exec p.1 s = .next (s.wrote e p.1 (writeTo f.ty f.d 0 (p.2.run f.ty f.sat (e.read f.ty f.a e.first)
        (e.read f.ty f.b e.first) (e.read f.ty f.c e.first))) .none)

/-- R118: the uniform adds and subtracts wrap modulo 2^w; a carry or borrow goes to the scalar register C, where one is
named, as 0 or 1, and UADDC and USUBB take bit 0 of C in. -/
def Rules.UniformCarries : Prop :=
  ∀ (s : State) (e : Env) (f : VFmt),
    let a := (e.read f.ty f.a e.first).toNat
    let b := (e.read f.ty f.b e.first).toNat
    let k := (e.readZ f.c e.first) % 2
    let m := 2 ^ f.ty.width
    let put (x : Nat) (c : Bool) : List RegWrite := writeTo f.ty f.d 0 (BitVec.ofNat 64 x) ++ writeTo .z32 f.c 0 (if c then 1 else 0)
    (s.Runs e (.uadd f) → exec (.uadd f) s = .next (s.wrote e (.uadd f) (put ((a + b) % m) (m ≤ a + b)) .none)) ∧
    (s.Runs e (.uaddc f) → exec (.uaddc f) s = .next (s.wrote e (.uaddc f) (put ((a + b + k) % m) (m ≤ a + b + k)) .none)) ∧
    (s.Runs e (.usub f) → exec (.usub f) s =
      .next (s.wrote e (.usub f) (put ((a - b : Int) % m).toNat (a < b)) .none)) ∧
    (s.Runs e (.usubb f) → exec (.usubb f) s =
      .next (s.wrote e (.usubb f) (put ((a - b - k : Int) % m).toNat (a < b + k)) .none))

/-- R119, R123, R124, R125: UMULW writes the whole product to a pair, UPOPC and UCLZ a count, UCMP 1 or 0, and USEL one
of two values by a scalar register. -/
def Rules.UniformSpecials : Prop :=
  ∀ (s : State) (e : Env) (f : VFmt),
    let a := e.read f.ty f.a e.first
    let b := e.read f.ty f.b e.first
    let v := f.ty.value
    let rel (x y : Nat) : Bool := [decide (v x = v y), decide (v x ≠ v y), decide (v x < v y), decide (v x ≤ v y),
      decide (v y < v x), decide (v y ≤ v x), decide (Nat.land x y ≠ 0)].getD f.rnd.toNat false
    (s.Runs e (.umulw f) → exec (.umulw f) s = .next (s.wrote e (.umulw f)
      (writeTo .z64 f.d 0 (BitVec.ofInt 64 (f.ty.value a.toNat * f.ty.value b.toNat))) .none)) ∧
    (s.Runs e (.upopc f) → exec (.upopc f) s = .next (s.wrote e (.upopc f)
      (writeTo .z32 f.d 0 (BitVec.ofNat 64 ((List.range f.ty.width).countP fun j => a.toNat.testBit j))) .none)) ∧
    (s.Runs e (.uclz f) → exec (.uclz f) s = .next (s.wrote e (.uclz f)
      (writeTo .z32 f.d 0 (BitVec.ofNat 64 (f.ty.width - bitLen a.toNat))) .none)) ∧
    (s.Runs e (.ucmp f) → exec (.ucmp f) s = .next (s.wrote e (.ucmp f)
      (writeTo .z32 f.d 0 (if rel a.toNat b.toNat then 1 else 0)) .none)) ∧
    (s.Runs e (.usel f) → exec (.usel f) s = .next (s.wrote e (.usel f)
      (writeTo f.ty f.d 0 (if e.readZ f.c e.first = 0 then b else a)) .none))

/-- R111, R117 to R119, R123 to R125: the uniform instructions but for division. -/
def Obligations.UniformInstructions : Prop := Rules.UniformResults ∧ Rules.UniformCarries ∧ Rules.UniformSpecials

/-- R120, R121: a quotient truncates toward zero and a remainder has the dividend's sign; with a zero divisor UDIV and
UREM trap with cause 0x20 where TE.DZ is 1, and else write 0 and the dividend and set SF.DZ. -/
def Rules.UniformDivision : Prop :=
  ∀ (s : State) (e : Env) (f : VFmt), f.ty.width = 32 ∨ f.ty.width = 64 →
    let a := f.ty.value (f.ty.elem (e.read f.ty f.a e.first) 0)
    let b := f.ty.value (f.ty.elem (e.read f.ty f.b e.first) 0)
    let put (x : Int) : List RegWrite := writeTo f.ty f.d 0 (BitVec.ofNat 64 (x % 2 ^ f.ty.width).toNat)
    ∀ p ∈ [(Instr.udiv f, a.tdiv b, (0 : Int)), (.urem f, a.tmod b, a)],
      (s.Runs e p.1 → e.read f.ty f.b e.first ≠ 0 → exec p.1 s = .next (s.wrote e p.1 (put p.2.1) .none)) ∧
      (s.Issues e p.1 → e.read f.ty f.b e.first = 0 → e.wave.mode.getLsbD 8 = true →
        exec p.1 s = .next (s.trapped e 0x20 127)) ∧
      (s.Runs e p.1 → e.read f.ty f.b e.first = 0 → e.wave.mode.getLsbD 8 = false →
        exec p.1 s = .next (s.wrote e p.1 (put p.2.2) { Cond.none with dz := true }))

/-! ## Class 0x1: integer instructions -/

/-- R112, R117: an integer instruction writes, in every lane that executes, the results of the lane's elements to its
destination. -/
def Rules.IntegerResults : Prop :=
  ∀ (s : State) (e : Env) (f : VFmt),
    ∀ p ∈ [(Instr.mul f, opMul), (.mulhi f, opMulHi), (.mad f, opMad), (.min f, opMin), (.max f, opMax), (.abs f, opAbs),
      (.and f, opAnd), (.or f, opOr), (.xor f, opXor), (.not f, opNot), (.shl f, opShl), (.shr f, opShr), (.sar f, opSar),
      (.bfe f, opBfe), (.bfi f, opBfi), (.brev f, opBrev), (.mov f, opMov), (.fabs f, opFabs), (.fneg f, opFneg)],
    s.Runs e p.1 →
      exec p.1 s = .next (s.wrote e p.1 ((lanesOf e.lanes).flatMap fun l => writeTo f.ty f.d l
        (p.2.run f.ty f.sat (e.read f.ty f.a l) (e.read f.ty f.b l) (e.read f.ty f.c l))) .none)

/-- R117, R118: ADD and SUB without C wrap or saturate each element; with C, and ADDC and SUBB always, they wrap modulo
2^w and write the lane's carry or borrow to predicate C, which ADDC and SUBB also take in. -/
def Rules.IntegerCarries : Prop :=
  ∀ (s : State) (e : Env) (f : VFmt),
    let a (l : Nat) := (e.read f.ty f.a l).toNat
    let b (l : Nat) := (e.read f.ty f.b l).toNat
    let k (l : Nat) : Nat := if e.pbit f.c l then 1 else 0
    let m := 2 ^ f.ty.width
    let put (x : Nat → Nat) (c : Nat → Bool) : List RegWrite :=
      (lanesOf e.lanes).flatMap fun l => writeTo f.ty f.d l (BitVec.ofNat 64 (x l)) ++ writeP f.c l (c l)
    (∀ p ∈ [(Instr.add f, opAdd), (.sub f, opSub)], s.Runs e p.1 → f.c = .none →
      exec p.1 s = .next (s.wrote e p.1 ((lanesOf e.lanes).flatMap fun l => writeTo f.ty f.d l
        (p.2.run f.ty f.sat (e.read f.ty f.a l) (e.read f.ty f.b l) 0)) .none)) ∧
    (s.Runs e (.add f) → f.c ≠ .none → exec (.add f) s = .next (s.wrote e (.add f)
      (put (fun l => (a l + b l) % m) fun l => m ≤ a l + b l) .none)) ∧
    (s.Runs e (.addc f) → exec (.addc f) s = .next (s.wrote e (.addc f)
      (put (fun l => (a l + b l + k l) % m) fun l => m ≤ a l + b l + k l) .none)) ∧
    (s.Runs e (.sub f) → f.c ≠ .none → exec (.sub f) s = .next (s.wrote e (.sub f)
      (put (fun l => ((a l - b l : Int) % m).toNat) fun l => a l < b l) .none)) ∧
    (s.Runs e (.subb f) → exec (.subb f) s = .next (s.wrote e (.subb f)
      (put (fun l => ((a l - b l - k l : Int) % m).toNat) fun l => a l < b l + k l) .none))

/-- R119, R123, R124, R125: MULW writes the product to a pair, POPC and CLZ a count to one register, CMP a predicate bit,
SEL one of two values by a predicate, in every lane that executes. -/
def Rules.IntegerSpecials : Prop :=
  ∀ (s : State) (e : Env) (f : VFmt),
    let a (l : Nat) := e.read f.ty f.a l
    let b (l : Nat) := e.read f.ty f.b l
    let each (g : Nat → List RegWrite) : List RegWrite := (lanesOf e.lanes).flatMap g
    let v := f.ty.value
    let rel (x y : Nat) : Bool := [decide (v x = v y), decide (v x ≠ v y), decide (v x < v y), decide (v x ≤ v y),
      decide (v y < v x), decide (v y ≤ v x), decide (Nat.land x y ≠ 0)].getD f.rnd.toNat false
    (s.Runs e (.mulw f) → exec (.mulw f) s = .next (s.wrote e (.mulw f) (each fun l =>
      writeTo .z64 f.d l (BitVec.ofInt 64 (f.ty.value (a l).toNat * f.ty.value (b l).toNat))) .none)) ∧
    (s.Runs e (.popc f) → exec (.popc f) s = .next (s.wrote e (.popc f) (each fun l =>
      writeTo .z32 f.d l (BitVec.ofNat 64 ((List.range f.ty.width).countP fun j => (a l).toNat.testBit j))) .none)) ∧
    (s.Runs e (.clz f) → exec (.clz f) s = .next (s.wrote e (.clz f) (each fun l =>
      writeTo .z32 f.d l (BitVec.ofNat 64 (f.ty.width - bitLen (a l).toNat))) .none)) ∧
    (s.Runs e (.cmp f) → exec (.cmp f) s = .next (s.wrote e (.cmp f) (each fun l =>
      writeP f.d l (rel (a l).toNat (b l).toNat)) .none)) ∧
    (s.Runs e (.sel f) → exec (.sel f) s = .next (s.wrote e (.sel f) (each fun l =>
      writeTo f.ty f.d l (if e.pbit f.c l then a l else b l)) .none))

/-- R112, R117 to R119, R123 to R125: the integer instructions but for division and indexed moves. -/
def Obligations.IntegerInstructions : Prop := Rules.IntegerResults ∧ Rules.IntegerCarries ∧ Rules.IntegerSpecials

/-- R120, R121: the division of R120 in every lane that executes; a zero divisor in some lane traps with cause 0x20, its
value the lowest such lane, where TE.DZ is 1, and else sets SF.DZ once. -/
def Rules.IntegerDivision : Prop :=
  ∀ (s : State) (e : Env) (f : VFmt), f.ty.width = 32 ∨ f.ty.width = 64 →
    let a (l : Nat) := f.ty.value (f.ty.elem (e.read f.ty f.a l) 0)
    let b (l : Nat) := f.ty.value (f.ty.elem (e.read f.ty f.b l) 0)
    let zero (l : Nat) : Prop := e.read f.ty f.b l = 0
    ∀ p ∈ [(Instr.div f, fun l => if e.read f.ty f.b l = 0 then (0 : Int) else (a l).tdiv (b l)),
        (.rem f, fun l => if e.read f.ty f.b l = 0 then a l else (a l).tmod (b l))],
      let ws : List RegWrite := (lanesOf e.lanes).flatMap fun l =>
        writeTo f.ty f.d l (BitVec.ofNat 64 (p.2 l % 2 ^ f.ty.width).toNat)
      (s.Runs e p.1 → (∀ l ∈ lanesOf e.lanes, ¬ zero l) → exec p.1 s = .next (s.wrote e p.1 ws .none)) ∧
      (∀ l ∈ lanesOf e.lanes, zero l → (∀ j ∈ lanesOf e.lanes, zero j → l ≤ j) →
        (s.Issues e p.1 → e.wave.mode.getLsbD 8 = true → exec p.1 s = .next (s.trapped e 0x20 (BitVec.ofNat 64 l))) ∧
        (s.Runs e p.1 → e.wave.mode.getLsbD 8 = false →
          exec p.1 s = .next (s.wrote e p.1 ws { Cond.none with dz := true })))

/-- R120, R121: division in both classes. -/
def Obligations.Division : Prop := Rules.UniformDivision ∧ Rules.IntegerDivision

/-- R126: MOVX reads, and MOVXS writes, in each lane the vector register base + x × g that the lane's index register x
reaches, for values of g registers. An index outside a window that B gives is cause 0x24, with the lowest such lane and its
index; else a register outside the allocation is cause 0x40 with sub-reason 0x11; no lane then writes. -/
def Obligations.IndexedMoves : Prop :=
  ∀ (s : State) (e : Env) (f : VFmt) (base : BitVec 8) (n : BitVec 2), f.c = .x n →
    let x (l : Nat) : Int := (e.wave.xreg n.toNat l).toInt
    let r (l : Nat) : Int := base.toNat + x l * f.ty.regs
    let reg (l : Nat) : Operand := .v (BitVec.ofNat 8 (r l).toNat)
    let outside (l : Nat) : Prop := ∃ len, windowLength e f.b = some len ∧ ¬ (0 ≤ x l ∧ x l < len)
    let beyond (l : Nat) : Prop := r l < 0 ∨ e.launch.vregs < r l + f.ty.regs
    ((∀ l ∈ lanesOf e.lanes, ¬ outside l ∧ ¬ beyond l) →
      (s.Runs e (.movx f) → f.a = .v base → exec (.movx f) s = .next (s.wrote e (.movx f)
        ((lanesOf e.lanes).flatMap fun l => writeTo f.ty f.d l (e.read f.ty (reg l) l)) .none)) ∧
      (s.Runs e (.movxs f) → f.d = .v base → exec (.movxs f) s = .next (s.wrote e (.movxs f)
        ((lanesOf e.lanes).flatMap fun l => writeTo f.ty (reg l) l (e.read f.ty f.a l)) .none))) ∧
    (∀ p ∈ [(Instr.movx f, f.a), (.movxs f, f.d)], s.Issues e p.1 → p.2 = .v base →
      (∀ l ∈ lanesOf e.lanes, outside l → (∀ j ∈ lanesOf e.lanes, outside j → l ≤ j) →
        exec p.1 s = .next (s.trapped e 0x24 (BitVec.ofNat 64 (2 ^ 16 * (BitVec.ofInt 16 (x l)).toNat + l)))) ∧
      ((∀ l ∈ lanesOf e.lanes, ¬ outside l) → (∃ l ∈ lanesOf e.lanes, beyond l) →
        exec p.1 s = .next (s.trapped e 0x40 (illegalVal p.1.word 0x11))))

/-! ## Element arithmetic -/

/-- R116, R117, R119, R120, R122, R135: what each operation leaves in element i of its result, from the operands' elements as
the type reads them: exact arithmetic, clamped to the type's range under SAT, then wrapped; FABS clears an element's sign bit and
FNEG changes it, and both leave its other bits. -/
def Rules.ElementArithmetic : Prop :=
  ∀ (t : Ty) (sat : Bool) (x y z : DWord) (i : Nat), 0 < t.width → i < t.elems →
    let a := t.value (t.elem x i)
    let b := t.value (t.elem y i)
    let c := t.value (t.elem z i)
    let w := t.width
    let clamp (v : Int) : Int := if sat then min (max v t.lo) t.hi else v
    let code (v : Int) : Nat := (clamp v % 2 ^ w).toNat
    t.elem (opAdd.run t sat x y z) i = code (a + b) ∧
    t.elem (opSub.run t sat x y z) i = code (a - b) ∧
    t.elem (opMul.run t sat x y z) i = code (a * b) ∧
    t.elem (opMad.run t sat x y z) i = code (a * b + c) ∧
    t.elem (opMin.run t sat x y z) i = code (min a b) ∧
    t.elem (opMax.run t sat x y z) i = code (max a b) ∧
    t.elem (opAbs.run t sat x y z) i = code |a| ∧
    t.elem (opMulHi.run t false x y z) i = ((a * b / 2 ^ w) % 2 ^ w).toNat ∧
    t.elem (opMov.run t false x y z) i = t.elem x i ∧
    t.elem (opNot.run t false x y z) i = 2 ^ w - 1 - t.elem x i ∧
    (∀ n < w, (t.elem (opAnd.run t false x y z) i).testBit n = ((t.elem x i).testBit n && (t.elem y i).testBit n)) ∧
    (∀ n < w, (t.elem (opOr.run t false x y z) i).testBit n = ((t.elem x i).testBit n || (t.elem y i).testBit n)) ∧
    (∀ n < w, (t.elem (opXor.run t false x y z) i).testBit n = ((t.elem x i).testBit n != (t.elem y i).testBit n)) ∧
    (∀ n < w, (t.elem (opBrev.run t false x y z) i).testBit n = (t.elem x i).testBit (w - 1 - n)) ∧
    (∀ n < w, (t.elem (opShl.run t false x y z) i).testBit n = (decide (t.elem y i ≤ n) && (t.elem x i).testBit (n - t.elem y i))) ∧
    (∀ n < w, (t.elem (opShr.run t false x y z) i).testBit n = (t.elem x i).testBit (n + t.elem y i)) ∧
    (∀ n < w, (t.elem (opSar.run t false x y z) i).testBit n = (t.elem x i).testBit (min (n + t.elem y i) (w - 1))) ∧
    (∀ n < w, (t.elem (opFabs.run t false x y z) i).testBit n = ((t.elem x i).testBit n && decide (n ≠ w - 1))) ∧
    (∀ n < w, (t.elem (opFneg.run t false x y z) i).testBit n = ((t.elem x i).testBit n != decide (n = w - 1)))

/-- R123: the bit-field operations, bit by bit: BFE takes `width` bits from `offset` on and extends them by the type's
signedness; BFI puts the low bits of b at `offset` over a. -/
def Rules.BitFields : Prop :=
  ∀ (t : Ty) (x y z : DWord), t.elems = 1 → t.width = 32 ∨ t.width = 64 → ∀ n < t.width,
    let a := t.elem x 0
    let w := t.width
    let off := t.elem y 0 % 256
    let wd := min (t.elem z 0 % 256) w
    let bit (j : Nat) : Bool := if j < w then a.testBit j else t.signed && a.testBit (w - 1)
    let off' := t.elem z 0 % 256
    let wd' := t.elem z 0 / 256 % 256
    (t.elem (opBfe.run t false x y z) 0).testBit n =
      (if n < wd then bit (off + n) else t.signed && decide (0 < wd) && bit (off + wd - 1)) ∧
    (t.elem (opBfi.run t false x y z) 0).testBit n =
      (if off' ≤ n ∧ n < off' + wd' then (t.elem y 0).testBit (n - off') else a.testBit n)

/-- R116, R117, R119, R122, R123, R135: the arithmetic of one element. -/
def Obligations.Elements : Prop := Rules.ElementArithmetic ∧ Rules.BitFields

/-! ## Class 0x2: floating-point instructions -/

/-- R58, R99: the rounding mode of a float instruction: RND, or MODE.RM where RND is 0. -/
def Rules.RoundingMode : Prop :=
  ∀ (e : Env) (rnd : BitVec 3),
    (rnd = 0 → e.rounding rnd = (e.wave.mode.extractLsb' 0 3).toNat) ∧ (rnd ≠ 0 → e.rounding rnd = rnd.toNat)

/-- R59, R142, R279: a float instruction with no enabled condition writes its results and ORs the conditions of all its
elements into MODE.SF; under stochastic rounding each lane's draw counter goes up by one; where the trap enable of a
condition is 1 it writes nothing and traps with the lowest-numbered such cause, its value the lowest lane and element. -/
def Obligations.FloatResults : Prop :=
  ∀ (s : State) (e : Env) (f : VFmt),
    ∀ p ∈ [(Instr.fadd f, opFadd, true), (.fsub f, opFsub, true), (.fmul f, opFmul, true), (.ffma f, opFfma, true),
      (.fmin f, opFmin, false), (.fmax f, opFmax, false), (.frcp f, unary FFmt.rcpR, true),
      (.frsq f, unary FFmt.rsqR, true), (.fsqrt f, unary FFmt.sqrtR, true), (.fdiv f, opFdiv, true),
      (.fexp2 f, unary FFmt.exp2R, true), (.flog2 f, unary FFmt.log2R, true), (.fsin f, unary FFmt.sinR, true),
      (.fcos f, unary FFmt.cosR, true), (.ftanh f, unary FFmt.tanhR, true), (.ffloor f, opInt .rdn, false),
      (.fceil f, opInt .rup, false), (.ftrunc f, opInt .rz, false), (.frint f, unary FFmt.intR, true),
      (.ffrac f, unary FFmt.fracR, true), (.fmant f, opFmant, false), (.fmed3 f, opFmed3, false)],
    let t := f.ty
    let fz := e.wave.flushes t
    let code := if p.2.2 then e.rounding f.rnd else 1
    let v (o : Operand) (l i : Nat) : FVal := t.fmt.decodeFz fz (t.elem (e.read t o l) i)
    let r (l i : Nat) : FRes :=
      let x := p.2.1 t.fmt fz (modeOf code (e.draw l 0) i t.elems) (v f.a l i) (v f.b l i) (v f.c l i)
      if f.sat then t.fmt.clamp01 x else x
    let conds : Cond := ((lanesOf e.lanes).flatMap fun l => (List.range t.elems).map fun i => (r l i).cond).foldl Cond.or .none
    let raised : Option Nat := (conds.enabled (Cond.enables e.wave.mode)).floatCause
    let ws : List RegWrite := (lanesOf e.lanes).flatMap fun l =>
      writeTo t f.d l (t.join ((List.range t.elems).map fun i => (r l i).code))
    (s.Runs e p.1 → raised = none → p.2.2 = true ∧ code = 6 →
      exec p.1 s = .next ((e.reserve 1 s).wrote e p.1 ws conds)) ∧
    (s.Runs e p.1 → raised = none → ¬ (p.2.2 = true ∧ code = 6) → exec p.1 s = .next (s.wrote e p.1 ws conds)) ∧
    (∀ cause, s.Issues e p.1 → raised = some cause → ∀ l ∈ lanesOf e.lanes, ∀ i < t.elems,
      (r l i).cond.has cause = true →
      (∀ m ∈ lanesOf e.lanes, ∀ j < t.elems, (r m j).cond.has cause = true → l < m ∨ l = m ∧ i ≤ j) →
        exec p.1 s = .next (s.trapped e cause (BitVec.ofNat 64 (128 * i + l))))

/-- R146, R147, R150: FCMP and FCLASS write a predicate bit per lane, FLDEXP a × 2^b with one rounding, FEXPO the exponent;
an ordered FCMP of a NaN raises NV. With no enabled condition each writes its results and raises its conditions. -/
def Rules.FloatSpecials : Prop :=
  ∀ (s : State) (e : Env) (f : VFmt),
    let t := f.ty
    let fz := e.wave.flushes t
    let code := e.rounding f.rnd
    let v (o : Operand) (l : Nat) : FVal := t.fmt.decodeFz fz (t.elem (e.read t o l) 0)
    let quiet (c : Cond) : Prop := (c.enabled (Cond.enables e.wave.mode)).floatCause = none
    let cmp (l : Nat) := floatCompare f.rnd (v f.a l) (v f.b l)
    let cmpConds : Cond := ((lanesOf e.lanes).map fun l => (cmp l).2).foldl Cond.or .none
    let ld (l : Nat) := t.fmt.ldexpR fz (modeOf code (e.draw l 0) 0 1) (v f.a l) (lowWord (e.read .s32 f.b l)).toInt
    let ldConds : Cond := ((lanesOf e.lanes).map fun l => (ld l).cond).foldl Cond.or .none
    (s.Runs e (.fcmp f) → quiet cmpConds → exec (.fcmp f) s = .next (s.wrote e (.fcmp f)
      ((lanesOf e.lanes).flatMap fun l => writeP f.d l (cmp l).1) cmpConds)) ∧
    (s.Runs e (.fclass f) → exec (.fclass f) s = .next (s.wrote e (.fclass f) ((lanesOf e.lanes).flatMap fun l =>
      writeP f.d l ((e.readZ f.b l).testBit (t.fmt.classBit (t.fmt.decode (t.elem (e.read t f.a l) 0))))) .none)) ∧
    (s.Runs e (.fexpo f) → exec (.fexpo f) s = .next (s.wrote e (.fexpo f) ((lanesOf e.lanes).flatMap fun l =>
      writeTo .z32 f.d l ((v f.a l).expo.zeroExtend 64)) .none)) ∧
    (s.Runs e (.fldexp f) → quiet ldConds → code ≠ 6 → exec (.fldexp f) s = .next (s.wrote e (.fldexp f)
      ((lanesOf e.lanes).flatMap fun l => writeTo t f.d l (BitVec.ofNat 64 (ld l).code)) ldConds)) ∧
    (s.Runs e (.fldexp f) → quiet ldConds → code = 6 → exec (.fldexp f) s = .next ((e.reserve 1 s).wrote e (.fldexp f)
      ((lanesOf e.lanes).flatMap fun l => writeTo t f.d l (BitVec.ofNat 64 (ld l).code)) ldConds))

/-- R151: FDOT2 and FDOT4 add the exact products of a lane's elements and its f32 addend, and round the sum once. -/
def Rules.DotProducts : Prop :=
  ∀ (s : State) (e : Env) (f : VFmt), ∀ i ∈ [Instr.fdot2 f, .fdot4 f],
    let t := f.ty
    let v (o : Operand) (l j : Nat) : FVal := t.fmt.decodeFz (e.wave.flushes t) (t.elem (e.read t o l) j)
    let fz := e.wave.flushes .f32
    let code := e.rounding f.rnd
    let r (l : Nat) : FRes :=
      let x := binary32.sumR fz (modeOf code (e.draw l 0) 0 1)
        (((List.range t.elems).map fun j => FVal.mul (v f.a l j) (v f.b l j)) ++
          [(binary32.decodeFz fz (Ty.f32.elem (e.read .f32 f.c l) 0), false)])
      if f.sat then binary32.clamp01 x else x
    let conds : Cond := ((lanesOf e.lanes).map fun l => (r l).cond).foldl Cond.or .none
    s.Runs e i → (conds.enabled (Cond.enables e.wave.mode)).floatCause = none →
      exec i s = .next ((if code = 6 then e.reserve 1 s else s).wrote e i
        ((lanesOf e.lanes).flatMap fun l => writeTo .f32 f.d l (BitVec.ofNat 64 (r l).code)) conds)

/-- R58, R99, R146, R147, R150, R151: the rounding mode, and the float instructions with a form of their own. -/
def Obligations.FloatForms : Prop := Rules.RoundingMode ∧ Rules.FloatSpecials ∧ Rules.DotProducts

/-! ## Class 0x3: conversions and lanes -/

/-- R153 to R157: CVT, CVTMX, PACK, UNPACK and MXSCALE write their result in every lane that executes and raise the
conditions of its elements, where no raised condition is enabled; under stochastic rounding, where the instruction rounds to a float
format, each lane's draw counter goes up by one. That PACK to an integer type takes no draw (log 23), and that a widening CVT with
SAT is admitted and converts as without it (log 96), is the model's reading. -/
def Obligations.Conversions : Prop :=
  ∀ (s : State) (e : Env) (f : VFmt),
    let t := f.ty
    let src := cvtFrom f
    let code := e.rounding f.rnd
    let mode (l i n : Nat) : RMode := modeOf code (e.draw l 0) i n
    let bits (o : Operand) (l : Nat) : Nat := e.readZ o l % 256
    let f32 (l : Nat) : FVal := binary32.decodeFz (e.wave.flushes .f32) (Ty.f32.elem (e.read .f32 f.a l) 0)
    let cvt (l : Nat) : FRes := convert t src f.sat (mode l 0 1) (e.wave.flushes src) (e.wave.flushes t) (src.elem (e.read src f.a l) 0)
    let pack (l i : Nat) : FRes := convert t (packFrom t) f.sat (mode l i t.elems) (e.wave.flushes (packFrom t)) (e.wave.flushes t) (packSource f e l i)
    let packed (l : Nat) : List FRes := (List.range t.elems).map (pack l)
    let picked (l : Nat) : Nat := t.elem (e.read t f.a l) (e.readZ f.b l % t.elems)
    let scaled : Bool := f.c != .none
    let unpack (l : Nat) : FRes :=
      if t.isFloat then
        let v := t.fmt.decodeFz (e.wave.flushes t) (picked l)
        if !scaled then binary32.ofVal false .rne v
        else if bits f.c l = 255 then binary32.nanRes false
        else binary32.ofVal (e.wave.flushes .f32) (mode l 0 1) (match v with
          | .fin neg m y => .fin neg m (y + (bits f.c l : Int) - 127)
          | v => v)
      else ⟨(widen t (picked l)).toNat, .none⟩
    let top : Int := match t with
      | .mxf4 => 2
      | .e4m3 => 8
      | _ => 15
    let scale (l : Nat) : FRes := match f32 l with
      | .fin _ m y => if m = 0 then ⟨127, .none⟩ else ⟨(min (max ((bitLen m : Int) - 1 + y - top) (-127)) 127 + 127).toNat, .none⟩
      | _ => ⟨255, { Cond.none with nv := true }⟩
    let all (r : Nat → List FRes) : Cond := ((lanesOf e.lanes).flatMap fun l => (r l).map fun x => x.cond).foldl Cond.or .none
    let quiet (c : Cond) : Prop := (c.enabled (Cond.enables e.wave.mode)).floatCause = none
    let after (draw : Bool) (i : Instr) (ws : Nat → List RegWrite) (c : Cond) : Prop :=
      exec i s = .next ((if draw then e.reserve 1 s else s).wrote e i ((lanesOf e.lanes).flatMap ws) c)
    (s.Runs e (.cvt f) → quiet (all fun l => [cvt l]) → after (code == 6 && !noRounding t src) (.cvt f)
      (fun l => writeTo (if t.regs = 2 then .z64 else .z32) f.d l (widen t (cvt l).code)) (all fun l => [cvt l])) ∧
    (s.Runs e (.pack f) → quiet (all packed) → after (code == 6 && t.isFloat) (.pack f)
      (fun l => writeTo t f.d l (t.join ((packed l).map fun r => r.code))) (all packed)) ∧
    (s.Runs e (.unpack f) → quiet (all fun l => [unpack l]) → after (scaled && code == 6) (.unpack f)
      (fun l => writeTo .z32 f.d l (BitVec.ofNat 64 (unpack l).code)) (all fun l => [unpack l])) ∧
    (s.Runs e (.mxscale f) → quiet (all fun l => [scale l]) → after false (.mxscale f)
      (fun l => writeTo .z32 f.d l (BitVec.ofNat 64 (scale l).code)) (all fun l => [scale l])) ∧
    (∀ (r : Nat → FRes), (∀ l ∈ lanesOf e.lanes, r l =
        (if bits f.b l = 255 then ⟨t.fmt.nanCode, { Cond.none with nv := true }⟩
         else match f32 l with
          | .nan => ⟨t.fmt.nanCode, { Cond.none with nv := true }⟩
          | .inf neg => ⟨t.fmt.maxCode neg, { Cond.none with of_ := true }⟩
          | .fin neg m x =>
            let y := t.fmt.round false (mode l 0 1) neg ⟨m, x + 127 - bits f.b l, false⟩
            if y.cond.of_ then ⟨t.fmt.maxCode neg, y.cond⟩ else y)) →
      s.Runs e (.cvtmx f) → quiet (all fun l => [r l]) → after (code == 6) (.cvtmx f)
        (fun l => writeTo .z32 f.d l (BitVec.ofNat 64 ((e.read .z32 f.d l).toNat -
          t.elem (e.read .z32 f.d l) (e.readZ f.c l % t.elems) * 2 ^ (t.width * (e.readZ f.c l % t.elems)) +
          (r l).code * 2 ^ (t.width * (e.readZ f.c l % t.elems))))) (all fun l => [r l]))

/-- R170: the shuffles: each member receives A of the lane that the instruction names, where that lane lies in 0 to 95 and
is a member, and else its own C. -/
def Rules.Shuffles : Prop :=
  ∀ (s : State) (e : Env) (f : VFmt),
    ∀ p ∈ [(Instr.shfl f, fun (_ b : Nat) => (b : Int)), (.shflup f, fun l b => (l : Int) - b),
      (.shfldn f, fun l b => (l : Int) + b), (.shflx f, fun l b => ((l ^^^ b : Nat) : Int))],
    s.Runs e p.1 →
      exec p.1 s = .next (s.wrote e p.1 ((lanesOf e.lanes).flatMap fun l =>
        let j := p.2 l (e.readZ f.b l)
        writeTo f.ty f.d l (if 0 ≤ j ∧ j ≤ 95 ∧ e.lanes.getLsbD j.toNat then e.read f.ty f.a j.toNat else e.read f.ty f.c l)) .none)

/-- R171: the votes write one bit, any, all or all equal, to D in every member; BALLOT the members' bits as three words;
RDFIRST the lowest member's A; each once to scalar destinations. -/
def Rules.Votes : Prop :=
  ∀ (s : State) (e : Env) (f : VFmt),
    let ms := lanesOf e.lanes
    let bit (b : Bool) : List RegWrite := ms.flatMap fun l => writeP f.d l b
    let mask : LaneMask := maskOf fun l => e.lanes.getLsbD l && e.pbit f.a l
    let words : List Word := [mask.extractLsb' 0 32, mask.extractLsb' 32 32, mask.extractLsb' 64 32]
    let lowest := e.read f.ty f.a (lowestLane e.lanes)
    (s.Runs e (.voteany f) → exec (.voteany f) s = .next (s.wrote e (.voteany f) (bit (ms.any fun l => e.pbit f.a l)) .none)) ∧
    (s.Runs e (.voteall f) → exec (.voteall f) s = .next (s.wrote e (.voteall f) (bit (ms.all fun l => e.pbit f.a l)) .none)) ∧
    (s.Runs e (.voteeq f) → exec (.voteeq f) s = .next (s.wrote e (.voteeq f)
      (bit (ms.all fun l => e.read f.ty f.a l == lowest)) .none)) ∧
    (s.Runs e (.ballot f) → exec (.ballot f) s = .next (s.wrote e (.ballot f)
      (if isS f.d then writeRun f.d 0 words else ms.flatMap fun l => writeRun f.d l words) .none)) ∧
    (s.Runs e (.rdfirst f) → exec (.rdfirst f) s = .next (s.wrote e (.rdfirst f)
      (if isS f.d then writeTo f.ty f.d 0 lowest else ms.flatMap fun l => writeTo f.ty f.d l lowest) .none))

/-- R172: over integer members, SCAN gives each member the running value with its own, SCANX the running value before it
(the identity or the initial value for the first), REDUCE the last running value to all; each step wraps, or clamps under
SAT. -/
def Rules.IntegerScans : Prop :=
  ∀ (s : State) (e : Env) (f : VFmt), f.ty.isFloat = false →
    ∀ p ∈ [((0 : BitVec 3), opAdd), (1, opMin), (2, opMax), (3, opAnd), (4, opOr), (5, opXor)], f.rnd = p.1 →
    let ms := lanesOf e.lanes
    let x (l : Nat) : Nat := (e.read f.ty f.a l).toNat
    let step (acc : Option Nat) (l : Nat) : Option Nat := some (match acc with
      | none => x l
      | some a => f.ty.finishInt f.sat (p.2 f.ty a (x l) 0))
    let start : Option Nat := if f.c = .none then none else some (e.read f.ty f.c e.first).toNat
    let upTo (l : Nat) (self : Bool) : Option Nat := (ms.filter fun j => j < l || self && j == l).foldl step start
    let put (o : Option Nat) : DWord := BitVec.ofNat 64 (o.getD (identity f.ty f.rnd.toNat))
    (s.Runs e (.scan f) → exec (.scan f) s = .next (s.wrote e (.scan f)
      (ms.flatMap fun l => writeTo f.ty f.d l (put (upTo l true))) .none)) ∧
    (s.Runs e (.scanx f) → exec (.scanx f) s = .next (s.wrote e (.scanx f)
      (ms.flatMap fun l => writeTo f.ty f.d l (put (upTo l false))) .none)) ∧
    (s.Runs e (.reduce f) → exec (.reduce f) s = .next (s.wrote e (.reduce f)
      (if isS f.d then writeTo f.ty f.d 0 (put (ms.foldl step start))
       else ms.flatMap fun l => writeTo f.ty f.d l (put (ms.foldl step start))) .none))

/-- R172: over floating-point members each step is one rounded sum, to nearest even, or the minimum or maximum of R145; its
conditions are raised, where none of them is enabled. -/
def Rules.FloatScans : Prop :=
  ∀ (s : State) (e : Env) (f : VFmt), f.ty.isFloat = true → f.rnd.toNat < 3 →
    let ms := lanesOf e.lanes
    let t := f.ty
    let fz := e.wave.flushes t
    let x (l : Nat) : Nat := (e.read t f.a l).toNat
    let comb (a b : Nat) : FRes :=
      let u := t.fmt.decodeFz fz a
      let v := t.fmt.decodeFz fz b
      [t.fmt.addR fz .rne u v, ⟨(t.fmt.ofVal fz .rne (u.min v)).code, .none⟩].getD f.rnd.toNat
        ⟨(t.fmt.ofVal fz .rne (u.max v)).code, .none⟩
    let step (acc : Option Nat × Cond) (l : Nat) : Option Nat × Cond := match acc.1 with
      | none => (some (x l), acc.2)
      | some a => (some (comb a (x l)).code, acc.2.or (comb a (x l)).cond)
    let start : Option Nat × Cond := (if f.c = .none then none else some (e.read t f.c e.first).toNat, .none)
    let upTo (l : Nat) (self : Bool) : Option Nat := ((ms.filter fun j => j < l || self && j == l).foldl step start).1
    let conds : Cond := (ms.foldl step start).2
    let absent : Nat := [0, t.fmt.infCode false].getD f.rnd.toNat (t.fmt.infCode true)
    let put (o : Option Nat) : DWord := BitVec.ofNat 64 (o.getD absent)
    (conds.enabled (Cond.enables e.wave.mode)).floatCause = none →
    (s.Runs e (.scan f) → exec (.scan f) s = .next (s.wrote e (.scan f)
      (ms.flatMap fun l => writeTo t f.d l (put (upTo l true))) conds)) ∧
    (s.Runs e (.scanx f) → exec (.scanx f) s = .next (s.wrote e (.scanx f)
      (ms.flatMap fun l => writeTo t f.d l (put (upTo l false))) conds)) ∧
    (s.Runs e (.reduce f) → exec (.reduce f) s = .next (s.wrote e (.reduce f)
      (if isS f.d then writeTo t f.d 0 (put (ms.foldl step start).1)
       else ms.flatMap fun l => writeTo t f.d l (put (ms.foldl step start).1)) conds))

/-- R172: scans and reductions over integer and floating-point types. -/
def Obligations.Scans : Prop := Rules.IntegerScans ∧ Rules.FloatScans

/-- R173, R174: COMPACT packs the values of the members whose predicate B is 1 into the lowest members and gives the others
their C; EXPAND deals the lowest members' values to those members in turn; BPERM picks four bytes of A and B by nibbles. -/
def Rules.LaneMoves : Prop :=
  ∀ (s : State) (e : Env) (f : VFmt),
    let ms := lanesOf e.lanes
    let rank (l : Nat) : Nat := (ms.filter fun j => e.pbit f.b j && j < l).length
    (s.Runs e (.compact f) → exec (.compact f) s = .next (s.wrote e (.compact f) (ms.flatMap fun l =>
      writeTo f.ty f.d l (match (ms.filter fun q => e.pbit f.b q)[(ms.filter fun j => j < l).length]? with
        | some q => e.read f.ty f.a q
        | none => e.read f.ty f.c l)) .none)) ∧
    (s.Runs e (.expand f) → exec (.expand f) s = .next (s.wrote e (.expand f) (ms.flatMap fun l =>
      writeTo f.ty f.d l (if e.pbit f.b l then e.read f.ty f.a (ms.getD (rank l) 0) else e.read f.ty f.c l)) .none)) ∧
    (s.Runs e (.bperm f) → exec (.bperm f) s = .next (s.wrote e (.bperm f) (ms.flatMap fun l =>
      let both := (e.readZ f.b l % 2 ^ 32) * 2 ^ 32 + e.readZ f.a l % 2 ^ 32
      let n (i : Nat) : Nat := e.readZ f.c l / 16 ^ i % 16
      let byte (i : Nat) : Nat := if n i < 8 then both / 256 ^ n i % 256 else 0
      writeTo .z32 f.d l (BitVec.ofNat 64 (byte 0 + byte 1 * 2 ^ 8 + byte 2 * 2 ^ 16 + byte 3 * 2 ^ 24))) .none))

/-- R170, R171, R173, R174: shuffles, votes, COMPACT, EXPAND and BPERM. -/
def Obligations.LaneExchanges : Prop := Rules.Shuffles ∧ Rules.Votes ∧ Rules.LaneMoves

/-! ## Class 0x4: control and predicates -/

/-- R166: the predicate logic writes, in every lane that executes, the function of its operands' bits; PMOV also whether a
register's value is not 0. -/
def Obligations.PredicateLogic : Prop :=
  ∀ (s : State) (e : Env) (f : VFmt),
    ∀ p ∈ [(Instr.pand f, fun x y : Bool => x && y), (.por f, fun x y => x || y), (.pxor f, fun x y => xor x y),
      (.pandn f, fun x y => x && !y), (.pnot f, fun x _ => !x)],
    (s.Runs e p.1 → exec p.1 s = .next (s.wrote e p.1 ((lanesOf e.lanes).flatMap fun l =>
      writeP f.d l (p.2 (e.pbit f.a l) (e.pbit f.b l))) .none)) ∧
    (s.Runs e (.pmov f) → exec (.pmov f) s = .next (s.wrote e (.pmov f) ((lanesOf e.lanes).flatMap fun l =>
      writeP f.d l (if isK f.a then e.pbit f.a l else e.read f.ty f.a l != 0)) .none))

/-- R159 to R162: the lanes that take a branch go to its target, the word offset of the branch plus OFFSET, or for CALLI,
JMPI and RET the lane's pair; CALL and CALLI first write the next word's offset as the link. The other lanes go on; a bad
target that some executing lane takes is cause 0x41 with the target as its value. -/
def Rules.Branches : Prop :=
  ∀ (s : State) (e : Env) (f : CFmt),
    let ls := lanesOf e.lanes
    let direct : DWord := e.pc.zeroExtend 64 + f.offset.signExtend 64
    let bit (l : Nat) : Bool := e.pbit f.cond l
    let brp (l : Nat) : Bool := [bit l, !bit l, ls.any bit, ls.all bit].getD f.kind.toNat false
    let x : Int := (lowWord (e.read .s32 f.cond e.first)).toInt
    let bru : Bool := [decide (x ≠ 0), decide (x = 0), decide (x < 0), decide (0 ≤ x)].getD f.kind.toNat false
    let link (i : Instr) : List RegWrite := let n : DWord := (e.seq i).zeroExtend 64
      if isS f.cond then writeTo .z64 f.cond 0 n else ls.flatMap fun l => writeTo .z64 f.cond l n
    let go (i : Instr) (t : State) (target : Nat → Option DWord) : Prop :=
      exec i s = .next (t.transferred e i fun l => if e.lanes.getLsbD l then (target l).map codeAddr else none)
    (∀ p ∈ [(Instr.bra f, fun _ => true), (.brp f, brp), (.bru f, fun _ => bru)], f.kind.toNat < 4 →
      (s.Issues e p.1 → ((∃ l ∈ ls, p.2 l = true) → s.goodTarget e direct = true) →
        go p.1 s fun l => if p.2 l then some direct else none) ∧
      (s.Issues e p.1 → (∃ l ∈ ls, p.2 l = true) → s.goodTarget e direct = false →
        exec p.1 s = .next (s.trapped e 0x41 direct))) ∧
    (s.Issues e (.call f) → s.goodTarget e direct = true → go (.call f) (s.writeNow e (link (.call f))) fun _ => some direct) ∧
    (s.env (.call f) = some e → e.canIssue = true → s.entryOwed e.wk e.frag = false → e.blocker (.call f) = none →
      e.joinWait s (.call f) = none → s.fetchPoisoned e (.call f) = false → s.bloadBusy e.wk (.call f) = false → Instr.stageAIn (.call f) (s.wordsLeft e) = none →
      e.lanes ≠ 0 → s.goodTarget e direct = false → exec (.call f) s = .next (s.trapped e 0x41 direct)) ∧
    (∀ p ∈ [(Instr.calli f, f.target, s.writeNow e (link (.calli f))), (.jmpi f, f.target, s), (.ret f, f.cond, s)],
      (s.Issues e p.1 → (∀ l ∈ ls, s.goodTarget e (e.readRef p.2.1 l) = true) →
        go p.1 p.2.2 fun l => some (e.readRef p.2.1 l)) ∧
      (∀ l ∈ ls, s.Issues e p.1 → s.goodTarget e (e.readRef p.2.1 l) = false →
        (∀ j ∈ ls, s.goodTarget e (e.readRef p.2.1 j) = false → l ≤ j) →
        exec p.1 s = .next (s.trapped e 0x41 (e.readRef p.2.1 l))))

/-- R163, R30: EXIT ends the lanes that execute it; the last live lanes of a wave end the wave once nothing it has issued is
outstanding. While a lane is gang-parked it is cause 0x10 with that lane's address, and ends none. That an EXIT which leaves lanes
alive sets no join target (log 100), and that the wave's end waits for what it has issued (log 42), is the model's reading. -/
def Rules.Exits : Prop :=
  ∀ (s : State) (e : Env) (f : CFmt), s.Issues e (.exit f) →
    let live := e.wave.live &&& ~~~e.lanes
    let stored := s.drainStores fun p => decide (p.agent.wave = e.wk)
    let done := e.result (.exit f) [] .none
    (∀ l, e.wave.gangParked.getLsbD l = true → (∀ j < l, e.wave.gangParked.getLsbD j = false) →
      exec (.exit f) s = .next (s.trapped e 0x10 ((e.wave.pc l).zeroExtend 64))) ∧
    (e.wave.gangParked = 0 → live ≠ 0 → exec (.exit f) s =
      .next (((s.modWave e.wk fun w => { w with live := live }).slicesEnded e.wk).after e (.exit f) done)) ∧
    (e.wave.gangParked = 0 → live = 0 → stored.waveIdle e.wk = true → exec (.exit f) s =
      .next (((stored.modWave e.wk fun w => { w.landAll with live := 0 }).endWave e.wk).after e (.exit f) done))

/-- R159 to R163, R30: branches, calls, returns and EXIT. -/
def Obligations.ControlTransfers : Prop := Rules.Branches ∧ Rules.Exits

/-! ## Class 0x5: memory -/

/-- R190: what the lanes of an access of i have come to: where each was performed at once the instruction completes with
what they return; where some lanes' granules are not resident it completes for the others, whose registers are written now, and
those lanes' accesses are its parked ones, which hold the unfinished lanes. -/
def Rules.Accessed (s : State) (e : Env) (i : Instr) (r : RunRes) : Prop :=
  r.late = [] →
    (r.left = [] → exec i s = .next (r.s.after e i (e.result i r.ws .none))) ∧
    (r.left ≠ [] → ∃ p : Pending, p.accs = r.left ∧ p.kind = .access ∧ p.instr = i ∧ p.pc = e.pc ∧ p.slices = e.frag.slices ∧
      p.writes = [] ∧ p.late = none ∧ (∀ l < 96, p.mask.getLsbD l = r.left.any fun a => a.lane == l) ∧
      exec i s = .next ((r.s.regsNow e.wk r.ws).after e i (pends p)))

/-- The fragment has the token of deterministic mode, and nothing of its workgroup stands in the commit log. -/
def Rules.hasToken (e : Env) : Prop := e.launch.token = e.launch.keyOf e.wg ∧ e.wg.log = []

/-- R178, R190, R200, R204, R206, R210 to R214: the loads, stores, atomics and coordinate accesses. The lowest lane that fails a
check traps with its cause and value, and no lane accesses; where every lane passes, a release is taken before the accesses
and an acquire with them, the lanes access (those of one atomic that meet in an order of the device, those of one tile
update all or none), and the instruction completes with what they return, for the lanes that could. An update of
deterministic mode does so where its workgroup has the token. -/
def Rules.MemoryAccesses : Prop :=
  ∀ (s : State) (e : Env) (f : MFmt),
    let ls := lanesOf e.lanes
    let size := sizeBytes f.size
    let load (l : Nat) := e.byteAcc s f f.imm.toInt needR .load size l [] []
    let store (l : Nat) := e.byteAcc s f f.imm.toInt needW .store size l (e.data f.data l size) []
    let width : Nat := if f.size.toNat = 3 ∨ f.size.toNat = 7 then 8 else if f.size.toNat = 5 then 32 else 4
    let atom (fl returns : Bool) (x c : Operand) (l : Nat) := e.byteAcc s f 0 (if returns then needRA else needA) .store
      width l (e.atomData f fl x l) (e.atomData f fl c l)
    let form (fl : Bool) (l : Nat) := if f.immOp = .none then atom fl false f.data .none l else atom fl true f.immOp .none l
    let element (l : Nat) := e.elemAcc s f needR l []
    let put (l : Nat) := e.elemAcc s f needW l (e.data f.data l (if f.size = 3 then 8 else 4))
    ∀ p ∈ [(Instr.ld f, ls, load), (.st f, ls, store), (.sld f, [e.first], load), (.sst f, [e.first], store),
      (.tld f, ls, element), (.tst f, ls, put), (.aadd f, ls, form false), (.afadd f, ls, form true),
      (.amin f, ls, form false), (.amax f, ls, form false), (.aand f, ls, form false), (.aor f, ls, form false),
      (.axor f, ls, form false), (.axchg f, ls, form false), (.acas f, ls, atom false true f.data f.immOp),
      (.atile f, ls, atom true false f.data .none)], s.Issues e p.1 →
      (∀ l ∈ p.2.1, ∀ c v, p.2.2 l = .error (c, v) → (∀ j ∈ p.2.1, j < l → ∃ a, p.2.2 j = .ok a) →
        exec p.1 s = .next (s.trapped e c v)) ∧
      (∀ accs : List Acc, p.2.1.map p.2.2 = accs.map Except.ok →
        e.launch.det = false ∨ Rules.hasToken e ∨ p.1 ∈ [.ld f, .st f, .sld f, .sst f, .tld f, .tst f] →
        (p.1 ∈ [.tld f, .tst f] → ∀ a ∈ accs, sizeFits (s.tensor a.entry).etype f.size = true) → e.mustFollow s (memOrder p.1).1 accs = none →
        let s1 := s.fillObjects e.core accs
        let s2 := if f.order.getLsbD 1 then s1.release e.core e.wk e.who.slices f.scope else s1
        let s3 := if f.order.getLsbD 0 then s2.acquireAct e.core f.scope else s2
        Rules.Accessed s e p.1 (runLanes e.who p.1 s3 accs))

/-- R374: an update in deterministic mode without the token: one that returns a value, or for whose entries the workgroup's part of
the commit log has no room, waits for the token; any other is logged and completes. -/
def Rules.DeterministicUpdates : Prop :=
  ∀ (s : State) (e : Env) (f : MFmt),
    let width : Nat := if f.size.toNat = 3 ∨ f.size.toNat = 7 then 8 else if f.size.toNat = 5 then 32 else 4
    let atom (fl returns : Bool) (x c : Operand) (l : Nat) := e.byteAcc s f 0 (if returns then needRA else needA) .store
      width l (e.atomData f fl x l) (e.atomData f fl c l)
    let form (fl : Bool) (l : Nat) := if f.immOp = .none then atom fl false f.data .none l else atom fl true f.immOp .none l
    let back : Bool := f.immOp != .none
    ∀ p ∈ [(Instr.aadd f, 32, back, form false), (.afadd f, 32, back, form true), (.amin f, 32, back, form false),
      (.amax f, 32, back, form false), (.aand f, 32, back, form false), (.aor f, 32, back, form false), (.axor f, 32, back, form false),
      (.axchg f, 32, back, form false), (.acas f, 32, true, atom false true f.data f.immOp), (.atile f, 64, false, atom true false f.data .none)],
      ∀ accs : List Acc, s.Issues e p.1 → e.launch.det = true → e.launch.token ≠ e.launch.keyOf e.wg →
        (lanesOf e.lanes).map p.2.2.2 = accs.map Except.ok →
        let n := p.2.1 * accs.length
        (p.2.2.1 = true ∨ e.launch.clogLen < e.wg.logUsed + n → exec p.1 s = .next (s.setWait e .token)) ∧
        (p.2.2.1 = false → e.wg.logUsed + n ≤ e.launch.clogLen → e.followsOps s (memOrder p.1).1 accs = none →
          s.logNeeds e.core e.launch.dom e.launch (e.launch.logPlace e.wg) n = [] →
          exec p.1 s = .next ((s.logged e p.1 accs none n).after e p.1 (e.result p.1 [] .none)))

/-- R178, R190, R200, R204, R206, R210 to R214, R374: the instructions that access memory, whole and in part, and the updates of
deterministic mode. -/
def Obligations.Accesses : Prop := Rules.MemoryAccesses ∧ Rules.DeterministicUpdates

/-- R7, R201, R204: a load of a resident location of this package's memory that no pending store of its slices covers and
no cached line of its core holds gives memory's bytes, the lowest address in the low bits, extended by the size code. It
changes no byte of memory but those that a dirty line of the die's remote data cache holds, which may be written back where
its place is needed (R184). (The launch declares no reuse range for it.) -/
def Obligations.LoadedValue : Prop :=
  ∀ (s : State) (w : Who) (i : Instr) (f : MFmt) (a : Acc) (off p : Nat), a.tgt = .byte off →
    s.unreadable a = false → s.accPlace a = some (p, 0) → p < 2 ^ 51 → p / 128 = (p + a.size - 1) / 128 → 0 < a.size →
    s.anyPoison p a.size = false → findLine (SMap.get [] s.l1 w.core) (lineOf p) = none →
    (∀ q ∈ s.storeQ, ofSlices w.wk (w.at i a.lane) q = false) → (∀ la, s.launches.find? w.launch = some la → la.ranges = []) →
    let dirty (b : Nat) : Prop := ∃ x ∈ SMap.get [] s.rdc (dieOf w.core), x.2.dirty ≠ 0 ∧ x.1 = lineOf b
    ¬ dirty p →
    ∃ t, s.loadAcc w i f a = .done t (loadWrites f.data a.lane f.size (s.bytes p a.size)) ∧ ∀ b, ¬ dirty b → t.byte b = s.byte b

/-- R185, R201: a store goes on its way to its point of coherence, by units of 8 bytes where it has more: they are then the
newest of those on their way, and no byte of memory has changed. (The launch declares no reuse range for it.) -/
def Rules.StoreIssued : Prop :=
  ∀ (s : State) (w : Who) (i : Instr) (f : MFmt) (a : Acc) (off p : Nat), a.tgt = .byte off →
    s.unreadable a = false → s.accPlace a = some (p, 0) → p < 2 ^ 52 →
    (∀ la, s.launches.find? w.launch = some la → la.ranges = []) →
    ∃ t, s.storeAcc w i f a = .done t [] ∧ (∀ b, t.byte b = s.byte b) ∧
      t.storeQ = s.storeQ ++ a.units.map fun x => ⟨⟨w.wk, w.at i a.lane⟩, w.core, x, f.order.getLsbD 1, f.scope, false, decide (32 ≤ a.size)⟩

/-- R185, R229: STORE_ACKNOWLEDGE: a store whose granule is resident, with no earlier store of one of its slices to a common byte
on its way, is performed: its bytes stand in memory from its address on, every other byte is as before, and it is on its way
no more. -/
def Rules.StorePerformed : Prop :=
  ∀ (s : State) (n : Nat) (q : PendingStore) (p nib : Nat), s.storeQ[n]? = some q → s.accPlace q.acc = some (p, nib) →
    q.nibble = false → s.storeBehind n q = false → 0 < q.acc.data.length → p + q.acc.data.length ≤ 2 ^ 51 ∨ 2 ^ 52 ≤ p →
    ∃ t, exec (.storeAcknowledge n) s = .next t ∧ t.storeQ = s.storeQ.eraseIdx n ∧
      (∀ j < q.acc.data.length, t.byte (p + j) = q.acc.data.getD j 0) ∧
      (∀ b, b < p ∨ p + q.acc.data.length ≤ b → t.byte b = s.byte b) ∧ t.waves = s.waves ∧ t.bar0 = s.bar0

/-- R185, R229: a store from its issue to its point of coherence. -/
def Obligations.Stores : Prop := Rules.StoreIssued ∧ Rules.StorePerformed

/-- R205: scratchpad loads and stores: address = ADDR + index × size, in the wave's own workgroup or in the workgroup of the
cluster that the lane's CRANK operand names; a misaligned address is cause 0x04, one outside the scratchpad or a CRANK
beyond the cluster 0x05, for the lowest such lane. Loads give the bytes there; stores write the lanes' bytes, in an
order of the device where lanes write the same ones (R201). -/
def Rules.ScratchAccesses : Prop :=
  ∀ (s : State) (e : Env) (f : MFmt),
    let ls := lanesOf e.lanes
    let n := sizeBytes f.size
    let order (s : State) : State :=
      let s := if f.order.getLsbD 1 then s.release e.core e.wk e.who.slices f.scope else s
      if f.order.getLsbD 0 then s.acquireAct e.core f.scope else s
    ∀ p ∈ [(Instr.lds f, (none : Option Operand), true), (.ldsr f, some f.index, true), (.sts f, none, false),
        (.stsr f, some f.index, false)], s.Issues e p.1 →
      (∀ l ∈ ls, ∀ c v, e.scratchAcc s f p.2.1 l = .error (c, v) → (∀ j ∈ ls, j < l → ∃ x, e.scratchAcc s f p.2.1 j = .ok x) →
        exec p.1 s = .next (s.trapped e c v)) ∧
      (∀ place : Nat → Nat × Nat, (∀ l ∈ ls, e.scratchAcc s f p.2.1 l = .ok ((place l).1, (place l).2, l)) →
        e.mustFollow s (memOrder p.1).1 [] = none →
        (p.2.2 = true → exec p.1 s = .next ((order s).after e p.1 (e.result p.1 (ls.flatMap fun l =>
          loadWrites f.data l f.size ((order s).scratchBytes (place l).1 (place l).2 n)) .none))) ∧
        (p.2.2 = false →
          let r := (order s).anyOrder scratchMeets (ls.flatMap fun l => scratchUnits (place l).1 (place l).2 (e.data f.data l n))
          exec p.1 s = .next ((r.2.foldl (fun s u => s.setScratchBytes u.1 u.2.1 u.2.2) r.1).after e p.1 (e.result p.1 [] .none))))

/-- R205, R188: where a lane's scratchpad access lies. -/
def Rules.ScratchPlaces : Prop :=
  ∀ (s : State) (e : Env) (f : MFmt) (l : Nat), 0 < sizeBytes f.size →
    let n := sizeBytes f.size
    let a : Int := e.readZ f.ref l + f.imm.toInt * n
    (∃ v, a % n ≠ 0 → e.scratchAcc s f none l = .error (0x04, v)) ∧
    (∃ v, a % n = 0 → a < 0 ∨ e.launch.scratch < a + n → e.scratchAcc s f none l = .error (0x05, v)) ∧
    (a % n = 0 → 0 ≤ a → a + n ≤ e.launch.scratch → e.launch.scratch ≤ 2 ^ 18 → e.scratchAcc s f none l = .ok (e.wave.wg, a.toNat, l)) ∧
    (∀ o g wg, a % n = 0 → 0 ≤ a → a + n ≤ e.launch.scratch → e.launch.scratch ≤ 2 ^ 18 → e.readZ o l < e.launch.ncl →
      s.peer e.wg (e.readZ o l) = some (g, wg) → e.scratchAcc s f (some o) l = .ok (g, a.toNat, l)) ∧
    (∀ o, ∃ v, a % n = 0 → 0 ≤ a → a + n ≤ e.launch.scratch → e.launch.ncl ≤ e.readZ o l →
      e.scratchAcc s f (some o) l = .error (0x05, v))

/-- R187: the scratchpad of a workgroup on a core: a byte reads as it was last written, and a write changes that byte of that
workgroup alone, and no byte of memory. -/
def Rules.ScratchBytes : Prop :=
  ∀ (s : State) (g a : Nat) (x : Byte) (wg : Workgroup), s.workgroups.find? g = some wg → (∀ b, wg.phase ≠ .saved b) →
    (s.setScratch g a x).scratchByte g a = x ∧
    (∀ h c, (h ≠ g ∨ c ≠ a) → (s.setScratch g a x).scratchByte h c = s.scratchByte h c) ∧
    (∀ b, (s.setScratch g a x).byte b = s.byte b) ∧ (s.setScratch g a x).waves = s.waves

/-- R187, R188, R205: the scratchpad. -/
def Obligations.Scratchpad : Prop := Rules.ScratchAccesses ∧ Rules.ScratchPlaces ∧ Rules.ScratchBytes

/-- R212: the sum of two f32 values by their codes: exact, then rounded to nearest even, with no flushing; infinities of one sign
stay, of both give the canonical NaN, as a NaN does; a sum of 0 is −0 only where both terms are negative. -/
def Rules.sum32 (a b : Nat) : Nat :=
  match binary32.decode a, binary32.decode b with
  | .nan, _ => 0x7FC00000
  | _, .nan => 0x7FC00000
  | .inf s, .inf t => if s = t then (if s then 0xFF800000 else 0x7F800000) else 0x7FC00000
  | .inf s, .fin _ _ _ => if s then 0xFF800000 else 0x7F800000
  | .fin _ _ _, .inf t => if t then 0xFF800000 else 0x7F800000
  | .fin s m x, .fin t n y =>
    let q := min x y
    let v (neg : Bool) (k : Nat) (z : Int) : Int := (if neg then -1 else 1) * (k * 2 ^ (z - q).toNat)
    let sum := v s m x + v t n y
    if sum = 0 then (if s && t then 2 ^ 31 else 0) else (binary32.round false .rne (decide (sum < 0)) ⟨sum.natAbs, q, false⟩).code

/-- R211, R212: an atomic's new value from the old value m, the operand x and, for ACAS, the compare value c: modular
addition, an f32 sum, signed or unsigned minimum and maximum, the bitwise functions, exchange and compare-exchange. -/
def Rules.AtomicValues : Prop :=
  ∀ (f : MFmt) (k m x c : Nat) (signed : Bool), k = 4 ∨ k = 8 → m < 2 ^ (8 * k) → x < 2 ^ (8 * k) →
    let v (n : Nat) : Int := if signed ∧ 2 ^ (8 * k - 1) ≤ n then (n : Int) - 2 ^ (8 * k) else n
    atomValue (.aadd f) k signed m x c = (m + x) % 2 ^ (8 * k) ∧
    (k = 4 → atomValue (.afadd f) k signed m x c = Rules.sum32 m x) ∧
    (v x < v m → atomValue (.amin f) k signed m x c = x) ∧ (v m ≤ v x → atomValue (.amin f) k signed m x c = m) ∧
    (v m < v x → atomValue (.amax f) k signed m x c = x) ∧ (v x ≤ v m → atomValue (.amax f) k signed m x c = m) ∧
    atomValue (.aand f) k signed m x c = m &&& x ∧ atomValue (.aor f) k signed m x c = m ||| x ∧
    atomValue (.axor f) k signed m x c = m ^^^ x ∧ atomValue (.axchg f) k signed m x c = x ∧
    (m = c → atomValue (.acas f) k signed m x c = x) ∧ (m ≠ c → atomValue (.acas f) k signed m x c = m)

/-- R185, R210, R211: the update of one lane, where nothing of its slices is on its way to it: one indivisible read and
write of its location; the old bytes go to the result where the form returns, and no other byte of memory changes. -/
def Rules.AtomicUpdate : Prop :=
  ∀ (s : State) (w : Who) (f : MFmt) (a : Acc) (off p : Nat), a.tgt = .byte off → a.size = 4 ∨ a.size = 8 →
    s.unreadable a = false → s.accPlace a = some (p, 0) → p + a.size ≤ 2 ^ 51 → s.anyPoison p a.size = false →
    s.storeQ = [] → (∀ la, s.launches.find? w.launch = some la → la.ranges = []) →
    (∀ x ∈ SMap.get [] s.rdc (dieOf w.core), x.1 = lineOf p → x.2.dirty = 0) →
    ∀ i ∈ [Instr.aadd f, .afadd f, .amin f, .amax f, .aand f, .aor f, .axor f, .axchg f, .acas f],
    let signed := f.size == 6 || f.size == 7
    let returns : Bool := f.immOp != .none || i == .acas f
    ∃ t, s.atomicAcc w i f a = .done t (if returns then loadWrites f.data a.lane (if a.size = 8 then 3 else 2) (s.bytes p a.size) else []) ∧
      t.bytes p a.size = bytesOfNat a.size (atomValue i a.size signed (natOfBytes (s.bytes p a.size)) (natOfBytes a.data) (natOfBytes a.cmp)) ∧
      (∀ b, b < p ∨ p + a.size ≤ b → t.byte b = s.byte b)

/-- R185, R212, R213: a lane of an ATILE adds eight f32 values to the 32 bytes it names, where nothing is on its way to them, and
no other byte of memory changes. -/
def Rules.TileUpdate : Prop :=
  ∀ (s : State) (w : Who) (f : MFmt) (a : Acc) (off p : Nat), a.tgt = .byte off → a.size = 32 → a.data.length = 32 →
    s.unreadable a = false → s.accPlace a = some (p, 0) → p + 32 ≤ 2 ^ 51 → s.anyPoison p 32 = false → s.storeQ = [] →
    (∀ la, s.launches.find? w.launch = some la → la.ranges = []) →
    (∀ x ∈ SMap.get [] s.rdc (dieOf w.core), x.1 = lineOf p → x.2.dirty = 0) →
    ∃ t, s.atomicAcc w (.atile f) f a = .done t [] ∧
      (∀ j < 8, natOfBytes (t.bytes (p + 4 * j) 4) =
        Rules.sum32 (natOfBytes (s.bytes (p + 4 * j) 4)) (natOfBytes ((a.data.drop (4 * j)).take 4))) ∧
      (∀ b, b < p ∨ p + 32 ≤ b → t.byte b = s.byte b)

/-- R185, R210 to R213: atomic updates. -/
def Obligations.Atomics : Prop := Rules.AtomicValues ∧ Rules.AtomicUpdate ∧ Rules.TileUpdate

/-- R179, R207: the hints never trap: PREF and EVICT complete whatever their lanes name; lanes that fail a check are
skipped. With no lane that passes, nothing but the issue happens. -/
def Rules.Hints : Prop :=
  ∀ (s : State) (e : Env) (f : MFmt), ∀ i ∈ [Instr.pref f, .evict f], s.Issues e i →
    (∃ t : State, exec i s = .next (t.after e i (e.result i [] .none)) ∧ t.waves = s.waves) ∧
    ((∀ l ∈ lanesOf e.lanes, ∃ c, e.byteAcc s f f.imm.toInt needR .load (sizeBytes f.size) l [] [] = .error c) →
      exec i s = .next (s.after e i (e.result i [] .none)))

/-- R186, R208, R214: FENCE waits while an access of its slices is parked, or one of their updates stands in the commit log;
else it takes the release action and then the
acquire action that its ORDER and SCOPE name. -/
def Rules.Fences : Prop :=
  ∀ (s : State) (e : Env) (f : MFmt), s.Issues e (.fence f) →
    let s1 := if f.order.getLsbD 1 then s.release e.core e.wk e.who.slices f.scope else s
    (∀ wt, e.awaits s e.who.slices = some wt → exec (.fence f) s = .next (s.setWait e wt)) ∧
    (e.awaits s e.who.slices = none → exec (.fence f) s =
      .next ((if f.order.getLsbD 0 then s1.acquireAct e.core f.scope else s1).after e (.fence f) (e.result (.fence f) [] .none)))

/-- R179, R186, R207, R208, R214: PREF, EVICT and FENCE. -/
def Obligations.HintsAndFences : Prop := Rules.Hints ∧ Rules.Fences

/-- R42, R43, R209: SQPUSH appends a lane's record of sixteen words to the queue, in its ring while fewer than 512 stand there, and
else in the spill area, while fewer than the limit stand there; where both are full it waits. SQPOP takes the oldest record, from
where it stands, and clears the predicate; at the end of a closed queue SQPOP sets the predicate and takes nothing, and it waits on
an empty open one. (The layout of the spill area is the model's choice, log entry 103.) -/
def Rules.StageQueues : Prop :=
  ∀ (s : State) (w : Who) (f : MFmt) (a : Acc) (la : Launch) (q : StageQueue), s.launches.find? w.launch = some la →
    la.queues.find? f.imm.toNat = some q →
    let k := f.imm.toNat
    let given (r : List Word) : List RegWrite := writeRun f.data a.lane r ++ writeP f.index a.lane false
    let ringed := q.recs.countP fun r => match r with
      | .ring _ => true
      | .spill _ => false
    let spilled := q.recs.length - ringed
    let add (r : QRec) (s : State) : State := s.modQueue w.launch k fun q => { q with recs := q.recs ++ [r] }
    (ringed < 512 → s.perform1 w (.sqpush f) a = .done (add (.ring (recordWords a.data)) s) []) ∧
    (512 ≤ ringed → spilled < q.spillLimit → ∃ n < q.spillLimit, QRec.spill n ∉ q.recs ∧
      ∀ p nib, s.reaches (s.spillAcc w q n) true = .place p nib → s.perform1 w (.sqpush f) a =
        .done (add (.spill n) ((s.noteUse w (s.spillAcc w q n) false).dieWrite (k % 4) p a.data)) []) ∧
    (512 ≤ ringed → q.spillLimit ≤ spilled → s.perform1 w (.sqpush f) a = .wait s) ∧
    (∀ r more, q.recs = .ring r :: more → s.perform1 w (.sqpop f) a = .done (s.modQueue w.launch k fun q => { q with recs := more }) (given r)) ∧
    (∀ n more p nib, q.recs = .spill n :: more → s.reaches (s.spillAcc w q n) false = .place p nib →
      let t := s.noteUse w (s.spillAcc w q n) false
      t.portPoisoned (k % 4) p = false → t.portPoisoned (k % 4) (p + 32) = false → s.perform1 w (.sqpop f) a =
        .done (t.modQueue w.launch k fun q => { q with recs := more }) (given (recordWords (t.portBytes (k % 4) p 64)))) ∧
    (q.recs = [] → q.closed = true → s.perform1 w (.sqpop f) a = .done s (writeP f.index a.lane true)) ∧
    (q.recs = [] → q.closed = false → s.perform1 w (.sqpop f) a = .wait s)

/-- R44, R190, R209: SQPUSH releases before its records and SQPOP acquires with them; the lanes that can complete, and the others
park. -/
def Rules.QueueInstructions : Prop :=
  ∀ (s : State) (e : Env) (f : MFmt),
    let record (l : Nat) : List Byte := (e.readRun f.data l 16).flatMap fun x => bytesOfNat 4 x.toNat
    ∀ p ∈ [(Instr.sqpush f, record, (s.fillObjects e.core ((lanesOf e.lanes).map fun l => queueAcc e f.imm.toNat l (record l))).release
          e.core e.wk e.who.slices f.scope),
        (.sqpop f, fun _ => [], (s.fillObjects e.core ((lanesOf e.lanes).map fun l => queueAcc e f.imm.toNat l [])).acquireAct e.core f.scope)],
      let accs := (lanesOf e.lanes).map fun l => queueAcc e f.imm.toNat l (p.2.1 l)
      s.Issues e p.1 → e.mustFollow s (memOrder p.1).1 accs = none → Rules.Accessed s e p.1 (runLanes e.who p.1 p.2.2 accs)

/-- R42 to R44, R209: the stage queues. -/
def Obligations.Queues : Prop := Rules.StageQueues ∧ Rules.QueueInstructions

/-! ## Class 0x7: copies and batches -/

/-- R216, R217: a copy whose two ranges pass their checks, source first, joins the wave's open batch with its references,
ranges and byte count, in one of the core's 64 entries; a byte count of 0 or above 65,536 is sub-reason 0x27; a copy of a
tensor (COPYT) lies in its elements. No byte moves yet. -/
def Rules.CopiesIssued : Prop :=
  ∀ (s : State) (e : Env) (f : MFmt),
    let n := e.readZ f.index e.first
    let room : Prop := (s.copies.filter fun x => x.core == e.core && s.onCore x.wave).length < 64
    let base (i : Instr) : Copy := {
      wave := e.wk, slices := e.who.slices, core := e.core, batch := e.wave.batchClosed + 1, instr := i, pc := e.pc,
      dom := e.wave.dom, srcRef := 0, srcEntry := noEntry, srcScratch := none, dstRef := 0, dstEntry := noEntry, dstScratch := none,
      coords := [], bytes := n, scope := f.scope, lines := 0, waited := false }
    let joins (i : Instr) (c : Copy) (refs : List DWord) : Prop :=
      exec i s = .next (({ s.fillRefs e.core e.dom refs with copies := s.copies ++ [c] } : State).after e i (e.result i [] .none))
    let rd := e.readRef f.ref e.first
    let wr := e.readRef f.data e.first
    let far := e.readRef f.immOp e.first
    let cs := e.coords f.immOp e.first
    let inScratch (a : Nat) : Prop := a + n ≤ e.launch.scratch
    ∀ se de, 0 < n → n ≤ 65536 → e.awaits s e.frag.slices = none → room →
    (s.Issues e (.copy f) → e.copyRange s rd needR .load n = .ok se → e.copyRange s wr needW .store n = .ok de →
      joins (.copy f) { base (.copy f) with srcRef := rd, srcEntry := se, dstRef := wr, dstEntry := de } [rd, wr]) ∧
    (s.Issues e (.copyin f) → e.copyRange s far needR .load n = .ok se → inScratch (e.readZ f.data e.first) →
      joins (.copyin f) { base (.copyin f) with srcRef := far, srcEntry := se, dstScratch := some (e.wave.wg, e.readZ f.data e.first) } [far]) ∧
    (s.Issues e (.copyout f) → inScratch (e.readZ f.ref e.first) → e.copyRange s far needW .store n = .ok de →
      joins (.copyout f) { base (.copyout f) with srcScratch := some (e.wave.wg, e.readZ f.ref e.first), dstRef := far, dstEntry := de } [far]) ∧
    (s.Issues e (.copyt f) → e.copySide s rd needR .load cs n = .ok se → e.copySide s wr needW .store cs n = .ok de →
      ¬ ((se.kind = 1) = (de.kind = 1)) →
      let t := s.tensor (if se.kind = 1 then se else de)
      let z := etypeNibbles t.etype / 2
      t.layout ≠ 5 → 0 < z → sizeFits t.etype f.size = true → n % z = 0 →
      t.linear cs + n / z ≤ t.dim 0 * t.dim 1 * t.dim 2 * t.dim 3 →
      joins (.copyt f) { base (.copyt f) with srcRef := rd, srcEntry := se, dstRef := wr, dstEntry := de, coords := cs } [rd, wr])

/-- R217, R218: BATCH closes the open batch, and with 16 batches open it waits; WAITB completes once DONE has reached its
number, or CLOSED where that lies ahead of it, and WAITBN once at most n batches are open, both with an acquire; BQUERY
reads CLOSED or DONE. -/
def Rules.Batches : Prop :=
  ∀ (s : State) (e : Env) (f : YFmt),
    let closed := e.wave.batchClosed
    let done := e.wave.batchDone
    let x := lowWord (e.read .z32 f.op1 e.first)
    let target := if (closed - x).toNat < 2 ^ 31 then x else closed
    let limit := (f.imm.extractLsb' 4 8).toNat
    let acquired := s.acquireAct e.core (f.imm.extractLsb' 0 3)
    (s.Issues e (.batch f) → closed - done ≠ 16 → exec (.batch f) s = .next (((s.modWave e.wk fun w =>
      { w with batchClosed := w.batchClosed + 1 }).updateBatches e.wk).after e (.batch f) (e.result (.batch f) [] .none))) ∧
    (s.Issues e (.batch f) → closed - done = 16 → exec (.batch f) s = .next (s.setWait e .again)) ∧
    (s.Issues e (.waitb f) → (∀ m c, e.frag.wait ≠ .batch m c) →
      ((done - target).toNat < 2 ^ 31 → exec (.waitb f) s = .next (acquired.after e (.waitb f) (e.result (.waitb f) [] .none))) ∧
      (2 ^ 31 ≤ (done - target).toNat → exec (.waitb f) s = .next (s.setWait e (.batch target (f.imm.extractLsb' 0 3))))) ∧
    (s.Issues e (.waitbn f) → (closed - done).toNat ≤ limit →
      exec (.waitbn f) s = .next (acquired.after e (.waitbn f) (e.result (.waitbn f) [] .none))) ∧
    (s.Runs e (.bquery f) → exec (.bquery f) s = .next (s.wrote e (.bquery f)
      (writeTo .z32 f.op1 e.first ((if f.imm.getLsbD 0 then done else closed).zeroExtend 64)) .none))

/-- R216 to R218: copies and batches. -/
def Obligations.Copies : Prop := Rules.CopiesIssued ∧ Rules.Batches

/-! ## Class 0x8: matrices -/

/-- R40, R53, R241, R249: the tile operations. When the whole gang stands at one, and no other wave claims the quadrant's
tiles, the wave claims them and the operation enters its queue, which has 8 entries, with the registers and the executing
lanes it captures; MMA.SA goes to the sampler array's queue, MMA.GRP captures its scalar. REGANG only makes the gang one
fragment (R164). -/
def Rules.TileOperations : Prop :=
  ∀ (s : State) (e : Env) (f : XFmt) (r : CFmt),
    (∀ p ∈ [(Instr.mma f, false, ([] : List Word)), (.mmaGrp f, false, [lowWord (e.read .z32 f.sop (lowestLane (e.ganged (.mmaGrp f) s).lanes))]),
      (.mmaLut f, false, []), (.mmaSa f, true, []), (.lutb f, false, []), (.aclr f, false, []), (.ascale f, false, [])],
      s.Gangs e p.1 → (p.1 = .mma f → f.mode.getLsbD 0 = false) →
      let e1 := e.ganged p.1 s
      let s1 := s.ganged e p.1
      let s2 := s1.claimed e1
      let op : MatOp := {
        wave := e.wk, core := e.core, batch := e1.wave.batchClosed + 1, instr := p.1, pc := e1.pc, dom := e.wave.dom,
        lanes := e1.lanes, vregs := e.wave.v, sregs := p.2.2, shared := none, ref := 0, entry := noEntry, coords := [], sampler := p.2.1,
        waited := false }
      s1.claimFree e1 → (if p.2.1 then s2.samplerUsed e1.core else s2.queueUsed e1.quad) < 8 →
        exec p.1 s = .next (({ s2 with matOps := s2.matOps ++ [op] }).after e1 p.1 (e1.result p.1 [] .none))) ∧
    (s.Gangs e (.regang r) → exec (.regang r) s =
      .next ((s.ganged e (.regang r)).after (e.ganged (.regang r) s) (.regang r) ((e.ganged (.regang r) s).result (.regang r) [] .none)))

/-- R251: a `.shb` MMA whose step has started leaves the step and goes on to the next. -/
def Rules.SharedSteps : Prop :=
  ∀ (s : State) (e : Env) (f : XFmt) (x : SharedB), s.Gangs e (.mma f) → f.mode.getLsbD 0 = true →
    let e1 := e.ganged (.mma f) s
    let s1 := s.ganged e (.mma f)
    s1.stepOf e.wk = some x →
    (x.status = .started → exec (.mma f) s = .next (((s1.dropStep e.wk).modWave e.wk fun w =>
      { w with sharedStep := e1.wave.sharedStep + 1 }).after e1 (.mma f) (e1.result (.mma f) [] .none))) ∧
    (x.status = .failed → exec (.mma f) s =
      .next ((s1.dropStep e.wk).trapped e1 0x10 (BitVec.ofNat 64 (2 ^ 63 + e1.wave.sharedStep % 2 ^ 32))))

/-- R244 to R248, R253 to R255, R257: what a tile operation leaves in its tiles, element by element, from the registers it
captured: a product adds, group by group, the exact sum of 32 products rounded once; MMA.GRP each row with the B of the segment
that covers it; LUTB's tables are sums of four activations, and MMA.LUT adds their weighted sum; ACLR clears and ASCALE scales by
a column's or a row's factor. Every other element of the wave's tiles stays. -/
def Rules.MatrixValues : Prop :=
  ∀ (o : MatOp) (f : XFmt) (w : Wave) (i j : Nat), i < 64 → j < 32 → f.ity ∈ [.f16, .bf16, .s8, .z8, .e4m3, .e5m2, .mxf4] →
    let t := f.ity
    let s := f.shape.toNat
    let after (n : Nat) : Nat := ((o.run w).tile n i j).toNat
    let before (n : Nat) : Nat := (w.tile n i j).toNat
    let T := f.tile.toNat
    let row (m : Nat) : Nat := if o.lanes.getLsbD i then (SMap.get 0 o.vregs (96 * (regNo f.abase + m) + i)).toNat else 0
    let col (off m : Nat) : Nat := match o.shared with
      | some b => (SMap.get 0 b (96 * m + j)).toNat
      | none => (SMap.get 0 o.vregs (96 * (regNo f.bbase + off + m) + j)).toNat
    let el (r : Nat → Nat) (k : Nat) : Nat := r (k * t.width / 32) / 2 ^ (k * t.width % 32) % 2 ^ t.width
    let scale (r : Nat → Nat) (g : Nat) : Nat := if t = .mxf4 then r (4 * (s + 1) + g / 4) / 256 ^ (g % 4) % 256 else 127
    let product (a b : Nat) : FVal × Bool :=
      if t.isFloat then FVal.mul (t.fmt.decode a) (t.fmt.decode b)
      else (.fin (decide (t.value a * t.value b < 0)) (t.value a * t.value b).natAbs 0, false)
    let group (off g : Nat) : Nat :=
      if scale row g = 255 ∨ scale (col off) g = 255 then 0x7FC00000
      else (binary32.sumR false .rne ((List.range 32).map fun k =>
        let p := product (el row (32 * g + k)) (el (col off) (32 * g + k))
        (p.1.scale ((scale row g : Int) + scale (col off) g - 254), p.2))).code
    let product32 (off : Nat) : Nat := (List.range (s + 1)).foldl (fun acc g => Rules.sum32 acc (group off g)) (before T)
    let count (h : Nat) : Nat := (o.sregs.getD 0 0).toNat / 256 ^ h % 256
    let start (h : Nat) : Nat := min 64 ((List.range h).map count).sum
    let bits := f.mode.toNat / 4 % 4 + 1
    let weightBit (n : Nat) : Bool := (SMap.get 0 o.vregs (96 * (regNo f.bbase + n / 32) + j)).getLsbD (n % 32)
    let plane (p : Nat) : Int := if p + 1 = bits ∧ f.mode.getLsbD 1 = true then -(2 ^ p : Nat) else (2 ^ p : Nat)
    let weighted (L : Nat) : Nat := (binary32.sumR false .rne ((.fin false 0 0, false) ::
      (List.range 8).flatMap fun g => (List.range bits).map fun p =>
        let x := (List.range 4).foldl (fun x b => x + if weightBit (bits * (4 * g + b) + p) then 2 ^ b else 0) 0
        FVal.mul (.fin (decide (plane p < 0)) (plane p).natAbs 0)
          (binary32.decode (w.tile (L + g / 2) i (16 * (g % 2) + x)).toNat))).code
    (o.instr ∈ [.mma f, .mmaSa f] → after T = product32 0) ∧
    (o.instr = .mmaGrp f →
      (∀ h ≤ f.mode.toNat % 4, start h ≤ i → i < start (h + 1) → after T = product32 (h * rowRegs t s)) ∧
      (start (f.mode.toNat % 4 + 1) ≤ i → after T = before T)) ∧
    (o.instr = .lutb f → t.isFloat = true → ∀ q < 4, after (T + q) = (binary32.sumR false .rne
      (((List.range 4).filter fun b => (j % 16).testBit b).map fun b =>
        (t.fmt.decode (el row (4 * (2 * q + j / 16) + b)), false))).code) ∧
    (∀ L : BitVec 5, o.instr = .mmaLut f → f.sop = .int L → after T = Rules.sum32 (before T) (weighted L.toNat)) ∧
    (o.instr = .aclr f → after T = 0) ∧
    (o.instr = .ascale f → after T = (binary32.mulR false .rne (binary32.decode (before T)) (binary32.decode
      (if f.mode.getLsbD 0 then SMap.get 0 o.vregs (96 * regNo f.abase + i)
       else SMap.get 0 o.vregs (96 * regNo f.bbase + j)).toNat)).code) ∧
    (∀ n, n ≠ T → (o.instr = .lutb f → T + 4 ≤ n ∨ n < T) → o.instr ∈ [.mma f, .mmaSa f, .mmaGrp f, .lutb f, .mmaLut f, .aclr f, .ascale f] →
      after n = before n)

/-- R40, R53, R164, R241, R244 to R249, R251, R253 to R255, R257: gang points that feed the matrix units, and what their
operations leave. -/
def Obligations.TileQueue : Prop := Rules.TileOperations ∧ Rules.SharedSteps ∧ Rules.MatrixValues

/-- R256, R258, R374: BLOAD, DRAIN and DRAIN.ADD: after their checks they enter the quadrant's queue with the object they name; the
drains first claim the tiles. A DRAIN.ADD of deterministic mode without the token waits for it where its workgroup's part of the
commit log has no room, and else is logged with the tile's elements once no earlier operation on the tile is incomplete. -/
def Obligations.TileTransfers : Prop :=
  ∀ (s : State) (e : Env) (f : XFmt),
    (s.Gangs e (.bload f) → let e1 := e.ganged (.bload f) s
      let s1 := s.ganged e (.bload f)
      let ref := e1.readRef f.abase e1.first
      let cs := e1.coords f.sop e1.first
      ∀ entry, s1.checkObject e1.core e1.dom ref needR .tensor 0 0 = .ok entry → (s1.tensor entry).inside cs = true →
        (s1.tensor entry).etype = etypeOf f.ity → (f.ity = .mxf4 → (s1.tensor entry).layout = 5) →
        ((s1.tensor entry).layout = 5 → cs.getD 0 0 % 32 = 0) → e1.awaits s1 (BitVec.allOnes 24) = none →
        let s2 := s1.cacheEntry e1.core e1.dom (refIndex ref)
        s2.queueUsed e1.quad < 8 → exec (.bload f) s = .next (({ s2 with matOps := s2.matOps ++
          [{ e1.matOp (.bload f) with ref := ref, entry := entry, coords := cs }] }).after e1 (.bload f) (e1.result (.bload f) [] .none))) ∧
    (∀ p ∈ [(Instr.drain f, needW, drainSize f.ity), (.drainAdd f, needA, 32)], s.Gangs e p.1 → p.1 = .drain f ∨ e.launch.det = false ∨ Rules.hasToken e →
      let e1 := e.ganged p.1 s
      let s1 := s.ganged e p.1
      ∀ o, e1.drainChecks s1 p.1 f p.2.1 p.2.2 = .ok o → e1.awaits s1 e1.frag.slices = none → s1.claimFree e1 →
        let s2 := (s1.claimed e1).cacheEntry e1.core e1.dom (refIndex o.ref)
        s2.queueUsed e1.quad < 8 → o.sampler = false →
          exec p.1 s = .next (({ s2 with matOps := s2.matOps ++ [o] }).after e1 p.1 (e1.result p.1 [] .none))) ∧
    (s.Gangs e (.drainAdd f) → e.launch.det = true → e.launch.token ≠ e.launch.keyOf e.wg →
      let e1 := e.ganged (.drainAdd f) s
      let s1 := s.ganged e (.drainAdd f)
      let s2 := s1.claimed e1
      ∀ o w, e1.drainChecks s1 (.drainAdd f) f needA 32 = .ok o → e1.awaits s1 e1.frag.slices = none → s1.claimFree e1 →
        s2.tileBusy e.wk f.tile.toNat = false → s2.queueUsed e1.quad < 8 → s2.waves.find? e.wk = some w →
        let accs := s2.drainAccs o f w
        (e.launch.clogLen < e.wg.logUsed + 8256 → exec (.drainAdd f) s = .next (s2.setWait e1 .token)) ∧
        (e.wg.logUsed + 8256 ≤ e.launch.clogLen → e1.followsOps s2 0 accs = none →
          s2.logNeeds e.core e.launch.dom e.launch (e.launch.logPlace e.wg) 8256 = [] → exec (.drainAdd f) s =
            .next ((s2.logged e1 (.drainAdd f) accs (some e1.wave.openBatch) 8256).after e1 (.drainAdd f) (e1.result (.drainAdd f) [] .none))))

/-- R257: AMOVR reads, and AMOVW writes, row l of a tile in each executing lane l below 64, eight columns of the SHAPE's
group or all 32, once no earlier operation of the wave on the tile is incomplete; AMOVW needs room in the queue too. -/
def Rules.TileMoves : Prop :=
  ∀ (s : State) (e : Env) (f : XFmt),
    let ls := (lanesOf e.lanes).filter fun l => l < 64
    let columns : List (Nat × Nat) :=
      if f.shape = 4 then (List.range 32).map fun m => (m, m) else (List.range 8).map fun m => (8 * f.shape.toNat + m, m)
    let s1 := s.claimed e
    s.claimFree e → s1.tileBusy e.wk f.tile.toNat = false →
    (s.Issues e (.amovr f) → exec (.amovr f) s = .next (s1.after e (.amovr f) (e.result (.amovr f)
      (ls.flatMap fun l => writeRun f.abase l (columns.map fun c => e.wave.tile f.tile.toNat l c.1)) .none))) ∧
    (s.Issues e (.amovw f) → s1.queueUsed e.quad < 8 → exec (.amovw f) s = .next ((s1.modWave e.wk fun w =>
      ls.foldl (fun w l => columns.foldl (fun w c => w.setTile f.tile.toNat l c.1 (e.wave.vreg (regNo f.abase + c.2) l)) w) w).after e
        (.amovw f) (e.result (.amovw f) [] .none)))

/-- R260, R262: LEND raises and RECALL lowers the wave's and the core's lend counts by one; a LEND at a wave count of 15
changes nothing; ASTAT reads the busy tiles, the queue's use, the two counts or the claim. -/
def Rules.Lending : Prop :=
  ∀ (s : State) (e : Env) (f : XFmt),
    let count := SMap.get 0 s.lends e.core
    let set (d : BitVec 4) (n : Nat) : State :=
      { s.modWave e.wk (fun w => { w with lend := d }) with lends := SMap.set 0 s.lends e.core n }
    let value : Nat := [s.busyTiles e, s.queueUsed e.quad, e.wave.lend.toNat, count].getD f.shape.toNat (if e.wave.claim then 1 else 0)
    (s.Runs e (.lend f) → e.wave.lend ≠ 15 →
      exec (.lend f) s = .next ((set (e.wave.lend + 1) (count + 1)).completed e (.lend f) (e.result (.lend f) [] .none))) ∧
    (s.Runs e (.lend f) → e.wave.lend = 15 → exec (.lend f) s = .next (s.wrote e (.lend f) [] .none)) ∧
    (s.Runs e (.recall f) →
      exec (.recall f) s = .next ((set (e.wave.lend - 1) (count - 1)).completed e (.recall f) (e.result (.recall f) [] .none))) ∧
    (s.Runs e (.astat f) → exec (.astat f) s =
      .next (s.wrote e (.astat f) (writeTo .z32 f.abase e.first (BitVec.ofNat 64 value)) .none))

/-- R257, R260, R262: AMOVR, AMOVW, LEND, RECALL, ASTAT. -/
def Obligations.TilesAndLending : Prop := Rules.TileMoves ∧ Rules.Lending

/-! ## Class 0x9: sampler and rays -/

/-- R276, R281, R284, R286, R287: SAMPLE, GATHER and SAMPLE.N, when their headers (and SAMPLE.N's images) have been read
and are valid, evaluate their lanes in ascending order and complete with every lane's result where each lane's texels can be
read; STOCH takes one draw of each lane. TEXQ writes what it asks of each lane's header or image. -/
def Rules.SamplerInstructions : Prop :=
  ∀ (s : State) (e : Env) (f : GFmt) (hs : List LaneHdr),
    let s1 := e.sampleReady s
    let noted (s : State) (refs : List DWord) : State := e.noteHeaders (s.fillRefs e.core e.dom refs) refs
    let ran (i : Instr) (draws : Bool) (s2 : State) (js : List SampleJob) : Prop :=
      let accs := js.flatMap fun j => j.accs e.wave.dom
      let s3 := e.noteHeaders (s2.fillObjects e.core accs) (js.map fun j => j.ref)
      let r := runJobs e.who e.wave.dom i (if draws then e.reserve 1 s3 else s3) js
      e.mustFollow s2 0 accs = none → r.left = [] → r.late = [] → exec i s = .next (r.s.after e i (e.result i r.ws .none))
    let sel := f.ctl.toNat % 8
    let m (l : Nat) : Nat := if f.extra = .none then 0 else e.readZ f.extra l
    (s.Issues e (.sample f) → e.headers s1 f.hdr (fun h => TexHdr.hkind h == 0) = .ok hs →
      ran (.sample f) (f.ctl.getLsbD 3) s1 (hs.map (e.sampleJob f []))) ∧
    (s.Issues e (.gather f) → e.headers s1 f.hdr (fun _ => true) = .ok hs →
      (∀ h ∈ hs, f.ctl.toNat % 64 < TexHdr.channels (TexHdr.fmt h.hdr) (TexHdr.ch h.hdr)) →
      ran (.gather f) false s1 (hs.map (e.gatherJob f))) ∧
    (∀ s2 images, s.Issues e (.sampleN f) → e.headers s1 f.hdr (fun h => TexHdr.hkind h == 1) = .ok hs →
      e.nets s1 hs = .ok s2 images →
      ran (.sampleN f) (f.ctl.getLsbD 3) s2 (images.map fun x => e.sampleJob f x.2 x.1)) ∧
    (s.Issues e (.texq f) → e.headers s1 f.hdr (fun _ => true) = .ok hs → sel ≠ 7 →
      exec (.texq f) s = .next ((noted s1 (hs.map fun h => h.ref)).after e (.texq f) (e.result (.texq f) (hs.flatMap fun h =>
        writeTo .z32 f.dbase h.lane (BitVec.ofNat 64 (texqValue h.hdr sel (m h.lane) []))) .none))) ∧
    (∀ s2 images, s.Issues e (.texq f) → e.headers s1 f.hdr (fun _ => true) = .ok hs → sel = 7 →
      e.nets s1 (hs.filter fun h => TexHdr.hkind h.hdr == 1) = .ok s2 images →
      exec (.texq f) s = .next ((noted s2 (hs.map fun h => h.ref)).after e (.texq f) (e.result (.texq f) (hs.flatMap fun h =>
        writeTo .z32 f.dbase h.lane (BitVec.ofNat 64 (texqValue h.hdr 7 (m h.lane)
          (((images.find? fun x => x.1.lane == h.lane).map fun x => x.2).getD [])))) .none)))

/-- R267, R270, R272: filtering. An axis is cut at the integer nearest to v × n × 256 − 128, a tie going to the even one; the weights
of a filter's texels add up to its divisor; a channel is the exact weighted sum over that divisor, rounded once, a normalised
format's over 255 besides, and a border texel counts with the header's border value or, in a latent grid, with zero. -/
def Rules.Filtering : Prop :=
  (∀ (neg : Bool) (m : Nat) (k n : Nat),
    let a := axis (.fin neg m (-(k : Int))) n
    let x : Int := 256 * a.1 + a.2
    let exact : Int := (if neg then -(m : Int) else m) * (256 * n) - 128 * 2 ^ k
    a.2 < 256 ∧ (-(2 ^ 31) < x → x < 2 ^ 31 - 1 →
      2 * (x * 2 ^ k - exact).natAbs ≤ 2 ^ k ∧ (2 * (x * 2 ^ k - exact).natAbs = 2 ^ k → x % 2 = 0))) ∧
  (∀ (h : THeader) (m layer l : Nat) (u v : FVal), ((footprint h m layer u v).map fun x => x.2).sum = 65536 ∧
    (((filtered h l layer u v).1.map fun x => x.2).sum = 2 ^ (filtered h l layer u v).2)) ∧
  (∀ (fmt ch shift c : Nat) (border : DWord) (texels : List (List Byte × Nat)), fmt = 1 ∨ fmt = 2 ∨ fmt = 3 → c < TexHdr.channels fmt ch →
    channelValue fmt ch border (texels.map fun x => (some x.1, x.2)) shift c = (binary32.round false .rne false
      (Mag.quot (texels.map fun x => (x.1.getD c 0).toNat * x.2).sum (-(shift : Int)) 255 0)).code) ∧
  (∀ (fmt ch shift c : Nat) (border : DWord) (texels : List (Option (List Byte) × Nat)),
    fmt ∈ [0x05, 0x06, 0x07, 0x08, 0x09, 0x0A, 0x10, 0x11] → c < TexHdr.channels fmt ch →
    let size := if fmt = 0x10 then 1 else if 0x08 ≤ fmt ∧ fmt ≤ 0x0A then 4 else 2
    let value (bs : Option (List Byte)) : FVal := match bs with
      | some bs => (if size = 1 then e4m3 else if size = 2 then binary16 else binary32).decode (natOfBytes ((bs.drop (c * size)).take size))
      | none => if 0x10 ≤ fmt then .fin false 0 0 else binary16.decode (border.toNat / 2 ^ (16 * c) % 2 ^ 16)
    channelValue fmt ch border texels shift c = (binary32.sumR false .rne (texels.map fun x =>
      let p := FVal.mul (value x.1) (.fin false x.2 0)
      (p.1.scale (-(shift : Int)), p.2))).code) ∧
  channelValue 0x01 0 0 [(some [0x40], 26 * 256), (some [0xC0], 230 * 256)] 16 0 = 0x3F33B3B4

/-- R248, R275, R276: one layer of a network gives each of its outputs from the layer's input, quantised to the type of its weights:
the bias, to which each group's exact sum, rounded once, is added, and then the activation, whose values are those of R276 for the
identity, ReLU and clamp, and for sigmoid at 0, at the infinities and for a NaN. -/
def Rules.Networks : Prop :=
  (∀ (l : NetLayer) (bs : List Byte) (x : List Nat) (j : Nat), j < l.n → x.length = l.k →
    let t : Ty := if l.wt = 12 then .e4m3 else if l.wt = 13 then .e5m2 else .mxf4
    let groups := (l.k + 31) / 32
    let row := l.woff + j * (if l.wt = 14 then groups * 17 else groups * 32)
    let input (k : Nat) : FVal := binary32.decode (x.getD k 0)
    let sa (g : Nat) : Nat := if t = .mxf4 then groupScale (((x.drop (32 * g)).take 32).map binary32.decode) else 127
    let sw (g : Nat) : Nat := if t = .mxf4 then imageNat bs (row + groups * 16 + g) 1 else 127
    let a (k : Nat) : Nat :=
      if l.k ≤ k then 0
      else match (input k).scale (127 - (sa (k / 32) : Int)) with
        | .nan => t.fmt.nanCode
        | .inf s => t.fmt.maxCode s
        | .fin s m e => let r := t.fmt.round false .rne s ⟨m, e, false⟩
          if r.cond.of_ then t.fmt.maxCode s else r.code
    let w (k : Nat) : Nat :=
      if l.k ≤ k then 0 else if t = .mxf4 then imageNat bs (row + k / 2) 1 / 16 ^ (k % 2) % 16 else imageNat bs (row + k) 1
    let sum (g : Nat) : Nat :=
      if sa g = 255 ∨ sw g = 255 then 0x7FC00000
      else (binary32.sumR false .rne ((List.range 32).map fun i =>
        let p := FVal.mul (t.fmt.decode (a (32 * g + i))) (t.fmt.decode (w (32 * g + i)))
        (p.1.scale ((sa g : Int) + sw g - 254), p.2))).code
    (l.run bs x)[j]? = some (activation l.act ((List.range groups).foldl (fun acc g => Rules.sum32 acc (sum g))
      (imageNat bs (l.boff + 4 * j) 4)))) ∧
  (∀ code : Nat, code < 2 ^ 32 →
    let v := binary32.decode code
    let above (x : FVal) : Bool := FVal.cmp x v == some .lt
    activation 0 code = code ∧
    activation 1 code = (if v = .nan ∨ above (.fin false 0 0) = true then code else 0) ∧
    activation 2 code = (if above (.fin false 0 0) = false then 0 else if FVal.cmp v (.fin false 1 0) = some .lt then code else 0x3F800000) ∧
    (v = .nan → activation 3 code = code)) ∧
  activation 3 0x7F800000 = 0x3F800000 ∧ activation 3 0xFF800000 = 0 ∧ activation 3 0 = 0x3F000000 ∧ activation 3 0x80000000 = 0x3F000000

/-- R248, R267, R270, R272, R275, R276, R281, R284, R286, R287: the sampler's reads and the values they give. -/
def Obligations.SamplerReads : Prop := Rules.SamplerInstructions ∧ Rules.Filtering ∧ Rules.Networks

/-- R278, R281 to R283, R286: WPIN of a cached image writes its status and, where that is 0, adds a pin; of another it asks
for the fill and waits. WUNPIN takes a pin away, not below 0. WINV fences and drops the image's copy. RNG without a key
writes N+1 draws of each lane and takes them; with one, the values of its key, and takes none. -/
def Obligations.WeightPins : Prop :=
  ∀ (s : State) (e : Env) (f : GFmt),
    let pin (n : Nat) (ref : DWord) (s : State) : State :=
      s.modWave e.wk fun w => { w with wpins := SMap.set 0 w.wpins (imageKey e.dom ref) n }
    let pinned (n : Nat) (ref : DWord) (image : WImage) (s : State) : State :=
      s.modWave e.wk fun w => { w with wpins := SMap.set 0 w.wpins (imageKey e.dom ref) n, wblocks := w.wblocks.insert (imageKey e.dom ref) image.blocks }
    let held (ref : DWord) : Nat := SMap.get 0 e.wave.wpins (imageKey e.dom ref)
    let n := f.ctl.toNat % 8 + 1
    (∀ ref image, s.Issues e (.wpin f) → e.netRef s f.hdr = .ok ref → s.image? e.core (imageKey e.dom ref) = some image →
      let s1 := s.useImage e.core (imageKey e.dom ref)
      (e.pinStatus s image = 0 → exec (.wpin f) s = .next ((pinned (held ref + 1) ref image s1).after e (.wpin f)
        (e.result (.wpin f) (writeTo .z32 f.dbase e.first 0) .none))) ∧
      (e.pinStatus s image ≠ 0 → exec (.wpin f) s = .next (s1.after e (.wpin f)
        (e.result (.wpin f) (writeTo .z32 f.dbase e.first (BitVec.ofNat 64 (e.pinStatus s image))) .none)))) ∧
    (∀ ref, s.Issues e (.wpin f) → e.netRef s f.hdr = .ok ref → s.image? e.core (imageKey e.dom ref) = none →
      e.mustFollow s 0 [e.imageAcc ref] = none →
      exec (.wpin f) s = .next ((s.startFill e.core e.wave.dom ref e.wk e.who.slices none).setWait e (.fill (imageKey e.dom ref) ref))) ∧
    (∀ ref, s.Issues e (.wunpin f) → e.netRef s f.hdr = .ok ref →
      exec (.wunpin f) s = .next ((pin (held ref - 1) ref s).after e (.wunpin f) (e.result (.wunpin f) [] .none))) ∧
    (∀ ref, s.Issues e (.winv f) → e.netRef s f.hdr = .ok ref → e.awaits s e.who.slices = none →
      let s1 := (s.release e.core e.wk e.who.slices (f.ctl.extractLsb' 0 3)).acquireAct e.core (f.ctl.extractLsb' 0 3)
      exec (.winv f) s = .next ((s1.dropImages e.core fun i => i.key == imageKey e.dom ref).after e (.winv f)
        (e.result (.winv f) [] .none))) ∧
    (s.Runs e (.rng f) → f.extra = .none → exec (.rng f) s = .next ((e.reserve n s).wrote e (.rng f)
      ((lanesOf e.lanes).flatMap fun l => writeRun f.dbase l ((List.range n).map (e.draw l))) .none)) ∧
    (s.Runs e (.rng f) → f.extra ≠ .none → exec (.rng f) s = .next (s.wrote e (.rng f)
      ((lanesOf e.lanes).flatMap fun l => writeRun f.dbase l ((List.range n).map fun j =>
        drawOf (drawKey e.launch.lid e.wave.seed) (lidOf l e.wave.no e.wg.stage e.wg.index)
          (BitVec.ofNat 32 (e.readZ f.extra l + j)))) .none))

/-- R303 to R305, R307: RAY.PIN pins the live generation and writes its number, or writes 0 with no pin; RAY.UNPIN takes a
pin away; RAY.TRACE starts its lanes' rays and RAY.NEXT continues them, both pending until the lanes' traversals end. A
generation that is not pinned and a lane without a call-out are sub-reason 0x26. -/
def Obligations.RayInstructions : Prop :=
  ∀ (s : State) (e : Env) (f : GFmt),
    let ref := e.readRef f.hdr e.first
    let given : Word := lowWord (e.read .z32 f.extra e.first)
    let bad (i : Instr) : Prop := exec i s = .next (s.trapped e 0x40 (illegalVal i.word 0x26))
    let runs (i : Instr) (p : Pending) : Prop := p.instr = i ∧ p.kind = .ray ∧ p.mask = e.lanes ∧ p.writes = [] ∧ p.accs = []
    let laneRef (l : Nat) : DWord := e.readRef f.hdr l
    let laneGen (l : Nat) : Word := lowWord (e.read .z32 f.extra l)
    let decided (l : Nat) (w : Wave) : Wave :=
      { w with rays := w.rays.modify l fun r => r.decide (e.readZ f.extra l) (w.vreg (regNo f.dbase + 2) l) }
    (∀ entry, s.Issues e (.rayPin f) → s.checkObject e.core e.dom ref needR (.only 5) 0 0 = .ok entry →
      s.residentRange entry 0 256 = true → s.objectPoison (dieOf e.core) e.dom entry 0 32 = false →
      let s1 := s.acquireAct e.core 5
      let gen : Word := BitVec.ofNat 32 (natOfBytes (s1.bytes (s1.addrOf e.dom entry 0) 4))
      let held := e.wave.rayPin ref gen
      let none_ : Prop := gen = 0 ∨ held = 255 ∨ held = 0 ∧ 4 ≤ e.wave.rayPins.length
      (none_ → exec (.rayPin f) s = .next (s1.after e (.rayPin f) (e.result (.rayPin f) (writeTo .z32 f.dbase e.first 0) .none))) ∧
      (¬ none_ → exec (.rayPin f) s = .next (((s1.modPins e.dom entry gen (· + 1)).modWave e.wk fun w =>
        w.setRayPin ref gen (held + 1)).after e (.rayPin f)
          (e.result (.rayPin f) (writeTo .z32 f.dbase e.first (gen.zeroExtend 64)) .none)))) ∧
    (s.Issues e (.rayUnpin f) → e.wave.rayPin ref given = 0 → bad (.rayUnpin f)) ∧
    (s.Issues e (.rayUnpin f) → e.wave.rayPin ref given ≠ 0 → exec (.rayUnpin f) s =
      .next (((s.unpinGeneration e.dom ref given 1).modWave e.wk fun w =>
        w.setRayPin ref given (e.wave.rayPin ref given - 1)).after e (.rayUnpin f) (e.result (.rayUnpin f) [] .none))) ∧
    (s.Issues e (.rayTrace f) → (∃ l ∈ lanesOf e.lanes, e.wave.rayPin (laneRef l) (laneGen l) = 0) → bad (.rayTrace f)) ∧
    (∀ entries : Nat → ObjEntry, s.Issues e (.rayTrace f) →
      (∀ l ∈ lanesOf e.lanes, e.wave.rayPin (laneRef l) (laneGen l) ≠ 0 ∧
        s.checkObject e.core e.dom (laneRef l) needR (.only 5) 0 0 = .ok (entries l)) →
      e.raysBusy = none → (∀ l ∈ lanesOf e.lanes, e.wave.rays.find? l = none) →
      ∃ p, runs (.rayTrace f) p ∧ exec (.rayTrace f) s = .next (((lanesOf e.lanes).foldl (fun s l =>
        (s.modPins e.dom (entries l) (laneGen l) (· + 1)).modWave e.wk fun w =>
          { w with rays := SMap.insert w.rays l (e.raySlot f s (laneRef l) (entries l) (laneGen l) l) }) s).after e
            (.rayTrace f) (pends p))) ∧
    (s.Issues e (.rayNext f) → (∃ l ∈ lanesOf e.lanes, ((e.wave.rays.find? l).bind fun r => r.cand) = none) → bad (.rayNext f)) ∧
    (s.Issues e (.rayNext f) → (∀ l ∈ lanesOf e.lanes, ((e.wave.rays.find? l).bind fun r => r.cand) ≠ none ∧ e.readZ f.extra l ≤ 2) →
      ∃ p, runs (.rayNext f) p ∧ exec (.rayNext f) s = .next (((lanesOf e.lanes).foldl (fun s l =>
        (s.modWave e.wk (decided l)).bumpFree) s).after e (.rayNext f) (pends p)))

/-- R303, R309: BVH.BUILD and BVH.REFIT, with the records' range in bounds and 1 to 2^24 records, and BVH.BAL and BVH.PUB,
enter the queue of the builder that homes the BVH; a failed check of the BVH's reference, for W, traps. -/
def Obligations.BuilderInstructions : Prop :=
  ∀ (s : State) (e : Env) (f : GFmt),
    let bvh := e.readRef f.hdr e.first
    let geo := e.readRef f.cbase e.first
    let n := e.readZ f.extra e.first
    let size := if f.ctl.getLsbD 3 then 32 else 48
    let joins (i : Instr) (be : ObjEntry) (geo : DWord) (ge : ObjEntry) (n : Nat) : Prop :=
      let op : BuildOp := {
        die := s.bvhDie be, core := e.core, wave := e.wk, slices := e.who.slices, batch := e.wave.openBatch, instr := i,
        pc := e.pc, dom := e.wave.dom, bvhRef := bvh, bvhEntry := be, geoRef := geo, geoEntry := ge, count := n,
        scope := f.ctl.extractLsb' 0 3, started := false, waited := false, geo := [], place := 0, reserved := none, fence := 0 }
      let refs := if n = 0 then [bvh] else [bvh, geo]
      exec i s = .next (({ s.fillRefs e.core e.dom refs with builds := s.builds ++ [op] } : State).after e i (e.result i [] .none))
    (∀ i ∈ [Instr.bvhBuild f, .bvhRefit f, .bvhBal f, .bvhPub f], s.Issues e i → ∀ c,
      s.checkObject e.core e.dom bvh needW (.only 5) 0 0 = .error c → exec i s = .next (s.trapped e c bvh)) ∧
    (∀ be, s.checkObject e.core e.dom bvh needW (.only 5) 0 0 = .ok be → e.awaits s e.frag.slices = none →
      (∀ i ∈ [Instr.bvhBuild f, .bvhRefit f], s.Issues e i → ∀ ge,
        e.copyRange s geo needR (.only 0) (size * n) = .ok ge →
        (1 ≤ n → n ≤ 2 ^ 24 → joins i be geo ge n) ∧
        (n = 0 ∨ 2 ^ 24 < n → exec i s = .next (s.trapped e 0x40 (illegalVal i.word 0x27)))) ∧
      (∀ i ∈ [Instr.bvhBal f, .bvhPub f], s.Issues e i → joins i be 0 noEntry 0))

/-! ## Class 0xA: barriers, collectives and gates -/

/-- R316, R318: an arrival lowers COUNT by c; where COUNT is not above c the phase completes: PHASE goes up by one, modulo
256, and COUNT becomes RELOAD. A RELOAD of 0 leaves COUNT at 0 and the phase as it is. -/
def Rules.BarrierWords : Prop :=
  ∀ (s : State) (holder b c : Nat) (cl : Bool) (wg : Workgroup), s.workgroups.find? holder = some wg →
    (∀ a, wg.phase ≠ .saved a) →
    let x := s.barWord holder cl b
    let y := (s.reduceCount holder cl b c).barWord holder cl b
    (c < barCount x → y = mkBar (barPhase x) (barReload x) (barCount x - c)) ∧
    (barCount x ≤ c → barReload x ≠ 0 → y = mkBar ((barPhase x + 1) % 256) (barReload x) (barReload x)) ∧
    (barCount x ≤ c → barReload x = 0 → y = mkBar (barPhase x) 0 0)

/-- R318, R319, R322, R323: ARRIVE, BAR and BAR.CL release and set their slices' pending bits once; BAR, BAR.CL and WAITBAR
complete, with an acquire and their slices' wait targets raised, where every slice passes, and wait where none does. -/
def Rules.BarrierInstructions : Prop :=
  ∀ (s : State) (e : Env) (f : YFmt),
    let b := f.imm.toNat % 64
    let far := f.imm.getLsbD 6
    let arrived (cl : Bool) (c : Nat) : State :=
      (s.release e.core e.wk e.frag.slices (barScope cl)).setPending e.wk e.frag.slices cl b c
    let waits (i : Instr) (cl : Bool) (t : State) : Prop :=
      (t.passing e cl b = e.frag.slices → e.frag.slices ≠ 0 → exec i s =
        .next (((t.raiseTargets e.wk e.frag.slices cl b).acquireAct e.core (barScope cl)).after e i (e.result i [] .none))) ∧
      (t.passing e cl b = 0 → exec i s = .next (t.setWait e (.bar cl b)))
    (s.Issues e (.arrive f) → e.awaits s e.frag.slices = none → exec (.arrive f) s =
      .next ((arrived far (f.imm.toNat / 128 % 256 + 1)).after e (.arrive f) (e.result (.arrive f) [] .none))) ∧
    (∀ p ∈ [(Instr.bar f, false), (.barCl f, true)], s.Issues e p.1 → e.frag.wait ≠ .bar p.2 b → e.awaits s e.frag.slices = none →
      waits p.1 p.2 (arrived p.2 1)) ∧
    (∀ p ∈ [(Instr.bar f, false), (.barCl f, true)], s.Issues e p.1 → e.frag.wait = .bar p.2 b → waits p.1 p.2 s) ∧
    (s.Issues e (.waitbar f) → waits (.waitbar f) far s)

/-- R316, R318, R319, R322, R323: barriers. -/
def Obligations.Barriers : Prop := Rules.BarrierWords ∧ Rules.BarrierInstructions

/-- R324 to R326, R328: a COLL instruction whose descriptor and ranges pass their checks, with fewer than eight on its
channel, releases at domain scope, has the entries of its objects cached and joins the channel with the next number; COLL.WAIT waits for the wave's collectives on
its channel and then acquires at domain scope. -/
def Obligations.Collectives : Prop :=
  ∀ (s : State) (e : Env) (f : YFmt),
    let ref := e.readRef f.op1 e.first
    let ch := f.imm.toNat / 2 ^ 12 % 64
    let s1 := s.release e.core e.wk e.frag.slices 6
    let key := 64 * e.wg.launch + ch
    (∀ i ∈ [Instr.collRed f, .collGath f, .collScat f, .collBcast f], s.Issues e i → ∀ de a se dd,
      s.checkBytes e.core e.dom ref needRW (.only 0) (refOffset ref) 64 64 = .ok de → e.awaits s e.frag.slices = none →
      s1.residentAddr e.dom de (refOffset ref) 64 = some a → s1.portPoisoned (dieOf e.core) a = false →
      s1.portPoisoned (dieOf e.core) (a + 32) = false →
      let n := collBytes i (s1.word64 a) e.launch.npkg e.launch.rank
      e.collRange s1 (s1.word64 (a + 8)) needR .load n.1 = .ok se →
      e.collRange s1 (s1.word64 (a + 16)) needW .store n.2 = .ok dd →
      (s.colls.filter fun c => decide (c.launch = e.wg.launch ∧ c.channel = ch)).length < 8 →
      let s2 := s1.fillRefs e.core e.dom ([ref] ++ (if n.1 = 0 then [] else [s1.word64 (a + 8)]) ++
        (if n.2 = 0 then [] else [s1.word64 (a + 16)]))
      ∃ c : Coll, c.wave = e.wk ∧ c.launch = e.wg.launch ∧ c.instr = i ∧ c.pc = e.pc ∧ c.channel = ch ∧
        c.number = SMap.get 0 s2.collCount key + 1 ∧ c.desc = ref ∧ c.src = s1.word64 (a + 8) ∧ c.dst = s1.word64 (a + 16) ∧
        c.w0 = s1.word64 a ∧ c.lost = false ∧
        exec i s = .next (({ s2 with
          colls := s2.colls ++ [c], collCount := SMap.set 0 s2.collCount key (SMap.get 0 s2.collCount key + 1),
          launches := s2.launches.modify e.wg.launch fun la => { la with usedColl := true } } : State).after e i
            (e.result i [] .none))) ∧
    (s.Issues e (.collWait f) → (∀ c ∈ s.colls, c.wave = e.wk → c.channel ≠ f.imm.toNat % 64) →
      exec (.collWait f) s = .next ((s.acquireAct e.core 6).after e (.collWait f) (e.result (.collWait f) [] .none))) ∧
    (s.Issues e (.collWait f) → (∃ c ∈ s.colls, c.wave = e.wk ∧ c.channel = f.imm.toNat % 64) →
      exec (.collWait f) s = .next (s.setWait e (.coll (f.imm.toNat % 64))))

/-- R330, R333, R334: GATE with a valid entry and a free save slot claims the slot and puts the wave into the callee; else it
writes the status of the first test that fails; a poisoned save area is cause 0x09. GATERET clears the slot and puts the wave back into its caller. -/
def Rules.GateCalls : Prop :=
  ∀ (s : State) (e : Env) (f : YFmt),
    let ref := e.readRef f.op1 e.first
    let at_ := 32 * (f.imm.toNat / 2 ^ 17 % 1024)
    (∀ table a, s.Issues e (.gate f) → s.checkObject e.core e.dom ref needX (.only 7) 0 0 = .ok table → at_ + 32 ≤ table.length →
      e.settled s = none → s.mapPoisoned table at_ 32 = false → s.residentAddr e.dom table at_ 32 = some a →
      let s1 := s.touchRange e.dom (refIndex ref) at_ 32
      s1.objectPoison (dieOf e.core) e.dom table at_ 32 = false →
      let g : GateWords := ⟨s1.word64 a, s1.word64 (a + 8), s1.word64 (a + 16), s1.word64 (a + 24)⟩
      let area := s1.entryFor e.core g.cdom (refIndex g.save)
      let early : Option Nat :=
        if g.valid = false then some 1 else if e.wave.gdepth = 4 then some 3
        else if e.launch.vregs < g.vmin ∨ e.launch.sregs < g.smin then some 4
        else if e.calleeOk s1 g = false then some 5 else none
      let tells (n : Nat) : Prop := exec (.gate f) s = .next (s1.after e (.gate f)
        (e.result (.gate f) (writeTo .z32 (gateSt f) 0 (BitVec.ofNat 64 n)) .none))
      (∀ n, early = some n → tells n) ∧
      (early = none → s1.mapPoisoned area 0 1024 = false → (s1.residentAddr g.cdom area 0 1024).isSome →
        (s1.objectPoison (dieOf e.core) g.cdom area 0 1024 = true → exec (.gate f) s = .next (s.trapped e 0x09 g.save)) ∧
        (s1.objectPoison (dieOf e.core) g.cdom area 0 1024 = false →
          (s1.freeSlot g.cdom area = none → tells 2) ∧
          (∀ k, s1.freeSlot g.cdom area = some k → exec (.gate f) s = .next (State.arrive e.wk arriveFuel
            ((((s1.touchRange g.cdom (refIndex g.save) 0 1024).claimSlot g.cdom area k).modWave e.wk
              (e.enterCallee f g k)).countIssue e (.gate f))))))) ∧
    (∀ g rest, s.Issues e (.gateret f) → e.wave.gates = g :: rest → e.settled s = none →
      let area := s.tableEntry e.dom g.saveObj.toNat
      let byte := 8 * (g.slot.toNat / 64)
      s.mapPoisoned area byte 8 = false → (s.residentAddr e.dom area byte 8).isSome →
      ∃ block, exec (.gateret f) s = .next (State.arrive e.wk arriveFuel
        ((((s.touchRange e.dom g.saveObj.toNat byte 8).clearSlot e.dom g.saveObj.toNat g.slot.toNat).modWave e.wk
          (e.leaveCallee g rest block)).countIssue e (.gateret f))))

/-- R74, R331, R333, R334: the wave in a callee and back in its caller: v0 to v7 and s0 to s15 are carried and every other
register is 0, but for the status register that a return sets to 0; tiles, claim, REGION stack and banked trap registers are
kept; TSAVE is the save area's reference with R and W at its slot; the callee's MODE has RM 1 with DET and SEED kept, the
caller's is restored with SEED kept; STATUS counts the call and the return; the gate stack holds what the caller gets back;
all live lanes stand at one address in one fragment, with no join target. -/
def Obligations.GateState : Prop :=
  ∀ (e : Env) (f : YFmt) (g : GateWords) (ge : GateEntry) (rest : List GateEntry) (k : Nat) (block : CodeAddr) (w : Wave),
    let into := e.enterCallee f g k w
    let back := e.leaveCallee ge rest block w
    let kept (t : Wave) : Prop := t.k = [] ∧ t.x = [] ∧ (∀ n l, 8 ≤ n → l < 96 → t.vreg n l = 0) ∧
      (SMap.wf 0 w.landAll.v = true → ∀ n < 8, ∀ l < 96, t.vreg n l = w.landAll.vreg n l)
    let together (t : Wave) (p : CodeAddr) : Prop := t.join = [] ∧ t.hold = 0 ∧ t.frags.length = 1 ∧
      (∀ l < 96, w.live.getLsbD l = true → t.pc l = p)
    let stays (t : Wave) : Prop := t.tiles = w.landAll.tiles ∧ t.bank1 = w.landAll.bank1 ∧ t.bank2 = w.landAll.bank2 ∧
      t.regions = w.landAll.regions ∧ t.claim = w.landAll.claim ∧ t.live = w.landAll.live
    let status (depth : Nat) : Word := BitVec.ofNat 32 (16 * depth + (if w.halted then 8 else 0) +
      (if depth = 0 then 0 else 4) + w.tl)
    kept into ∧ kept back ∧ stays into ∧ stays back ∧ (∀ n, 16 ≤ n → into.sreg n = 0) ∧ (∀ n, 16 ≤ n → back.sreg n = 0) ∧
    (SMap.wf 0 w.landAll.s = true → ∀ n < 16, into.sreg n = w.landAll.sreg n) ∧
    (SMap.wf 0 w.landAll.s = true → ∀ n < 16, (∀ r, ge.st = .s r → r.toNat ≠ n) → back.sreg n = w.landAll.sreg n) ∧
    into.tsave = mkRef (refIndex g.save) needRW (1024 + 1024 * k) ∧ into.codeObj = BitVec.ofNat 18 (refIndex g.entry) ∧
    into.mode = ((w.landAll.mode &&& 0x01FF0000#32) ||| 1#32) ∧ into.dom = BitVec.ofNat 16 g.cdom ∧ into.tvec = g.ctvec ∧
    into.gates = e.gateEntry f w.landAll.mode (e.pc + 1) (refIndex g.save) k :: w.gates ∧ 
    together into (BitVec.ofNat 39 (refOffset g.entry / 8)) ∧
    back.dom = ge.dom ∧ back.codeObj = ge.codeObj ∧ back.tvec = ge.tvec ∧ back.tsave = ge.tsave ∧ back.gates = rest ∧
    back.mode = ((ge.mode &&& 0xFF00FFFF#32) ||| (w.landAll.mode &&& 0x00FF0000#32)) ∧
    (∀ n, ge.st = .s n → back.sreg n.toNat = 0) ∧ together back ge.ret ∧
    into.status = status (w.gdepth + 1) ∧ back.status = status (w.gdepth - 1)

/-- R336: OBJ.GRANT without the grant right is cause 0x03; where index 0, one past the caller's table, a taken index or a
tensor without MOVE is named it writes 0; else it writes the entry, its rights masked, into the caller's table and the granted
reference into D. Under MOVE it also clears the source's VALID, and ends once no access checked against that entry is
outstanding (R177). -/
def Rules.ObjectGrants : Prop :=
  ∀ (s : State) (e : Env) (f : YFmt), s.Issues e (.objGrant f) →
    let src := e.readRef f.op2 e.first
    let x := refIndex (e.readRef f.op1 e.first)
    let granted : DWord := mkRef x ((grantMask f).extractLsb' 1 4) 0
    let gives (t : State) (v : DWord) : Prop :=
      exec (.objGrant f) s = .next (t.after e (.objGrant f) (e.result (.objGrant f) (writeTo .z64 f.op1 e.first v) .none))
    let ends (t : State) (dom n : Nat) : Prop := (t.staleUse dom n = false → gives t granted) ∧
      (t.staleUse dom n = true → exec (.objGrant f) s = .next (t.setWait e (.moved dom n)))
    (∀ dom n, e.frag.wait = .moved dom n → ends s dom n) ∧
    ((∀ dom n, e.frag.wait ≠ .moved dom n) →
      ∀ (entry : ObjEntry) (g : GateEntry) (rest : List GateEntry),
        s.checkObject e.core e.dom src needNone .any 0 0 = .ok entry → e.wave.gates = g :: rest →
        let t := g.dom.toNat
        let refused : Prop := x = 0 ∨ s.otCount t ≤ x ∨ (s.tableEntry t x).valid = true ∨ entry.kind = 1 ∧ grantMove f = false
        let s1 := s.setEntry t x (entry.maskRights (grantMask f))
        let s2 := (s1.setEntry e.dom (refIndex src) { entry with w3 := entry.w3 &&& 0x7FFFFFFFFFFFFFFF#64 }).dropEntry
          e.dom (refIndex src)
        (entry.rights.getLsbD 0 = false → exec (.objGrant f) s = .next (s.trapped e 0x03 src)) ∧
        (entry.rights.getLsbD 0 = true → refused → gives s 0) ∧
        (entry.rights.getLsbD 0 = true → ¬ refused → s.converting entry = false →
          (grantMove f = false → gives s1 granted) ∧
          (grantMove f = true → e.awaits s e.frag.slices = none → ends s2 e.dom (refIndex src))))

/-- R330, R333, R334, R336: GATE, GATERET and OBJ.GRANT. -/
def Obligations.GatesAndGrants : Prop := Rules.GateCalls ∧ Rules.ObjectGrants

/-! ## Class 0xB: system instructions -/

/-- R55, R57, R58, R63, R64, R340: SREAD writes the register it names, once to a scalar destination and to every executing
lane of a vector one; SWRITE sets the register it names, of MODE the fields that are RW, with RM 1 for 0 and 7. -/
def Obligations.SpecialRegisters : Prop :=
  ∀ (s : State) (e : Env) (f : YFmt),
    let w := e.wave
    let n := f.imm.toNat % 4096
    let reads (ty : Ty) (x : Nat → DWord) : Prop := s.Runs e (.sread f) → exec (.sread f) s = .next (s.wrote e (.sread f)
      (if isS f.op1 then writeTo ty f.op1 0 (x e.first) else (lanesOf e.lanes).flatMap fun l => writeTo ty f.op1 l (x l)) .none)
    let x32 : Word := lowWord (e.read .z32 f.op1 e.first)
    let x64 : DWord := e.read .z64 f.op1 e.first
    let sets (g : Wave → Wave) : Prop := s.Runs e (.swrite f) →
      exec (.swrite f) s = .next ((s.modWave e.wk g).completed e (.swrite f) (e.result (.swrite f) [] .none))
    let rm : BitVec 3 := x32.extractLsb' 0 3
    let mode : Word := w.mode.extractLsb' 24 1 ++ x32.extractLsb' 8 16 ++ (0 : BitVec 3) ++ x32.extractLsb' 3 2 ++
      (if rm = 0 ∨ rm = 7 then 1 else rm) |>.setWidth 32
    (∀ p ∈ [(0x000, w.mode), (0x001, w.status), (0x020, w.bank1.cause), (0x022, w.bank1.stat), (0x028, w.bank2.cause),
      (0x02A, w.bank2.stat)], n = p.1 → reads .z32 fun _ => p.2.zeroExtend 64) ∧
    (∀ p ∈ [(0x010, w.tvec), (0x011, w.tsave), (0x021, w.bank1.ret), (0x023, w.bank1.val), (0x029, w.bank2.ret),
      (0x02B, w.bank2.val)], n = p.1 → reads .z64 fun _ => p.2) ∧
    (n = 0x002 → reads .z32 fun _ => w.dom.zeroExtend 64) ∧
    (n = 0x003 → reads .z32 fun _ => BitVec.ofNat 64 ((w.regions.length * 2 ^ 16 + (w.regions.headD 0).toNat) % 2 ^ 32)) ∧
    (n = 0x041 → reads .z32 fun _ => (SMap.get 0 w.clockHi (lowestSlice e.frag.slices)).zeroExtend 64) ∧
    (∀ p ∈ [(0x080, Special.lane), (0x081, .slice), (0x082, .wave), (0x083, .wgx), (0x084, .wgy), (0x085, .wgz),
      (0x086, .crank), (0x087, .stage)], n = p.1 →
        reads .z32 fun l => BitVec.ofNat 64 (specialValue w e.wg e.launch p.2 l)) ∧
    (n = 0x040 → s.Runs e (.sread f) → isS f.op1 = true → exec (.sread f) s = .next ((s.modWave e.wk fun w =>
      w.latchClock e.frag.slices (s.counter (dieOf e.core))).completed e (.sread f) (e.result (.sread f)
        (writeTo .z32 f.op1 0 ((lowWord (s.counter (dieOf e.core))).zeroExtend 64)) .none))) ∧
    (n = 0x000 → sets fun w => { w with mode := mode }) ∧
    (n = 0x010 → sets fun w => { w with tvec := x64 }) ∧ (n = 0x011 → sets fun w => { w with tsave := x64 }) ∧
    (n = 0x020 → sets fun w => { w with bank1 := { w.bank1 with cause := x32 &&& 0x1FFF#32 } }) ∧
    (n = 0x021 → sets fun w => { w with bank1 := { w.bank1 with ret := x64 } }) ∧
    (n = 0x022 → sets fun w => { w with bank1 := { w.bank1 with stat := x32 } }) ∧
    (n = 0x023 → sets fun w => { w with bank1 := { w.bank1 with val := x64 } }) ∧
    (n = 0x028 → sets fun w => { w with bank2 := { w.bank2 with cause := x32 &&& 0x1FFF#32 } }) ∧
    (n = 0x029 → sets fun w => { w with bank2 := { w.bank2 with ret := x64 } }) ∧
    (n = 0x02A → sets fun w => { w with bank2 := { w.bank2 with stat := x32 } }) ∧
    (n = 0x02B → sets fun w => { w with bank2 := { w.bank2 with val := x64 } })

/-- R338, R488: TRAP raises cause 0x30 and BRK 0x31, with the next word as the return address and the immediate as the value;
under an enabled debugger BRK instead begins the wave's halt, its lanes past the BRK. -/
def Obligations.TrapInstructions : Prop :=
  ∀ (s : State) (e : Env) (f : YFmt),
    let enters (i : Instr) (c : Nat) : Prop := exec i s = .next
      (((s.countIssue e i).enterTrap e.wk e.fid c e.pc (e.seq i) (f.imm.zeroExtend 64)).settle e.wk e.fid none false)
    (s.Issues e (.trap f) → e.wave.hasRays = false → enters (.trap f) 0x30) ∧
    (s.Issues e (.brk f) → e.wave.hasRays = false → s.breaks e.wave e.launch = false → enters (.brk f) 0x31) ∧
    (s.Issues e (.brk f) → s.breaks e.wave e.launch = true → exec (.brk f) s = .next ((s.modWave e.wk fun w =>
      { w with halting := some (0, lowestSlice e.frag.slices) }).after e (.brk f) (e.result (.brk f) [] .none)))

/-- R415, R61: taking a trap at level n = TL + 1 with TVEC and TSAVE good: TCAUSEn holds the fragment's lowest slice and the
cause, TRETn, TVALn and TSTATn the return address, the value and the status before; STATUS.TL becomes n; the fragment's active
lanes go to the handler's header and every other live lane is trap-parked; its slices have no join target; the entry record
is on its way to TSAVE in eight units; memory, registers, MODE, DOMAIN and the gate stack stay. -/
def Obligations.TrapEntry : Prop :=
  ∀ (s : State) (wk fid c : Nat) (pc ret : CodeAddr) (val : DWord) (w : Wave) (fr : Frag) (wg : Workgroup) (la : Launch)
    (obj off : Nat) (save : ObjEntry),
    s.waves.find? wk = some w → w.frag? fid = some fr → s.workgroups.find? w.wg = some wg → s.launches.find? wg.launch = some la →
    w.pend = [] → w.tl < 2 → c < 256 → (w.bank (w.tl + 1)).parked = 0 → s.checkTvec wg.core la w.dom.toNat w.tvec = some (obj, off) →
    s.checkTsave wg.core w.dom.toNat w.tsave = some save →
    let n := w.tl + 1
    ∃ w', (s.enterTrap wk fid c pc ret val).waves.find? wk = some w' ∧
      (w'.bank n).cause = BitVec.ofNat 32 (256 * lowestSlice fr.slices + c) ∧ (w'.bank n).ret = ret.zeroExtend 64 ∧
      (w'.bank n).stat = w.status ∧ (w'.bank n).val = val ∧ w'.bank (3 - n) = w.bank (3 - n) ∧ w'.tl = n ∧
      (w'.bank n).lanes = w.active fr ∧
      (∀ l < 96, (w.active fr).getLsbD l = true → w'.pc l = BitVec.ofNat 39 off) ∧
      (∀ l < 96, (w.active fr).getLsbD l = false → w'.pc l = w.pc l) ∧
      (∀ l < 96, w.live.getLsbD l = true → (w.active fr).getLsbD l = false → w'.trapParked.getLsbD l = true) ∧
      (∀ k ∈ slicesOf fr.slices, w'.join.find? k = none) ∧ w'.codeObj = BitVec.ofNat 18 obj ∧
      w'.v = w.v ∧ w'.s = w.s ∧ w'.k = w.k ∧ w'.x = w.x ∧ w'.tiles = w.tiles ∧ w'.mode = w.mode ∧ w'.dom = w.dom ∧
      w'.gates = w.gates ∧ w'.live = w.live ∧
      (∃ a : Acc, (s.enterTrap wk fid c pc ret val).storeQ = s.storeQ ++ (List.range 8).map (fun k => (⟨⟨wk, fr.slices⟩, wg.core,
        { a with tgt := .byte (refOffset w.tsave + 512 * (n - 1) + 8 * k), size := 8, data := (a.data.drop (8 * k)).take 8 }, false, 0,
        false, true⟩ : PendingStore)) ∧ a.data.length = 64 ∧ a.ref = w.tsave ∧ a.entry = save) ∧
      (∀ a, (s.enterTrap wk fid c pc ret val).byte a = s.byte a)

/-- R339, R420: RETT at a level from which it may return: a bad TRETn is cause 0x41 and a bad TSTATn cause 0x42; else the wave
leaves the level, its lanes standing at TRETn. A return from level 2 to level 0 leaves level 1 with it, whose other fragments
join the one that returns (R421). -/
def Obligations.TrapReturn : Prop :=
  ∀ (s : State) (e : Env) (f : YFmt), s.Issues e (.rett f) →
    let w := e.wave
    let n := w.tl
    let b := w.bank n
    let badRet : Prop := b.ret.toNat / 2 ^ 39 ≠ 0 ∨ s.codeLen e.launch e.dom b.codeObj.toNat ≤ b.ret.toNat
    let good : Prop := b.stat.toNat / 2 ^ 8 = 0 ∧ b.stat.toNat / 16 % 16 = w.gdepth ∧ b.stat.getLsbD 2 = w.gated ∧
      b.stat.getLsbD 3 = w.halted ∧ b.stat.toNat % 4 < n
    (badRet → exec (.rett f) s = .next (s.trapped e 0x41 b.ret)) ∧
    (¬ badRet → ¬ good → exec (.rett f) s = .next (s.trapped e 0x42 (b.stat.zeroExtend 64))) ∧
    (¬ badRet → good → ∃ place1 place2 : Wave → Wave,
      (∀ w, ∃ block, place1 w = w.modFrag e.fid fun g => { g with block := block }) ∧
      (∀ w, ∃ block, place2 w = w.modFrag e.fid fun g => { g with block := block }) ∧
      exec (.rett f) s = .next (State.arrive e.wk arriveFuel (((s.modWave e.wk fun w =>
        let w1 := place1 (w.leaveLevel e.fid n (b.stat.toNat % 4))
        if n = 2 ∧ b.stat.toNat % 4 = 0 then place2 ((w1.fuseRunning e.fid).leaveLevel e.fid 1 0) else w1).settle
          e.wk e.fid (some (b.ret.extractLsb' 0 39)) false).countIssue e (.rett f))))

/-- R341 to R343, R361: NOP does nothing. PHINT stops its fragment with its hint where a pre-emption is pending, in a callee without its scratchpad bits (R452). ENTER pushes and
LEAVE pops a region. MARK writes one 32-byte record into the context's trace ring, where it has one. WAIT.CLK ends
once the counter has reached its target. YIELD, with another context ready on the core, ends the slice and gives its context
the largest issue count there, its own clocks counted. -/
def Obligations.SystemHints : Prop :=
  ∀ (s : State) (e : Env) (f : YFmt),
    let counter := s.counter (dieOf e.core)
    let n : Word := lowWord (e.read .z32 f.op1 e.first)
    let x := f.ext.getD 0
    let record (id : Nat) : List Byte := bytesOfNat 2 (e.wave.regions.headD 0).toNat ++ bytesOfNat 2 id ++ bytesOfNat 4 n.toNat ++
      bytesOfNat 8 counter.toNat ++ bytesOfNat 4 e.launch.lid.toNat ++ bytesOfNat 2 e.core ++ bytesOfNat 2 e.wave.no ++
      bytesOfNat 4 e.wg.index ++ bytesOfNat 4 e.wg.stage
    let ctx := e.launch.ctx.toNat
    let top := ((s.residentContexts e.core).map fun c => s.issueOf c e.core).foldl max
      (s.issueOf ctx e.core + e.issueClocks (.yield f))
    let ended (w : Wait) : Prop := match w with
      | .clkAt t => t.toNat ≤ counter.toNat
      | .clkAbs m => (lowWord counter - m).toNat < 2 ^ 31
      | _ => True
    let target : Wait := if f.imm.getLsbD 0 then .clkAbs n else .clkAt (counter + n.zeroExtend 64)
    (s.Runs e (.nop f) → exec (.nop f) s = .next (s.wrote e (.nop f) [] .none)) ∧
    (s.Runs e (.phint f) → e.wg.request = none → exec (.phint f) s = .next (s.wrote e (.phint f) [] .none)) ∧
    (s.Issues e (.phint f) → e.wg.request ≠ none → exec (.phint f) s = .next ((s.modWave e.wk fun w => w.modFrag e.fid fun g =>
      { g with stopped := some (.hint (x.extractLsb' 0 32) (x.extractLsb' 32 16)
        (if e.wave.gated then 0 else f.imm.extractLsb' 0 32)) }).after e (.phint f)
        (e.result (.phint f) [] .none))) ∧
    (s.Runs e (.enter f) → exec (.enter f) s = .next ((s.modWave e.wk fun w =>
      { w with regions := f.imm.extractLsb' 0 16 :: w.regions }).completed e (.enter f) (e.result (.enter f) [] .none))) ∧
    (s.Runs e (.leave f) → exec (.leave f) s = .next ((s.modWave e.wk fun w =>
      { w with regions := w.regions.tail }).completed e (.leave f) (e.result (.leave f) [] .none))) ∧
    (s.Runs e (.mark f) → (∀ c, s.contexts.find? ctx = some c → c.traceq = none) →
      exec (.mark f) s = .next (s.wrote e (.mark f) [] .none)) ∧
    (∀ c base entries, s.Issues e (.mark f) → s.contexts.find? ctx = some c → c.traceq = some (base, entries) →
      exec (.mark f) s = .next ((s.ringWrite ⟨base, entries, 32⟩ (record (f.imm.toNat % 2 ^ 16))).after e (.mark f)
        (e.result (.mark f) [] .none))) ∧
    (s.Runs e (.waitClk f) → ended e.frag.wait → (∃ t, e.frag.wait = .clkAt t) ∨ (∃ m, e.frag.wait = .clkAbs m) →
      exec (.waitClk f) s = .next (s.wrote e (.waitClk f) [] .none)) ∧
    (s.Runs e (.waitClk f) → e.frag.wait = .none → ended target → exec (.waitClk f) s = .next (s.wrote e (.waitClk f) [] .none)) ∧
    (s.Issues e (.waitClk f) → e.frag.wait = .none → ¬ ended target → exec (.waitClk f) s = .next (s.setWait e target)) ∧
    (s.Runs e (.yield f) → s.readyContexts e.core ctx = [] → exec (.yield f) s = .next (s.wrote e (.yield f) [] .none)) ∧
    (∀ c, s.Issues e (.yield f) → s.readyContexts e.core ctx ≠ [] → s.contexts.find? ctx = some c →
      ∃ c', SMap.get 0 c'.issue e.core + e.issueClocks (.yield f) = top ∧ e.core ∈ c'.sliceEnded ∧ c'.debt = c.debt ∧
        exec (.yield f) s = .next (({ s with contexts := s.contexts.insert ctx c' } : State).after e (.yield f)
          (e.result (.yield f) [] .none)))

/-! ## Class 0xC: references, queries and relayout -/

/-- R66, R220: the reference operations, in every lane that executes: DERIVE makes one of an index and rights with offset 0,
NARROW masks rights, REFADD adds to the offset modulo 2^42, REFOFF reads it, REFSET sets it, REFCMP compares, REFCHK tells
whether an access would pass its checks. -/
def Rules.References : Prop :=
  ∀ (s : State) (e : Env) (f : VFmt),
    let a (l : Nat) : Nat := (e.readRef f.a l).toNat
    let b (l : Nat) : Nat := (e.read f.ty f.b l).toNat
    let index (r : Nat) : Nat := r / 2 ^ 46
    let rights (r : Nat) : Nat := r / 2 ^ 42 % 16
    let offset (r : Nat) : Nat := r % 2 ^ 42
    let ref (i r o : Nat) : DWord := BitVec.ofNat 64 (i * 2 ^ 46 + r * 2 ^ 42 + o)
    let gives (i : Instr) (t : Ty) (x : Nat → DWord) : Prop := s.Runs e i → exec i s = .next (s.wrote e i
      ((lanesOf e.lanes).flatMap fun l => writeTo t f.d l (x l)) .none)
    let judges (i : Instr) (x : Nat → Bool) : Prop := s.Runs e i → exec i s = .next (s.wrote e i
      ((lanesOf e.lanes).flatMap fun l => writeP f.d l (x l)) .none)
    gives (.derive f) .z64 (fun l => ref (e.readZ f.a l % 2 ^ 18) (e.readZ f.b l % 16) 0) ∧
    gives (.narrow f) .z64 (fun l => ref (index (a l)) (rights (a l) &&& (e.readZ f.b l % 16)) (offset (a l))) ∧
    gives (.refadd f) .z64 (fun l => ref (index (a l)) (rights (a l)) ((offset (a l) + f.ty.value (b l)) % 2 ^ 42).toNat) ∧
    gives (.refoff f) f.ty (fun l => BitVec.ofNat 64 (offset (a l) % 2 ^ f.ty.width)) ∧
    gives (.refset f) .z64 (fun l => ref (index (a l)) (rights (a l)) (b l % 2 ^ 42)) ∧
    judges (.refcmp f) (fun l => let x := a l
      let y := (e.readRef f.b l).toNat
      [decide (index x = index y), decide (x = y), decide (index x = index y ∧ offset x < offset y),
        decide (index x = index y ∧ offset x ≤ offset y)].getD f.rnd.toNat (decide (index x = index y ∧ offset x ≤ offset y))) ∧
    judges (.refchk f) (fun l => e.refOk s (e.readRef f.a l) (e.rights f.b l) (e.readZ f.c l))

/-- R221 to R223: OBJQ and TDESC write what they ask of each lane's object, 0 where it fails; TADDR writes each element's byte
offset in its tensor's layout, and traps for the lowest lane that fails a check; RELAYOUT asks for a layout, and RLWAIT waits
until the tensor's conversions are over. -/
def Rules.TensorQueries : Prop :=
  ∀ (s : State) (e : Env) (f : VFmt),
    let ref := e.readRef f.a e.first
    let tag := e.readZ f.b e.first
    let value (g : ObjEntry → Nat) (l : Nat) : DWord := match s.checkObject e.core e.dom (e.readRef f.a l) needNone .any 0 0 with
      | .ok entry => BitVec.ofNat 64 (g entry % 2 ^ 32)
      | .error _ => 0
    (s.Runs e (.objq f) → exec (.objq f) s = .next (s.wrote e (.objq f) ((lanesOf e.lanes).flatMap fun l =>
      writeTo .z32 f.d l (value (fun entry => objqValue entry (e.readRef f.a l) (e.readZ f.b l)) l)) .none)) ∧
    (s.Runs e (.tdesc f) → exec (.tdesc f) s = .next (s.wrote e (.tdesc f) ((lanesOf e.lanes).flatMap fun l =>
      writeTo .z32 f.d l (value (fun entry => tdescValue entry (s.tensor entry) (e.readZ f.b l)) l)) .none)) ∧
    (∀ x : Nat → DWord, s.Runs e (.taddr f) → (∀ l ∈ lanesOf e.lanes, e.taddr s f l = .ok (x l)) →
      exec (.taddr f) s = .next (s.wrote e (.taddr f) ((lanesOf e.lanes).flatMap fun l => writeTo .z64 f.d l (x l)) .none)) ∧
    (∀ l ∈ lanesOf e.lanes, ∀ c v, s.Issues e (.taddr f) → e.taddr s f l = .error (c, v) →
      (∀ j ∈ lanesOf e.lanes, j < l → ∃ x, e.taddr s f j = .ok x) → exec (.taddr f) s = .next (s.trapped e c v)) ∧
    (∀ entry, s.Issues e (.relayout f) → s.checkObject e.core e.dom ref needW (.only 1) 0 0 = .ok entry →
      ((s.tensor entry).relayoutOk tag = false →
        exec (.relayout f) s = .next (s.trapped e 0x40 (illegalVal (Instr.relayout f).word 0x27))) ∧
      ((s.tensor entry).relayoutOk tag = true → s.foreignFrames entry = false → exec (.relayout f) s =
        .next ((s.relayout (dieOf e.core) e.dom (refIndex ref) (s.tableEntry e.dom (refIndex ref)) tag).after e (.relayout f)
          (e.result (.relayout f) [] .none)))) ∧
    (∀ entry, s.checkObject e.core e.dom ref needR (.only 1) 0 0 = .ok entry →
      (s.Runs e (.rlwait f) → s.converting entry = false → exec (.rlwait f) s = .next (s.wrote e (.rlwait f) [] .none)) ∧
      (s.Issues e (.rlwait f) → s.converting entry = true → s.tensorDamaged entry = true →
        exec (.rlwait f) s = .next (s.trapped e 0x09 ref)) ∧
      (s.Issues e (.rlwait f) → s.converting entry = true → s.tensorDamaged entry = false → s.convDead entry = false →
        exec (.rlwait f) s = .next (s.setWait e (.conversion entry.tdesc))) ∧
      (s.Issues e (.rlwait f) → s.converting entry = true → s.tensorDamaged entry = false → s.convDead entry = true →
        exec (.rlwait f) s = .next (s.trapped e 0x06 ref)))

/-- R66, R220 to R223: class 0xC. -/
def Obligations.ReferencesAndQueries : Prop := Rules.References ∧ Rules.TensorQueries

/-! ## Steps that are not instructions: waves and engines -/

/-- R36, R107, R190, R343, R438, R455, R473 to R475: a word that is no instruction traps with cause 0x40 and its sub-reason; a
hold ends at its limit; a pending result lands, and unfinished accesses and texel reads are tried again, where an arithmetic unit
checks the instruction after its repeats, which are counted, a fourth detection being damage; a late condition meets its access; a WAIT.CLK whose time has come issues again, and its fragment goes on. -/
def Obligations.WaveEvents : Prop :=
  (∀ (s : State) (e : Env) (w : DWord), s.env (.notAnInstruction w) = some e → e.canIssue = true → s.entryOwed e.wk e.frag = false →
    e.blocker (.notAnInstruction w) = none → e.joinWait s (.notAnInstruction w) = none → s.fetchPoisoned e (.notAnInstruction w) = false →
    s.bloadBusy e.wk (.notAnInstruction w) = false →
    let c := w.toNat / 2 ^ 60
    exec (.notAnInstruction w) s = .next (s.trapped e 0x40
      (illegalVal w (if c = 15 then 0x03 else if c < 13 then 0x02 else 0x01)))) ∧
  (∀ (s : State) (wk fid c : Nat) (w : Wave) (f : Frag), s.waves.find? wk = some w → w.frag? fid = some f →
    w.atHeader f = true → f.hold = some c → c + 4096 ≤ w.issueCount →
    exec (.holdLimit wk fid) s = .next (State.arrive wk arriveFuel s)) ∧
  (∀ (s : State) (wk id : Nat) (w : Wave) (p : Pending), s.waves.find? wk = some w → (w.pend.find? fun q => q.id == id) = some p →
    s.onCore wk = true →
    (∀ o, p.kind = .result → Instr.checked p.instr = false →
      exec (.longLatencyComplete wk ⟨id, o⟩) s = .next (s.modWave wk fun w => w.landResult p)) ∧
    (∀ o, p.kind = .access → Instr.checked p.instr = false → exec (.longLatencyComplete wk ⟨id, o⟩) s = .next (s.replay wk p)) ∧
    (∀ o, p.kind = .sampler → Instr.checked p.instr = false →
      exec (.longLatencyComplete wk ⟨id, o⟩) s = .next (s.replaySampler wk p)) ∧
    (∀ (wg : Workgroup) (n : BitVec 2), s.workgroups.find? w.wg = some wg → Instr.checked p.instr = true →
      let counted := if n = 0 then s else s.addCount (0x0B40 + 16 * dieOf wg.core) n.toNat
      (p.kind = .result → exec (.longLatencyComplete wk ⟨id, .done n⟩) s = .next (counted.modWave wk fun w => w.landResult p)) ∧
      (p.kind = .sampler → exec (.longLatencyComplete wk ⟨id, .done n⟩) s = .next (counted.replaySampler wk p)) ∧
      exec (.longLatencyComplete wk ⟨id, .failed⟩) s = .next (((s.addCount (0x0B40 + 16 * dieOf wg.core) 3).addCount
        (0x0B48 + 16 * dieOf wg.core) 1).engineDamage wk p.pc)) ∧
    (∀ c a rest, p.kind = .access → p.accs = a :: rest → exec (.lateCondition wk id c) s = .next (s.lateTrap wk p c (accTval a))) ∧
    (∀ c j rest, p.kind = .sampler → p.samples = j :: rest → exec (.lateCondition wk id c) s =
      .next (s.lateTrap wk p c (if c = .network then j.netRef else j.ref)))) ∧
  (∀ (s : State) (wk fid : Nat) (w : Wave) (fr : Frag) (f : YFmt), s.waves.find? wk = some w → w.frag? fid = some fr →
    (∃ t, fr.wait = .clkAt t) ∨ (∃ n, fr.wait = .clkAbs n) → s.fetched wk fid = some (.waitClk f) →
    exec (.waitClkExpiry wk fid) s = exec (.waitClk f) { s with cur := some (wk, fid) }) ∧
  (∀ (s : State) (e : Env) (f : YFmt),
    let t : State := { s with cur := some (e.wk, e.fid) }
    let counter := s.counter (dieOf e.core)
    t.Runs e (.waitClk f) → s.fetched e.wk e.fid = some (.waitClk f) →
    (∃ c, e.frag.wait = .clkAt c ∧ c.toNat ≤ counter.toNat) ∨
      (∃ m, e.frag.wait = .clkAbs m ∧ (lowWord counter - m).toNat < 2 ^ 31) →
    exec (.waitClkExpiry e.wk e.fid) s = .next (t.wrote e (.waitClk f) [] .none))

/-- R216, R249, R250, R281, R326, R474, R475, R500: a copy of a wave on a core, whose places can be had, moves the bytes of the
lines that it has yet to move, between memory or scratchpad on either side, after the earlier stores of its slices, its writes are
performed at its scope, and its batch may then complete; a matrix operation whose turn has come finishes, its detections counted,
a fourth being damage; a fill caches its image; a collective on one package writes its result and a status of 0, and one whose
launch has lost a package a status of 2. -/
def Obligations.EngineEvents : Prop :=
  (∀ (s : State) (n : Nat) (c : Copy) (src dst : Nat → Nat), s.copies[n]? = some c → s.onCore c.wave = true →
    let is := ((List.range c.lineCount).filter fun j => !c.lines.getLsbD j).flatMap c.bytesOf
    (∀ i ∈ is, (c.srcScratch = none → s.copyPlace c c.srcRef c.srcEntry i = some (src i)) ∧ (c.srcScratch ≠ none → src i = 0) ∧
      (c.dstScratch = none → s.copyPlace c c.dstRef c.dstEntry i = some (dst i)) ∧ (c.dstScratch ≠ none → dst i = 0)) →
    s.copyUnreadable c is = false →
    (c.srcScratch = none → s.noTranslation c.dom.toNat false (is.map src) = false) →
    (c.dstScratch = none → s.noTranslation c.dom.toNat true (is.map dst) = false) →
    let s1 := s.drainStores (ofSlices c.wave c.slices)
    let bad (i : Nat) : Bool := s1.portPoisoned (dieOf c.core) (src i)
    (c.srcScratch = none → c.dstScratch ≠ none → ∀ i ∈ is, bad i = false) →
    let byte (i : Nat) : Byte := match c.srcScratch with
      | some (g, a) => s1.scratchByte g (a + i)
      | none => s1.portByte (dieOf c.core) (src i)
    let moved : State := match c.dstScratch with
      | some (g, a) => is.foldl (fun t i => t.setScratch g (a + i) (byte i)) s1
      | none => s1.engineWrite c.core (is.map fun i => (dst i, byte i))
          (if c.srcScratch.isSome then [] else (is.filter bad).map dst)
    let t := moved.noteCopy c is
    exec (.copyComplete n) s =
      .next (({ t.releaseAct c.core c.scope with copies := t.copies.eraseIdx n } : State).updateBatches c.wave)) ∧
  (∀ (s : State) (n : Nat) (r : BitVec 2) (o : MatOp), s.matOps[n]? = some o → s.onCore o.wave = true → s.opOrdered n o = false →
    exec (.matrixOpComplete n (.done r)) s =
      .next ((if checkedOp o.instr = true ∧ r ≠ 0 then s.addCount (0x0B40 + 16 * dieOf o.core) r.toNat else s).finishOp n o) ∧
    (checkedOp o.instr = true → exec (.matrixOpComplete n .failed) s = .next (((s.addCount (0x0B40 + 16 * dieOf o.core) 3).addCount
      (0x0B48 + 16 * dieOf o.core) 1).engineDamage o.wave o.pc)) ∧
    ((∀ f, o.instr ≠ .bload f ∧ o.instr ≠ .drain f ∧ o.instr ≠ .drainAdd f) → ∀ t : State,
      t.finishOp n o = ({ t.modWave o.wave o.run with matOps := t.matOps.eraseIdx n } : State).updateBatches o.wave)) ∧
  (∀ (s : State) (core n : Nat) (f : WFill) (bytes : List Byte), (SMap.get [] s.wfills core)[n]? = some f →
    let s1 := s.drainStores (ofSlices f.wave f.slices)
    let filled : State := { s1 with wfills := SMap.set [] s1.wfills core ((SMap.get [] s.wfills core).eraseIdx n) }
    s1.fillImage core f.dom.toNat f.ref f.ch = .done bytes → exec (.weightFillComplete core n) s =
      .next ((filled.cacheImage core f.dom f.ref bytes).noteEngine (s1.launchOf f.wave) f.dom.toNat (refIndex f.ref)
        (refOffset f.ref) bytes.length f.waited)) ∧
  (∀ (s : State) (n : Nat) (c : Coll) (w : Wave) (wg : Workgroup) (la : Launch), s.colls[n]? = some c →
    s.launches.find? c.launch = some la → s.waves.find? c.wave = some w → s.workgroups.find? w.wg = some wg → la.npkg = 1 →
    let size := collBytes c.instr c.w0 la.npkg la.rank
    c.lost = false → s.collUnreadable c size = false → s.collConverts c = false → s.collNeeds c size = [] →
    s.collLinked c size = true → s.collUntranslated c size = false →
    ∀ r : BitVec 2,
    let reduces : Bool := match c.instr with
      | .collRed _ => true
      | _ => false
    let s0 := State.noteColl (if r ≠ 0 ∧ reduces = true then s.addCount (0x0B40 + 16 * dieOf wg.core) r.toNat else s) c size
    let own := s0.collSource (dieOf wg.core) c size.1
    let res := collResult s0 c 1 la.rank (own.map fun x => x.1)
    let places := (List.range size.2).map fun i => s0.addrOf c.dom.toNat c.dstEntry (refOffset c.dst + i)
    let bad := ((places.zip res).filter fun x => x.2.2.any fun i => (own.getD i (0, false)).2).map fun x => x.1
    let u := s0.engineWrite wg.core (places.zip (res.map fun x => x.1)) bad
    exec (.collectiveComplete n (.done r)) s = .next { (u.setCstat c 0).releaseAct wg.core 6 with
      colls := u.colls.eraseIdx n, freeCount := u.freeCount + 66 + size.2 / 32 } ∧
    (reduces = true → exec (.collectiveComplete n .failed) s = .next (((s.addCount (0x0B40 + 16 * dieOf wg.core) 3).addCount
      (0x0B48 + 16 * dieOf wg.core) 1).engineKill c.wave c.pc 3 0))) ∧
  (∀ (s : State) (n : Nat) (o : EngineOutcome) (c : Coll), s.colls[n]? = some c → c.lost = true →
    (s.residentAddr c.dom.toNat c.descEntry (refOffset c.desc) 64).isSome →
    exec (.collectiveComplete n o) s = .next (({ s with colls := s.colls.eraseIdx n } : State).setCstat c 2))

/-- R306, R307, R309 to R312: a lane's traversal that has ended, or reaches a call-out, writes its six result words and gives
up its pin and slot where it has ended; an idle builder starts its operation, reading its geometry after the earlier
stores of its slices, reclaiming and reserving; one that ends takes effect, its STATUS is written and its results are performed
at its scope. -/
def Obligations.RayEvents : Prop :=
  (∀ (s : State) (wk lane : Nat) (w : Wave) (p : Pending) (r : RaySlot), s.waves.find? wk = some w →
    (w.pend.find? fun p => p.kind == .ray && p.mask.getLsbD lane) = some p → w.rays.find? lane = some r → s.onCore wk = true →
    r.isOver = true → lane < 96 →
    ∃ t w', exec (.rayTraversalEnd wk lane) s = .next t ∧ t.waves.find? wk = some w' ∧ w'.rays.find? lane = none ∧
      (∀ d, rayDest p.instr = .v d → ∀ i < 6, w'.vreg (d.toNat + i) lane = r.result.getD i 0) ∧
      (∀ q ∈ w'.pend, q.id = p.id → q.mask.getLsbD lane = false) ∧ (∀ n l, l < 96 → l ≠ lane → w'.vreg n l = w.vreg n l)) ∧
  (∀ (s : State) (die : BitVec 2) (o : BuildOp) (rest : List BuildOp), s.builds = o :: rest → o.die = die →
    s.onCore o.wave = true → (∀ x ∈ s.builds, x.started = false) → (∀ x ∈ rest, x.die = die → x.wave = o.wave) →
    s.buildNeeds o = [] → s.buildUnreadable o = false →
    let s1 := ((s.drainStores (ofSlices o.wave o.slices)).noteBuild o).reclaim o
    let o1 : BuildOp := { o with started := true, geo := (List.range o.count).map (s1.geoRecord o o.boxes) }
    let need := s1.reservation o1
    exec (.armatureOpStart die) s = .next (if s1.ctrlFree o1 < need then s1.bumpFree.setBuild 0 { o1 with reserved := none }
      else (s1.bumpFree.bumpFree.setBuild 0 { o1 with reserved := some need, place := s1.bumpFree.treePlace o1 need }).setCtrl o1 16 8
        (s1.ctrlFree o1 - need))) ∧
  (∀ (s : State) (die : BitVec 2) (o : BuildOp) (rest : List BuildOp), s.builds = o :: rest → o.die = die → o.started = true →
    s.onCore o.wave = true → s.buildNeeds o = [] → s.buildUnreadable o = false →
    let r := s.runBuild o
    let t := (r.1.setCtrl o 8 4 (r.1.ctrl o 8 / 256 * 256 + r.2)).releaseAct o.core o.scope
    exec (.armatureOpComplete die) s = .next (({ t with builds := t.builds.eraseIdx 0 } : State).updateBatches o.wave))

/-- R290, R296, R298: a raster unit emits the records it has in hand, else those of the next triangle, from the ring or the spill
area of its queue, and closes its queue after the last; it holds a merge record that it takes from its queue, and one that is ready
and whose token is open takes its effect and is held no more; with its merge queue closed and empty every token without a held
record counts as merged. -/
def Rules.RasterUnits : Prop :=
  ∀ (s : State) (n : Nat) (b : BitVec 1) (la : Launch) (x : RasterBinding), s.launches.find? n = some la →
    la.rasters.find? b.toNat = some x → la.ended = false →
    let token (k : Nat) : Nat := ((x.held.getD k []).getD 1 0).toNat % 2 ^ 31
    let merged (k : Nat) (y : RasterBinding) : RasterBinding :=
      { y with held := y.held.eraseIdx k, open_ := y.open_.filter fun t => t.1 != token k }
    let taken (k : Nat) (q : StageQueue) (rest : List QRec) (use : State → List Word → State) (end_ : State) : Prop :=
      let less (t : State) : State := t.modQueue n k fun q => { q with recs := rest }
      (∀ r, q.recs = .ring r :: rest → end_ = use (less s) r) ∧
      (∀ place p nib, q.recs = .spill place :: rest → s.reaches (s.spillAcc (unitWho n k) q place) false = .place p nib →
        let t := s.noteUse (unitWho n k) (s.spillAcc (unitWho n k) q place) false
        t.portPoisoned (k % 4) p = false → t.portPoisoned (k % 4) (p + 32) = false →
        end_ = use (less t) (recordWords (t.portBytes (k % 4) p 64)))
    (x.backlog ≠ [] → exec (.rasterTriangle n b) s = .next (State.emit n b.toNat x.ko x.backlog s)) ∧
    (∀ q, x.backlog = [] → la.queues.find? x.ki = some q →
      (∃ t, exec (.rasterTriangle n b) s = .next t ∧ ∀ rest, taken x.ki q rest
        (fun s r => State.emit n b.toNat x.ko (((readTriangle r).map fun t => t.quads x).getD []) s) t) ∧
      (q.recs = [] → q.closed = true →
        exec (.rasterTriangle n b) s = .next (s.modQueue n x.ko fun q => { q with closed := true }))) ∧
    (∀ q, x.ready = none → la.queues.find? x.km = some q →
      (∃ t, exec (.rasterMerge n b) s = .next t ∧ ∀ rest, taken x.km q rest
        (fun s r => s.modRaster n b.toNat fun x => { x with held := x.held ++ [r] }) t) ∧
      (q.recs = [] → q.closed = true → exec (.rasterMerge n b) s = .next (s.modRaster n b.toNat fun y =>
        { y with open_ := y.open_.filter fun t => y.held.any fun r => (r.getD 1 0).toNat % 2 ^ 31 == t.1 }))) ∧
    (∀ k, x.ready = some k → (∃ t ∈ x.open_, t.1 = token k) →
      ∀ t, s.mergeRecord la x (x.held.getD k []) = .ok t → exec (.rasterMerge n b) s =
        .next ((t.modRaster n b.toNat (merged k)).checkLaunchEnd n))

/-- R299: a sample whose targets can be had. The depth test compares with the stored depth, false with a NaN but under always; where
it fails nothing is written; where it passes the depth is written, if depth write is set, and then the colour: each channel the
source's, or under blend its sum with the stored one by the source's alpha, every step rounded to f32, and rounded to
the target's format. -/
def Rules.SampleMerge : Prop :=
  ∀ (s : State) (la : Launch) (b : RasterBinding) (elem : Nat) (src : Nat → FVal) (z : Word) (az ac : Nat),
    let die := b.ki % 4
    let size := if b.fmt = 3 then 4 else 8
    (b.depth ≠ 0 → s.targetPlace la b.depth needR elem 4 = .at_ az ∧
      (b.depthWrite = true → s.targetPlace la b.depth needW elem 4 = .at_ az)) →
    s.targetPlace la b.colour (if b.blend then needRW else needW) elem size = .at_ ac →
    let zt := binary32.decode (natOfBytes (s.portBytes die az 4))
    let zv := binary32.decode z.toNat
    let pass : Bool := b.depth == 0 || (match b.compare with
      | 0 => true
      | 1 => rLt zv zt
      | 2 => rLe zv zt
      | _ => rLt zt zv)
    let t := if b.depth ≠ 0 ∧ b.depthWrite = true then s.bumpFree.dieWrite die az (bytesOfNat 4 z.toNat) else s.bumpFree
    let old := t.portBytes die ac size
    let stored (c : Nat) : FVal := if b.fmt = 3 then rDiv (intF32 (imageNat old c 1)) (intF32 255)
      else binary16.decode (imageNat old (2 * c) 2)
    let out (c : Nat) : FVal := if b.blend then rAdd (rMul (src c) (src 3)) (rMul (stored c) (rSub rOne (src 3))) else src c
    let channel (c : Nat) : List Byte := if b.fmt = 3 then
        (if out c = .nan then [0] else bytesOfNat 1 (scaledRound (FVal.min (FVal.max (out c) rZero) rOne) 255 0).toNat)
      else bytesOfNat 2 (binary16.ofVal false .rne (out c)).code
    (pass = false → s.mergeSample la b elem src z = .ok s.bumpFree) ∧
    (pass = true → s.mergeSample la b elem src z = .ok (t.dieWrite die ac ((List.range 4).flatMap channel)))

/-- R290, R296, R298, R299: the raster units' steps, and the merge of a sample. -/
def Obligations.RasterEvents : Prop := Rules.RasterUnits ∧ Rules.SampleMerge

/-! ## Residency and memory from outside -/

/-- R191, R197, R457, R458, R468: a granule's move takes a frame, after an eviction where none is free, waits for the writes in flight to
it, drops what the caches hold of it and sets MOVING, and one that can never be had fails; its arrival puts the bytes, or zeros, into
the frame and names it in the extent map; a tile whose source granules are resident is converted as one step and its bit set; a
request for which no frame becomes free within RESLIM fails its waiters, and a conversion that sets no bit within RESLIM the waits on
it, where RESLIM is not 0. That a granule with PRESENT 0 and a TIER other than 3 is copied in is the model's reading (log 57), and
so is that a timeout takes effect with its event (log 14). -/
def Obligations.ResidencyEvents : Prop :=
  (∀ (s : State) (die : BitVec 2) (i : Nat) (r : GranReq),
    let q := SMap.get [] s.requests die.toNat
    s.halted = false → (q.findIdx? fun r => r.moving.isNone) = some i → q[i]? = some r →
    let w := s.needWord r.entry r.granule
    (s.failsAtOnce r.entry w = true → exec (.migrationMove die) s = .next (s.failRequest die.toNat r .residency)) ∧
    (s.failsAtOnce r.entry w = false → granResident r.entry w = false → r.entry.pinned = false → granMoving w = false →
      (s.copyFails r = true → exec (.migrationMove die) s = .next (s.failRequest die.toNat r .translation)) ∧
      (∀ (frame : Nat) (t : State), s.copyFails r = false → s.getFrame die.toNat = some (frame, t) →
        let t1 := t.drainGranule r.dom.toNat r.index r.granule
        let w1 := t1.needWord r.entry r.granule
        let t2 := if granPresent w1 && granTier w1 != 2 then t1.dropLines (granFrame w1 * 65536) 65536 else t1
        let t3 := t2.setNeed r.entry r.granule (mkGranule (granTier w1) (granPresent w1) true (granFrame w1))
        let q3 := (SMap.get [] t3.requests die.toNat).set i { r with moving := some frame }
        exec (.migrationMove die) s =
          .next (({ t3 with requests := SMap.set [] t3.requests die.toNat q3 } : State).streamAhead die.toNat r)))) ∧
  (∀ (s : State) (die : BitVec 2) (n frame : Nat) (r : GranReq), (SMap.get [] s.requests die.toNat)[n]? = some r →
    s.halted = false → r.moving = some frame →
    let w := s.needWord r.entry r.granule
    let s1 := if granTier w = 3 then s.clearRange (frame * 65536) 65536
      else s.copyGranule (s.frameAddr r.dom.toNat w) (frame * 65536)
    let s2 := (s1.setNeed r.entry r.granule (mkGranule 0 true false frame)).returnGranule r.dom.toNat w
    let s3 : State := { s2 with
      requests := SMap.set [] s2.requests die.toNat ((SMap.get [] s.requests die.toNat).eraseIdx n) }
    exec (.granuleArrival die n) s =
      .next (((s3.touch r.dom.toNat r.index r.granule).noteFetched r.dom.toNat r.index r.granule).retryWaiters)) ∧
  (∀ (s s1 : State) (n tile : Nat) (c : Conv), s.halted = false → s.convs[n]? = some c →
    let t := s.tensorAt c.desc
    let e := { s.tableEntry c.dom.toNat c.index with w1 := BitVec.ofNat 64 c.extroot, w2 := BitVec.ofNat 64 c.desc }
    tile < t.tiles → s.tileDone t tile = false → s.tensorDamaged { e with w0 := 0x1000000000000000#64 } = false →
    s.tileNeeds c e t tile = [] → s.targetGranule c e (4096 * tile / 65536) = some s1 →
    let s2 := s1.drainStores fun p => decide (p.acc.dom = c.dom ∧ refIndex p.acc.ref = c.index)
    let base := s2.addrOf c.dom.toNat e (4096 * tile)
    let s3 := (s2.tileBytes c t tile).foldl (fun s b => s.setByte (base + b.1) b.2) (s2.clearRange base 4096)
    let s4 := (s2.tilePoison c t tile).foldl (fun s i => s.addPoison (base + i) 1) s3
    let s5 := s4.setByte (t.bitmap + tile / 8) (s4.byte (t.bitmap + tile / 8) ||| BitVec.ofNat 8 (2 ^ (tile % 8)))
    let s6 : State := { s5 with convs := s5.convs.set n { c with dead := false } }
    exec (.conversionTile n tile) s = .next (if (List.range t.tiles).all fun k => s6.tileDone t k
      then (s6.endConversion n c).retryWaiters else s6.retryWaiters)) ∧
  (∀ (s : State) (die : BitVec 2) (n : Nat) (r : GranReq), (SMap.get [] s.requests die.toNat)[n]? = some r → r.moving = none →
    (s.reg 0x0920).toNat % 2 ^ 32 ≠ 0 → s.getFrame die.toNat = none →
    exec (.residencyTimeout die n) s = .next (s.failRequest die.toNat r .residency)) ∧
  (∀ (s : State) (n : Nat) (c : Conv), s.convs[n]? = some c → (s.reg 0x0920).toNat % 2 ^ 32 ≠ 0 →
    let t : State := { s with convs := s.convs.set n { c with dead := true } }
    let mine (e : ObjEntry) : Bool := e.kind == 1 && e.tdesc == c.desc
    let bytes (x : Copy) (scratch : Option (Nat × Nat)) (e : ObjEntry) : Bool :=
      scratch.isNone && mine e && !(!x.coords.isEmpty && e.kind == 1)
    let waits := (((t.copies.filter fun x => (bytes x x.srcScratch x.srcEntry || bytes x x.dstScratch x.dstEntry) &&
        t.onCore x.wave).map fun x => (x.wave, x.pc)) ++
      ((t.colls.filter fun x => mine x.descEntry || (x.srcEntry.map mine).getD false || mine x.dstEntry).map fun x =>
        (x.wave, x.pc))).eraseDups
    exec (.conversionWaitTimeout n) s = .next (t.replayParked.failEngines .residency waits))

/-- R379, R461, R463, R465, R466: the host reads bytes with their poison and writes bytes; a write of a host
agent stands in the host memory of its PASID; an ATS invalidation waits for the accesses that used the translation; a lost
expander reads 0 and loses its dirty lines; a scrub pass poisons the sectors that stay uncorrectable. -/
def Obligations.HostEvents : Prop :=
  (∀ (s : State) (a n : Nat), a + n ≤ 0x9000000000 → s.recovery = false → s.halted = false →
    exec (.hostMemAccess a (.read n)) s = .next { s with
      outbox := s.outbox ++ [.hostData ((List.range n).map fun i => (s.byte (a + i), s.poisoned (a + i)))] }) ∧
  (∀ (s : State) (a : Nat) (bs : List Byte), a + bs.length ≤ 0x9000000000 → s.recovery = false → s.halted = false →
    ∃ t, exec (.hostMemAccess a (.write bs)) s = .next t ∧ (∀ j < bs.length, t.byte (a + j) = bs.getD j 0) ∧
      (∀ b, b < a ∨ a + bs.length ≤ b → t.byte b = s.byte b) ∧ t.waves = s.waves ∧ t.bar0 = s.bar0) ∧
  (∀ (s : State) (pasid : BitVec 20) (iova : Nat) (bs : List Byte), iova + bs.length < hostBase →
    ∃ t, exec (.hostCacheSnoop pasid iova bs) s = .next t ∧
      (∀ j < bs.length, t.byte (hostBase * (1 + pasid.toNat) + iova + j) = bs.getD j 0) ∧ t.waves = s.waves) ∧
  (∀ (s : State) (pasid : BitVec 20) (g : Nat), exec (.atsInvalidation pasid g) s = .next (s.drainStores fun p =>
    decide (hostBase * (1 + pasid.toNat) + 65536 * g ≤ s.accAddr p.acc ∧
      s.accAddr p.acc < hostBase * (1 + pasid.toNat) + 65536 * g + 65536))) ∧
  (∀ (s : State) (d : BitVec 2), s.requests = [] → ∃ t, exec (.expanderLinkLoss d) s = .next t ∧
    t.reg (0x0040 + 8 * d.toNat) = 0 ∧ (∀ x ∈ t.l2, ∀ y ∈ x.2, expanderOf (512 * y.block) ≠ some d.toNat) ∧ t.mem = s.mem ∧
      t.waves = s.waves) ∧
  (∀ (s : State) (d : BitVec 2) (bad : List Nat), exec (.scrubPass d [] ⟨bad, []⟩) s =
    .next ((bad.filter fun a => decide (a < 0x9000000000) && homeDie a == d.toNat).foldl (fun s a => s.poisonSector (a / 32)) s))

/-! ## Sluice, launches and scheduling -/

/-- R346 to R352, R177, R378, R491 to R494: a 64-bit write to a queue's doorbell sets WPTR, another write to its page nothing; a
restart clears stop bits; a packet that stands whole at RPTR and passes its checks takes effect and RPTR moves past it: NOP
nothing, SIGNAL a write or an add and then its COMPLETE, WAIT an acquire once its condition holds (before that the queue
stays as it is), OBJINV the loss of the cached entry and of the object's images, its COMPLETE written once no access checked
against it is outstanding, CONTEXT the context's settings, with SWAPOUT a pre-emption of all its workgroups, LAUNCH the accepted
launch. A packet that fails its own check is rejected with its code and tag. That an OBJINV whose accesses are outstanding does not
block its queue is the model's reading (log 72). -/
def Obligations.QueueEvents : Prop :=
  (∀ (s : State) (die : BitVec 2) (q : BitVec 11) (bytes : Nat) (wptr : DWord),
    exec (.queueDoorbell (BitVec.ofNat 26 (0x800000 * die.toNat + 0x1000 * q.toNat)) bytes wptr) s =
      .next (if bytes = 8 then s.modSluice die.toNat q.toNat fun x => { x with wptr := wptr } else s)) ∧
  (∀ (s : State) (off : BitVec 26) (bytes : Nat) (wptr : DWord), off.toNat % 4096 ≠ 0 ∨ 0x2000000 ≤ off.toNat →
    exec (.queueDoorbell off bytes wptr) s = .next s) ∧
  (∀ (s : State) (die : BitVec 2) (w : BitVec 5) (bits : DWord),
    let off := stopReg die.toNat (64 * w.toNat)
    exec (.queueRestart die w bits) s = .next (s.setReg off (s.reg off &&& ~~~bits))) ∧
  (∀ (s : State) (die : BitVec 2) (q : BitVec 11) (d : QueueDesc) (p : Packet),
    let k := die.toNat
    let n := q.toNat
    let asker : Asker := ⟨BitVec.ofNat 16 d.dom, k, n, d.pgen, d.host⟩
    let ctx := p.num 0x20 0 2 % 4096
    let ref := p.word 0x40 0
    let rejected (i : Instr) (type code tag : Nat) : Prop := exec i s = .next (s.refused k n type d p code tag)
    (s.heads k n 6 d p → exec (.nopPacket die q) s = .next (s.took s k n d p)) ∧
    (s.heads k n 3 d p →
      let mode := p.num 0x42 0 4
      (1 < mode → rejected (.signal die q) 3 7 0x42) ∧
      (mode ≤ 1 → s.goodSignal d.dom ref true = false → rejected (.signal die q) 3 9 0x40) ∧
      (mode ≤ 1 → s.goodSignal d.dom ref true = true → s.goodComplete d p = false → rejected (.signal die q) 3 9 0x01) ∧
      (mode ≤ 1 → s.goodSignal d.dom ref true = true → s.goodComplete d p = true →
        exec (.signal die q) s = .next (s.took (s.putSignal ⟨ref, p.word 0x41 0, mode == 1, p.completion, asker⟩) k n d p))) ∧
    (s.heads k n 4 d p →
      let cond := p.num 0x43 0 4
      (2 < cond → rejected (.wait die q) 4 7 0x43) ∧
      (cond ≤ 2 → s.goodSignal d.dom ref false = false → rejected (.wait die q) 4 9 0x40) ∧
      (∀ a, cond ≤ 2 → s.goodSignal d.dom ref false = true → s.signalPlace asker ref false = some a →
        let t := s.touchRange d.dom (refIndex ref) (refOffset ref) 8
        let x := t.word64 a
        let v := p.word 0x41 0
        let holds : Prop := (cond = 0 → v.toNat ≤ x.toNat) ∧ (cond = 1 → x = v) ∧ (cond = 2 → x ≠ v)
        (holds → exec (.wait die q) s = .next (s.took (t.acquireAll.modSluice k n fun x => { x with resWait := false }) k n d p)) ∧
        (¬ holds → exec (.wait die q) s = .next t))) ∧
    (s.heads k n 2 d p →
      let dom := p.num 0x30 0 2
      let index := p.num 0x30 4 4
      (s.domBase = 0 → exec (.objinv die q) s = .next (s.refused k n 2 d p 9 0x30).finishInvs) ∧
      (s.domBase ≠ 0 → s.goodComplete d p = false → exec (.objinv die q) s = .next (s.refused k n 2 d p 9 0x01).finishInvs) ∧
      (s.domBase ≠ 0 → s.goodComplete d p = true →
        let t := (s.wcache.map fun c => c.1).foldl (fun s c => s.dropImages c fun i => i.dom.toNat == dom && i.index == index)
          (s.dropEntry dom index)
        exec (.objinv die q) s = .next (s.took ({ t with
          objinvs := t.objinvs ++ [⟨dom, index, p.completion, asker⟩] } : State) k n d p).finishInvs)) ∧
    (s.heads k n 1 d p →
      let saved : Prop := ∃ x ∈ s.workgroups, s.ctxOf x.2 = some ctx ∧ ∃ a, x.2.phase = .saved a
      let good : Prop := p.badContext = none ∧ s.goodComplete d p = true ∧ (p.has 0x23 = true → ¬ saved)
      let pool := (p.setContext (s.context ctx)).pool
      let t := s.modContext ctx p.setContext
      (∀ tag, p.badContext = some tag → rejected (.context die q) 1 7 tag) ∧
      (p.badContext = none → s.goodComplete d p = false → rejected (.context die q) 1 9 0x01) ∧
      (p.badContext = none → s.goodComplete d p = true → p.has 0x23 = true → saved → rejected (.context die q) 1 10 0x23) ∧
      (good → p.has 0x26 = true → pool = none → rejected (.context die q) 1 10 0x26) ∧
      (good → p.has 0x26 = true → pool ≠ none →
        let u := (t.workgroupsOf ctx fun _ => true).foldl (fun s g => s.requestPreempt g true) t
        let told := p.completion.toList.map fun c => (c.1, c.2, asker)
        exec (.context die q) s = .next (s.took ((u.modContext ctx fun x =>
          { x with swapComplete := x.swapComplete ++ told }).checkSwapout ctx) k n d p)) ∧
      (good → p.has 0x26 = false → exec (.context die q) s = .next (s.took (t.complete asker p.completion) k n d p))) ∧
    (s.heads k n 5 d p →
      let earlier : Prop := ∃ x ∈ s.launches, x.2.accepting = true ∧ x.2.die = die ∧ x.2.queue = q ∧ x.2.ended = false
      (p.has 0x1C = true → earlier → exec (.launch die q) s = .next s) ∧
      ((p.has 0x1C = true → ¬ earlier) →
        (∀ la reuse, s.checkLaunch d die q p = .ok la reuse → exec (.launch die q) s = .next (s.took
          (((s.noteLaunch p).accept la reuse p.bytes).modSluice k n fun x => { x with resWait := false }) k n d p)) ∧
        (∀ code tag, s.checkLaunch d die q p = .reject code tag → rejected (.launch die q) 5 code tag))))

/-- R46, R376, R495: a launch over several packages: a replica that passes its checks is accepted, and one that does not is recorded,
rejected to every package and remembered; an arrival is counted, but for a generation that this package has refused or
abandoned; a rejection or a start that does not come abandons the launch; a report ends a package's part. That a time-out sends
rejections to the packages, and that abandoning clears VALID of the queue, is the model's reading (log 71). -/
def Rules.LaunchEvents : Prop :=
  (∀ (s : State) (pkg : BitVec 6) (ctx : BitVec 12) (dom : BitVec 16) (packet : List Byte) (p : Packet), s.sluiceRuns = true →
    let h := natOfBytes (packet.take 8)
    let len := h / 2 ^ 16 % 2 ^ 16
    readFields 5 (h / 2 ^ 32) len (packet.take len) = (p, none) →
    let check := s.checkLaunch ⟨0, 0, 0, 0, false, true, 0, ctx.toNat, dom.toNat⟩ 0 0
      { p with fields := p.fields.filter fun f => f.tag != 0x01 }
    (∀ la reuse, check = .ok la reuse → exec (.launchReplica pkg ctx dom packet) s =
      .next ((s.noteLaunch p).accept { la with accepting := false, acceptor := pkg, started := false } reuse packet)) ∧
    (∀ code tag, check = .reject code tag →
      let g := p.num 0x1A 0 4
      let s1 := s.rejectionRecord 0xFFFF 0 ctx.toNat dom.toNat 0
        { code := code, tag := tag, type := 5, seq := p.seq, lid := p.num 0x14 0 4, gen := g % 2 ^ 32 }
      let s2 := s1.faultRecord { type := 2, reason := 8, ctx := ctx.toNat, lid := p.num 0x14 0 4, seq := p.seq, dom := p.num 0x13 0 2 }
      ∃ t : State, exec (.launchReplica pkg ctx dom packet) s = .next (t.sendRejections
          ((List.range (natOfBytes (((p.val 0x1A).drop 4).take 1))).map fun i =>
            BitVec.ofNat 6 (natOfBytes (((p.val 0x1A).drop (8 + i)).take 1))) (BitVec.ofNat 32 g)) ∧
        BitVec.ofNat 32 g ∈ t.refusedGens ∧ (∀ a ∈ t.arrivals, a.2 ≠ BitVec.ofNat 32 g) ∧
        t.mem = s2.mem ∧ t.launches = s2.launches ∧ t.workgroups = s2.workgroups)) ∧
  (∀ (s : State) (pkg : BitVec 6) (g : Word),
    (g ∉ s.refusedGens → (∀ x ∈ s.launches, x.2.startGen = some g → x.2.killed = false) →
      exec (.startArrival pkg g) s = .next (s.arrived pkg g)) ∧
    (s.launchOfGen g = none → g ∈ s.refusedGens → exec (.startArrival pkg g) s = .next s)) ∧
  (∀ (s : State) (pkg : BitVec 6) (g : Word) (n : Nat) (la : Launch), s.launchOfGen g = some (n, la) →
    exec (.launchRejectionStamped pkg g) s = .next (s.abandon n) ∧
    (la.accepting = true → pkg ∈ la.pkgs → exec (.packageEndReport pkg g) s = .next (s.reportEnd n pkg))) ∧
  (∀ (s : State) (n : Nat) (la : Launch) (g : Word), s.launches.find? n = some la → la.startGen = some g → la.started = false →
    la.ended = false → exec (.startTimeout n) s = .next ((s.abandon n).sendRejections la.pkgs g)) ∧
  (∀ (s : State) (pkg : BitVec 6) (g : Word), s.launchOfGen g = none → ∃ t, exec (.arrivalExpiry pkg g) s = .next t ∧
    (pkg, g) ∉ t.arrivals ∧ (∀ a ∈ s.arrivals, a ≠ (pkg, g) → a ∈ t.arrivals) ∧ t.launches = s.launches)

/-- R28, R29, R355, R360, R362, R367, R372, R416, R430: a cluster whose launch has its turn and which fits is placed, one a turn, a
relaunched one after all that the kill has left, and its waves begin, with several stages once the last is placed; a slice that has
run its length ends; a requested pre-emption stops the fragments that stand or that get no buffer slot, and its timeout all
others, each after a trap entry under way; a workgroup that is ready is saved, and restored on a core of its die. -/
def Rules.SchedulingEvents : Prop :=
  (∀ (s t : State) (n stage q : Nat) (la : Launch),
    let s1 := (s.reserve n).passTokens n
    s1.launches.find? n = some la → la.nextPlace = some (stage, q) → s1.mayPlace la = true → s1.turnOfOther n la = false →
    s1.placeCluster n la stage q = some t →
    let fresh := t.workgroups.filter fun x => (s1.workgroups.find? x.1).isNone
    let t1 : State := { t with launches := t.launches.insert n (la.placed s1.tick) }
    let t2 := if la.relaunch = [] then t1 else t1.releaseAll.acquireAll
    let t3 := fresh.foldl (fun t x => t.startSlice la.ctx.toNat x.2.core) t2
    let t4 := fresh.foldl (fun t x => t.beginWaves x.1) t3
    exec (.clusterPlacement n) s = .next (((if la.nstage = 1 then t4 else t4.beginLaunch n).reserve n).passTokens n)) ∧
  (∀ (s : State) (core first last : Nat) (ctx : BitVec 12), (s.context ctx.toNat).slices.find? core = some (first, last) →
    last ≤ (s.counter (dieOf core)).toNat → ∃ t : State, exec (.sliceEnd core ctx) s = .next (t.relieve (dieOf core)) ∧
      core ∈ (t.context ctx.toNat).sliceEnded ∧ t.waves = s.waves ∧ t.mem = s.mem) ∧
  (∀ (s : State) (g : Nat) (wg : Workgroup) (packet : Bool) (at_ : DWord), s.workgroups.find? g = some wg → wg.phase = .running →
    wg.request = some (packet, at_) →
    let s1 : State := { s with workgroups := s.workgroups.insert g { wg with phase := .stepping false packet } }
    exec (.preemptStepPhase g) s = .next ((s1.modWaves g fun w => w.stopWhere fun f =>
      f.trapLevel == 0 && (w.stands f || (w.wantsSlot f || w.fragReady f) && !s1.maySlot (16 * w.wg + w.no) f.id) &&
        !s1.entryOwed (16 * w.wg + w.no) f).withdrawSteps g)) ∧
  (∀ (s : State) (g : Nat) (wg : Workgroup) (was packet : Bool), s.workgroups.find? g = some wg → wg.phase = .stepping was packet →
    let s1 : State := { s with workgroups := s.workgroups.insert g { wg with phase := .stepping true packet } }
    exec (.stepPhaseTimeout g) s =
      .next ((s1.modWaves g fun w => w.stopWhere fun f => !s1.entryOwed (16 * w.wg + w.no) f).withdrawSteps g) ∧
    (∀ la base, s.launches.find? wg.launch = some la → s.readyToSave g = true → s.poolBad la.ctx.toNat = false →
      s.saveBase g la = .ok base → s.saveNeeds g = [] →
      exec (.workgroupSave g) s = .next (((s.chargeOverrun.writeImage g wg la base).dropSlice
        la.ctx.toNat wg.core).checkSwapout la.ctx.toNat))) ∧
  (∀ (s : State) (g base core : Nat) (wg : Workgroup) (la : Launch) (rest : List Nat), s.workgroups.find? g = some wg →
    wg.phase = .saved base → s.launches.find? wg.launch = some la → s.mayRestore wg = true →
    s.coresFor (dieOf wg.core) (.restore g) = some (core :: rest) → s.imageBad g base la = false →
    s.poolBad la.ctx.toNat = false → exec (.workgroupRestore g) s = .next ((waveKeys g la.waves).foldl (fun s wk => s.haltWave wk la.ctx.toNat 2)
      (((s.readImage g wg la base core).runOn g true).startSlice la.ctx.toNat core)))

/-- R46, R355, R360, R362, R367, R372, R376, R495: launches over packages, placement, slices and pre-emption. -/
def Obligations.Scheduling : Prop := Rules.LaunchEvents ∧ Rules.SchedulingEvents

/-! ## Debugging and the platform -/

/-- R338, R487 to R490: a halt completes when nothing is outstanding, registers still to be loaded and a trap entry's record
among it: STATUS.HALT becomes 1 and the session of the wave's context gets a halt record in its ring; a session opens on a context with no other session, closes, halts and resumes its context; DBGDATA reads and writes the selected item, and refuses with ERR
where no session or no such item stands. -/
def Obligations.DebugEvents : Prop :=
  (∀ (s : State) (wk slice : Nat) (w : Wave) (wg : Workgroup) (la : Launch) (reason : BitVec 2), s.waves.find? wk = some w →
    w.halting = some (reason, slice) → s.workgroups.find? w.wg = some wg → s.launches.find? wg.launch = some la →
    (∀ p ∈ w.pend, p.kind = .result) → s.loadsRegs wk = false → (∀ f ∈ w.frags, s.entryOwed wk f = false) →
    let t := s.modWave wk fun w => { w.landAll with status := mkStatus w.landAll.gdepth w.landAll.tl true, halting := none }
    (∀ n, s.sessionOf la.ctx.toNat = some n →
      let ring := (s.reg (0x2030 + 0x40 * n)).toNat
      let pc := ((w.slicePc slice).or (w.slicePc (lowestSlice (slicesOfLanes w.runnable)))).getD 0
      exec (.haltComplete wk) s = .next (t.ringNotify ⟨ring / 2 ^ 6 % 2 ^ 46 * 64, 2 ^ (ring % 2 ^ 5), 32⟩ 2
        (bytesOfNat 1 reason.toNat ++ bytesOfNat 1 (w.no % 4) ++ bytesOfNat 1 w.slotNo ++ bytesOfNat 1 w.no ++
          bytesOfNat 2 wg.core ++ bytesOfNat 2 la.ctx.toNat ++ bytesOfNat 4 la.lid.toNat ++ bytesOfNat 4 wg.index ++
          bytesOfNat 8 pc.toNat ++ bytesOfNat 8 (s.counter (dieOf wg.core)).toNat))) ∧
    (s.sessionOf la.ctx.toNat = none → exec (.haltComplete wk) s = .next t)) ∧
  (∀ (s : State) (n : BitVec 3) (v : DWord), s.sessionOpen n.toNat = false → v.getLsbD 63 = true →
    (∀ m < 8, s.sessionOpen m = true → s.sessionCtx m ≠ v.toNat % 4096) → v.getLsbD 60 = false → v.getLsbD 61 = false →
    exec (.debugSessionOpen n v) s = .next (s.setReg (0x2000 + 0x40 * n.toNat)
      (0x8000000000000000#64 ||| (v &&& 0x4000000000000000#64) ||| BitVec.ofNat 64 (v.toNat % 4096)))) ∧
  (∀ (s : State) (n : BitVec 3), s.sessionOpen n.toNat = true →
    (∃ t, t = s.resumeContext n.toNat ∧ exec (.debugSessionClose n) s =
      .next (t.setReg (0x2000 + 0x40 * n.toNat) (t.dbgCtl n.toNat &&& 0xFFF#64))) ∧
    exec (.debugHalt n) s = .next (s.haltContext n.toNat) ∧ exec (.debugResume n) s = .next (s.resumeContext n.toNat)) ∧
  (∀ (s : State) (n : BitVec 3), s.sessionOpen n.toNat = false ∨ s.debugTarget n.toNat = none →
    exec (.dbgdataRead n) s = .next ((s.debugError n.toNat).setReg (0x2020 + 0x40 * n.toNat) 0) ∧
    (∀ v, exec (.dbgdataWrite n v) s = .next (s.debugError n.toNat))) ∧
  (∀ (s : State) (n : BitVec 3) (wk space index : Nat) (w : Wave) (wg : Workgroup) (la : Launch) (base : Option Nat),
    s.sessionOpen n.toNat = true → s.debugTarget n.toNat = some (wk, w, wg, la, base, space, index) →
    s.mayReach n.toNat w space index = true →
    exec (.dbgdataRead n) s = .next (s.setReg (0x2020 + 0x40 * n.toNat) (w.item wg la (s.counter (dieOf wg.core)) space index)) ∧
    (base = none → ∀ v, exec (.dbgdataWrite n v) s = .next (s.modWave wk fun _ => w.setItem space index v)))

/-- R377, R390, R395, R487: a register write keeps what the register keeps (one that numbers the package lets waiting flits go),
opens or closes a debugger session by its DBGCTL, and starts a mailbox command; the mailbox commands answer
(IDENTIFY and STATUS in a layout that is the model's own, log entry 82; a payload of FWWRITE below 8 or above 3,840 bytes is
rejected by its choice, log 131); power-on reset and an idle FWACTIVATE reset the package and boot the image in flash, device
memory and flash kept, which is its reading (log 74). -/
def Obligations.MailboxEvents : Prop :=
  ∀ (s : State),
    (∀ (off : BitVec 16) (v x : DWord), off.toNat % 8 = 0 → off ≠ 0x1000 → s.written off.toNat v = some x →
      exec (.registerWrite off v) s = .next (if off = 0x0030 then (s.setReg off.toNat x).pump else s.setReg off.toNat x)) ∧
    (∀ (n : BitVec 3) (v : DWord), exec (.registerWrite (BitVec.ofNat 16 (0x2000 + 0x40 * n.toNat)) v) s =
      if v.getLsbD 63 then exec (.debugSessionOpen n v) s
      else if s.sessionOpen n.toNat then exec (.debugSessionClose n) s
      else .next (s.setReg (0x2000 + 0x40 * n.toNat) (v &&& 0xFFF#64))) ∧
    (∀ v : DWord, s.mailbox ≠ 1 → exec (.registerWrite 0x1000 v) s =
      .next ((s.setReg 0x1000 (keepBits v 47 32 ||| keepBits v 15 0)).setMailbox
        (if v.toNat % 2 ^ 16 = 0x01 ∨ v.toNat % 2 ^ 16 = 0x10 ∨ v.toNat % 2 ^ 16 = 0x11 ∨ v.toNat % 2 ^ 16 = 0x20 then 1 else 2))) ∧
    (s.runs 0x0001 = true → ∃ t, exec .identify s = .next t ∧ t.mailbox = 0 ∧ t.reg 0x1100 = s.reg 0x0000 ∧
      t.reg 0x1110 = s.rollback.zeroExtend 64) ∧
    (s.runs 0x0010 = true →
      let n := (s.reg 0x1000).toNat / 2 ^ 32 % 2 ^ 16
      let off := natOfBytes (s.payload.take 8)
      (n < 8 ∨ 3840 < n → exec .fwwrite s = .next (s.setMailbox 2)) ∧
      (8 ≤ n → n ≤ 3840 → ∃ t, exec .fwwrite s = .next t ∧ t.mailbox = 0 ∧
        (∀ j < n - 8, SMap.get 0 t.flash (off + j) = s.payload.getD (8 + j) 0) ∧
        (∀ a, a < off ∨ off + (n - 8) ≤ a → SMap.get 0 t.flash a = SMap.get 0 s.flash a))) ∧
    (s.runs 0x0020 = true → ∃ t, exec .status s = .next t ∧ t.mailbox = 0 ∧ t.reg 0x1100 = if s.bootOk then 1 else 0) ∧
    exec .powerOnReset s = .next s.boot ∧
    (s.runs 0x0011 = true → (∀ x ∈ s.launches, x.2.ended = true) → exec .fwactivate s = .next s.boot) ∧
    (s.runs 0x0011 = true → (∃ x ∈ s.launches, x.2.ended = false) → exec .fwactivate s = .next (s.setMailbox 3)) ∧
    (s.boot.waves = [] ∧ s.boot.launches = [] ∧ s.boot.workgroups = [] ∧ s.boot.flash = s.flash ∧
      (s.halted = false → s.boot.mem = s.mem) ∧ s.rollback.toNat ≤ s.boot.rollback.toNat)

/-- R390, R432, R434: each SPDM request is answered; a certificate or a signature only while the identity stands; a measured image
that differs, and a source that has a response, raise the alarm. The form of the responses is presumed (log 87), and the ERROR for a
measurement of index 0 or 5 to 254 is the model's choice (log 132). -/
def Obligations.SecurityEvents : Prop :=
  ∀ (s : State),
    let answers (i : Instr) (r : SpdmResponse) : Prop := exec i s = .next { s with spdm := r }
    answers .getVersion .version ∧ answers .getCapabilities .capabilities ∧
    (∀ a b, answers (.negotiateAlgorithms a b) (.algorithms (a && b))) ∧ answers .getDigests (.digests Config.certDigest) ∧
    (∀ o n, s.identityErased = false → answers (.getCertificate o n) (.certificate ((Config.certificate.drop o.toNat).take n.toNat))) ∧
    (∀ o n, s.identityErased = true → answers (.getCertificate o n) .error) ∧
    (∀ nonce, ∃ t, exec (.challenge nonce) s = .next t ∧ (s.identityErased = true → t.spdm = .error) ∧
      (s.identityErased = false → ∃ own : List Byte, own.length = 32 ∧
        t.spdm = .challengeAuth own (Config.signature (nonce ++ own)))) ∧
    (∀ i : BitVec 8, 1 ≤ i.toNat → i.toNat ≤ 4 → answers (.getMeasurements i) (.measurements [(i.toNat, s.measurement i.toNat)])) ∧
    (∀ i : BitVec 8, i.toNat = 0 ∨ 4 < i.toNat ∧ i.toNat < 255 → answers (.getMeasurements i) .error) ∧
    (s.recovery = false → s.running ≠ [] → Config.sha256 s.running ≠ s.measured → exec .firmwareRemeasure s = .next (s.alarm 0x10)) ∧
    (∀ x, exec (.securityAlarm x) s = .next (s.alarm x)) ∧
    (∀ x : BitVec 8, x.getLsbD 2 = true → (s.alarm x).identityErased = true ∧ (s.alarm x).halted = true ∧ (s.alarm x).sessionKeys = false)

/-- R391, R393, R394: an island takes a target from 17 to 100 at once, or after the change in progress, which ends at its target,
or below it where the thermal limit holds it, and it is marked only while it is held below; at 100 °C the named islands fall
and are marked where that is below their target, below it they return; at 110 °C the trip latches; a measured skew is stored. -/
def Obligations.ThermalEvents : Prop :=
  ∀ (s : State),
    (∀ (i : BitVec 6) (v : DWord), let t := max 17 (min 100 (v.toNat % 256))
      let r := s.reg (0x0400 + 8 * i.toNat)
      (r.getLsbD 31 = true → exec (.islandWrite i v) s =
        .next { s with islandNext := s.islandNext.insert i.toNat (BitVec.ofNat 8 t) }) ∧
      (r.getLsbD 31 = false → exec (.islandWrite i v) s = .next (s.setReg (0x0400 + 8 * i.toNat)
        (mkIsland (r.toNat / 2 ^ 16 % 256 ≠ t) (r.getLsbD 30 && decide (r.toNat / 2 ^ 16 % 256 < t)) (r.toNat / 2 ^ 16 % 256) t))) ∧
      (r.getLsbD 31 = true → s.islandNext.find? i.toNat = none →
        let cur := r.toNat / 2 ^ 16 % 256
        let tgt := r.toNat % 256
        exec (.frequencyChangeEnd i) s = .next (s.setReg (0x0400 + 8 * i.toNat)
          (mkIsland false (r.getLsbD 30 && decide (cur < tgt)) (if r.getLsbD 30 = true ∧ cur < tgt then cur else tgt) tgt)))) ∧
    (∀ (temp : BitVec 8) (l : List (BitVec 6 × BitVec 8)), 100 ≤ temp.toNat → exec (.thermalThrottle temp l) s =
      .next (l.foldl (fun s x => s.modIsland x.1.toNat fun busy _ cur tgt => mkIsland busy (decide (min cur x.2.toNat < tgt)) (min cur x.2.toNat) tgt)
        (s.setTemp temp))) ∧
    (∀ temp : BitVec 8, temp.toNat < 100 → ∃ t, exec (.thermalLimitRelease temp) s = .next t ∧ ∀ i < 64,
      let r := s.reg (0x0400 + 8 * i)
      let tgt := r.toNat % 256
      t.reg (0x0400 + 8 * i) = if r.getLsbD 30 then
        mkIsland (r.getLsbD 31) false (if r.getLsbD 31 then r.toNat / 2 ^ 16 % 256 else tgt) tgt else r) ∧
    (∀ temp : BitVec 8, 110 ≤ temp.toNat → ∃ t, exec (.thermalTrip temp) s = .next t ∧ t.tripped = true) ∧
    (∀ (i : BitVec 6) (off : BitVec 48) (unc : BitVec 15),
      (i ≠ s.myPackage → exec (.skewMeasurement true i off unc) s = .next (s.setReg (0x0100 + 8 * i.toNat) ((1#1 ++ unc) ++ off))) ∧
      (0 < i.toNat → i.toNat < 4 → exec (.skewMeasurement false i off unc) s =
        .next (s.setReg (0x0080 + 8 * i.toNat) ((1#1 ++ unc) ++ off))))

/-! ## Links -/

/-- R377, R381, R382, R497 to R499: a good flit with the expected SEQ is delivered and acknowledged, any bad one and one with another
SEQ, an idle one too, answered with a replay request; a good idle flit delivers nothing; an acknowledgement frees, a replay request
sends again, and then what waited goes; a port with more than 1,024 replay requests in a millisecond trains again, and comes up on
4, 2 or 1 lanes, or is down, its PEER standing; what a port that carries no longer has kept goes by another; a package that no port
reaches is lost. That an acknowledgement names the next SEQ expected, which control flits carry in their SEQ field, is the model's
reading (log 77); what a flit of VC 3 says of kills, and how waiting flits and paths move, its choice (log 106). -/
def Obligations.PortEvents : Prop :=
  ∀ (s : State) (port : BitVec 6) (bs : List Byte),
    let p := port.toNat
    let x := s.port p
    let replay : State := (s.sendFlit p (controlFlit 3 x.expect)).countReplay p
    let again (t : State) : State := { t with outbox := t.outbox ++ (t.port p).unacked.map fun f => .flit p f }
    (s.portCarries p = true → flitGood bs = false → exec (.flitData port bs) s = .next replay ∧
      exec (.flitIdle port bs) s = .next replay ∧ exec (.flitAcknowledge port bs) s = .next replay ∧
      exec (.flitReplayRequest port bs) s = .next replay) ∧
    (s.portCarries p = true → flitGood bs = true → flitKind bs = 1 →
      exec (.flitIdle port bs) s = .next (if flitSeq bs = x.expect then s else replay)) ∧
    (s.portCarries p = true → flitGood bs = true → flitKind bs = 0 → flitSeq bs ≠ x.expect →
      exec (.flitData port bs) s = .next replay) ∧
    (s.portCarries p = true → flitGood bs = true → flitKind bs = 0 → flitSeq bs = x.expect →
      ∃ t : State, (t.port p).expect = x.expect + 1 ∧
        SMap.get [] (t.port p).delivered (flitVc bs) = SMap.get [] x.delivered (flitVc bs) ++ (bs.drop 4).take 248 ∧
        t.outbox = s.outbox ++ [.flit p (controlFlit 2 (x.expect + 1))] ∧ t.waves = s.waves ∧ t.mem = s.mem ∧
        exec (.flitData port bs) s =
          .next (if flitVc bs = 3 then t.hearKill (SMap.get [] (t.port p).delivered 3) else t)) ∧
    (s.portCarries p = true → flitGood bs = true → flitKind bs = 2 →
      exec (.flitAcknowledge port bs) s = .next (s.freeFlits p (flitSeq bs)).pump) ∧
    (s.portCarries p = true → flitGood bs = true → flitKind bs = 3 →
      exec (.flitReplayRequest port bs) s = .next (again ((s.freeFlits p (flitSeq bs)).countReplay p)).pump) ∧
    (s.portState p = 2 → 1024 < x.replays.length → exec (.portRetrain port) s =
      .next (((s.setPort p 1 0 (s.portPeer p)).modPort p fun x => { x with replays := [] }).movePaths (s.portPeer p))) ∧
    (let now := (s.counter 0).toNat;
      ((s.countReplay p).port p).replays = x.replays.filter (fun t => decide (now < t + 600000)) ++ [now]) ∧
    (∀ (lanes : BitVec 3) (peer : BitVec 6), p < 36 → s.portState p ≠ 2 → s.recovery = false → s.halted = false →
      let t := s.setPort p 2 (if 4 ≤ lanes.toNat then 4 else if 2 ≤ lanes.toNat then 2 else 1) peer
      (lanes ≠ 0 → exec (.portTrainingEnd port lanes peer) s = .next (if t.portLoops p then t else ((again t).movePaths peer).pump)) ∧
      exec (.portTrainingEnd port 0 peer) s = .next ((s.setPort p 0 0 (s.portPeer p)).movePaths (s.portPeer p))) ∧
    (∀ pkg, (∀ q < 36, s.portState q ≠ 2 ∨ s.portPeer q ≠ pkg ∨ s.portLoops q = true) → exec (.packageLoss pkg) s = .next (s.losePackage pkg)) ∧
    (∀ pkg, exec (.packageLossReport pkg) s = .next (s.losePackage pkg))

/-- R378, R386, R387, R389, R497, R501: a 64-bit doorbell write within its ring sets a producer count, one of another size
nothing; a work request is taken, and one that fails its check completes with status 3; every good frame of a connection
acknowledges, and those in sequence write, read and answer; an ACK completes what it covers, a NAK or 50 µs without one sends
again, a NAK of a failed check completes its request with status 1; a waiting record is written when there is room; a link change
shows. That the last bit of a NAK says so is the model's choice (log 85), as is which NAKs answer what has been sent again
already (log 117); the cumulative number of an ACK and the length of a READ request are its reading (log 80). -/
def Obligations.TransportEvents : Prop :=
  (∀ (s : State) (die : BitVec 2) (c : BitVec 10) (d : ConnDesc), s.connDesc die.toNat c.toNat = some d →
    let k := die.toNat
    let n := c.toNat
    let x := s.conn k n
    let bell : BitVec 26 := BitVec.ofNat 26 (0x2000000 + 0x400000 * k + 0x1000 * n)
    (∀ bytes v, bytes ≠ 8 → exec (.transportDoorbell bell bytes v) s = .next s) ∧
    (∀ v : DWord, v.getLsbD 63 = false → (v.toNat + 2 ^ 63 - x.sendCons.toNat) % 2 ^ 63 ≤ d.send.entries →
      exec (.transportDoorbell bell 8 v) s = .next (s.modConn k n fun x => { x with sendProd := BitVec.ofNat 64 (v.toNat % 2 ^ 63) })) ∧
    (∀ v : DWord, v.getLsbD 63 = true → (v.toNat % 2 ^ 63 + 2 ^ 63 - x.recvCons.toNat) % 2 ^ 63 ≤ d.recv.entries →
      exec (.transportDoorbell bell 8 v) s = .next (s.modConn k n fun x => { x with recvProd := BitVec.ofNat 64 (v.toNat % 2 ^ 63) })) ∧
    (∀ p ∈ [(Instr.wrWrite die c, 1), (.wrRead die c, 2), (.wrSend die c, 4)],
      let b := s.bytes (d.send.entryAt x.sendCons.toNat) 64
      let ref : DWord := BitVec.ofNat 64 (natOfBytes ((b.drop 16).take 8))
      let len := natOfBytes ((b.drop 12).take 4)
      exec p.1 s = .next (s.takeWork k n p.2) ∧
      (x.sendCons ≠ x.sendProd → x.waiting = [] → x.work = [] → natOfBytes ((b.drop 8).take 1) = p.2 →
        (∃ code, s.transportCheck d ref (p.2 == 2) len = .error code) → ∃ (w : WorkReq) (t : State),
          w.opcode = p.2 ∧ w.length = len ∧ (t.conn k n).sendCons = BitVec.ofNat 64 ((x.sendCons.toNat + 1) % 2 ^ 63) ∧
          (t.conn k n).work = [w] ∧ exec p.1 s = .next (t.endWork k n d w.id 3))) ∧
    exec (.transportRetransmit die c) s = .next (s.resend k n d) ∧
    (∀ r rest, x.waiting = r :: rest → s.ringFull d.cmpl = false → exec (.completionRecordWrite die c) s =
      .next (((s.modConn k n fun x => { x with waiting := rest }).writeBackRemote k).ringWrite d.cmpl r))) ∧
  (∀ (s : State) (die : BitVec 2) (bs : List Byte) (d : ConnDesc),
    let k := die.toNat
    let f := readFrame bs
    let s0 := s.acknowledge k f.conn d f.ack
    let x := s0.conn k f.conn
    let passed (t : State) : State := (t.modConn k f.conn fun x => { x with expect := x.expect + 1 }).answer k f.conn 5 d false
    let ref := mkRef f.obj 15 f.off
    let touched (index off n : Nat) : State := if n = 0 then s0 else s0.touchRange d.dom index off n
    let reaches (index : Nat) (e : ObjEntry) (off n : Nat) : Prop :=
      n = 0 ∨ s0.converting e = false ∧ s0.missing d.dom index e off n = []
    (∀ code, s.framed k 1 bs d → f.psn = x.expect → f.len = f.payload.length → s0.transportCheck d ref true f.len = .error code →
      exec (.frameWrite die bs) s = .next (s0.answer k f.conn 6 d true)) ∧
    (∀ e, s.framed k 1 bs d → f.psn = x.expect → f.len = f.payload.length → s0.transportCheck d ref true f.len = .ok e →
      f.off < 2 ^ 42 → f.obj < 2 ^ 18 → reaches f.obj e f.off f.len → exec (.frameWrite die bs) s =
        .next (passed ((touched f.obj f.off f.len).transportWrite k d.dom e f.off f.payload))) ∧
    (∀ e, s.framed k 2 bs d → f.psn = x.expect → s0.transportCheck d ref false f.len = .ok e →
      f.off < 2 ^ 42 → f.obj < 2 ^ 18 → reaches f.obj e f.off f.len →
      exec (.frameReadRequest die bs) s = .next (passed ((touched f.obj f.off f.len).postAll k f.conn 3 d (BitVec.ofNat 64 f.off)
        (BitVec.ofNat 32 f.obj) ((touched f.obj f.off f.len).transportRead k d.dom e f.off f.len) none))) ∧
    (s.framed k 3 bs d → f.psn = x.expect → (∀ w ∈ x.work, w.opcode ≠ 2) → exec (.frameReadResponse die bs) s = .next (passed s0)) ∧
    (∀ w e rest, s.framed k 3 bs d → f.psn = x.expect → x.work = w :: rest → w.opcode = 2 → w.status = none →
      s0.transportCheck d w.ref true w.length = .ok e → f.last = false →
      let data := f.payload.take (w.length - w.moved)
      let off := refOffset w.ref + w.moved
      reaches (refIndex w.ref) e off data.length → exec (.frameReadResponse die bs) s =
        .next (passed (((touched (refIndex w.ref) off data.length).transportWrite k d.dom e off data).modConn k f.conn
          fun x => { x with work := x.work.map fun y => if y.id = w.id then { y with moved := y.moved + data.length } else y }))) ∧
    (s.framed k 4 bs d → f.psn = x.expect → x.recv = none → x.waiting ≠ [] →
      exec (.frameSend die bs) s = .next (s0.answer k f.conn 6 d false)) ∧
    (∀ ident sref len placed seen e, s.framed k 4 bs d → f.psn = x.expect → x.recv = some (ident, sref, len, placed, seen) →
      s0.transportCheck d sref true len = .ok e → f.last = false →
      let data := f.payload.take (len - placed)
      let off := refOffset sref + placed
      reaches (refIndex sref) e off data.length → exec (.frameSend die bs) s =
        .next (passed (((touched (refIndex sref) off data.length).transportWrite k d.dom e off data).modConn k f.conn
        fun x => { x with recv := some (ident, sref, len, placed + data.length, seen + f.payload.length) }))) ∧
    (s.framed k 5 bs d → exec (.frameAck die bs) s = .next s0) ∧
    (s.framed k 6 bs d → f.last = false → x.unacked ≠ [] →
      exec (.frameNak die bs) s = .next (if 0 < x.stale then s0.modConn k f.conn fun x => { x with stale := x.stale - 1 }
        else (s0.resend k f.conn d).modConn k f.conn fun y => { y with stale := y.unacked.length - 1 })) ∧
    (∀ g rest id, s.framed k 6 bs d → f.last = true → x.unacked = g :: rest → g.wr = some id →
      let t := s0.modConn k f.conn fun x => x.giveUp g
      exec (.frameNak die bs) s = .next (((t.conn k f.conn).unacked.foldl (fun s y => s.sendFrame k d y.bytes) t).endWork
        k f.conn d id 1)) ∧
    (∀ up, ∃ t, exec (.ethernetLinkChange die up) s = .next t ∧ t.linkUp k = up ∧ t.outbox = s.outbox))
end

