-- ==== Sys2Proof/Laws/SMap.lean ====
section
/-!
SUPPORT. The laws of sparse maps: a read after a write, other keys unchanged, and the canonical form kept. The
read laws hold for every list, canonical or not.
-/

namespace Sys2Proof.Machine

theorem SMap.find?_dropWhile_lt {α : Type} (r : SMap α) (k k' : Nat) (h : k < k') :
    SMap.find? (r.dropWhile (fun p => p.1 ≤ k)) k' = r.find? k' := by
  induction r with
  | nil => rfl
  | cons p r ih =>
    obtain ⟨a, x⟩ := p
    by_cases ha : a ≤ k
    · have h1 : ¬ k' < a := by omega
      have h2 : ¬ k' = a := by omega
      simp [List.dropWhile, ha, SMap.find?, h1, h2, ih]
    · simp [List.dropWhile, ha]

theorem SMap.find?_dropWhile_ge {α : Type} (r : SMap α) (k k' : Nat) (h : k' ≤ k) :
    SMap.find? (r.dropWhile (fun p => p.1 ≤ k)) k' = none := by
  induction r with
  | nil => rfl
  | cons p r ih =>
    obtain ⟨a, x⟩ := p
    by_cases ha : a ≤ k
    · simpa [List.dropWhile, ha] using ih
    · have h1 : k' < a := by omega
      simp [List.dropWhile, ha, SMap.find?, h1]

@[simp] theorem SMap.find?_insert_same {α : Type} (m : SMap α) (k : Nat) (v : α) :
    (m.insert k v).find? k = some v := by
  induction m with
  | nil => simp [SMap.insert, SMap.find?]
  | cons p r ih =>
    obtain ⟨a, x⟩ := p
    simp only [SMap.insert]
    split
    · simp [SMap.find?]
    · split
      · simp [SMap.find?]
      · simp_all [SMap.find?]

theorem SMap.find?_insert_other {α : Type} (m : SMap α) (k k' : Nat) (v : α) (h : k' ≠ k) :
    (m.insert k v).find? k' = m.find? k' := by
  induction m with
  | nil =>
    simp only [SMap.insert, SMap.find?]
    split
    · rfl
    · simp [h]
  | cons p r ih =>
    obtain ⟨a, x⟩ := p
    simp only [SMap.insert]
    split
    · rename_i hka
      by_cases hk : k' < k
      · have : k' < a := by omega
        simp [SMap.find?, hk, this]
      · simp [SMap.find?, hk, h]
    · split
      · rename_i h2; subst h2
        by_cases hk : k' < k <;> simp_all [SMap.find?]
      · simp [SMap.find?, ih]

@[simp] theorem SMap.find?_erase_same {α : Type} (m : SMap α) (k : Nat) : (m.erase k).find? k = none := by
  induction m with
  | nil => rfl
  | cons p r ih =>
    obtain ⟨a, x⟩ := p
    simp only [SMap.erase]
    split
    · simp [SMap.find?, *]
    · split
      · exact SMap.find?_dropWhile_ge r k k (Nat.le_refl k)
      · simp_all [SMap.find?]

theorem SMap.find?_erase_other {α : Type} (m : SMap α) (k k' : Nat) (h : k' ≠ k) :
    (m.erase k).find? k' = m.find? k' := by
  induction m with
  | nil => rfl
  | cons p r ih =>
    obtain ⟨a, x⟩ := p
    simp only [SMap.erase]
    split
    · rfl
    · split
      · rename_i h2; subst h2
        rcases Nat.lt_or_ge k k' with hk | hk
        · rw [SMap.find?_dropWhile_lt r k k' hk]
          have h1 : ¬ k' < k := by omega
          simp [SMap.find?, h1, h]
        · rw [SMap.find?_dropWhile_ge r k k' hk]
          have h1 : k' < k := by omega
          simp [SMap.find?, h1]
      · simp [SMap.find?, ih]

@[simp] theorem SMap.get_set_same {α : Type} [DecidableEq α] (d : α) (m : SMap α) (k : Nat) (v : α) :
    SMap.get d (SMap.set d m k v) k = v := by
  unfold SMap.get SMap.set
  split
  · simp [*]
  · simp

theorem SMap.get_set_other {α : Type} [DecidableEq α] (d : α) (m : SMap α) (k k' : Nat) (v : α) (h : k' ≠ k) :
    SMap.get d (SMap.set d m k v) k' = SMap.get d m k' := by
  unfold SMap.get SMap.set
  split
  · rw [SMap.find?_erase_other m k k' h]
  · rw [SMap.find?_insert_other m k k' v h]

theorem SMap.get_set {α : Type} [DecidableEq α] (d : α) (m : SMap α) (k k' : Nat) (v : α) :
    SMap.get d (SMap.set d m k v) k' = if k' = k then v else SMap.get d m k' := by
  by_cases h : k' = k
  · simp [h]
  · simp [h, SMap.get_set_other]

theorem SMap.risingFrom_mono {α : Type} (m : SMap α) (a b : Nat) (h : a ≤ b) (hm : m.risingFrom b = true) :
    m.risingFrom a = true := by
  cases m with
  | nil => rfl
  | cons p r =>
    simp only [SMap.risingFrom, Bool.and_eq_true, decide_eq_true_eq] at hm ⊢
    exact ⟨by omega, hm.2⟩

theorem SMap.risingFrom_insert {α : Type} (m : SMap α) (lo k : Nat) (v : α) (hk : lo ≤ k)
    (h : m.risingFrom lo = true) : (m.insert k v).risingFrom lo = true := by
  induction m generalizing lo with
  | nil => simp [SMap.insert, SMap.risingFrom, hk]
  | cons p r ih =>
    obtain ⟨a, x⟩ := p
    simp only [SMap.risingFrom, Bool.and_eq_true, decide_eq_true_eq] at h
    simp only [SMap.insert]
    split
    · simp only [SMap.risingFrom, Bool.and_eq_true, decide_eq_true_eq]
      exact ⟨hk, by omega, h.2⟩
    · split
      · rename_i h2; subst h2
        simp only [SMap.risingFrom, Bool.and_eq_true, decide_eq_true_eq]
        exact ⟨hk, h.2⟩
      · simp only [SMap.risingFrom, Bool.and_eq_true, decide_eq_true_eq]
        exact ⟨h.1, ih (a + 1) (by omega) h.2⟩

theorem SMap.dropWhile_of_rising {α : Type} (r : SMap α) (k : Nat) (h : r.risingFrom (k + 1) = true) :
    r.dropWhile (fun p => p.1 ≤ k) = r := by
  cases r with
  | nil => rfl
  | cons p r =>
    simp only [SMap.risingFrom, Bool.and_eq_true, decide_eq_true_eq] at h
    have : ¬ p.1 ≤ k := by omega
    simp [List.dropWhile, this]

theorem SMap.risingFrom_erase {α : Type} (m : SMap α) (lo k : Nat) (h : m.risingFrom lo = true) :
    (m.erase k).risingFrom lo = true := by
  induction m generalizing lo with
  | nil => rfl
  | cons p r ih =>
    obtain ⟨a, x⟩ := p
    have h' := h
    simp only [SMap.risingFrom, Bool.and_eq_true, decide_eq_true_eq] at h
    simp only [SMap.erase]
    split
    · exact h'
    · split
      · rename_i h2; subst h2
        rw [SMap.dropWhile_of_rising r k h.2]
        exact SMap.risingFrom_mono r lo (k + 1) (by omega) h.2
      · simp only [SMap.risingFrom, Bool.and_eq_true, decide_eq_true_eq]
        exact ⟨h.1, ih (a + 1) h.2⟩

theorem SMap.all_insert {α : Type} (m : SMap α) (k : Nat) (v : α) (q : Nat × α → Bool)
    (hq : q (k, v) = true) (h : m.all q = true) : (m.insert k v).all q = true := by
  induction m with
  | nil => simpa [SMap.insert] using hq
  | cons p r ih =>
    obtain ⟨a, x⟩ := p
    rw [List.all_cons, Bool.and_eq_true] at h
    simp only [SMap.insert]
    split
    · simp [hq, h.1, h.2]
    · split
      · simp [hq, h.2]
      · simp [h.1, ih h.2]

theorem SMap.all_dropWhile {α : Type} (r : List α) (f q : α → Bool) (h : r.all q = true) :
    (r.dropWhile f).all q = true := by
  induction r with
  | nil => rfl
  | cons p r ih =>
    rw [List.all_cons, Bool.and_eq_true] at h
    by_cases hf : f p = true
    · simpa [List.dropWhile, hf] using ih h.2
    · simp [List.dropWhile, hf, h.1, h.2]

theorem SMap.all_erase {α : Type} (m : SMap α) (k : Nat) (q : Nat × α → Bool) (h : m.all q = true) :
    (m.erase k).all q = true := by
  induction m with
  | nil => rfl
  | cons p r ih =>
    obtain ⟨a, x⟩ := p
    have h' := h
    rw [List.all_cons, Bool.and_eq_true] at h
    simp only [SMap.erase]
    split
    · exact h'
    · split
      · exact SMap.all_dropWhile r _ q h.2
      · rw [List.all_cons, Bool.and_eq_true]
        exact ⟨h.1, ih h.2⟩

/-- A write keeps the canonical form. -/
theorem SMap.wf_set {α : Type} [DecidableEq α] (d : α) (m : SMap α) (k : Nat) (v : α) (h : SMap.wf d m = true) :
    SMap.wf d (SMap.set d m k v) = true := by
  unfold SMap.wf at h ⊢
  rw [Bool.and_eq_true] at h ⊢
  unfold SMap.set
  split
  · exact ⟨SMap.risingFrom_erase m 0 k h.1, SMap.all_erase m k _ h.2⟩
  · rename_i hv
    exact ⟨SMap.risingFrom_insert m 0 k v (Nat.zero_le k) h.1, SMap.all_insert m k v _ (by simpa using hv) h.2⟩

end Sys2Proof.Machine
end

