-- ==== Sys2Proof/Laws/State.lean ====
section
/-!
SUPPORT. One lemma per field and update of the state: what the basic updates leave as it was.
-/

namespace Sys2Proof.Machine

/-! ## modWave -/

@[simp] theorem State.modWave_mem (s : State) (wk : Nat) (f : Wave → Wave) : (s.modWave wk f).mem = s.mem := rfl
@[simp] theorem State.modWave_hostMem (s : State) (wk : Nat) (f : Wave → Wave) : (s.modWave wk f).hostMem = s.hostMem := rfl
@[simp] theorem State.modWave_poison (s : State) (wk : Nat) (f : Wave → Wave) : (s.modWave wk f).poison = s.poison := rfl
@[simp] theorem State.modWave_bar0 (s : State) (wk : Nat) (f : Wave → Wave) : (s.modWave wk f).bar0 = s.bar0 := rfl
@[simp] theorem State.modWave_counters (s : State) (wk : Nat) (f : Wave → Wave) : (s.modWave wk f).counters = s.counters := rfl
@[simp] theorem State.modWave_queues (s : State) (wk : Nat) (f : Wave → Wave) : (s.modWave wk f).queues = s.queues := rfl
@[simp] theorem State.modWave_served (s : State) (wk : Nat) (f : Wave → Wave) : (s.modWave wk f).served = s.served := rfl
@[simp] theorem State.modWave_signals (s : State) (wk : Nat) (f : Wave → Wave) : (s.modWave wk f).signals = s.signals := rfl
@[simp] theorem State.modWave_objinvs (s : State) (wk : Nat) (f : Wave → Wave) : (s.modWave wk f).objinvs = s.objinvs := rfl
@[simp] theorem State.modWave_contexts (s : State) (wk : Nat) (f : Wave → Wave) : (s.modWave wk f).contexts = s.contexts := rfl
@[simp] theorem State.modWave_launches (s : State) (wk : Nat) (f : Wave → Wave) : (s.modWave wk f).launches = s.launches := rfl
@[simp] theorem State.modWave_workgroups (s : State) (wk : Nat) (f : Wave → Wave) : (s.modWave wk f).workgroups = s.workgroups :=
  rfl
@[simp] theorem State.modWave_claims (s : State) (wk : Nat) (f : Wave → Wave) : (s.modWave wk f).claims = s.claims := rfl
@[simp] theorem State.modWave_lends (s : State) (wk : Nat) (f : Wave → Wave) : (s.modWave wk f).lends = s.lends := rfl
@[simp] theorem State.modWave_objCache (s : State) (wk : Nat) (f : Wave → Wave) : (s.modWave wk f).objCache = s.objCache := rfl
@[simp] theorem State.modWave_l1 (s : State) (wk : Nat) (f : Wave → Wave) : (s.modWave wk f).l1 = s.l1 := rfl
@[simp] theorem State.modWave_texel (s : State) (wk : Nat) (f : Wave → Wave) : (s.modWave wk f).texel = s.texel := rfl
@[simp] theorem State.modWave_rdc (s : State) (wk : Nat) (f : Wave → Wave) : (s.modWave wk f).rdc = s.rdc := rfl
@[simp] theorem State.modWave_l2 (s : State) (wk : Nat) (f : Wave → Wave) : (s.modWave wk f).l2 = s.l2 := rfl
@[simp] theorem State.modWave_wcache (s : State) (wk : Nat) (f : Wave → Wave) : (s.modWave wk f).wcache = s.wcache := rfl
@[simp] theorem State.modWave_wfills (s : State) (wk : Nat) (f : Wave → Wave) : (s.modWave wk f).wfills = s.wfills := rfl
@[simp] theorem State.modWave_storeQ (s : State) (wk : Nat) (f : Wave → Wave) : (s.modWave wk f).storeQ = s.storeQ := rfl
@[simp] theorem State.modWave_copies (s : State) (wk : Nat) (f : Wave → Wave) : (s.modWave wk f).copies = s.copies := rfl
@[simp] theorem State.modWave_matOps (s : State) (wk : Nat) (f : Wave → Wave) : (s.modWave wk f).matOps = s.matOps := rfl
@[simp] theorem State.modWave_sharedB (s : State) (wk : Nat) (f : Wave → Wave) : (s.modWave wk f).sharedB = s.sharedB := rfl
@[simp] theorem State.modWave_freeFrames (s : State) (wk : Nat) (f : Wave → Wave) : (s.modWave wk f).freeFrames = s.freeFrames :=
  rfl
@[simp] theorem State.modWave_requests (s : State) (wk : Nat) (f : Wave → Wave) : (s.modWave wk f).requests = s.requests := rfl
@[simp] theorem State.modWave_useOrder (s : State) (wk : Nat) (f : Wave → Wave) : (s.modWave wk f).useOrder = s.useOrder := rfl
@[simp] theorem State.modWave_convs (s : State) (wk : Nat) (f : Wave → Wave) : (s.modWave wk f).convs = s.convs := rfl
@[simp] theorem State.modWave_bvhs (s : State) (wk : Nat) (f : Wave → Wave) : (s.modWave wk f).bvhs = s.bvhs := rfl
@[simp] theorem State.modWave_builds (s : State) (wk : Nat) (f : Wave → Wave) : (s.modWave wk f).builds = s.builds := rfl
@[simp] theorem State.modWave_colls (s : State) (wk : Nat) (f : Wave → Wave) : (s.modWave wk f).colls = s.colls := rfl
@[simp] theorem State.modWave_collCount (s : State) (wk : Nat) (f : Wave → Wave) : (s.modWave wk f).collCount = s.collCount :=
  rfl
@[simp] theorem State.modWave_arrivals (s : State) (wk : Nat) (f : Wave → Wave) : (s.modWave wk f).arrivals = s.arrivals := rfl
@[simp] theorem State.modWave_lostPkgs (s : State) (wk : Nat) (f : Wave → Wave) : (s.modWave wk f).lostPkgs = s.lostPkgs := rfl
@[simp] theorem State.modWave_refusedGens (s : State) (wk : Nat) (f : Wave → Wave) : (s.modWave wk f).refusedGens = s.refusedGens := rfl
@[simp] theorem State.modWave_ports (s : State) (wk : Nat) (f : Wave → Wave) : (s.modWave wk f).ports = s.ports := rfl
@[simp] theorem State.modWave_traffic (s : State) (wk : Nat) (f : Wave → Wave) : (s.modWave wk f).traffic = s.traffic := rfl
@[simp] theorem State.modWave_conns (s : State) (wk : Nat) (f : Wave → Wave) : (s.modWave wk f).conns = s.conns := rfl
@[simp] theorem State.modWave_islandNext (s : State) (wk : Nat) (f : Wave → Wave) : (s.modWave wk f).islandNext = s.islandNext :=
  rfl
@[simp] theorem State.modWave_flash (s : State) (wk : Nat) (f : Wave → Wave) : (s.modWave wk f).flash = s.flash := rfl
@[simp] theorem State.modWave_running (s : State) (wk : Nat) (f : Wave → Wave) : (s.modWave wk f).running = s.running := rfl
@[simp] theorem State.modWave_bootOk (s : State) (wk : Nat) (f : Wave → Wave) : (s.modWave wk f).bootOk = s.bootOk := rfl
@[simp] theorem State.modWave_measured (s : State) (wk : Nat) (f : Wave → Wave) : (s.modWave wk f).measured = s.measured := rfl
@[simp] theorem State.modWave_rollback (s : State) (wk : Nat) (f : Wave → Wave) : (s.modWave wk f).rollback = s.rollback := rfl
@[simp] theorem State.modWave_identityErased (s : State) (wk : Nat) (f : Wave → Wave) : (s.modWave wk f).identityErased = s.identityErased :=
  rfl
@[simp] theorem State.modWave_recovery (s : State) (wk : Nat) (f : Wave → Wave) : (s.modWave wk f).recovery = s.recovery := rfl
@[simp] theorem State.modWave_halted (s : State) (wk : Nat) (f : Wave → Wave) : (s.modWave wk f).halted = s.halted := rfl
@[simp] theorem State.modWave_tripped (s : State) (wk : Nat) (f : Wave → Wave) : (s.modWave wk f).tripped = s.tripped := rfl
@[simp] theorem State.modWave_sessionKeys (s : State) (wk : Nat) (f : Wave → Wave) : (s.modWave wk f).sessionKeys = s.sessionKeys :=
  rfl
@[simp] theorem State.modWave_spdm (s : State) (wk : Nat) (f : Wave → Wave) : (s.modWave wk f).spdm = s.spdm := rfl
@[simp] theorem State.modWave_haltReq (s : State) (wk : Nat) (f : Wave → Wave) : (s.modWave wk f).haltReq = s.haltReq := rfl
@[simp] theorem State.modWave_retired (s : State) (wk : Nat) (f : Wave → Wave) : (s.modWave wk f).retired = s.retired := rfl
@[simp] theorem State.modWave_outbox (s : State) (wk : Nat) (f : Wave → Wave) : (s.modWave wk f).outbox = s.outbox := rfl
@[simp] theorem State.modWave_turns (s : State) (wk : Nat) (f : Wave → Wave) : (s.modWave wk f).turns = s.turns := rfl
@[simp] theorem State.modWave_cur (s : State) (wk : Nat) (f : Wave → Wave) : (s.modWave wk f).cur = s.cur := rfl
@[simp] theorem State.modWave_freeCount (s : State) (wk : Nat) (f : Wave → Wave) : (s.modWave wk f).freeCount = s.freeCount :=
  rfl
@[simp] theorem State.modWave_tick (s : State) (wk : Nat) (f : Wave → Wave) : (s.modWave wk f).tick = s.tick := rfl

/-! ## chargeIssue -/

@[simp] theorem State.chargeIssue_mem (s : State) (c k n : Nat) : (s.chargeIssue c k n).mem = s.mem := rfl
@[simp] theorem State.chargeIssue_hostMem (s : State) (c k n : Nat) : (s.chargeIssue c k n).hostMem = s.hostMem := rfl
@[simp] theorem State.chargeIssue_poison (s : State) (c k n : Nat) : (s.chargeIssue c k n).poison = s.poison := rfl
@[simp] theorem State.chargeIssue_bar0 (s : State) (c k n : Nat) : (s.chargeIssue c k n).bar0 = s.bar0 := rfl
@[simp] theorem State.chargeIssue_counters (s : State) (c k n : Nat) : (s.chargeIssue c k n).counters = s.counters := rfl
@[simp] theorem State.chargeIssue_queues (s : State) (c k n : Nat) : (s.chargeIssue c k n).queues = s.queues := rfl
@[simp] theorem State.chargeIssue_served (s : State) (c k n : Nat) : (s.chargeIssue c k n).served = s.served := rfl
@[simp] theorem State.chargeIssue_signals (s : State) (c k n : Nat) : (s.chargeIssue c k n).signals = s.signals := rfl
@[simp] theorem State.chargeIssue_objinvs (s : State) (c k n : Nat) : (s.chargeIssue c k n).objinvs = s.objinvs := rfl
@[simp] theorem State.chargeIssue_launches (s : State) (c k n : Nat) : (s.chargeIssue c k n).launches = s.launches := rfl
@[simp] theorem State.chargeIssue_workgroups (s : State) (c k n : Nat) : (s.chargeIssue c k n).workgroups = s.workgroups := rfl
@[simp] theorem State.chargeIssue_waves (s : State) (c k n : Nat) : (s.chargeIssue c k n).waves = s.waves := rfl
@[simp] theorem State.chargeIssue_claims (s : State) (c k n : Nat) : (s.chargeIssue c k n).claims = s.claims := rfl
@[simp] theorem State.chargeIssue_lends (s : State) (c k n : Nat) : (s.chargeIssue c k n).lends = s.lends := rfl
@[simp] theorem State.chargeIssue_objCache (s : State) (c k n : Nat) : (s.chargeIssue c k n).objCache = s.objCache := rfl
@[simp] theorem State.chargeIssue_l1 (s : State) (c k n : Nat) : (s.chargeIssue c k n).l1 = s.l1 := rfl
@[simp] theorem State.chargeIssue_texel (s : State) (c k n : Nat) : (s.chargeIssue c k n).texel = s.texel := rfl
@[simp] theorem State.chargeIssue_rdc (s : State) (c k n : Nat) : (s.chargeIssue c k n).rdc = s.rdc := rfl
@[simp] theorem State.chargeIssue_l2 (s : State) (c k n : Nat) : (s.chargeIssue c k n).l2 = s.l2 := rfl
@[simp] theorem State.chargeIssue_wcache (s : State) (c k n : Nat) : (s.chargeIssue c k n).wcache = s.wcache := rfl
@[simp] theorem State.chargeIssue_wfills (s : State) (c k n : Nat) : (s.chargeIssue c k n).wfills = s.wfills := rfl
@[simp] theorem State.chargeIssue_storeQ (s : State) (c k n : Nat) : (s.chargeIssue c k n).storeQ = s.storeQ := rfl
@[simp] theorem State.chargeIssue_copies (s : State) (c k n : Nat) : (s.chargeIssue c k n).copies = s.copies := rfl
@[simp] theorem State.chargeIssue_matOps (s : State) (c k n : Nat) : (s.chargeIssue c k n).matOps = s.matOps := rfl
@[simp] theorem State.chargeIssue_sharedB (s : State) (c k n : Nat) : (s.chargeIssue c k n).sharedB = s.sharedB := rfl
@[simp] theorem State.chargeIssue_freeFrames (s : State) (c k n : Nat) : (s.chargeIssue c k n).freeFrames = s.freeFrames := rfl
@[simp] theorem State.chargeIssue_requests (s : State) (c k n : Nat) : (s.chargeIssue c k n).requests = s.requests := rfl
@[simp] theorem State.chargeIssue_useOrder (s : State) (c k n : Nat) : (s.chargeIssue c k n).useOrder = s.useOrder := rfl
@[simp] theorem State.chargeIssue_convs (s : State) (c k n : Nat) : (s.chargeIssue c k n).convs = s.convs := rfl
@[simp] theorem State.chargeIssue_bvhs (s : State) (c k n : Nat) : (s.chargeIssue c k n).bvhs = s.bvhs := rfl
@[simp] theorem State.chargeIssue_builds (s : State) (c k n : Nat) : (s.chargeIssue c k n).builds = s.builds := rfl
@[simp] theorem State.chargeIssue_colls (s : State) (c k n : Nat) : (s.chargeIssue c k n).colls = s.colls := rfl
@[simp] theorem State.chargeIssue_collCount (s : State) (c k n : Nat) : (s.chargeIssue c k n).collCount = s.collCount := rfl
@[simp] theorem State.chargeIssue_arrivals (s : State) (c k n : Nat) : (s.chargeIssue c k n).arrivals = s.arrivals := rfl
@[simp] theorem State.chargeIssue_lostPkgs (s : State) (c k n : Nat) : (s.chargeIssue c k n).lostPkgs = s.lostPkgs := rfl
@[simp] theorem State.chargeIssue_refusedGens (s : State) (c k n : Nat) : (s.chargeIssue c k n).refusedGens = s.refusedGens := rfl
@[simp] theorem State.chargeIssue_ports (s : State) (c k n : Nat) : (s.chargeIssue c k n).ports = s.ports := rfl
@[simp] theorem State.chargeIssue_traffic (s : State) (c k n : Nat) : (s.chargeIssue c k n).traffic = s.traffic := rfl
@[simp] theorem State.chargeIssue_conns (s : State) (c k n : Nat) : (s.chargeIssue c k n).conns = s.conns := rfl
@[simp] theorem State.chargeIssue_islandNext (s : State) (c k n : Nat) : (s.chargeIssue c k n).islandNext = s.islandNext := rfl
@[simp] theorem State.chargeIssue_flash (s : State) (c k n : Nat) : (s.chargeIssue c k n).flash = s.flash := rfl
@[simp] theorem State.chargeIssue_running (s : State) (c k n : Nat) : (s.chargeIssue c k n).running = s.running := rfl
@[simp] theorem State.chargeIssue_bootOk (s : State) (c k n : Nat) : (s.chargeIssue c k n).bootOk = s.bootOk := rfl
@[simp] theorem State.chargeIssue_measured (s : State) (c k n : Nat) : (s.chargeIssue c k n).measured = s.measured := rfl
@[simp] theorem State.chargeIssue_rollback (s : State) (c k n : Nat) : (s.chargeIssue c k n).rollback = s.rollback := rfl
@[simp] theorem State.chargeIssue_identityErased (s : State) (c k n : Nat) : (s.chargeIssue c k n).identityErased = s.identityErased :=
  rfl
@[simp] theorem State.chargeIssue_recovery (s : State) (c k n : Nat) : (s.chargeIssue c k n).recovery = s.recovery := rfl
@[simp] theorem State.chargeIssue_halted (s : State) (c k n : Nat) : (s.chargeIssue c k n).halted = s.halted := rfl
@[simp] theorem State.chargeIssue_tripped (s : State) (c k n : Nat) : (s.chargeIssue c k n).tripped = s.tripped := rfl
@[simp] theorem State.chargeIssue_sessionKeys (s : State) (c k n : Nat) : (s.chargeIssue c k n).sessionKeys = s.sessionKeys :=
  rfl
@[simp] theorem State.chargeIssue_spdm (s : State) (c k n : Nat) : (s.chargeIssue c k n).spdm = s.spdm := rfl
@[simp] theorem State.chargeIssue_haltReq (s : State) (c k n : Nat) : (s.chargeIssue c k n).haltReq = s.haltReq := rfl
@[simp] theorem State.chargeIssue_retired (s : State) (c k n : Nat) : (s.chargeIssue c k n).retired = s.retired := rfl
@[simp] theorem State.chargeIssue_outbox (s : State) (c k n : Nat) : (s.chargeIssue c k n).outbox = s.outbox := rfl
@[simp] theorem State.chargeIssue_turns (s : State) (c k n : Nat) : (s.chargeIssue c k n).turns = s.turns := rfl
@[simp] theorem State.chargeIssue_cur (s : State) (c k n : Nat) : (s.chargeIssue c k n).cur = s.cur := rfl
@[simp] theorem State.chargeIssue_freeCount (s : State) (c k n : Nat) : (s.chargeIssue c k n).freeCount = s.freeCount := rfl
@[simp] theorem State.chargeIssue_tick (s : State) (c k n : Nat) : (s.chargeIssue c k n).tick = s.tick := rfl

/-! ## setReg -/

@[simp] theorem State.setReg_mem (s : State) (off : Nat) (x : DWord) : (s.setReg off x).mem = s.mem := rfl
@[simp] theorem State.setReg_hostMem (s : State) (off : Nat) (x : DWord) : (s.setReg off x).hostMem = s.hostMem := rfl
@[simp] theorem State.setReg_poison (s : State) (off : Nat) (x : DWord) : (s.setReg off x).poison = s.poison := rfl
@[simp] theorem State.setReg_counters (s : State) (off : Nat) (x : DWord) : (s.setReg off x).counters = s.counters := rfl
@[simp] theorem State.setReg_queues (s : State) (off : Nat) (x : DWord) : (s.setReg off x).queues = s.queues := rfl
@[simp] theorem State.setReg_served (s : State) (off : Nat) (x : DWord) : (s.setReg off x).served = s.served := rfl
@[simp] theorem State.setReg_signals (s : State) (off : Nat) (x : DWord) : (s.setReg off x).signals = s.signals := rfl
@[simp] theorem State.setReg_objinvs (s : State) (off : Nat) (x : DWord) : (s.setReg off x).objinvs = s.objinvs := rfl
@[simp] theorem State.setReg_contexts (s : State) (off : Nat) (x : DWord) : (s.setReg off x).contexts = s.contexts := rfl
@[simp] theorem State.setReg_launches (s : State) (off : Nat) (x : DWord) : (s.setReg off x).launches = s.launches := rfl
@[simp] theorem State.setReg_workgroups (s : State) (off : Nat) (x : DWord) : (s.setReg off x).workgroups = s.workgroups := rfl
@[simp] theorem State.setReg_waves (s : State) (off : Nat) (x : DWord) : (s.setReg off x).waves = s.waves := rfl
@[simp] theorem State.setReg_claims (s : State) (off : Nat) (x : DWord) : (s.setReg off x).claims = s.claims := rfl
@[simp] theorem State.setReg_lends (s : State) (off : Nat) (x : DWord) : (s.setReg off x).lends = s.lends := rfl
@[simp] theorem State.setReg_objCache (s : State) (off : Nat) (x : DWord) : (s.setReg off x).objCache = s.objCache := rfl
@[simp] theorem State.setReg_l1 (s : State) (off : Nat) (x : DWord) : (s.setReg off x).l1 = s.l1 := rfl
@[simp] theorem State.setReg_texel (s : State) (off : Nat) (x : DWord) : (s.setReg off x).texel = s.texel := rfl
@[simp] theorem State.setReg_rdc (s : State) (off : Nat) (x : DWord) : (s.setReg off x).rdc = s.rdc := rfl
@[simp] theorem State.setReg_l2 (s : State) (off : Nat) (x : DWord) : (s.setReg off x).l2 = s.l2 := rfl
@[simp] theorem State.setReg_wcache (s : State) (off : Nat) (x : DWord) : (s.setReg off x).wcache = s.wcache := rfl
@[simp] theorem State.setReg_wfills (s : State) (off : Nat) (x : DWord) : (s.setReg off x).wfills = s.wfills := rfl
@[simp] theorem State.setReg_storeQ (s : State) (off : Nat) (x : DWord) : (s.setReg off x).storeQ = s.storeQ := rfl
@[simp] theorem State.setReg_copies (s : State) (off : Nat) (x : DWord) : (s.setReg off x).copies = s.copies := rfl
@[simp] theorem State.setReg_matOps (s : State) (off : Nat) (x : DWord) : (s.setReg off x).matOps = s.matOps := rfl
@[simp] theorem State.setReg_sharedB (s : State) (off : Nat) (x : DWord) : (s.setReg off x).sharedB = s.sharedB := rfl
@[simp] theorem State.setReg_freeFrames (s : State) (off : Nat) (x : DWord) : (s.setReg off x).freeFrames = s.freeFrames := rfl
@[simp] theorem State.setReg_requests (s : State) (off : Nat) (x : DWord) : (s.setReg off x).requests = s.requests := rfl
@[simp] theorem State.setReg_useOrder (s : State) (off : Nat) (x : DWord) : (s.setReg off x).useOrder = s.useOrder := rfl
@[simp] theorem State.setReg_convs (s : State) (off : Nat) (x : DWord) : (s.setReg off x).convs = s.convs := rfl
@[simp] theorem State.setReg_bvhs (s : State) (off : Nat) (x : DWord) : (s.setReg off x).bvhs = s.bvhs := rfl
@[simp] theorem State.setReg_builds (s : State) (off : Nat) (x : DWord) : (s.setReg off x).builds = s.builds := rfl
@[simp] theorem State.setReg_colls (s : State) (off : Nat) (x : DWord) : (s.setReg off x).colls = s.colls := rfl
@[simp] theorem State.setReg_collCount (s : State) (off : Nat) (x : DWord) : (s.setReg off x).collCount = s.collCount := rfl
@[simp] theorem State.setReg_arrivals (s : State) (off : Nat) (x : DWord) : (s.setReg off x).arrivals = s.arrivals := rfl
@[simp] theorem State.setReg_lostPkgs (s : State) (off : Nat) (x : DWord) : (s.setReg off x).lostPkgs = s.lostPkgs := rfl
@[simp] theorem State.setReg_refusedGens (s : State) (off : Nat) (x : DWord) : (s.setReg off x).refusedGens = s.refusedGens := rfl
@[simp] theorem State.setReg_ports (s : State) (off : Nat) (x : DWord) : (s.setReg off x).ports = s.ports := rfl
@[simp] theorem State.setReg_traffic (s : State) (off : Nat) (x : DWord) : (s.setReg off x).traffic = s.traffic := rfl
@[simp] theorem State.setReg_conns (s : State) (off : Nat) (x : DWord) : (s.setReg off x).conns = s.conns := rfl
@[simp] theorem State.setReg_islandNext (s : State) (off : Nat) (x : DWord) : (s.setReg off x).islandNext = s.islandNext := rfl
@[simp] theorem State.setReg_flash (s : State) (off : Nat) (x : DWord) : (s.setReg off x).flash = s.flash := rfl
@[simp] theorem State.setReg_running (s : State) (off : Nat) (x : DWord) : (s.setReg off x).running = s.running := rfl
@[simp] theorem State.setReg_bootOk (s : State) (off : Nat) (x : DWord) : (s.setReg off x).bootOk = s.bootOk := rfl
@[simp] theorem State.setReg_measured (s : State) (off : Nat) (x : DWord) : (s.setReg off x).measured = s.measured := rfl
@[simp] theorem State.setReg_rollback (s : State) (off : Nat) (x : DWord) : (s.setReg off x).rollback = s.rollback := rfl
@[simp] theorem State.setReg_identityErased (s : State) (off : Nat) (x : DWord) : (s.setReg off x).identityErased = s.identityErased :=
  rfl
@[simp] theorem State.setReg_recovery (s : State) (off : Nat) (x : DWord) : (s.setReg off x).recovery = s.recovery := rfl
@[simp] theorem State.setReg_halted (s : State) (off : Nat) (x : DWord) : (s.setReg off x).halted = s.halted := rfl
@[simp] theorem State.setReg_tripped (s : State) (off : Nat) (x : DWord) : (s.setReg off x).tripped = s.tripped := rfl
@[simp] theorem State.setReg_sessionKeys (s : State) (off : Nat) (x : DWord) : (s.setReg off x).sessionKeys = s.sessionKeys :=
  rfl
@[simp] theorem State.setReg_spdm (s : State) (off : Nat) (x : DWord) : (s.setReg off x).spdm = s.spdm := rfl
@[simp] theorem State.setReg_haltReq (s : State) (off : Nat) (x : DWord) : (s.setReg off x).haltReq = s.haltReq := rfl
@[simp] theorem State.setReg_retired (s : State) (off : Nat) (x : DWord) : (s.setReg off x).retired = s.retired := rfl
@[simp] theorem State.setReg_outbox (s : State) (off : Nat) (x : DWord) : (s.setReg off x).outbox = s.outbox := rfl
@[simp] theorem State.setReg_turns (s : State) (off : Nat) (x : DWord) : (s.setReg off x).turns = s.turns := rfl
@[simp] theorem State.setReg_cur (s : State) (off : Nat) (x : DWord) : (s.setReg off x).cur = s.cur := rfl
@[simp] theorem State.setReg_freeCount (s : State) (off : Nat) (x : DWord) : (s.setReg off x).freeCount = s.freeCount := rfl
@[simp] theorem State.setReg_tick (s : State) (off : Nat) (x : DWord) : (s.setReg off x).tick = s.tick := rfl

/-! ## bumpFree -/

@[simp] theorem State.bumpFree_mem (s : State) : (s.bumpFree).mem = s.mem := rfl
@[simp] theorem State.bumpFree_hostMem (s : State) : (s.bumpFree).hostMem = s.hostMem := rfl
@[simp] theorem State.bumpFree_poison (s : State) : (s.bumpFree).poison = s.poison := rfl
@[simp] theorem State.bumpFree_bar0 (s : State) : (s.bumpFree).bar0 = s.bar0 := rfl
@[simp] theorem State.bumpFree_counters (s : State) : (s.bumpFree).counters = s.counters := rfl
@[simp] theorem State.bumpFree_queues (s : State) : (s.bumpFree).queues = s.queues := rfl
@[simp] theorem State.bumpFree_served (s : State) : (s.bumpFree).served = s.served := rfl
@[simp] theorem State.bumpFree_signals (s : State) : (s.bumpFree).signals = s.signals := rfl
@[simp] theorem State.bumpFree_objinvs (s : State) : (s.bumpFree).objinvs = s.objinvs := rfl
@[simp] theorem State.bumpFree_contexts (s : State) : (s.bumpFree).contexts = s.contexts := rfl
@[simp] theorem State.bumpFree_launches (s : State) : (s.bumpFree).launches = s.launches := rfl
@[simp] theorem State.bumpFree_workgroups (s : State) : (s.bumpFree).workgroups = s.workgroups := rfl
@[simp] theorem State.bumpFree_waves (s : State) : (s.bumpFree).waves = s.waves := rfl
@[simp] theorem State.bumpFree_claims (s : State) : (s.bumpFree).claims = s.claims := rfl
@[simp] theorem State.bumpFree_lends (s : State) : (s.bumpFree).lends = s.lends := rfl
@[simp] theorem State.bumpFree_objCache (s : State) : (s.bumpFree).objCache = s.objCache := rfl
@[simp] theorem State.bumpFree_l1 (s : State) : (s.bumpFree).l1 = s.l1 := rfl
@[simp] theorem State.bumpFree_texel (s : State) : (s.bumpFree).texel = s.texel := rfl
@[simp] theorem State.bumpFree_rdc (s : State) : (s.bumpFree).rdc = s.rdc := rfl
@[simp] theorem State.bumpFree_l2 (s : State) : (s.bumpFree).l2 = s.l2 := rfl
@[simp] theorem State.bumpFree_wcache (s : State) : (s.bumpFree).wcache = s.wcache := rfl
@[simp] theorem State.bumpFree_wfills (s : State) : (s.bumpFree).wfills = s.wfills := rfl
@[simp] theorem State.bumpFree_storeQ (s : State) : (s.bumpFree).storeQ = s.storeQ := rfl
@[simp] theorem State.bumpFree_copies (s : State) : (s.bumpFree).copies = s.copies := rfl
@[simp] theorem State.bumpFree_matOps (s : State) : (s.bumpFree).matOps = s.matOps := rfl
@[simp] theorem State.bumpFree_sharedB (s : State) : (s.bumpFree).sharedB = s.sharedB := rfl
@[simp] theorem State.bumpFree_freeFrames (s : State) : (s.bumpFree).freeFrames = s.freeFrames := rfl
@[simp] theorem State.bumpFree_requests (s : State) : (s.bumpFree).requests = s.requests := rfl
@[simp] theorem State.bumpFree_useOrder (s : State) : (s.bumpFree).useOrder = s.useOrder := rfl
@[simp] theorem State.bumpFree_convs (s : State) : (s.bumpFree).convs = s.convs := rfl
@[simp] theorem State.bumpFree_bvhs (s : State) : (s.bumpFree).bvhs = s.bvhs := rfl
@[simp] theorem State.bumpFree_builds (s : State) : (s.bumpFree).builds = s.builds := rfl
@[simp] theorem State.bumpFree_colls (s : State) : (s.bumpFree).colls = s.colls := rfl
@[simp] theorem State.bumpFree_collCount (s : State) : (s.bumpFree).collCount = s.collCount := rfl
@[simp] theorem State.bumpFree_arrivals (s : State) : (s.bumpFree).arrivals = s.arrivals := rfl
@[simp] theorem State.bumpFree_lostPkgs (s : State) : (s.bumpFree).lostPkgs = s.lostPkgs := rfl
@[simp] theorem State.bumpFree_refusedGens (s : State) : (s.bumpFree).refusedGens = s.refusedGens := rfl
@[simp] theorem State.bumpFree_ports (s : State) : (s.bumpFree).ports = s.ports := rfl
@[simp] theorem State.bumpFree_traffic (s : State) : (s.bumpFree).traffic = s.traffic := rfl
@[simp] theorem State.bumpFree_conns (s : State) : (s.bumpFree).conns = s.conns := rfl
@[simp] theorem State.bumpFree_islandNext (s : State) : (s.bumpFree).islandNext = s.islandNext := rfl
@[simp] theorem State.bumpFree_flash (s : State) : (s.bumpFree).flash = s.flash := rfl
@[simp] theorem State.bumpFree_running (s : State) : (s.bumpFree).running = s.running := rfl
@[simp] theorem State.bumpFree_bootOk (s : State) : (s.bumpFree).bootOk = s.bootOk := rfl
@[simp] theorem State.bumpFree_measured (s : State) : (s.bumpFree).measured = s.measured := rfl
@[simp] theorem State.bumpFree_rollback (s : State) : (s.bumpFree).rollback = s.rollback := rfl
@[simp] theorem State.bumpFree_identityErased (s : State) : (s.bumpFree).identityErased = s.identityErased := rfl
@[simp] theorem State.bumpFree_recovery (s : State) : (s.bumpFree).recovery = s.recovery := rfl
@[simp] theorem State.bumpFree_halted (s : State) : (s.bumpFree).halted = s.halted := rfl
@[simp] theorem State.bumpFree_tripped (s : State) : (s.bumpFree).tripped = s.tripped := rfl
@[simp] theorem State.bumpFree_sessionKeys (s : State) : (s.bumpFree).sessionKeys = s.sessionKeys := rfl
@[simp] theorem State.bumpFree_spdm (s : State) : (s.bumpFree).spdm = s.spdm := rfl
@[simp] theorem State.bumpFree_haltReq (s : State) : (s.bumpFree).haltReq = s.haltReq := rfl
@[simp] theorem State.bumpFree_retired (s : State) : (s.bumpFree).retired = s.retired := rfl
@[simp] theorem State.bumpFree_outbox (s : State) : (s.bumpFree).outbox = s.outbox := rfl
@[simp] theorem State.bumpFree_turns (s : State) : (s.bumpFree).turns = s.turns := rfl
@[simp] theorem State.bumpFree_cur (s : State) : (s.bumpFree).cur = s.cur := rfl
@[simp] theorem State.bumpFree_tick (s : State) : (s.bumpFree).tick = s.tick := rfl

/-! ## setByte -/

@[simp] theorem State.setByte_poison (s : State) (a : Nat) (b : Byte) : (s.setByte a b).poison = s.poison := by
  unfold State.setByte; split <;> rfl
@[simp] theorem State.setByte_bar0 (s : State) (a : Nat) (b : Byte) : (s.setByte a b).bar0 = s.bar0 := by
  unfold State.setByte; split <;> rfl
@[simp] theorem State.setByte_counters (s : State) (a : Nat) (b : Byte) : (s.setByte a b).counters = s.counters := by
  unfold State.setByte; split <;> rfl
@[simp] theorem State.setByte_queues (s : State) (a : Nat) (b : Byte) : (s.setByte a b).queues = s.queues := by
  unfold State.setByte; split <;> rfl
@[simp] theorem State.setByte_served (s : State) (a : Nat) (b : Byte) : (s.setByte a b).served = s.served := by
  unfold State.setByte; split <;> rfl
@[simp] theorem State.setByte_signals (s : State) (a : Nat) (b : Byte) : (s.setByte a b).signals = s.signals := by
  unfold State.setByte; split <;> rfl
@[simp] theorem State.setByte_objinvs (s : State) (a : Nat) (b : Byte) : (s.setByte a b).objinvs = s.objinvs := by
  unfold State.setByte; split <;> rfl
@[simp] theorem State.setByte_contexts (s : State) (a : Nat) (b : Byte) : (s.setByte a b).contexts = s.contexts := by
  unfold State.setByte; split <;> rfl
@[simp] theorem State.setByte_launches (s : State) (a : Nat) (b : Byte) : (s.setByte a b).launches = s.launches := by
  unfold State.setByte; split <;> rfl
@[simp] theorem State.setByte_workgroups (s : State) (a : Nat) (b : Byte) : (s.setByte a b).workgroups = s.workgroups := by
  unfold State.setByte; split <;> rfl
@[simp] theorem State.setByte_waves (s : State) (a : Nat) (b : Byte) : (s.setByte a b).waves = s.waves := by
  unfold State.setByte; split <;> rfl
@[simp] theorem State.setByte_claims (s : State) (a : Nat) (b : Byte) : (s.setByte a b).claims = s.claims := by
  unfold State.setByte; split <;> rfl
@[simp] theorem State.setByte_lends (s : State) (a : Nat) (b : Byte) : (s.setByte a b).lends = s.lends := by
  unfold State.setByte; split <;> rfl
@[simp] theorem State.setByte_objCache (s : State) (a : Nat) (b : Byte) : (s.setByte a b).objCache = s.objCache := by
  unfold State.setByte; split <;> rfl
@[simp] theorem State.setByte_l1 (s : State) (a : Nat) (b : Byte) : (s.setByte a b).l1 = s.l1 := by
  unfold State.setByte; split <;> rfl
@[simp] theorem State.setByte_texel (s : State) (a : Nat) (b : Byte) : (s.setByte a b).texel = s.texel := by
  unfold State.setByte; split <;> rfl
@[simp] theorem State.setByte_rdc (s : State) (a : Nat) (b : Byte) : (s.setByte a b).rdc = s.rdc := by
  unfold State.setByte; split <;> rfl
@[simp] theorem State.setByte_l2 (s : State) (a : Nat) (b : Byte) : (s.setByte a b).l2 = s.l2 := by
  unfold State.setByte; split <;> rfl
@[simp] theorem State.setByte_wcache (s : State) (a : Nat) (b : Byte) : (s.setByte a b).wcache = s.wcache := by
  unfold State.setByte; split <;> rfl
@[simp] theorem State.setByte_wfills (s : State) (a : Nat) (b : Byte) : (s.setByte a b).wfills = s.wfills := by
  unfold State.setByte; split <;> rfl
@[simp] theorem State.setByte_storeQ (s : State) (a : Nat) (b : Byte) : (s.setByte a b).storeQ = s.storeQ := by
  unfold State.setByte; split <;> rfl
@[simp] theorem State.setByte_copies (s : State) (a : Nat) (b : Byte) : (s.setByte a b).copies = s.copies := by
  unfold State.setByte; split <;> rfl
@[simp] theorem State.setByte_matOps (s : State) (a : Nat) (b : Byte) : (s.setByte a b).matOps = s.matOps := by
  unfold State.setByte; split <;> rfl
@[simp] theorem State.setByte_sharedB (s : State) (a : Nat) (b : Byte) : (s.setByte a b).sharedB = s.sharedB := by
  unfold State.setByte; split <;> rfl
@[simp] theorem State.setByte_freeFrames (s : State) (a : Nat) (b : Byte) : (s.setByte a b).freeFrames = s.freeFrames := by
  unfold State.setByte; split <;> rfl
@[simp] theorem State.setByte_requests (s : State) (a : Nat) (b : Byte) : (s.setByte a b).requests = s.requests := by
  unfold State.setByte; split <;> rfl
@[simp] theorem State.setByte_useOrder (s : State) (a : Nat) (b : Byte) : (s.setByte a b).useOrder = s.useOrder := by
  unfold State.setByte; split <;> rfl
@[simp] theorem State.setByte_convs (s : State) (a : Nat) (b : Byte) : (s.setByte a b).convs = s.convs := by
  unfold State.setByte; split <;> rfl
@[simp] theorem State.setByte_bvhs (s : State) (a : Nat) (b : Byte) : (s.setByte a b).bvhs = s.bvhs := by
  unfold State.setByte; split <;> rfl
@[simp] theorem State.setByte_builds (s : State) (a : Nat) (b : Byte) : (s.setByte a b).builds = s.builds := by
  unfold State.setByte; split <;> rfl
@[simp] theorem State.setByte_colls (s : State) (a : Nat) (b : Byte) : (s.setByte a b).colls = s.colls := by
  unfold State.setByte; split <;> rfl
@[simp] theorem State.setByte_collCount (s : State) (a : Nat) (b : Byte) : (s.setByte a b).collCount = s.collCount := by
  unfold State.setByte; split <;> rfl
@[simp] theorem State.setByte_arrivals (s : State) (a : Nat) (b : Byte) : (s.setByte a b).arrivals = s.arrivals := by
  unfold State.setByte; split <;> rfl
@[simp] theorem State.setByte_lostPkgs (s : State) (a : Nat) (b : Byte) : (s.setByte a b).lostPkgs = s.lostPkgs := by
  unfold State.setByte; split <;> rfl
@[simp] theorem State.setByte_ports (s : State) (a : Nat) (b : Byte) : (s.setByte a b).ports = s.ports := by
  unfold State.setByte; split <;> rfl
@[simp] theorem State.setByte_traffic (s : State) (a : Nat) (b : Byte) : (s.setByte a b).traffic = s.traffic := by
  unfold State.setByte; split <;> rfl
@[simp] theorem State.setByte_conns (s : State) (a : Nat) (b : Byte) : (s.setByte a b).conns = s.conns := by
  unfold State.setByte; split <;> rfl
@[simp] theorem State.setByte_islandNext (s : State) (a : Nat) (b : Byte) : (s.setByte a b).islandNext = s.islandNext := by
  unfold State.setByte; split <;> rfl
@[simp] theorem State.setByte_flash (s : State) (a : Nat) (b : Byte) : (s.setByte a b).flash = s.flash := by
  unfold State.setByte; split <;> rfl
@[simp] theorem State.setByte_running (s : State) (a : Nat) (b : Byte) : (s.setByte a b).running = s.running := by
  unfold State.setByte; split <;> rfl
@[simp] theorem State.setByte_bootOk (s : State) (a : Nat) (b : Byte) : (s.setByte a b).bootOk = s.bootOk := by
  unfold State.setByte; split <;> rfl
@[simp] theorem State.setByte_measured (s : State) (a : Nat) (b : Byte) : (s.setByte a b).measured = s.measured := by
  unfold State.setByte; split <;> rfl
@[simp] theorem State.setByte_rollback (s : State) (a : Nat) (b : Byte) : (s.setByte a b).rollback = s.rollback := by
  unfold State.setByte; split <;> rfl
@[simp] theorem State.setByte_identityErased (s : State) (a : Nat) (b : Byte) : (s.setByte a b).identityErased = s.identityErased := by
  unfold State.setByte; split <;> rfl
@[simp] theorem State.setByte_recovery (s : State) (a : Nat) (b : Byte) : (s.setByte a b).recovery = s.recovery := by
  unfold State.setByte; split <;> rfl
@[simp] theorem State.setByte_halted (s : State) (a : Nat) (b : Byte) : (s.setByte a b).halted = s.halted := by
  unfold State.setByte; split <;> rfl
@[simp] theorem State.setByte_tripped (s : State) (a : Nat) (b : Byte) : (s.setByte a b).tripped = s.tripped := by
  unfold State.setByte; split <;> rfl
@[simp] theorem State.setByte_sessionKeys (s : State) (a : Nat) (b : Byte) : (s.setByte a b).sessionKeys = s.sessionKeys := by
  unfold State.setByte; split <;> rfl
@[simp] theorem State.setByte_spdm (s : State) (a : Nat) (b : Byte) : (s.setByte a b).spdm = s.spdm := by
  unfold State.setByte; split <;> rfl
@[simp] theorem State.setByte_haltReq (s : State) (a : Nat) (b : Byte) : (s.setByte a b).haltReq = s.haltReq := by
  unfold State.setByte; split <;> rfl
@[simp] theorem State.setByte_retired (s : State) (a : Nat) (b : Byte) : (s.setByte a b).retired = s.retired := by
  unfold State.setByte; split <;> rfl
@[simp] theorem State.setByte_outbox (s : State) (a : Nat) (b : Byte) : (s.setByte a b).outbox = s.outbox := by
  unfold State.setByte; split <;> rfl
@[simp] theorem State.setByte_turns (s : State) (a : Nat) (b : Byte) : (s.setByte a b).turns = s.turns := by
  unfold State.setByte; split <;> rfl
@[simp] theorem State.setByte_cur (s : State) (a : Nat) (b : Byte) : (s.setByte a b).cur = s.cur := by
  unfold State.setByte; split <;> rfl
@[simp] theorem State.setByte_freeCount (s : State) (a : Nat) (b : Byte) : (s.setByte a b).freeCount = s.freeCount := by
  unfold State.setByte; split <;> rfl
@[simp] theorem State.setByte_tick (s : State) (a : Nat) (b : Byte) : (s.setByte a b).tick = s.tick := by
  unfold State.setByte; split <;> rfl

end Sys2Proof.Machine
end

