-- ==== Sys2Proof/Laws/Flow.lean ====
section
/-!
SUPPORT. A fragment that goes straight on: what moving past an instruction comes to where `State.flows` holds, and so what
completing an instruction comes to.
-/

namespace Sys2Proof.Machine

/-! ## Looking up and changing a wave -/

@[simp] theorem SMap.find?_modify_same {α : Type} (m : SMap α) (k : Nat) (f : α → α) :
    (m.modify k f).find? k = (m.find? k).map f := by
  unfold SMap.modify
  split <;> rename_i h <;> simp [h]

theorem SMap.insert_insert {α : Type} (m : SMap α) (k : Nat) (a b : α) :
    (m.insert k a).insert k b = m.insert k b := by
  induction m with
  | nil => simp [SMap.insert]
  | cons p r ih =>
    obtain ⟨c, x⟩ := p
    simp only [SMap.insert]
    split
    · simp [SMap.insert]
    · split
      · simp [SMap.insert]
      · rename_i h1 h2
        simp only [SMap.insert, h1, h2, if_false, ih]

theorem SMap.modify_modify {α : Type} (m : SMap α) (k : Nat) (f g : α → α) :
    (m.modify k f).modify k g = m.modify k (fun x => g (f x)) := by
  cases h : m.find? k with
  | none => simp [SMap.modify, h]
  | some x => simp [SMap.modify, h, SMap.insert_insert]

theorem SMap.modify_congr {α : Type} (m : SMap α) (k : Nat) (f g : α → α) (x : α) (h : m.find? k = some x)
    (hfg : f x = g x) : m.modify k f = m.modify k g := by
  simp [SMap.modify, h, hfg]

theorem State.modWave_modWave (s : State) (wk : Nat) (f g : Wave → Wave) :
    (s.modWave wk f).modWave wk g = s.modWave wk fun w => g (f w) := by
  simp [State.modWave, SMap.modify_modify]

theorem State.modWave_congr (s : State) (wk : Nat) (f g : Wave → Wave) (w : Wave) (h : s.waves.find? wk = some w)
    (hfg : f w = g w) : s.modWave wk f = s.modWave wk g := by
  simp [State.modWave, SMap.modify_congr s.waves wk f g w h hfg]

@[simp] theorem State.modWave_find (s : State) (wk : Nat) (f : Wave → Wave) :
    (s.modWave wk f).waves.find? wk = (s.waves.find? wk).map f := by
  simp [State.modWave]

/-! ## What an environment says of its state -/

theorem State.env_some {s : State} {i : Instr} {e : Env} (h : s.env i = some e) :
    s.cur = some (e.wk, e.fid) ∧ s.waves.find? e.wk = some e.wave ∧ e.wave.frag? e.fid = some e.frag ∧
      s.workgroups.find? e.wave.wg = some e.wg ∧ s.launches.find? e.wg.launch = some e.launch ∧ e.ext = i.ext ∧
      e.active = e.wave.active e.frag ∧
      e.lanes = e.active &&& (if (formPred i.form).2 then ~~~(e.wave.kreg (formPred i.form).1.toNat)
        else e.wave.kreg (formPred i.form).1.toNat) := by
  unfold State.env at h
  split at h
  · simp at h
  · rename_i wk fid hc
    split at h
    · simp at h
    · rename_i w hw
      split at h
      · rename_i f wg hf hwg
        split at h
        · simp at h
        · rename_i la hla
          simp only [Option.some.injEq] at h
          subst h
          exact ⟨hc, hw, hf, hwg, hla, rfl, rfl, rfl⟩
      · simp at h

/-! ## Slices and lanes -/

theorem mem_lanesOf {m : LaneMask} {l : Nat} : l ∈ lanesOf m ↔ l < 96 ∧ m.getLsbD l = true := by
  simp [lanesOf]

theorem mem_slicesOf {m : SliceMask} {k : Nat} : k ∈ slicesOf m ↔ k < 24 ∧ m.getLsbD k = true := by
  simp [slicesOf]

theorem sum_pow_testBit (p : Nat → Bool) (n : Nat) :
    (List.range n).foldl (fun acc l => if p l then acc + 2 ^ l else acc) 0 < 2 ^ n ∧
      ∀ l, ((List.range n).foldl (fun acc l => if p l then acc + 2 ^ l else acc) 0).testBit l = (decide (l < n) && p l) := by
  induction n with
  | zero => simp
  | succ n ih =>
    rw [List.range_succ, List.foldl_append]
    generalize hx : (List.range n).foldl (fun acc l => if p l then acc + 2 ^ l else acc) 0 = x at ih ⊢
    obtain ⟨hlt, hb⟩ := ih
    simp only [List.foldl_cons, List.foldl_nil]
    have h2 : 2 ^ (n + 1) = 2 ^ n + 2 ^ n := by omega
    by_cases hp : p n = true
    · simp only [hp, if_true]
      refine ⟨by omega, fun l => ?_⟩
      rw [Nat.add_comm]
      rcases Nat.lt_trichotomy l n with h | h | h
      · rw [Nat.testBit_two_pow_add_gt h, hb]
        simp [h, Nat.lt_succ_of_lt h]
      · subst h
        rw [Nat.testBit_two_pow_add_eq, hb]
        simp [hp]
      · have : 2 ^ (n + 1) ≤ 2 ^ l := Nat.pow_le_pow_right (by omega) h
        rw [Nat.testBit_lt_two_pow (by omega)]
        simp; omega
    · simp only [hp]
      refine ⟨by simp; omega, fun l => ?_⟩
      simp only [Bool.false_eq_true, if_false, hb]
      by_cases hl : l = n
      · subst hl; simp [hp]
      · have : l < n + 1 ↔ l < n := by omega
        simp [this]

theorem maskOf_getLsbD (p : Nat → Bool) (l : Nat) : (maskOf p).getLsbD l = (decide (l < 96) && p l) := by
  rw [maskOf, BitVec.getLsbD_ofNat, (sum_pow_testBit p 96).2]; simp

theorem sliceMaskOf_getLsbD (p : Nat → Bool) (k : Nat) : (sliceMaskOf p).getLsbD k = (decide (k < 24) && p k) := by
  rw [sliceMaskOf, BitVec.getLsbD_ofNat, (sum_pow_testBit p 24).2]; simp

@[simp] theorem lanesOfSlices_getLsbD (m : SliceMask) (l : Nat) :
    (lanesOfSlices m).getLsbD l = (decide (l < 96) && m.getLsbD (l / 4)) := by
  simp [lanesOfSlices, maskOf_getLsbD]

theorem activeAt_getLsbD (w : Wave) (m : SliceMask) (p : CodeAddr) (l : Nat) :
    (w.activeAt m p).getLsbD l = (decide (l < 96) && (m.getLsbD (l / 4) && w.runnable.getLsbD l && decide (w.pc l = p))) := by
  simp [Wave.activeAt, maskOf_getLsbD]

/-! ## Slice addresses -/

theorem lowest_fold (c : Nat → Bool) (v : Nat → CodeAddr) (l : List Nat) (acc : Option CodeAddr) (p : CodeAddr) :
    l.foldl (fun acc i => if c i = true then lowerPc acc (some (v i)) else acc) acc = some p ↔
      (acc = some p ∨ ∃ i ∈ l, c i = true ∧ v i = p) ∧ (∀ a, acc = some a → p.toNat ≤ a.toNat) ∧
        ∀ i ∈ l, c i = true → p.toNat ≤ (v i).toNat := by
  have hinj : ∀ a b : CodeAddr, a.toNat = b.toNat → a = b := fun a b h => BitVec.eq_of_toNat_eq h
  induction l generalizing acc with
  | nil => simp only [List.foldl_nil, List.not_mem_nil, false_and, exists_false, or_false, IsEmpty.forall_iff,
      implies_true, and_true]
           constructor
           · intro h; exact ⟨h, fun a ha => by rw [h] at ha; cases ha; exact Nat.le_refl _⟩
           · intro h; exact h.1
  | cons i r ih =>
    rw [List.foldl_cons]
    refine (ih _).trans ?_
    by_cases hc : c i = true
    · cases acc with
      | none =>
        simp only [hc, if_true, lowerPc, List.mem_cons, forall_eq_or_imp, exists_eq_or_imp, true_and,
          Option.some.injEq, forall_eq', reduceCtorEq, false_or, true_implies, IsEmpty.forall_iff, implies_true]
        
      | some a =>
        simp only [hc, if_true, lowerPc, List.mem_cons, forall_eq_or_imp, exists_eq_or_imp, true_and,
          Option.some.injEq, forall_eq', true_implies]
        split <;> rename_i hlt
        · constructor
          · rintro ⟨h1, h2, h3⟩
            exact ⟨.inr h1, by omega, h2, h3⟩
          · rintro ⟨h1, h2, h3, h4⟩
            refine ⟨?_, h3, h4⟩
            rcases h1 with h1 | h1
            · subst h1; exfalso; omega
            · exact h1
        · constructor
          · rintro ⟨h1, h2, h3⟩
            exact ⟨h1.imp id .inr, h2, by omega, h3⟩
          · rintro ⟨h1, h2, h3, h4⟩
            refine ⟨?_, h2, h4⟩
            rcases h1 with h1 | h1 | h1
            · exact .inl h1
            · exact .inl (hinj _ _ (by subst h1; omega))
            · exact .inr h1
    · simp [hc]

theorem slicePc_iff {w : Wave} {k : Nat} {p : CodeAddr} :
    w.slicePc k = some p ↔
      (∃ i, i < 4 ∧ w.runnable.getLsbD (4 * k + i) = true ∧ w.pc (4 * k + i) = p) ∧
        ∀ i, i < 4 → w.runnable.getLsbD (4 * k + i) = true → p.toNat ≤ (w.pc (4 * k + i)).toNat := by
  unfold Wave.slicePc
  rw [lowest_fold (fun i => w.runnable.getLsbD (4 * k + i)) (fun i => w.pc (4 * k + i))]
  simp

/-- Slice addresses depend on the runnable lanes and their resume PCs alone. -/
theorem slicePc_congr {w w' : Wave} {k : Nat} (hr : w'.runnable = w.runnable)
    (hp : ∀ i, i < 4 → w'.pc (4 * k + i) = w.pc (4 * k + i)) : w'.slicePc k = w.slicePc k := by
  simp only [Wave.slicePc, hr, show List.range 4 = [0, 1, 2, 3] from rfl, List.foldl_cons, List.foldl_nil,
    hp 0 (by omega), hp 1 (by omega), hp 2 (by omega), hp 3 (by omega)]

/-! ## Fragments (R35) -/

theorem orBits (l : List Nat) (acc : SliceMask) (j : Nat) (hj : j < 24) :
    (l.foldl (fun acc k => acc ||| BitVec.ofNat 24 (2 ^ k)) acc).getLsbD j = (acc.getLsbD j || decide (j ∈ l)) := by
  induction l generalizing acc with
  | nil => simp
  | cons k r ih =>
    rw [List.foldl_cons, ih, BitVec.getLsbD_or, BitVec.getLsbD_ofNat, Nat.testBit_two_pow]
    by_cases h : k = j
    · simp [h, hj]
    · simp [h, hj, Ne.symm h]

theorem orBits_slicesOf (m : SliceMask) :
    (slicesOf m).foldl (fun acc k => acc ||| BitVec.ofNat 24 (2 ^ k)) 0 = m := by
  apply BitVec.eq_of_getLsbD_eq
  intro j hj
  rw [orBits _ _ j hj]
  simp [mem_slicesOf, hj]

theorem slicesOf_ne_nil {m : SliceMask} (h : m ≠ 0) : slicesOf m ≠ [] := by
  intro hn
  have := orBits_slicesOf m
  rw [hn] at this
  exact h this.symm

theorem groups_fold {w : Wave} {p : CodeAddr} (l : List Nat) (m : SliceMask)
    (h : ∀ k ∈ l, w.slicePc k = some p) :
    l.foldl (fun acc k =>
      match w.slicePc k with
      | none => acc
      | some p =>
        let bit : SliceMask := BitVec.ofNat 24 (2 ^ k)
        if acc.any fun g => g.1 == p then acc.map fun g => if g.1 = p then (g.1, g.2 ||| bit) else g
        else acc ++ [(p, bit)]) [(p, m)] =
      [(p, l.foldl (fun acc k => acc ||| BitVec.ofNat 24 (2 ^ k)) m)] := by
  induction l generalizing m with
  | nil => rfl
  | cons k r ih =>
    rw [List.foldl_cons, List.foldl_cons, h k (by simp)]
    simp only [List.any_cons, beq_self_eq_true, Bool.true_or, if_true, List.map_cons, List.map_nil]
    exact ih _ fun k hk => h k (by simp [hk])

/-- Slices that all stand at one address are one group. -/
theorem groups_single {w : Wave} {m : SliceMask} {p : CodeAddr} (hm : m ≠ 0)
    (h : ∀ k ∈ slicesOf m, w.slicePc k = some p) : w.groups m = [(p, m)] := by
  have hb := orBits_slicesOf m
  unfold Wave.groups
  cases hl : slicesOf m with
  | nil => exact absurd hl (slicesOf_ne_nil hm)
  | cons k r =>
    rw [hl] at h hb
    rw [List.foldl_cons, h k (by simp)]
    have := groups_fold r (BitVec.ofNat 24 (2 ^ k)) fun k hk => h k (by simp [hk])
    rw [List.foldl_cons, show (0 : SliceMask) ||| BitVec.ofNat 24 (2 ^ k) = BitVec.ofNat 24 (2 ^ k) from BitVec.zero_or] at hb
    rw [hb] at this
    exact this

/-! ## Arrivals (R36) -/

/-- Nothing arrives where no fragment stands at a header. -/
theorem arrive_none {s : State} {wk : Nat} {w : Wave} (hw : s.waves.find? wk = some w)
    (h : ∀ f ∈ w.frags, w.atHeader f = false) (n : Nat) : State.arrive wk n s = s := by
  cases n with
  | zero => rfl
  | succ n =>
    have hf : w.frags.filter (fun f => w.atHeader f) = [] := by
      rw [List.filter_eq_nil_iff]; intro f hf; simp [h f hf]
    have ha : s.arrival wk w = none := by
      unfold State.arrival
      simp only [hf, List.findSome?_nil, List.find?_nil]
    simp only [State.arrive, hw, ha, ite_self]

/-- A wave that differs from another in registers, counts and pending results alone. -/
structure Wave.SameFlow (w w' : Wave) : Prop where
  wg : w'.wg = w.wg
  frags : w'.frags = w.frags
  pcs : w'.pcs = w.pcs
  live : w'.live = w.live
  gangParked : w'.gangParked = w.gangParked
  bank1 : w'.bank1 = w.bank1
  bank2 : w'.bank2 = w.bank2
  dom : w'.dom = w.dom
  codeObj : w'.codeObj = w.codeObj

theorem Wave.SameFlow.refl (w : Wave) : w.SameFlow w := ⟨rfl, rfl, rfl, rfl, rfl, rfl, rfl, rfl, rfl⟩

theorem Wave.SameFlow.trans {a b c : Wave} (h : a.SameFlow b) (k : b.SameFlow c) : a.SameFlow c :=
  ⟨k.wg.trans h.wg, k.frags.trans h.frags, k.pcs.trans h.pcs, k.live.trans h.live, k.gangParked.trans h.gangParked,
    k.bank1.trans h.bank1, k.bank2.trans h.bank2, k.dom.trans h.dom, k.codeObj.trans h.codeObj⟩

theorem Wave.SameFlow.runnable {w w' : Wave} (h : w.SameFlow w') : w'.runnable = w.runnable := by
  simp [Wave.runnable, Wave.partakers, Wave.trapParked, h.live, h.gangParked, h.bank1, h.bank2]

theorem Wave.SameFlow.pc {w w' : Wave} (h : w.SameFlow w') (l : Nat) : w'.pc l = w.pc l := by
  simp [Wave.pc, h.pcs]

theorem Wave.SameFlow.apply (w : Wave) (x : RegWrite) : w.SameFlow (w.apply x) := by
  cases x with
  | k n l b =>
    simp only [Wave.apply, Wave.setK]
    split
    · exact .refl w
    · exact ⟨rfl, rfl, rfl, rfl, rfl, rfl, rfl, rfl, rfl⟩
  | _ => exact ⟨rfl, rfl, rfl, rfl, rfl, rfl, rfl, rfl, rfl⟩

theorem Wave.SameFlow.applyAll (w : Wave) (ws : List RegWrite) : w.SameFlow (w.applyAll ws) := by
  induction ws generalizing w with
  | nil => exact .refl w
  | cons x r ih => exact (Wave.SameFlow.apply w x).trans (ih _)

theorem Wave.SameFlow.markBlocks (w : Wave) (ws : List RegWrite) : w.SameFlow (w.markBlocks ws) := by
  induction ws generalizing w with
  | nil => exact .refl w
  | cons x r ih =>
    refine Wave.SameFlow.trans ?_ (ih _)
    cases x <;> exact ⟨rfl, rfl, rfl, rfl, rfl, rfl, rfl, rfl, rfl⟩

theorem Wave.SameFlow.result (e : Env) (i : Instr) (ws : List RegWrite) (c : Cond) (w : Wave) :
    w.SameFlow (e.result i ws c w) := by
  unfold Env.result
  refine (Wave.SameFlow.markBlocks w ws).trans ?_
  split
  · exact ⟨rfl, rfl, rfl, rfl, rfl, rfl, rfl, rfl, rfl⟩
  · refine Wave.SameFlow.trans (Wave.SameFlow.applyAll _ ws) ⟨rfl, rfl, rfl, rfl, rfl, rfl, rfl, rfl, rfl⟩

theorem Wave.SameFlow.pends (p : Pending) (w : Wave) : w.SameFlow (pends p w) :=
  (Wave.SameFlow.markBlocks w p.writes).trans ⟨rfl, rfl, rfl, rfl, rfl, rfl, rfl, rfl, rfl⟩

/-! ## Moving straight on -/

theorem SMap.find?_table {α : Type} (f : Nat → Option α) (l n a : Nat) :
    SMap.find? ((List.range' a n).filterMap fun l => (f l).map fun x => (l, x)) l =
      if a ≤ l ∧ l < a + n then f l else none := by
  induction n generalizing a with
  | zero => rw [if_neg (by omega)]; rfl
  | succ n ih =>
    rw [List.range'_succ]
    cases ha : f a with
    | none =>
      rw [List.filterMap_cons_none (by simp [ha]), ih]
      by_cases h1 : a = l
      · subst h1; simp [ha]
      · have : (a + 1 ≤ l ∧ l < a + 1 + n) ↔ (a ≤ l ∧ l < a + (n + 1)) := by omega
        simp only [this]
    | some x =>
      rw [List.filterMap_cons_some (b := (a, x)) (by simp [ha]), SMap.find?, ih]
      by_cases h1 : l < a
      · rw [if_pos h1, if_neg (by omega)]
      · by_cases h2 : l = a
        · subst h2; simp [ha]
        · have : (a + 1 ≤ l ∧ l < a + 1 + n) ↔ (a ≤ l ∧ l < a + (n + 1)) := by omega
          simp only [h1, h2, if_false, this]

theorem withPcs_pc (w : Wave) (f : Nat → CodeAddr) (l : Nat) (h : l < 96) : (w.withPcs f).pc l = f l := by
  unfold Wave.pc Wave.withPcs SMap.get
  have : (fun l => if f l = 0 then none else some (l, f l)) =
      fun l => (if f l = 0 then none else some (f l)).map fun x => (l, x) := by
    funext l; split <;> rfl
  rw [List.range_eq_range', this, SMap.find?_table (fun l => if f l = 0 then none else some (f l)), if_pos (by omega)]
  split
  · rename_i h0; rw [h0]; rfl
  · rfl

theorem frag_id {w : Wave} {n : Nat} {f : Frag} (h : w.frag? n = some f) : f.id = n := by
  have := List.find?_some h
  simpa using this

theorem frag_modFrag {w : Wave} {n : Nat} {f : Frag} (h : w.frag? n = some f) (g : Frag → Frag)
    (hg : ∀ x, (g x).id = x.id) : (w.modFrag n g).frag? n = some (g f) := by
  have hid := frag_id h
  unfold Wave.frag? Wave.modFrag at *
  rw [List.find?_map]
  have : ((fun f : Frag => f.id == n) ∘ fun x => if x.id = n then g x else x) = fun f => f.id == n := by
    funext x; simp only [Function.comp]; split <;> simp [hg, *]
  rw [this, h]
  simp [hid]

/-- The fragment's own part of an issue. -/
def Frag.passed (f : Frag) : Frag := { f with issued := f.issued + 1, wait := .none }

theorem countIssue_frags (w : Wave) (n : Nat) (m : SliceMask) :
    (w.countIssue n m).frags = (w.modFrag n Frag.passed).frags := rfl

theorem lowestSlice_mem {m : SliceMask} (h : m ≠ 0) : lowestSlice m ∈ slicesOf m := by
  rw [mem_slicesOf]
  unfold lowestSlice
  cases hq : (List.range 24).find? (fun k => m.getLsbD k) with
  | none =>
    rw [List.find?_eq_none] at hq
    obtain ⟨k, hk⟩ := List.exists_mem_of_ne_nil _ (slicesOf_ne_nil h)
    have := mem_slicesOf.1 hk
    exact absurd this.2 (hq k (by simpa using this.1))
  | some q =>
    have h1 := List.mem_of_find?_eq_some hq
    have h2 := List.find?_some hq
    exact ⟨by simpa using h1, h2⟩

theorem slices_ext {m : SliceMask} {k : Nat} (h : k ∈ slicesOf m) : m.getLsbD k = true := (mem_slicesOf.1 h).2

/-- Where a fragment goes straight on, moving past its instruction changes its lanes' addresses and itself alone. -/
theorem advance_flows {s t : State} {e : Env} {i : Instr} {w' : Wave} {wg : Workgroup} {la : Launch}
    (he : s.env i = some e) (hf : s.flows e i = true) (hw : t.waves.find? e.wk = some w')
    (hs : (e.wave.countIssue e.fid e.frag.slices).SameFlow w')
    (hwg : t.workgroups.find? e.wave.wg = some wg) (hla : t.launches.find? wg.launch = some la)
    (hc : t.codeWord la e.wave.dom.toNat e.wave.codeObj.toNat e.frag.block.toNat =
      s.codeWord e.launch e.wave.dom.toNat e.wave.codeObj.toNat e.frag.block.toNat) :
    t.advance e i [] false = t.modWave e.wk fun w => w.past e i := by
  obtain ⟨-, hew, hfr, -, -, -, hact, -⟩ := State.env_some he
  simp only [State.flows, Bool.and_eq_true, decide_eq_true_eq, List.all_eq_true, bne_iff_ne, ne_eq] at hf
  obtain ⟨⟨⟨⟨⟨⟨hh, hlo⟩, hhi⟩, hm⟩, hsl⟩, hoth⟩, hrest⟩ := hf
  have hid := frag_id hfr
  -- the wave after the move
  let g : Nat → CodeAddr := fun l => if e.active.getLsbD l = true then e.seq i else w'.pc l
  let w1 := w'.withPcs g
  have hrun : w1.runnable = e.wave.runnable := by
    have h1 : w1.runnable = w'.runnable := rfl
    rw [h1, hs.runnable]; rfl
  have hpc : ∀ l, l < 96 → w1.pc l = if e.active.getLsbD l = true then e.seq i else e.wave.pc l := by
    intro l hl
    rw [show w1.pc l = g l from withPcs_pc w' g l hl]
    simp only [g, hs.pc]; rfl
  have hfrags : w1.frags = (e.wave.modFrag e.fid Frag.passed).frags := hs.frags
  have hfind : w1.frag? e.fid = some e.frag.passed := by
    have := frag_modFrag hfr Frag.passed (fun _ => rfl)
    unfold Wave.frag? at this ⊢
    rw [hfrags]; exact this
  have hactive : ∀ l, e.active.getLsbD l = true ↔
      l < 96 ∧ e.frag.slices.getLsbD (l / 4) = true ∧ e.wave.runnable.getLsbD l = true ∧ e.wave.pc l = e.pc := by
    intro l
    rw [hact]
    unfold Wave.active
    have : e.wave.fragPc e.frag = some e.pc := by
      exact eq_of_beq (hsl _ (lowestSlice_mem hm))
    rw [this]
    simp only [activeAt_getLsbD, Bool.and_eq_true, decide_eq_true_eq, and_assoc]
  have hslice : ∀ k ∈ slicesOf e.frag.slices, w1.slicePc k = some (e.seq i) := by
    intro k hk
    have hk' := mem_slicesOf.1 hk
    obtain ⟨⟨j, hj, hr, hp⟩, hle⟩ := slicePc_iff.1 (eq_of_beq (hsl k hk))
    have hdiv : ∀ j, j < 4 → (4 * k + j) / 4 = k := by intro j hj; omega
    have hlt : ∀ j, j < 4 → 4 * k + j < 96 := by intro j hj; omega
    refine slicePc_iff.2 ⟨⟨j, hj, by rw [hrun]; exact hr, ?_⟩, ?_⟩
    · rw [hpc _ (hlt j hj), if_pos]
      exact (hactive _).2 ⟨hlt j hj, by rw [hdiv j hj]; exact hk'.2, hr, hp⟩
    · intro q hq hrq
      rw [hrun] at hrq
      rw [hpc _ (hlt q hq)]
      split
      · exact Nat.le_refl _
      · rename_i hna
        apply hoth
        rw [mem_lanesOf]
        refine ⟨hlt q hq, ?_⟩
        simp only [BitVec.getLsbD_and, BitVec.getLsbD_not, lanesOfSlices_getLsbD, hdiv q hq, hk'.2, hrq,
          Bool.not_eq_true _ ▸ hna, hlt q hq, decide_true, Bool.and_self, Bool.not_false]
  have hother : ∀ x ∈ e.wave.frags.filter (fun x => x.id != e.fid), w1.atHeader x = false := by
    intro x hx
    obtain ⟨⟨h1, h2⟩, h3⟩ := hrest x hx
    have : w1.fragPc x = e.wave.fragPc x := by
      unfold Wave.fragPc
      apply slicePc_congr hrun
      intro q hq
      have hls := lowestSlice_mem h2
      have hls' := mem_slicesOf.1 hls
      rw [hpc _ (by omega), if_neg]
      intro ha
      have := ((hactive _).1 ha).2.1
      rw [show (4 * lowestSlice x.slices + q) / 4 = lowestSlice x.slices by omega] at this
      have h4 := congrArg (fun b : SliceMask => b.getLsbD (lowestSlice x.slices)) (eq_of_beq h1)
      simp [hls'.2, this] at h4
    unfold Wave.atHeader at h3 ⊢
    rw [this]; exact (Bool.not_eq_true' _).mp h3
  have hmove : t.advance e i [] false = (t.modWave e.wk fun _ => w1).settle e.wk e.fid (some (e.seq i)) false :=
    congrArg (fun t => State.settle t e.wk e.fid (some (e.seq i)) false) (State.modWave_congr t e.wk _ _ w' hw rfl)
  have hgroups : w1.groups e.frag.slices = [(e.seq i, e.frag.slices)] := groups_single hm hslice
  rw [hmove]
  have hw1 : (t.modWave e.wk fun _ => w1).waves.find? e.wk = some w1 := by simp [hw]
  have hwg1 : (t.modWave e.wk fun _ => w1).workgroups.find? w1.wg = some wg := by
    rw [State.modWave_workgroups]; rw [show w1.wg = e.wave.wg from hs.wg]; exact hwg
  have hla1 : (t.modWave e.wk fun _ => w1).launches.find? wg.launch = some la := by
    rw [State.modWave_launches]; exact hla
  unfold State.settle State.form
  simp only [hw1, hfind, hwg1, hla1, Bool.false_and, Bool.false_eq_true, if_false]
  rw [show e.frag.passed.slices = e.frag.slices from rfl, hgroups]
  have hloc : (t.modWave e.wk fun _ => w1).locate la w1 e.frag.passed.block (some (e.seq i)) (e.seq i) = e.frag.block := by
    have hcw : (t.modWave e.wk fun _ => w1).codeWord la w1.dom.toNat w1.codeObj.toNat e.frag.block.toNat =
        s.codeWord e.launch e.wave.dom.toNat e.wave.codeObj.toNat e.frag.block.toNat := by
      rw [show w1.dom = e.wave.dom from hs.dom, show w1.codeObj = e.wave.codeObj from hs.codeObj]; exact hc
    unfold State.locate
    simp only [show e.frag.passed.block = e.frag.block from rfl, hcw, hh, if_true]
    rw [if_pos ⟨trivial, hlo, hhi⟩]
  simp only [List.length_cons, List.length_nil, Nat.zero_add, List.range_one, List.map_cons, List.map_nil, if_true,
    List.getD_cons_zero, hloc]
  rw [State.modWave_modWave]
  have hpast : (w'.past e i) = { w1 with
      frags := (w1.frags.filter fun x => x.id != e.fid) ++ [{ e.frag.passed with slices := e.frag.slices, block := e.frag.block }],
      nextFrag := w1.nextFrag + 1 } := rfl
  rw [← hpast]
  rw [State.modWave_congr t e.wk (fun _ => w'.past e i) (fun w => w.past e i) w' hw rfl]
  refine arrive_none (w := w'.past e i) (by simp [hw]) ?_ _
  intro x hx
  have hx' : x ∈ (w1.frags.filter fun x => x.id != e.fid) ++ [e.frag.passed] := hx
  have hrun2 : (w'.past e i).runnable = w1.runnable := rfl
  have hsp : ∀ k, (w'.past e i).slicePc k = w1.slicePc k := fun k => rfl
  rcases List.mem_append.1 hx' with h | h
  · have : x ∈ e.wave.frags.filter fun x => x.id != e.fid := by
      have h2 : w1.frags.filter (fun x => x.id != e.fid) = e.wave.frags.filter fun x => x.id != e.fid := by
        rw [hfrags]
        unfold Wave.modFrag
        dsimp only
        rw [List.filter_map]
        have h3 : ((fun x : Frag => x.id != e.fid) ∘ fun x => if x.id = e.fid then x.passed else x) =
            fun x : Frag => x.id != e.fid := by
          funext x; simp only [Function.comp]; split <;> simp [Frag.passed, *]
        rw [h3]
        conv_rhs => rw [← List.map_id (e.wave.frags.filter fun x => x.id != e.fid)]
        apply List.map_congr_left
        intro x hx
        have := (List.mem_filter.1 hx).2
        simp only [bne_iff_ne, ne_eq] at this
        simp [this]
      rw [← h2]; exact h
    exact hother x this
  · simp only [List.mem_singleton] at h
    subst h
    unfold Wave.atHeader
    have hfp : (w'.past e i).fragPc e.frag.passed = some (e.seq i) := hslice _ (lowestSlice_mem hm)
    rw [hfp]
    have : ¬ e.seq i = e.frag.block := by
      intro h; rw [h] at hlo; exact absurd hlo (Nat.lt_irrefl _)
    simp [Frag.passed, this]

/-! ## Completing an instruction -/

theorem State.countIssue_find (s : State) (e : Env) (i : Instr) :
    (s.countIssue e i).waves.find? e.wk = (s.waves.find? e.wk).map fun w => w.countIssue e.fid e.frag.slices := by
  simp [State.countIssue, State.chargeIssue]

/-- A code word is read from memory as the launch accepted it, by the platform registers (R89). -/
theorem codeWord_congr {s t : State} (h : t.bar0 = s.bar0) (la : Launch) (d o n : Nat) :
    t.codeWord la d o n = s.codeWord la d o n := by
  have hw : ∀ a, (t.accepted la).word64 a = (s.accepted la).word64 a := fun _ => rfl
  have hd : (t.accepted la).domBase = (s.accepted la).domBase := by
    simp only [State.domBase, State.reg, State.accepted, h]
  have he : (t.accepted la).tableEntry d o = (s.accepted la).tableEntry d o := by
    simp only [State.tableEntry, State.entryAddr, State.otBase, hd, hw]
  have ha : ∀ e n, (t.accepted la).addrOf d e n = (s.accepted la).addrOf d e n := by
    intro e n
    have hg : ∀ r g, (t.accepted la).granuleAddr r g = (s.accepted la).granuleAddr r g := by
      intro r g; simp only [State.granuleAddr, hw]
    have hgw : ∀ r g, (t.accepted la).granuleWord r g = (s.accepted la).granuleWord r g := by
      intro r g; simp only [State.granuleWord, hg, hw]
    simp only [State.addrOf, hgw, State.pasid, hd, hw]
  unfold State.codeWord
  simp only [he, ha, hw]

/-- Where the fragment goes straight on, an effect that changes the wave by `g` after it is counted leaves the completed
state. -/
theorem advance_completed {s t : State} {e : Env} {i : Instr} {w : Wave} {la : Launch} {wg : Workgroup}
    {g : Wave → Wave} (he : s.env i = some e) (hf : s.flows e i = true) (hw : t.waves.find? e.wk = some w)
    (hs : e.wave.SameFlow w) (hg : ∀ w : Wave, w.SameFlow (g w))
    (hwg : t.workgroups.find? e.wave.wg = some wg) (hla : t.launches.find? wg.launch = some la)
    (hc : t.codeWord la e.wave.dom.toNat e.wave.codeObj.toNat e.frag.block.toNat =
      s.codeWord e.launch e.wave.dom.toNat e.wave.codeObj.toNat e.frag.block.toNat) :
    State.advance ((t.countIssue e i).modWave e.wk g) e i [] false = t.completed e i g := by
  have h1 : e.wave.SameFlow w → (e.wave.countIssue e.fid e.frag.slices).SameFlow (w.countIssue e.fid e.frag.slices) :=
    fun h => ⟨h.wg, by rw [countIssue_frags, countIssue_frags]; simp [Wave.modFrag, h.frags], h.pcs, h.live, h.gangParked,
      h.bank1, h.bank2, h.dom, h.codeObj⟩
  have hw2 : ((t.countIssue e i).modWave e.wk g).waves.find? e.wk = some (g (w.countIssue e.fid e.frag.slices)) := by
    rw [State.modWave_find, State.countIssue_find, hw]; rfl
  have hbar : ((t.countIssue e i).modWave e.wk g).bar0 = t.bar0 := rfl
  have hwgs : ((t.countIssue e i).modWave e.wk g).workgroups = t.workgroups := rfl
  have hlas : ((t.countIssue e i).modWave e.wk g).launches = t.launches := rfl
  have h2 := advance_flows he hf hw2 ((h1 hs).trans (hg _)) (by rw [hwgs]; exact hwg) (by rw [hlas]; exact hla)
    ((codeWord_congr hbar _ _ _ _).trans hc)
  rw [h2, State.modWave_modWave, State.completed]

/-- Writes at an instruction after which the fragment goes straight on. -/
theorem perform_writes {s t : State} {e : Env} {i : Instr} {w : Wave} {la : Launch} {wg : Workgroup}
    {ws : List RegWrite} {c : Cond} (he : s.env i = some e) (hf : s.flows e i = true)
    (hw : t.waves.find? e.wk = some w) (hs : e.wave.SameFlow w)
    (hwg : t.workgroups.find? e.wave.wg = some wg) (hla : t.launches.find? wg.launch = some la)
    (hc : t.codeWord la e.wave.dom.toNat e.wave.codeObj.toNat e.frag.block.toNat =
      s.codeWord e.launch e.wave.dom.toNat e.wave.codeObj.toNat e.frag.block.toNat) (s0 : State) :
    State.perform e i s0 (.writes t ws c) = t.completed e i (e.result i ws c) :=
  advance_completed he hf hw hs (Wave.SameFlow.result e i ws c) hwg hla hc

/-- Writes in the state itself. -/
theorem perform_writes_self {s : State} {e : Env} {i : Instr} {ws : List RegWrite} {c : Cond} (he : s.env i = some e)
    (hf : s.flows e i = true) (s0 : State) :
    State.perform e i s0 (.writes s ws c) = s.completed e i (e.result i ws c) :=
  have h := State.env_some he
  perform_writes he hf h.2.1 (.refl _) h.2.2.2.1 h.2.2.2.2.1 rfl s0

/-- Accesses at an instruction after which the fragment goes straight on. -/
theorem perform_access {s t : State} {e : Env} {i : Instr} {w : Wave} {la : Launch} {wg : Workgroup}
    {p : Pending} (he : s.env i = some e) (hf : s.flows e i = true)
    (hw : t.waves.find? e.wk = some w) (hs : e.wave.SameFlow w)
    (hwg : t.workgroups.find? e.wave.wg = some wg) (hla : t.launches.find? wg.launch = some la)
    (hc : t.codeWord la e.wave.dom.toNat e.wave.codeObj.toNat e.frag.block.toNat =
      s.codeWord e.launch e.wave.dom.toNat e.wave.codeObj.toNat e.frag.block.toNat) (s0 : State) :
    State.perform e i s0 (.access t p) = t.completed e i (pends p) :=
  advance_completed he hf hw hs (Wave.SameFlow.pends p) hwg hla hc

/-! ## Issuing an instruction that every check admits -/

/-- A sound fetch finds no poisoned word (R462). -/
theorem fetchPoisoned_eq_false {s : State} {e : Env} {i : Instr} : s.fetchPoisoned e i = false ↔ s.fetchPoison e i = none := by
  simp [State.fetchPoisoned]

/-- An admitted instruction that is no gang point performs its own effect. -/
theorem issue_admitted {s : State} {e : Env} {i : Instr} {body : Env → State → Act} (he : s.env i = some e)
    (ha : s.admits e i = true) (hg : Instr.gangPoint i = false) :
    issue i body s = .next (State.perform e i s (body e s)) := by
  simp only [State.admits, Bool.and_eq_true, Bool.not_eq_true', Option.isNone_iff_eq_none, bne_iff_ne, ne_eq] at ha
  obtain ⟨⟨⟨⟨⟨⟨⟨⟨⟨⟨h1, h2⟩, h3⟩, hj⟩, hp⟩, h4⟩, h5⟩, h6⟩, h7⟩, h8⟩, h9⟩ := ha
  simp [issue, he, State.issueIn, h1, h2, h3, hj, fetchPoisoned_eq_false.mp hp, h4, h5, h6, h7, show ¬ e.lanes = 0#96 from h8, h9, hg]

/-- An admitted gang point performs the gang. -/
theorem issue_gang {s : State} {e : Env} {i : Instr} {body : Env → State → Act} (he : s.env i = some e)
    (ha : s.admits e i = true) (hg : Instr.gangPoint i = true) :
    issue i body s = .next (s.gang e i body) := by
  simp only [State.admits, Bool.and_eq_true, Bool.not_eq_true', Option.isNone_iff_eq_none, bne_iff_ne, ne_eq] at ha
  obtain ⟨⟨⟨⟨⟨⟨⟨⟨⟨⟨h1, h2⟩, h3⟩, hj⟩, hp⟩, h4⟩, h5⟩, h6⟩, h7⟩, h8⟩, h9⟩ := ha
  simp [issue, he, State.issueIn, h1, h2, h3, hj, fetchPoisoned_eq_false.mp hp, h4, h5, h6, h7, show ¬ e.lanes = 0#96 from h8, h9, hg]

end Sys2Proof.Machine
end

