-- ==== Sys2Proof/Laws/Formats.lean ====
section
/-!
SUPPORT. The six formats read back from their own words: operand specifiers, type codes, and every field of a format.
-/

namespace Sys2Proof

/-! ## Operand specifiers and types -/

theorem Operand.ofBits_v : ∀ n : BitVec 8, Operand.ofBits (Operand.bits (.v n)) = .v n := by decide +kernel
theorem Operand.ofBits_s : ∀ n : BitVec 7, Operand.ofBits (Operand.bits (.s n)) = .s n := by decide +kernel
theorem Operand.ofBits_k : ∀ n : BitVec 3, Operand.ofBits (Operand.bits (.k n)) = .k n := by decide +kernel
theorem Operand.ofBits_x : ∀ n : BitVec 2, Operand.ofBits (Operand.bits (.x n)) = .x n := by decide +kernel
theorem Operand.ofBits_reservedA : ∀ n : Fin 30, Operand.ofBits (Operand.bits (.reservedA n)) = .reservedA n := by
  decide +kernel
theorem Operand.ofBits_int : ∀ n : BitVec 5, Operand.ofBits (Operand.bits (.int n)) = .int n := by decide +kernel
theorem Operand.ofBits_neg : ∀ n : BitVec 4, Operand.ofBits (Operand.bits (.neg n)) = .neg n := by decide +kernel
theorem Operand.ofBits_flt : ∀ n : BitVec 3, Operand.ofBits (Operand.bits (.flt n)) = .flt n := by decide +kernel
theorem Operand.ofBits_reservedB : ∀ n : Fin 6, Operand.ofBits (Operand.bits (.reservedB n)) = .reservedB n := by
  decide +kernel

/-- A specifier names one operand, and an operand has one specifier (R94). -/
@[simp] theorem Operand.ofBits_bits (o : Operand) : Operand.ofBits o.bits = o := by
  cases o with
  | v n => exact ofBits_v n
  | s n => exact ofBits_s n
  | k n => exact ofBits_k n
  | x n => exact ofBits_x n
  | special p => cases p <;> decide +kernel
  | reservedA i => exact ofBits_reservedA i
  | int n => exact ofBits_int n
  | neg n => exact ofBits_neg n
  | flt n => exact ofBits_flt n
  | reservedB i => exact ofBits_reservedB i
  | none => rfl
  | lit => rfl

@[simp] theorem Ty.ofBits_bits (t : Ty) : Ty.ofBits t.bits = t := by cases t <;> rfl

/-! ## Fields of a word -/

theorem getLsbD_append_low {m n : Nat} (x : BitVec m) (y : BitVec n) (i : Nat) (h : i < n) :
    (x ++ y).getLsbD i = y.getLsbD i := by rw [BitVec.getLsbD_append, if_pos h]

theorem getLsbD_append_high {m n : Nat} (x : BitVec m) (y : BitVec n) (i : Nat) (h : n ≤ i) :
    (x ++ y).getLsbD i = x.getLsbD (i - n) := by rw [BitVec.getLsbD_append, if_neg (by omega)]

theorem extractLsb'_whole {n : Nat} (x : BitVec n) : x.extractLsb' 0 n = x := BitVec.extractLsb'_eq_self

/-- The V format reads back (R98). -/
theorem VFmt.ofWord_word (c : BitVec 4) (o : BitVec 8) (f : VFmt) : VFmt.ofWord (c ++ o ++ f.body) f.ext = f := by
  obtain ⟨d, a, b, cc, pred, neg, ty, rnd, sat, la, ext⟩ := f
  simp only [VFmt.ofWord, VFmt.body, specAt, VFmt.mk.injEq, and_true]
  refine ⟨?_, ?_, ?_, ?_, ?_, ?_, ?_, ?_, ?_, ?_⟩ <;>
    (repeat (first | rw [BitVec.extractLsb'_append_eq_of_add_le (by decide)]
                   | rw [BitVec.extractLsb'_append_eq_of_le (by decide)]
                   | rw [getLsbD_append_low _ _ _ (by decide)]
                   | rw [getLsbD_append_high _ _ _ (by decide)])) <;>
    simp [extractLsb'_whole]

/-- The M format reads back (R100). -/
theorem MFmt.ofWord_word (c : BitVec 4) (o : BitVec 8) (f : MFmt) : MFmt.ofWord (c ++ o ++ f.body) f.ext = f := by
  obtain ⟨d, a, b, cc, pred, neg, ty, rnd, sat, la, ext⟩ := f
  simp only [MFmt.ofWord, MFmt.body, specAt, MFmt.mk.injEq, and_true]
  refine ⟨?_, ?_, ?_, ?_, ?_, ?_, ?_, ?_, ?_, ?_⟩ <;>
    (repeat (first | rw [BitVec.extractLsb'_append_eq_of_add_le (by decide)]
                   | rw [BitVec.extractLsb'_append_eq_of_le (by decide)]
                   | rw [getLsbD_append_low _ _ _ (by decide)]
                   | rw [getLsbD_append_high _ _ _ (by decide)])) <;>
    simp [extractLsb'_whole]

/-- The C format reads back (R102). -/
theorem CFmt.ofWord_word (c : BitVec 4) (o : BitVec 8) (f : CFmt) : CFmt.ofWord (c ++ o ++ f.body) f.ext = f := by
  obtain ⟨d, a, b, cc, pred, neg, ty, rnd⟩ := f
  simp only [CFmt.ofWord, CFmt.body, specAt, CFmt.mk.injEq, and_true]
  refine ⟨?_, ?_, ?_, ?_, ?_, ?_, ?_⟩ <;>
    (repeat (first | rw [BitVec.extractLsb'_append_eq_of_add_le (by decide)]
                   | rw [BitVec.extractLsb'_append_eq_of_le (by decide)]
                   | rw [getLsbD_append_low _ _ _ (by decide)]
                   | rw [getLsbD_append_high _ _ _ (by decide)])) <;>
    simp [extractLsb'_whole]

/-- The X format reads back (R103). -/
theorem XFmt.ofWord_word (c : BitVec 4) (o : BitVec 8) (f : XFmt) : XFmt.ofWord (c ++ o ++ f.body) f.ext = f := by
  obtain ⟨d, a, b, cc, pred, neg, ty, rnd, sat, la, ext⟩ := f
  simp only [XFmt.ofWord, XFmt.body, specAt, XFmt.mk.injEq, and_true]
  refine ⟨?_, ?_, ?_, ?_, ?_, ?_, ?_, ?_, ?_, ?_⟩ <;>
    (repeat (first | rw [BitVec.extractLsb'_append_eq_of_add_le (by decide)]
                   | rw [BitVec.extractLsb'_append_eq_of_le (by decide)]
                   | rw [getLsbD_append_low _ _ _ (by decide)]
                   | rw [getLsbD_append_high _ _ _ (by decide)])) <;>
    simp [extractLsb'_whole]

/-- The G format reads back (R104). -/
theorem GFmt.ofWord_word (c : BitVec 4) (o : BitVec 8) (f : GFmt) : GFmt.ofWord (c ++ o ++ f.body) f.ext = f := by
  obtain ⟨d, a, b, cc, pred, neg, ty, rnd, sat⟩ := f
  simp only [GFmt.ofWord, GFmt.body, specAt, GFmt.mk.injEq, and_true]
  refine ⟨?_, ?_, ?_, ?_, ?_, ?_, ?_, ?_⟩ <;>
    (repeat (first | rw [BitVec.extractLsb'_append_eq_of_add_le (by decide)]
                   | rw [BitVec.extractLsb'_append_eq_of_le (by decide)]
                   | rw [getLsbD_append_low _ _ _ (by decide)]
                   | rw [getLsbD_append_high _ _ _ (by decide)])) <;>
    simp [extractLsb'_whole]

/-- The Y format reads back (R105). -/
theorem YFmt.ofWord_word (c : BitVec 4) (o : BitVec 8) (f : YFmt) : YFmt.ofWord (c ++ o ++ f.body) f.ext = f := by
  obtain ⟨d, a, b, cc, pred, neg⟩ := f
  simp only [YFmt.ofWord, YFmt.body, specAt, YFmt.mk.injEq, and_true]
  refine ⟨?_, ?_, ?_, ?_, ?_⟩ <;>
    (repeat (first | rw [BitVec.extractLsb'_append_eq_of_add_le (by decide)]
                   | rw [BitVec.extractLsb'_append_eq_of_le (by decide)]
                   | rw [getLsbD_append_low _ _ _ (by decide)]
                   | rw [getLsbD_append_high _ _ _ (by decide)])) <;>
    simp [extractLsb'_whole]

/-- The class and the opcode of a word put together from them (R91). -/
theorem wordClass_word (c : BitVec 4) (o : BitVec 8) (b : BitVec 52) : wordClass (c ++ o ++ b) = c.toNat := by
  unfold wordClass
  rw [BitVec.extractLsb'_append_eq_of_le (by decide), BitVec.extractLsb'_append_eq_of_le (by decide)]
  simp [extractLsb'_whole]

theorem wordOp_word (c : BitVec 4) (o : BitVec 8) (b : BitVec 52) : wordOp (c ++ o ++ b) = o.toNat := by
  unfold wordOp
  rw [BitVec.extractLsb'_append_eq_of_le (by decide), BitVec.extractLsb'_append_eq_of_add_le (by decide)]
  simp [extractLsb'_whole]

end Sys2Proof
end

