-- ==== Sys2Proof/Laws/Issue.lean ====
section
/-!
SUPPORT. What an instruction whose checks pass comes to, by the kind of its effect: a meaning is `issue i body`, so these
lemmas turn each meaning into the state it leaves.
-/

namespace Sys2Proof.Machine

/-- An instruction that issues, and is no gang point, performs its own effect. -/
theorem issue_performs {s : State} {e : Env} {i : Instr} {body : Env → State → Act} (h : s.Issues e i)
    (hg : Instr.gangPoint i = false) : issue i body s = .next (State.perform e i s (body e s)) :=
  issue_admitted h.1 h.2 hg

/-- Register writes and conditions, where the fragment goes straight on. -/
theorem run_writes {s : State} {e : Env} {i : Instr} {body : Env → State → Act} {ws : List RegWrite} {c : Cond}
    (h : s.Runs e i) (hg : Instr.gangPoint i = false) (hb : body e s = .writes s ws c) :
    issue i body s = .next (s.wrote e i ws c) := by
  rw [issue_admitted h.1 h.2.1 hg, hb, perform_writes_self h.1 h.2.2]; rfl

/-- Register writes after an effect on the rest of the state: the issue is counted, the writes happen or wait, and the lanes
move on. -/
theorem issue_writes {s t : State} {e : Env} {i : Instr} {body : Env → State → Act} {ws : List RegWrite} {c : Cond}
    (h : s.Issues e i) (hg : Instr.gangPoint i = false) (hb : body e s = .writes t ws c) :
    issue i body s = .next (t.after e i (e.result i ws c)) := by
  rw [issue_performs h hg, hb]; rfl

/-- A raised cause: trap entry at the instruction's own address. -/
theorem issue_trap {s : State} {e : Env} {i : Instr} {body : Env → State → Act} {c : Nat} {v : DWord}
    (h : s.Issues e i) (hg : Instr.gangPoint i = false) (hb : body e s = .trap c v) :
    issue i body s = .next (s.trapped e c v) := by
  rw [issue_performs h hg, hb]; rfl

/-- A wait: the instruction does not issue. -/
theorem issue_hold {s t : State} {e : Env} {i : Instr} {body : Env → State → Act} {wt : Wait}
    (h : s.Issues e i) (hg : Instr.gangPoint i = false) (hb : body e s = .hold t wt) :
    issue i body s = .next (t.setWait e wt) := by
  rw [issue_performs h hg, hb]; rfl

/-- Accesses that are not all performed: a pending record. -/
theorem issue_access {s t : State} {e : Env} {i : Instr} {body : Env → State → Act} {p : Pending}
    (h : s.Issues e i) (hg : Instr.gangPoint i = false) (hb : body e s = .access t p) :
    issue i body s = .next (t.after e i (pends p)) := by
  rw [issue_performs h hg, hb]; rfl

/-- A transfer of control to places already set. -/
theorem issue_placed {s t : State} {e : Env} {i : Instr} {body : Env → State → Act}
    (h : s.Issues e i) (hg : Instr.gangPoint i = false) (hb : body e s = .placed t) :
    issue i body s = .next (State.arrive e.wk arriveFuel (t.countIssue e i)) := by
  rw [issue_performs h hg, hb]; rfl

/-- A gang point at which the whole gang stands, some lane passing: the effect, in the gang's own environment and state. -/
theorem issue_gangs {s : State} {e : Env} {i : Instr} {body : Env → State → Act} (h : s.Gangs e i)
    (hg : Instr.gangPoint i = true) :
    issue i body s = .next (State.perform (e.ganged i s) i (s.ganged e i) (body (e.ganged i s) (s.ganged e i))) := by
  obtain ⟨hi, hgath, hj, hl⟩ := h
  rw [issue_gang hi.1 hi.2 hg]
  simp only [Env.gathered, Bool.and_eq_true, beq_iff_eq, Option.isNone_iff_eq_none] at hgath
  obtain ⟨hgath, hpend⟩ := hgath
  have h0 : e.wave.partakers &&& ~~~e.active = 0 := by rw [hgath.1]; simp
  have h1 : (lanesOf (e.wave.gangParked &&& ~~~e.wave.trapParked) |>.find? fun l => e.wave.pc l != e.pc) = none := by
    rw [hgath.2]; rfl
  have h2 : e.wave.partakers &&& ~~~(e.wave.gangParked ||| e.active) = 0 := by
    rw [hgath.1]
    apply BitVec.eq_of_getLsbD_eq
    intro j hj
    simp [hj]
    exact fun h _ => h
  unfold State.gang
  simp only [h1, h2, h0, hpend, hj, ne_eq, not_true_eq_false, if_false, and_false]
  rw [if_neg fun h => hl h.1]

end Sys2Proof.Machine
end

