-- ==== Sys2Proof/Laws/Memory.lean ====
section
/-!
SUPPORT. Memory: a byte reads as last written, a write leaves every other byte alone, and every memory operation keeps the
canonical form.
-/

namespace Sys2Proof.Machine

/-! ## Reading after writing -/

@[simp] theorem State.setByte_byte_same (s : State) (a : Nat) (x : Byte) : (s.setByte a x).byte a = x := by
  unfold State.setByte State.byte
  split <;> simp_all [SMap.get_set]

theorem State.setByte_byte_other (s : State) (a b : Nat) (x : Byte) (h : b ≠ a) :
    (s.setByte a x).byte b = s.byte b := by
  unfold State.setByte State.byte
  by_cases ha : a < hostBase <;> by_cases hb : b < hostBase <;> simp only [ha, hb, if_true, if_false]
  · rw [SMap.get_set, if_neg h]
  · rw [SMap.get_set, if_neg (by omega)]

theorem State.setByte_byte (s : State) (a b : Nat) (x : Byte) :
    (s.setByte a x).byte b = if b = a then x else s.byte b := by
  split
  · next h => rw [h, State.setByte_byte_same]
  · next h => exact State.setByte_byte_other s a b x h

/-- Bytes from an address on read as written, and every other byte reads as before. -/
theorem State.setBytes_byte (s : State) (a b : Nat) (bs : List Byte) :
    (s.setBytes a bs).byte b = if a ≤ b ∧ b < a + bs.length then bs.getD (b - a) 0 else s.byte b := by
  induction bs generalizing s a with
  | nil => simp only [State.setBytes, List.length_nil]; rw [if_neg (by omega)]
  | cons x r ih =>
    simp only [State.setBytes, ih, State.setByte_byte, List.length_cons]
    by_cases h : b = a
    · subst h
      rw [if_neg (by omega), if_pos rfl, if_pos (by omega)]; simp
    · by_cases h2 : a + 1 ≤ b ∧ b < a + 1 + r.length
      · rw [if_pos h2, if_pos (by omega)]
        obtain ⟨k, rfl⟩ : ∃ k, b = a + 1 + k := ⟨b - (a + 1), by omega⟩
        rw [show a + 1 + k - (a + 1) = k by omega, show a + 1 + k - a = k + 1 by omega]; simp
      · rw [if_neg h2, if_neg h, if_neg (by omega)]

/-! ## What writes leave as it was -/

theorem State.setBytes_keeps {α : Type} (g : State → α) (hg : ∀ s a x, g (State.setByte s a x) = g s) (s : State) (a : Nat)
    (bs : List Byte) : g (s.setBytes a bs) = g s := by
  induction bs generalizing s a with
  | nil => rfl
  | cons x r ih => rw [State.setBytes, ih, hg]

@[simp] theorem State.setBytes_waves (s : State) (a : Nat) (bs : List Byte) : (s.setBytes a bs).waves = s.waves :=
  State.setBytes_keeps State.waves (by simp) s a bs
@[simp] theorem State.setBytes_bar0 (s : State) (a : Nat) (bs : List Byte) : (s.setBytes a bs).bar0 = s.bar0 :=
  State.setBytes_keeps State.bar0 (by simp) s a bs
@[simp] theorem State.setBytes_launches (s : State) (a : Nat) (bs : List Byte) : (s.setBytes a bs).launches = s.launches :=
  State.setBytes_keeps State.launches (by simp) s a bs
@[simp] theorem State.setBytes_workgroups (s : State) (a : Nat) (bs : List Byte) :
    (s.setBytes a bs).workgroups = s.workgroups :=
  State.setBytes_keeps State.workgroups (by simp) s a bs
@[simp] theorem State.setBytes_storeQ (s : State) (a : Nat) (bs : List Byte) : (s.setBytes a bs).storeQ = s.storeQ :=
  State.setBytes_keeps State.storeQ (by simp) s a bs

/-! ## The canonical form -/

/-- The form is a matter of the two memories alone. -/
theorem State.memOk_congr {s t : State} (hm : t.mem = s.mem) (hh : t.hostMem = s.hostMem) (h : s.memOk = true) :
    t.memOk = true := by
  unfold State.memOk at *; rw [hm, hh]; exact h

theorem SMap.risingFrom_filter {α : Type} (m : SMap α) (lo : Nat) (p : Nat × α → Bool) (h : m.risingFrom lo = true) :
    SMap.risingFrom lo (m.filter p) = true := by
  induction m generalizing lo with
  | nil => rfl
  | cons c r ih =>
    obtain ⟨a, x⟩ := c
    simp only [SMap.risingFrom, Bool.and_eq_true, decide_eq_true_eq] at h
    simp only [List.filter]
    split
    · simp only [SMap.risingFrom, Bool.and_eq_true, decide_eq_true_eq]
      exact ⟨h.1, ih _ h.2⟩
    · exact SMap.risingFrom_mono _ _ _ (by omega) (ih _ h.2)

theorem Memory.wf_filter (m : List Host.Cell) (p : Host.Cell → Bool) (h : Memory.wf m = true) :
    Memory.wf (m.filter p) = true := by
  unfold Memory.wf SMap.wf at *
  simp only [Bool.and_eq_true] at *
  refine ⟨SMap.risingFrom_filter m 0 p h.1, ?_⟩
  rw [List.all_eq_true] at *
  intro x hx
  exact h.2 x (List.mem_filter.1 hx).1

/-- Writing a byte keeps the canonical form. -/
theorem State.setByte_memOk (s : State) (a : Nat) (x : Byte) (h : s.memOk = true) : (s.setByte a x).memOk = true := by
  unfold State.setByte State.memOk at *
  simp only [Bool.and_eq_true] at h
  obtain ⟨⟨h1, h2⟩, h3⟩ := h
  by_cases ha : a < hostBase
  · simp only [ha, if_true, Bool.and_eq_true]
    refine ⟨⟨SMap.wf_set 0 s.mem a x h1, h2⟩, ?_⟩
    unfold SMap.set
    split
    · exact SMap.all_erase _ _ _ h3
    · exact SMap.all_insert _ _ _ _ (by simpa using ha) h3
  · simp only [ha, if_false, Bool.and_eq_true]
    exact ⟨⟨h1, SMap.wf_set 0 s.hostMem _ x h2⟩, h3⟩

/-- Writing bytes keeps the canonical form. -/
theorem State.setBytes_memOk (s : State) (a : Nat) (bs : List Byte) (h : s.memOk = true) :
    (s.setBytes a bs).memOk = true := by
  induction bs generalizing s a with
  | nil => exact h
  | cons x r ih => exact ih _ _ (State.setByte_memOk s a x h)

/-- Writing a word keeps the canonical form. -/
theorem State.setWord64_memOk (s : State) (a : Nat) (x : DWord) (h : s.memOk = true) : (s.setWord64 a x).memOk = true :=
  State.setBytes_memOk s a _ h

/-- Writing an object table entry keeps the canonical form. -/
theorem State.setEntry_memOk (s : State) (d n : Nat) (x : ObjEntry) (h : s.memOk = true) :
    (s.setEntry d n x).memOk = true :=
  State.setWord64_memOk _ _ _ (State.setWord64_memOk _ _ _ (State.setWord64_memOk _ _ _ (State.setWord64_memOk _ _ _ h)))

/-- Clearing a range keeps the canonical form. -/
theorem State.clearRange_memOk (s : State) (a n : Nat) (h : s.memOk = true) : (s.clearRange a n).memOk = true := by
  unfold State.clearRange State.memOk at *
  simp only [Bool.and_eq_true] at h
  obtain ⟨⟨h1, h2⟩, h3⟩ := h
  by_cases ha : a < hostBase
  · simp only [ha, if_true, Bool.and_eq_true]
    refine ⟨⟨Memory.wf_filter _ _ h1, h2⟩, ?_⟩
    rw [List.all_eq_true] at *
    intro x hx
    exact h3 x (List.mem_filter.1 hx).1
  · simp only [ha, if_false, Bool.and_eq_true]
    exact ⟨⟨h1, Memory.wf_filter _ _ h2⟩, h3⟩

/-- Reset memory has the canonical form. -/
theorem State.reset_memOk : State.reset.memOk = true := rfl

end Sys2Proof.Machine
end

