-- ==== Sys2Proof/Laws/PerInstr.lean ====
section
/-!
SUPPORT. One lemma per instruction: its own word, read by the opcode map, gives the instruction back; a row of the opcode
table that is not an instruction has no words.
-/

namespace Sys2Proof.Laws.Encoding

open Sys2Proof

/-- The word of an instruction of class c and opcode o is read back as the instruction; what is no instruction has no
words. -/
def Statement (i : Instr) : Prop :=
  match i.opcode with
  | some (c, o) => instrAt c.toNat o.toNat i.word i.ext = some i
  | none => encode i = []

theorem uadd (f : VFmt) : Statement (.uadd f) :=
  congrArg (fun x => some (Instr.uadd x)) (VFmt.ofWord_word 0x0 0x00 f)
theorem uaddc (f : VFmt) : Statement (.uaddc f) :=
  congrArg (fun x => some (Instr.uaddc x)) (VFmt.ofWord_word 0x0 0x01 f)
theorem usub (f : VFmt) : Statement (.usub f) :=
  congrArg (fun x => some (Instr.usub x)) (VFmt.ofWord_word 0x0 0x02 f)
theorem usubb (f : VFmt) : Statement (.usubb f) :=
  congrArg (fun x => some (Instr.usubb x)) (VFmt.ofWord_word 0x0 0x03 f)
theorem umul (f : VFmt) : Statement (.umul f) :=
  congrArg (fun x => some (Instr.umul x)) (VFmt.ofWord_word 0x0 0x04 f)
theorem umulhi (f : VFmt) : Statement (.umulhi f) :=
  congrArg (fun x => some (Instr.umulhi x)) (VFmt.ofWord_word 0x0 0x05 f)
theorem umulw (f : VFmt) : Statement (.umulw f) :=
  congrArg (fun x => some (Instr.umulw x)) (VFmt.ofWord_word 0x0 0x06 f)
theorem udiv (f : VFmt) : Statement (.udiv f) :=
  congrArg (fun x => some (Instr.udiv x)) (VFmt.ofWord_word 0x0 0x07 f)
theorem urem (f : VFmt) : Statement (.urem f) :=
  congrArg (fun x => some (Instr.urem x)) (VFmt.ofWord_word 0x0 0x08 f)
theorem umin (f : VFmt) : Statement (.umin f) :=
  congrArg (fun x => some (Instr.umin x)) (VFmt.ofWord_word 0x0 0x09 f)
theorem umax (f : VFmt) : Statement (.umax f) :=
  congrArg (fun x => some (Instr.umax x)) (VFmt.ofWord_word 0x0 0x0A f)
theorem uand (f : VFmt) : Statement (.uand f) :=
  congrArg (fun x => some (Instr.uand x)) (VFmt.ofWord_word 0x0 0x0B f)
theorem uor (f : VFmt) : Statement (.uor f) :=
  congrArg (fun x => some (Instr.uor x)) (VFmt.ofWord_word 0x0 0x0C f)
theorem uxor (f : VFmt) : Statement (.uxor f) :=
  congrArg (fun x => some (Instr.uxor x)) (VFmt.ofWord_word 0x0 0x0D f)
theorem unot (f : VFmt) : Statement (.unot f) :=
  congrArg (fun x => some (Instr.unot x)) (VFmt.ofWord_word 0x0 0x0E f)
theorem ushl (f : VFmt) : Statement (.ushl f) :=
  congrArg (fun x => some (Instr.ushl x)) (VFmt.ofWord_word 0x0 0x0F f)
theorem ushr (f : VFmt) : Statement (.ushr f) :=
  congrArg (fun x => some (Instr.ushr x)) (VFmt.ofWord_word 0x0 0x10 f)
theorem usar (f : VFmt) : Statement (.usar f) :=
  congrArg (fun x => some (Instr.usar x)) (VFmt.ofWord_word 0x0 0x11 f)
theorem ubfe (f : VFmt) : Statement (.ubfe f) :=
  congrArg (fun x => some (Instr.ubfe x)) (VFmt.ofWord_word 0x0 0x12 f)
theorem ubfi (f : VFmt) : Statement (.ubfi f) :=
  congrArg (fun x => some (Instr.ubfi x)) (VFmt.ofWord_word 0x0 0x13 f)
theorem upopc (f : VFmt) : Statement (.upopc f) :=
  congrArg (fun x => some (Instr.upopc x)) (VFmt.ofWord_word 0x0 0x14 f)
theorem uclz (f : VFmt) : Statement (.uclz f) :=
  congrArg (fun x => some (Instr.uclz x)) (VFmt.ofWord_word 0x0 0x15 f)
theorem ucmp (f : VFmt) : Statement (.ucmp f) :=
  congrArg (fun x => some (Instr.ucmp x)) (VFmt.ofWord_word 0x0 0x16 f)
theorem usel (f : VFmt) : Statement (.usel f) :=
  congrArg (fun x => some (Instr.usel x)) (VFmt.ofWord_word 0x0 0x17 f)
theorem umov (f : VFmt) : Statement (.umov f) :=
  congrArg (fun x => some (Instr.umov x)) (VFmt.ofWord_word 0x0 0x18 f)
theorem add (f : VFmt) : Statement (.add f) :=
  congrArg (fun x => some (Instr.add x)) (VFmt.ofWord_word 0x1 0x00 f)
theorem addc (f : VFmt) : Statement (.addc f) :=
  congrArg (fun x => some (Instr.addc x)) (VFmt.ofWord_word 0x1 0x01 f)
theorem sub (f : VFmt) : Statement (.sub f) :=
  congrArg (fun x => some (Instr.sub x)) (VFmt.ofWord_word 0x1 0x02 f)
theorem subb (f : VFmt) : Statement (.subb f) :=
  congrArg (fun x => some (Instr.subb x)) (VFmt.ofWord_word 0x1 0x03 f)
theorem mul (f : VFmt) : Statement (.mul f) :=
  congrArg (fun x => some (Instr.mul x)) (VFmt.ofWord_word 0x1 0x04 f)
theorem mulhi (f : VFmt) : Statement (.mulhi f) :=
  congrArg (fun x => some (Instr.mulhi x)) (VFmt.ofWord_word 0x1 0x05 f)
theorem mulw (f : VFmt) : Statement (.mulw f) :=
  congrArg (fun x => some (Instr.mulw x)) (VFmt.ofWord_word 0x1 0x06 f)
theorem mad (f : VFmt) : Statement (.mad f) :=
  congrArg (fun x => some (Instr.mad x)) (VFmt.ofWord_word 0x1 0x07 f)
theorem div (f : VFmt) : Statement (.div f) :=
  congrArg (fun x => some (Instr.div x)) (VFmt.ofWord_word 0x1 0x08 f)
theorem rem (f : VFmt) : Statement (.rem f) :=
  congrArg (fun x => some (Instr.rem x)) (VFmt.ofWord_word 0x1 0x09 f)
theorem min (f : VFmt) : Statement (.min f) :=
  congrArg (fun x => some (Instr.min x)) (VFmt.ofWord_word 0x1 0x0A f)
theorem max (f : VFmt) : Statement (.max f) :=
  congrArg (fun x => some (Instr.max x)) (VFmt.ofWord_word 0x1 0x0B f)
theorem abs (f : VFmt) : Statement (.abs f) :=
  congrArg (fun x => some (Instr.abs x)) (VFmt.ofWord_word 0x1 0x0C f)
theorem and (f : VFmt) : Statement (.and f) :=
  congrArg (fun x => some (Instr.and x)) (VFmt.ofWord_word 0x1 0x0D f)
theorem or (f : VFmt) : Statement (.or f) :=
  congrArg (fun x => some (Instr.or x)) (VFmt.ofWord_word 0x1 0x0E f)
theorem xor (f : VFmt) : Statement (.xor f) :=
  congrArg (fun x => some (Instr.xor x)) (VFmt.ofWord_word 0x1 0x0F f)
theorem not (f : VFmt) : Statement (.not f) :=
  congrArg (fun x => some (Instr.not x)) (VFmt.ofWord_word 0x1 0x10 f)
theorem shl (f : VFmt) : Statement (.shl f) :=
  congrArg (fun x => some (Instr.shl x)) (VFmt.ofWord_word 0x1 0x11 f)
theorem shr (f : VFmt) : Statement (.shr f) :=
  congrArg (fun x => some (Instr.shr x)) (VFmt.ofWord_word 0x1 0x12 f)
theorem sar (f : VFmt) : Statement (.sar f) :=
  congrArg (fun x => some (Instr.sar x)) (VFmt.ofWord_word 0x1 0x13 f)
theorem bfe (f : VFmt) : Statement (.bfe f) :=
  congrArg (fun x => some (Instr.bfe x)) (VFmt.ofWord_word 0x1 0x14 f)
theorem bfi (f : VFmt) : Statement (.bfi f) :=
  congrArg (fun x => some (Instr.bfi x)) (VFmt.ofWord_word 0x1 0x15 f)
theorem brev (f : VFmt) : Statement (.brev f) :=
  congrArg (fun x => some (Instr.brev x)) (VFmt.ofWord_word 0x1 0x16 f)
theorem popc (f : VFmt) : Statement (.popc f) :=
  congrArg (fun x => some (Instr.popc x)) (VFmt.ofWord_word 0x1 0x17 f)
theorem clz (f : VFmt) : Statement (.clz f) :=
  congrArg (fun x => some (Instr.clz x)) (VFmt.ofWord_word 0x1 0x18 f)
theorem cmp (f : VFmt) : Statement (.cmp f) :=
  congrArg (fun x => some (Instr.cmp x)) (VFmt.ofWord_word 0x1 0x19 f)
theorem sel (f : VFmt) : Statement (.sel f) :=
  congrArg (fun x => some (Instr.sel x)) (VFmt.ofWord_word 0x1 0x1A f)
theorem mov (f : VFmt) : Statement (.mov f) :=
  congrArg (fun x => some (Instr.mov x)) (VFmt.ofWord_word 0x1 0x1B f)
theorem movx (f : VFmt) : Statement (.movx f) :=
  congrArg (fun x => some (Instr.movx x)) (VFmt.ofWord_word 0x1 0x1C f)
theorem movxs (f : VFmt) : Statement (.movxs f) :=
  congrArg (fun x => some (Instr.movxs x)) (VFmt.ofWord_word 0x1 0x1D f)
theorem fadd (f : VFmt) : Statement (.fadd f) :=
  congrArg (fun x => some (Instr.fadd x)) (VFmt.ofWord_word 0x2 0x00 f)
theorem fsub (f : VFmt) : Statement (.fsub f) :=
  congrArg (fun x => some (Instr.fsub x)) (VFmt.ofWord_word 0x2 0x01 f)
theorem fmul (f : VFmt) : Statement (.fmul f) :=
  congrArg (fun x => some (Instr.fmul x)) (VFmt.ofWord_word 0x2 0x02 f)
theorem ffma (f : VFmt) : Statement (.ffma f) :=
  congrArg (fun x => some (Instr.ffma x)) (VFmt.ofWord_word 0x2 0x03 f)
theorem fmin (f : VFmt) : Statement (.fmin f) :=
  congrArg (fun x => some (Instr.fmin x)) (VFmt.ofWord_word 0x2 0x04 f)
theorem fmax (f : VFmt) : Statement (.fmax f) :=
  congrArg (fun x => some (Instr.fmax x)) (VFmt.ofWord_word 0x2 0x05 f)
theorem fabs (f : VFmt) : Statement (.fabs f) :=
  congrArg (fun x => some (Instr.fabs x)) (VFmt.ofWord_word 0x2 0x06 f)
theorem fneg (f : VFmt) : Statement (.fneg f) :=
  congrArg (fun x => some (Instr.fneg x)) (VFmt.ofWord_word 0x2 0x07 f)
theorem fcmp (f : VFmt) : Statement (.fcmp f) :=
  congrArg (fun x => some (Instr.fcmp x)) (VFmt.ofWord_word 0x2 0x08 f)
theorem fclass (f : VFmt) : Statement (.fclass f) :=
  congrArg (fun x => some (Instr.fclass x)) (VFmt.ofWord_word 0x2 0x09 f)
theorem frcp (f : VFmt) : Statement (.frcp f) :=
  congrArg (fun x => some (Instr.frcp x)) (VFmt.ofWord_word 0x2 0x0A f)
theorem frsq (f : VFmt) : Statement (.frsq f) :=
  congrArg (fun x => some (Instr.frsq x)) (VFmt.ofWord_word 0x2 0x0B f)
theorem fsqrt (f : VFmt) : Statement (.fsqrt f) :=
  congrArg (fun x => some (Instr.fsqrt x)) (VFmt.ofWord_word 0x2 0x0C f)
theorem fdiv (f : VFmt) : Statement (.fdiv f) :=
  congrArg (fun x => some (Instr.fdiv x)) (VFmt.ofWord_word 0x2 0x0D f)
theorem fexp2 (f : VFmt) : Statement (.fexp2 f) :=
  congrArg (fun x => some (Instr.fexp2 x)) (VFmt.ofWord_word 0x2 0x0E f)
theorem flog2 (f : VFmt) : Statement (.flog2 f) :=
  congrArg (fun x => some (Instr.flog2 x)) (VFmt.ofWord_word 0x2 0x0F f)
theorem fsin (f : VFmt) : Statement (.fsin f) :=
  congrArg (fun x => some (Instr.fsin x)) (VFmt.ofWord_word 0x2 0x10 f)
theorem fcos (f : VFmt) : Statement (.fcos f) :=
  congrArg (fun x => some (Instr.fcos x)) (VFmt.ofWord_word 0x2 0x11 f)
theorem ftanh (f : VFmt) : Statement (.ftanh f) :=
  congrArg (fun x => some (Instr.ftanh x)) (VFmt.ofWord_word 0x2 0x12 f)
theorem ffloor (f : VFmt) : Statement (.ffloor f) :=
  congrArg (fun x => some (Instr.ffloor x)) (VFmt.ofWord_word 0x2 0x13 f)
theorem fceil (f : VFmt) : Statement (.fceil f) :=
  congrArg (fun x => some (Instr.fceil x)) (VFmt.ofWord_word 0x2 0x14 f)
theorem ftrunc (f : VFmt) : Statement (.ftrunc f) :=
  congrArg (fun x => some (Instr.ftrunc x)) (VFmt.ofWord_word 0x2 0x15 f)
theorem frint (f : VFmt) : Statement (.frint f) :=
  congrArg (fun x => some (Instr.frint x)) (VFmt.ofWord_word 0x2 0x16 f)
theorem ffrac (f : VFmt) : Statement (.ffrac f) :=
  congrArg (fun x => some (Instr.ffrac x)) (VFmt.ofWord_word 0x2 0x17 f)
theorem fldexp (f : VFmt) : Statement (.fldexp f) :=
  congrArg (fun x => some (Instr.fldexp x)) (VFmt.ofWord_word 0x2 0x18 f)
theorem fexpo (f : VFmt) : Statement (.fexpo f) :=
  congrArg (fun x => some (Instr.fexpo x)) (VFmt.ofWord_word 0x2 0x19 f)
theorem fmant (f : VFmt) : Statement (.fmant f) :=
  congrArg (fun x => some (Instr.fmant x)) (VFmt.ofWord_word 0x2 0x1A f)
theorem fmed3 (f : VFmt) : Statement (.fmed3 f) :=
  congrArg (fun x => some (Instr.fmed3 x)) (VFmt.ofWord_word 0x2 0x1B f)
theorem fdot2 (f : VFmt) : Statement (.fdot2 f) :=
  congrArg (fun x => some (Instr.fdot2 x)) (VFmt.ofWord_word 0x2 0x1C f)
theorem fdot4 (f : VFmt) : Statement (.fdot4 f) :=
  congrArg (fun x => some (Instr.fdot4 x)) (VFmt.ofWord_word 0x2 0x1D f)
theorem cvt (f : VFmt) : Statement (.cvt f) :=
  congrArg (fun x => some (Instr.cvt x)) (VFmt.ofWord_word 0x3 0x00 f)
theorem cvtmx (f : VFmt) : Statement (.cvtmx f) :=
  congrArg (fun x => some (Instr.cvtmx x)) (VFmt.ofWord_word 0x3 0x01 f)
theorem pack (f : VFmt) : Statement (.pack f) :=
  congrArg (fun x => some (Instr.pack x)) (VFmt.ofWord_word 0x3 0x02 f)
theorem unpack (f : VFmt) : Statement (.unpack f) :=
  congrArg (fun x => some (Instr.unpack x)) (VFmt.ofWord_word 0x3 0x03 f)
theorem mxscale (f : VFmt) : Statement (.mxscale f) :=
  congrArg (fun x => some (Instr.mxscale x)) (VFmt.ofWord_word 0x3 0x13 f)
theorem bperm (f : VFmt) : Statement (.bperm f) :=
  congrArg (fun x => some (Instr.bperm x)) (VFmt.ofWord_word 0x3 0x04 f)
theorem shfl (f : VFmt) : Statement (.shfl f) :=
  congrArg (fun x => some (Instr.shfl x)) (VFmt.ofWord_word 0x3 0x05 f)
theorem shflup (f : VFmt) : Statement (.shflup f) :=
  congrArg (fun x => some (Instr.shflup x)) (VFmt.ofWord_word 0x3 0x06 f)
theorem shfldn (f : VFmt) : Statement (.shfldn f) :=
  congrArg (fun x => some (Instr.shfldn x)) (VFmt.ofWord_word 0x3 0x07 f)
theorem shflx (f : VFmt) : Statement (.shflx f) :=
  congrArg (fun x => some (Instr.shflx x)) (VFmt.ofWord_word 0x3 0x08 f)
theorem voteany (f : VFmt) : Statement (.voteany f) :=
  congrArg (fun x => some (Instr.voteany x)) (VFmt.ofWord_word 0x3 0x09 f)
theorem voteall (f : VFmt) : Statement (.voteall f) :=
  congrArg (fun x => some (Instr.voteall x)) (VFmt.ofWord_word 0x3 0x0A f)
theorem voteeq (f : VFmt) : Statement (.voteeq f) :=
  congrArg (fun x => some (Instr.voteeq x)) (VFmt.ofWord_word 0x3 0x0B f)
theorem ballot (f : VFmt) : Statement (.ballot f) :=
  congrArg (fun x => some (Instr.ballot x)) (VFmt.ofWord_word 0x3 0x0C f)
theorem scan (f : VFmt) : Statement (.scan f) :=
  congrArg (fun x => some (Instr.scan x)) (VFmt.ofWord_word 0x3 0x0D f)
theorem scanx (f : VFmt) : Statement (.scanx f) :=
  congrArg (fun x => some (Instr.scanx x)) (VFmt.ofWord_word 0x3 0x0E f)
theorem reduce (f : VFmt) : Statement (.reduce f) :=
  congrArg (fun x => some (Instr.reduce x)) (VFmt.ofWord_word 0x3 0x0F f)
theorem compact (f : VFmt) : Statement (.compact f) :=
  congrArg (fun x => some (Instr.compact x)) (VFmt.ofWord_word 0x3 0x10 f)
theorem expand (f : VFmt) : Statement (.expand f) :=
  congrArg (fun x => some (Instr.expand x)) (VFmt.ofWord_word 0x3 0x11 f)
theorem rdfirst (f : VFmt) : Statement (.rdfirst f) :=
  congrArg (fun x => some (Instr.rdfirst x)) (VFmt.ofWord_word 0x3 0x12 f)
theorem bra (f : CFmt) : Statement (.bra f) :=
  congrArg (fun x => some (Instr.bra x)) (CFmt.ofWord_word 0x4 0x00 f)
theorem brp (f : CFmt) : Statement (.brp f) :=
  congrArg (fun x => some (Instr.brp x)) (CFmt.ofWord_word 0x4 0x01 f)
theorem bru (f : CFmt) : Statement (.bru f) :=
  congrArg (fun x => some (Instr.bru x)) (CFmt.ofWord_word 0x4 0x02 f)
theorem call (f : CFmt) : Statement (.call f) :=
  congrArg (fun x => some (Instr.call x)) (CFmt.ofWord_word 0x4 0x03 f)
theorem calli (f : CFmt) : Statement (.calli f) :=
  congrArg (fun x => some (Instr.calli x)) (CFmt.ofWord_word 0x4 0x04 f)
theorem ret (f : CFmt) : Statement (.ret f) :=
  congrArg (fun x => some (Instr.ret x)) (CFmt.ofWord_word 0x4 0x05 f)
theorem jmpi (f : CFmt) : Statement (.jmpi f) :=
  congrArg (fun x => some (Instr.jmpi x)) (CFmt.ofWord_word 0x4 0x06 f)
theorem exit (f : CFmt) : Statement (.exit f) :=
  congrArg (fun x => some (Instr.exit x)) (CFmt.ofWord_word 0x4 0x07 f)
theorem regang (f : CFmt) : Statement (.regang f) :=
  congrArg (fun x => some (Instr.regang x)) (CFmt.ofWord_word 0x4 0x08 f)
theorem pand (f : VFmt) : Statement (.pand f) :=
  congrArg (fun x => some (Instr.pand x)) (VFmt.ofWord_word 0x4 0x10 f)
theorem por (f : VFmt) : Statement (.por f) :=
  congrArg (fun x => some (Instr.por x)) (VFmt.ofWord_word 0x4 0x11 f)
theorem pxor (f : VFmt) : Statement (.pxor f) :=
  congrArg (fun x => some (Instr.pxor x)) (VFmt.ofWord_word 0x4 0x12 f)
theorem pandn (f : VFmt) : Statement (.pandn f) :=
  congrArg (fun x => some (Instr.pandn x)) (VFmt.ofWord_word 0x4 0x13 f)
theorem pnot (f : VFmt) : Statement (.pnot f) :=
  congrArg (fun x => some (Instr.pnot x)) (VFmt.ofWord_word 0x4 0x14 f)
theorem pmov (f : VFmt) : Statement (.pmov f) :=
  congrArg (fun x => some (Instr.pmov x)) (VFmt.ofWord_word 0x4 0x15 f)
theorem ld (f : MFmt) : Statement (.ld f) :=
  congrArg (fun x => some (Instr.ld x)) (MFmt.ofWord_word 0x5 0x00 f)
theorem st (f : MFmt) : Statement (.st f) :=
  congrArg (fun x => some (Instr.st x)) (MFmt.ofWord_word 0x5 0x01 f)
theorem lds (f : MFmt) : Statement (.lds f) :=
  congrArg (fun x => some (Instr.lds x)) (MFmt.ofWord_word 0x5 0x02 f)
theorem sts (f : MFmt) : Statement (.sts f) :=
  congrArg (fun x => some (Instr.sts x)) (MFmt.ofWord_word 0x5 0x03 f)
theorem ldsr (f : MFmt) : Statement (.ldsr f) :=
  congrArg (fun x => some (Instr.ldsr x)) (MFmt.ofWord_word 0x5 0x04 f)
theorem stsr (f : MFmt) : Statement (.stsr f) :=
  congrArg (fun x => some (Instr.stsr x)) (MFmt.ofWord_word 0x5 0x05 f)
theorem sld (f : MFmt) : Statement (.sld f) :=
  congrArg (fun x => some (Instr.sld x)) (MFmt.ofWord_word 0x5 0x06 f)
theorem sst (f : MFmt) : Statement (.sst f) :=
  congrArg (fun x => some (Instr.sst x)) (MFmt.ofWord_word 0x5 0x07 f)
theorem tld (f : MFmt) : Statement (.tld f) :=
  congrArg (fun x => some (Instr.tld x)) (MFmt.ofWord_word 0x5 0x08 f)
theorem tst (f : MFmt) : Statement (.tst f) :=
  congrArg (fun x => some (Instr.tst x)) (MFmt.ofWord_word 0x5 0x09 f)
theorem pref (f : MFmt) : Statement (.pref f) :=
  congrArg (fun x => some (Instr.pref x)) (MFmt.ofWord_word 0x5 0x0A f)
theorem evict (f : MFmt) : Statement (.evict f) :=
  congrArg (fun x => some (Instr.evict x)) (MFmt.ofWord_word 0x5 0x0B f)
theorem fence (f : MFmt) : Statement (.fence f) :=
  congrArg (fun x => some (Instr.fence x)) (MFmt.ofWord_word 0x5 0x0C f)
theorem sqpush (f : MFmt) : Statement (.sqpush f) :=
  congrArg (fun x => some (Instr.sqpush x)) (MFmt.ofWord_word 0x5 0x0D f)
theorem sqpop (f : MFmt) : Statement (.sqpop f) :=
  congrArg (fun x => some (Instr.sqpop x)) (MFmt.ofWord_word 0x5 0x0E f)
theorem aadd (f : MFmt) : Statement (.aadd f) :=
  congrArg (fun x => some (Instr.aadd x)) (MFmt.ofWord_word 0x6 0x00 f)
theorem afadd (f : MFmt) : Statement (.afadd f) :=
  congrArg (fun x => some (Instr.afadd x)) (MFmt.ofWord_word 0x6 0x01 f)
theorem amin (f : MFmt) : Statement (.amin f) :=
  congrArg (fun x => some (Instr.amin x)) (MFmt.ofWord_word 0x6 0x02 f)
theorem amax (f : MFmt) : Statement (.amax f) :=
  congrArg (fun x => some (Instr.amax x)) (MFmt.ofWord_word 0x6 0x03 f)
theorem aand (f : MFmt) : Statement (.aand f) :=
  congrArg (fun x => some (Instr.aand x)) (MFmt.ofWord_word 0x6 0x04 f)
theorem aor (f : MFmt) : Statement (.aor f) :=
  congrArg (fun x => some (Instr.aor x)) (MFmt.ofWord_word 0x6 0x05 f)
theorem axor (f : MFmt) : Statement (.axor f) :=
  congrArg (fun x => some (Instr.axor x)) (MFmt.ofWord_word 0x6 0x06 f)
theorem axchg (f : MFmt) : Statement (.axchg f) :=
  congrArg (fun x => some (Instr.axchg x)) (MFmt.ofWord_word 0x6 0x07 f)
theorem acas (f : MFmt) : Statement (.acas f) :=
  congrArg (fun x => some (Instr.acas x)) (MFmt.ofWord_word 0x6 0x08 f)
theorem atile (f : MFmt) : Statement (.atile f) :=
  congrArg (fun x => some (Instr.atile x)) (MFmt.ofWord_word 0x6 0x09 f)
theorem copy (f : MFmt) : Statement (.copy f) :=
  congrArg (fun x => some (Instr.copy x)) (MFmt.ofWord_word 0x7 0x00 f)
theorem copyin (f : MFmt) : Statement (.copyin f) :=
  congrArg (fun x => some (Instr.copyin x)) (MFmt.ofWord_word 0x7 0x01 f)
theorem copyout (f : MFmt) : Statement (.copyout f) :=
  congrArg (fun x => some (Instr.copyout x)) (MFmt.ofWord_word 0x7 0x02 f)
theorem copyt (f : MFmt) : Statement (.copyt f) :=
  congrArg (fun x => some (Instr.copyt x)) (MFmt.ofWord_word 0x7 0x03 f)
theorem batch (f : YFmt) : Statement (.batch f) :=
  congrArg (fun x => some (Instr.batch x)) (YFmt.ofWord_word 0x7 0x08 f)
theorem waitb (f : YFmt) : Statement (.waitb f) :=
  congrArg (fun x => some (Instr.waitb x)) (YFmt.ofWord_word 0x7 0x09 f)
theorem waitbn (f : YFmt) : Statement (.waitbn f) :=
  congrArg (fun x => some (Instr.waitbn x)) (YFmt.ofWord_word 0x7 0x0A f)
theorem bquery (f : YFmt) : Statement (.bquery f) :=
  congrArg (fun x => some (Instr.bquery x)) (YFmt.ofWord_word 0x7 0x0B f)
theorem mma (f : XFmt) : Statement (.mma f) :=
  congrArg (fun x => some (Instr.mma x)) (XFmt.ofWord_word 0x8 0x00 f)
theorem mmaGrp (f : XFmt) : Statement (.mmaGrp f) :=
  congrArg (fun x => some (Instr.mmaGrp x)) (XFmt.ofWord_word 0x8 0x01 f)
theorem mmaLut (f : XFmt) : Statement (.mmaLut f) :=
  congrArg (fun x => some (Instr.mmaLut x)) (XFmt.ofWord_word 0x8 0x02 f)
theorem mmaSa (f : XFmt) : Statement (.mmaSa f) :=
  congrArg (fun x => some (Instr.mmaSa x)) (XFmt.ofWord_word 0x8 0x03 f)
theorem lutb (f : XFmt) : Statement (.lutb f) :=
  congrArg (fun x => some (Instr.lutb x)) (XFmt.ofWord_word 0x8 0x04 f)
theorem bload (f : XFmt) : Statement (.bload f) :=
  congrArg (fun x => some (Instr.bload x)) (XFmt.ofWord_word 0x8 0x05 f)
theorem aclr (f : XFmt) : Statement (.aclr f) :=
  congrArg (fun x => some (Instr.aclr x)) (XFmt.ofWord_word 0x8 0x06 f)
theorem amovr (f : XFmt) : Statement (.amovr f) :=
  congrArg (fun x => some (Instr.amovr x)) (XFmt.ofWord_word 0x8 0x07 f)
theorem amovw (f : XFmt) : Statement (.amovw f) :=
  congrArg (fun x => some (Instr.amovw x)) (XFmt.ofWord_word 0x8 0x08 f)
theorem ascale (f : XFmt) : Statement (.ascale f) :=
  congrArg (fun x => some (Instr.ascale x)) (XFmt.ofWord_word 0x8 0x09 f)
theorem drain (f : XFmt) : Statement (.drain f) :=
  congrArg (fun x => some (Instr.drain x)) (XFmt.ofWord_word 0x8 0x0A f)
theorem drainAdd (f : XFmt) : Statement (.drainAdd f) :=
  congrArg (fun x => some (Instr.drainAdd x)) (XFmt.ofWord_word 0x8 0x0B f)
theorem lend (f : XFmt) : Statement (.lend f) :=
  congrArg (fun x => some (Instr.lend x)) (XFmt.ofWord_word 0x8 0x0C f)
theorem astat (f : XFmt) : Statement (.astat f) :=
  congrArg (fun x => some (Instr.astat x)) (XFmt.ofWord_word 0x8 0x0E f)
theorem sample (f : GFmt) : Statement (.sample f) :=
  congrArg (fun x => some (Instr.sample x)) (GFmt.ofWord_word 0x9 0x00 f)
theorem sampleN (f : GFmt) : Statement (.sampleN f) :=
  congrArg (fun x => some (Instr.sampleN x)) (GFmt.ofWord_word 0x9 0x01 f)
theorem gather (f : GFmt) : Statement (.gather f) :=
  congrArg (fun x => some (Instr.gather x)) (GFmt.ofWord_word 0x9 0x02 f)
theorem texq (f : GFmt) : Statement (.texq f) :=
  congrArg (fun x => some (Instr.texq x)) (GFmt.ofWord_word 0x9 0x03 f)
theorem wpin (f : GFmt) : Statement (.wpin f) :=
  congrArg (fun x => some (Instr.wpin x)) (GFmt.ofWord_word 0x9 0x04 f)
theorem wunpin (f : GFmt) : Statement (.wunpin f) :=
  congrArg (fun x => some (Instr.wunpin x)) (GFmt.ofWord_word 0x9 0x05 f)
theorem winv (f : GFmt) : Statement (.winv f) :=
  congrArg (fun x => some (Instr.winv x)) (GFmt.ofWord_word 0x9 0x06 f)
theorem rng (f : GFmt) : Statement (.rng f) :=
  congrArg (fun x => some (Instr.rng x)) (GFmt.ofWord_word 0x9 0x07 f)
theorem rayPin (f : GFmt) : Statement (.rayPin f) :=
  congrArg (fun x => some (Instr.rayPin x)) (GFmt.ofWord_word 0x9 0x08 f)
theorem rayTrace (f : GFmt) : Statement (.rayTrace f) :=
  congrArg (fun x => some (Instr.rayTrace x)) (GFmt.ofWord_word 0x9 0x09 f)
theorem rayNext (f : GFmt) : Statement (.rayNext f) :=
  congrArg (fun x => some (Instr.rayNext x)) (GFmt.ofWord_word 0x9 0x0A f)
theorem rayUnpin (f : GFmt) : Statement (.rayUnpin f) :=
  congrArg (fun x => some (Instr.rayUnpin x)) (GFmt.ofWord_word 0x9 0x0B f)
theorem bvhBuild (f : GFmt) : Statement (.bvhBuild f) :=
  congrArg (fun x => some (Instr.bvhBuild x)) (GFmt.ofWord_word 0x9 0x0C f)
theorem bvhRefit (f : GFmt) : Statement (.bvhRefit f) :=
  congrArg (fun x => some (Instr.bvhRefit x)) (GFmt.ofWord_word 0x9 0x0D f)
theorem bvhBal (f : GFmt) : Statement (.bvhBal f) :=
  congrArg (fun x => some (Instr.bvhBal x)) (GFmt.ofWord_word 0x9 0x0E f)
theorem bvhPub (f : GFmt) : Statement (.bvhPub f) :=
  congrArg (fun x => some (Instr.bvhPub x)) (GFmt.ofWord_word 0x9 0x0F f)
theorem bar (f : YFmt) : Statement (.bar f) :=
  congrArg (fun x => some (Instr.bar x)) (YFmt.ofWord_word 0xA 0x00 f)
theorem barCl (f : YFmt) : Statement (.barCl f) :=
  congrArg (fun x => some (Instr.barCl x)) (YFmt.ofWord_word 0xA 0x01 f)
theorem arrive (f : YFmt) : Statement (.arrive f) :=
  congrArg (fun x => some (Instr.arrive x)) (YFmt.ofWord_word 0xA 0x02 f)
theorem waitbar (f : YFmt) : Statement (.waitbar f) :=
  congrArg (fun x => some (Instr.waitbar x)) (YFmt.ofWord_word 0xA 0x03 f)
theorem collRed (f : YFmt) : Statement (.collRed f) :=
  congrArg (fun x => some (Instr.collRed x)) (YFmt.ofWord_word 0xA 0x04 f)
theorem collGath (f : YFmt) : Statement (.collGath f) :=
  congrArg (fun x => some (Instr.collGath x)) (YFmt.ofWord_word 0xA 0x05 f)
theorem collScat (f : YFmt) : Statement (.collScat f) :=
  congrArg (fun x => some (Instr.collScat x)) (YFmt.ofWord_word 0xA 0x06 f)
theorem collBcast (f : YFmt) : Statement (.collBcast f) :=
  congrArg (fun x => some (Instr.collBcast x)) (YFmt.ofWord_word 0xA 0x07 f)
theorem collWait (f : YFmt) : Statement (.collWait f) :=
  congrArg (fun x => some (Instr.collWait x)) (YFmt.ofWord_word 0xA 0x08 f)
theorem gate (f : YFmt) : Statement (.gate f) :=
  congrArg (fun x => some (Instr.gate x)) (YFmt.ofWord_word 0xA 0x09 f)
theorem gateret (f : YFmt) : Statement (.gateret f) :=
  congrArg (fun x => some (Instr.gateret x)) (YFmt.ofWord_word 0xA 0x0A f)
theorem objGrant (f : YFmt) : Statement (.objGrant f) :=
  congrArg (fun x => some (Instr.objGrant x)) (YFmt.ofWord_word 0xA 0x0B f)
theorem nop (f : YFmt) : Statement (.nop f) :=
  congrArg (fun x => some (Instr.nop x)) (YFmt.ofWord_word 0xB 0x00 f)
theorem trap (f : YFmt) : Statement (.trap f) :=
  congrArg (fun x => some (Instr.trap x)) (YFmt.ofWord_word 0xB 0x01 f)
theorem rett (f : YFmt) : Statement (.rett f) :=
  congrArg (fun x => some (Instr.rett x)) (YFmt.ofWord_word 0xB 0x02 f)
theorem sread (f : YFmt) : Statement (.sread f) :=
  congrArg (fun x => some (Instr.sread x)) (YFmt.ofWord_word 0xB 0x03 f)
theorem swrite (f : YFmt) : Statement (.swrite f) :=
  congrArg (fun x => some (Instr.swrite x)) (YFmt.ofWord_word 0xB 0x04 f)
theorem phint (f : YFmt) : Statement (.phint f) :=
  congrArg (fun x => some (Instr.phint x)) (YFmt.ofWord_word 0xB 0x05 f)
theorem enter (f : YFmt) : Statement (.enter f) :=
  congrArg (fun x => some (Instr.enter x)) (YFmt.ofWord_word 0xB 0x06 f)
theorem leave (f : YFmt) : Statement (.leave f) :=
  congrArg (fun x => some (Instr.leave x)) (YFmt.ofWord_word 0xB 0x07 f)
theorem brk (f : YFmt) : Statement (.brk f) :=
  congrArg (fun x => some (Instr.brk x)) (YFmt.ofWord_word 0xB 0x08 f)
theorem waitClk (f : YFmt) : Statement (.waitClk f) :=
  congrArg (fun x => some (Instr.waitClk x)) (YFmt.ofWord_word 0xB 0x09 f)
theorem yield (f : YFmt) : Statement (.yield f) :=
  congrArg (fun x => some (Instr.yield x)) (YFmt.ofWord_word 0xB 0x0A f)
theorem mark (f : YFmt) : Statement (.mark f) :=
  congrArg (fun x => some (Instr.mark x)) (YFmt.ofWord_word 0xB 0x0B f)
theorem derive (f : VFmt) : Statement (.derive f) :=
  congrArg (fun x => some (Instr.derive x)) (VFmt.ofWord_word 0xC 0x00 f)
theorem narrow (f : VFmt) : Statement (.narrow f) :=
  congrArg (fun x => some (Instr.narrow x)) (VFmt.ofWord_word 0xC 0x01 f)
theorem refadd (f : VFmt) : Statement (.refadd f) :=
  congrArg (fun x => some (Instr.refadd x)) (VFmt.ofWord_word 0xC 0x02 f)
theorem refoff (f : VFmt) : Statement (.refoff f) :=
  congrArg (fun x => some (Instr.refoff x)) (VFmt.ofWord_word 0xC 0x03 f)
theorem refset (f : VFmt) : Statement (.refset f) :=
  congrArg (fun x => some (Instr.refset x)) (VFmt.ofWord_word 0xC 0x04 f)
theorem refcmp (f : VFmt) : Statement (.refcmp f) :=
  congrArg (fun x => some (Instr.refcmp x)) (VFmt.ofWord_word 0xC 0x05 f)
theorem refchk (f : VFmt) : Statement (.refchk f) :=
  congrArg (fun x => some (Instr.refchk x)) (VFmt.ofWord_word 0xC 0x06 f)
theorem objq (f : VFmt) : Statement (.objq f) :=
  congrArg (fun x => some (Instr.objq x)) (VFmt.ofWord_word 0xC 0x07 f)
theorem relayout (f : VFmt) : Statement (.relayout f) :=
  congrArg (fun x => some (Instr.relayout x)) (VFmt.ofWord_word 0xC 0x08 f)
theorem rlwait (f : VFmt) : Statement (.rlwait f) :=
  congrArg (fun x => some (Instr.rlwait x)) (VFmt.ofWord_word 0xC 0x09 f)
theorem taddr (f : VFmt) : Statement (.taddr f) :=
  congrArg (fun x => some (Instr.taddr x)) (VFmt.ofWord_word 0xC 0x0A f)
theorem tdesc (f : VFmt) : Statement (.tdesc f) :=
  congrArg (fun x => some (Instr.tdesc x)) (VFmt.ofWord_word 0xC 0x0B f)
theorem notAnInstruction (w : DWord) : Statement (.notAnInstruction w) := rfl
theorem holdLimit (wave frag : Nat) : Statement (.holdLimit wave frag) := rfl
theorem longLatencyComplete (wave : Nat) (ended : LatencyEnd) : Statement (.longLatencyComplete wave ended) := rfl
theorem storeAcknowledge (store : Nat) : Statement (.storeAcknowledge store) := rfl
theorem lateCondition (wave pend : Nat) (c : LateCause) : Statement (.lateCondition wave pend c) := rfl
theorem copyComplete (copy : Nat) : Statement (.copyComplete copy) := rfl
theorem matrixOpComplete (op : Nat) (outcome : EngineOutcome) : Statement (.matrixOpComplete op outcome) := rfl
theorem weightFillComplete (core fill : Nat) : Statement (.weightFillComplete core fill) := rfl
theorem rayTraversalEnd (wave lane : Nat) : Statement (.rayTraversalEnd wave lane) := rfl
theorem armatureOpStart (die : BitVec 2) : Statement (.armatureOpStart die) := rfl
theorem armatureOpComplete (die : BitVec 2) : Statement (.armatureOpComplete die) := rfl
theorem collectiveComplete (coll : Nat) (outcome : EngineOutcome) : Statement (.collectiveComplete coll outcome) := rfl
theorem rasterTriangle (launch : Nat) (binding : BitVec 1) : Statement (.rasterTriangle launch binding) := rfl
theorem rasterMerge (launch : Nat) (binding : BitVec 1) : Statement (.rasterMerge launch binding) := rfl
theorem migrationMove (die : BitVec 2) : Statement (.migrationMove die) := rfl
theorem granuleArrival (die : BitVec 2) (move : Nat) : Statement (.granuleArrival die move) := rfl
theorem conversionTile (conv tile : Nat) : Statement (.conversionTile conv tile) := rfl
theorem residencyTimeout (die : BitVec 2) (request : Nat) : Statement (.residencyTimeout die request) := rfl
theorem conversionWaitTimeout (conv : Nat) : Statement (.conversionWaitTimeout conv) := rfl
theorem context (die : BitVec 2) (q : BitVec 11) : Statement (.context die q) := rfl
theorem objinv (die : BitVec 2) (q : BitVec 11) : Statement (.objinv die q) := rfl
theorem signal (die : BitVec 2) (q : BitVec 11) : Statement (.signal die q) := rfl
theorem wait (die : BitVec 2) (q : BitVec 11) : Statement (.wait die q) := rfl
theorem launch (die : BitVec 2) (q : BitVec 11) : Statement (.launch die q) := rfl
theorem nopPacket (die : BitVec 2) (q : BitVec 11) : Statement (.nopPacket die q) := rfl
theorem queueDoorbell (off : BitVec 26) (bytes : Nat) (wptr : DWord) : Statement (.queueDoorbell off bytes wptr) := rfl
theorem queueRestart (die : BitVec 2) (w : BitVec 5) (bits : DWord) : Statement (.queueRestart die w bits) := rfl
theorem launchReplica (from_ : BitVec 6) (ctx : BitVec 12) (dom : BitVec 16) (packet : List Byte) : Statement (.launchReplica from_ ctx dom packet) := rfl
theorem startArrival (from_ : BitVec 6) (g : Word) : Statement (.startArrival from_ g) := rfl
theorem launchRejectionStamped (from_ : BitVec 6) (g : Word) : Statement (.launchRejectionStamped from_ g) := rfl
theorem startTimeout (launch : Nat) : Statement (.startTimeout launch) := rfl
theorem arrivalExpiry (from_ : BitVec 6) (g : Word) : Statement (.arrivalExpiry from_ g) := rfl
theorem packageEndReport (from_ : BitVec 6) (g : Word) : Statement (.packageEndReport from_ g) := rfl
theorem clusterPlacement (launch : Nat) : Statement (.clusterPlacement launch) := rfl
theorem sliceEnd (core : Nat) (ctx : BitVec 12) : Statement (.sliceEnd core ctx) := rfl
theorem preemptStepPhase (wg : Nat) : Statement (.preemptStepPhase wg) := rfl
theorem stepPhaseTimeout (wg : Nat) : Statement (.stepPhaseTimeout wg) := rfl
theorem workgroupSave (wg : Nat) : Statement (.workgroupSave wg) := rfl
theorem workgroupRestore (wg : Nat) : Statement (.workgroupRestore wg) := rfl
theorem waitClkExpiry (wave frag : Nat) : Statement (.waitClkExpiry wave frag) := rfl
theorem haltComplete (wave : Nat) : Statement (.haltComplete wave) := rfl
theorem debugSessionOpen (n : BitVec 3) (value : DWord) : Statement (.debugSessionOpen n value) := rfl
theorem debugSessionClose (n : BitVec 3) : Statement (.debugSessionClose n) := rfl
theorem debugHalt (n : BitVec 3) : Statement (.debugHalt n) := rfl
theorem debugResume (n : BitVec 3) : Statement (.debugResume n) := rfl
theorem dbgdataRead (n : BitVec 3) : Statement (.dbgdataRead n) := rfl
theorem dbgdataWrite (n : BitVec 3) (value : DWord) : Statement (.dbgdataWrite n value) := rfl
theorem islandWrite (i : BitVec 6) (value : DWord) : Statement (.islandWrite i value) := rfl
theorem frequencyChangeEnd (i : BitVec 6) : Statement (.frequencyChangeEnd i) := rfl
theorem registerWrite (offset : BitVec 16) (value : DWord) : Statement (.registerWrite offset value) := rfl
theorem identify : Statement .identify := rfl
theorem fwwrite : Statement .fwwrite := rfl
theorem fwactivate : Statement .fwactivate := rfl
theorem status : Statement .status := rfl
theorem powerOnReset : Statement .powerOnReset := rfl
theorem getVersion : Statement .getVersion := rfl
theorem getCapabilities : Statement .getCapabilities := rfl
theorem negotiateAlgorithms (ecdsaP256 sha256 : Bool) : Statement (.negotiateAlgorithms ecdsaP256 sha256) := rfl
theorem getDigests : Statement .getDigests := rfl
theorem getCertificate (offset length : BitVec 16) : Statement (.getCertificate offset length) := rfl
theorem challenge (nonce : List Byte) : Statement (.challenge nonce) := rfl
theorem getMeasurements (index : BitVec 8) : Statement (.getMeasurements index) := rfl
theorem firmwareRemeasure : Statement .firmwareRemeasure := rfl
theorem securityAlarm (sources : BitVec 8) : Statement (.securityAlarm sources) := rfl
theorem thermalThrottle (temp : BitVec 8) (islands : List (BitVec 6 × BitVec 8)) : Statement (.thermalThrottle temp islands) := rfl
theorem thermalTrip (temp : BitVec 8) : Statement (.thermalTrip temp) := rfl
theorem hostMemAccess (addr : Nat) (a : HostAccess) : Statement (.hostMemAccess addr a) := rfl
theorem hostCacheSnoop (pasid : BitVec 20) (iova : Nat) (bytes : List Byte) : Statement (.hostCacheSnoop pasid iova bytes) := rfl
theorem atsInvalidation (pasid : BitVec 20) (granule : Nat) : Statement (.atsInvalidation pasid granule) := rfl
theorem expanderLinkLoss (d : BitVec 2) : Statement (.expanderLinkLoss d) := rfl
theorem scrubPass (die : BitVec 2) (corrected : List (Nat × Nat)) (found : ScrubFindings) : Statement (.scrubPass die corrected found) := rfl
theorem skewMeasurement (pkg : Bool) (index : BitVec 6) (off : BitVec 48) (unc : BitVec 15) : Statement (.skewMeasurement pkg index off unc) := rfl
theorem flitData (port : BitVec 6) (bytes : List Byte) : Statement (.flitData port bytes) := rfl
theorem flitIdle (port : BitVec 6) (bytes : List Byte) : Statement (.flitIdle port bytes) := rfl
theorem flitAcknowledge (port : BitVec 6) (bytes : List Byte) : Statement (.flitAcknowledge port bytes) := rfl
theorem flitReplayRequest (port : BitVec 6) (bytes : List Byte) : Statement (.flitReplayRequest port bytes) := rfl
theorem portRetrain (port : BitVec 6) : Statement (.portRetrain port) := rfl
theorem portTrainingEnd (port : BitVec 6) (lanes : BitVec 3) (peer : BitVec 6) : Statement (.portTrainingEnd port lanes peer) := rfl
theorem packageLoss (pkg : BitVec 6) : Statement (.packageLoss pkg) := rfl
theorem packageLossReport (pkg : BitVec 6) : Statement (.packageLossReport pkg) := rfl
theorem transportDoorbell (off : BitVec 26) (bytes : Nat) (value : DWord) : Statement (.transportDoorbell off bytes value) := rfl
theorem wrWrite (die : BitVec 2) (c : BitVec 10) : Statement (.wrWrite die c) := rfl
theorem wrRead (die : BitVec 2) (c : BitVec 10) : Statement (.wrRead die c) := rfl
theorem wrSend (die : BitVec 2) (c : BitVec 10) : Statement (.wrSend die c) := rfl
theorem frameWrite (die : BitVec 2) (bytes : List Byte) : Statement (.frameWrite die bytes) := rfl
theorem frameReadRequest (die : BitVec 2) (bytes : List Byte) : Statement (.frameReadRequest die bytes) := rfl
theorem frameReadResponse (die : BitVec 2) (bytes : List Byte) : Statement (.frameReadResponse die bytes) := rfl
theorem frameSend (die : BitVec 2) (bytes : List Byte) : Statement (.frameSend die bytes) := rfl
theorem frameAck (die : BitVec 2) (bytes : List Byte) : Statement (.frameAck die bytes) := rfl
theorem frameNak (die : BitVec 2) (bytes : List Byte) : Statement (.frameNak die bytes) := rfl
theorem transportRetransmit (die : BitVec 2) (c : BitVec 10) : Statement (.transportRetransmit die c) := rfl
theorem completionRecordWrite (die : BitVec 2) (c : BitVec 10) : Statement (.completionRecordWrite die c) := rfl
theorem ethernetLinkChange (die : BitVec 2) (up : Bool) : Statement (.ethernetLinkChange die up) := rfl
theorem thermalLimitRelease (temp : BitVec 8) : Statement (.thermalLimitRelease temp) := rfl

end Sys2Proof.Laws.Encoding

open Sys2Proof in
theorem Sys2Proof.Laws.Encoding.recall (f : XFmt) : Sys2Proof.Laws.Encoding.Statement (.recall f) :=
  congrArg (fun x => some (Instr.recall x)) (XFmt.ofWord_word 0x8 0x0D f)
end

