-- ==== Sys2Proof/Laws/Regs.lean ====
section
/-!
SUPPORT. Registers: a register reads as last written, register writes change the registers that they name alone, and no
other field of the wave.
-/

namespace Sys2Proof.Machine

/-! ## One write -/

theorem Wave.setV_vreg (w : Wave) (n l m j : Nat) (x : Word) (hl : l < 96) (hj : j < 96) :
    (w.setV n l x).vreg m j = if m = n ∧ j = l then x else w.vreg m j := by
  simp only [Wave.setV, Wave.vreg, SMap.get_set]
  by_cases h : m = n ∧ j = l
  · rw [if_pos h, if_pos (by rw [h.1, h.2])]
  · rw [if_neg h, if_neg (by omega)]

theorem Wave.setX_xreg (w : Wave) (n l m j : Nat) (x : BitVec 16) (hl : l < 96) (hj : j < 96) :
    (w.setX n l x).xreg m j = if m = n ∧ j = l then x else w.xreg m j := by
  simp only [Wave.setX, Wave.xreg, SMap.get_set]
  by_cases h : m = n ∧ j = l
  · rw [if_pos h, if_pos (by rw [h.1, h.2])]
  · rw [if_neg h, if_neg (by omega)]

theorem Wave.setS_sreg (w : Wave) (n m : Nat) (x : Word) : (w.setS n x).sreg m = if m = n then x else w.sreg m := by
  simp only [Wave.setS, Wave.sreg, SMap.get_set]

/-- A write to k0 is discarded, and k0 reads as all ones (R51). -/
theorem Wave.setK_kreg (w : Wave) (n m : Nat) (x : LaneMask) :
    (w.setK n x).kreg m = if m = n ∧ n ≠ 0 then x else w.kreg m := by
  unfold Wave.setK
  by_cases hn : n = 0
  · simp [hn]
  · simp only [hn, if_false, Wave.kreg]
    by_cases hm : m = n
    · subst hm; simp [hn]
    · simp only [hm, false_and, if_false]
      by_cases h0 : m = 0
      · simp [h0]
      · simp only [h0, if_false, SMap.get_set, if_neg hm]

/-! ## What register writes leave as it was -/

/-- A write keeps a part of the wave that the four setters keep. -/
theorem Wave.applyAll_keeps {α : Type} (g : Wave → α) (hv : ∀ w n l x, g (Wave.setV w n l x) = g w)
    (hs : ∀ w n x, g (Wave.setS w n x) = g w) (hk : ∀ w n m, g (Wave.setK w n m) = g w)
    (hx : ∀ w n l x, g (Wave.setX w n l x) = g w) (w : Wave) (ws : List RegWrite) : g (w.applyAll ws) = g w := by
  unfold Wave.applyAll
  induction ws generalizing w with
  | nil => rfl
  | cons a r ih =>
    rw [List.foldl_cons, ih]
    cases a with
    | v n l x => exact hv w n l x
    | s n x => exact hs w n x
    | k n l b => exact hk w n _
    | x n l x => exact hx w n l x

theorem Wave.setK_keeps {α : Type} (g : Wave → α) (hg : ∀ (w : Wave) k, g { w with k := k } = g w) (w : Wave) (n : Nat)
    (m : LaneMask) : g (w.setK n m) = g w := by
  unfold Wave.setK; split
  · rfl
  · exact hg w _

@[simp] theorem Wave.applyAll_tiles (w : Wave) (ws : List RegWrite) : (w.applyAll ws).tiles = w.tiles :=
  Wave.applyAll_keeps Wave.tiles (fun _ _ _ _ => rfl) (fun _ _ _ => rfl) (Wave.setK_keeps _ fun _ _ => rfl)
    (fun _ _ _ _ => rfl) w ws
@[simp] theorem Wave.applyAll_mode (w : Wave) (ws : List RegWrite) : (w.applyAll ws).mode = w.mode :=
  Wave.applyAll_keeps Wave.mode (fun _ _ _ _ => rfl) (fun _ _ _ => rfl) (Wave.setK_keeps _ fun _ _ => rfl)
    (fun _ _ _ _ => rfl) w ws
@[simp] theorem Wave.applyAll_status (w : Wave) (ws : List RegWrite) : (w.applyAll ws).status = w.status :=
  Wave.applyAll_keeps Wave.status (fun _ _ _ _ => rfl) (fun _ _ _ => rfl) (Wave.setK_keeps _ fun _ _ => rfl)
    (fun _ _ _ _ => rfl) w ws
@[simp] theorem Wave.applyAll_tvec (w : Wave) (ws : List RegWrite) : (w.applyAll ws).tvec = w.tvec :=
  Wave.applyAll_keeps Wave.tvec (fun _ _ _ _ => rfl) (fun _ _ _ => rfl) (Wave.setK_keeps _ fun _ _ => rfl)
    (fun _ _ _ _ => rfl) w ws
@[simp] theorem Wave.applyAll_tsave (w : Wave) (ws : List RegWrite) : (w.applyAll ws).tsave = w.tsave :=
  Wave.applyAll_keeps Wave.tsave (fun _ _ _ _ => rfl) (fun _ _ _ => rfl) (Wave.setK_keeps _ fun _ _ => rfl)
    (fun _ _ _ _ => rfl) w ws
@[simp] theorem Wave.applyAll_gates (w : Wave) (ws : List RegWrite) : (w.applyAll ws).gates = w.gates :=
  Wave.applyAll_keeps Wave.gates (fun _ _ _ _ => rfl) (fun _ _ _ => rfl) (Wave.setK_keeps _ fun _ _ => rfl)
    (fun _ _ _ _ => rfl) w ws
@[simp] theorem Wave.applyAll_regions (w : Wave) (ws : List RegWrite) : (w.applyAll ws).regions = w.regions :=
  Wave.applyAll_keeps Wave.regions (fun _ _ _ _ => rfl) (fun _ _ _ => rfl) (Wave.setK_keeps _ fun _ _ => rfl)
    (fun _ _ _ _ => rfl) w ws
@[simp] theorem Wave.applyAll_claim (w : Wave) (ws : List RegWrite) : (w.applyAll ws).claim = w.claim :=
  Wave.applyAll_keeps Wave.claim (fun _ _ _ _ => rfl) (fun _ _ _ => rfl) (Wave.setK_keeps _ fun _ _ => rfl)
    (fun _ _ _ _ => rfl) w ws

/-- A vector register that no write names in a lane keeps its value there. -/
theorem Wave.applyAll_vreg (w : Wave) (ws : List RegWrite) (m j : Nat) (hj : j < 96)
    (h : ∀ n l x, RegWrite.v n l x ∈ ws → l < 96 ∧ (m ≠ n ∨ j ≠ l)) : (w.applyAll ws).vreg m j = w.vreg m j := by
  unfold Wave.applyAll
  induction ws generalizing w with
  | nil => rfl
  | cons a r ih =>
    rw [List.foldl_cons, ih _ fun n l x hx => h n l x (List.mem_cons_of_mem _ hx)]
    cases a with
    | v n l x =>
      obtain ⟨h1, h2⟩ := h n l x (List.mem_cons_self ..)
      rw [Wave.apply, Wave.setV_vreg _ _ _ _ _ _ h1 hj, if_neg (by omega)]
    | s n x => rfl
    | k n l b => exact Wave.setK_keeps (fun w => w.vreg m j) (fun _ _ => rfl) w n _
    | x n l x => rfl

/-- A scalar register that no write names keeps its value. -/
theorem Wave.applyAll_sreg (w : Wave) (ws : List RegWrite) (m : Nat) (h : ∀ n x, RegWrite.s n x ∈ ws → m ≠ n) :
    (w.applyAll ws).sreg m = w.sreg m := by
  unfold Wave.applyAll
  induction ws generalizing w with
  | nil => rfl
  | cons a r ih =>
    rw [List.foldl_cons, ih _ fun n x hx => h n x (List.mem_cons_of_mem _ hx)]
    cases a with
    | v n l x => rfl
    | s n x => rw [Wave.apply, Wave.setS_sreg, if_neg (h n x (List.mem_cons_self ..))]
    | k n l b => exact Wave.setK_keeps (fun w => w.sreg m) (fun _ _ => rfl) w n _
    | x n l x => rfl

end Sys2Proof.Machine
end

