-- ==== Sys2Proof/Tests/Slice0.lean ====
section
/-!
SUPPORT. The model's own tests: words that the spec prints, ill-formed terms that the checks refuse, and for every statement a
state and operands that meet its hypotheses. The wave of the test state has two live lanes, in slice 0.
-/

namespace Sys2Proof.Tests

set_option Elab.async false

open Sys2Proof Sys2Proof.Machine

/-! ## Short forms -/

def vf (d a b c : Operand) (ty : Ty := .z32) (rnd : BitVec 3 := 0) : VFmt := ⟨d, a, b, c, 0, false, ty, rnd, false, 0, none⟩
def mf (data ref index : Operand) (imm : BitVec 9 := 0) (size : BitVec 3 := 2) (scope : BitVec 3 := 0) (order : BitVec 2 := 0) : MFmt :=
  ⟨data, ref, index, imm, 0, false, size, scope, order, 0, none⟩
def cf (offset : BitVec 24) (cond : Operand := .none) (kind : BitVec 3 := 0) : CFmt := ⟨offset, cond, kind, 0, false, 0, 0, none⟩
def xf (tile : BitVec 4) (abase bbase sop : Operand) (shape : BitVec 5) (ity : Ty) (mode : BitVec 4 := 0) : XFmt :=
  ⟨tile, abase, bbase, sop, shape, 0, false, ity, mode, 0, none⟩
def gf (d c h x : Operand) (ctl : BitVec 8 := 0) : GFmt := ⟨d, c, h, x, 0, false, ctl, 0, none⟩
def yf (imm : BitVec 36) (ext : Option DWord := none) : YFmt := ⟨imm, 0, false, 0, 0, ext⟩
/-- The immediate of layouts Y1 and Y2: the operands' specifiers above the rest. -/
def y1 (o : Operand) (imm : BitVec 27) : BitVec 36 := o.bits ++ imm
def y2 (o p : Operand) (imm : BitVec 18) : BitVec 36 := o.bits ++ p.bits ++ imm

/-! ## A small machine -/

/-- The nonzero bytes of a number from an address on. -/
def cellsOf : Nat → Nat → Nat → List Host.Cell → List Host.Cell
  | 0, _, _, r => r
  | n + 1, a, x, r => if x % 256 = 0 then cellsOf n (a + 1) (x / 256) r else (a, BitVec.ofNat 8 x) :: cellsOf n (a + 1) (x / 256) r

/-- A memory that holds 64-bit words, the later of two at one address, and nothing else. -/
def memoryOf (ws : List (Nat × DWord)) : List Host.Cell :=
  (ws.foldl (fun (m : SMap DWord) x => m.insert x.1 x.2) []).foldr (fun x r => cellsOf 8 x.1 x.2.toNat r) []

/-- Object n of domain 0: its entry, and an extent map with one granule. -/
def object (n kind len : Nat) (granule : DWord := mkGranule 0 true false (0x20 + n)) : List (Nat × DWord) :=
  let a := 0x2000 + 32 * n
  let root := 0x10000 + 0x1000 * n
  [(a, BitVec.ofNat 64 (kind * 2 ^ 60 + 31 * 2 ^ 55 + len)), (a + 8, BitVec.ofNat 64 root), (a + 16, BitVec.ofNat 64 (0x8000 + 0x100 * n)),
    (a + 24, 0x8000000000000000#64), (root, BitVec.ofNat 64 (2 ^ 63 + root + 0x100000)), (root + 0x100000, granule)]

/-- Where object n's bytes lie. -/
def home (n : Nat) : Nat := (0x20 + n) * 65536

/-- Reset, with a domain that has the objects 1 code, 2 data, 3 tensor (f16, 64 by 64, row-major), 8 save area, 9 data whose granule is
absent. -/
def world : State :=
  { State.reset with
    bar0 := [(0x0008, 0x1000#64)]
    mem := memoryOf ([(0x1000, 0x8000000000002000#64), (0x1008, 64#64)] ++ object 1 2 0x100 ++ object 2 0 0x1000 ++ object 3 1 0x2000 ++
      object 8 8 0x10000 ++ object 9 0 0x1000 0 ++
      [(0x8300, 0x0000000000000062#64), (0x8308, 0x0000004000000040#64), (0x8310, 0x0000000100000001#64)]) }

def turned (s : State) : State :=
  match s.nextTurn with
  | .run _ t => t
  | .moved t => t

def exitWord : DWord := (Instr.exit (cf 0)).word
def header (len : Nat) : DWord := BitVec.ofNat 64 (15 * 2 ^ 60 + len * 2 ^ 50)

/-- A reference to object n with every right. -/
def refTo (n : Nat) : DWord := mkRef n 15 0

/-- Two lanes at word 1 of the code, before instruction i; a pair of scalar registers for each object n, from s(2n) on; v1 and s1 hold 3. -/
def prepare (s : State) (code : List DWord) : State :=
  { s with
    waves := s.waves.map fun x => (x.1,
      let w := [1, 2, 3, 8, 9].foldl (fun (w : Wave) n => (w.setS (2 * n) (lowWord (refTo n))).setS (2 * n + 1) (highWord (refTo n)))
        ((((x.2.setS 1 3).setV 1 0 3).setV 1 1 3))
      { w with live := 3, pcs := [(0, 1), (1, 1)], frags := x.2.frags.map fun f => { f with slices := 1 }, tvec := refTo 1, tsave := refTo 8 }),
    launches := s.launches.map fun x => (x.1, { x.2 with codeWords := [(0, 1, code)] }) }

/-- The state in which exec runs instruction i, an EXIT after it in its block. -/
def placed (i : Instr) : State :=
  prepare (turned (world.placeWords i.word i.ext)) ([header (3 + i.ext.toList.length), i.word] ++ i.ext.toList ++ [exitWord])

/-- The state in which exec runs instruction i, the last of its block, a second block after it. -/
def placedLast (i : Instr) : State :=
  prepare (turned (world.placeWords i.word i.ext)) ([header (2 + i.ext.toList.length), i.word] ++ i.ext.toList ++ [header 2, exitWord])

/-- The wave of the test state. -/
def wave (s : State) : Wave := (s.waves.find? 0).getD ((Launch.holding 0 none).wave 0 ((Launch.holding 0 none).workgroup 0 0 0 0 0) 0 0 0)
def withWave (s : State) (f : Wave → Wave) : State := s.modWave 0 f
def withLaunch (s : State) (f : Launch → Launch) : State := { s with launches := s.launches.map fun x => (x.1, f x.2) }
def withGroup (s : State) (f : Workgroup → Workgroup) : State := { s with workgroups := s.workgroups.map fun x => (x.1, f x.2) }

/-! ## The hypotheses of the statements -/

def issuesIn (s : State) (i : Instr) : Bool :=
  match s.env i with
  | some e => s.admits e i
  | none => false

def runsIn (s : State) (i : Instr) : Bool :=
  match s.env i with
  | some e => s.admits e i && s.flows e i
  | none => false

/-- Hypotheses on the environment besides. -/
def issuesWith (s : State) (i : Instr) (p : Env → Bool) : Bool :=
  match s.env i with
  | some e => s.admits e i && p e
  | none => false

def runsWith (s : State) (i : Instr) (p : Env → Bool) : Bool :=
  match s.env i with
  | some e => s.admits e i && s.flows e i && p e
  | none => false

theorem issues_of {s : State} {i : Instr} (h : issuesIn s i = true) : ∃ e, s.Issues e i := by
  unfold issuesIn at h; split at h
  · exact ⟨_, ‹_›, h⟩
  · cases h

theorem runs_of {s : State} {i : Instr} (h : runsIn s i = true) : ∃ e, s.Runs e i := by
  unfold runsIn at h; split at h
  · exact ⟨_, ‹_›, (Bool.and_eq_true _ _ ▸ h).1, (Bool.and_eq_true _ _ ▸ h).2⟩
  · cases h

/-- Each instruction runs where it is placed. -/
def allRun (is : List Instr) : Bool := is.all fun i => runsIn (placed i) i

/-- exec answers a next state, with what is asked of it. -/
def gives (o : Host.Outcome State Fault Refusal) (p : State → Bool) : Bool :=
  match o with
  | .next t => p t
  | _ => false

/-- The instruction runs to its end: no trap, nothing pending, both lanes at the next word. -/
def completes (s : State) (i : Instr) : Bool :=
  issuesIn s i && gives (exec i s) fun t => (wave t).tl == 0 && (wave t).pend.isEmpty &&
    (wave t).pc 0 == BitVec.ofNat 39 (1 + Instr.words i) && (wave t).pc 1 == BitVec.ofNat 39 (1 + Instr.words i)
/-- It traps with a cause. -/
def trapsWith (s : State) (i : Instr) (c : Nat) : Bool :=
  issuesIn s i && gives (exec i s) fun t => (wave t).tl == 1 && (wave t).bank1.cause.toNat % 256 == c
/-- It waits where it is. -/
def holds (s : State) (i : Instr) : Bool :=
  issuesIn s i && gives (exec i s) fun t => (wave t).tl == 0 && (wave t).pc 0 == 1 && (wave t).frags.any fun f => f.wait != .none

def okay {ε α : Type} (x : Except ε α) (p : α → Bool) : Bool :=
  match x with
  | .ok a => p a
  | .error _ => false

/-! ## Decoding: a word for every constructor, its class and opcode as R109 lists them, its fields written out -/

/-- Formats V, M, C, X, G and Y (R98 to R103), the fields from bit 51 down. -/
def vBits : BitVec 52 := 0x001#9 ++ 0x102#9 ++ 0x1C3#9 ++ 0x181#9 ++ 5#3 ++ 1#1 ++ 2#4 ++ 3#3 ++ 1#1 ++ 4#4
def vFields : VFmt := ⟨.v 1, .s 2, .int 3, .k 1, 5, true, .f32, 3, true, 4, none⟩
def mBits : BitVec 52 := 0x001#9 ++ 0x102#9 ++ 0x18A#9 ++ 0x0AB#9 ++ 5#3 ++ 1#1 ++ 6#3 ++ 3#3 ++ 2#2 ++ 9#4
def mFields : MFmt := ⟨.v 1, .s 2, .x 2, 0xAB, 5, true, 6, 3, 2, 9, none⟩
def cBits : BitVec 52 := 0x123456#24 ++ 0x104#9 ++ 3#3 ++ 5#3 ++ 1#1 ++ 0xA5#8 ++ 7#4
def cFields : CFmt := ⟨0x123456, .s 4, 3, 5, true, 0xA5, 7, none⟩
def xBits : BitVec 52 := 0xB#4 ++ 0x001#9 ++ 0x102#9 ++ 0x1FE#9 ++ 0x15#5 ++ 5#3 ++ 1#1 ++ 4#4 ++ 6#4 ++ 2#4
def xFields : XFmt := ⟨0xB, .v 1, .s 2, .none, 0x15, 5, true, .bf16, 6, 2, none⟩
def gBits : BitVec 52 := 0x001#9 ++ 0x102#9 ++ 0x1F0#9 ++ 0x1EF#9 ++ 5#3 ++ 1#1 ++ 0xC3#8 ++ 6#4
def gFields : GFmt := ⟨.v 1, .s 2, .flt 0, .neg 15, 5, true, 0xC3, 6, none⟩
def yBits : BitVec 52 := 0x9ABCDEF01#36 ++ 5#3 ++ 1#1 ++ 0x5A#8 ++ 3#4
def yFields : YFmt := ⟨0x9ABCDEF01, 5, true, 0x5A, 3, none⟩

/-- Each opcode of a class decodes to its instruction; PHINT has its extension word always. -/
def decodes (cls : BitVec 4) (body : BitVec 52) (rows : List (BitVec 8 × Instr)) : Bool :=
  rows.all fun x => decide (decodeWord (cls ++ x.1 ++ body) 0 = x.2)

theorem decodes_class0 : decodes 0x0 vBits [
    (0x00, .uadd vFields), (0x01, .uaddc vFields), (0x02, .usub vFields), (0x03, .usubb vFields), (0x04, .umul vFields),
    (0x05, .umulhi vFields), (0x06, .umulw vFields), (0x07, .udiv vFields), (0x08, .urem vFields), (0x09, .umin vFields),
    (0x0A, .umax vFields), (0x0B, .uand vFields), (0x0C, .uor vFields), (0x0D, .uxor vFields), (0x0E, .unot vFields),
    (0x0F, .ushl vFields), (0x10, .ushr vFields), (0x11, .usar vFields), (0x12, .ubfe vFields), (0x13, .ubfi vFields),
    (0x14, .upopc vFields), (0x15, .uclz vFields), (0x16, .ucmp vFields), (0x17, .usel vFields), (0x18, .umov vFields)] = true := by decide +kernel
theorem decodes_class1 : decodes 0x1 vBits [
    (0x00, .add vFields), (0x01, .addc vFields), (0x02, .sub vFields), (0x03, .subb vFields), (0x04, .mul vFields),
    (0x05, .mulhi vFields), (0x06, .mulw vFields), (0x07, .mad vFields), (0x08, .div vFields), (0x09, .rem vFields),
    (0x0A, .min vFields), (0x0B, .max vFields), (0x0C, .abs vFields), (0x0D, .and vFields), (0x0E, .or vFields), (0x0F, .xor vFields),
    (0x10, .not vFields), (0x11, .shl vFields), (0x12, .shr vFields), (0x13, .sar vFields), (0x14, .bfe vFields), (0x15, .bfi vFields),
    (0x16, .brev vFields), (0x17, .popc vFields), (0x18, .clz vFields), (0x19, .cmp vFields), (0x1A, .sel vFields), (0x1B, .mov vFields),
    (0x1C, .movx vFields), (0x1D, .movxs vFields)] = true := by decide +kernel
theorem decodes_class2 : decodes 0x2 vBits [
    (0x00, .fadd vFields), (0x01, .fsub vFields), (0x02, .fmul vFields), (0x03, .ffma vFields), (0x04, .fmin vFields),
    (0x05, .fmax vFields), (0x06, .fabs vFields), (0x07, .fneg vFields), (0x08, .fcmp vFields), (0x09, .fclass vFields),
    (0x0A, .frcp vFields), (0x0B, .frsq vFields), (0x0C, .fsqrt vFields), (0x0D, .fdiv vFields), (0x0E, .fexp2 vFields),
    (0x0F, .flog2 vFields), (0x10, .fsin vFields), (0x11, .fcos vFields), (0x12, .ftanh vFields), (0x13, .ffloor vFields),
    (0x14, .fceil vFields), (0x15, .ftrunc vFields), (0x16, .frint vFields), (0x17, .ffrac vFields), (0x18, .fldexp vFields),
    (0x19, .fexpo vFields), (0x1A, .fmant vFields), (0x1B, .fmed3 vFields), (0x1C, .fdot2 vFields), (0x1D, .fdot4 vFields)] = true := by decide +kernel
theorem decodes_class3 : decodes 0x3 vBits [
    (0x00, .cvt vFields), (0x01, .cvtmx vFields), (0x02, .pack vFields), (0x03, .unpack vFields), (0x04, .bperm vFields),
    (0x05, .shfl vFields), (0x06, .shflup vFields), (0x07, .shfldn vFields), (0x08, .shflx vFields), (0x09, .voteany vFields),
    (0x0A, .voteall vFields), (0x0B, .voteeq vFields), (0x0C, .ballot vFields), (0x0D, .scan vFields), (0x0E, .scanx vFields),
    (0x0F, .reduce vFields), (0x10, .compact vFields), (0x11, .expand vFields), (0x12, .rdfirst vFields), (0x13, .mxscale vFields)] = true := by decide +kernel
theorem decodes_class4C : decodes 0x4 cBits [
    (0x00, .bra cFields), (0x01, .brp cFields), (0x02, .bru cFields), (0x03, .call cFields), (0x04, .calli cFields),
    (0x05, .ret cFields), (0x06, .jmpi cFields), (0x07, .exit cFields), (0x08, .regang cFields)] = true := by decide +kernel
theorem decodes_class4V : decodes 0x4 vBits [
    (0x10, .pand vFields), (0x11, .por vFields), (0x12, .pxor vFields), (0x13, .pandn vFields), (0x14, .pnot vFields),
    (0x15, .pmov vFields)] = true := by decide +kernel
theorem decodes_class5 : decodes 0x5 mBits [
    (0x00, .ld mFields), (0x01, .st mFields), (0x02, .lds mFields), (0x03, .sts mFields), (0x04, .ldsr mFields), (0x05, .stsr mFields),
    (0x06, .sld mFields), (0x07, .sst mFields), (0x08, .tld mFields), (0x09, .tst mFields), (0x0A, .pref mFields),
    (0x0B, .evict mFields), (0x0C, .fence mFields), (0x0D, .sqpush mFields), (0x0E, .sqpop mFields)] = true := by decide +kernel
theorem decodes_class6 : decodes 0x6 mBits [
    (0x00, .aadd mFields), (0x01, .afadd mFields), (0x02, .amin mFields), (0x03, .amax mFields), (0x04, .aand mFields),
    (0x05, .aor mFields), (0x06, .axor mFields), (0x07, .axchg mFields), (0x08, .acas mFields), (0x09, .atile mFields)] = true := by decide +kernel
theorem decodes_class7M : decodes 0x7 mBits [
    (0x00, .copy mFields), (0x01, .copyin mFields), (0x02, .copyout mFields), (0x03, .copyt mFields)] = true := by decide +kernel
theorem decodes_class7Y : decodes 0x7 yBits [
    (0x08, .batch yFields), (0x09, .waitb yFields), (0x0A, .waitbn yFields), (0x0B, .bquery yFields)] = true := by decide +kernel
theorem decodes_class8 : decodes 0x8 xBits [
    (0x00, .mma xFields), (0x01, .mmaGrp xFields), (0x02, .mmaLut xFields), (0x03, .mmaSa xFields), (0x04, .lutb xFields),
    (0x05, .bload xFields), (0x06, .aclr xFields), (0x07, .amovr xFields), (0x08, .amovw xFields), (0x09, .ascale xFields),
    (0x0A, .drain xFields), (0x0B, .drainAdd xFields), (0x0C, .lend xFields), (0x0D, .recall xFields), (0x0E, .astat xFields)] = true := by decide +kernel
theorem decodes_class9 : decodes 0x9 gBits [
    (0x00, .sample gFields), (0x01, .sampleN gFields), (0x02, .gather gFields), (0x03, .texq gFields), (0x04, .wpin gFields),
    (0x05, .wunpin gFields), (0x06, .winv gFields), (0x07, .rng gFields), (0x08, .rayPin gFields), (0x09, .rayTrace gFields),
    (0x0A, .rayNext gFields), (0x0B, .rayUnpin gFields), (0x0C, .bvhBuild gFields), (0x0D, .bvhRefit gFields), (0x0E, .bvhBal gFields),
    (0x0F, .bvhPub gFields)] = true := by decide +kernel
theorem decodes_classA : decodes 0xA yBits [
    (0x00, .bar yFields), (0x01, .barCl yFields), (0x02, .arrive yFields), (0x03, .waitbar yFields), (0x04, .collRed yFields),
    (0x05, .collGath yFields), (0x06, .collScat yFields), (0x07, .collBcast yFields), (0x08, .collWait yFields), (0x09, .gate yFields),
    (0x0A, .gateret yFields), (0x0B, .objGrant yFields)] = true := by decide +kernel
theorem decodes_classB : decodes 0xB yBits [
    (0x00, .nop yFields), (0x01, .trap yFields), (0x02, .rett yFields), (0x03, .sread yFields), (0x04, .swrite yFields),
    (0x05, .phint { yFields with ext := some 0 }), (0x06, .enter yFields), (0x07, .leave yFields), (0x08, .brk yFields), (0x09, .waitClk yFields),
    (0x0A, .yield yFields), (0x0B, .mark yFields)] = true := by decide +kernel
theorem decodes_classC : decodes 0xC vBits [
    (0x00, .derive vFields), (0x01, .narrow vFields), (0x02, .refadd vFields), (0x03, .refoff vFields), (0x04, .refset vFields),
    (0x05, .refcmp vFields), (0x06, .refchk vFields), (0x07, .objq vFields), (0x08, .relayout vFields), (0x09, .rlwait vFields),
    (0x0A, .taddr vFields), (0x0B, .tdesc vFields)] = true := by decide +kernel

/-- Words that the spec prints, of each family, with what they stand for (R111, R122, R126, R142, R153 to R157, R168, R194, R198, R211, R241, R279,
R303, R315, R322, R326, R337, R420). -/
theorem test_printed_words :
    decodeWord 0x11C0104391890100 0 = .movx (vf (.v 2) (.v 16) (.int 8) (.x 1)) ∧
    decodeWord 0x11B0171FFDFE0100 0 = .mov (vf (.v 2) (.int 7) .none .none) ∧
    decodeWord 0x11BC482BFDFE4000 0 = .mov { vf (.x 1) (.v 10) .none .none .s32 with pred := 2 } ∧
    decodeWord 0x1080180405FE0000 0 = .div (vf (.v 3) (.v 1) (.v 2) .none .s32) ∧
    decodeWord 0x20302007E1FF0200 0x3E800000 = .ffma { vf (.v 4) (.v 1) (.flt 0) .lit .f32 with ext := some 0x3E800000 } ∧
    decodeWord 0x2030202224040300 0 = .ffma (vf (.v 4) (.v 8) (.s 18) (.v 4) .f16) ∧
    decodeWord 0x3050300807C00100 0 = .shfl (vf (.v 6) (.v 2) (.v 3) (.int 0)) ∧
    decodeWord 0x401000004C080000 0 = .brp (cf 4 (.k 1)) ∧
    decodeWord 0x402FFFFFD8700000 0 = .bru (cf (-3) (.s 14)) ∧
    decodeWord 0x4030000140500000 0 = .call (cf 20 (.v 10)) ∧
    decodeWord 0x4050000000500000 0 = .ret (cf 0 (.v 10)) ∧
    decodeWord 0x40600000CFF00000 0 = .jmpi (cf 0x00C) ∧ (cf 0x00C).target = .v 12 ∧
    decodeWord 0x408000000FF00000 0 = .regang (cf 0) := by decide +kernel
theorem test_printed_words_memory :
    decodeWord 0x5010140808000400 0 = .st (mf (.v 2) (.s 2) (.v 4)) ∧
    decodeWord 0x5030600FFC002800 0 = .sts { mf (.v 12) (.v 3) .none 0 4 with pred := 1 } ∧
    decodeWord 0x50786C12180004A0 0 = .sst (mf (.s 13) (.s 4) (.s 12) 0 2 2 2) ∧
    decodeWord 0x6080340808070530 0 = .acas (mf (.v 6) (.s 2) (.v 4) 0x007 2 4 3) ∧
    decodeWord 0x60000C13FDC12480 0 = .aadd { mf (.v 1) (.s 4) .none (Operand.int 1).bits 2 2 with pred := 1 } ∧
    decodeWord 0x7080000000000000 0 = .batch (yf 0) ∧
    decodeWord 0x709E080000020000 0 = .waitb (yf (y1 (.int 1) 2)) := by decide +kernel
theorem test_printed_words_engines :
    decodeWord 0x80B2847FA1800260 0 = .drainAdd (xf 2 (.s 8) .none (.s 12) 0 .f32 6) ∧
    decodeWord 0x800008083FC00300 0 = .mma (xf 0 (.v 16) (.v 32) .none 0 .f16) ∧
    decodeWord 0x907067FBFDFE0010 0 = .rng (gf (.v 12) .none .none .none 1) ∧
    decodeWord 0x904857FA0DFE0000 0 = .wpin (gf (.s 10) .none (.s 6) .none) ∧
    decodeWord 0x9010401209C020A0 0 = .sampleN { gf (.v 8) (.v 4) (.s 4) (.int 0) 0x0A with pred := 1 } ∧
    decodeWord 0x9090802229180010 0 = .rayTrace (gf (.v 16) (.v 8) (.s 20) (.s 24) 1) ∧
    decodeWord 0x90FFF7FA31FE0050 0 = .bvhPub (gf .none .none (.s 24) .none 5) := by decide +kernel
theorem test_printed_words_system :
    decodeWord 0xA020000001C10000 0 = .arrive (yf 0x1C1) ∧
    decodeWord 0xA048A7F850000000 0 = .collRed (yf (y2 (.s 20) .none 0x5000)) ∧
    decodeWord 0xA09820070F000000 0 = .gate (yf (y1 (.s 4) 0x70F00)) ∧
    decodeWord 0xA0B8145B10000000 0 = .objGrant (yf (y2 (.s 2) (.s 22) 0x31000)) ∧
    decodeWord 0xA0A0000000000000 0 = .gateret (yf 0) ∧
    decodeWord 0xB038300000400000 0 = .sread (yf (y1 (.s 6) 64)) ∧
    decodeWord 0xB04FF80000000000 0x101 = .swrite (yf (y1 .lit 0) (some 0x101)) ∧
    decodeWord 0xB0100000002A0000 0 = .trap (yf 0x2A) ∧
    decodeWord 0xC08FF41B87FE0000 0 = .relayout (vf .none (.s 6) (.int 3) .none .s32) := by decide +kernel
/-- A word of an opcode or a class that R109 leaves out is none (R438). -/
theorem test_not_an_instruction :
    (([0x0190000000000000, 0x4090000000000000, 0x4160000000000000, 0x50F0000000000000, 0x7040000000000000, 0xC0C0000000000000,
      0xD000000000000000, 0xF000000000000000] : List DWord).all (fun w => decide (decodeWord w 0 = .notAnInstruction w))) = true ∧
    decodeWord 0 0 = .uadd (vf (.v 0) (.v 0) (.v 0) (.v 0) .s32) := by decide +kernel

/-! ## Ill-formed terms -/

def refusedWith (i : Instr) (n : Nat) : Bool := !WellFormed i && Instr.stageA i == some n
/-- Not an instruction; an extension word where none is wanted; one missing. -/
theorem test_illFormed_words :
    WellFormed (.notAnInstruction 0) = false ∧ WellFormed (.holdLimit 0 0) = false ∧
    WellFormed (.mov { vf (.v 1) (.v 2) .none .none with ext := some 0 }) = false ∧
    WellFormed (.mov (vf (.v 1) .lit .none .none)) = false ∧ WellFormed (.phint (yf 1)) = false ∧
    WellFormed (.mov { vf (.v 1) .lit .none .none with ext := some 7 }) = true := by decide +kernel
/-- Each sub-reason of stage A (R437 to R445): an absent opcode, a reserved class, a header, a field that must be zero, a field's
value, an operand's kind, a misaligned pair, a literal in a pair, LA on an instruction that waits for nothing; and a block end elsewhere. -/
theorem test_illFormed_fields :
    refusedWith (.notAnInstruction 0x0190000000000000) 0x02 = true ∧ refusedWith (.notAnInstruction 0xD000000000000000) 0x01 = true ∧
    refusedWith (.notAnInstruction 0xF000000000000000) 0x03 = true ∧
    refusedWith (.exit { cf 0 with zero := 1 }) 0x04 = true ∧ refusedWith (.exit (cf 1)) 0x04 = true ∧
    refusedWith (.uadd { vf (.s 1) (.s 2) (.s 3) .none with sat := true }) 0x05 = true ∧
    refusedWith (.mma (xf 8 (.v 0) (.v 64) .none 0x1F .f16)) 0x05 = true ∧
    refusedWith (.uadd (vf (.v 1) (.s 2) (.s 3) .none)) 0x06 = true ∧ refusedWith (.mov (vf (.v 1) (.reservedA 0) .none .none)) 0x06 = true ∧
    refusedWith (.add (vf (.v 1) (.v 2) (.v 4) .none .z64)) 0x07 = true ∧ refusedWith (.ld (mf (.v 4) (.s 3) .none)) 0x07 = true ∧
    refusedWith (.add { vf (.v 1) (.v 2) (.v 4) .none with la := 1 }) 0x09 = true ∧
    Instr.stageAIn (.add (vf (.v 1) (.v 2) (.v 4) .none)) 1 = none ∧ Instr.stageAIn (.bra (cf 4)) 2 = some 0x0A ∧ Instr.stageAIn (.bra (cf 4)) 1 = none ∧
    refusedWith (.add { vf (.v 1) (.v 2) .lit .none with ext := some 0x100000000 }) 0x08 = true ∧
    Instr.stageAIn (.add { vf (.v 1) (.v 2) .lit .none with ext := some 1 }) 1 = some 0x08 := by decide +kernel

/-! ## The machine as a whole -/

def nopWord : Nat := 0xB000000000000000
/-- A NOP placed after reset: memory is canonical before and after, and the next step runs it. -/
theorem witness_MemoryInvariant :
    (State.reset.withFetchWord 64 nopWord).memOk = true ∧
    (gives (step (State.reset.withFetchWord 64 nopWord)) fun t => t.memOk && (t.waves.all fun x => x.2.issueCount == 1)) = true := by decide +kernel
theorem witness_RoundTrip :
    ([Instr.mov (vf (.v 1) (.v 2) .none .none), .mov { vf (.v 1) .lit .none .none with ext := some 7 }, .phint (yf 1 (some 0))].all fun i =>
      i.encodable && i.extFits) = true := by decide +kernel
/-- `mov.z32 v2, 7` and its bytes, the least significant first. -/
theorem test_bytes :
    encodeBytes (.mov (vf (.v 2) (.int 7) .none .none)) = [0x00, 0x01, 0xFE, 0xFD, 0x1F, 0x17, 0xB0, 0x11] := by decide +kernel

/-- A turn of a fragment, a turn of an event, and a code object that is fetched from memory as it stood at acceptance: EXIT at word 1. -/
def fetching : State :=
  let s := world.setWord64 (home 1 + 8) exitWord
  withLaunch (turned (s.placeWords exitWord none)) fun la => { la with codeWords := [], image := s.mem }
theorem witness_StepRuns :
    (let s := State.reset.withFetchWord 64 nopWord
     match s.turns with
     | .issue wk fid :: rest =>
       let s0 : State := { s with turns := rest }
       let s1 : State := { (s0.giveSlot wk fid).modWave wk fun w => w.modFrag fid fun f => { f with last := s.tick } with cur := some (wk, fid) }
       s0.maySlot wk fid && s1.fetched wk fid == some (.nop (yf 0))
     | _ => false) = true ∧
    (let s := fetching
     match s.waves.find? 0, s.workgroups.find? 0, s.launches.find? 0 with
     | some w, some _, some la => match w.frag? 0 with
       | some f => w.fragPc f == some 1 && (la.words 0 1).isNone && w.dom == 0 && w.codeObj == 1 &&
         (let t := s.accepted la
          let entry := t.tableEntry 0 1
          decide (1 < entry.length / 8) && (match decode (t.bytes (t.addrOf 0 entry 8) 8 ++ t.bytes (t.addrOf 0 entry 16) 8) with
            | .ok (i, rest) => i == .exit (cf 0) && rest == t.bytes (t.addrOf 0 entry 16) 8 && !i.needsExt
            | .error _ => false))
       | none => false
     | _, _, _ => false) = true := by decide +kernel
theorem witness_WaveStart :
    let s := placed (.nop (yf 0))
    (match s.workgroups.find? 0 with
     | some g => decide (g.launch = 0) && (s.launches.find? 0).isSome
     | none => false) = true := by decide +kernel
/-- The trap enables of MODE are off in the states in which the register instructions run. -/
theorem witness_RegisterFrame :
    (let i : Instr := .add (vf (.v 60) (.v 1) (.int 2) .none)
     runsWith (placed i) i fun e => e.wave.mode.extractLsb' 8 4 == 0) = true := by decide +kernel

/-! ## Instructions on registers run -/

def class0Forms : List Instr :=
  let a := vf (.s 60) (.s 1) (.int 2) .none
  let c := vf (.s 60) (.s 1) (.int 2) (.s 1)
  [.uadd a, .uaddc c, .usub a, .usubb c, .umul a, .umulhi a, .umulw a, .udiv a, .urem a, .umin a, .umax a, .uand a, .uor a, .uxor a,
    .unot (vf (.s 60) (.s 1) .none .none), .ushl a, .ushr a, .usar a, .ubfe c, .ubfi c, .upopc (vf (.s 60) (.s 1) .none .none),
    .uclz (vf (.s 60) (.s 1) .none .none), .ucmp a, .usel c, .umov (vf (.s 60) (.s 1) .none .none)]
theorem witness_class0 : allRun class0Forms = true := by decide +kernel

def class1Forms : List Instr :=
  let a := vf (.v 60) (.v 1) (.int 2) .none
  let c := vf (.v 60) (.v 1) (.int 2) (.v 1)
  let k := vf (.v 60) (.v 1) (.int 2) (.k 1)
  let u := vf (.v 60) (.v 1) .none .none
  [.add a, .add k, .addc k, .sub a, .sub k, .subb k, .mul a, .mulhi a, .mulw a, .mad c, .div a, .rem a, .min a, .max a,
    .abs (vf (.v 60) (.v 1) .none .none .s32), .and a, .or a, .xor a, .not u, .shl a, .shr a, .sar a, .bfe c, .bfi c, .brev u, .popc u, .clz u,
    .cmp (vf (.k 1) (.v 1) (.int 2) .none), .sel k, .mov u, .movx (vf (.v 60) (.v 1) .none (.x 0)), .movxs (vf (.v 60) (.v 1) .none (.x 0))]
theorem witness_class1 : allRun class1Forms = true := by decide +kernel

def class2Forms : List Instr :=
  let a := vf (.v 60) (.v 1) (.flt 2) .none .f32
  let c := vf (.v 60) (.v 1) (.flt 2) (.v 1) .f32
  let u := vf (.v 60) (.v 1) .none .none .f32
  [.fadd a, .fsub a, .fmul a, .ffma c, .fmin a, .fmax a, .fabs u, .fneg u, .fcmp (vf (.k 1) (.v 1) (.flt 2) .none .f32),
    .fclass (vf (.k 1) (.v 1) (.int 2) .none .f32), .frcp u, .frsq u, .fsqrt u, .fdiv a, .fexp2 u, .flog2 u, .fsin u, .fcos u, .ftanh u,
    .ffloor u, .fceil u, .ftrunc u, .frint u, .ffrac u, .fldexp (vf (.v 60) (.v 1) (.int 2) .none .f32), .fexpo u, .fmant u, .fmed3 c,
    .fdot2 (vf (.v 60) (.v 1) (.v 1) (.v 1) .f16), .fdot4 (vf (.v 60) (.v 1) (.v 1) (.v 1) .e4m3)]
theorem witness_class2 : allRun class2Forms = true := by decide +kernel

def class3Forms : List Instr :=
  let sh := vf (.v 60) (.v 1) (.int 1) (.int 0)
  [.cvt (vf (.v 60) (.v 1) .none (.v 2) .f16), .cvtmx (vf (.v 60) (.v 1) (.int 1) (.int 0) .e4m3), .pack (vf (.v 60) (.v 1) (.v 1) .none .f16),
    .unpack (vf (.v 60) (.v 1) (.int 0) .none .f16), .bperm (vf (.v 60) (.v 1) (.v 1) (.v 1)), .shfl sh, .shflup sh, .shfldn sh, .shflx sh,
    .voteany (vf (.k 1) (.k 0) .none .none .s32), .voteall (vf (.k 1) (.k 0) .none .none .s32), .voteeq (vf (.k 1) (.v 1) .none .none),
    .ballot (vf (.v 60) (.k 0) .none .none .s32), .ballot (vf (.s 60) (.k 0) .none .none .s32), .scan (vf (.v 60) (.v 1) .none .none),
    .scanx (vf (.v 60) (.v 1) .none (.int 3)), .reduce (vf (.s 60) (.v 1) .none .none), .compact (vf (.v 60) (.v 1) (.k 1) (.int 0)),
    .expand (vf (.v 60) (.v 1) (.k 1) (.int 0)), .rdfirst (vf (.s 60) (.v 1) .none .none), .rdfirst (vf (.v 60) (.v 1) .none .none),
    .mxscale (vf (.v 60) (.v 1) .none .none .e4m3)]
theorem witness_class3 : allRun class3Forms = true := by decide +kernel

def class4Forms : List Instr :=
  let k := vf (.k 1) (.k 2) (.k 3) .none .s32
  [.pand k, .por k, .pxor k, .pandn k, .pnot (vf (.k 1) (.k 2) .none .none .s32), .pmov (vf (.k 1) (.k 2) .none .none .s32),
    .pmov (vf (.k 1) (.v 1) .none .none .s32)]
theorem witness_class4 : allRun class4Forms = true := by decide +kernel

def class12Forms : List Instr :=
  [.derive (vf (.v 60) (.v 1) (.int 8) .none .s32), .narrow (vf (.v 60) (.s 4) (.int 8) .none .s32), .refadd (vf (.v 60) (.s 4) (.v 1) .none .s32),
    .refoff (vf (.v 60) (.s 4) .none .none), .refset (vf (.v 60) (.s 4) (.v 1) .none), .refcmp (vf (.k 1) (.s 4) (.s 6) .none .s32),
    .refchk (vf (.k 1) (.s 4) (.int 8) (.int 4) .s32), .objq (vf (.v 60) (.s 4) (.int 1) .none .s32), .tdesc (vf (.v 60) (.s 6) (.int 1) .none .s32)]
theorem witness_class12 : allRun class12Forms = true := by decide +kernel

/-! ## Division, indexed moves, floats: the clauses apart -/

theorem witness_Division :
    (runsWith (placed (.udiv (vf (.s 60) (.s 1) (.int 2) .none))) (.udiv (vf (.s 60) (.s 1) (.int 2) .none)) fun e =>
      e.read .z32 (.int 2) e.first != 0) = true ∧
    (runsWith (placed (.urem (vf (.s 60) (.s 1) (.int 0) .none))) (.urem (vf (.s 60) (.s 1) (.int 0) .none)) fun e =>
      e.read .z32 (.int 0) e.first == 0 && !e.wave.mode.getLsbD 8) = true ∧
    (issuesWith (withWave (placed (.rem (vf (.v 60) (.v 1) (.v 2) .none))) fun w => { w with mode := 0x101 })
      (.rem (vf (.v 60) (.v 1) (.v 2) .none)) fun e => e.wave.mode.getLsbD 8 && (lanesOf e.lanes).all fun l => e.read .z32 (.v 2) l == 0) = true ∧
    (runsWith (placed (.div (vf (.v 60) (.v 1) (.v 2) .none))) (.div (vf (.v 60) (.v 1) (.v 2) .none)) fun e =>
      !e.wave.mode.getLsbD 8 && (lanesOf e.lanes).all fun l => e.read .z32 (.v 2) l == 0) = true := by decide +kernel

/-- The R120 table: 7 / −2 under s32 is −3, and the remainder 1. -/
theorem test_division :
    (gives (exec (.div (vf (.v 60) (.int 7) (.neg 1) .none .s32)) (placed (.div (vf (.v 60) (.int 7) (.neg 1) .none .s32)))) fun t =>
      (wave t).vreg 60 0 == 0xFFFFFFFD) = true ∧
    (gives (exec (.rem (vf (.v 60) (.int 7) (.neg 1) .none .s32)) (placed (.rem (vf (.v 60) (.int 7) (.neg 1) .none .s32)))) fun t =>
      (wave t).vreg 60 1 == 1) = true := by decide +kernel

/-- An index one below the window's end is inside it, one at the end outside; v255 is the last register of 256. -/
theorem witness_IndexedMoves :
    let i : Instr := .movx (vf (.v 60) (.v 16) (.int 8) (.x 0))
    let j : Instr := .movxs (vf (.v 255) (.v 1) .none (.x 0))
    (runsWith (withWave (placed i) fun w => (w.setX 0 0 7).setX 0 1 0) i fun e => (lanesOf e.lanes).all fun l => (e.wave.xreg 0 l).toInt < 8) = true ∧
    (issuesWith (withWave (placed i) fun w => w.setX 0 1 8) i fun e => (e.wave.xreg 0 1).toInt == 8) = true ∧
    runsIn (placed j) j = true ∧
    (issuesWith (withWave (placed j) fun w => w.setX 0 1 1) j fun e => (e.wave.xreg 0 1).toInt == 1 && e.launch.vregs == 256) = true := by
  decide +kernel

/-- 1 / 0 raises DZ: with its enable a trap, without it a result and a flag; rounding 6 is stochastic. -/
theorem witness_FloatResults :
    let i : Instr := .fdiv (vf (.v 60) (.flt 1) (.v 2) .none .f32)
    let j : Instr := .fadd (vf (.v 60) (.flt 1) (.v 2) .none .f32 6)
    let one : FVal := binary32.decodeFz false 0x3F800000
    let zero : FVal := binary32.decodeFz false 0
    (opFdiv binary32 false .rne one zero zero).cond.fdz = true ∧
    (runsWith (placed i) i fun e => ((Cond.enables e.wave.mode)) == .none) = true ∧
    (issuesWith (withWave (placed i) fun w => { w with mode := 0xF01 }) i fun e =>
      ((opFdiv binary32 false .rne one zero zero).cond.enabled (Cond.enables e.wave.mode)).floatCause.isSome) = true ∧
    (runsWith (placed j) j fun e => e.rounding 6 == 6 && (Cond.enables e.wave.mode) == .none) = true := by decide +kernel

/-- 0.5 + 1.0 is 1.5 and raises nothing. -/
theorem test_float :
    (gives (exec (.fadd (vf (.v 60) (.flt 0) (.flt 1) .none .f32)) (placed (.fadd (vf (.v 60) (.flt 0) (.flt 1) .none .f32)))) fun t =>
      (wave t).vreg 60 0 == 0x3FC00000 && (wave t).mode == 1) = true := by decide +kernel

/-! ## Control -/

/-- The target of a branch two words on is the header of the second block. -/
theorem witness_ControlTransfers :
    let b (f : CFmt) : List Instr := [.bra f, .call { f with cond := .v 60 }]
    (b (cf 1)).all (fun i => issuesWith (placedLast i) i fun e => (placedLast i).goodTarget e (e.pc.zeroExtend 64 + 1)) = true ∧
    (issuesWith (placedLast (.bra (cf 2))) (.bra (cf 2)) fun e => !(placedLast (.bra (cf 2))).goodTarget e (e.pc.zeroExtend 64 + 2)) = true ∧
    (let i : Instr := .call { cf 2 with cond := .v 60 }
     let s := placedLast i
     (match s.env i with
      | some e => e.canIssue && !s.entryOwed e.wk e.frag && (e.blocker i).isNone && !s.fetchPoisoned e i && !s.bloadBusy e.wk i &&
          (Instr.stageAIn i (s.wordsLeft e)).isNone && e.lanes != 0 && !s.goodTarget e (e.pc.zeroExtend 64 + 2)
      | none => false) = true) ∧
    (issuesWith (placedLast (.brp (cf 1 (.k 1) 1))) (.brp (cf 1 (.k 1) 1)) fun e => (lanesOf e.lanes).all fun l => !e.pbit (.k 1) l) = true ∧
    (issuesWith (placedLast (.bru (cf 1 (.s 1) 0))) (.bru (cf 1 (.s 1) 0)) fun e => e.readZ (.s 1) e.first == 3) = true := by decide +kernel

def jumps : List Instr := [.calli (cf 10 (.v 60)), .jmpi (cf 10), .ret (cf 0 (.v 10))]
theorem witness_jumps :
    (jumps.all fun i => issuesWith (withWave (placedLast i) fun w => (w.setV 10 0 2).setV 10 1 2) i fun e =>
      (lanesOf e.lanes).all fun l => (placedLast i).goodTarget e (e.readRef (.v 10) l)) = true ∧
    (jumps.all fun i => issuesWith (withWave (placedLast i) fun w => (w.setV 10 0 2).setV 10 1 3) i fun e =>
      !(placedLast i).goodTarget e (e.readRef (.v 10) 1) && (placedLast i).goodTarget e (e.readRef (.v 10) 0)) = true := by decide +kernel

/-- EXIT of one lane of two, of both, and beside a gang-parked lane. -/
theorem witness_exit :
    let i : Instr := .exit { cf 0 with pred := 1 }
    let j : Instr := .exit (cf 0)
    (issuesWith (withWave (placed i) fun w => w.setK 1 1) i fun e => (e.wave.live &&& ~~~e.lanes) != 0 && e.wave.gangParked == 0) = true ∧
    (issuesWith (placed j) j fun e => (e.wave.live &&& ~~~e.lanes) == 0 && e.wave.gangParked == 0 &&
      ((placed j).drainStores fun p => decide (p.agent.wave = e.wk)).waveIdle e.wk) = true ∧
    (issuesWith (withWave (placed i) fun w => { w with live := 7, gangParked := 4, pcs := [(0, 1), (1, 1), (2, 9)] }) i fun e =>
      e.wave.gangParked.getLsbD 2) = false ∧
    (issuesWith (withWave (placed j) fun w => { w with live := 7, gangParked := 4, pcs := [(0, 1), (1, 1), (2, 9)] }) j fun e =>
      e.wave.gangParked.getLsbD 2) = true := by decide +kernel


/-! ## Scans, conversions, elements: the clauses apart -/

theorem witness_Scans : allRun ([0, 1, 2, 3, 4, 5].flatMap fun r =>
    [.scan (vf (.v 60) (.v 1) .none .none .z32 r), .scanx (vf (.v 60) (.v 1) .none (.int 3) .z32 r),
      .reduce (vf (.s 60) (.v 1) .none .none .z32 r), .reduce (vf (.v 60) (.v 1) .none (.int 3) .z32 r)]) = true := by decide +kernel

/-- An inclusive sum of 3 and 3, and of an initial 3 in the exclusive one. -/
theorem test_scan :
    (gives (exec (.scan (vf (.v 60) (.v 1) .none .none)) (placed (.scan (vf (.v 60) (.v 1) .none .none)))) fun t =>
      (wave t).vreg 60 0 == 3 && (wave t).vreg 60 1 == 6) = true ∧
    (gives (exec (.scanx (vf (.v 60) (.v 1) .none (.int 1))) (placed (.scanx (vf (.v 60) (.v 1) .none (.int 1))))) fun t =>
      (wave t).vreg 60 0 == 1 && (wave t).vreg 60 1 == 4) = true := by decide +kernel

/-- No enable, so every conversion is quiet; rounding 6 draws. -/
theorem witness_Conversions :
    ([.cvt (vf (.v 60) (.v 1) .none (.v 2) .f16 6), .pack (vf (.v 60) (.v 1) (.v 1) .none .f16 6), .unpack (vf (.v 60) (.v 1) (.int 0) (.v 1) .e4m3),
      .mxscale (vf (.v 60) (.v 1) .none .none .e4m3), .cvtmx (vf (.v 60) (.v 1) (.int 1) (.int 0) .e4m3 6)] : List Instr).all (fun i =>
        runsWith (placed i) i fun e => Cond.enables e.wave.mode == .none) = true ∧
    (Cond.enabled ⟨true, true, true, true⟩ (Cond.enables 1)).floatCause = none := by decide +kernel

/-- 3 is 1.5 in E8M0 steps of two: the largest power of two at most 1.0 in e4m3's range has scale 127 − 8. -/
theorem test_mxscale :
    (gives (exec (.mxscale (vf (.v 60) (.flt 1) .none .none .e4m3)) (placed (.mxscale (vf (.v 60) (.flt 1) .none .none .e4m3)))) fun t =>
      (wave t).vreg 60 0 == 119) = true := by decide +kernel

/-- Element 3 of four bytes, and element 0 of one doubleword. -/
theorem witness_Elements : (0 < Ty.width .z8 ∧ 3 < Ty.elems .z8) ∧ (0 < Ty.width .z64 ∧ 0 < Ty.elems .z64) := by decide
/-! ## Memory -/

def atomics (f r : MFmt) : List Instr :=
  [.aadd f, .afadd f, .axchg r, .aadd r, .amin r, .amax r, .aand r, .aor r, .axor r, .acas r, .afadd r]
def accesses : List Instr :=
  [.ld (mf (.v 60) (.s 4) .none), .st (mf (.v 1) (.s 4) .none), .sld (mf (.s 60) (.s 4) .none), .sst (mf (.s 1) (.s 4) .none),
    .tld (mf (.v 60) (.s 6) (.v 4) 0 1), .tst (mf (.v 1) (.s 6) (.v 4) 0 1), .atile (mf (.v 8) (.s 4) .none 0x1FE 5)] ++
  atomics (mf (.v 1) (.s 4) .none 0x1FE) (mf (.v 60) (.s 4) .none (Operand.v 1).bits)
/-- The same with one live lane. -/
def alone (s : State) : State := withWave s fun w => { w with live := 1, pcs := [(0, 1)] }
/-- With one live lane the instruction runs to its end. -/
def oneCompletes (s : State) (i : Instr) : Bool :=
  let s := alone s
  issuesIn s i && gives (exec i s) fun t => (wave t).tl == 0 && (wave t).pend.isEmpty && (wave t).pc 0 == BitVec.ofNat 39 (1 + Instr.words i)
theorem witness_Accesses : (accesses.all fun i => oneCompletes (placed i) i) = true := by decide +kernel

/-- The conditions of `Accesses` themselves, for a load; and an offset just past the object's 0x1000 bytes, the last four within. -/
theorem witness_Accesses_load :
    let f := mf (.v 60) (.s 4) (.v 4)
    (issuesWith (placed (.ld f)) (.ld f) fun e =>
      let s := placed (.ld f)
      let xs := (lanesOf e.lanes).map fun l => e.byteAcc s f 0 needR .load 4 l [] []
      let accs := xs.filterMap fun x => match x with
        | .ok a => some a
        | .error _ => none
      let r := runLanes e.who (.ld f) (s.fillObjects e.core accs) accs
      xs.all (fun x => x.isOk) && (e.mustFollow s 0 accs).isNone && r.left.isEmpty && r.late.isEmpty) = true ∧
    trapsWith (withWave (placed (.ld f)) fun w => w.setV 4 1 0x1000) (.ld f) 0x05 = true ∧
    completes (withWave (placed (.ld f)) fun w => w.setV 4 1 0xFFC) (.ld f) = true ∧
    trapsWith (withWave (placed (.ld f)) fun w => w.setV 4 0 2) (.ld f) 0x04 = true := by decide +kernel

/-- A granule that is absent: the lanes' accesses are parked. -/
theorem witness_parked :
    let i : Instr := .ld (mf (.v 60) (.s 18) .none)
    (gives (exec i (placed i)) fun t => (wave t).tl == 0 && (wave t).pend.any fun p => p.accs.length == 2) = true := by decide +kernel

/-- The access of lane 0 of an instruction at byte 0 of object 2, with bytes to write. -/
def accAt (i : Instr) (f : MFmt) (need : BitVec 4) (data cmp : List Byte) : Option (Env × Acc) :=
  match (placed i).env i with
  | some e => match e.byteAcc (placed i) f 0 need .store 4 0 data cmp with
    | .ok a => some (e, a)
    | .error _ => none
  | none => none

theorem witness_LoadedValue :
    let f := mf (.v 60) (.s 4) .none
    let s := placed (.ld f)
    (match accAt (.ld f) f needR [] [] with
      | some (e, a) => decide (a.tgt = .byte 0) && !s.unreadable a && decide (s.accPlace a = some (home 2, 0)) &&
          decide (home 2 < 2 ^ 51) && decide (home 2 / 128 = (home 2 + a.size - 1) / 128) && !s.anyPoison (home 2) a.size &&
          (findLine (SMap.get [] s.l1 e.core) (lineOf (home 2))).isNone && s.storeQ.isEmpty && e.launch.ranges.isEmpty
      | none => false) = true := by decide +kernel

/-- A store goes on its way, and its acknowledgement performs it. -/
theorem witness_Stores :
    let f := mf (.v 1) (.s 4) .none
    let s := alone (placed (.st f))
    (match accAt (.st f) f needW [3, 0, 0, 0] [] with
      | some (_, a) => decide (a.tgt = .byte 0) && decide (s.accPlace a = some (home 2, 0)) && !s.unreadable a
      | none => false) = true ∧
    (gives (exec (.st f) s) fun t => t.storeQ.length == 1 && t.byte (home 2) == 0 &&
      (match t.storeQ[0]? with
        | some q => decide (t.accPlace q.acc = some (home 2, 0)) && !q.nibble && !t.storeBehind 0 q
        | none => false) &&
      gives (exec (.storeAcknowledge 0) t) fun u => u.byte (home 2) == 3 && u.storeQ.isEmpty) = true := by decide +kernel

theorem witness_Atomics :
    let f := mf (.v 60) (.s 4) .none (Operand.v 1).bits
    let s := alone (placed (.aadd f))
    (match accAt (.aadd f) f needRA [3, 0, 0, 0] [] with
      | some (e, a) => decide (a.tgt = .byte 0 ∧ a.size = 4) && decide (s.accPlace a = some (home 2, 0)) && !s.unreadable a &&
          !s.anyPoison (home 2) a.size && s.storeQ.isEmpty && e.launch.ranges.isEmpty && (SMap.get [] s.rdc (dieOf e.core)).isEmpty
      | none => false) = true ∧
    (gives (exec (.aadd f) s) fun t => t.byte (home 2) == 3 && (wave t).vreg 60 0 == 0) = true := by decide +kernel

/-- The highest address within a scratchpad of 262,144 bytes, and the first outside it; a CRANK equal to the cluster's size. -/
theorem witness_Scratchpad :
    let f := mf (.v 60) (.v 1) .none
    let g := mf (.v 60) (.v 2) (.v 4)
    let top (x : Word) (i : Instr) : State := withWave (placed i) fun w => (w.setV 1 0 x).setV 1 1 x
    ([Instr.lds f, .sts f].all fun i => oneCompletes (top 262140 i) i && trapsWith (top 262144 i) i 0x05 && trapsWith (top 262142 i) i 0x04) = true ∧
    ([Instr.ldsr g, .stsr g].all fun i => oneCompletes (placed i) i && trapsWith (withWave (placed i) fun w => w.setV 4 1 1) i 0x05) = true ∧
    (issuesWith (top 262140 (.lds f)) (.lds f) fun e => (e.scratchAcc (top 262140 (.lds f)) f none 0).isOk && (e.mustFollow (top 262140 (.lds f)) 0 []).isNone) = true ∧
    (((placed (.lds f)).workgroups.find? 0).isSome) = true := by decide +kernel

theorem witness_HintsAndFences :
    let p := mf .none (.s 4) .none
    let far := mf .none (.s 2) .none
    let f := mf .none .none .none 0 0 1 3
    ([Instr.pref p, .evict p, .pref far, .evict far, .fence f].all fun i => completes (placed i) i) = true ∧
    holds (withWave (placed (.fence f)) fun w => { w with pend := [⟨0, 1, .ld (mf (.v 9) (.s 18) .none), 1, [(0, 15)], false, .access, 1, [], [], 0, [], none, 0⟩] })
      (.fence f) = true := by decide +kernel

/-- Queue 0 from stage 0 to itself, with records, full, empty and closed. -/
def withQueue (s : State) (n : Nat) (limit : Nat) (closed : Bool) : State :=
  withLaunch s fun la => { la with queues := [(0, ⟨0, 0, limit, 0, List.replicate n (.ring (List.replicate 16 7)), closed⟩)] }
theorem witness_Queues :
    let push : Instr := .sqpush (mf (.v 16) .none .none 0 0 5)
    let pop : Instr := .sqpop (mf (.v 16) .none (.k 1) 0 0 5 0)
    completes (withQueue (placed push) 510 0 false) push = true ∧
    (gives (exec push (withQueue (placed push) 511 0 false)) fun t => (wave t).pend.length == 1) = true ∧
    completes (withQueue (placed pop) 2 0 false) pop = true ∧
    completes (withQueue (placed pop) 0 0 true) pop = true ∧
    (gives (exec pop (withQueue (placed pop) 1 0 false)) fun t => (wave t).pend.length == 1) = true := by decide +kernel

/-- A full ring with two more records in object 2, of which four are allowed: one more, one out, and one more at the limit. -/
theorem witness_spills :
    let push : Instr := .sqpush (mf (.v 16) .none .none 0 0 5)
    let pop : Instr := .sqpop (mf (.v 16) .none (.k 1) 0 0 5 0)
    let full (places : List Nat) : List QRec := List.replicate 512 (.ring (List.replicate 16 7)) ++ places.map .spill
    let q (recs : List QRec) : StageQueue := ⟨0, 0, 4, refTo 2, recs, false⟩
    let spilling (i : Instr) (recs : List QRec) : State := alone (withLaunch (placed i) fun la => { la with queues := [(0, q recs)] })
    let place (s : State) (e : Env) (n : Nat) (write : Bool) : Option Nat := match s.reaches (s.spillAcc e.who (q []) n) write with
      | .place p _ => some p
      | _ => none
    (issuesWith (spilling push (full [0, 2])) push fun e => place (spilling push (full [0, 2])) e 1 true == some (home 2 + 64)) = true ∧
    (issuesWith (spilling pop [.spill 3, .spill 0]) pop fun e => place (spilling pop [.spill 3, .spill 0]) e 3 false == some (home 2 + 192) &&
      !(spilling pop [.spill 3, .spill 0]).portPoisoned 0 (home 2 + 192) && !(spilling pop [.spill 3, .spill 0]).portPoisoned 0 (home 2 + 224)) = true ∧
    oneCompletes (spilling push (full [0, 2])) push = true ∧ oneCompletes (spilling pop [.spill 3, .spill 0]) pop = true ∧
    (gives (exec push (spilling push (full [0, 1, 2, 3]))) fun t => (wave t).pend.length == 1) = true := by decide +kernel

def copies : List Instr :=
  [.copy (mf (.s 4) (.s 4) (.int 4) 0x1FE 0), .copyin (mf (.int 0) .none (.int 4) (Operand.s 4).bits 0),
    .copyout (mf .none (.int 0) (.int 4) (Operand.s 4).bits 0), .copyt (mf (.s 4) (.s 6) (.int 4) (Operand.s 20).bits 1)]
theorem witness_Copies :
    (copies.all fun i => completes (placed i) i) = true ∧
    ([Instr.copy (mf (.s 4) (.s 4) (.int 0) 0x1FE 0), .copyin (mf (.int 0) .none (.int 0) (Operand.s 4).bits 0)].all fun i =>
      trapsWith (placed i) i 0x40) = true := by decide +kernel

/-- Batches: closing one with 15 open, and none with 16; waiting for one done, and one open. -/
theorem witness_batches :
    let b : Instr := .batch (yf 0)
    let w : Instr := .waitb (yf (y1 (.int 1) 0))
    let n : Instr := .waitbn (yf 0x10)
    let q : Instr := .bquery (yf (y1 (.s 60) 1))
    let open_ (i : Instr) (c : Word) : State := withWave (placed i) fun w => { w with batchClosed := c }
    completes (open_ b 15) b = true ∧ holds (open_ b 16) b = true ∧ completes (placed w) w = true ∧ holds (open_ w 1) w = true ∧
    completes (open_ n 1) n = true ∧ holds (open_ n 2) n = true ∧ runsIn (placed q) q = true := by decide +kernel

def setRefs (w : Wave) : List (Nat × DWord) → Wave
  | [] => w
  | x :: r => setRefs ((w.setS x.1 (lowWord x.2)).setS (x.1 + 1) (highWord x.2)) r

/-- Reset with a domain of 64 indices, the code object 1, and more words. -/
def smallWorld (ws : List (Nat × DWord)) : State :=
  { State.reset with
    bar0 := [(0x0008, 0x1000#64)]
    mem := memoryOf ([(0x1000, 0x8000000000002000#64), (0x1008, 64#64)] ++ object 1 2 0x100 ++ ws) }

/-- The state in which exec runs an instruction in a world, with one live lane and references in scalar registers. -/
def placedIn (w : State) (refs : List (Nat × DWord)) (i : Instr) : State :=
  withWave (prepare (turned (w.placeWords i.word i.ext)) ([header (3 + i.ext.toList.length), i.word] ++ i.ext.toList ++ [exitWord])) fun w =>
    setRefs { w with live := 1, pcs := [(0, 1)] } refs

def engines (s : State) (i : Instr) (p : Env → State → Bool) : Bool := issuesWith s i fun e => p e s

/-! ## Matrices -/

/-- Gang point i issues with the whole gang present, and more. -/
def gangsWith (s : State) (i : Instr) (p : Env → Bool) : Bool :=
  issuesWith s i fun e => e.gathered && (e.ganged i s).lanes != 0 && p e
def gangs (i : Instr) (p : Env → State → Bool) : Bool := gangsWith (placed i) i fun e => p (e.ganged i (placed i)) ((placed i).ganged e i)
/-- No wave claims the tiles, and the queue of the quadrant, or of the sampler array, has room. -/
def claimable (e1 : Env) (s1 : State) : Bool :=
  (s1.claimant e1).isNone && decide ((s1.claimed e1).queueUsed e1.quad < 8) && decide ((s1.claimed e1).samplerUsed e1.core < 8)

theorem witness_TileOperations :
    ([Instr.mma (xf 2 (.v 0) (.v 64) .none 1 .f16), .mmaGrp (xf 2 (.v 0) (.v 64) (.s 1) 1 .f16), .mmaLut (xf 2 .none (.v 64) (.int 4) 0 .s32 2),
      .lutb (xf 4 (.v 0) .none .none 0 .f16), .aclr (xf 2 .none .none .none 0 .s32),
      .ascale (xf 2 (.v 4) .none .none 0 .f32 1), .ascale (xf 2 .none (.v 4) .none 0 .f32 0)].all fun i => gangs i claimable) = true ∧
    gangs (.regang (cf 0)) (fun _ _ => true) = true := by decide +kernel

/-- MMA.SA, while the wave has the sampler array on loan. -/
theorem witness_MmaSa :
    let i : Instr := .mmaSa (xf 2 (.v 0) (.v 64) .none 0 .mxf4)
    let s := withWave (placed i) fun w => { w with lend := 1 }
    gangsWith s i (fun e => claimable (e.ganged i s) (s.ganged e i)) = true := by decide +kernel

/-- Eight entries taken: the wave waits. -/
theorem test_queueFull :
    let i : Instr := .aclr (xf 2 .none .none .none 0 .s32)
    (issuesWith (placed i) i fun e => holds { placed i with matOps := List.replicate 8 (e.matOp i) } i &&
      completes { placed i with matOps := List.replicate 7 (e.matOp i) } i) = true := by decide +kernel

theorem witness_SharedSteps :
    let i : Instr := .mma (xf 2 (.v 0) (.v 64) .none 1 .f16 1)
    let full : State := withLaunch (placed i) fun la => { la with waves := 4 }
    (issuesWith full i fun e0 =>
      [StepStatus.started, .failed].all fun st =>
        let s : State := { full with sharedB := [⟨0, 0, e0.matOp i, st⟩] }
        gangsWith s i fun e => ((s.ganged e i).stepOf e.wk).any fun x => x.status == st) = true := by decide +kernel

/-- A BLOAD of the f16 tensor, object 3, from coordinates (0, 0). -/
theorem witness_Bload :
    let f := xf 0 (.s 6) (.v 64) (.s 20) 0 .f16
    gangs (.bload f) (fun e1 s1 =>
      let ref := e1.readRef f.abase e1.first
      let cs := e1.coords f.sop e1.first
      okay (s1.checkObject e1.core e1.dom ref needR .tensor 0 0) fun entry => (s1.tensor entry).inside cs &&
        decide ((s1.tensor entry).etype = etypeOf f.ity) && decide ((s1.tensor entry).layout ≠ 5) && (e1.awaits s1 (BitVec.allOnes 24)).isNone &&
        decide ((s1.cacheEntry e1.core e1.dom (refIndex ref)).queueUsed e1.quad < 8)) = true := by decide +kernel
/-- DRAIN and DRAIN.ADD into object 2. -/
theorem witness_Drains :
    let f := xf 2 (.s 4) .none (.int 0) 0 .f32
    ([(Instr.drain f, needW, drainSize f.ity), (.drainAdd f, needA, 32)].all fun p => gangs p.1 fun e1 s1 =>
      !e1.launch.det && (e1.awaits s1 e1.frag.slices).isNone && okay (e1.drainChecks s1 p.1 f p.2.1 p.2.2) fun o => claimable e1 s1 && !o.sampler) = true :=
  by decide +kernel

theorem witness_TileMoves :
    ([Instr.amovr (xf 2 (.v 32) .none .none 3 .f32), .amovr (xf 2 (.v 32) .none .none 4 .f32), .amovw (xf 2 (.v 32) .none .none 3 .f32),
      .amovw (xf 2 (.v 32) .none .none 4 .f32)].all fun i => issuesWith (placed i) i fun e =>
        ((placed i).claimant e).isNone && !((placed i).claimed e).tileBusy e.wk 2 && decide (((placed i).claimed e).queueUsed e.quad < 8)) = true := by decide +kernel
/-- Counts of 15 and below; a RECALL at a count of 0 does not run. -/
theorem witness_Lending :
    let f := xf 0 .none .none .none 0 .s32
    let lent (i : Instr) (n : BitVec 4) : State := withWave (placed i) fun w => { w with lend := n }
    runsIn (placed (.lend f)) (.lend f) = true ∧ runsIn (lent (.lend f) 15) (.lend f) = true ∧ runsIn (lent (.recall f) 1) (.recall f) = true ∧
    issuesIn (placed (.recall f)) (.recall f) = false ∧
    ([0, 1, 2, 3, 4].all fun n => runsIn (placed (.astat (xf 0 (.s 60) .none .none n .s32))) (.astat (xf 0 (.s 60) .none .none n .s32))) = true := by
  decide +kernel

/-! ## Sampler, rays and builder -/

/-- A texture set, object 4, with the neural header of R396 at 0 and a classic one of one texel at 64. -/
def textures : List (Nat × DWord) :=
  object 4 3 0x200 ++ [(home 4, 0x1400904000030001#64), (home 4 + 8, 0x100#64), (home 4 + 16, refTo 6),
    (home 4 + 64, 0x00C0100000000000#64), (home 4 + 72, 0x100#64), (home 4 + 0x100, 0x2800303828003038#64)]
def sampling (i : Instr) : State := placedIn (smallWorld textures) [(8, refTo 4), (22, mkRef 4 15 64)] i
def headersOf (x : HdrOut) (p : List LaneHdr → Bool) : Bool :=
  match x with
  | .ok hs => p hs
  | .stop _ => false
def netsOf (x : NetOut) (p : State → List (LaneHdr × List Byte) → Bool) : Bool :=
  match x with
  | .ok s l => p s l
  | .stop _ => false
def runsJobs (e : Env) (i : Instr) (draws : Bool) (s : State) (js : List SampleJob) : Bool :=
  let accs := js.flatMap fun j => j.accs e.wave.dom
  let s3 := s.fillObjects e.core accs
  let r := runJobs e.who e.wave.dom i (if draws then e.reserve 1 s3 else s3) js
  (e.mustFollow s 0 accs).isNone && r.left.isEmpty && r.late.isEmpty

theorem witness_Sample :
    let f := gf (.v 64) (.v 4) (.s 22) .none 0xF8
    engines (sampling (.sample f)) (.sample f) (fun e s =>
      headersOf (e.headers (e.sampleReady s) (.s 22) fun h => TexHdr.hkind h == 0) fun hs => hs.length == 1 &&
        runsJobs e (.sample f) true (e.sampleReady s) (hs.map (e.sampleJob f []))) = true := by decide +kernel
theorem witness_Gather :
    let f := gf (.v 64) (.v 4) (.s 22) .none 3
    engines (sampling (.gather f)) (.gather f) (fun e s => headersOf (e.headers (e.sampleReady s) (.s 22) fun _ => true) fun hs =>
      (hs.all fun h => decide (3 < TexHdr.channels (TexHdr.fmt h.hdr) (TexHdr.ch h.hdr))) &&
        runsJobs e (.gather f) false (e.sampleReady s) (hs.map (e.gatherJob f))) = true := by decide +kernel

/-- The network image of R396, object 6, in the weight cache. -/
def netBytes : List Byte :=
  bytesOfNat 8 0x0000014001000002 ++ List.replicate 8 0 ++ bytesOfNat 8 0x004001200404C100 ++ bytesOfNat 8 0x00C001300403C200 ++ List.replicate 288 0
def cached (s : State) : State := { s with wcache := [(0, [⟨0, 6, 0, netBytes, 0, true⟩])] }

theorem witness_SampleN :
    let f := gf (.v 64) (.v 4) (.s 8) .none 8
    engines (cached (sampling (.sampleN f))) (.sampleN f) (fun e s =>
      headersOf (e.headers (e.sampleReady s) f.hdr fun h => TexHdr.hkind h == 1) fun hs =>
        netsOf (e.nets (e.sampleReady s) hs) fun s2 images => images.length == 1 &&
          runsJobs e (.sampleN f) true s2 (images.map fun x => e.sampleJob f x.2 x.1)) = true := by decide +kernel

/-- TEXQ of the header of R396: its width, 4, and its network's outputs, 3, which need the image. -/
theorem witness_Texq :
    let i (sel : BitVec 8) : Instr := .texq (gf (.v 64) .none (.s 8) .none sel)
    engines (sampling (i 0)) (i 0) (fun e s => headersOf (e.headers (e.sampleReady s) (.s 8) fun _ => true) fun hs => hs.length == 1 &&
      (hs.all fun h => texqValue h.hdr 0 0 [] == 4)) = true ∧
    engines (cached (sampling (i 7))) (i 7) (fun e s => headersOf (e.headers (e.sampleReady s) (.s 8) fun _ => true) fun hs =>
      netsOf (e.nets (e.sampleReady s) (hs.filter fun h => TexHdr.hkind h.hdr == 1)) fun _ images =>
        images.length == 1 && images.all fun x => texqValue x.1.hdr 7 0 x.2 == 3) = true := by decide +kernel

def pinning (i : Instr) : State := placedIn (smallWorld (object 6 4 0x140)) [(12, refTo 6)] i
/-- An image in the cache that can be pinned, one with 15 pins, and one that is to be filled. -/
theorem witness_WeightPins :
    let i : Instr := .wpin (gf (.s 60) .none (.s 12) .none)
    let pins (n : Nat) (s : State) : State := withWave s fun w => { w with wpins := [(imageKey 0 (refTo 6), n)] }
    (let s := cached (pinning i)
     issuesWith s i fun e => okay (e.netRef s (.s 12)) fun ref => (s.image? e.core (imageKey e.dom ref)).any fun x => e.pinStatus s x == 0) = true ∧
    (let s := pins 15 (cached (pinning i))
     issuesWith s i fun e => okay (e.netRef s (.s 12)) fun ref => (s.image? e.core (imageKey e.dom ref)).any fun x => e.pinStatus s x == 2) = true ∧
    engines (pinning i) i (fun e s => okay (e.netRef s (.s 12)) fun ref => (s.image? e.core (imageKey e.dom ref)).isNone &&
      (e.mustFollow s 0 [e.imageAcc ref]).isNone) = true ∧
    ([Instr.wunpin (gf .none .none (.s 12) .none), .winv (gf .none .none (.s 12) .none 2)].all fun i => engines (pinning i) i fun e s =>
      (okay (e.netRef s (.s 12)) fun _ => true) && (e.awaits s e.who.slices).isNone) = true ∧
    ([Instr.rng (gf (.v 64) .none .none .none 3), .rng (gf (.v 64) .none .none (.v 1) 3)].all fun i => runsIn (placed i) i) = true := by
  decide +kernel

/-- A BVH, object 5, of live generation 3. -/
def tracing (i : Instr) : State := placedIn (smallWorld (object 5 5 0x1000 ++ [(home 5, 3#64)])) [(10, refTo 5)] i
theorem witness_RayPin :
    let i : Instr := .rayPin (gf (.s 60) .none (.s 10) .none)
    let given (s : State) (n : Nat) : State := withWave s fun w => w.setRayPin (refTo 5) 3 n
    let valid (s : State) (p : Nat → Bool) : Bool := issuesWith s i fun e => okay (s.checkObject e.core e.dom (refTo 5) needR (.only 5) 0 0) fun entry =>
      s.residentRange entry 0 256 && !s.objectPoison 0 e.dom entry 0 32 && e.readRef (.s 10) e.first == refTo 5 && p (e.wave.rayPin (refTo 5) 3) &&
        natOfBytes ((s.acquireAct e.core 5).bytes ((s.acquireAct e.core 5).addrOf e.dom entry 0) 4) == 3
    valid (tracing i) (· == 0) = true ∧ valid (given (tracing i) 254) (· == 254) = true ∧
    valid (given (tracing i) 255) (· == 255) = true := by decide +kernel

/-- A pin held and none; a trace; a call-out of the lane, decided 0, 1 or 2. -/
theorem witness_Rays :
    let u : Instr := .rayUnpin (gf .none .none (.s 10) (.s 1))
    let t : Instr := .rayTrace (gf (.v 64) (.v 8) (.s 10) (.s 1) 1)
    let n (x : Operand) : Instr := .rayNext (gf (.v 64) .none .none x)
    let pinned (s : State) : State := withWave s fun w => w.setRayPin (refTo 5) 3 1
    let slot (c : Option Hit) : RaySlot := ⟨0, refTo 5, noEntry, 3, [], false, false, false, 0, none, [], c, false⟩
    let callout (s : State) : State := withWave s fun w => { w with rays := [(0, slot (some ⟨0, 0, 0, 0, false, false⟩))] }
    engines (tracing u) u (fun e _ => e.wave.rayPin (e.readRef (.s 10) e.first) (lowWord (e.read .z32 (.s 1) e.first)) == 0) = true ∧
    issuesWith (pinned (tracing u)) u (fun e => e.wave.rayPin (e.readRef (.s 10) e.first) (lowWord (e.read .z32 (.s 1) e.first)) == 1) = true ∧
    engines (tracing t) t (fun e _ => e.wave.rayPin (e.readRef (.s 10) 0) (lowWord (e.read .z32 (.s 1) 0)) == 0) = true ∧
    issuesWith (pinned (tracing t)) t (fun e => lanesOf e.lanes == [0] && e.raysBusy.isNone && e.wave.rays.isEmpty &&
      (okay ((pinned (tracing t)).checkObject e.core e.dom (e.readRef (.s 10) 0) needR (.only 5) 0 0) fun _ => true) &&
      e.wave.rayPin (e.readRef (.s 10) 0) (lowWord (e.read .z32 (.s 1) 0)) == 1) = true ∧
    issuesIn (tracing (n (.int 0))) (n (.int 0)) = true ∧
    ([Operand.int 0, .int 1, .int 2].all fun x => issuesIn (callout (tracing (n x))) (n x)) = true := by decide +kernel

def building (i : Instr) : State := placedIn (smallWorld (object 2 0 0x1000 ++ object 5 5 0x1000)) [(4, refTo 2), (10, refTo 5)] i
theorem witness_BuilderInstructions :
    let f (ctl : BitVec 8) (n : BitVec 5) := gf .none (.s 4) (.s 10) (.int n) ctl
    let bvhOk (e : Env) (s : State) (o : Operand) : Bool := (s.checkObject e.core e.dom (e.readRef o e.first) needW (.only 5) 0 0).isOk
    ([(Instr.bvhBuild (f 0x0A 2), 64), (.bvhRefit (f 2 2), 96), (.bvhBuild (f 0x0A 0), 0), (.bvhRefit (f 2 0), 0)].all fun x =>
      engines (building x.1) x.1 fun e s => bvhOk e s (.s 10) && (e.awaits s e.frag.slices).isNone &&
        (e.copyRange s (e.readRef (.s 4) e.first) needR (.only 0) x.2).isOk) = true ∧
    ([Instr.bvhBal (gf .none .none (.s 10) .none 2), .bvhPub (gf .none .none (.s 10) .none 2)].all fun i =>
      engines (building i) i fun e s => bvhOk e s (.s 10) && (e.awaits s e.frag.slices).isNone) = true ∧
    ([Instr.bvhBal (gf .none .none (.s 4) .none 2), .bvhPub (gf .none .none (.s 4) .none 2)].all fun i =>
      engines (building i) i fun e s => !bvhOk e s (.s 4)) = true := by
  decide +kernel

/-! ## Barriers, collectives and gates -/

/-- The barrier word of barrier 0, of the workgroup and of a cluster of two. -/
def withBar (s : State) (x : DWord) : State := withGroup s fun g => { g with bars := [(0, x)], clBars := [(0, x)] }
def clustered (s : State) : State := withLaunch s fun la => { la with ncl := 2 }
/-- In the next state of BAR, BAR.CL and WAITBAR every slice passes, or none. -/
def waitsAt (i : Instr) (cl : Bool) (s : State) (pass : Bool) : Bool :=
  issuesWith s i fun e =>
    let t := if e.frag.wait = .bar cl 0 ∨ i = .waitbar (yf 0) ∨ i = .waitbar (yf 0x40) then s
      else (s.release e.core e.wk e.frag.slices (barScope cl)).setPending e.wk e.frag.slices cl 0 1
    (e.awaits s e.frag.slices).isNone && e.frag.slices != 0 && t.passing e cl 0 == (if pass then e.frag.slices else 0)

theorem witness_BarrierInstructions :
    waitsAt (.bar (yf 0)) false (withBar (placed (.bar (yf 0))) (mkBar 0 1 1)) true = true ∧
    waitsAt (.bar (yf 0)) false (withBar (placed (.bar (yf 0))) (mkBar 0 2 2)) false = true ∧
    waitsAt (.barCl (yf 0)) true (clustered (withBar (placed (.barCl (yf 0))) (mkBar 0 1 1))) true = true ∧
    waitsAt (.barCl (yf 0)) true (clustered (withBar (placed (.barCl (yf 0))) (mkBar 0 2 2))) false = true ∧
    waitsAt (.waitbar (yf 0)) false (withBar (placed (.waitbar (yf 0))) (mkBar 1 1 1)) true = true ∧
    waitsAt (.waitbar (yf 0)) false (withBar (placed (.waitbar (yf 0))) (mkBar 0 1 1)) false = true ∧
    waitsAt (.waitbar (yf 0x40)) true (clustered (withBar (placed (.waitbar (yf 0x40))) (mkBar 1 1 1))) true = true ∧
    waitsAt (.waitbar (yf 0x40)) true (clustered (withBar (placed (.waitbar (yf 0x40))) (mkBar 0 1 1))) false = true ∧
    ([Instr.arrive (yf 0), .arrive (yf 0x1C0)].all fun i => engines (clustered (withBar (placed i) (mkBar 0 8 8))) i fun e s =>
      (e.awaits s e.frag.slices).isNone) = true := by
  decide +kernel
/-- A fragment that waits at its barrier already: it goes on once the phase has changed. -/
theorem witness_barrierWaits :
    ([(Instr.bar (yf 0), false), (.barCl (yf 0), true)].all fun p =>
      let s (phase : Nat) : State :=
        clustered (withBar (withWave (placed p.1) fun w => { w with frags := w.frags.map fun f => { f with wait := .bar p.2 0 } }) (mkBar phase 2 2))
      waitsAt p.1 p.2 (s 1) true && waitsAt p.1 p.2 (s 0) false) = true := by decide +kernel
/-- Arrivals below COUNT, at it and above it, and a RELOAD of 0. -/
theorem witness_BarrierWords :
    let s (x : DWord) : State := withBar (placed (.bar (yf 0))) x
    ((s (mkBar 7 8 8)).workgroups.find? 0).isSome = true ∧ barCount ((s (mkBar 7 8 8)).barWord 0 false 0) = 8 ∧
    barReload ((s (mkBar 255 8 1)).barWord 0 true 0) = 8 ∧ barReload ((s (mkBar 255 0 1)).barWord 0 true 0) = 0 := by decide +kernel

/-- The descriptor of an f32 collective of one element, at byte 64 of object 2, from byte 256 to byte 512. -/
def collecting (i : Instr) : State :=
  placedIn (smallWorld (object 2 0 0x1000 ++ [(home 2 + 64, 0x0000000108000000#64), (home 2 + 72, mkRef 2 15 256), (home 2 + 80, mkRef 2 15 512)]))
    [(26, mkRef 2 15 64)] i
theorem witness_Collectives :
    let f := yf (y2 (.s 26) .none 0x5000)
    ([Instr.collRed f, .collGath f, .collScat f, .collBcast f].all fun i => engines (collecting i) i fun e s =>
      okay (s.checkBytes e.core e.dom (e.readRef f.op1 e.first) needRW (.only 0) 64 64 64) fun de => (e.awaits s e.frag.slices).isNone && s.colls.isEmpty &&
        (let s1 := s.release e.core e.wk e.frag.slices 6
         s1.residentAddr e.dom de 64 64 == some (home 2 + 64) && !s1.anyPoison (home 2 + 64) 64 &&
         (let n := collBytes i (s1.word64 (home 2 + 64)) e.launch.npkg e.launch.rank
          n.2 == 4 && (e.collRange s1 (s1.word64 (home 2 + 72)) needR .load n.1).isOk &&
            (e.collRange s1 (s1.word64 (home 2 + 80)) needW .store n.2).isOk))) = true := by decide +kernel
theorem witness_CollWait :
    let f := yf (y2 (.s 26) .none 0x5000)
    let w : Instr := .collWait (yf 5)
    issuesIn (placed w) w = true ∧
    (gives (exec (.collRed f) (collecting (.collRed f))) fun t => t.colls.any (fun c => c.wave == 0 && c.channel == 5) &&
      issuesIn { placed w with colls := t.colls } w) = true := by decide +kernel

/-- A gate table, object 7, whose entry 0 has w0 as its first word and calls object 1 of the same domain; a save area, object 8. -/
def gating (w0 : DWord) (i : Instr) : State :=
  placedIn (smallWorld (object 7 7 32 ++ object 8 8 0x10000 ++ [(home 7, w0), (home 7 + 8, refTo 1), (home 7 + 16, refTo 1), (home 7 + 24, refTo 8)]))
    [(14, refTo 7)] i
/-- GATE meets its checks, and its entry gives an early status, or none and a free slot. -/
def gateGives (s : State) (i : Instr) (early : Option Nat) (slot : Option Nat) : Bool :=
  engines s i fun e s =>
    okay (s.checkObject e.core e.dom (e.readRef (.s 14) e.first) needX (.only 7) 0 0) fun table =>
      decide (32 ≤ table.length) && (e.settled s).isNone && s.residentAddr e.dom table 0 32 == some (home 7) && !s.anyPoison (home 7) 32 &&
        (let g : GateWords := ⟨s.word64 (home 7), s.word64 (home 7 + 8), s.word64 (home 7 + 16), s.word64 (home 7 + 24)⟩
         let area := s.entryFor e.core g.cdom (refIndex g.save)
         (if g.valid = false then some 1 else if e.wave.gdepth = 4 then some 3
            else if e.launch.vregs < g.vmin ∨ e.launch.sregs < g.smin then some 4 else if e.calleeOk s g = false then some 5 else none) == early &&
         (early.isSome || (s.residentAddr g.cdom area 0 1024).isSome && s.freeSlot g.cdom area == slot))
def gateWord : Instr := .gate (yf (y1 (.s 14) (BitVec.setWidth 27 (0#10 ++ (Operand.s 9).bits ++ 0#8))))
/-- An entry that is not valid, a gate stack of depth 4, too few registers, a callee's domain that is not valid, and a call. -/
theorem witness_Gate :
    gateGives (gating 0 gateWord) gateWord (some 1) none = true ∧
    gateGives (withWave (gating 0x8000000000000000 gateWord) fun w => { w with status := mkStatus 4 0 false }) gateWord (some 3) none = true ∧
    gateGives (gating 0x8000000080800000 gateWord) gateWord (some 4) none = true ∧
    gateGives (gating 0x8000000100000000 gateWord) gateWord (some 5) none = true ∧
    gateGives (gating 0x8000000000000000 gateWord) gateWord none (some 0) = true := by decide +kernel
theorem test_gate :
    (gives (exec gateWord (gating 0x8000000000000000 gateWord)) fun t => (wave t).gdepth == 1 && (wave t).pc 0 == 1 && (wave t).codeObj == 1 &&
      (wave t).tsave == mkRef 8 needRW 1024) = true := by decide +kernel

def caller : GateEntry := ⟨0, 1, 1, refTo 1, refTo 8, 1, .s 9, 8, 0⟩
def called (s : State) : State := withWave s fun w => { w with gates := [caller], status := mkStatus 1 0 false }
theorem witness_Gateret :
    let i : Instr := .gateret (yf 0)
    engines (called (placed i)) i (fun e s => (e.settled s).isNone && e.wave.gates == [caller] &&
      (s.residentAddr e.dom (s.tableEntry e.dom 8) 0 8).isSome) = true := by decide +kernel
/-- Object 2 into index 20 of the caller's table, moved and not; without the grant right; into index 0, index 64 of 64, a taken one; a tensor. -/
theorem witness_ObjectGrants :
    let g (src : BitVec 7) (move : Bool) : Instr := .objGrant (yf (y2 (.s 24) (.s src) (if move then 0x31000 else 0x30000)))
    let s (w0 : DWord) (x : Nat) (i : Instr) : State :=
      called (placedIn (smallWorld (object 2 0 0x1000 ++ object 3 1 0x2000 ++ [(0x2040, w0)])) [(4, refTo 2), (6, refTo 3), (24, mkRef x 0 0)] i)
    let checks (s : State) (i : Instr) (src : BitVec 7) (p : ObjEntry → State → Bool) : Bool := issuesWith s i fun e =>
      okay (s.checkObject e.core e.dom (e.readRef (.s src) e.first) needNone .any 0 0) fun entry => e.wave.gates == [caller] && !s.converting entry && p entry s
    let full : DWord := 0x0F80000000001000
    ([true, false].all fun m => checks (s full 20 (g 4 m)) (g 4 m) 4 fun x t => x.rights.getLsbD 0 && x.kind == 0 && t.otCount 0 == 64 && !(t.tableEntry 0 20).w3.getLsbD 63) = true ∧
    checks (s 0x0F00000000001000 20 (g 4 false)) (g 4 false) 4 (fun x _ => !x.rights.getLsbD 0) = true ∧
    ([0, 64, 3].all fun x => checks (s full x (g 4 false)) (g 4 false) 4 fun y t => y.rights.getLsbD 0 && (x != 3 || (t.tableEntry 0 3).w3.getLsbD 63)) = true ∧
    checks (s full 20 (g 6 false)) (g 6 false) 6 (fun x _ => x.kind == 1) = true ∧
    (issuesWith (s full 20 (g 4 true)) (g 4 true) fun e => (e.awaits (s full 20 (g 4 true)) e.frag.slices).isNone && e.frag.wait == .none) = true ∧
    (let t := withWave (s full 20 (g 4 true)) fun w => { w with frags := w.frags.map fun f => { f with wait := .moved 0 2 } }
     let u : State := { t with storeQ := [⟨⟨1, 1⟩, 0, ⟨0, 0, refTo 2, ⟨1, 0, 0, 0⟩, .byte 0, 1, [0], []⟩, false, 0, false, false⟩] }
     (issuesWith t (g 4 true) fun e => e.frag.wait == .moved 0 2 && !t.staleUse 0 2) &&
       issuesWith u (g 4 true) fun e => e.frag.wait == .moved 0 2 && u.staleUse 0 2) = true := by decide +kernel

/-! ## The system -/

def atLevel (s : State) (n : Nat) : State := withWave s fun w => { w with status := mkStatus 0 n false }
def sreadOf (o : Operand) (n : BitVec 27) : Instr := .sread (yf (y1 o n))
def swriteOf (o : Operand) (n : BitVec 27) : Instr := .swrite (yf (y1 o n))
/-- Each register that SREAD reads, into a scalar and into a vector register; the banks of level n at that level. -/
theorem witness_Sread :
    ([Operand.s 60, .v 60].all fun o =>
      ([0x000, 0x001, 0x002, 0x003, 0x010, 0x011, 0x040, 0x041, 0x080, 0x081, 0x082, 0x083, 0x084, 0x085, 0x086, 0x087].all fun n =>
        runsIn (placed (sreadOf o n)) (sreadOf o n)) &&
      ([0x020, 0x021, 0x022, 0x023].all fun n => runsIn (atLevel (placed (sreadOf o n)) 1) (sreadOf o n) && !issuesIn (placed (sreadOf o n)) (sreadOf o n)) &&
      ([0x028, 0x029, 0x02A, 0x02B].all fun n => runsIn (atLevel (placed (sreadOf o n)) 2) (sreadOf o n) &&
        !issuesIn (atLevel (placed (sreadOf o n)) 1) (sreadOf o n))) = true := by decide +kernel
theorem witness_Swrite :
    ([Operand.s 4, .int 7].all fun o => ([0x000, 0x010, 0x011].all fun n => runsIn (placed (swriteOf o n)) (swriteOf o n)) &&
      ([0x020, 0x021, 0x022, 0x023, 0x028, 0x029, 0x02A, 0x02B].all fun n => runsIn (atLevel (placed (swriteOf o n)) 2) (swriteOf o n))) = true := by
  decide +kernel
/-- `swrite mode, 0x101` (R510): RM 1, and DET bits kept; RM 7 is taken as 1. -/
theorem test_swriteMode :
    ([(0x101, 0x101), (0x107, 0x101), (0x100, 0x101), (0x104, 0x104)].all fun x =>
      let i : Instr := .swrite (yf (y1 .lit 0) (some (BitVec.ofNat 64 x.1)))
      gives (exec i (placed i)) fun t => (wave t).mode == BitVec.ofNat 32 x.2) = true := by decide +kernel

/-- The debugger of session 0, attached to context 0 with breakpoints enabled. -/
def debugging (s : State) : State := { s with bar0 := s.bar0 ++ [(0x2000, 0xC000000000000000#64)] }
theorem witness_TrapInstructions :
    ([Instr.trap (yf 0x2A), .brk (yf 7)].all fun i => issuesWith (placed i) i fun e => !e.wave.hasRays && !(placed i).breaks e.wave e.launch) = true ∧
    issuesWith (debugging (placed (.brk (yf 7)))) (.brk (yf 7)) (fun e => (debugging (placed (.brk (yf 7)))).breaks e.wave e.launch) = true := by
  decide +kernel
/-- `trap 0x2A` (R510): cause 0x30, the next word in TRET1, the immediate in TVAL1, at the handler's header. -/
theorem test_trap :
    let i : Instr := .trap (yf 0x2A)
    (gives (exec i (placed i)) fun t => (wave t).tl == 1 && (wave t).bank1.cause == 0x30 && (wave t).bank1.ret == 2 && (wave t).bank1.val == 0x2A &&
      (wave t).bank1.stat == mkStatus 0 0 false && (wave t).pc 0 == 1 && (wave t).pc 1 == 1) = true := by decide +kernel

/-- The conditions of `TrapEntry`, at levels 0 and 1. -/
theorem witness_TrapEntry :
    ([0, 1].all fun n =>
      let s := atLevel (placed (.nop (yf 0))) n
      match s.waves.find? 0, s.workgroups.find? 0, s.launches.find? 0 with
      | some w, some g, some la => (w.frag? 0).isSome && w.pend.isEmpty && w.tl == n && (w.bank (n + 1)).parked == 0 && w.wg == 0 && g.launch == 0 &&
          (s.checkTvec g.core la w.dom.toNat w.tvec).isSome && (s.checkTsave g.core w.dom.toNat w.tsave).isSome
      | _, _, _ => false) = true := by decide +kernel

/-- RETT at level 1 and level 2: an address past the code object's 3 words and within; a status of another depth, and each level below. -/
theorem witness_TrapReturn :
    let i : Instr := .rett (yf 0)
    let s (n ret : Nat) (stat : Word) : State := withWave (atLevel (placed i) n) fun w =>
      w.setBank n { w.bank n with ret := BitVec.ofNat 64 ret, stat := stat, codeObj := 1, lanes := 3 }
    let checks (s : State) (p : Bool → Bool → Bool) : Bool := issuesWith s i fun e =>
      let w := e.wave
      let b := w.bank w.tl
      p (decide (b.ret.toNat / 2 ^ 39 ≠ 0 ∨ s.codeLen e.launch e.dom b.codeObj.toNat ≤ b.ret.toNat))
        (decide (b.stat.toNat / 2 ^ 8 = 0 ∧ b.stat.toNat / 16 % 16 = w.gdepth ∧ b.stat.getLsbD 2 = w.gated ∧ b.stat.getLsbD 3 = w.halted ∧ b.stat.toNat % 4 < w.tl))
    ([1, 2].all fun n => checks (s n 3 0) (fun bad _ => bad) && checks (s n (2 ^ 39) 0) (fun bad _ => bad) && checks (s n 2 0x10) (fun bad good => !bad && !good) &&
      checks (s n 2 (mkStatus 0 n false)) (fun bad good => !bad && !good) && checks (s n 1 0) (fun bad good => !bad && good)) = true ∧
    checks (s 2 1 1) (fun bad good => !bad && good) = true := by decide +kernel

/-- A second launch, of another context, on the core. -/
def shared (s : State) : State :=
  { s with launches := s.launches ++ (s.launches.map fun x => (1, { x.2 with ctx := 1 })), workgroups := s.workgroups ++ (s.workgroups.map fun x => (1, { x.2 with launch := 1 })),
           waves := s.waves ++ (s.waves.map fun x => (16, { x.2 with wg := 1 })), contexts := [(0, Context.default)] }
theorem witness_SystemHints :
    let hint : Instr := .phint (yf 1 (some 0x3000000FF))
    let mark : Instr := .mark (yf (y1 (.s 1) 9))
    let wait (n : BitVec 27) (o : Operand) : Instr := .waitClk (yf (y1 o n))
    let yield : Instr := .yield (yf 0)
    let until_ (s : State) (t : Wait) : State := withWave s fun w => { w with frags := w.frags.map fun f => { f with wait := t } }
    ([Instr.nop (yf 0), hint, .enter (yf 5), mark, yield].all fun i => runsWith (placed i) i fun e =>
      e.wg.request.isNone && (placed i).contexts.isEmpty && ((placed i).readyContexts e.core 0).isEmpty) = true ∧
    runsIn (withWave (placed (.leave (yf 5))) fun w => { w with regions := [5] }) (.leave (yf 5)) = true ∧
    issuesIn (withWave (placed (.leave (yf 5))) fun w => { w with regions := [] }) (.leave (yf 5)) = false ∧
    issuesIn (withGroup (placed hint) fun g => { g with request := some (true, 0) }) hint = true ∧
    issuesIn { placed mark with contexts := [(0, { Context.default with traceq := some (0x400000, 64) })] } mark = true ∧
    issuesWith (shared (placed yield)) yield (fun e => (shared (placed yield)).readyContexts e.core 0 == [1]) = true ∧
    runsWith (until_ (placed (wait 0 (.int 5))) (.clkAt 0)) (wait 0 (.int 5)) (fun e => e.frag.wait == .clkAt 0) = true ∧
    runsWith (until_ (placed (wait 1 (.int 0))) (.clkAbs 0)) (wait 1 (.int 0)) (fun e => e.frag.wait == .clkAbs 0) = true ∧
    runsWith (placed (wait 0 (.int 0))) (wait 0 (.int 0)) (fun e => e.frag.wait == .none) = true ∧
    issuesWith (placed (wait 0 (.int 5))) (wait 0 (.int 5)) (fun e => e.frag.wait == .none) = true := by decide +kernel

/-! ## References and queries -/

/-- A conversion of the tensor that goes on, and one that cannot. -/
theorem witness_TensorQueries :
    let taddr : Instr := .taddr (vf (.v 60) (.s 6) .none (.v 4) .s32)
    let relay (tag : BitVec 5) : Instr := .relayout (vf .none (.s 6) (.int tag) .none .s32)
    let wait : Instr := .rlwait (vf .none (.s 6) .none .none .s32)
    let writable (s : State) (i : Instr) (need : BitVec 4) (p : Env → ObjEntry → Bool) : Bool := issuesWith s i fun e =>
      okay (s.checkObject e.core e.dom (refTo 3) need (.only 1) 0 0) fun x => e.readRef (.s 6) e.first == refTo 3 && p e x
    ((runsWith (placed taddr) taddr fun e => (e.taddr (placed taddr) (vf (.v 60) (.s 6) .none (.v 4) .s32) 0).isOk &&
      (e.taddr (placed taddr) (vf (.v 60) (.s 6) .none (.v 4) .s32) 1).isOk) = true) ∧
    (let s := withWave (placed taddr) fun w => w.setV 4 1 64
     issuesWith s taddr fun e => (e.taddr s (vf (.v 60) (.s 6) .none (.v 4) .s32) 0).isOk && !(e.taddr s (vf (.v 60) (.s 6) .none (.v 4) .s32) 1).isOk) = true ∧
    writable (placed (relay 5)) (relay 5) needW (fun _ x => !((placed (relay 5)).tensor x).relayoutOk 5) = true ∧
    writable (placed (relay 1)) (relay 1) needW (fun _ x => ((placed (relay 1)).tensor x).relayoutOk 1 && !(placed (relay 1)).foreignFrames x) = true ∧
    (writable (placed wait) wait needR (fun _ x => !(placed wait).converting x) && runsIn (placed wait) wait) = true ∧
    (let s := (placed wait).setWord64 0x8300 0x10062
     let t : State := { s with convs := [⟨0, 0x8300, 0, 3, [], 0, 0, true⟩] }
     let u : State := { s with poison := s.poison.insert (0x8300 / 32) 1 }
     writable u wait needR (fun _ x => u.converting x && u.tensorDamaged x) &&
     writable s wait needR (fun _ x => s.converting x && !s.tensorDamaged x && !s.convDead x) &&
     writable t wait needR (fun _ x => t.converting x && !t.tensorDamaged x && t.convDead x)) = true := by
  decide +kernel
/-! ## Steps that are not instructions: waves and engines -/

def some? {α : Type} (x : Option α) (p : α → Bool) : Bool :=
  match x with
  | some a => p a
  | none => false
/-- The wave of the test state with its fragment changed. -/
def withFrag (s : State) (f : Frag → Frag) : State := withWave s fun w => { w with frags := w.frags.map f }
def pending (k : PendKind) (i : Instr) : Pending := ⟨0, 1, i, 1, [(0, 15)], false, k, 1, [], [], 0, [], none, 0⟩

theorem witness_notAnInstruction :
    ([0x0190000000000000, 0xD000000000000000, 0xE000000000000000, 0xF000000000000000] : List DWord).all (fun w =>
      let s := prepare (turned (world.placeWords w none)) [header 3, w, exitWord]
      let i : Instr := .notAnInstruction w
      some? (s.env i) fun e => e.canIssue && !s.entryOwed e.wk e.frag && (e.blocker i).isNone && !s.fetchPoisoned e i && !s.bloadBusy e.wk i) = true := by
  decide +kernel

/-- A fragment that holds at a header since issue 5, 4096 issues before and one less; results, accesses and texel reads that wait. -/
theorem witness_WaveEvents :
    let nop := placed (.nop (yf 0))
    let ld : Instr := .ld (mf (.v 60) (.s 4) .none)
    let held (n : Nat) : State := withWave (withFrag nop fun f => { f with hold := some 5 }) fun w => { w with pcs := [(0, 0), (1, 0)], issueCount := n }
    ([4101, 4100].all fun n => some? ((held n).waves.find? 0) fun w => some? (w.frag? 0) fun f => w.atHeader f && f.hold == some 5 &&
      decide (5 + 4096 ≤ w.issueCount) == (n == 4101)) = true ∧
    ([PendKind.result, .access, .sampler].all fun k =>
      let s := withWave nop fun w => { w with pend := [pending k ld] }
      s.onCore 0 && some? (s.waves.find? 0) fun w => some? (w.pend.find? fun q => q.id == 0) fun p => p.kind == k) = true ∧
    (gives (exec ld (placed ld)) fun t => t.onCore 0) = true ∧
    (let far : Instr := .ld (mf (.v 60) (.s 18) .none)
     gives (exec far (placed far)) fun t => some? (wave t).pend[0]? fun p => p.kind == .access && p.accs.length == 2) = true ∧
    (let s := withFrag (placed (.waitClk (yf (y1 (.int 5) 0)))) fun f => { f with wait := .clkAt 5 }
     some? (s.waves.find? 0) fun w => some? (w.frag? 0) fun f => f.wait == .clkAt 5 && s.fetched 0 0 == some (.waitClk (yf (y1 (.int 5) 0)))) = true ∧
    ([(Wait.clkAt 0, (0 : BitVec 27)), (.clkAbs 0, 1)].all fun p =>
      let i : Instr := .waitClk (yf (y1 (.int 0) p.2))
      let s := withFrag (placed i) fun f => { f with wait := p.1 }
      runsWith s i fun e => s.cur == some (e.wk, e.fid) && s.fetched e.wk e.fid == some i && e.frag.wait == p.1) = true := by
  decide +kernel

/-- A copy of the first four bytes of object 2 onto themselves; a tile operation. -/
theorem witness_copyComplete :
    let i : Instr := .copy (mf (.s 4) (.s 4) (.int 4) 0x1FE 0)
    (gives (exec i (placed i)) fun t => some? t.copies[0]? fun c => t.onCore c.wave && c.srcScratch.isNone && c.dstScratch.isNone &&
      (let is := ((List.range c.lineCount).filter fun j => !c.lines.getLsbD j).flatMap c.bytesOf
       is == [0, 1, 2, 3] && (is.all fun i => t.copyPlace c c.srcRef c.srcEntry i == some (home 2 + i) &&
         t.copyPlace c c.dstRef c.dstEntry i == some (home 2 + i)) &&
       !t.copyUnreadable c is && !t.noTranslation c.dom.toNat false (is.map (home 2 + ·)) && !t.noTranslation c.dom.toNat true (is.map (home 2 + ·)))) = true := by
  decide +kernel
theorem witness_matrixOpComplete :
    let i : Instr := .aclr (xf 2 .none .none .none 0 .s32)
    (gives (exec i (placed i)) fun t => some? t.matOps[0]? fun o => t.onCore o.wave && !t.opOrdered 0 o) = true := by decide +kernel
def engineOf (x : FillOut) : Bool :=
  match x with
  | .done _ => true
  | _ => false
/-- An image of one layer of one input and one output: 96 bytes. -/
theorem witness_weightFill :
    let i : Instr := .wpin (gf (.s 60) .none (.s 12) .none)
    let w := smallWorld (object 6 4 0x80 ++ [(home 6, 0x0000008001000001#64), (home 6 + 0x10, 0x004000600101C000#64)])
    (gives (exec i (placedIn w [(12, refTo 6)] i)) fun t => some? (SMap.get [] t.wfills 0)[0]? fun f =>
      engineOf ((t.drainStores (ofSlices f.wave f.slices)).fillImage 0 f.dom.toNat f.ref f.ch)) = true := by decide +kernel
theorem witness_collectiveComplete :
    let i : Instr := .collRed (yf (y2 (.s 26) .none 0x5000))
    (gives (exec i (collecting i)) fun t => some? t.colls[0]? fun c => some? (t.launches.find? c.launch) fun la => some? (t.waves.find? c.wave) fun w =>
      (t.workgroups.find? w.wg).isSome && la.npkg == 1 && (t.collNeeds c (collBytes c.instr c.w0 la.npkg la.rank)).isEmpty && !t.collConverts c &&
      !t.collUnreadable c (collBytes c.instr c.w0 la.npkg la.rank)) = true := by decide +kernel

/-! ## Rays, builders and raster units -/

theorem witness_rayTraversalEnd :
    let i : Instr := .rayTrace (gf (.v 64) (.v 8) (.s 10) (.s 1) 1)
    let s := withWave (placed i) fun w => { w with pend := [pending .ray i], rays := [(0, ⟨0, refTo 5, noEntry, 3, [], false, false, false, 0, none, [], none, true⟩)] }
    (s.onCore 0 && some? (s.waves.find? 0) fun w => (w.pend.find? fun p => p.kind == .ray && p.mask.getLsbD 0).isSome &&
      some? (w.rays.find? 0) fun r => r.isOver) = true := by decide +kernel
theorem witness_armatureOps :
    let i : Instr := .bvhPub (gf .none .none (.s 10) .none 2)
    (gives (exec i (building i)) fun t => some? t.builds[0]? fun o => t.builds.length == 1 && t.onCore o.wave && !o.started &&
      (t.buildNeeds o).isEmpty && (t.buildNeeds { o with started := true }).isEmpty && !t.buildUnreadable o && !t.buildUnreadable { o with started := true }) = true := by decide +kernel

def raster (ready : List (Nat × Nat × Nat)) (held backlog : List (List Word)) : RasterBinding :=
  ⟨0, 0, 4, 8, 1, 0, 4, 4, refTo 2, 3, 0, 0, false, false, 0, ready, held, backlog⟩
def rastering (x : RasterBinding) (inRecs mergeRecs : List QRec) (closed : Bool) : State :=
  withLaunch (placed (.nop (yf 0))) fun la => { la with rasters := [(0, x)], queues := [(0, ⟨0, 0, 0, refTo 2, inRecs, closed⟩),
    (4, ⟨0, 0, 0, 0, [], false⟩), (8, ⟨0, 0, 0, 0, mergeRecs, closed⟩)] }
/-- Records in hand; a record in the queue; none in a closed queue; a record to hold; a held record whose token is open. -/
theorem witness_RasterEvents :
    let r : List Word := List.replicate 16 0
    let look (s : State) (p : Launch → RasterBinding → Bool) : Bool :=
      some? (s.launches.find? 0) fun la => some? (la.rasters.find? 0) fun x => !la.ended && p la x
    look (rastering (raster [] [] [r]) [] [] false) (fun _ x => !x.backlog.isEmpty) = true ∧
    look (rastering (raster [] [] []) [.ring r] [] false) (fun la x => x.backlog.isEmpty && some? (la.queues.find? x.ki) fun q => q.recs == [.ring r]) = true ∧
    look (rastering (raster [] [] []) [] [] true) (fun la x => some? (la.queues.find? x.ki) fun q => q.recs.isEmpty && q.closed) = true ∧
    look (rastering (raster [] [] []) [] [.ring r] false) (fun la x => x.ready.isNone && some? (la.queues.find? x.km) fun q => q.recs == [.ring r]) = true ∧
    look (rastering (raster [] [] []) [] [] true) (fun la x => x.ready.isNone && some? (la.queues.find? x.km) fun q => q.recs.isEmpty && q.closed) = true ∧
    (let s := rastering (raster [] [] []) [.spill 3] [] false
     let a := s.spillAcc (unitWho 0 0) ⟨0, 0, 0, refTo 2, [], false⟩ 3
     (match s.reaches a false with
      | .place p _ => p == home 2 + 192
      | _ => false) && !(s.noteUse (unitWho 0 0) a false).portPoisoned 0 (home 2 + 192)) = true ∧
    (let s := rastering (raster [(0, 0, 0)] [(r.set 2 1)] []) [] [] false
     look s fun la x => x.ready == some 0 && x.open_.any (fun t => t.1 == 0) && (s.mergeRecord la x (x.held.getD 0 [])).isOk) = true := by decide +kernel

/-! ## Residency and memory from outside -/

/-- Object 9's absent granule, asked for; then a frame taken; a request that may time out. -/
theorem witness_ResidencyEvents :
    let e : ObjEntry := ⟨0x0F80000000001000, 0x19000, 0x8900, 0x8000000000000000⟩
    let s : State := { world with requests := [(0, [⟨0, 9, e, 0, none, none, false⟩])], freeFrames := [(0, [0x50])] }
    s.halted = false ∧ (some? (SMap.get [] s.requests 0)[0]? fun r => r.moving.isNone &&
      (let w := s.needWord r.entry r.granule
       !granResident r.entry w && !r.entry.pinned && !granMoving w && !s.failsAtOnce r.entry w && !s.copyFails r &&
         ((SMap.get [] s.requests 0).findIdx? fun r => r.moving.isNone) == some 0 && some? (s.getFrame 0) fun x => x.1 == 0x50)) = true ∧
    (let bad : ObjEntry := { e with w3 := 0xC000000000000000 }
     let t : State := { s with requests := [(0, [⟨0, 9, bad, 0, none, none, false⟩])] }
     bad.pinned && t.failsAtOnce bad (t.needWord bad 0)) = true ∧
    decide ((s.reg 0x0920).toNat % 2 ^ 32 ≠ 0) = true ∧ (({ s with freeFrames := [] } : State).getFrame 0).isNone = true ∧
    some? (SMap.get [] ({ s with requests := [(0, [⟨0, 9, e, 0, none, some 0x50, false⟩])] } : State).requests 0)[0]? (fun r => r.moving == some 0x50) = true := by
  decide +kernel
/-- A conversion of the f16 tensor, object 3, to tag 1: its first tile. -/
theorem witness_conversionTile :
    let c : Conv := ⟨0, 0x8300, 0, 3, [(0, mkGranule 0 true false 0x23)], 0x2000, 0x13000, false⟩
    let s : State := { world.setWord64 0x8300 0x11062 with convs := [c] }
    let s := (s.setWord64 0x8318 0x8380).setWord64 0x8320 2
    some? s.convs[0]? (fun c =>
      let t := s.tensorAt c.desc
      let e := { s.tableEntry c.dom.toNat c.index with w1 := BitVec.ofNat 64 c.extroot, w2 := BitVec.ofNat 64 c.desc }
      t.tiles == 2 && !s.tileDone t 0 && !s.tensorDamaged { e with w0 := 0x1000000000000000#64 } && (s.tileNeeds c e t 0).isEmpty && (s.targetGranule c e 0).isSome &&
        decide ((s.reg 0x0920).toNat % 2 ^ 32 ≠ 0)) = true := by decide +kernel

/-- Host accesses at the ends of the device's memory. -/
theorem witness_HostEvents :
    0x9000000000 - 4 + 4 ≤ 0x9000000000 ∧ world.recovery = false ∧ world.halted = false ∧ hostBase - 5 + 4 < hostBase ∧ world.requests = [] := by decide +kernel

/-! ## Sluice, launches and scheduling -/

/-- A ring at 0x600000 with packet words, of queue 0 of die 0, in domain 0, with PRIV; object 2, a kernel descriptor at its byte 256. -/
def queueWorld (ring : List DWord) (more : List (Nat × DWord)) : State :=
  let s := smallWorld (object 2 0 0x1000 ++ more ++
    [(0x4000, 0x600005#64), (0x4008, 0x4800#64)] ++ (List.range ring.length).map fun i => (0x600000 + 8 * i, ring.getD i 0))
  { s with bar0 := s.bar0 ++ [(0x0010, 0x4000#64)], queues := [(0, ⟨BitVec.ofNat 64 (8 * ring.length), 0, false⟩)] }
/-- The packet at the queue's head. -/
def headsWith (s : State) (type : Nat) (p : QueueDesc → Packet → Bool) : Bool :=
  some? (s.queueOf 0 0) fun d => s.headType 0 0 == some type && (d.priv || decide (2 < type)) &&
    (let h := natOfBytes ((d.ring 0 8).map s.byte)
     let r := readFields type (h / 2 ^ 32) (h / 2 ^ 16 % 2 ^ 16) ((d.ring 0 (h / 2 ^ 16 % 2 ^ 16)).map s.byte)
     r.2.isNone && p d r.1)
/-- A packet word and a field word: its 16-bit identity and length, and four value bytes. -/
def packetWord (type len : Nat) : DWord := BitVec.ofNat 64 (7 * 2 ^ 32 + len * 65536 + 0x1000 + type)
def fieldWord (tag len value : Nat) : DWord := BitVec.ofNat 64 (value * 2 ^ 32 + len * 65536 + tag)
def signalRing (type : Nat) (value : Nat) : List DWord :=
  let r := (mkRef 2 15 64).toNat
  [packetWord type 32, fieldWord 0x40 8 (r % 2 ^ 32), BitVec.ofNat 64 (r / 2 ^ 32 + (8 * 65536 + 0x41) * 2 ^ 32), BitVec.ofNat 64 value]

theorem witness_packets :
    headsWith (queueWorld [packetWord 6 8] []) 6 (fun _ _ => true) = true ∧
    (let s := queueWorld (signalRing 3 5) []
     headsWith s 3 fun d p => decide (p.num 0x42 0 4 < 2) && s.goodSignal d.dom (p.word 0x40 0) true && s.goodComplete d p) = true ∧
    ([0, 1].all fun v =>
      let s := queueWorld (signalRing 4 v) []
      headsWith s 4 fun d p => decide (p.num 0x43 0 4 ≤ 2) && s.goodSignal d.dom (p.word 0x40 0) false &&
        some? (s.signalPlace (d.asker 0 0) (p.word 0x40 0) false) fun a => waitHolds 0 (s.word64 a) (p.word 0x41 0) == (v == 0)) = true ∧
    (let s := queueWorld [packetWord 2 24, fieldWord 0x30 8 0, 2] []
     headsWith s 2 fun d p => s.domBase != 0 && s.goodComplete d p && s.wcache.isEmpty) = true ∧
    (let s := queueWorld [packetWord 1 16, fieldWord 0x20 4 3] []
     headsWith s 1 fun d p => p.badContext.isNone && s.goodComplete d p && !p.has 0x23 && !p.has 0x26) = true := by decide +kernel
/-- A doorbell needs nothing; a restart of a stopped queue whose counts agree. -/
theorem witness_queueRestart :
    let s := (queueWorld [packetWord 6 8] []).stopQueue 0 0
    ((s.reg (stopReg 0 0)).getLsbD 0 && some? (s.queueOf 0 0) fun d => decide (((s.queueState 0 0).wptr - (s.queueState 0 0).rptr).toNat ≤ d.size)) = true := by
  decide +kernel

/-- A LAUNCH of one workgroup of one wave: kernel descriptor at byte 256 of object 2, code object 1, arguments object 2, saves in object 8. -/
def launchRing : List DWord :=
  let k := (mkRef 2 15 256).toNat
  let a := (refTo 2).toNat
  let t := (refTo 1).toNat
  let v := (refTo 8).toNat
  [packetWord 5 88, fieldWord 0x10 8 (k % 2 ^ 32), BitVec.ofNat 64 (k / 2 ^ 32 + (8 * 65536 + 0x11) * 2 ^ 32), BitVec.ofNat 64 a,
    fieldWord 0x12 12 1, 0x0000000100000001, fieldWord 0x13 4 0, fieldWord 0x14 4 9, fieldWord 0x15 16 (t % 2 ^ 32),
    BitVec.ofNat 64 (t / 2 ^ 32 + v % 2 ^ 32 * 2 ^ 32), BitVec.ofNat 64 (v / 2 ^ 32)]
def launchWorld (code : DWord) : State :=
  queueWorld (launchRing) (object 8 8 0x10000 ++ [(home 2 + 256, code), (home 2 + 272, 0x0001010101080008#64)])
def launchOk (x : LaunchCheck) : Bool :=
  match x with
  | .ok _ _ => true
  | _ => false
def launchRefused (x : LaunchCheck) : Bool :=
  match x with
  | .reject _ _ => true
  | _ => false
theorem witness_launch :
    headsWith (launchWorld (refTo 1)) 5 (fun d p => !p.has 0x1C && launchOk ((launchWorld (refTo 1)).checkLaunch d 0 0 p)) = true ∧
    (let s := queueWorld (launchRing.set 4 (fieldWord 0x12 12 0)) []
     headsWith s 5 fun d p => !p.has 0x1C && launchRefused (s.checkLaunch d 0 0 p)) = true := by decide +kernel
theorem witness_launchReplica :
    let s := launchWorld (refTo 1)
    let packet := (launchRing).flatMap fun w => bytesOfNat 8 w.toNat
    let r := readFields 5 7 88 (packet.take 88)
    (s.sluiceRuns && natOfBytes (packet.take 8) / 2 ^ 16 % 2 ^ 16 == 88 && r.2.isNone &&
      launchOk (s.checkLaunch ⟨0, 0, 0, 0, false, true, 0, 0, 0⟩ 0 0 { r.1 with fields := r.1.fields.filter fun f => f.tag != 0x01 })) = true := by decide +kernel
/-- A launch of generation 5 over packages 0 and 1 that has not started; no other launch of generation 6. -/
theorem witness_LaunchEvents :
    let s := withLaunch (placed (.nop (yf 0))) fun la => { la with startGen := some 5, started := false, pkgs := [0, 1] }
    (some? (s.launchOfGen 5) fun x => x.1 == 0 && x.2.accepting && x.2.pkgs.contains 1 && !x.2.started && !x.2.ended) = true ∧
    (s.launches.all fun x => x.2.startGen != some 5 || !x.2.killed) = true ∧ (s.launchOfGen 6).isNone = true := by decide +kernel

/-- A launch of one cluster, none placed. -/
theorem witness_clusterPlacement :
    let s : State := { world with launches := [(0, { Launch.holding 0 none with nextCluster := 0, code := refTo 1 })] }
    let s1 := (s.reserve 0).passTokens 0
    (some? (s1.launches.find? 0) fun la => la.nextPlace == some (0, 0) && s1.mayPlace la && !s1.turnOfOther 0 la && la.nstage == 1 &&
      (s1.placeCluster 0 la 0 0).isSome) = true ∧
    (let s : State := { world with launches := [(0, { Launch.holding 0 none with nextCluster := 0, nstage := 2, code := refTo 1 })] }
     let s1 := (s.reserve 0).passTokens 0
     some? (s1.launches.find? 0) fun la => la.nextPlace == some (0, 0) && s1.mayPlace la && !s1.turnOfOther 0 la && la.nstage != 1 &&
       (State.placeAll 0 la (la.myClusters * la.nstage - la.nextCluster) la.nextCluster s1).isSome) = true := by
  decide +kernel
theorem witness_SchedulingEvents :
    let s : State := { withLaunch (placed (.nop (yf 0))) (fun la => { la with scratch := 0 }) with
      contexts := [(0, { Context.default with pool := some (0x800000, 0x100000), slices := [(0, (0, 0))] })] }
    let phase (p : WgPhase) : State := withFrag (withGroup s fun g => { g with phase := p, request := some (true, 0) }) fun f => { f with stopped := some .stood }
    (some? ((s.context 0).slices.find? 0) fun x => decide (x.2 ≤ (s.counter (dieOf 0)).toNat)) = true ∧
    (some? ((phase .running).workgroups.find? 0) fun g => g.phase == .running && g.request == some (true, 0)) = true ∧
    (let t := phase (.stepping true true)
     some? (t.workgroups.find? 0) fun g => g.phase == .stepping true true && some? (t.launches.find? g.launch) fun la => t.readyToSave 0 &&
       (t.saveBase 0 la).isOk && (t.saveNeeds 0).length == 0) = true ∧
    (let t := phase (.saved 0x800000)
     some? (t.workgroups.find? 0) fun g => g.phase == .saved 0x800000 && (t.launches.find? g.launch).isSome && t.mayRestore g && t.poison.length == 0 && t.lostPkgs.length == 0 &&
       (some? (t.coresFor (dieOf g.core) (.restore 0)) fun cs => !cs.isEmpty)) = true := by decide +kernel
/-- No sector is poisoned, so no image is bad. -/
theorem witness_imageBad (s : State) (g base : Nat) (la : Launch) (h : s.poison = []) (k : s.lostPkgs = []) : s.imageBad g base la = false := by
  have p (a : Nat) : s.poisoned a = false := by simp [State.poisoned, h, SMap.find?, State.lost, k]
  simp [State.imageBad, State.anyPoison, p]

/-! ## Debugging and the platform -/

/-- A wave whose halt is in progress; sessions open and not; items of the halted wave of core 0 that DBGSEL and DBGADR name. -/
theorem witness_DebugEvents :
    let nop := placed (.nop (yf 0))
    let halting := withWave nop fun w => { w with halting := some (1, 1) }
    (some? (halting.waves.find? 0) fun w => w.halting == some (1, 1) && (w.pend.all fun p => p.kind == .result) && !halting.loadsRegs 0 && (some? (halting.waves.find? 0) fun w => w.frags.all fun f => !halting.entryOwed 0 f) && (halting.workgroups.find? w.wg).isSome &&
      (halting.launches.find? 0).isSome && (List.range 8).all fun n => !(halting.dbgCtl n).getLsbD 63) = true ∧
    (nop.sessionOpen 0 = false ∧ (List.range 8).all (fun m => !nop.sessionOpen m) = true) ∧ (debugging nop).sessionOpen 0 = true ∧
    ((debugging nop).debugTarget 0).isNone = true ∧ (nop.debugTarget 0).isNone = true ∧
    (let s := withWave (debugging nop) fun w => { w with status := mkStatus 0 0 true, slotNo := 0 }
     let t : State := { s with bar0 := s.bar0 ++ [(0x2018, 0x1000000000000101#64)] }
     some? (t.debugTarget 0) fun x => x.1 == 0 && x.2.2.2.2.1.isNone && x.2.2.2.2.2 == (1, 257) && t.mayReach 0 x.2.1 1 257) = true := by decide +kernel
/-- DBGDATA reads v1 of lane 1 (R489). -/
theorem test_dbgdata :
    let s := withWave (debugging (placed (.nop (yf 0)))) fun w => { w with status := mkStatus 0 0 true, slotNo := 0 }
    let t : State := { s with bar0 := s.bar0 ++ [(0x2018, 0x1000000000000101#64)] }
    (gives (exec (.dbgdataRead 0) t) fun u => u.reg 0x2020 == 3) = true := by decide +kernel

/-- A mailbox command that runs. -/
def commanded (w : DWord) : State := { State.reset with bar0 := [(0x1000, w), (0x1008, 1)] }
theorem witness_MailboxEvents :
    (State.reset.written 0x0038 5 = some 5 ∧ State.reset.mailbox ≠ 1) ∧ (commanded 0x1).runs 0x0001 = true ∧ (commanded 0x700000010).runs 0x0010 = true ∧
    (commanded 0x800000010).runs 0x0010 = true ∧ (commanded 0xF0000000010).runs 0x0010 = true ∧ (commanded 0xF0100000010).runs 0x0010 = true ∧
    (commanded 0x20).runs 0x0020 = true ∧ (commanded 0x11).runs 0x0011 = true ∧ (commanded 0x11).launches.isEmpty = true ∧
    (let s : State := { commanded 0x11 with launches := [(0, Launch.holding 0 none)] }
     s.runs 0x0011 && s.launches.any fun x => !x.2.ended) = true := by decide +kernel
/-- FWWRITE of one byte, 0xAB, at offset 5 (R395). -/
theorem test_fwwrite :
    let s : State := { State.reset with bar0 := [(0x1000, 0x900000010), (0x1008, 1), (0x1100, 5), (0x1108, 0xAB)] }
    (gives (exec .fwwrite s) fun t => SMap.get 0 t.flash 5 == 0xAB && t.mailbox == 0) = true := by decide +kernel

theorem witness_SecurityEvents :
    State.reset.identityErased = false ∧ ({ State.reset with identityErased := true } : State).identityErased = true ∧ State.reset.recovery = false ∧
    ({ State.reset with running := [1] } : State).running ≠ [] ∧ (4 : BitVec 8).getLsbD 2 = true := by decide +kernel
/-- An island that changes, one that stands; nothing else is asked. -/
theorem witness_ThermalEvents :
    let busy : State := { State.reset with bar0 := [(0x0400, mkIsland true false 100 50)] }
    (busy.reg 0x0400).getLsbD 31 = true ∧ (busy.reg 0x0400).getLsbD 30 = false ∧ (busy.islandNext.find? 0).isNone = true ∧
    (State.reset.reg 0x0400).getLsbD 31 = false ∧ (1 : BitVec 6) ≠ State.reset.myPackage := by decide +kernel
/-- A target of 10 is taken as 17 (R393). -/
theorem test_islandWrite :
    (gives (exec (.islandWrite 0 10) State.reset) fun t => t.reg 0x0400 == mkIsland true false 100 17) = true := by decide +kernel

/-! ## Links -/

/-- Port 0 up, with package 1 at its far end. -/
def carried (more : ObPort → ObPort) : State :=
  { State.reset with bar0 := [(0x0030, 0x8000000000000000#64), (0x0A00, 0xA004000000000000#64)], ports := [(0, more ⟨0, 0, [], [], []⟩)] }
theorem bytesOfNat_length (n x : Nat) : (bytesOfNat n x).length = n := by simp [bytesOfNat]
theorem natOfBytes_four (x : Nat) (h : x < 2 ^ 32) : natOfBytes (bytesOfNat 4 x) = x := by
  simp [bytesOfNat, natOfBytes, List.range_succ]; omega

/-- Any flit with 248 payload bytes has a right CRC. -/
theorem flitGood_mkFlit (q : BitVec 10) (v k : Nat) (p : List Byte) (h : p.length = 248) : flitGood (mkFlit q v k p) = true := by
  unfold flitGood mkFlit numAt
  rw [List.take_left' (by simp [bytesOfNat_length, h]), List.drop_left' (by simp [bytesOfNat_length, h]),
    List.take_of_length_le (by simp [bytesOfNat_length]), natOfBytes_four _ (crc32 _).isLt]
  simp [bytesOfNat_length, h]
theorem witness_PortEvents :
    (carried id).portCarries 0 = true ∧ flitGood [] = false ∧ flitGood (mkFlit 0 1 0 (List.replicate 248 7)) = true ∧ flitKind (mkFlit 0 1 0 (List.replicate 248 7)) = 0 ∧
    flitSeq (mkFlit 3 1 0 (List.replicate 248 7)) ≠ 0 ∧ flitSeq (mkFlit 0 1 0 (List.replicate 248 7)) = 0 :=
  ⟨by decide +kernel, by decide +kernel, flitGood_mkFlit _ _ _ _ List.length_replicate, by decide +kernel, by decide +kernel, by decide +kernel⟩
theorem witness_controlFlits :
    flitGood (controlFlit 2 5) = true ∧ flitKind (controlFlit 2 5) = 2 ∧ flitKind (controlFlit 3 5) = 3 ∧ flitGood (controlFlit 3 5) = true :=
  ⟨flitGood_mkFlit _ _ _ _ List.length_replicate, by decide +kernel, by decide +kernel, flitGood_mkFlit _ _ _ _ List.length_replicate⟩
theorem witness_ports :
    ((carried fun x => { x with replays := List.replicate 1025 0 }).portState 0 = 2 ∧ State.reset.portState 0 ≠ 2 ∧ (State.reset.reg 0x0030).getLsbD 63 = false ∧
      (State.reset.port 0).unacked = []) ∧ ((List.range 36).all fun q => (carried id).portState q != 2 || (carried id).portPeer q != 2) = true := by decide +kernel

/-- Connection 0 of die 0, in domain 0, whose descriptor stands at 0x5000 and its rings at 0x700000, 0x701000 and 0x702000; the link is up. -/
def connected (more : Conn → Conn) (words : List (Nat × DWord)) : State :=
  let s := smallWorld (object 2 0 0x1000 ++
    [(0x5000, 0x0001000000000000#64), (0x5020, 0x700004#64), (0x5028, 0x701004#64), (0x5030, 0x702004#64)] ++ words)
  { s with bar0 := s.bar0 ++ [(0x0060, 0x5000#64), (0x0B20, 0x8000000000000000#64)],
           conns := [(0, more ⟨0, 0, 0, 0, 0, 0, [], 0, 0, [], 0, none, []⟩)] }
/-- Work requests of each opcode that name an object the domain does not have. -/
theorem witness_TransportEvents :
    ((connected id []).connDesc 0 0).isSome = true ∧
    ([1, 2, 4].all fun op =>
      let s := connected (fun x => { x with sendProd := 1 }) [(0x700040, 0x77#64), (0x700048, BitVec.ofNat 64 (2 ^ 34 + op)), (0x700050, refTo 60)]
      some? (s.connDesc 0 0) fun d => let b := s.bytes (d.send.entryAt 0) 64
        (s.conn 0 0).sendCons != (s.conn 0 0).sendProd && (s.conn 0 0).waiting.isEmpty && (s.conn 0 0).work.isEmpty &&
          natOfBytes ((b.drop 8).take 1) == op && !(s.transportCheck d (refTo 60) (op == 2) 4).isOk) = true ∧
    (let s := connected (fun x => { x with waiting := [List.replicate 32 0] }) []
     some? (s.connDesc 0 0) fun d => !(s.conn 0 0).waiting.isEmpty && !s.ringFull d.cmpl) = true := by decide +kernel

/-- Frames of connection 0 in sequence: four bytes to and from byte 64 of object 2. -/
def frameOf (op : Nat) (last : Bool) (len : Nat) : List Byte := mkFrame op last 0 0 0 64 2 len (if op = 2 then [] else List.replicate len 9)
def framedBy (s : State) (op : Nat) (last : Bool) (p : ConnDesc → Frame → Bool) : Bool :=
  let bs := frameOf op last 4
  let f := readFrame bs
  s.linkUp 0 && frameGood bs && f.op == op && f.conn == 0 && f.last == last && f.psn == (s.conn 0 0).expect && some? (s.connDesc 0 0) fun d => p d f
def reading (status : Option Nat) : WorkReq := ⟨0, 7, 2, false, 8, mkRef 2 15 64, 0, 0, 4, status⟩
theorem witness_frames :
    let s := connected id []
    let reach (d : ConnDesc) (ref : DWord) (write : Bool) (n : Nat) : Bool := okay (s.transportCheck d ref write n) fun e => !s.converting e && (s.missing d.dom 2 e 64 4).length == 0
    framedBy s 1 true (fun d f => f.len == f.payload.length && f.off == 64 && f.obj == 2 && reach d (mkRef f.obj 15 f.off) true f.len) = true ∧
    framedBy s 2 true (fun d f => f.off == 64 && f.obj == 2 && reach d (mkRef f.obj 15 f.off) false f.len) = true ∧
    framedBy s 3 false (fun _ _ => (s.conn 0 0).work.isEmpty) = true ∧
    framedBy (connected (fun x => { x with work := [reading none] }) []) 3 false (fun d _ => okay (s.transportCheck d (mkRef 2 15 64) true 8) fun e =>
      !s.converting e && (s.missing d.dom 2 e 68 4).length == 0) = true ∧
    (let f := readFrame (mkFrame 1 true 0 0 0 64 60 4 (List.replicate 4 9))
     frameGood (mkFrame 1 true 0 0 0 64 60 4 (List.replicate 4 9)) && f.psn == 0 && f.op == 1 && f.conn == 0 && f.len == f.payload.length &&
       some? (s.connDesc 0 0) fun d => !(s.transportCheck d (mkRef f.obj 15 f.off) true f.len).isOk) = true ∧
    framedBy (connected (fun x => { x with waiting := [[]] }) []) 4 false (fun _ _ => true) = true ∧
    framedBy (connected (fun x => { x with recv := some (7, mkRef 2 15 64, 8, 0, 0) }) []) 4 false (fun d _ => reach d (mkRef 2 15 64) true 8) = true ∧
    framedBy s 5 false (fun _ _ => true) = true ∧
    (let t := connected (fun x => { x with nextPsn := 2, unacked := [⟨1, [], false, none⟩] }) []
     framedBy t 6 false fun d f => !((t.acknowledge 0 0 d f.ack).conn 0 0).unacked.isEmpty) = true := by decide +kernel

/-! ## Deterministic mode and single updates -/

/-- A launch in deterministic mode whose commit log, of n bytes, stands in object 2 from byte 0x400 on; another key has the token. -/
def logging (s : State) (n : Nat) : State :=
  withLaunch s fun la => { la with det := true, token := 7, clogRef := mkRef 2 15 0x400, clogLen := n }
def atomForm (e : Env) (s : State) (f : MFmt) (width : Nat) (fl : Bool) (l : Nat) : Except (Nat × DWord) Acc :=
  if f.immOp = .none then e.byteAcc s f 0 needA .store width l (e.atomData f fl f.data l) (e.atomData f fl .none l)
  else e.byteAcc s f 0 needRA .store width l (e.atomData f fl f.immOp l) (e.atomData f fl .none l)
/-- Two lanes' entries of 32 bytes each: as much room as they take, and a byte less; a form that returns; an ATILE of two lanes. -/
theorem witness_DeterministicUpdates :
    let f := mf (.v 1) (.s 4) .none 0x1FE
    let r := mf (.v 60) (.s 4) .none (Operand.v 1).bits
    let t := mf (.v 8) (.s 4) .none 0x1FE 5
    let away (e : Env) : Bool := e.launch.det && e.launch.token != e.launch.keyOf e.wg
    let updates (i : Instr) (f : MFmt) (width n : Nat) (fl : Bool) : Bool :=
      let s := logging (placed i) n
      issuesWith s i fun e =>
        let xs := (lanesOf e.lanes).map (atomForm e s f width fl)
        let accs := xs.filterMap fun x => match x with
          | .ok a => some a
          | .error _ => none
        away e && xs.all (fun x => x.isOk) && accs.length == 2 && e.wg.logUsed == 0 && (e.followsOps s (memOrder i).1 accs).isNone &&
          (s.logNeeds e.core e.launch.dom e.launch (e.launch.logPlace e.wg) n).isEmpty
    (updates (.aadd f) f 4 64 false && updates (.aadd r) r 4 64 false && updates (.aadd f) f 4 63 false && updates (.atile t) t 32 128 true) = true ∧
    completes (logging (placed (.aadd f)) 64) (.aadd f) = true ∧ holds (logging (placed (.aadd f)) 63) (.aadd f) = true ∧
    holds (logging (placed (.aadd r)) 64) (.aadd r) = true := by decide +kernel
/-- A DRAIN.ADD without the token: its 8,256 bytes fit, and a byte less. -/
theorem witness_loggedDrain :
    let f := xf 2 (.s 4) .none (.int 0) 0 .f32
    let i : Instr := .drainAdd f
    ([8256, 8255].all fun n =>
      let s := logging (placed i) n
      gangsWith s i fun e =>
        let e1 := e.ganged i s
        let s1 := s.ganged e i
        let s2 := s1.claimed e1
        e.launch.det && e.launch.token != e.launch.keyOf e.wg && (e1.awaits s1 e1.frag.slices).isNone && claimable e1 s1 &&
          !s2.tileBusy e.wk 2 && some? (s2.waves.find? e.wk) fun w => okay (e1.drainChecks s1 i f needA 32) fun o =>
            (e1.followsOps s2 0 (s2.drainAccs o f w)).isNone &&
              (s2.logNeeds e.core e.launch.dom e.launch (e.launch.logPlace e.wg) 8256).isEmpty) = true := by decide +kernel
theorem witness_TileUpdate :
    let f := mf (.v 8) (.s 4) .none 0x1FE 5
    let i : Instr := .atile f
    let s := alone (placed i)
    issuesWith s i (fun e => okay (e.byteAcc s f 0 needA .store 32 0 (e.atomData f true f.data 0) []) fun a =>
      decide (a.tgt = .byte 0 ∧ a.size = 32 ∧ a.data.length = 32) && decide (s.accPlace a = some (home 2, 0)) && !s.unreadable a &&
        !s.anyPoison (home 2) 32 && s.storeQ.isEmpty && e.launch.ranges.isEmpty && (SMap.get [] s.rdc (dieOf e.core)).isEmpty) = true := by
  decide +kernel

/-! ## Values -/

/-- Sums, minima and maxima of the lanes' f32 values, of which none raises a condition. -/
theorem witness_FloatScans :
    ([0, 1, 2].all fun r => [Operand.none, .v 1].all fun c =>
      let f := vf (.v 60) (.v 1) .none c .f32 r
      ([Instr.scan f, .scanx f, .reduce f].all fun i => runsWith (placed i) i fun e => f.ty.isFloat && e.lanes != 0 && decide (f.rnd.toNat < 3)) &&
        completes (placed (.scan f)) (.scan f)) = true := by decide +kernel
/-- An operation of each instruction, with what MMA.GRP's scalar and a shared step capture; segments of 3 and 61 rows end at row 64. -/
theorem witness_MatrixValues :
    let f (t : Ty) (m : BitVec 4) := xf 2 (.v 4) (.v 8) (.int 4) 0 t m
    let op (i : Instr) (sregs : List Word) (b : Option (SMap Word)) : MatOp :=
      ⟨0, 0, 1, i, 1, 0, 7, [(384, 0x3C00)], sregs, b, 0, noEntry, [], false, false⟩
    let start (o : MatOp) (h : Nat) : Nat := min 64 ((List.range h).map fun h => (o.sregs.getD 0 0).toNat / 256 ^ h % 256).sum
    let grp := op (.mmaGrp (f .f16 1)) [0x3D03] none
    (f .f16 0).ity ∈ [Ty.f16, .bf16, .s8, .z8, .e4m3, .e5m2, .mxf4] ∧ (f .mxf4 0).ity ∈ [Ty.f16, .bf16, .s8, .z8, .e4m3, .e5m2, .mxf4] ∧
    (op (.mma (f .f16 0)) [] none).instr = .mma (f .f16 0) ∧ (op (.mma (f .f16 1)) [] (some [(0, 1)])).shared = some [(0, 1)] ∧
    (op (.mmaSa (f .mxf4 0)) [] none).instr = .mmaSa (f .mxf4 0) ∧ grp.instr = .mmaGrp (f .f16 1) ∧
    ([start grp 0, start grp 1, start grp 2] = [0, 3, 64] ∧ 1 ≤ (f .f16 1).mode.toNat % 4) ∧
    (let few := op (.mmaGrp (f .f16 0)) [3] none
     start few ((f .f16 0).mode.toNat % 4 + 1) = 3) ∧
    ((op (.lutb (f .f16 0)) [] none).instr = .lutb (f .f16 0) ∧ Ty.isFloat (f .f16 0).ity = true) ∧
    ((op (.mmaLut (f .s8 6)) [] none).instr = .mmaLut (f .s8 6) ∧ (f .s8 6).sop = .int 4) ∧
    (op (.aclr (f .s8 0)) [] none).instr = .aclr (f .s8 0) ∧ (op (.ascale (f .f16 1)) [] none).instr = .ascale (f .f16 1) ∧
    (op (.ascale (f .f16 0)) [] none).instr = .ascale (f .f16 0) := by decide +kernel

/-- Texels of each format, its last channel and one more; coordinates near both ends of an axis, and beyond. -/
theorem witness_Filtering :
    ([(1, 0), (2, 1), (3, 3)].all fun x => decide (x.2 < TexHdr.channels x.1 0) && !decide (x.2 + 1 < TexHdr.channels x.1 0)) = true ∧
    ([0x05, 0x06, 0x07, 0x08, 0x09, 0x0A, 0x10, 0x11].all fun fmt => decide (0 < TexHdr.channels fmt 3)) = true ∧
    (let x (m k n : Nat) : Int := let a := axis (.fin false m (-(k : Int))) n
      256 * a.1 + a.2
     (-(2 ^ 31) < x 0 0 4 ∧ x 0 0 4 < 2 ^ 31 - 1) ∧ (x 8388609 0 1 = 2 ^ 31 - 1) ∧ (-(2 ^ 31) < x 1 9 1 ∧ x 1 9 1 % 2 = 0)) := by decide +kernel
/-- A layer of one input and one output, by each type of weights; codes at, below and above the ends of a clamp, and a NaN. -/
theorem witness_Networks :
    let l (wt : Nat) : NetLayer := ⟨64, 80, 1, 1, wt, 1⟩
    (0 < (l 12).n ∧ ([0x3F800000] : List Nat).length = (l 12).k) ∧ (0 < (l 13).n ∧ (l 13).k = 1) ∧ (0 < (l 14).n ∧ (l 14).k = 1) ∧
    (let above (c : Nat) : Bool := FVal.cmp (.fin false 0 0) (binary32.decode c) == some .lt
     let below (c : Nat) : Bool := FVal.cmp (binary32.decode c) (.fin false 1 0) == some .lt
     (above 1 = true ∧ above 0 = false ∧ above 0x80000001 = false ∧ below 0x3F7FFFFF = true ∧ below 0x3F800000 = false) ∧
       binary32.decode 0x7FC00000 = .nan ∧ 0xFFFFFFFF < 2 ^ 32) := by decide +kernel

/-! ## Engines, once more -/

/-- Copies into the scratchpad and out of it. -/
theorem witness_copySides :
    ([Instr.copyin (mf (.int 0) .none (.int 4) (Operand.s 4).bits 0), .copyout (mf .none (.int 0) (.int 4) (Operand.s 4).bits 0)].all fun i =>
      gives (exec i (placed i)) fun t => some? t.copies[0]? fun c => t.onCore c.wave && (c.srcScratch.isSome != c.dstScratch.isSome) &&
        (let is := ((List.range c.lineCount).filter fun j => !c.lines.getLsbD j).flatMap c.bytesOf
         is == [0, 1, 2, 3] && (is.all fun i =>
           (c.srcScratch.isSome || t.copyPlace c c.srcRef c.srcEntry i == some (home 2 + i)) &&
             (c.dstScratch.isSome || t.copyPlace c c.dstRef c.dstEntry i == some (home 2 + i))) && !t.copyUnreadable c is &&
           (c.srcScratch.isSome || !t.noTranslation c.dom.toNat false (is.map (home 2 + ·))) &&
           (c.dstScratch.isSome || !t.noTranslation c.dom.toNat true (is.map (home 2 + ·))) &&
           (let s1 := t.drainStores (ofSlices c.wave c.slices)
            c.srcScratch.isSome || is.all fun i => !s1.portPoisoned (dieOf c.core) (home 2 + i)))) = true := by decide +kernel
/-- A matrix operation that is checked, and its turn has come. -/
theorem witness_checkedOps :
    ([Instr.mma (xf 2 (.v 0) (.v 64) .none 1 .f16), .ascale (xf 2 (.v 4) .none .none 0 .f32 1)].all fun i =>
      gives (exec i (placed i)) fun t => some? t.matOps[0]? fun o => t.onCore o.wave && !t.opOrdered 0 o && checkedOp o.instr) = true := by decide +kernel
/-- A collective on one package that can end; one that its launch has lost. -/
theorem witness_collectiveEnds :
    let i : Instr := .collRed (yf (y2 (.s 26) .none 0x5000))
    (gives (exec i (collecting i)) fun t => some? t.colls[0]? fun c => some? (t.launches.find? c.launch) fun la => some? (t.waves.find? c.wave) fun w =>
      let size := collBytes c.instr c.w0 la.npkg la.rank
      (t.workgroups.find? w.wg).isSome && la.npkg == 1 && !c.lost && t.collLinked c size && !t.collUntranslated c size &&
        (t.collNeeds c size).isEmpty && !t.collConverts c && !t.collUnreadable c size &&
        (let u : State := { t with colls := t.colls.map fun c => { c with lost := true } }
         some? u.colls[0]? fun c => c.lost && (u.residentAddr c.dom.toNat c.descEntry (refOffset c.desc) 64).isSome)) = true := by decide +kernel
/-- Instructions that a vector pipe and the sampler check, pending on a core. -/
theorem witness_checkedEvents :
    let nop := placed (.nop (yf 0))
    ([(PendKind.result, Instr.frcp (vf (.v 60) (.v 1) .none .none .f32)), (.sampler, .sampleN (gf (.v 64) (.v 4) (.s 8) .none 8))].all fun x =>
      let s := withWave nop fun w => { w with pend := [pending x.1 x.2] }
      s.onCore 0 && Instr.checked x.2 && some? (s.waves.find? 0) fun w => (s.workgroups.find? w.wg).isSome &&
        some? (w.pend.find? fun q => q.id == 0) fun p => p.kind == x.1) = true ∧
    (let ld : Instr := .ld (mf (.v 60) (.s 18) .none)
     Instr.checked ld = false ∧ gives (exec ld (placed ld)) (fun t => some? (wave t).pend[0]? fun p => p.kind == .access && !p.accs.isEmpty) = true) ∧
    (let j : SampleJob := ⟨0, refTo 4, noEntry, 1, 0, 0, [], 0, [], refTo 6⟩
     let p : Pending := { pending .sampler (.sampleN (gf (.v 64) (.v 4) (.s 8) .none 8)) with samples := [j] }
     p.samples = [j]) := by decide +kernel
/-- No join waits where words stand that are no instructions. -/
theorem witness_notAnInstruction_join :
    ([0x0190000000000000, 0xD000000000000000, 0xE000000000000000, 0xF000000000000000] : List DWord).all (fun w =>
      let s := prepare (turned (world.placeWords w none)) [header 3, w, exitWord]
      some? (s.env (.notAnInstruction w)) fun e => (e.joinWait s (.notAnInstruction w)).isNone) = true := by decide +kernel

/-- A gate's callee whose save area is poisoned at its first sector and at the last of its slots' map; the map itself sound. -/
theorem witness_gatePoison :
    let s := gating 0x8000000000000000 gateWord
    ([0, 31].all fun k =>
      let t : State := { s with poison := [((home 8) / 32 + k, 1)] }
      engines t gateWord fun e s => okay (s.checkObject e.core e.dom (e.readRef (.s 14) e.first) needX (.only 7) 0 0) fun table =>
        !s.mapPoisoned table 0 32 && (let s1 := s.touchRange e.dom 7 0 32
          !s1.objectPoison (dieOf e.core) e.dom table 0 32 &&
          (let area := s1.entryFor e.core 0 8
           !s1.mapPoisoned area 0 1024 && (s1.residentAddr 0 area 0 1024).isSome && s1.objectPoison (dieOf e.core) 0 area 0 1024))) = true ∧
    trapsWith ({ s with poison := [((home 8) / 32, 1)] } : State) gateWord 0x09 = true ∧
    (let i : Instr := .gateret (yf 0)
     engines (called (placed i)) i fun e s => !s.mapPoisoned (s.tableEntry e.dom 8) 0 8) = true := by decide +kernel

/-- PHINT in a callee while a pre-emption is asked for. -/
theorem witness_gatedHint :
    let hint : Instr := .phint (yf 1 (some 0x3000000FF))
    let s := withGroup (called (placed hint)) fun g => { g with request := some (true, 0) }
    issuesWith s hint (fun e => e.wave.gated) = true := by decide +kernel
/-! ## Packets that fail their own checks -/

/-- A packet of a type with fields (tag, length, value), padded to 8 bytes, in the ring of queue 0. -/
def packetOf (type : Nat) (fields : List (Nat × Nat × Nat)) : List DWord :=
  let body := fields.flatMap fun x => bytesOfNat 2 x.1 ++ bytesOfNat 2 x.2.1 ++ bytesOfNat x.2.1 x.2.2
  let body := body ++ List.replicate ((8 - body.length % 8) % 8) 0
  packetWord type (8 + body.length) :: (List.range (body.length / 8)).map fun i => BitVec.ofNat 64 (natOfBytes ((body.drop (8 * i)).take 8))
def ringed (type : Nat) (fields : List (Nat × Nat × Nat)) : State := queueWorld (packetOf type fields) []
/-- A reference that is good for signals, and one to an object that the domain does not have. -/
def goodRef : Nat := (mkRef 2 15 64).toNat
def badRef : Nat := (refTo 60).toNat

theorem witness_signalRejected :
    let ref (r : Nat) := (0x40, 8, r)
    (let s := ringed 3 [ref goodRef, (0x41, 8, 5), (0x42, 4, 2)]
     headsWith s 3 fun _ p => decide (1 < p.num 0x42 0 4)) = true ∧
    (let s := ringed 3 [ref badRef, (0x41, 8, 5), (0x42, 4, 1)]
     headsWith s 3 fun d p => decide (p.num 0x42 0 4 ≤ 1) && !s.goodSignal d.dom (p.word 0x40 0) true) = true ∧
    (let s := ringed 3 [ref goodRef, (0x41, 8, 5), (0x01, 16, badRef)]
     headsWith s 3 fun d p => decide (p.num 0x42 0 4 ≤ 1) && s.goodSignal d.dom (p.word 0x40 0) true && !s.goodComplete d p) = true ∧
    (let s := ringed 4 [ref goodRef, (0x41, 8, 5), (0x43, 4, 3)]
     headsWith s 4 fun _ p => decide (2 < p.num 0x43 0 4)) = true ∧
    (let s := ringed 4 [ref badRef, (0x41, 8, 5), (0x43, 4, 2)]
     headsWith s 4 fun d p => decide (p.num 0x43 0 4 ≤ 2) && !s.goodSignal d.dom (p.word 0x40 0) false) = true := by decide +kernel
theorem test_signalRejected :
    (gives (exec (.signal 0 0) (ringed 3 [(0x40, 8, goodRef), (0x41, 8, 5), (0x42, 4, 2)])) fun t => (t.reg (stopReg 0 0)).getLsbD 0) = true := by
  decide +kernel
theorem witness_objinvRejected :
    (let s := { ringed 2 [(0x30, 8, 2)] with bar0 := [(0x0010, 0x4000#64)] }
     s.domBase = 0) ∧
    (let s := ringed 2 [(0x30, 8, 2), (0x01, 16, badRef)]
     headsWith s 2 fun d p => s.domBase != 0 && !s.goodComplete d p) = true := by decide +kernel
/-- Bad weight, slice, pool and rings; a bad COMPLETE; a pool while an image is saved; SWAPOUT without a pool and with one. -/
theorem witness_contextRejected :
    let ctx := (0x20, 4, 3)
    ([(0x21, 4, 0), (0x22, 4, 9), (0x22, 4, 10001), (0x23, 16, 1), (0x24, 16, 1)].all fun x =>
      headsWith (ringed 1 [ctx, x]) 1 fun _ p => p.badContext == some x.1) = true ∧
    (headsWith (ringed 1 [ctx, (0x22, 4, 10)]) 1 fun _ p => p.badContext.isNone) = true ∧
    (let s := ringed 1 [ctx, (0x01, 16, badRef)]
     headsWith s 1 fun d p => p.badContext.isNone && !s.goodComplete d p) = true ∧
    (let s := { ringed 1 [ctx, (0x23, 16, 0x1000000010000)] with workgroups := [(0, { (Launch.holding 0 none).workgroup 0 0 0 0 0 with phase := .saved 0x800000 })], launches := [(0, { Launch.holding 0 none with ctx := 3 })] }
     headsWith s 1 fun d p => p.badContext.isNone && s.goodComplete d p && p.has 0x23 &&
       s.workgroups.any fun x => s.ctxOf x.2 == some (p.num 0x20 0 2 % 4096) && x.2.phase == .saved 0x800000) = true ∧
    ([([] : List (Nat × Context)), [(3, { Context.default with pool := some (0x800000, 0x100000) })]].all fun c =>
      let s := { ringed 1 [ctx, (0x26, 0, 0)] with contexts := c }
      headsWith s 1 fun d p => p.badContext.isNone && s.goodComplete d p && !p.has 0x23 && p.has 0x26 &&
        (p.setContext (s.context 3)).pool.isSome == !c.isEmpty) = true := by decide +kernel
/-- A launch that waits for an earlier one of its queue. -/
theorem witness_launchAfter :
    let s := { ringed 5 [(0x10, 8, goodRef), (0x11, 8, goodRef), (0x12, 12, 1), (0x13, 4, 0), (0x14, 4, 9), (0x15, 16, 0), (0x1C, 0, 0)] with
      launches := [(0, { Launch.holding 0 none with accepting := true })] }
    (headsWith s 5 fun _ p => p.has 0x1C && s.launches.any fun x => x.2.accepting && x.2.die == 0 && x.2.queue == 0 && !x.2.ended) = true := by
  decide +kernel

/-! ## Launches, placement and pre-emption, once more -/

/-- A replica of no clusters, refused; a generation that is refused, and one that is open. -/
theorem witness_refusedReplica :
    let s := launchWorld (refTo 1)
    let packet := (launchRing.set 4 (fieldWord 0x12 12 0)).flatMap fun w => bytesOfNat 8 w.toNat
    let r := readFields 5 7 88 (packet.take 88)
    (s.sluiceRuns && r.2.isNone &&
      launchRefused (s.checkLaunch ⟨0, 0, 0, 0, false, true, 0, 0, 0⟩ 0 0 { r.1 with fields := r.1.fields.filter fun f => f.tag != 0x01 })) = true ∧
    (let t : State := { world with refusedGens := [5] }
     (t.launchOfGen 5).isNone = true ∧ (5 ∈ t.refusedGens) ∧ ¬ (6 ∈ t.refusedGens)) := by decide +kernel
/-- A launch of two stages places one cluster; one placed again after a kill. -/
theorem witness_placements :
    ([(1, []), (2, []), (1, [0])].all fun x =>
      let s : State := { world with launches := [(0, { Launch.holding 0 none with nextCluster := 0, nstage := x.1, relaunch := x.2, code := refTo 1 })] }
      let s1 := (s.reserve 0).passTokens 0
      some? (s1.launches.find? 0) fun la => some? la.nextPlace fun p => s1.mayPlace la && !s1.turnOfOther 0 la && la.nstage == x.1 && la.relaunch == x.2 &&
        (s1.placeCluster 0 la p.1 p.2).isSome) = true := by decide +kernel
theorem witness_poolGood :
    let s : State := { placed (.nop (yf 0)) with contexts := [(0, { Context.default with pool := some (0x800000, 0x100000) })] }
    s.poolBad 0 = false ∧ (s.context 0).pool = some (0x800000, 0x100000) := by decide +kernel

/-! ## Debugger, links and transport, once more -/

/-- A halt in progress under an open session of the wave's context. -/
theorem witness_haltUnderSession :
    let s := withWave (debugging (placed (.nop (yf 0)))) fun w => { w with halting := some (1, 0) }
    (some? (s.waves.find? 0) fun w => w.halting == some (1, 0) && w.pend.isEmpty && !s.loadsRegs 0 && (w.frags.all fun f => !s.entryOwed 0 f) &&
      some? (s.workgroups.find? w.wg) fun g => some? (s.launches.find? g.launch) fun la => s.sessionOf la.ctx.toNat == some 0) = true := by decide +kernel
/-- An idle flit with another SEQ. -/
theorem witness_idleFlit :
    flitGood (mkFlit 0 0 1 (List.replicate 248 0)) = true ∧ flitKind (mkFlit 0 0 1 (List.replicate 248 0)) = 1 ∧
    flitKind (mkFlit 3 0 1 (List.replicate 248 0)) = 1 ∧ flitSeq (mkFlit 3 0 1 (List.replicate 248 0)) ≠ ((carried id).port 0).expect ∧
    flitSeq (mkFlit 0 0 1 (List.replicate 248 0)) = ((carried id).port 0).expect :=
  ⟨flitGood_mkFlit _ _ _ _ List.length_replicate, by decide +kernel, by decide +kernel, by decide +kernel, by decide +kernel⟩
/-- NAKs of a frame that nothing has acknowledged: stale, not stale, and of a failed check. -/
theorem witness_naks :
    ([0, 2].all fun n =>
      let t := connected (fun x => { x with nextPsn := 2, unacked := [⟨1, [], false, none⟩], stale := n }) []
      framedBy t 6 false fun d f => let x := (t.acknowledge 0 0 d f.ack).conn 0 0
        !x.unacked.isEmpty && x.stale == n) = true ∧
    (let t := connected (fun x => { x with nextPsn := 2, unacked := [⟨1, [], true, some 7⟩], work := [reading none] }) []
     framedBy t 6 true fun d f => some? ((t.acknowledge 0 0 d f.ack).conn 0 0).unacked[0]? fun g => g.wr == some 7) = true := by decide +kernel
/-- A sample of an RGBA8 target in object 2, whose depth stands at its byte 256: without a depth buffer, behind what stands, and before it. -/
theorem witness_SampleMerge :
    let x (depth : DWord) (compare : Nat) (blend : Bool) : RasterBinding :=
      ⟨0, 0, 4, 8, 1, 0, 4, 4, refTo 2, 3, depth, compare, true, blend, 0, [], [], []⟩
    let at? (t : TargetOut) (a : Nat) : Bool := match t with
      | .at_ p => p == a
      | _ => false
    let s := (placed (.nop (yf 0))).setWord64 (home 2 + 256) 0x3F0000003F000000
    (some? (s.launches.find? 0) fun la => [false, true].all fun blend =>
      at? (s.targetPlace la (x 0 0 blend).colour (if blend then needRW else needW) 1 4) (home 2 + 4) &&
        at? (s.targetPlace la (mkRef 2 15 256) needR 1 4) (home 2 + 260) && at? (s.targetPlace la (mkRef 2 15 256) needW 1 4) (home 2 + 260)) = true ∧
    (let zt := binary32.decode (natOfBytes (s.portBytes 0 (home 2 + 260) 4))
     rLt (binary32.decode 0x3E800000) zt = true ∧ rLt (binary32.decode 0x3F000000) zt = false ∧ rLe (binary32.decode 0x3F000000) zt = true ∧
       rLt zt (binary32.decode 0x3F800000) = true) := by decide +kernel

end Sys2Proof.Tests
end

