-- ==== Sys2Proof/Proofs/WaveStart.lean ====
section
/-!
The state of every wave at its start (R54). Three parts: the fields of a reference as numbers, the new wave field by field, and
the waves that a workgroup's begin lists before any of them passes its header.
-/

namespace Sys2Proof.Machine

/-! ## References and words as numbers -/

theorem refIndex_eq (r : DWord) : refIndex r = r.toNat / 2 ^ 46 := by
  have := r.isLt
  simp only [refIndex, fieldOf, BitVec.extractLsb'_toNat, Nat.shiftRight_eq_div_pow]
  omega

theorem refOffset_eq (r : DWord) : refOffset r = r.toNat % 2 ^ 42 := by simp [refOffset, fieldOf]

/-- The three fields of a built reference, by their places (R66). -/
theorem mkRef_toNat (index : Nat) (rights : BitVec 4) (off : Nat) :
    (mkRef index rights off).toNat = (index % 2 ^ 18 * 2 ^ 4 + rights.toNat) * 2 ^ 42 + off % 2 ^ 42 := by
  rw [mkRef, BitVec.toNat_append, BitVec.toNat_append, BitVec.toNat_ofNat, BitVec.toNat_ofNat,
    ← Nat.shiftLeft_add_eq_or_of_lt rights.isLt, ← Nat.shiftLeft_add_eq_or_of_lt (Nat.mod_lt _ (Nat.two_pow_pos 42)),
    Nat.shiftLeft_eq, Nat.shiftLeft_eq]

theorem highWord_lowWord_toNat (x : DWord) : (highWord x).toNat * 2 ^ 32 + (lowWord x).toNat = x.toNat := by
  have := x.isLt
  simp only [highWord, lowWord, BitVec.extractLsb'_toNat, Nat.shiftRight_eq_div_pow]
  omega

/-- A field of a word is the value that its place in the number gives. -/
theorem extractLsb'_eq_of_toNat {w lo n : Nat} {x : BitVec w} {y : BitVec n} (h : x.toNat / 2 ^ lo % 2 ^ n = y.toNat) :
    x.extractLsb' lo n = y := by
  apply BitVec.eq_of_toNat_eq
  rw [BitVec.extractLsb'_toNat, Nat.shiftRight_eq_div_pow, h]

/-- The read right alone is left of a reference's rights: its bit 45. -/
theorem refRights_needR_toNat (r : DWord) : (refRights r &&& needR).toNat = if r.getLsbD 45 then 8 else 0 := by
  have hbit : ∀ x : BitVec 4, (x &&& needR).toNat = if x.getLsbD 3 then 8 else 0 := by decide
  rw [hbit, refRights, BitVec.getLsbD_extractLsb']
  rfl

/-! ## Lanes -/

theorem Wave.setPcs_pc (w : Wave) (m : LaneMask) (p : CodeAddr) {l : Nat} (h : l < 96) :
    (w.setPcs m p).pc l = if m.getLsbD l then p else w.pc l := withPcs_pc w _ l h

theorem Wave.setS_pc (w : Wave) (n : Nat) (x : Word) (l : Nat) : (w.setS n x).pc l = w.pc l := rfl

theorem lowestSlice_allOnes : lowestSlice (BitVec.allOnes 24) = 0 := by decide

/-- A fragment of all slices is active in all lanes where every lane runs and stands at one address. -/
theorem Wave.active_eq_allOnes {w : Wave} {f : Frag} {p : CodeAddr} (hf : f.slices = BitVec.allOnes 24)
    (hr : w.runnable = BitVec.allOnes 96) (hp : ∀ l < 96, w.pc l = p) : w.active f = BitVec.allOnes 96 := by
  have hat : w.fragPc f = some p := by
    rw [Wave.fragPc, hf, lowestSlice_allOnes, slicePc_iff]
    refine ⟨⟨0, by decide, by rw [hr]; decide, hp 0 (by decide)⟩, fun i hi _ => ?_⟩
    rw [hp _ (by omega)]
  apply BitVec.eq_of_getLsbD_eq
  intro l hl
  have hk : l / 4 < 24 := by omega
  simp only [Wave.active, hat, activeAt_getLsbD, hf, hr, hp l hl, BitVec.getLsbD_allOnes, hl, hk, decide_true, Bool.and_self]

/-! ## The new wave, field by field -/

section NewWave
variable (la : Launch) {g : Nat} {wg : Workgroup} {no slotNo tick : Nat}

/-- The reference that s0:s1 hold: to the argument object, with what it gives of the read right (R54). -/
def Launch.argsRef : DWord := mkRef (refIndex la.args) (refRights la.args &&& needR) (refOffset la.args)

theorem Launch.argsRef_toNat : la.argsRef.toNat =
    (la.args.toNat / 2 ^ 46 * 2 ^ 4 + if la.args.getLsbD 45 then 8 else 0) * 2 ^ 42 + la.args.toNat % 2 ^ 42 := by
  have := la.args.isLt
  rw [argsRef, mkRef_toNat, refRights_needR_toNat, refIndex_eq, refOffset_eq, Nat.mod_mod, Nat.mod_eq_of_lt (by omega)]

/-- OFFSET and INDEX are those of the launch's reference, and of its rights the read right alone is kept. -/
theorem Launch.argsRef_fields :
    la.argsRef.toNat % 2 ^ 42 = la.args.toNat % 2 ^ 42 ∧ la.argsRef.toNat / 2 ^ 46 = la.args.toNat / 2 ^ 46 ∧
      la.argsRef.toNat / 2 ^ 42 % 16 = if la.args.getLsbD 45 then 8 else 0 := by
  rw [la.argsRef_toNat]
  split <;> omega

theorem Launch.wave_sreg (n : Nat) : (la.wave g wg no slotNo tick).sreg n =
    if n = 1 then highWord la.argsRef else if n = 0 then lowWord la.argsRef else 0 := by
  rw [wave, Wave.setS_sreg, Wave.setS_sreg]
  rfl

theorem Launch.wave_args : ((la.wave g wg no slotNo tick).sreg 1).toNat * 2 ^ 32 +
    ((la.wave g wg no slotNo tick).sreg 0).toNat = la.argsRef.toNat := by
  rw [la.wave_sreg, la.wave_sreg, if_pos rfl, if_neg (by decide), if_pos rfl, highWord_lowWord_toNat]

theorem Launch.wave_sreg_of_ge {n : Nat} (h : 2 ≤ n) : (la.wave g wg no slotNo tick).sreg n = 0 := by
  rw [la.wave_sreg, if_neg (by omega), if_neg (by omega)]

theorem Launch.wave_kreg {n : Nat} (h : 1 ≤ n) : (la.wave g wg no slotNo tick).kreg n = 0 := by
  rw [Wave.kreg, if_neg (by omega)]
  rfl

/-- MODE at the start: DET at bit 24, SEED at bits [23:16], RM = 1 (R54, R57). -/
def Launch.startMode : Word := (if la.det then 0x01000000#32 else 0) ||| BitVec.ofNat 32 (la.seed.toNat * 65536) ||| 1#32

theorem Launch.wave_mode : (la.wave g wg no slotNo tick).mode = la.startMode := rfl

/-- The three parts do not overlap, so their OR is their sum. -/
theorem Launch.startMode_toNat : la.startMode.toNat = la.det.toNat * 2 ^ 24 + la.seed.toNat * 2 ^ 16 + 1 := by
  have hseed := la.seed.isLt
  have hdet : (if la.det then 0x01000000#32 else 0).toNat = la.det.toNat <<< 24 := by cases la.det <;> rfl
  have hplace : (BitVec.ofNat 32 (la.seed.toNat * 65536)).toNat = la.seed.toNat <<< 16 := by
    rw [BitVec.toNat_ofNat, Nat.shiftLeft_eq, Nat.mod_eq_of_lt (by omega)]
  calc la.startMode.toNat
      = la.det.toNat <<< 24 ||| la.seed.toNat <<< 16 ||| 1 := by
        rw [startMode, BitVec.toNat_or, BitVec.toNat_or, hdet, hplace]
        rfl
    _ = (la.det.toNat <<< 8 + la.seed.toNat) <<< 16 ||| 1 := by
        rw [Nat.shiftLeft_add_eq_or_of_lt hseed, Nat.shiftLeft_or_distrib, ← Nat.shiftLeft_add]
    _ = (la.det.toNat <<< 8 + la.seed.toNat) <<< 16 + 1 := (Nat.shiftLeft_add_eq_or_of_lt (by decide) _).symm
    _ = la.det.toNat * 2 ^ 24 + la.seed.toNat * 2 ^ 16 + 1 := by
        simp only [Nat.shiftLeft_eq]
        omega

/-- The fields of MODE: RM, DET and SEED, and 0 in the others. -/
theorem Launch.startMode_fields :
    la.startMode.extractLsb' 0 3 = 1#3 ∧ la.startMode.getLsbD 24 = la.det ∧ la.startMode.extractLsb' 16 8 = la.seed ∧
      la.startMode.extractLsb' 3 13 = 0#13 ∧ la.startMode.extractLsb' 25 7 = 0#7 := by
  have hmode := la.startMode_toNat
  have hseed := la.seed.isLt
  have hdet := la.det.toNat_lt
  refine ⟨extractLsb'_eq_of_toNat ?_, ?_, extractLsb'_eq_of_toNat ?_, extractLsb'_eq_of_toNat ?_,
    extractLsb'_eq_of_toNat ?_⟩
  · rw [BitVec.toNat_ofNat]
    omega
  · rw [BitVec.getLsbD, Nat.testBit_eq_decide_div_mod_eq, hmode]
    cases h : la.det <;> simp <;> omega
  · omega
  · rw [BitVec.toNat_ofNat]
    omega
  · rw [BitVec.toNat_ofNat]
    omega

theorem Launch.wave_pc {l : Nat} (h : l < 96) :
    (la.wave g wg no slotNo tick).pc l = BitVec.ofNat 39 (la.entries.getD wg.stage 0) := by
  rw [wave, Wave.setS_pc, Wave.setS_pc, Wave.setPcs_pc _ _ _ h, BitVec.getLsbD_allOnes, if_pos (decide_eq_true h)]

/-- No lane is parked: all 96 run. -/
theorem Launch.wave_runnable : (la.wave g wg no slotNo tick).runnable = BitVec.allOnes 96 :=
  show BitVec.allOnes 96 &&& ~~~(0#96 ||| 0#96) &&& ~~~0#96 = _ by decide

/-- One fragment of all 24 slices, active in every lane (R26). -/
theorem Launch.wave_frags : ∃ f, (la.wave g wg no slotNo tick).frags = [f] ∧ f.slices = BitVec.allOnes 24 ∧
    (la.wave g wg no slotNo tick).active f = BitVec.allOnes 96 :=
  ⟨_, rfl, rfl, Wave.active_eq_allOnes rfl la.wave_runnable fun _ => la.wave_pc⟩

end NewWave

/-! ## The waves of a workgroup that begins -/

/-- List one wave of a workgroup, at the lowest slot free on its quadrant. -/
def State.putWave (la : Launch) (g : Nat) (wg : Workgroup) (s : State) (no : Nat) : State :=
  { s with waves := s.waves.insert (16 * g + no) (la.wave g wg no (s.freeSlotNo wg.core (no % 4)) s.tick) }

/-- A workgroup's begin lists all its waves, then lets them arrive at their headers and halts them where a HALT stands. -/
theorem State.beginWaves_eq {s : State} {g : Nat} {wg : Workgroup} {la : Launch} (hg : s.workgroups.find? g = some wg)
    (hl : s.launches.find? wg.launch = some la) :
    s.beginWaves g = (waveKeys g la.waves).foldl (fun s wk => (State.arrive wk arriveFuel s).haltWave wk la.ctx.toNat 1)
      ((List.range la.waves).foldl (State.putWave la g wg) s) := by
  simp only [State.beginWaves, hg, hl]
  rfl

theorem State.putWaves_tick (la : Launch) (g : Nat) (wg : Workgroup) (s : State) (nos : List Nat) :
    (nos.foldl (State.putWave la g wg) s).tick = s.tick := by
  induction nos generalizing s with
  | nil => rfl
  | cons no nos ih => exact ih (s.putWave la g wg no)

/-- Each wave listed is a new wave of the launch, and those listed after it leave it so. -/
theorem State.putWaves_find (la : Launch) (g : Nat) (wg : Workgroup) (s : State) (n : Nat) :
    ∀ no < n, ∃ slotNo, ((List.range n).foldl (State.putWave la g wg) s).waves.find? (16 * g + no) =
      some (la.wave g wg no slotNo s.tick) := by
  induction n with
  | zero => intro no h; omega
  | succ n ih =>
    intro no h
    rw [List.range_succ, List.foldl_append, List.foldl_cons, List.foldl_nil, State.putWave]
    by_cases hno : no = n
    · subst hno
      exact ⟨_, by rw [SMap.find?_insert_same, State.putWaves_tick]⟩
    · obtain ⟨slotNo, hfind⟩ := ih no (by omega)
      exact ⟨slotNo, by rw [SMap.find?_insert_other _ _ _ _ (by omega), hfind]⟩

/-- Settles O9: the new wave's fields one by one, and its place in the state from which the workgroup's waves arrive. -/
theorem waveStart : Obligations.WaveStart := by
  unfold Obligations.WaveStart
  refine ⟨fun la g wg no slotNo tick => ?_, fun s g wg la hg hl => ?_⟩
  · obtain ⟨hoff, hindex, hrights⟩ := la.argsRef_fields
    dsimp only
    obtain ⟨hrm, hdet, hseed, hflags, hhigh⟩ := la.startMode_fields
    rw [la.wave_args, la.wave_mode]
    exact ⟨hoff, hindex, hrights, fun n => la.wave_sreg_of_ge, fun n l => rfl, fun n => la.wave_kreg, fun n l => rfl,
      fun t i j => rfl, rfl, hrm, hdet, hseed, hflags, hhigh, rfl, rfl, rfl, rfl, rfl, rfl, rfl, rfl, rfl, rfl,
      fun l => la.wave_pc, la.wave_frags⟩
  · exact ⟨_, State.putWaves_find la g wg s la.waves, State.beginWaves_eq hg hl⟩

end Sys2Proof.Machine
end

