-- ==== Sys2Proof/Proofs/Division.lean ====
section
/-!
DIV, REM, UDIV and UREM (R120, R121). Four parts: the quotient and the remainder that a register or pair takes, SAT = 0 in every
word that passes stage A, the effect of a division whose divisors are known, and its outcome.
-/

namespace Sys2Proof.Machine

/-! ## Quotients and remainders of registers and pairs -/

/-- A register or pair of an unpacked type that wraps holds its one element's exact result, modulo 2^w (R116). -/
theorem IntOp.run_unpacked (o : IntOp) {t : Ty} (hw : t.width = 32 ∨ t.width = 64) (a b c : DWord) :
    o.run t false a b c =
      BitVec.ofNat 64 (o t (t.elem a 0) (t.elem b 0) (t.elem c 0) % 2 ^ t.width).toNat := by
  have helems : t.elems = 1 := by
    rw [Ty.elems, if_neg (by omega)]
  have hlt : ∀ x : Int, (x % 2 ^ t.width).toNat < 2 ^ t.width := fun x => by
    have hpos : (0 : Int) < 2 ^ t.width := Int.pow_pos (by decide)
    rw [Int.toNat_lt (Int.emod_nonneg x hpos.ne'), Nat.cast_pow]
    exact Int.emod_lt_of_pos x hpos
  simp only [IntOp.run, helems, List.range_one, List.map_cons, List.map_nil, Ty.join, List.foldr_cons, List.foldr_nil,
    Nat.zero_mul, Nat.add_zero, Ty.finishInt, Bool.false_eq_true, if_false, Nat.mod_eq_of_lt (hlt _)]

theorem value_zero (t : Ty) : t.value 0 = 0 := by
  simp [Ty.value]

theorem value_elem_zero (t : Ty) : t.value (t.elem 0 0) = 0 := by
  rw [show t.elem 0 0 = 0 by simp [Ty.elem], value_zero]

/-- DIV's 0 for a zero divisor is what `Int.tdiv` gives (R120). -/
theorem opDiv_eq_tdiv (t : Ty) (a b c : Nat) : opDiv t a b c = (t.value a).tdiv (t.value b) := by
  rw [opDiv]
  split
  · next hb => rw [hb, value_zero, Int.tdiv_zero]
  · rfl

/-- REM's dividend for a zero divisor is what `Int.tmod` gives (R120). -/
theorem opRem_eq_tmod (t : Ty) (a b c : Nat) : opRem t a b c = (t.value a).tmod (t.value b) := by
  rw [opRem]
  split
  · next hb => rw [hb, value_zero, Int.tmod_zero]
  · rfl

/-! ## Fields and enables -/

/-- A word that passes stage A has no field value that its entry does not admit (R437, R446). -/
theorem fieldFault_value_of_stageA {i : Instr} (h : Instr.stageA i = none) : (Instr.fieldFault i).value = false := by
  unfold Instr.stageA at h
  split at h
  · rfl
  · by_contra hv
    rw [Bool.not_eq_false] at hv
    simp only [hv, if_true] at h
    split at h <;> cases h

/-- Stage A finds nothing in the word and extension word of an instruction that it admits at its place in a block. -/
theorem stageA_of_stageAIn {i : Instr} {last : Nat} (h : Instr.stageAIn i last = none) : Instr.stageA i = none := by
  cases hA : Instr.stageA i with
  | none => rfl
  | some n =>
    rw [Instr.stageAIn] at h
    cases hshort : decide (last < if i.needsExt then 2 else 1) with
    | false => simp [hshort, hA] at h
    | true =>
      simp only [hshort, if_true] at h
      split at h
      · split at h <;> cases h
      · cases h

theorem State.Issues.stageA {s : State} {e : Env} {i : Instr} (h : s.Issues e i) : Instr.stageA i = none := by
  have ha := h.2
  simp only [State.admits, Bool.and_eq_true, Option.isNone_iff_eq_none] at ha
  obtain ⟨⟨⟨⟨⟨-, hA⟩, -⟩, -⟩, -⟩, -⟩ := ha
  exact stageA_of_stageAIn hA

theorem State.Runs.issues {s : State} {e : Env} {i : Instr} (h : s.Runs e i) : s.Issues e i := ⟨h.1, h.2.1⟩

/-- TE.DZ is bit 8 of MODE (R57). -/
theorem Cond.enables_dz (mode : Word) : (Cond.enables mode).dz = mode.getLsbD 8 := by
  simp [Cond.enables, Cond.ofBits]

/-! ## The effect of a division -/

section Effect
variable {o : IntOp} {f : VFmt} {e : Env} {s : State} (hw : f.ty.width = 32 ∨ f.ty.width = 64) (hsat : f.sat = false)

/-- The exact result of an operation on the first elements of A, B and C in a lane. -/
def IntOp.inLane (o : IntOp) (f : VFmt) (e : Env) (l : Nat) : Int :=
  o f.ty (f.ty.elem (e.read f.ty f.a l) 0) (f.ty.elem (e.read f.ty f.b l) 0) (f.ty.elem (e.read f.ty f.c l) 0)

/-- The writes of a result to D in a lane, modulo 2^w. -/
def resultWrites (f : VFmt) (l : Nat) (x : Int) : List RegWrite := writeTo f.ty f.d l (BitVec.ofNat 64 (x % 2 ^ f.ty.width).toNat)

include hw hsat

theorem uniOp_eq_writes : uniOp o f e s = .writes s (resultWrites f 0 (o.inLane f e e.first)) .none := by
  simp only [uniOp, hsat, IntOp.run_unpacked o hw, resultWrites, IntOp.inLane]

theorem vecOp_eq_writes : vecOp o f e s = .writes s ((lanesOf e.lanes).flatMap fun l => resultWrites f l (o.inLane f e l)) .none := by
  simp only [vecOp, Env.lanewise, hsat, IntOp.run_unpacked o hw, resultWrites, IntOp.inLane]

/-- A uniform division writes its result where it does not trap, with SF.DZ for a zero divisor. -/
theorem uniDivide_writes {zero : Bool} (hz : decide (e.read f.ty f.b e.first = 0) = zero)
    (ht : (zero && e.wave.mode.getLsbD 8) = false) :
    uniDivide o f e s = .writes s (resultWrites f 0 (o.inLane f e e.first)) { Cond.none with dz := zero } := by
  simp only [uniDivide, hz, Cond.enables_dz, ht, Bool.false_eq_true, if_false, uniOp_eq_writes hw hsat]

/-- A division with no zero divisor writes its results and raises no condition. -/
theorem vecDivide_writes (hz : ∀ l ∈ lanesOf e.lanes, e.read f.ty f.b l ≠ 0) :
    vecDivide o f e s = .writes s ((lanesOf e.lanes).flatMap fun l => resultWrites f l (o.inLane f e l)) .none := by
  have hnone : ((lanesOf e.lanes).find? fun l => e.read f.ty f.b l = 0) = none := by
    simpa only [List.find?_eq_none, decide_eq_true_eq] using hz
  rw [vecDivide, hnone]
  exact vecOp_eq_writes hw hsat

/-- With a zero divisor and TE.DZ = 0 it writes its results and sets SF.DZ. -/
theorem vecDivide_writes_dz {l : Nat} (hl : ((lanesOf e.lanes).find? fun l => e.read f.ty f.b l = 0) = some l)
    (hte : e.wave.mode.getLsbD 8 = false) :
    vecDivide o f e s =
      .writes s ((lanesOf e.lanes).flatMap fun l => resultWrites f l (o.inLane f e l)) { Cond.none with dz := true } := by
  simp only [vecDivide, hl, Cond.enables_dz, hte, Bool.false_eq_true, if_false, vecOp_eq_writes hw hsat]

end Effect

section Trap
variable {o : IntOp} {f : VFmt} {e : Env} {s : State} (hte : e.wave.mode.getLsbD 8 = true)
include hte

theorem uniDivide_traps (hz : e.read f.ty f.b e.first = 0) : uniDivide o f e s = .trap 0x20 127 := by
  simp only [uniDivide, hz, Cond.enables_dz, hte, decide_true, Bool.and_self, if_true]

theorem vecDivide_traps {l : Nat} (hl : ((lanesOf e.lanes).find? fun l => e.read f.ty f.b l = 0) = some l) :
    vecDivide o f e s = .trap 0x20 (BitVec.ofNat 64 l) := by
  simp only [vecDivide, hl, Cond.enables_dz, hte, if_true]

end Trap

/-- The search of a lane set finds the lowest lane that satisfies p. -/
theorem lanesOf_find?_eq_some {m : LaneMask} {p : Nat → Bool} {l : Nat} (hl : l ∈ lanesOf m) (hp : p l = true)
    (hmin : ∀ j ∈ lanesOf m, p j = true → l ≤ j) : (lanesOf m).find? p = some l := by
  obtain ⟨h96, hm⟩ := mem_lanesOf.mp hl
  rw [lanesOf, List.find?_filter, List.find?_range_eq_some]
  refine ⟨by simp [hm, hp], List.mem_range.mpr h96, fun j hj => ?_⟩
  by_contra hc
  simp only [Bool.not_eq_true', Bool.not_eq_false, decide_eq_true_eq] at hc
  exact absurd (hmin j (mem_lanesOf.mpr ⟨by omega, hc.1⟩) hc.2) (by omega)

/-! ## The outcome of a division -/

/-- Instruction i, of format f, has the effect `body`, is no gang point, and admits the types of 32 and 64 bits and no SAT:
what the four divisions share. -/
structure IsDivision (i : Instr) (f : VFmt) (body : Env → State → Act) : Prop where
  exec_eq : ∀ s, exec i s = issue i body s
  gangPoint : Instr.gangPoint i = false
  fields : Instr.fieldFault i = vFields f tyW 0 false

theorem isDivision_udiv (f : VFmt) : IsDivision (.udiv f) f (uniDivide opDiv f) := ⟨fun _ => rfl, rfl, rfl⟩
theorem isDivision_urem (f : VFmt) : IsDivision (.urem f) f (uniDivide opRem f) := ⟨fun _ => rfl, rfl, rfl⟩
theorem isDivision_div (f : VFmt) : IsDivision (.div f) f (vecDivide opDiv f) := ⟨fun _ => rfl, rfl, rfl⟩
theorem isDivision_rem (f : VFmt) : IsDivision (.rem f) f (vecDivide opRem f) := ⟨fun _ => rfl, rfl, rfl⟩

section Outcome
variable {i : Instr} {f : VFmt} {body : Env → State → Act} {s : State} {e : Env} (h : IsDivision i f body)
include h

theorem IsDivision.sat_eq_false (hi : s.Issues e i) : f.sat = false := by
  have hv := fieldFault_value_of_stageA hi.stageA
  rw [h.fields] at hv
  simp only [vFields, Bool.or_eq_false_iff, Bool.not_false, Bool.and_true] at hv
  exact hv.2

/-- Where the effect of the word with SAT = 0 is register writes and conditions, a division that runs leaves them. -/
theorem IsDivision.exec_wrote {ws : List RegWrite} {c : Cond} (hr : s.Runs e i)
    (hb : f.sat = false → body e s = .writes s ws c) : exec i s = .next (s.wrote e i ws c) :=
  (h.exec_eq s).trans (run_writes hr h.gangPoint (hb (h.sat_eq_false hr.issues)))

theorem IsDivision.exec_trapped {c : Nat} {v : DWord} (hi : s.Issues e i) (hb : body e s = .trap c v) :
    exec i s = .next (s.trapped e c v) :=
  (h.exec_eq s).trans (issue_trap hi h.gangPoint hb)

end Outcome

/-- R120 and R121 for one uniform division: x is its result for any divisor, which a zero divisor makes z. -/
theorem IsDivision.uniform {i : Instr} {f : VFmt} {o : IntOp} (h : IsDivision i f (uniDivide o f)) {s : State} {e : Env}
    (hw : f.ty.width = 32 ∨ f.ty.width = 64) {x z : Int} (hx : o.inLane f e e.first = x)
    (hz : e.read f.ty f.b e.first = 0 → x = z) :
    (s.Runs e i → e.read f.ty f.b e.first ≠ 0 → exec i s = .next (s.wrote e i (resultWrites f 0 x) .none)) ∧
    (s.Issues e i → e.read f.ty f.b e.first = 0 → e.wave.mode.getLsbD 8 = true → exec i s = .next (s.trapped e 0x20 127)) ∧
    (s.Runs e i → e.read f.ty f.b e.first = 0 → e.wave.mode.getLsbD 8 = false →
      exec i s = .next (s.wrote e i (resultWrites f 0 z) { Cond.none with dz := true })) := by
  subst hx
  refine ⟨fun hr hb => ?_, fun hi hb hte => ?_, fun hr hb hte => ?_⟩
  · exact h.exec_wrote hr fun hsat => uniDivide_writes hw hsat (decide_eq_false hb) rfl
  · exact h.exec_trapped hi (uniDivide_traps hte hb)
  · rw [← hz hb]
    exact h.exec_wrote hr fun hsat => uniDivide_writes hw hsat (decide_eq_true hb) hte

/-- R120 and R121 for one division per lane: x l is lane l's result for any divisor, which a zero divisor makes z l. -/
theorem IsDivision.perLane {i : Instr} {f : VFmt} {o : IntOp} (h : IsDivision i f (vecDivide o f)) {s : State} {e : Env}
    (hw : f.ty.width = 32 ∨ f.ty.width = 64) {x z : Nat → Int} (hx : ∀ l, o.inLane f e l = x l)
    (hz : ∀ l, e.read f.ty f.b l = 0 → x l = z l) :
    let ws := (lanesOf e.lanes).flatMap fun l => resultWrites f l (if e.read f.ty f.b l = 0 then z l else x l)
    (s.Runs e i → (∀ l ∈ lanesOf e.lanes, e.read f.ty f.b l ≠ 0) → exec i s = .next (s.wrote e i ws .none)) ∧
    (∀ l ∈ lanesOf e.lanes, e.read f.ty f.b l = 0 → (∀ j ∈ lanesOf e.lanes, e.read f.ty f.b j = 0 → l ≤ j) →
      (s.Issues e i → e.wave.mode.getLsbD 8 = true → exec i s = .next (s.trapped e 0x20 (BitVec.ofNat 64 l))) ∧
      (s.Runs e i → e.wave.mode.getLsbD 8 = false → exec i s = .next (s.wrote e i ws { Cond.none with dz := true }))) := by
  have hres : ∀ l, (if e.read f.ty f.b l = 0 then z l else x l) = o.inLane f e l := fun l => by
    split
    · next h0 => rw [hx, hz l h0]
    · exact (hx l).symm
  simp only [hres]
  refine ⟨fun hr hb => h.exec_wrote hr fun hsat => vecDivide_writes hw hsat hb, fun l hl hb hmin => ?_⟩
  have hlow : ((lanesOf e.lanes).find? fun l => e.read f.ty f.b l = 0) = some l :=
    lanesOf_find?_eq_some hl (decide_eq_true hb) fun j hj hp => hmin j hj (of_decide_eq_true hp)
  exact ⟨fun hi hte => h.exec_trapped hi (vecDivide_traps hte hlow),
    fun hr hte => h.exec_wrote hr fun hsat => vecDivide_writes_dz hw hsat hlow hte⟩

theorem uniformDivision : Rules.UniformDivision := by
  intro s e f hw a b put p hp
  have hb : e.read f.ty f.b e.first = 0 → b = 0 := fun h0 => by simp only [b, h0, value_elem_zero]
  rw [List.mem_cons, List.mem_singleton] at hp
  obtain rfl | rfl := hp
  · exact (isDivision_udiv f).uniform hw (x := a.tdiv b) (opDiv_eq_tdiv ..) fun h0 => by rw [hb h0, Int.tdiv_zero]
  · exact (isDivision_urem f).uniform hw (x := a.tmod b) (opRem_eq_tmod ..) fun h0 => by rw [hb h0, Int.tmod_zero]

theorem integerDivision : Rules.IntegerDivision := by
  intro s e f hw a b zero p hp
  have hb : ∀ l, e.read f.ty f.b l = 0 → b l = 0 := fun l h0 => by simp only [b, h0, value_elem_zero]
  rw [List.mem_cons, List.mem_singleton] at hp
  obtain rfl | rfl := hp
  · exact (isDivision_div f).perLane hw (x := fun l => (a l).tdiv (b l)) (fun l => opDiv_eq_tdiv ..) fun l h0 => by
      rw [hb l h0, Int.tdiv_zero]
  · exact (isDivision_rem f).perLane hw (x := fun l => (a l).tmod (b l)) (fun l => opRem_eq_tmod ..) fun l h0 => by
      rw [hb l h0, Int.tmod_zero]

/-- Settles O12: the effect of each division by whether a divisor is 0 and TE.DZ is 1, and its result by `Int.tdiv` and `Int.tmod`. -/
theorem division : Obligations.Division := ⟨uniformDivision, integerDivision⟩

end Sys2Proof.Machine
end

