-- ==== Sys2Proof/Proofs/LaneExchanges.lean ====
section
/-!
Shuffles, votes, COMPACT, EXPAND and BPERM (R170, R171, R173, R174). Three parts: a member's rank among the members, the bytes
of two registers side by side, and each instruction's effect as the register writes that its rule states.
-/

namespace Sys2Proof.Machine

/-! ## Ranks -/

/-- In a rising list, the number of members below a member is its place. -/
theorem length_filter_lt_eq_idxOf {l : List Nat} (hl : l.Pairwise (· < ·)) {x : Nat} (hx : x ∈ l) :
    (l.filter fun j => j < x).length = l.idxOf x := by
  induction l with
  | nil => cases hx
  | cons a t ih =>
    obtain ⟨hat, ht⟩ := List.pairwise_cons.mp hl
    obtain rfl | hxt := List.mem_cons.mp hx
    · have hnone : (t.filter fun j => j < x) = [] :=
        List.filter_eq_nil_iff.mpr fun j hj => by simpa using (hat j hj).le
      rw [List.idxOf_cons_self, List.filter_cons_of_neg (by simp), hnone, List.length_nil]
    · have hax : a < x := hat x hxt
      rw [List.idxOf_cons_ne t hax.ne, List.filter_cons_of_pos (by simpa using hax), List.length_cons, ih ht hxt]

/-- The lanes of a mask rise. -/
theorem pairwise_lanesOf (m : LaneMask) : (lanesOf m).Pairwise (· < ·) := List.pairwise_lt_range.filter _

/-- As many lanes of a mask lie below its i-th lane as i. -/
theorem length_lanesOf_lt_getD {m : LaneMask} {i : Nat} (hi : i < (lanesOf m).length) :
    ((lanesOf m).filter fun j => j < (lanesOf m).getD i 0).length = i := by
  rw [List.getD_eq_getElem _ _ hi, length_filter_lt_eq_idxOf (pairwise_lanesOf m) (List.getElem_mem hi),
    (pairwise_lanesOf m).nodup.idxOf_getElem]

/-- A list gone through by its places. -/
theorem flatMap_eq_range_flatMap_getD {β : Type} (l : List Nat) (g : Nat → List β) :
    l.flatMap g = (List.range l.length).flatMap fun i => g (l.getD i 0) := by
  have hl : (List.range l.length).map (fun i => l.getD i 0) = l := by
    refine List.ext_getElem (by simp) fun i _ hi => ?_
    simp [List.getElem?_eq_getElem hi]
  rw [← List.flatMap_map (f := fun i => l.getD i 0), hl]

/-- A chosen member's place among the chosen is the number of chosen members below it. -/
theorem Env.idxOf_chosen {e : Env} {b : Operand} {l : Nat} (hl : l ∈ lanesOf e.lanes) (hb : e.pbit b l = true) :
    (e.chosen b).idxOf l = ((lanesOf e.lanes).filter fun j => e.pbit b j && j < l).length := by
  rw [Env.chosen, ← length_filter_lt_eq_idxOf ((pairwise_lanesOf _).filter _) (List.mem_filter.mpr ⟨hl, hb⟩),
    List.filter_filter]
  simp only [Bool.and_comm]

/-! ## Bytes -/

/-- A byte below the n-th does not depend on what lies above. -/
theorem byte_mod_pow {n i : Nat} (h : i < n) (x : Nat) :
    BitVec.ofNat 8 (x % 256 ^ n / 256 ^ i) = BitVec.ofNat 8 (x / 256 ^ i) := by
  obtain ⟨k, rfl⟩ := Nat.exists_eq_add_of_lt h
  rw [show 256 ^ (i + k + 1) = 256 ^ i * (2 ^ 8 * 256 ^ k) by ring, Nat.mod_mul_right_div_self]
  apply BitVec.eq_of_toNat_eq
  rw [BitVec.toNat_ofNat, BitVec.toNat_ofNat, Nat.mod_mul_right_mod]

/-- The bytes of two numbers side by side are the bytes of one number, with the second above the first. -/
theorem bytesOfNat_append (m n x y : Nat) :
    bytesOfNat m x ++ bytesOfNat n y = bytesOfNat (m + n) (y % 256 ^ n * 256 ^ m + x % 256 ^ m) := by
  rw [bytesOfNat, bytesOfNat, bytesOfNat, List.range_add, List.map_append, List.map_map]
  congr 1 <;> refine List.map_congr_left fun i hi => ?_ <;> rw [List.mem_range] at hi
  · rw [← byte_mod_pow hi, ← byte_mod_pow hi (_ + _), Nat.mul_add_mod_self_right, Nat.mod_mod]
  · have hpos : 0 < 256 ^ m := by positivity
    rw [Function.comp_apply, pow_add, ← Nat.div_div_eq_div_mul, Nat.add_comm, Nat.add_mul_div_right _ _ hpos,
      Nat.div_eq_of_lt (Nat.mod_lt x hpos), Nat.zero_add, byte_mod_pow hi]

theorem bytesOfNat_getD {n i : Nat} (h : i < n) (x : Nat) : (bytesOfNat n x).getD i 0 = BitVec.ofNat 8 (x / 256 ^ i) := by
  simp [bytesOfNat, h]

/-- Four bytes as a number. -/
theorem natOfBytes_four (p : Nat → Byte) :
    natOfBytes ((List.range 4).map p) =
      (p 0).toNat + (p 1).toNat * 2 ^ 8 + (p 2).toNat * 2 ^ 16 + (p 3).toNat * 2 ^ 24 := by
  simp only [natOfBytes, show List.range 4 = [0, 1, 2, 3] from rfl, List.map_cons, List.map_nil, List.foldr_cons,
    List.foldr_nil]
  omega

/-- The byte that BPERM picks by a nibble (R174). -/
theorem pickedByte_toNat (a b n : Nat) :
    (if n < 8 then (bytesOfNat 4 a ++ bytesOfNat 4 b).getD n 0 else 0 : Byte).toNat =
      if n < 8 then (b % 2 ^ 32 * 2 ^ 32 + a % 2 ^ 32) / 256 ^ n % 256 else 0 := by
  split
  · next hn =>
    rw [bytesOfNat_append, bytesOfNat_getD hn, BitVec.toNat_ofNat, show 256 ^ 4 = 2 ^ 32 from rfl, show 2 ^ 8 = 256 from rfl]
  · rfl

/-! ## Effects -/

/-- A lane gets A of the lane that it names, where that is a member, and else its C (R170). -/
theorem shuffle_writes (from_ : Nat → Nat → Int) (f : VFmt) (e : Env) (s : State) :
    shuffle from_ f e s = .writes s ((lanesOf e.lanes).flatMap fun l =>
      let j := from_ l (e.readZ f.b l)
      writeTo f.ty f.d l (if 0 ≤ j ∧ j ≤ 95 ∧ e.lanes.getLsbD j.toNat then e.read f.ty f.a j.toNat else e.read f.ty f.c l))
      .none := by
  simp only [shuffle, Env.lanewise, apply_ite (writeTo f.ty f.d _)]

theorem shuffles : Rules.Shuffles := by
  intro s e f p hp hr
  simp only [List.mem_cons, List.not_mem_nil, or_false] at hp
  obtain rfl | rfl | rfl | rfl := hp <;> exact run_writes hr rfl (shuffle_writes _ f e s)

/-- R171: the effect of each is its rule's writes as they stand, with `Env.first` for the lowest member. -/
theorem votes : Rules.Votes := by
  intro s e f ms bit mask words lowest
  refine ⟨?_, ?_, ?_, ?_, ?_⟩ <;> exact fun hr => run_writes hr rfl rfl

theorem laneMoves : Rules.LaneMoves := by
  intro s e f ms rank
  refine ⟨fun hr => run_writes hr rfl (congrArg (Act.writes s · .none) ?compact),
    fun hr => run_writes hr rfl (congrArg (Act.writes s · .none) (List.flatMap_congr fun l hl => ?expand)),
    fun hr => run_writes hr rfl (congrArg (Act.writes s · .none) (List.flatMap_congr fun l _ => ?bperm))⟩
  case compact =>
    rw [flatMap_eq_range_flatMap_getD ms]
    refine List.flatMap_congr fun i hi => ?_
    rw [length_lanesOf_lt_getD (List.mem_range.mp hi)]
    rfl
  case expand =>
    refine congrArg (writeTo f.ty f.d l) (ite_congr rfl (fun hb => ?_) fun _ => rfl)
    rw [Env.idxOf_chosen hl hb]
  case bperm =>
    simp only [natOfBytes_four, pickedByte_toNat]

/-- Settles O19: each instruction's effect is the writes stated; COMPACT's and EXPAND's places are counts of the members below. -/
theorem laneExchanges : Obligations.LaneExchanges := ⟨shuffles, votes, laneMoves⟩

end Sys2Proof.Machine
end

