-- ==== Sys2Proof/Proofs/OpcodeMap.lean ====
section
/-!
The opcode map (R438). Each opcode list of the decoder is a table of consecutive opcodes of one class and one format. A table gives
both halves: within it the word is read as an instruction of that class and opcode, whose need for an extension word lies in the
first word alone; beyond it the word is no instruction, and its sub-reason comes before every other check of an issue.
-/

namespace Sys2Proof

/-! ## Class and opcode as numbers -/

theorem wordClass_eq (w : DWord) : wordClass w = w.toNat / 2 ^ 60 := by
  rw [wordClass, BitVec.extractLsb'_toNat, Nat.shiftRight_eq_div_pow, Nat.mod_eq_of_lt (by omega)]

theorem wordOp_eq (w : DWord) : wordOp w = w.toNat / 2 ^ 52 % 256 := by
  rw [wordOp, BitVec.extractLsb'_toNat, Nat.shiftRight_eq_div_pow]

/-- The class assigns the opcode: R438's table. -/
def Assigned (c o : Nat) : Prop :=
  c = 0 ∧ o ≤ 0x18 ∨ (c = 1 ∨ c = 2) ∧ o ≤ 0x1D ∨ c = 3 ∧ o ≤ 0x13 ∨ c = 4 ∧ (o ≤ 0x08 ∨ 0x10 ≤ o ∧ o ≤ 0x15) ∨
    c = 5 ∧ o ≤ 0x0E ∨ c = 6 ∧ o ≤ 0x09 ∨ c = 7 ∧ (o ≤ 0x03 ∨ 0x08 ≤ o ∧ o ≤ 0x0B) ∨ c = 8 ∧ o ≤ 0x0E ∨ c = 9 ∧ o ≤ 0x0F ∨
    (c = 10 ∨ c = 11 ∨ c = 12) ∧ o ≤ 0x0B

/-! ## Fields with and without an extension word -/

/-- Fields read with an extension word or none: they hold the one given, and their specifiers do not depend on it. -/
def KeepsExt (fields : Option DWord → Form) : Prop :=
  ∀ x, (fields x).ext = x ∧ ∀ c o, specifierFields c o (fields x) = specifierFields c o (fields none)

theorem VFmt.keepsExt (w : DWord) : KeepsExt fun x => .v (VFmt.ofWord w x) := fun _ => ⟨rfl, fun _ _ => rfl⟩
theorem MFmt.keepsExt (w : DWord) : KeepsExt fun x => .m (MFmt.ofWord w x) := fun _ => ⟨rfl, fun _ _ => rfl⟩
theorem CFmt.keepsExt (w : DWord) : KeepsExt fun x => .c (CFmt.ofWord w x) := fun _ => ⟨rfl, fun _ _ => rfl⟩
theorem XFmt.keepsExt (w : DWord) : KeepsExt fun x => .x (XFmt.ofWord w x) := fun _ => ⟨rfl, fun _ _ => rfl⟩
theorem GFmt.keepsExt (w : DWord) : KeepsExt fun x => .g (GFmt.ofWord w x) := fun _ => ⟨rfl, fun _ _ => rfl⟩
theorem YFmt.keepsExt (w : DWord) : KeepsExt fun x => .y (YFmt.ofWord w x) := fun _ => ⟨rfl, fun _ _ => rfl⟩

/-- The opcode map takes class c and opcode o of word w to an instruction of that class and opcode, which holds the extension word
given and whose need for one does not depend on it. -/
def ReadsAs (c o : Nat) (w : DWord) (i : Option DWord → Instr) : Prop :=
  ∀ x, instrAt c o w x = some (i x) ∧ (i x).opcode = some (BitVec.ofNat 4 c, BitVec.ofNat 8 o) ∧ (i x).ext = x ∧
    (i x).needsExt = (i none).needsExt

/-- R438 holds of the class and opcode: an assigned opcode is read as its instruction, any other as none. -/
def FollowsMap (c o : Nat) (w : DWord) : Prop :=
  (Assigned c o → ∃ i, ReadsAs c o w i) ∧ (¬ Assigned c o → ∀ x, instrAt c o w x = none)

/-- The extension word is taken exactly where the first word alone asks for one. -/
theorem ReadsAs.decodeWord_eq {w next : DWord} {i : Option DWord → Instr} (h : ReadsAs (wordClass w) (wordOp w) w i) :
    decodeWord w next = i (if (i none).needsExt then some next else none) := by
  rw [decodeWord, (h none).1, (h (some next)).1]
  exact (apply_ite i ..).symm

/-! ## Tables of opcodes -/

/-- A list of constructors is n opcodes of a class from `first` on, in opcode order, with their fields in one format. -/
def IsTable {α : Type} (c first n : Nat) (form : α → Form) (mks : List (α → Instr)) : Prop :=
  mks.map (fun mk f => ((mk f).opcode, (mk f).form)) =
    (List.range' first n).map fun o f => (some (BitVec.ofNat 4 c, BitVec.ofNat 8 o), form f)

theorem class0_isTable : IsTable 0x0 0 0x19 .v class0 := rfl
theorem class1_isTable : IsTable 0x1 0 0x1E .v class1 := rfl
theorem class2_isTable : IsTable 0x2 0 0x1E .v class2 := rfl
theorem class3_isTable : IsTable 0x3 0 0x14 .v class3 := rfl
theorem class4C_isTable : IsTable 0x4 0 0x09 .c class4C := rfl
theorem class4V_isTable : IsTable 0x4 0x10 0x06 .v class4V := rfl
theorem class5_isTable : IsTable 0x5 0 0x0F .m class5 := rfl
theorem class6_isTable : IsTable 0x6 0 0x0A .m class6 := rfl
theorem class7M_isTable : IsTable 0x7 0 0x04 .m class7M := rfl
theorem class7Y_isTable : IsTable 0x7 0x08 0x04 .y class7Y := rfl
theorem class8_isTable : IsTable 0x8 0 0x0F .x class8 := rfl
theorem class9_isTable : IsTable 0x9 0 0x10 .g class9 := rfl
theorem classA_isTable : IsTable 0xA 0 0x0C .y classA := rfl
theorem classB_isTable : IsTable 0xB 0 0x0C .y classB := rfl
theorem classC_isTable : IsTable 0xC 0 0x0C .v classC := rfl

section Table
variable {α : Type} {c first n o : Nat} {form : α → Form} {mks : List (α → Instr)}

theorem IsTable.length_eq (h : IsTable c first n form mks) : mks.length = n := by
  simpa using congrArg List.length h

/-- The constructor at a table's place k has its class, the k-th of its opcodes and its format. -/
theorem IsTable.opcode_form (h : IsTable c first n form mks) {k : Nat} (hk : k < mks.length) (f : α) :
    (mks[k] f).opcode = some (BitVec.ofNat 4 c, BitVec.ofNat 8 (first + k)) ∧ (mks[k] f).form = form f := by
  have hrow := congrArg (·[k]?) h
  simp only [List.getElem?_map, List.getElem?_eq_getElem hk, List.getElem?_range' (h.length_eq ▸ hk), Option.map_some,
    Option.some.injEq, Nat.one_mul] at hrow
  exact Prod.mk.inj (congrFun hrow f)

/-- Where the opcode map looks an opcode up in a table that ends where the assigned opcodes do, it follows R438. -/
theorem IsTable.followsMap (h : IsTable c first n form mks) {w : DWord} {ofWord : DWord → Option DWord → α}
    (hext : KeepsExt fun x => form (ofWord w x)) (hat : ∀ x, instrAt c o w x = (mks[o - first]?).map (· (ofWord w x)))
    (hfirst : first ≤ o := by omega) (hend : Assigned c o ↔ o < first + n := by unfold Assigned; omega) : FollowsMap c o w := by
  have hn := h.length_eq
  refine ⟨fun ha => ?_, fun ha x => ?_⟩
  · have hk : o - first < mks.length := by have := hend.mp ha; omega
    refine ⟨fun x => mks[o - first] (ofWord w x), fun x => ?_⟩
    have hop := fun x => h.opcode_form hk (ofWord w x)
    simp only [Nat.add_sub_cancel' hfirst] at hop
    obtain ⟨hx, hspec⟩ := hext x
    refine ⟨by rw [hat, List.getElem?_eq_getElem hk, Option.map_some], (hop x).1, by rw [Instr.ext, (hop x).2, hx], ?_⟩
    simp only [Instr.needsExt, hop, hspec]
  · rw [hat, List.getElem?_eq_none (by have := mt hend.mpr ha; omega), Option.map_none]

end Table

/-- Each class by its table, classes 0x4 and 0x7 by the first or the second of two. -/
theorem followsMap (c o : Nat) (w : DWord) : FollowsMap c o w := by
  match c with
  | 0x0 => exact class0_isTable.followsMap (VFmt.keepsExt w) fun _ => rfl
  | 0x1 => exact class1_isTable.followsMap (VFmt.keepsExt w) fun _ => rfl
  | 0x2 => exact class2_isTable.followsMap (VFmt.keepsExt w) fun _ => rfl
  | 0x3 => exact class3_isTable.followsMap (VFmt.keepsExt w) fun _ => rfl
  | 0x4 =>
    obtain ho | ho := Nat.lt_or_ge o 0x10
    · exact class4C_isTable.followsMap (CFmt.keepsExt w) fun _ => if_pos ho
    · exact class4V_isTable.followsMap (VFmt.keepsExt w) fun _ => if_neg ho.not_gt
  | 0x5 => exact class5_isTable.followsMap (MFmt.keepsExt w) fun _ => rfl
  | 0x6 => exact class6_isTable.followsMap (MFmt.keepsExt w) fun _ => rfl
  | 0x7 =>
    obtain ho | ho := Nat.lt_or_ge o 0x08
    · exact class7M_isTable.followsMap (MFmt.keepsExt w) fun _ => if_pos ho
    · exact class7Y_isTable.followsMap (YFmt.keepsExt w) fun _ => if_neg ho.not_gt
  | 0x8 => exact class8_isTable.followsMap (XFmt.keepsExt w) fun _ => rfl
  | 0x9 => exact class9_isTable.followsMap (GFmt.keepsExt w) fun _ => rfl
  | 0xA => exact classA_isTable.followsMap (YFmt.keepsExt w) fun _ => rfl
  | 0xB => exact classB_isTable.followsMap (YFmt.keepsExt w) fun _ => rfl
  | 0xC => exact classC_isTable.followsMap (VFmt.keepsExt w) fun _ => rfl
  | _ + 0xD => exact ⟨by unfold Assigned; omega, fun _ _ => rfl⟩

/-! ## What the decoder makes of a word -/

/-- A word with an assigned opcode: its instruction, with the next word just where it needs one. -/
theorem decodeWord_of_assigned {w : DWord} (h : Assigned (wordClass w) (wordOp w)) (next : DWord) :
    (decodeWord w next).opcode = some (BitVec.ofNat 4 (wordClass w), BitVec.ofNat 8 (wordOp w)) ∧
      (decodeWord w next).ext = if (decodeWord w next).needsExt then some next else none := by
  obtain ⟨i, hi⟩ := (followsMap _ _ w).1 h
  rw [hi.decodeWord_eq]
  obtain ⟨-, hop, hext, hneeds⟩ := hi (if (i none).needsExt then some next else none)
  exact ⟨hop, by rw [hext, hneeds]⟩

theorem decodeWord_eq_notAnInstruction {w : DWord} (h : ¬ Assigned (wordClass w) (wordOp w)) (next : DWord) :
    decodeWord w next = .notAnInstruction w := by
  rw [decodeWord, (followsMap _ _ w).2 h]

end Sys2Proof

namespace Sys2Proof.Machine

/-! ## A word that is no instruction -/

/-- The sub-reason of a word that is no instruction and no header (R438). -/
theorem stageA_notAnInstruction {w : DWord} (h : wordClass w ≤ 14) :
    Instr.stageA (.notAnInstruction w) = some (if wordClass w ≤ 12 then 0x02 else 0x01) := by
  rw [Instr.stageA, if_neg (by omega), ← apply_ite some]
  simp only [Nat.lt_succ_iff]

/-- Its sub-reason does not depend on where in its block the word stands. -/
theorem stageAIn_notAnInstruction {w : DWord} (h : ¬ Assigned (wordClass w) (wordOp w)) (hc : wordClass w ≤ 14) (last : Nat) :
    Instr.stageAIn (.notAnInstruction w) last = some (if wordClass w ≤ 12 then 0x02 else 0x01) := by
  have hword : decodeWord (Instr.notAnInstruction w).word 1 = .notAnInstruction w := decodeWord_eq_notAnInstruction h 1
  rw [Instr.stageAIn, hword, ite_self, stageA_notAnInstruction hc]
  exact if_pos (by split <;> decide)

/-- An instruction that issues with nothing to wait for, and that stage A refuses, raises cause 0x40 (R436). -/
theorem issue_refused {s : State} {e : Env} {i : Instr} {body : Env → State → Act} {sub : Nat} (he : s.env i = some e)
    (hissue : e.canIssue = true) (howed : s.entryOwed e.wk e.frag = false) (hblock : e.blocker i = none)
    (hjoin : e.joinWait s i = none) (hfetch : s.fetchPoisoned e i = false) (hbload : s.bloadBusy e.wk i = false)
    (hA : Instr.stageAIn i (s.wordsLeft e) = some sub) :
    issue i body s = .next (s.trapped e 0x40 (illegalVal i.word sub)) := by
  simp [issue, he, State.issueIn, hissue, howed, hblock, hjoin, fetchPoisoned_eq_false.mp hfetch, hbload, hA, State.perform,
    State.trapped]

/-- Settles O5: an assigned opcode lies in a table of its class; any other is read as no instruction, which stage A refuses. -/
theorem opcodeMap : Obligations.OpcodeMap := by
  unfold Obligations.OpcodeMap
  intro w next
  rw [← wordClass_eq, ← wordOp_eq]
  intro c o i assigned
  refine ⟨fun h => ?_, fun h => ?_⟩
  · obtain ⟨hop, hext⟩ := decodeWord_of_assigned h next
    exact ⟨hop, fun hn => ⟨hext.trans (if_pos hn), if_pos hn⟩, fun hn =>
      ⟨hext.trans (if_neg (ne_true_of_eq_false hn)), if_neg (ne_true_of_eq_false hn)⟩⟩
  · have hi : i = .notAnInstruction w := decodeWord_eq_notAnInstruction h next
    rw [hi]
    exact ⟨rfl, rfl, stageA_notAnInstruction, fun s e he hissue howed hblock hjoin hfetch hbload hc =>
      issue_refused he hissue howed hblock hjoin hfetch hbload (stageAIn_notAnInstruction h hc _)⟩

end Sys2Proof.Machine
end

