-- ==== Sys2Proof/Proofs/IntegerResults.lean ====
section
/-!
The uniform and integer instructions but for division (R117 to R126). Three parts: each shared effect as the writes its rule states,
the carry and compare forms, and the indexed moves.
-/

namespace Sys2Proof.Machine

/-! ## Counts and comparisons -/

/-- The number of one bits among the low w bits, bit by bit. -/
theorem countOnes_eq_countP (n w : Nat) : countOnes n w = (List.range w).countP fun j => n.testBit j := by
  induction w generalizing n with
  | zero => rfl
  | succ w ih =>
    rw [countOnes, ih, List.range_succ_eq_map, List.countP_cons, List.countP_map, Nat.add_comm]
    congr 1
    · simp [Function.comp_def, Nat.testBit_succ]
    · rcases Nat.mod_two_eq_zero_or_one n with h | h <;> simp [Nat.testBit_zero, h]

/-- The condition codes of R124 in code order. -/
theorem intCompare_eq_getD (t : Ty) (cc : BitVec 3) (x y : Nat) :
    intCompare t cc x y = [decide (t.value x = t.value y), decide (t.value x ≠ t.value y), decide (t.value x < t.value y),
      decide (t.value x ≤ t.value y), decide (t.value y < t.value x), decide (t.value y ≤ t.value x),
      decide (Nat.land x y ≠ 0)].getD cc.toNat false := by
  have h : cc.toNat < 8 := cc.isLt
  unfold intCompare
  interval_cases cc.toNat <;> rfl

/-- One of two operands is read as one of two values. -/
theorem Env.read_ite (e : Env) (t : Ty) (p : Prop) [Decidable p] (x y : Operand) (l : Nat) :
    e.read t (if p then x else y) l = if p then e.read t x l else e.read t y l := apply_ite (e.read t · l) ..

/-! ## Uniform instructions -/

theorem uniformResults : Rules.UniformResults := by
  intro s e f p hp hr
  simp only [List.mem_cons, List.not_mem_nil, or_false] at hp
  obtain rfl | rfl | rfl | rfl | rfl | rfl | rfl | rfl | rfl | rfl | rfl | rfl | rfl | rfl := hp <;> exact run_writes hr rfl rfl

/-- UADDC and USUBB take in bit 0 of C (R118). -/
theorem uniCarryIn_eq (e : Env) (c : Operand) : uniCarryIn e c = e.readZ c e.first % 2 := by
  simp [uniCarryIn, fieldOf, Env.readZ]

/-- A difference that takes no borrow in. -/
theorem subBorrow_zero (t : Ty) (a b : Nat) :
    subBorrow t a b 0 = (((a - b : Int) % (2 ^ t.width : Nat)).toNat, decide (a < b)) := by
  simp [subBorrow]

theorem uniformCarries : Rules.UniformCarries := by
  intro s e f a b k m put
  refine ⟨fun hr => run_writes hr rfl rfl, fun hr => run_writes hr rfl ?_, fun hr => run_writes hr rfl ?_,
    fun hr => run_writes hr rfl ?_⟩
  · simp only [uniCarry, if_true, uniCarryIn_eq]; rfl
  · simp only [uniCarry, Bool.false_eq_true, if_false, subBorrow_zero]; rfl
  · simp only [uniCarry, if_true, uniCarryIn_eq, subBorrow]; norm_cast

theorem uniformSpecials : Rules.UniformSpecials := by
  intro s e f a b v rel
  refine ⟨fun hr => run_writes hr rfl rfl, fun hr => run_writes hr rfl ?_, fun hr => run_writes hr rfl rfl,
    fun hr => run_writes hr rfl ?_, fun hr => run_writes hr rfl ?_⟩
  · simp only [uniCount, popCount, countOnes_eq_countP, a]
  · simp only [intCompare_eq_getD, rel, v, a, b]
  · simp only [Env.read_ite, ite_not, a, b]

/-- Settles O10: each instruction's effect is the writes stated, UPOPC's count and UCMP's codes taken one by one. -/
theorem uniformInstructions : Obligations.UniformInstructions := ⟨uniformResults, uniformCarries, uniformSpecials⟩

/-! ## Integer instructions -/

theorem integerResults : Rules.IntegerResults := by
  intro s e f p hp hr
  simp only [List.mem_cons, List.not_mem_nil, or_false] at hp
  obtain rfl | rfl | rfl | rfl | rfl | rfl | rfl | rfl | rfl | rfl | rfl | rfl | rfl | rfl | rfl | rfl | rfl | rfl | rfl := hp <;>
    exact run_writes hr rfl rfl

/-- ADD and SUB without C are the operation on every element, with 0 for C. -/
theorem vecAddSub_writes {o : IntOp} {k : Ty → Nat → Nat → Nat → Nat × Bool} {f : VFmt} {e : Env} {s : State} (hc : f.c = .none) :
    vecAddSub o k f e s = .writes s ((lanesOf e.lanes).flatMap fun l =>
      writeTo f.ty f.d l (o.run f.ty f.sat (e.read f.ty f.a l) (e.read f.ty f.b l) 0)) .none := by
  rw [vecAddSub, if_pos hc, vecOp, hc]
  rfl

theorem integerCarries : Rules.IntegerCarries := by
  intro s e f a b k m put
  refine ⟨fun p hp hr hc => ?_, fun hr hc => run_writes hr rfl ?_, fun hr => run_writes hr rfl ?_, fun hr hc => run_writes hr rfl ?_,
    fun hr => run_writes hr rfl ?_⟩
  · simp only [List.mem_cons, List.not_mem_nil, or_false] at hp
    obtain rfl | rfl := hp <;> exact run_writes hr rfl (vecAddSub_writes hc)
  · rw [vecAddSub, if_neg hc]; rfl
  · simp only [vecCarry, Bool.true_and]; rfl
  · rw [vecAddSub, if_neg hc]
    simp only [vecCarry, Bool.false_and, Bool.false_eq_true, if_false, subBorrow_zero]; rfl
  · simp only [vecCarry, Bool.true_and, subBorrow]; norm_cast

theorem integerSpecials : Rules.IntegerSpecials := by
  intro s e f a b each v rel
  refine ⟨fun hr => run_writes hr rfl rfl, fun hr => run_writes hr rfl ?_, fun hr => run_writes hr rfl rfl,
    fun hr => run_writes hr rfl ?_, fun hr => run_writes hr rfl ?_⟩
  · simp only [vecCount, popCount, countOnes_eq_countP, Env.lanewise, each, a]
  · simp only [intCompare_eq_getD, Env.lanewise, each, rel, v, a, b]
  · simp only [Env.lanewise, each, Env.read_ite, a, b]

/-- Settles O11: each instruction's effect is the writes stated, lane by lane. -/
theorem integerInstructions : Obligations.IntegerInstructions := ⟨integerResults, integerCarries, integerSpecials⟩

/-! ## Indexed moves -/

/-- An index lies in the window that B gives, where it gives one (R126). -/
def Env.inWindow (e : Env) (b : Operand) (x : Int) : Bool :=
  match windowLength e b with
  | some len => decide (0 ≤ x ∧ x < len)
  | none => true

theorem Env.inWindow_eq_false {e : Env} {b : Operand} {x : Int} :
    e.inWindow b x = false ↔ ∃ len, windowLength e b = some len ∧ ¬ (0 ≤ x ∧ x < len) := by
  unfold Env.inWindow
  cases windowLength e b <;> simp

/-- The value of cause 0x24: the index above the lane. -/
theorem windowTval (x : BitVec 16) {l : Nat} (hl : l < 96) :
    0#32 ++ x ++ BitVec.ofNat 16 l = BitVec.ofNat 64 (2 ^ 16 * x.toNat + l) := by
  apply BitVec.eq_of_toNat_eq
  have hx := x.isLt
  rw [BitVec.toNat_ofNat, Nat.mod_eq_of_lt (by omega), Nat.two_pow_add_eq_or_of_lt (by omega), BitVec.toNat_append,
    BitVec.toNat_ofNat, Nat.mod_eq_of_lt (by omega), BitVec.toNat_append]
  simp [Nat.shiftLeft_eq, Nat.mul_comm]

/-- A lane's register numbers reach outside the allocation (R126). -/
def Env.beyond (e : Env) (f : VFmt) (base : Nat) (x : Int) : Bool :=
  decide (base + x * f.ty.regs < 0 ∨ e.launch.vregs < base + x * f.ty.regs + f.ty.regs)

section Window
variable {f : VFmt} {e : Env} {base : Nat} {n : BitVec 2} (hc : f.c = .x n)
include hc

/-- The window first, then the allocation (R126). -/
theorem windowTrap_eq (i : Instr) :
    windowTrap f e i base f.ty.regs =
      match (lanesOf e.lanes).find? fun l => !e.inWindow f.b (e.wave.xreg n.toNat l).toInt with
      | some l => some (0x24, 0#32 ++ BitVec.ofInt 16 (e.wave.xreg n.toNat l).toInt ++ BitVec.ofNat 16 l)
      | none =>
        if (lanesOf e.lanes).any fun l => e.beyond f base (e.wave.xreg n.toNat l).toInt then some (0x40, illegalVal i.word 0x11)
        else none := by
  simp only [windowTrap, hc]
  rfl

theorem windowTrap_outside (i : Instr) {l : Nat} (hl : l ∈ lanesOf e.lanes)
    (hout : e.inWindow f.b (e.wave.xreg n.toNat l).toInt = false)
    (hmin : ∀ j ∈ lanesOf e.lanes, e.inWindow f.b (e.wave.xreg n.toNat j).toInt = false → l ≤ j) :
    windowTrap f e i base f.ty.regs =
      some (0x24, BitVec.ofNat 64 (2 ^ 16 * (BitVec.ofInt 16 (e.wave.xreg n.toNat l).toInt).toNat + l)) := by
  have hlow := lanesOf_find?_eq_some (p := fun l => !e.inWindow f.b (e.wave.xreg n.toNat l).toInt) hl (by simp [hout])
    fun j hj hp => hmin j hj (by simpa using hp)
  simp only [windowTrap_eq hc, hlow, windowTval _ (mem_lanesOf.mp hl).1]

theorem windowTrap_inside (i : Instr) (hin : ∀ l ∈ lanesOf e.lanes, ¬ e.inWindow f.b (e.wave.xreg n.toNat l).toInt = false) :
    windowTrap f e i base f.ty.regs =
      if (lanesOf e.lanes).any fun l => e.beyond f base (e.wave.xreg n.toNat l).toInt then some (0x40, illegalVal i.word 0x11)
      else none := by
  have hnone : ((lanesOf e.lanes).find? fun l => !e.inWindow f.b (e.wave.xreg n.toNat l).toInt) = none :=
    List.find?_eq_none.mpr fun l hl => by simpa using hin l hl
  simp only [windowTrap_eq hc, hnone]

end Window

/-- Settles O13: MOVX and MOVXS by the outcome of the test of their indices. -/
theorem indexedMoves : Obligations.IndexedMoves := by
  intro s e f base n hc x r reg outside beyond
  have hout : ∀ l, outside l ↔ e.inWindow f.b (x l) = false := fun l => Env.inWindow_eq_false.symm
  have hbey : ∀ l, beyond l ↔ e.beyond f base.toNat (x l) = true := fun l => decide_eq_true_iff.symm
  simp only [hout, hbey]
  refine ⟨fun h => ?_, fun p hp hi hb => ⟨fun l hl ho hmin => ?_, fun ho hb' => ?_⟩⟩
  · have hnone : ∀ i, windowTrap f e i base.toNat f.ty.regs = none := fun i => by
      rw [windowTrap_inside hc i fun l hl => (h l hl).1]
      exact if_neg (by simpa using fun l hl => (h l hl).2)
    refine ⟨fun hr ha => run_writes hr rfl ?_, fun hr hd => run_writes hr rfl ?_⟩
    · simp only [ha, regNo, hnone, windowReg, hc, Env.lanewise]; rfl
    · simp only [hd, regNo, hnone, windowReg, hc, Env.lanewise]; rfl
  · have htrap := fun i => windowTrap_outside (base := base.toNat) hc i hl ho hmin
    simp only [List.mem_cons, List.not_mem_nil, or_false] at hp
    obtain rfl | rfl := hp <;> refine issue_trap hi rfl ?_ <;> dsimp only at hb <;> simp only [hb, regNo, htrap] <;> rfl
  · have htrap : ∀ i : Instr, windowTrap f e i base.toNat f.ty.regs = some (0x40, illegalVal i.word 0x11) := fun i => by
      rw [windowTrap_inside hc i ho]
      exact if_pos (by simpa using hb')
    simp only [List.mem_cons, List.not_mem_nil, or_false] at hp
    obtain rfl | rfl := hp <;> refine issue_trap hi rfl ?_ <;> dsimp only at hb <;> simp only [hb, regNo, htrap]

end Sys2Proof.Machine
end

