-- ==== Sys2Proof/Proofs/RoundTrip.lean ====
section
/-!
Decoding and encoding (R7, R91 to R105, R109). Four parts: the fields of each format give back the bits they were read from, a word
gives back its eight bytes and they the word, an instruction's own word is read as that instruction, and the two halves of the statement.
-/

namespace Sys2Proof

/-! ## The bits that a format was read from -/

theorem Operand.bits_ofBits : ∀ w : BitVec 9, (Operand.ofBits w).bits = w := by decide +kernel

theorem Ty.bits_ofBits : ∀ w : BitVec 4, (Ty.ofBits w).bits = w := by decide +kernel

theorem specAt_bits (w : DWord) (lo : Nat) : (specAt w lo).bits = w.extractLsb' lo 9 := Operand.bits_ofBits _

/-- A bit of a word as a field of width 1. -/
theorem ofBool_getLsbD (w : DWord) (i : Nat) : BitVec.ofBool (w.getLsbD i) = w.extractLsb' i 1 := by
  ext j hj
  obtain rfl : j = 0 := by omega
  simp

section Bodies
variable (w : DWord) (x : Option DWord)

/-! Each body is its fields side by side, which are bits [51:0] cut at the fields' places. -/

theorem VFmt.body_ofWord : (VFmt.ofWord w x).body = w.extractLsb' 0 52 := by
  simp only [VFmt.body, VFmt.ofWord, specAt_bits, Ty.bits_ofBits, ofBool_getLsbD]
  repeat rw [BitVec.extractLsb'_append_extractLsb'_eq_extractLsb' ?_]
  all_goals rfl

theorem MFmt.body_ofWord : (MFmt.ofWord w x).body = w.extractLsb' 0 52 := by
  simp only [MFmt.body, MFmt.ofWord, specAt_bits, ofBool_getLsbD]
  repeat rw [BitVec.extractLsb'_append_extractLsb'_eq_extractLsb' ?_]
  all_goals rfl

theorem CFmt.body_ofWord : (CFmt.ofWord w x).body = w.extractLsb' 0 52 := by
  simp only [CFmt.body, CFmt.ofWord, specAt_bits, ofBool_getLsbD]
  repeat rw [BitVec.extractLsb'_append_extractLsb'_eq_extractLsb' ?_]
  all_goals rfl

theorem XFmt.body_ofWord : (XFmt.ofWord w x).body = w.extractLsb' 0 52 := by
  simp only [XFmt.body, XFmt.ofWord, specAt_bits, Ty.bits_ofBits, ofBool_getLsbD]
  repeat rw [BitVec.extractLsb'_append_extractLsb'_eq_extractLsb' ?_]
  all_goals rfl

theorem GFmt.body_ofWord : (GFmt.ofWord w x).body = w.extractLsb' 0 52 := by
  simp only [GFmt.body, GFmt.ofWord, specAt_bits, ofBool_getLsbD]
  repeat rw [BitVec.extractLsb'_append_extractLsb'_eq_extractLsb' ?_]
  all_goals rfl

theorem YFmt.body_ofWord : (YFmt.ofWord w x).body = w.extractLsb' 0 52 := by
  simp only [YFmt.body, YFmt.ofWord, ofBool_getLsbD]
  repeat rw [BitVec.extractLsb'_append_extractLsb'_eq_extractLsb' ?_]
  all_goals rfl

end Bodies

/-- A word that the opcode map takes to an instruction is that instruction's word. -/
def KeepsWord (c o : Nat) (w : DWord) : Prop :=
  ∀ x i, instrAt c o w x = some i → i.opcode = some (BitVec.ofNat 4 c, BitVec.ofNat 8 o) ∧ i.form.body = w.extractLsb' 0 52

theorem IsTable.keepsWord {α : Type} {c first n o : Nat} {form : α → Form} {mks : List (α → Instr)} (h : IsTable c first n form mks)
    {w : DWord} {ofWord : DWord → Option DWord → α} (hbody : ∀ x, (form (ofWord w x)).body = w.extractLsb' 0 52)
    (hat : ∀ x, instrAt c o w x = (mks[o - first]?).map (· (ofWord w x))) (hfirst : first ≤ o := by omega) : KeepsWord c o w := by
  intro x i hi
  rw [hat, Option.map_eq_some_iff] at hi
  obtain ⟨mk, hmk, rfl⟩ := hi
  obtain ⟨hk, rfl⟩ := List.getElem?_eq_some_iff.mp hmk
  obtain ⟨hop, hform⟩ := h.opcode_form hk (ofWord w x)
  rw [Nat.add_sub_cancel' hfirst] at hop
  exact ⟨hop, hform ▸ hbody x⟩

/-- Each class by its table, classes 0x4 and 0x7 by the first or the second of two. -/
theorem keepsWord (c o : Nat) (w : DWord) : KeepsWord c o w := by
  match c with
  | 0x0 => exact class0_isTable.keepsWord (VFmt.body_ofWord w) fun _ => rfl
  | 0x1 => exact class1_isTable.keepsWord (VFmt.body_ofWord w) fun _ => rfl
  | 0x2 => exact class2_isTable.keepsWord (VFmt.body_ofWord w) fun _ => rfl
  | 0x3 => exact class3_isTable.keepsWord (VFmt.body_ofWord w) fun _ => rfl
  | 0x4 =>
    obtain ho | ho := Nat.lt_or_ge o 0x10
    · exact class4C_isTable.keepsWord (CFmt.body_ofWord w) fun _ => if_pos ho
    · exact class4V_isTable.keepsWord (VFmt.body_ofWord w) fun _ => if_neg ho.not_gt
  | 0x5 => exact class5_isTable.keepsWord (MFmt.body_ofWord w) fun _ => rfl
  | 0x6 => exact class6_isTable.keepsWord (MFmt.body_ofWord w) fun _ => rfl
  | 0x7 =>
    obtain ho | ho := Nat.lt_or_ge o 0x08
    · exact class7M_isTable.keepsWord (MFmt.body_ofWord w) fun _ => if_pos ho
    · exact class7Y_isTable.keepsWord (YFmt.body_ofWord w) fun _ => if_neg ho.not_gt
  | 0x8 => exact class8_isTable.keepsWord (XFmt.body_ofWord w) fun _ => rfl
  | 0x9 => exact class9_isTable.keepsWord (GFmt.body_ofWord w) fun _ => rfl
  | 0xA => exact classA_isTable.keepsWord (YFmt.body_ofWord w) fun _ => rfl
  | 0xB => exact classB_isTable.keepsWord (YFmt.body_ofWord w) fun _ => rfl
  | 0xC => exact classC_isTable.keepsWord (VFmt.body_ofWord w) fun _ => rfl
  | _ + 0xD => exact fun _ _ h => nomatch h

/-- An instruction's word is its class, its opcode and its fields. -/
theorem Instr.word_of_opcode {i : Instr} {c : BitVec 4} {o : BitVec 8} (h : i.opcode = some (c, o)) : i.word = c ++ o ++ i.form.body := by
  unfold Instr.word
  split
  · cases h
  · simp only [h]

/-- Class, opcode and the other bits put together again. -/
theorem word_of_fields (w : DWord) : BitVec.ofNat 4 (wordClass w) ++ BitVec.ofNat 8 (wordOp w) ++ w.extractLsb' 0 52 = w := by
  rw [wordClass, wordOp, BitVec.ofNat_toNat, BitVec.ofNat_toNat, BitVec.setWidth_eq, BitVec.setWidth_eq]
  repeat rw [BitVec.extractLsb'_append_extractLsb'_eq_extractLsb' ?_]
  · exact BitVec.extractLsb'_eq_self
  all_goals rfl

/-- No bit of a word is lost (R91 to R105). -/
theorem decodeWord_word (w next : DWord) : (decodeWord w next).word = w := by
  by_cases h : Assigned (wordClass w) (wordOp w)
  · obtain ⟨i, hi⟩ := (followsMap _ _ w).1 h
    rw [hi.decodeWord_eq]
    obtain ⟨hop, hbody⟩ := keepsWord _ _ w _ _ (hi (if (i none).needsExt then some next else none)).1
    rw [Instr.word_of_opcode hop, hbody, word_of_fields]
  · rw [decodeWord_eq_notAnInstruction h]
    rfl

/-! ## Words and their bytes -/

theorem bytesOfWord_length (w : DWord) : (bytesOfWord w).length = 8 := by simp [bytesOfWord]

/-- A word is the number that its bytes spell (R7). -/
theorem wordOfBytes_bytesOfWord (w : DWord) : wordOfBytes (bytesOfWord w) = w := by
  apply BitVec.eq_of_toNat_eq
  simp only [wordOfBytes, bytesOfWord, show List.range 8 = [0, 1, 2, 3, 4, 5, 6, 7] from rfl, List.map_cons, List.map_nil,
    List.foldr_cons, List.foldr_nil, BitVec.toNat_ofNat, BitVec.extractLsb'_toNat, Nat.shiftRight_eq_div_pow]
  omega

/-! ## An instruction's own word -/

open Laws.Encoding in
/-- The opcode map takes an instruction's word and extension word to the instruction (R91, R109). -/
theorem instrAt_word {i : Instr} {c : BitVec 4} {o : BitVec 8} (h : i.opcode = some (c, o)) :
    instrAt c.toNat o.toNat i.word i.ext = some i := by
  have hi : Statement i := by
    cases i with
    | uadd f => exact uadd f | uaddc f => exact uaddc f | usub f => exact usub f | usubb f => exact usubb f
    | umul f => exact umul f | umulhi f => exact umulhi f | umulw f => exact umulw f | udiv f => exact udiv f
    | urem f => exact urem f | umin f => exact umin f | umax f => exact umax f | uand f => exact uand f | uor f => exact uor f
    | uxor f => exact uxor f | unot f => exact unot f | ushl f => exact ushl f | ushr f => exact ushr f | usar f => exact usar f
    | ubfe f => exact ubfe f | ubfi f => exact ubfi f | upopc f => exact upopc f | uclz f => exact uclz f
    | ucmp f => exact ucmp f | usel f => exact usel f | umov f => exact umov f | add f => exact add f | addc f => exact addc f
    | sub f => exact sub f | subb f => exact subb f | mul f => exact mul f | mulhi f => exact mulhi f | mulw f => exact mulw f
    | mad f => exact mad f | div f => exact div f | rem f => exact rem f | min f => exact min f | max f => exact max f
    | abs f => exact abs f | and f => exact and f | or f => exact or f | xor f => exact xor f | not f => exact not f
    | shl f => exact shl f | shr f => exact shr f | sar f => exact sar f | bfe f => exact bfe f | bfi f => exact bfi f
    | brev f => exact brev f | popc f => exact popc f | clz f => exact clz f | cmp f => exact cmp f | sel f => exact sel f
    | mov f => exact mov f | movx f => exact movx f | movxs f => exact movxs f | fadd f => exact fadd f | fsub f => exact fsub f
    | fmul f => exact fmul f | ffma f => exact ffma f | fmin f => exact fmin f | fmax f => exact fmax f | fabs f => exact fabs f
    | fneg f => exact fneg f | fcmp f => exact fcmp f | fclass f => exact fclass f | frcp f => exact frcp f
    | frsq f => exact frsq f | fsqrt f => exact fsqrt f | fdiv f => exact fdiv f | fexp2 f => exact fexp2 f
    | flog2 f => exact flog2 f | fsin f => exact fsin f | fcos f => exact fcos f | ftanh f => exact ftanh f
    | ffloor f => exact ffloor f | fceil f => exact fceil f | ftrunc f => exact ftrunc f | frint f => exact frint f
    | ffrac f => exact ffrac f | fldexp f => exact fldexp f | fexpo f => exact fexpo f | fmant f => exact fmant f
    | fmed3 f => exact fmed3 f | fdot2 f => exact fdot2 f | fdot4 f => exact fdot4 f | cvt f => exact cvt f
    | cvtmx f => exact cvtmx f | pack f => exact pack f | unpack f => exact unpack f | mxscale f => exact mxscale f
    | bperm f => exact bperm f | shfl f => exact shfl f | shflup f => exact shflup f | shfldn f => exact shfldn f
    | shflx f => exact shflx f | voteany f => exact voteany f | voteall f => exact voteall f | voteeq f => exact voteeq f
    | ballot f => exact ballot f | scan f => exact scan f | scanx f => exact scanx f | reduce f => exact reduce f
    | compact f => exact compact f | expand f => exact expand f | rdfirst f => exact rdfirst f | bra f => exact bra f
    | brp f => exact brp f | bru f => exact bru f | call f => exact call f | calli f => exact calli f | ret f => exact ret f
    | jmpi f => exact jmpi f | exit f => exact exit f | regang f => exact regang f | pand f => exact pand f
    | por f => exact por f | pxor f => exact pxor f | pandn f => exact pandn f | pnot f => exact pnot f | pmov f => exact pmov f
    | ld f => exact ld f | st f => exact st f | lds f => exact lds f | sts f => exact sts f | ldsr f => exact ldsr f
    | stsr f => exact stsr f | sld f => exact sld f | sst f => exact sst f | tld f => exact tld f | tst f => exact tst f
    | pref f => exact pref f | evict f => exact evict f | fence f => exact fence f | sqpush f => exact sqpush f
    | sqpop f => exact sqpop f | aadd f => exact aadd f | afadd f => exact afadd f | amin f => exact amin f
    | amax f => exact amax f | aand f => exact aand f | aor f => exact aor f | axor f => exact axor f | axchg f => exact axchg f
    | acas f => exact acas f | atile f => exact atile f | copy f => exact copy f | copyin f => exact copyin f
    | copyout f => exact copyout f | copyt f => exact copyt f | batch f => exact batch f | waitb f => exact waitb f
    | waitbn f => exact waitbn f | bquery f => exact bquery f | mma f => exact mma f | mmaGrp f => exact mmaGrp f
    | mmaLut f => exact mmaLut f | mmaSa f => exact mmaSa f | lutb f => exact lutb f | bload f => exact bload f
    | aclr f => exact aclr f | amovr f => exact amovr f | amovw f => exact amovw f | ascale f => exact ascale f
    | drain f => exact drain f | drainAdd f => exact drainAdd f | lend f => exact lend f
    | astat f => exact astat f | sample f => exact sample f | sampleN f => exact sampleN f | gather f => exact gather f
    | texq f => exact texq f | wpin f => exact wpin f | wunpin f => exact wunpin f | winv f => exact winv f
    | rng f => exact rng f | rayPin f => exact rayPin f | rayTrace f => exact rayTrace f | rayNext f => exact rayNext f
    | rayUnpin f => exact rayUnpin f | bvhBuild f => exact bvhBuild f | bvhRefit f => exact bvhRefit f
    | bvhBal f => exact bvhBal f | bvhPub f => exact bvhPub f | bar f => exact bar f | barCl f => exact barCl f
    | arrive f => exact arrive f | waitbar f => exact waitbar f | collRed f => exact collRed f | collGath f => exact collGath f
    | collScat f => exact collScat f | collBcast f => exact collBcast f | collWait f => exact collWait f
    | gate f => exact gate f | gateret f => exact gateret f | objGrant f => exact objGrant f | nop f => exact nop f
    | trap f => exact trap f | rett f => exact rett f | sread f => exact sread f | swrite f => exact swrite f
    | phint f => exact phint f | enter f => exact enter f | leave f => exact leave f | brk f => exact brk f
    | waitClk f => exact waitClk f | yield f => exact yield f | mark f => exact mark f | derive f => exact derive f
    | narrow f => exact narrow f | refadd f => exact refadd f | refoff f => exact refoff f | refset f => exact refset f
    | refcmp f => exact refcmp f | refchk f => exact refchk f | objq f => exact objq f | relayout f => exact relayout f
    | rlwait f => exact rlwait f | taddr f => exact taddr f | tdesc f => exact tdesc f
    -- RECALL is left, whose name is a keyword of Mathlib, and the events, which have no opcode.
    | _ => cases h <;> exact Laws.Encoding.recall _
  rwa [Statement, h] at hi

/-- The decoder reads an instruction's word as the instruction, with the next word as its extension word where it has one. -/
theorem decodeWord_of_word {i : Instr} (h : i.encodable = true) (hext : i.extFits = true)
    (next : DWord) : decodeWord i.word (i.ext.getD next) = i := by
  obtain ⟨⟨c, o⟩, hop⟩ := Option.isSome_iff_exists.mp h
  have hat := instrAt_word hop
  have hc : wordClass i.word = c.toNat := by rw [Instr.word_of_opcode hop, wordClass_word]
  have ho : wordOp i.word = o.toNat := by rw [Instr.word_of_opcode hop, wordOp_word]
  have hmap := followsMap c.toNat o.toNat i.word
  have hassigned : Assigned c.toNat o.toNat := by
    by_contra hn
    rw [hmap.2 hn] at hat
    cases hat
  obtain ⟨j, hj⟩ := hmap.1 hassigned
  have hji : j i.ext = i := Option.some.inj ((hj i.ext).1.symm.trans hat)
  have hneeds : (j none).needsExt = i.ext.isSome := by
    rw [← (hj i.ext).2.2.2, hji]
    exact (eq_of_beq hext).symm
  rw [← hc, ← ho] at hj
  rw [hj.decodeWord_eq, hneeds]
  conv_rhs => rw [← hji]
  cases i.ext <;> rfl

/-! ## Bytes -/

/-- Bytes that begin with a word of an instruction, by whether it needs an extension word (R91). -/
theorem decode_bytesOfWord {w : DWord} {bs : List Byte} {i : Instr} (hi : i.encodable = true)
    (hw : decodeWord w (wordOfBytes (bs.take 8)) = i) :
    decode (bytesOfWord w ++ bs) =
      if i.needsExt then (if bs.length < 8 then .error .noExtension else .ok (i, bs.drop 8)) else .ok (i, bs) := by
  have hlen := bytesOfWord_length w
  have hlong : ¬ (bytesOfWord w ++ bs).length < 8 := by rw [List.length_append]; omega
  unfold decode
  simp only [if_neg hlong, List.take_left' hlen, List.drop_left' hlen, wordOfBytes_bytesOfWord, hw]
  split
  · cases hi
  · rfl

/-- Settles O4: a word's fields are read back from the tables of its class, and an instruction's word from its own law. -/
theorem roundTrip : Obligations.RoundTrip := by
  refine ⟨fun i rest h hext => ?_, decodeWord_word⟩
  obtain ⟨⟨c, o⟩, hop⟩ := Option.isSome_iff_exists.mp h
  have henc : encodeBytes i = bytesOfWord i.word ++ i.ext.toList.flatMap bytesOfWord := by
    rw [encodeBytes, encode, hop]
    rfl
  have hneeds : i.ext.isSome = i.needsExt := eq_of_beq hext
  have hw := decodeWord_of_word h hext
  rw [henc, List.append_assoc]
  cases hx : i.ext with
  | none =>
    rw [hx] at hw hneeds
    rw [decode_bytesOfWord h (hw _), if_neg (by simp [← hneeds])]
    rfl
  | some x =>
    rw [hx] at hw hneeds
    have hlen := bytesOfWord_length x
    have hrest : (some x).toList.flatMap bytesOfWord ++ rest = bytesOfWord x ++ rest := by simp
    have hnext : decodeWord i.word (wordOfBytes ((bytesOfWord x ++ rest).take 8)) = i := by
      rw [List.take_left' hlen, wordOfBytes_bytesOfWord]
      exact hw x
    rw [hrest, decode_bytesOfWord h hnext, if_pos (by simp [← hneeds]), if_neg (by rw [List.length_append]; omega), List.drop_left' hlen]

end Sys2Proof
end

