-- ==== Sys2Proof/Proofs/FloatResults.lean ====
section
/-!
The float instructions, the conversions and the predicate logic (R58, R59, R139 to R157, R166). A float instruction's act is its trap
or its writes, flags and draws, by the conditions of its lanes together: that is said once, and each instruction's rule is then its
own lanes' results put into it.
-/

namespace Sys2Proof.Machine

/-! ## Conditions together -/

theorem Cond.none_or (c : Cond) : Cond.none.or c = c := by simp [Cond.or, Cond.none]

theorem Cond.or_none (c : Cond) : c.or .none = c := by simp [Cond.or, Cond.none]

theorem allConds_eq_foldl (rs : List (Nat × LaneRes)) : allConds rs = (rs.flatMap fun r => r.2.conds).foldl Cond.or .none := by
  rw [List.foldl_flatMap]
  rfl

theorem results_conds (e : Env) (g : Nat → LaneRes) :
    allConds (e.results g) = ((lanesOf e.lanes).flatMap fun l => (g l).conds).foldl Cond.or .none := by
  rw [allConds_eq_foldl, Env.results, List.flatMap_map]

theorem results_writes (e : Env) (g : Nat → LaneRes) :
    ((e.results g).flatMap fun r => r.2.ws) = (lanesOf e.lanes).flatMap fun l => (g l).ws := by
  rw [Env.results, List.flatMap_map]

/-! ## The act of a float instruction (R142) -/

/-- No enabled condition is raised. -/
def Env.quiet (e : Env) (c : Cond) : Prop := (c.enabled (Cond.enables e.wave.mode)).floatCause = none

/-- Register writes after draws have been reserved, where the fragment goes straight on. -/
theorem run_writes_reserve {s : State} {e : Env} {i : Instr} {body : Env → State → Act} {ws : List RegWrite} {c : Cond} {n : Nat}
    (h : s.Runs e i) (hg : Instr.gangPoint i = false) (hb : body e s = .writes (e.reserve n s) ws c) :
    issue i body s = .next ((e.reserve n s).wrote e i ws c) := by
  obtain ⟨-, hw, -, hwg, hla, -⟩ := State.env_some h.1
  have hfind : (e.reserve n s).waves.find? e.wk = some { e.wave with
      draws := (lanesOf e.lanes).foldl (fun m l => SMap.set 0 m l (SMap.get 0 m l + BitVec.ofNat 32 n)) e.wave.draws } := by
    simp [Env.reserve, hw]
  rw [issue_performs h.issues hg, hb,
    perform_writes h.1 h.2.2 hfind ⟨rfl, rfl, rfl, rfl, rfl, rfl, rfl, rfl, rfl⟩ hwg hla (codeWord_congr rfl ..)]
  rfl

section Act
variable {s : State} {e : Env} {i : Instr} {body : Env → State → Act} {g : Nat → LaneRes} {n : Nat}

theorem floatAct_writes {rs : List (Nat × LaneRes)} (hq : e.quiet (allConds rs)) :
    floatAct e s n rs = .writes (if n = 0 then s else e.reserve n s) (rs.flatMap fun r => r.2.ws) (allConds rs) := by
  unfold Env.quiet at hq
  simp only [floatAct, hq]

/-- With no enabled condition, and no draw to take, a float instruction leaves its writes and its conditions. -/
theorem run_floatAct {rs : List (Nat × LaneRes)} (h : s.Runs e i) (hg : Instr.gangPoint i = false) (hb : body e s = floatAct e s 0 rs)
    (hq : e.quiet (allConds rs)) : issue i body s = .next (s.wrote e i (rs.flatMap fun r => r.2.ws) (allConds rs)) :=
  run_writes h hg (hb.trans (floatAct_writes hq))

theorem run_float (h : s.Runs e i) (hg : Instr.gangPoint i = false) (hb : body e s = floatAct e s 0 (e.results g))
    (hq : e.quiet (((lanesOf e.lanes).flatMap fun l => (g l).conds).foldl Cond.or .none)) :
    issue i body s = .next (s.wrote e i ((lanesOf e.lanes).flatMap fun l => (g l).ws)
      (((lanesOf e.lanes).flatMap fun l => (g l).conds).foldl Cond.or .none)) := by
  rw [← results_conds] at hq ⊢
  rw [← results_writes]
  exact run_floatAct h hg hb hq

/-- With no enabled condition a float instruction that draws where P leaves its writes and its conditions, one draw taken there. -/
theorem run_float_drawing {P Q : Prop} {_ : Decidable P} [Decidable Q] (h : s.Runs e i) (hg : Instr.gangPoint i = false)
    (hb : body e s = floatAct e s (if P then 1 else 0) (e.results g)) (hPQ : P ↔ Q)
    (hq : e.quiet (((lanesOf e.lanes).flatMap fun l => (g l).conds).foldl Cond.or .none)) :
    issue i body s = .next ((if Q then e.reserve 1 s else s).wrote e i ((lanesOf e.lanes).flatMap fun l => (g l).ws)
      (((lanesOf e.lanes).flatMap fun l => (g l).conds).foldl Cond.or .none)) := by
  by_cases hP : P
  · rw [if_pos hP] at hb
    rw [if_pos (hPQ.mp hP)]
    rw [← results_conds] at hq ⊢
    rw [← results_writes]
    exact run_writes_reserve h hg (hb.trans (floatAct_writes hq))
  · rw [if_neg hP] at hb
    rw [if_neg (mt hPQ.mpr hP)]
    exact run_float h hg hb hq

/-- The place of the lowest element that raises a cause in the lowest lane where one does (R142). -/
theorem floatTval_eq {cause l j : Nat} (hl : l ∈ lanesOf e.lanes) (hj : j < (g l).conds.length)
    (hhas : ((g l).conds.getD j .none).has cause = true)
    (hmin : ∀ m ∈ lanesOf e.lanes, ∀ k < (g m).conds.length, ((g m).conds.getD k .none).has cause = true → l < m ∨ l = m ∧ j ≤ k) :
    floatTval cause (e.results g) = BitVec.ofNat 64 (128 * j + l) := by
  have hlane : ((e.results g).find? fun r => r.2.conds.any fun c => c.has cause) = some (l, g l) := by
    rw [Env.results, List.find?_map, lanesOf_find?_eq_some hl ?_ ?_]
    · rfl
    · exact List.any_eq_true.mpr ⟨_, List.getElem_mem hj, by simpa [hj] using hhas⟩
    · intro m hm hany
      obtain ⟨c, hc, hcause⟩ := List.any_eq_true.mp hany
      obtain ⟨k, hk, rfl⟩ := List.getElem_of_mem hc
      have := hmin m hm k hk (by rwa [List.getD_eq_getElem _ _ hk])
      omega
  have hplace : ((List.range (g l).conds.length).find? fun k => ((g l).conds.getD k .none).has cause) = some j := by
    rw [List.find?_range_eq_some]
    refine ⟨hhas, List.mem_range.mpr hj, fun k hk => ?_⟩
    by_contra hc
    have := hmin l hl k (by omega) (by simpa using hc)
    omega
  simp only [floatTval, hlane, hplace, Option.getD_some]

end Act

/-! ## Arithmetic (R143, R144) -/

/-- Instruction i, of format f, is operation o on every element, rounded by RND where it rounds. -/
structure IsFloatOp (i : Instr) (f : VFmt) (o : FloatOp) (rounds : Bool) : Prop where
  exec_eq : ∀ s, exec i s = issue i (floatOp o rounds f) s
  gangPoint : Instr.gangPoint i = false

/-- Settles O15: the trap decision of R142 on the conditions of all elements of all lanes. -/
theorem floatResults : Obligations.FloatResults := by
  intro s e f p hp t fz code v r conds raised ws
  have hop : IsFloatOp p.1 f p.2.1 p.2.2 := by
    simp only [List.mem_cons, List.not_mem_nil, or_false] at hp
    obtain rfl | rfl | rfl | rfl | rfl | rfl | rfl | rfl | rfl | rfl | rfl | rfl | rfl | rfl | rfl | rfl | rfl | rfl | rfl | rfl | rfl |
      rfl := hp <;> exact ⟨fun _ => rfl, rfl⟩
  let g (l : Nat) : LaneRes :=
    ⟨writeTo t f.d l (t.join ((List.range t.elems).map fun i => (r l i).code)), (List.range t.elems).map fun i => (r l i).cond⟩
  have hbody : floatOp p.2.1 p.2.2 f e s = floatAct e s (if p.2.2 = true ∧ code = 6 then 1 else 0) (e.results g) := by
    simp only [floatOp, Ty.joinRes, List.map_map]
    rfl
  have hquiet : raised = none → e.quiet (((lanesOf e.lanes).flatMap fun l => (g l).conds).foldl Cond.or .none) := id
  refine ⟨fun hr hq hd => ?_, fun hr hq hd => ?_, fun cause hi hc l hl j hj hhas hmin => ?_⟩
  · have := run_float_drawing hr hop.gangPoint hbody Iff.rfl (hquiet hq)
    rw [hop.exec_eq, this, if_pos hd]
  · have := run_float_drawing hr hop.gangPoint hbody Iff.rfl (hquiet hq)
    rw [hop.exec_eq, this, if_neg hd]
  · have hlen : ∀ m, (g m).conds.length = t.elems := fun m => by simp [g]
    have hget : ∀ m, ∀ k < t.elems, (g m).conds.getD k .none = (r m k).cond := fun m k hk => by simp [g, hk]
    have htval := floatTval_eq (g := g) (cause := cause) hl ((hlen l).symm ▸ hj) (by rw [hget l j hj]; exact hhas)
      fun m hm k hk hk' => hmin m hm k (hlen m ▸ hk) (by rwa [hget m k (hlen m ▸ hk)] at hk')
    have hraised : ((allConds (e.results g)).enabled (Cond.enables e.wave.mode)).floatCause = some cause := by
      rw [results_conds]
      exact hc
    rw [hop.exec_eq]
    refine issue_trap hi hop.gangPoint (hbody.trans ?_)
    simp only [floatAct, hraised, htval]

/-! ## Forms of their own (R146, R147, R150, R151) -/

theorem roundingMode : Rules.RoundingMode := fun _ _ => ⟨fun h => if_pos h, fun h => if_neg h⟩

/-- A list of one condition per lane. -/
theorem flatMap_singleton_eq_map {α : Type} (l : List Nat) (h : Nat → α) : (l.flatMap fun x => [h x]) = l.map h :=
  List.flatMap_pure_eq_map h l

theorem floatSpecials : Rules.FloatSpecials := by
  intro s e f t fz code v quiet cmp cmpConds ld ldConds
  have hcmp : cmpConds = ((lanesOf e.lanes).flatMap fun l => [(cmp l).2]).foldl Cond.or .none := by
    rw [flatMap_singleton_eq_map]
  have hld : ldConds = ((lanesOf e.lanes).flatMap fun l => [(ld l).cond]).foldl Cond.or .none := by
    rw [flatMap_singleton_eq_map]
  have hnone : (((lanesOf e.lanes).flatMap fun _ => ([] : List Cond)).foldl Cond.or .none) = .none := by
    rw [List.flatMap_eq_nil_iff.mpr fun _ _ => rfl, List.foldl_nil]
  rw [hcmp, hld]
  have hldexp (hr : s.Runs e (.fldexp f)) (hq) : exec (.fldexp f) s = _ := run_float_drawing (P := code = 6)
    (g := fun l => ⟨writeTo t f.d l (BitVec.ofNat 64 (ld l).code), [(ld l).cond]⟩) hr rfl rfl Iff.rfl hq
  refine ⟨fun hr hq => ?_, fun hr => ?_, fun hr => ?_, fun hr hq hd => ?_, fun hr hq hd => ?_⟩
  · exact run_float (g := fun l => ⟨writeP f.d l (cmp l).1, [(cmp l).2]⟩) hr rfl rfl hq
  · have : exec (.fclass f) s = _ := run_float (g := fun l => ⟨writeP f.d l ((e.readZ f.b l).testBit (t.fmt.classBit (t.fmt.decode (t.elem (e.read t f.a l) 0)))),
      []⟩) hr rfl rfl (by rw [hnone]; rfl)
    rwa [hnone] at this
  · have : exec (.fexpo f) s = _ := run_float (g := fun l => ⟨writeTo .z32 f.d l ((v f.a l).expo.zeroExtend 64), []⟩) hr rfl rfl (by rw [hnone]; rfl)
    rwa [hnone] at this
  · have := hldexp hr hq
    rwa [if_neg hd] at this
  · have := hldexp hr hq
    rwa [if_pos hd] at this

theorem dotProducts : Rules.DotProducts := by
  intro s e f i hi t v fz code r conds hr hq
  have hconds : conds = ((lanesOf e.lanes).flatMap fun l => [(r l).cond]).foldl Cond.or .none := by
    rw [flatMap_singleton_eq_map]
  rw [hconds] at hq ⊢
  simp only [List.mem_cons, List.not_mem_nil, or_false] at hi
  obtain rfl | rfl := hi <;>
    exact run_float_drawing (g := fun l => ⟨writeTo .f32 f.d l (BitVec.ofNat 64 (r l).code), [(r l).cond]⟩) hr rfl rfl Iff.rfl hq

/-- Settles O16: each form's act is its lanes' results with their conditions. -/
theorem floatForms : Obligations.FloatForms := ⟨roundingMode, floatSpecials, dotProducts⟩

/-! ## Conversions (R153 to R157) -/

/-- Conditions of elements that raise none before the last. -/
theorem replicate_none_foldl (n : Nat) (c acc : Cond) : (List.replicate n Cond.none ++ [c]).foldl Cond.or acc = acc.or c := by
  induction n with
  | zero => rfl
  | succ n ih => rwa [List.replicate_succ, List.cons_append, List.foldl_cons, Cond.or_none]

/-- The lane's element under CVTMX (R155): scaled, rounded, and clamped where it overflows. -/
def Env.scaledElement (e : Env) (f : VFmt) (l : Nat) : FRes :=
  if e.readZ f.b l % 256 = 255 then ⟨f.ty.fmt.nanCode, { Cond.none with nv := true }⟩
  else
    match binary32.decodeFz (e.wave.flushes .f32) (Ty.f32.elem (e.read .f32 f.a l) 0) with
    | .nan => ⟨f.ty.fmt.nanCode, { Cond.none with nv := true }⟩
    | .inf neg => ⟨f.ty.fmt.maxCode neg, { Cond.none with of_ := true }⟩
    | .fin neg m x =>
      let y := f.ty.fmt.round false (modeOf (e.rounding f.rnd) (e.draw l 0) 0 1) neg ⟨m, x + 127 - (e.readZ f.b l % 256 : Nat), false⟩
      if y.cond.of_ then ⟨f.ty.fmt.maxCode neg, y.cond⟩ else y

/-- CVTMX's result in a lane: the old register with one element replaced. -/
def Env.mxLane (e : Env) (f : VFmt) (r : Nat → FRes) (l : Nat) : LaneRes :=
  let place := e.readZ f.c l % f.ty.elems
  ⟨writeTo .z32 f.d l (BitVec.ofNat 64 ((e.read .z32 f.d l).toNat -
      f.ty.elem (e.read .z32 f.d l) place * 2 ^ (f.ty.width * place) + (r l).code * 2 ^ (f.ty.width * place))),
    List.replicate place .none ++ [(r l).cond]⟩

theorem execCvtmx_eq (f : VFmt) (s : State) : exec (.cvtmx f) s = issue (.cvtmx f) (fun e s =>
    floatAct e s (if e.rounding f.rnd = 6 then 1 else 0) (e.results (e.mxLane f (e.scaledElement f)))) s := by
  simp only [exec, execCvtmx, BitVec.ofNat_toNat, BitVec.setWidth_eq]
  rfl

/-- CVTMX's conditions are those of the elements it writes. -/
theorem mxLane_conds (e : Env) (f : VFmt) (r : Nat → FRes) (ls : List Nat) :
    (ls.flatMap fun l => (e.mxLane f r l).conds).foldl Cond.or .none = (ls.flatMap fun l => [(r l).cond]).foldl Cond.or .none := by
  rw [List.foldl_flatMap, List.foldl_flatMap]
  exact List.foldl_ext _ _ _ fun acc l _ => replicate_none_foldl _ _ acc

/-- Settles O17: each conversion's act is its lanes' results with their conditions, and a draw where it rounds stochastically. -/
theorem conversions : Obligations.Conversions := by
  intro s e f t src code mode bits f32 cvt pack packed picked scaled unpack top scale all quiet after
  refine ⟨fun hr hq => ?_, fun hr hq => ?_, fun hr hq => ?_, fun hr hq => ?_, fun r hres hr hq => ?_⟩
  · exact run_float_drawing (g := fun l => ⟨writeTo (if t.regs = 2 then .z64 else .z32) f.d l (widen t (cvt l).code), [(cvt l).cond]⟩)
      hr rfl rfl (by simp [code, src, t]) hq
  · exact run_float_drawing (g := fun l => ⟨writeTo t f.d l (t.join ((packed l).map FRes.code)), (packed l).map FRes.cond⟩)
      hr rfl rfl (by simp [code, t]) hq
  · have hscaled : scaled = !isNone f.c := by
      simp only [scaled]
      cases f.c <;> rfl
    refine run_float_drawing (g := fun l => ⟨writeTo .z32 f.d l (BitVec.ofNat 64 (unpack l).code), [(unpack l).cond]⟩) hr rfl
      (?_ : _ = floatAct e s (if scaled = true ∧ code = 6 then 1 else 0) _) (by simp) hq
    simp only [← hscaled]
    cases hfloat : t.isFloat
    · simp only [unpack, hfloat, Bool.not_false, if_true, Bool.false_eq_true, if_false]
      rfl
    · simp only [unpack, hfloat, Bool.not_true, Bool.false_eq_true, if_false, if_true]
      rfl
  · exact run_float (g := fun l => ⟨writeTo .z32 f.d l (BitVec.ofNat 64 (scale l).code), [(scale l).cond]⟩) hr rfl rfl hq
  · have helement : ∀ l ∈ lanesOf e.lanes, r l = e.scaledElement f l := hres
    have hlane (l) (hl : l ∈ lanesOf e.lanes) : e.mxLane f (e.scaledElement f) l = e.mxLane f r l := by
      simp only [Env.mxLane, helement l hl]
    have hresults : e.results (e.mxLane f (e.scaledElement f)) = e.results (e.mxLane f r) :=
      List.map_congr_left fun l hl => by rw [hlane l hl]
    have := run_float_drawing (P := e.rounding f.rnd = 6) (Q := (code == 6) = true) (g := e.mxLane f r) (i := .cvtmx f)
      (body := fun e s => floatAct e s (if e.rounding f.rnd = 6 then 1 else 0) (e.results (e.mxLane f (e.scaledElement f))))
      hr rfl (congrArg (floatAct e s (if e.rounding f.rnd = 6 then 1 else 0)) hresults) (by simp [code]) (by rw [mxLane_conds]; exact hq)
    rwa [mxLane_conds, ← execCvtmx_eq] at this

/-! ## Predicate logic (R166) -/

/-- Settles O20: each instruction's effect is the function of the operands' bits, lane by lane. -/
theorem predicateLogic : Obligations.PredicateLogic := by
  intro s e f p hp
  refine ⟨fun hr => ?_, fun hr => run_writes hr rfl ?_⟩
  · simp only [List.mem_cons, List.not_mem_nil, or_false] at hp
    obtain rfl | rfl | rfl | rfl | rfl := hp <;> exact run_writes hr rfl rfl
  · simp only [Env.lanewise, ne_eq, decide_not, bne, Bool.beq_eq_decide_eq]

end Sys2Proof.Machine
end

