-- ==== Sys2Proof/Proofs/Fetching.lean ====
section
/-!
PROOFS. The package at reset (O1, O2), the examples' words (O7), and what a step does before it runs its turn (O6).
-/

namespace Sys2Proof.Machine

/-! ## Reset (R377) -/

/-- DEVID's part code stands above its stepping, whatever the stepping. -/
theorem devid_part : (State.reset.reg 0x0000).toNat / 2 ^ 16 = 0x0096 * 2 ^ 32 := by
  have hreg : State.reset.reg 0x0000 = 0x0096#16 ++ 0#32 ++ Config.stepping := rfl
  rw [hreg, BitVec.toNat_append, ← Nat.shiftRight_eq_div_pow, Nat.shiftRight_or_distrib, Nat.shiftLeft_shiftRight,
    Nat.shiftRight_eq_div_pow Config.stepping.toNat, Nat.div_eq_of_lt Config.stepping.isLt, Nat.or_zero]
  rfl

/-- Settles O1: every register's reset value, read off the table. -/
theorem resetState : Obligations.ResetState := by
  refine ⟨?zero, rfl, rfl, rfl, ?islands, ?sessions, devid_part, fun d _ => rfl, rfl, rfl, rfl, rfl, rfl⟩
  case zero => decide
  case islands => decide
  case sessions => decide

/-- Settles O2: reset memory lists nothing, and an unlisted byte reads 0. -/
theorem resetMemory : Obligations.ResetMemory :=
  ⟨State.reset_memOk, rfl, rfl, fun _ => by unfold State.byte; split <;> rfl⟩

/-! ## The examples' words -/

/-- Settles O7, each word by its decoding. -/
theorem decodedWords : Obligations.DecodedWords := by
  refine ⟨?_, ?_, ?_, ?_, ?_, ?_, ?_, ?_, ?_, ?_, ?_, ?_⟩ <;> decide +kernel

/-! ## A step begins by noting who waits for a slot -/

/-- One wave, its only fragment past its header and ready, with no slot and no note yet that it waits for one, and listed turns. -/
def unnotedState (turns : List Turn) : State :=
  let la := Launch.holding 0 none
  { State.reset with
    waves := [(0, (la.wave 0 (la.workgroup 0 0 0 0 0) 0 0 0).setPcs (BitVec.allOnes 96) 1)], turns := turns }

/-- When the fragments of a state's waves began to wait for a slot. -/
def State.slotWaits (s : State) : List (Option Nat) := s.waves.flatMap fun x => x.2.frags.map Frag.slotSince

/-- Refutes O6: a step first notes at `tick` which fragments begin to wait for a slot, which the statement leaves out. -/
theorem not_stepRuns : ¬ Obligations.StepRuns := by
  rintro ⟨-, hevent, -⟩
  let turn : Turn := .event (.preemptStepPhase 0)
  have hstep : step (unnotedState [turn]) = .next { (unnotedState [turn]).noteSlots with turns := [] }.pass := rfl
  have hexec (s : State) (h : s.workgroups = []) : exec (.preemptStepPhase 0) s = .next s := by
    simp only [exec, execPreemptStepPhase, h, SMap.find?]
  have := hevent (unnotedState [turn]) _ [] rfl
  rw [hstep, hexec _ rfl] at this
  have hwaits : ([some 0] : List (Option Nat)) = [none] := by
    injection this with hstate
    exact congrArg State.slotWaits hstate
  cases hwaits

end Sys2Proof.Machine
end

