-- ==== Sys2Proof/Proofs/Scans.lean ====
section
/-!
PROOFS. SCAN, SCANX and REDUCE (O18): the steps that the model lists are the running values of one fold over the members.
-/

namespace Sys2Proof.Machine

/-! ## One fold -/

/-- What a member adds to the running value: its own value where there is none yet. -/
def Env.scanned (e : Env) (f : VFmt) (acc : Option Nat) (l : Nat) : FRes := match acc with
  | none => ⟨(e.read f.ty f.a l).toNat, .none⟩
  | some a => combine f.ty f.rnd.toNat f.sat (e.wave.flushes f.ty) a (e.read f.ty f.a l).toNat

/-- The running value and the conditions so far, past one more member. -/
def Env.scanStep (e : Env) (f : VFmt) (acc : Option Nat × Cond) (l : Nat) : Option Nat × Cond :=
  (some (e.scanned f acc.1 l).code, acc.2.or (e.scanned f acc.1 l).cond)

/-- The initial value that C names, or none. -/
def Env.scanStart (e : Env) (f : VFmt) : Option Nat := if f.c = .none then none else some (e.read f.ty f.c e.first).toNat

/-- The steps from a running value on. -/
def Env.scanFrom (e : Env) (f : VFmt) (acc : Option Nat) (ms : List Nat) : List (Nat × Option Nat × FRes) :=
  scanSteps f.ty f.rnd.toNat f.sat (e.wave.flushes f.ty) (fun l => (e.read f.ty f.a l).toNat) acc ms

variable {s : State} {e : Env} {f : VFmt}

theorem scanFrom_cons (acc : Option Nat) (m : Nat) (r : List Nat) :
    e.scanFrom f acc (m :: r) = (m, acc, e.scanned f acc m) :: e.scanFrom f (some (e.scanned f acc m).code) r := by
  cases acc <;> rfl

theorem scan_eq_scanFrom : e.scan f = e.scanFrom f (e.scanStart f) (lanesOf e.lanes) := rfl

/-- Of ascending members those below the first are none, and those below a later one are the first and those of the rest. -/
theorem filter_lt_cons {m l : Nat} {r : List Nat} (h : (m :: r).Pairwise (· < ·)) (hl : l ∈ r) :
    (m :: r).filter (fun j => j < l) = m :: r.filter fun j => j < l :=
  List.filter_cons_of_pos (by simpa using (List.pairwise_cons.mp h).1 l hl)

theorem filter_lt_head {m : Nat} {r : List Nat} (h : (m :: r).Pairwise (· < ·)) : (m :: r).filter (fun j => j < m) = [] := by
  rw [List.filter_eq_nil_iff]
  intro j hj
  obtain rfl | hj := List.mem_cons.mp hj
  · simp
  · have := (List.pairwise_cons.mp h).1 j hj
    simp only [decide_eq_true_eq]
    omega

/-- The members up to one and with it are those below it and itself. -/
theorem filter_le_eq_append {ms : List Nat} {l : Nat} (h : ms.Pairwise (· < ·)) (hl : l ∈ ms) :
    ms.filter (fun j => j < l || j == l) = ms.filter (fun j => j < l) ++ [l] := by
  induction ms with
  | nil => cases hl
  | cons m r ih =>
    obtain ⟨hm, hr⟩ := List.pairwise_cons.mp h
    obtain rfl | hl := List.mem_cons.mp hl
    · rw [filter_lt_head h, List.filter_cons_of_pos (by simp), List.nil_append, List.filter_eq_nil_iff.mpr]
      intro j hj
      have := hm j hj
      simp only [Bool.or_eq_true, decide_eq_true_eq, beq_iff_eq]
      omega
    · rw [filter_lt_cons h hl, List.filter_cons_of_pos (by simp [hm l hl]), ih hr hl, List.cons_append]

/-- Each listed step is a member with the running value of the members below it. -/
theorem scanFrom_eq_map {ms : List Nat} (h : ms.Pairwise (· < ·)) (acc : Option Nat) (c : Cond) :
    e.scanFrom f acc ms = ms.map fun l =>
      let before := ((ms.filter fun j => j < l).foldl (e.scanStep f) (acc, c)).1
      (l, before, e.scanned f before l) := by
  induction ms generalizing acc c with
  | nil => rfl
  | cons m r ih =>
    rw [scanFrom_cons, List.map_cons, filter_lt_head h, ih (List.pairwise_cons.mp h).2 _ (e.scanStep f (acc, c) m).2]
    refine congrArg _ (List.map_congr_left fun l hl => ?_)
    rw [filter_lt_cons h hl]
    rfl

theorem scanFrom_conds (ms : List Nat) (acc : Option Nat) (c : Cond) :
    (e.scanFrom f acc ms).foldl (fun c x => c.or x.2.2.cond) c = (ms.foldl (e.scanStep f) (acc, c)).2 := by
  induction ms generalizing acc c with
  | nil => rfl
  | cons m r ih =>
    rw [scanFrom_cons, List.foldl_cons, ih]
    rfl

theorem scanFrom_getLast? (ms : List Nat) (acc : Option Nat) (c : Cond) :
    ((e.scanFrom f acc ms).getLast?.map fun x => x.2.2.code).or acc = (ms.foldl (e.scanStep f) (acc, c)).1 := by
  induction ms generalizing acc c with
  | nil => rfl
  | cons m r ih =>
    rw [scanFrom_cons, List.getLast?_cons, List.foldl_cons]
    refine Eq.trans ?_ (ih _ (e.scanStep f (acc, c) m).2)
    cases (e.scanFrom f (some (e.scanned f acc m).code) r).getLast? <;> rfl

/-! ## The three instructions over the fold -/

/-- The fold over the members below one, and over those up to it. -/
def Env.scanTo (e : Env) (f : VFmt) (l : Nat) (self : Bool) : Option Nat :=
  (((lanesOf e.lanes).filter fun j => j < l || self && j == l).foldl (e.scanStep f) (e.scanStart f, .none)).1

/-- The fold over all members. -/
def Env.scanAll (e : Env) (f : VFmt) : Option Nat × Cond := (lanesOf e.lanes).foldl (e.scanStep f) (e.scanStart f, .none)

theorem scan_eq_map : e.scan f = (lanesOf e.lanes).map fun l => (l, e.scanTo f l false, e.scanned f (e.scanTo f l false) l) := by
  simp only [scan_eq_scanFrom, Env.scanTo, Bool.false_and, Bool.or_false]
  exact scanFrom_eq_map (pairwise_lanesOf _) _ .none

theorem scanTo_self {l : Nat} (hl : l ∈ lanesOf e.lanes) :
    e.scanTo f l true = some (e.scanned f (e.scanTo f l false) l).code := by
  simp only [Env.scanTo, Bool.false_and, Bool.or_false, Bool.true_and, filter_le_eq_append (pairwise_lanesOf _) hl,
    List.foldl_append, List.foldl_cons, List.foldl_nil]
  rfl

/-- The conditions of SCAN, SCANX and REDUCE, whatever each step writes. -/
theorem scan_conds (g : Nat × Option Nat × FRes → LaneRes) (hg : ∀ x, (g x).conds = [x.2.2.cond]) :
    allConds ((e.scan f).map fun x => (x.1, g x)) = (e.scanAll f).2 := by
  rw [allConds_eq_foldl, List.flatMap_map, List.foldl_flatMap]
  simp only [hg, List.foldl_cons, List.foldl_nil]
  exact scanFrom_conds _ _ _

theorem run_scan {i : Instr} {body : Env → State → Act} {g : Nat × Option Nat × FRes → LaneRes} (h : s.Runs e i)
    (hg : Instr.gangPoint i = false) (hb : body e s = floatAct e s 0 ((e.scan f).map fun x => (x.1, g x)))
    (hconds : ∀ x, (g x).conds = [x.2.2.cond]) (hq : e.quiet (e.scanAll f).2) :
    issue i body s = .next (s.wrote e i ((lanesOf e.lanes).flatMap fun l =>
      (g (l, e.scanTo f l false, e.scanned f (e.scanTo f l false) l)).ws) (e.scanAll f).2) := by
  rw [run_floatAct h hg hb (by rwa [scan_conds g hconds]), scan_conds g hconds, scan_eq_map, List.map_map, List.flatMap_map]
  rfl

theorem scan_next (hr : s.Runs e (.scan f)) (hq : e.quiet (e.scanAll f).2) (absent : Nat) : exec (.scan f) s =
    .next (s.wrote e (.scan f) ((lanesOf e.lanes).flatMap fun l =>
      writeTo f.ty f.d l (BitVec.ofNat 64 ((e.scanTo f l true).getD absent))) (e.scanAll f).2) := by
  rw [List.flatMap_congr (g := fun l => writeTo f.ty f.d l (BitVec.ofNat 64 (e.scanned f (e.scanTo f l false) l).code))
    fun l hl => by rw [scanTo_self hl, Option.getD_some]]
  exact run_scan (g := fun x => ⟨writeTo f.ty f.d x.1 (BitVec.ofNat 64 x.2.2.code), [x.2.2.cond]⟩) hr rfl rfl (fun _ => rfl) hq

theorem scanx_next (hr : s.Runs e (.scanx f)) (hq : e.quiet (e.scanAll f).2) : exec (.scanx f) s =
    .next (s.wrote e (.scanx f) ((lanesOf e.lanes).flatMap fun l =>
      writeTo f.ty f.d l (BitVec.ofNat 64 ((e.scanTo f l false).getD (identity f.ty f.rnd.toNat)))) (e.scanAll f).2) :=
  run_scan (g := fun x => ⟨writeTo f.ty f.d x.1 (BitVec.ofNat 64 (x.2.1.getD (identity f.ty f.rnd.toNat))), [x.2.2.cond]⟩)
    hr rfl rfl (fun _ => rfl) hq

theorem State.Runs.lanesOf_ne_nil {i : Instr} (hr : s.Runs e i) : lanesOf e.lanes ≠ [] := by
  have ha := hr.2.1
  simp only [State.admits, Bool.and_eq_true, bne_iff_ne] at ha
  obtain ⟨⟨-, hne⟩, -⟩ := ha
  intro hnil
  refine hne (BitVec.eq_of_getLsbD_eq fun l hl => ?_)
  rw [List.eq_nil_iff_forall_not_mem] at hnil
  simpa [mem_lanesOf, hl] using hnil l

theorem reduce_next (hr : s.Runs e (.reduce f)) (hq : e.quiet (e.scanAll f).2) (absent : Nat) : exec (.reduce f) s =
    .next (s.wrote e (.reduce f) (if isS f.d then writeTo f.ty f.d 0 (BitVec.ofNat 64 ((e.scanAll f).1.getD absent))
      else (lanesOf e.lanes).flatMap fun l => writeTo f.ty f.d l (BitVec.ofNat 64 ((e.scanAll f).1.getD absent))) (e.scanAll f).2) := by
  obtain ⟨y, hy, hall⟩ : ∃ y, (e.scan f).getLast? = some y ∧ (e.scanAll f).1 = some y.2.2.code := by
    have h := scanFrom_getLast? (e := e) (f := f) (lanesOf e.lanes) (e.scanStart f) .none
    cases hy : (e.scan f).getLast? with
    | none =>
      rw [List.getLast?_eq_none_iff, scan_eq_map, List.map_eq_nil_iff] at hy
      exact absurd hy hr.lanesOf_ne_nil
    | some y =>
      rw [← scan_eq_scanFrom, hy] at h
      exact ⟨y, rfl, h.symm⟩
  let ws := if isS f.d then writeTo f.ty f.d 0 (BitVec.ofNat 64 y.2.2.code)
    else (lanesOf e.lanes).flatMap fun l => writeTo f.ty f.d l (BitVec.ofNat 64 y.2.2.code)
  let rs := (e.scan f).map (fun x => (x.1, (⟨[], [x.2.2.cond]⟩ : LaneRes))) ++ [(0, ⟨ws, []⟩)]
  have hconds : allConds rs = (e.scanAll f).2 := by
    rw [allConds_eq_foldl, List.flatMap_append, List.flatMap_singleton, List.append_nil, ← allConds_eq_foldl]
    exact scan_conds (fun x => ⟨[], [x.2.2.cond]⟩) fun _ => rfl
  have hws : (rs.flatMap fun r => r.2.ws) = ws := by
    rw [List.flatMap_append, List.flatMap_singleton, List.flatMap_map, List.flatMap_eq_nil_iff.mpr fun _ _ => rfl, List.nil_append]
  have hrun : exec (.reduce f) s = _ := run_floatAct (rs := rs) hr rfl (by simp only [hy]; rfl) (by rwa [hconds])
  rw [hrun, hconds, hws, hall, Option.getD_some]

/-! ## Integer and floating-point members -/

/-- A fold over the running value alone, where no step raises a condition. -/
theorem foldl_scanStep_of_quiet {step : Option Nat → Nat → Option Nat}
    (hstep : ∀ acc l, e.scanned f acc l = ⟨(step acc l).getD 0, .none⟩ ∧ (step acc l).isSome) (start : Option Nat) (ms : List Nat) :
    ms.foldl (e.scanStep f) (start, .none) = (ms.foldl step start, .none) := by
  refine List.foldl_hom (fun o => (o, Cond.none)) fun acc l => ?_
  obtain ⟨heq, hsome⟩ := hstep acc l
  obtain ⟨x, hx⟩ := Option.isSome_iff_exists.mp hsome
  rw [Env.scanStep, heq, hx]
  rfl

theorem combine_int {t : Ty} (ht : t.isFloat = false) (sat fz : Bool) (a b : Nat) {p : BitVec 3 × IntOp}
    (hp : p ∈ [((0 : BitVec 3), opAdd), (1, opMin), (2, opMax), (3, opAnd), (4, opOr), (5, opXor)]) :
    combine t p.1.toNat sat fz a b = ⟨t.finishInt sat (p.2 t a b 0), .none⟩ := by
  simp only [List.mem_cons, List.not_mem_nil, or_false] at hp
  obtain rfl | rfl | rfl | rfl | rfl | rfl := hp <;> simp only [combine, ht] <;> rfl

theorem integerScans : Rules.IntegerScans := by
  intro s e f hint p hp hrnd ms x step start upTo put
  have hstep (acc l) : e.scanned f acc l = ⟨(step acc l).getD 0, .none⟩ ∧ (step acc l).isSome := by
    cases acc with
    | none => exact ⟨rfl, rfl⟩
    | some a => exact ⟨by rw [Env.scanned, hrnd, combine_int hint _ _ _ _ hp]; rfl, rfl⟩
  have hto (l self) : e.scanTo f l self = upTo l self := by
    rw [Env.scanTo, foldl_scanStep_of_quiet hstep]
    rfl
  have hall : e.scanAll f = (ms.foldl step start, .none) := foldl_scanStep_of_quiet hstep _ _
  have hq : e.quiet (e.scanAll f).2 := by
    rw [hall]
    rfl
  refine ⟨fun hr => ?_, fun hr => ?_, fun hr => ?_⟩
  · have := scan_next hr hq (identity f.ty f.rnd.toNat)
    simpa only [hto, hall] using this
  · have := scanx_next hr hq
    simpa only [hto, hall] using this
  · have := reduce_next hr hq (identity f.ty f.rnd.toNat)
    simpa only [hall] using this

theorem floatScans : Rules.FloatScans := by
  intro s e f hfloat hop ms t fz x comb step start upTo conds absent put hq
  have hcomb (a b : Nat) : combine t f.rnd.toNat f.sat fz a b = comb a b := by
    simp only [combine, t, hfloat, if_true, comb]
    generalize f.rnd.toNat = op at hop
    obtain _ | _ | _ | op := op
    · rfl
    · rfl
    · rfl
    · omega
  have hstep : e.scanStep f = step := by
    funext ⟨acc, c⟩ l
    cases acc with
    | none => simp only [Env.scanStep, Env.scanned, Cond.or_none]; rfl
    | some a => simp only [Env.scanStep, Env.scanned]; rw [hcomb]
  have habsent : identity f.ty f.rnd.toNat = absent := by
    simp only [identity, absent, t, hfloat, if_true]
    generalize f.rnd.toNat = op at hop
    obtain _ | _ | _ | op := op
    · rfl
    · rfl
    · rfl
    · omega
  have hto (l self) : e.scanTo f l self = upTo l self := by
    rw [Env.scanTo, hstep]
    rfl
  have hall : e.scanAll f = ms.foldl step start := by
    rw [Env.scanAll, hstep]
    rfl
  have hq : e.quiet (e.scanAll f).2 := by rwa [hall]
  refine ⟨fun hr => ?_, fun hr => ?_, fun hr => ?_⟩
  · have := scan_next hr hq absent
    simpa only [hto, hall] using this
  · have := scanx_next hr hq
    simpa only [hto, hall, habsent] using this
  · have := reduce_next hr hq absent
    simpa only [hall] using this

/-- Settles O18: the listed steps are one fold over the members, of codes alone or of codes with their conditions. -/
theorem scans : Obligations.Scans := ⟨integerScans, floatScans⟩

end Sys2Proof.Machine
end

