-- ==== Sys2Proof/Proofs/Elements.lean ====
section
/-!
PROOFS. The arithmetic of one element (O14): an element of a result is its exact value wrapped, and its bits are those of
bit vectors of the element's width.
-/

namespace Sys2Proof.Machine

/-! ## The elements of a register -/

/-- A register's number from its elements, before it is a word. -/
def joinNat (t : Ty) (es : List Nat) : Nat := es.foldr (fun x acc => x % 2 ^ t.width + acc * 2 ^ t.width) 0

theorem joinNat_lt (t : Ty) (es : List Nat) : joinNat t es < 2 ^ (t.width * es.length) := by
  induction es with
  | nil => simp [joinNat]
  | cons x r ih =>
    have hx : x % 2 ^ t.width < 2 ^ t.width := Nat.mod_lt _ (Nat.two_pow_pos _)
    calc x % 2 ^ t.width + joinNat t r * 2 ^ t.width
        < (joinNat t r + 1) * 2 ^ t.width := by rw [Nat.add_mul, Nat.one_mul]; omega
      _ ≤ 2 ^ (t.width * r.length) * 2 ^ t.width := Nat.mul_le_mul_right _ ih
      _ = 2 ^ (t.width * (r.length + 1)) := by rw [← Nat.pow_add, Nat.mul_add, Nat.mul_one]

theorem joinNat_div (t : Ty) (es : List Nat) (i : Nat) (hi : i < es.length) :
    joinNat t es / 2 ^ (t.width * i) % 2 ^ t.width = es[i] % 2 ^ t.width := by
  have hpos : 0 < 2 ^ t.width := Nat.two_pow_pos _
  induction es generalizing i with
  | nil => cases hi
  | cons x r ih =>
    have hcons : joinNat t (x :: r) = x % 2 ^ t.width + joinNat t r * 2 ^ t.width := rfl
    cases i with
    | zero => rw [hcons, Nat.mul_zero, Nat.pow_zero, Nat.div_one, Nat.add_mul_mod_self_right, Nat.mod_mod]; rfl
    | succ i =>
      rw [Nat.mul_add, Nat.mul_one, Nat.add_comm, Nat.pow_add, ← Nat.div_div_eq_div_mul, hcons, Nat.add_mul_div_right _ _ hpos,
        Nat.div_eq_of_lt (Nat.mod_lt _ hpos), Nat.zero_add]
      exact ih i (by simpa using hi)

theorem width_mul_elems (t : Ty) : t.width * t.elems ≤ 64 := by
  cases t <;> decide

theorem finishInt_lt (t : Ty) (sat : Bool) (x : Int) : t.finishInt sat x < 2 ^ t.width := by
  have hpos : (0 : Int) < 2 ^ t.width := Int.pow_pos (by decide)
  rw [Ty.finishInt, Int.toNat_lt (Int.emod_nonneg _ hpos.ne'), Nat.cast_pow]
  exact Int.emod_lt_of_pos _ hpos

/-- Element i of an operation's result is its exact result on elements i, finished (R116). -/
theorem elem_run (o : IntOp) {t : Ty} (sat : Bool) (x y z : DWord) {i : Nat} (hi : i < t.elems) :
    t.elem (o.run t sat x y z) i = t.finishInt sat (o t (t.elem x i) (t.elem y i) (t.elem z i)) := by
  let es := (List.range t.elems).map fun e => t.finishInt sat (o t (t.elem x e) (t.elem y e) (t.elem z e))
  have hlen : es.length = t.elems := by simp [es]
  have hlt : joinNat t es < 2 ^ 64 :=
    (joinNat_lt t es).trans_le (Nat.pow_le_pow_right (by decide) (hlen ▸ width_mul_elems t))
  calc t.elem (o.run t sat x y z) i
      = joinNat t es % 2 ^ 64 / 2 ^ (t.width * i) % 2 ^ t.width := by
        rw [← BitVec.toNat_ofNat]
        rfl
    _ = es[i] % 2 ^ t.width := by rw [Nat.mod_eq_of_lt hlt, joinNat_div t es i (hlen ▸ hi)]
    _ = _ := by
        simp only [es, List.getElem_map, List.getElem_range]
        exact Nat.mod_eq_of_lt (finishInt_lt ..)

theorem elem_lt (t : Ty) (x : DWord) (i : Nat) : t.elem x i < 2 ^ t.width := Nat.mod_lt _ (Nat.two_pow_pos _)

/-! ## Results that do not saturate, as bit vectors -/

/-- Without SAT a result is the exact one as a bit vector of the element's width. -/
theorem finishInt_eq_ofInt (t : Ty) (x : Int) : t.finishInt false x = (BitVec.ofInt t.width x).toNat := by
  simp [Ty.finishInt, BitVec.toNat_ofInt]

theorem finishInt_natCast (t : Ty) (n : Nat) : t.finishInt false n = n % 2 ^ t.width := by
  rw [finishInt_eq_ofInt, BitVec.ofInt_natCast, BitVec.toNat_ofNat]

theorem finishInt_natCast_of_lt (t : Ty) {n : Nat} (h : n < 2 ^ t.width) : t.finishInt false n = n := by
  rw [finishInt_natCast, Nat.mod_eq_of_lt h]

/-- Bit n of a wrapped natural number, below the width. -/
theorem finishInt_natCast_testBit (t : Ty) (a : Nat) {n : Nat} (hn : n < t.width) : (t.finishInt false a).testBit n = a.testBit n := by
  rw [finishInt_natCast, Nat.testBit_mod_two_pow, decide_eq_true hn, Bool.true_and]

/-- An element as a signed number is that of its bit vector. -/
theorem signedValue_eq_toInt (t : Ty) (ht : 0 < t.width) {a : Nat} (ha : a < 2 ^ t.width) :
    t.signedValue a = (BitVec.ofNat t.width a).toInt := by
  have hpow : 2 ^ t.width = 2 * 2 ^ (t.width - 1) := by rw [← Nat.pow_succ', Nat.succ_eq_add_one, Nat.sub_add_cancel ht]
  rw [Ty.signedValue, BitVec.toInt_eq_toNat_cond, BitVec.toNat_ofNat, Nat.mod_eq_of_lt ha]
  split <;> split
  · omega
  · simp
  · rfl
  · omega

/-- The bits of an arithmetic right shift. -/
theorem sar_testBit (t : Ty) (ht : 0 < t.width) {a : Nat} (ha : a < 2 ^ t.width) (b : Nat) {n : Nat} (hn : n < t.width) :
    (t.finishInt false (t.signedValue a / 2 ^ b)).testBit n = a.testBit (min (n + b) (t.width - 1)) := by
  have hbits (j : Nat) (hj : j < t.width) : (BitVec.ofNat t.width a).getLsbD j = a.testBit j := by
    rw [BitVec.getLsbD_ofNat, decide_eq_true hj, Bool.true_and]
  rw [finishInt_eq_ofInt, signedValue_eq_toInt t ht ha]
  have hshift : BitVec.ofInt t.width ((BitVec.ofNat t.width a).toInt / 2 ^ b) = (BitVec.ofNat t.width a).sshiftRight b := by
    rw [BitVec.sshiftRight, Int.shiftRight_eq_div_pow, Nat.cast_pow]; rfl
  rw [hshift, BitVec.testBit_toNat, BitVec.getLsbD_sshiftRight, BitVec.msb_eq_getLsbD_last]
  by_cases hb : b + n < t.width
  · rw [if_pos hb, hbits _ hb, show min (n + b) (t.width - 1) = b + n by omega]
    simp [hn]
  · rw [if_neg hb, hbits _ (by omega), show min (n + b) (t.width - 1) = t.width - 1 by omega]
    simp [hn]

theorem revBits_lt (a w : Nat) : revBits a w < 2 ^ w := by
  induction w generalizing a with
  | zero => simp [revBits]
  | succ w ih =>
    have := ih (a / 2)
    have hbit : a % 2 * 2 ^ w ≤ 2 ^ w := by
      rw [← Nat.one_mul (2 ^ w), ← Nat.mul_assoc]
      exact Nat.mul_le_mul_right _ (by omega)
    rw [revBits, Nat.pow_succ]
    omega

theorem revBits_testBit (a w n : Nat) : (revBits a w).testBit n = (decide (n < w) && a.testBit (w - 1 - n)) := by
  induction w generalizing a with
  | zero => simp [revBits]
  | succ w ih =>
    rw [revBits, Nat.mul_comm, Nat.testBit_two_pow_mul_add _ (revBits_lt _ w), ih, Nat.testBit_div_two]
    rcases Nat.lt_trichotomy n w with hn | rfl | hn
    · rw [if_pos hn, show w - 1 - n + 1 = w + 1 - 1 - n by omega]
      simp [hn, Nat.lt_succ_of_lt hn]
    · simp [Nat.testBit_zero]
    · obtain ⟨k, rfl⟩ : ∃ k, n = w + (k + 1) := ⟨n - w - 1, by omega⟩
      rw [if_neg (by omega), Nat.add_sub_cancel_left, Nat.testBit_add_one]
      simp

theorem elementArithmetic : Rules.ElementArithmetic := by
  intro t sat x y z i ht hi a b c w clamp code
  have hx := elem_lt t x i
  refine ⟨elem_run opAdd sat x y z hi, elem_run opSub sat x y z hi, elem_run opMul sat x y z hi, elem_run opMad sat x y z hi,
    elem_run opMin sat x y z hi, elem_run opMax sat x y z hi, ?_, elem_run opMulHi false x y z hi, ?_, ?_,
    fun n hn => ?_, fun n hn => ?_, fun n hn => ?_, fun n hn => ?_, fun n hn => ?_, fun n hn => ?_, fun n hn => ?_,
    fun n hn => ?_, fun n hn => ?_⟩
  all_goals rw [elem_run _ _ _ _ _ hi]
  · rw [opAbs, Int.natCast_natAbs]; rfl
  · exact finishInt_natCast_of_lt t hx
  · have hle : t.elem x i ≤ 2 ^ t.width - 1 := by omega
    have hcast : opNot t (t.elem x i) (t.elem y i) (t.elem z i) = ((2 ^ t.width - 1 - t.elem x i : Nat) : Int) := by
      rw [Nat.cast_sub hle, Nat.cast_sub Nat.one_le_two_pow]
      simp [opNot]
    rw [hcast]
    exact finishInt_natCast_of_lt t (by omega)
  · rw [opAnd, finishInt_natCast_testBit t _ hn]; exact Nat.testBit_and ..
  · rw [opOr, finishInt_natCast_testBit t _ hn]; exact Nat.testBit_or ..
  · rw [opXor, finishInt_natCast_testBit t _ hn]; exact Nat.testBit_xor ..
  · rw [opBrev, finishInt_natCast_testBit t _ hn, revBits_testBit, decide_eq_true hn, Bool.true_and]
  · rw [opShl]
    split
    · next hle => simp [show ¬ t.elem y i ≤ n by omega, Ty.finishInt]
    · rw [finishInt_natCast_testBit t _ hn, Nat.testBit_mul_two_pow]
  · rw [opShr]
    split
    · next hle =>
      rw [Nat.testBit_lt_two_pow (hx.trans_le (Nat.pow_le_pow_right (by decide) (by omega)))]
      simp [Ty.finishInt]
    · rw [finishInt_natCast_testBit t _ hn, Nat.testBit_div_two_pow, Nat.add_comm]
  · rw [opSar, sar_testBit t ht hx _ hn]
    congr 1
    omega
  · rw [opFabs, finishInt_natCast_testBit t _ hn, Nat.testBit_mod_two_pow, Bool.and_comm]
    congr 2
    exact propext (by omega)
  · rw [opFneg, finishInt_natCast_testBit t _ hn]
    refine (Nat.testBit_xor ..).trans ?_
    rw [Nat.testBit_two_pow, decide_eq_decide.mpr (eq_comm (a := t.width - 1))]

/-! ## Bit fields -/

/-- Bit j of an element extended without end by the type's signedness. -/
def extendedBit (t : Ty) (a j : Nat) : Bool := if j < t.width then a.testBit j else t.signed && a.testBit (t.width - 1)

/-- Bit j of an element's value from bit `off` on. -/
theorem value_div_getLsbD (t : Ty) (ht : 0 < t.width) {a : Nat} (ha : a < 2 ^ t.width) (off : Nat) {m j : Nat} (hm : m ≤ t.width)
    (hj : j < m) : (BitVec.ofInt m (t.value a / 2 ^ off)).getLsbD j = extendedBit t a (off + j) := by
  cases hs : t.signed with
  | false =>
    have hv : t.value a / 2 ^ off = ((a / 2 ^ off : Nat) : Int) := by simp [Ty.value, hs]
    rw [hv, BitVec.ofInt_natCast, BitVec.getLsbD_ofNat, Nat.testBit_div_two_pow, extendedBit, hs, decide_eq_true hj, Bool.true_and,
      Nat.add_comm j]
    split
    · rfl
    · exact Nat.testBit_lt_two_pow (ha.trans_le (Nat.pow_le_pow_right (by decide) (by omega)))
  | true =>
    have hv : t.value a = t.signedValue a := by simp [Ty.value, Ty.signedValue, hs]
    have hext : BitVec.ofInt m (t.value a / 2 ^ off) = ((BitVec.ofNat t.width a).sshiftRight off).signExtend m := by
      rw [hv, signedValue_eq_toInt t ht ha, BitVec.signExtend, BitVec.toInt_sshiftRight, Int.shiftRight_eq_div_pow, Nat.cast_pow]
      rfl
    have hbits (i : Nat) (hi : i < t.width) : (BitVec.ofNat t.width a).getLsbD i = a.testBit i := by
      rw [BitVec.getLsbD_ofNat, decide_eq_true hi, Bool.true_and]
    rw [hext, BitVec.getLsbD_signExtend, if_pos (by omega), BitVec.getLsbD_sshiftRight, BitVec.msb_eq_getLsbD_last, extendedBit, hs,
      hbits _ (Nat.sub_lt ht Nat.one_pos)]
    split
    · next hlt => rw [hbits _ hlt]; simp [hj, show ¬ t.width ≤ j by omega]
    · simp [hj, show ¬ t.width ≤ j by omega]

/-- BFE's result is the field, extended by the type's signedness. -/
theorem opBfe_eq (t : Ty) (a b c : Nat) : opBfe t a b c =
    let field := BitVec.ofInt (min (c % 256) t.width) (t.value a / 2 ^ (b % 256))
    if t.signed then field.toInt else field.toNat := by
  generalize hwd : min (c % 256) t.width = wd
  have hfield : ((BitVec.ofInt wd (t.value a / 2 ^ (b % 256))).toNat : Int) = t.value a / 2 ^ (b % 256) % 2 ^ wd := by
    rw [BitVec.toNat_ofInt, Int.toNat_of_nonneg (Int.emod_nonneg _ (by positivity)), Nat.cast_pow]
    rfl
  simp only [opBfe, hwd, ← hfield]
  generalize BitVec.ofInt wd (t.value a / 2 ^ (b % 256)) = x
  cases wd with
  | zero => simp [BitVec.eq_nil x]
  | succ k =>
    have hpow : 2 ^ (k + 1) = 2 * 2 ^ k := Nat.pow_succ'
    have hle : (2 ^ k : Int) ≤ (x.toNat : Int) ↔ ¬ 2 * x.toNat < 2 ^ (k + 1) := by
      rw [← Nat.cast_ofNat (R := Int), ← Nat.cast_pow, Nat.cast_le]
      omega
    rw [if_neg (Nat.succ_ne_zero k), BitVec.toInt_eq_toNat_cond]
    cases t.signed
    · simp
    · simp only [Bool.true_and, Nat.add_sub_cancel, decide_eq_true_eq, hle, ite_not, if_true, Nat.cast_pow, Nat.cast_ofNat]

/-- The bits of a field written to an element. -/
theorem finishInt_field_testBit (t : Ty) {m n : Nat} (x : BitVec m) (hn : n < t.width) :
    (t.finishInt false (if t.signed then x.toInt else x.toNat)).testBit n = if n < m then x.getLsbD n else t.signed && x.msb := by
  cases t.signed
  · rw [if_neg Bool.false_ne_true, finishInt_natCast_testBit t _ hn, BitVec.testBit_toNat]
    split
    · rfl
    · next hge => exact BitVec.getLsbD_of_ge _ _ (by omega)
  · rw [if_pos rfl, finishInt_eq_ofInt, BitVec.testBit_toNat]
    exact (BitVec.getLsbD_signExtend ..).trans (by simp [hn])

theorem bfi_mask_testBit (off wd w n : Nat) (hn : n < w) :
    ((2 ^ wd - 1) * 2 ^ off % 2 ^ w).testBit n = decide (off ≤ n ∧ n < off + wd) := by
  rw [Nat.testBit_mod_two_pow, Nat.testBit_mul_two_pow, Nat.testBit_two_pow_sub_one, decide_eq_true hn, Bool.true_and, ← Bool.decide_and]
  exact decide_eq_decide.mpr (by omega)

theorem bitFields : Rules.BitFields := by
  intro t x y z helems hw n hn a w off wd bit off' wd'
  have h0 : 0 < t.elems := by omega
  have hx : a < 2 ^ t.width := elem_lt t x 0
  constructor
  · have hfield (j) (hj : j < wd) := value_div_getLsbD t (by omega) hx off (Nat.min_le_right (t.elem z 0 % 256) w) hj
    rw [elem_run _ _ _ _ _ h0, opBfe_eq, finishInt_field_testBit t _ hn]
    split
    · next hlt => exact hfield n hlt
    · rw [BitVec.msb_eq_getLsbD_last, Bool.and_assoc]
      congr 1
      rcases Nat.eq_zero_or_pos wd with h | h
      · rw [BitVec.getLsbD_of_ge _ _ (by omega), h]
        rfl
      · rw [decide_eq_true h, Bool.true_and, show off + wd - 1 = off + (wd - 1) by omega]
        exact hfield (wd - 1) (by omega)
  · rw [elem_run _ _ _ _ _ h0, opBfi, finishInt_natCast_testBit t _ hn]
    let m := (2 ^ wd' - 1) * 2 ^ off' % 2 ^ w
    have hm : m.testBit n = decide (off' ≤ n ∧ n < off' + wd') := bfi_mask_testBit off' wd' w n hn
    have hcompl : (2 ^ w - 1 - m).testBit n = !m.testBit n := by
      rw [Nat.sub_sub, Nat.add_comm, Nat.testBit_two_pow_sub_succ (Nat.mod_lt _ (Nat.two_pow_pos _)), decide_eq_true hn, Bool.true_and]
    have hb : (t.elem y 0 * 2 ^ off' % 2 ^ w).testBit n = (decide (off' ≤ n) && (t.elem y 0).testBit (n - off')) := by
      rw [Nat.testBit_mod_two_pow, Nat.testBit_mul_two_pow, decide_eq_true hn, Bool.true_and]
    refine (Nat.testBit_or ..).trans ?_
    rw [show Nat.land = HAnd.hAnd from rfl, Nat.testBit_and, Nat.testBit_and, hcompl, hm, hb]
    split
    · next hin => simp [hin]
    · next hout => simp [hout, a]

/-- Settles O14: an element's exact result wrapped, and its bits those of bit vectors of the element's width. -/
theorem elements : Obligations.Elements := ⟨elementArithmetic, bitFields⟩

end Sys2Proof.Machine
end

