-- ==== Sys2Proof/Proofs/RegisterFrame.lean ====
section
/-!
PROOFS. What an instruction on registers leaves as it was (O8): every write lies within D's registers in the lanes that
execute, or in the carry register that C names; such writes keep the rest of the wave, and completing the instruction keeps
the rest of the state.
-/

namespace Sys2Proof.Machine

/-! ## Writes within a destination -/

/-- The write names one of n registers of D in a lane of a set, or the carry register C. -/
def RegWrite.Within (lanes : LaneMask) (d c : Operand) (n : Nat) : RegWrite → Prop
  | .v r l _ => l ∈ lanesOf lanes ∧ ∃ b, d = .v b ∧ b.toNat ≤ r ∧ r < b.toNat + n
  | .s r _ => (∃ b, d = .s b ∧ b.toNat ≤ r ∧ r < b.toNat + n) ∨ ∃ b, c = .s b ∧ r = b.toNat
  | .k r l _ => l ∈ lanesOf lanes ∧ ∃ b, (d = .k b ∨ c = .k b) ∧ r = b.toNat
  | .x r l _ => l ∈ lanesOf lanes ∧ ∃ b, d = .x b ∧ r = b.toNat

/-- All writes of a list do. -/
def allWithin (lanes : LaneMask) (d c : Operand) (n : Nat) (ws : List RegWrite) : Prop := ∀ x ∈ ws, x.Within lanes d c n

section
variable {lanes : LaneMask} {d c : Operand} {n l : Nat}

theorem allWithin_nil : allWithin lanes d c n [] := fun _ h => absurd h List.not_mem_nil

theorem allWithin_append {ws us : List RegWrite} (hw : allWithin lanes d c n ws) (hu : allWithin lanes d c n us) :
    allWithin lanes d c n (ws ++ us) := fun x hx => (List.mem_append.mp hx).elim (hw x) (hu x)

theorem allWithin_flatMap {α : Type} {ls : List α} {g : α → List RegWrite} (h : ∀ a ∈ ls, allWithin lanes d c n (g a)) :
    allWithin lanes d c n (ls.flatMap g) := fun x hx => by
  obtain ⟨a, ha, hx⟩ := List.mem_flatMap.mp hx
  exact h a ha x hx

theorem allWithin_writeTo {t : Ty} (ht : t.regs ≤ n) (hl : l ∈ lanesOf lanes) (v : DWord) : allWithin lanes d c n (writeTo t d l v) := by
  have hone : 1 ≤ t.regs := by
    unfold Ty.regs
    split <;> omega
  intro x hx
  unfold writeTo at hx
  split at hx
  · next b =>
    split at hx
    · simp only [List.mem_cons, List.not_mem_nil, or_false] at hx
      obtain rfl | rfl := hx <;> exact ⟨hl, b, rfl, by omega, by omega⟩
    · rw [List.mem_singleton.mp hx]
      exact ⟨hl, b, rfl, by omega, by omega⟩
  · next b =>
    split at hx
    · simp only [List.mem_cons, List.not_mem_nil, or_false] at hx
      obtain rfl | rfl := hx <;> exact .inl ⟨b, rfl, by omega, by omega⟩
    · rw [List.mem_singleton.mp hx]
      exact .inl ⟨b, rfl, by omega, by omega⟩
  · next b =>
    rw [List.mem_singleton.mp hx]
    exact ⟨hl, b, rfl, rfl⟩
  · cases hx

/-- A write to a scalar register, or to none, whatever its lane. -/
theorem allWithin_writeTo_scalar {t : Ty} (ht : t.regs ≤ n) (hd : (isS d || isNone d) = true) (v : DWord) :
    allWithin lanes d c n (writeTo t d l v) := by
  cases d with
  | s b =>
    have hone : 1 ≤ t.regs := by
      unfold Ty.regs
      split <;> omega
    intro x hx
    simp only [writeTo] at hx
    split at hx
    · simp only [List.mem_cons, List.not_mem_nil, or_false] at hx
      obtain rfl | rfl := hx <;> exact .inl ⟨b, rfl, by omega, by omega⟩
    · rw [List.mem_singleton.mp hx]
      exact .inl ⟨b, rfl, by omega, by omega⟩
  | none => exact allWithin_nil
  | _ => cases hd

/-- The carry out of a uniform instruction. -/
theorem allWithin_uniCarryOut (hc : (isS c || isNone c) = true) (b : Bool) : allWithin lanes d c n (uniCarryOut c b) := by
  cases c with
  | s b =>
    intro x hx
    rw [show x = _ from List.mem_singleton.mp hx]
    exact .inr ⟨b, rfl, rfl⟩
  | none => exact allWithin_nil
  | _ => cases hc

theorem allWithin_writeP (hl : l ∈ lanesOf lanes) (b : Bool) : allWithin lanes d c n (writeP d l b) := by
  intro x hx
  unfold writeP at hx
  split at hx
  · next k =>
    rw [List.mem_singleton.mp hx]
    exact ⟨hl, k, .inl rfl, rfl⟩
  · cases hx

/-- The carry out of a lane. -/
theorem allWithin_writeP_carry (hl : l ∈ lanesOf lanes) (b : Bool) : allWithin lanes d c n (writeP c l b) := by
  intro x hx
  unfold writeP at hx
  split at hx
  · next k =>
    rw [List.mem_singleton.mp hx]
    exact ⟨hl, k, .inr rfl, rfl⟩
  · cases hx

theorem allWithin_writeRun {xs : List Word} (hn : xs.length ≤ n) (hl : l ∈ lanesOf lanes ∨ isS d = true) :
    allWithin lanes d c n (writeRun d l xs) := by
  intro x hx
  unfold writeRun at hx
  split at hx
  · next b =>
    obtain ⟨i, hi, rfl⟩ := List.mem_map.mp hx
    have := List.mem_range.mp hi
    exact ⟨hl.resolve_right Bool.false_ne_true, b, rfl, by omega, by omega⟩
  · next b =>
    obtain ⟨i, hi, rfl⟩ := List.mem_map.mp hx
    have := List.mem_range.mp hi
    exact .inl ⟨b, rfl, by omega, by omega⟩
  · cases hx

end

/-! ## What such writes keep of a wave -/

/-- A predicate bit that no write names keeps its value. -/
theorem Wave.applyAll_kreg (w : Wave) (ws : List RegWrite) (m j : Nat) (h : ∀ n l x, RegWrite.k n l x ∈ ws → m ≠ n ∨ j ≠ l) :
    ((w.applyAll ws).kreg m).getLsbD j = (w.kreg m).getLsbD j := by
  unfold Wave.applyAll
  induction ws generalizing w with
  | nil => rfl
  | cons a r ih =>
    rw [List.foldl_cons, ih _ fun n l x hx => h n l x (List.mem_cons_of_mem _ hx)]
    cases a with
    | k n l b =>
      have hne := h n l b (List.mem_cons_self ..)
      rw [Wave.apply, Wave.setK_kreg]
      split
      · next hm =>
        have hbit : (BitVec.ofNat 96 (2 ^ l)).getLsbD j = false := by
          rw [BitVec.getLsbD_ofNat, Nat.testBit_two_pow, decide_eq_false (hne.resolve_left (· hm.1)).symm, Bool.and_false]
        rw [hm.1]
        unfold setLane
        split
        · rw [BitVec.getLsbD_or, hbit, Bool.or_false]
        · rw [BitVec.getLsbD_and, BitVec.getLsbD_not, hbit, Bool.not_false, Bool.and_true, Bool.and_eq_left_iff_imp]
          intro hj
          exact decide_eq_true (BitVec.lt_of_getLsbD hj)
      · rfl
    | v n l x => rfl
    | s n x => rfl
    | x n l x => rfl

/-- An index register that no write names in a lane keeps its value there. -/
theorem Wave.applyAll_xreg (w : Wave) (ws : List RegWrite) (m j : Nat) (hj : j < 96)
    (h : ∀ n l x, RegWrite.x n l x ∈ ws → l < 96 ∧ (m ≠ n ∨ j ≠ l)) : (w.applyAll ws).xreg m j = w.xreg m j := by
  unfold Wave.applyAll
  induction ws generalizing w with
  | nil => rfl
  | cons a r ih =>
    rw [List.foldl_cons, ih _ fun n l x hx => h n l x (List.mem_cons_of_mem _ hx)]
    cases a with
    | x n l x =>
      obtain ⟨h1, h2⟩ := h n l x (List.mem_cons_self ..)
      rw [Wave.apply, Wave.setX_xreg _ _ _ _ _ _ h1 hj, if_neg (by omega)]
    | s n x => rfl
    | k n l b => exact Wave.setK_keeps (fun w => w.xreg m j) (fun _ _ => rfl) w n _
    | v n l x => rfl

/-- The parts of a wave that no instruction on registers changes. -/
def Wave.fixed (w : Wave) :=
  (w.tiles, w.claim, w.status, w.dom, w.codeObj, w.tvec, w.tsave, w.bank1, w.bank2, w.regions, w.gates, w.live, w.gangParked, w.join)

/-- What writes within D and C leave of a wave. -/
structure Wave.Frame (lanes : LaneMask) (d c : Operand) (n : Nat) (w w' : Wave) : Prop where
  vreg : ∀ r, ∀ l < 96, (∀ b, d = .v b → r < b.toNat ∨ b.toNat + n ≤ r ∨ lanes.getLsbD l = false) → w'.vreg r l = w.vreg r l
  sreg : ∀ r, (∀ b, (d = .s b → r < b.toNat ∨ b.toNat + n ≤ r) ∧ (c = .s b → r ≠ b.toNat)) → w'.sreg r = w.sreg r
  kreg : ∀ r l, (∀ b, d = .k b ∨ c = .k b → r ≠ b.toNat ∨ lanes.getLsbD l = false) → (w'.kreg r).getLsbD l = (w.kreg r).getLsbD l
  xreg : ∀ r, ∀ l < 96, (∀ b, d = .x b → r ≠ b.toNat ∨ lanes.getLsbD l = false) → w'.xreg r l = w.xreg r l
  fixed : w'.fixed = w.fixed
  mode : ∀ b < 32, b < 12 ∨ 15 < b → w'.mode.getLsbD b = w.mode.getLsbD b

section
variable {lanes : LaneMask} {d c : Operand} {n : Nat} {w w' : Wave}

theorem Wave.Frame.trans {u : Wave} (h : w.Frame lanes d c n u) (k : u.Frame lanes d c n w') : w.Frame lanes d c n w' :=
  ⟨fun r l hl hr => (k.vreg r l hl hr).trans (h.vreg r l hl hr), fun r hr => (k.sreg r hr).trans (h.sreg r hr),
    fun r l hr => (k.kreg r l hr).trans (h.kreg r l hr), fun r l hl hr => (k.xreg r l hl hr).trans (h.xreg r l hl hr),
    k.fixed.trans h.fixed, fun b hb hb' => (k.mode b hb hb').trans (h.mode b hb hb')⟩

/-- A change that touches no register at all. -/
theorem Wave.Frame.of_eq (hv : w'.v = w.v) (hs : w'.s = w.s) (hk : w'.k = w.k) (hx : w'.x = w.x) (hfixed : w'.fixed = w.fixed)
    (hmode : ∀ b < 32, b < 12 ∨ 15 < b → w'.mode.getLsbD b = w.mode.getLsbD b) : w.Frame lanes d c n w' :=
  ⟨fun r l _ _ => by rw [Wave.vreg, hv, Wave.vreg], fun r _ => by rw [Wave.sreg, hs, Wave.sreg],
    fun r l _ => by rw [Wave.kreg, hk, Wave.kreg], fun r l _ _ => by rw [Wave.xreg, hx, Wave.xreg], hfixed, hmode⟩

theorem Wave.Frame.applyAll {ws : List RegWrite} (h : allWithin lanes d c n ws) : w.Frame lanes d c n (w.applyAll ws) where
  vreg r l hl hr := Wave.applyAll_vreg w ws r l hl fun m j x hx => by
    obtain ⟨hj, b, hd, hlo, hhi⟩ := h _ hx
    obtain ⟨hj96, hbit⟩ := mem_lanesOf.mp hj
    refine ⟨hj96, ?_⟩
    by_contra hc
    obtain ⟨rfl, rfl⟩ : r = m ∧ l = j := by omega
    have := hr b hd
    simp only [hbit, Bool.true_eq_false, or_false] at this
    omega
  sreg r hr := Wave.applyAll_sreg w ws r fun m x hx => by
    rintro rfl
    obtain ⟨b, hd, hlo, hhi⟩ | ⟨b, hc, hb⟩ := h _ hx
    · have := (hr b).1 hd
      omega
    · exact (hr b).2 hc hb
  kreg r l hr := Wave.applyAll_kreg w ws r l fun m j x hx => by
    obtain ⟨hj, b, hd, hb⟩ := h _ hx
    obtain ⟨-, hbit⟩ := mem_lanesOf.mp hj
    by_contra hc
    obtain ⟨rfl, rfl⟩ : r = m ∧ l = j := by omega
    have := hr b hd
    simp [hbit, hb] at this
  xreg r l hl hr := Wave.applyAll_xreg w ws r l hl fun m j x hx => by
    obtain ⟨hj, b, hd, hb⟩ := h _ hx
    obtain ⟨hj96, hbit⟩ := mem_lanesOf.mp hj
    refine ⟨hj96, ?_⟩
    by_contra hc
    obtain ⟨rfl, rfl⟩ : r = m ∧ l = j := by omega
    have := hr b hd
    simp [hbit, hb] at this
  fixed := Wave.applyAll_keeps Wave.fixed (fun _ _ _ _ => rfl) (fun _ _ _ => rfl) (Wave.setK_keeps _ fun _ _ => rfl) (fun _ _ _ _ => rfl) w ws
  mode b _ _ := by rw [Wave.applyAll_mode]

theorem Wave.Frame.refl (w : Wave) : w.Frame lanes d c n w := .of_eq rfl rfl rfl rfl rfl fun _ _ _ => rfl

theorem Wave.Frame.markBlocks (ws : List RegWrite) : w.Frame lanes d c n (w.markBlocks ws) := by
  induction ws generalizing w with
  | nil => exact .refl w
  | cons x r ih =>
    refine Wave.Frame.trans ?_ ih
    cases x <;> exact .of_eq rfl rfl rfl rfl rfl fun _ _ _ => rfl

/-- Conditions change the sticky flags of MODE alone (R59). -/
theorem intoMode_getLsbD (q : Cond) (mode : Word) {b : Nat} (hb : b < 32) (hout : b < 12 ∨ 15 < b) :
    (q.intoMode mode).getLsbD b = mode.getLsbD b := by
  rw [Cond.intoMode, BitVec.getLsbD_or, BitVec.getLsbD_shiftLeft, BitVec.getLsbD_setWidth]
  rcases hout with h | h
  · simp [h]
  · simp [BitVec.getLsbD_of_ge q.sticky (b - 12) (by omega)]

theorem Wave.Frame.result (e : Env) (i : Instr) {ws : List RegWrite} (q : Cond) (h : allWithin lanes d c n ws) :
    w.Frame lanes d c n (e.result i ws q w) := by
  unfold Env.result
  refine (Wave.Frame.markBlocks ws).trans ?_
  split
  · exact .of_eq rfl rfl rfl rfl rfl fun _ _ _ => rfl
  · exact (Wave.Frame.applyAll h).trans (.of_eq rfl rfl rfl rfl rfl fun b hb hout =>
      (intoMode_getLsbD q _ hb hout).trans (by rw [Wave.applyAll_mode]))

end

/-! ## What completing an instruction keeps of the state -/

/-- The effect is register writes within D and C, and at most draws taken. -/
def Act.writesWithin (e : Env) (s : State) (d c : Operand) (n : Nat) (a : Act) : Prop :=
  ∃ ws q m, a = .writes (if m = 0 then s else e.reserve m s) ws q ∧ allWithin e.lanes d c n ws

section
variable {s : State} {e : Env} {d c : Operand} {n : Nat}

theorem SMap.find?_modify_other {α : Type} (m : SMap α) {k j : Nat} (f : α → α) (h : j ≠ k) : (m.modify k f).find? j = m.find? j := by
  unfold SMap.modify
  split
  · exact SMap.find?_insert_other _ _ _ _ h
  · rfl

theorem Wave.Frame.countIssue (w : Wave) (n' : Nat) (m : SliceMask) : w.Frame e.lanes d c n (w.countIssue n' m) :=
  .of_eq rfl rfl rfl rfl rfl fun _ _ _ => rfl

theorem Wave.Frame.past (w : Wave) (i : Instr) : w.Frame e.lanes d c n (w.past e i) :=
  .of_eq rfl rfl rfl rfl rfl fun _ _ _ => rfl

/-- The wave of a state after register writes: as before, but for the frame. -/
theorem wrote_frame {t : State} {w : Wave} (hw : t.waves.find? e.wk = some w) (i : Instr) {ws : List RegWrite} (q : Cond)
    (hws : allWithin e.lanes d c n ws) : ∃ u, (t.wrote e i ws q).waves.find? e.wk = some u ∧ w.Frame e.lanes d c n u := by
  refine ⟨((e.result i ws q (w.countIssue e.fid e.frag.slices)).past e i), ?_, ?_⟩
  · simp only [State.wrote, State.completed, State.modWave_find, State.countIssue_find, hw, Option.map_some]
  · exact ((Wave.Frame.countIssue w _ _).trans (.result e i q hws)).trans (.past _ i)

theorem wrote_find_other (t : State) (i : Instr) (ws : List RegWrite) (q : Cond) {k : Nat} (hk : k ≠ e.wk) :
    (t.wrote e i ws q).waves.find? k = t.waves.find? k := by
  simp only [State.wrote, State.completed, State.countIssue, State.modWave, State.chargeIssue_waves, SMap.find?_modify_other _ _ hk]

/-- An instruction of format f whose writes stay within n registers of D and the carry C. -/
def onRegisters (s : State) (e : Env) (f : VFmt) (p : Instr × Nat × Operand) : Prop :=
  ∃ body : Env → State → Act, exec p.1 = issue p.1 body ∧ Instr.gangPoint p.1 = false ∧
    (Instr.stageA p.1 = none → e.wave.mode.extractLsb' 8 4 = 0 → (body e s).writesWithin e s f.d p.2.2 p.2.1)

/-- Such an instruction, where it runs with no trap enabled, leaves writes within D and C, after at most draws taken. -/
theorem onRegisters_next {f : VFmt} {p : Instr × Nat × Operand} (h : onRegisters s e f p) (hr : s.Runs e p.1)
    (hen : e.wave.mode.extractLsb' 8 4 = 0) :
    ∃ ws q m, exec p.1 s = .next ((if m = 0 then s else e.reserve m s).wrote e p.1 ws q) ∧ allWithin e.lanes f.d p.2.2 p.2.1 ws := by
  obtain ⟨body, hx, hg, hbody⟩ := h
  obtain ⟨ws, q, m, hb, hws⟩ := hbody hr.issues.stageA hen
  refine ⟨ws, q, m, ?_, hws⟩
  rw [hx]
  split at hb
  · next hm => rw [if_pos hm]; exact run_writes hr hg hb
  · next hm => rw [if_neg hm]; exact run_writes_reserve hr hg hb

/-! ## Effects whose writes stay within D and C -/

theorem writesWithin_of_allWithin {ws : List RegWrite} (q : Cond) (h : allWithin e.lanes d c n ws) :
    (Act.writes s ws q).writesWithin e s d c n := ⟨ws, q, 0, rfl, h⟩

theorem writesWithin_lanewise {g : Nat → List RegWrite} (q : Cond) (h : ∀ l ∈ lanesOf e.lanes, allWithin e.lanes d c n (g l)) :
    (Act.writes s (e.lanewise g) q).writesWithin e s d c n := writesWithin_of_allWithin q (allWithin_flatMap h)

/-- With no trap enabled no condition traps. -/
theorem floatCause_of_disabled (hen : e.wave.mode.extractLsb' 8 4 = 0) (q : Cond) : (q.enabled (Cond.enables e.wave.mode)).floatCause = none := by
  simp [Cond.enables, hen, Cond.ofBits, Cond.enabled, Cond.floatCause]

theorem writesWithin_floatAct (hen : e.wave.mode.extractLsb' 8 4 = 0) (m : Nat) {rs : List (Nat × LaneRes)}
    (h : ∀ r ∈ rs, allWithin e.lanes d c n r.2.ws) : (floatAct e s m rs).writesWithin e s d c n :=
  ⟨_, _, m, floatAct_writes (floatCause_of_disabled hen _), allWithin_flatMap h⟩

theorem writesWithin_results (hen : e.wave.mode.extractLsb' 8 4 = 0) (m : Nat) {g : Nat → LaneRes}
    (h : ∀ l ∈ lanesOf e.lanes, allWithin e.lanes d c n (g l).ws) : (floatAct e s m (e.results g)).writesWithin e s d c n :=
  writesWithin_floatAct hen m fun r hr => by
    obtain ⟨l, hl, rfl⟩ := List.mem_map.mp hr
    exact h l hl

/-- Every operand position of an instruction that stage A admits holds an operand of its kind (R443). -/
theorem ok_of_stageA {i : Instr} (h : Instr.stageA i = none) {p : Pos} (hp : p ∈ Instr.positions i) : p.ok = true := by
  unfold Instr.stageA at h
  split at h
  · cases hp
  · by_contra hok
    have hany : (Instr.positions i).any (fun p => !p.ok) = true := List.any_eq_true.mpr ⟨p, hp, by simpa using hok⟩
    simp only [hany, if_true] at h
    split at h
    · cases h
    · split at h <;> cases h

/-! ## The families of instructions -/

variable {f : VFmt} {i : Instr}

/-- A uniform instruction writes its scalar destination. -/
theorem onRegisters_uniform {body : Env → State → Act} {p : Pos} (hx : ∀ s, exec i s = issue i body s) (hg : Instr.gangPoint i = false)
    (hp : p ∈ Instr.positions i) (hd : p.ok = (isS f.d || isNone f.d)) {t : Ty} {v : DWord}
    (hb : e.wave.mode.extractLsb' 8 4 = 0 → ∃ q, body e s = .writes s (writeTo t f.d 0 v) q) :
    onRegisters s e f (i, t.regs, .none) :=
  ⟨body, funext hx, hg, fun hA hen => by
    obtain ⟨q, hb⟩ := hb hen
    rw [hb]
    exact writesWithin_of_allWithin q (allWithin_writeTo_scalar le_rfl (hd ▸ ok_of_stageA hA hp) v)⟩

theorem onRegisters_uniOp (o : IntOp) (hx : ∀ s, exec i s = issue i (uniOp o f) s) (hg : Instr.gangPoint i = false)
    (hp : Pos.dst isS f.d f.ty.regs ∈ Instr.positions i) : onRegisters s e f (i, f.ty.regs, .none) :=
  onRegisters_uniform hx hg hp rfl fun _ => ⟨_, rfl⟩

theorem onRegisters_uniCount (o : Ty → Nat → Nat) (hx : ∀ s, exec i s = issue i (uniCount o f) s) (hg : Instr.gangPoint i = false)
    (hp : Pos.dst isS f.d 1 ∈ Instr.positions i) : onRegisters s e f (i, 1, .none) :=
  onRegisters_uniform (t := .z32) hx hg hp rfl fun _ => ⟨_, rfl⟩

/-- TE.DZ is clear where no trap is enabled. -/
theorem enables_dz_of_disabled (hen : e.wave.mode.extractLsb' 8 4 = 0) : (Cond.enables e.wave.mode).dz = false := by
  rw [Cond.enables, hen]
  rfl

theorem onRegisters_uniDivide (o : IntOp) (hx : ∀ s, exec i s = issue i (uniDivide o f) s) (hg : Instr.gangPoint i = false)
    (hp : Pos.dst isS f.d f.ty.regs ∈ Instr.positions i) : onRegisters s e f (i, f.ty.regs, .none) :=
  onRegisters_uniform hx hg hp rfl fun hen => ⟨_, by
    simp only [uniDivide, enables_dz_of_disabled hen, Bool.and_false, Bool.false_eq_true, if_false]; rfl⟩

theorem onRegisters_uniCarry (o : Ty → Nat → Nat → Nat → Nat × Bool) (takes : Bool) {p : Pos}
    (hx : ∀ s, exec i s = issue i (uniCarry o takes f) s) (hg : Instr.gangPoint i = false)
    (hp : Pos.dst isS f.d f.ty.regs ∈ Instr.positions i) (hc : p ∈ Instr.positions i)
    (hok : p.ok = true → (isS f.c || isNone f.c) = true) : onRegisters s e f (i, f.ty.regs, f.c) :=
  ⟨_, funext hx, hg, fun hA _ => writesWithin_of_allWithin _ (allWithin_append
    (allWithin_writeTo_scalar le_rfl (ok_of_stageA hA hp) _) (allWithin_uniCarryOut (hok (ok_of_stageA hA hc)) _))⟩

/-- An instruction that writes D in each lane that executes. -/
theorem onRegisters_lanes {body : Env → State → Act} {g : Nat → List RegWrite} {n : Nat} {c : Operand} (hx : ∀ s, exec i s = issue i body s)
    (hg : Instr.gangPoint i = false) (hb : ∃ q, body e s = .writes s (e.lanewise g) q)
    (hws : ∀ l ∈ lanesOf e.lanes, allWithin e.lanes f.d c n (g l)) : onRegisters s e f (i, n, c) :=
  ⟨body, funext hx, hg, fun _ _ => by
    obtain ⟨q, hb⟩ := hb
    rw [hb]
    exact writesWithin_lanewise q hws⟩

/-- A float instruction that writes D in each lane that executes. -/
theorem onRegisters_results {body : Env → State → Act} {g : Nat → LaneRes} {n : Nat} (m : Nat) (hx : ∀ s, exec i s = issue i body s)
    (hg : Instr.gangPoint i = false) (hb : body e s = floatAct e s m (e.results g))
    (hws : ∀ l ∈ lanesOf e.lanes, allWithin e.lanes f.d .none n (g l).ws) : onRegisters s e f (i, n, .none) :=
  ⟨body, funext hx, hg, fun _ hen => by
    rw [hb]
    exact writesWithin_results hen m hws⟩

theorem onRegisters_vecOp (o : IntOp) (hx : ∀ s, exec i s = issue i (vecOp o f) s) (hg : Instr.gangPoint i = false) :
    onRegisters s e f (i, f.ty.regs, .none) :=
  onRegisters_lanes hx hg ⟨_, rfl⟩ fun _ hl => allWithin_writeTo le_rfl hl _

theorem onRegisters_vecCarry (o : Ty → Nat → Nat → Nat → Nat × Bool) (takes : Bool) (hx : ∀ s, exec i s = issue i (vecCarry o takes f) s)
    (hg : Instr.gangPoint i = false) : onRegisters s e f (i, f.ty.regs, f.c) :=
  onRegisters_lanes hx hg ⟨_, rfl⟩ fun _ hl => allWithin_append (allWithin_writeTo le_rfl hl _) (allWithin_writeP_carry hl _)

theorem onRegisters_vecAddSub (o : IntOp) (k : Ty → Nat → Nat → Nat → Nat × Bool) (hx : ∀ s, exec i s = issue i (vecAddSub o k f) s)
    (hg : Instr.gangPoint i = false) : onRegisters s e f (i, f.ty.regs, f.c) := by
  by_cases hc : f.c = .none
  · exact onRegisters_lanes hx hg ⟨_, vecAddSub_writes hc⟩ fun _ hl => allWithin_writeTo le_rfl hl _
  · exact onRegisters_lanes hx hg ⟨_, if_neg hc⟩ fun _ hl => allWithin_append (allWithin_writeTo le_rfl hl _) (allWithin_writeP_carry hl _)

theorem onRegisters_vecDivide (o : IntOp) (hx : ∀ s, exec i s = issue i (vecDivide o f) s) (hg : Instr.gangPoint i = false) :
    onRegisters s e f (i, f.ty.regs, .none) :=
  ⟨_, funext hx, hg, fun _ hen => by
    have hws {q : Cond} {g : Nat → DWord} : (Act.writes s (e.lanewise fun l => writeTo f.ty f.d l (g l)) q).writesWithin e s f.d .none f.ty.regs :=
      writesWithin_lanewise q fun l hl => allWithin_writeTo le_rfl hl _
    unfold vecDivide
    split
    · rw [enables_dz_of_disabled hen, if_neg Bool.false_ne_true]
      exact hws
    · exact hws⟩

theorem onRegisters_vecCount (o : Ty → Nat → Nat) (hx : ∀ s, exec i s = issue i (vecCount o f) s) (hg : Instr.gangPoint i = false) :
    onRegisters s e f (i, 1, .none) :=
  onRegisters_lanes hx hg ⟨_, rfl⟩ fun _ hl => allWithin_writeTo le_rfl hl _

theorem onRegisters_floatOp (o : FloatOp) (rounds : Bool) (hx : ∀ s, exec i s = issue i (floatOp o rounds f) s) (hg : Instr.gangPoint i = false) :
    onRegisters s e f (i, f.ty.regs, .none) :=
  onRegisters_results _ hx hg rfl fun _ hl => allWithin_writeTo le_rfl hl _

theorem onRegisters_uniform_list : ∀ p ∈ Rules.onRegisters1 f, onRegisters s e f p := by
  have hcarry (p : Pos) (hp : p.ok = isS f.c) (h : p.ok = true) : (isS f.c || isNone f.c) = true := by
    rw [← hp, h, Bool.true_or]
  simp only [Rules.onRegisters1, List.forall_mem_cons, List.not_mem_nil, false_implies, implies_true, and_true]
  refine ⟨onRegisters_uniOp opMul ?_ rfl (.head _), onRegisters_uniOp opMulHi ?_ rfl (.head _), onRegisters_uniOp opMin ?_ rfl (.head _),
    onRegisters_uniOp opMax ?_ rfl (.head _), onRegisters_uniOp opAnd ?_ rfl (.head _), onRegisters_uniOp opOr ?_ rfl (.head _),
    onRegisters_uniOp opXor ?_ rfl (.head _), onRegisters_uniOp opNot ?_ rfl (.head _), onRegisters_uniOp opShl ?_ rfl (.head _),
    onRegisters_uniOp opShr ?_ rfl (.head _), onRegisters_uniOp opSar ?_ rfl (.head _), onRegisters_uniOp opBfe ?_ rfl (.head _),
    onRegisters_uniOp opBfi ?_ rfl (.head _), onRegisters_uniOp opMov ?_ rfl (.head _),
    onRegisters_uniCarry addCarry false ?_ rfl (.head _) (.tail _ (.tail _ (.tail _ (.head _)))) id,
    onRegisters_uniCarry addCarry true ?_ rfl (.head _) (.tail _ (.tail _ (.tail _ (.head _)))) (hcarry _ rfl),
    onRegisters_uniCarry subBorrow false ?_ rfl (.head _) (.tail _ (.tail _ (.tail _ (.head _)))) id,
    onRegisters_uniCarry subBorrow true ?_ rfl (.head _) (.tail _ (.tail _ (.tail _ (.head _)))) (hcarry _ rfl),
    onRegisters_uniform (t := .z64) (fun _ => rfl) rfl (.head _) rfl fun _ => ⟨_, rfl⟩,
    onRegisters_uniCount popCount ?_ rfl (.head _), onRegisters_uniCount leadingZeros ?_ rfl (.head _),
    onRegisters_uniform (t := .z32) (fun _ => rfl) rfl (.head _) rfl fun _ => ⟨_, rfl⟩,
    onRegisters_uniform (t := f.ty) (fun _ => rfl) rfl (.head _) rfl fun _ => ⟨_, rfl⟩,
    onRegisters_uniDivide opDiv ?_ rfl (.head _), onRegisters_uniDivide opRem ?_ rfl (.head _)⟩ <;> exact fun _ => rfl

theorem onRegisters_integer_list : ∀ p ∈ Rules.onRegisters2 f, onRegisters s e f p := by
  simp only [Rules.onRegisters2, List.forall_mem_cons, List.not_mem_nil, false_implies, implies_true, and_true]
  refine ⟨onRegisters_vecOp opMul ?_ rfl, onRegisters_vecOp opMulHi ?_ rfl, onRegisters_vecOp opMad ?_ rfl, onRegisters_vecOp opMin ?_ rfl,
    onRegisters_vecOp opMax ?_ rfl, onRegisters_vecOp opAbs ?_ rfl, onRegisters_vecOp opAnd ?_ rfl, onRegisters_vecOp opOr ?_ rfl,
    onRegisters_vecOp opXor ?_ rfl, onRegisters_vecOp opNot ?_ rfl, onRegisters_vecOp opShl ?_ rfl, onRegisters_vecOp opShr ?_ rfl,
    onRegisters_vecOp opSar ?_ rfl, onRegisters_vecOp opBfe ?_ rfl, onRegisters_vecOp opBfi ?_ rfl, onRegisters_vecOp opBrev ?_ rfl,
    onRegisters_vecOp opMov ?_ rfl, onRegisters_vecAddSub opAdd addCarry ?_ rfl, onRegisters_vecCarry addCarry true ?_ rfl,
    onRegisters_vecAddSub opSub subBorrow ?_ rfl, onRegisters_vecCarry subBorrow true ?_ rfl,
    onRegisters_lanes (fun _ => rfl) rfl ⟨_, rfl⟩ fun _ hl => allWithin_writeTo (t := .z64) le_rfl hl _,
    onRegisters_vecCount popCount ?_ rfl, onRegisters_vecCount leadingZeros ?_ rfl,
    onRegisters_lanes (fun _ => rfl) rfl ⟨_, rfl⟩ fun _ hl => allWithin_writeP hl _⟩ <;> exact fun _ => rfl

theorem onRegisters_float_list : ∀ p ∈ Rules.onRegisters3 f, onRegisters s e f p := by
  simp only [Rules.onRegisters3, List.forall_mem_cons, List.not_mem_nil, false_implies, implies_true, and_true]
  refine ⟨onRegisters_lanes (fun _ => rfl) rfl ⟨_, rfl⟩ fun _ hl => allWithin_writeTo le_rfl hl _, onRegisters_vecDivide opDiv ?_ rfl,
    onRegisters_vecDivide opRem ?_ rfl, onRegisters_floatOp opFadd true ?_ rfl, onRegisters_floatOp opFsub true ?_ rfl,
    onRegisters_floatOp opFmul true ?_ rfl, onRegisters_floatOp opFfma true ?_ rfl, onRegisters_floatOp opFmin false ?_ rfl,
    onRegisters_floatOp opFmax false ?_ rfl, onRegisters_vecOp opFabs ?_ rfl, onRegisters_vecOp opFneg ?_ rfl,
    onRegisters_results 0 (fun _ => rfl) rfl rfl fun _ hl => allWithin_writeP hl _,
    onRegisters_results 0 (fun _ => rfl) rfl rfl fun _ hl => allWithin_writeP hl _,
    onRegisters_floatOp (unary FFmt.rcpR) true ?_ rfl, onRegisters_floatOp (unary FFmt.rsqR) true ?_ rfl,
    onRegisters_floatOp (unary FFmt.sqrtR) true ?_ rfl, onRegisters_floatOp opFdiv true ?_ rfl,
    onRegisters_floatOp (unary FFmt.exp2R) true ?_ rfl, onRegisters_floatOp (unary FFmt.log2R) true ?_ rfl,
    onRegisters_floatOp (unary FFmt.sinR) true ?_ rfl, onRegisters_floatOp (unary FFmt.cosR) true ?_ rfl,
    onRegisters_floatOp (unary FFmt.tanhR) true ?_ rfl, onRegisters_floatOp (opInt .rdn) false ?_ rfl,
    onRegisters_floatOp (opInt .rup) false ?_ rfl, onRegisters_floatOp (opInt .rz) false ?_ rfl⟩ <;> exact fun _ => rfl

/-- A shuffle writes its own type in every member (R170). -/
theorem onRegisters_shuffle (from_ : Nat → Nat → Int) (hx : ∀ s, exec i s = issue i (shuffle from_ f) s) (hg : Instr.gangPoint i = false) :
    onRegisters s e f (i, f.ty.regs, .none) :=
  onRegisters_lanes hx hg ⟨_, rfl⟩ fun l hl => by
    dsimp only
    split <;> exact allWithin_writeTo le_rfl hl _

theorem onRegisters_vote (p : List Nat → Bool) {body : Env → State → Act} (hx : ∀ s, exec i s = issue i body s) (hg : Instr.gangPoint i = false)
    (hb : body e s = vote p f e s) : onRegisters s e f (i, 1, .none) :=
  onRegisters_lanes hx hg ⟨_, hb⟩ fun _ hl => allWithin_writeP hl _

/-- A result written once to a scalar, or in every member. -/
theorem allWithin_scalar_or_lanes {t : Ty} {n : Nat} {c : Operand} (ht : t.regs ≤ n) (v : DWord) :
    allWithin e.lanes f.d c n (if isS f.d then writeTo t f.d 0 v else e.lanewise fun l => writeTo t f.d l v) := by
  split
  · next hs => exact allWithin_writeTo_scalar ht (by rw [hs, Bool.true_or]) v
  · exact allWithin_flatMap fun l hl => allWithin_writeTo ht hl v

theorem onRegisters_ballot : onRegisters s e f (.ballot f, 3, .none) :=
  ⟨_, funext fun _ => rfl, rfl, fun _ _ => writesWithin_of_allWithin _ (by
    split
    · next hs => exact allWithin_writeRun le_rfl (.inr hs)
    · exact allWithin_flatMap fun l hl => allWithin_writeRun le_rfl (.inl hl))⟩

/-- The lanes of SCAN's and SCANX's steps are the members. -/
theorem mem_scan {x : Nat × Option Nat × FRes} (h : x ∈ e.scan f) : x.1 ∈ lanesOf e.lanes := by
  rw [scan_eq_map] at h
  obtain ⟨l, hl, rfl⟩ := List.mem_map.mp h
  exact hl

theorem onRegisters_scan {body : Env → State → Act} {g : Nat × Option Nat × FRes → LaneRes} (hx : ∀ s, exec i s = issue i body s)
    (hg : Instr.gangPoint i = false) (hb : body e s = floatAct e s 0 ((e.scan f).map fun x => (x.1, g x)))
    (hws : ∀ x, x.1 ∈ lanesOf e.lanes → allWithin e.lanes f.d .none f.ty.regs (g x).ws) : onRegisters s e f (i, f.ty.regs, .none) :=
  ⟨body, funext hx, hg, fun _ hen => by
    rw [hb]
    refine writesWithin_floatAct hen 0 fun r hr => ?_
    obtain ⟨x, hx, rfl⟩ := List.mem_map.mp hr
    exact hws x (mem_scan hx)⟩

theorem onRegisters_reduce : onRegisters s e f (.reduce f, f.ty.regs, .none) :=
  ⟨_, funext fun _ => rfl, rfl, fun _ hen => writesWithin_floatAct hen 0 fun r hr => by
    obtain hr | hr := List.mem_append.mp hr
    · obtain ⟨x, -, rfl⟩ := List.mem_map.mp hr
      exact allWithin_nil
    · rw [List.mem_singleton.mp hr]
      exact allWithin_scalar_or_lanes le_rfl _⟩

theorem onRegisters_lane_list : ∀ p ∈ Rules.onRegisters4 f, onRegisters s e f p := by
  have hcvt : (if f.ty.regs = 2 then Ty.z64 else Ty.z32).regs ≤ f.ty.regs := by
    unfold Ty.regs
    split <;> decide
  simp only [Rules.onRegisters4, List.forall_mem_cons, List.not_mem_nil, false_implies, implies_true, and_true]
  refine ⟨onRegisters_floatOp (unary FFmt.intR) true ?_ rfl, onRegisters_floatOp (unary FFmt.fracR) true ?_ rfl,
    onRegisters_results _ (fun _ => rfl) rfl rfl fun _ hl => allWithin_writeTo le_rfl hl _,
    onRegisters_results 0 (fun _ => rfl) rfl rfl fun _ hl => allWithin_writeTo (t := .z32) le_rfl hl _,
    onRegisters_floatOp opFmant false ?_ rfl, onRegisters_floatOp opFmed3 false ?_ rfl,
    onRegisters_results _ (fun _ => rfl) rfl rfl fun _ hl => allWithin_writeTo (t := .f32) le_rfl hl _,
    onRegisters_results _ (fun _ => rfl) rfl rfl fun _ hl => allWithin_writeTo (t := .f32) le_rfl hl _,
    onRegisters_results _ (fun _ => rfl) rfl rfl fun _ hl => allWithin_writeTo hcvt hl _,
    onRegisters_results _ (fun _ => rfl) rfl rfl fun _ hl => allWithin_writeTo (t := .z32) le_rfl hl _,
    onRegisters_results _ (fun _ => rfl) rfl rfl fun _ hl => allWithin_writeTo le_rfl hl _,
    onRegisters_results _ (fun _ => rfl) rfl rfl fun _ hl => allWithin_writeTo (t := .z32) le_rfl hl _,
    onRegisters_results 0 (fun _ => rfl) rfl rfl fun _ hl => allWithin_writeTo (t := .z32) le_rfl hl _,
    onRegisters_lanes (fun _ => rfl) rfl ⟨_, rfl⟩ fun _ hl => allWithin_writeTo (t := .z32) le_rfl hl _,
    onRegisters_shuffle (fun _ b => b) ?_ rfl, onRegisters_shuffle (fun l b => (l : Int) - b) ?_ rfl,
    onRegisters_shuffle (fun l b => (l : Int) + b) ?_ rfl, onRegisters_shuffle (fun l b => (Nat.xor l b : Nat)) ?_ rfl,
    onRegisters_vote _ (fun _ => rfl) rfl rfl, onRegisters_vote _ (fun _ => rfl) rfl rfl, onRegisters_vote _ (fun _ => rfl) rfl rfl,
    onRegisters_ballot, onRegisters_scan (fun _ => rfl) rfl rfl fun _ hl => allWithin_writeTo le_rfl hl _,
    onRegisters_scan (fun _ => rfl) rfl rfl fun _ hl => allWithin_writeTo le_rfl hl _, onRegisters_reduce⟩ <;> exact fun _ => rfl

theorem onRegisters_compact : onRegisters s e f (.compact f, f.ty.regs, .none) :=
  ⟨_, funext fun _ => rfl, rfl, fun _ _ => writesWithin_of_allWithin _ (allWithin_flatMap fun k hk => by
    refine allWithin_writeTo le_rfl ?_ _
    rw [List.getD_eq_getElem _ _ (List.mem_range.mp hk)]
    exact List.getElem_mem _)⟩

theorem onRegisters_logic (o : Bool → Bool → Bool) (hx : ∀ s, exec i s = issue i (logic o f) s) (hg : Instr.gangPoint i = false) :
    onRegisters s e f (i, 1, .none) :=
  onRegisters_lanes hx hg ⟨_, rfl⟩ fun _ hl => allWithin_writeP hl _

theorem onRegisters_reference_list : ∀ p ∈ Rules.onRegisters5 f, onRegisters s e f p := by
  have href (g : Nat → DWord) (l) (hl : l ∈ lanesOf e.lanes) : allWithin e.lanes f.d .none 2 (writeTo .z64 f.d l (g l)) :=
    allWithin_writeTo le_rfl hl _
  have hword (g : Nat → DWord) (l) (hl : l ∈ lanesOf e.lanes) : allWithin e.lanes f.d .none 1 (writeTo .z32 f.d l (g l)) :=
    allWithin_writeTo le_rfl hl _
  simp only [Rules.onRegisters5, List.forall_mem_cons, List.not_mem_nil, false_implies, implies_true, and_true]
  refine ⟨onRegisters_compact, onRegisters_lanes (fun _ => rfl) rfl ⟨_, rfl⟩ fun _ hl => allWithin_writeTo le_rfl hl _,
    ⟨_, funext fun _ => rfl, rfl, fun _ _ => writesWithin_of_allWithin _ (allWithin_scalar_or_lanes le_rfl _)⟩,
    onRegisters_logic (fun a b => a && b) ?_ rfl, onRegisters_logic (fun a b => a || b) ?_ rfl, onRegisters_logic (fun a b => a != b) ?_ rfl,
    onRegisters_logic (fun a b => a && !b) ?_ rfl, onRegisters_logic (fun a _ => !a) ?_ rfl,
    onRegisters_lanes (fun _ => rfl) rfl ⟨_, rfl⟩ fun _ hl => allWithin_writeP hl _,
    onRegisters_lanes (fun _ => rfl) rfl ⟨_, rfl⟩ (href _), onRegisters_lanes (fun _ => rfl) rfl ⟨_, rfl⟩ (href _),
    onRegisters_lanes (fun _ => rfl) rfl ⟨_, rfl⟩ (href _),
    onRegisters_lanes (fun _ => rfl) rfl ⟨_, rfl⟩ fun _ hl => allWithin_writeTo le_rfl hl _,
    onRegisters_lanes (fun _ => rfl) rfl ⟨_, rfl⟩ (href _), onRegisters_lanes (fun _ => rfl) rfl ⟨_, rfl⟩ fun _ hl => allWithin_writeP hl _,
    onRegisters_lanes (fun _ => rfl) rfl ⟨_, rfl⟩ fun _ hl => allWithin_writeP hl _,
    onRegisters_lanes (fun _ => rfl) rfl ⟨_, rfl⟩ (hword _), onRegisters_lanes (fun _ => rfl) rfl ⟨_, rfl⟩ (hword _)⟩ <;> exact fun _ => rfl

theorem onRegisters_all {p : Instr × Nat × Operand}
    (hp : p ∈ Rules.onRegisters1 f ++ Rules.onRegisters2 f ++ Rules.onRegisters3 f ++ Rules.onRegisters4 f ++ Rules.onRegisters5 f) :
    onRegisters s e f p := by
  simp only [List.mem_append] at hp
  obtain (((hp | hp) | hp) | hp) | hp := hp
  · exact onRegisters_uniform_list p hp
  · exact onRegisters_integer_list p hp
  · exact onRegisters_float_list p hp
  · exact onRegisters_lane_list p hp
  · exact onRegisters_reference_list p hp

end

/-- Settles O8: each instruction's writes stay within D and C, and completing it keeps the rest of wave and state. -/
theorem registerFrame : Obligations.RegisterFrame := by
  intro s e f p hp hr hen
  obtain ⟨ws, q, m, hexec, hws⟩ := onRegisters_next (onRegisters_all hp) hr hen
  let t := if m = 0 then s else e.reserve m s
  obtain ⟨-, hw, -⟩ := State.env_some hr.1
  obtain ⟨u, hu, hframe⟩ : ∃ u, t.waves.find? e.wk = some u ∧ e.wave.Frame e.lanes f.d p.2.2 p.2.1 u := by
    by_cases hm : m = 0
    · exact ⟨e.wave, by simp only [t, hm, if_true, hw], .refl _⟩
    · refine ⟨_, by simp only [t, hm, if_false, Env.reserve, State.modWave_find, hw, Option.map_some]; rfl, ?_⟩
      exact .of_eq rfl rfl rfl rfl rfl fun _ _ _ => rfl
  obtain ⟨w, hfind, hwrote⟩ := wrote_frame hu p.1 q hws
  obtain ⟨hothers, hbyte, hbar, hstore, hlaunch, hgroups⟩ : (∀ k, k ≠ e.wk → t.waves.find? k = s.waves.find? k) ∧
      (∀ a, t.byte a = s.byte a) ∧ t.bar0 = s.bar0 ∧ t.storeQ = s.storeQ ∧ t.launches = s.launches ∧ t.workgroups = s.workgroups := by
    by_cases hm : m = 0
    · simp only [t, hm, if_true, implies_true, and_self]
    · simp only [t, hm, if_false]
      exact ⟨fun k hne => SMap.find?_modify_other _ _ hne, fun _ => rfl, rfl, rfl, rfl, rfl⟩
  obtain ⟨hv, hs, hk, hx, hfixed, hmode⟩ := hframe.trans hwrote
  simp only [Wave.fixed, Prod.mk.injEq] at hfixed
  obtain ⟨h1, h2, h3, h4, h5, h6, h7, h8, h9, h10, h11, h12, h13, h14⟩ := hfixed
  refine ⟨_, w, hexec, hfind, fun k hne => (wrote_find_other t p.1 ws q hne).trans (hothers k hne), hbyte, hbar, hstore,
    hlaunch, hgroups, hv, hs, hk, hx, h1, h2, h3, h4, h5, h6, h7, h8, h9, h10, h11, h12, h13, h14, hmode⟩

end Sys2Proof.Machine
end

