-- ==== Sys2Proof/Proofs/ControlTransfers.lean ====
section
/-!
PROOFS. Branches, calls, returns and EXIT (O21): a jump's list of lanes and targets is a function from lanes to targets.
-/

namespace Sys2Proof.Machine

variable {s t : State} {e : Env} {i : Instr} {body : Env → State → Act}

/-! ## Jumps -/

/-- The lanes of a set that p selects, each with the address that v gives it. -/
def Env.going (e : Env) (p : Nat → Bool) (v : Nat → DWord) : List (Nat × CodeAddr) :=
  ((lanesOf e.lanes).filter p).map fun l => (l, codeAddr (v l))

/-- Where a lane goes. -/
theorem going_find? (p : Nat → Bool) (v : Nat → DWord) (l : Nat) : (e.going p v).find? (fun x => x.1 = l) =
    if l ∈ lanesOf e.lanes ∧ p l = true then some (l, codeAddr (v l)) else none := by
  have hmem : l ∈ (lanesOf e.lanes).filter p ↔ l ∈ lanesOf e.lanes ∧ p l = true := List.mem_filter
  simp only [Env.going, List.find?_map, Function.comp_def, ← hmem]
  generalize (lanesOf e.lanes).filter p = ls
  induction ls with
  | nil => rfl
  | cons a r ih =>
    rw [List.find?_cons]
    by_cases ha : a = l
    · simp [ha]
    · simpa [ha, Ne.symm ha] using ih

/-- A control transfer: the lanes that go stand at their targets, the others at the next word. -/
theorem issue_jump (h : s.Issues e i) (hg : Instr.gangPoint i = false) (hend : Instr.endsBlock i = true) (p : Nat → Bool)
    (v : Nat → DWord) (hb : body e s = .jump t (e.going p v)) : issue i body s = .next (t.transferred e i fun l =>
      if e.lanes.getLsbD l then (if p l then some (v l) else none).map codeAddr else none) := by
  rw [issue_performs h hg, hb, State.perform, hend, State.advance, State.moveLanes, State.transferred]
  congr 3
  funext w
  congr 1
  funext l
  by_cases hact : e.active.getLsbD l = true
  · have hl : l < 96 := BitVec.lt_of_getLsbD hact
    rw [if_pos hact, if_pos hact, going_find?]
    by_cases hlane : e.lanes.getLsbD l = true
    · by_cases hp : p l = true
      · simp [mem_lanesOf, hl, hlane, hp]
      · simp [mem_lanesOf, hlane, hp, Env.after, Env.seq]
    · simp [mem_lanesOf, hlane, Env.after, Env.seq]
  · rw [if_neg hact, if_neg hact]

/-! ## Direct branches (R161) -/

theorem branchTo_jump {f : CFmt} {takes : Env → Nat → Bool} (h : (∃ l ∈ lanesOf e.lanes, takes e l = true) → s.goodTarget e (e.direct f) = true) :
    branchTo f takes e s = .jump s (e.going (takes e) fun _ => e.direct f) := by
  by_cases hnone : (lanesOf e.lanes).filter (takes e) = []
  · simp only [branchTo, Env.going, hnone, List.isEmpty_nil, if_true, List.map_nil]
  · obtain ⟨l, hl⟩ := List.exists_mem_of_ne_nil _ hnone
    rw [branchTo, if_neg (mt List.isEmpty_iff.mp hnone), h ⟨l, List.mem_filter.mp hl⟩]
    rfl

theorem branchTo_trap {f : CFmt} {takes : Env → Nat → Bool} (h : ∃ l ∈ lanesOf e.lanes, takes e l = true)
    (hbad : s.goodTarget e (e.direct f) = false) : branchTo f takes e s = .trap 0x41 (e.direct f) := by
  obtain ⟨l, hl⟩ := h
  rw [branchTo, if_neg (fun hnil => List.not_mem_nil (List.isEmpty_iff.mp hnil ▸ List.mem_filter.mpr hl)), hbad]
  rfl

theorem brpTakes_eq_getD {f : CFmt} (hk : f.kind.toNat < 4) (l : Nat) : brpTakes f e l =
    [e.pbit f.cond l, !e.pbit f.cond l, (lanesOf e.lanes).any (e.pbit f.cond), (lanesOf e.lanes).all (e.pbit f.cond)].getD f.kind.toNat false := by
  unfold brpTakes
  generalize f.kind.toNat = k at hk
  obtain _ | _ | _ | _ | k := k
  · rfl
  · rfl
  · rfl
  · rfl
  · omega

theorem bruTakes_eq_getD {f : CFmt} (hk : f.kind.toNat < 4) : bruTakes f e =
    let x : Int := (lowWord (e.read .s32 f.cond e.first)).toInt
    [decide (x ≠ 0), decide (x = 0), decide (x < 0), decide (0 ≤ x)].getD f.kind.toNat false := by
  unfold bruTakes
  generalize lowWord (e.read .s32 f.cond e.first) = x
  have hzero : (x == 0) = decide (x.toInt = 0) := by
    rw [Bool.eq_iff_iff, beq_iff_eq, decide_eq_true_eq, ← BitVec.toInt_inj]
    rfl
  have hneg : x.msb = decide (x.toInt < 0) := BitVec.msb_eq_toInt
  have hnonneg : (!x.msb) = decide (0 ≤ x.toInt) := by
    rw [hneg, ← decide_not]
    exact decide_eq_decide.mpr (by omega)
  generalize f.kind.toNat = k at hk
  obtain _ | _ | _ | _ | k := k
  · show (!(x == 0)) = decide (x.toInt ≠ 0)
    rw [hzero, decide_not]
  · exact hzero
  · exact hneg
  · exact hnonneg
  · omega

/-! ## Indirect transfers (R162) -/

theorem indirect_jump {pair : Operand} (h : ∀ l ∈ lanesOf e.lanes, s.goodTarget e (e.readRef pair l) = true) :
    indirect e s t pair = .jump t (e.going (fun _ => true) fun l => e.readRef pair l) := by
  have hnone : ((lanesOf e.lanes).find? fun l => !s.goodTarget e (e.readRef pair l)) = none :=
    List.find?_eq_none.mpr fun l hl => by simp [h l hl]
  rw [indirect, hnone, Env.going, List.filter_true]

theorem indirect_trap {pair : Operand} {l : Nat} (hl : l ∈ lanesOf e.lanes) (hbad : s.goodTarget e (e.readRef pair l) = false)
    (hmin : ∀ j ∈ lanesOf e.lanes, s.goodTarget e (e.readRef pair j) = false → l ≤ j) :
    indirect e s t pair = .trap 0x41 (e.readRef pair l) := by
  rw [indirect, lanesOf_find?_eq_some hl (by simp [hbad]) fun j hj hp => hmin j hj (by simpa using hp)]

/-- A CALL to a bad target is refused as in stage A (R436). -/
theorem exec_call_bad {f : CFmt} (he : s.env (.call f) = some e) (hcan : e.canIssue = true) (howed : s.entryOwed e.wk e.frag = false)
    (hblock : e.blocker (.call f) = none) (hjoin : e.joinWait s (.call f) = none) (hpoison : s.fetchPoisoned e (.call f) = false)
    (hbusy : s.bloadBusy e.wk (.call f) = false) (hA : Instr.stageAIn (.call f) (s.wordsLeft e) = none) (hlanes : e.lanes ≠ 0)
    (hbad : s.goodTarget e (e.direct f) = false) : exec (.call f) s = .next (s.trapped e 0x41 (e.direct f)) := by
  have hcall : s.badCall e (.call f) = some (e.direct f) := by
    simp only [State.badCall, hbad, Bool.not_false, and_true, if_pos hlanes]
  simp only [exec, execCall, issue, he, State.issueIn, hcan, howed, hblock, hjoin, fetchPoisoned_eq_false.mp hpoison, hbusy, hA, hcall,
    Bool.not_true, Bool.false_eq_true, if_false]
  rfl

theorem branches : Rules.Branches := by
  intro s e f ls direct bit brp x bru link go
  refine ⟨fun p hp hk => ?_, fun hi hgood => ?_, exec_call_bad, fun p hp => ?_⟩
  · obtain ⟨i, q⟩ := p
    obtain ⟨takes, rfl, hexec, hg, hend⟩ : ∃ takes : Env → Nat → Bool, takes e = q ∧ exec i s = issue i (branchTo f takes) s ∧
        Instr.gangPoint i = false ∧ Instr.endsBlock i = true := by
      simp only [List.mem_cons, List.not_mem_nil, or_false, Prod.mk.injEq] at hp
      obtain ⟨rfl, rfl⟩ | ⟨rfl, rfl⟩ | ⟨rfl, rfl⟩ := hp
      · exact ⟨fun _ _ => true, rfl, rfl, rfl, rfl⟩
      · exact ⟨brpTakes f, funext fun l => brpTakes_eq_getD hk l, rfl, rfl, rfl⟩
      · exact ⟨fun e _ => bruTakes f e, funext fun _ => bruTakes_eq_getD hk, rfl, rfl, rfl⟩
    exact ⟨fun hi hgood => hexec.trans (issue_jump hi hg hend _ _ (branchTo_jump hgood)),
      fun hi htaken hbad => hexec.trans (issue_trap hi hg (branchTo_trap htaken hbad))⟩
  · have hgoing : e.going (fun _ => true) (fun _ => direct) = (lanesOf e.lanes).map fun l => (l, codeAddr (e.direct f)) := by
      rw [Env.going, List.filter_true]
      rfl
    have hjump := issue_jump (t := s.writeNow e (linkWrites e (.call f) f.cond)) (body := fun e s =>
      .jump (s.writeNow e (linkWrites e (.call f) f.cond)) ((lanesOf e.lanes).map fun l => (l, codeAddr (e.direct f))))
      hi rfl rfl (fun _ => true) (fun _ => direct) (by rw [hgoing])
    exact hjump
  · obtain ⟨i, pair, u⟩ := p
    obtain ⟨body, hexec, hbody, hg, hend⟩ : ∃ body, exec i s = issue i body s ∧ body e s = indirect e s u pair ∧
        Instr.gangPoint i = false ∧ Instr.endsBlock i = true := by
      simp only [List.mem_cons, List.not_mem_nil, or_false, Prod.mk.injEq] at hp
      obtain ⟨rfl, rfl, rfl⟩ | ⟨rfl, rfl, rfl⟩ | ⟨rfl, rfl, rfl⟩ := hp
      · exact ⟨fun e s => indirect e s (s.writeNow e (linkWrites e (.calli f) f.cond)) f.target, rfl, rfl, rfl, rfl⟩
      · exact ⟨fun e s => indirect e s s f.target, rfl, rfl, rfl, rfl⟩
      · exact ⟨fun e s => indirect e s s f.cond, rfl, rfl, rfl, rfl⟩
    refine ⟨fun hi hgood => ?_,
      fun l hl hi hbad hmin => hexec.trans (issue_trap hi hg (hbody.trans (indirect_trap hl hbad hmin)))⟩
    have hjump := issue_jump hi hg hend _ _ (hbody.trans (indirect_jump hgood))
    simp only [if_true] at hjump
    exact hexec.trans hjump

/-! ## EXIT (R163) -/

/-- The lanes of a mask begin with its lowest. -/
theorem lanesOf_eq_cons {m : LaneMask} {l : Nat} (hl : m.getLsbD l = true) (hmin : ∀ j < l, m.getLsbD j = false) :
    ∃ r, lanesOf m = l :: r := by
  have hfind : (lanesOf m).find? (fun _ => true) = some l :=
    lanesOf_find?_eq_some (mem_lanesOf.mpr ⟨BitVec.lt_of_getLsbD hl, hl⟩) rfl fun j hj _ => by
      by_contra hlt
      have := hmin j (by omega)
      rw [(mem_lanesOf.mp hj).2] at this
      cases this
  cases h : lanesOf m with
  | nil => rw [h] at hfind; cases hfind
  | cons a r =>
    rw [h, List.find?_cons_of_pos rfl] at hfind
    exact ⟨r, by rw [Option.some.inj hfind]⟩

theorem exits : Rules.Exits := by
  intro s e f hi live stored done
  have hnil (h : e.wave.gangParked = 0) : lanesOf e.wave.gangParked = [] := by
    rw [h]
    rfl
  refine ⟨fun l hl hmin => ?_, fun hgang hlive => ?_, fun hgang hlive hidle => ?_⟩
  · obtain ⟨r, hr⟩ := lanesOf_eq_cons hl hmin
    exact issue_trap hi rfl (by rw [hr])
  · refine issue_writes hi rfl ?_
    rw [hnil hgang]
    exact if_neg hlive
  · refine issue_writes hi rfl ?_
    rw [hnil hgang]
    exact (if_pos hlive).trans (if_pos hidle)

/-- Settles O21: a transfer's targets lane by lane, and EXIT by its gang-parked and remaining lanes. -/
theorem controlTransfers : Obligations.ControlTransfers := ⟨branches, exits⟩

end Sys2Proof.Machine
end

