-- ==== Sys2Proof/Proofs/Accesses.lean ====
section
/-!
PROOFS. Loads, stores, atomics and coordinate accesses (O22): one shape, the checks of the lanes and then the accesses.
-/

namespace Sys2Proof.Machine

variable {s : State} {e : Env} {f : MFmt} {i : Instr}

/-! ## The checks of the lanes -/

/-- What follows the checks of the lanes: the trap of the lowest that fails, or the effect of the accesses. -/
def checkedAct (xs : List (Except (Nat × DWord) Acc)) (k : List Acc → Act) : Act :=
  match checkAll xs with
  | .error (c, v) => .trap c v
  | .ok accs => k accs

/-- The first error, or every value. -/
def allOk {ε α : Type} (xs : List (Except ε α)) : Except ε (List α) :=
  xs.foldr (fun x r =>
    match x with
    | .error c => .error c
    | .ok a => match r with
      | .error c => .error c
      | .ok l => .ok (a :: l)) (.ok [])

theorem allOk_map_ok {ε α : Type} (xs : List α) : allOk (xs.map (Except.ok (ε := ε))) = .ok xs := by
  induction xs with
  | nil => rfl
  | cons a r ih =>
    unfold allOk at ih ⊢
    rw [List.map_cons, List.foldr_cons, ih]

theorem allOk_map_error {ε α : Type} {ls : List Nat} (hls : ls.Pairwise (· < ·)) {g : Nat → Except ε α} {l : Nat} (hl : l ∈ ls)
    {x : ε} (hx : g l = .error x) (hok : ∀ j ∈ ls, j < l → ∃ a, g j = .ok a) : allOk (ls.map g) = .error x := by
  induction ls with
  | nil => cases hl
  | cons m r ih =>
    obtain ⟨hm, hr⟩ := List.pairwise_cons.mp hls
    obtain rfl | hl := List.mem_cons.mp hl
    · rw [List.map_cons, hx]
      rfl
    · obtain ⟨a, ha⟩ := hok m (List.mem_cons_self ..) (hm l hl)
      have hrest := ih hr hl fun j hj => hok j (List.mem_cons_of_mem _ hj)
      rw [List.map_cons, ha]
      unfold allOk at hrest ⊢
      rw [List.foldr_cons, hrest]

theorem checkAll_eq_allOk (xs : List (Except (Nat × DWord) Acc)) : checkAll xs = allOk xs := by
  rw [checkAll, allOk]
  congr 1
  funext x r
  cases x <;> cases r <;> rfl

theorem checkedAct_ok {xs : List (Except (Nat × DWord) Acc)} {accs : List Acc} (h : xs = accs.map Except.ok) (k : List Acc → Act) :
    checkedAct xs k = k accs := by
  rw [checkedAct, h, checkAll_eq_allOk, allOk_map_ok]

theorem checkedAct_error {ls : List Nat} (hls : ls.Pairwise (· < ·)) {g : Nat → Except (Nat × DWord) Acc} {l : Nat} (hl : l ∈ ls)
    {c : Nat} {v : DWord} (hx : g l = .error (c, v)) (hok : ∀ j ∈ ls, j < l → ∃ a, g j = .ok a) (k : List Acc → Act) :
    checkedAct (ls.map g) k = .trap c v := by
  rw [checkedAct, checkAll_eq_allOk, allOk_map_error hls hl hx hok]

/-! ## The effect of checked accesses -/

theorem foldl_setLane_getLsbD (accs : List Acc) (m : LaneMask) {l : Nat} (hl : l < 96) :
    (accs.foldl (fun m a => setLane m a.lane true) m).getLsbD l = (m.getLsbD l || accs.any fun a => a.lane == l) := by
  induction accs generalizing m with
  | nil => simp
  | cons a r ih =>
    rw [List.foldl_cons, ih, List.any_cons, setLane, if_pos rfl, BitVec.getLsbD_or, BitVec.getLsbD_ofNat, Nat.testBit_two_pow,
      decide_eq_true hl, Bool.true_and, Bool.or_assoc]
    rfl

/-- The lanes of accesses. -/
theorem accMask_getLsbD (accs : List Acc) {l : Nat} (hl : l < 96) : (accMask accs).getLsbD l = accs.any fun a => a.lane == l := by
  rw [accMask, foldl_setLane_getLsbD accs 0 hl]
  simp

/-- The state in which the lanes make their accesses: the checked entries held, after a release and with an acquire (R190). -/
def Env.ready (e : Env) (s : State) (f : MFmt) (accs : List Acc) : State :=
  let s1 := s.fillObjects e.core accs
  let s2 := if f.order.getLsbD 1 then s1.release e.core e.wk e.who.slices f.scope else s1
  if f.order.getLsbD 0 then s2.acquireAct e.core f.scope else s2

theorem accessAct_eq (hord : memOrder i = (f.order, f.scope)) {accs : List Acc} (hfollow : e.mustFollow s (memOrder i).1 accs = none) :
    e.accessAct i s accs =
      let r := runLanes e.who i (e.ready s f accs) accs
      if r.left.isEmpty && r.late.isEmpty then .writes r.s r.ws .none
      else
        let unfinished := r.left ++ r.late.map fun x => x.1
        let p := { e.pendingOf e.wave i .access (accMask unfinished) unfinished [] .none with writes := [] }
        match worstLate r.late with
        | some (a, c) => .late (r.s.regsNow e.wk r.ws) p c (accTval a)
        | none => .access (r.s.regsNow e.wk r.ws) p := by
  rw [hord] at hfollow
  simp only [Env.accessAct, hord, hfollow]
  rfl

/-- Accesses that pass their checks complete, or park the lanes that could not. -/
theorem accessed {body : Env → State → Act} (hi : s.Issues e i) (hg : Instr.gangPoint i = false)
    (hord : memOrder i = (f.order, f.scope)) {accs : List Acc} (hfollow : e.mustFollow s (memOrder i).1 accs = none)
    (hexec : exec i s = issue i body s) (hb : body e s = e.accessAct i s accs) :
    Rules.Accessed s e i (runLanes e.who i (e.ready s f accs) accs) := by
  rw [accessAct_eq hord hfollow] at hb
  generalize runLanes e.who i (e.ready s f accs) accs = r at hb
  intro hlate
  rw [hexec]
  refine ⟨fun hleft => ?_, fun hleft => ?_⟩
  · simp only [hleft, hlate, List.isEmpty_nil, Bool.and_self, if_true] at hb
    exact issue_writes hi hg hb
  · have hne : r.left.isEmpty = false := by simpa using hleft
    simp only [hne, hlate, List.map_nil, List.append_nil, Bool.false_and, Bool.false_eq_true, if_false] at hb
    exact ⟨_, rfl, rfl, rfl, rfl, rfl, rfl, rfl, fun l hl => accMask_getLsbD _ hl, issue_access hi hg hb⟩

/-! ## The instructions -/

/-- Instruction i of format f checks the lanes of a list and then has the effect k. -/
structure IsChecked (s : State) (e : Env) (f : MFmt) (i : Instr) (ls : List Nat) (g : Nat → Except (Nat × DWord) Acc)
    (k : List Acc → Act) : Prop where
  body : ∃ body : Env → State → Act, exec i s = issue i body s ∧ body e s = checkedAct (ls.map g) k
  gangPoint : Instr.gangPoint i = false
  order : memOrder i = (f.order, f.scope)
  ascending : ls.Pairwise (· < ·)

theorem IsChecked.trapped {ls : List Nat} {g : Nat → Except (Nat × DWord) Acc} {k : List Acc → Act} (h : IsChecked s e f i ls g k)
    (hi : s.Issues e i) {l : Nat} (hl : l ∈ ls) {c : Nat} {v : DWord} (hx : g l = .error (c, v))
    (hok : ∀ j ∈ ls, j < l → ∃ a, g j = .ok a) : exec i s = .next (s.trapped e c v) := by
  obtain ⟨body, hexec, hb⟩ := h.body
  rw [hexec]
  exact issue_trap hi h.gangPoint (hb.trans (checkedAct_error h.ascending hl hx hok k))

theorem IsChecked.accessed {ls : List Nat} {g : Nat → Except (Nat × DWord) Acc} {k : List Acc → Act} (h : IsChecked s e f i ls g k)
    (hi : s.Issues e i) {accs : List Acc} (haccs : ls.map g = accs.map Except.ok) (hk : k accs = e.accessAct i s accs)
    (hfollow : e.mustFollow s (memOrder i).1 accs = none) : Rules.Accessed s e i (runLanes e.who i (e.ready s f accs) accs) := by
  obtain ⟨body, hexec, hb⟩ := h.body
  exact Machine.accessed hi h.gangPoint h.order hfollow hexec (hb.trans ((checkedAct_ok haccs k).trans hk))

/-- An update's effect without deterministic mode, or with the token and an empty log (R374). -/
theorem commit_eq_accessAct {returns : Bool} (he : s.env i = some e) (h : e.launch.det = false ∨ Rules.hasToken e) (accs : List Acc) :
    e.commit i returns s accs = e.accessAct i s accs := by
  obtain ⟨-, -, -, hwg, hla, -⟩ := State.env_some he
  cases hdet : e.launch.det with
  | false => simp only [Env.commit, hdet, Bool.not_false, if_true]
  | true =>
    obtain ⟨htoken, hlog⟩ := h.resolve_left (by simp [hdet])
    have happly : s.applyLog e.wave.wg = s := by
      simp only [State.applyLog, hwg, hla, hlog, List.isEmpty_nil, Bool.not_true, Bool.and_false, Bool.false_eq_true, if_false]
    simp only [Env.commit, hdet, happly, hwg, htoken, hlog, List.isEmpty_nil, Bool.not_true, Bool.false_eq_true, if_false, and_self, if_true]

/-- Elements whose type SIZE fits are accesses. -/
theorem elements_eq {xs : List (Except (Nat × DWord) Acc)} : e.elements i f s xs = checkedAct xs fun accs =>
    if accs.any fun a => !sizeFits (s.tensor a.entry).etype f.size then .trap 0x40 (illegalVal i.word 0x27) else e.accessAct i s accs := rfl

theorem atomBytes_eq (size : BitVec 3) : atomBytes size = if size.toNat = 3 ∨ size.toNat = 7 then 8 else if size.toNat = 5 then 32 else 4 := by
  revert size
  decide

/-- The checks of an atomic in a lane, without or with a result (R210). -/
def Env.atomAcc (e : Env) (s : State) (f : MFmt) (fl returns : Bool) (x c : Operand) (l : Nat) : Except (Nat × DWord) Acc :=
  e.byteAcc s f 0 (if returns then needRA else needA) .store (atomBytes f.size) l (e.atomData f fl x l) (e.atomData f fl c l)

theorem isChecked_atomOp {fl returns : Bool} {x c : Operand} (hexec : exec i s = issue i (atomOp i f fl returns x c) s)
    (hg : Instr.gangPoint i = false) (hord : memOrder i = (f.order, f.scope)) :
    IsChecked s e f i (lanesOf e.lanes) (e.atomAcc s f fl returns x c) (e.commit i returns s) :=
  ⟨⟨_, hexec, rfl⟩, hg, hord, pairwise_lanesOf _⟩

/-- The form without a result where the second operand is absent, else that with one. -/
def Env.formAcc (e : Env) (s : State) (f : MFmt) (fl : Bool) (l : Nat) : Except (Nat × DWord) Acc :=
  if f.immOp = .none then e.atomAcc s f fl false f.data .none l else e.atomAcc s f fl true f.immOp .none l

theorem isChecked_atomForm {fl : Bool} (hexec : exec i s = issue i (atomForm i f fl) s) (hg : Instr.gangPoint i = false)
    (hord : memOrder i = (f.order, f.scope)) :
    IsChecked s e f i (lanesOf e.lanes) (e.formAcc s f fl) (e.commit i (f.immOp != .none) s) := by
  unfold atomForm at hexec
  by_cases h : f.immOp = .none
  · have hret : (f.immOp != .none) = false := by simp [h]
    rw [if_pos h] at hexec
    simp only [funext fun l => show e.formAcc s f fl l = _ from if_pos h, hret]
    exact isChecked_atomOp hexec hg hord
  · have hret : (f.immOp != .none) = true := by simp [h]
    rw [if_neg h] at hexec
    simp only [funext fun l => show e.formAcc s f fl l = _ from if_neg h, hret]
    exact isChecked_atomOp hexec hg hord

/-! ## The rules -/

/-- Instruction i checks the lanes of a list, and where all pass and it is neither an update without the token nor a coordinate access
of another size, its effect is the accesses. -/
def isMemoryAccess (s : State) (e : Env) (f : MFmt) (p : Instr × List Nat × (Nat → Except (Nat × DWord) Acc)) : Prop :=
  ∃ k, IsChecked s e f p.1 p.2.1 p.2.2 k ∧ ∀ accs : List Acc,
    e.launch.det = false ∨ Rules.hasToken e ∨ p.1 ∈ [.ld f, .st f, .sld f, .sst f, .tld f, .tst f] →
    (p.1 ∈ [.tld f, .tst f] → ∀ a ∈ accs, sizeFits (s.tensor a.entry).etype f.size = true) → k accs = e.accessAct p.1 s accs

theorem isMemoryAccess_plain {ls : List Nat} {g : Nat → Except (Nat × DWord) Acc}
    (hexec : ∃ body, exec i s = issue i body s ∧ body e s = checkedAct (ls.map g) (e.accessAct i s)) (hg : Instr.gangPoint i = false)
    (hord : memOrder i = (f.order, f.scope)) (hls : ls.Pairwise (· < ·)) : isMemoryAccess s e f (i, ls, g) :=
  ⟨_, ⟨hexec, hg, hord, hls⟩, fun _ _ _ => rfl⟩

theorem isMemoryAccess_elements {g : Nat → Except (Nat × DWord) Acc} (hi : i ∈ [.tld f, .tst f])
    (hexec : ∃ body, exec i s = issue i body s ∧ body e s = e.elements i f s ((lanesOf e.lanes).map g)) (hg : Instr.gangPoint i = false)
    (hord : memOrder i = (f.order, f.scope)) : isMemoryAccess s e f (i, lanesOf e.lanes, g) := by
  obtain ⟨body, hexec, hb⟩ := hexec
  refine ⟨_, ⟨⟨body, hexec, hb.trans elements_eq⟩, hg, hord, pairwise_lanesOf _⟩, fun accs _ hfits => ?_⟩
  have hany : (accs.any fun a => !sizeFits (s.tensor a.entry).etype f.size) = false := by
    rw [List.any_eq_false]
    intro a ha
    simp [hfits hi a ha]
  simp only [hany, Bool.false_eq_true, if_false]

theorem isMemoryAccess_update {g : Nat → Except (Nat × DWord) Acc} {returns : Bool} (he : s.env i = some e)
    (hne : i ∉ [.ld f, .st f, .sld f, .sst f, .tld f, .tst f])
    (h : IsChecked s e f i (lanesOf e.lanes) g (e.commit i returns s)) : isMemoryAccess s e f (i, lanesOf e.lanes, g) :=
  ⟨_, h, fun accs hdet _ => commit_eq_accessAct he (hdet.imp_right fun h => h.resolve_right hne) accs⟩

theorem formAcc_eq (fl : Bool) : e.formAcc s f fl = fun l =>
    if f.immOp = .none then e.byteAcc s f 0 needA .store (if f.size.toNat = 3 ∨ f.size.toNat = 7 then 8 else if f.size.toNat = 5 then 32 else 4)
      l (e.atomData f fl f.data l) (e.atomData f fl .none l)
    else e.byteAcc s f 0 needRA .store (if f.size.toNat = 3 ∨ f.size.toNat = 7 then 8 else if f.size.toNat = 5 then 32 else 4)
      l (e.atomData f fl f.immOp l) (e.atomData f fl .none l) := by
  funext l
  simp only [Env.formAcc, Env.atomAcc, atomBytes_eq, if_true, Bool.false_eq_true, if_false]

theorem memoryAccesses : Rules.MemoryAccesses := by
  intro s e f ls size load store width atom form element put p hp hi
  have hform (fl : Bool) : form fl = e.formAcc s f fl := (formAcc_eq fl).symm
  have hatom (fl returns : Bool) (x c : Operand) : atom fl returns x c = e.atomAcc s f fl returns x c := by
    funext l
    simp only [Env.atomAcc, atomBytes_eq, atom, width]
  have haccess : isMemoryAccess s e f p := by
    have hls : ls.Pairwise (· < ·) := pairwise_lanesOf _
    have hfirst : [e.first].Pairwise (· < ·) := List.pairwise_singleton ..
    simp only [hform, hatom, List.mem_cons, List.not_mem_nil, or_false] at hp
    obtain rfl | rfl | rfl | rfl | rfl | rfl | rfl | rfl | rfl | rfl | rfl | rfl | rfl | rfl | rfl | rfl := hp
    · exact isMemoryAccess_plain ⟨_, rfl, rfl⟩ rfl rfl hls
    · exact isMemoryAccess_plain ⟨_, rfl, rfl⟩ rfl rfl hls
    · exact isMemoryAccess_plain ⟨_, rfl, rfl⟩ rfl rfl hfirst
    · exact isMemoryAccess_plain ⟨_, rfl, rfl⟩ rfl rfl hfirst
    · exact isMemoryAccess_elements (by simp) ⟨_, rfl, rfl⟩ rfl rfl
    · exact isMemoryAccess_elements (by simp) ⟨_, rfl, rfl⟩ rfl rfl
    iterate 8 exact isMemoryAccess_update hi.1 (by simp) (isChecked_atomForm rfl rfl rfl)
    iterate 2 exact isMemoryAccess_update hi.1 (by simp) (isChecked_atomOp rfl rfl rfl)
  obtain ⟨k, hchecked, hk⟩ := haccess
  exact ⟨fun l hl c v hx hok => hchecked.trapped hi hl hx hok,
    fun accs haccs hdet hfits hfollow => hchecked.accessed hi haccs (hk accs hdet hfits) hfollow⟩

/-- With room in the CLOG object an update's entries are written there (R374). -/
theorem logUpdate_eq {accs : List Acc}
    (hneeds : s.logNeeds e.core e.launch.dom e.launch (e.launch.logPlace e.wg) (logBytes i accs.length) = []) (batch : Option Word) :
    e.logUpdate i s e.wg accs batch = .writes (s.logged e i accs batch (logBytes i accs.length)) [] .none := by
  simp only [Env.logUpdate, hneeds, List.isEmpty_nil, Bool.not_true, Bool.false_eq_true, if_false]
  rfl

/-! ## Deterministic mode without the token (R374) -/

section
variable {returns : Bool} (he : s.env i = some e) (htoken : e.launch.token ≠ e.launch.keyOf e.wg)
include he htoken

/-- Without the token the workgroup's log stays as it is. -/
theorem applyLog_eq_self : s.applyLog e.wave.wg = s := by
  obtain ⟨-, -, -, hwg, hla, -⟩ := State.env_some he
  simp only [State.applyLog, hwg, hla, htoken, decide_false, Bool.and_false, Bool.false_and, Bool.false_eq_true, if_false]

theorem commit_hold (hdet : e.launch.det = true) {accs : List Acc} (h : returns = true ∨ e.launch.clogLen < e.wg.logUsed + logBytes i accs.length) :
    e.commit i returns s accs = .hold s .token := by
  obtain ⟨-, -, -, hwg, hla, -⟩ := State.env_some he
  have hwaits : (returns || decide (e.launch.clogLen < e.wg.logUsed + logBytes i accs.length) || e.launch.token == e.launch.keyOf e.wg) = true := by
    simp only [Bool.or_eq_true, decide_eq_true_eq]
    exact .inl h
  simp only [Env.commit, hdet, applyLog_eq_self he htoken, hwg, htoken, hwaits, Bool.not_true, Bool.false_eq_true, if_false, false_and,
    if_true]

theorem commit_logged (hdet : e.launch.det = true) {accs : List Acc} (hret : returns = false) (hroom : e.wg.logUsed + logBytes i accs.length ≤ e.launch.clogLen)
    (hfollow : e.followsOps s (memOrder i).1 accs = none)
    (hneeds : s.logNeeds e.core e.launch.dom e.launch (e.launch.logPlace e.wg) (logBytes i accs.length) = [])
    (hdrain : ∀ g, i ≠ .drainAdd g) : e.commit i returns s accs = .writes (s.logged e i accs none (logBytes i accs.length)) [] .none := by
  obtain ⟨-, -, -, hwg, hla, -⟩ := State.env_some he
  have hfits : (returns || decide (e.launch.clogLen < e.wg.logUsed + logBytes i accs.length) || e.launch.token == e.launch.keyOf e.wg) = false := by
    simp [hret, htoken, hroom]
  simp only [Env.commit, hdet, applyLog_eq_self he htoken, hwg, htoken, hfits, hfollow, Bool.not_true, Bool.false_eq_true, if_false, false_and]
  exact logUpdate_eq hneeds none

end

theorem deterministicUpdates : Rules.DeterministicUpdates := by
  intro s e f width atom form back p hp accs hi hdet htoken haccs n
  have hform (fl : Bool) : form fl = e.formAcc s f fl := (formAcc_eq fl).symm
  have hatom (fl returns : Bool) (x c : Operand) : atom fl returns x c = e.atomAcc s f fl returns x c := by
    funext l
    simp only [Env.atomAcc, atomBytes_eq, atom, width]
  have hcommit : IsChecked s e f p.1 (lanesOf e.lanes) p.2.2.2 (e.commit p.1 p.2.2.1 s) ∧ logBytes p.1 accs.length = n ∧ ∀ g, p.1 ≠ .drainAdd g := by
    have hupdate {fl : Bool} {i : Instr} (hexec : exec i s = issue i (atomForm i f fl) s) (hg : Instr.gangPoint i = false)
        (hord : memOrder i = (f.order, f.scope)) (hn : logBytes i accs.length = 32 * accs.length) (hdrain : ∀ g, i ≠ .drainAdd g) :
        IsChecked s e f i (lanesOf e.lanes) (e.formAcc s f fl) (e.commit i back s) ∧ logBytes i accs.length = 32 * accs.length ∧
          ∀ g, i ≠ .drainAdd g := ⟨isChecked_atomForm hexec hg hord, hn, hdrain⟩
    simp only [hform, hatom, List.mem_cons, List.not_mem_nil, or_false] at hp
    obtain rfl | rfl | rfl | rfl | rfl | rfl | rfl | rfl | rfl | rfl := hp
    iterate 8 exact hupdate rfl rfl rfl rfl (fun _ => nofun)
    · exact ⟨isChecked_atomOp rfl rfl rfl, rfl, fun _ => nofun⟩
    · exact ⟨isChecked_atomOp rfl rfl rfl, rfl, fun _ => nofun⟩
  obtain ⟨hchecked, hn, hdrain⟩ := hcommit
  obtain ⟨body, hexec, hb⟩ := hchecked.body
  rw [checkedAct_ok haccs] at hb
  rw [hexec]
  refine ⟨fun hwait => ?_, fun hret hroom hfollow hneeds => ?_⟩
  · exact issue_hold hi hchecked.gangPoint (hb.trans (commit_hold hi.1 htoken hdet (by rwa [hn])))
  · refine issue_writes hi hchecked.gangPoint (hb.trans ?_)
    rw [← hn] at hroom hneeds ⊢
    exact commit_logged hi.1 htoken hdet hret hroom hfollow hneeds hdrain

/-- Settles O22: the lanes' checks first, then the accesses, or in deterministic mode the token or the log. -/
theorem accesses : Obligations.Accesses := ⟨memoryAccesses, deterministicUpdates⟩

end Sys2Proof.Machine
end

