-- ==== Sys2Proof/Proofs/Caching.lean ====
section
/-!
What the caches of R183 and R184 do to memory: only the write-back of a dirty line changes a byte, and everything else that a
load or a store does to them leaves memory as it is. Settles O23 and O24.
-/

namespace Sys2Proof.Machine

theorem foldl_related {α β : Type} {R : β → β → Prop} (f : β → α → β) (refl : ∀ b, R b b)
    (trans : ∀ a b c, R a b → R b c → R a c) (l : List α) (step : ∀ b, ∀ a ∈ l, R b (f b a)) (b : β) : R b (l.foldl f b) := by
  induction l generalizing b with
  | nil => exact refl b
  | cons a l ih =>
    exact trans _ _ _ (step b a List.mem_cons_self) (ih (fun b a h => step b a (List.mem_cons_of_mem _ h)) _)

theorem foldl_keeps {α β γ : Type} (g : β → γ) (f : β → α → β) (l : List α) (step : ∀ b, ∀ a ∈ l, g (f b a) = g b) (b : β) :
    g (l.foldl f b) = g b := by
  induction l generalizing b with
  | nil => rfl
  | cons a l ih =>
    exact (ih (fun b a h => step b a (List.mem_cons_of_mem _ h)) _).trans (step b a List.mem_cons_self)

/-! ## Changes to the caches, and to memory -/

/-- Only caches, their tags and the poison of memory differ. -/
def State.Recached (s t : State) : Prop :=
  ∃ r l p c x, t = { s with rdc := r, l2 := l, poison := p, l1 := c, texel := x }

/-- Only memory and its poison differ. -/
def State.Rewritten (s t : State) : Prop := ∃ m h p, t = { s with mem := m, hostMem := h, poison := p }

theorem State.Recached.refl (s : State) : s.Recached s := ⟨_, _, _, _, _, rfl⟩
theorem State.Recached.trans {s t u : State} : s.Recached t → t.Recached u → s.Recached u
  | ⟨_, _, _, _, _, h⟩, ⟨_, _, _, _, _, h'⟩ => by subst h h'; exact ⟨_, _, _, _, _, rfl⟩
theorem State.Rewritten.refl (s : State) : s.Rewritten s := ⟨_, _, _, rfl⟩
theorem State.Rewritten.trans {s t u : State} : s.Rewritten t → t.Rewritten u → s.Rewritten u
  | ⟨_, _, _, h⟩, ⟨_, _, _, h'⟩ => by subst h h'; exact ⟨_, _, _, rfl⟩

theorem State.Recached.byte {s t : State} (h : s.Recached t) (b : Nat) : t.byte b = s.byte b := by
  obtain ⟨_, _, _, _, _, rfl⟩ := h; rfl
theorem State.Recached.storeQ {s t : State} (h : s.Recached t) : t.storeQ = s.storeQ := by
  obtain ⟨_, _, _, _, _, rfl⟩ := h; rfl
theorem State.Recached.waves {s t : State} (h : s.Recached t) : t.waves = s.waves := by
  obtain ⟨_, _, _, _, _, rfl⟩ := h; rfl
theorem State.Recached.bar0 {s t : State} (h : s.Recached t) : t.bar0 = s.bar0 := by
  obtain ⟨_, _, _, _, _, rfl⟩ := h; rfl
theorem State.Recached.launches {s t : State} (h : s.Recached t) : t.launches = s.launches := by
  obtain ⟨_, _, _, _, _, rfl⟩ := h; rfl

theorem State.setByte_rewritten (s : State) (a : Nat) (x : Byte) : s.Rewritten (s.setByte a x) := by
  unfold State.setByte
  split
  · exact ⟨_, _, _, rfl⟩
  · exact ⟨_, _, _, rfl⟩

/-! ## The write-back of lines -/

/-- The line holds the byte at an address and is dirty. -/
def holdsDirty (x : Nat × Line) (b : Nat) : Prop := x.2.dirty ≠ 0 ∧ x.1 = lineOf b

/-- One step of a write-back: byte i of the line. -/
def State.flushByte (x : Nat × Line) (s : State) (i : Nat) : State :=
  let m : Nibbles := x.2.dirty.extractLsb' (2 * i) 2
  let a := 128 * x.1 + i
  if m = 0 then s else s.setByte a (mixNibbles m (s.byte a) (x.2.bytes.getD i 0))

/-- One step of a write-back: the poison of sector i of the line. -/
def State.flushPoison (x : Nat × Line) (s : State) (i : Nat) : State :=
  let d : DWord := x.2.dirty.extractLsb' (64 * i) 64
  let k := 4 * x.1 + i
  if d = 0 then s
  else if x.2.bad.getLsbD i then { s with poison := s.poison.insert k ((s.poison.find? k).getD 0) }
  else if d = BitVec.allOnes 64 then { s with poison := s.poison.erase k }
  else s

theorem State.flushLine_eq (s : State) (x : Nat × Line) :
    s.flushLine x = (List.range 4).foldl (State.flushPoison x) ((List.range 128).foldl (State.flushByte x) s) := rfl

theorem State.flushByte_rewritten (x : Nat × Line) (s : State) (i : Nat) : s.Rewritten (s.flushByte x i) := by
  simp only [State.flushByte]
  split
  · exact .refl s
  · exact s.setByte_rewritten _ _

theorem State.flushPoison_recached (x : Nat × Line) (s : State) (i : Nat) : ∃ p, s.flushPoison x i = { s with poison := p } := by
  simp only [State.flushPoison]
  split_ifs <;> exact ⟨_, rfl⟩

theorem State.flushPoisons_recached (x : Nat × Line) (s : State) (l : List Nat) :
    ∃ p, l.foldl (State.flushPoison x) s = { s with poison := p } :=
  foldl_related (R := fun s t => ∃ p, t = { s with poison := p }) _ (fun _ => ⟨_, rfl⟩)
    (fun _ _ _ ⟨_, h⟩ ⟨_, h'⟩ => by subst h h'; exact ⟨_, rfl⟩) l (fun s i _ => s.flushPoison_recached x i) s

theorem State.flushLine_rewritten (s : State) (x : Nat × Line) : s.Rewritten (s.flushLine x) := by
  rw [State.flushLine_eq]
  obtain ⟨p, h⟩ := State.flushPoisons_recached x ((List.range 128).foldl (State.flushByte x) s) (List.range 4)
  rw [h]
  exact .trans (foldl_related _ Rewritten.refl (fun _ _ _ => Rewritten.trans) _ (fun t i _ => t.flushByte_rewritten x i) s)
    ⟨_, _, _, rfl⟩

/-- A line's write-back changes no byte of another line. -/
theorem State.flushLine_byte (s : State) (x : Nat × Line) (b : Nat) (h : x.1 ≠ lineOf b) :
    (s.flushLine x).byte b = s.byte b := by
  rw [State.flushLine_eq]
  obtain ⟨p, hp⟩ := State.flushPoisons_recached x ((List.range 128).foldl (State.flushByte x) s) (List.range 4)
  rw [hp]
  refine foldl_keeps (fun s => s.byte b) (State.flushByte x) (List.range 128) (fun t i hi => ?_) s
  have hi := List.mem_range.1 hi
  simp only [State.flushByte]
  split
  · rfl
  · refine State.setByte_byte_other _ _ _ _ fun hb => h ?_
    rw [hb, lineOf]; omega

theorem State.flushLines_rewritten (s : State) (ls : List (Nat × Line)) : s.Rewritten (s.flushLines ls) :=
  foldl_related _ Rewritten.refl (fun _ _ _ => Rewritten.trans) _ (fun t x _ => t.flushLine_rewritten x) s

/-- A write-back changes the bytes of dirty lines alone. -/
theorem State.flushLines_byte (s : State) (ls : List (Nat × Line)) (b : Nat) (h : ∀ x ∈ ls, ¬ holdsDirty x b) :
    (s.flushLines ls).byte b = s.byte b := by
  refine foldl_keeps (fun s => s.byte b) State.flushLine _ (fun t x hx => t.flushLine_byte x b fun hb => ?_) s
  obtain ⟨hx, hd⟩ := List.mem_filter.1 hx
  exact h x hx ⟨by simpa using hd, hb⟩

/-- A write-back of clean lines does nothing. -/
theorem State.flushLines_clean (s : State) (ls : List (Nat × Line)) (h : ∀ x ∈ ls, x.2.dirty = 0) : s.flushLines ls = s := by
  rw [State.flushLines, List.filter_eq_nil_iff.2 (fun x hx => by simp [h x hx])]
  rfl

/-! ## Fills, tags and the directory -/

theorem fillLine_dropped {sets ways n : Nat} {ls : List (Nat × Line)} {l : Line} {x : Nat × Line}
    (h : x ∈ (fillLine sets ways ls n l).2) : x ∈ ls ∨ x = (n, l) := by
  simp only [fillLine] at h
  split at h
  · split at h
    · cases h
    · rw [List.partition_eq_filter_filter] at h
      obtain ⟨h, -⟩ := List.mem_filter.1 h
      obtain h | h := List.mem_append.1 h
      · exact .inl (List.mem_filter.1 h).1
      · exact .inr (List.mem_singleton.1 h)
  · cases h

theorem State.noteL2_recached (s : State) (w : Bool) (a : Nat) : s.Recached (s.noteL2 w a) := by
  simp only [State.noteL2]
  split
  · exact .refl s
  · exact ⟨_, _, _, _, _, rfl⟩

theorem State.homeWritten_recached (s : State) (k : Option Nat) (a n : Nat) : s.Recached (s.homeWritten k a n) := by
  refine foldl_related _ Recached.refl (fun _ _ _ => Recached.trans) _ (fun t i _ => ?_) s
  dsimp only
  split
  · exact .refl t
  · exact .trans ⟨_, _, _, _, _, rfl⟩ (State.noteL2_recached _ _ _)

theorem State.fillRemote_cases (s : State) (die a : Nat) :
    s.fillRemote die a = s ∨ ∃ r ls, s.fillRemote die a = { s with rdc := r }.flushLines ls ∧
      ∀ x ∈ ls, x ∈ SMap.get [] s.rdc die ∨ x.2.dirty = 0 := by
  simp only [State.fillRemote]
  split
  · refine .inr ⟨_, _, rfl, fun x hx => (fillLine_dropped hx).imp_right ?_⟩
    rintro rfl
    split <;> rfl
  · exact .inl rfl

/-- Only the dirty lines of the remote data cache may be written back where a line is brought in. -/
theorem State.fillRemote_byte (s : State) (die a b : Nat) (h : ∀ x ∈ SMap.get [] s.rdc die, ¬ holdsDirty x b) :
    (s.fillRemote die a).byte b = s.byte b := by
  obtain h' | ⟨r, ls, h', hls⟩ := s.fillRemote_cases die a
  · rw [h']
  · rw [h']
    exact State.flushLines_byte { s with rdc := r } ls b fun x hx hd => (hls x hx).elim (fun hm => h x hm hd) hd.1

theorem State.fillRemote_keeps {α : Type} (g : State → α) (hr : ∀ s t, State.Rewritten s t → g t = g s)
    (hc : ∀ s t, State.Recached s t → g t = g s) (s : State) (die a : Nat) : g (s.fillRemote die a) = g s := by
  obtain h' | ⟨r, ls, h', -⟩ := s.fillRemote_cases die a
  · rw [h']
  · rw [h', hr _ _ (State.flushLines_rewritten _ ls), hc s _ ⟨_, _, _, _, _, rfl⟩]

/-! ## What an access notes -/

theorem State.noteUse_eq (s : State) (w : Who) (a : Acc)
    (h : ∀ la, s.launches.find? w.launch = some la → la.ranges = []) : ∃ u, s.noteUse w a false = { s with useOrder := u } := by
  have touched : ∃ u, (s.accGranules a).foldl (fun s g => s.touch a.dom.toNat (refIndex a.ref) g) s = { s with useOrder := u } :=
    foldl_related (R := fun s t => ∃ u, t = { s with useOrder := u }) _ (fun _ => ⟨_, rfl⟩)
      (fun _ _ _ ⟨_, h⟩ ⟨_, h'⟩ => by subst h h'; exact ⟨_, rfl⟩) _ (fun s g _ => ⟨_, rfl⟩) s
  obtain ⟨u, hu⟩ := touched
  simp only [State.noteUse, Bool.false_eq_true, if_false, hu]
  split
  · exact ⟨u, rfl⟩
  · refine ⟨u, ?_⟩
    rw [State.countRange]
    cases hl : s.launches.find? w.launch with
    | none => rfl
    | some la => simp [Launch.rangeOf, h la hl]

theorem State.reach_place {s : State} {w : Who} {a : Acc} {write : Bool} {p nib : Nat} (go : State → Nat → Nat → AccOut)
    (hu : s.unreadable a = false) (hp : s.accPlace a = some (p, nib)) (hb : p < hostBase) :
    s.reach w a write go = go (s.noteUse w a false) p nib := by
  have h : s.reaches a write = .place p nib := by
    simp [State.reaches, hu, hp, Nat.not_le.2 hb]
  rw [State.reach, h]

/-! ## Loads (R183, R204) -/

theorem not_onOtherPackage {a : Nat} (h : a < 2 ^ 51) : onOtherPackage a = false := by
  rw [onOtherPackage, decide_eq_false_iff_not]; omega

theorem holdsDirty_congr {x : Nat × Line} {a b : Nat} (h : lineOf a = lineOf b) : holdsDirty x a ↔ holdsDirty x b := by
  rw [holdsDirty, holdsDirty, h]

/-- No line that is dirty in a die's remote data cache holds the byte. -/
def State.cleanAt (s : State) (die b : Nat) : Prop := ∀ x ∈ SMap.get [] s.rdc die, ¬ holdsDirty x b

theorem State.loadBytes_fst_byte {s : State} {core p n b : Nat} (hb : s.cleanAt (dieOf core) b) :
    (s.loadBytes core p n).1.byte b = s.byte b := by
  simp only [State.loadBytes]
  split
  · rfl
  · exact ((State.noteL2_recached _ _ _).byte b).trans (s.fillRemote_byte _ _ _ hb)

theorem State.portLine_bytes_getD {s : State} {die a k : Nat} (ha : 128 * lineOf a + k % 128 < 2 ^ 51) :
    (s.portLine die (lineOf a)).bytes.getD (k % 128) 0 = s.byte (128 * lineOf a + k % 128) := by
  have hk : k % 128 < 128 := Nat.mod_lt _ (by decide)
  simp [State.portLine, State.portByte, not_onOtherPackage ha, hk]

/-- A load through an L1 that does not hold the line gives memory's bytes. -/
theorem State.loadBytes_snd {s : State} {core p n : Nat} (hp : p < 2 ^ 51) (hl : p / 128 = (p + n - 1) / 128)
    (h1 : findLine (SMap.get [] s.l1 core) (lineOf p) = none) (hc : s.cleanAt (dieOf core) p) :
    (s.loadBytes core p n).2 = s.bytes p n := by
  simp only [State.loadBytes, h1, State.bytes]
  refine List.map_congr_left fun i hi => ?_
  have hi := List.mem_range.1 hi
  have hq : 128 * lineOf p + (p + i) % 128 = p + i := by rw [lineOf]; omega
  rw [State.portLine_bytes_getD (by rw [hq]; omega), hq, (State.noteL2_recached _ _ _).byte, s.fillRemote_byte]
  exact fun x hx => mt (holdsDirty_congr (by rw [lineOf, lineOf]; omega)).1 (hc x hx)

theorem State.ownByte_eq {s : State} {wk : Nat} {m : SliceMask} (h : ∀ q ∈ s.storeQ, ofSlices wk m q = false) (a : Nat) (b : Byte) :
    s.ownByte wk m a b = b :=
  foldl_keeps id _ s.storeQ (fun b q hq => by simp [h q hq]) b

theorem State.sliceLoad_eq {s : State} {core wk p n : Nat} {m : SliceMask} (h : ∀ q ∈ s.storeQ, ofSlices wk m q = false)
    (hb : (s.loadBytes core p n).2 = s.bytes p n) : s.sliceLoad core wk m p n = ((s.loadBytes core p n).1, s.bytes p n) := by
  simp only [State.sliceLoad, State.ownByte_eq h, hb, Prod.mk.injEq, true_and]
  exact List.map_congr_left fun i hi => by simp [State.bytes, List.mem_range.1 hi]

theorem State.anyBad_eq_false {s : State} {core p n : Nat} (hp : p < 2 ^ 51) (hn : 0 < n) (hl : p / 128 = (p + n - 1) / 128)
    (h1 : findLine (SMap.get [] s.l1 core) (lineOf p) = none) (h : s.anyPoison p n = false) : s.anyBad core p n = false := by
  rw [State.anyBad, List.any_eq_false]
  intro i hi
  have hi' := List.mem_range.1 hi
  have hpoison : ((s.poison.find? ((p + 32 * i) / 32)).isSome || s.lost (p + 32 * i)) = false := by
    simpa [State.poisoned] using List.any_eq_false.1 h i hi
  have hline : lineOf (p + 32 * i) = lineOf p := by simp only [lineOf]; omega
  have hpkg : onOtherPackage (p + 32 * i) = false := not_onOtherPackage (by omega)
  rw [Bool.or_eq_false_iff] at hpoison
  obtain ⟨hfind, hlost⟩ := hpoison
  simp [State.coreBad, hline, h1, State.portPoisoned, hlost, hpkg, hfind]

/-- What a load does in the state that notes it. -/
theorem State.loadAcc_go {t : State} {w : Who} {m : SliceMask} {f : MFmt} {a : Acc} {p : Nat} (hp : p < 2 ^ 51) (hn : 0 < a.size)
    (hl : p / 128 = (p + a.size - 1) / 128) (h1 : findLine (SMap.get [] t.l1 w.core) (lineOf p) = none)
    (hpoison : t.anyPoison p a.size = false) (hq : ∀ q ∈ t.storeQ, ofSlices w.wk m q = false) (hc : t.cleanAt (dieOf w.core) p) :
    (let bad := t.loadBad w m p a.size
     if bad.2 then .late bad.1 .uncorrectable
     else
       let r := bad.1.sliceLoad w.core w.wk m p a.size
       AccOut.done r.1 (loadWrites f.data a.lane f.size r.2)) =
      .done (t.loadBytes w.core p a.size).1 (loadWrites f.data a.lane f.size (t.bytes p a.size)) := by
  have hload : t.loadBad w m p a.size = (t, false) := by
    rw [State.loadBad, State.anyBad_eq_false hp hn hl h1 hpoison]
    rfl
  rw [hload]
  simp only [Bool.false_eq_true, if_false, State.sliceLoad_eq hq (State.loadBytes_snd hp hl h1 hc)]

/-- Settles O23: of what a load does, only the write-back of a dirty line changes memory. -/
theorem loadedValue : Obligations.LoadedValue := by
  intro s w i f a off p hat hu hp hlt hline hn hpoison h1 hq hr dirty hd
  obtain ⟨u, hnote⟩ := s.noteUse_eq w a hr
  have hc {b : Nat} (hb : ¬ dirty b) : s.cleanAt (dieOf w.core) b := fun x hx hd => hb ⟨x, hx, hd⟩
  refine ⟨_, ?_, fun b hb => State.loadBytes_fst_byte (s := { s with useOrder := u }) (p := p) (n := a.size) (hc hb)⟩
  rw [State.loadAcc, State.reach_place _ hu hp (hlt.trans (by decide)), hat, hnote]
  exact State.loadAcc_go (t := { s with useOrder := u }) hlt hn hline h1 hpoison hq (hc hd)

/-! ## Stores (R185, R201) -/

theorem storeIssued : Rules.StoreIssued := by
  intro s w i f a off p hat hu hp hlt hr
  obtain ⟨u, hnote⟩ := s.noteUse_eq w a hr
  refine ⟨({ s with useOrder := u } : State).queueStore ⟨w.wk, w.at i a.lane⟩ w.core (f.order.getLsbD 1) f.scope a, ?_, fun _ => rfl, rfl⟩
  rw [State.storeAcc, State.reach_place _ hu hp hlt, hat, hnote]

/-- A write of whole bytes leaves nothing of the old one. -/
theorem mixNibbles_three (old new : Byte) : mixNibbles 3 old new = new :=
  (BitVec.extractLsb'_append_extractLsb'_eq_extractLsb' (x := new) (by decide)).trans (extractLsb'_whole new)

/-- Bytes of this package, or of the host, are coherent at their home. -/
theorem State.coherentBytes_eq (s : State) (die a : Nat) (bs : List Byte) (h : ∀ j < bs.length, onOtherPackage (a + j) = false) :
    s.coherentBytes die 3 a bs = s.setBytes a bs := by
  induction bs generalizing s a with
  | nil => rfl
  | cons b r ih =>
    have h0 : onOtherPackage a = false := h 0 (Nat.succ_pos _)
    rw [State.coherentBytes, State.coherentByte, h0, if_neg Bool.false_ne_true, mixNibbles_three]
    exact ih _ _ fun j hj => by rw [Nat.add_assoc, Nat.add_comm 1]; exact h (j + 1) (Nat.succ_lt_succ hj)

theorem State.clearPort_recached (s : State) (die a n : Nat) : s.Recached (s.clearPort die a n) := by
  rw [State.clearPort]
  split
  · exact ⟨_, _, _, _, _, rfl⟩
  · exact ⟨_, _, _, _, _, rfl⟩

theorem State.clearUnit_recached (s : State) (die a : Nat) : s.Recached (s.clearUnit die a) := by
  rw [State.clearUnit]
  split
  · exact s.clearPort_recached _ _ _
  · dsimp only
    split
    · exact .trans ⟨_, _, _, _, _, rfl⟩ (State.clearPort_recached _ _ _ _)
    · exact ⟨_, _, _, _, _, rfl⟩

theorem State.patchL1_recached (s : State) (core a n : Nat) : s.Recached (s.patchL1 core a n) := ⟨_, _, _, _, _, rfl⟩

/-- A die's write to this package or to the host is the write of its bytes, and what it does to the caches. -/
theorem State.portNibbles_recached (s : State) (die a : Nat) (bs : List Byte) (h : ∀ j < bs.length, onOtherPackage (a + j) = false) :
    (s.setBytes a bs).Recached (s.portNibbles die a bs 3) := by
  rw [State.portNibbles, s.coherentBytes_eq die a bs h]
  exact (State.homeWritten_recached _ _ _ _).trans (State.clearPort_recached _ _ _ _)

theorem State.performWrite_recached (s : State) (core a : Nat) (bs : List Byte) (h : ∀ j < bs.length, onOtherPackage (a + j) = false)
    (hn : 0 < bs.length) : (s.setBytes a bs).Recached (s.performWrite core a bs) := by
  have h0 : s.lost a = false := by rw [State.lost, ← Nat.add_zero a, h 0 hn]; rfl
  rw [State.performWrite, State.performNibbles, h0, if_neg Bool.false_ne_true]
  exact ((s.portNibbles_recached _ a bs h).trans ⟨_, _, _, _, _, rfl⟩).trans (State.patchL1_recached _ _ _ _)

theorem State.performStore_recached {s : State} {q : PendingStore} {p nib : Nat} (hp : s.accPlace q.acc = some (p, nib))
    (hq : q.nibble = false) (h : ∀ j < q.acc.data.length, onOtherPackage (p + j) = false) (hn : 0 < q.acc.data.length) :
    (s.setBytes p q.acc.data).Recached (s.performStore q) := by
  have ha : s.accAddr q.acc = p := by rw [State.accAddr, hp]
  have hw := s.performWrite_recached q.core p q.acc.data h hn
  simp only [State.performStore, hq, ha, Bool.false_eq_true, if_false]
  split
  · exact (hw.trans (State.clearUnit_recached _ _ _)).trans (State.patchL1_recached _ _ _ _)
  · exact hw

theorem storePerformed : Rules.StorePerformed := by
  intro s n q p nib hq hp hnib hbehind hn hrange
  have hpkg (j : Nat) (hj : j < q.acc.data.length) : onOtherPackage (p + j) = false := by
    rw [onOtherPackage, decide_eq_false_iff_not]; omega
  have hw := State.performStore_recached hp hnib hpkg hn
  have hbyte (b : Nat) := (hw.byte b).trans (State.setBytes_byte s p b q.acc.data)
  refine ⟨{ s.performStore q with storeQ := s.storeQ.eraseIdx n }, ?_, rfl, fun j hj => ?_, fun b hb => ?_, ?_, ?_⟩
  · change execStoreAcknowledge n s = _
    simp [execStoreAcknowledge, hq, State.storeReady, hp, hbehind]
  · refine (hbyte (p + j)).trans ?_
    rw [if_pos (by omega), Nat.add_sub_cancel_left]
  · refine (hbyte b).trans (if_neg (by omega))
  · exact hw.waves.trans (State.setBytes_waves s p _)
  · exact hw.bar0.trans (State.setBytes_bar0 s p _)

/-- Settles O24: a store on its way changes nothing; performed, it is a write of its bytes, and the caches change. -/
theorem stores : Obligations.Stores := ⟨storeIssued, storePerformed⟩

end Sys2Proof.Machine
end

