-- ==== Sys2Proof/Proofs/Atomics.lean ====
section
/-!
The arithmetic of the update units, and the one read and write that an update is. Settles O26.
-/

namespace Sys2Proof.Machine

/-! ## The sum of an update unit (R212) -/

theorem scaled_eq (neg : Bool) (m : Nat) (e q : Int) : scaled neg m e q = (if neg then -1 else 1) * ((m : Int) * 2 ^ (e - q).toNat) := by
  cases neg <;> simp [scaled]

/-- A zero is written with its sign. -/
theorem round_zero (neg : Bool) (e : Int) : (binary32.round false .rne neg ⟨0, e, false⟩).code = if neg then 2 ^ 31 else 0 := by
  have hn : (binary32.roundMag .rne neg ⟨0, e, false⟩).n = 0 := by
    simp only [FFmt.roundMag]
    split <;> simp
  have hle (q : Int) : magLe 0 q binary32.maxMag.1 binary32.maxMag.2 = true := by simp [magLe]
  simp only [FFmt.round, hn, hle]
  cases neg <;> simp [FFmt.encodeMag, FFmt.signBit, binary32]

theorem sum32_eq (a b : Nat) : (binary32.addR false .rne (binary32.decode a) (binary32.decode b)).code = Rules.sum32 a b := by
  rw [FFmt.addR, Rules.sum32]
  cases binary32.decode a with
  | nan => rfl
  | inf s =>
    cases binary32.decode b with
    | nan => rfl
    | inf t => cases s <;> cases t <;> rfl
    | fin t n y => cases s <;> rfl
  | fin s m x =>
    cases binary32.decode b with
    | nan => rfl
    | inf t => cases t <;> rfl
    | fin t n y =>
      simp only [FVal.add, scaled_eq]
      generalize (if s then -1 else 1) * ((m : Int) * 2 ^ (x - min x y).toNat) +
        (if t then -1 else 1) * ((n : Int) * 2 ^ (y - min x y).toNat) = sum
      by_cases h : sum = 0
      · rw [if_pos h, if_pos h]
        refine (round_zero _ _).trans ?_
        cases s <;> cases t <;> rfl
      · rw [if_neg h, if_neg h]
        rfl

/-- A rounded magnitude that is not above the largest has the largest's exponent at most. -/
theorem exponent_le {n : Nat} {q : Int} (h : magLe n q binary32.maxMag.1 binary32.maxMag.2 = true) (hn : 2 ^ 23 ≤ n) :
    q ≤ 104 ∧ (n = 2 ^ 24 → q ≤ 103) := by
  simp only [magLe, show binary32.maxMag = (2 ^ 24 - 1, 104) from by simp [FFmt.maxMag, binary32]] at h
  split at h
  · next hle =>
    refine ⟨hle, fun he => ?_⟩
    by_contra hgt
    obtain rfl : q = 104 := by omega
    simp [he] at h
  · next hlt =>
    obtain ⟨k, hk⟩ : ∃ k, (q - 104).toNat = k + 1 := ⟨(q - 104).toNat - 1, by omega⟩
    rw [hk, pow_succ, decide_eq_true_eq] at h
    exact absurd ((Nat.mul_le_mul hn (Nat.mul_le_mul_right 2 Nat.one_le_two_pow)).trans h) (by norm_num)

theorem encodeMag_eq (neg : Bool) (n : Nat) (q : Int) :
    binary32.encodeMag neg n q = if n = 2 ^ 24 then binary32.signBit neg + (q + 1 + 23 + 127).toNat * 2 ^ 23
      else binary32.signBit neg + (if n < 2 ^ 23 then 0 else (q + 23 + 127).toNat) * 2 ^ 23 + n % 2 ^ 23 := by
  simp only [FFmt.encodeMag, show binary32.fbits = 23 from rfl, show binary32.bias = 127 from rfl]
  split
  · simp
  · rfl

theorem signBit_le (neg : Bool) : binary32.signBit neg ≤ 2 ^ 31 := by cases neg <;> decide

theorem encodeMag_lt {neg : Bool} {n : Nat} {q : Int} (h : magLe n q binary32.maxMag.1 binary32.maxMag.2 = true) :
    binary32.encodeMag neg n q < 2 ^ 32 := by
  have hs := signBit_le neg
  rw [encodeMag_eq]
  split
  · next he =>
    have := (exponent_le h (by omega)).2 he
    omega
  · split
    · omega
    · next hn =>
      have := (exponent_le h (by omega)).1
      omega

theorem round_lt (neg : Bool) (x : Mag) : (binary32.round false .rne neg x).code < 2 ^ 32 := by
  simp only [FFmt.round]
  split
  · next h => exact encodeMag_lt h
  · cases neg <;> decide

theorem sum32_lt (a b : Nat) : Rules.sum32 a b < 2 ^ 32 := by
  rw [Rules.sum32]
  split
  · decide
  · decide
  · split
    · split <;> decide
    · decide
  · split <;> decide
  · split <;> decide
  · dsimp only
    generalize (_ : Int) + _ = sum
    split
    · split <;> decide
    · exact round_lt _ _

/-! ## New values (R211) -/

theorem atomicValues : Rules.AtomicValues := by
  intro f k m x c signed hk hm hx v
  have hv {t : Ty} (hs : t.signed = signed) (hw : t.width = 8 * k) (n : Nat) : t.value n = v n := by
    simp only [Ty.value, hs, hw, Bool.and_eq_true, decide_eq_true_eq, v]
  have hlt {t : Ty} (hs : t.signed = signed) (hw : t.width = 8 * k) :
      (v x < v m → (if t.value x < t.value m then x else m) = x) ∧ (v m ≤ v x → (if t.value x < t.value m then x else m) = m) ∧
      (v m < v x → (if t.value m < t.value x then x else m) = x) ∧ (v x ≤ v m → (if t.value m < t.value x then x else m) = m) := by
    rw [hv hs hw, hv hs hw]
    exact ⟨fun h => if_pos h, fun h => if_neg (not_lt.2 h), fun h => if_pos h, fun h => if_neg (not_lt.2 h)⟩
  have horder : (v x < v m → atomValue (.amin f) k signed m x c = x) ∧ (v m ≤ v x → atomValue (.amin f) k signed m x c = m) ∧
      (v m < v x → atomValue (.amax f) k signed m x c = x) ∧ (v x ≤ v m → atomValue (.amax f) k signed m x c = m) := by
    obtain rfl | rfl := hk <;> cases signed
    · exact hlt (t := .z32) rfl rfl
    · exact hlt (t := .s32) rfl rfl
    · exact hlt (t := .z64) rfl rfl
    · exact hlt (t := .s64) rfl rfl
  obtain ⟨hmin, hmin', hmax, hmax'⟩ := horder
  exact ⟨rfl, fun _ => sum32_eq m x, hmin, hmin', hmax, hmax', rfl, rfl, rfl, rfl, fun h => if_pos h, fun h => if_neg h⟩

/-! ## Updates (R185, R210) -/

theorem State.setBytes_bytes (s : State) (a : Nat) {bs : List Byte} {n : Nat} (h : bs.length = n) :
    (s.setBytes a bs).bytes a n = bs := by
  subst h
  refine List.ext_getElem (by simp [State.bytes]) fun i hi hi' => ?_
  simp [State.bytes, State.setBytes_byte, hi']

theorem State.drainStores_nil {s : State} (h : s.storeQ = []) (p : PendingStore → Bool) : s.drainStores p = s := by
  have : ({ s with storeQ := [] } : State) = s := by rw [← h]
  simpa [State.drainStores, h, State.mustPerform] using this

/-- The update units' place is let go of: where the line is clean, memory and its poison stay. -/
theorem State.bypass_clean {s : State} {core p : Nat} (h : ∀ x ∈ SMap.get [] s.rdc (dieOf core), x.1 = lineOf p → x.2.dirty = 0) :
    (∀ b, (s.bypass core p).byte b = s.byte b) ∧ ∀ a n, (s.bypass core p).anyPoison a n = s.anyPoison a n := by
  have hclean : s.flushLines ((SMap.get [] s.rdc (dieOf core)).filter fun x => x.1 == lineOf p) = s :=
    State.flushLines_clean _ _ fun x hx => by
      obtain ⟨hx, hp⟩ := List.mem_filter.1 hx
      exact h x hx (by simpa using hp)
  rw [State.bypass, State.dropRemote, hclean]
  exact ⟨fun _ => rfl, fun _ _ => rfl⟩

/-- ATILE. -/
def isTile : Instr → Bool
  | .atile _ => true
  | _ => false

/-- The update gives the old bytes to a result (R210). -/
def givesOld (i : Instr) (f : MFmt) : Bool := f.immOp != .none || (match i with
  | .acas _ => true
  | _ => false)

/-- The bytes that an update writes over the old ones. -/
def updated (i : Instr) (f : MFmt) (a : Acc) (old : List Byte) : List Byte :=
  if isTile i then tileAdd old a.data
  else bytesOfNat a.size
    (atomValue i a.size (f.size == 6 || f.size == 7) (natOfBytes old) (natOfBytes a.data) (natOfBytes a.cmp))

/-- What an update does at its place. -/
def State.updateAt (s : State) (w : Who) (i : Instr) (f : MFmt) (a : Acc) (p : Nat) : AccOut :=
  let s := (s.drainOverlap w (w.at i a.lane) p a.size).bypass w.core p
  if s.anyPoison p a.size then
    if givesOld i f && !isTile i then .late s .uncorrectable else .done (if isTile i then s else s.countError (homeOf p) 3 1) []
  else
    .done ((s.setBytes p (updated i f a (s.bytes p a.size))).homeWritten none p a.size)
      (if givesOld i f && !isTile i then loadWrites f.data a.lane (if a.size = 8 then 3 else 2) (s.bytes p a.size) else [])

theorem State.atomicAcc_place {s : State} {w : Who} {f : MFmt} {a : Acc} {p nib : Nat} (i : Instr) (hu : s.unreadable a = false)
    (hp : s.accPlace a = some (p, nib)) (hlt : p < hostBase) :
    s.atomicAcc w i f a = (s.noteUse w a false).updateAt w i f a p := by
  exact State.reach_place _ hu hp hlt

/-- An update with nothing on its way to its place: the bytes there are replaced. -/
theorem State.updateAt_quiet {s : State} {w : Who} {f : MFmt} {a : Acc} {p : Nat} (i : Instr) (hpoison : s.anyPoison p a.size = false)
    (hq : s.storeQ = []) (hc : ∀ x ∈ SMap.get [] s.rdc (dieOf w.core), x.1 = lineOf p → x.2.dirty = 0) :
    ∃ t, s.updateAt w i f a p = .done t (if givesOld i f && !isTile i then
        loadWrites f.data a.lane (if a.size = 8 then 3 else 2) (s.bytes p a.size) else []) ∧
      ∀ b, t.byte b = (s.setBytes p (updated i f a (s.bytes p a.size))).byte b := by
  obtain ⟨hbyte, hsound⟩ := State.bypass_clean hc
  have hold : (s.bypass w.core p).bytes p a.size = s.bytes p a.size := List.map_congr_left fun _ _ => hbyte _
  have hdrain : s.drainOverlap w (w.at i a.lane) p a.size = s := State.drainStores_nil hq _
  refine ⟨((s.bypass w.core p).setBytes p (updated i f a (s.bytes p a.size))).homeWritten none p a.size, ?_, fun b => ?_⟩
  · simp only [State.updateAt, hdrain, hsound, hpoison, hold, Bool.false_eq_true, if_false]
  · rw [(State.homeWritten_recached _ _ _ _).byte, State.setBytes_byte, State.setBytes_byte, hbyte]

theorem State.atomicAcc_quiet {s : State} {w : Who} {f : MFmt} {a : Acc} {p : Nat} (i : Instr) (hu : s.unreadable a = false)
    (hp : s.accPlace a = some (p, 0)) (hlt : p < hostBase) (hpoison : s.anyPoison p a.size = false) (hq : s.storeQ = [])
    (hr : ∀ la, s.launches.find? w.launch = some la → la.ranges = [])
    (hc : ∀ x ∈ SMap.get [] s.rdc (dieOf w.core), x.1 = lineOf p → x.2.dirty = 0) :
    ∃ t, s.atomicAcc w i f a = .done t (if givesOld i f && !isTile i then
        loadWrites f.data a.lane (if a.size = 8 then 3 else 2) (s.bytes p a.size) else []) ∧
      ∀ b, t.byte b = (s.setBytes p (updated i f a (s.bytes p a.size))).byte b := by
  obtain ⟨u, hnote⟩ := s.noteUse_eq w a hr
  rw [State.atomicAcc_place i hu hp hlt, hnote]
  obtain ⟨t, ht, hb⟩ := State.updateAt_quiet (s := { s with useOrder := u }) i hpoison hq hc
  refine ⟨t, ht, fun b => (hb b).trans ?_⟩
  rw [State.setBytes_byte, State.setBytes_byte]
  rfl

theorem State.setBytes_byte_outside {s : State} {p b : Nat} {bs : List Byte} (h : b < p ∨ p + bs.length ≤ b) :
    (s.setBytes p bs).byte b = s.byte b := by
  rw [State.setBytes_byte, if_neg (by omega)]

theorem State.bytes_congr {s t : State} (h : ∀ b, t.byte b = s.byte b) (a n : Nat) : t.bytes a n = s.bytes a n :=
  List.map_congr_left fun _ _ => h _

@[simp] theorem bytesOfNat_length (n x : Nat) : (bytesOfNat n x).length = n := by simp [bytesOfNat]

theorem atomicUpdate : Rules.AtomicUpdate := by
  intro s w f a off p hat hsize hu hp hlt hpoison hq hr hc i hi signed returns
  have hbase : p < hostBase := Nat.lt_of_le_of_lt (Nat.le_add_right p a.size) (hlt.trans_lt (by decide))
  obtain ⟨t, ht, hb⟩ := State.atomicAcc_quiet i hu hp hbase hpoison hq hr hc
  obtain ⟨htile, hgives⟩ : isTile i = false ∧ givesOld i f = returns := by
    simp only [List.mem_cons, List.not_mem_nil, or_false] at hi
    obtain rfl | rfl | rfl | rfl | rfl | rfl | rfl | rfl | rfl := hi
    iterate 8 exact ⟨rfl, by simp [givesOld, returns]⟩
    exact ⟨rfl, by simp [givesOld, returns]⟩
  simp only [updated, htile, Bool.false_eq_true, if_false] at hb
  refine ⟨t, ?_, ?_, fun b hout => ?_⟩
  · rw [ht, htile, hgives, Bool.not_false, Bool.and_true]
  · exact (State.bytes_congr hb p a.size).trans (State.setBytes_bytes _ _ (bytesOfNat_length _ _))
  · exact (hb b).trans (State.setBytes_byte_outside (by rwa [bytesOfNat_length]))

/-! ## Tiles (R213) -/

theorem take_drop_flatMap_range {α : Type} {k : Nat} (f : Nat → List α) (hf : ∀ j, (f j).length = k) {n j : Nat} (hj : j < n) :
    (((List.range n).flatMap f).drop (k * j)).take k = f j := by
  have hlen (n : Nat) : ((List.range n).flatMap f).length = k * n := by
    simp [List.length_flatMap, hf, Nat.mul_comm]
  induction n with
  | zero => omega
  | succ n ih =>
    rw [List.range_succ, List.flatMap_append, List.flatMap_singleton]
    obtain hj | rfl := Nat.lt_succ_iff_lt_or_eq.1 hj
    · have h : k * j + k ≤ k * n := Nat.mul_le_mul_left k hj
      rw [List.drop_append_of_le_length (by rw [hlen]; omega), List.take_append_of_le_length, ih hj]
      rw [List.length_drop, hlen]
      omega
    · rw [List.drop_left' (hlen j), ← hf j, List.take_length]

theorem State.bytes_drop_take (s : State) {p n k m : Nat} (h : k + m ≤ n) : ((s.bytes p n).drop k).take m = s.bytes (p + k) m := by
  refine List.ext_getElem (by simp [State.bytes]; omega) fun i hi hi' => ?_
  simp [State.bytes, Nat.add_assoc]

theorem natOfBytes_bytesOfNat_four {x : Nat} (h : x < 2 ^ 32) : natOfBytes (bytesOfNat 4 x) = x := by
  rw [bytesOfNat, natOfBytes_four]
  simp only [BitVec.toNat_ofNat]
  omega

theorem tileAdd_length {old add : List Byte} (h : old.length = 32) : (tileAdd old add).length = 32 := by
  simp [tileAdd, h, List.length_flatMap]

/-- Element j of a tile after the addition. -/
theorem tileAdd_element {old add : List Byte} (h : old.length = 32) {j : Nat} (hj : j < 8) :
    ((tileAdd old add).drop (4 * j)).take 4 = bytesOfNat 4 (Rules.sum32 (natOfBytes ((old.drop (4 * j)).take 4))
      (natOfBytes ((add.drop (4 * j)).take 4))) := by
  rw [tileAdd, h, take_drop_flatMap_range _ (fun _ => bytesOfNat_length _ _) hj, sum32_eq]

theorem tileUpdate : Rules.TileUpdate := by
  intro s w f a off p hat hsize hdata hu hp hlt hpoison hq hr hc
  obtain ⟨t, ht, hb⟩ := State.atomicAcc_quiet (.atile f) (f := f) hu hp (by rw [hostBase]; omega) (hsize ▸ hpoison) hq hr hc
  have hold : (s.bytes p 32).length = 32 := by simp [State.bytes]
  have hnew : (tileAdd (s.bytes p 32) a.data).length = 32 := tileAdd_length hold
  simp only [updated, isTile, if_true, hsize] at hb
  refine ⟨t, ?_, fun j hj => ?_, fun b hout => (hb b).trans (State.setBytes_byte_outside (by rwa [hnew]))⟩
  · rw [ht, isTile, Bool.not_true, Bool.and_false]
    rfl
  · have hj : 4 * j + 4 ≤ 32 := by omega
    have htile : t.bytes p 32 = tileAdd (s.bytes p 32) a.data := (State.bytes_congr hb p 32).trans (State.setBytes_bytes _ _ hnew)
    have helem := tileAdd_element (add := a.data) hold (j := j) (by omega)
    rw [s.bytes_drop_take hj, ← htile, t.bytes_drop_take hj] at helem
    rw [helem, natOfBytes_bytesOfNat_four (sum32_lt _ _)]

/-- Settles O26. -/
theorem atomics : Obligations.Atomics := ⟨atomicValues, atomicUpdate, tileUpdate⟩

end Sys2Proof.Machine
end

