-- ==== Sys2Proof/Proofs/Scratchpad.lean ====
section
/-!
Scratchpad accesses: their places, their bytes, and what the four instructions do with them. Settles O25.
-/

namespace Sys2Proof.Machine

/-! ## Places (R205) -/

/-- What a scratchpad fault gives as its value: the address, and the peer that CRANK names (R453). -/
def Env.scratchVal (e : Env) (f : MFmt) (crank : Option Operand) (lane : Nat) : DWord :=
  BitVec.ofNat 64 (((e.readZ f.ref lane + f.imm.toInt * sizeBytes f.size) % 2 ^ 32).toNat +
    (if crank.isSome then (match crank with
      | some o => e.readZ o lane
      | none => e.wg.crank) % 256 * 2 ^ 32 else 0))

theorem scratchPlaces : Rules.ScratchPlaces := by
  intro s e f l hn n a
  have hlow (h0 : 0 ≤ a) (h1 : a + n ≤ e.launch.scratch) (h2 : e.launch.scratch ≤ 2 ^ 18) : (a % 2 ^ 32).toNat = a.toNat := by
    rw [Int.emod_eq_of_lt h0 (by omega)]
  have hin (h0 : 0 ≤ a) (h1 : a + n ≤ e.launch.scratch) : ¬ (a < 0 ∨ (e.launch.scratch : Int) < a + n) := by omega
  refine ⟨⟨e.scratchVal f none l, fun h => ?_⟩, ⟨e.scratchVal f none l, fun h h' => ?_⟩, fun h h0 h1 h2 => ?_,
    fun o g wg h h0 h1 h2 hr hp => ?_, fun o => ⟨e.scratchVal f (some o) l, fun h h0 h1 hr => ?_⟩⟩
  · exact if_pos h
  · exact (if_neg (not_not_intro h)).trans (if_pos h')
  · refine ((if_neg (not_not_intro h)).trans (if_neg (hin h0 h1))).trans ?_
    exact congrArg (fun x => Except.ok (e.wave.wg, x, l)) (hlow h0 h1 h2)
  · refine (((if_neg (not_not_intro h)).trans (if_neg (hin h0 h1))).trans (if_neg (Nat.not_le.2 hr))).trans ?_
    rw [hp]
    exact congrArg (fun x => Except.ok (g, x, l)) (hlow h0 h1 h2)
  · exact ((if_neg (not_not_intro h)).trans (if_neg (hin h0 h1))).trans (if_pos hr)

/-! ## Bytes (R187) -/

/-- The workgroup is on its core: its scratchpad is not in a save image. -/
def Workgroup.placed (wg : Workgroup) : Prop := ∀ b, wg.phase ≠ .saved b

theorem State.scratchByte_of_placed {s : State} {g : Nat} {wg : Workgroup} (h : s.workgroups.find? g = some wg) (hp : wg.placed)
    (a : Nat) : s.scratchByte g a = SMap.get 0 wg.scratch a := by
  rw [State.scratchByte, h]
  dsimp only
  split
  · next b hb => exact absurd hb (hp b)
  · rfl

theorem State.setScratch_of_placed {s : State} {g : Nat} {wg : Workgroup} (h : s.workgroups.find? g = some wg) (hp : wg.placed)
    (a : Nat) (x : Byte) : s.setScratch g a x =
      { s with workgroups := s.workgroups.insert g { wg with scratch := SMap.set 0 wg.scratch a x } } := by
  rw [State.setScratch, h]
  dsimp only
  split
  · next b hb => exact absurd hb (hp b)
  · rfl

theorem State.scratchByte_congr {s t : State} {g : Nat} (hw : t.workgroups.find? g = s.workgroups.find? g)
    (hb : ∀ b, t.byte b = s.byte b) (a : Nat) : t.scratchByte g a = s.scratchByte g a := by
  simp only [State.scratchByte, hw, hb]

theorem scratchBytes : Rules.ScratchBytes := by
  intro s g a x wg h hp
  rw [State.setScratch_of_placed h hp]
  generalize ht : ({ s with workgroups := s.workgroups.insert g { wg with scratch := SMap.set 0 wg.scratch a x } } : State) = t
  have hbyte (b : Nat) : t.byte b = s.byte b := by subst ht; rfl
  have hsame : t.workgroups.find? g = some { wg with scratch := SMap.set 0 wg.scratch a x } := by
    subst ht; exact SMap.find?_insert_same _ _ _
  have hread (c : Nat) : t.scratchByte g c = SMap.get 0 (SMap.set 0 wg.scratch a x) c := State.scratchByte_of_placed hsame hp c
  refine ⟨?_, fun k c hkc => ?_, hbyte, by subst ht; rfl⟩
  · rw [hread, SMap.get_set_same]
  · obtain rfl | hk := eq_or_ne k g
    · have hc : c ≠ a := hkc.resolve_left (not_not_intro rfl)
      rw [hread, SMap.get_set_other _ _ _ _ _ hc, State.scratchByte_of_placed h hp]
    · refine State.scratchByte_congr ?_ hbyte c
      subst ht
      exact SMap.find?_insert_other _ _ _ _ hk

/-! ## The instructions (R205) -/

section
variable {s : State} {e : Env} {f : MFmt} {i : Instr} {crank : Option Operand} {ps : List (Nat × Nat × Nat)}

/-- The state in which a scratchpad access is made: after a release and with an acquire, as ORDER names them (R186). -/
def Env.scratchReady (e : Env) (s : State) (f : MFmt) : State :=
  let s := if f.order.getLsbD 1 then s.release e.core e.wk e.who.slices f.scope else s
  if f.order.getLsbD 0 then s.acquireAct e.core f.scope else s

theorem checkPlaces_eq_allOk (xs : List (Except (Nat × DWord) (Nat × Nat × Nat))) : checkPlaces xs = allOk xs := by
  rw [checkPlaces, allOk]
  congr 1
  funext x r
  cases x <;> cases r <;> rfl

theorem scratchOrdered_eq (hord : memOrder i = (f.order, f.scope)) (hfollow : e.mustFollow s (memOrder i).1 [] = none) (go : State → Act) :
    e.scratchOrdered i s go = go (e.scratchReady s f) := by
  rw [hord] at hfollow
  simp only [Env.scratchOrdered, hord, hfollow]
  rfl

/-- The effect of scratchpad accesses at their places. -/
def Env.scratchAt (e : Env) (f : MFmt) (load : Bool) (ps : List (Nat × Nat × Nat)) (s : State) : Act :=
  if load then .writes s (ps.flatMap fun p => loadWrites f.data p.2.2 f.size (s.scratchBytes p.1 p.2.1 (sizeBytes f.size))) .none
  else
    let r := s.anyOrder scratchMeets (ps.flatMap fun p => scratchUnits p.1 p.2.1 (e.data f.data p.2.2 (sizeBytes f.size)))
    .writes (r.2.foldl (fun s u => s.setScratchBytes u.1 u.2.1 u.2.2) r.1) [] .none

/-- Instruction i finds its lanes' places and makes its accesses there. -/
structure IsScratch (s : State) (e : Env) (f : MFmt) (p : Instr × Option Operand × Bool) : Prop where
  body : ∃ body : Env → State → Act, exec p.1 s = issue p.1 body s ∧
    body e s = match checkPlaces ((lanesOf e.lanes).map fun l => e.scratchAcc s f p.2.1 l) with
      | .error (c, v) => .trap c v
      | .ok ps => e.scratchOrdered p.1 s (e.scratchAt f p.2.2 ps)
  gangPoint : Instr.gangPoint p.1 = false
  order : memOrder p.1 = (f.order, f.scope)

theorem isScratch {p : Instr × Option Operand × Bool} (hp : p ∈ [(Instr.lds f, (none : Option Operand), true), (.ldsr f, some f.index, true),
    (.sts f, none, false), (.stsr f, some f.index, false)]) : IsScratch s e f p := by
  simp only [List.mem_cons, List.not_mem_nil, or_false] at hp
  obtain rfl | rfl | rfl | rfl := hp
  all_goals exact ⟨⟨_, rfl, rfl⟩, rfl, rfl⟩

end

theorem scratchAccesses : Rules.ScratchAccesses := by
  intro s e f ls n order p hp hi
  obtain ⟨⟨body, hexec, hbody⟩, hg, hord⟩ := isScratch (s := s) (e := e) hp
  rw [hexec]
  refine ⟨fun l hl c v hx hok => ?_, fun place hplace hfollow => ?_⟩
  · rw [checkPlaces_eq_allOk, allOk_map_error (pairwise_lanesOf _) hl hx hok] at hbody
    exact issue_trap hi hg hbody
  · have hps : ((lanesOf e.lanes).map fun l => e.scratchAcc s f p.2.1 l) =
        (ls.map fun l => ((place l).1, (place l).2, l)).map Except.ok := by
      rw [List.map_map]
      exact List.map_congr_left hplace
    rw [hps, checkPlaces_eq_allOk, allOk_map_ok] at hbody
    dsimp only at hbody
    rw [scratchOrdered_eq hord hfollow] at hbody
    refine ⟨fun hload => ?_, fun hstore => ?_⟩
    · rw [hload, Env.scratchAt, if_pos rfl, List.flatMap_map] at hbody
      exact issue_writes hi hg hbody
    · rw [hstore, Env.scratchAt, if_neg Bool.false_ne_true, List.flatMap_map] at hbody
      exact issue_writes hi hg hbody

/-- Settles O25. -/
theorem scratchpad : Obligations.Scratchpad := ⟨scratchAccesses, scratchPlaces, scratchBytes⟩

end Sys2Proof.Machine
end

