-- ==== Sys2Proof/Proofs/HintsAndQueues.lean ====
section
/-!
Cache hints, fences and stage queues. Settles O27 and O28.
-/

namespace Sys2Proof.Machine

/-! ## Hints (R207) -/

section
variable {s : State} {e : Env} {f : MFmt}

theorem State.cacheEntry_waves (s : State) (core dom n : Nat) : (s.cacheEntry core dom n).waves = s.waves := by
  rw [State.cacheEntry]
  split <;> rfl

theorem State.fillObjects_waves (s : State) (core : Nat) (accs : List Acc) : (s.fillObjects core accs).waves = s.waves :=
  foldl_keeps State.waves _ accs (fun t a _ => t.cacheEntry_waves core a.dom.toNat (refIndex a.ref)) s

theorem State.Rewritten.waves {s t : State} (h : s.Rewritten t) : t.waves = s.waves := by
  obtain ⟨_, _, _, rfl⟩ := h; rfl

theorem State.loadBytes_waves (s : State) (core a n : Nat) : (s.loadBytes core a n).1.waves = s.waves := by
  simp only [State.loadBytes]
  split
  · rfl
  · exact (State.noteL2_recached _ _ _).waves.trans
      (s.fillRemote_keeps State.waves (fun _ _ h => h.waves) (fun _ _ h => h.waves) _ _)

theorem State.queueRequest_waves (s : State) (die dom index : Nat) (x : ObjEntry) (g : Nat) (la : Option Nat) (ahead : Bool) :
    (s.queueRequest die dom index x g la ahead).waves = s.waves := by
  rw [State.queueRequest]
  split
  · split <;> rfl
  · rfl

theorem State.requestAcc_waves (s : State) (die la : Nat) (a : Acc) : (s.requestAcc die la a).waves = s.waves := by
  rw [State.requestAcc]
  split
  · rfl
  · refine foldl_keeps State.waves _ _ (fun t g _ => ?_) s
    split
    · rfl
    · exact t.queueRequest_waves _ _ _ _ _ _ _

theorem State.prefetch_waves (s : State) (e : Env) (a : Acc) : (s.prefetch e a).waves = s.waves := by
  rw [State.prefetch]
  split
  · exact s.loadBytes_waves _ _ _
  · split
    · rfl
    · exact s.requestAcc_waves _ _ _

theorem State.evictBlock_waves (s : State) (core p : Nat) : (s.evictBlock core p).waves = s.waves :=
  (s.flushLines_rewritten _).waves

theorem hints_eq_nil (h : ∀ l ∈ lanesOf e.lanes, ∃ c, e.byteAcc s f f.imm.toInt needR .load (sizeBytes f.size) l [] [] = .error c) :
    e.hints s f = [] := by
  rw [Env.hints, List.filterMap_eq_nil_iff]
  intro l hl
  obtain ⟨c, hc⟩ := h l hl
  rw [hc]

/-- A hint folds a step over the lanes that pass their checks, which changes no wave. -/
theorem exists_hint {i : Instr} (hi : i ∈ [Instr.pref f, .evict f]) : ∃ (body : Env → State → Act) (step : State → Acc → State),
    exec i s = issue i body s ∧ Instr.gangPoint i = false ∧ (∀ t a, (step t a).waves = t.waves) ∧
    body e s = .writes ((e.hints s f).foldl step (s.fillObjects e.core (e.hints s f))) [] .none := by
  simp only [List.mem_cons, List.not_mem_nil, or_false] at hi
  obtain rfl | rfl := hi
  · exact ⟨_, fun t a => t.prefetch e a, rfl, rfl, fun t a => t.prefetch_waves e a, rfl⟩
  · refine ⟨_, fun t a => match t.accPlace a with
      | some (p, _) => t.evictBlock e.core p
      | none => t, rfl, rfl, fun t a => ?_, rfl⟩
    dsimp only
    split
    · exact t.evictBlock_waves _ _
    · rfl

end

theorem hints : Rules.Hints := by
  intro s e f i hi hs
  obtain ⟨body, step, hexec, hg, hstep, hbody⟩ := exists_hint (s := s) (e := e) hi
  rw [hexec]
  refine ⟨⟨_, issue_writes hs hg hbody, ?_⟩, fun hnone => issue_writes hs hg ?_⟩
  · exact (foldl_keeps State.waves step _ (fun t a _ => hstep t a) _).trans (s.fillObjects_waves _ _)
  · rw [hbody, hints_eq_nil hnone]
    rfl

/-! ## Fences (R208) -/

theorem fences : Rules.Fences := by
  intro s e f hs s1
  refine ⟨fun wt hw => ?_, fun hw => ?_⟩
  · refine issue_hold (body := fun e s => _) hs rfl ?_
    simp only [hw]
  · refine issue_writes (body := fun e s => _) hs rfl ?_
    simp only [hw]
    rfl

/-- Settles O27. -/
theorem hintsAndFences : Obligations.HintsAndFences := ⟨hints, fences⟩

/-! ## Stage queues (R42, R43, R209) -/

section
variable {s : State} {w : Who} {f : MFmt} {a : Acc} {la : Launch} {q : StageQueue}

theorem ringed_add_spilled (q : StageQueue) : q.ringed + q.spilled.length = q.recs.length := by
  rw [StageQueue.ringed, StageQueue.spilled]
  induction q.recs with
  | nil => rfl
  | cons r rs ih => cases r <;> simp only [List.filter_cons, List.filterMap_cons, if_true, Bool.false_eq_true, if_false, List.length_cons] <;> omega

theorem mem_spilled {n : Nat} : n ∈ q.spilled ↔ .spill n ∈ q.recs := by
  rw [StageQueue.spilled, List.mem_filterMap]
  refine ⟨fun ⟨r, hr, hn⟩ => ?_, fun h => ⟨_, h, rfl⟩⟩
  cases r with
  | ring _ => cases hn
  | spill m => cases hn; exact hr

/-- Where fewer records are spilled than the limit, a place of the spill area is free. -/
theorem freePlace_spec (h : q.spilled.length < q.spillLimit) : q.freePlace < q.spillLimit ∧ .spill q.freePlace ∉ q.recs := by
  rw [StageQueue.freePlace]
  cases hf : (List.range q.spillLimit).find? fun n => !q.spilled.contains n with
  | none =>
    have hall : List.range q.spillLimit ⊆ q.spilled := fun n hn => by
      simpa using List.find?_eq_none.1 hf n hn
    have := (List.subperm_of_subset List.nodup_range hall).length_le
    rw [List.length_range] at this
    omega
  | some n =>
    have hn : n ∉ q.spilled := by simpa using List.find?_some hf
    exact ⟨List.mem_range.1 (List.mem_of_find?_eq_some hf), fun h => hn (mem_spilled.2 h)⟩

theorem queue_find (hla : s.launches.find? w.launch = some la) (hq : la.queues.find? f.imm.toNat = some q) :
    ((s.launches.find? w.launch).bind fun la => la.queues.find? f.imm.toNat) = some q := by
  rw [hla]
  exact hq

theorem push_ringed (hla : s.launches.find? w.launch = some la) (hq : la.queues.find? f.imm.toNat = some q) (h : q.ringed < 512) :
    s.perform1 w (.sqpush f) a = .done (s.modQueue w.launch f.imm.toNat fun q => { q with recs := q.recs ++ [.ring (recordWords a.data)] }) [] := by
  change s.pushRecord w f.imm.toNat a.data = _
  have hfull : q.full = false := by simp [StageQueue.full]; omega
  simp only [State.pushRecord, queue_find hla hq, hfull, h, Bool.false_eq_true, if_false, if_true]

theorem push_full (hla : s.launches.find? w.launch = some la) (hq : la.queues.find? f.imm.toNat = some q) (h : 512 ≤ q.ringed)
    (h' : q.spillLimit ≤ q.spilled.length) : s.perform1 w (.sqpush f) a = .wait s := by
  change s.pushRecord w f.imm.toNat a.data = _
  have hfull : q.full = true := by simp [StageQueue.full, h, h']
  simp only [State.pushRecord, queue_find hla hq, hfull, if_true]

theorem push_spilled (hla : s.launches.find? w.launch = some la) (hq : la.queues.find? f.imm.toNat = some q) (h : 512 ≤ q.ringed)
    (h' : q.spilled.length < q.spillLimit) {p nib : Nat} (hp : s.reaches (s.spillAcc w q q.freePlace) true = .place p nib) :
    s.perform1 w (.sqpush f) a =
      .done (((s.noteUse w (s.spillAcc w q q.freePlace) false).dieWrite (f.imm.toNat % 4) p a.data).modQueue w.launch f.imm.toNat fun x =>
        { x with recs := x.recs ++ [.spill q.freePlace] }) [] := by
  change s.pushRecord w f.imm.toNat a.data = _
  have hfull : q.full = false := by simp [StageQueue.full]; omega
  simp only [State.pushRecord, queue_find hla hq, hfull, Nat.not_lt.2 h, Bool.false_eq_true, if_false, State.reach, hp]

theorem pop_ring (hla : s.launches.find? w.launch = some la) (hq : la.queues.find? f.imm.toNat = some q) {r : List Word}
    {more : List QRec} (h : q.recs = .ring r :: more) : s.perform1 w (.sqpop f) a =
      .done (s.modQueue w.launch f.imm.toNat fun q => { q with recs := more }) (writeRun f.data a.lane r ++ writeP f.index a.lane false) := by
  change s.popAcc w f a = _
  simp only [State.popAcc, State.popRecord, queue_find hla hq, h]

theorem pop_spill (hla : s.launches.find? w.launch = some la) (hq : la.queues.find? f.imm.toNat = some q) {n : Nat}
    {more : List QRec} (h : q.recs = .spill n :: more) {p nib : Nat} (hp : s.reaches (s.spillAcc w q n) false = .place p nib)
    {t : State} (ht : t = s.noteUse w (s.spillAcc w q n) false) (h1 : t.portPoisoned (f.imm.toNat % 4) p = false)
    (h2 : t.portPoisoned (f.imm.toNat % 4) (p + 32) = false) : s.perform1 w (.sqpop f) a =
      .done (t.modQueue w.launch f.imm.toNat fun q => { q with recs := more })
        (writeRun f.data a.lane (recordWords (t.portBytes (f.imm.toNat % 4) p 64)) ++ writeP f.index a.lane false) := by
  change s.popAcc w f a = _
  simp only [State.popAcc, State.popRecord, queue_find hla hq, h, State.reach, hp, ← ht, h1, h2, Bool.or_self, Bool.false_eq_true, if_false]

theorem pop_empty (hla : s.launches.find? w.launch = some la) (hq : la.queues.find? f.imm.toNat = some q) (h : q.recs = []) :
    s.perform1 w (.sqpop f) a = if q.closed then .done s (writeP f.index a.lane true) else .wait s := by
  change s.popAcc w f a = _
  simp only [State.popAcc, State.popRecord, queue_find hla hq, h]

end

theorem stageQueues : Rules.StageQueues := by
  intro s w f a la q hla hq k given ringed spilled add
  have hringed : ringed = q.ringed := List.countP_eq_length_filter
  have hspilled : spilled = q.spilled.length := by
    have := ringed_add_spilled q
    omega
  rw [hringed, hspilled]
  refine ⟨push_ringed hla hq, fun h h' => ?_, push_full hla hq, ?_⟩
  · obtain ⟨hlt, hfree⟩ := freePlace_spec h'
    exact ⟨q.freePlace, hlt, hfree, fun p nib hp => push_spilled hla hq h h' hp⟩
  · refine ⟨fun r more h => pop_ring hla hq h, ?_, fun h hc => ?_, fun h hc => ?_⟩
    · intro n more p nib h hp t h1 h2
      exact pop_spill hla hq h hp rfl h1 h2
    · rw [pop_empty hla hq h, if_pos hc]
    · rw [pop_empty hla hq h, hc, if_neg Bool.false_ne_true]

theorem ready_release {s : State} {e : Env} {f : MFmt} (accs : List Acc) : e.ready s { f with order := 2 } accs =
    (s.fillObjects e.core accs).release e.core e.wk e.who.slices f.scope := by simp [Env.ready]

theorem ready_acquire {s : State} {e : Env} {f : MFmt} (accs : List Acc) : e.ready s { f with order := 1 } accs =
    (s.fillObjects e.core accs).acquireAct e.core f.scope := by simp [Env.ready]

/-- SQPUSH and SQPOP are accesses, with the order that the one has as a release and the other as an acquire. -/
theorem queueInstructions : Rules.QueueInstructions := by
  intro s e f record p hp accs hi hfollow
  simp only [List.mem_cons, List.not_mem_nil, or_false] at hp
  obtain rfl | rfl := hp
  · have h := accessed (f := { f with order := 2 }) (accs := accs) hi rfl rfl hfollow rfl rfl
    rwa [ready_release] at h
  · have h := accessed (f := { f with order := 1 }) (accs := accs) hi rfl rfl hfollow rfl rfl
    rwa [ready_acquire] at h

/-- Settles O28. -/
theorem queues : Obligations.Queues := ⟨stageQueues, queueInstructions⟩

end Sys2Proof.Machine
end

