-- ==== Sys2Proof/Proofs/Copies.lean ====
section
/-!
Copies that join the open batch, and the instructions of batches. Settles O29.
-/

namespace Sys2Proof.Machine

section
variable {s : State} {e : Env} {i : Instr} {c : Copy}

/-- The state with a copy in the open batch and its references' entries held. -/
def State.joinCopy (s : State) (e : Env) (c : Copy) (refs : List DWord) : State :=
  { s.fillRefs e.core e.dom refs with copies := s.copies ++ [c] }

/-- A copy of n bytes may begin: 1 to 65,536 bytes, nothing before it and an entry of the core free. -/
structure Env.copyReady (e : Env) (s : State) (n : Nat) : Prop where
  pos : 0 < n
  le : n ≤ 65536
  first : e.awaits s e.frag.slices = none
  room : (s.copies.filter fun x => x.core == e.core && s.onCore x.wave).length < 64

theorem startCopy_eq {refs : List DWord} (h : e.copyReady s c.bytes)
    (hrefs : (if c.srcScratch.isSome then [] else [c.srcRef]) ++ (if c.dstScratch.isSome then [] else [c.dstRef]) = refs) :
    e.startCopy i s c = .writes (s.joinCopy e c refs) [] .none := by
  obtain ⟨h0, hn, hw, hroom⟩ := h
  have hbytes : ¬ (c.bytes = 0 ∨ 65536 < c.bytes) := by omega
  have hfull : ¬ 64 ≤ (s.copies.filter fun x => decide (x.core = e.core) && s.onCore x.wave).length := Nat.not_le.2 hroom
  simp only [Env.startCopy, if_neg hbytes, hw, if_neg hfull, hrefs]
  rfl

theorem copyScratch_eq {a n : Nat} (h : a + n ≤ e.launch.scratch) : e.copyScratch a n = .ok (e.wave.wg, a) := by
  rw [Env.copyScratch, if_neg (Nat.not_lt.2 h)]

variable {f : MFmt} {se de : ObjEntry} (hready : e.copyReady s (e.readZ f.index e.first))
include hready

theorem copy_joins (hi : s.Issues e (.copy f)) (hs : e.copyRange s (e.readRef f.ref e.first) needR .load (e.readZ f.index e.first) = .ok se)
    (hd : e.copyRange s (e.readRef f.data e.first) needW .store (e.readZ f.index e.first) = .ok de) :
    exec (.copy f) s = .next ((s.joinCopy e { e.copyOf (.copy f) f.scope (e.readZ f.index e.first) with
      srcRef := e.readRef f.ref e.first, srcEntry := se, dstRef := e.readRef f.data e.first, dstEntry := de }
      [e.readRef f.ref e.first, e.readRef f.data e.first]).after e (.copy f) (e.result (.copy f) [] .none)) := by
  refine issue_writes (body := fun e s => _) hi rfl ?_
  simp only [hs, hd, bothOk]
  exact startCopy_eq hready rfl

theorem copyin_joins (hi : s.Issues e (.copyin f))
    (hs : e.copyRange s (e.readRef f.immOp e.first) needR .load (e.readZ f.index e.first) = .ok se)
    (hd : e.readZ f.data e.first + e.readZ f.index e.first ≤ e.launch.scratch) :
    exec (.copyin f) s = .next ((s.joinCopy e { e.copyOf (.copyin f) f.scope (e.readZ f.index e.first) with
      srcRef := e.readRef f.immOp e.first, srcEntry := se, dstScratch := some (e.wave.wg, e.readZ f.data e.first) }
      [e.readRef f.immOp e.first]).after e (.copyin f) (e.result (.copyin f) [] .none)) := by
  refine issue_writes (body := fun e s => _) hi rfl ?_
  simp only [hs, copyScratch_eq hd, bothOk]
  exact startCopy_eq hready rfl

theorem copyout_joins (hi : s.Issues e (.copyout f)) (hs : e.readZ f.ref e.first + e.readZ f.index e.first ≤ e.launch.scratch)
    (hd : e.copyRange s (e.readRef f.immOp e.first) needW .store (e.readZ f.index e.first) = .ok de) :
    exec (.copyout f) s = .next ((s.joinCopy e { e.copyOf (.copyout f) f.scope (e.readZ f.index e.first) with
      srcScratch := some (e.wave.wg, e.readZ f.ref e.first), dstRef := e.readRef f.immOp e.first, dstEntry := de }
      [e.readRef f.immOp e.first]).after e (.copyout f) (e.result (.copyout f) [] .none)) := by
  refine issue_writes (body := fun e s => _) hi rfl ?_
  simp only [hd, copyScratch_eq hs, bothOk]
  exact startCopy_eq hready rfl

theorem copyt_joins (hi : s.Issues e (.copyt f))
    (hs : e.copySide s (e.readRef f.ref e.first) needR .load (e.coords f.immOp e.first) (e.readZ f.index e.first) = .ok se)
    (hd : e.copySide s (e.readRef f.data e.first) needW .store (e.coords f.immOp e.first) (e.readZ f.index e.first) = .ok de)
    (hkind : ¬ ((se.kind = 1) = (de.kind = 1))) {t : Tensor} (ht : t = s.tensor (if se.kind = 1 then se else de)) (hlayout : t.layout ≠ 5)
    (hz : 0 < etypeNibbles t.etype / 2) (hfits : sizeFits t.etype f.size = true)
    (hmod : e.readZ f.index e.first % (etypeNibbles t.etype / 2) = 0) :
    exec (.copyt f) s = .next ((s.joinCopy e { e.copyOf (.copyt f) f.scope (e.readZ f.index e.first) with
      srcRef := e.readRef f.ref e.first, srcEntry := se, dstRef := e.readRef f.data e.first, dstEntry := de,
      coords := e.coords f.immOp e.first }
      [e.readRef f.ref e.first, e.readRef f.data e.first]).after e (.copyt f) (e.result (.copyt f) [] .none)) := by
  refine issue_writes (body := fun e s => _) hi rfl ?_
  have htag : ¬ (t.layout = 5 ∨ etypeNibbles t.etype / 2 = 0 ∨ (!sizeFits t.etype f.size) = true) := by
    simp [hlayout, hfits]
    omega
  simp only [hs, hd, bothOk, if_neg hkind]
  split
  · next h =>
    rw [if_pos h] at ht
    rw [← ht, if_neg htag, if_neg (not_not_intro hmod)]
    exact startCopy_eq hready rfl
  · next h =>
    rw [if_neg h] at ht
    rw [← ht, if_neg htag, if_neg (not_not_intro hmod)]
    exact startCopy_eq hready rfl

end

theorem copiesIssued : Rules.CopiesIssued := by
  intro s e f n room base joins rd wr far cs inScratch se de h0 hn hw hroom
  have hready : e.copyReady s n := ⟨h0, hn, hw, hroom⟩
  refine ⟨copy_joins hready, copyin_joins hready, copyout_joins hready, ?_⟩
  intro hi hs hd hkind t z hlayout hz hfits hmod hin
  exact copyt_joins hready hi hs hd hkind rfl hlayout hz hfits hmod

/-! ## Batches (R217, R218) -/

/-- The number a WAITB that is not waiting yet waits for. -/
theorem batchTarget_eq {e : Env} {f : YFmt} (h : ∀ m c, e.frag.wait ≠ .batch m c) :
    e.batchTarget f = if (e.wave.batchClosed - lowWord (e.read .z32 f.op1 e.first)).toNat < 2 ^ 31
      then lowWord (e.read .z32 f.op1 e.first) else e.wave.batchClosed := by
  rw [Env.batchTarget]
  split
  · next m c hw => exact absurd hw (h m c)
  · dsimp only
    split
    · next h => rw [if_neg (by omega)]
    · next h => rw [if_pos (by omega)]

theorem batches : Rules.Batches := by
  intro s e f closed done x target limit acquired
  refine ⟨fun hi h => ?_, fun hi h => ?_, fun hi hw => ?_, fun hi h => ?_, fun hi => ?_⟩
  · exact issue_writes (body := fun e s => _) hi rfl (if_neg h)
  · exact issue_hold (body := fun e s => _) hi rfl (if_pos h)
  · have htarget : e.batchTarget f = target := batchTarget_eq hw
    refine ⟨fun h => ?_, fun h => ?_⟩
    · refine issue_writes (body := fun e s => _) hi rfl ?_
      dsimp only
      rw [htarget]
      exact if_pos h
    · refine issue_hold (body := fun e s => _) hi rfl ?_
      dsimp only
      rw [htarget]
      exact if_neg (Nat.not_lt.2 h)
  · have hlimit : (BitVec.ofNat 32 (fieldOf f.imm 4 8)).toNat = limit := by
      rw [BitVec.toNat_ofNat, Nat.mod_eq_of_lt]
      · rfl
      · exact (BitVec.isLt _).trans (by decide)
    refine issue_writes (body := fun e s => _) hi rfl ?_
    dsimp only
    rw [hlimit]
    exact if_pos h
  · exact run_writes (body := fun e s => _) hi rfl rfl

/-- Settles O29. -/
theorem copies : Obligations.Copies := ⟨copiesIssued, batches⟩

end Sys2Proof.Machine
end

