-- ==== Sys2Proof/Proofs/MemoryEffects.lean ====
section
/-!
What performing stores, and the actions of acquires and releases, leave alone: all but memory, its caches, counters and queue.
-/

namespace Sys2Proof.Machine

/-- Only memory, its caches, the error counters, the use order, the stores on their way and the object caches differ. -/
def State.MemoryOnly (s t : State) : Prop :=
  ∃ m h p r l c x b u q o, t = { s with
    mem := m, hostMem := h, poison := p, rdc := r, l2 := l, l1 := c, texel := x, bar0 := b, useOrder := u, storeQ := q, objCache := o }

namespace State.MemoryOnly

theorem refl (s : State) : s.MemoryOnly s := ⟨_, _, _, _, _, _, _, _, _, _, _, rfl⟩
theorem trans {s t u : State} : s.MemoryOnly t → t.MemoryOnly u → s.MemoryOnly u
  | ⟨_, _, _, _, _, _, _, _, _, _, _, h⟩, ⟨_, _, _, _, _, _, _, _, _, _, _, h'⟩ => by
    subst h h'
    exact ⟨_, _, _, _, _, _, _, _, _, _, _, rfl⟩

theorem of_recached {s t : State} : s.Recached t → s.MemoryOnly t
  | ⟨_, _, _, _, _, h⟩ => by subst h; exact ⟨_, _, _, _, _, _, _, _, _, _, _, rfl⟩
theorem of_rewritten {s t : State} : s.Rewritten t → s.MemoryOnly t
  | ⟨_, _, _, h⟩ => by subst h; exact ⟨_, _, _, _, _, _, _, _, _, _, _, rfl⟩

variable {s t : State} (h : s.MemoryOnly t)
include h

theorem waves : t.waves = s.waves := by obtain ⟨_, _, _, _, _, _, _, _, _, _, _, rfl⟩ := h; rfl
theorem workgroups : t.workgroups = s.workgroups := by obtain ⟨_, _, _, _, _, _, _, _, _, _, _, rfl⟩ := h; rfl
theorem launches : t.launches = s.launches := by obtain ⟨_, _, _, _, _, _, _, _, _, _, _, rfl⟩ := h; rfl

end State.MemoryOnly

/-! ## Writes -/

theorem State.fillRemote_memoryOnly (s : State) (die a : Nat) : s.MemoryOnly (s.fillRemote die a) := by
  obtain h | ⟨r, ls, h, -⟩ := s.fillRemote_cases die a
  · rw [h]
    exact .refl s
  · rw [h]
    exact .trans (.of_recached ⟨_, _, _, _, _, rfl⟩) (.of_rewritten (State.flushLines_rewritten _ ls))

theorem State.coherentByte_memoryOnly (s : State) (die a : Nat) (b : Byte) (m : Nibbles) : s.MemoryOnly (s.coherentByte die a b m) := by
  rw [State.coherentByte]
  split
  · exact .trans (s.fillRemote_memoryOnly die a) (.of_recached ⟨_, _, _, _, _, rfl⟩)
  · exact .of_rewritten (s.setByte_rewritten _ _)

theorem State.coherentBytes_memoryOnly (s : State) (die : Nat) (m : Nibbles) (a : Nat) (bs : List Byte) :
    s.MemoryOnly (s.coherentBytes die m a bs) := by
  induction bs generalizing s a with
  | nil => exact .refl s
  | cons b r ih => exact .trans (s.coherentByte_memoryOnly _ _ _ _) (ih _ _)

theorem State.portNibbles_memoryOnly (s : State) (die a : Nat) (bs : List Byte) (m : Nibbles) : s.MemoryOnly (s.portNibbles die a bs m) :=
  ((s.coherentBytes_memoryOnly die m a bs).trans (.of_recached (State.homeWritten_recached _ _ _ _))).trans
    (.of_recached (State.clearPort_recached _ _ _ _))

theorem State.setReg_memoryOnly (s : State) (off : Nat) (x : DWord) : s.MemoryOnly (s.setReg off x) :=
  ⟨_, _, _, _, _, _, _, _, _, _, _, rfl⟩

theorem State.countError_memoryOnly (s : State) (die k n : Nat) : s.MemoryOnly (s.countError die k n) := s.setReg_memoryOnly _ _

theorem State.performNibbles_memoryOnly (s : State) (core a : Nat) (bs : List Byte) (m : Nibbles) :
    s.MemoryOnly (s.performNibbles core a bs m) := by
  rw [State.performNibbles]
  split
  · exact s.countError_memoryOnly _ _ _
  · exact (s.portNibbles_memoryOnly _ a bs m).trans (.of_recached (.trans ⟨_, _, _, _, _, rfl⟩ (State.patchL1_recached _ _ _ _)))

theorem State.performStore_memoryOnly (s : State) (p : PendingStore) : s.MemoryOnly (s.performStore p) := by
  simp only [State.performStore]
  split
  · exact s.performNibbles_memoryOnly _ _ _ _
  · split
    · exact (s.performNibbles_memoryOnly _ _ _ _).trans
        (.of_recached ((State.clearUnit_recached _ _ _).trans (State.patchL1_recached _ _ _ _)))
    · exact s.performNibbles_memoryOnly _ _ _ _

theorem State.drainStores_memoryOnly (s : State) (p : PendingStore → Bool) : s.MemoryOnly (s.drainStores p) :=
  .trans (foldl_related _ MemoryOnly.refl (fun _ _ _ => MemoryOnly.trans) _ (fun t x _ => t.performStore_memoryOnly x.2) s)
    ⟨_, _, _, _, _, _, _, _, _, _, _, rfl⟩

/-! ## Acquires and releases (R186) -/

theorem State.dropRemote_memoryOnly (s : State) (die : Nat) (p : Nat → Bool) : s.MemoryOnly (s.dropRemote die p) :=
  .trans (.of_rewritten (s.flushLines_rewritten _)) (.of_recached ⟨_, _, _, _, _, rfl⟩)

theorem State.writeBackRemote_memoryOnly (s : State) (die : Nat) : s.MemoryOnly (s.writeBackRemote die) :=
  .trans (.of_rewritten (s.flushLines_rewritten _)) (.of_recached ⟨_, _, _, _, _, rfl⟩)

theorem State.acquireAct_memoryOnly (s : State) (core : Nat) (scope : BitVec 3) : s.MemoryOnly (s.acquireAct core scope) := by
  have h3 : s.MemoryOnly (if 3 ≤ scope.toNat then
      { s with l1 := SMap.set [] s.l1 core [], texel := SMap.set [] s.texel core [] } else s) := by
    split
    · exact .of_recached ⟨_, _, _, _, _, rfl⟩
    · exact .refl s
  simp only [State.acquireAct]
  split
  · exact h3.trans (State.dropRemote_memoryOnly _ _ _)
  · exact h3

theorem State.releaseAct_memoryOnly (s : State) (core : Nat) (scope : BitVec 3) : s.MemoryOnly (s.releaseAct core scope) := by
  rw [State.releaseAct]
  split
  · exact s.writeBackRemote_memoryOnly _
  · exact .refl s

theorem State.release_memoryOnly (s : State) (core wk : Nat) (m : SliceMask) (scope : BitVec 3) :
    s.MemoryOnly (s.release core wk m scope) :=
  (s.drainStores_memoryOnly _).trans (State.releaseAct_memoryOnly _ _ _)

theorem State.cacheEntry_memoryOnly (s : State) (core dom n : Nat) : s.MemoryOnly (s.cacheEntry core dom n) := by
  rw [State.cacheEntry]
  split
  · exact .refl s
  · exact ⟨_, _, _, _, _, _, _, _, _, _, _, rfl⟩

end Sys2Proof.Machine
end

