-- ==== Sys2Proof/Proofs/Tiles.lean ====
section
/-!
Tile transfers at their gang points, tile moves and lending. Settles O31 and O32.
-/

namespace Sys2Proof.Machine

section
variable {s t : State} {e : Env} {i : Instr} {body : Env → State → Act}

theorem gangs_writes {ws : List RegWrite} {c : Cond} (h : s.Gangs e i) (hg : Instr.gangPoint i = true)
    (hb : body (e.ganged i s) (s.ganged e i) = .writes t ws c) :
    issue i body s = .next (t.after (e.ganged i s) i ((e.ganged i s).result i ws c)) := by
  rw [issue_gangs h hg, hb]
  rfl

theorem gangs_hold {wt : Wait} (h : s.Gangs e i) (hg : Instr.gangPoint i = true)
    (hb : body (e.ganged i s) (s.ganged e i) = .hold t wt) : issue i body s = .next (t.setWait (e.ganged i s) wt) := by
  rw [issue_gangs h hg, hb]
  rfl

theorem withClaim_eq (h : s.claimFree e) (go : State → Act) : e.withClaim s go = go (s.claimed e) := by
  simp only [Env.withClaim, State.claimed]
  obtain h | h := h
  · rw [h, if_neg nofun]
  · rw [h, if_pos rfl]
    exact if_pos rfl

theorem enqueue_eq {o : MatOp} (ho : o.sampler = false) (h : s.queueUsed e.quad < 8) :
    e.enqueue s o = .writes { s with matOps := s.matOps ++ [o] } [] .none := by
  rw [Env.enqueue, ho]
  exact if_neg (Nat.not_le.2 h)

/-! ## What the joining of a gang leaves to the commit log (R37) -/

/-- A workgroup as the joining of a gang leaves it: its log may be fenced. -/
def Workgroup.Fenced (g g' : Workgroup) : Prop := ∃ l, g' = { g with log := l } ∧ (g.log = [] → l = [])

theorem State.joinFence_workgroup {wk n : Nat} {m : SliceMask} {g : Workgroup} (h : s.workgroups.find? n = some g) :
    ∃ g', (s.joinFence wk m).workgroups.find? n = some g' ∧ g.Fenced g' := by
  have hd : (s.drainStores (ofSlices wk m)).workgroups = s.workgroups := (s.drainStores_memoryOnly _).workgroups
  change ∃ g', SMap.find? ((s.drainStores (ofSlices wk m)).workgroups.modify (wk / 16) _) n = some g' ∧ _
  rw [hd]
  obtain rfl | hn := eq_or_ne n (wk / 16)
  · rw [SMap.find?_modify_same, h]
    exact ⟨_, rfl, _, rfl, fun hnil => by rw [hnil]; rfl⟩
  · rw [SMap.find?_modify_other _ _ hn]
    exact ⟨g, h, g.log, rfl, id⟩

theorem State.claimed_workgroups : (s.claimed e).workgroups = s.workgroups := by
  rw [State.claimed]
  split <;> rfl

theorem State.claimed_launches : (s.claimed e).launches = s.launches := by
  rw [State.claimed]
  split <;> rfl

theorem State.ganged_launches : (s.ganged e i).launches = s.launches := (s.drainStores_memoryOnly _).launches

theorem ganged_wg : (e.ganged i s).wave.wg = e.wave.wg := by simp only [Env.ganged, Wave.setJoins]
theorem ganged_launch : (e.ganged i s).launch = e.launch := rfl

/-- The wave's workgroup in the state of the gang, with the claim. -/
theorem ganged_workgroup (h : s.Gangs e i) :
    ∃ g', ((s.ganged e i).claimed (e.ganged i s)).workgroups.find? (e.ganged i s).wave.wg = some g' ∧
      e.wg.Fenced g' ∧ ((s.ganged e i).claimed (e.ganged i s)).launches.find? g'.launch = some (e.ganged i s).launch := by
  obtain ⟨-, -, -, hwg, hla, -⟩ := State.env_some h.1.1
  obtain ⟨g', hg, hf⟩ := State.joinFence_workgroup (wk := e.wk) (m := slicesOfLanes e.wave.partakers) hwg
  refine ⟨g', ?_, hf, ?_⟩
  · rw [State.claimed_workgroups, ganged_wg]
    exact hg
  · obtain ⟨l, rfl, -⟩ := hf
    rw [State.claimed_launches, State.ganged_launches]
    exact hla

/-- Nothing of the log is applied outside deterministic mode, without the token, or where the log is empty. -/
theorem applyLog_idle {n : Nat} {g : Workgroup} {la : Launch} (hg : s.workgroups.find? n = some g)
    (hla : s.launches.find? g.launch = some la) (h : la.det = false ∨ la.token ≠ la.keyOf g ∨ g.log = []) : s.applyLog n = s := by
  simp only [State.applyLog, hg, hla]
  refine if_neg fun hc => ?_
  simp only [Bool.and_eq_true, decide_eq_true_eq, Bool.not_eq_true'] at hc
  obtain ⟨⟨hdet, htoken⟩, hlog⟩ := hc
  obtain h | h | h := h
  · rw [h] at hdet
    exact Bool.false_ne_true hdet
  · exact h htoken
  · rw [h] at hlog
    exact Bool.false_ne_true hlog.symm

end

/-! ## Transfers (R256, R258) -/

theorem bload_enters {s : State} {e : Env} {f : XFmt} (h : s.Gangs e (.bload f)) {e1 : Env} (he1 : e1 = e.ganged (.bload f) s) {s1 : State}
    (hs1 : s1 = s.ganged e (.bload f)) {entry : ObjEntry}
    (hentry : s1.checkObject e1.core e1.dom (e1.readRef f.abase e1.first) needR .tensor 0 0 = .ok entry)
    (hin : (s1.tensor entry).inside (e1.coords f.sop e1.first) = true) (htype : (s1.tensor entry).etype = etypeOf f.ity)
    (hmx : f.ity = .mxf4 → (s1.tensor entry).layout = 5)
    (h5 : (s1.tensor entry).layout = 5 → (e1.coords f.sop e1.first).getD 0 0 % 32 = 0) (hwait : e1.awaits s1 (BitVec.allOnes 24) = none)
    {s2 : State} (hs2 : s2 = s1.cacheEntry e1.core e1.dom (refIndex (e1.readRef f.abase e1.first))) (hroom : s2.queueUsed e1.quad < 8) :
    exec (.bload f) s = .next (({ s2 with matOps := s2.matOps ++ [{ e1.matOp (.bload f) with
      ref := e1.readRef f.abase e1.first, entry := entry, coords := e1.coords f.sop e1.first }] }).after e1 (.bload f)
        (e1.result (.bload f) [] .none)) := by
  subst he1 hs1 hs2
  refine gangs_writes (body := fun e s => _) h rfl ?_
  have hfit : ¬ (((s.ganged e (.bload f)).tensor entry).etype ≠ etypeOf f.ity ∨
      (f.ity = .mxf4 ∧ ((s.ganged e (.bload f)).tensor entry).layout ≠ 5) ∨
      (((s.ganged e (.bload f)).tensor entry).layout = 5 ∧ ((e.ganged (.bload f) s).coords f.sop (e.ganged (.bload f) s).first).getD 0 0 % 32 ≠ 0)) := by
    rintro (hc | ⟨hc, hc'⟩ | ⟨hc, hc'⟩)
    · exact hc htype
    · exact hc' (hmx hc)
    · exact hc' (h5 hc)
  simp only [hentry, hin, Bool.not_true, Bool.false_eq_true, if_false, if_neg hfit, hwait]
  exact enqueue_eq rfl hroom

/-- What a drain's checks and claim leave to do. -/
def drainBody (i : Instr) (f : XFmt) (need : BitVec 4) (size : Nat) (go : MatOp → Env → State → Act) (e : Env) (s : State) : Act :=
  match e.drainChecks s i f need size with
  | .error (c, v) => .trap c v
  | .ok o =>
    match e.awaits s e.frag.slices with
    | some w => .hold s w
    | none => e.withClaim s (go o e)

theorem drainBody_eq {s : State} {e : Env} {i : Instr} {f : XFmt} {need : BitVec 4} {size : Nat} {go : MatOp → Env → State → Act} {o : MatOp}
    (ho : e.drainChecks s i f need size = .ok o) (hw : e.awaits s e.frag.slices = none) (hc : s.claimFree e) :
    drainBody i f need size go e s = go o e (s.claimed e) := by
  simp only [drainBody, ho, hw]
  exact withClaim_eq hc _

/-- A drain's place in the queue. -/
def drainEnters (o : MatOp) (e : Env) (s : State) : Act := e.enqueue (s.cacheEntry e.core e.dom (refIndex o.ref)) o

/-- A DRAIN.ADD after its checks: into the queue, or in deterministic mode without the token into the log. -/
def drainAdds (f : XFmt) (o : MatOp) (e : Env) (s : State) : Act :=
  let s := s.applyLog e.wave.wg
  let held := match s.workgroups.find? e.wave.wg with
    | some wg => decide (e.launch.token = e.launch.keyOf wg) && wg.log.isEmpty
    | none => false
  if !e.launch.det || held then drainEnters o e s
  else if s.tileBusy e.wk f.tile.toNat || decide (8 ≤ s.queueUsed e.quad) then .hold s .again
  else
    match s.waves.find? e.wk with
    | none => .hold s .token
    | some w => e.commit (.drainAdd f) false s (s.drainAccs o f w)

theorem exec_drain (f : XFmt) (s : State) :
    exec (.drain f) s = issue (.drain f) (drainBody (.drain f) f needW (drainSize f.ity) drainEnters) s := rfl

theorem exec_drainAdd (f : XFmt) (s : State) :
    exec (.drainAdd f) s = issue (.drainAdd f) (drainBody (.drainAdd f) f needA 32 (drainAdds f)) s := rfl

theorem keyOf_fenced {la : Launch} {g g' : Workgroup} (h : g.Fenced g') : la.keyOf g' = la.keyOf g := by
  obtain ⟨l, rfl, -⟩ := h
  rfl

section
variable {t : State} {e : Env} {f : XFmt} {o : MatOp} {g : Workgroup} (hg : t.workgroups.find? e.wave.wg = some g)
  (hla : t.launches.find? g.launch = some e.launch)
include hg hla

/-- A DRAIN.ADD outside deterministic mode, or with the token and an empty log, goes to the queue. -/
theorem drainAdds_enters (hd : e.launch.det = false ∨ e.launch.token = e.launch.keyOf g ∧ g.log = []) :
    drainAdds f o e t = drainEnters o e t := by
  have hlog : t.applyLog e.wave.wg = t := applyLog_idle hg hla (hd.imp_right fun h => .inr h.2)
  have hheld : (!e.launch.det || decide (e.launch.token = e.launch.keyOf g) && g.log.isEmpty) = true := by
    obtain h | ⟨h, h'⟩ := hd
    · simp [h]
    · simp [h, h']
  simp only [drainAdds, hlog, hg, hheld, if_true]

/-- A DRAIN.ADD in deterministic mode without the token, on a tile that is ready, is an update for the log. -/
theorem drainAdds_commits {w : Wave} (hdet : e.launch.det = true) (htoken : e.launch.token ≠ e.launch.keyOf g)
    (hbusy : t.tileBusy e.wk f.tile.toNat = false) (hroom : t.queueUsed e.quad < 8) (hw : t.waves.find? e.wk = some w) :
    drainAdds f o e t = e.commit (.drainAdd f) false t (t.drainAccs o f w) := by
  have hlog : t.applyLog e.wave.wg = t := applyLog_idle hg hla (.inr (.inl htoken))
  have hheld : (!e.launch.det || decide (e.launch.token = e.launch.keyOf g) && g.log.isEmpty) = false := by simp [hdet, htoken]
  have hready : (t.tileBusy e.wk f.tile.toNat || decide (8 ≤ t.queueUsed e.quad)) = false := by simp [hbusy, hroom]
  simp only [drainAdds, hlog, hg, hheld, hready, Bool.false_eq_true, if_false, hw]

/-- Without room in its part of the commit log the update waits for the token. -/
theorem drainAdd_waits {accs : List Acc} (hdet : e.launch.det = true) (htoken : e.launch.token ≠ e.launch.keyOf g)
    (hfull : e.launch.clogLen < g.logUsed + 8256) : e.commit (.drainAdd f) false t accs = .hold t .token := by
  have hlog : t.applyLog e.wave.wg = t := applyLog_idle hg hla (.inr (.inl htoken))
  simp [Env.commit, hdet, hlog, hg, htoken, logBytes, hfull]

theorem drainAdd_logs {accs : List Acc} (hdet : e.launch.det = true) (htoken : e.launch.token ≠ e.launch.keyOf g)
    (hroom : g.logUsed + 8256 ≤ e.launch.clogLen) (hfollow : e.followsOps t 0 accs = none) :
    e.commit (.drainAdd f) false t accs = e.logUpdate (.drainAdd f) t g accs (some e.wave.openBatch) := by
  have hlog : t.applyLog e.wave.wg = t := applyLog_idle hg hla (.inr (.inl htoken))
  have hfollow : e.followsOps t (memOrder (.drainAdd f)).1 accs = none := hfollow
  simp [Env.commit, hdet, hlog, hg, htoken, logBytes, Nat.not_lt.2 hroom, hfollow]

end

/-- An update of a workgroup whose log may be fenced stands in the log as one of the workgroup. -/
theorem logUpdate_fenced {t : State} {e : Env} {i : Instr} {accs : List Acc} {batch : Option Word} {g : Workgroup} (hf : e.wg.Fenced g)
    (hneeds : t.logNeeds e.core e.launch.dom e.launch (e.launch.logPlace e.wg) (logBytes i accs.length) = []) :
    e.logUpdate i t g accs batch = .writes (t.logged e i accs batch (logBytes i accs.length)) [] .none := by
  obtain ⟨l, rfl, -⟩ := hf
  have hplace : e.launch.logPlace { e.wg with log := l } = e.launch.logPlace e.wg := rfl
  simp only [Env.logUpdate, hplace, hneeds, List.isEmpty_nil, Bool.not_true, Bool.false_eq_true, if_false]
  rfl

/-- Settles O31. -/
theorem tileTransfers : Obligations.TileTransfers := by
  intro s e f
  refine ⟨?_, ?_, ?_⟩
  · intro h e1 s1 ref cs entry hentry hin htype hmx h5 hwait s2 hroom
    exact bload_enters h rfl rfl hentry hin htype hmx h5 hwait rfl hroom
  · intro p hp h hd e1 s1 o ho hwait hc s2 hroom hsampler
    have henters : drainEnters o e1 (s1.claimed e1) = .writes { s2 with matOps := s2.matOps ++ [o] } [] .none := enqueue_eq hsampler hroom
    simp only [List.mem_cons, List.not_mem_nil, or_false] at hp
    obtain rfl | rfl := hp
    · rw [exec_drain]
      exact gangs_writes h rfl ((drainBody_eq ho hwait hc).trans henters)
    · obtain ⟨g, hg, hf, hla⟩ := ganged_workgroup h
      have hheld : e1.launch.det = false ∨ e1.launch.token = e1.launch.keyOf g ∧ g.log = [] := by
        refine Or.imp_right (fun ht => ⟨ht.1.trans (keyOf_fenced hf).symm, ?_⟩) (hd.resolve_left (by simp))
        obtain ⟨l, rfl, hl⟩ := hf
        exact hl ht.2
      have hbody := drainAdds_enters (f := f) (o := o) hg hla hheld
      rw [exec_drainAdd]
      exact gangs_writes h rfl ((drainBody_eq ho hwait hc).trans (hbody.trans henters))
  · intro h hdet htoken e1 s1 s2 o w ho hwait hc hbusy hroom hw accs
    obtain ⟨g, hg, hf, hla⟩ := ganged_workgroup h
    have htoken' : e1.launch.token ≠ e1.launch.keyOf g := by
      rw [keyOf_fenced hf]
      exact htoken
    have hbody := (drainBody_eq (go := drainAdds f) ho hwait hc).trans (drainAdds_commits (o := o) hg hla hdet htoken' hbusy hroom hw)
    have hused : g.logUsed = e.wg.logUsed := by
      obtain ⟨l, rfl, -⟩ := hf
      rfl
    rw [exec_drainAdd]
    refine ⟨fun hfull => gangs_hold h rfl (hbody.trans (drainAdd_waits hg hla hdet htoken' ?_)), fun hfree hfollow hneeds => ?_⟩
    · rw [hused]
      exact hfull
    · refine gangs_writes h rfl (hbody.trans ((drainAdd_logs hg hla hdet htoken' ?_ hfollow).trans (logUpdate_fenced hf hneeds)))
      rw [hused]
      exact hfree

/-! ## Tile moves, lending and ASTAT (R257, R260, R262) -/

theorem tileMoves : Rules.TileMoves := by
  intro s e f ls columns s1 hc hbusy
  refine ⟨fun hi => ?_, fun hi hroom => ?_⟩
  · refine issue_writes (body := fun e s => e.withClaim s _) hi rfl ((withClaim_eq hc _).trans ?_)
    dsimp only
    rw [if_neg (by rw [hbusy]; exact Bool.false_ne_true)]
    rfl
  · have hready : (s1.tileBusy e.wk f.tile.toNat || decide (8 ≤ s1.queueUsed e.quad)) = false := by simp [hbusy, hroom]
    refine issue_writes (body := fun e s => e.withClaim s _) hi rfl ((withClaim_eq hc _).trans ?_)
    dsimp only
    rw [if_neg (by rw [hready]; exact Bool.false_ne_true)]
    rfl

/-- Register writes after an effect on the wave that leaves its flow, where the fragment goes straight on. -/
theorem run_completes {s t : State} {e : Env} {i : Instr} {body : Env → State → Act} {ws : List RegWrite} {c : Cond} {w : Wave}
    (h : s.Runs e i) (hg : Instr.gangPoint i = false) (hb : body e s = .writes t ws c) (hw : t.waves.find? e.wk = some w)
    (hf : e.wave.SameFlow w) (hwg : t.workgroups = s.workgroups) (hla : t.launches = s.launches) (hbar : t.bar0 = s.bar0) :
    issue i body s = .next (t.completed e i (e.result i ws c)) := by
  obtain ⟨-, -, -, hwg', hla', -⟩ := State.env_some h.1
  rw [issue_performs h.issues hg, hb]
  exact congrArg _ (perform_writes h.1 h.2.2 hw hf (hwg ▸ hwg') (hla ▸ hla') (codeWord_congr hbar ..) s)

/-- The wave's and the core's lend counts set. -/
def State.lending (s : State) (e : Env) (d : BitVec 4) (n : Nat) : State :=
  { s.modWave e.wk (fun w => { w with lend := d }) with lends := SMap.set 0 s.lends e.core n }

theorem run_lending {s : State} {e : Env} {i : Instr} {body : Env → State → Act} {g : Wave → BitVec 4} {n : Nat} (h : s.Runs e i)
    (hg : Instr.gangPoint i = false)
    (hb : body e s = .writes { s.modWave e.wk (fun w => { w with lend := g w }) with lends := SMap.set 0 s.lends e.core n } [] .none) :
    issue i body s = .next ((s.lending e (g e.wave) n).completed e i (e.result i [] .none)) := by
  obtain ⟨-, hw, -⟩ := State.env_some h.1
  have hset : s.modWave e.wk (fun w => { w with lend := g w }) = s.modWave e.wk fun w => { w with lend := g e.wave } :=
    State.modWave_congr _ _ _ _ e.wave hw rfl
  rw [hset] at hb
  refine run_completes (w := { e.wave with lend := g e.wave }) h hg hb ?_ ⟨rfl, rfl, rfl, rfl, rfl, rfl, rfl, rfl, rfl⟩ rfl rfl rfl
  change (s.modWave e.wk _).waves.find? e.wk = _
  rw [State.modWave_find, hw]
  rfl

/-- What ASTAT reads by its SHAPE. -/
theorem astat_value (a b c d z n : Nat) : [a, b, c, d].getD n z = (match n with
    | 0 => a
    | 1 => b
    | 2 => c
    | 3 => d
    | _ => z) := by
  match n with
  | 0 => rfl
  | 1 => rfl
  | 2 => rfl
  | 3 => rfl
  | n + 4 => rfl

theorem lending : Rules.Lending := by
  intro s e f count set value
  refine ⟨fun hr h => ?_, fun hr h => ?_, fun hr => ?_, fun hr => ?_⟩
  · exact run_lending (body := fun e s => _) (g := fun w => w.lend + 1) hr rfl (if_neg h)
  · exact run_writes (body := fun e s => _) hr rfl (if_pos h)
  · exact run_lending (body := fun e s => _) (g := fun w => w.lend - 1) hr rfl rfl
  · refine run_writes (body := fun e s => _) hr rfl ?_
    simp only [value, astat_value]
    rfl

/-- Settles O32. -/
theorem tilesAndLending : Obligations.TilesAndLending := ⟨tileMoves, lending⟩

end Sys2Proof.Machine
end

