-- ==== Sys2Proof/Proofs/WeightPins.lean ====
section
/-!
Pins of network images and the draws of RNG. Settles O34.
-/

namespace Sys2Proof.Machine

section
variable {s : State} {e : Env} {f : GFmt} {ref : DWord}

theorem useImage_waves (s : State) (core key : Nat) : (s.useImage core key).waves = s.waves := rfl

/-- An effect on the wave may speak of the wave as the environment has it. -/
theorem modWave_env {t : State} {i : Instr} (he : s.env i = some e) (ht : t.waves = s.waves) (g h : Wave → Wave) (hgh : g e.wave = h e.wave) :
    t.modWave e.wk g = t.modWave e.wk h := by
  obtain ⟨-, hw, -⟩ := State.env_some he
  exact State.modWave_congr t e.wk g h e.wave (ht ▸ hw) hgh

theorem wpin_status {image : WImage} (hi : s.Issues e (.wpin f)) (href : e.netRef s f.hdr = .ok ref)
    (himage : s.image? e.core (imageKey e.dom ref) = some image) :
    exec (.wpin f) s = .next ((if e.pinStatus s image = 0 then (s.useImage e.core (imageKey e.dom ref)).modWave e.wk fun w =>
        { w with wpins := SMap.set 0 w.wpins (imageKey e.dom ref) (SMap.get 0 w.wpins (imageKey e.dom ref) + 1),
                 wblocks := w.wblocks.insert (imageKey e.dom ref) image.blocks }
      else s.useImage e.core (imageKey e.dom ref)).after e (.wpin f)
        (e.result (.wpin f) (writeTo .z32 f.dbase e.first (BitVec.ofNat 64 (e.pinStatus s image))) .none)) := by
  refine issue_writes (body := fun e s => _) hi rfl ?_
  simp only [href, himage]

theorem wpin_fills (hi : s.Issues e (.wpin f)) (href : e.netRef s f.hdr = .ok ref)
    (himage : s.image? e.core (imageKey e.dom ref) = none) (hfollow : e.mustFollow s 0 [e.imageAcc ref] = none) :
    exec (.wpin f) s = .next ((s.startFill e.core e.wave.dom ref e.wk e.who.slices none).setWait e (.fill (imageKey e.dom ref) ref)) := by
  refine issue_hold (body := fun e s => _) hi rfl ?_
  simp only [href, himage, Env.awaitFill, hfollow]

theorem wunpin_pins (hi : s.Issues e (.wunpin f)) (href : e.netRef s f.hdr = .ok ref) :
    exec (.wunpin f) s = .next ((s.modWave e.wk fun w => { w with
      wpins := SMap.set 0 w.wpins (imageKey e.dom ref) (SMap.get 0 w.wpins (imageKey e.dom ref) - 1) }).after e (.wunpin f)
        (e.result (.wunpin f) [] .none)) := by
  refine issue_writes (body := fun e s => _) hi rfl ?_
  simp only [href]

theorem winv_drops (hi : s.Issues e (.winv f)) (href : e.netRef s f.hdr = .ok ref) (hw : e.awaits s e.who.slices = none) :
    exec (.winv f) s = .next ((((s.release e.core e.wk e.who.slices (f.ctl.extractLsb' 0 3)).acquireAct e.core
      (f.ctl.extractLsb' 0 3)).dropImages e.core fun i => i.key == imageKey e.dom ref).after e (.winv f) (e.result (.winv f) [] .none)) := by
  refine issue_writes (body := fun e s => _) hi rfl ?_
  simp only [href, hw]

end

theorem rngCount (f : GFmt) : (f.ctl.extractLsb' 0 3).toNat = f.ctl.toNat % 8 := by simp [BitVec.extractLsb'_toNat]

/-- Settles O34. -/
theorem weightPins : Obligations.WeightPins := by
  intro s e f pin pinned held n
  refine ⟨fun ref image hi href himage => ?_, fun ref hi => wpin_fills hi, fun ref hi href => ?_, fun ref hi => winv_drops hi,
    fun hr hx => ?_, fun hr hx => ?_⟩
  · have hpin := wpin_status hi href himage
    refine ⟨fun h => ?_, fun h => ?_⟩
    · rw [hpin, if_pos h, h]
      rw [modWave_env (t := s.useImage e.core (imageKey e.dom ref)) hi.1 rfl _ (fun w => { w with
        wpins := SMap.set 0 w.wpins (imageKey e.dom ref) (held ref + 1), wblocks := w.wblocks.insert (imageKey e.dom ref) image.blocks }) rfl]
      rfl
    · rw [hpin, if_neg h]
  · rw [wunpin_pins hi href, modWave_env hi.1 rfl _ (fun w => { w with wpins := SMap.set 0 w.wpins (imageKey e.dom ref) (held ref - 1) }) rfl]
  · refine run_writes_reserve (body := fun e s => _) hr rfl ?_
    simp only [hx, if_true, rngCount]
    rfl
  · refine run_writes (body := fun e s => _) hr rfl ?_
    simp only [hx, if_false, rngCount]
    rfl

end Sys2Proof.Machine
end

