-- ==== Sys2Proof/Proofs/Rays.lean ====
section
/-!
Pins of generations, and the rays that RAY.TRACE starts and RAY.NEXT continues. Settles O35.
-/

namespace Sys2Proof.Machine

section
variable {s : State} {e : Env} {f : GFmt} {i : Instr}

/-! ## Pins (R304) -/

/-- RAY.PIN's outcome in the state of its acquire: 0 where nothing can be pinned, else the pinned generation. -/
def pinned (e : Env) (f : GFmt) (entry : ObjEntry) (s : State) : Act :=
  let ref := e.readRef f.hdr e.first
  let gen : Word := BitVec.ofNat 32 (natOfBytes (s.bytes (s.addrOf e.dom entry 0) 4))
  let held := e.wave.rayPin ref gen
  if gen = 0 ∨ held = 255 ∨ (held = 0 ∧ 4 ≤ e.wave.rayPins.length) then .writes s (writeTo .z32 f.dbase e.first 0) .none
  else .writes ((s.modPins e.dom entry gen (· + 1)).modWave e.wk fun w => w.setRayPin ref gen (held + 1))
    (writeTo .z32 f.dbase e.first (gen.zeroExtend 64)) .none

theorem exec_rayPin {entry : ObjEntry}
    (hok : s.checkObject e.core e.dom (e.readRef f.hdr e.first) needR (.only 5) 0 0 = .ok entry)
    (hres : s.residentRange entry 0 256 = true) (hpoison : s.objectPoison (dieOf e.core) e.dom entry 0 32 = false) :
    ∃ body : Env → State → Act, exec (.rayPin f) s = issue (.rayPin f) body s ∧ body e s = pinned e f entry (s.acquireAct e.core 5) := by
  refine ⟨_, rfl, ?_⟩
  simp only [hok, hres, hpoison, Bool.not_true, Bool.and_false, Bool.false_eq_true, if_false]
  rfl

theorem rayPin_refused {entry : ObjEntry} (hi : s.Issues e (.rayPin f))
    (hok : s.checkObject e.core e.dom (e.readRef f.hdr e.first) needR (.only 5) 0 0 = .ok entry)
    (hres : s.residentRange entry 0 256 = true) (hpoison : s.objectPoison (dieOf e.core) e.dom entry 0 32 = false)
    {s1 : State} (hs1 : s1 = s.acquireAct e.core 5) {gen : Word}
    (hgen : gen = BitVec.ofNat 32 (natOfBytes (s1.bytes (s1.addrOf e.dom entry 0) 4))) {held : Nat}
    (hheld : held = e.wave.rayPin (e.readRef f.hdr e.first) gen) (h : gen = 0 ∨ held = 255 ∨ held = 0 ∧ 4 ≤ e.wave.rayPins.length) :
    exec (.rayPin f) s = .next (s1.after e (.rayPin f) (e.result (.rayPin f) (writeTo .z32 f.dbase e.first 0) .none)) := by
  obtain ⟨body, hexec, hbody⟩ := exec_rayPin hok hres hpoison
  subst hs1 hgen hheld
  rw [hexec]
  exact issue_writes hi rfl (hbody.trans (if_pos h))

theorem rayPin_pins {entry : ObjEntry} (hi : s.Issues e (.rayPin f))
    (hok : s.checkObject e.core e.dom (e.readRef f.hdr e.first) needR (.only 5) 0 0 = .ok entry)
    (hres : s.residentRange entry 0 256 = true) (hpoison : s.objectPoison (dieOf e.core) e.dom entry 0 32 = false)
    {s1 : State} (hs1 : s1 = s.acquireAct e.core 5) {gen : Word}
    (hgen : gen = BitVec.ofNat 32 (natOfBytes (s1.bytes (s1.addrOf e.dom entry 0) 4))) {held : Nat}
    (hheld : held = e.wave.rayPin (e.readRef f.hdr e.first) gen) (h : ¬ (gen = 0 ∨ held = 255 ∨ held = 0 ∧ 4 ≤ e.wave.rayPins.length)) :
    exec (.rayPin f) s = .next (((s1.modPins e.dom entry gen (· + 1)).modWave e.wk fun w =>
      w.setRayPin (e.readRef f.hdr e.first) gen (held + 1)).after e (.rayPin f)
        (e.result (.rayPin f) (writeTo .z32 f.dbase e.first (gen.zeroExtend 64)) .none)) := by
  obtain ⟨body, hexec, hbody⟩ := exec_rayPin hok hres hpoison
  subst hs1 hgen hheld
  rw [hexec]
  exact issue_writes hi rfl (hbody.trans (if_neg h))

/-! ## Traces (R305) -/

/-- A ray instruction's record, and the state it leaves. -/
theorem rayAct_pends {t : State} {body : Env → State → Act} (hi : s.Issues e i) (hg : Instr.gangPoint i = false)
    (hexec : exec i s = issue i body s) (hb : body e s = e.rayAct i t) :
    ∃ p : Pending, (p.instr = i ∧ p.kind = .ray ∧ p.mask = e.lanes ∧ p.writes = [] ∧ p.accs = []) ∧
      exec i s = .next (t.after e i (pends p)) :=
  ⟨_, ⟨rfl, rfl, rfl, rfl, rfl⟩, hexec.trans (issue_access hi hg hb)⟩

/-- RAY.TRACE starts a ray in a lane whose slot is empty. -/
def startRay (e : Env) (f : GFmt) (entries : Nat → ObjEntry) (s : State) (l : Nat) : State :=
  (s.modPins e.dom (entries l) (lowWord (e.read .z32 f.extra l)) (· + 1)).modWave e.wk fun w =>
    { w with rays := SMap.insert w.rays l (e.raySlot f s (e.readRef f.hdr l) (entries l) (lowWord (e.read .z32 f.extra l)) l) }

/-- RAY.TRACE starts a ray in a lane, and gives up the one that its slot held. -/
def restartRay (e : Env) (f : GFmt) (s : State) (x : (Nat × DWord × Word) × ObjEntry) : State :=
  let (l, ref, gen) := x.1
  let s := match ((s.waves.find? e.wk).bind fun w => w.rays.find? l) with
    | some r => s.modPins r.dom.toNat r.entry r.gen fun n => n - 1
    | none => s
  (s.modPins e.dom x.2 gen (· + 1)).modWave e.wk fun w => { w with rays := SMap.insert w.rays l (e.raySlot f s ref x.2 gen l) }

theorem findSome?_eq_none_of {α β : Type} {g : α → Option β} {l : List α} (h : ∀ x ∈ l, g x = none) : l.findSome? g = none :=
  List.findSome?_eq_none_iff.2 h

/-- The rays of RAY.TRACE's lanes, where each has its pin and passes its check. -/
theorem exec_rayTrace {entries : Nat → ObjEntry}
    (hpin : ∀ l ∈ lanesOf e.lanes, e.wave.rayPin (e.readRef f.hdr l) (lowWord (e.read .z32 f.extra l)) ≠ 0)
    (hok : ∀ l ∈ lanesOf e.lanes, s.checkObject e.core e.dom (e.readRef f.hdr l) needR (.only 5) 0 0 = .ok (entries l))
    (hbusy : e.raysBusy = none) : ∃ body : Env → State → Act, exec (.rayTrace f) s = issue (.rayTrace f) body s ∧
      body e s = e.rayAct (.rayTrace f) (((lanesOf e.lanes).map fun l =>
        ((l, e.readRef f.hdr l, (lowWord (e.read .z32 f.extra l) : Word)), entries l)).foldl (restartRay e f) s) := by
  refine ⟨_, rfl, ?_⟩
  have hany : (((lanesOf e.lanes).map fun l => (l, e.readRef f.hdr l, (lowWord (e.read .z32 f.extra l) : Word))).any fun x =>
      e.wave.rayPin x.2.1 x.2.2 == 0) = false := by
    rw [List.any_map, List.any_eq_false]
    intro l hl
    simpa using hpin l hl
  have hchecked : (((lanesOf e.lanes).map fun l => (l, e.readRef f.hdr l, (lowWord (e.read .z32 f.extra l) : Word))).map fun x =>
      (x, s.checkObject e.core e.dom x.2.1 needR (.only 5) 0 0)) =
      (lanesOf e.lanes).map fun l => ((l, e.readRef f.hdr l, (lowWord (e.read .z32 f.extra l) : Word)), Except.ok (entries l)) := by
    rw [List.map_map]
    exact List.map_congr_left fun l hl => congrArg (Prod.mk _) (hok l hl)
  dsimp only
  rw [hany, if_neg Bool.false_ne_true, hchecked, List.findSome?_map, List.filterMap_map]
  simp only [Function.comp_def, findSome?_eq_none_of (fun _ _ => rfl), hbusy, List.filterMap_eq_map']
  rfl

theorem modPins_waves (s : State) (dom : Nat) (x : ObjEntry) (gen : Word) (g : Nat → Nat) : (s.modPins dom x gen g).waves = s.waves := by
  rw [State.modPins]
  split
  · exact State.setBytes_waves _ _ _
  · rfl

/-- The lane's slot of a wave. -/
def State.rayOf (s : State) (wk l : Nat) : Option RaySlot := (s.waves.find? wk).bind fun w => w.rays.find? l

theorem startRay_rayOf (entries : Nat → ObjEntry) {l m : Nat} (h : m ≠ l) : (startRay e f entries s l).rayOf e.wk m = s.rayOf e.wk m := by
  rw [startRay, State.rayOf, State.modWave_find, modPins_waves, State.rayOf]
  cases s.waves.find? e.wk with
  | none => rfl
  | some w => exact SMap.find?_insert_other _ _ _ _ h

theorem restartRay_empty {entries : Nat → ObjEntry} {l : Nat} (h : s.rayOf e.wk l = none) :
    restartRay e f s ((l, e.readRef f.hdr l, lowWord (e.read .z32 f.extra l)), entries l) = startRay e f entries s l := by
  rw [State.rayOf] at h
  simp only [restartRay, h]
  rfl

/-- Where the lanes' slots are empty, none is given up. -/
theorem foldl_restartRay {entries : Nat → ObjEntry} {ls : List Nat} (hls : ls.Pairwise (· < ·)) (h : ∀ l ∈ ls, s.rayOf e.wk l = none) :
    (ls.map fun l => ((l, e.readRef f.hdr l, (lowWord (e.read .z32 f.extra l) : Word)), entries l)).foldl (restartRay e f) s =
      ls.foldl (startRay e f entries) s := by
  induction ls generalizing s with
  | nil => rfl
  | cons l r ih =>
    obtain ⟨hl, hr⟩ := List.pairwise_cons.1 hls
    rw [List.map_cons, List.foldl_cons, List.foldl_cons, restartRay_empty (h l List.mem_cons_self)]
    refine ih hr fun m hm => ?_
    rw [startRay_rayOf entries (hl m hm).ne']
    exact h m (List.mem_cons_of_mem _ hm)

/-- RAY.TRACE's lanes lack a pin. -/
theorem rayTrace_unpinned (hi : s.Issues e (.rayTrace f))
    (h : ∃ l ∈ lanesOf e.lanes, e.wave.rayPin (e.readRef f.hdr l) (lowWord (e.read .z32 f.extra l)) = 0) :
    exec (.rayTrace f) s = .next (s.trapped e 0x40 (illegalVal (Instr.rayTrace f).word 0x26)) := by
  obtain ⟨l, hl, h0⟩ := h
  refine issue_trap (body := fun e s => _) hi rfl (if_pos ?_)
  rw [List.any_map, List.any_eq_true]
  exact ⟨l, hl, beq_iff_eq.2 h0⟩

/-! ## Decisions (R307) -/

/-- RAY.NEXT's decision in a lane. -/
def decideRay (e : Env) (f : GFmt) (s : State) (l : Nat) : State :=
  let d := e.readZ f.extra l
  let d := if d ≤ 2 then d else Config.freeChoice s.freeCount % 3
  (s.modWave e.wk fun w => { w with rays := w.rays.modify l fun r => r.decide d (w.vreg (regNo f.dbase + 2) l) }).bumpFree

theorem foldl_congr {α β : Type} {g h : β → α → β} {l : List α} (hgh : ∀ b, ∀ a ∈ l, g b a = h b a) (b : β) :
    l.foldl g b = l.foldl h b := by
  induction l generalizing b with
  | nil => rfl
  | cons a l ih =>
    rw [List.foldl_cons, List.foldl_cons, hgh b a List.mem_cons_self]
    exact ih (fun b a ha => hgh b a (List.mem_cons_of_mem _ ha)) _

theorem exec_rayNext (h : ∀ l ∈ lanesOf e.lanes, ((e.wave.rays.find? l).bind fun r => r.cand) ≠ none) :
    ∃ body : Env → State → Act, exec (.rayNext f) s = issue (.rayNext f) body s ∧
      body e s = e.rayAct (.rayNext f) ((lanesOf e.lanes).foldl (decideRay e f) s) := by
  refine ⟨_, rfl, if_neg ?_⟩
  rw [List.any_eq_true]
  rintro ⟨l, hl, hnone⟩
  exact h l hl (Option.isNone_iff_eq_none.1 hnone)

theorem rayNext_uncalled (hi : s.Issues e (.rayNext f)) (h : ∃ l ∈ lanesOf e.lanes, ((e.wave.rays.find? l).bind fun r => r.cand) = none) :
    exec (.rayNext f) s = .next (s.trapped e 0x40 (illegalVal (Instr.rayNext f).word 0x26)) := by
  obtain ⟨l, hl, hnone⟩ := h
  refine issue_trap (body := fun e s => _) hi rfl (if_pos ?_)
  rw [List.any_eq_true]
  exact ⟨l, hl, Option.isNone_iff_eq_none.2 hnone⟩

end

/-- Settles O35. -/
theorem rayInstructions : Obligations.RayInstructions := by
  intro s e f ref given bad runs laneRef laneGen decided
  refine ⟨fun entry hi hok hres hpoison => ?_, fun hi h => ?_, fun hi h => ?_, rayTrace_unpinned, ?_, rayNext_uncalled, ?_⟩
  · exact ⟨rayPin_refused hi hok hres hpoison rfl rfl rfl, rayPin_pins hi hok hres hpoison rfl rfl rfl⟩
  · exact issue_trap (body := fun e s => _) hi rfl (if_pos h)
  · exact issue_writes (body := fun e s => _) hi rfl (if_neg h)
  · intro entries hi hlanes hbusy hempty
    obtain ⟨body, hexec, hbody⟩ := exec_rayTrace (f := f) (s := s) (fun l hl => (hlanes l hl).1) (fun l hl => (hlanes l hl).2) hbusy
    obtain ⟨-, hw, -⟩ := State.env_some hi.1
    have hslots (l : Nat) (hl : l ∈ lanesOf e.lanes) : s.rayOf e.wk l = none := by
      rw [State.rayOf, hw]
      exact hempty l hl
    rw [foldl_restartRay (pairwise_lanesOf _) hslots] at hbody
    exact rayAct_pends hi rfl hexec hbody
  · intro hi h
    obtain ⟨body, hexec, hbody⟩ := exec_rayNext (f := f) (s := s) fun l hl => (h l hl).1
    have hdecide : (lanesOf e.lanes).foldl (decideRay e f) s = (lanesOf e.lanes).foldl (fun s l => (s.modWave e.wk (decided l)).bumpFree) s :=
      foldl_congr (fun t l hl => by rw [decideRay]; simp only [if_pos (h l hl).2]; rfl) s
    rw [hdecide] at hbody
    exact rayAct_pends hi rfl hexec hbody

end Sys2Proof.Machine
end

