-- ==== Sys2Proof/Proofs/BuilderIssue.lean ====
section
/-!
The builder instructions: their checks, and the operations that they put into a builder's queue. Settles O36.
-/

namespace Sys2Proof.Machine

section
variable {s : State} {e : Env} {f : GFmt} {i : Instr}

/-- The forms with records and those without, by their effects. -/
theorem build_forms (hi : i ∈ [Instr.bvhBuild f, .bvhRefit f]) : Instr.gangPoint i = false ∧
    ∃ body : Env → State → Act, exec i s = issue i body s ∧ body e s = e.buildChecked s i f := by
  simp only [List.mem_cons, List.not_mem_nil, or_false] at hi
  obtain rfl | rfl := hi
  · exact ⟨rfl, _, rfl, rfl⟩
  · exact ⟨rfl, _, rfl, rfl⟩

theorem plain_forms (hi : i ∈ [Instr.bvhBal f, .bvhPub f]) : Instr.gangPoint i = false ∧
    ∃ body : Env → State → Act, exec i s = issue i body s ∧ body e s = e.buildPlain s i f := by
  simp only [List.mem_cons, List.not_mem_nil, or_false] at hi
  obtain rfl | rfl := hi
  · exact ⟨rfl, _, rfl, rfl⟩
  · exact ⟨rfl, _, rfl, rfl⟩

/-- The operation that an instruction puts into a builder's queue. -/
def Env.buildOp (e : Env) (s : State) (i : Instr) (bvh : DWord) (be : ObjEntry) (geo : DWord) (ge : ObjEntry) (n : Nat) (scope : BitVec 3) :
    BuildOp :=
  { die := s.bvhDie be, core := e.core, wave := e.wk, slices := e.who.slices, batch := e.wave.openBatch, instr := i,
    pc := e.pc, dom := e.wave.dom, bvhRef := bvh, bvhEntry := be, geoRef := geo, geoEntry := ge, count := n, scope := scope,
    started := false, waited := false, geo := [], place := 0, reserved := none, fence := 0 }

/-- An operation that has nothing to wait for joins its builder's queue. -/
theorem build_eq {bvh : DWord} {be : ObjEntry} {geo : DWord} {ge : ObjEntry} {n : Nat} {scope : BitVec 3}
    (h : e.awaits s e.frag.slices = none) : e.build s i bvh be geo ge n scope = .writes
      { s.fillRefs e.core e.dom (if n = 0 then [bvh] else [bvh, geo]) with builds := s.builds ++ [e.buildOp s i bvh be geo ge n scope] }
      [] .none := by
  simp only [Env.build, h]
  rfl

theorem buildChecked_eq {be ge : ObjEntry} (hbvh : s.checkObject e.core e.dom (e.readRef f.hdr e.first) needW (.only 5) 0 0 = .ok be)
    (hgeo : e.copyRange s (e.readRef f.cbase e.first) needR (.only 0) ((if f.ctl.getLsbD 3 then 32 else 48) * e.readZ f.extra e.first) = .ok ge) :
    e.buildChecked s i f = if e.readZ f.extra e.first = 0 ∨ 2 ^ 24 < e.readZ f.extra e.first then .trap 0x40 (illegalVal i.word 0x27)
      else e.build s i (e.readRef f.hdr e.first) be (e.readRef f.cbase e.first) ge (e.readZ f.extra e.first) (f.ctl.extractLsb' 0 3) := by
  simp only [Env.buildChecked, hbvh, recordBytes, hgeo]

theorem buildPlain_eq {be : ObjEntry} (hbvh : s.checkObject e.core e.dom (e.readRef f.hdr e.first) needW (.only 5) 0 0 = .ok be) :
    e.buildPlain s i f = e.build s i (e.readRef f.hdr e.first) be 0 noEntry 0 (f.ctl.extractLsb' 0 3) := by
  simp only [Env.buildPlain, hbvh]

/-- A reference that fails its check traps in every form. -/
theorem builder_traps (hi : i ∈ [Instr.bvhBuild f, .bvhRefit f, .bvhBal f, .bvhPub f]) (hs : s.Issues e i) {c : Nat}
    (hbvh : s.checkObject e.core e.dom (e.readRef f.hdr e.first) needW (.only 5) 0 0 = .error c) :
    exec i s = .next (s.trapped e c (e.readRef f.hdr e.first)) := by
  have hchecked : e.buildChecked s i f = .trap c (e.readRef f.hdr e.first) := by simp only [Env.buildChecked, hbvh]
  have hplain : e.buildPlain s i f = .trap c (e.readRef f.hdr e.first) := by simp only [Env.buildPlain, hbvh]
  simp only [List.mem_cons, List.not_mem_nil, or_false] at hi
  obtain rfl | rfl | rfl | rfl := hi
  · exact issue_trap (body := fun e s => _) hs rfl hchecked
  · exact issue_trap (body := fun e s => _) hs rfl hchecked
  · exact issue_trap (body := fun e s => _) hs rfl hplain
  · exact issue_trap (body := fun e s => _) hs rfl hplain

end

/-- Settles O36. -/
theorem builderInstructions : Obligations.BuilderInstructions := by
  intro s e f bvh geo n size joins
  refine ⟨fun i hi hs c => builder_traps hi hs, fun be hbvh hwait => ⟨fun i hi hs ge hgeo => ?_, fun i hi hs => ?_⟩⟩
  · obtain ⟨hg, body, hexec, hbody⟩ := build_forms (s := s) (e := e) hi
    rw [buildChecked_eq hbvh hgeo] at hbody
    refine ⟨fun h1 h2 => hexec.trans (issue_writes hs hg (hbody.trans ((if_neg ?_).trans (build_eq hwait)))),
      fun h => hexec.trans (issue_trap hs hg (hbody.trans (if_pos h)))⟩
    change ¬ (n = 0 ∨ 2 ^ 24 < n)
    omega
  · obtain ⟨hg, body, hexec, hbody⟩ := plain_forms (s := s) (e := e) hi
    exact hexec.trans (issue_writes hs hg (hbody.trans ((buildPlain_eq hbvh).trans (build_eq hwait))))

end Sys2Proof.Machine
end

