-- ==== Sys2Proof/Proofs/Barriers.lean ====
section
/-!
Barrier words, the instructions of barriers, and the issue of collectives. Settles O37 and O38.
-/

namespace Sys2Proof.Machine

/-- A field of a number's low bits. -/
theorem fieldOf_eq {n : Nat} (x : BitVec n) (lo k : Nat) : fieldOf x lo k = x.toNat / 2 ^ lo % 2 ^ k := by
  rw [fieldOf, BitVec.extractLsb'_toNat, Nat.shiftRight_eq_div_pow]

/-! ## Barrier words (R316, R318) -/

section
variable {s : State} {n : Nat} {g : Workgroup}

theorem barWord_of_placed (hg : s.workgroups.find? n = some g) (hp : g.placed) (cl : Bool) (b : Nat) :
    s.barWord n cl b = SMap.get 0 (if cl then g.clBars else g.bars) b := by
  rw [State.barWord, hg]
  dsimp only
  split
  · next a ha => exact absurd ha (hp a)
  · rfl

/-- A workgroup with a barrier word stored. -/
def Workgroup.withBar (g : Workgroup) (cl : Bool) (b : Nat) (x : DWord) : Workgroup :=
  if cl then { g with clBars := SMap.set 0 g.clBars b x } else { g with bars := SMap.set 0 g.bars b x }

theorem setBarWord_of_placed (hg : s.workgroups.find? n = some g) (hp : g.placed) (cl : Bool) (b : Nat) (x : DWord) :
    s.setBarWord n cl b x = { s with workgroups := s.workgroups.insert n (g.withBar cl b x) } := by
  rw [State.setBarWord, hg]
  dsimp only
  split
  · next a ha => exact absurd ha (hp a)
  · rfl

theorem withBar_placed (hp : g.placed) (cl : Bool) (b : Nat) (x : DWord) : (g.withBar cl b x).placed := by
  rw [Workgroup.withBar]
  split
  · exact hp
  · exact hp

/-- A barrier word of a workgroup on its core reads as it was stored. -/
theorem barWord_setBarWord (hg : s.workgroups.find? n = some g) (hp : g.placed) (cl : Bool) (b : Nat) (x : DWord) {t : State}
    (ht : t.workgroups = (s.setBarWord n cl b x).workgroups) : t.barWord n cl b = x := by
  rw [setBarWord_of_placed hg hp] at ht
  have hfind : t.workgroups.find? n = some (g.withBar cl b x) := by rw [ht]; exact SMap.find?_insert_same _ _ _
  rw [barWord_of_placed hfind (withBar_placed hp cl b x), Workgroup.withBar]
  cases cl
  · exact SMap.get_set_same _ _ _ _
  · exact SMap.get_set_same _ _ _ _

theorem clearSavedArrived_workgroups (s : State) (holder : Nat) (cl : Bool) (b : Nat) :
    (s.clearSavedArrived holder cl b).workgroups = s.workgroups := by
  refine foldl_keeps State.workgroups _ s.waves (fun t x _ => ?_) s
  split
  · rfl
  · split
    · split
      · exact State.setByte_workgroups _ _ _
      · rfl
    · rfl

end

theorem barrierWords : Rules.BarrierWords := by
  intro s holder b c cl wg hg hp x y
  refine ⟨fun h => ?_, fun h hr => ?_, fun h hr => ?_⟩
  · refine barWord_setBarWord hg hp cl b _ ?_
    rw [State.reduceCount, if_neg (Nat.not_le.2 h)]
  · refine barWord_setBarWord hg hp cl b _ ?_
    rw [State.reduceCount, if_pos h, if_neg hr]
    exact clearSavedArrived_workgroups _ _ _ _
  · refine barWord_setBarWord hg hp cl b _ ?_
    rw [State.reduceCount, if_pos h, if_pos hr]

/-! ## Barrier instructions (R318, R319) -/

section
variable {s t : State} {e : Env} {cl : Bool} {b c : Nat}

theorem waitAt_passes (h : t.passing e cl b = e.frag.slices) (h0 : e.frag.slices ≠ 0) :
    waitAt cl b e t = .writes ((t.raiseTargets e.wk e.frag.slices cl b).acquireAct e.core (barScope cl)) [] .none := by
  simp only [waitAt, h, if_neg h0, if_true]

theorem waitAt_waits (h : t.passing e cl b = 0) : waitAt cl b e t = .hold t (.bar cl b) := by
  simp only [waitAt, h, if_true]

/-- An instruction that waits at a barrier in a state. -/
theorem waits_at {i : Instr} {body : Env → State → Act} (hi : s.Issues e i) (hg : Instr.gangPoint i = false)
    (hexec : exec i s = issue i body s) (hb : body e s = waitAt cl b e t) :
    (t.passing e cl b = e.frag.slices → e.frag.slices ≠ 0 → exec i s =
      .next (((t.raiseTargets e.wk e.frag.slices cl b).acquireAct e.core (barScope cl)).after e i (e.result i [] .none))) ∧
    (t.passing e cl b = 0 → exec i s = .next (t.setWait e (.bar cl b))) :=
  ⟨fun h h0 => hexec.trans (issue_writes hi hg (hb.trans (waitAt_passes h h0))),
    fun h => hexec.trans (issue_hold hi hg (hb.trans (waitAt_waits h)))⟩

theorem arriveThen_eq (h : e.awaits s e.frag.slices = none) (go : State → Act) :
    arriveThen cl b c e s go = go ((s.release e.core e.wk e.frag.slices (barScope cl)).setPending e.wk e.frag.slices cl b c) := by
  simp only [arriveThen, h]

theorem barBody_arrives (hw : e.frag.wait ≠ .bar cl b) (h : e.awaits s e.frag.slices = none) : barBody cl b e s =
    waitAt cl b e ((s.release e.core e.wk e.frag.slices (barScope cl)).setPending e.wk e.frag.slices cl b 1) := by
  rw [barBody, if_neg hw, arriveThen_eq h]

theorem barBody_waits (hw : e.frag.wait = .bar cl b) : barBody cl b e s = waitAt cl b e s := by
  rw [barBody, if_pos hw]

theorem barNumber (f : YFmt) : fieldOf f.imm 0 6 = f.imm.toNat % 64 := by
  rw [fieldOf_eq, Nat.pow_zero, Nat.div_one]
  rfl

theorem bar_forms {f : YFmt} {p : Instr × Bool} (hp : p ∈ [(Instr.bar f, false), (.barCl f, true)]) :
    Instr.gangPoint p.1 = false ∧ exec p.1 s = issue p.1 (barBody p.2 (f.imm.toNat % 64)) s := by
  rw [← barNumber]
  simp only [List.mem_cons, List.not_mem_nil, or_false] at hp
  obtain rfl | rfl := hp
  · exact ⟨rfl, rfl⟩
  · exact ⟨rfl, rfl⟩

end

theorem barrierInstructions : Rules.BarrierInstructions := by
  intro s e f b far arrived waits
  refine ⟨fun hi hw => ?_, fun p hp hi hwait hw => ?_, fun p hp hi hwait => ?_, fun hi => ?_⟩
  · refine issue_writes (body := fun e s => _) hi rfl ((arriveThen_eq hw _).trans ?_)
    rw [barNumber, fieldOf_eq]
    rfl
  · obtain ⟨hg, hexec⟩ := bar_forms (s := s) hp
    exact waits_at hi hg hexec (barBody_arrives hwait hw)
  · obtain ⟨hg, hexec⟩ := bar_forms (s := s) hp
    exact waits_at hi hg hexec (barBody_waits hwait)
  · refine waits_at (body := waitAt far b) hi rfl ?_ rfl
    change execWaitbar f s = _
    rw [execWaitbar, barNumber]

/-- Settles O37. -/
theorem barriers : Obligations.Barriers := ⟨barrierWords, barrierInstructions⟩

end Sys2Proof.Machine
end

