-- ==== Sys2Proof/Proofs/Collectives.lean ====
section
/-!
COLL instructions and COLL.WAIT.
-/

namespace Sys2Proof.Machine

theorem State.MemoryOnly.colls {s t : State} (h : s.MemoryOnly t) : t.colls = s.colls := by
  obtain ⟨_, _, _, _, _, _, _, _, _, _, _, rfl⟩ := h
  rfl

theorem State.fillRefs_memoryOnly (s : State) (core dom : Nat) (refs : List DWord) : s.MemoryOnly (s.fillRefs core dom refs) :=
  foldl_related _ MemoryOnly.refl (fun _ _ _ => MemoryOnly.trans) _ (fun t _ _ => t.cacheEntry_memoryOnly _ _ _) s

theorem collChannel (f : YFmt) : fieldOf f.imm 12 6 = f.imm.toNat / 2 ^ 12 % 64 := fieldOf_eq _ _ _

theorem collWaitChannel (f : YFmt) : fieldOf f.imm 0 6 = f.imm.toNat % 64 := by
  rw [fieldOf_eq, Nat.pow_zero, Nat.div_one]
  rfl

section
variable {s : State} {e : Env} {f : YFmt} {i : Instr}

theorem exec_coll (hi : i ∈ [Instr.collRed f, .collGath f, .collScat f, .collBcast f]) :
    i.gangPoint = false ∧ exec i s = issue i (collOpBody i f) s := by
  simp only [List.mem_cons, List.not_mem_nil, or_false] at hi
  obtain rfl | rfl | rfl | rfl := hi <;> exact ⟨rfl, rfl⟩

/-- A collective that joins its channel: the engine's record of it, with the next number. -/
theorem collOpBody_joins {s1 s2 : State} {ref : DWord} {ch key : Nat} {de : ObjEntry} {a : Nat} {n : Nat × Nat}
    {se dd : Option ObjEntry} (href : ref = e.readRef f.op1 e.first) (hch : ch = f.imm.toNat / 2 ^ 12 % 64)
    (hs1 : s1 = s.release e.core e.wk e.frag.slices 6) (hkey : key = 64 * e.wg.launch + ch)
    (hde : s.checkBytes e.core e.dom ref needRW (.only 0) (refOffset ref) 64 64 = .ok de)
    (hw : e.awaits s e.frag.slices = none) (ha : s1.residentAddr e.dom de (refOffset ref) 64 = some a)
    (hp : s1.portPoisoned (dieOf e.core) a = false) (hp' : s1.portPoisoned (dieOf e.core) (a + 32) = false)
    (hn : n = collBytes i (s1.word64 a) e.launch.npkg e.launch.rank)
    (hse : e.collRange s1 (s1.word64 (a + 8)) needR .load n.1 = .ok se)
    (hdd : e.collRange s1 (s1.word64 (a + 16)) needW .store n.2 = .ok dd)
    (hroom : (s.colls.filter fun c => decide (c.launch = e.wg.launch ∧ c.channel = ch)).length < 8)
    (hs2 : s2 = s1.fillRefs e.core e.dom ([ref] ++ (if n.1 = 0 then [] else [s1.word64 (a + 8)]) ++
      (if n.2 = 0 then [] else [s1.word64 (a + 16)]))) :
    ∃ c : Coll, c.wave = e.wk ∧ c.launch = e.wg.launch ∧ c.instr = i ∧ c.pc = e.pc ∧ c.channel = ch ∧
      c.number = SMap.get 0 s2.collCount key + 1 ∧ c.desc = ref ∧ c.src = s1.word64 (a + 8) ∧ c.dst = s1.word64 (a + 16) ∧
      c.w0 = s1.word64 a ∧ c.lost = false ∧
      collOpBody i f e s = .writes { s2 with
        colls := s2.colls ++ [c], collCount := SMap.set 0 s2.collCount key (SMap.get 0 s2.collCount key + 1),
        launches := s2.launches.modify e.wg.launch fun la => { la with usedColl := true } } [] .none := by
  have hcolls : s2.colls = s.colls := by
    rw [hs2, (State.fillRefs_memoryOnly _ _ _ _).colls, hs1, (State.release_memoryOnly _ _ _ _ _).colls]
  refine ⟨{ wave := e.wk, slices := e.frag.slices, launch := e.wg.launch, instr := i, pc := e.pc, dom := e.wave.dom,
            channel := ch, number := SMap.get 0 s2.collCount key + 1, desc := ref, descEntry := de, src := s1.word64 (a + 8),
            srcEntry := se, dst := s1.word64 (a + 16), dstEntry := dd.getD noEntry, w0 := s1.word64 a, waited := false,
            lost := false }, rfl, rfl, rfl, rfl, rfl, rfl, rfl, rfl, rfl, rfl, rfl, ?_⟩
  have hroom' := Nat.not_le.2 hroom
  rw [← hcolls] at hroom'
  subst hkey hn
  simp only [collOpBody, collChannel, ← href, ← hch, hde, hw, ← hs1, ha, hp, hp', Bool.or_self, Bool.false_eq_true, if_false,
    hse, hdd, bothOk, ← hs2, if_neg hroom']

end

/-- Settles O38. -/
theorem collectives : Obligations.Collectives := by
  intro s e f ref ch s1 key
  refine ⟨?_, fun hi hnone => ?_, fun hi hsome => ?_⟩
  · intro i hmem hi de a se dd hde hw ha hp hp' n hse hdd hroom s2
    obtain ⟨hg, hexec⟩ := exec_coll (s := s) hmem
    obtain ⟨c, h1, h2, h3, h4, h5, h6, h7, h8, h9, h10, h11, hbody⟩ :=
      collOpBody_joins (i := i) (n := n) (key := key) (s2 := s2) rfl rfl rfl rfl hde hw ha hp hp' rfl hse hdd hroom rfl
    exact ⟨c, h1, h2, h3, h4, h5, h6, h7, h8, h9, h10, h11, hexec.trans (issue_writes hi hg hbody)⟩
  · refine issue_writes (body := fun e s => _) hi rfl (if_neg ?_)
    rw [collWaitChannel, List.any_eq_true]
    rintro ⟨c, hc, h⟩
    obtain ⟨hwave, hch⟩ := of_decide_eq_true h
    exact hnone c hc hwave hch
  · obtain ⟨c, hc, h⟩ := hsome
    rw [← collWaitChannel] at h ⊢
    exact issue_hold (body := fun e s => _) hi rfl (if_pos (List.any_eq_true.2 ⟨c, hc, decide_eq_true h⟩))

end Sys2Proof.Machine
end

