-- ==== Sys2Proof/Proofs/SpecialRegisters.lean ====
section
/-!
SREAD and SWRITE. SWRITE may change the trap banks, whose parked lanes alone matter to a fragment's way on.
-/

namespace Sys2Proof.Machine

/-! ## Effects on a wave that leave its fragments where they are -/

/-- Two waves whose lanes stand and run alike. -/
structure Wave.SamePlace (w w' : Wave) : Prop where
  wg : w'.wg = w.wg
  frags : w'.frags = w.frags
  pcs : w'.pcs = w.pcs
  runs : w'.runnable = w.runnable
  dom : w'.dom = w.dom
  codeObj : w'.codeObj = w.codeObj

section
variable {w w' : Wave} (h : w.SamePlace w')
include h

theorem Wave.SamePlace.pc (l : Nat) : w'.pc l = w.pc l := by rw [Wave.pc, h.pcs, Wave.pc]

theorem Wave.SamePlace.slicePc (k : Nat) : w'.slicePc k = w.slicePc k := slicePc_congr h.runs fun _ _ => h.pc _

theorem Wave.SamePlace.fragPc (f : Frag) : w'.fragPc f = w.fragPc f := h.slicePc _

theorem Wave.SamePlace.active (f : Frag) : w'.active f = w.active f := by
  simp only [Wave.active, h.fragPc, Wave.activeAt, h.runs, h.pc]

theorem Wave.SamePlace.atHeader (f : Frag) : w'.atHeader f = w.atHeader f := by simp only [Wave.atHeader, h.fragPc]

end

/-- The environment with another wave, its executing lanes by that wave's predicates. -/
def Env.withWave (e : Env) (i : Instr) (w : Wave) : Env :=
  { e with
    wave := w
    lanes := e.active &&& (if (formPred i.form).2 then ~~~(w.kreg (formPred i.form).1.toNat) else w.kreg (formPred i.form).1.toNat) }

section
variable {s : State} {e : Env} {i : Instr} {w : Wave}

theorem env_withWave (he : s.env i = some e) (hp : e.wave.SamePlace w) :
    (s.modWave e.wk fun _ => w).env i = some (e.withWave i w) := by
  obtain ⟨hcur, hw, hfr, hwg, hla, hext, hact, -⟩ := State.env_some he
  have hfr' : w.frag? e.fid = some e.frag := by rw [Wave.frag?, hp.frags]; exact hfr
  have hfind : (s.modWave e.wk fun _ => w).waves.find? e.wk = some w := by rw [State.modWave_find, hw]; rfl
  have hcur' : (s.modWave e.wk fun _ => w).cur = some (e.wk, e.fid) := hcur
  have hwg' : (s.modWave e.wk fun _ => w).workgroups.find? w.wg = some e.wg := by rw [hp.wg]; exact hwg
  have hla' : (s.modWave e.wk fun _ => w).launches.find? e.wg.launch = some e.launch := hla
  simp only [State.env, hcur', hfind, hfr', hwg', hla', hp.active, ← hact, ← hext]
  rfl

theorem withWave_pc (hp : e.wave.SamePlace w) : (e.withWave i w).pc = e.pc := congrArg (Option.getD · 0) (hp.fragPc e.frag)

theorem withWave_after (hp : e.wave.SamePlace w) : (e.withWave i w).after i = e.after i := by
  rw [Env.after, withWave_pc hp, Env.after]

theorem withWave_seq (hp : e.wave.SamePlace w) : (e.withWave i w).seq i = e.seq i := withWave_after hp

theorem advance_withWave (t : State) (hp : e.wave.SamePlace w) :
    t.advance (e.withWave i w) i [] false = t.advance e i [] false := by
  rw [State.advance, State.moveLanes, withWave_after hp, State.advance, State.moveLanes]
  rfl

theorem past_withWave (w' : Wave) (hp : e.wave.SamePlace w) : w'.past (e.withWave i w) i = w'.past e i := by
  rw [Wave.past, withWave_seq hp, Wave.past]
  rfl

theorem flows_withWave (hf : s.flows e i = true) (hp : e.wave.SamePlace w) :
    (s.modWave e.wk fun _ => w).flows (e.withWave i w) i = true := by
  have hcode : ∀ la d o n, (s.modWave e.wk fun _ => w).codeWord la d o n = s.codeWord la d o n := codeWord_congr rfl
  rw [State.flows, withWave_seq hp, withWave_pc hp]
  simp only [Env.withWave, hcode, hp.dom, hp.codeObj, hp.slicePc, hp.runs, hp.pc, hp.frags, hp.atHeader]
  exact hf

/-- Register writes after an effect on the wave that leaves its lanes where they are, where the fragment goes straight on. -/
theorem run_completes_placed {t : State} {body : Env → State → Act} {ws : List RegWrite} {c : Cond} (h : s.Runs e i)
    (hg : Instr.gangPoint i = false) (hb : body e s = .writes t ws c) (hw : t.waves.find? e.wk = some w) (hp : e.wave.SamePlace w)
    (hwg : t.workgroups = s.workgroups) (hla : t.launches = s.launches) (hbar : t.bar0 = s.bar0) :
    issue i body s = .next (t.completed e i (e.result i ws c)) := by
  obtain ⟨-, -, -, hwg', hla', -⟩ := State.env_some h.1
  rw [issue_writes h.issues hg hb]
  have hfind : ((t.countIssue e i).modWave e.wk (e.result i ws c)).waves.find? e.wk =
      some (e.result i ws c (w.countIssue e.fid e.frag.slices)) := by
    rw [State.modWave_find, State.countIssue_find, hw]
    rfl
  have hflow := advance_flows (t := (t.countIssue e i).modWave e.wk (e.result i ws c)) (env_withWave h.1 hp)
    (flows_withWave h.2.2 hp) hfind (Wave.SameFlow.result _ _ _ _ _)
    (show t.workgroups.find? w.wg = some e.wg by rw [hwg, hp.wg]; exact hwg')
    (show t.launches.find? e.wg.launch = some e.launch by rw [hla]; exact hla')
    (codeWord_congr (by exact hbar) ..)
  rw [advance_withWave _ hp] at hflow
  refine congrArg _ (hflow.trans ?_)
  simp only [past_withWave _ hp]
  exact State.modWave_modWave _ _ _ _

end

/-! ## SREAD (R55, R63, R64, R340) -/

theorem srNumber_eq (f : YFmt) : srNumber f = f.imm.toNat % 4096 := by
  rw [srNumber, ← fieldOf, fieldOf_eq, Nat.pow_zero, Nat.div_one]
  rfl

section
variable {s : State} {e : Env} {f : YFmt} {n : Nat}

theorem sread_reads {ty : Ty} {x : Nat → DWord} (hr : s.Runs e (.sread f)) (hn : srNumber f = n) (hn' : n ≠ 0x040)
    (hty : (if srWide n then Ty.z64 else Ty.z32) = ty)
    (hx : ∀ l, specialRead e.wave e.wg e.launch (s.counter (dieOf e.core)) (lowestSlice e.frag.slices) l n = x l) :
    exec (.sread f) s = .next (s.wrote e (.sread f)
      (if isS f.op1 then writeTo ty f.op1 0 (x e.first) else (lanesOf e.lanes).flatMap fun l => writeTo ty f.op1 l (x l)) .none) := by
  refine run_writes (body := fun e s => _) hr rfl ?_
  simp only [hn, if_neg hn', hty, hx]
  rfl

theorem sread_clock (hr : s.Runs e (.sread f)) (hn : srNumber f = 0x040) (hS : isS f.op1 = true) :
    exec (.sread f) s = .next ((s.modWave e.wk fun w => w.latchClock e.frag.slices (s.counter (dieOf e.core))).completed e (.sread f)
      (e.result (.sread f) (writeTo .z32 f.op1 0 ((lowWord (s.counter (dieOf e.core))).zeroExtend 64)) .none)) := by
  obtain ⟨-, hw, -⟩ := State.env_some hr.1
  refine run_completes (body := fun e s => _) (w := e.wave.latchClock e.frag.slices (s.counter (dieOf e.core))) hr rfl ?_ ?_
    ⟨rfl, rfl, rfl, rfl, rfl, rfl, rfl, rfl, rfl⟩ rfl rfl rfl
  · simp only [hn, if_true, hS, specialRead]
    rfl
  · rw [State.modWave_find, hw]
    rfl

theorem regionWord_eq (w : Wave) :
    w.regionWord.zeroExtend 64 = BitVec.ofNat 64 ((w.regions.length * 2 ^ 16 + (w.regions.headD 0).toNat) % 2 ^ 32) := by
  apply BitVec.eq_of_toNat_eq
  simp only [Wave.regionWord, BitVec.truncate_eq_setWidth, BitVec.toNat_setWidth, BitVec.toNat_ofNat]
  rfl

/-! ## SWRITE (R57, R58, R340) -/

/-- MODE as SWRITE leaves it, by its fields. -/
def storedMode (old x : Word) : Word :=
  (old.extractLsb' 24 1 ++ x.extractLsb' 8 16 ++ (0 : BitVec 3) ++ x.extractLsb' 3 2 ++
    (if x.extractLsb' 0 3 = 0 ∨ x.extractLsb' 0 3 = 7 then 1 else x.extractLsb' 0 3 : BitVec 3)).setWidth 32

/-- RM as SWRITE stores it. -/
theorem storedRm (rm : BitVec 3) : BitVec.ofNat 32 (if rm.toNat = 0 ∨ rm.toNat = 7 then 1 else rm.toNat) =
    (if rm = 0 ∨ rm = 7 then 1 else rm : BitVec 3).setWidth 32 := by
  revert rm
  decide

theorem writeMode_eq (old x : Word) : writeMode old x = storedMode old x := by
  unfold writeMode storedMode fieldOf
  dsimp only
  rw [storedRm]
  generalize (if x.extractLsb' 0 3 = 0 ∨ x.extractLsb' 0 3 = 7 then 1 else x.extractLsb' 0 3 : BitVec 3) = rm
  refine BitVec.eq_of_getLsbD_eq fun i hi => ?_
  simp only [BitVec.getLsbD_or, BitVec.getLsbD_and, BitVec.getLsbD_setWidth, BitVec.getLsbD_append, BitVec.getLsbD_extractLsb']
  interval_cases i <;> simp

theorem writeSpecial_samePlace (w : Wave) (n : Nat) (x : DWord) : w.SamePlace (w.writeSpecial n x) := by
  unfold Wave.writeSpecial
  split <;> exact ⟨rfl, rfl, rfl, rfl, rfl, rfl⟩

theorem swrite_sets {ty : Ty} {g : Wave → Wave} (hr : s.Runs e (.swrite f)) (hn : srNumber f = n)
    (hty : (if srWide n then Ty.z64 else Ty.z32) = ty) (hg : e.wave.writeSpecial n (e.read ty f.op1 e.first) = g e.wave) :
    exec (.swrite f) s = .next ((s.modWave e.wk g).completed e (.swrite f) (e.result (.swrite f) [] .none)) := by
  obtain ⟨-, hw, -⟩ := State.env_some hr.1
  rw [← modWave_env hr.1 rfl (fun w => w.writeSpecial n (e.read ty f.op1 e.first)) g hg]
  refine run_completes_placed (body := fun e s => _) hr rfl ?_ ?_ (writeSpecial_samePlace e.wave n (e.read ty f.op1 e.first)) rfl rfl rfl
  · simp only [hn, hty]
  · rw [State.modWave_find, hw]
    rfl

end

/-- Settles O41. -/
theorem specialRegisters : Obligations.SpecialRegisters := by
  intro s e f w n reads x32 x64 sets rm mode
  have hn : srNumber f = n := srNumber_eq f
  have hreads : ∀ {k : Nat} (ty : Ty) (x : Nat → DWord), n = k → k ≠ 0x040 → (if srWide k then Ty.z64 else Ty.z32) = ty →
      (∀ l, specialRead e.wave e.wg e.launch (s.counter (dieOf e.core)) (lowestSlice e.frag.slices) l k = x l) → reads ty x :=
    fun ty x hk h1 h2 h3 hr => sread_reads hr (hn.trans hk) h1 h2 h3
  have hsets : ∀ {k : Nat} (ty : Ty) (g : Wave → Wave), n = k → (if srWide k then Ty.z64 else Ty.z32) = ty →
      e.wave.writeSpecial k (e.read ty f.op1 e.first) = g e.wave → sets g :=
    fun ty g hk h1 h2 hr => swrite_sets hr (hn.trans hk) h1 h2
  refine ⟨fun p hp h => ?_, fun p hp h => ?_, fun h => hreads _ _ h (by simp) rfl fun _ => rfl,
    fun h => hreads _ _ h (by simp) rfl fun _ => regionWord_eq w,
    fun h => hreads _ _ h (by simp) rfl fun _ => rfl, fun p hp h => ?_, fun h hr hS => sread_clock hr (hn.trans h) hS,
    fun h => hsets .z32 _ h rfl (congrArg (fun m => { e.wave with mode := m }) (writeMode_eq _ _)),
    fun h => hsets .z64 _ h rfl rfl, fun h => hsets .z64 _ h rfl rfl, fun h => hsets .z32 _ h rfl rfl, fun h => hsets .z64 _ h rfl rfl,
    fun h => hsets .z32 _ h rfl rfl, fun h => hsets .z64 _ h rfl rfl, fun h => hsets .z32 _ h rfl rfl,
    fun h => hsets .z64 _ h rfl rfl, fun h => hsets .z32 _ h rfl rfl, fun h => hsets .z64 _ h rfl rfl⟩
  · simp only [List.mem_cons, List.not_mem_nil, or_false] at hp
    obtain rfl | rfl | rfl | rfl | rfl | rfl := hp <;> exact hreads _ _ h (by simp) rfl fun _ => rfl
  · simp only [List.mem_cons, List.not_mem_nil, or_false] at hp
    obtain rfl | rfl | rfl | rfl | rfl | rfl := hp <;> exact hreads _ _ h (by simp) rfl fun _ => rfl
  · simp only [List.mem_cons, List.not_mem_nil, or_false] at hp
    obtain rfl | rfl | rfl | rfl | rfl | rfl | rfl | rfl := hp <;> exact hreads _ _ h (by simp) rfl fun _ => rfl

end Sys2Proof.Machine
end

