-- ==== Sys2Proof/Proofs/SystemInstructions.lean ====
section
/-!
TRAP and BRK, RETT, and the system hints.
-/

namespace Sys2Proof.Machine

section
variable {s : State} {e : Env} {f : YFmt}

/-! ## TRAP and BRK (R338, R488) -/

/-- A cause raised with the next word as its return address. -/
theorem issue_trapNext {i : Instr} {body : Env → State → Act} {c : Nat} {v : DWord} (h : s.Issues e i)
    (hg : Instr.gangPoint i = false) (hb : body e s = .trapNext c v) (hr : e.wave.hasRays = false) :
    issue i body s = .next (((s.countIssue e i).enterTrap e.wk e.fid c e.pc (e.seq i) v).settle e.wk e.fid none false) := by
  rw [issue_performs h hg, hb]
  simp only [State.perform, hr, Bool.false_eq_true, if_false]
  rfl

end

/-- Settles O42. -/
theorem trapInstructions : Obligations.TrapInstructions := by
  intro s e f enters
  refine ⟨fun hi hr => issue_trapNext (body := fun _ _ => _) hi rfl rfl hr, fun hi hr hb => ?_, fun hi hb => ?_⟩
  · refine issue_trapNext (body := fun e s => _) hi rfl ?_ hr
    simp only [hb, Bool.false_eq_true, if_false]
  · exact issue_writes (body := fun e s => _) hi rfl (if_pos hb)

/-! ## RETT (R339, R420, R421) -/

section
variable {s : State} {e : Env} {f : YFmt}

theorem goodStatus_iff (w : Wave) (n : Nat) (st : Word) : goodStatus w n st = true ↔
    (st.toNat / 2 ^ 8 = 0 ∧ st.toNat / 16 % 16 = w.gdepth ∧ st.getLsbD 2 = w.gated ∧ st.getLsbD 3 = w.halted ∧ st.toNat % 4 < n) := by
  have h8 : st.toNat / 2 ^ 8 % 2 ^ 24 = st.toNat / 2 ^ 8 := Nat.mod_eq_of_lt (by have := st.isLt; omega)
  simp only [goodStatus, decide_eq_true_eq, fieldOf_eq, h8, Nat.pow_zero, Nat.div_one]
  rfl

/-- The return address is outside the code object, or is none. -/
theorem badRet_iff (b : DWord) (n : Nat) : (fieldOf b 39 25 ≠ 0 ∨ n ≤ b.toNat) ↔ (b.toNat / 2 ^ 39 ≠ 0 ∨ n ≤ b.toNat) := by
  rw [fieldOf_eq, Nat.mod_eq_of_lt (a := b.toNat / 2 ^ 39) (by have := b.isLt; omega)]

/-- The block that a return from level k continues: the one that raised the cause where the return address lies inside it. -/
def State.returnBlock (s : State) (e : Env) (k : Nat) : CodeAddr :=
  let c := e.wave.bank k
  let h := s.codeWord e.launch e.dom c.codeObj.toNat c.block.toNat
  if isHeader h ∧ c.block.toNat < c.ret.toNat ∧ c.ret.toNat < c.block.toNat + headerLength (h.getD 0) then c.block
  else BitVec.ofNat 39 (s.blockOf e.launch e.dom c.codeObj.toNat c.ret.toNat c.ret.toNat 0)

/-- A fragment of a wave in a block. -/
def Wave.withBlock (w : Wave) (fid : Nat) (block : CodeAddr) : Wave := w.modFrag fid fun g => { g with block := block }

end

/-- Settles O44. -/
theorem trapReturn : Obligations.TrapReturn := by
  intro s e f hi w n b badRet good
  have htl : fieldOf b.stat 0 2 = b.stat.toNat % 4 := by
    rw [fieldOf_eq, Nat.pow_zero, Nat.div_one]
    rfl
  have hbad : (fieldOf b.ret 39 25 ≠ 0 ∨ s.codeLen e.launch e.dom b.codeObj.toNat ≤ b.ret.toNat) ↔ badRet := badRet_iff _ _
  have hgood : goodStatus e.wave n b.stat = true ↔ good := goodStatus_iff _ _ _
  refine ⟨fun h => ?_, fun h hg => ?_, fun h hg => ?_⟩
  · exact issue_trap (body := fun e s => _) hi rfl (if_pos (hbad.2 h))
  · refine issue_trap (body := fun e s => _) hi rfl ((if_neg fun h' => h (hbad.1 h')).trans (if_pos ?_))
    rw [Bool.not_eq_true']
    exact Bool.not_eq_true _ ▸ fun h' => hg (hgood.1 h')
  · refine ⟨fun w => w.withBlock e.fid (s.returnBlock e n), fun w => w.withBlock e.fid (s.returnBlock e 1), fun w => ⟨_, rfl⟩,
      fun w => ⟨_, rfl⟩, issue_placed (body := fun e s => _) hi rfl ((if_neg fun h' => h (hbad.1 h')).trans ((if_neg ?_).trans ?_))⟩
    · rw [hgood.2 hg]
      decide
    · rw [← htl]
      rfl

/-! ## NOP, PHINT, ENTER, LEAVE, MARK, WAIT.CLK and YIELD -/

section
variable {s : State} {e : Env} {f : YFmt}

/-- A fragment's wait for the counter is over (R343). -/
def Wait.over (counter : DWord) : Wait → Bool
  | .clkAt t => decide (t.toNat ≤ counter.toNat)
  | .clkAbs m => decide ((lowWord counter - m).toNat < 2 ^ 31)
  | _ => true

/-- The wait that WAIT.CLK begins. -/
def Env.clockWait (e : Env) (f : YFmt) (counter : DWord) : Wait :=
  if f.imm.getLsbD 0 then .clkAbs (lowWord (e.read .z32 f.op1 e.first))
  else .clkAt (counter + (lowWord (e.read .z32 f.op1 e.first)).zeroExtend 64)

/-- The wait in which WAIT.CLK finds its fragment, or which it begins. -/
def Env.currentWait (e : Env) (f : YFmt) (counter : DWord) : Wait :=
  match e.frag.wait with
  | .clkAt t => .clkAt t
  | .clkAbs m => .clkAbs m
  | _ => e.clockWait f counter

theorem waitClk_ends (hr : s.Runs e (.waitClk f))
    (h : (e.currentWait f (s.counter (dieOf e.core))).over (s.counter (dieOf e.core)) = true) :
    exec (.waitClk f) s = .next (s.wrote e (.waitClk f) [] .none) :=
  run_writes (body := fun _ _ => _) hr rfl (if_pos h)

theorem waitClk_waits (hi : s.Issues e (.waitClk f))
    (h : (e.currentWait f (s.counter (dieOf e.core))).over (s.counter (dieOf e.core)) = false) :
    exec (.waitClk f) s = .next (s.setWait e (e.currentWait f (s.counter (dieOf e.core)))) :=
  issue_hold (body := fun _ _ => _) hi rfl (if_neg (Bool.not_eq_true _ ▸ h))

/-- A context whose slice on a core ends by YIELD with the issue count n. -/
def Context.yielding (c : Context) (core clock n : Nat) : Context :=
  { c with
    issue := SMap.set 0 c.issue core n
    slices := c.slices.modify core fun t => (t.1, clock)
    sliceEnded := if c.sliceEnded.contains core then c.sliceEnded else c.sliceEnded ++ [core] }

theorem le_foldl_max (l : List Nat) (a : Nat) : a ≤ l.foldl max a := by
  induction l generalizing a with
  | nil => exact le_refl a
  | cons x r ih => exact (le_max_left a x).trans (ih _)

theorem yielding_sliceEnded (c : Context) (core clock n : Nat) : core ∈ (c.yielding core clock n).sliceEnded := by
  rw [Context.yielding]
  dsimp only
  split
  next h => exact List.contains_iff_mem.1 h
  next => exact List.mem_append_right _ (List.mem_singleton_self core)

theorem yield_ends {c : Context} {top : Nat}
    (htop : top = ((s.residentContexts e.core).map fun c => s.issueOf c e.core).foldl max
      (s.issueOf e.launch.ctx.toNat e.core + e.issueClocks (.yield f)))
    (hi : s.Issues e (.yield f)) (hready : s.readyContexts e.core e.launch.ctx.toNat ≠ [])
    (hc : s.contexts.find? e.launch.ctx.toNat = some c) :
    exec (.yield f) s = .next (({ s with
        contexts := s.contexts.insert e.launch.ctx.toNat
          (c.yielding e.core (s.counter (dieOf e.core)).toNat (top - e.issueClocks (.yield f))) } : State).after e (.yield f)
        (e.result (.yield f) [] .none)) := by
  refine issue_writes (body := fun e s => _) hi rfl ((if_neg fun h => hready (List.isEmpty_iff.1 h)).trans ?_)
  have hmod : ∀ g, s.contexts.modify e.launch.ctx.toNat g = s.contexts.insert e.launch.ctx.toNat (g c) := fun g => by
    simp only [SMap.modify, hc]
  dsimp only
  rw [hmod, htop]
  rfl

end

/-- Settles O45. -/
theorem systemHints : Obligations.SystemHints := by
  intro s e f counter n x record ctx top ended target
  have hended : ∀ w, ended w ↔ w.over counter = true := by
    intro w
    cases w <;> simp [ended, Wait.over]
  have hid : fieldOf f.imm 0 16 = f.imm.toNat % 2 ^ 16 := by rw [fieldOf_eq, Nat.pow_zero, Nat.div_one]
  refine ⟨fun hr => run_writes (body := fun _ _ => _) hr rfl rfl, fun hr h => ?_, fun hi h => ?_, fun hr => ?_, fun hr => ?_,
    fun hr h => ?_, fun c base entries hi hc hq => ?_, fun hr h hw => waitClk_ends hr ?_, fun hr h hw => waitClk_ends hr ?_,
    fun hi h hw => ?_, fun hr h => ?_, fun c hi h hc => ?_⟩
  · refine run_writes (body := fun e s => _) hr rfl ?_
    simp only [h, Option.isSome_none, Bool.false_eq_true, if_false]
  · refine issue_writes (body := fun e s => _) hi rfl ?_
    simp only [Option.isSome_iff_ne_none.2 h, if_true]
    rfl
  · obtain ⟨-, hw, -⟩ := State.env_some hr.1
    refine run_completes (body := fun _ _ => _) (w := { e.wave with regions := f.imm.extractLsb' 0 16 :: e.wave.regions }) hr rfl rfl ?_
      ⟨rfl, rfl, rfl, rfl, rfl, rfl, rfl, rfl, rfl⟩ rfl rfl rfl
    rw [State.modWave_find, hw]
    rfl
  · obtain ⟨-, hw, -⟩ := State.env_some hr.1
    refine run_completes (body := fun _ _ => _) (w := { e.wave with regions := e.wave.regions.tail }) hr rfl rfl ?_
      ⟨rfl, rfl, rfl, rfl, rfl, rfl, rfl, rfl, rfl⟩ rfl rfl rfl
    rw [State.modWave_find, hw]
    rfl
  · refine run_writes (body := fun e s => _) hr rfl ?_
    have hnone : (s.contexts.find? e.launch.ctx.toNat).bind (fun c => c.traceq) = none := Option.bind_eq_none_iff.2 h
    simp only [hnone]
  · refine issue_writes (body := fun e s => _) hi rfl ?_
    simp only [show s.contexts.find? e.launch.ctx.toNat = some c from hc, Option.bind_some, hq, hid]
    rfl
  · rw [← hended]
    obtain ⟨t, ht⟩ | ⟨m, hm⟩ := hw
    · rw [Env.currentWait, ht]
      rwa [ht] at h
    · rw [Env.currentWait, hm]
      rwa [hm] at h
  · rw [Env.currentWait, h, ← hended]
    exact hw
  · have hwait : e.currentWait f counter = target := by
      rw [Env.currentWait, h]
      rfl
    refine (waitClk_waits hi ?_).trans (congrArg (fun w => Host.Outcome.next (s.setWait e w)) hwait)
    rw [hwait]
    exact Bool.not_eq_true _ ▸ fun h' => hw ((hended _).2 h')
  · refine run_writes (body := fun e s => _) hr rfl (if_pos (List.isEmpty_iff.2 h))
  · refine ⟨_, ?_, yielding_sliceEnded c e.core counter.toNat (top - e.issueClocks (.yield f)), rfl, yield_ends rfl hi h hc⟩
    rw [Context.yielding, SMap.get_set_same]
    exact Nat.sub_add_cancel (le_trans (Nat.le_add_left _ _) (le_foldl_max _ _))

end Sys2Proof.Machine
end

