-- ==== Sys2Proof/Proofs/Gates.lean ====
section
/-!
GATE, GATERET and OBJ.GRANT.
-/

namespace Sys2Proof.Machine

/-! ## GATE (R330, R333) -/

section
variable {s : State} {e : Env} {f : YFmt}

/-- GATE with its gate table entry at hand. -/
def gateCall (f : YFmt) (e : Env) (tval : DWord) (s : State) (g : GateWords) : Act :=
  if !g.valid then gateStatus f s 1
  else if e.wave.gdepth = 4 then gateStatus f s 3
  else if e.launch.vregs < g.vmin ∨ e.launch.sregs < g.smin then gateStatus f s 4
  else if !e.calleeOk s g then gateStatus f s 5
  else
    let area := s.entryFor e.core g.cdom (refIndex g.save)
    if s.mapPoisoned area 0 1024 then .trap 0x09 g.save
    else if (s.residentAddr g.cdom area 0 1024).isNone then
      e.holdFor s (s.missing g.cdom (refIndex g.save) area 0 1024) tval
    else if s.objectPoison (dieOf e.core) g.cdom area 0 1024 then .trap 0x09 g.save
    else
      match s.freeSlot g.cdom area with
      | none => gateStatus f s 2
      | some k => .placed (((s.touchRange g.cdom (refIndex g.save) 0 1024).claimSlot g.cdom area k).modWave e.wk (e.enterCallee f g k))

/-- The status of the first test of GATE that fails before its save area is reached. -/
def earlyStatus (e : Env) (s : State) (g : GateWords) : Option Nat :=
  if g.valid = false then some 1 else if e.wave.gdepth = 4 then some 3
  else if e.launch.vregs < g.vmin ∨ e.launch.sregs < g.smin then some 4
  else if e.calleeOk s g = false then some 5 else none

theorem gateCall_early {tval : DWord} {g : GateWords} {n : Nat} (h : earlyStatus e s g = some n) :
    gateCall f e tval s g = gateStatus f s n := by
  rw [earlyStatus] at h
  rw [gateCall]
  by_cases h1 : g.valid = false
  · rw [if_pos h1] at h
    cases h
    rw [h1]
    rfl
  rw [if_neg h1] at h
  rw [Bool.not_eq_false] at h1
  by_cases h2 : e.wave.gdepth = 4
  · rw [if_pos h2] at h
    cases h
    rw [h1, if_pos h2]
    rfl
  rw [if_neg h2] at h
  by_cases h3 : e.launch.vregs < g.vmin ∨ e.launch.sregs < g.smin
  · rw [if_pos h3] at h
    cases h
    rw [h1, if_neg h2, if_pos h3]
    rfl
  rw [if_neg h3] at h
  by_cases h4 : e.calleeOk s g = false
  · rw [if_pos h4] at h
    cases h
    rw [h1, if_neg h2, if_neg h3, h4]
    rfl
  · rw [if_neg h4] at h
    cases h

theorem earlyStatus_none {g : GateWords} (h : earlyStatus e s g = none) : g.valid = true ∧ e.wave.gdepth ≠ 4 ∧
    ¬ (e.launch.vregs < g.vmin ∨ e.launch.sregs < g.smin) ∧ e.calleeOk s g = true := by
  rw [earlyStatus] at h
  split_ifs at h with h1 h2 h3 h4
  exact ⟨Bool.not_eq_false _ ▸ h1, h2, h3, Bool.not_eq_false _ ▸ h4⟩

theorem gateCall_late {tval : DWord} {g : GateWords} {area : ObjEntry} (harea : area = s.entryFor e.core g.cdom (refIndex g.save))
    (h : earlyStatus e s g = none) (hm : s.mapPoisoned area 0 1024 = false) (hr : (s.residentAddr g.cdom area 0 1024).isSome) :
    gateCall f e tval s g = if s.objectPoison (dieOf e.core) g.cdom area 0 1024 then .trap 0x09 g.save
      else match s.freeSlot g.cdom area with
      | none => gateStatus f s 2
      | some k => .placed (((s.touchRange g.cdom (refIndex g.save) 0 1024).claimSlot g.cdom area k).modWave e.wk (e.enterCallee f g k)) := by
  obtain ⟨h1, h2, h3, h4⟩ := earlyStatus_none h
  have hr' : (s.residentAddr g.cdom area 0 1024).isNone = false := by rw [← Option.not_isSome, hr]; rfl
  simp only [gateCall, ← harea, h1, h4, Bool.not_true, Bool.false_eq_true, if_false, if_neg h2, if_neg h3, hm, hr']

/-- GATE comes to its entry once the table has passed its checks. -/
theorem gate_performs {ref : DWord} {n : Nat} {table : ObjEntry} {a : Nat} {s1 : State} (hi : s.Issues e (.gate f))
    (hn : n = 32 * (f.imm.toNat / 2 ^ 17 % 1024))
    (href : ref = e.readRef f.op1 e.first) (hc : s.checkObject e.core e.dom ref needX (.only 7) 0 0 = .ok table)
    (hlen : n + 32 ≤ table.length) (hset : e.settled s = none) (hm : s.mapPoisoned table n 32 = false)
    (ha : s.residentAddr e.dom table n 32 = some a) (hs1 : s1 = s.touchRange e.dom (refIndex ref) n 32)
    (hp : s1.objectPoison (dieOf e.core) e.dom table n 32 = false) :
    exec (.gate f) s = .next (State.perform e (.gate f) s (gateCall f e (withOffset ref n) s1
      ⟨s1.word64 a, s1.word64 (a + 8), s1.word64 (a + 16), s1.word64 (a + 24)⟩)) := by
  have hn' : 32 * fieldOf f.imm 17 10 = n := by
    rw [hn, fieldOf_eq]
    rfl
  refine (issue_performs (body := fun e s => _) hi rfl).trans (congrArg (fun x => Host.Outcome.next (State.perform e (.gate f) s x)) ?_)
  simp only [hn', ← href, hc, if_neg (Nat.not_lt.2 hlen), hset, hm, ha, ← hs1, hp, Bool.false_eq_true, if_false]
  rfl

/-! ## GATERET (R334) -/

theorem gateret_leaves {g : GateEntry} {rest : List GateEntry} {area : ObjEntry} {byte : Nat}
    (harea : area = s.tableEntry e.dom g.saveObj.toNat) (hbyte : byte = 8 * (g.slot.toNat / 64)) (hi : s.Issues e (.gateret f))
    (hg : e.wave.gates = g :: rest) (hset : e.settled s = none) (hm : s.mapPoisoned area byte 8 = false)
    (hr : (s.residentAddr e.dom area byte 8).isSome) :
    ∃ block, exec (.gateret f) s = .next (State.arrive e.wk arriveFuel
      ((((s.touchRange e.dom g.saveObj.toNat byte 8).clearSlot e.dom g.saveObj.toNat g.slot.toNat).modWave e.wk
        (e.leaveCallee g rest block)).countIssue e (.gateret f))) := by
  have hr' : (s.residentAddr e.dom area byte 8).isNone = false := by rw [← Option.not_isSome, hr]; rfl
  refine ⟨BitVec.ofNat 39 (s.blockOf e.launch g.dom.toNat g.codeObj.toNat g.ret.toNat g.ret.toNat 0),
    issue_placed (body := fun e s => _) hi rfl ?_⟩
  simp only [hg, hset, ← harea, ← hbyte, hm, hr', Bool.false_eq_true, if_false]

end

theorem gateCalls : Rules.GateCalls := by
  intro s e f ref at_
  refine ⟨?_, ?_⟩
  rotate_left
  · intro g rest hi hg hset area byte hm hr
    exact gateret_leaves rfl rfl hi hg hset hm hr
  intro table a hi hc hlen hset hm ha s1 hp g area early tells
  have hexec := gate_performs hi rfl rfl hc hlen hset hm ha rfl hp
  have htells : ∀ n, gateCall f e (withOffset ref at_) s1 g = gateStatus f s1 n → tells n := fun n h =>
    hexec.trans (congrArg (fun x => Host.Outcome.next (State.perform e (.gate f) s x)) h)
  refine ⟨fun n h => htells n (gateCall_early h), fun h hm' hr' => ?_⟩
  have hlate := gateCall_late (f := f) (tval := withOffset ref at_) rfl h hm' hr'
  refine ⟨fun hp' => ?_, fun hp' => ?_⟩
  · rw [hp', if_pos rfl] at hlate
    exact hexec.trans (congrArg (fun x => Host.Outcome.next (State.perform e (.gate f) s x)) hlate)
  · rw [hp', if_neg (by decide)] at hlate
    refine ⟨fun hk => htells 2 ?_, fun k hk => ?_⟩
    · rw [hlate, hk]
    · rw [hk] at hlate
      exact hexec.trans (congrArg (fun x => Host.Outcome.next (State.perform e (.gate f) s x)) hlate)

/-! ## OBJ.GRANT (R336) -/

section
variable {s : State} {e : Env} {f : YFmt}

theorem movedEntry_some {dom n : Nat} (h : e.frag.wait = .moved dom n) : e.movedEntry = some (dom, n) := by rw [Env.movedEntry, h]

theorem movedEntry_none (h : ∀ dom n, e.frag.wait ≠ .moved dom n) : e.movedEntry = none := by
  rw [Env.movedEntry]
  split
  next dom n h' => exact absurd h' (h dom n)
  next => rfl

/-- The last part of OBJ.GRANT with MOVE: the reference, once no access checked against the old entry is outstanding. -/
theorem grant_ends {body : Env → State → Act} {t : State} {dom n : Nat} (hi : s.Issues e (.objGrant f))
    (hb : body e s = if t.staleUse dom n then .hold t (.moved dom n) else e.granted f t) :
    (t.staleUse dom n = false → issue (.objGrant f) body s = .next (t.after e (.objGrant f) (e.result (.objGrant f)
      (writeTo .z64 f.op1 e.first (mkRef (refIndex (e.readRef f.op1 e.first)) ((grantMask f).extractLsb' 1 4) 0)) .none))) ∧
    (t.staleUse dom n = true → issue (.objGrant f) body s = .next (t.setWait e (.moved dom n))) := by
  refine ⟨fun h => issue_writes hi rfl ?_, fun h => issue_hold hi rfl ?_⟩
  · rw [hb, h]
    rfl
  · rw [hb, h]
    rfl

end

theorem objectGrants : Rules.ObjectGrants := by
  intro s e f hi src x granted gives ends
  refine ⟨fun dom n hw => ?_, ?_⟩
  · refine grant_ends (body := fun e s => _) hi ?_
    simp only [movedEntry_some hw]
  intro hw entry g rest hc hg t refused s1 s2
  refine ⟨fun hr => ?_, fun hr href => ?_, fun hr href hconv => ⟨fun hmove => ?_, fun hmove haw => ?_⟩⟩
  · refine issue_trap (body := fun e s => _) hi rfl ?_
    simp only [movedEntry_none hw, show s.checkObject e.core e.dom (e.readRef f.op2 e.first) needNone .any 0 0 = .ok entry from hc, hg, hr]
    rfl
  · refine issue_writes (body := fun e s => _) hi rfl ?_
    simp only [movedEntry_none hw, show s.checkObject e.core e.dom (e.readRef f.op2 e.first) needNone .any 0 0 = .ok entry from hc, hg, hr]
    exact (if_neg (by decide)).trans (if_pos (by simpa [refused] using href))
  · refine issue_writes (body := fun e s => _) hi rfl ?_
    simp only [movedEntry_none hw, show s.checkObject e.core e.dom (e.readRef f.op2 e.first) needNone .any 0 0 = .ok entry from hc, hg, hr, hconv, hmove]
    exact (if_neg (by decide)).trans (if_neg (by simpa [refused, hmove] using href))
  · refine grant_ends (body := fun e s => _) hi ?_
    simp only [movedEntry_none hw, show s.checkObject e.core e.dom (e.readRef f.op2 e.first) needNone .any 0 0 = .ok entry from hc, hg,
      hr, hconv, hmove, haw, Bool.not_true, Bool.false_eq_true, if_false, and_false, or_false]
    rw [if_neg]
    · rfl
    · simpa [refused, hmove] using href

/-- Settles O40. -/
theorem gatesAndGrants : Obligations.GatesAndGrants := ⟨gateCalls, objectGrants⟩

end Sys2Proof.Machine
end

