-- ==== Sys2Proof/Proofs/GateState.lean ====
section
/-!
The wave in a callee and back in its caller: the registers that are carried, and what is kept, restored and cleared.
-/

namespace Sys2Proof.Machine

/-! ## The lowest keys of a map -/

section
variable {α : Type} {m : SMap α} {n k lo : Nat}

theorem SMap.find?_below_none (h : n ≤ k) : SMap.find? (m.filter fun c => decide (c.1 < n)) k = none := by
  induction m with
  | nil => rfl
  | cons c r ih =>
    rw [List.filter_cons]
    split
    next hc =>
      have hck : c.1 < n := of_decide_eq_true hc
      obtain ⟨a, x⟩ := c
      rw [SMap.find?, if_neg (by omega), if_neg (by omega)]
      exact ih
    next => exact ih

theorem SMap.find?_none_of_rising (hm : m.risingFrom lo = true) (h : k < lo) : m.find? k = none := by
  cases m with
  | nil => rfl
  | cons c r =>
    obtain ⟨a, x⟩ := c
    rw [SMap.risingFrom, Bool.and_eq_true, decide_eq_true_eq] at hm
    rw [SMap.find?, if_pos (by omega)]

theorem SMap.find?_below (hm : m.risingFrom lo = true) (h : k < n) : SMap.find? (m.filter fun c => decide (c.1 < n)) k = m.find? k := by
  induction m generalizing lo with
  | nil => rfl
  | cons c r ih =>
    obtain ⟨a, x⟩ := c
    rw [SMap.risingFrom, Bool.and_eq_true, decide_eq_true_eq] at hm
    obtain ⟨-, hr⟩ := hm
    rw [List.filter_cons]
    by_cases ha : a < n
    · rw [if_pos (decide_eq_true ha), SMap.find?, SMap.find?, ih hr]
    · rw [if_neg (by simpa using ha), ih hr, SMap.find?, if_pos (by omega), SMap.find?_none_of_rising hr (by omega)]

theorem SMap.get_below_default (d : α) (h : n ≤ k) : SMap.get d (m.filter fun c => decide (c.1 < n)) k = d := by
  rw [SMap.get, SMap.find?_below_none h]
  rfl

theorem SMap.get_below [DecidableEq α] (d : α) (hm : SMap.wf d m = true) (h : k < n) :
    SMap.get d (m.filter fun c => decide (c.1 < n)) k = SMap.get d m k := by
  rw [SMap.wf, Bool.and_eq_true] at hm
  rw [SMap.get, SMap.find?_below hm.1 h, SMap.get]

end

/-! ## Results that land -/

section
variable (w : Wave)

theorem apply_keeps (x : RegWrite) : (w.apply x).status = w.status ∧ (w.apply x).gates = w.gates ∧ (w.apply x).live = w.live := by
  cases x with
  | v n l x => exact ⟨rfl, rfl, rfl⟩
  | s n x => exact ⟨rfl, rfl, rfl⟩
  | k n l b =>
    rw [Wave.apply, Wave.setK]
    split <;> exact ⟨rfl, rfl, rfl⟩
  | x n l x => exact ⟨rfl, rfl, rfl⟩

theorem landResult_keeps (p : Pending) :
    (w.landResult p).status = w.status ∧ (w.landResult p).gates = w.gates ∧ (w.landResult p).live = w.live :=
  ⟨foldl_keeps Wave.status _ _ (fun t x _ => (apply_keeps t x).1) w, foldl_keeps Wave.gates _ _ (fun t x _ => (apply_keeps t x).2.1) w,
    foldl_keeps Wave.live _ _ (fun t x _ => (apply_keeps t x).2.2) w⟩

theorem landAll_status : w.landAll.status = w.status := foldl_keeps Wave.status _ _ (fun t p _ => (landResult_keeps t p).1) w
theorem landAll_gates : w.landAll.gates = w.gates := foldl_keeps Wave.gates _ _ (fun t p _ => (landResult_keeps t p).2.1) w
theorem landAll_live : w.landAll.live = w.live := foldl_keeps Wave.live _ _ (fun t p _ => (landResult_keeps t p).2.2) w
theorem landAll_gdepth : w.landAll.gdepth = w.gdepth := by rw [Wave.gdepth, landAll_status, Wave.gdepth]
theorem landAll_tl : w.landAll.tl = w.tl := by rw [Wave.tl, landAll_status, Wave.tl]
theorem landAll_halted : w.landAll.halted = w.halted := by rw [Wave.halted, landAll_status, Wave.halted]

end

/-! ## The wave as one fragment -/

section
variable {w t u : Wave}

/-- Every register but those that a gate call carries is 0, and those are as they were. -/
theorem scrubbed_registers (hv : t.v = w.scrub.v) (hk : t.k = []) (hx : t.x = []) : t.k = [] ∧ t.x = [] ∧
    (∀ n l, 8 ≤ n → l < 96 → t.vreg n l = 0) ∧ (SMap.wf 0 w.v = true → ∀ n < 8, ∀ l < 96, t.vreg n l = w.vreg n l) := by
  refine ⟨hk, hx, fun n l hn _ => ?_, fun hwf n hn l hl => ?_⟩
  · rw [Wave.vreg, hv]
    exact SMap.get_below_default 0 (by omega)
  · rw [Wave.vreg, hv]
    exact SMap.get_below 0 hwf (by omega)

theorem scrubbed_sreg_high (hs : t.s = w.scrub.s) {n : Nat} (hn : 16 ≤ n) : t.sreg n = 0 := by
  rw [Wave.sreg, hs]
  exact SMap.get_below_default 0 hn

theorem scrubbed_sreg_low (hs : t.s = w.scrub.s) (hwf : SMap.wf 0 w.s = true) {n : Nat} (hn : n < 16) : t.sreg n = w.sreg n := by
  rw [Wave.sreg, hs]
  exact SMap.get_below 0 hwf hn

theorem gathered_together (f : Frag) (block p : CodeAddr) (hl : w.live = u.live) : let t := w.gathered f block p
    t.join = [] ∧ t.hold = 0 ∧ t.frags.length = 1 ∧ (∀ l < 96, u.live.getLsbD l = true → t.pc l = p) := by
  refine ⟨rfl, rfl, rfl, fun l hl96 hlive => ?_⟩
  refine (Wave.setPcs_pc w w.live p hl96).trans (if_pos ?_)
  rw [hl]
  exact hlive

end

/-- The wave of a return before its lanes are placed, but for the status register of the gate. -/
def leftCallee (ge : GateEntry) (rest : List GateEntry) (w : Wave) : Wave :=
  { w.landAll.scrub with gates := rest, dom := ge.dom, codeObj := ge.codeObj, tvec := ge.tvec, tsave := ge.tsave,
                         mode := keepSeed ge.mode w.landAll.mode, status := mkStatus (w.landAll.gdepth - 1) w.landAll.tl w.landAll.halted }

section
variable {e : Env} {ge : GateEntry} {rest : List GateEntry} {block : CodeAddr} {w : Wave}

/-- But for its scalar registers, a return leaves the wave alike whatever its status register. -/
theorem leaveCallee_eq : ∃ s, e.leaveCallee ge rest block w = Wave.gathered { leftCallee ge rest w with s := s } e.frag block ge.ret ∧
    ((∃ n, ge.st = .s n ∧ s = SMap.set 0 w.landAll.scrub.s n.toNat 0) ∨ (∀ n, ge.st ≠ .s n) ∧ s = w.landAll.scrub.s) := by
  by_cases h : ∃ n, ge.st = .s n
  · obtain ⟨n, h⟩ := h
    refine ⟨_, ?_, .inl ⟨n, h, rfl⟩⟩
    simp only [Env.leaveCallee, h]
    rfl
  · rw [not_exists] at h
    refine ⟨_, ?_, .inr ⟨h, rfl⟩⟩
    rw [Env.leaveCallee]
    split
    next n hn => exact absurd hn (h n)
    next => rfl

end

/-- Settles O39. -/
theorem gateState : Obligations.GateState := by
  intro e f g ge rest k block w into back kept together stays status
  obtain ⟨sregs, hback, hsregs⟩ := leaveCallee_eq (e := e) (ge := ge) (rest := rest) (block := block) (w := w)
  have hst : ∀ depth, mkStatus depth w.landAll.tl w.landAll.halted = status depth := fun depth => by
    rw [landAll_tl, landAll_halted]
    rfl
  have hs : back.s = sregs := congrArg Wave.s hback
  have hstays : stays back := by
    change stays (e.leaveCallee ge rest block w)
    rw [hback]
    exact ⟨rfl, rfl, rfl, rfl, rfl, rfl⟩
  have hkept : kept back := by
    change kept (e.leaveCallee ge rest block w)
    rw [hback]
    exact scrubbed_registers rfl rfl rfl
  have htogether : together back ge.ret := by
    change together (e.leaveCallee ge rest block w) ge.ret
    rw [hback]
    exact gathered_together _ _ _ (landAll_live w)
  have hlow : ∀ n, (∀ r, ge.st = .s r → r.toNat ≠ n) → back.sreg n = SMap.get 0 w.landAll.scrub.s n := fun n hn => by
    rw [Wave.sreg, hs]
    obtain ⟨r, hr, rfl⟩ | ⟨-, rfl⟩ := hsregs
    · exact SMap.get_set_other _ _ _ _ _ fun h => hn r hr h.symm
    · rfl
  have hzero : ∀ n, ge.st = .s n → back.sreg n.toNat = 0 := fun n hn => by
    rw [Wave.sreg, hs]
    obtain ⟨r, hr, rfl⟩ | ⟨h, -⟩ := hsregs
    · rw [hr] at hn
      cases hn
      exact SMap.get_set_same _ _ _ _
    · exact absurd hn (h n)
  refine ⟨scrubbed_registers rfl rfl rfl, hkept, ⟨rfl, rfl, rfl, rfl, rfl, rfl⟩, hstays, fun n hn => scrubbed_sreg_high rfl hn,
    fun n hn => ?_, fun hwf n hn => scrubbed_sreg_low rfl hwf hn, fun hwf n hn hne => (hlow n hne).trans (SMap.get_below 0 hwf hn),
    rfl, rfl, rfl, rfl, rfl, ?_, gathered_together _ _ _ (landAll_live w), ?_, ?_, ?_, ?_, ?_, ?_, hzero, htogether, ?_, ?_⟩
  · by_cases h : ∀ r, ge.st = .s r → r.toNat ≠ n
    · exact (hlow n h).trans (SMap.get_below_default 0 hn)
    · push Not at h
      obtain ⟨r, hr, rfl⟩ := h
      exact hzero r hr
  · exact congrArg (_ :: ·) (landAll_gates w)
  · exact congrArg Wave.dom hback
  · exact congrArg Wave.codeObj hback
  · exact congrArg Wave.tvec hback
  · exact congrArg Wave.tsave hback
  · exact congrArg Wave.gates hback
  · exact congrArg Wave.mode hback
  · rw [← hst, ← landAll_gdepth]
    rfl
  · rw [← hst, ← landAll_gdepth]
    exact congrArg Wave.status hback

end Sys2Proof.Machine
end

