-- ==== Sys2Proof/Proofs/TrapEntries.lean ====
section
/-!
Taking a trap: what entry writes into its bank, where the lanes then stand, what is kept, and the record on its way.
-/

namespace Sys2Proof.Machine

/-! ## Join targets and the level -/

theorem SMap.find?_foldl_erase_none {α : Type} {j : Nat} (ks : List Nat) (m : SMap α) (h : m.find? j = none) :
    SMap.find? (ks.foldl SMap.erase m) j = none := by
  induction ks generalizing m with
  | nil => exact h
  | cons k r ih =>
    refine ih _ ?_
    by_cases hk : j = k
    · rw [hk]
      exact SMap.find?_erase_same m k
    · rw [SMap.find?_erase_other m k j hk, h]

theorem SMap.find?_foldl_erase {α : Type} {j : Nat} (ks : List Nat) (m : SMap α) (h : j ∈ ks) :
    SMap.find? (ks.foldl SMap.erase m) j = none := by
  induction ks generalizing m with
  | nil => cases h
  | cons k r ih =>
    obtain rfl | h := List.mem_cons.1 h
    · exact SMap.find?_foldl_erase_none r _ (SMap.find?_erase_same m j)
    · exact ih _ h

theorem mkStatus_tl (gdepth n : Nat) (halt : Bool) (h : n < 4) : fieldOf (mkStatus gdepth n halt) 0 2 = n := by
  rw [fieldOf_eq, mkStatus, BitVec.toNat_ofNat]
  split <;> split <;> omega

/-! ## The wave at its handler -/

/-- A wave whose bank is written, with the lanes h at the handler's header. -/
def Wave.atHandler (w : Wave) (f : Frag) (n : Nat) (h : LaneMask) (obj : Nat) (header : CodeAddr) : Wave :=
  let w := w.setPcs h header
  let w : Wave := { w with codeObj := BitVec.ofNat 18 obj, pend := [],
                           hold := w.hold &&& ~~~f.slices }
  let w := (w.setJoins f.slices none).withTl n
  { w with frags := w.frags.map fun g =>
      if g.id = f.id then { g with block := header, hold := none, wait := .none, trapLevel := 0 }
      else if g.trapLevel = 0 then { g with trapLevel := BitVec.ofNat 2 n } else g }

theorem enterLevel_eq (w : Wave) (f : Frag) (n : Nat) (b : TrapBank) (obj : Nat) (header : CodeAddr) :
    w.enterLevel f n b obj header = (w.setBank n b).atHandler f n b.lanes obj header := rfl

section
variable {w : Wave} {f : Frag} {n obj : Nat} {b : TrapBank} {header : CodeAddr}

theorem setBank_pcs (w : Wave) (n : Nat) (b : TrapBank) : (w.setBank n b).pcs = w.pcs := by
  rw [Wave.setBank]
  split <;> rfl

theorem setBank_banks (w : Wave) (b : TrapBank) (hn : n = 1 ∨ n = 2) :
    (w.setBank n b).bank n = b ∧ (w.setBank n b).bank (3 - n) = w.bank (3 - n) := by
  obtain rfl | rfl := hn <;> exact ⟨rfl, rfl⟩

theorem setBank_trapParked (w : Wave) (b : TrapBank) (hn : n = 1 ∨ n = 2) :
    (w.setBank n b).trapParked = b.parked ||| (w.bank (3 - n)).parked := by
  obtain rfl | rfl := hn
  · rfl
  · exact BitVec.or_comm _ _

/-- The registers of two waves, their tiles, MODE, DOMAIN, gate stack and live lanes are the same. -/
def Wave.SameRegisters (w t : Wave) : Prop :=
  t.v = w.v ∧ t.s = w.s ∧ t.k = w.k ∧ t.x = w.x ∧ t.tiles = w.tiles ∧ t.mode = w.mode ∧ t.dom = w.dom ∧ t.gates = w.gates ∧
    t.live = w.live

theorem setBank_sameRegisters (w : Wave) (n : Nat) (b : TrapBank) : w.SameRegisters (w.setBank n b) := by
  rw [Wave.setBank]
  split <;> exact ⟨rfl, rfl, rfl, rfl, rfl, rfl, rfl, rfl, rfl⟩

/-- Only the wave's fragments, its outstanding instructions, its joins, its code object and its level differ. -/
def Wave.OnlyFlow (w t : Wave) : Prop :=
  ∃ obj pend hold join status frags, t = { w with
    codeObj := obj, pend := pend, hold := hold, join := join, status := status, frags := frags }

namespace Wave.OnlyFlow

theorem trans {a b c : Wave} : a.OnlyFlow b → b.OnlyFlow c → a.OnlyFlow c
  | ⟨_, _, _, _, _, _, h⟩, ⟨_, _, _, _, _, _, h'⟩ => by
    subst h h'
    exact ⟨_, _, _, _, _, _, rfl⟩

variable {w t : Wave} (h : w.OnlyFlow t)
include h

theorem bank1 : t.bank1 = w.bank1 := by obtain ⟨_, _, _, _, _, _, rfl⟩ := h; rfl
theorem bank2 : t.bank2 = w.bank2 := by obtain ⟨_, _, _, _, _, _, rfl⟩ := h; rfl
theorem pcs : t.pcs = w.pcs := by obtain ⟨_, _, _, _, _, _, rfl⟩ := h; rfl
theorem sameRegisters : w.SameRegisters t := by
  obtain ⟨_, _, _, _, _, _, rfl⟩ := h
  exact ⟨rfl, rfl, rfl, rfl, rfl, rfl, rfl, rfl, rfl⟩

end Wave.OnlyFlow

theorem setJoins_onlyFlow (w : Wave) (m : SliceMask) (j : Option CodeAddr) : w.OnlyFlow (w.setJoins m j) := ⟨_, _, _, _, _, _, rfl⟩
theorem withTl_onlyFlow (w : Wave) (n : Nat) : w.OnlyFlow (w.withTl n) := ⟨_, _, _, _, _, _, rfl⟩

theorem atHandler_onlyFlow (w : Wave) (f : Frag) (n : Nat) (h : LaneMask) (obj : Nat) (header : CodeAddr) :
    (w.setPcs h header).OnlyFlow (w.atHandler f n h obj header) := by
  rw [Wave.atHandler]
  generalize w.setPcs h header = w1
  refine Wave.OnlyFlow.trans (b := { w1 with codeObj := BitVec.ofNat 18 obj, pend := [], hold := w1.hold &&& ~~~f.slices })
    ⟨_, _, _, _, _, _, rfl⟩ ?_
  generalize { w1 with codeObj := BitVec.ofNat 18 obj, pend := [], hold := w1.hold &&& ~~~f.slices } = w2
  refine ((setJoins_onlyFlow w2 f.slices none).trans (withTl_onlyFlow _ n)).trans ?_
  generalize (w2.setJoins f.slices none).withTl n = w3
  exact ⟨_, _, _, _, _, _, rfl⟩

theorem atHandler_bank1 (w : Wave) (f : Frag) (n : Nat) (h : LaneMask) (obj : Nat) (header : CodeAddr) :
    (w.atHandler f n h obj header).bank1 = w.bank1 := (atHandler_onlyFlow ..).bank1

theorem atHandler_bank2 (w : Wave) (f : Frag) (n : Nat) (h : LaneMask) (obj : Nat) (header : CodeAddr) :
    (w.atHandler f n h obj header).bank2 = w.bank2 := (atHandler_onlyFlow ..).bank2

theorem enterLevel_bank (m : Nat) : (w.enterLevel f n b obj header).bank m = (w.setBank n b).bank m := by
  rw [enterLevel_eq, Wave.bank, atHandler_bank1, atHandler_bank2, Wave.bank]

theorem enterLevel_tl (h : n < 4) : (w.enterLevel f n b obj header).tl = n := mkStatus_tl _ n _ h

theorem enterLevel_pc {l : Nat} (hl : l < 96) :
    (w.enterLevel f n b obj header).pc l = if b.lanes.getLsbD l then header else w.pc l := by
  rw [enterLevel_eq, Wave.pc, (atHandler_onlyFlow ..).pcs, ← Wave.pc, Wave.setPcs_pc _ _ _ hl, Wave.pc, setBank_pcs, Wave.pc]

theorem enterLevel_join {k : Nat} (hk : k ∈ slicesOf f.slices) : (w.enterLevel f n b obj header).join.find? k = none :=
  SMap.find?_foldl_erase (slicesOf f.slices) _ hk

theorem enterLevel_trapParked : (w.enterLevel f n b obj header).trapParked = (w.setBank n b).trapParked := by
  rw [enterLevel_eq, Wave.trapParked, atHandler_bank1, atHandler_bank2, Wave.trapParked]

/-- A live lane outside the fragment is parked: now, or at the other level already. -/
theorem trapBankOf_parks {cause : Nat} {ret : CodeAddr} {val : DWord} {kept : List Pending} (hn : n = 1 ∨ n = 2)
    (hfree : (w.bank n).parked = 0) {l : Nat} (hlive : w.live.getLsbD l = true) (hout : (w.active f).getLsbD l = false) :
    (w.enterLevel f n (trapBankOf w f cause ret val kept) obj header).trapParked.getLsbD l = true := by
  have hother : w.trapParked = (w.bank (3 - n)).parked := by
    rw [Wave.trapParked]
    obtain rfl | rfl := hn
    · rw [show w.bank1.parked = 0#96 from hfree, BitVec.zero_or]
      rfl
    · rw [show w.bank2.parked = 0#96 from hfree, BitVec.or_zero]
      rfl
  have hl : l < 96 := BitVec.lt_of_getLsbD hlive
  rw [enterLevel_trapParked, setBank_trapParked w _ hn, ← hother, trapBankOf]
  simp only [BitVec.getLsbD_or, BitVec.getLsbD_and, BitVec.getLsbD_not, hlive, hout, hl, decide_true, Bool.not_false, Bool.and_true,
    Bool.true_and, Bool.not_or_self]

end

/-! ## Entry -/

section
variable {s : State} {wk fid c obj off : Nat} {pc ret : CodeAddr} {val : DWord} {w : Wave} {fr : Frag} {wg : Workgroup} {la : Launch}
  {save : ObjEntry}

/-- The record of an entry, whole (R418). -/
def recordAcc (s : State) (w : Wave) (core : Nat) (fr : Frag) (n : Nat) (b : TrapBank) (save : ObjEntry) : Acc :=
  ⟨lowestLane b.lanes, w.dom, w.tsave, save, .byte (refOffset w.tsave + 512 * (n - 1)), 64,
    entryRecord b fr.slices (s.counter (dieOf core)) w.dom, []⟩

theorem units_of_eight {a : Acc} {at_ : Nat} (ht : a.tgt = .byte at_) (hs : a.size = 64) : a.units = (List.range 8).map fun k =>
    { a with tgt := .byte (at_ + 8 * k), size := 8, data := (a.data.drop (8 * k)).take 8 } := by
  rw [Acc.units, ht]
  dsimp only
  rw [hs, if_neg (by decide)]

theorem enterTrap_enters {b : TrapBank} (hb : b = trapBankOf w fr c ret val w.pend) (hw : s.waves.find? wk = some w) (hf : w.frag? fid = some fr)
    (hwg : s.workgroups.find? w.wg = some wg) (hla : s.launches.find? wg.launch = some la) (hpend : w.pend = []) (htl : w.tl < 2)
    (hvec : s.checkTvec wg.core la w.dom.toNat w.tvec = some (obj, off)) (hsave : s.checkTsave wg.core w.dom.toNat w.tsave = some save) :
    s.enterTrap wk fid c pc ret val = (s.modWave wk fun _ => w.enterLevel fr (w.tl + 1) b obj (BitVec.ofNat 39 off)).queueStore
      ⟨wk, fr.slices⟩ wg.core false 0 (recordAcc s w wg.core fr (w.tl + 1) b save) := by
  have hland : w.landAll = w := by rw [Wave.landAll, hpend]; rfl
  have hrays : w.hasRays = false := by rw [Wave.hasRays, hpend]; rfl
  have hvec' : (s.modWave wk fun _ => w).checkTvec wg.core la w.dom.toNat w.tvec = some (obj, off) := hvec
  have hsave' : (s.modWave wk fun _ => w).checkTsave wg.core w.dom.toNat w.tsave = some save := hsave
  simp only [State.enterTrap, hw, hf, hwg, hla, hrays, Bool.false_eq_true, if_false, hland, if_neg (show ¬ w.tl + 1 = 3 by omega), hvec',
    hsave', State.modWave_modWave, ← hb]
  rfl

theorem entryRecord_length (b : TrapBank) (m : SliceMask) (clock : DWord) (dom : BitVec 16) : (entryRecord b m clock dom).length = 64 := by
  simp only [entryRecord, List.length_append, bytesOfNat_length]

end

/-- Settles O43. -/
theorem trapEntry : Obligations.TrapEntry := by
  intro s wk fid c pc ret val w fr wg la obj off save hw hf hwg hla hpend htl hc hfree hvec hsave n
  have hn : n = 1 ∨ n = 2 := by omega
  have henter := enterTrap_enters (c := c) (pc := pc) (ret := ret) (val := val) rfl hw hf hwg hla hpend htl hvec hsave
  obtain ⟨hbank, hother⟩ := setBank_banks w (trapBankOf w fr c ret val w.pend) hn
  rw [← enterLevel_bank (f := fr) (obj := obj) (header := BitVec.ofNat 39 off)] at hbank hother
  obtain ⟨hv, hs, hk, hx, htiles, hmode, hdom, hgates, hlive⟩ := setBank_sameRegisters w n (trapBankOf w fr c ret val w.pend)
  obtain ⟨hv', hs', hk', hx', htiles', hmode', hdom', hgates', hlive'⟩ := (atHandler_onlyFlow
    (w.setBank n (trapBankOf w fr c ret val w.pend)) fr n (trapBankOf w fr c ret val w.pend).lanes obj (BitVec.ofNat 39 off)).sameRegisters
  rw [← enterLevel_eq] at hv' hs' hk' hx' htiles' hmode' hdom' hgates' hlive'
  refine ⟨w.enterLevel fr n (trapBankOf w fr c ret val w.pend) obj (BitVec.ofNat 39 off), ?_, by rw [hbank]; rfl, by rw [hbank]; rfl,
    by rw [hbank]; rfl, by rw [hbank]; rfl, hother, enterLevel_tl (by omega), by rw [hbank]; rfl, fun l hl h => ?_, fun l hl h => ?_,
    fun l _ hlive h => trapBankOf_parks hn hfree hlive h, fun k hk => enterLevel_join hk, rfl,
    hv'.trans hv, hs'.trans hs, hk'.trans hk, hx'.trans hx, htiles'.trans htiles, hmode'.trans hmode, hdom'.trans hdom,
    hgates'.trans hgates, hlive'.trans hlive, ⟨recordAcc s w wg.core fr n (trapBankOf w fr c ret val w.pend) save, ?_, entryRecord_length _ _ _ _, rfl, rfl⟩,
    fun a => ?_⟩
  · rw [henter]
    change (s.modWave wk _).waves.find? wk = _
    rw [State.modWave_find, hw]
    rfl
  · rw [enterLevel_pc hl]
    exact if_pos h
  · rw [enterLevel_pc hl]
    exact if_neg (Bool.not_eq_true _ ▸ h)
  · rw [henter]
    exact congrArg (s.storeQ ++ ·) ((congrArg _ (units_of_eight rfl rfl)).trans (List.map_map ..))
  · rw [henter]
    rfl

end Sys2Proof.Machine
end

