-- ==== Sys2Proof/Proofs/ReferencesAndQueries.lean ====
section
/-!
References as data, object and tensor queries, RELAYOUT and RLWAIT.
-/

namespace Sys2Proof.Machine

/-! ## References by their fields (R66, R220) -/

theorem refRights_toNat (r : DWord) : (refRights r).toNat = r.toNat / 2 ^ 42 % 16 := by
  rw [refRights, BitVec.extractLsb'_toNat, Nat.shiftRight_eq_div_pow]

/-- A reference as the number of its index, rights and offset. -/
theorem mkRef_eq (index : Nat) (rights : BitVec 4) (off : Nat) :
    mkRef index rights off = BitVec.ofNat 64 (index % 2 ^ 18 * 2 ^ 46 + rights.toNat * 2 ^ 42 + off % 2 ^ 42) := by
  apply BitVec.eq_of_toNat_eq
  rw [mkRef_toNat, BitVec.toNat_ofNat]
  have := rights.isLt
  omega

/-- A reference of fields that fit. -/
theorem mkRef_eq_of_lt {index off : Nat} (hi : index < 2 ^ 18) (ho : off < 2 ^ 42) (rights : BitVec 4) :
    mkRef index rights off = BitVec.ofNat 64 (index * 2 ^ 46 + rights.toNat * 2 ^ 42 + off) := by
  rw [mkRef_eq, Nat.mod_eq_of_lt hi, Nat.mod_eq_of_lt ho]

theorem refIndex_lt (r : DWord) : refIndex r < 2 ^ 18 := (BitVec.isLt _)

theorem withOffset_eq (r : DWord) {off : Nat} (ho : off < 2 ^ 42) :
    withOffset r off = BitVec.ofNat 64 (r.toNat / 2 ^ 46 * 2 ^ 46 + r.toNat / 2 ^ 42 % 16 * 2 ^ 42 + off) := by
  rw [withOffset, mkRef_eq_of_lt (refIndex_lt r) ho, refIndex_eq, refRights_toNat]

theorem refRelation_eq (n : Nat) (x y : DWord) : refRelation n x y =
    [decide (x.toNat / 2 ^ 46 = y.toNat / 2 ^ 46), decide (x.toNat = y.toNat),
      decide (x.toNat / 2 ^ 46 = y.toNat / 2 ^ 46 ∧ x.toNat % 2 ^ 42 < y.toNat % 2 ^ 42),
      decide (x.toNat / 2 ^ 46 = y.toNat / 2 ^ 46 ∧ x.toNat % 2 ^ 42 ≤ y.toNat % 2 ^ 42)].getD n
      (decide (x.toNat / 2 ^ 46 = y.toNat / 2 ^ 46 ∧ x.toNat % 2 ^ 42 ≤ y.toNat % 2 ^ 42)) := by
  simp only [refRelation, refIndex_eq, refOffset_eq, ← BitVec.toNat_inj]
  match n with
  | 0 | 1 | 2 | 3 => rfl
  | _ + 4 => rfl

theorem references : Rules.References := by
  intro s e f a b index rights offset ref gives judges
  refine ⟨fun hr => ?_, fun hr => ?_, fun hr => ?_, fun hr => ?_, fun hr => ?_, fun hr => ?_,
    fun hr => run_writes (body := fun _ _ => _) hr rfl rfl⟩
  · refine run_writes (body := fun _ _ => _) hr rfl (congrArg (Act.writes s · Cond.none) ?_)
    refine congrArg (List.flatMap · _) (funext fun l => congrArg (writeTo .z64 f.d l) ?_)
    dsimp only
    rw [mkRef_eq, Env.rights, BitVec.toNat_ofNat]
    rfl
  · refine run_writes (body := fun _ _ => _) hr rfl (congrArg (Act.writes s · Cond.none) ?_)
    refine congrArg (List.flatMap · _) (funext fun l => congrArg (writeTo .z64 f.d l) ?_)
    dsimp only
    rw [mkRef_eq_of_lt (refIndex_lt _) (by rw [refOffset_eq]; omega), refIndex_eq, refOffset_eq, BitVec.toNat_and, refRights_toNat,
      Env.rights, BitVec.toNat_ofNat]
  · refine run_writes (body := fun _ _ => _) hr rfl (congrArg (Act.writes s · Cond.none) ?_)
    refine congrArg (List.flatMap · _) (funext fun l => congrArg (writeTo .z64 f.d l) ?_)
    dsimp only
    rw [byteTval, withOffset_eq _ (by omega), refOffset_eq]
  · refine run_writes (body := fun _ _ => _) hr rfl (congrArg (Act.writes s · Cond.none) ?_)
    simp only [refOffset_eq]
    rfl
  · refine run_writes (body := fun _ _ => _) hr rfl (congrArg (Act.writes s · Cond.none) ?_)
    refine congrArg (List.flatMap · _) (funext fun l => congrArg (writeTo .z64 f.d l) ?_)
    dsimp only
    rw [withOffset_eq _ (Nat.mod_lt _ (Nat.two_pow_pos 42))]
  · refine run_writes (body := fun _ _ => _) hr rfl (congrArg (Act.writes s · Cond.none) ?_)
    simp only [refRelation_eq]
    rfl

/-! ## Queries and conversions (R221 to R223) -/

/-- The first failure in lane order is the lowest lane's. -/
theorem findSome?_of_first {β : Type} {g : Nat → Option β} {xs : List Nat} {l : Nat} {c : β} (hs : xs.Pairwise (· < ·)) (hl : l ∈ xs)
    (hg : g l = some c) (hmin : ∀ j ∈ xs, j < l → g j = none) : xs.findSome? g = some c := by
  induction xs with
  | nil => cases hl
  | cons x r ih =>
    obtain ⟨hx, hr⟩ := List.pairwise_cons.1 hs
    obtain rfl | hl := List.mem_cons.1 hl
    · rw [List.findSome?_cons, hg]
    · rw [List.findSome?_cons, hmin x List.mem_cons_self (hx l hl)]
      exact ih hr hl fun j hj => hmin j (List.mem_cons_of_mem x hj)

section
variable {s : State} {e : Env} {f : VFmt}

/-- What a query asks of an object, 0 where its reference fails. -/
theorem query_value (ref : DWord) (g : ObjEntry → Nat) : BitVec.ofNat 64 ((match e.entryOf s ref with
      | some entry => g entry
      | none => 0) % 2 ^ 32) =
    (match s.checkObject e.core e.dom ref needNone .any 0 0 with
      | .ok entry => BitVec.ofNat 64 (g entry % 2 ^ 32)
      | .error _ => 0 : DWord) := by
  rw [Env.entryOf]
  cases s.checkObject e.core e.dom ref needNone .any 0 0 <;> rfl

theorem taddr_writes {x : Nat → DWord} (hr : s.Runs e (.taddr f)) (h : ∀ l ∈ lanesOf e.lanes, e.taddr s f l = .ok (x l)) :
    exec (.taddr f) s = .next (s.wrote e (.taddr f) ((lanesOf e.lanes).flatMap fun l => writeTo .z64 f.d l (x l)) .none) := by
  have hmap : ((lanesOf e.lanes).map fun l => (l, e.taddr s f l)) = (lanesOf e.lanes).map fun l => (l, .ok (x l)) :=
    List.map_congr_left fun l hl => by rw [h l hl]
  refine run_writes (body := fun e s => _) hr rfl ?_
  dsimp only
  rw [hmap, List.findSome?_map, List.flatMap_map]
  simp only [Function.comp_def, findSome?_eq_none_of (fun _ _ => rfl)]

theorem taddr_traps {l c : Nat} {v : DWord} (hl : l ∈ lanesOf e.lanes) (hi : s.Issues e (.taddr f)) (h : e.taddr s f l = .error (c, v))
    (hmin : ∀ j ∈ lanesOf e.lanes, j < l → ∃ x, e.taddr s f j = .ok x) : exec (.taddr f) s = .next (s.trapped e c v) := by
  refine issue_trap (body := fun e s => _) hi rfl ?_
  dsimp only
  rw [List.findSome?_map, findSome?_of_first (pairwise_lanesOf _) hl (c := (c, v)) (by simp only [Function.comp_apply, h])]
  intro j hj hjl
  obtain ⟨x, hx⟩ := hmin j hj hjl
  simp only [Function.comp_apply, hx]

end

theorem tensorQueries : Rules.TensorQueries := by
  intro s e f ref tag value
  refine ⟨fun hr => ?_, fun hr => ?_, fun x hr h => taddr_writes hr h, fun l hl c v hi h hmin => taddr_traps hl hi h hmin,
    fun entry hi hc => ⟨fun h => ?_, fun h hf => ?_⟩, fun entry hc => ⟨fun hr h => ?_, fun hi h hd => ?_, fun hi h hd hdead => ?_,
      fun hi h hd hdead => ?_⟩⟩
  · refine run_writes (body := fun _ _ => _) hr rfl (congrArg (Act.writes s · Cond.none) ?_)
    exact congrArg (List.flatMap · _) (funext fun l => congrArg (writeTo .z32 f.d l) (query_value _ _))
  · refine run_writes (body := fun _ _ => _) hr rfl (congrArg (Act.writes s · Cond.none) ?_)
    exact congrArg (List.flatMap · _) (funext fun l => congrArg (writeTo .z32 f.d l) (query_value _ _))
  all_goals simp only [ref] at hc
  · refine issue_trap (body := fun e s => _) hi rfl ?_
    simp only [hc]
    exact if_pos (by rw [h]; rfl)
  · refine issue_writes (body := fun e s => _) hi rfl ?_
    simp only [hc]
    exact (if_neg (by rw [h]; decide)).trans (if_neg (by rw [hf]; decide))
  · refine run_writes (body := fun e s => _) hr rfl ?_
    simp only [hc]
    exact if_pos (by rw [h]; rfl)
  · refine issue_trap (body := fun e s => _) hi rfl ?_
    simp only [hc]
    exact (if_neg (by rw [h]; decide)).trans (if_pos hd)
  · refine issue_hold (body := fun e s => _) hi rfl ?_
    simp only [hc]
    exact (if_neg (by rw [h]; decide)).trans ((if_neg (by rw [hd]; decide)).trans (if_neg (by rw [hdead]; decide)))
  · refine issue_trap (body := fun e s => _) hi rfl ?_
    simp only [hc]
    exact (if_neg (by rw [h]; decide)).trans ((if_neg (by rw [hd]; decide)).trans (if_pos hdead))

/-- Settles O46. -/
theorem referencesAndQueries : Obligations.ReferencesAndQueries := ⟨references, tensorQueries⟩

end Sys2Proof.Machine
end

