-- ==== Sys2Proof/Proofs/WaveEvents.lean ====
section
/-!
A word that is no instruction, past the end of its block (O47).
-/

namespace Sys2Proof.Machine

/-- The word of EXIT, which is an instruction. -/
def exitWord : DWord := (Instr.exit ⟨0, .none, 0, 0, false, 0, 0, none⟩).word

/-- One wave whose fragment stands past the end of its block, with no words left there; the fault ring is at 0x10000. -/
def strayState : State :=
  let s := (State.reset.placeWords 0 none).setReg 0x0700 0x8000000000010000
  { s with cur := some (0, 0), waves := s.waves.map fun x => (x.1, x.2.setPcs (BitVec.allOnes 96) 5) }

theorem stray_isSome : (strayState.env (.notAnInstruction exitWord)).isSome = true := by decide +kernel

/-- What the stray fragment sees. -/
def strayEnv : Env := (strayState.env (.notAnInstruction exitWord)).get stray_isSome

theorem stray_env : strayState.env (.notAnInstruction exitWord) = some strayEnv := (Option.some_get _).symm

theorem exec_notAnInstruction {s : State} {e : Env} {w : DWord} (he : s.env (.notAnInstruction w) = some e) :
    exec (.notAnInstruction w) s =
      .next (s.issueIn e (.notAnInstruction w) (fun _ _ => .trap 0x40 (illegalVal w 0x02))) := by
  have hissue : exec (.notAnInstruction w) s = execNotAnInstruction w s := rfl
  rw [hissue, execNotAnInstruction, issue, he]

/-- The byte of the first fault record that holds the sub-reason. -/
def State.recordedReason (s : State) : Byte := s.byte 0x10060

/-- Past its block's end a word that would be an instruction is sub-reason 0x08. -/
theorem stray_records : (strayState.issueIn strayEnv (.notAnInstruction exitWord)
    (fun _ _ => .trap 0x40 (illegalVal exitWord 0x02))).recordedReason = 8 := by decide +kernel

theorem stray_stated : (strayState.trapped strayEnv 0x40 (illegalVal exitWord 0x02)).recordedReason = 2 := by decide +kernel

/-- Refutes O47: the statement gives sub-reason 0x02 to a word of class 0xB past the end of its block, where the extension is what
is missing. -/
theorem not_waveEvents : ¬ Obligations.WaveEvents := by
  rintro ⟨h, -⟩
  have := h strayState strayEnv exitWord stray_env (by decide +kernel) (by decide +kernel)
    (Option.isNone_iff_eq_none.1 (by decide +kernel)) (Option.isNone_iff_eq_none.1 (by decide +kernel)) (by decide +kernel)
    (by decide +kernel)
  rw [exec_notAnInstruction stray_env] at this
  injection this with hstate
  have hreason := congrArg State.recordedReason hstate
  rw [stray_records] at hreason
  exact absurd (hreason.trans stray_stated) (by decide)

end Sys2Proof.Machine
end

