-- ==== Sys2Proof/Proofs/EngineEvents.lean ====
section
/-!
Copies, matrix operations, fills and collectives complete.
-/

namespace Sys2Proof.Machine

/-! ## Counts of an arithmetic unit (R474, R475) -/

theorem countOutcome_failed (s : State) (die : Nat) :
    s.countOutcome die .failed = (s.addCount (0x0B40 + 16 * die) 3).addCount (0x0B48 + 16 * die) 1 := by
  rw [State.countOutcome, show 0x0B40 + 16 * die + 8 = 0x0B48 + 16 * die by omega]

theorem countOutcome_done (s : State) (die : Nat) (r : BitVec 2) :
    s.countOutcome die (.done r) = if r = 0 then s else s.addCount (0x0B40 + 16 * die) r.toNat := rfl

/-! ## Copies (R216, R365) -/

section
variable {s : State} {c : Copy} {is : List Nat} {src dst : Nat → Nat}

/-- The bytes that a copy has yet to move. -/
def Copy.remaining (c : Copy) : List Nat := ((List.range c.lineCount).filter fun j => !c.lines.getLsbD j).flatMap c.bytesOf

/-- A byte of a copy and its places, 0 for a scratchpad's. -/
def copyMove (src dst : Nat → Nat) (i : Nat) : Nat × Nat × Nat := (i, src i, dst i)

/-- The places of a copy's bytes can be had. -/
def State.placesCopy (s : State) (c : Copy) (src dst : Nat → Nat) (is : List Nat) : Prop :=
  ∀ i ∈ is, (c.srcScratch = none → s.copyPlace c c.srcRef c.srcEntry i = some (src i)) ∧ (c.srcScratch ≠ none → src i = 0) ∧
    (c.dstScratch = none → s.copyPlace c c.dstRef c.dstEntry i = some (dst i)) ∧ (c.dstScratch ≠ none → dst i = 0)

theorem copyByte_placed (h : s.placesCopy c src dst is) {i : Nat} (hi : i ∈ is) : s.copyByte c i = some (copyMove src dst i) := by
  obtain ⟨hs, hs0, hd, hd0⟩ := h i hi
  rw [State.copyByte, copyMove]
  cases hsrc : c.srcScratch with
  | none =>
    cases hdst : c.dstScratch with
    | none => simp [hs hsrc, hd hdst]
    | some _ => simp [hs hsrc, hd0 (by simp [hdst])]
  | some _ =>
    cases hdst : c.dstScratch with
    | none => simp [hd hdst, hs0 (by simp [hsrc])]
    | some _ => simp [hs0 (by simp [hsrc]), hd0 (by simp [hdst])]

/-- Every byte of a line whose places can be had is met. -/
theorem line_met (h : s.placesCopy c src dst c.remaining) {j : Nat} (hj : j ∈ (List.range c.lineCount).filter fun j => !c.lines.getLsbD j) :
    (c.bytesOf j).map (s.copyByte c) = (c.bytesOf j).map fun i => some (copyMove src dst i) :=
  List.map_congr_left fun _ hi => copyByte_placed h (List.mem_flatMap.2 ⟨j, hj, hi⟩)

/-- Lines all of whose bytes are met. -/
def metLines (src dst : Nat → Nat) (c : Copy) (lines : List Nat) : List (Nat × List (Option (Nat × Nat × Nat))) :=
  lines.map fun j => (j, (c.bytesOf j).map fun i => some (copyMove src dst i))

/-- The lines of a copy whose places can be had, with their bytes. -/
theorem lines_met (h : s.placesCopy c src dst c.remaining) :
    (((List.range c.lineCount).filter fun j => !c.lines.getLsbD j).map fun j => (j, (c.bytesOf j).map (s.copyByte c))) =
      metLines src dst c ((List.range c.lineCount).filter fun j => !c.lines.getLsbD j) :=
  List.map_congr_left fun _ hj => congrArg (Prod.mk _) (line_met h hj)

theorem metLines_whole (lines : List Nat) : ∀ x ∈ metLines src dst c lines, (x.2.all fun b => b.isSome) = true := by
  intro x hx
  obtain ⟨j, -, rfl⟩ := List.mem_map.1 hx
  simp

theorem metLines_bytes (lines : List Nat) : ((metLines src dst c lines).flatMap fun x => x.2).filterMap (fun b => b) =
    (lines.flatMap c.bytesOf).map (copyMove src dst) := by
  rw [metLines, List.flatMap_map, ← List.map_flatMap, List.filterMap_map]
  exact congrFun List.filterMap_eq_map' _

/-- What a copy's engine writes, each byte read before any is written. -/
def State.copied (s : State) (c : Copy) (src dst : Nat → Nat) (is : List Nat) : State :=
  let byte (i : Nat) : Byte := match c.srcScratch with
    | some (g, a) => s.scratchByte g (a + i)
    | none => s.portByte (dieOf c.core) (src i)
  match c.dstScratch with
  | some (g, a) => is.foldl (fun t i => t.setScratch g (a + i) (byte i)) s
  | none => s.engineWrite c.core (is.map fun i => (dst i, byte i))
      (if c.srcScratch.isSome then [] else (is.filter fun i => s.portPoisoned (dieOf c.core) (src i)).map dst)

theorem copyLines_eq : s.copyLines c (is.map (copyMove src dst)) = (s.copied c src dst is).noteCopy c is := by
  have hindex : (is.map (copyMove src dst)).map (fun x => x.1) = is := by
    rw [List.map_map]
    exact List.map_id is
  rw [State.copyLines, hindex]
  refine congrArg (fun t : State => t.noteCopy c is) ?_
  rw [State.copyOut, State.copied]
  cases c.dstScratch with
  | some x =>
    dsimp only
    rw [List.map_map, List.foldl_map]
    rfl
  | none =>
    dsimp only
    rw [List.map_map, List.map_map, List.filter_map, List.map_map]
    rfl

theorem moved_sources : ((is.map (copyMove src dst)).map fun x => x.2.1) = is.map src := List.map_map ..
theorem moved_places : ((is.map (copyMove src dst)).map fun x => x.2.2) = is.map dst := List.map_map ..

end

/-- A copy whose places can all be had, and whose bytes can be read and written, is carried out and leaves its queue. -/
theorem copy_completes {s s1 : State} {n : Nat} {c : Copy} {src dst : Nat → Nat} {is : List Nat} (hs1 : s1 = s.drainStores (ofSlices c.wave c.slices))
    (his : is = c.remaining) (hc : s.copies[n]? = some c) (hcore : s.onCore c.wave = true) (hplace : s.placesCopy c src dst is)
    (hread : s.copyUnreadable c is = false) (hsrc : c.srcScratch = none → s.noTranslation c.dom.toNat false (is.map src) = false)
    (hdst : c.dstScratch = none → s.noTranslation c.dom.toNat true (is.map dst) = false)
    (hbad : c.srcScratch = none → c.dstScratch ≠ none → ∀ i ∈ is, s1.portPoisoned (dieOf c.core) (src i) = false) {t : State}
    (ht : t = (s1.copied c src dst is).noteCopy c is) :
    exec (.copyComplete n) s =
      .next (({ t.releaseAct c.core c.scope with copies := t.copies.eraseIdx n } : State).updateBatches c.wave) := by
  subst his ht
  have hexec : exec (.copyComplete n) s = execCopyComplete n s := rfl
  have hall := metLines_whole (src := src) (dst := dst) (c := c) ((List.range c.lineCount).filter fun j => !c.lines.getLsbD j)
  have hxs : (((List.range c.lineCount).filter fun j => !c.lines.getLsbD j).flatMap c.bytesOf) = c.remaining := rfl
  have htrans : ((c.srcScratch.isNone && s.noTranslation c.dom.toNat false (c.remaining.map src)) ||
      (c.dstScratch.isNone && s.noTranslation c.dom.toNat true (c.remaining.map dst))) = false := by
    rw [Bool.or_eq_false_iff]
    refine ⟨?_, ?_⟩
    · cases h : c.srcScratch with
      | none => exact hsrc h
      | some _ => rfl
    · cases h : c.dstScratch with
      | none => exact hdst h
      | some _ => rfl
  have hdamage : (c.dstScratch.isSome && c.srcScratch.isNone && (c.remaining.map (copyMove src dst)).any fun x => s1.portPoisoned (dieOf c.core) x.2.1) =
      false := by
    rw [Bool.eq_false_iff]
    intro h
    simp only [Bool.and_eq_true, Option.isSome_iff_ne_none, Option.isNone_iff_eq_none, List.any_map, List.any_eq_true] at h
    obtain ⟨⟨hd, hs⟩, i, hi, hp⟩ := h
    have := hbad hs hd i hi
    simp only [Function.comp_apply, copyMove] at hp
    rw [this] at hp
    cases hp
  rw [hexec, execCopyComplete]
  simp only [hc, hcore, Bool.not_true, Bool.false_eq_true, if_false, lines_met hplace]
  simp only [List.all_eq_true.2 hall, Bool.not_true, Bool.and_false, Bool.false_eq_true, if_false, List.filter_eq_self.2 hall, metLines_bytes, hread, hxs,
    moved_sources, moved_places, htrans, ← hs1, hdamage, copyLines_eq]
  exact if_pos (List.length_map ..)

/-! ## Matrix operations and fills -/

section
variable {s : State} {n : Nat} {r : BitVec 2} {o : MatOp}

theorem matrixOp_done (ho : s.matOps[n]? = some o) (hcore : s.onCore o.wave = true) (hord : s.opOrdered n o = false) :
    exec (.matrixOpComplete n (.done r)) s =
      .next ((if checkedOp o.instr = true ∧ r ≠ 0 then s.addCount (0x0B40 + 16 * dieOf o.core) r.toNat else s).finishOp n o) := by
  have hexec : exec (.matrixOpComplete n (.done r)) s = execMatrixOpComplete n (.done r) s := rfl
  rw [hexec, execMatrixOpComplete]
  simp only [ho, hcore, hord, Bool.not_true, Bool.or_self, Bool.false_eq_true, if_false]
  cases hk : checkedOp o.instr with
  | true =>
    rw [countOutcome_done]
    by_cases hr : r = 0 <;> simp [hr]
  | false => simp

theorem matrixOp_failed (ho : s.matOps[n]? = some o) (hcore : s.onCore o.wave = true) (hord : s.opOrdered n o = false)
    (hk : checkedOp o.instr = true) : exec (.matrixOpComplete n .failed) s = .next (((s.addCount (0x0B40 + 16 * dieOf o.core) 3).addCount
      (0x0B48 + 16 * dieOf o.core) 1).engineDamage o.wave o.pc) := by
  have hexec : exec (.matrixOpComplete n .failed) s = execMatrixOpComplete n .failed s := rfl
  rw [hexec, execMatrixOpComplete]
  simp only [ho, hcore, hord, Bool.not_true, Bool.or_self, Bool.false_eq_true, if_false, hk, countOutcome_failed]

/-- An operation that touches no memory takes effect at once. -/
theorem finishOp_registers (h : ∀ f, o.instr ≠ .bload f ∧ o.instr ≠ .drain f ∧ o.instr ≠ .drainAdd f) (t : State) :
    t.finishOp n o = ({ t.modWave o.wave o.run with matOps := t.matOps.eraseIdx n } : State).updateBatches o.wave := by
  have hnot : ∀ out, (match o.instr with
      | .bload f => t.bloadRun o f
      | .drain f => t.drainRun o f false
      | .drainAdd f => t.drainRun o f true
      | _ => .done (t.modWave o.wave o.run)) = out → out = OpOut.done (t.modWave o.wave o.run) := by
    rintro out rfl
    split
    next f hf => exact absurd hf (h f).1
    next f hf => exact absurd hf (h f).2.1
    next f hf => exact absurd hf (h f).2.2
    next => rfl
  rw [State.finishOp]
  split
  next u hu =>
    cases hnot _ hu
    rfl
  next u hu => cases hnot _ hu
  next u hu => cases hnot _ hu

end

theorem weightFill_done {s s1 filled : State} {core n : Nat} {f : WFill} {bytes : List Byte} (hs1 : s1 = s.drainStores (ofSlices f.wave f.slices))
    (hfilled : filled = { s1 with wfills := SMap.set [] s1.wfills core ((SMap.get [] s.wfills core).eraseIdx n) })
    (hf : (SMap.get [] s.wfills core)[n]? = some f) (hbytes : s1.fillImage core f.dom.toNat f.ref f.ch = .done bytes) :
    exec (.weightFillComplete core n) s = .next ((filled.cacheImage core f.dom f.ref bytes).noteEngine (s1.launchOf f.wave) f.dom.toNat
      (refIndex f.ref) (refOffset f.ref) bytes.length f.waited) := by
  have hexec : exec (.weightFillComplete core n) s = execWeightFillComplete core n s := rfl
  rw [hexec, execWeightFillComplete]
  simp only [hf, ← hs1, hbytes, hfilled]

/-! ## Collectives (R326, R474, R500) -/

/-- The operation is a reduction. -/
def reduces : Instr → Bool
  | .collRed _ => true
  | _ => false

section
variable {s : State} {n : Nat} {c : Coll} {w : Wave} {wg : Workgroup} {la : Launch} {size : Nat × Nat}

/-- A collective on one package, all its bytes at hand. -/
structure State.CollReady (s : State) (n : Nat) (c : Coll) (w : Wave) (wg : Workgroup) (la : Launch) (size : Nat × Nat) : Prop where
  coll : s.colls[n]? = some c
  launch : s.launches.find? c.launch = some la
  wave : s.waves.find? c.wave = some w
  workgroup : s.workgroups.find? w.wg = some wg
  npkg : la.npkg = 1
  bytes : size = collBytes c.instr c.w0 la.npkg la.rank
  lost : c.lost = false
  readable : s.collUnreadable c size = false
  converted : s.collConverts c = false
  needs : s.collNeeds c size = []
  linked : s.collLinked c size = true
  translated : s.collUntranslated c size = false

theorem collective_fails (h : s.CollReady n c w wg la size) (hr : reduces c.instr = true) : exec (.collectiveComplete n .failed) s =
    .next (((s.addCount (0x0B40 + 16 * dieOf wg.core) 3).addCount (0x0B48 + 16 * dieOf wg.core) 1).engineKill c.wave c.pc 3 0) := by
  obtain ⟨hc, hla, hw, hwg, -, hsize, hlost, hread, hconv, hneeds, hlink, htrans⟩ := h
  have hexec : exec (.collectiveComplete n .failed) s = execCollectiveComplete n .failed s := rfl
  rw [hexec, execCollectiveComplete]
  simp only [hc, hla, hw, hwg, ← hsize, hlost, hread, hconv, hneeds, hlink, htrans, List.isEmpty_nil, Bool.not_true, Bool.false_eq_true,
    if_false, countOutcome_failed]
  refine if_pos ?_
  rw [Bool.and_eq_true]
  exact ⟨hr, rfl⟩

theorem collective_done {r : BitVec 2} {s0 u : State} {own : List (Byte × Bool)} {res : List (Byte × List Nat)} {places bad : List Nat}
    (h : s.CollReady n c w wg la size)
    (hs0 : s0 = State.noteColl (if r ≠ 0 ∧ reduces c.instr = true then s.addCount (0x0B40 + 16 * dieOf wg.core) r.toNat else s) c size)
    (hown : own = s0.collSource (dieOf wg.core) c size.1) (hres : res = collResult s0 c 1 la.rank (own.map fun x => x.1))
    (hplaces : places = (List.range size.2).map fun i => s0.addrOf c.dom.toNat c.dstEntry (refOffset c.dst + i))
    (hbad : bad = ((places.zip res).filter fun x => x.2.2.any fun i => (own.getD i (0, false)).2).map fun x => x.1)
    (hu : u = s0.engineWrite wg.core (places.zip (res.map fun x => x.1)) bad) :
    exec (.collectiveComplete n (.done r)) s = .next { (u.setCstat c 0).releaseAct wg.core 6 with
      colls := u.colls.eraseIdx n, freeCount := u.freeCount + 66 + size.2 / 32 } := by
  obtain ⟨hc, hla, hw, hwg, hnpkg, hsize, hlost, hread, hconv, hneeds, hlink, htrans⟩ := h
  have hcount : (if reduces c.instr = true then s.countOutcome (dieOf wg.core) (.done r) else s) =
      if r ≠ 0 ∧ reduces c.instr = true then s.addCount (0x0B40 + 16 * dieOf wg.core) r.toNat else s := by
    rw [countOutcome_done]
    by_cases hr : r = 0#2 <;> cases reduces c.instr <;> simp [hr]
  rw [hnpkg] at hsize
  have hnone : ∀ xs : List (Nat × Nat), (xs.filter fun _ => false) = [] := fun xs => List.filter_eq_nil_iff.2 (by simp)
  have hexec : exec (.collectiveComplete n (.done r)) s = execCollectiveComplete n (.done r) s := rfl
  rw [hexec, execCollectiveComplete]
  simp only [hc, hla, hw, hwg, ← hsize, hlost, hread, hconv, hneeds, hlink, htrans, List.isEmpty_nil, Bool.not_true, Bool.false_eq_true,
    if_false, hnpkg, Nat.lt_irrefl, decide_false, Bool.false_and, hnone, List.map_nil, List.append_nil]
  change (if (reduces c.instr && EngineOutcome.done r == EngineOutcome.failed) = true then _ else _) = _
  rw [if_neg (by rw [Bool.and_eq_true]; rintro ⟨-, h⟩; cases eq_of_beq h)]
  rw [← hcount] at hs0
  have hwaves : (if reduces c.instr = true then s.countOutcome (dieOf wg.core) (.done r) else s).waves.find? c.wave = some w := by
    rw [countOutcome_done]
    split_ifs <;> exact hw
  have hgroups : (if reduces c.instr = true then s.countOutcome (dieOf wg.core) (.done r) else s).workgroups.find? w.wg = some wg := by
    rw [countOutcome_done]
    split_ifs <;> exact hwg
  erw [← hs0, hwaves]
  dsimp only
  erw [hgroups]
  simp only [← hown, ← hres, ← hplaces, ← hbad, Option.map_some, Option.getD_some, ← hu]

theorem collective_lost {o : EngineOutcome} (hc : s.colls[n]? = some c) (hl : c.lost = true)
    (hr : (s.residentAddr c.dom.toNat c.descEntry (refOffset c.desc) 64).isSome) :
    exec (.collectiveComplete n o) s = .next (({ s with colls := s.colls.eraseIdx n } : State).setCstat c 2) := by
  have hexec : exec (.collectiveComplete n o) s = execCollectiveComplete n o s := rfl
  rw [hexec, execCollectiveComplete]
  simp only [hc, hl, if_true, State.finishLost, hr]

end

/-- Settles O48. -/
theorem engineEvents : Obligations.EngineEvents := by
  refine ⟨?_, fun s n r o ho hcore hord => ⟨matrixOp_done ho hcore hord, matrixOp_failed ho hcore hord, finishOp_registers⟩, ?_, ?_,
    fun s n o c hc hl hr => collective_lost hc hl hr⟩
  · intro s n c src dst hc hcore is hplace hread hsrc hdst s1 bad hbad byte moved t
    refine copy_completes rfl rfl hc hcore hplace hread hsrc hdst hbad ?_
    rfl
  · intro s core n f bytes hf s1 filled hbytes
    exact weightFill_done rfl rfl hf hbytes
  · intro s n c w wg la hc hla hw hwg hnpkg size hlost hread hconv hneeds hlink htrans r red s0 own res places bad u
    have hready : s.CollReady n c w wg la size := ⟨hc, hla, hw, hwg, hnpkg, rfl, hlost, hread, hconv, hneeds, hlink, htrans⟩
    exact ⟨collective_done hready rfl rfl rfl rfl rfl rfl, collective_fails hready⟩

end Sys2Proof.Machine
end

