-- ==== Sys2Proof/Proofs/RayEvents.lean ====
section
/-!
A lane's traversal ends; a builder starts and completes its operations.
-/

namespace Sys2Proof.Machine

/-! ## Registers of a lane that a run of writes leaves or gives -/

theorem apply_vreg_other (w : Wave) (n m lane l : Nat) (x : Word) (hlane : lane < 96) (hl : l < 96) (h : l ≠ lane ∨ m ≠ n) :
    (w.apply (.v n lane x)).vreg m l = w.vreg m l := by
  rw [Wave.apply, Wave.setV, Wave.vreg]
  exact SMap.get_set_other _ _ _ _ _ (by omega)

section
variable {w : Wave} {d lane : Nat} {xs : List Word}

/-- The writes of a run from a vector register. -/
def runWrites (d lane : Nat) (xs : List Word) (n : Nat) : List RegWrite := (List.range n).map fun i => .v (d + i) lane (xs.getD i 0)

theorem applyRun_succ (n : Nat) : w.applyAll (runWrites d lane xs (n + 1)) =
    (w.applyAll (runWrites d lane xs n)).apply (.v (d + n) lane (xs.getD n 0)) := by
  rw [runWrites, List.range_succ, List.map_append, Wave.applyAll, List.foldl_append]
  rfl

theorem applyRun_at (hlane : lane < 96) (n : Nat) : ∀ i < n, (w.applyAll (runWrites d lane xs n)).vreg (d + i) lane = xs.getD i 0 := by
  induction n with
  | zero => exact fun i hi => absurd hi (Nat.not_lt_zero i)
  | succ n ih =>
    intro i hi
    rw [applyRun_succ]
    by_cases h : i = n
    · rw [h, Wave.apply, Wave.setV, Wave.vreg]
      exact SMap.get_set_same _ _ _ _
    · rw [apply_vreg_other _ _ _ _ _ _ hlane hlane (.inr (by omega))]
      exact ih i (by omega)

theorem applyRun_other (hlane : lane < 96) {m l : Nat} (hl : l < 96) (h : l ≠ lane) (n : Nat) :
    (w.applyAll (runWrites d lane xs n)).vreg m l = w.vreg m l := by
  induction n with
  | zero => rfl
  | succ n ih => rw [applyRun_succ, apply_vreg_other _ _ _ _ _ _ hlane hl (.inl h), ih]

/-- A run to scalar registers leaves the vector registers. -/
theorem applyScalars_vreg (ys : List (Nat × Word)) (w : Wave) (m l : Nat) :
    (w.applyAll (ys.map fun y => .s y.1 y.2)).vreg m l = w.vreg m l :=
  (congrFun (congrFun (congrArg (fun v m l => SMap.get 0 v (96 * m + l)) (foldl_keeps Wave.v Wave.apply _ (fun b a ha => by
    obtain ⟨y, -, rfl⟩ := List.mem_map.1 ha
    rfl) w)) m) l)

end

theorem writeRun_other {w : Wave} {o : Operand} {lane m l : Nat} {xs : List Word} (hlane : lane < 96) (hl : l < 96) (h : l ≠ lane) :
    (w.applyAll (writeRun o lane xs)).vreg m l = w.vreg m l := by
  unfold writeRun
  split
  next n => exact applyRun_other hlane hl h _
  next n =>
    have := applyScalars_vreg ((List.range xs.length).map fun i => (n.toNat + i, xs.getD i 0)) w m l
    rw [List.map_map] at this
    exact this
  next => rfl

theorem markBlocks_vreg (w : Wave) (ws : List RegWrite) (m l : Nat) : (w.markBlocks ws).vreg m l = w.vreg m l := by
  have : (w.markBlocks ws).v = w.v := foldl_keeps Wave.v _ ws (fun b a _ => by cases a <;> rfl) w
  rw [Wave.vreg, this, Wave.vreg]

/-! ## A traversal that has ended (R306, R307) -/

section
variable {s : State} {wk lane : Nat} {w : Wave} {p : Pending} {r : RaySlot}

theorem noteOffsets_nil (s : State) (launch : Option Nat) (dom index : Nat) (waited : Bool) :
    s.noteOffsets launch dom index [] waited = s := by
  rw [State.noteOffsets, List.map_nil, List.eraseDups_nil, List.foldl_nil, State.countLines]
  split
  · rfl
  · exact ite_self _

/-- A ray that has ended reads no node. -/
theorem readNodes_over (hr : r.isOver = true) (waited : Bool) : ∃ n, s.readNodes wk waited r = ({ s with freeCount := n }, [], false) := by
  rw [State.readNodes]
  split
  next => exact ⟨_, rfl⟩
  next g hg =>
    have hvisited : s.visited r g = [] := by rw [State.visited, hr]; rfl
    refine ⟨s.freeCount + ((g.place + g.size + 31) / 32 - g.place / 32), ?_⟩
    simp only [hvisited, noteOffsets_nil]
    rfl

/-- A wave's ray of a lane leaves its slot with its result. -/
def Wave.rayEnded (w : Wave) (p : Pending) (lane : Nat) (ws : List RegWrite) : Wave :=
  let w := (w.markBlocks ws).applyAll ws
  { w with rays := SMap.erase w.rays lane,
           pend := if setLane p.mask lane false = 0 then w.pend.filter fun q => q.id != p.id
                   else w.pend.map fun q => if q.id = p.id then
             { q with mask := setLane p.mask lane false, accs := q.accs.filter fun a => a.lane != lane } else q }

theorem endTraversal_over (hw : s.waves.find? wk = some w) (hp : (w.pend.find? fun p => p.kind == .ray && p.mask.getLsbD lane) = some p)
    (hr : w.rays.find? lane = some r) (hover : r.isOver = true) :
    (s.endTraversal wk lane).waves.find? wk = some (w.rayEnded p lane (writeRun (rayDest p.instr) lane r.result)) := by
  simp only [State.endTraversal, hw, hp, hr, hover, if_true, State.modWave_find, modPins_waves, Option.map_some]
  rfl

theorem setLane_false (m : LaneMask) (lane : Nat) (h : lane < 96) : (setLane m lane false).getLsbD lane = false := by
  have : (BitVec.ofNat 96 (2 ^ lane)).getLsbD lane = true := by
    rw [BitVec.getLsbD_ofNat, Nat.testBit_two_pow_self, Bool.and_true, decide_eq_true_eq]
    exact h
  simp only [setLane, Bool.false_eq_true, if_false, BitVec.getLsbD_and, BitVec.getLsbD_not, this, Bool.not_true, Bool.and_false]

theorem rayEnded_pend {ws : List RegWrite} (h : lane < 96) : ∀ q ∈ (w.rayEnded p lane ws).pend, q.id = p.id → q.mask.getLsbD lane = false := by
  intro q hq hid
  rw [Wave.rayEnded] at hq
  dsimp only at hq
  split at hq
  next =>
    have := (List.mem_filter.1 hq).2
    rw [hid, bne_self_eq_false] at this
    cases this
  next =>
    obtain ⟨x, -, rfl⟩ := List.mem_map.1 hq
    by_cases hx : x.id = p.id
    · rw [if_pos hx]
      exact setLane_false _ _ h
    · rw [if_neg hx] at hid
      exact absurd hid hx

theorem rayEnded_vreg (ws : List RegWrite) (m l : Nat) : (w.rayEnded p lane ws).vreg m l = ((w.markBlocks ws).applyAll ws).vreg m l := rfl

theorem result_length (r : RaySlot) : r.result.length = 6 := by
  rw [RaySlot.result]
  split <;> rfl

theorem traversalEnd (hw : s.waves.find? wk = some w) (hp : (w.pend.find? fun p => p.kind == .ray && p.mask.getLsbD lane) = some p)
    (hr : w.rays.find? lane = some r) (hcore : s.onCore wk = true) (hover : r.isOver = true) :
    ∃ t, exec (.rayTraversalEnd wk lane) s = .next t ∧
      t.waves.find? wk = some (w.rayEnded p lane (writeRun (rayDest p.instr) lane r.result)) := by
  obtain ⟨n, hread⟩ := readNodes_over (s := s) (wk := wk) hover (p.accs.any fun a => a.lane == lane)
  refine ⟨({ s with freeCount := n } : State).endTraversal wk lane, ?_, endTraversal_over hw hp hr hover⟩
  have hexec : exec (.rayTraversalEnd wk lane) s = execRayTraversalEnd wk lane s := rfl
  rw [hexec, execRayTraversalEnd]
  simp only [hcore, hw, hp, hr, hread, Bool.not_true, Bool.false_eq_true, if_false, List.isEmpty_nil, Bool.not_false, Bool.and_self, if_true]

end

/-! ## The builder (R309 to R312) -/

section
variable {s : State} {die : BitVec 2} {o : BuildOp} {rest : List BuildOp}

/-- The oldest operation alone is at the head of a builder whose other operations are of its wave. -/
theorem heads_eq (hb : s.builds = o :: rest) (hdie : o.die = die) (hcore : s.onCore o.wave = true) (hrest : ∀ x ∈ rest, x.die = die → x.wave = o.wave) :
    ((List.range s.builds.length).filter fun n => match s.builds[n]? with
      | some o => o.die == die && s.onCore o.wave && !((s.builds.take n).any fun p => p.wave == o.wave && p.die == die)
      | none => false) = [0] := by
  rw [hb, List.length_cons, List.range_succ_eq_map, List.filter_cons, if_pos (by simp [hdie, hcore]), List.filter_map]
  refine congrArg (0 :: ·) (List.map_eq_nil_iff.2 (List.filter_eq_nil_iff.2 fun n hn => ?_))
  obtain ⟨x, hx⟩ : ∃ x, rest[n]? = some x := ⟨_, List.getElem?_eq_getElem (List.mem_range.1 hn)⟩
  simp only [Function.comp_apply, Nat.succ_eq_add_one, List.getElem?_cons_succ, hx, List.take_succ_cons, List.any_cons, hdie, beq_self_eq_true,
    Bool.and_true]
  by_cases hd : x.die = die
  · simp [hrest x (List.mem_of_getElem? hx) hd]
  · simp [hd]

theorem bumpFree_ctrlFree (t : State) (o : BuildOp) : t.bumpFree.ctrlFree o = t.ctrlFree o := rfl

/-- An operation's control block is that of its BVH, for the core that issued it. -/
theorem setCtrl_congr (t : State) {o o' : BuildOp} (hcore : o.core = o'.core) (hdom : o.dom = o'.dom) (he : o.bvhEntry = o'.bvhEntry)
    (off n x : Nat) : t.setCtrl o off n x = t.setCtrl o' off n x := by
  rw [State.setCtrl, State.builderWrite, hcore, hdom, he, State.setCtrl, State.builderWrite]

theorem armature_starts {s1 : State} {o1 : BuildOp} {need : Nat} (hs1 : s1 = ((s.drainStores (ofSlices o.wave o.slices)).noteBuild o).reclaim o)
    (ho1 : o1 = { o with started := true, geo := (List.range o.count).map (s1.geoRecord o o.boxes) }) (hneed : need = s1.reservation o1)
    (hb : s.builds = o :: rest) (hdie : o.die = die) (hcore : s.onCore o.wave = true) (hidle : ∀ x ∈ s.builds, x.started = false)
    (hrest : ∀ x ∈ rest, x.die = die → x.wave = o.wave) (hneeds : s.buildNeeds o = []) (hread : s.buildUnreadable o = false) :
    exec (.armatureOpStart die) s = .next (if s1.ctrlFree o1 < need then s1.bumpFree.setBuild 0 { o1 with reserved := none }
      else (s1.bumpFree.bumpFree.setBuild 0 { o1 with reserved := some need, place := s1.bumpFree.treePlace o1 need }).setCtrl o1 16 8
        (s1.ctrlFree o1 - need)) := by
  have hexec : exec (.armatureOpStart die) s = execArmatureOpStart die s := rfl
  have hnone : (s.builds.any fun o => o.die == die && o.started) = false := by
    rw [List.any_eq_false]
    intro x hx
    rw [hidle x hx, Bool.and_false]
    exact Bool.false_ne_true
  have hheads := heads_eq hb hdie hcore hrest
  have hzero : s.builds[0]? = some o := by rw [hb]; rfl
  rw [hexec, execArmatureOpStart, hnone, if_neg Bool.false_ne_true]
  erw [hheads]
  simp only [List.length_singleton, le_refl, if_true, List.getElem?_cons_zero, hzero, hread, hneeds, List.isEmpty_nil, Bool.not_true,
    Bool.false_eq_true, if_false, ← hs1]
  subst hneed ho1
  rw [bumpFree_ctrlFree]
  refine (apply_ite Host.Outcome.next _ _ _).symm.trans (congrArg _ (if_congr Iff.rfl rfl ?_))
  exact setCtrl_congr _ rfl rfl rfl 16 8 _

theorem armature_completes (hb : s.builds = o :: rest) (hdie : o.die = die) (hstarted : o.started = true) (hcore : s.onCore o.wave = true)
    (hneeds : s.buildNeeds o = []) (hread : s.buildUnreadable o = false) {t : State}
    (ht : t = ((s.runBuild o).1.setCtrl o 8 4 ((s.runBuild o).1.ctrl o 8 / 256 * 256 + (s.runBuild o).2)).releaseAct o.core o.scope) :
    exec (.armatureOpComplete die) s = .next (({ t with builds := t.builds.eraseIdx 0 } : State).updateBatches o.wave) := by
  have hexec : exec (.armatureOpComplete die) s = execArmatureOpComplete die s := rfl
  have hfirst : (s.builds.findIdx? fun o => o.die == die && o.started) = some 0 := by
    rw [hb, List.findIdx?_cons, hdie, hstarted, beq_self_eq_true]
    rfl
  have hzero : s.builds[0]? = some o := by rw [hb]; rfl
  rw [hexec, execArmatureOpComplete]
  simp only [hfirst, hzero, hcore, hread, hneeds, List.isEmpty_nil, Bool.not_true, Bool.false_eq_true, if_false, ← ht]

end

/-- Settles O49. -/
theorem rayEvents : Obligations.RayEvents := by
  refine ⟨fun s wk lane w p r hw hp hr hcore hover hlane => ?_, fun s die o rest hb hdie hcore hidle hrest hneeds hread =>
    armature_starts rfl rfl rfl hb hdie hcore hidle hrest hneeds hread, fun s die o rest hb hdie hstarted hcore hneeds hread =>
    armature_completes hb hdie hstarted hcore hneeds hread rfl⟩
  obtain ⟨t, ht, htw⟩ := traversalEnd hw hp hr hcore hover
  refine ⟨t, _, ht, htw, SMap.find?_erase_same _ _, fun d hd i hi => ?_, rayEnded_pend hlane, fun n l hl hne => ?_⟩
  · rw [rayEnded_vreg, hd, writeRun, result_length]
    exact applyRun_at hlane 6 i hi
  · rw [rayEnded_vreg, writeRun_other hlane hl hne, markBlocks_vreg]

end Sys2Proof.Machine
end

