-- ==== Sys2Proof/Proofs/RasterEvents.lean ====
section
/-!
The raster units' queues, and the merge of a sample.
-/

namespace Sys2Proof.Machine

/-! ## A unit's input queue (R290, R298) -/

section
variable {s : State} {n k : Nat} {la : Launch} {q : StageQueue} {take : State → List Word → State} {atEnd : State → State}

theorem unitQueue_find (hla : s.launches.find? n = some la) (hq : la.queues.find? k = some q) :
    (s.launches.find? (unitWho n k).launch).bind (fun la => la.queues.find? k) = some q := by
  rw [show (unitWho n k).launch = n from rfl, hla, Option.bind_some, hq]

theorem unitPop_eq (hla : s.launches.find? n = some la) (hq : la.queues.find? k = some q) : s.unitPop n k take atEnd =
    match s.popRecord (unitWho n k) k (fun s r => .done (take s r) []) (.done (atEnd s) []) with
    | .wait s => s
    | .late s c => s.unitFails n c
    | .done t _ => t := by
  rw [State.unitPop, show (s.launches.find? n).bind (fun la => la.queues.find? k) = some q from unitQueue_find hla hq] <;> rfl

theorem unitPop_ring (hla : s.launches.find? n = some la) (hq : la.queues.find? k = some q) {r : List Word} {rest : List QRec}
    (h : q.recs = .ring r :: rest) : s.unitPop n k take atEnd = take (s.modQueue n k fun q => { q with recs := rest }) r := by
  rw [unitPop_eq hla hq]
  simp only [State.popRecord, unitQueue_find hla hq, h]
  rfl

theorem unitPop_spill (hla : s.launches.find? n = some la) (hq : la.queues.find? k = some q) {place p : Nat} {nib : Nat} {rest : List QRec}
    {t : State} (h : q.recs = .spill place :: rest) (hp : s.reaches (s.spillAcc (unitWho n k) q place) false = .place p nib)
    (ht : t = s.noteUse (unitWho n k) (s.spillAcc (unitWho n k) q place) false) (h1 : t.portPoisoned (k % 4) p = false)
    (h2 : t.portPoisoned (k % 4) (p + 32) = false) :
    s.unitPop n k take atEnd = take (t.modQueue n k fun q => { q with recs := rest }) (recordWords (t.portBytes (k % 4) p 64)) := by
  rw [unitPop_eq hla hq]
  simp only [State.popRecord, unitQueue_find hla hq, h, State.reach, hp, ← ht, h1, h2, Bool.or_self, Bool.false_eq_true, if_false]
  rfl

theorem unitPop_end (hla : s.launches.find? n = some la) (hq : la.queues.find? k = some q) (h : q.recs = []) (hc : q.closed = true) :
    s.unitPop n k take atEnd = atEnd s := by
  rw [unitPop_eq hla hq]
  simp only [State.popRecord, unitQueue_find hla hq, h, hc, if_true]

end

section
variable {s : State} {n : Nat} {b : BitVec 1} {la : Launch} {x : RasterBinding}

theorem raster_find (hla : s.launches.find? n = some la) (hx : la.rasters.find? b.toNat = some x) :
    ((s.launches.find? n).bind fun la => (la.rasters.find? b.toNat).map fun x => (la, x)) = some (la, x) := by
  rw [hla, Option.bind_some, hx, Option.map_some]

theorem triangle_backlog (hla : s.launches.find? n = some la) (hx : la.rasters.find? b.toNat = some x) (hend : la.ended = false)
    (h : x.backlog ≠ []) : exec (.rasterTriangle n b) s = .next (State.emit n b.toNat x.ko x.backlog s) := by
  have hexec : exec (.rasterTriangle n b) s = execRasterTriangle n b s := rfl
  have hback : x.backlog.isEmpty = false := by rw [Bool.eq_false_iff, ne_eq, List.isEmpty_iff]; exact h
  rw [hexec, execRasterTriangle, raster_find hla hx]
  simp only [hend, hback, Bool.false_eq_true, if_false, Bool.not_false, if_true]

theorem triangle_pops (hla : s.launches.find? n = some la) (hx : la.rasters.find? b.toNat = some x) (hend : la.ended = false)
    (h : x.backlog = []) : exec (.rasterTriangle n b) s = .next (s.unitPop n x.ki
      (fun s r => State.emit n b.toNat x.ko (((readTriangle r).map fun t => t.quads x).getD []) s)
      (fun s => s.modQueue n x.ko fun q => { q with closed := true })) := by
  have hexec : exec (.rasterTriangle n b) s = execRasterTriangle n b s := rfl
  rw [hexec, execRasterTriangle, raster_find hla hx]
  simp only [hend, h, List.isEmpty_nil, Bool.not_true, Bool.false_eq_true, if_false]

theorem merge_pops (hla : s.launches.find? n = some la) (hx : la.rasters.find? b.toNat = some x) (hend : la.ended = false)
    (h : x.ready = none) : exec (.rasterMerge n b) s = .next (s.unitPop n x.km
      (fun s r => s.modRaster n b.toNat fun x => { x with held := x.held ++ [r] })
      (fun s => s.modRaster n b.toNat RasterBinding.closeTokens)) := by
  have hexec : exec (.rasterMerge n b) s = execRasterMerge n b s := rfl
  rw [hexec, execRasterMerge, raster_find hla hx]
  simp only [hend, h, Bool.false_eq_true, if_false]

theorem merge_applies (hla : s.launches.find? n = some la) (hx : la.rasters.find? b.toNat = some x) (hend : la.ended = false) {k : Nat}
    (h : x.ready = some k) {token : Nat} (htoken : token = ((x.held.getD k []).getD 1 0).toNat % 2 ^ 31) (hopen : ∃ t ∈ x.open_, t.1 = token)
    {t : State} (hm : s.mergeRecord la x (x.held.getD k []) = .ok t) : exec (.rasterMerge n b) s = .next ((t.modRaster n b.toNat fun y =>
      { y with held := y.held.eraseIdx k, open_ := y.open_.filter fun t => t.1 != token }).checkLaunchEnd n) := by
  have hexec : exec (.rasterMerge n b) s = execRasterMerge n b s := rfl
  have hany : (x.open_.any fun t => t.1 == token) = true := by
    obtain ⟨y, hy, hyt⟩ := hopen
    exact List.any_eq_true.2 ⟨y, hy, beq_iff_eq.2 hyt⟩
  rw [hexec, execRasterMerge, raster_find hla hx]
  simp only [hend, h, Bool.false_eq_true, if_false, ← htoken, hany, Bool.not_true, hm]

end

theorem rasterUnits : Rules.RasterUnits := by
  intro s n b la x hla hx hend token merged taken
  refine ⟨triangle_backlog hla hx hend, fun q hback hq => ⟨⟨_, triangle_pops hla hx hend hback, fun rest => ⟨fun r h => unitPop_ring hla hq h, ?_⟩⟩,
      fun h hc => (triangle_pops hla hx hend hback).trans (congrArg _ (unitPop_end hla hq h hc))⟩,
    fun q hready hq => ⟨⟨_, merge_pops hla hx hend hready, fun rest => ⟨fun r h => unitPop_ring hla hq h, ?_⟩⟩,
      fun h hc => (merge_pops hla hx hend hready).trans (congrArg _ (unitPop_end hla hq h hc))⟩,
    fun k hready hopen t hm => merge_applies hla hx hend hready rfl hopen hm⟩
  · intro place p nib h hp t h1 h2
    exact unitPop_spill hla hq h hp rfl h1 h2
  · intro place p nib h hp t h1 h2
    exact unitPop_spill hla hq h hp rfl h1 h2

/-! ## A sample (R299) -/

theorem channelBytes_eq (fmt : Nat) (v : FVal) : channelBytes fmt v = if fmt = 3 then
      (if v = .nan then [0] else bytesOfNat 1 (scaledRound (FVal.min (FVal.max v rZero) rOne) 255 0).toNat)
    else bytesOfNat 2 (binary16.ofVal false .rne v).code := by
  unfold channelBytes
  refine if_congr Iff.rfl ?_ rfl
  cases v with
  | nan => rfl
  | inf _ => rw [if_neg (by simp)]
  | fin _ _ _ => rw [if_neg (by simp)]

section
variable {s : State} {la : Launch} {b : RasterBinding} {elem : Nat} {src : Nat → FVal} {z : Word} {az ac : Nat}

/-- The depth test of a sample whose stored depth can be had. -/
def samplePass (s : State) (b : RasterBinding) (z : Word) (az : Nat) : Bool :=
  b.depth == 0 || depthPass b.compare (binary32.decode z.toNat) (binary32.decode (natOfBytes (s.portBytes (b.ki % 4) az 4)))

/-- A sample's colour as it is written. -/
def sampleColour (t : State) (b : RasterBinding) (src : Nat → FVal) (ac : Nat) : List Byte :=
  (List.range 4).flatMap fun c => channelBytes b.fmt
    (blended b.blend src (storedChannel b.fmt (t.portBytes (b.ki % 4) ac (if b.fmt = 3 then 4 else 8))) c)

theorem mergeSample_eq (hdepth : b.depth ≠ 0 → s.targetPlace la b.depth needR elem 4 = .at_ az ∧
      (b.depthWrite = true → s.targetPlace la b.depth needW elem 4 = .at_ az))
    (hcolour : s.targetPlace la b.colour (if b.blend then needRW else needW) elem (if b.fmt = 3 then 4 else 8) = .at_ ac) {t : State}
    (ht : t = if b.depth ≠ 0 ∧ b.depthWrite = true then s.bumpFree.dieWrite (b.ki % 4) az (bytesOfNat 4 z.toNat) else s.bumpFree) :
    s.mergeSample la b elem src z = .ok (if samplePass s b z az then t.dieWrite (b.ki % 4) ac (sampleColour t b src ac) else s.bumpFree) := by
  rw [State.mergeSample]
  by_cases h0 : b.depth = 0
  · have ht' : t = s.bumpFree := by rw [ht, if_neg (fun h => h.1 h0)]
    simp only [h0, true_or, if_true, hcolour, List.findSome?_cons, List.findSome?_nil, Bool.not_true, Bool.false_eq_true, if_false,
      State.mergeWrite, samplePass, beq_self_eq_true, Bool.true_or, ← ht']
    rfl
  obtain ⟨hread, hwrite⟩ := hdepth h0
  have hpass : (if b.depth = 0 ∨ b.compare = 0 then true
      else depthPass b.compare (binary32.decode z.toNat) (binary32.decode (natOfBytes (s.portBytes (b.ki % 4) az 4)))) = samplePass s b z az := by
    rw [samplePass, beq_eq_false_iff_ne.2 h0, Bool.false_or]
    by_cases hc : b.compare = 0
    · rw [if_pos (.inr hc), hc]
      rfl
    · rw [if_neg (not_or.2 ⟨h0, hc⟩)]
  cases hw : b.depthWrite with
  | true =>
    have ht' : s.bumpFree.dieWrite (b.ki % 4) az (bytesOfNat 4 z.toNat) = t := by rw [ht, if_pos ⟨h0, hw⟩]
    simp only [h0, false_or, Bool.not_true, Bool.false_eq_true, if_false, hread, hwrite hw, hcolour, List.findSome?_cons,
      List.findSome?_nil, State.mergeWrite, ht']
    simp only [h0, false_or] at hpass
    rw [hpass]
    cases samplePass s b z az <;> rfl
  | false =>
    have ht' : s.bumpFree = t := by rw [ht, if_neg (by simp [hw])]
    simp only [h0, false_or, Bool.not_false, if_true, if_false, hread, hcolour, List.findSome?_cons,
      List.findSome?_nil, State.mergeWrite]
    simp only [h0, false_or] at hpass
    rw [hpass, ht']
    cases samplePass s b z az <;> rfl

end

theorem sampleMerge : Rules.SampleMerge := by
  intro s la b elem src z az ac die size hdepth hcolour zt zv pass t old stored out channel
  have hmerge := mergeSample_eq (src := src) (z := z) (t := t) hdepth hcolour rfl
  have hchannels : ((List.range 4).flatMap channel) = sampleColour t b src ac :=
    congrArg (List.flatMap · _) (funext fun c => (channelBytes_eq b.fmt (out c)).symm)
  have hpass : pass = samplePass s b z az := rfl
  rw [hmerge]
  refine ⟨fun h => ?_, fun h => ?_⟩
  · rw [hpass] at h
    rw [h]
    rfl
  · rw [hpass] at h
    rw [h, hchannels]
    rfl

/-- Settles O50. -/
theorem rasterEvents : Obligations.RasterEvents := ⟨rasterUnits, sampleMerge⟩

end Sys2Proof.Machine
end

