-- ==== Sys2Proof/Proofs/ResidencyEvents.lean ====
section
/-!
The migration engine's moves and arrivals, the Chisel engine's tiles, and the ends of their waits.
-/

namespace Sys2Proof.Machine

/-! ## Granules (R191, R457, R468) -/

section
variable {s : State} {die : BitVec 2} {i : Nat} {r : GranReq}

theorem migrationMove_fails (hs : s.halted = false)
    (hi : ((SMap.get [] s.requests die.toNat).findIdx? fun r => r.moving.isNone) = some i)
    (hr : (SMap.get [] s.requests die.toNat)[i]? = some r) (hf : s.failsAtOnce r.entry (s.needWord r.entry r.granule) = true) :
    exec (.migrationMove die) s = .next (s.failRequest die.toNat r .residency) := by
  have hexec : exec (.migrationMove die) s = execMigrationMove die s := rfl
  rw [hexec, execMigrationMove]
  simp only [hs, hi, hr, hf, Bool.false_eq_true, if_false, if_true]

theorem migrationMove_goes_on (hs : s.halted = false)
    (hi : ((SMap.get [] s.requests die.toNat).findIdx? fun r => r.moving.isNone) = some i)
    (hr : (SMap.get [] s.requests die.toNat)[i]? = some r) (hf : s.failsAtOnce r.entry (s.needWord r.entry r.granule) = false)
    (hres : granResident r.entry (s.needWord r.entry r.granule) = false) (hpin : r.entry.pinned = false)
    (hmov : granMoving (s.needWord r.entry r.granule) = false) :
    exec (.migrationMove die) s =
      if s.copyFails r then .next (s.failRequest die.toNat r .translation)
      else match s.getFrame die.toNat with
        | none => .next s
        | some (frame, t) => .next (t.startMove die.toNat i r frame) := by
  have hexec : exec (.migrationMove die) s = execMigrationMove die s := rfl
  rw [hexec, execMigrationMove]
  simp only [hs, hi, hr, hf, hres, hpin, hmov, Bool.or_self, Bool.false_eq_true, if_false] <;> rfl

theorem granuleArrival_next {frame : Nat} (hr : (SMap.get [] s.requests die.toNat)[i]? = some r) (hs : s.halted = false)
    (hm : r.moving = some frame) {w : DWord} (hw : w = s.needWord r.entry r.granule) {s1 s2 s3 : State}
    (h1 : s1 = if granTier w = 3 then s.clearRange (frame * 65536) 65536
      else s.copyGranule (s.frameAddr r.dom.toNat w) (frame * 65536))
    (h2 : s2 = (s1.setNeed r.entry r.granule (mkGranule 0 true false frame)).returnGranule r.dom.toNat w)
    (h3 : s3 = { s2 with
      requests := SMap.set [] s2.requests die.toNat ((SMap.get [] s.requests die.toNat).eraseIdx i) }) :
    exec (.granuleArrival die i) s =
      .next (((s3.touch r.dom.toNat r.index r.granule).noteFetched r.dom.toNat r.index r.granule).retryWaiters) := by
  have hexec : exec (.granuleArrival die i) s = execGranuleArrival die i s := rfl
  subst hw h1 h2 h3
  rw [hexec, execGranuleArrival]
  simp only [hr, hs, hm, Bool.false_eq_true, if_false]

theorem residencyTimeout_fails (hr : (SMap.get [] s.requests die.toNat)[i]? = some r) (hm : r.moving = none)
    (hlim : (s.reg 0x0920).toNat % 2 ^ 32 ≠ 0) (hf : s.getFrame die.toNat = none) :
    exec (.residencyTimeout die i) s = .next (s.failRequest die.toNat r .residency) := by
  have hexec : exec (.residencyTimeout die i) s = execResidencyTimeout die i s := rfl
  have hfield : fieldOf (s.reg 0x0920) 0 32 ≠ 0 := by rwa [fieldOf_eq, Nat.pow_zero, Nat.div_one]
  rw [hexec, execResidencyTimeout]
  simp only [hr, hm, hf, hfield, Option.isSome_none, Bool.false_eq_true, or_self, if_false]

end

/-! ## Conversions (R197, R198, R458) -/

section
variable {s s1 : State} {n tile : Nat} {c : Conv}

theorem conversionTile_next (hs : s.halted = false) (hc : s.convs[n]? = some c) {t : Tensor} (ht : t = s.tensorAt c.desc) {e : ObjEntry}
    (he : e = { s.tableEntry c.dom.toNat c.index with w1 := BitVec.ofNat 64 c.extroot, w2 := BitVec.ofNat 64 c.desc })
    (htile : tile < t.tiles) (hdone : s.tileDone t tile = false)
    (hdam : s.tensorDamaged { e with w0 := 0x1000000000000000#64 } = false) (hneeds : s.tileNeeds c e t tile = [])
    (hg : s.targetGranule c e (4096 * tile / 65536) = some s1) {s2 s3 s4 s5 s6 : State} {base : Nat}
    (h2 : s2 = s1.drainStores fun p => decide (p.acc.dom = c.dom ∧ refIndex p.acc.ref = c.index))
    (hbase : base = s2.addrOf c.dom.toNat e (4096 * tile))
    (h3 : s3 = (s2.tileBytes c t tile).foldl (fun s b => s.setByte (base + b.1) b.2) (s2.clearRange base 4096))
    (h4 : s4 = (s2.tilePoison c t tile).foldl (fun s i => s.addPoison (base + i) 1) s3)
    (h5 : s5 = s4.setByte (t.bitmap + tile / 8) (s4.byte (t.bitmap + tile / 8) ||| BitVec.ofNat 8 (2 ^ (tile % 8))))
    (h6 : s6 = { s5 with convs := s5.convs.set n { c with dead := false } }) :
    exec (.conversionTile n tile) s = .next (if (List.range t.tiles).all fun k => s6.tileDone t k
      then (s6.endConversion n c).retryWaiters else s6.retryWaiters) := by
  have hexec : exec (.conversionTile n tile) s = execConversionTile n tile s := rfl
  have hguard : ¬(t.tiles ≤ tile ∨ s.tileDone t tile = true ∨ s.tensorDamaged { e with w0 := 0x1000000000000000#64 } = true) := by
    simp only [hdone, hdam, Nat.not_le.mpr htile, Bool.false_eq_true, or_self, not_false_eq_true]
  have hready : ¬(!(s.tileNeeds c e t tile).isEmpty) = true := by simp only [hneeds, List.isEmpty_nil, Bool.not_true, Bool.false_eq_true, not_false_eq_true]
  rw [hexec, execConversionTile, if_neg (by rw [hs]; exact Bool.false_ne_true), hc]
  subst he
  dsimp only
  rw [← ht, if_neg hguard, if_neg hready, hg]
  dsimp only
  rw [← h2, ← hbase, ← h3, ← h4, ← h5, ← h6, apply_ite State.retryWaiters]

/-- The engine operations that wait for a conversion, as R458 lists them. -/
theorem conversionWaiters_eq (t : State) (desc : Nat) : t.conversionWaiters desc =
    (((t.copies.filter fun x => ((x.srcScratch.isNone && (x.srcEntry.kind == 1 && x.srcEntry.tdesc == desc) &&
          !(!x.coords.isEmpty && x.srcEntry.kind == 1)) ||
        (x.dstScratch.isNone && (x.dstEntry.kind == 1 && x.dstEntry.tdesc == desc) &&
          !(!x.coords.isEmpty && x.dstEntry.kind == 1))) && t.onCore x.wave).map fun x => (x.wave, x.pc)) ++
      ((t.colls.filter fun x => (x.descEntry.kind == 1 && x.descEntry.tdesc == desc) ||
        (x.srcEntry.map fun e => e.kind == 1 && e.tdesc == desc).getD false ||
          (x.dstEntry.kind == 1 && x.dstEntry.tdesc == desc)).map fun x => (x.wave, x.pc))).eraseDups := by
  have hentries (p : ObjEntry → Bool) (x : Coll) :
      x.entries.any p = (p x.descEntry || (x.srcEntry.map p).getD false || p x.dstEntry) := by
    rw [Coll.entries]
    cases x.srcEntry <;> simp [Bool.or_assoc]
  rw [State.conversionWaiters]
  simp only [hentries]
  rfl

theorem conversionWaitTimeout_next (hc : s.convs[n]? = some c) (hlim : (s.reg 0x0920).toNat % 2 ^ 32 ≠ 0) {t : State}
    (ht : t = { s with convs := s.convs.set n { c with dead := true } }) :
    exec (.conversionWaitTimeout n) s = .next (t.replayParked.failEngines .residency (t.conversionWaiters c.desc)) := by
  have hexec : exec (.conversionWaitTimeout n) s = execConversionWaitTimeout n s := rfl
  have hfield : fieldOf (s.reg 0x0920) 0 32 ≠ 0 := by rwa [fieldOf_eq, Nat.pow_zero, Nat.div_one]
  subst ht
  rw [hexec, execConversionWaitTimeout]
  simp only [hc, hfield, if_false]

end

/-- Settles O51, by the rule of each event. -/
theorem residencyEvents : Obligations.ResidencyEvents := by
  unfold Obligations.ResidencyEvents
  refine ⟨fun s die i r => ?_, fun s die n frame r => ?_, fun s s1 n tile c => ?_, fun s die n r => residencyTimeout_fails,
    fun s n c => ?_⟩
  · intro q hs hi hr w
    refine ⟨migrationMove_fails hs hi hr, fun hf hres hpin hmov => ⟨fun hc => ?_, fun frame t hc hg => ?_⟩⟩
    · rw [migrationMove_goes_on hs hi hr hf hres hpin hmov, if_pos hc]
    · rw [migrationMove_goes_on hs hi hr hf hres hpin hmov, if_neg (by rw [hc]; exact Bool.false_ne_true), hg]
      rfl
  · intro hr hs hm
    exact granuleArrival_next hr hs hm rfl rfl rfl rfl
  · intro hs hc t e htile hdone hdam hneeds hg
    exact conversionTile_next hs hc rfl rfl htile hdone hdam hneeds hg rfl rfl rfl rfl rfl rfl
  · intro hc hlim t mine bytes waits
    rw [conversionWaitTimeout_next hc hlim rfl, conversionWaiters_eq]

end Sys2Proof.Machine
end

