-- ==== Sys2Proof/Proofs/HostEvents.lean ====
section
/-!
Accesses of the host, translations that end, expanders that are lost, and scrubbing.
-/

namespace Sys2Proof.Machine

/-! ## Host accesses (R379) -/

theorem hostMemAccess_read {s : State} {a n : Nat} (ha : a + n ≤ 0x9000000000) (hr : s.recovery = false) (hs : s.halted = false) :
    exec (.hostMemAccess a (.read n)) s = .next { s with
      outbox := s.outbox ++ [.hostData ((List.range n).map fun i => (s.byte (a + i), s.poisoned (a + i)))] } := by
  have hexec : exec (.hostMemAccess a (.read n)) s = execHostMemAccess a (.read n) s := rfl
  rw [hexec, execHostMemAccess]
  simp only [Nat.not_lt.mpr ha, hr, hs, Bool.false_eq_true, or_self, if_false]

theorem hostMemAccess_write {s : State} {a : Nat} {bs : List Byte} (ha : a + bs.length ≤ 0x9000000000) (hr : s.recovery = false)
    (hs : s.halted = false) : exec (.hostMemAccess a (.write bs)) s = .next (s.homeWrite a bs) := by
  have hexec : exec (.hostMemAccess a (.write bs)) s = execHostMemAccess a (.write bs) s := rfl
  rw [hexec, execHostMemAccess]
  simp only [Nat.not_lt.mpr ha, hr, hs, Bool.false_eq_true, or_self, if_false]

/-- A write at its home changes the caches as well as the bytes, and nothing else. -/
theorem State.homeWrite_recached (s : State) (a : Nat) (bs : List Byte) : (s.setBytes a bs).Recached (s.homeWrite a bs) :=
  (State.homeWritten_recached _ _ _ _).trans ⟨_, _, _, _, _, rfl⟩

theorem State.setBytes_byte_within (s : State) (a : Nat) (bs : List Byte) {j : Nat} (hj : j < bs.length) :
    (s.setBytes a bs).byte (a + j) = bs.getD j 0 := by
  rw [State.setBytes_byte, if_pos ⟨Nat.le_add_right _ _, Nat.add_lt_add_left hj a⟩, Nat.add_sub_cancel_left]

theorem State.dropLines_memoryOnly (s : State) (a n : Nat) : s.MemoryOnly (s.dropLines a n) :=
  .trans (.of_recached ⟨_, _, _, _, _, rfl⟩) (.trans
    (foldl_related _ MemoryOnly.refl (fun _ _ _ => MemoryOnly.trans) _ (fun t d _ => t.dropRemote_memoryOnly d _) _)
    (.of_recached ⟨_, _, _, _, _, rfl⟩))

theorem hostCacheSnoop_writes (s : State) (pasid : BitVec 20) {iova : Nat} {bs : List Byte} (h : iova + bs.length < hostBase) :
    ∃ t, exec (.hostCacheSnoop pasid iova bs) s = .next t ∧
      (∀ j < bs.length, t.byte (hostBase * (1 + pasid.toNat) + iova + j) = bs.getD j 0) ∧ t.waves = s.waves := by
  have hexec : exec (.hostCacheSnoop pasid iova bs) s = execHostCacheSnoop pasid iova bs s := rfl
  rw [hexec, execHostCacheSnoop, if_neg (Nat.not_le.mpr h)]
  refine ⟨_, rfl, fun j hj => State.setBytes_byte_within _ _ bs hj, ?_⟩
  exact (State.setBytes_waves _ _ bs).trans (s.dropLines_memoryOnly _ _).waves

/-! ## Expander links and scrubbing (R460, R465, R466) -/

theorem expanderLinkLoss_quiet (s : State) (d : BitVec 2) (h : s.requests = []) :
    exec (.expanderLinkLoss d) s = .next (((s.countError d.toNat 3 (s.dirtySecond d.toNat).length).setReg (0x0040 + 8 * d.toNat) 0).keepL2
      fun b => expanderOf (512 * b) != some d.toNat) := by
  have hexec : exec (.expanderLinkLoss d) s = execExpanderLinkLoss d s := rfl
  rw [hexec, execExpanderLinkLoss]
  simp only [show ∀ (t : State) p, (t.keepL2 p).requests = t.requests from fun _ _ => rfl,
    show ∀ (t : State) o x, (t.setReg o x).requests = t.requests from fun _ _ _ => rfl,
    show ∀ (t : State) die k n, (t.countError die k n).requests = t.requests from fun _ _ _ _ => rfl, h]
  rfl

theorem State.setReg_reg (s : State) (off : Nat) (x : DWord) : (s.setReg off x).reg off = x := by
  rw [State.reg, State.setReg, SMap.find?_insert_same, Option.getD_some]

theorem State.mem_keepL2 {s : State} {p : Nat → Bool} {x : Nat × List L2Tag} (hx : x ∈ (s.keepL2 p).l2) {y : L2Tag} (hy : y ∈ x.2) :
    p y.block = true := by
  obtain ⟨z, -, rfl⟩ := List.mem_map.mp hx
  exact (List.mem_filter.mp hy).2

theorem scrubPass_poisons (s : State) (d : BitVec 2) (bad : List Nat) : exec (.scrubPass d [] ⟨bad, []⟩) s =
    .next ((bad.filter fun a => decide (a < 0x9000000000) && homeDie a == d.toNat).foldl (fun s a => s.poisonSector (a / 32)) s) := rfl

/-- Settles O52, by the rule of each event. -/
theorem hostEvents : Obligations.HostEvents := by
  unfold Obligations.HostEvents
  refine ⟨fun s a n => hostMemAccess_read, fun s a bs ha hr hs => ?_, fun s pasid iova bs => hostCacheSnoop_writes s pasid,
    fun s pasid g => rfl, fun s d h => ?_, fun s d bad => scrubPass_poisons s d bad⟩
  · have hre := s.homeWrite_recached a bs
    refine ⟨_, hostMemAccess_write ha hr hs, fun j hj => ?_, fun b hb => ?_, ?_, ?_⟩
    · rw [hre.byte, State.setBytes_byte_within s a bs hj]
    · rw [hre.byte, State.setBytes_byte_outside hb]
    · rw [hre.waves, State.setBytes_waves]
    · rw [hre.bar0, State.setBytes_bar0]
  · refine ⟨_, expanderLinkLoss_quiet s d h, State.setReg_reg _ _ 0, fun x hx y hy => ?_, rfl, rfl⟩
    exact bne_iff_ne.mp (State.mem_keepL2 hx hy)

end Sys2Proof.Machine
end

