-- ==== Sys2Proof/Proofs/QueueEvents.lean ====
section
/-!
Sluice's queues: doorbells, restarts, and the packets that are taken from them.
-/

namespace Sys2Proof.Machine

/-! ## Doorbells and restarts (R346, R378, R494) -/

theorem queueBell_page (die : BitVec 2) (q : BitVec 11) :
    queueBell (BitVec.ofNat 26 (0x800000 * die.toNat + 0x1000 * q.toNat)).toNat = some (die.toNat, q.toNat) := by
  have hd := die.isLt
  have hq := q.isLt
  rw [BitVec.toNat_ofNat, Nat.mod_eq_of_lt (by omega), queueBell, if_pos (by omega)]
  exact congrArg some (Prod.ext (by dsimp only; omega) (by dsimp only; omega))

theorem queueDoorbell_page (s : State) (die : BitVec 2) (q : BitVec 11) (bytes : Nat) (wptr : DWord) :
    exec (.queueDoorbell (BitVec.ofNat 26 (0x800000 * die.toNat + 0x1000 * q.toNat)) bytes wptr) s =
      .next (if bytes = 8 then s.modSluice die.toNat q.toNat fun x => { x with wptr := wptr } else s) := by
  have hexec (off : BitVec 26) : exec (.queueDoorbell off bytes wptr) s = execQueueDoorbell off bytes wptr s := rfl
  rw [hexec, execQueueDoorbell, queueBell_page]

theorem queueDoorbell_other (s : State) (off : BitVec 26) (bytes : Nat) (wptr : DWord)
    (h : off.toNat % 4096 ≠ 0 ∨ 0x2000000 ≤ off.toNat) : exec (.queueDoorbell off bytes wptr) s = .next s := by
  have hexec : exec (.queueDoorbell off bytes wptr) s = execQueueDoorbell off bytes wptr s := rfl
  rw [hexec, execQueueDoorbell, queueBell, if_neg (by omega)]

/-! ## A packet that stands whole at RPTR (R346 to R349) -/

section
variable {s t : State} {k n type code tag : Nat} {d : QueueDesc} {p : Packet} {act : QueueDesc → Packet → State → Verdict}

/-- A head that is not one to reject whatever its type is of the type that its first word gives. -/
theorem headType_eq (h : s.queueOf k n = some d) (ht : s.headType k n = some type) (h0 : type ≠ 0) :
    natOfBytes ((d.ring (s.queueState k n).rptr 8).map s.byte) % 2 ^ 12 = type := by
  rw [State.headType, h] at ht
  simp only [Option.ite_none_left_eq_some] at ht
  grind

theorem readFields_head {seq len : Nat} {bytes : List Byte} (h : readFields type seq len bytes = (p, none)) : p.seq = seq ∧ p.len = len := by
  have hp : p = _ := (congrArg Prod.fst h).symm
  exact ⟨congrArg Packet.seq hp, congrArg Packet.len hp⟩

theorem takePacket_head (h : s.heads k n type d p) (h0 : type ≠ 0) : s.takePacket k n type act =
    match act d p s with
    | .reject code tag => s.refused k n type d p code tag
    | .blocked t => t
    | .taken t => s.took t k n d p := by
  obtain ⟨hq, ht, hpriv, hp⟩ := h
  have htype := headType_eq hq ht h0
  have hmay : (!d.priv && decide (type = 1 ∨ type = 2)) = false := by
    rw [Bool.and_eq_false_iff, decide_eq_false_iff_not, Bool.not_eq_false']
    exact hpriv.imp_right (by omega)
  obtain ⟨hseq, hlen⟩ := readFields_head hp
  rw [State.takePacket, hq]
  simp only [ht, h0, hmay, hp, if_false, ne_eq, not_true_eq_false, Bool.false_eq_true]
  cases act d p s with
  | reject code tag =>
    dsimp only
    rw [State.refused, hlen, hseq, htype]
  | blocked t => rfl
  | taken t =>
    dsimp only
    rw [State.took, hlen]

theorem takePacket_rejects (h : s.heads k n type d p) (h0 : type ≠ 0) (ha : act d p s = .reject code tag) :
    s.takePacket k n type act = s.refused k n type d p code tag := by rw [takePacket_head h h0, ha]

theorem takePacket_blocks (h : s.heads k n type d p) (h0 : type ≠ 0) (ha : act d p s = .blocked t) :
    s.takePacket k n type act = t := by rw [takePacket_head h h0, ha]

theorem takePacket_takes (h : s.heads k n type d p) (h0 : type ≠ 0) (ha : act d p s = .taken t) :
    s.takePacket k n type act = s.took t k n d p := by rw [takePacket_head h h0, ha]

end

/-! ## The packets (R350 to R352) -/

section
variable {s : State} {die : BitVec 2} {q : BitVec 11} {d : QueueDesc} {p : Packet}

theorem nopPacket_taken (h : s.heads die.toNat q.toNat 6 d p) :
    exec (.nopPacket die q) s = .next (s.took s die.toNat q.toNat d p) :=
  congrArg Host.Outcome.next (takePacket_takes h (by decide) rfl)

/-! ### SIGNAL and WAIT -/

theorem signal_rejected {code tag : Nat} (h : s.heads die.toNat q.toNat 3 d p)
    (hbad : (1 < p.num 0x42 0 4 ∧ code = 7 ∧ tag = 0x42) ∨ (p.num 0x42 0 4 ≤ 1 ∧ code = 9 ∧
      (s.goodSignal d.dom (p.word 0x40 0) true = false ∧ tag = 0x40 ∨
        s.goodSignal d.dom (p.word 0x40 0) true = true ∧ s.goodComplete d p = false ∧ tag = 0x01))) :
    exec (.signal die q) s = .next (s.refused die.toNat q.toNat 3 d p code tag) := by
  refine congrArg Host.Outcome.next (takePacket_rejects h (by decide) ?_)
  obtain ⟨hm, rfl, rfl⟩ | ⟨hm, rfl, ⟨hs, rfl⟩ | ⟨hs, hc, rfl⟩⟩ := hbad
  · simp only [hm, if_true]
  · simp only [Nat.not_lt.mpr hm, hs, Bool.not_false, if_true, if_false]
  · simp only [Nat.not_lt.mpr hm, hs, hc, Bool.not_false, Bool.not_true, Bool.false_eq_true, if_true, if_false]

theorem signal_taken (h : s.heads die.toNat q.toNat 3 d p) (hm : p.num 0x42 0 4 ≤ 1)
    (hs : s.goodSignal d.dom (p.word 0x40 0) true = true) (hc : s.goodComplete d p = true) :
    exec (.signal die q) s = .next (s.took
      (s.putSignal ⟨p.word 0x40 0, p.word 0x41 0, p.num 0x42 0 4 == 1, p.completion, d.asker die.toNat q.toNat⟩)
      die.toNat q.toNat d p) := by
  refine congrArg Host.Outcome.next (takePacket_takes h (by decide) ?_)
  simp only [Nat.not_lt.mpr hm, hs, hc, Bool.not_true, Bool.false_eq_true, if_false]

theorem waitHolds_iff {cond : Nat} (hc : cond ≤ 2) (x v : DWord) : waitHolds cond x v = true ↔
    (cond = 0 → v.toNat ≤ x.toNat) ∧ (cond = 1 → x = v) ∧ (cond = 2 → x ≠ v) := by
  rw [waitHolds]
  interval_cases cond <;> simp

theorem wait_rejected {code tag : Nat} (h : s.heads die.toNat q.toNat 4 d p)
    (hbad : (2 < p.num 0x43 0 4 ∧ code = 7 ∧ tag = 0x43) ∨
      (p.num 0x43 0 4 ≤ 2 ∧ s.goodSignal d.dom (p.word 0x40 0) false = false ∧ code = 9 ∧ tag = 0x40)) :
    exec (.wait die q) s = .next (s.refused die.toNat q.toNat 4 d p code tag) := by
  refine congrArg Host.Outcome.next (takePacket_rejects h (by decide) ?_)
  obtain ⟨hm, rfl, rfl⟩ | ⟨hm, hs, rfl, rfl⟩ := hbad
  · simp only [hm, if_true]
  · simp only [Nat.not_lt.mpr hm, hs, Bool.not_false, if_true, if_false]

theorem wait_reads {a : Nat} (h : s.heads die.toNat q.toNat 4 d p) (hm : p.num 0x43 0 4 ≤ 2)
    (hs : s.goodSignal d.dom (p.word 0x40 0) false = true)
    (ha : s.signalPlace (d.asker die.toNat q.toNat) (p.word 0x40 0) false = some a) {t : State}
    (ht : t = s.touchRange d.dom (refIndex (p.word 0x40 0)) (refOffset (p.word 0x40 0)) 8) {holds : Prop}
    (hholds : holds ↔ waitHolds (p.num 0x43 0 4) (t.word64 a) (p.word 0x41 0) = true) :
    (holds → exec (.wait die q) s =
      .next (s.took (t.acquireAll.modSluice die.toNat q.toNat fun x => { x with resWait := false }) die.toNat q.toNat d p)) ∧
    (¬ holds → exec (.wait die q) s = .next t) := by
  subst ht
  rw [hholds]
  refine ⟨fun hw => congrArg Host.Outcome.next (takePacket_takes h (by decide) ?_),
    fun hw => congrArg Host.Outcome.next (takePacket_blocks h (by decide) ?_)⟩
  · simp only [Nat.not_lt.mpr hm, hs, ha, hw, Bool.not_true, Bool.false_eq_true, if_true, if_false]
  · simp only [Nat.not_lt.mpr hm, hs, ha, hw, Bool.not_true, Bool.false_eq_true, if_false]

/-! ### OBJINV -/

theorem objinv_rejected {tag : Nat} (h : s.heads die.toNat q.toNat 2 d p)
    (hbad : (s.domBase = 0 ∧ tag = 0x30) ∨ (s.domBase ≠ 0 ∧ s.goodComplete d p = false ∧ tag = 0x01)) :
    exec (.objinv die q) s = .next (s.refused die.toNat q.toNat 2 d p 9 tag).finishInvs := by
  refine congrArg (fun t => Host.Outcome.next (State.finishInvs t)) (takePacket_rejects h (by decide) ?_)
  obtain ⟨hb, rfl⟩ | ⟨hb, hc, rfl⟩ := hbad
  · simp only [hb, if_true]
  · simp only [hb, hc, Bool.not_false, if_true, if_false]

theorem objinv_taken (h : s.heads die.toNat q.toNat 2 d p) (hb : s.domBase ≠ 0) (hc : s.goodComplete d p = true) {t : State}
    (ht : t = (s.wcache.map fun c => c.1).foldl
      (fun s c => s.dropImages c fun i => i.dom.toNat == p.num 0x30 0 2 && i.index == p.num 0x30 4 4)
      (s.dropEntry (p.num 0x30 0 2) (p.num 0x30 4 4))) :
    exec (.objinv die q) s = .next (s.took ({ t with
      objinvs := t.objinvs ++ [⟨p.num 0x30 0 2, p.num 0x30 4 4, p.completion, d.asker die.toNat q.toNat⟩] } : State)
        die.toNat q.toNat d p).finishInvs := by
  refine congrArg (fun t => Host.Outcome.next (State.finishInvs t)) (takePacket_takes h (by decide) ?_)
  subst ht
  simp only [hb, hc, Bool.not_true, Bool.false_eq_true, if_false]

/-! ### CONTEXT (R352) -/

/-- Some workgroup of a context stands saved in its pool. -/
def State.hasSaved (s : State) (ctx : Nat) : Prop := ∃ x ∈ s.workgroups, s.ctxOf x.2 = some ctx ∧ ∃ a, x.2.phase = .saved a

/-- What CONTEXT's checks see of the saved workgroups. -/
theorem hasSaved_iff (s : State) (ctx : Nat) : (!(s.workgroupsOf ctx fun g => match g.phase with
      | .saved _ => true
      | _ => false).isEmpty) = true ↔ s.hasSaved ctx := by
  have hsaved (g : Workgroup) : (match g.phase with
      | .saved _ => true
      | _ => false) = true ↔ ∃ a, g.phase = .saved a := by
    split
    · next a h => exact ⟨fun _ => ⟨a, h⟩, fun _ => rfl⟩
    · next h => exact ⟨fun h' => absurd h' Bool.false_ne_true, fun ⟨a, ha⟩ => absurd ha (h a)⟩
  rw [Bool.not_eq_true', Bool.eq_false_iff, ne_eq, List.isEmpty_iff, State.workgroupsOf, List.map_eq_nil_iff, List.filter_eq_nil_iff,
    State.hasSaved]
  simp only [Bool.and_eq_true, beq_iff_eq, hsaved]
  grind

/-- CONTEXT's own checks, in their order, name this code and tag. -/
def State.contextFails (s : State) (d : QueueDesc) (p : Packet) (code tag : Nat) : Prop :=
  (p.badContext = some tag ∧ code = 7) ∨ (p.badContext = none ∧
    ((s.goodComplete d p = false ∧ code = 9 ∧ tag = 0x01) ∨ (s.goodComplete d p = true ∧
      ((p.has 0x23 = true ∧ s.hasSaved (p.num 0x20 0 2 % 4096) ∧ code = 10 ∧ tag = 0x23) ∨
        ((p.has 0x23 = true → ¬ s.hasSaved (p.num 0x20 0 2 % 4096)) ∧ p.has 0x26 = true ∧
          (p.setContext (s.context (p.num 0x20 0 2 % 4096))).pool = none ∧ code = 10 ∧ tag = 0x26)))))

theorem context_rejected {code tag : Nat} (h : s.heads die.toNat q.toNat 1 d p) (hbad : s.contextFails d p code tag) :
    exec (.context die q) s = .next (s.refused die.toNat q.toNat 1 d p code tag) := by
  refine congrArg Host.Outcome.next (takePacket_rejects h (by decide) ?_)
  obtain ⟨hb, rfl⟩ | ⟨hb, ⟨hc, rfl, rfl⟩ | ⟨hc, ⟨h23, hs, rfl, rfl⟩ | ⟨hs, h26, hpool, rfl, rfl⟩⟩⟩ := hbad
  · simp only [hb]
  · simp only [hb, hc, Bool.not_false, if_true]
  · have hsaved := (hasSaved_iff s _).mpr hs
    simp only [hb, hc, h23, Bool.not_true, Bool.true_and, Bool.false_eq_true, if_false]
    exact if_pos hsaved
  · have hsaved : ¬(p.has 0x23 && !(s.workgroupsOf (p.num 0x20 0 2 % 4096) fun g => match g.phase with
        | .saved _ => true
        | _ => false).isEmpty) = true := fun h => by
      rw [Bool.and_eq_true] at h
      exact hs h.1 ((hasSaved_iff s _).mp h.2)
    simp only [hb, hc, Bool.not_true, Bool.false_eq_true, if_false]
    refine (if_neg hsaved).trans (if_pos ?_)
    rw [h26, hpool]
    rfl

theorem context_taken (h : s.heads die.toNat q.toNat 1 d p) (hb : p.badContext = none) (hc : s.goodComplete d p = true)
    (hs : p.has 0x23 = true → ¬ s.hasSaved (p.num 0x20 0 2 % 4096))
    (hpool : p.has 0x26 = true → (p.setContext (s.context (p.num 0x20 0 2 % 4096))).pool ≠ none) {t u : State}
    (ht : t = s.modContext (p.num 0x20 0 2 % 4096) p.setContext)
    (hu : u = (t.workgroupsOf (p.num 0x20 0 2 % 4096) fun _ => true).foldl (fun s g => s.requestPreempt g true) t) :
    exec (.context die q) s = .next (s.took (
      if p.has 0x26 then (u.modContext (p.num 0x20 0 2 % 4096) fun x => { x with
          swapComplete := x.swapComplete ++ p.completion.toList.map fun c => (c.1, c.2, d.asker die.toNat q.toNat) }).checkSwapout
        (p.num 0x20 0 2 % 4096)
      else t.complete (d.asker die.toNat q.toNat) p.completion) die.toNat q.toNat d p) := by
  refine congrArg Host.Outcome.next (takePacket_takes h (by decide) ?_)
  have hsaved : ¬(p.has 0x23 && !(s.workgroupsOf (p.num 0x20 0 2 % 4096) fun g => match g.phase with
      | .saved _ => true
      | _ => false).isEmpty) = true := fun h => by
    rw [Bool.and_eq_true] at h
    exact hs h.1 ((hasSaved_iff s _).mp h.2)
  have hnopool : ¬(p.has 0x26 && (p.setContext (s.context (p.num 0x20 0 2 % 4096))).pool.isNone) = true := fun h => by
    rw [Bool.and_eq_true, Option.isNone_iff_eq_none] at h
    exact hpool h.1 h.2
  subst ht hu
  simp only [hb, hc, Bool.not_true, Bool.false_eq_true, if_false]
  refine (if_neg hsaved).trans ((if_neg hnopool).trans ?_)
  exact (apply_ite Verdict.taken _ _ _).symm

/-! ### LAUNCH -/

theorem launch_waits (h : s.heads die.toNat q.toNat 5 d p) (h1c : p.has 0x1C = true)
    (he : ∃ x ∈ s.launches, x.2.accepting = true ∧ x.2.die = die ∧ x.2.queue = q ∧ x.2.ended = false) :
    exec (.launch die q) s = .next s := by
  refine congrArg Host.Outcome.next (takePacket_blocks h (by decide) (if_pos ?_))
  rw [h1c, Bool.true_and, List.any_eq_true]
  obtain ⟨x, hx, ha, hd, hq, hend⟩ := he
  exact ⟨x, hx, by simp [ha, hd, hq, hend]⟩

theorem launch_checked (h : s.heads die.toNat q.toNat 5 d p) (hfree : p.has 0x1C = true →
      ¬ ∃ x ∈ s.launches, x.2.accepting = true ∧ x.2.die = die ∧ x.2.queue = q ∧ x.2.ended = false) :
    (∀ la reuse, s.checkLaunch d die q p = .ok la reuse → exec (.launch die q) s = .next (s.took
      (((s.noteLaunch p).accept la reuse p.bytes).modSluice die.toNat q.toNat fun x => { x with resWait := false })
        die.toNat q.toNat d p)) ∧
    (∀ code tag, s.checkLaunch d die q p = .reject code tag →
      exec (.launch die q) s = .next (s.refused die.toNat q.toNat 5 d p code tag)) := by
  have hnone : ¬(p.has 0x1C && s.launches.any fun x => x.2.accepting && x.2.die == die && x.2.queue == q && !x.2.ended) = true := by
    rw [Bool.and_eq_true, List.any_eq_true]
    rintro ⟨h1c, x, hx, hall⟩
    exact hfree h1c ⟨x, hx, by simpa [and_assoc] using hall⟩
  refine ⟨fun la reuse hc => congrArg Host.Outcome.next (takePacket_takes h (by decide) ((if_neg hnone).trans ?_)),
    fun code tag hc => congrArg Host.Outcome.next (takePacket_rejects h (by decide) ((if_neg hnone).trans ?_))⟩
  · simp only [hc]
  · simp only [hc]

end

/-- Settles O53: each packet's verdict, with what Sluice does with it. -/
theorem queueEvents : Obligations.QueueEvents := by
  unfold Obligations.QueueEvents
  refine ⟨queueDoorbell_page, queueDoorbell_other, fun s die w bits => rfl, fun s die q d p => ?_⟩
  intro k n asker ctx ref rejected
  refine ⟨nopPacket_taken, fun h => ?_, fun h => ?_, fun h => ?_, fun h => ?_, fun h => ?_⟩
  · intro mode
    exact ⟨fun hm => signal_rejected h (.inl ⟨hm, rfl, rfl⟩), fun hm hs => signal_rejected h (.inr ⟨hm, rfl, .inl ⟨hs, rfl⟩⟩),
      fun hm hs hc => signal_rejected h (.inr ⟨hm, rfl, .inr ⟨hs, hc, rfl⟩⟩), signal_taken h⟩
  · intro cond
    refine ⟨fun hm => wait_rejected h (.inl ⟨hm, rfl, rfl⟩), fun hm hs => wait_rejected h (.inr ⟨hm, hs, rfl, rfl⟩),
      fun a hm hs ha => ?_⟩
    exact wait_reads h hm hs ha rfl (waitHolds_iff hm _ _).symm
  · intro dom index
    refine ⟨fun hb => objinv_rejected h (.inl ⟨hb, rfl⟩), fun hb hc => objinv_rejected h (.inr ⟨hb, hc, rfl⟩), fun hb hc => ?_⟩
    exact objinv_taken h hb hc rfl
  · intro saved good pool t
    refine ⟨fun tag hb => context_rejected h (.inl ⟨hb, rfl⟩), fun hb hc => context_rejected h (.inr ⟨hb, .inl ⟨hc, rfl, rfl⟩⟩),
      fun hb hc h23 hs => context_rejected h (.inr ⟨hb, .inr ⟨hc, .inl ⟨h23, hs, rfl, rfl⟩⟩⟩),
      fun ⟨hb, hc, hs⟩ h26 hpool => context_rejected h (.inr ⟨hb, .inr ⟨hc, .inr ⟨hs, h26, hpool, rfl, rfl⟩⟩⟩), ?_, ?_⟩
    · rintro ⟨hb, hc, hs⟩ h26 hpool u told
      rw [context_taken h hb hc hs (fun _ => hpool) rfl rfl, if_pos h26]
      rfl
    · rintro ⟨hb, hc, hs⟩ h26
      rw [context_taken h hb hc hs (fun h => absurd (h26.symm.trans h) Bool.false_ne_true) rfl rfl, if_neg (by rw [h26]; exact Bool.false_ne_true)]
      rfl
  · intro earlier
    exact ⟨launch_waits h, launch_checked h⟩

end Sys2Proof.Machine
end

