-- ==== Sys2Proof/Proofs/Scheduling.lean ====
section
/-!
Launches over several packages, the placement of clusters, slices, and pre-emption.
-/

namespace Sys2Proof.Machine

/-! ## Launches over several packages (R46, R376, R495) -/

/-- The descriptor with which a replica is checked: no queue of this package carries it. -/
def replicaDesc (ctx : BitVec 12) (dom : BitVec 16) : QueueDesc := ⟨0, 0, 0, 0, false, true, 0, ctx.toNat, dom.toNat⟩

/-- A packet as a package that has not accepted it checks it: without its COMPLETE. -/
def Packet.replicated (p : Packet) : Packet := { p with fields := p.fields.filter fun f => f.tag != 0x01 }

/-- A generation is refused from now on, and no arrival of it is held. -/
def State.refuseGen (s : State) (g : Word) : State :=
  { s with
    arrivals := s.arrivals.filter fun a => a.2 != g
    refusedGens := if s.refusedGens.contains g then s.refusedGens else s.refusedGens ++ [g] }

theorem State.mem_refuseGen (s : State) (g : Word) : g ∈ (s.refuseGen g).refusedGens := by
  rw [State.refuseGen]
  dsimp only
  split
  · next h => exact List.contains_iff_mem.mp h
  · exact List.mem_append_right _ List.mem_cons_self

theorem State.refuseGen_arrivals {s : State} {g : Word} {a : BitVec 6 × Word} (ha : a ∈ (s.refuseGen g).arrivals) : a.2 ≠ g :=
  bne_iff_ne.mp (List.mem_filter.mp ha).2

section
variable {s : State} {pkg : BitVec 6} {ctx : BitVec 12} {dom : BitVec 16} {packet : List Byte} {p : Packet}

theorem launchReplica_checks (hs : s.sluiceRuns = true)
    (hp : readFields 5 (natOfBytes (packet.take 8) / 2 ^ 32) (natOfBytes (packet.take 8) / 2 ^ 16 % 2 ^ 16)
      (packet.take (natOfBytes (packet.take 8) / 2 ^ 16 % 2 ^ 16)) = (p, none)) :
    (∀ la reuse, s.checkLaunch (replicaDesc ctx dom) 0 0 p.replicated = .ok la reuse → exec (.launchReplica pkg ctx dom packet) s =
      .next ((s.noteLaunch p).accept { la with accepting := false, acceptor := pkg, started := false } reuse packet)) ∧
    (∀ code tag, s.checkLaunch (replicaDesc ctx dom) 0 0 p.replicated = .reject code tag →
      exec (.launchReplica pkg ctx dom packet) s = .next (
        (((s.rejectionRecord 0xFFFF 0 ctx.toNat dom.toNat 0
          { code := code, tag := tag, type := 5, seq := p.seq, lid := p.num 0x14 0 4, gen := p.num 0x1A 0 4 % 2 ^ 32 }).faultRecord
          { type := 2, reason := 8, ctx := ctx.toNat, lid := p.num 0x14 0 4, seq := p.seq, dom := p.num 0x13 0 2 }).refuseGen
            (BitVec.ofNat 32 (p.num 0x1A 0 4))).sendRejections
          ((List.range (natOfBytes (((p.val 0x1A).drop 4).take 1))).map fun i =>
            BitVec.ofNat 6 (natOfBytes (((p.val 0x1A).drop (8 + i)).take 1))) (BitVec.ofNat 32 (p.num 0x1A 0 4)))) := by
  have hexec : exec (.launchReplica pkg ctx dom packet) s = execLaunchReplica pkg ctx dom packet s := rfl
  have hhead : numAt packet 0 8 = natOfBytes (packet.take 8) := rfl
  refine ⟨fun la reuse hc => ?_, fun code tag hc => ?_⟩
  all_goals
    rw [hexec, execLaunchReplica]
    rw [replicaDesc, Packet.replicated] at hc
    simp only [hhead, hp, hs, hc, Bool.not_true, Bool.false_eq_true, if_false]
  rw [BitVec.toNat_ofNat]
  rfl

end

section
variable {s : State} {pkg : BitVec 6} {g : Word} {n : Nat} {la : Launch}

theorem startArrival_counts (hr : g ∉ s.refusedGens)
    (hk : ∀ x ∈ s.launches, x.2.startGen = some g → x.2.killed = false) : exec (.startArrival pkg g) s = .next (s.arrived pkg g) := by
  have hexec : exec (.startArrival pkg g) s = execStartArrival pkg g s := rfl
  rw [hexec, execStartArrival]
  refine congrArg Host.Outcome.next (if_neg fun hgone => ?_)
  rw [Bool.and_eq_true, Bool.or_eq_true, List.contains_iff_mem, List.any_eq_true] at hgone
  obtain ⟨-, h | ⟨x, hx, h⟩⟩ := hgone
  · exact hr h
  · rw [Bool.and_eq_true, beq_iff_eq] at h
    exact Bool.false_ne_true ((hk x hx h.1).symm.trans h.2)

theorem startArrival_refused (h : s.launchOfGen g = none) (hr : g ∈ s.refusedGens) : exec (.startArrival pkg g) s = .next s := by
  have hexec : exec (.startArrival pkg g) s = execStartArrival pkg g s := rfl
  rw [hexec, execStartArrival, h, List.contains_iff_mem.mpr hr]
  rfl

theorem launchRejectionStamped_abandons (h : s.launchOfGen g = some (n, la)) :
    exec (.launchRejectionStamped pkg g) s = .next (s.abandon n) := by
  have hexec : exec (.launchRejectionStamped pkg g) s = execLaunchRejectionStamped pkg g s := rfl
  rw [hexec, execLaunchRejectionStamped, h]

theorem packageEndReport_reports (h : s.launchOfGen g = some (n, la)) (ha : la.accepting = true) (hp : pkg ∈ la.pkgs) :
    exec (.packageEndReport pkg g) s = .next (s.reportEnd n pkg) := by
  have hexec : exec (.packageEndReport pkg g) s = execPackageEndReport pkg g s := rfl
  rw [hexec, execPackageEndReport, h]
  simp only [ha, List.contains_iff_mem.mpr hp, Bool.and_self, if_true]

theorem startTimeout_abandons (h : s.launches.find? n = some la) (hg : la.startGen = some g) (hs : la.started = false)
    (he : la.ended = false) : exec (.startTimeout n) s = .next ((s.abandon n).sendRejections la.pkgs g) := by
  have hexec : exec (.startTimeout n) s = execStartTimeout n s := rfl
  rw [hexec, execStartTimeout]
  simp only [h, hg, hs, he, Bool.or_self, Bool.false_eq_true, if_false]

theorem arrivalExpiry_drops (h : s.launchOfGen g = none) :
    exec (.arrivalExpiry pkg g) s = .next { s with
      arrivals := s.arrivals.filter fun a => a != (pkg, g) } := by
  have hexec : exec (.arrivalExpiry pkg g) s = execArrivalExpiry pkg g s := rfl
  rw [hexec, execArrivalExpiry, h]
  rfl

end

theorem launchEvents : Rules.LaunchEvents := by
  unfold Rules.LaunchEvents
  refine ⟨fun s pkg ctx dom packet p hs => ?_, fun s pkg g => ⟨startArrival_counts, startArrival_refused⟩,
    fun s pkg g n la h => ⟨launchRejectionStamped_abandons h, packageEndReport_reports h⟩,
    fun s n la g => startTimeout_abandons, fun s pkg g h => ?_⟩
  · intro h len hp check
    obtain ⟨hok, hreject⟩ := launchReplica_checks (pkg := pkg) (ctx := ctx) (dom := dom) hs hp
    refine ⟨hok, fun code tag hc => ?_⟩
    intro g s1 s2
    exact ⟨s2.refuseGen (BitVec.ofNat 32 g), hreject code tag hc, s2.mem_refuseGen _, fun a => State.refuseGen_arrivals, rfl, rfl, rfl⟩
  · refine ⟨_, arrivalExpiry_drops h, fun hm => ?_, fun a ha hne => ?_, rfl⟩
    · exact absurd rfl (bne_iff_ne.mp (List.mem_filter.mp hm).2)
    · exact List.mem_filter.mpr ⟨ha, bne_iff_ne.mpr hne⟩

/-! ## Placement and slices (R28, R355, R360) -/

theorem clusterPlacement_places {s s1 t : State} {n stage q : Nat} {la : Launch} (h1 : s1 = (s.reserve n).passTokens n)
    (hla : s1.launches.find? n = some la) (hn : la.nextPlace = some (stage, q)) (hm : s1.mayPlace la = true)
    (ho : s1.turnOfOther n la = false) (hp : s1.placeCluster n la stage q = some t) {fresh : SMap Workgroup} {t1 t2 t3 t4 : State}
    (hf : fresh = t.workgroups.filter fun x => (s1.workgroups.find? x.1).isNone)
    (ht1 : t1 = { t with
      launches := t.launches.insert n (la.placed s1.tick) })
    (ht2 : t2 = if la.relaunch = [] then t1 else t1.releaseAll.acquireAll)
    (ht3 : t3 = fresh.foldl (fun t x => t.startSlice la.ctx.toNat x.2.core) t2)
    (ht4 : t4 = fresh.foldl (fun t x => t.beginWaves x.1) t3) :
    exec (.clusterPlacement n) s = .next (((if la.nstage = 1 then t4 else t4.beginLaunch n).reserve n).passTokens n) := by
  have hexec : exec (.clusterPlacement n) s = execClusterPlacement n s := rfl
  have hnext : s1.placeNext n la = some t := by rw [State.placeNext, hn]; exact (if_pos hm).trans hp
  rw [hexec, execClusterPlacement, ← h1]
  simp only [hla, hn, hm, ho, hnext, Bool.not_true, Bool.or_self, Bool.false_eq_true, if_false, List.isEmpty_iff]
  rw [← ht1, ← ht2, ← hf, ← ht3, ← ht4]

theorem State.modContext_context (s : State) (ctx : Nat) (f : Context → Context) :
    (s.modContext ctx f).context ctx = f (s.context ctx) := by
  rw [State.context, State.modContext, SMap.find?_insert_same, Option.getD_some]

/-- The context as its slice on a core ends. -/
def Context.endSlice (core : Nat) (c : Context) : Context :=
  { c with sliceEnded := if c.sliceEnded.contains core then c.sliceEnded else c.sliceEnded ++ [core] }

theorem Context.mem_endSlice (core : Nat) (c : Context) : core ∈ (c.endSlice core).sliceEnded := by
  rw [Context.endSlice]
  dsimp only
  split
  · next h => exact List.contains_iff_mem.mp h
  · exact List.mem_append_right _ List.mem_cons_self

theorem sliceEnd_ends {s : State} {core first last : Nat} {ctx : BitVec 12}
    (hc : (s.context ctx.toNat).slices.find? core = some (first, last)) (hl : last ≤ (s.counter (dieOf core)).toNat) :
    exec (.sliceEnd core ctx) s = .next ((s.modContext ctx.toNat (Context.endSlice core)).relieve (dieOf core)) := by
  have hexec : exec (.sliceEnd core ctx) s = execSliceEnd core ctx s := rfl
  rw [hexec, execSliceEnd]
  simp only [hc, Nat.not_lt.mpr hl, if_false]
  rfl

/-! ## Pre-emption, save and restore (R362 to R372) -/

section
variable {s : State} {g : Nat} {wg : Workgroup}

theorem preemptStepPhase_begins {packet : Bool} {at_ : DWord} (hwg : s.workgroups.find? g = some wg) (hph : wg.phase = .running)
    (hr : wg.request = some (packet, at_)) : exec (.preemptStepPhase g) s = .next ((({ s with
      workgroups := s.workgroups.insert g { wg with phase := .stepping false packet } } : State).stopStanding g false).withdrawSteps g) := by
  have hexec : exec (.preemptStepPhase g) s = execPreemptStepPhase g s := rfl
  rw [hexec, execPreemptStepPhase, hwg]
  simp only [hph, hr]

theorem stepPhaseTimeout_stops {was packet : Bool} (hwg : s.workgroups.find? g = some wg) (hph : wg.phase = .stepping was packet) :
    exec (.stepPhaseTimeout g) s = .next ((({ s with
      workgroups := s.workgroups.insert g { wg with phase := .stepping true packet } } : State).stopStanding g true).withdrawSteps g) := by
  have hexec : exec (.stepPhaseTimeout g) s = execStepPhaseTimeout g s := rfl
  rw [hexec, execStepPhaseTimeout, hwg]
  simp only [hph]

theorem workgroupSave_saves {was packet : Bool} {la : Launch} {base : Nat} (hwg : s.workgroups.find? g = some wg)
    (hph : wg.phase = .stepping was packet) (hla : s.launches.find? wg.launch = some la) (hr : s.readyToSave g = true)
    (hp : s.poolBad la.ctx.toNat = false) (hb : s.saveBase g la = .ok base) (hn : s.saveNeeds g = []) :
    exec (.workgroupSave g) s = .next (((s.chargeOverrun.writeImage g wg la base).dropSlice
      la.ctx.toNat wg.core).checkSwapout la.ctx.toNat) := by
  have hexec : exec (.workgroupSave g) s = execWorkgroupSave g s := rfl
  rw [hexec, execWorkgroupSave, hwg]
  simp only [hph, hla, hr, hp, hb, hn, List.isEmpty_nil, Bool.not_true, Bool.false_eq_true, if_false]

theorem workgroupRestore_restores {base core : Nat} {la : Launch} {rest : List Nat} (hwg : s.workgroups.find? g = some wg)
    (hph : wg.phase = .saved base) (hla : s.launches.find? wg.launch = some la) (hm : s.mayRestore wg = true)
    (hc : s.coresFor (dieOf wg.core) (.restore g) = some (core :: rest)) (hi : s.imageBad g base la = false)
    (hp : s.poolBad la.ctx.toNat = false) :
    exec (.workgroupRestore g) s = .next ((waveKeys g la.waves).foldl (fun s wk => s.haltWave wk la.ctx.toNat 2)
      (((s.readImage g wg la base core).runOn g true).startSlice la.ctx.toNat core)) := by
  have hexec : exec (.workgroupRestore g) s = execWorkgroupRestore g s := rfl
  rw [hexec, execWorkgroupRestore, hwg]
  simp only [hph, hla, hm, hc, hi, hp, Bool.not_true, Bool.or_self, Bool.false_eq_true, if_false]

end

theorem schedulingEvents : Rules.SchedulingEvents := by
  unfold Rules.SchedulingEvents
  refine ⟨fun s t n stage q la => ?_, fun s core first last ctx hc hl => ?_, fun s g wg packet at_ hwg hph hr => ?_,
    fun s g wg was packet hwg hph => ?_, fun s g base core wg la rest => workgroupRestore_restores⟩
  · intro s1 hla hn hm ho hp
    exact clusterPlacement_places rfl hla hn hm ho hp rfl rfl rfl rfl rfl
  · refine ⟨_, sliceEnd_ends hc hl, ?_, rfl, rfl⟩
    rw [State.modContext_context]
    exact Context.mem_endSlice core _
  · exact preemptStepPhase_begins hwg hph hr
  · refine ⟨stepPhaseTimeout_stops hwg hph, fun la base hla hr hp hb hn => workgroupSave_saves hwg hph hla hr hp hb hn⟩

/-- Settles O54, by the rule of each event. -/
theorem scheduling : Obligations.Scheduling := by
  unfold Obligations.Scheduling
  exact ⟨launchEvents, schedulingEvents⟩

end Sys2Proof.Machine
end

