-- ==== Sys2Proof/Proofs/DebugEvents.lean ====
section
/-!
Debugger sessions, halts, and the items of halted waves.
-/

namespace Sys2Proof.Machine

/-! ## Halts (R338, R488, R490) -/

/-- The wave as its halt completes: what was pending has landed, and STATUS.HALT is 1. -/
def Wave.haltedNow (w : Wave) : Wave :=
  { w.landAll with
    status := mkStatus w.landAll.gdepth w.landAll.tl true
    halting := none }

theorem haltComplete_next {s : State} {wk slice : Nat} {w : Wave} {wg : Workgroup} {la : Launch} {reason : BitVec 2}
    (hw : s.waves.find? wk = some w) (hh : w.halting = some (reason, slice)) (hwg : s.workgroups.find? w.wg = some wg)
    (hla : s.launches.find? wg.launch = some la) (hp : ∀ p ∈ w.pend, p.kind = .result) (hl : s.loadsRegs wk = false)
    (ho : ∀ f ∈ w.frags, s.entryOwed wk f = false) {t : State} (ht : t = s.modWave wk Wave.haltedNow) :
    exec (.haltComplete wk) s = match t.sessionOf la.ctx.toNat with
      | none => .next t
      | some n => .next (t.ringNotify ⟨fieldOf (t.reg (0x2030 + 0x40 * n)) 6 46 * 64, 2 ^ fieldOf (t.reg (0x2030 + 0x40 * n)) 0 5, 32⟩ 2
        (haltRecord w wg la reason (((w.slicePc slice).or (w.slicePc (lowestSlice (slicesOfLanes w.runnable)))).getD 0)
          (t.counter (dieOf wg.core)))) := by
  have hexec : exec (.haltComplete wk) s = execHaltComplete wk s := rfl
  have hquiet : (w.pend.any fun p => p.kind != .result) = false := by
    rw [List.any_eq_false]
    exact fun p h => by simp [hp p h]
  have howed : w.frags.any (s.entryOwed wk) = false := List.any_eq_false.mpr fun f h => Bool.eq_false_iff.mp (ho f h)
  subst ht
  rw [hexec, execHaltComplete]
  simp only [hw, hh, hwg, hla, hquiet, hl, howed, Bool.or_self, Bool.false_eq_true, if_false] <;> rfl

/-! ## Sessions (R487, R488) -/

section
variable {s : State} {n : BitVec 3}

theorem debugSessionOpen_opens {v : DWord} (hs : s.sessionOpen n.toNat = false) (hv : v.getLsbD 63 = true)
    (hother : ∀ m < 8, s.sessionOpen m = true → s.sessionCtx m ≠ v.toNat % 4096) (hr : v.getLsbD 60 = false) (hh : v.getLsbD 61 = false) :
    exec (.debugSessionOpen n v) s = .next (s.setReg (0x2000 + 0x40 * n.toNat)
      (0x8000000000000000#64 ||| (v &&& 0x4000000000000000#64) ||| BitVec.ofNat 64 (v.toNat % 4096))) := by
  have hexec : exec (.debugSessionOpen n v) s = execDebugSessionOpen n v s := rfl
  have hctx : fieldOf v 0 12 = v.toNat % 4096 := by rw [fieldOf_eq, Nat.pow_zero, Nat.div_one]; rfl
  have hfree : ((List.range 8).any fun m => m != n.toNat && s.sessionOpen m && s.sessionCtx m == v.toNat % 4096) = false := by
    rw [List.any_eq_false]
    intro m hm h
    rw [Bool.and_eq_true, Bool.and_eq_true, beq_iff_eq] at h
    exact hother m (List.mem_range.mp hm) h.1.2 h.2
  rw [hexec, execDebugSessionOpen]
  simp only [hs, hv, hr, hh, hctx, hfree, Bool.not_true, Bool.false_eq_true, or_self, if_false]

theorem debugSessionClose_closes (hs : s.sessionOpen n.toNat = true) : exec (.debugSessionClose n) s =
    .next ((s.resumeContext n.toNat).setReg (0x2000 + 0x40 * n.toNat) ((s.resumeContext n.toNat).dbgCtl n.toNat &&& 0xFFF#64)) := by
  have hexec : exec (.debugSessionClose n) s = execDebugSessionClose n s := rfl
  rw [hexec, execDebugSessionClose]
  simp only [hs, if_true]

theorem debugHalt_halts (hs : s.sessionOpen n.toNat = true) : exec (.debugHalt n) s = .next (s.haltContext n.toNat) :=
  congrArg Host.Outcome.next (if_pos hs)

theorem debugResume_resumes (hs : s.sessionOpen n.toNat = true) : exec (.debugResume n) s = .next (s.resumeContext n.toNat) :=
  congrArg Host.Outcome.next (if_pos hs)

/-! ## Items of halted waves (R489) -/

theorem dbgdata_refused (h : s.sessionOpen n.toNat = false ∨ s.debugTarget n.toNat = none) :
    exec (.dbgdataRead n) s = .next ((s.debugError n.toNat).setReg (0x2020 + 0x40 * n.toNat) 0) ∧
    (∀ v, exec (.dbgdataWrite n v) s = .next (s.debugError n.toNat)) := by
  have hread : exec (.dbgdataRead n) s = execDbgdataRead n s := rfl
  have hwrite (v : DWord) : exec (.dbgdataWrite n v) s = execDbgdataWrite n v s := rfl
  cases hs : s.sessionOpen n.toNat with
  | false =>
    refine ⟨?_, fun v => ?_⟩
    · rw [hread, execDbgdataRead]
      simp only [hs, Bool.not_false, if_true]
    · rw [hwrite, execDbgdataWrite]
      simp only [hs, Bool.not_false, if_true]
  | true =>
    have ht := h.resolve_left (by rw [hs]; exact Bool.true_eq_false.mp)
    refine ⟨?_, fun v => ?_⟩
    · rw [hread, execDbgdataRead]
      simp only [hs, ht, Bool.not_true, Bool.false_eq_true, if_false]
    · rw [hwrite, execDbgdataWrite]
      simp only [hs, ht, Bool.not_true, Bool.false_eq_true, if_false]

variable {wk space index : Nat} {w : Wave} {wg : Workgroup} {la : Launch} {base : Option Nat}

theorem dbgdataRead_item (hs : s.sessionOpen n.toNat = true) (ht : s.debugTarget n.toNat = some (wk, w, wg, la, base, space, index))
    (hm : s.mayReach n.toNat w space index = true) : exec (.dbgdataRead n) s =
      .next (s.setReg (0x2020 + 0x40 * n.toNat) (w.item wg la (s.counter (dieOf wg.core)) space index)) := by
  have hexec : exec (.dbgdataRead n) s = execDbgdataRead n s := rfl
  rw [hexec, execDbgdataRead]
  simp only [hs, ht, hm, Bool.not_true, Bool.false_eq_true, if_false, if_true]

theorem dbgdataWrite_item (hs : s.sessionOpen n.toNat = true) (ht : s.debugTarget n.toNat = some (wk, w, wg, la, none, space, index))
    (hm : s.mayReach n.toNat w space index = true) (v : DWord) :
    exec (.dbgdataWrite n v) s = .next (s.modWave wk fun _ => w.setItem space index v) := by
  have hexec : exec (.dbgdataWrite n v) s = execDbgdataWrite n v s := rfl
  rw [hexec, execDbgdataWrite]
  simp only [hs, ht, hm, Bool.not_true, Bool.false_eq_true, if_false]

end

/-- Settles O55, by the rule of each event. -/
theorem debugEvents : Obligations.DebugEvents := by
  unfold Obligations.DebugEvents
  refine ⟨fun s wk slice w wg la reason hw hh hwg hla hp hl ho => ?_, fun s n v => debugSessionOpen_opens,
    fun s n hs => ⟨⟨_, rfl, debugSessionClose_closes hs⟩, debugHalt_halts hs, debugResume_resumes hs⟩, fun s n => dbgdata_refused,
    fun s n wk space index w wg la base hs ht hm => ⟨dbgdataRead_item hs ht hm, fun hb v => dbgdataWrite_item hs (hb ▸ ht) hm v⟩⟩
  intro t
  have hnext := haltComplete_next hw hh hwg hla hp hl ho rfl
  refine ⟨fun n hn => ?_, fun hn => ?_⟩
  · have hn' : (s.modWave wk Wave.haltedNow).sessionOf la.ctx.toNat = some n := hn
    rw [hn'] at hnext
    simp only [fieldOf_eq, Nat.pow_zero, Nat.div_one, haltRecord] at hnext
    exact hnext
  · have hn' : (s.modWave wk Wave.haltedNow).sessionOf la.ctx.toNat = none := hn
    rw [hn'] at hnext
    exact hnext

end Sys2Proof.Machine
end

