-- ==== Sys2Proof/Proofs/MailboxEvents.lean ====
section
/-!
Platform registers, the mailbox, and boot.
-/

namespace Sys2Proof.Machine

/-! ## Registers (R377) -/

theorem State.setReg_reg_other (s : State) {off k : Nat} (h : k ≠ off) (x : DWord) : (s.setReg off x).reg k = s.reg k := by
  rw [State.reg, State.setReg, SMap.find?_insert_other _ _ _ _ h]
  rfl

theorem State.setMailbox_mailbox (s : State) {n : Nat} (hn : n < 16) : (s.setMailbox n).mailbox = n := by
  rw [State.mailbox, State.setMailbox, State.setReg_reg, fieldOf_eq, BitVec.toNat_ofNat]
  omega

theorem State.setMailbox_reg (s : State) (n : Nat) {k : Nat} (h : k ≠ 0x1008) : (s.setMailbox n).reg k = s.reg k :=
  s.setReg_reg_other h _

section
variable {s : State}

/-- No register of a debugger session's DBGCTL is kept by the table of the other registers. -/
theorem written_dbgctl {off : Nat} {v x : DWord} (h : s.written off v = some x) : ¬(0x2000 ≤ off ∧ off < 0x2200 ∧ off % 0x40 = 0) := by
  rintro ⟨hlo, hhi, hmod⟩
  have hnone : s.written off v = none := by
    rw [State.written]
    simp only [hmod]
    rw [if_neg (by omega), if_neg (by omega), if_neg (by omega), if_neg (by omega), if_neg (by omega), if_neg (by omega),
      if_neg (by omega), if_neg (by omega), if_neg (by omega), if_neg (by omega), if_pos (by omega)]
    rfl
  exact absurd (hnone.symm.trans h) (by simp)

theorem registerWrite_kept {off : BitVec 16} {v x : DWord} (h8 : off.toNat % 8 = 0) (hcmd : off ≠ 0x1000)
    (hx : s.written off.toNat v = some x) : exec (.registerWrite off v) s =
      .next (if off = 0x0030 then (s.setReg off.toNat x).pump else s.setReg off.toNat x) := by
  have hexec : exec (.registerWrite off v) s = execRegisterWrite off v s := rfl
  have hcmd' : off.toNat ≠ 0x1000 := fun h => hcmd (BitVec.eq_of_toNat_eq h)
  have hdom : off.toNat = 0x0030 ↔ off = 0x0030 := ⟨fun h => BitVec.eq_of_toNat_eq h, fun h => by rw [h]; rfl⟩
  rw [hexec, execRegisterWrite]
  simp only [h8, hcmd', written_dbgctl hx, hx, hdom, ne_eq, not_true_eq_false, if_false]

theorem registerWrite_dbgctl (n : BitVec 3) (v : DWord) : exec (.registerWrite (BitVec.ofNat 16 (0x2000 + 0x40 * n.toNat)) v) s =
    if v.getLsbD 63 then exec (.debugSessionOpen n v) s
    else if s.sessionOpen n.toNat then exec (.debugSessionClose n) s
    else .next (s.setReg (0x2000 + 0x40 * n.toNat) (v &&& 0xFFF#64)) := by
  have hn := n.isLt
  have hoff : (BitVec.ofNat 16 (0x2000 + 0x40 * n.toNat)).toNat = 0x2000 + 0x40 * n.toNat := by
    rw [BitVec.toNat_ofNat, Nat.mod_eq_of_lt (by omega)]
  have hk : BitVec.ofNat 3 ((0x2000 + 0x40 * n.toNat - 0x2000) / 0x40) = n := by
    rw [show (0x2000 + 0x40 * n.toNat - 0x2000) / 0x40 = n.toNat by omega, BitVec.ofNat_toNat, BitVec.setWidth_eq]
  have hexec (off : BitVec 16) : exec (.registerWrite off v) s = execRegisterWrite off v s := rfl
  rw [hexec, execRegisterWrite]
  simp only [hoff]
  rw [if_neg (by omega), if_neg (by omega), if_pos (by omega), hk]
  rfl

theorem registerWrite_command {v : DWord} (hm : s.mailbox ≠ 1) : exec (.registerWrite 0x1000 v) s =
    .next ((s.setReg 0x1000 (keepBits v 47 32 ||| keepBits v 15 0)).setMailbox
      (if v.toNat % 2 ^ 16 = 0x01 ∨ v.toNat % 2 ^ 16 = 0x10 ∨ v.toNat % 2 ^ 16 = 0x11 ∨ v.toNat % 2 ^ 16 = 0x20 then 1 else 2)) := by
  have hexec : exec (.registerWrite 0x1000 v) s = execRegisterWrite 0x1000 v s := rfl
  have hoff : (0x1000 : BitVec 16).toNat = 0x1000 := rfl
  rw [hexec, execRegisterWrite]
  simp only [hoff, hm, Nat.reduceMod, ne_eq, not_true_eq_false, if_false, if_true, knownCommand, fieldOf_eq, Nat.pow_zero, Nat.div_one,
    Bool.or_eq_true, beq_iff_eq, or_assoc]

/-! ## The mailbox (R395) -/

theorem identify_answers (h : s.runs 0x0001 = true) : exec .identify s = .next ((((s.setReg 0x1100 (s.reg 0x0000)).setReg 0x1108
    ((Config.imageVersion s.flashImage).zeroExtend 64)).setReg 0x1110 (s.rollback.zeroExtend 64)).setMailbox 0) := by
  have hexec : exec .identify s = execIdentify s := rfl
  rw [hexec, execIdentify, if_pos h]

/-- Bytes stored in flash from an offset on. -/
def writeFlash (m : SMap Byte) (off : Nat) (bs : List Byte) : SMap Byte :=
  (List.range bs.length).foldl (fun m i => SMap.set 0 m (off + i) (bs.getD i 0)) m

theorem get_writeFlash (m : SMap Byte) (off : Nat) (bs : List Byte) (a : Nat) : SMap.get 0 (writeFlash m off bs) a =
    if off ≤ a ∧ a < off + bs.length then bs.getD (a - off) 0 else SMap.get 0 m a := by
  have hfold (n : Nat) : SMap.get 0 ((List.range n).foldl (fun m i => SMap.set 0 m (off + i) (bs.getD i 0)) m) a =
      if off ≤ a ∧ a < off + n then bs.getD (a - off) 0 else SMap.get 0 m a := by
    induction n with
    | zero => rw [if_neg (by omega)]; rfl
    | succ n ih =>
      rw [List.range_succ, List.foldl_append]
      simp only [List.foldl_cons, List.foldl_nil]
      by_cases ha : a = off + n
      · subst ha
        rw [SMap.get_set_same, if_pos (by omega), Nat.add_sub_cancel_left]
      · rw [SMap.get_set_other _ _ _ _ _ ha, ih]
        exact if_congr (by omega) rfl rfl
  exact hfold bs.length

theorem payload_length (s : State) : s.payload.length = min ((s.reg 0x1000).toNat / 2 ^ 32 % 2 ^ 16) 3840 := by
  rw [State.payload, List.length_take, fieldOf_eq, List.length_flatMap]
  simp only [bytesOfNat_length, List.map_const', List.length_range, List.sum_replicate, smul_eq_mul]

/-- FWWRITE's offset and bytes, where the payload has a length that it admits. -/
theorem fwwrite_writes (h : s.runs 0x0010 = true) (hlo : 8 ≤ (s.reg 0x1000).toNat / 2 ^ 32 % 2 ^ 16)
    (hhi : (s.reg 0x1000).toNat / 2 ^ 32 % 2 ^ 16 ≤ 3840) : exec .fwwrite s = .next (({ s with
      flash := writeFlash s.flash (natOfBytes (s.payload.take 8)) (s.payload.drop 8) } : State).setMailbox 0) := by
  have hexec : exec .fwwrite s = execFwwrite s := rfl
  rw [hexec, execFwwrite, if_pos h]
  simp only [fieldOf_eq]
  rw [if_neg (by omega)]
  rfl

theorem fwwrite_rejects (h : s.runs 0x0010 = true)
    (hn : (s.reg 0x1000).toNat / 2 ^ 32 % 2 ^ 16 < 8 ∨ 3840 < (s.reg 0x1000).toNat / 2 ^ 32 % 2 ^ 16) :
    exec .fwwrite s = .next (s.setMailbox 2) := by
  have hexec : exec .fwwrite s = execFwwrite s := rfl
  rw [hexec, execFwwrite, if_pos h]
  simp only [fieldOf_eq]
  rw [if_pos hn]

theorem status_answers (h : s.runs 0x0020 = true) :
    exec .status s = .next ((s.setReg 0x1100 (if s.bootOk then 1 else 0)).setMailbox 0) := by
  have hexec : exec .status s = execStatus s := rfl
  rw [hexec, execStatus, if_pos h]

/-! ## Boot (R390) -/

theorem busy_iff : s.busy = true ↔ ∃ x ∈ s.launches, x.2.ended = false := by
  simp only [State.busy, List.any_eq_true, Bool.not_eq_true']

theorem fwactivate_boots (h : s.runs 0x0011 = true) (hidle : ∀ x ∈ s.launches, x.2.ended = true) : exec .fwactivate s = .next s.boot := by
  have hexec : exec .fwactivate s = execFwactivate s := rfl
  have hbusy : ¬ s.busy = true := fun hb => by
    obtain ⟨x, hx, he⟩ := busy_iff.mp hb
    exact Bool.false_ne_true (he.symm.trans (hidle x hx))
  rw [hexec, execFwactivate, if_pos h, if_neg hbusy]

theorem fwactivate_busy (h : s.runs 0x0011 = true) (hrun : ∃ x ∈ s.launches, x.2.ended = false) :
    exec .fwactivate s = .next (s.setMailbox 3) := by
  have hexec : exec .fwactivate s = execFwactivate s := rfl
  rw [hexec, execFwactivate, if_pos h, if_pos (busy_iff.mpr hrun)]

theorem boot_rollback (s : State) : s.rollback.toNat ≤ s.boot.rollback.toNat := by
  have hboot : s.boot.rollback = if s.accepts s.flashImage && decide (s.rollback.toNat < Config.imageFloor s.flashImage)
      then BitVec.ofNat 6 (Config.imageFloor s.flashImage) else s.rollback := rfl
  rw [hboot]
  split
  · next h =>
    rw [Bool.and_eq_true, State.accepts, Bool.and_eq_true, decide_eq_true_eq, decide_eq_true_eq] at h
    obtain ⟨⟨-, hfloor, -⟩, hlt⟩ := h
    rw [BitVec.toNat_ofNat, Nat.mod_eq_of_lt (by omega)]
    exact hlt.le
  · exact le_rfl

end

/-- Settles O56, by the rule of each event. -/
theorem mailboxEvents : Obligations.MailboxEvents := by
  unfold Obligations.MailboxEvents
  intro s
  refine ⟨fun off v x => registerWrite_kept, registerWrite_dbgctl, fun v => registerWrite_command, fun h => ?_, fun h => ?_, fun h => ?_,
    rfl, fwactivate_boots, fwactivate_busy, rfl, rfl, rfl, rfl, fun hs => ?_, boot_rollback s⟩
  · refine ⟨_, identify_answers h, State.setMailbox_mailbox _ (by decide), ?_, ?_⟩
    · rw [State.setMailbox_reg _ _ (by decide), State.setReg_reg_other _ (by decide), State.setReg_reg_other _ (by decide),
        State.setReg_reg]
    · rw [State.setMailbox_reg _ _ (by decide), State.setReg_reg]
  · intro n off
    refine ⟨fwwrite_rejects h, fun hlo hhi => ⟨_, fwwrite_writes h hlo hhi, State.setMailbox_mailbox _ (by decide), fun j hj => ?_,
      fun a ha => ?_⟩⟩
    · have hlen : (s.payload.drop 8).length = n - 8 := by rw [List.length_drop, payload_length, Nat.min_eq_left hhi]
      refine (get_writeFlash _ _ _ _).trans ?_
      rw [if_pos (by omega), Nat.add_sub_cancel_left, List.getD_eq_getElem?_getD, List.getElem?_drop, ← List.getD_eq_getElem?_getD]
    · have hlen : (s.payload.drop 8).length = n - 8 := by rw [List.length_drop, payload_length, Nat.min_eq_left hhi]
      refine (get_writeFlash _ _ _ _).trans (if_neg ?_)
      omega
  · refine ⟨_, status_answers h, State.setMailbox_mailbox _ (by decide), ?_⟩
    rw [State.setMailbox_reg _ _ (by decide), State.setReg_reg]
  · have hmem : s.boot.mem = if s.halted then s.mem.filter fun c => decide (0x9000000000 ≤ c.1) else s.mem := rfl
    rw [hmem, hs]
    rfl

end Sys2Proof.Machine
end

