-- ==== Sys2Proof/Proofs/SafetyEvents.lean ====
section
/-!
SPDM requests and alarms; islands, thermal limits and skews.
-/

namespace Sys2Proof.Machine

/-! ## SPDM and alarms (R390, R432, R434) -/

section
variable {s : State}

theorem getCertificate_answers (o n : BitVec 16) : exec (.getCertificate o n) s = .next (s.respond (if s.identityErased then .error
    else .certificate ((Config.certificate.drop o.toNat).take n.toNat))) := rfl

theorem challenge_answers (nonce : List Byte) : exec (.challenge nonce) s = .next (s.bumpFree.respond (if s.identityErased then .error
    else .challengeAuth ((List.range 32).map (Config.freeByte s.freeCount))
      (Config.signature (nonce ++ (List.range 32).map (Config.freeByte s.freeCount))))) := rfl

theorem getMeasurements_answers (i : BitVec 8) : exec (.getMeasurements i) s = .next (s.respond
    (if (if i.toNat = 0xFF then [1, 2, 3, 4] else if 1 ≤ i.toNat ∧ i.toNat ≤ 4 then [i.toNat] else []).isEmpty then .error
      else .measurements ((if i.toNat = 0xFF then [1, 2, 3, 4] else if 1 ≤ i.toNat ∧ i.toNat ≤ 4 then [i.toNat] else []).map
        fun i => (i, s.measurement i)))) := rfl

theorem firmwareRemeasure_alarms (hr : s.recovery = false) (hrun : s.running ≠ []) (hm : Config.sha256 s.running ≠ s.measured) :
    exec .firmwareRemeasure s = .next (s.alarm 0x10) := by
  refine congrArg Host.Outcome.next (if_neg ?_)
  rw [hr, List.isEmpty_eq_false_iff.mpr hrun, beq_eq_false_iff_ne.mpr hm]
  exact Bool.false_ne_true

/-- A source of the third response erases the identity, halts the package and clears the session keys. -/
theorem alarm_erases {x : BitVec 8} (hx : x.getLsbD 2 = true) :
    (s.alarm x).identityErased = true ∧ (s.alarm x).halted = true ∧ (s.alarm x).sessionKeys = false := by
  have hlevel : alarmLevel x = 3 := if_pos hx
  rw [State.alarm]
  simp only [hlevel]
  exact ⟨Bool.or_true _, Bool.or_true _, rfl⟩

end

/-- Settles O57, by the rule of each request. -/
theorem securityEvents : Obligations.SecurityEvents := by
  unfold Obligations.SecurityEvents
  intro s answers
  refine ⟨rfl, rfl, fun a b => rfl, rfl, fun o n h => ?_, fun o n h => ?_, fun nonce => ⟨_, challenge_answers nonce, fun h => ?_,
    fun h => ?_⟩, fun i hlo hhi => ?_, fun i h => ?_, firmwareRemeasure_alarms, fun x => rfl, fun x => alarm_erases⟩
  · exact (getCertificate_answers o n).trans (congrArg (fun r => Host.Outcome.next (s.respond r)) (if_neg (ne_true_of_eq_false h)))
  · exact (getCertificate_answers o n).trans (congrArg (fun r => Host.Outcome.next (s.respond r)) (if_pos h))
  · exact if_pos h
  · exact ⟨_, by rw [List.length_map, List.length_range], if_neg (ne_true_of_eq_false h)⟩
  · have hone : (if i.toNat = 0xFF then [1, 2, 3, 4] else if 1 ≤ i.toNat ∧ i.toNat ≤ 4 then [i.toNat] else []) = [i.toNat] := by
      rw [if_neg (by omega), if_pos ⟨hlo, hhi⟩]
    exact (getMeasurements_answers i).trans (by rw [hone]; rfl)
  · have hnone : (if i.toNat = 0xFF then [1, 2, 3, 4] else if 1 ≤ i.toNat ∧ i.toNat ≤ 4 then [i.toNat] else []) = [] := by
      rw [if_neg (by omega), if_neg (by omega)]
    exact (getMeasurements_answers i).trans (by rw [hnone]; rfl)

/-! ## Islands (R393, R394) -/

section
variable {s : State}

theorem clampTarget_eq (v : DWord) : clampTarget (fieldOf v 0 8) = max 17 (min 100 (v.toNat % 256)) := by
  rw [clampTarget, fieldOf_eq, Nat.pow_zero, Nat.div_one]
  rfl

theorem modIsland_eq (s : State) (i : Nat) (f : Bool → Bool → Nat → Nat → DWord) : s.modIsland i f = s.setReg (0x0400 + 8 * i)
    (f ((s.reg (0x0400 + 8 * i)).getLsbD 31) ((s.reg (0x0400 + 8 * i)).getLsbD 30) ((s.reg (0x0400 + 8 * i)).toNat / 2 ^ 16 % 256)
      ((s.reg (0x0400 + 8 * i)).toNat % 256)) := by
  rw [State.modIsland, fieldOf_eq, fieldOf_eq, Nat.pow_zero, Nat.div_one]
  rfl

theorem islandWrite_busy {i : BitVec 6} {v : DWord} (h : (s.reg (0x0400 + 8 * i.toNat)).getLsbD 31 = true) : exec (.islandWrite i v) s =
    .next { s with
      islandNext := s.islandNext.insert i.toNat (BitVec.ofNat 8 (max 17 (min 100 (v.toNat % 256)))) } := by
  have hexec : exec (.islandWrite i v) s = execIslandWrite i v s := rfl
  rw [hexec, execIslandWrite]
  simp only [h, if_true, clampTarget_eq]

theorem islandWrite_idle {i : BitVec 6} {v : DWord} (h : (s.reg (0x0400 + 8 * i.toNat)).getLsbD 31 = false) {t cur : Nat}
    (ht : t = max 17 (min 100 (v.toNat % 256))) (hc : cur = (s.reg (0x0400 + 8 * i.toNat)).toNat / 2 ^ 16 % 256) :
    exec (.islandWrite i v) s = .next (s.setReg (0x0400 + 8 * i.toNat)
      (mkIsland (cur ≠ t) ((s.reg (0x0400 + 8 * i.toNat)).getLsbD 30 && decide (cur < t)) cur t)) := by
  have hexec : exec (.islandWrite i v) s = execIslandWrite i v s := rfl
  have hbne : (cur != t) = decide (cur ≠ t) := by rw [Bool.eq_iff_iff, bne_iff_ne, decide_eq_true_eq]
  rw [hexec, execIslandWrite]
  simp only [h, Bool.false_eq_true, if_false, clampTarget_eq, State.retarget, modIsland_eq]
  rw [← ht, ← hc, hbne]

theorem frequencyChangeEnd_ends {i : BitVec 6} (h : (s.reg (0x0400 + 8 * i.toNat)).getLsbD 31 = true)
    (hn : s.islandNext.find? i.toNat = none) {cur tgt : Nat} (hc : cur = (s.reg (0x0400 + 8 * i.toNat)).toNat / 2 ^ 16 % 256)
    (ht : tgt = (s.reg (0x0400 + 8 * i.toNat)).toNat % 256) :
    exec (.frequencyChangeEnd i) s = .next (s.setReg (0x0400 + 8 * i.toNat)
      (mkIsland false ((s.reg (0x0400 + 8 * i.toNat)).getLsbD 30 && decide (cur < tgt))
        (if (s.reg (0x0400 + 8 * i.toNat)).getLsbD 30 = true ∧ cur < tgt then cur else tgt) tgt)) := by
  have hexec : exec (.frequencyChangeEnd i) s = execFrequencyChangeEnd i s := rfl
  have hnext (x : DWord) : (s.setReg (0x0400 + 8 * i.toNat) x).islandNext.find? i.toNat = none := hn
  rw [hexec, execFrequencyChangeEnd]
  simp only [h, if_true, modIsland_eq, hnext, Bool.and_eq_true, decide_eq_true_eq]
  rw [← hc, ← ht]

/-! ## Thermal limits (R394) -/

/-- An island's register after the end of a thermal limit: THROT clears, and CUR returns to TGT unless it changes. -/
def islandReleased (r : DWord) : DWord :=
  if r.getLsbD 30 then mkIsland (r.getLsbD 31) false (if r.getLsbD 31 then r.toNat / 2 ^ 16 % 256 else r.toNat % 256) (r.toNat % 256) else r

/-- The end of a thermal limit on one island. -/
def State.releaseIsland (s : State) (i : Nat) : State :=
  if (s.reg (0x0400 + 8 * i)).getLsbD 30 then
    s.modIsland i fun busy _ cur tgt => mkIsland busy false (if busy then cur else tgt) tgt
  else s

theorem releaseIsland_reg_same (s : State) (i : Nat) :
    (s.releaseIsland i).reg (0x0400 + 8 * i) = islandReleased (s.reg (0x0400 + 8 * i)) := by
  rw [State.releaseIsland, islandReleased]
  split
  · rw [modIsland_eq, State.setReg_reg]
  · rfl

theorem releaseIsland_reg_other (s : State) {i k : Nat} (h : k ≠ 0x0400 + 8 * i) : (s.releaseIsland i).reg k = s.reg k := by
  rw [State.releaseIsland]
  split
  · rw [modIsland_eq, State.setReg_reg_other _ h]
  · rfl

theorem releaseIslands_reg (s : State) (n i : Nat) : ((List.range n).foldl State.releaseIsland s).reg (0x0400 + 8 * i) =
    if i < n then islandReleased (s.reg (0x0400 + 8 * i)) else s.reg (0x0400 + 8 * i) := by
  induction n with
  | zero => rfl
  | succ n ih =>
    rw [List.range_succ, List.foldl_append, List.foldl_cons, List.foldl_nil]
    by_cases hi : i = n
    · subst hi
      rw [releaseIsland_reg_same, ih, if_neg (lt_irrefl i), if_pos (Nat.lt_succ_self i)]
    · rw [releaseIsland_reg_other _ (by omega), ih]
      exact if_congr (by omega) rfl rfl

theorem thermalLimitRelease_releases {temp : BitVec 8} (h : temp.toNat < 100) :
    exec (.thermalLimitRelease temp) s = .next ((List.range 64).foldl State.releaseIsland (s.setTemp temp)) :=
  if_neg (Nat.not_le.mpr h)

theorem thermalThrottle_lowers {temp : BitVec 8} {l : List (BitVec 6 × BitVec 8)} (h : 100 ≤ temp.toNat) :
    exec (.thermalThrottle temp l) s = .next (l.foldl (fun s x => s.modIsland x.1.toNat fun busy _ cur tgt =>
      mkIsland busy (decide (min cur x.2.toNat < tgt)) (min cur x.2.toNat) tgt) (s.setTemp temp)) :=
  if_neg (Nat.not_lt.mpr h)

theorem thermalTrip_latches {temp : BitVec 8} (h : 110 ≤ temp.toNat) : ∃ t, exec (.thermalTrip temp) s = .next t ∧ t.tripped = true :=
  ⟨_, if_neg (Nat.not_lt.mpr h), rfl⟩

/-! ## Skews (R391) -/

theorem skewMeasurement_package {i : BitVec 6} (off : BitVec 48) (unc : BitVec 15) (h : i ≠ s.myPackage) :
    exec (.skewMeasurement true i off unc) s = .next (s.setReg (0x0100 + 8 * i.toNat) ((1#1 ++ unc) ++ off)) :=
  congrArg Host.Outcome.next (if_neg h)

theorem skewMeasurement_die {i : BitVec 6} (off : BitVec 48) (unc : BitVec 15) (h0 : 0 < i.toNat) (h4 : i.toNat < 4) :
    exec (.skewMeasurement false i off unc) s = .next (s.setReg (0x0080 + 8 * i.toNat) ((1#1 ++ unc) ++ off)) :=
  congrArg Host.Outcome.next (if_neg (by omega))

end

/-- Settles O58, by the rule of each event. -/
theorem thermalEvents : Obligations.ThermalEvents := by
  unfold Obligations.ThermalEvents
  intro s
  refine ⟨fun i v => ?_, fun temp l => thermalThrottle_lowers, fun temp h => ⟨_, thermalLimitRelease_releases h, fun i hi => ?_⟩,
    fun temp => thermalTrip_latches, fun i off unc => ⟨skewMeasurement_package off unc, skewMeasurement_die off unc⟩⟩
  · intro t r
    refine ⟨islandWrite_busy, fun h => islandWrite_idle h rfl rfl, fun h hn => ?_⟩
    intro cur tgt
    exact frequencyChangeEnd_ends h hn rfl rfl
  · intro r tgt
    rw [releaseIslands_reg, if_pos hi, State.setTemp, State.setReg_reg_other _ (by omega)]
    rfl

end Sys2Proof.Machine
end

