-- ==== Sys2Proof/Proofs/PortEvents.lean ====
section
/-!
Obton ports: flits, replay requests, training, and the loss of a package.
-/

namespace Sys2Proof.Machine

/-! ## Flits (R381, R382) -/

section
variable {s : State} {port : BitVec 6} {bs : List Byte}

theorem checkFlit_bad {p : Nat} {good : State → State} (hc : s.portCarries p = true) (hg : flitGood bs = false) :
    s.checkFlit p bs good = s.askReplay p := by
  rw [State.checkFlit, hc, hg]
  rfl

theorem checkFlit_good {p : Nat} {good : State → State} (hc : s.portCarries p = true) (hg : flitGood bs = true) :
    s.checkFlit p bs good = good s := by
  rw [State.checkFlit, hc, hg]
  rfl

theorem flitData_bad (hc : s.portCarries port.toNat = true) (hg : flitGood bs = false) :
    exec (.flitData port bs) s = .next (s.askReplay port.toNat) := by
  have hexec : exec (.flitData port bs) s = execFlitData port bs s := rfl
  rw [hexec, execFlitData, hc, hg]
  rfl

theorem flitData_unexpected (hc : s.portCarries port.toNat = true) (hg : flitGood bs = true) (hk : flitKind bs = 0)
    (hs : flitSeq bs ≠ (s.port port.toNat).expect) : exec (.flitData port bs) s = .next (s.askReplay port.toNat) := by
  have hexec : exec (.flitData port bs) s = execFlitData port bs s := rfl
  rw [hexec, execFlitData]
  simp only [hc, hg, hk, hs, Bool.not_true, Bool.false_eq_true, ne_eq, not_true_eq_false, not_false_eq_true, if_false, if_true]

/-- The port as it has received a data flit in sequence. -/
def ObPort.receive (x : ObPort) (bs : List Byte) : ObPort :=
  { x with
    expect := x.expect + 1
    delivered := x.delivered.insert (flitVc bs) (SMap.get [] x.delivered (flitVc bs) ++ (bs.drop 4).take 248) }

/-- A data flit in sequence is delivered and acknowledged. -/
def State.deliver (s : State) (p : Nat) (bs : List Byte) : State :=
  (s.modPort p fun x => x.receive bs).sendFlit p (controlFlit 2 ((s.port p).expect + 1))

theorem State.modPort_port (s : State) (p : Nat) (f : ObPort → ObPort) : (s.modPort p f).port p = f (s.port p) := by
  rw [State.port, State.modPort, SMap.find?_insert_same, Option.getD_some]

theorem deliver_port (s : State) (p : Nat) (bs : List Byte) : (s.deliver p bs).port p = (s.port p).receive bs :=
  s.modPort_port p fun x => x.receive bs

theorem receive_delivered (x : ObPort) (bs : List Byte) : SMap.get [] (x.receive bs).delivered (flitVc bs) =
    SMap.get [] x.delivered (flitVc bs) ++ (bs.drop 4).take 248 := by
  rw [SMap.get, ObPort.receive, SMap.find?_insert_same, Option.getD_some]

theorem flitData_delivers (hc : s.portCarries port.toNat = true) (hg : flitGood bs = true) (hk : flitKind bs = 0)
    (hs : flitSeq bs = (s.port port.toNat).expect) : exec (.flitData port bs) s = .next (if flitVc bs = 3
      then (s.deliver port.toNat bs).hearKill (SMap.get [] ((s.deliver port.toNat bs).port port.toNat).delivered 3)
      else s.deliver port.toNat bs) := by
  have hexec : exec (.flitData port bs) s = execFlitData port bs s := rfl
  rw [hexec, execFlitData]
  simp only [hc, hg, hk, hs, Bool.not_true, Bool.false_eq_true, ne_eq, not_true_eq_false, if_false]
  rfl

theorem flitIdle_good (hc : s.portCarries port.toNat = true) (hg : flitGood bs = true) (hk : flitKind bs = 1) :
    exec (.flitIdle port bs) s =
      .next (if flitSeq bs = (s.port port.toNat).expect then s else s.askReplay port.toNat) := by
  refine congrArg Host.Outcome.next ((checkFlit_good hc hg).trans ?_)
  simp only [hk, true_and, ne_eq, ite_not]

theorem flitAcknowledge_good (hc : s.portCarries port.toNat = true) (hg : flitGood bs = true) (hk : flitKind bs = 2) :
    exec (.flitAcknowledge port bs) s = .next (s.freeFlits port.toNat (flitSeq bs)).pump :=
  congrArg Host.Outcome.next ((checkFlit_good hc hg).trans (if_pos hk))

/-- A port sends all its kept flits again. -/
def State.sendAgain (s : State) (p : Nat) : State :=
  { s with
    outbox := s.outbox ++ (s.port p).unacked.map fun f => .flit p f }

theorem foldl_sendFlit (s : State) (p : Nat) (fs : List (List Byte)) : fs.foldl (fun s f => s.sendFlit p f) s = { s with
    outbox := s.outbox ++ fs.map fun f => .flit p f } := by
  induction fs generalizing s with
  | nil => rw [List.map_nil, List.append_nil]; rfl
  | cons f fs ih => rw [List.foldl_cons, ih, State.sendFlit, List.map_cons, List.append_assoc]; rfl

theorem sendAgain_eq (s : State) (p : Nat) : (s.port p).unacked.foldl (fun s f => s.sendFlit p f) s = s.sendAgain p :=
  foldl_sendFlit s p _

theorem flitReplayRequest_good (hc : s.portCarries port.toNat = true) (hg : flitGood bs = true) (hk : flitKind bs = 3) :
    exec (.flitReplayRequest port bs) s =
      .next (((s.freeFlits port.toNat (flitSeq bs)).countReplay port.toNat).sendAgain port.toNat).pump := by
  refine congrArg Host.Outcome.next ((checkFlit_good hc hg).trans ((if_pos hk).trans ?_))
  exact congrArg State.pump (sendAgain_eq _ _)

end

/-! ## Training (R497, R498) -/

section
variable {s : State} {port : BitVec 6}

theorem portRetrain_trains (h2 : s.portState port.toNat = 2) (hr : 1024 < (s.port port.toNat).replays.length) :
    exec (.portRetrain port) s = .next (((s.setPort port.toNat 1 0 (s.portPeer port.toNat)).modPort port.toNat
      fun x => { x with replays := [] }).movePaths (s.portPeer port.toNat)) :=
  if_pos ⟨h2, hr⟩

theorem countReplay_replays (s : State) (p : Nat) : ((s.countReplay p).port p).replays =
    (s.port p).replays.filter (fun t => decide ((s.counter 0).toNat < t + 600000)) ++ [(s.counter 0).toNat] := by
  have hkeep (t : State) (ht : t = if fieldOf (s.reg (portReg p)) 0 48 = 2 ^ 48 - 1 then s
      else s.setReg (portReg p) (s.reg (portReg p) + 1)) : t.port p = s.port p ∧ t.counter 0 = s.counter 0 := by
    rw [ht]
    split <;> exact ⟨rfl, rfl⟩
  obtain ⟨hport, hcount⟩ := hkeep _ rfl
  rw [State.countReplay, State.modPort_port, hport, hcount]

theorem portTrainingEnd_up {lanes : BitVec 3} {peer : BitVec 6} (hp : port.toNat < 36) (h2 : s.portState port.toNat ≠ 2)
    (hr : s.recovery = false) (hh : s.halted = false) (hl : lanes ≠ 0) {t : State}
    (ht : t = s.setPort port.toNat 2 (if 4 ≤ lanes.toNat then 4 else if 2 ≤ lanes.toNat then 2 else 1) peer) :
    exec (.portTrainingEnd port lanes peer) s =
      .next (if t.portLoops port.toNat then t else ((t.sendAgain port.toNat).movePaths peer).pump) := by
  have hexec : exec (.portTrainingEnd port lanes peer) s = execPortTrainingEnd port lanes peer s := rfl
  have hpos : 0 < lanes.toNat := Nat.pos_of_ne_zero fun h => hl (BitVec.eq_of_toNat_eq h)
  have huse : (if 4 ≤ lanes.toNat then 4 else if 2 ≤ lanes.toNat then 2 else lanes.toNat) =
      if 4 ≤ lanes.toNat then 4 else if 2 ≤ lanes.toNat then 2 else 1 := by
    split
    · rfl
    · split
      · rfl
      · omega
  rw [hexec, execPortTrainingEnd]
  simp only [Nat.not_le.mpr hp, h2, hr, hh, huse, Bool.false_eq_true, or_self, if_false, sendAgain_eq]
  rw [← ht, if_neg (by split <;> [skip; split] <;> omega)]

theorem portTrainingEnd_down {peer : BitVec 6} (hp : port.toNat < 36) (h2 : s.portState port.toNat ≠ 2)
    (hr : s.recovery = false) (hh : s.halted = false) : exec (.portTrainingEnd port 0 peer) s =
      .next ((s.setPort port.toNat 0 0 (s.portPeer port.toNat)).movePaths (s.portPeer port.toNat)) := by
  have hexec : exec (.portTrainingEnd port 0 peer) s = execPortTrainingEnd port 0 peer s := rfl
  rw [hexec, execPortTrainingEnd]
  simp only [Nat.not_le.mpr hp, h2, hr, hh, Bool.false_eq_true, or_self, if_false]
  rfl

theorem packageLoss_loses {pkg : BitVec 6} (h : ∀ q < 36, s.portState q ≠ 2 ∨ s.portPeer q ≠ pkg ∨ s.portLoops q = true) :
    exec (.packageLoss pkg) s = .next (s.losePackage pkg) := by
  refine if_neg fun hany => ?_
  rw [List.any_eq_true] at hany
  obtain ⟨q, hq, hall⟩ := hany
  simp only [Bool.and_eq_true, beq_iff_eq, Bool.not_eq_true'] at hall
  obtain ⟨⟨h2, hloop⟩, hpeer⟩ := hall
  obtain h' | h' | h' := h q (List.mem_range.mp hq)
  · exact h' h2
  · exact h' hpeer
  · exact Bool.false_ne_true (hloop.symm.trans h')

end

/-- Settles O59, by the rule of each event. -/
theorem portEvents : Obligations.PortEvents := by
  unfold Obligations.PortEvents
  intro s port bs p x replay again
  refine ⟨fun hc hg => ?_, flitIdle_good, flitData_unexpected, fun hc hg hk hs => ?_, flitAcknowledge_good, flitReplayRequest_good,
    portRetrain_trains, countReplay_replays s p, fun lanes peer hp h2 hr hh => ?_, fun pkg => packageLoss_loses, fun pkg => rfl⟩
  · exact ⟨flitData_bad hc hg, congrArg Host.Outcome.next (checkFlit_bad hc hg), congrArg Host.Outcome.next (checkFlit_bad hc hg),
      congrArg Host.Outcome.next (checkFlit_bad hc hg)⟩
  · refine ⟨s.deliver p bs, ?_, ?_, rfl, rfl, rfl, flitData_delivers hc hg hk hs⟩
    · rw [deliver_port]
      rfl
    · rw [deliver_port, receive_delivered]
  · intro t
    exact ⟨fun hl => portTrainingEnd_up hp h2 hr hh hl rfl, portTrainingEnd_down hp h2 hr hh⟩

end Sys2Proof.Machine
end

