-- ==== Sys2Proof/Proofs/TransportEvents.lean ====
section
/-!
The scale-out transport: doorbells, work requests, received frames, and the link.
-/

namespace Sys2Proof.Machine

/-! ## Connections (R378, R386, R387) -/

section
variable {s : State} {die : BitVec 2} {c : BitVec 10} {d : ConnDesc}

/-- The BAR2 offset of a connection's doorbell. -/
def connBellOf (die : BitVec 2) (c : BitVec 10) : BitVec 26 := BitVec.ofNat 26 (0x2000000 + 0x400000 * die.toNat + 0x1000 * c.toNat)

theorem connBell_page (die : BitVec 2) (c : BitVec 10) : connBell (connBellOf die c).toNat = some (die.toNat, c.toNat) := by
  have hd := die.isLt
  have hc := c.isLt
  rw [connBellOf, BitVec.toNat_ofNat, Nat.mod_eq_of_lt (by omega), connBell, if_pos (by omega)]
  exact congrArg some (Prod.ext (by dsimp only; omega) (by dsimp only; omega))

theorem transportDoorbell_bell (hd : s.connDesc die.toNat c.toNat = some d) (bytes : Nat) (v : DWord) :
    exec (.transportDoorbell (connBellOf die c) bytes v) s =
      if bytes ≠ 8 ∨ (if v.getLsbD 63 then d.recv.entries else d.send.entries) < (v.toNat % 2 ^ 63 + 2 ^ 63 -
          if v.getLsbD 63 then (s.conn die.toNat c.toNat).recvCons.toNat else (s.conn die.toNat c.toNat).sendCons.toNat) % 2 ^ 63
      then .next s
      else .next (s.modConn die.toNat c.toNat fun x => if v.getLsbD 63 then { x with recvProd := BitVec.ofNat 64 (v.toNat % 2 ^ 63) }
        else { x with sendProd := BitVec.ofNat 64 (v.toNat % 2 ^ 63) }) := by
  have hexec (off : BitVec 26) : exec (.transportDoorbell off bytes v) s = execTransportDoorbell off bytes v s := rfl
  rw [hexec, execTransportDoorbell, connBell_page, Option.bind_some, hd, Option.map_some]

theorem transportDoorbell_send {v : DWord} (hd : s.connDesc die.toNat c.toNat = some d) (hv : v.getLsbD 63 = false)
    (hr : (v.toNat + 2 ^ 63 - (s.conn die.toNat c.toNat).sendCons.toNat) % 2 ^ 63 ≤ d.send.entries) :
    exec (.transportDoorbell (connBellOf die c) 8 v) s =
      .next (s.modConn die.toNat c.toNat fun x => { x with sendProd := BitVec.ofNat 64 (v.toNat % 2 ^ 63) }) := by
  have hlt : v.toNat % 2 ^ 63 = v.toNat := by
    rw [BitVec.getLsbD, Nat.testBit_eq_decide_div_mod_eq, decide_eq_false_iff_not] at hv
    have := v.isLt
    omega
  rw [transportDoorbell_bell hd]
  simp only [hv, hlt, Bool.false_eq_true, if_false, ne_eq, not_true_eq_false, false_or, Nat.not_lt.mpr hr]

theorem transportDoorbell_recv {v : DWord} (hd : s.connDesc die.toNat c.toNat = some d) (hv : v.getLsbD 63 = true)
    (hr : (v.toNat % 2 ^ 63 + 2 ^ 63 - (s.conn die.toNat c.toNat).recvCons.toNat) % 2 ^ 63 ≤ d.recv.entries) :
    exec (.transportDoorbell (connBellOf die c) 8 v) s =
      .next (s.modConn die.toNat c.toNat fun x => { x with recvProd := BitVec.ofNat 64 (v.toNat % 2 ^ 63) }) := by
  rw [transportDoorbell_bell hd]
  simp only [hv, if_true, ne_eq, not_true_eq_false, false_or, Nat.not_lt.mpr hr, if_false]

/-- The work request that stands next in a connection's send ring. -/
def State.nextWork (s : State) (die c : Nat) (d : ConnDesc) : WorkReq :=
  let x := s.conn die c
  let b := s.bytes (d.send.entryAt x.sendCons.toNat) 64
  { id := x.nextWork, ident := BitVec.ofNat 64 (numAt b 0 8), opcode := numAt b 8 1, fence := numAt b 9 1 % 2 == 1,
    length := numAt b 12 4, ref := BitVec.ofNat 64 (numAt b 16 8), remoteOff := BitVec.ofNat 64 (numAt b 24 8),
    remoteObj := BitVec.ofNat 32 (numAt b 32 4), moved := 0, status := none }

/-- The state in which a connection has taken a work request, its consumer count written. -/
def State.takeNext (s : State) (die c : Nat) (d : ConnDesc) (w : WorkReq) : State :=
  let cons := BitVec.ofNat 64 (((s.conn die c).sendCons.toNat + 1) % 2 ^ 63)
  (s.modConn die c fun x => { x with sendCons := cons, nextWork := x.nextWork + 1, work := x.work ++ [w] }).setWord64
    (d.send.base + 8) cons

theorem State.modConn_conn (s : State) (k n : Nat) (f : Conn → Conn) : (s.modConn k n f).conn k n = f (s.conn k n) := by
  rw [State.conn, State.modConn, SMap.find?_insert_same, Option.getD_some]

theorem takeNext_conn (s : State) (k n : Nat) (d : ConnDesc) (w : WorkReq) : (s.takeNext k n d w).conn k n =
    { s.conn k n with
      sendCons := BitVec.ofNat 64 (((s.conn k n).sendCons.toNat + 1) % 2 ^ 63)
      nextWork := (s.conn k n).nextWork + 1
      work := (s.conn k n).work ++ [w] } := by
  have hkeep (t : State) (a : Nat) (x : DWord) : (t.setWord64 a x).conn k n = t.conn k n :=
    congrArg (fun m : SMap Conn => (m.find? (1024 * k + n)).getD _) (State.setBytes_keeps (fun t => t.conns) (fun t a x => by
      rw [State.setByte]
      split <;> rfl) t a _)
  rw [State.takeNext, hkeep, State.modConn_conn]

theorem takeWork_refused {k n op code : Nat} (hd : s.connDesc k n = some d) (hne : (s.conn k n).sendCons ≠ (s.conn k n).sendProd)
    (hwait : (s.conn k n).waiting = []) (hwork : (s.conn k n).work = []) (hop : (s.nextWork k n d).opcode = op)
    (hcheck : s.transportCheck d (s.nextWork k n d).ref (op == 2) (s.nextWork k n d).length = .error code) :
    s.takeWork k n op = (s.takeNext k n d (s.nextWork k n d)).endWork k n d (s.nextWork k n d).id 3 := by
  have hop' : numAt (s.bytes (d.send.entryAt (s.conn k n).sendCons.toNat) 64) 8 1 = op := hop
  have hcheck' : s.transportCheck d (BitVec.ofNat 64 (numAt (s.bytes (d.send.entryAt (s.conn k n).sendCons.toNat) 64) 16 8)) (op == 2)
      (numAt (s.bytes (d.send.entryAt (s.conn k n).sendCons.toNat) 64) 12 4) = .error code := hcheck
  rw [State.takeWork]
  simp only [hd, hne, hwait, hwork, hop', hcheck', List.isEmpty_nil, Bool.not_true, Bool.and_false, Bool.false_eq_true, or_self, if_false,
    ne_eq, not_true_eq_false, false_and]
  simp only [State.takeNext, State.nextWork, hop']

theorem workRequest_taken {p : Instr × Nat} (hp : p ∈ [(Instr.wrWrite die c, 1), (.wrRead die c, 2), (.wrSend die c, 4)]) :
    exec p.1 s = .next (s.takeWork die.toNat c.toNat p.2) := by
  simp only [List.mem_cons, List.not_mem_nil, or_false] at hp
  rcases hp with rfl | rfl | rfl <;> rfl

theorem transportRetransmit_resends (hd : s.connDesc die.toNat c.toNat = some d) :
    exec (.transportRetransmit die c) s = .next (s.resend die.toNat c.toNat d) := by
  have hexec : exec (.transportRetransmit die c) s = execTransportRetransmit die c s := rfl
  rw [hexec, execTransportRetransmit, hd]

theorem completionRecordWrite_writes {r : List Byte} {rest : List (List Byte)} (hd : s.connDesc die.toNat c.toNat = some d)
    (hw : (s.conn die.toNat c.toNat).waiting = r :: rest) (hr : s.ringFull d.cmpl = false) :
    exec (.completionRecordWrite die c) s = .next (((s.modConn die.toNat c.toNat fun x =>
      { x with waiting := rest }).writeBackRemote die.toNat).ringWrite d.cmpl r) := by
  have hexec : exec (.completionRecordWrite die c) s = execCompletionRecordWrite die c s := rfl
  rw [hexec, execCompletionRecordWrite]
  simp only [hd, hw, hr, Bool.false_eq_true, if_false]

end

/-! ## Received frames (R388, R389) -/

section
variable {s : State} {k : Nat} {bs : List Byte} {d : ConnDesc}

theorem receive_framed {op : Nat} {act : ConnDesc → Frame → State → State} (h : s.framed k op bs d) : s.receive k op bs act =
    act d (readFrame bs) (if op < 5 then s.acknowledge k (readFrame bs).conn d (readFrame bs).ack else s) := by
  obtain ⟨hup, hgood, hop, hconn, hd⟩ := h
  rw [State.receive]
  simp only [hup, hgood, hop, Nat.not_le.mpr hconn, hd, Bool.not_true, Bool.false_eq_true, ne_eq, not_true_eq_false, or_self, if_false]

/-- The bytes of an object that the transport reaches have been noted for the use order. -/
def State.reached (s : State) (dom index off n : Nat) : State := if n = 0 then s else s.touchRange dom index off n

/-- The transport's access to n bytes of an object waits for nothing. -/
def State.reachable (s : State) (dom index : Nat) (e : ObjEntry) (off n : Nat) : Prop :=
  n = 0 ∨ s.converting e = false ∧ s.missing dom index e off n = []

theorem reached_conn (s : State) (dom index off n k m : Nat) : (s.reached dom index off n).conn k m = s.conn k m := by
  rw [State.reached]
  split
  · rfl
  · exact congrArg (fun m' : SMap Conn => (m'.find? (1024 * k + m)).getD _)
      (foldl_keeps (fun t : State => t.conns) (fun s g => s.touch dom index g) _ (fun _ _ _ => rfl) s)

theorem transportReach_reachable {dom index off n : Nat} {e : ObjEntry} {wait go : State → State}
    (h : s.reachable dom index e off n) : s.transportReach k dom index e off n wait go = go (s.reached dom index off n) := by
  rw [State.transportReach, State.reached]
  obtain rfl | ⟨hc, hm⟩ := h
  · rw [if_pos rfl, if_pos rfl]
  · by_cases hn : n = 0
    · rw [if_pos hn, if_pos hn]
    · rw [if_neg hn, if_neg hn, hc, hm]
      rfl

/-- The state after a frame in sequence with effect t: the next is expected, and the frame acknowledged. -/
def State.passed (t : State) (k n : Nat) (d : ConnDesc) : State :=
  (t.modConn k n fun x => { x with expect := x.expect + 1 }).answer k n 5 d false

theorem inSequence_next {f : Frame} {act : State → Option State} {t : State} (h : f.psn = (s.conn k f.conn).expect)
    (ha : act s = some t) : s.inSequence k d f act = t.passed k f.conn d := by
  rw [State.inSequence]
  simp only [h, ha, if_true]
  rfl

theorem remote_refused {f : Frame} {write : Bool} {go : ObjEntry → State → State} {code : Nat}
    (h : f.psn = (s.conn k f.conn).expect) (hc : s.transportCheck d f.ref write f.len = .error code) :
    s.remote k d f write go = s.answer k f.conn 6 d true := by
  rw [State.remote]
  simp only [h, hc, ne_eq, not_true_eq_false, if_false]

theorem remote_passed {f : Frame} {write : Bool} {go : ObjEntry → State → State} {e : ObjEntry}
    (h : f.psn = (s.conn k f.conn).expect) (hc : s.transportCheck d f.ref write f.len = .ok e) (hoff : f.off < 2 ^ 42)
    (hobj : f.obj < 2 ^ 18) (hr : s.reachable d.dom f.obj e f.off f.len) :
    s.remote k d f write go = (go e (s.reached d.dom f.obj f.off f.len)).passed k f.conn d := by
  rw [State.remote]
  simp only [hc, h.symm, Nat.not_le.mpr hoff, Nat.not_le.mpr hobj, ne_eq, not_true_eq_false, or_self, if_false]
  rw [transportReach_reachable hr]
  exact inSequence_next (by rw [reached_conn]; exact h) rfl

end

section
variable {s s0 : State} {die : BitVec 2} {bs : List Byte} {d : ConnDesc} {f : Frame}

theorem frameWrite_head (h : s.framed die.toNat 1 bs d) (hf : f = readFrame bs) (h0 : s0 = s.acknowledge die.toNat f.conn d f.ack)
    (hl : f.len = f.payload.length) : exec (.frameWrite die bs) s = .next (s0.remote die.toNat d f true fun e s =>
      s.transportWrite die.toNat d.dom e f.off f.payload) := by
  subst hf h0
  exact congrArg Host.Outcome.next ((receive_framed h).trans (if_neg (not_not.mpr hl)))

theorem frameReadRequest_head (h : s.framed die.toNat 2 bs d) (hf : f = readFrame bs)
    (h0 : s0 = s.acknowledge die.toNat f.conn d f.ack) : exec (.frameReadRequest die bs) s =
      .next (s0.remote die.toNat d f false fun e s => s.postAll die.toNat f.conn 3 d (BitVec.ofNat 64 f.off) (BitVec.ofNat 32 f.obj)
        (s.transportRead die.toNat d.dom e f.off f.len) none) := by
  subst hf h0
  exact congrArg Host.Outcome.next (receive_framed h)

theorem frameReadResponse_idle (h : s.framed die.toNat 3 bs d) (hf : f = readFrame bs)
    (h0 : s0 = s.acknowledge die.toNat f.conn d f.ack) (hs : f.psn = (s0.conn die.toNat f.conn).expect)
    (hw : ∀ w ∈ (s0.conn die.toNat f.conn).work, w.opcode ≠ 2) :
    exec (.frameReadResponse die bs) s = .next (s0.passed die.toNat f.conn d) := by
  subst hf h0
  have hnone : ((s.acknowledge die.toNat (readFrame bs).conn d (readFrame bs).ack).conn die.toNat (readFrame bs).conn).work.find?
      (fun w => w.opcode == 2 && w.status.isNone) = none :=
    List.find?_eq_none.mpr fun w hw' h => hw w hw' (beq_iff_eq.mp (Bool.and_eq_true_iff.mp h).1)
  refine congrArg Host.Outcome.next ((receive_framed h).trans ?_)
  simp only [show (3 : Nat) < 5 by decide, if_true, hnone]
  exact inSequence_next hs rfl

theorem frameReadResponse_places {w : WorkReq} {rest : List WorkReq} {e : ObjEntry} (h : s.framed die.toNat 3 bs d) (hf : f = readFrame bs)
    (h0 : s0 = s.acknowledge die.toNat f.conn d f.ack) (hs : f.psn = (s0.conn die.toNat f.conn).expect)
    (hw : (s0.conn die.toNat f.conn).work = w :: rest) (hop : w.opcode = 2) (hst : w.status = none)
    (hc : s0.transportCheck d w.ref true w.length = .ok e) (hl : f.last = false) {data : List Byte} {off : Nat} {t : State}
    (hdata : data = f.payload.take (w.length - w.moved)) (hoff : off = refOffset w.ref + w.moved)
    (hr : s0.reachable d.dom (refIndex w.ref) e off data.length) (ht : t = s0.reached d.dom (refIndex w.ref) off data.length) :
    exec (.frameReadResponse die bs) s = .next (((t.transportWrite die.toNat d.dom e off data).modConn die.toNat f.conn
      fun x => { x with work := x.work.map fun y => if y.id = w.id then { y with moved := y.moved + data.length } else y }).passed
        die.toNat f.conn d) := by
  have hfind : (s0.conn die.toNat f.conn).work.find? (fun w => w.opcode == 2 && w.status.isNone) = some w := by
    rw [hw]
    exact List.find?_cons_of_pos (by rw [hop, hst]; rfl)
  refine congrArg Host.Outcome.next ((receive_framed h).trans ?_)
  simp only [show (3 : Nat) < 5 by decide, if_true]
  rw [← hf, ← h0, hfind]
  simp only [hc, ← hs, ne_eq, not_true_eq_false, if_false]
  rw [← hdata, ← hoff, transportReach_reachable hr, ← ht]
  refine inSequence_next (by rw [ht, reached_conn]; exact hs) ?_
  rw [if_neg (ne_true_of_eq_false hl)]

theorem frameSend_none (h : s.framed die.toNat 4 bs d) (hf : f = readFrame bs)
    (h0 : s0 = s.acknowledge die.toNat f.conn d f.ack) (hs : f.psn = (s0.conn die.toNat f.conn).expect)
    (hr : (s0.conn die.toNat f.conn).recv = none) (hw : (s0.conn die.toNat f.conn).waiting ≠ []) :
    exec (.frameSend die bs) s = .next (s0.answer die.toNat f.conn 6 d false) := by
  have hwait : (s0.conn die.toNat f.conn).waiting.isEmpty = false := List.isEmpty_eq_false_iff.mpr hw
  refine congrArg Host.Outcome.next ((receive_framed h).trans ?_)
  simp only [show (4 : Nat) < 5 by decide, if_true]
  rw [← hf, ← h0]
  simp only [hr, hwait, ← hs, ne_eq, not_true_eq_false, if_false, Bool.not_false, if_true]

theorem frameSend_places {ident sref : DWord} {len placed seen : Nat} {e : ObjEntry} (h : s.framed die.toNat 4 bs d) (hf : f = readFrame bs)
    (h0 : s0 = s.acknowledge die.toNat f.conn d f.ack) (hs : f.psn = (s0.conn die.toNat f.conn).expect)
    (hrecv : (s0.conn die.toNat f.conn).recv = some (ident, sref, len, placed, seen))
    (hc : s0.transportCheck d sref true len = .ok e) (hl : f.last = false) {data : List Byte} {off : Nat} {t : State}
    (hdata : data = f.payload.take (len - placed)) (hoff : off = refOffset sref + placed)
    (hr : s0.reachable d.dom (refIndex sref) e off data.length) (ht : t = s0.reached d.dom (refIndex sref) off data.length) :
    exec (.frameSend die bs) s = .next (((t.transportWrite die.toNat d.dom e off data).modConn die.toNat f.conn
      fun x => { x with recv := some (ident, sref, len, placed + data.length, seen + f.payload.length) }).passed die.toNat f.conn d) := by
  refine congrArg Host.Outcome.next ((receive_framed h).trans ?_)
  simp only [show (4 : Nat) < 5 by decide, if_true]
  rw [← hf, ← h0]
  simp only [hrecv, hc, ← hs, ne_eq, not_true_eq_false, if_false]
  rw [← hdata, ← hoff, transportReach_reachable hr, ← ht]
  refine inSequence_next (by rw [ht, reached_conn]; exact hs) ?_
  rw [if_neg (ne_true_of_eq_false hl)]

theorem frameAck_acknowledges (h : s.framed die.toNat 5 bs d) (hf : f = readFrame bs) :
    exec (.frameAck die bs) s = .next (s.acknowledge die.toNat f.conn d f.ack) := by
  subst hf
  exact congrArg Host.Outcome.next (receive_framed h)

theorem frameNak_resends (h : s.framed die.toNat 6 bs d) (hf : f = readFrame bs)
    (h0 : s0 = s.acknowledge die.toNat f.conn d f.ack) (hl : f.last = false) (hu : (s0.conn die.toNat f.conn).unacked ≠ []) :
    exec (.frameNak die bs) s = .next (s0.resendFrom die.toNat f.conn d) := by
  obtain ⟨g, rest, hg⟩ := List.exists_cons_of_ne_nil hu
  refine congrArg Host.Outcome.next ((receive_framed h).trans ?_)
  simp only [show ¬(6 : Nat) < 5 by decide, if_false]
  rw [← hf, ← h0, hg]
  exact if_neg (ne_true_of_eq_false hl)

theorem frameNak_fails {g : TxFrame} {rest : List TxFrame} {id : Nat} (h : s.framed die.toNat 6 bs d) (hf : f = readFrame bs)
    (h0 : s0 = s.acknowledge die.toNat f.conn d f.ack) (hl : f.last = true) (hu : (s0.conn die.toNat f.conn).unacked = g :: rest)
    (hid : g.wr = some id) {t : State} (ht : t = s0.modConn die.toNat f.conn fun x => x.giveUp g) :
    exec (.frameNak die bs) s = .next (((t.conn die.toNat f.conn).unacked.foldl (fun s y =>
      s.sendFrame die.toNat d y.bytes) t).endWork die.toNat f.conn d id 1) := by
  refine congrArg Host.Outcome.next ((receive_framed h).trans ?_)
  simp only [show ¬(6 : Nat) < 5 by decide, if_false]
  rw [← hf, ← h0, hu]
  dsimp only
  rw [if_pos hl, hid, ← ht]

theorem ethernetLinkChange_shows (s : State) (die : BitVec 2) (up : Bool) :
    ∃ t, exec (.ethernetLinkChange die up) s = .next t ∧ t.linkUp die.toNat = up ∧ t.outbox = s.outbox := by
  refine ⟨_, rfl, ?_, rfl⟩
  rw [State.linkUp, State.setReg_reg]
  cases up with
  | true => rw [if_pos rfl, BitVec.getLsbD_or]; rfl
  | false => rw [if_neg Bool.false_ne_true, BitVec.getLsbD_and]; exact Bool.and_false _

end

/-- Settles O60, by the rule of each event. -/
theorem transportEvents : Obligations.TransportEvents := by
  unfold Obligations.TransportEvents
  refine ⟨fun s die c d hd => ?_, fun s die bs d => ?_⟩
  · intro k n x bell
    refine ⟨fun bytes v hb => ?_, fun v hv hr => transportDoorbell_send hd hv hr, fun v hv hr => transportDoorbell_recv hd hv hr,
      fun p hp => ?_, transportRetransmit_resends hd, fun r rest => completionRecordWrite_writes hd⟩
    · exact (transportDoorbell_bell hd bytes v).trans (if_pos (.inl hb))
    · intro b ref len
      have hexec : exec p.1 s = .next (s.takeWork k n p.2) := workRequest_taken hp
      refine ⟨hexec, fun hne hwait hwork hop ⟨code, hc⟩ => ⟨s.nextWork k n d, s.takeNext k n d (s.nextWork k n d), hop, rfl, ?_, ?_,
        hexec.trans (congrArg Host.Outcome.next (takeWork_refused hd hne hwait hwork hop hc))⟩⟩
      · rw [takeNext_conn]
      · rw [takeNext_conn, hwork]
        rfl
  · intro k f s0 x passed ref touched reaches
    exact ⟨fun code h hs hl hc => (frameWrite_head h rfl rfl hl).trans (congrArg Host.Outcome.next (remote_refused hs hc)),
      fun e h hs hl hc hoff hobj hr => (frameWrite_head h rfl rfl hl).trans (congrArg Host.Outcome.next (remote_passed hs hc hoff hobj hr)),
      fun e h hs hc hoff hobj hr => (frameReadRequest_head h rfl rfl).trans (congrArg Host.Outcome.next (remote_passed hs hc hoff hobj hr)),
      fun h hs hw => frameReadResponse_idle h rfl rfl hs hw,
      fun w e rest h hs hw hop hst hc hl hr => frameReadResponse_places h rfl rfl hs hw hop hst hc hl rfl rfl hr rfl,
      fun h hs hr hw => frameSend_none h rfl rfl hs hr hw,
      fun ident sref len placed seen e h hs hrecv hc hl hr => frameSend_places h rfl rfl hs hrecv hc hl rfl rfl hr rfl,
      fun h => frameAck_acknowledges h rfl, fun h hl hu => frameNak_resends h rfl rfl hl hu,
      fun g rest id h hl hu hid => frameNak_fails h rfl rfl hl hu hid rfl, ethernetLinkChange_shows s die⟩

end Sys2Proof.Machine
end

