-- ==== Sys2Proof/Proofs/SamplerIssue.lean ====
section
/-!
The sampler's instructions: what they do with the headers and images that they have read.
-/

namespace Sys2Proof.Machine

/-! ## Jobs (R276, R286, R287) -/

section
variable {s s1 : State} {e : Env} {f : GFmt} {hs : List LaneHdr}

/-- The state in which a sampler instruction has noted its accesses and headers, and reserved its draws. -/
def Env.jobsReady (e : Env) (draws : Bool) (s : State) (js : List SampleJob) : State :=
  let t := e.noteHeaders (s.fillObjects e.core (js.flatMap fun j => j.accs e.wave.dom)) (js.map fun j => j.ref)
  if draws then e.reserve 1 t else t

theorem sampleAct_writes {i : Instr} {js : List SampleJob} {n : Nat} {draws : Bool} (hn : n = if draws then 1 else 0)
    (hf : e.mustFollow s 0 (js.flatMap fun j => j.accs e.wave.dom) = none) {r : JobRes}
    (hr : r = runJobs e.who e.wave.dom i (e.jobsReady draws s js) js) (hleft : r.left = []) (hlate : r.late = []) :
    e.sampleAct i s n js = .writes r.s r.ws .none := by
  have hready : (if n = 0 then e.noteHeaders (s.fillObjects e.core (js.flatMap fun j => j.accs e.wave.dom)) (js.map fun j => j.ref)
      else e.reserve n (e.noteHeaders (s.fillObjects e.core (js.flatMap fun j => j.accs e.wave.dom)) (js.map fun j => j.ref))) =
      e.jobsReady draws s js := by
    subst hn
    cases draws <;> rfl
  rw [Env.sampleAct, hf]
  simp only [hready, ← hr, hleft, hlate, List.isEmpty_nil, Bool.and_self, if_true]

theorem sample_runs (hi : s.Issues e (.sample f)) (h1 : s1 = e.sampleReady s)
    (hh : e.headers s1 f.hdr (fun h => TexHdr.hkind h == 0) = .ok hs)
    (hf : e.mustFollow s1 0 ((hs.map (e.sampleJob f [])).flatMap fun j => j.accs e.wave.dom) = none) {r : JobRes}
    (hr : r = runJobs e.who e.wave.dom (.sample f) (e.jobsReady (f.ctl.getLsbD 3) s1 (hs.map (e.sampleJob f []))) (hs.map (e.sampleJob f [])))
    (hleft : r.left = []) (hlate : r.late = []) :
    exec (.sample f) s = .next (r.s.after e (.sample f) (e.result (.sample f) r.ws .none)) := by
  refine issue_writes (body := fun e s => _) hi rfl ?_
  subst h1
  simp only [hh]
  exact sampleAct_writes rfl hf hr hleft hlate

theorem gather_runs (hi : s.Issues e (.gather f)) (h1 : s1 = e.sampleReady s) (hh : e.headers s1 f.hdr (fun _ => true) = .ok hs)
    (hch : ∀ h ∈ hs, f.ctl.toNat % 64 < TexHdr.channels (TexHdr.fmt h.hdr) (TexHdr.ch h.hdr))
    (hf : e.mustFollow s1 0 ((hs.map (e.gatherJob f)).flatMap fun j => j.accs e.wave.dom) = none) {r : JobRes}
    (hr : r = runJobs e.who e.wave.dom (.gather f) (e.jobsReady false s1 (hs.map (e.gatherJob f))) (hs.map (e.gatherJob f)))
    (hleft : r.left = []) (hlate : r.late = []) :
    exec (.gather f) s = .next (r.s.after e (.gather f) (e.result (.gather f) r.ws .none)) := by
  have hchannel : (f.ctl.extractLsb' 0 6).toNat = f.ctl.toNat % 64 := by
    rw [BitVec.extractLsb'_toNat, Nat.shiftRight_zero]
  have hany : (hs.any fun h => decide (TexHdr.channels (TexHdr.fmt h.hdr) (TexHdr.ch h.hdr) ≤ f.ctl.toNat % 64)) = false := by
    rw [List.any_eq_false]
    exact fun h hm => by simpa using hch h hm
  refine issue_writes (body := fun e s => _) hi rfl ?_
  subst h1
  simp only [hh, hchannel, hany, Bool.false_eq_true, if_false]
  exact sampleAct_writes (draws := false) rfl hf hr hleft hlate

theorem sampleN_runs (hi : s.Issues e (.sampleN f)) (h1 : s1 = e.sampleReady s)
    (hh : e.headers s1 f.hdr (fun h => TexHdr.hkind h == 1) = .ok hs) {s2 : State} {images : List (LaneHdr × List Byte)}
    (hn : e.nets s1 hs = .ok s2 images) {js : List SampleJob} (hjs : js = images.map fun x => e.sampleJob f x.2 x.1)
    (hf : e.mustFollow s2 0 (js.flatMap fun j => j.accs e.wave.dom) = none) {r : JobRes}
    (hr : r = runJobs e.who e.wave.dom (.sampleN f) (e.jobsReady (f.ctl.getLsbD 3) s2 js) js)
    (hleft : r.left = []) (hlate : r.late = []) :
    exec (.sampleN f) s = .next (r.s.after e (.sampleN f) (e.result (.sampleN f) r.ws .none)) := by
  refine issue_writes (body := fun e s => _) hi rfl ?_
  subst h1
  simp only [hh, hn, ← hjs]
  exact sampleAct_writes rfl hf hr hleft hlate

/-- TEXQ writes what its selector asks, of the headers and of the images that selector 7 needs. -/
theorem texq_writes (hi : s.Issues e (.texq f)) (h1 : s1 = e.sampleReady s) (hh : e.headers s1 f.hdr (fun _ => true) = .ok hs)
    {neural : List LaneHdr} (hneural : neural = if f.ctl.toNat % 8 = 7 then hs.filter fun h => TexHdr.hkind h.hdr == 1 else [])
    {s2 : State} {images : List (LaneHdr × List Byte)} (hn : e.nets s1 neural = .ok s2 images) :
    exec (.texq f) s = .next ((e.noteHeaders (s2.fillRefs e.core e.dom (hs.map fun h => h.ref)) (hs.map fun h => h.ref)).after e (.texq f)
      (e.result (.texq f) (hs.flatMap fun h => writeTo .z32 f.dbase h.lane (BitVec.ofNat 64
        (texqValue h.hdr (f.ctl.toNat % 8) (if f.extra = .none then 0 else e.readZ f.extra h.lane)
          (((images.find? fun x => x.1.lane == h.lane).map fun x => x.2).getD [])))) .none)) := by
  have hsel : (f.ctl.extractLsb' 0 3).toNat = f.ctl.toNat % 8 := by
    rw [BitVec.extractLsb'_toNat, Nat.shiftRight_zero]
  refine issue_writes (body := fun e s => _) hi rfl ?_
  subst h1
  simp only [hh, hsel, ← hneural, hn]

theorem nets_nil (e : Env) (s : State) : e.nets s [] = .ok s [] := rfl

theorem texq_header (hi : s.Issues e (.texq f)) (h1 : s1 = e.sampleReady s) (hh : e.headers s1 f.hdr (fun _ => true) = .ok hs)
    (hsel : f.ctl.toNat % 8 ≠ 7) : exec (.texq f) s = .next ((e.noteHeaders (s1.fillRefs e.core e.dom (hs.map fun h => h.ref))
      (hs.map fun h => h.ref)).after e (.texq f) (e.result (.texq f) (hs.flatMap fun h => writeTo .z32 f.dbase h.lane (BitVec.ofNat 64
        (texqValue h.hdr (f.ctl.toNat % 8) (if f.extra = .none then 0 else e.readZ f.extra h.lane) []))) .none)) := by
  have h := texq_writes hi h1 hh (neural := []) (if_neg hsel).symm (nets_nil e s1)
  simp only [List.find?_nil, Option.map_none, Option.getD_none] at h
  exact h

theorem texq_image (hi : s.Issues e (.texq f)) (h1 : s1 = e.sampleReady s) (hh : e.headers s1 f.hdr (fun _ => true) = .ok hs)
    (hsel : f.ctl.toNat % 8 = 7) {s2 : State} {images : List (LaneHdr × List Byte)}
    (hn : e.nets s1 (hs.filter fun h => TexHdr.hkind h.hdr == 1) = .ok s2 images) :
    exec (.texq f) s = .next ((e.noteHeaders (s2.fillRefs e.core e.dom (hs.map fun h => h.ref)) (hs.map fun h => h.ref)).after e (.texq f)
      (e.result (.texq f) (hs.flatMap fun h => writeTo .z32 f.dbase h.lane (BitVec.ofNat 64
        (texqValue h.hdr 7 (if f.extra = .none then 0 else e.readZ f.extra h.lane)
          (((images.find? fun x => x.1.lane == h.lane).map fun x => x.2).getD [])))) .none)) := by
  have h := texq_writes hi h1 hh (if_pos hsel).symm hn
  rw [hsel] at h
  exact h

end

theorem samplerInstructions : Rules.SamplerInstructions := by
  unfold Rules.SamplerInstructions
  intro s e f hs s1 noted ran sel m
  refine ⟨fun hi hh => ?_, fun hi hh hch => ?_, fun s2 images hi hh hn => ?_, fun hi hh hsel => ?_, fun s2 images hi hh hsel hn => ?_⟩
  · intro hf hleft hlate
    exact sample_runs hi rfl hh hf rfl hleft hlate
  · intro hf hleft hlate
    exact gather_runs hi rfl hh hch hf rfl hleft hlate
  · intro hf hleft hlate
    exact sampleN_runs hi rfl hh hn rfl hf rfl hleft hlate
  · exact texq_header hi rfl hh hsel
  · exact texq_image hi rfl hh hsel hn

end Sys2Proof.Machine
end

