-- ==== Sys2Proof/Proofs/Filtering.lean ====
section
/-!
The sampler's filtering: sampling positions, weights, and the values of channels.
-/

namespace Sys2Proof.Machine

/-! ## Positions (R272) -/

/-- The nearest integer lies within half a unit, and a tie goes to the even one. -/
theorem rneShift_nearest (n : Int) (k : Nat) : 2 * (rneShift n k * 2 ^ k - n).natAbs ≤ 2 ^ k ∧
    (2 * (rneShift n k * 2 ^ k - n).natAbs = 2 ^ k → rneShift n k % 2 = 0) := by
  have hpos : (0 : Int) < 2 ^ k := by positivity
  have hdiv : n / 2 ^ k * 2 ^ k + n % 2 ^ k = n := Int.ediv_mul_add_emod n _
  have hlo : 0 ≤ n % 2 ^ k := Int.emod_nonneg n hpos.ne'
  have hhi : n % 2 ^ k < 2 ^ k := Int.emod_lt_of_pos n hpos
  have hcast : ((2 ^ k : Nat) : Int) = 2 ^ k := by push_cast; rfl
  rw [rneShift]
  generalize hf : n / 2 ^ k = f at *
  generalize hr : n % 2 ^ k = r at *
  generalize hp : (2 : Int) ^ k = p at *
  generalize (2 : Nat) ^ k = q at *
  have hnext : (f + 1) * p = f * p + p := by ring
  generalize hfp : f * p = fp at *
  split_ifs
  · rw [hfp]; omega
  · rw [hnext]; omega
  · rw [hfp]; omega
  · rw [hnext]; omega

theorem clamp32_inside {y : Int} (hlo : -(2 ^ 31) < clamp32 y) (hhi : clamp32 y < 2 ^ 31 - 1) : clamp32 y = y := by
  unfold clamp32 at *
  omega

/-- v × n × 256 − 128 as a sampling position, before the cut of an axis. -/
def samplePlace (neg : Bool) (m k n : Nat) : Int :=
  clamp32 (rneShift ((if neg then -(m : Int) else m) * (256 * n) - 128 * 2 ^ k) k)

theorem rneShift_zero (n : Int) : rneShift n 0 = n := by
  rw [rneShift]
  simp

theorem scaledRound_place (neg : Bool) (m k n : Nat) : scaledRound (.fin neg m (-(k : Int))) (256 * n) 128 = samplePlace neg m k n := by
  rw [scaledRound, samplePlace]
  rw [neg_neg, Int.toNat_natCast]
  obtain rfl | hk := Nat.eq_zero_or_pos k
  · rw [if_pos (by omega), rneShift_zero]
    simp
  · rw [if_neg (by omega)]

theorem axis_place (neg : Bool) (m k n : Nat) : (axis (.fin neg m (-(k : Int))) n).2 < 256 ∧
    256 * (axis (.fin neg m (-(k : Int))) n).1 + (axis (.fin neg m (-(k : Int))) n).2 = samplePlace neg m k n := by
  rw [axis, scaledRound_place]
  dsimp only
  omega

theorem axis_weight (v : FVal) (n : Nat) : (axis v n).2 < 256 := by
  rw [axis]
  dsimp only
  omega

/-! ## Weights (R272) -/

theorem footprint_sum (h : THeader) (m layer : Nat) (u v : FVal) : ((footprint h m layer u v).map fun x => x.2).sum = 65536 := by
  obtain ⟨gx, hx⟩ := Nat.exists_eq_add_of_le (axis_weight u (TexHdr.width h m)).le
  obtain ⟨gy, hy⟩ := Nat.exists_eq_add_of_le (axis_weight v (TexHdr.height h m)).le
  rw [footprint]
  generalize axis u (TexHdr.width h m) = a at *
  generalize axis v (TexHdr.height h m) = b at *
  obtain ⟨i, fx⟩ := a
  obtain ⟨j, fy⟩ := b
  dsimp only at *
  rw [Nat.sub_eq_of_eq_add' hx, Nat.sub_eq_of_eq_add' hy]
  simp only [List.map_cons, List.map_nil, List.sum_cons, List.sum_nil]
  calc gx * gy + (fx * gy + (gx * fy + (fx * fy + 0))) = (fx + gx) * (fy + gy) := by ring
    _ = 256 * 256 := by rw [← hx, ← hy]

theorem sum_filter_weights (l : List (Option Nat × Nat)) :
    ((l.filter fun x => x.2 != 0).map fun x => x.2).sum = (l.map fun x => x.2).sum := by
  induction l with
  | nil => rfl
  | cons x l ih =>
    by_cases hx : x.2 = 0
    · rw [List.filter_cons_of_neg (by simp [hx]), ih, List.map_cons, List.sum_cons, hx, Nat.zero_add]
    · rw [List.filter_cons_of_pos (by simpa using hx), List.map_cons, List.map_cons, List.sum_cons, List.sum_cons, ih]

theorem sum_scaled_weights (l : List (Option Nat × Nat)) (k : Nat) :
    ((l.map fun x => (x.1, x.2 * k)).map fun x => x.2).sum = (l.map fun x => x.2).sum * k := by
  rw [List.map_map, ← List.sum_map_mul_right]
  rfl

theorem filtered_sum (h : THeader) (l layer : Nat) (u v : FVal) :
    ((filtered h l layer u v).1.map fun x => x.2).sum = 2 ^ (filtered h l layer u v).2 := by
  rw [filtered]
  split
  · rfl
  · exact (sum_filter_weights _).trans (footprint_sum h _ layer u v)
  · dsimp only
    rw [sum_filter_weights, List.map_append, List.sum_append, sum_scaled_weights, sum_scaled_weights, footprint_sum, footprint_sum,
      ← Nat.mul_add, Nat.sub_add_cancel (by omega)]
    rfl

/-! ## Rounding at another exponent -/

theorem bitLen_mul_two_pow {m : Nat} (hm : m ≠ 0) (k : Nat) : bitLen (m * 2 ^ k) = bitLen m + k := by
  have hlog : (m * 2 ^ k).log2 = m.log2 + k := by
    induction k with
    | zero => rw [Nat.pow_zero, Nat.mul_one, Nat.add_zero]
    | succ k ih => rw [Nat.pow_succ, ← Nat.mul_assoc, Nat.mul_comm, Nat.log2_two_mul (by positivity), ih, Nat.add_assoc]
  rw [bitLen, if_neg (by positivity), bitLen, if_neg hm, hlog]
  omega

theorem quantum_shift (f : FFmt) (m k : Nat) (e : Int) : f.quantum ⟨m * 2 ^ k, e - k, false⟩ = f.quantum ⟨m, e, false⟩ := by
  rw [FFmt.quantum, FFmt.quantum]
  dsimp only
  by_cases hm : m = 0
  · rw [hm, Nat.zero_mul, if_pos rfl, if_pos rfl]
  · rw [if_neg (by positivity), if_neg hm, bitLen_mul_two_pow hm]
    congr 1
    omega

theorem roundsUp_rne_shift (neg : Bool) (n rem j k : Nat) :
    roundsUp .rne neg n (rem * 2 ^ k) (j + k) false = roundsUp .rne neg n rem j false := by
  have hpos : 0 < 2 ^ k := by positivity
  have hgt : 2 ^ j * 2 ^ k < 2 * (rem * 2 ^ k) ↔ 2 ^ j < 2 * rem := by
    rw [← Nat.mul_assoc]
    exact Nat.mul_lt_mul_right hpos
  have heq : 2 * (rem * 2 ^ k) = 2 ^ j * 2 ^ k ↔ 2 * rem = 2 ^ j := by
    rw [← Nat.mul_assoc]
    exact Nat.mul_left_inj hpos.ne'
  simp only [roundsUp, Nat.pow_add, gt_iff_lt, hgt, heq]

/-- A magnitude has one rounding whatever its exponent is written as. -/
theorem roundMag_shift (f : FFmt) (neg : Bool) (m k : Nat) (e : Int) :
    f.roundMag .rne neg ⟨m * 2 ^ k, e - k, false⟩ = f.roundMag .rne neg ⟨m, e, false⟩ := by
  rw [FFmt.roundMag, FFmt.roundMag, quantum_shift]
  generalize f.quantum ⟨m, e, false⟩ = q
  dsimp only
  by_cases hle : q ≤ e
  · rw [if_pos hle]
    by_cases hlek : q ≤ e - k
    · rw [if_pos hlek, Nat.mul_assoc, ← Nat.pow_add, show k + (e - k - q).toNat = (e - q).toNat by omega]
    · have hsplit : m * 2 ^ k = m * 2 ^ (e - q).toNat * 2 ^ (q - (e - k)).toNat := by
        rw [Nat.mul_assoc, ← Nat.pow_add, show (e - q).toNat + (q - (e - k)).toNat = k by omega]
      rw [if_neg hlek, hsplit, Nat.mul_mod_left, Nat.mul_div_cancel _ (by positivity)]
      rfl
  · have hj : (q - (e - k)).toNat = (q - e).toNat + k := by omega
    rw [if_neg hle, if_neg (by omega), hj, Nat.pow_add, Nat.mul_div_mul_right _ _ (by positivity), Nat.mul_mod_mul_right,
      roundsUp_rne_shift]
    have hzero : (m % 2 ^ (q - e).toNat * 2 ^ k = 0) = (m % 2 ^ (q - e).toNat = 0) := by
      rw [Nat.mul_eq_zero]
      exact propext (or_iff_left (by positivity))
    simp only [hzero]

theorem round_shift (f : FFmt) (neg : Bool) (m k : Nat) (e : Int) :
    f.round false .rne neg ⟨m * 2 ^ k, e - k, false⟩ = f.round false .rne neg ⟨m, e, false⟩ := by
  rw [FFmt.round, FFmt.round, roundMag_shift]

/-- A quotient by 1 is rounded as the magnitude itself. -/
theorem round_quot_one (f : FFmt) (neg : Bool) (m : Nat) (e : Int) :
    f.round false .rne neg (Mag.quot m e 1 0) = f.round false .rne neg ⟨m, e, false⟩ := by
  have hquot : Mag.quot m e 1 0 = ⟨m * 2 ^ (guardBits + bitLen 1), e - (guardBits + bitLen 1 : Nat), false⟩ := by
    rw [Mag.quot, Nat.div_one, Nat.mod_one, Int.sub_zero]
    rfl
  rw [hquot, round_shift]

/-! ## Sums at another exponent -/

theorem add_scale (a b : FVal) (k : Int) : (FVal.add false (a.scale k) (b.scale k)).1 = (FVal.add false a b).1.scale k := by
  cases a with
  | nan => rfl
  | inf s =>
    cases b with
    | nan => rfl
    | inf t => by_cases hst : s = t <;> simp [FVal.scale, FVal.add, hst]
    | fin t n y => rfl
  | fin s m x =>
    cases b with
    | nan => rfl
    | inf t => rfl
    | fin t n y =>
      have hq (z : Int) : z + k - min (x + k) (y + k) = z - min x y := by omega
      have hmin : min (x + k) (y + k) = min x y + k := by omega
      have hs : scaled s m (x + k) (min x y + k) = scaled s m x (min x y) := by rw [scaled, scaled, ← hmin, hq x]
      have ht : scaled t n (y + k) (min x y + k) = scaled t n y (min x y) := by rw [scaled, scaled, ← hmin, hq y]
      simp only [FVal.scale, FVal.add, hs, ht, hmin]
      by_cases hz : scaled s m x (min x y) + scaled t n y (min x y) = 0
      · simp only [hz, if_true]
      · simp only [hz, if_false]

theorem sum_scale {l : List FVal} (hl : l ≠ []) (k : Int) : FVal.sum false (l.map fun v => v.scale k) = (FVal.sum false l).scale k := by
  induction l with
  | nil => exact absurd rfl hl
  | cons t r ih =>
    cases r with
    | nil => rfl
    | cons u r =>
      have hrest := ih (List.cons_ne_nil u r)
      calc (FVal.add false (t.scale k) (FVal.sum false ((u :: r).map fun v => v.scale k))).1
          = (FVal.add false (t.scale k) ((FVal.sum false (u :: r)).scale k)).1 := by rw [hrest]
        _ = _ := add_scale t _ k

theorem scale_eq_inf (v : FVal) (k : Int) (s : Bool) : v.scale k = .inf s ↔ v = .inf s := by
  cases v <;> simp [FVal.scale]

theorem sumInvalid_scale (ts : List (FVal × Bool)) (k : Int) :
    FVal.sumInvalid (ts.map fun p => (p.1.scale k, p.2)) = FVal.sumInvalid ts := by
  simp only [FVal.sumInvalid, List.any_map, Function.comp_def, scale_eq_inf]

/-! ## Channels (R267, R272) -/

theorem natOfBytes_take_one (bs : List Byte) (c : Nat) : natOfBytes ((bs.drop c).take 1) = (bs.getD c 0).toNat := by
  induction c generalizing bs with
  | zero =>
    cases bs with
    | nil => rfl
    | cons b r => rfl
  | succ c ih =>
    cases bs with
    | nil => rfl
    | cons b r => exact ih r

/-- The bytes of a channel of the formats whose channels are all of one size. -/
theorem texelBytes_div {fmt ch c : Nat} (hc : c < TexHdr.channels fmt ch)
    (hf : fmt ∈ [0x01, 0x02, 0x03, 0x05, 0x06, 0x07, 0x08, 0x09, 0x0A, 0x10, 0x11]) :
    TexHdr.texelBytes fmt ch / max 1 (TexHdr.channels fmt ch) =
      if fmt ≤ 0x03 ∨ fmt = 0x10 then 1 else if 0x08 ≤ fmt ∧ fmt ≤ 0x0A then 4 else 2 := by
  simp only [List.mem_cons, List.not_mem_nil, or_false] at hf
  rcases hf with rfl | rfl | rfl | rfl | rfl | rfl | rfl | rfl | rfl | rfl | rfl
  iterate 9 simp [TexHdr.texelBytes, TexHdr.channels]
  all_goals
    have hch : 0 < ch := Nat.zero_lt_of_lt hc
    have hmax : max 1 ch = ch := by omega
  · exact (congrArg (ch / ·) hmax).trans (Nat.div_self hch)
  · exact (congrArg (2 * ch / ·) hmax).trans (Nat.mul_div_cancel _ hch)

theorem texelChannel_unorm {fmt ch c : Nat} (hf : fmt = 1 ∨ fmt = 2 ∨ fmt = 3) (hc : c < TexHdr.channels fmt ch) (bs : List Byte) :
    texelChannel fmt ch bs c = .fin false (bs.getD c 0).toNat 0 := by
  have hsize := texelBytes_div hc (by simp only [List.mem_cons]; omega)
  rw [if_pos (by omega)] at hsize
  have hraw : FVal.fin false (natOfBytes ((bs.drop (c * (TexHdr.texelBytes fmt ch / max 1 (TexHdr.channels fmt ch)))).take
      (TexHdr.texelBytes fmt ch / max 1 (TexHdr.channels fmt ch)))) 0 = .fin false (bs.getD c 0).toNat 0 := by
    rw [hsize, Nat.mul_one, natOfBytes_take_one]
  refine (if_neg (Nat.not_le.mpr hc)).trans ?_
  rcases hf with rfl | rfl | rfl <;> exact hraw

/-- The format of a channel of a float or latent texel. -/
def channelFmt (fmt : Nat) : FFmt := if fmt = 0x10 then e4m3 else if 0x08 ≤ fmt ∧ fmt ≤ 0x0A then binary32 else binary16

/-- The bytes of such a channel. -/
def channelSize (fmt : Nat) : Nat := if fmt = 0x10 then 1 else if 0x08 ≤ fmt ∧ fmt ≤ 0x0A then 4 else 2

/-- The float formats, the latent ones among them. -/
def floatFormats : List Nat := [0x05, 0x06, 0x07, 0x08, 0x09, 0x0A, 0x10, 0x11]

theorem texelChannel_float {fmt ch c : Nat} (hf : fmt ∈ floatFormats) (hc : c < TexHdr.channels fmt ch) (bs : List Byte) :
    texelChannel fmt ch bs c = (channelFmt fmt).decode (natOfBytes ((bs.drop (c * channelSize fmt)).take (channelSize fmt))) := by
  simp only [floatFormats, List.mem_cons, List.not_mem_nil, or_false] at hf
  have hsize := texelBytes_div hc (by simp only [List.mem_cons, List.not_mem_nil, or_false]; omega)
  rw [if_congr (or_iff_right (by omega)) rfl rfl, ← channelSize] at hsize
  have hraw := congrArg (fun k => (channelFmt fmt).decode (natOfBytes ((bs.drop (c * k)).take k))) hsize
  refine (if_neg (Nat.not_le.mpr hc)).trans ?_
  rcases hf with rfl | rfl | rfl | rfl | rfl | rfl | rfl | rfl <;> exact hraw

theorem mul_one_fst (v : FVal) : (FVal.mul v (.fin false 1 0)).1 = v := by
  cases v with
  | nan => rfl
  | inf s => cases s <;> rfl
  | fin s m e =>
    rw [FVal.mul, Nat.mul_one, Int.add_zero, Bool.bne_false]

theorem sum_integers (l : List Nat) : FVal.sum false (l.map fun n => .fin false n 0) = .fin false l.sum 0 := by
  induction l with
  | nil => rfl
  | cons n l ih =>
    cases l with
    | nil => rfl
    | cons k l =>
      have hadd (a b : Nat) : (FVal.add false (.fin false a 0) (.fin false b 0)).1 = .fin false (a + b) 0 := by
        have hval (x : Nat) : scaled false x 0 (min 0 0) = (x : Int) := by simp [scaled]
        rw [FVal.add]
        simp only [hval]
        split
        · rw [show a + b = 0 by omega]; rfl
        · rw [decide_eq_false (by omega), show ((a : Int) + b).natAbs = a + b by omega]; rfl
      calc (FVal.add false (.fin false n 0) (FVal.sum false ((k :: l).map fun n => .fin false n 0))).1
          = (FVal.add false (.fin false n 0) (.fin false (k :: l).sum 0)).1 := by rw [ih]
        _ = .fin false (n :: k :: l).sum 0 := hadd _ _

/-- A texel's weighted value of a channel. -/
def channelTerm (fmt ch c : Nat) (border : DWord) (x : Option (List Byte) × Nat) : FVal × Bool :=
  FVal.mul (match x.1 with
    | some bs => texelChannel fmt ch bs c
    | none => borderChannel fmt border c) (.fin false x.2 0)

/-- An exact weighted sum, over 2^shift and a denominator, rounded once. -/
def roundedQuotient (v : FVal) (shift den : Nat) : Nat :=
  match v with
  | .nan => binary32.nanCode
  | .inf s => binary32.infCode s
  | .fin s m e => (binary32.round false .rne s (Mag.quot m (e - shift) den 0)).code

theorem channelValue_eq (fmt ch : Nat) (border : DWord) (texels : List (Option (List Byte) × Nat)) (shift c : Nat) :
    channelValue fmt ch border texels shift c =
      if FVal.sumInvalid (texels.map (channelTerm fmt ch c border)) then binary32.nanCode
      else roundedQuotient (FVal.sum false ((texels.map (channelTerm fmt ch c border)).map fun t => t.1)) shift (channelDen fmt c) := by
  rw [channelValue]
  rfl

theorem channelValue_unorm {fmt ch c : Nat} (shift : Nat) (border : DWord) (texels : List (List Byte × Nat)) (hf : fmt = 1 ∨ fmt = 2 ∨ fmt = 3)
    (hc : c < TexHdr.channels fmt ch) : channelValue fmt ch border (texels.map fun x => (some x.1, x.2)) shift c =
      (binary32.round false .rne false
        (Mag.quot (texels.map fun x => (x.1.getD c 0).toNat * x.2).sum (-(shift : Int)) 255 0)).code := by
  have hterm (x : List Byte × Nat) : channelTerm fmt ch c border (some x.1, x.2) = (.fin false ((x.1.getD c 0).toNat * x.2) 0, false) := by
    rw [channelTerm]
    dsimp only
    rw [texelChannel_unorm hf hc]
    rfl
  have hterms : (texels.map fun x => ((some x.1, x.2) : Option (List Byte) × Nat)).map (channelTerm fmt ch c border) =
      (texels.map fun x => (x.1.getD c 0).toNat * x.2).map fun n => (FVal.fin false n 0, false) := by
    simp only [List.map_map, Function.comp_def, hterm]
  have hvalid (l : List Nat) : FVal.sumInvalid (l.map fun n => (FVal.fin false n 0, false)) = false := by
    simp [FVal.sumInvalid]
  have hden : channelDen fmt c = 255 := by rcases hf with rfl | rfl | rfl <;> rfl
  rw [channelValue_eq, hterms, hvalid, if_neg Bool.false_ne_true, List.map_map, hden]
  simp only [Function.comp_def]
  rw [sum_integers, roundedQuotient, Int.zero_sub]

theorem roundedQuotient_one (v : FVal) (shift : Nat) :
    roundedQuotient v shift 1 = (binary32.ofVal false .rne (v.scale (-(shift : Int)))).code := by
  cases v with
  | nan => rfl
  | inf s => rfl
  | fin s m e => rw [roundedQuotient, round_quot_one, FVal.scale, FFmt.ofVal, Int.sub_eq_add_neg]

/-- A weighted sum over 2^shift is rounded as the sum of its terms, each over 2^shift. -/
theorem roundedSum_scale (ts : List (FVal × Bool)) (shift : Nat) :
    (if FVal.sumInvalid ts then binary32.nanCode else roundedQuotient (FVal.sum false (ts.map fun t => t.1)) shift 1) =
      (binary32.sumR false .rne (ts.map fun p => (p.1.scale (-(shift : Int)), p.2))).code := by
  rw [FFmt.sumR, sumInvalid_scale, apply_ite FRes.code]
  refine if_congr Iff.rfl rfl ?_
  cases ts with
  | nil =>
    rw [roundedQuotient_one]
    have hzero := round_shift binary32 false 0 shift 0
    rw [Nat.zero_mul, Int.zero_sub] at hzero
    refine congrArg FRes.code (Eq.trans ?_ hzero)
    exact congrArg (fun e => binary32.round false .rne false ⟨0, e, false⟩) (Int.zero_add (-(shift : Int)))
  | cons t ts =>
    have hscale := sum_scale (List.cons_ne_nil t.1 (ts.map fun t => t.1)) (-(shift : Int))
    rw [roundedQuotient_one]
    refine congrArg (fun v => (binary32.ofVal false .rne v).code) (hscale.symm.trans ?_)
    simp only [List.map_cons, List.map_map, Function.comp_def]
    rfl

theorem channelTerm_float {fmt ch c : Nat} (hf : fmt ∈ floatFormats) (hc : c < TexHdr.channels fmt ch) (border : DWord)
    (x : Option (List Byte) × Nat) : channelTerm fmt ch c border x = FVal.mul (match x.1 with
      | some bs => (channelFmt fmt).decode (natOfBytes ((bs.drop (c * channelSize fmt)).take (channelSize fmt)))
      | none => if 0x10 ≤ fmt then .fin false 0 0 else binary16.decode (border.toNat / 2 ^ (16 * c) % 2 ^ 16)) (.fin false x.2 0) := by
  have hden : channelDen fmt c = 1 := by
    simp only [floatFormats, List.mem_cons, List.not_mem_nil, or_false] at hf
    rcases hf with rfl | rfl | rfl | rfl | rfl | rfl | rfl | rfl <;> rfl
  have hlatent : (fmt = 0x10 ∨ fmt = 0x11) ↔ 0x10 ≤ fmt := by
    simp only [floatFormats, List.mem_cons, List.not_mem_nil, or_false] at hf
    omega
  rw [channelTerm]
  cases x.1 with
  | none =>
    dsimp only
    rw [borderChannel, if_congr hlatent rfl rfl, hden, mul_one_fst, fieldOf_eq]
  | some bs =>
    dsimp only
    rw [texelChannel_float hf hc]

theorem channelFmt_of_size (fmt : Nat) :
    channelFmt fmt = if channelSize fmt = 1 then e4m3 else if channelSize fmt = 2 then binary16 else binary32 := by
  rw [channelFmt, channelSize]
  split
  · rfl
  · split <;> rfl

theorem channelValue_float {fmt ch c : Nat} (shift : Nat) (border : DWord) (texels : List (Option (List Byte) × Nat)) (hf : fmt ∈ floatFormats)
    (hc : c < TexHdr.channels fmt ch) : channelValue fmt ch border texels shift c = (binary32.sumR false .rne
      ((texels.map (channelTerm fmt ch c border)).map fun p => (p.1.scale (-(shift : Int)), p.2))).code := by
  have hden : channelDen fmt c = 1 := by
    simp only [floatFormats, List.mem_cons, List.not_mem_nil, or_false] at hf
    rcases hf with rfl | rfl | rfl | rfl | rfl | rfl | rfl | rfl <;> rfl
  rw [channelValue_eq, hden, roundedSum_scale]

theorem filtering : Rules.Filtering := by
  unfold Rules.Filtering
  refine ⟨fun neg m k n => ?_, fun h m layer l u v => ⟨footprint_sum h m layer u v, filtered_sum h l layer u v⟩,
    fun fmt ch shift c border texels hf hc => channelValue_unorm shift border texels hf hc,
    fun fmt ch shift c border texels hf hc => ?_, by decide +kernel⟩
  · intro a x exact
    obtain ⟨hlt, hplace⟩ := axis_place neg m k n
    refine ⟨hlt, fun hlo hhi => ?_⟩
    have hx : x = rneShift exact k := hplace.trans (clamp32_inside (hplace.symm ▸ hlo : _ < samplePlace neg m k n)
      (hplace.symm ▸ hhi : samplePlace neg m k n < _))
    rw [hx]
    exact rneShift_nearest exact k
  · intro size value
    rw [channelValue_float shift border texels hf hc, List.map_map]
    refine congrArg (fun l => (binary32.sumR false .rne l).code) (List.map_congr_left fun x _ => ?_)
    rw [Function.comp_apply, channelTerm_float hf hc, channelFmt_of_size]
    cases x.1 <;> rfl

end Sys2Proof.Machine
end

