-- ==== Sys2Proof/Proofs/Networks.lean ====
section
/-!
The layers of a network and their activations.
-/

namespace Sys2Proof.Machine

/-! ## One layer (R248, R275, R276) -/

namespace NetLayer

/-- The groups of 32 of a layer's input. -/
def groups (l : NetLayer) : Nat := (l.k + 31) / 32

/-- The scale of a group of the input. -/
def inputScale (l : NetLayer) (x : List Nat) (g : Nat) : Nat :=
  if l.ty = .mxf4 then groupScale (((x.drop (32 * g)).take 32).map binary32.decode) else 127

/-- The quantised element k of the input. -/
def element (l : NetLayer) (x : List Nat) (k : Nat) : Nat :=
  if l.k ≤ k then 0 else quantise l.ty ((binary32.decode (x.getD k 0)).scale (127 - (l.inputScale x (k / 32) : Int)))

/-- Where output j's row of weights begins. -/
def row (l : NetLayer) (j : Nat) : Nat := l.woff + j * (if l.wt = 14 then l.groups * 17 else l.groups * 32)

/-- The weight of element k in a row. -/
def weight (l : NetLayer) (bs : List Byte) (row k : Nat) : Nat :=
  if l.k ≤ k then 0 else if l.ty = .mxf4 then imageNat bs (row + k / 2) 1 / 16 ^ (k % 2) % 16 else imageNat bs (row + k) 1

/-- The scale of a group of a row. -/
def weightScale (l : NetLayer) (bs : List Byte) (row g : Nat) : Nat :=
  if l.ty = .mxf4 then imageNat bs (row + l.groups * 16 + g) 1 else 127

/-- The exact sum of a group, rounded once. -/
def groupValue (l : NetLayer) (bs : List Byte) (x : List Nat) (row g : Nat) : Nat :=
  if l.inputScale x g = 255 ∨ l.weightScale bs row g = 255 then 0x7FC00000
  else (binary32.sumR false .rne ((List.range 32).map fun i =>
    let p := FVal.mul (l.ty.fmt.decode (l.element x (32 * g + i))) (l.ty.fmt.decode (l.weight bs row (32 * g + i)))
    (p.1.scale ((l.inputScale x g : Int) + l.weightScale bs row g - 254), p.2))).code

variable (l : NetLayer)

theorem kp_eq : l.kp = l.groups * 32 := by
  rw [kp, roundUp, groups]
  congr 2

theorem row_eq (j : Nat) : l.woff + j * l.rowBytes = l.row j := by
  have h2 : l.groups * 32 / 2 = l.groups * 16 := by omega
  have h32 : l.groups * 32 / 32 = l.groups := by omega
  rw [row, rowBytes, kp_eq, h2, h32]
  split
  · rw [← Nat.mul_succ]
  · rfl

theorem ty_isFloat : l.ty.isFloat = true := by
  rw [ty]
  split
  · rfl
  · split <;> rfl

theorem elemProduct_ty (a b : Nat) : elemProduct l.ty a b = FVal.mul (l.ty.fmt.decode a) (l.ty.fmt.decode b) := by
  rw [elemProduct, if_pos l.ty_isFloat]

theorem getD_map_range {α : Type} (f : Nat → α) (n i : Nat) (d : α) (hi : i < n) : ((List.range n).map f).getD i d = f i := by
  rw [List.getD_eq_getElem?_getD, List.getElem?_map, List.getElem?_range hi]
  rfl

theorem getD_map_decode {x : List Nat} {k : Nat} (hk : k < x.length) (d : FVal) :
    (x.map binary32.decode).getD k d = binary32.decode (x.getD k 0) := by
  rw [List.getD_eq_getElem?_getD, List.getD_eq_getElem?_getD, List.getElem?_map, List.getElem?_eq_getElem hk]
  rfl

/-- The quantised elements as a layer lists them: those of a group that has a scale. -/
theorem elements_getD {x : List Nat} {g i : Nat} (hg : g < l.groups) (hi : i < 32) (hx : x.length = l.k) (hs : l.inputScale x g ≠ 255) :
    ((List.range (l.groups * 32)).map fun k => if l.k ≤ k then 0
      else if ((List.range l.groups).map fun g => l.inputScale x g).getD (k / 32) 127 = 255 then 0
      else quantise l.ty (((x.map binary32.decode).getD k (.fin false 0 0)).scale
        (127 - (((List.range l.groups).map fun g => l.inputScale x g).getD (k / 32) 127 : Nat)))).getD (32 * g + i) 0 =
      l.element x (32 * g + i) := by
  have hgroup : (32 * g + i) / 32 = g := by omega
  rw [getD_map_range _ _ _ _ (by omega), element]
  by_cases hk : l.k ≤ 32 * g + i
  · rw [if_pos hk, if_pos hk]
  · rw [if_neg hk, if_neg hk, hgroup, getD_map_range _ _ _ _ hg, if_neg hs, getD_map_decode (by omega)]

/-- One output of a layer, from its groups. -/
theorem run_output (bs : List Byte) (x : List Nat) {j : Nat} (hj : j < l.n) (hx : x.length = l.k) :
    (l.run bs x)[j]? = some (activation l.act ((List.range l.groups).foldl (fun acc g =>
      Rules.sum32 acc (l.groupValue bs x (l.row j) g)) (imageNat bs (l.boff + 4 * j) 4))) := by
  have h32 : l.groups * 32 / 32 = l.groups := by omega
  have h2 : l.groups * 32 / 2 = l.groups * 16 := by omega
  rw [run]
  simp only [List.getElem?_map, List.getElem?_range hj, Option.map_some, kp_eq, h32, h2]
  refine congrArg (fun v => some (activation l.act v)) (List.foldl_ext _ _ _ fun acc g hg => ?_)
  rw [addF32, sum32_eq]
  refine congrArg (Rules.sum32 acc) ?_
  have hg' : g < l.groups := List.mem_range.mp hg
  have hscale (g : Nat) : (if l.ty = .mxf4 then groupScale ((((x.map binary32.decode).drop (32 * g)).take 32)) else 127) = l.inputScale x g := by
    rw [inputScale, List.map_take, List.map_drop]
  have hrow := l.row_eq j
  simp only [hscale, getD_map_range _ _ _ _ hg', hrow, elemProduct_ty]
  rw [← weightScale, groupValue]
  by_cases hbad : l.inputScale x g = 255 ∨ l.weightScale bs (l.row j) g = 255
  · rw [if_pos hbad, if_pos hbad]
    rfl
  · rw [if_neg hbad, if_neg hbad]
    refine congrArg (fun ts => (binary32.sumR false .rne ts).code) (List.map_congr_left fun i hi => ?_)
    simp only [l.elements_getD hg' (List.mem_range.mp hi) hx fun h => hbad (.inl h)]
    rfl

end NetLayer

/-! ## Activations (R276) -/

/-- A value is above 0. -/
def FVal.isAbove0 (v : FVal) : Bool := FVal.cmp (.fin false 0 0) v == some .lt

theorem isAbove0_fin (s : Bool) (m : Nat) (e : Int) : (FVal.fin s m e).isAbove0 = !(s || m == 0) := by
  have hpos : 0 < scaled s m e (min 0 e) ↔ s = false ∧ m ≠ 0 := by
    have hp : (0 : Int) < 2 ^ (e - min 0 e).toNat := by positivity
    obtain rfl | hm := Nat.eq_zero_or_pos m
    · simp [scaled]
    · have hprod : 0 < (m : Int) * 2 ^ (e - min 0 e).toNat := by positivity
      rw [scaled_eq]
      cases s
      · simp [hm.ne', hprod]
      · simp [hprod.le]
  have hzero : scaled false 0 0 (min 0 e) = 0 := by simp [scaled]
  rw [FVal.isAbove0, FVal.cmp]
  simp only [hzero]
  rw [Bool.eq_iff_iff, beq_iff_eq, Option.some_inj, compare_lt_iff_lt, hpos]
  simp

theorem activation_relu (v : FVal) (code : Nat) : (match v with
    | .nan => code
    | .inf s => if s then 0 else code
    | .fin s m _ => if s || m == 0 then 0 else code) = if v = .nan ∨ v.isAbove0 = true then code else 0 := by
  cases v with
  | nan => rfl
  | inf s => cases s <;> rfl
  | fin s m e =>
    rw [isAbove0_fin]
    dsimp only
    generalize (s || m == 0) = b
    cases b <;> simp

theorem activation_clamp (v : FVal) (code : Nat) : (match v with
    | .nan => 0
    | .inf s => if s then 0 else 0x3F800000
    | .fin s m e => if s || m == 0 then 0 else if FVal.cmp (.fin s m e) (.fin false 1 0) = some .lt then code else 0x3F800000) =
      if v.isAbove0 = false then 0 else if FVal.cmp v (.fin false 1 0) = some .lt then code else 0x3F800000 := by
  cases v with
  | nan => rfl
  | inf s => cases s <;> rfl
  | fin s m e =>
    rw [isAbove0_fin]
    dsimp only
    generalize (s || m == 0) = b
    cases b <;> simp

theorem activation_nan {code : Nat} (h : binary32.decode code = .nan) : activation 3 code = code := by
  simp [activation, h]

theorem networks : Rules.Networks := by
  unfold Rules.Networks
  refine ⟨fun l bs x j hj hx => ?_, fun code hcode => ?_, by decide +kernel, by decide +kernel, by decide +kernel, by decide +kernel⟩
  · exact l.run_output bs x hj hx
  · intro v above
    exact ⟨rfl, activation_relu v code, activation_clamp v code, activation_nan⟩

/-- Settles O33: the sampler's instructions, its filtering, and the networks that it evaluates. -/
theorem samplerReads : Obligations.SamplerReads := by
  unfold Obligations.SamplerReads
  exact ⟨samplerInstructions, filtering, networks⟩

end Sys2Proof.Machine
end

