-- ==== Sys2Proof/Proofs/MemoryForm.lean ====
section
/-!
PROOFS. The canonical form of memory and the values that carry a state.
-/

namespace Sys2Proof.Machine

/-! ## The form of what a step's parts give

The canonical form of memory (`State.memOk`) is carried through every function that gives a state; where a function
gives a state inside an outcome, the outcome has the form where the states in it have. -/

/-- The state that an access leaves has the form. -/
inductive AccOut.MemOk : AccOut → Prop
  | done {s : State} {ws : List RegWrite} (h : s.memOk) : MemOk (.done s ws)
  | wait {s : State} (h : s.memOk) : MemOk (.wait s)
  | late {s : State} {c : LateCause} (h : s.memOk) : MemOk (.late s c)

/-- The state that an instruction's effect names has the form. -/
inductive Act.MemOk : Act → Prop
  | writes {s : State} {ws : List RegWrite} {c : Cond} (h : s.memOk) : MemOk (.writes s ws c)
  | access {s : State} {p : Pending} (h : s.memOk) : MemOk (.access s p)
  | late {s : State} {p : Pending} {c : LateCause} {v : DWord} (h : s.memOk) : MemOk (.late s p c v)
  | hold {s : State} {w : Wait} (h : s.memOk) : MemOk (.hold s w)
  | split {s : State} {m : SliceMask} {w : Wait} (h : s.memOk) : MemOk (.split s m w)
  | trap {c : ℕ} {v : DWord} : MemOk (.trap c v)
  | trapIn {s : State} {c : ℕ} {v : DWord} (h : s.memOk) : MemOk (.trapIn s c v)
  | trapNext {c : ℕ} {v : DWord} : MemOk (.trapNext c v)
  | jump {s : State} {l : List (ℕ × CodeAddr)} (h : s.memOk) : MemOk (.jump s l)
  | placed {s : State} (h : s.memOk) : MemOk (.placed s)

/-- The effect that stops the reading of texture headers has the form. -/
inductive HdrOut.MemOk : HdrOut → Prop
  | stop {a : Act} (h : a.MemOk) : MemOk (.stop a)
  | ok {hs : List LaneHdr} : MemOk (.ok hs)

/-- What the reading of a network's images leaves has the form. -/
inductive NetOut.MemOk : NetOut → Prop
  | stop {a : Act} (h : a.MemOk) : MemOk (.stop a)
  | ok {s : State} {l : List (LaneHdr × List Byte)} (h : s.memOk) : MemOk (.ok s l)

/-- The state that a matrix operation leaves has the form. -/
inductive OpOut.MemOk : OpOut → Prop
  | done {s : State} (h : s.memOk) : MemOk (.done s)
  | wait {l : List Need} : MemOk (.wait l)
  | lost {s : State} (h : s.memOk) : MemOk (.lost s)

/-- The state that a packet's effect leaves has the form. -/
inductive Verdict.MemOk : Verdict → Prop
  | reject {c t : ℕ} : MemOk (.reject c t)
  | blocked {s : State} (h : s.memOk) : MemOk (.blocked s)
  | taken {s : State} (h : s.memOk) : MemOk (.taken s)

/-- The state in which a turn leaves the machine has the form. -/
inductive Moved.MemOk : Moved → Prop
  | run {i : Instr} {s : State} (h : s.memOk) : MemOk (.run i s)
  | moved {s : State} (h : s.memOk) : MemOk (.moved s)

/-- The next state of an outcome, where there is one, has the form. -/
inductive Outcome.MemOk : Host.Outcome State Fault Refusal → Prop
  | next {s : State} (h : s.memOk) : MemOk (.next s)
  | fault {r : Fault} : MemOk (.fault r)
  | refused {r : Refusal} : MemOk (.refused r)

/-- A state that may be there has the form where it is. -/
inductive Optional.MemOk : Option State → Prop
  | none : MemOk none
  | some {s : State} (h : s.memOk) : MemOk (some s)

/-- A state that stands where nothing is missing has the form where it stands. -/
inductive Checked.MemOk : Except (List Need) State → Prop
  | error {l : List Need} : MemOk (.error l)
  | ok {s : State} (h : s.memOk) : MemOk (.ok s)

theorem Optional.memOk_iff {o : Option State} : Optional.MemOk o ↔ ∀ t, o = some t → t.memOk = true := by
  cases o with
  | none => exact ⟨fun _ _ h => (nomatch h), fun _ => .none⟩
  | some t => exact ⟨fun | .some h, _, rfl => h, fun h => .some (h t rfl)⟩

theorem Optional.getD_memOk {o : Option State} {d : State} (ho : Optional.MemOk o) (h : d.memOk) : (o.getD d).memOk := by
  cases ho with
  | none => exact h
  | some ht => exact ht

/-- The form is a matter of the two memories alone: the other fields may be any. -/
theorem State.memOk_mk {s : State}
    {poison bar0 counters queues served signals objinvs contexts launches workgroups waves claims lends
    objCache l1 texel rdc l2 wcache wfills storeQ copies matOps sharedB freeFrames requests useOrder convs
    bvhs builds colls collCount arrivals lostPkgs refusedGens ports traffic conns islandNext flash running
    bootOk measured rollback identityErased recovery halted tripped sessionKeys spdm haltReq retired outbox
    turns cur freeCount tick}
    (h : s.memOk) :
    State.memOk
      ⟨s.mem, s.hostMem, poison, bar0, counters, queues, served, signals, objinvs, contexts, launches,
      workgroups, waves, claims, lends, objCache, l1, texel, rdc, l2, wcache, wfills, storeQ, copies, matOps,
      sharedB, freeFrames, requests, useOrder, convs, bvhs, builds, colls, collCount, arrivals, lostPkgs,
      refusedGens, ports, traffic, conns, islandNext, flash, running, bootOk, measured, rollback,
      identityErased, recovery, halted, tripped, sessionKeys, spdm, haltReq, retired, outbox, turns, cur,
      freeCount, tick⟩ :=
  h

/-! ### Where a value is known -/

theorem AccOut.memOk_of_done {x : AccOut} {s : State} {ws : List RegWrite} (h : x.MemOk) (hx : x = .done s ws) :
    s.memOk := by
  subst hx
  cases h with
  | done h => exact h

theorem AccOut.memOk_of_wait {x : AccOut} {s : State} (h : x.MemOk) (hx : x = .wait s) :
    s.memOk := by
  subst hx
  cases h with
  | wait h => exact h

theorem AccOut.memOk_of_late {x : AccOut} {s : State} {c : LateCause} (h : x.MemOk) (hx : x = .late s c) :
    s.memOk := by
  subst hx
  cases h with
  | late h => exact h

theorem Act.memOk_of_writes {x : Act} {s : State} {ws : List RegWrite} {c : Cond} (h : x.MemOk) (hx : x = .writes s ws c) :
    s.memOk := by
  subst hx
  cases h with
  | writes h => exact h

theorem HdrOut.memOk_of_stop {x : HdrOut} {a : Act} (h : x.MemOk) (hx : x = .stop a) :
    a.MemOk := by
  subst hx
  cases h with
  | stop h => exact h

theorem NetOut.memOk_of_stop {x : NetOut} {a : Act} (h : x.MemOk) (hx : x = .stop a) :
    a.MemOk := by
  subst hx
  cases h with
  | stop h => exact h

theorem NetOut.memOk_of_ok {x : NetOut} {s : State} {l : List (LaneHdr × List Byte)} (h : x.MemOk) (hx : x = .ok s l) :
    s.memOk := by
  subst hx
  cases h with
  | ok h => exact h

theorem OpOut.memOk_of_done {x : OpOut} {s : State} (h : x.MemOk) (hx : x = .done s) :
    s.memOk := by
  subst hx
  cases h with
  | done h => exact h

theorem OpOut.memOk_of_lost {x : OpOut} {s : State} (h : x.MemOk) (hx : x = .lost s) :
    s.memOk := by
  subst hx
  cases h with
  | lost h => exact h

theorem Verdict.memOk_of_blocked {x : Verdict} {s : State} (h : x.MemOk) (hx : x = .blocked s) :
    s.memOk := by
  subst hx
  cases h with
  | blocked h => exact h

theorem Verdict.memOk_of_taken {x : Verdict} {s : State} (h : x.MemOk) (hx : x = .taken s) :
    s.memOk := by
  subst hx
  cases h with
  | taken h => exact h

theorem Optional.memOk_of_some {x : Option State} {s : State} (h : Optional.MemOk x) (hx : x = some s) :
    s.memOk := by
  subst hx
  cases h with
  | some h => exact h

theorem Checked.memOk_of_ok {x : Except (List Need) State} {s : State} (h : Checked.MemOk x) (hx : x = .ok s) :
    s.memOk := by
  subst hx
  cases h with
  | ok h => exact h

theorem State.memOk_of_fst {α : Type} {r : State × α} {t : State} {x : α} (h : r.1.memOk) (hx : r = (t, x)) : t.memOk := by
  rw [hx] at h; exact h

/-! ### Conditionals and folds -/

section
variable {c : Prop} {_ : Decidable c}

theorem State.ite_memOk {s t : State} (hs : s.memOk) (ht : t.memOk) : (if c then s else t).memOk := by
  split
  · exact hs
  · exact ht

/-- A change that is made under a condition. -/
theorem State.ite_else_memOk {s t : State} (h : s.memOk) (ht : s.memOk → t.memOk) : (if c then t else s).memOk :=
  State.ite_memOk (ht h) h

/-- A change that is made unless a condition holds. -/
theorem State.ite_then_memOk {s t : State} (h : s.memOk) (ht : s.memOk → t.memOk) : (if c then s else t).memOk :=
  State.ite_memOk h (ht h)

theorem State.ite_fst_memOk {α : Type} {r q : State × α} (hr : r.1.memOk) (hq : q.1.memOk) :
    (if c then r else q).1.memOk := by
  split
  · exact hr
  · exact hq

theorem AccOut.ite_memOk {x y : AccOut} (hx : x.MemOk) (hy : y.MemOk) :
    (if c then x else y).MemOk := by
  split
  · exact hx
  · exact hy

theorem Act.ite_memOk {x y : Act} (hx : x.MemOk) (hy : y.MemOk) :
    (if c then x else y).MemOk := by
  split
  · exact hx
  · exact hy

theorem HdrOut.ite_memOk {x y : HdrOut} (hx : x.MemOk) (hy : y.MemOk) :
    (if c then x else y).MemOk := by
  split
  · exact hx
  · exact hy

theorem NetOut.ite_memOk {x y : NetOut} (hx : x.MemOk) (hy : y.MemOk) :
    (if c then x else y).MemOk := by
  split
  · exact hx
  · exact hy

theorem OpOut.ite_memOk {x y : OpOut} (hx : x.MemOk) (hy : y.MemOk) :
    (if c then x else y).MemOk := by
  split
  · exact hx
  · exact hy

theorem Verdict.ite_memOk {x y : Verdict} (hx : x.MemOk) (hy : y.MemOk) :
    (if c then x else y).MemOk := by
  split
  · exact hx
  · exact hy

theorem Moved.ite_memOk {x y : Moved} (hx : x.MemOk) (hy : y.MemOk) :
    (if c then x else y).MemOk := by
  split
  · exact hx
  · exact hy

theorem Outcome.ite_memOk {x y : Host.Outcome State Fault Refusal} (hx : Outcome.MemOk x) (hy : Outcome.MemOk y) :
    Outcome.MemOk (if c then x else y) := by
  split
  · exact hx
  · exact hy

theorem Optional.ite_memOk {x y : Option State} (hx : Optional.MemOk x) (hy : Optional.MemOk y) :
    Optional.MemOk (if c then x else y) := by
  split
  · exact hx
  · exact hy

theorem Checked.ite_memOk {x y : Except (List Need) State} (hx : Checked.MemOk x) (hy : Checked.MemOk y) :
    Checked.MemOk (if c then x else y) := by
  split
  · exact hx
  · exact hy

theorem RunRes.ite_memOk {x y : RunRes} (hx : x.s.memOk) (hy : y.s.memOk) : (if c then x else y).s.memOk := by
  split
  · exact hx
  · exact hy

end

theorem State.foldl_memOk {α : Type} {f : State → α → State} {s : State} {l : List α}
    (hf : ∀ t x, t.memOk → (f t x).memOk) (h : s.memOk) : (l.foldl f s).memOk :=
  List.foldlRecOn (motive := fun t : State => t.memOk = true) l f h fun t ht x _ => hf t x ht

theorem State.foldl_fst_memOk {α β : Type} {f : State × β → α → State × β} {r : State × β} {l : List α}
    (hf : ∀ q x, q.1.memOk → (f q x).1.memOk) (h : r.1.memOk) : (l.foldl f r).1.memOk :=
  List.foldlRecOn (motive := fun q : State × β => q.1.memOk = true) l f h fun q hq x _ => hf q x hq

end Sys2Proof.Machine
end

