-- ==== Sys2Proof/Proofs/AccessForm.lean ====
section
/-!
PROOFS. Lines, writes, kills and accesses keep the form of memory.
-/

namespace Sys2Proof.Machine

theorem State.setReg_memOk {s : State} {off : ℕ} {x : DWord} (h : s.memOk) : (s.setReg off x).memOk := by
  unfold State.setReg
  exact State.memOk_mk h

theorem State.bumpFree_memOk {s : State} (h : s.memOk) : s.bumpFree.memOk := by
  unfold State.bumpFree
  exact State.memOk_mk h

theorem State.cacheEntry_memOk {s : State} {core dom n : ℕ} (h : s.memOk) : (s.cacheEntry core dom n).memOk := by
  unfold State.cacheEntry
  exact State.ite_memOk h (State.memOk_mk h)

theorem State.dropEntry_memOk {s : State} {dom n : ℕ} (h : s.memOk) : (s.dropEntry dom n).memOk := by
  unfold State.dropEntry
  exact State.memOk_mk h

theorem State.flushLine_memOk {s : State} {x : ℕ × Line} (h : s.memOk) : (s.flushLine x).memOk := by
  refine State.foldl_memOk (fun _ _ h => ?_) ?_
  · exact State.ite_memOk h (State.ite_memOk (State.memOk_mk h) (State.ite_memOk (State.memOk_mk h) h))
  · exact State.foldl_memOk (fun _ _ h => State.ite_memOk h (State.setByte_memOk _ _ _ h)) h

theorem State.flushLines_memOk {s : State} {ls : List (ℕ × Line)} (h : s.memOk) : (s.flushLines ls).memOk :=
  State.foldl_memOk (fun _ _ h => State.flushLine_memOk h) h

theorem State.noteL2_memOk {s : State} {write : Bool} {a : ℕ} (h : s.memOk) : (s.noteL2 write a).memOk := by
  unfold State.noteL2
  exact State.ite_memOk h (State.memOk_mk h)

theorem State.keepL2_memOk {s : State} {p : ℕ → Bool} (h : s.memOk) : (s.keepL2 p).memOk := by
  unfold State.keepL2
  exact State.memOk_mk h

theorem State.fillRemote_memOk {s : State} {die a : ℕ} (h : s.memOk) : (s.fillRemote die a).memOk := by
  unfold State.fillRemote
  exact State.ite_memOk (State.flushLines_memOk (State.memOk_mk h)) h

theorem State.homeWritten_memOk {s : State} {keep : Option ℕ} {a n : ℕ} (h : s.memOk) :
    (s.homeWritten keep a n).memOk :=
  State.foldl_memOk (fun _ _ h => State.ite_memOk h (State.noteL2_memOk (State.memOk_mk h))) h

theorem State.writeBackRemote_memOk {s : State} {die : ℕ} (h : s.memOk) : (s.writeBackRemote die).memOk := by
  unfold State.writeBackRemote
  exact State.memOk_mk (State.flushLines_memOk h)

theorem State.dropRemote_memOk {s : State} {die : ℕ} {p : ℕ → Bool} (h : s.memOk) : (s.dropRemote die p).memOk := by
  unfold State.dropRemote
  exact State.memOk_mk (State.flushLines_memOk h)

theorem State.setPort_memOk {s : State} {p state lanes : ℕ} {peer : BitVec 6} (h : s.memOk) :
    (s.setPort p state lanes peer).memOk :=
  State.setReg_memOk h

theorem State.modPort_memOk {s : State} {p : ℕ} {f : ObPort → ObPort} (h : s.memOk) : (s.modPort p f).memOk := by
  unfold State.modPort
  exact State.memOk_mk h

theorem State.sendFlit_memOk {s : State} {p : ℕ} {bs : List Byte} (h : s.memOk) : (s.sendFlit p bs).memOk := by
  unfold State.sendFlit
  exact State.memOk_mk h

theorem State.pushFlits_memOk {s : State} {p : ℕ} {fs : List (List Byte)} (h : s.memOk) : (s.pushFlits p fs).memOk :=
  State.foldl_memOk (fun _ _ h => State.sendFlit_memOk (State.modPort_memOk h)) h

theorem State.pump_memOk {s : State} (h : s.memOk) : s.pump.memOk := by
  refine State.foldl_memOk (fun _ _ h => ?_) (State.memOk_mk h)
  refine State.ite_memOk (State.memOk_mk h) ?_
  split
  · exact State.memOk_mk h
  · exact State.memOk_mk (State.pushFlits_memOk h)

theorem State.sendPacket_memOk {s : State} {pkg : BitVec 6} {n : ℕ} {message : Outgoing} (h : s.memOk) :
    (s.sendPacket pkg n message).memOk :=
  State.pump_memOk (State.memOk_mk h)

theorem State.sendAll_memOk {s : State} {pkgs : List (BitVec 6)} {n : ℕ} {message : BitVec 6 → Outgoing} (h : s.memOk) :
    (s.sendAll pkgs n message).memOk :=
  State.foldl_memOk (fun _ _ h => State.sendPacket_memOk h) h

theorem State.ringWrite_memOk {s : State} {r : Ring} {record : List Byte} (h : s.memOk) :
    (s.ringWrite r record).memOk := by
  unfold State.ringWrite
  exact State.ite_memOk (State.setWord64_memOk _ _ _ h) (State.setWord64_memOk _ _ _ (State.setBytes_memOk _ _ _ h))

theorem State.ringNotify_memOk {s : State} {r : Ring} {vector : ℕ} {record : List Byte} (h : s.memOk) :
    (s.ringNotify r vector record).memOk := by
  unfold State.ringNotify
  exact State.ite_memOk (State.memOk_mk (State.ringWrite_memOk h)) (State.ringWrite_memOk h)

theorem State.faultRecord_memOk {s : State} {i : FaultInfo} (h : s.memOk) : (s.faultRecord i).memOk := by
  unfold State.faultRecord
  exact State.ite_memOk (State.ringNotify_memOk h) h

theorem State.modContext_memOk {s : State} {ctx : ℕ} {f : Context → Context} (h : s.memOk) :
    (s.modContext ctx f).memOk := by
  unfold State.modContext
  exact State.memOk_mk h

theorem State.dropSlice_memOk {s : State} {ctx core : ℕ} (h : s.memOk) : (s.dropSlice ctx core).memOk := by
  unfold State.dropSlice
  exact State.ite_memOk h (State.memOk_mk h)

theorem State.modPins_memOk {s : State} {dom : ℕ} {e : ObjEntry} {gen : Word} {f : ℕ → ℕ} (h : s.memOk) :
    (s.modPins dom e gen f).memOk := by
  unfold State.modPins
  split
  · exact State.setBytes_memOk _ _ _ h
  · exact h

theorem State.unpinGeneration_memOk {s : State} {dom : ℕ} {ref : DWord} {gen : Word} {count : ℕ} (h : s.memOk) :
    (s.unpinGeneration dom ref gen count).memOk :=
  State.modPins_memOk h

theorem State.clearSlot_memOk {s : State} {dom obj k : ℕ} (h : s.memOk) : (s.clearSlot dom obj k).memOk :=
  State.setWord64_memOk _ _ _ h

theorem State.releaseWave_memOk {s : State} {wk : ℕ} {w : Wave} {core : ℕ} (h : s.memOk) :
    (s.releaseWave wk w core).memOk := by
  refine State.foldl_memOk (fun _ _ h => ?_) ?_
  · exact State.clearSlot_memOk h
  · refine State.foldl_memOk (fun _ _ h => ?_) ?_
    · exact State.unpinGeneration_memOk h
    · exact State.foldl_memOk (fun _ _ h => State.unpinGeneration_memOk h) (State.memOk_mk h)

theorem State.stopEngines_memOk {s : State} {p : ℕ → Bool} (h : s.memOk) : (s.stopEngines p).memOk := by
  unfold State.stopEngines
  exact State.memOk_mk h

theorem State.markUnits_memOk {s : State} {pool first n : ℕ} {used : Bool} (h : s.memOk) :
    (s.markUnits pool first n used).memOk :=
  State.foldl_memOk (fun _ _ h => State.setByte_memOk _ _ _ h) h

theorem State.freeImage_memOk {s : State} {la : Launch} {base : ℕ} (h : s.memOk) : (s.freeImage la base).memOk := by
  unfold State.freeImage
  split
  · exact h
  · exact State.memOk_mk (State.markUnits_memOk h)

theorem State.removeWorkgroup_memOk {s : State} {g : ℕ} (h : s.memOk) : (s.removeWorkgroup g).memOk := by
  have hw {ws : SMap Wave} {wg : Workgroup} {b : Bool} {t : State} (ht : t.memOk) :
      (ws.foldl (fun s x => s.releaseWave x.1 (if b then { x.2 with lend := 0 } else x.2) wg.core) t).memOk = true :=
    State.foldl_memOk (fun _ _ h => State.releaseWave_memOk h) ht
  unfold State.removeWorkgroup
  split
  · exact h
  · dsimp only
    split
    · refine State.dropSlice_memOk (State.memOk_mk (hw ?_))
      split
      · exact State.freeImage_memOk h
      · exact h
    · refine State.memOk_mk (hw ?_)
      split
      · exact State.freeImage_memOk h
      · exact h

theorem State.killWorkgroups_memOk {s : State} {p : ℕ → Workgroup → Bool} (h : s.memOk) :
    (s.killWorkgroups p).memOk :=
  State.foldl_memOk (fun _ _ h => State.removeWorkgroup_memOk h) (State.stopEngines_memOk h)

theorem State.invalidateQueue_memOk {s : State} {die q : ℕ} (h : s.memOk) : (s.invalidateQueue die q).memOk := by
  unfold State.invalidateQueue
  exact State.ite_memOk h (State.setWord64_memOk _ _ _ h)

theorem State.markKilled_memOk {s : State} {n : ℕ} (h : s.memOk) : (s.markKilled n).memOk := by
  unfold State.markKilled
  exact State.memOk_mk h

theorem State.dropQueue_memOk {s : State} {la : Launch} (h : s.memOk) : (s.dropQueue la).memOk := by
  unfold State.dropQueue
  exact State.ite_memOk (State.invalidateQueue_memOk h) h

theorem State.killContext_memOk {s : State} {ctx : ℕ} {info : FaultInfo} (h : s.memOk) :
    (s.killContext ctx info).memOk := by
  refine State.foldl_memOk (fun _ _ h => ?_) ?_
  · exact State.ite_memOk h (State.foldl_memOk (fun _ _ h => State.invalidateQueue_memOk h) h)
  · refine State.foldl_memOk (fun _ _ h => ?_) ?_
    · exact State.markKilled_memOk h
    · exact State.sendAll_memOk (State.killWorkgroups_memOk (State.faultRecord_memOk h))

theorem State.killSome_memOk {s : State} {la : Launch} {p : ℕ → Workgroup → Bool} (h : s.memOk) :
    (s.killSome la p).memOk :=
  State.ite_else_memOk (State.killWorkgroups_memOk h) State.killContext_memOk

theorem State.killHere_memOk {s : State} {n : ℕ} {info : FaultInfo} (h : s.memOk) : (s.killHere n info).memOk := by
  unfold State.killHere
  split
  · exact h
  · refine State.ite_memOk h ?_
    exact State.killSome_memOk (State.markKilled_memOk (State.dropQueue_memOk (State.faultRecord_memOk h)))

theorem State.killLaunch_memOk {s : State} {n : ℕ} {info : FaultInfo} (h : s.memOk) :
    (s.killLaunch n info).memOk := by
  unfold State.killLaunch
  split
  · exact h
  · refine State.ite_memOk h ?_
    split
    · exact State.killHere_memOk h
    · exact State.sendAll_memOk (State.killHere_memOk h)

theorem State.damage_memOk {s : State} {g : ℕ} {w : Wave} {cause : ℕ} {pc : CodeAddr} (h : s.memOk) :
    (s.damage g w cause pc).memOk := by
  unfold State.damage
  split
  · exact h
  · split
    · exact h
    · refine State.ite_memOk (State.killLaunch_memOk h) ?_
      refine State.ite_memOk (State.killLaunch_memOk h) ?_
      exact State.memOk_mk (State.killSome_memOk (State.faultRecord_memOk h))

theorem State.loadBytes_memOk {s : State} {core a n : ℕ} (h : s.memOk) : (s.loadBytes core a n).1.memOk := by
  unfold State.loadBytes
  dsimp only
  split
  · exact h
  · exact State.memOk_mk (State.noteL2_memOk (State.fillRemote_memOk h))

theorem State.clearPoison_memOk {s : State} {a n : ℕ} (h : s.memOk) : (s.clearPoison a n).memOk := by
  unfold State.clearPoison
  exact State.memOk_mk h

theorem State.clearPort_memOk {s : State} {die a n : ℕ} (h : s.memOk) : (s.clearPort die a n).memOk := by
  unfold State.clearPort
  exact State.ite_memOk (State.memOk_mk h) (State.clearPoison_memOk h)

theorem State.clearUnit_memOk {s : State} {die a : ℕ} (h : s.memOk) : (s.clearUnit die a).memOk := by
  unfold State.clearUnit
  split
  · exact State.clearPort_memOk h
  · exact State.ite_memOk (State.clearPort_memOk (State.memOk_mk h)) (State.memOk_mk h)

theorem State.coherentByte_memOk {s : State} {die a : ℕ} {b : Byte} {m : Nibbles} (h : s.memOk) :
    (s.coherentByte die a b m).memOk := by
  unfold State.coherentByte
  exact State.ite_memOk (State.memOk_mk (State.fillRemote_memOk h)) (State.setByte_memOk _ _ _ h)

theorem State.coherentBytes_memOk {s : State} {die a : ℕ} {m : Nibbles} {bs : List Byte} (h : s.memOk) :
    (s.coherentBytes die m a bs).memOk := by
  induction bs generalizing s a with
  | nil => exact h
  | cons b bs ih => exact ih (State.coherentByte_memOk h)

theorem State.portNibbles_memOk {s : State} {die a : ℕ} {bs : List Byte} {m : Nibbles} (h : s.memOk) :
    (s.portNibbles die a bs m).memOk :=
  State.clearPort_memOk (State.homeWritten_memOk (State.coherentBytes_memOk h))

theorem State.portWrite_memOk {s : State} {die a : ℕ} {bs : List Byte} (h : s.memOk) : (s.portWrite die a bs).memOk :=
  State.portNibbles_memOk h

theorem State.homeWrite_memOk {s : State} {a : ℕ} {bs : List Byte} (h : s.memOk) : (s.homeWrite a bs).memOk :=
  State.clearPoison_memOk (State.homeWritten_memOk (State.setBytes_memOk _ _ _ h))

theorem State.dropTexels_memOk {s : State} {core a n : ℕ} (h : s.memOk) : (s.dropTexels core a n).memOk := by
  unfold State.dropTexels
  exact State.memOk_mk h

theorem State.countError_memOk {s : State} {die k n : ℕ} (h : s.memOk) : (s.countError die k n).memOk :=
  State.setReg_memOk h

theorem State.dieWrite_memOk {s : State} {die a : ℕ} {bs : List Byte} (h : s.memOk) :
    (s.dieWrite die a bs).memOk := by
  unfold State.dieWrite
  exact State.ite_memOk (State.countError_memOk h) (State.portWrite_memOk h)

theorem State.patchL1_memOk {s : State} {core a n : ℕ} (h : s.memOk) : (s.patchL1 core a n).memOk := by
  unfold State.patchL1
  exact State.memOk_mk h

theorem State.performNibbles_memOk {s : State} {core a : ℕ} {bs : List Byte} {m : Nibbles} (h : s.memOk) :
    (s.performNibbles core a bs m).memOk := by
  unfold State.performNibbles
  refine State.ite_memOk (State.countError_memOk h) ?_
  exact State.patchL1_memOk (State.dropTexels_memOk (State.portNibbles_memOk h))

theorem State.performWrite_memOk {s : State} {core a : ℕ} {bs : List Byte} (h : s.memOk) :
    (s.performWrite core a bs).memOk :=
  State.performNibbles_memOk h

theorem State.notePoison_memOk {s : State} {die src a : ℕ} (h : s.memOk) : (s.notePoison die src a).memOk := by
  unfold State.notePoison
  exact State.ite_memOk (State.countError_memOk h) (State.setReg_memOk (State.countError_memOk h))

theorem State.poisonAs_memOk {s : State} {src k : ℕ} (h : s.memOk) : (s.poisonAs src k).memOk := by
  unfold State.poisonAs
  exact State.ite_memOk (State.memOk_mk h) (State.notePoison_memOk (State.memOk_mk h))

theorem State.poisonSector_memOk {s : State} {k : ℕ} (h : s.memOk) : (s.poisonSector k).memOk :=
  State.poisonAs_memOk h

theorem State.addPoison_memOk {s : State} {a n : ℕ} (h : s.memOk) : (s.addPoison a n).memOk :=
  State.foldl_memOk (fun _ _ h => State.poisonSector_memOk h) h

theorem State.portPoison_memOk {s : State} {die a : ℕ} (h : s.memOk) : (s.portPoison die a).memOk := by
  unfold State.portPoison
  refine State.ite_memOk h ?_
  refine State.ite_memOk ?_ (State.poisonSector_memOk h)
  exact State.ite_memOk h (State.notePoison_memOk (State.memOk_mk (State.fillRemote_memOk h)))

theorem State.performStore_memOk {s : State} {p : PendingStore} (h : s.memOk) : (s.performStore p).memOk := by
  unfold State.performStore
  refine State.ite_memOk (State.performNibbles_memOk h) ?_
  exact State.ite_else_memOk (State.performWrite_memOk h) (fun h => State.patchL1_memOk (State.clearUnit_memOk h))

theorem State.queueStore_memOk {s : State} {agent : Agent} {core : ℕ} {release : Bool} {scope : BitVec 3} {a : Acc}
    (h : s.memOk) :
    (s.queueStore agent core release scope a).memOk := by
  unfold State.queueStore
  exact State.memOk_mk h

theorem State.drainStores_memOk {s : State} {p : PendingStore → Bool} (h : s.memOk) : (s.drainStores p).memOk := by
  unfold State.drainStores
  exact State.memOk_mk (State.foldl_memOk (fun _ _ h => State.performStore_memOk h) h)

theorem State.sliceLoad_memOk {s : State} {core wk : ℕ} {m : SliceMask} {a n : ℕ} (h : s.memOk) :
    (s.sliceLoad core wk m a n).1.memOk :=
  State.loadBytes_memOk h

theorem State.acquireAct_memOk {s : State} {core : ℕ} {scope : BitVec 3} (h : s.memOk) :
    (s.acquireAct core scope).memOk :=
  State.ite_else_memOk (State.ite_memOk (State.memOk_mk h) h) State.dropRemote_memOk

theorem State.releaseAct_memOk {s : State} {core : ℕ} {scope : BitVec 3} (h : s.memOk) :
    (s.releaseAct core scope).memOk := by
  unfold State.releaseAct
  exact State.ite_memOk (State.writeBackRemote_memOk h) h

theorem State.acquireAll_memOk {s : State} (h : s.memOk) : s.acquireAll.memOk :=
  State.foldl_memOk (fun _ _ h => State.dropRemote_memOk h) (State.memOk_mk h)

theorem State.releaseAll_memOk {s : State} (h : s.memOk) : s.releaseAll.memOk :=
  State.foldl_memOk (fun _ _ h => State.writeBackRemote_memOk h) h

theorem State.release_memOk {s : State} {core wk : ℕ} {m : SliceMask} {scope : BitVec 3} (h : s.memOk) :
    (s.release core wk m scope).memOk :=
  State.releaseAct_memOk (State.drainStores_memOk h)

end Sys2Proof.Machine
end

