-- ==== Sys2Proof/Proofs/WaveForm.lean ====
section
/-!
PROOFS. Waves, traps, granules and memory instructions keep the form of memory.
-/

namespace Sys2Proof.Machine

theorem State.modWave_memOk {s : State} {wk : ℕ} {f : Wave → Wave} (h : s.memOk) : (s.modWave wk f).memOk := by
  unfold State.modWave
  exact State.memOk_mk h

theorem State.unwindGate_memOk {s : State} {wk fid cause : ℕ} (h : s.memOk) : (s.unwindGate wk fid cause).memOk := by
  unfold State.unwindGate
  split
  · exact h
  · split
    · exact h
    · exact State.modWave_memOk (State.clearSlot_memOk h)

theorem State.enterTrap_memOk {s : State} {wk fid cause : ℕ} {pc ret : CodeAddr} {val : DWord} (h : s.memOk) :
    (s.enterTrap wk fid cause pc ret val).memOk := by
  unfold State.enterTrap
  split
  · exact h
  · split
    · split
      · exact h
      · refine State.ite_memOk (State.modWave_memOk h) ?_
        refine State.ite_memOk ?_ ?_
        · exact State.ite_memOk (State.unwindGate_memOk (State.modWave_memOk h)) (State.killContext_memOk (State.modWave_memOk h))
        · split
          · exact State.queueStore_memOk (State.modWave_memOk (State.modWave_memOk h))
          · exact State.ite_memOk (State.unwindGate_memOk (State.modWave_memOk h)) (State.killContext_memOk (State.modWave_memOk h))
    · exact h

theorem State.joinFence_memOk {s : State} {wk : ℕ} {m : SliceMask} (h : s.memOk) : (s.joinFence wk m).memOk := by
  unfold State.joinFence
  exact State.memOk_mk (State.modWave_memOk (State.drainStores_memOk h))

theorem State.enterBlock_memOk {s : State} {wk : ℕ} {f : Frag} (h : s.memOk) : (s.enterBlock wk f).memOk := by
  unfold State.enterBlock
  split
  · exact h
  · split
    · exact h
    · split
      · exact h
      · refine State.ite_memOk (State.enterTrap_memOk (State.modWave_memOk h)) ?_
        refine State.ite_memOk ?_ ?_
        · exact State.ite_memOk (State.enterTrap_memOk (State.modWave_memOk h)) (State.enterTrap_memOk (State.modWave_memOk h))
        · refine State.ite_memOk (State.enterTrap_memOk (State.modWave_memOk h)) ?_
          refine State.ite_then_memOk (State.modWave_memOk (State.modWave_memOk h)) (fun h => ?_)
          exact State.ite_memOk (State.enterTrap_memOk (State.modWave_memOk h)) h

theorem State.arrival_memOk {s : State} {wk : ℕ} {w : Wave} (h : s.memOk) : Optional.MemOk (s.arrival wk w) := by
  unfold State.arrival
  dsimp only
  split
  · exact .some (State.modWave_memOk (State.joinFence_memOk h))
  · split
    · exact Optional.ite_memOk .none (.some (State.enterBlock_memOk h))
    · split
      · exact .some (State.modWave_memOk h)
      · exact .none

theorem State.arrive_memOk {wk fuel : ℕ} {s : State} (h : s.memOk) : (State.arrive wk fuel s).memOk := by
  induction fuel generalizing s with
  | zero => exact h
  | succ fuel ih =>
    unfold State.arrive
    split
    · exact h
    · refine State.ite_memOk h ?_
      split
      · rename_i hx
        exact ih (Optional.memOk_of_some (State.arrival_memOk h) hx)
      · exact h

theorem State.form_memOk {s : State} {wk fid : ℕ} {seq : Option CodeAddr} {branch : Bool} (h : s.memOk) :
    (s.form wk fid seq branch).memOk := by
  unfold State.form
  split
  · exact h
  · split
    · split
      · exact h
      · exact State.modWave_memOk h
    · exact h

theorem State.settle_memOk {s : State} {wk fid : ℕ} {seq : Option CodeAddr} {branch : Bool} (h : s.memOk) :
    (s.settle wk fid seq branch).memOk :=
  State.arrive_memOk (State.form_memOk h)

theorem State.chargeIssue_memOk {s : State} {ctx core clocks : ℕ} (h : s.memOk) :
    (s.chargeIssue ctx core clocks).memOk := by
  unfold State.chargeIssue
  exact State.memOk_mk h

theorem State.setWait_memOk {s : State} {e : Env} {wt : Wait} (h : s.memOk) : (s.setWait e wt).memOk :=
  State.arrive_memOk (State.modWave_memOk h)

theorem State.holdBack_memOk {s : State} {e : Env} {wt : Wait} (h : s.memOk) : (s.holdBack e wt).memOk := by
  unfold State.holdBack
  exact State.ite_memOk (State.arrive_memOk h) (State.setWait_memOk h)

theorem State.moveLanes_memOk {s : State} {e : Env} {i : Instr} {to_ : List (ℕ × CodeAddr)} (h : s.memOk) :
    (s.moveLanes e i to_).memOk :=
  State.modWave_memOk h

theorem State.advance_memOk {s : State} {e : Env} {i : Instr} {to_ : List (ℕ × CodeAddr)} {branch : Bool}
    (h : s.memOk) :
    (s.advance e i to_ branch).memOk :=
  State.settle_memOk (State.moveLanes_memOk h)

theorem State.countIssue_memOk {s : State} {e : Env} {i : Instr} (h : s.memOk) : (s.countIssue e i).memOk :=
  State.chargeIssue_memOk (State.modWave_memOk h)

theorem State.perform_memOk {e : Env} {i : Instr} {s : State} {a : Act} (h : s.memOk) (ha : a.MemOk) :
    (State.perform e i s a).memOk := by
  cases ha with
  | writes ha => exact State.advance_memOk (State.modWave_memOk (State.countIssue_memOk ha))
  | access ha => exact State.advance_memOk (State.modWave_memOk (State.countIssue_memOk ha))
  | late ha =>
    refine State.ite_memOk (State.setWait_memOk h) ?_
    exact State.settle_memOk (State.enterTrap_memOk (State.modWave_memOk (State.countIssue_memOk ha)))
  | hold ha => exact State.setWait_memOk ha
  | split ha =>
    refine State.arrive_memOk (State.modWave_memOk (State.form_memOk ?_))
    exact State.moveLanes_memOk (State.countIssue_memOk ha)
  | trap => exact State.settle_memOk (State.enterTrap_memOk h)
  | trapIn ha => exact State.settle_memOk (State.enterTrap_memOk ha)
  | trapNext =>
    refine State.ite_memOk (State.setWait_memOk h) ?_
    exact State.settle_memOk (State.enterTrap_memOk (State.countIssue_memOk h))
  | jump ha => exact State.advance_memOk (State.countIssue_memOk ha)
  | placed ha => exact State.arrive_memOk (State.countIssue_memOk ha)

theorem State.ganged_memOk {s : State} {e : Env} {i : Instr} (h : s.memOk) : (s.ganged e i).memOk :=
  State.modWave_memOk (State.joinFence_memOk h)

theorem State.gang_memOk {s : State} {e : Env} {i : Instr} {body : Env → State → Act} (h : s.memOk)
    (hbody : ∀ x0 t, t.memOk → (body x0 t).MemOk) :
    (s.gang e i body).memOk := by
  unfold State.gang
  dsimp only
  split
  · exact State.perform_memOk h .trap
  · refine State.ite_memOk (State.settle_memOk (State.modWave_memOk h)) ?_
    refine State.ite_memOk (State.setWait_memOk h) ?_
    split
    · exact State.setWait_memOk h
    · split
      · exact State.setWait_memOk h
      · refine State.perform_memOk (State.ganged_memOk h) ?_
        exact Act.ite_memOk (.writes (State.ganged_memOk h)) (hbody _ _ (State.ganged_memOk h))

theorem State.issueIn_memOk {s : State} {e : Env} {i : Instr} {body : Env → State → Act} (h : s.memOk)
    (hbody : ∀ x0 t, t.memOk → (body x0 t).MemOk) :
    (s.issueIn e i body).memOk := by
  unfold State.issueIn
  refine State.ite_memOk (State.arrive_memOk h) ?_
  refine State.ite_memOk (State.holdBack_memOk h) ?_
  split
  · exact State.ite_memOk (State.modWave_memOk h) (State.holdBack_memOk h)
  · exact State.holdBack_memOk h
  · split
    · exact State.perform_memOk h .trap
    · refine State.ite_memOk (State.holdBack_memOk h) ?_
      split
      · exact State.perform_memOk h .trap
      · exact State.perform_memOk h .trap
      · exact State.perform_memOk h .trap
      · refine State.ite_memOk (State.perform_memOk h (.jump h)) ?_
        split
        · exact State.perform_memOk h .trap
        · exact State.ite_memOk (State.gang_memOk h hbody) (State.perform_memOk h (hbody _ _ h))

theorem issue_memOk {i : Instr} {body : Env → State → Act} {s : State} (hbody : ∀ x0 t, t.memOk → (body x0 t).MemOk)
    (h : s.memOk) :
    Outcome.MemOk (issue i body s) := by
  unfold issue
  split
  · exact .fault
  · exact .next (State.issueIn_memOk h hbody)

theorem uniOp_memOk {o : IntOp} {f : VFmt} {e : Env} {s : State} (h : s.memOk) : (uniOp o f e s).MemOk := .writes h

theorem vecOp_memOk {o : IntOp} {f : VFmt} {e : Env} {s : State} (h : s.memOk) : (vecOp o f e s).MemOk := .writes h

theorem Env.reserve_memOk {e : Env} {n : ℕ} {s : State} (h : s.memOk) : (e.reserve n s).memOk := State.modWave_memOk h

theorem floatAct_memOk {e : Env} {s : State} {draws : ℕ} {rs : List (ℕ × LaneRes)} (h : s.memOk) :
    (floatAct e s draws rs).MemOk := by
  unfold floatAct
  dsimp only
  split
  · exact .trap
  · exact .writes (State.ite_memOk h (Env.reserve_memOk h))

theorem floatOp_memOk {o : FloatOp} {rounds : Bool} {f : VFmt} {e : Env} {s : State} (h : s.memOk) :
    (floatOp o rounds f e s).MemOk :=
  floatAct_memOk h

theorem State.returnFrame_memOk {s : State} {frame : ℕ} (h : s.memOk) : (s.returnFrame frame).memOk := by
  unfold State.returnFrame
  exact State.ite_memOk h (State.memOk_mk h)

theorem State.returnGranule_memOk {s : State} {dom : ℕ} {w : DWord} (h : s.memOk) :
    (s.returnGranule dom w).memOk := by
  unfold State.returnGranule
  refine State.ite_memOk h ?_
  split
  · exact State.returnFrame_memOk h
  · exact State.returnFrame_memOk h
  · exact State.memOk_mk h
  · exact h

theorem State.takeFrom_memOk {s t : State} {list f : ℕ} {p : ℕ → Bool} (h : s.memOk)
    (hx : s.takeFrom list p = some (f, t)) : t.memOk := by
  unfold State.takeFrom at hx
  split at hx
  · cases hx
  · cases hx; exact h

theorem State.takeFrame_memOk {s t : State} {die f : ℕ} (h : s.memOk) (hx : s.takeFrame die = some (f, t)) : t.memOk :=
  State.takeFrom_memOk h hx

theorem State.setGranule_memOk {s : State} {extroot g : ℕ} {w : DWord} (h : s.memOk) :
    (s.setGranule extroot g w).memOk := by
  unfold State.setGranule
  split
  · exact State.setWord64_memOk _ _ _ h
  · exact h

theorem State.setNeed_memOk {s : State} {e : ObjEntry} {g : ℕ} {w : DWord} (h : s.memOk) :
    (s.setNeed e g w).memOk := by
  unfold State.setNeed
  exact State.ite_memOk (State.setGranule_memOk h) (State.memOk_mk h)

theorem State.touch_memOk {s : State} {dom index g : ℕ} (h : s.memOk) : (s.touch dom index g).memOk := by
  unfold State.touch
  exact State.memOk_mk h

theorem State.touchRange_memOk {s : State} {dom index off n : ℕ} (h : s.memOk) :
    (s.touchRange dom index off n).memOk :=
  State.foldl_memOk (fun _ _ h => State.touch_memOk h) h

theorem State.report_memOk {s : State} {n range reason hi lo : ℕ} (h : s.memOk) :
    (s.report n range reason hi lo).memOk := by
  unfold State.report
  split
  · exact h
  · refine State.ite_memOk h ?_
    dsimp only
    split
    · exact State.memOk_mk h
    · refine State.ite_memOk ?_ (State.ringWrite_memOk (State.memOk_mk h))
      exact State.setWord64_memOk _ _ _ (State.setWord64_memOk _ _ _ (State.memOk_mk h))

theorem State.countRange_memOk {s : State} {n dom index off len : ℕ} {parked : Bool} (h : s.memOk) :
    (s.countRange n dom index off len parked).memOk := by
  unfold State.countRange
  split
  · exact h
  · split
    · exact h
    · dsimp only
      split <;> exact State.ite_memOk (State.report_memOk (State.memOk_mk h)) (State.memOk_mk h)

theorem State.countLines_memOk {s : State} {launch : Option ℕ} {dom index : ℕ} {lines : Unit → List ℕ}
    {waited : Bool} (h : s.memOk) :
    (s.countLines launch dom index lines waited).memOk := by
  unfold State.countLines
  split
  · exact h
  · exact State.ite_memOk h (State.foldl_memOk (fun _ _ h => State.countRange_memOk h) h)

theorem State.noteEngine_memOk {s : State} {launch : Option ℕ} {dom index off n : ℕ} {waited : Bool} (h : s.memOk) :
    (s.noteEngine launch dom index off n waited).memOk :=
  State.countLines_memOk (State.touchRange_memOk h)

theorem State.noteOffsets_memOk {s : State} {launch : Option ℕ} {dom index : ℕ} {offs : List ℕ} {waited : Bool}
    (h : s.memOk) :
    (s.noteOffsets launch dom index offs waited).memOk :=
  State.countLines_memOk (State.foldl_memOk (fun _ _ h => State.touch_memOk h) h)

theorem State.queueRequest_memOk {s : State} {die dom index : ℕ} {e : ObjEntry} {g : ℕ} {launch : Option ℕ}
    {ahead : Bool} (h : s.memOk) :
    (s.queueRequest die dom index e g launch ahead).memOk := by
  unfold State.queueRequest
  exact State.ite_memOk (State.ite_memOk h (State.memOk_mk h)) (State.memOk_mk h)

theorem State.request_memOk {s : State} {die dom index : ℕ} {e : ObjEntry} {g : ℕ} {launch : Option ℕ} (h : s.memOk) :
    (s.request die dom index e g launch).memOk :=
  State.queueRequest_memOk h

theorem State.requestAcc_memOk {s : State} {die launch : ℕ} {a : Acc} (h : s.memOk) :
    (s.requestAcc die launch a).memOk := by
  unfold State.requestAcc
  exact State.ite_memOk h (State.foldl_memOk (fun _ _ h => State.ite_memOk h (State.request_memOk h)) h)

theorem State.fillObjects_memOk {s : State} {core : ℕ} {accs : List Acc} (h : s.memOk) :
    (s.fillObjects core accs).memOk :=
  State.foldl_memOk (fun _ _ h => State.cacheEntry_memOk h) h

theorem State.noteUse_memOk {s : State} {w : Who} {a : Acc} {parked : Bool} (h : s.memOk) :
    (s.noteUse w a parked).memOk := by
  refine State.ite_then_memOk ?_ State.countRange_memOk
  exact State.ite_memOk h (State.foldl_memOk (fun _ _ h => State.touch_memOk h) h)

theorem State.parks_memOk {s : State} {w : Who} {a : Acc} (h : s.memOk) : (s.parks w a).memOk :=
  State.noteUse_memOk (State.requestAcc_memOk h)

theorem State.reach_memOk {s : State} {w : Who} {a : Acc} {write : Bool} {go : State → ℕ → ℕ → AccOut} (h : s.memOk)
    (hgo : ∀ t x1 x2, t.memOk → (go t x1 x2).MemOk) :
    (s.reach w a write go).MemOk := by
  unfold State.reach
  split
  · exact .late h
  · exact .wait (State.parks_memOk h)
  · exact hgo _ _ _ (State.noteUse_memOk h)

theorem State.loadBad_memOk {s : State} {w : Who} {m : SliceMask} {p n : ℕ} (h : s.memOk) :
    (s.loadBad w m p n).1.memOk := by
  unfold State.loadBad
  exact State.ite_fst_memOk (State.drainStores_memOk h) h

theorem State.loadAcc_memOk {s : State} {w : Who} {i : Instr} {f : MFmt} {a : Acc} (h : s.memOk) :
    (s.loadAcc w i f a).MemOk := by
  refine State.reach_memOk h (fun _ _ _ h => ?_)
  split
  · refine AccOut.ite_memOk (.late (State.loadBad_memOk h)) ?_
    refine AccOut.ite_memOk ?_ ?_
    · exact AccOut.ite_memOk (.late (State.loadBad_memOk h)) (.wait (State.request_memOk (State.loadBad_memOk h)))
    · refine AccOut.ite_memOk (.late (State.loadBad_memOk h)) ?_
      refine AccOut.ite_memOk ?_ (.done (State.sliceLoad_memOk (State.loadBad_memOk h)))
      exact .done (State.sliceLoad_memOk (State.sliceLoad_memOk (State.loadBad_memOk h)))
  · exact AccOut.ite_memOk (.late (State.loadBad_memOk h)) (.done (State.sliceLoad_memOk (State.loadBad_memOk h)))

theorem State.storeAcc_memOk {s : State} {w : Who} {i : Instr} {f : MFmt} {a : Acc} (h : s.memOk) :
    (s.storeAcc w i f a).MemOk := by
  refine State.reach_memOk h (fun _ _ _ h => ?_)
  dsimp only
  split
  · refine AccOut.ite_memOk ?_ (.done (State.memOk_mk h))
    refine AccOut.ite_memOk (.late h) ?_
    exact AccOut.ite_memOk (AccOut.ite_memOk (.late h) (.wait (State.request_memOk h))) (.done (State.queueStore_memOk (State.memOk_mk h)))
  · exact .done (State.queueStore_memOk h)

theorem State.bypass_memOk {s : State} {core p : ℕ} (h : s.memOk) : (s.bypass core p).memOk :=
  State.dropTexels_memOk (State.memOk_mk (State.dropRemote_memOk h))

theorem State.drainOverlap_memOk {s : State} {w : Who} {m : SliceMask} {p n : ℕ} (h : s.memOk) :
    (s.drainOverlap w m p n).memOk :=
  State.drainStores_memOk h

theorem State.atomicAcc_memOk {s : State} {w : Who} {i : Instr} {f : MFmt} {a : Acc} (h : s.memOk) :
    (s.atomicAcc w i f a).MemOk := by
  refine State.reach_memOk h (fun _ _ _ h => ?_)
  refine AccOut.ite_memOk ?_ ?_
  · refine AccOut.ite_memOk (.late (State.bypass_memOk (State.drainOverlap_memOk h))) ?_
    exact .done (State.ite_then_memOk (State.bypass_memOk (State.drainOverlap_memOk h)) State.countError_memOk)
  · refine .done ?_
    exact State.homeWritten_memOk (State.setBytes_memOk _ _ _ (State.bypass_memOk (State.drainOverlap_memOk h)))

theorem State.drainAddAcc_memOk {s : State} {w : Who} {a : Acc} (h : s.memOk) : (s.drainAddAcc w a).MemOk := by
  refine State.reach_memOk h (fun _ _ _ h => ?_)
  refine AccOut.ite_memOk (.done (State.bypass_memOk h)) ?_
  exact .done (State.homeWritten_memOk (State.setBytes_memOk _ _ _ (State.bypass_memOk h)))

theorem State.modQueue_memOk {s : State} {launch q : ℕ} {f : StageQueue → StageQueue} (h : s.memOk) :
    (s.modQueue launch q f).memOk := by
  unfold State.modQueue
  exact State.memOk_mk h

theorem State.pushRecord_memOk {s : State} {w : Who} {k : ℕ} {bs : List Byte} (h : s.memOk) :
    (s.pushRecord w k bs).MemOk := by
  unfold State.pushRecord
  split
  · exact .done h
  · refine AccOut.ite_memOk (.wait h) ?_
    refine AccOut.ite_memOk (.done (State.modQueue_memOk h)) ?_
    exact State.reach_memOk h (fun _ _ _ h => .done (State.modQueue_memOk (State.dieWrite_memOk h)))

theorem State.popRecord_memOk {s : State} {w : Who} {k : ℕ} {got : State → List Word → AccOut} {atEnd : AccOut}
    (h : s.memOk) (hgot : ∀ t x1, t.memOk → (got t x1).MemOk) (hatEnd : atEnd.MemOk) :
    (s.popRecord w k got atEnd).MemOk := by
  unfold State.popRecord
  split
  · exact .done h
  · split
    · exact hgot _ _ (State.modQueue_memOk h)
    · exact State.reach_memOk h (fun _ _ _ h => AccOut.ite_memOk (.late h) (hgot _ _ (State.modQueue_memOk h)))
    · exact AccOut.ite_memOk hatEnd (.wait h)

theorem State.pushAcc_memOk {s : State} {w : Who} {f : MFmt} {a : Acc} (h : s.memOk) : (s.pushAcc w f a).MemOk :=
  State.pushRecord_memOk h

theorem State.popAcc_memOk {s : State} {w : Who} {f : MFmt} {a : Acc} (h : s.memOk) : (s.popAcc w f a).MemOk :=
  State.popRecord_memOk h (fun _ _ h => .done h) (.done h)

theorem State.perform1_memOk {s : State} {w : Who} {i : Instr} {a : Acc} (h : s.memOk) :
    (s.perform1 w i a).MemOk := by
  unfold State.perform1
  split
  · exact State.loadAcc_memOk h
  · exact State.loadAcc_memOk h
  · exact State.loadAcc_memOk h
  · exact State.storeAcc_memOk h
  · exact State.storeAcc_memOk h
  · exact State.storeAcc_memOk h
  · exact State.atomicAcc_memOk h
  · exact State.atomicAcc_memOk h
  · exact State.atomicAcc_memOk h
  · exact State.atomicAcc_memOk h
  · exact State.atomicAcc_memOk h
  · exact State.atomicAcc_memOk h
  · exact State.atomicAcc_memOk h
  · exact State.atomicAcc_memOk h
  · exact State.atomicAcc_memOk h
  · exact State.atomicAcc_memOk h
  · exact State.pushAcc_memOk h
  · exact State.popAcc_memOk h
  · exact State.drainAddAcc_memOk h
  · exact .done h

theorem runAccs_memOk {w : Who} {i : Instr} {s : State} {accs : List Acc} (h : s.memOk) :
    (runAccs w i s accs).s.memOk := by
  refine List.foldlRecOn (motive := fun r : RunRes => r.s.memOk = true) accs _ h fun r hr a _ => ?_
  split <;> rename_i hx
  · exact AccOut.memOk_of_done (State.perform1_memOk hr) hx
  · exact AccOut.memOk_of_wait (State.perform1_memOk hr) hx
  · exact AccOut.memOk_of_late (State.perform1_memOk hr) hx

theorem State.anyOrder_memOk {α : Type} {s : State} {meets : α → α → Bool} {l : List α} (h : s.memOk) :
    (s.anyOrder meets l).1.memOk := by
  unfold State.anyOrder
  exact State.ite_fst_memOk (State.memOk_mk h) h

theorem runWhole_memOk {w : Who} {i : Instr} {s : State} {accs : List Acc} (h : s.memOk) :
    (runWhole w i s accs).s.memOk := by
  unfold runWhole
  refine RunRes.ite_memOk h ?_
  refine RunRes.ite_memOk (State.foldl_memOk (fun _ _ h => State.parks_memOk h) h) ?_
  dsimp only
  split
  · exact State.countError_memOk (runAccs_memOk h)
  · exact runAccs_memOk h

theorem State.mixStores_memOk {s : State} {n : ℕ} (h : s.memOk) : (s.mixStores n).memOk := by
  unfold State.mixStores
  exact State.memOk_mk (State.anyOrder_memOk h)

theorem runLanes_memOk {w : Who} {i : Instr} {s : State} {accs : List Acc} (h : s.memOk) :
    (runLanes w i s accs).s.memOk := by
  unfold runLanes
  refine RunRes.ite_memOk (runWhole_memOk h) ?_
  refine RunRes.ite_memOk (runAccs_memOk (State.anyOrder_memOk h)) ?_
  exact State.ite_memOk (State.mixStores_memOk (runAccs_memOk h)) (runAccs_memOk h)

theorem State.regsNow_memOk {s : State} {wk : ℕ} {ws : List RegWrite} (h : s.memOk) : (s.regsNow wk ws).memOk :=
  State.modWave_memOk h

theorem Env.accessAct_memOk {e : Env} {i : Instr} {s : State} {accs : List Acc} (h : s.memOk) :
    (e.accessAct i s accs).MemOk := by
  have hr {c d : Prop} {_ : Decidable c} {_ : Decidable d} {scope : BitVec 3} {u : State} (hu : u.memOk) :
      (if d then (if c then u.release e.core e.wk e.who.slices scope else u).acquireAct e.core scope
        else if c then u.release e.core e.wk e.who.slices scope else u).memOk = true :=
    State.ite_else_memOk (State.ite_else_memOk hu State.release_memOk) State.acquireAct_memOk
  have hf := State.fillObjects_memOk (core := e.core) (accs := accs) h
  unfold Env.accessAct
  split
  · split
    · exact .hold h
    · refine Act.ite_memOk (.writes (runLanes_memOk (hr hf))) ?_
      dsimp only
      split
      · exact .late (State.regsNow_memOk (runLanes_memOk (hr hf)))
      · exact .access (State.regsNow_memOk (runLanes_memOk (hr hf)))

theorem Env.accesses_memOk {e : Env} {i : Instr} {s : State} {xs : List (Except (ℕ × DWord) Acc)} (h : s.memOk) :
    (e.accesses i s xs).MemOk := by
  unfold Env.accesses
  split
  · exact .trap
  · exact Env.accessAct_memOk h

theorem State.lateTrap_memOk {s : State} {wk : ℕ} {p : Pending} {c : LateCause} {val : DWord} (h : s.memOk) :
    (s.lateTrap wk p c val).memOk := by
  unfold State.lateTrap
  split
  · exact h
  · split
    · exact h
    · split
      · exact h
      · refine State.ite_memOk ?_ ?_
        · exact State.ite_memOk (State.damage_memOk h) (State.killLaunch_memOk h)
        · refine State.ite_memOk h ?_
          split
          · exact h
          · exact State.settle_memOk (State.enterTrap_memOk (State.modWave_memOk h))

theorem State.replay_memOk {s : State} {wk : ℕ} {p : Pending} (h : s.memOk) : (s.replay wk p).memOk := by
  unfold State.replay
  split
  · exact h
  · split
    · exact h
    · split
      · dsimp only
        split
        · refine State.lateTrap_memOk ?_
          refine State.modWave_memOk ?_
          exact State.regsNow_memOk (runLanes_memOk (State.ite_memOk (State.acquireAct_memOk h) h))
        · refine State.modWave_memOk ?_
          exact State.regsNow_memOk (runLanes_memOk (State.ite_memOk (State.acquireAct_memOk h) h))

theorem Env.elements_memOk {e : Env} {i : Instr} {f : MFmt} {s : State} {xs : List (Except (ℕ × DWord) Acc)}
    (h : s.memOk) :
    (e.elements i f s xs).MemOk := by
  unfold Env.elements
  split
  · exact .trap
  · exact Act.ite_memOk .trap (Env.accessAct_memOk h)

theorem State.setScratch_memOk {s : State} {g a : ℕ} {b : Byte} (h : s.memOk) : (s.setScratch g a b).memOk := by
  unfold State.setScratch
  split
  · exact h
  · split
    · exact State.setByte_memOk _ _ _ h
    · exact State.memOk_mk h

theorem State.setScratchBytes_memOk {s : State} {g a : ℕ} {bs : List Byte} (h : s.memOk) :
    (s.setScratchBytes g a bs).memOk := by
  induction bs generalizing s a with
  | nil => exact h
  | cons b bs ih => exact ih (State.setScratch_memOk h)

theorem Env.scratchOrdered_memOk {e : Env} {i : Instr} {s : State} {go : State → Act} (h : s.memOk)
    (hgo : ∀ t, t.memOk → (go t).MemOk) :
    (e.scratchOrdered i s go).MemOk := by
  unfold Env.scratchOrdered
  split
  · split
    · exact .hold h
    · exact hgo _ (State.ite_else_memOk (State.ite_memOk (State.release_memOk h) h) State.acquireAct_memOk)

theorem scratchLoad_memOk {i : Instr} {f : MFmt} {crank : Option Operand} {e : Env} {s : State} (h : s.memOk) :
    (scratchLoad i f crank e s).MemOk := by
  unfold scratchLoad
  split
  · exact .trap
  · exact Env.scratchOrdered_memOk h (fun _ h => .writes h)

theorem scratchStore_memOk {i : Instr} {f : MFmt} {crank : Option Operand} {e : Env} {s : State} (h : s.memOk) :
    (scratchStore i f crank e s).MemOk := by
  unfold scratchStore
  split
  · exact .trap
  · refine Env.scratchOrdered_memOk h (fun _ h => ?_)
    exact .writes (State.foldl_memOk (fun _ _ h => State.setScratchBytes_memOk h) (State.anyOrder_memOk h))

theorem State.prefetch_memOk {s : State} {e : Env} {a : Acc} (h : s.memOk) : (s.prefetch e a).memOk := by
  unfold State.prefetch
  split
  · exact State.loadBytes_memOk h
  · exact State.ite_memOk h (State.requestAcc_memOk h)

theorem execPref_memOk {f : MFmt} {s : State} (h : s.memOk) : Outcome.MemOk (execPref f s) := by
  refine issue_memOk (fun _ _ h => ?_) h
  exact .writes (State.foldl_memOk (fun _ _ h => State.prefetch_memOk h) (State.fillObjects_memOk h))

theorem State.evictBlock_memOk {s : State} {core p : ℕ} (h : s.memOk) : (s.evictBlock core p).memOk := by
  unfold State.evictBlock
  exact State.memOk_mk (State.dropRemote_memOk h)

theorem execEvict_memOk {f : MFmt} {s : State} (h : s.memOk) : Outcome.MemOk (execEvict f s) := by
  refine issue_memOk (fun _ _ h => ?_) h
  refine .writes ?_
  refine State.foldl_memOk (fun _ _ h => ?_) (State.fillObjects_memOk h)
  split
  · exact State.evictBlock_memOk h
  · exact h

theorem execFence_memOk {f : MFmt} {s : State} (h : s.memOk) : Outcome.MemOk (execFence f s) := by
  refine issue_memOk (fun _ _ h => ?_) h
  split
  · exact .hold h
  · exact .writes (State.ite_else_memOk (State.ite_memOk (State.release_memOk h) h) State.acquireAct_memOk)

theorem State.requestNeeds_memOk {s : State} {die : ℕ} {launch : Option ℕ} {ns : List Need} (h : s.memOk) :
    (s.requestNeeds die launch ns).memOk :=
  State.foldl_memOk (fun _ _ h => State.request_memOk h) h

theorem Env.holdFor_memOk {e : Env} {s : State} {ns : List Need} {val : DWord} (h : s.memOk) :
    (e.holdFor s ns val).MemOk := by
  unfold Env.holdFor
  refine Act.ite_memOk .trap ?_
  dsimp only
  split <;> exact .hold (State.requestNeeds_memOk h)

theorem State.engineWrite_memOk {s : State} {core : ℕ} {cells : List (ℕ × Byte)} {bad : List ℕ} (h : s.memOk) :
    (s.engineWrite core cells bad).memOk := by
  refine State.foldl_memOk (fun _ _ h => ?_) ?_
  · exact State.patchL1_memOk (State.portPoison_memOk h)
  · exact State.foldl_memOk (fun _ _ h => State.performWrite_memOk h) h

theorem State.fillRefs_memOk {s : State} {core dom : ℕ} {refs : List DWord} (h : s.memOk) :
    (s.fillRefs core dom refs).memOk :=
  State.foldl_memOk (fun _ _ h => State.cacheEntry_memOk h) h

theorem State.updateBatches_memOk {s : State} {wk : ℕ} (h : s.memOk) : (s.updateBatches wk).memOk :=
  State.modWave_memOk h

theorem State.engineKill_memOk {s : State} {wk : ℕ} {pc : CodeAddr} {reason cause : ℕ} (h : s.memOk) :
    (s.engineKill wk pc reason cause).memOk := by
  unfold State.engineKill
  split
  · exact h
  · split
    · exact h
    · split
      · exact h
      · exact State.killLaunch_memOk h

theorem State.engineDamage_memOk {s : State} {wk : ℕ} {pc : CodeAddr} (h : s.memOk) :
    (s.engineDamage wk pc).memOk := by
  unfold State.engineDamage
  split
  · exact h
  · exact State.damage_memOk h

theorem State.setLog_memOk {s : State} {g : ℕ} {log : List LogEntry} (h : s.memOk) : (s.setLog g log).memOk := by
  unfold State.setLog
  exact State.memOk_mk h

theorem State.applyEntries_memOk {s : State} {g core launch : ℕ} {log : List LogEntry} (h : s.memOk) :
    (s.applyEntries g core launch log).memOk := by
  induction log generalizing s with
  | nil => exact State.setLog_memOk h
  | cons x rest ih =>
    have hr {m : BitVec 2} {scope : BitVec 3} {w : Who} :
        (runLanes w x.instr (if m.getLsbD 0 then s.acquireAct core scope else s) x.accs).s.memOk :=
      runLanes_memOk (State.ite_memOk (State.acquireAct_memOk h) h)
    unfold State.applyEntries
    dsimp only
    split
    · exact State.setLog_memOk (State.engineKill_memOk hr)
    · exact State.ite_memOk (ih (State.updateBatches_memOk (State.setLog_memOk hr))) (State.setLog_memOk hr)

theorem State.applyLog_memOk {s : State} {g : ℕ} (h : s.memOk) : (s.applyLog g).memOk := by
  unfold State.applyLog
  split
  · exact h
  · split
    · exact h
    · exact State.ite_memOk (State.applyEntries_memOk h) h

theorem State.writeLog_memOk {s : State} {core : ℕ} {dom : BitVec 16} {la : Launch} {place n : ℕ} (h : s.memOk) :
    (s.writeLog core dom la place n).memOk :=
  State.bumpFree_memOk (State.engineWrite_memOk h)

theorem Env.logUpdate_memOk {e : Env} {i : Instr} {s : State} {wg : Workgroup} {accs : List Acc}
    {batch : Option Word} (h : s.memOk) :
    (e.logUpdate i s wg accs batch).MemOk := by
  unfold Env.logUpdate
  refine Act.ite_memOk (Env.holdFor_memOk h) ?_
  split
  · refine .writes ?_
    exact State.memOk_mk (State.writeLog_memOk (State.ite_else_memOk (State.fillObjects_memOk h) State.release_memOk))

theorem Env.commit_memOk {e : Env} {i : Instr} {returns : Bool} {s : State} {accs : List Acc} (h : s.memOk) :
    (e.commit i returns s accs).MemOk := by
  unfold Env.commit
  refine Act.ite_memOk (Env.accessAct_memOk h) ?_
  dsimp only
  split
  · exact .hold (State.applyLog_memOk h)
  · refine Act.ite_memOk (Env.accessAct_memOk (State.applyLog_memOk h)) ?_
    refine Act.ite_memOk (.hold (State.applyLog_memOk h)) ?_
    split
    · exact .hold (State.applyLog_memOk h)
    · exact Env.logUpdate_memOk (State.applyLog_memOk h)

end Sys2Proof.Machine
end

