-- ==== Sys2Proof/Proofs/EngineForm.lean ====
section
/-!
PROOFS. The engines keep the form of memory.
-/

namespace Sys2Proof.Machine

theorem State.useImage_memOk {s : State} {core key : ℕ} (h : s.memOk) : (s.useImage core key).memOk := by
  unfold State.useImage
  exact State.memOk_mk h

theorem State.cacheImage_memOk {s : State} {core : ℕ} {dom : BitVec 16} {ref : DWord} {bytes : List Byte}
    (h : s.memOk) :
    (s.cacheImage core dom ref bytes).memOk := by
  unfold State.cacheImage
  exact State.memOk_mk h

theorem State.dropImages_memOk {s : State} {core : ℕ} {p : WImage → Bool} (h : s.memOk) :
    (s.dropImages core p).memOk := by
  unfold State.dropImages
  exact State.memOk_mk h

theorem State.startFill_memOk {s : State} {core : ℕ} {dom : BitVec 16} {ref : DWord} {wk : ℕ} {m : SliceMask}
    {ch : Option ℕ} (h : s.memOk) :
    (s.startFill core dom ref wk m ch).memOk := by
  unfold State.startFill
  exact State.ite_memOk h (State.memOk_mk h)

theorem Env.headers_memOk {e : Env} {s : State} {o : Operand} {kindOk : THeader → Bool} (h : s.memOk) :
    (e.headers s o kindOk).MemOk := by
  unfold Env.headers
  dsimp only
  split
  · exact .stop (Act.ite_memOk .trap (Env.holdFor_memOk h))
  · refine HdrOut.ite_memOk (.stop (Env.holdFor_memOk h)) ?_
    split
    · exact .stop .trap
    · split
      · exact .stop (.hold h)
      · exact .ok

theorem State.texelByte_memOk {s : State} {core a : ℕ} (h : s.memOk) : (s.texelByte core a).1.memOk := by
  unfold State.texelByte
  dsimp only
  split
  · exact h
  · exact State.memOk_mk (State.noteL2_memOk (State.fillRemote_memOk h))

theorem State.readTexels_memOk {s : State} {core dom : ℕ} {j : SampleJob} (h : s.memOk) :
    (s.readTexels core dom j).1.memOk := by
  refine State.foldl_fst_memOk (fun _ _ h => ?_) h
  split
  · exact h
  · exact State.foldl_fst_memOk (fun _ _ h => State.texelByte_memOk h) h

theorem State.runJob_memOk {s : State} {w : Who} {dom : BitVec 16} {i : Instr} {j : SampleJob} (h : s.memOk) :
    (s.runJob w dom i j).MemOk := by
  unfold State.runJob
  refine AccOut.ite_memOk (.late h) ?_
  refine AccOut.ite_memOk ?_ ?_
  · refine AccOut.ite_memOk (.late h) ?_
    exact .wait (State.foldl_memOk (fun _ _ h => State.noteUse_memOk (State.requestAcc_memOk h)) h)
  · refine AccOut.ite_memOk (.late h) ?_
    refine AccOut.ite_memOk (.late h) ?_
    refine AccOut.ite_memOk (.wait h) ?_
    exact .done (State.readTexels_memOk (State.foldl_memOk (fun _ _ h => State.noteUse_memOk h) h))

theorem State.tryJob_memOk {s : State} {w : Who} {dom : BitVec 16} {i : Instr} {j : SampleJob} (h : s.memOk) :
    (s.tryJob w dom i j).MemOk := by
  unfold State.tryJob
  split
  · exact AccOut.ite_memOk (.late h) (.wait (State.requestNeeds_memOk h))
  · exact .late h
  · exact State.runJob_memOk (State.ite_memOk (State.cacheImage_memOk h) h)

theorem runJobs_memOk {w : Who} {dom : BitVec 16} {i : Instr} {s : State} {js : List SampleJob} (h : s.memOk) :
    (runJobs w dom i s js).s.memOk := by
  refine List.foldlRecOn (motive := fun r : JobRes => r.s.memOk = true) js _ h fun r hr j _ => ?_
  split <;> rename_i hx
  · exact AccOut.memOk_of_done (State.tryJob_memOk hr) hx
  · exact AccOut.memOk_of_wait (State.tryJob_memOk hr) hx
  · exact AccOut.memOk_of_late (State.tryJob_memOk hr) hx

theorem Env.noteHeaders_memOk {e : Env} {s : State} {refs : List DWord} (h : s.memOk) :
    (e.noteHeaders s refs).memOk :=
  State.foldl_memOk (fun _ _ h => State.noteEngine_memOk h) h

theorem Env.sampleAct_memOk {e : Env} {i : Instr} {s : State} {draws : ℕ} {js : List SampleJob} (h : s.memOk) :
    (e.sampleAct i s draws js).MemOk := by
  have hr {c : Prop} {_ : Decidable c} {accs : List Acc} {refs : List DWord} :
      (if c then e.noteHeaders (s.fillObjects e.core accs) refs
        else e.reserve draws (e.noteHeaders (s.fillObjects e.core accs) refs)).memOk = true :=
    State.ite_then_memOk (Env.noteHeaders_memOk (State.fillObjects_memOk h)) Env.reserve_memOk
  unfold Env.sampleAct
  split
  · exact .hold h
  · refine Act.ite_memOk (.writes (runJobs_memOk hr)) ?_
    dsimp only
    split
    · exact .late (State.regsNow_memOk (runJobs_memOk hr))
    · exact .access (State.regsNow_memOk (runJobs_memOk hr))

theorem State.replaySampler_memOk {s : State} {wk : ℕ} {p : Pending} (h : s.memOk) :
    (s.replaySampler wk p).memOk := by
  unfold State.replaySampler
  split
  · exact h
  · split
    · exact h
    · dsimp only
      split
      · exact State.lateTrap_memOk (State.modWave_memOk (State.regsNow_memOk (runJobs_memOk h)))
      · exact State.modWave_memOk (State.regsNow_memOk (runJobs_memOk h))

theorem State.parityError_memOk {s : State} {wk id : ℕ} (h : s.memOk) : (s.parityError wk id).memOk := by
  unfold State.parityError
  split
  · split
    · exact State.ite_memOk h (State.replaySampler_memOk (State.modWave_memOk (State.dropImages_memOk h)))
    · exact h
  · exact h

theorem Env.sampleReady_memOk {e : Env} {s : State} (h : s.memOk) : (e.sampleReady s).memOk :=
  State.drainStores_memOk h

theorem execSample_memOk {f : GFmt} {s : State} (h : s.memOk) : Outcome.MemOk (execSample f s) := by
  refine issue_memOk (fun _ _ h => ?_) h
  dsimp only
  split
  · rename_i hx
    exact HdrOut.memOk_of_stop (Env.headers_memOk (Env.sampleReady_memOk h)) hx
  · exact Env.sampleAct_memOk (Env.sampleReady_memOk h)

theorem execGather_memOk {f : GFmt} {s : State} (h : s.memOk) : Outcome.MemOk (execGather f s) := by
  refine issue_memOk (fun _ _ h => ?_) h
  dsimp only
  split
  · rename_i hx
    exact HdrOut.memOk_of_stop (Env.headers_memOk (Env.sampleReady_memOk h)) hx
  · exact Act.ite_memOk .trap (Env.sampleAct_memOk (Env.sampleReady_memOk h))

theorem Env.awaitFill_memOk {e : Env} {s : State} {ref : DWord} {ch : Option ℕ} (h : s.memOk) :
    (e.awaitFill s ref ch).MemOk := by
  unfold Env.awaitFill
  split
  · exact .hold h
  · exact .hold (State.startFill_memOk h)

theorem Env.cachedNets_memOk {e : Env} {s : State} {hs : List LaneHdr} (h : s.memOk) : (e.cachedNets s hs).MemOk := by
  unfold Env.cachedNets
  dsimp only
  split
  · exact .stop .trap
  · exact .ok (State.foldl_memOk (fun _ _ h => State.useImage_memOk h) h)

theorem Env.fillNets_memOk {e : Env} {s : State} {hs : List LaneHdr} {acc : List (LaneHdr × List Byte)} (h : s.memOk) :
    (e.fillNets s hs acc).MemOk := by
  induction hs generalizing s acc with
  | nil => exact .ok h
  | cons x r ih =>
    unfold Env.fillNets
    dsimp only
    split
    · exact NetOut.ite_memOk (.stop .trap) (ih (State.useImage_memOk h))
    · split
      · exact .stop (.hold h)
      · split
        · exact .stop (Env.holdFor_memOk h)
        · exact .stop .trap
        · exact ih (State.noteEngine_memOk (State.cacheImage_memOk h))

theorem Env.nets_memOk {e : Env} {s : State} {hs : List LaneHdr} (h : s.memOk) : (e.nets s hs).MemOk := by
  unfold Env.nets
  dsimp only
  split
  · exact Env.cachedNets_memOk h
  · refine NetOut.ite_memOk (Env.fillNets_memOk h) ?_
    exact .stop (Env.awaitFill_memOk (State.foldl_memOk (fun _ _ h => State.useImage_memOk h) h))

theorem execSampleN_memOk {f : GFmt} {s : State} (h : s.memOk) : Outcome.MemOk (execSampleN f s) := by
  refine issue_memOk (fun _ _ h => ?_) h
  dsimp only
  split
  · rename_i hx
    exact HdrOut.memOk_of_stop (Env.headers_memOk (Env.sampleReady_memOk h)) hx
  · split
    · rename_i hx
      exact NetOut.memOk_of_stop (Env.nets_memOk (Env.sampleReady_memOk h)) hx
    · rename_i hx
      exact Env.sampleAct_memOk (NetOut.memOk_of_ok (Env.nets_memOk (Env.sampleReady_memOk h)) hx)

theorem execTexq_memOk {f : GFmt} {s : State} (h : s.memOk) : Outcome.MemOk (execTexq f s) := by
  refine issue_memOk (fun _ _ h => ?_) h
  dsimp only
  split
  · rename_i hx
    exact HdrOut.memOk_of_stop (Env.headers_memOk (Env.sampleReady_memOk h)) hx
  · split
    · rename_i hx
      exact NetOut.memOk_of_stop (Env.nets_memOk (Env.sampleReady_memOk h)) hx
    · rename_i hx
      refine .writes ?_
      refine Env.noteHeaders_memOk ?_
      exact State.fillRefs_memOk (NetOut.memOk_of_ok (Env.nets_memOk (Env.sampleReady_memOk h)) hx)

theorem execWpin_memOk {f : GFmt} {s : State} (h : s.memOk) : Outcome.MemOk (execWpin f s) := by
  refine issue_memOk (fun _ _ h => ?_) h
  split
  · exact .trap
  · dsimp only
    split
    · exact Env.awaitFill_memOk h
    · exact .writes (State.ite_memOk (State.modWave_memOk (State.useImage_memOk h)) (State.useImage_memOk h))

theorem execWunpin_memOk {f : GFmt} {s : State} (h : s.memOk) : Outcome.MemOk (execWunpin f s) := by
  refine issue_memOk (fun _ _ h => ?_) h
  split
  · exact .trap
  · exact .writes (State.modWave_memOk h)

theorem execWinv_memOk {f : GFmt} {s : State} (h : s.memOk) : Outcome.MemOk (execWinv f s) := by
  refine issue_memOk (fun _ _ h => ?_) h
  split
  · exact .trap
  · split
    · exact .hold h
    · exact .writes (State.dropImages_memOk (State.acquireAct_memOk (State.release_memOk h)))

theorem execWeightFillComplete_memOk {core fill : ℕ} {s : State} (h : s.memOk) :
    Outcome.MemOk (execWeightFillComplete core fill s) := by
  unfold execWeightFillComplete
  dsimp only
  split
  · exact .next h
  · split
    · refine Outcome.ite_memOk (.next ?_) ?_
      · refine State.foldl_memOk (fun _ _ h => ?_) (State.memOk_mk (State.drainStores_memOk h))
        split
        · exact State.settle_memOk (State.enterTrap_memOk h)
        · exact h
      · exact .next (State.requestNeeds_memOk (State.memOk_mk (State.drainStores_memOk h)))
    · refine .next ?_
      refine State.foldl_memOk (fun _ _ h => ?_) (State.memOk_mk (State.drainStores_memOk h))
      split
      · exact State.settle_memOk (State.enterTrap_memOk h)
      · exact h
    · exact .next (State.noteEngine_memOk (State.cacheImage_memOk (State.memOk_mk (State.drainStores_memOk h))))

theorem State.endTraversal_memOk {s : State} {wk lane : ℕ} (h : s.memOk) : (s.endTraversal wk lane).memOk := by
  unfold State.endTraversal
  split
  · exact h
  · split
    · exact State.modWave_memOk (State.ite_memOk (State.modPins_memOk (State.memOk_mk h)) (State.memOk_mk h))
    · exact h

theorem State.readNodes_memOk {s : State} {wk : ℕ} {waited : Bool} {r : RaySlot} (h : s.memOk) :
    (s.readNodes wk waited r).1.memOk := by
  unfold State.readNodes
  split
  · exact h
  · exact State.ite_memOk (State.noteOffsets_memOk (State.memOk_mk h)) (State.memOk_mk h)

theorem execRayTraversalEnd_memOk {wk lane : ℕ} {s : State} (h : s.memOk) :
    Outcome.MemOk (execRayTraversalEnd wk lane s) := by
  unfold execRayTraversalEnd
  refine Outcome.ite_memOk (.next h) ?_
  split
  · exact .next h
  · split
    · split
      · rename_i hx
        refine Outcome.ite_memOk ?_ ?_
        · exact .next (State.endTraversal_memOk (State.memOk_of_fst (State.readNodes_memOk h) hx))
        · refine Outcome.ite_memOk ?_ ?_
          · exact .next (State.lateTrap_memOk (State.modWave_memOk (State.memOk_of_fst (State.readNodes_memOk h) hx)))
          · refine Outcome.ite_memOk ?_ ?_
            · refine .next ?_
              exact State.lateTrap_memOk (State.modWave_memOk (State.memOk_of_fst (State.readNodes_memOk h) hx))
            · refine .next ?_
              exact State.requestNeeds_memOk (State.modWave_memOk (State.memOk_of_fst (State.readNodes_memOk h) hx))
    · exact .next h

theorem State.runRaysOn_memOk {s : State} {wk : ℕ} (h : s.memOk) : (s.runRaysOn wk).memOk := by
  unfold State.runRaysOn
  split
  · exact h
  · refine State.foldl_memOk (fun _ _ h => ?_) h
    split
    · exact h
    · split
      · rename_i hx
        refine State.ite_else_memOk ?_ State.endTraversal_memOk
        exact State.bumpFree_memOk (State.memOk_of_fst (State.readNodes_memOk h) hx)

theorem execRayPin_memOk {f : GFmt} {s : State} (h : s.memOk) : Outcome.MemOk (execRayPin f s) := by
  refine issue_memOk (fun _ _ h => ?_) h
  dsimp only
  split
  · exact .trap
  · refine Act.ite_memOk (Env.holdFor_memOk h) ?_
    refine Act.ite_memOk .trap ?_
    refine Act.ite_memOk (.writes (State.acquireAct_memOk h)) ?_
    exact .writes (State.modWave_memOk (State.modPins_memOk (State.acquireAct_memOk h)))

theorem Env.rayAct_memOk {e : Env} {i : Instr} {s : State} (h : s.memOk) : (e.rayAct i s).MemOk := .access h

theorem execRayTrace_memOk {f : GFmt} {s : State} (h : s.memOk) : Outcome.MemOk (execRayTrace f s) := by
  refine issue_memOk (fun _ _ h => ?_) h
  refine Act.ite_memOk .trap ?_
  dsimp only
  split
  · exact .trap
  · split
    · exact .hold h
    · refine Env.rayAct_memOk (State.foldl_memOk (fun _ _ h => ?_) h)
      split
      · exact State.modWave_memOk (State.modPins_memOk (State.modPins_memOk h))
      · exact State.modWave_memOk (State.modPins_memOk h)

theorem execRayNext_memOk {f : GFmt} {s : State} (h : s.memOk) : Outcome.MemOk (execRayNext f s) := by
  refine issue_memOk (fun _ _ h => ?_) h
  refine Act.ite_memOk .trap ?_
  exact Env.rayAct_memOk (State.foldl_memOk (fun _ _ h => State.bumpFree_memOk (State.modWave_memOk h)) h)

theorem execRayUnpin_memOk {f : GFmt} {s : State} (h : s.memOk) : Outcome.MemOk (execRayUnpin f s) := by
  refine issue_memOk (fun _ _ h => ?_) h
  exact Act.ite_memOk .trap (.writes (State.modWave_memOk (State.unpinGeneration_memOk h)))

theorem Env.build_memOk {e : Env} {s : State} {i : Instr} {bvh : DWord} {be : ObjEntry} {geo : DWord}
    {ge : ObjEntry} {n : ℕ} {scope : BitVec 3} (h : s.memOk) :
    (e.build s i bvh be geo ge n scope).MemOk := by
  unfold Env.build
  split
  · exact .hold h
  · exact .writes (State.memOk_mk (State.fillRefs_memOk h))

theorem Env.buildChecked_memOk {e : Env} {s : State} {i : Instr} {f : GFmt} (h : s.memOk) :
    (e.buildChecked s i f).MemOk := by
  unfold Env.buildChecked
  dsimp only
  split
  · exact .trap
  · split
    · exact .trap
    · exact Act.ite_memOk .trap (Env.build_memOk h)

theorem Env.buildPlain_memOk {e : Env} {s : State} {i : Instr} {f : GFmt} (h : s.memOk) :
    (e.buildPlain s i f).MemOk := by
  unfold Env.buildPlain
  dsimp only
  split
  · exact .trap
  · exact Env.build_memOk h

theorem State.builderWrite_memOk {s : State} {o : BuildOp} {a : ℕ} {bs : List Byte} (h : s.memOk) :
    (s.builderWrite o a bs).memOk :=
  State.patchL1_memOk (State.homeWrite_memOk h)

theorem State.setCtrl_memOk {s : State} {o : BuildOp} {off n x : ℕ} (h : s.memOk) : (s.setCtrl o off n x).memOk := by
  unfold State.setCtrl
  exact State.builderWrite_memOk h

theorem State.setBvh_memOk {s : State} {o : BuildOp} {b : Bvh} (h : s.memOk) : (s.setBvh o b).memOk := by
  unfold State.setBvh
  exact State.memOk_mk h

theorem State.reclaim_memOk {s : State} {o : BuildOp} (h : s.memOk) : (s.reclaim o).memOk := by
  refine State.foldl_memOk (fun _ _ h => ?_) h
  exact State.ite_memOk (State.setCtrl_memOk (State.setCtrl_memOk (State.setBvh_memOk h))) h

theorem State.noteBuild_memOk {s : State} {o : BuildOp} (h : s.memOk) : (s.noteBuild o).memOk := by
  unfold State.noteBuild
  exact State.ite_memOk (State.noteEngine_memOk h) (State.noteEngine_memOk (State.noteEngine_memOk h))

theorem State.setBuild_memOk {s : State} {n : ℕ} {o : BuildOp} (h : s.memOk) : (s.setBuild n o).memOk := by
  unfold State.setBuild
  exact State.memOk_mk h

theorem execArmatureOpStart_memOk {die : BitVec 2} {s : State} (h : s.memOk) :
    Outcome.MemOk (execArmatureOpStart die s) := by
  have hs {c : Prop} {_ : Decidable c} : (if c then s else s.bumpFree).memOk = true :=
    State.ite_memOk h (State.bumpFree_memOk h)
  unfold execArmatureOpStart
  refine Outcome.ite_memOk (.next h) ?_
  dsimp only
  split
  · exact .next hs
  · split
    · exact .next hs
    · refine Outcome.ite_memOk (.next (State.engineDamage_memOk hs)) (Outcome.ite_memOk ?_ ?_)
      · refine Outcome.ite_memOk (.next (State.engineKill_memOk hs)) ?_
        exact .next (State.requestNeeds_memOk (State.setBuild_memOk hs))
      · have hb {c : Prop} {_ : Decidable c} {p : PendingStore → Bool} {o : BuildOp} :
            ((((if c then s else s.bumpFree).drainStores p).noteBuild o).reclaim o).memOk = true :=
          State.reclaim_memOk (State.noteBuild_memOk (State.drainStores_memOk hs))
        refine Outcome.ite_memOk (.next (State.setBuild_memOk (State.bumpFree_memOk hb))) ?_
        exact .next (State.setCtrl_memOk (State.setBuild_memOk (State.bumpFree_memOk (State.bumpFree_memOk hb))))

theorem State.writeNodes_memOk {s : State} {o : BuildOp} {g : Geometry} (h : s.memOk) : (s.writeNodes o g).memOk := by
  unfold State.writeNodes
  refine State.ite_memOk h ?_
  refine State.memOk_mk ?_
  refine State.foldl_memOk (fun _ _ h => ?_) ?_
  · exact State.addPoison_memOk h
  · exact State.foldl_memOk (fun _ _ h => State.builderWrite_memOk h) (State.touchRange_memOk h)

theorem State.putDraft_memOk {s : State} {o : BuildOp} {g : Geometry} (h : s.memOk) : (s.putDraft o g).memOk := by
  unfold State.putDraft
  refine State.memOk_mk ?_
  refine State.setCtrl_memOk ?_
  exact State.setCtrl_memOk (State.setCtrl_memOk (State.setBvh_memOk (State.writeNodes_memOk h)))

theorem State.publish_memOk {s : State} {o : BuildOp} {d : Geometry} {m : ℕ} (h : s.memOk) :
    (s.publish o d m).memOk := by
  refine State.setCtrl_memOk ?_
  refine State.releaseAct_memOk ?_
  refine State.setCtrl_memOk ?_
  exact State.foldl_memOk (fun _ _ h => State.setCtrl_memOk h) (State.setCtrl_memOk (State.setBvh_memOk h))

theorem State.runBuild_memOk {s : State} {o : BuildOp} (h : s.memOk) : (s.runBuild o).1.memOk := by
  unfold State.runBuild
  dsimp only
  split
  · exact State.ite_fst_memOk h (State.putDraft_memOk h)
  · split
    · exact State.setCtrl_memOk h
    · exact State.ite_fst_memOk (State.setCtrl_memOk h) (State.ite_fst_memOk h (State.putDraft_memOk h))
  · split
    · exact State.setCtrl_memOk h
    · exact State.ite_fst_memOk h (State.putDraft_memOk h)
  · split
    · exact h
    · split
      · exact h
      · exact State.publish_memOk h

theorem execArmatureOpComplete_memOk {die : BitVec 2} {s : State} (h : s.memOk) :
    Outcome.MemOk (execArmatureOpComplete die s) := by
  unfold execArmatureOpComplete
  split
  · exact .next h
  · split
    · exact .next h
    · refine Outcome.ite_memOk (.next h) ?_
      refine Outcome.ite_memOk (.next (State.engineDamage_memOk h)) ?_
      refine Outcome.ite_memOk ?_ ?_
      · exact Outcome.ite_memOk (.next (State.engineKill_memOk h)) (.next (State.requestNeeds_memOk h))
      · split
        · rename_i hx
          refine .next ?_
          refine State.updateBatches_memOk ?_
          refine State.memOk_mk ?_
          exact State.releaseAct_memOk (State.setCtrl_memOk (State.memOk_of_fst (State.runBuild_memOk h) hx))

theorem atomOp_memOk {i : Instr} {f : MFmt} {float returns : Bool} {x cmp : Operand} {e : Env} {s : State}
    (h : s.memOk) :
    (atomOp i f float returns x cmp e s).MemOk := by
  unfold atomOp
  dsimp only
  split
  · exact .trap
  · exact Env.commit_memOk h

theorem atomForm_memOk {i : Instr} {f : MFmt} {float : Bool} {e : Env} {s : State} (h : s.memOk) :
    (atomForm i f float e s).MemOk := by
  unfold atomForm
  split <;> exact atomOp_memOk h

theorem Env.withClaim_memOk {e : Env} {s : State} {go : State → Act} (h : s.memOk) (hgo : ∀ t, t.memOk → (go t).MemOk) :
    (e.withClaim s go).MemOk := by
  unfold Env.withClaim
  split
  · exact Act.ite_memOk (hgo _ h) (.hold h)
  · exact hgo _ (State.memOk_mk (State.modWave_memOk h))

theorem Env.enqueue_memOk {e : Env} {s : State} {o : MatOp} (h : s.memOk) : (e.enqueue s o).MemOk := by
  unfold Env.enqueue
  exact Act.ite_memOk (.hold h) (.writes (State.memOk_mk h))

theorem tileOp_memOk {i : Instr} {change : Env → MatOp → MatOp} {e : Env} {s : State} (h : s.memOk) :
    (tileOp i change e s).MemOk :=
  Env.withClaim_memOk h (fun _ h => Env.enqueue_memOk h)

theorem State.dropStep_memOk {s : State} {wk : ℕ} (h : s.memOk) : (s.dropStep wk).memOk := by
  unfold State.dropStep
  exact State.memOk_mk h

theorem State.markSteps_memOk {s : State} {wks : List ℕ} {st : StepStatus} (h : s.memOk) :
    (s.markSteps wks st).memOk := by
  unfold State.markSteps
  exact State.memOk_mk h

theorem State.startStep_memOk {s : State} {keys : List ℕ} (h : s.memOk) : (s.startStep keys).memOk := by
  unfold State.startStep
  exact State.memOk_mk (State.markSteps_memOk h)

theorem sharedMma_memOk {f : XFmt} {e : Env} {s : State} (h : s.memOk) : (sharedMma f e s).MemOk := by
  unfold sharedMma
  dsimp only
  split
  · exact .writes (State.modWave_memOk (State.dropStep_memOk h))
  · exact .trapIn (State.dropStep_memOk h)
  · refine Env.withClaim_memOk h (fun _ h => ?_)
    refine Act.ite_memOk (.trapIn (State.dropStep_memOk h)) ?_
    refine Act.ite_memOk (.hold (State.memOk_mk (State.dropStep_memOk h))) ?_
    refine Act.ite_memOk ?_ ?_
    · exact .trapIn (State.dropStep_memOk (State.markSteps_memOk (State.memOk_mk (State.dropStep_memOk h))))
    · refine Act.ite_memOk (.hold (State.memOk_mk (State.dropStep_memOk h))) ?_
      refine .writes ?_
      refine State.modWave_memOk ?_
      exact State.dropStep_memOk (State.startStep_memOk (State.memOk_mk (State.dropStep_memOk h)))

theorem execBload_memOk {f : XFmt} {s : State} (h : s.memOk) : Outcome.MemOk (execBload f s) := by
  refine issue_memOk (fun _ _ h => ?_) h
  dsimp only
  split
  · exact .trap
  · refine Act.ite_memOk .trap ?_
    refine Act.ite_memOk .trap ?_
    split
    · exact .hold h
    · exact Env.enqueue_memOk (State.cacheEntry_memOk h)

theorem State.bloadRun_memOk {s : State} {o : MatOp} {f : XFmt} (h : s.memOk) : (s.bloadRun o f).MemOk := by
  unfold State.bloadRun
  refine OpOut.ite_memOk (.lost (State.engineDamage_memOk (State.drainStores_memOk h))) ?_
  split
  · exact .wait
  · refine OpOut.ite_memOk (.lost (State.engineDamage_memOk (State.drainStores_memOk h))) ?_
    exact .done (State.memOk_mk (State.modWave_memOk (State.noteOffsets_memOk (State.drainStores_memOk h))))

theorem State.drainRun_memOk {s : State} {o : MatOp} {f : XFmt} {add : Bool} (h : s.memOk) :
    (s.drainRun o f add).MemOk := by
  unfold State.drainRun
  split
  · exact .lost h
  · refine OpOut.ite_memOk (.lost (State.engineDamage_memOk (State.drainStores_memOk h))) ?_
    split
    · exact .wait
    · refine OpOut.ite_memOk (.lost (State.engineKill_memOk (State.drainStores_memOk h))) ?_
      refine .done ?_
      refine State.releaseAct_memOk ?_
      refine State.ite_memOk ?_ ?_
      · exact runWhole_memOk (State.noteOffsets_memOk (State.drainStores_memOk h))
      · exact State.engineWrite_memOk (State.noteOffsets_memOk (State.drainStores_memOk h))

theorem execDrain_memOk {f : XFmt} {s : State} (h : s.memOk) : Outcome.MemOk (execDrain f s) := by
  refine issue_memOk (fun _ _ h => ?_) h
  split
  · exact .trap
  · split
    · exact .hold h
    · exact Env.withClaim_memOk h (fun _ h => Env.enqueue_memOk (State.cacheEntry_memOk h))

theorem execDrainAdd_memOk {f : XFmt} {s : State} (h : s.memOk) : Outcome.MemOk (execDrainAdd f s) := by
  refine issue_memOk (fun _ _ h => ?_) h
  split
  · exact .trap
  · split
    · exact .hold h
    · refine Env.withClaim_memOk h (fun _ h => ?_)
      refine Act.ite_memOk ?_ ?_
      · exact Env.enqueue_memOk (State.cacheEntry_memOk (State.applyLog_memOk h))
      · refine Act.ite_memOk (.hold (State.applyLog_memOk h)) ?_
        split
        · exact .hold (State.applyLog_memOk h)
        · exact Env.commit_memOk (State.applyLog_memOk h)

theorem execAmovw_memOk {f : XFmt} {s : State} (h : s.memOk) : Outcome.MemOk (execAmovw f s) := by
  refine issue_memOk (fun _ _ h => ?_) h
  exact Env.withClaim_memOk h (fun _ h => Act.ite_memOk (.hold h) (.writes (State.modWave_memOk h)))

theorem State.addCount_memOk {s : State} {off n : ℕ} (h : s.memOk) : (s.addCount off n).memOk := State.setReg_memOk h

theorem State.countOutcome_memOk {s : State} {die : ℕ} {outcome : EngineOutcome} (h : s.memOk) :
    (s.countOutcome die outcome).memOk := by
  unfold State.countOutcome
  dsimp only
  split
  · exact State.ite_memOk h (State.addCount_memOk h)
  · exact State.addCount_memOk (State.addCount_memOk h)

theorem State.finishOp_memOk {s : State} {n : ℕ} {o : MatOp} (h : s.memOk) : (s.finishOp n o).memOk := by
  have ho : (match o.instr with
      | .bload f => s.bloadRun o f
      | .drain f => s.drainRun o f false
      | .drainAdd f => s.drainRun o f true
      | _ => .done (s.modWave o.wave o.run)).MemOk := by
    split
    · exact State.bloadRun_memOk h
    · exact State.drainRun_memOk h
    · exact State.drainRun_memOk h
    · exact .done (State.modWave_memOk h)
  unfold State.finishOp
  dsimp only
  split
  · rename_i hx
    exact State.updateBatches_memOk (State.memOk_mk (OpOut.memOk_of_done ho hx))
  · rename_i hx
    exact OpOut.memOk_of_lost ho hx
  · exact State.ite_memOk (State.engineKill_memOk h) (State.requestNeeds_memOk (State.memOk_mk h))

theorem execMatrixOpComplete_memOk {n : ℕ} {outcome : EngineOutcome} {s : State} (h : s.memOk) :
    Outcome.MemOk (execMatrixOpComplete n outcome s) := by
  unfold execMatrixOpComplete
  split
  · exact .next h
  · refine Outcome.ite_memOk (.next h) ?_
    split
    · exact .next (State.engineDamage_memOk (State.countOutcome_memOk h))
    · exact .next (State.finishOp_memOk (State.countOutcome_memOk h))
    · exact .next (State.finishOp_memOk h)

end Sys2Proof.Machine
end

