-- ==== Sys2Proof/Proofs/GroupForm.lean ====
section
/-!
PROOFS. Barriers, ends, gates, collectives and copies keep the form of memory.
-/

namespace Sys2Proof.Machine

theorem State.setBarWord_memOk {s : State} {holder : ℕ} {cl : Bool} {b : ℕ} {x : DWord} (h : s.memOk) :
    (s.setBarWord holder cl b x).memOk := by
  unfold State.setBarWord
  split
  · exact h
  · split
    · exact State.setWord64_memOk _ _ _ h
    · exact State.memOk_mk h

theorem State.clearSavedArrived_memOk {s : State} {holder : ℕ} {cl : Bool} {b : ℕ} (h : s.memOk) :
    (s.clearSavedArrived holder cl b).memOk := by
  refine State.foldl_memOk (fun _ _ h => ?_) h
  split
  · exact h
  · split
    · exact State.ite_memOk (State.setByte_memOk _ _ _ h) h
    · exact h

theorem State.reduceCount_memOk {s : State} {holder : ℕ} {cl : Bool} {b c : ℕ} (h : s.memOk) :
    (s.reduceCount holder cl b c).memOk := by
  unfold State.reduceCount
  refine State.ite_memOk ?_ (State.setBarWord_memOk h)
  refine State.ite_memOk (State.setBarWord_memOk h) ?_
  exact State.memOk_mk (State.clearSavedArrived_memOk (State.setBarWord_memOk h))

theorem State.arriveAt_memOk {s : State} {wk : ℕ} {cl : Bool} {b c : ℕ} (h : s.memOk) :
    (s.arriveAt wk cl b c).memOk :=
  State.reduceCount_memOk (State.modWave_memOk h)

theorem State.setPending_memOk {s : State} {wk : ℕ} {m : SliceMask} {cl : Bool} {b c : ℕ} (h : s.memOk) :
    (s.setPending wk m cl b c).memOk := by
  unfold State.setPending
  dsimp only
  split
  · exact State.modWave_memOk h
  · exact State.ite_memOk (State.arriveAt_memOk (State.modWave_memOk h)) (State.modWave_memOk h)

theorem State.raiseTargets_memOk {s : State} {wk : ℕ} {m : SliceMask} {cl : Bool} {b : ℕ} (h : s.memOk) :
    (s.raiseTargets wk m cl b).memOk :=
  State.modWave_memOk h

theorem waitAt_memOk {cl : Bool} {b : ℕ} {e : Env} {s : State} (h : s.memOk) : (waitAt cl b e s).MemOk := by
  unfold waitAt
  refine Act.ite_memOk (.hold h) ?_
  refine Act.ite_memOk ?_ (.split (State.acquireAct_memOk (State.raiseTargets_memOk h)))
  exact .writes (State.acquireAct_memOk (State.raiseTargets_memOk h))

theorem arriveThen_memOk {cl : Bool} {b c : ℕ} {e : Env} {s : State} {go : State → Act} (h : s.memOk)
    (hgo : ∀ t, t.memOk → (go t).MemOk) :
    (arriveThen cl b c e s go).MemOk := by
  unfold arriveThen
  split
  · exact .hold h
  · exact hgo _ (State.setPending_memOk (State.release_memOk h))

theorem barBody_memOk {cl : Bool} {b : ℕ} {e : Env} {s : State} (h : s.memOk) : (barBody cl b e s).MemOk := by
  unfold barBody
  exact Act.ite_memOk (waitAt_memOk h) (arriveThen_memOk h (fun _ h => waitAt_memOk h))

theorem State.slicesEnded_memOk {s : State} {wk : ℕ} (h : s.memOk) : (s.slicesEnded wk).memOk := by
  unfold State.slicesEnded
  split
  · exact h
  · exact State.ite_memOk h (State.foldl_memOk (fun _ _ h => State.ite_memOk (State.arriveAt_memOk h) h) h)

theorem State.leaveBarriers_memOk {s : State} {wk : ℕ} {w : Wave} {la : Launch} (h : s.memOk) :
    (s.leaveBarriers wk w la).memOk := by
  refine State.ite_else_memOk ?_ (fun h => ?_)
  · refine State.foldl_memOk (fun _ _ h => ?_) h
    exact State.ite_memOk (State.setBarWord_memOk h) (State.reduceCount_memOk (State.setBarWord_memOk h))
  · refine State.foldl_memOk (fun _ _ h => ?_) h
    exact State.ite_memOk (State.setBarWord_memOk h) (State.reduceCount_memOk (State.setBarWord_memOk h))

theorem State.askSignal_memOk {s : State} {x : Asker} {ref : DWord} (h : s.memOk) : (s.askSignal x ref).memOk :=
  State.requestNeeds_memOk h

theorem State.writeSignal_memOk {s : State} {x : Signal} (h : s.memOk) : Optional.MemOk (s.writeSignal x) := by
  unfold State.writeSignal
  cases s.signalPlace x.asker x.ref true with
  | none => exact .none
  | some a => exact .some (State.touchRange_memOk (State.ite_memOk (State.countError_memOk h) (State.homeWrite_memOk h)))

theorem State.awaitSignal_memOk {s : State} {x : Signal} (h : s.memOk) : (s.awaitSignal x).memOk := by
  unfold State.awaitSignal
  exact State.memOk_mk (State.askSignal_memOk h)

theorem State.putSignal_memOk {s : State} {x : Signal} (h : s.memOk) : (s.putSignal x).memOk := by
  refine State.ite_memOk h (State.ite_memOk h ?_)
  split
  · exact State.awaitSignal_memOk h
  · rename_i hx
    have ht := Optional.memOk_of_some (State.writeSignal_memOk h) hx
    split
    · exact ht
    · exact Optional.getD_memOk (State.writeSignal_memOk ht) (State.awaitSignal_memOk ht)

theorem State.retrySignals_memOk {s : State} (h : s.memOk) : s.retrySignals.memOk :=
  State.foldl_memOk (fun _ _ h => State.putSignal_memOk h) (State.memOk_mk h)

theorem State.complete_memOk {s : State} {x : Asker} {c : Option (DWord × DWord)} (h : s.memOk) :
    (s.complete x c).memOk := by
  unfold State.complete
  split
  · exact State.putSignal_memOk h
  · exact h

theorem State.reportEnd_memOk {s : State} {n : ℕ} {pkg : BitVec 6} (h : s.memOk) : (s.reportEnd n pkg).memOk := by
  unfold State.reportEnd
  split
  · exact h
  · refine State.ite_memOk h ?_
    refine State.ite_memOk (State.sendPacket_memOk (State.memOk_mk h)) ?_
    refine State.ite_memOk ?_ (State.memOk_mk h)
    exact State.ite_memOk (State.complete_memOk (State.memOk_mk h)) (State.memOk_mk h)

theorem State.checkLaunchEnd_memOk {s : State} {n : ℕ} (h : s.memOk) : (s.checkLaunchEnd n).memOk := by
  unfold State.checkLaunchEnd
  split
  · exact h
  · refine State.ite_memOk h ?_
    exact State.reportEnd_memOk (State.memOk_mk (State.releaseAll_memOk (State.drainStores_memOk h)))

theorem State.passToken_memOk {n fuel : ℕ} {s : State} (h : s.memOk) : (State.passToken n fuel s).memOk := by
  induction fuel generalizing s with
  | zero => exact h
  | succ fuel ih =>
    unfold State.passToken
    split
    · exact h
    · rename_i la hla
      have ht : (match s.wgOfKey n la la.token with
          | some g => s.applyLog g
          | none => s).memOk = true := by
        split
        · exact State.applyLog_memOk h
        · exact h
      exact State.ite_memOk (ih ht) ht

theorem State.passTokens_memOk {s : State} {n : ℕ} (h : s.memOk) : (s.passTokens n).memOk := by
  unfold State.passTokens
  split
  · exact h
  · exact State.ite_memOk (State.passToken_memOk h) h

theorem State.closeQueues_memOk {s : State} {n : ℕ} (h : s.memOk) : (s.closeQueues n).memOk := by
  unfold State.closeQueues
  split
  · exact h
  · exact State.memOk_mk h

theorem State.endWorkgroup_memOk {s : State} {g : ℕ} (h : s.memOk) : (s.endWorkgroup g).memOk := by
  unfold State.endWorkgroup
  split
  · exact h
  · split
    · exact h
    · refine State.checkLaunchEnd_memOk ?_
      refine State.closeQueues_memOk ?_
      exact State.ite_else_memOk (State.passTokens_memOk (State.dropSlice_memOk (State.memOk_mk h))) State.memOk_mk

theorem State.failSteps_memOk {s : State} {wk : ℕ} {w : Wave} (h : s.memOk) : (s.failSteps wk w).memOk := by
  unfold State.failSteps
  exact State.memOk_mk h

theorem State.endWave_memOk {s : State} {wk : ℕ} (h : s.memOk) : (s.endWave wk).memOk := by
  unfold State.endWave
  split
  · exact h
  · split
    · exact h
    · split
      · exact h
      · refine State.ite_else_memOk ?_ State.endWorkgroup_memOk
        exact State.memOk_mk (State.failSteps_memOk (State.leaveBarriers_memOk (State.releaseWave_memOk h)))

theorem execExit_memOk {f : CFmt} {s : State} (h : s.memOk) : Outcome.MemOk (execExit f s) := by
  refine issue_memOk (fun _ _ h => ?_) h
  split
  · exact .trap
  · refine Act.ite_memOk ?_ (.writes (State.slicesEnded_memOk (State.modWave_memOk h)))
    refine Act.ite_memOk ?_ (.hold (State.drainStores_memOk h))
    exact .writes (State.endWave_memOk (State.modWave_memOk (State.drainStores_memOk h)))

theorem State.claimSlot_memOk {s : State} {dom : ℕ} {e : ObjEntry} {k : ℕ} (h : s.memOk) :
    (s.claimSlot dom e k).memOk :=
  State.setWord64_memOk _ _ _ h

theorem gateStatus_memOk {f : YFmt} {s : State} {n : ℕ} (h : s.memOk) : (gateStatus f s n).MemOk := .writes h

theorem execGate_memOk {f : YFmt} {s : State} (h : s.memOk) : Outcome.MemOk (execGate f s) := by
  refine issue_memOk (fun _ _ h => ?_) h
  dsimp only
  split
  · exact .trap
  · refine Act.ite_memOk .trap ?_
    split
    · exact .hold h
    · refine Act.ite_memOk .trap ?_
      split
      · exact Env.holdFor_memOk h
      · refine Act.ite_memOk .trap ?_
        refine Act.ite_memOk (gateStatus_memOk (State.touchRange_memOk h)) ?_
        refine Act.ite_memOk (gateStatus_memOk (State.touchRange_memOk h)) ?_
        refine Act.ite_memOk (gateStatus_memOk (State.touchRange_memOk h)) ?_
        refine Act.ite_memOk (gateStatus_memOk (State.touchRange_memOk h)) ?_
        refine Act.ite_memOk .trap ?_
        refine Act.ite_memOk (Env.holdFor_memOk (State.touchRange_memOk h)) ?_
        refine Act.ite_memOk .trap ?_
        split
        · exact gateStatus_memOk (State.touchRange_memOk h)
        · refine .placed ?_
          exact State.modWave_memOk (State.claimSlot_memOk (State.touchRange_memOk (State.touchRange_memOk h)))

theorem execGateret_memOk {f : YFmt} {s : State} (h : s.memOk) : Outcome.MemOk (execGateret f s) := by
  refine issue_memOk (fun _ _ h => ?_) h
  split
  · exact .trap
  · split
    · exact .hold h
    · refine Act.ite_memOk .trap ?_
      refine Act.ite_memOk (Env.holdFor_memOk h) ?_
      exact .placed (State.modWave_memOk (State.clearSlot_memOk (State.touchRange_memOk h)))

theorem Env.granted_memOk {e : Env} {f : YFmt} {s : State} (h : s.memOk) : (e.granted f s).MemOk := .writes h

theorem execObjGrant_memOk {f : YFmt} {s : State} (h : s.memOk) : Outcome.MemOk (execObjGrant f s) := by
  refine issue_memOk (fun _ _ h => ?_) h
  split
  · exact Act.ite_memOk (.hold h) (Env.granted_memOk h)
  · dsimp only
    split
    · exact .trap
    · exact .trap
    · refine Act.ite_memOk .trap ?_
      refine Act.ite_memOk (.writes h) ?_
      refine Act.ite_memOk (Act.ite_memOk .trap (Act.ite_memOk .trap (.hold h))) ?_
      refine Act.ite_memOk (Env.granted_memOk (State.setEntry_memOk _ _ _ _ h)) ?_
      split
      · exact .hold h
      · refine Act.ite_memOk ?_ ?_
        · exact .hold (State.dropEntry_memOk (State.setEntry_memOk _ _ _ _ (State.setEntry_memOk _ _ _ _ h)))
        · refine Env.granted_memOk ?_
          exact State.dropEntry_memOk (State.setEntry_memOk _ _ _ _ (State.setEntry_memOk _ _ _ _ h))

theorem collOpBody_memOk {i : Instr} {f : YFmt} {e : Env} {s : State} (h : s.memOk) : (collOpBody i f e s).MemOk := by
  unfold collOpBody
  dsimp only
  split
  · exact .trap
  · split
    · exact .hold h
    · split
      · exact Env.holdFor_memOk (State.release_memOk h)
      · refine Act.ite_memOk .trap ?_
        split
        · exact .trap
        · refine Act.ite_memOk (.hold (State.fillRefs_memOk (State.release_memOk h))) ?_
          exact .writes (State.memOk_mk (State.fillRefs_memOk (State.release_memOk h)))

theorem State.setCstat_memOk {s : State} {c : Coll} {n : ℕ} (h : s.memOk) : (s.setCstat c n).memOk := by
  unfold State.setCstat
  split
  · exact State.homeWrite_memOk h
  · exact h

theorem State.noteColl_memOk {s : State} {c : Coll} {n : ℕ × ℕ} (h : s.memOk) : (s.noteColl c n).memOk := by
  refine State.ite_then_memOk ?_ State.noteEngine_memOk
  exact State.ite_memOk (State.noteEngine_memOk h) (State.noteEngine_memOk (State.noteEngine_memOk h))

theorem State.finishLost_memOk {s : State} {n : ℕ} {c : Coll} (h : s.memOk) : (s.finishLost n c).memOk := by
  unfold State.finishLost
  refine State.ite_memOk (State.setCstat_memOk (State.memOk_mk h)) ?_
  exact State.ite_memOk (State.memOk_mk h) (State.requestNeeds_memOk h)

theorem execCollectiveComplete_memOk {n : ℕ} {outcome : EngineOutcome} {s : State} (h : s.memOk) :
    Outcome.MemOk (execCollectiveComplete n outcome s) := by
  unfold execCollectiveComplete
  split
  · exact .next h
  · refine Outcome.ite_memOk (.next (State.finishLost_memOk h)) ?_
    split
    · exact .next (State.memOk_mk h)
    · refine Outcome.ite_memOk (.next (State.engineDamage_memOk h)) ?_
      refine Outcome.ite_memOk (.next (State.memOk_mk h)) ?_
      refine Outcome.ite_memOk ?_ ?_
      · exact Outcome.ite_memOk (.next (State.engineKill_memOk h)) (.next (State.requestNeeds_memOk (State.memOk_mk h)))
      · refine Outcome.ite_memOk (.next (State.memOk_mk h)) ?_
        refine Outcome.ite_memOk (.next (State.engineKill_memOk h)) ?_
        refine Outcome.ite_memOk (.next (State.engineKill_memOk (State.countOutcome_memOk h))) ?_
        refine Outcome.ite_memOk ?_ ?_
        · refine .next ?_
          refine State.memOk_mk ?_
          refine State.releaseAct_memOk ?_
          exact State.setCstat_memOk (State.noteColl_memOk (State.ite_memOk (State.countOutcome_memOk h) h))
        · refine .next ?_
          refine State.memOk_mk ?_
          refine State.releaseAct_memOk ?_
          refine State.setCstat_memOk ?_
          exact State.engineWrite_memOk (State.noteColl_memOk (State.ite_memOk (State.countOutcome_memOk h) h))

theorem Env.startCopy_memOk {e : Env} {i : Instr} {s : State} {c : Copy} (h : s.memOk) :
    (e.startCopy i s c).MemOk := by
  unfold Env.startCopy
  refine Act.ite_memOk .trap ?_
  split
  · exact .hold h
  · exact Act.ite_memOk (.hold h) (.writes (State.memOk_mk (State.fillRefs_memOk h)))

theorem execCopy_memOk {f : MFmt} {s : State} (h : s.memOk) : Outcome.MemOk (execCopy f s) := by
  refine issue_memOk (fun _ _ h => ?_) h
  dsimp only
  split
  · exact .trap
  · exact Env.startCopy_memOk h

theorem execCopyin_memOk {f : MFmt} {s : State} (h : s.memOk) : Outcome.MemOk (execCopyin f s) := by
  refine issue_memOk (fun _ _ h => ?_) h
  dsimp only
  split
  · exact .trap
  · exact Env.startCopy_memOk h

theorem execCopyout_memOk {f : MFmt} {s : State} (h : s.memOk) : Outcome.MemOk (execCopyout f s) := by
  refine issue_memOk (fun _ _ h => ?_) h
  dsimp only
  split
  · exact .trap
  · exact Env.startCopy_memOk h

theorem execCopyt_memOk {f : MFmt} {s : State} (h : s.memOk) : Outcome.MemOk (execCopyt f s) := by
  refine issue_memOk (fun _ _ h => ?_) h
  dsimp only
  split
  · exact .trap
  · refine Act.ite_memOk .trap ?_
    split <;> exact Act.ite_memOk .trap (Act.ite_memOk .trap (Env.startCopy_memOk h))

theorem execBatch_memOk {f : YFmt} {s : State} (h : s.memOk) : Outcome.MemOk (execBatch f s) := by
  refine issue_memOk (fun _ _ h => ?_) h
  exact Act.ite_memOk (.hold h) (.writes (State.updateBatches_memOk (State.modWave_memOk h)))

theorem State.noteCopy_memOk {s : State} {c : Copy} {is : List ℕ} (h : s.memOk) : (s.noteCopy c is).memOk :=
  State.ite_then_memOk (State.ite_memOk h (State.noteOffsets_memOk h)) State.noteOffsets_memOk

theorem State.copyOut_memOk {s : State} {c : Copy} {xs : List ((ℕ × ℕ × ℕ) × Byte)} {bad : List ℕ} (h : s.memOk) :
    (s.copyOut c xs bad).memOk := by
  unfold State.copyOut
  split
  · exact State.foldl_memOk (fun _ _ h => State.setScratch_memOk h) h
  · exact State.engineWrite_memOk h

theorem State.copyLines_memOk {s : State} {c : Copy} {xs : List (ℕ × ℕ × ℕ)} (h : s.memOk) :
    (s.copyLines c xs).memOk :=
  State.noteCopy_memOk (State.copyOut_memOk h)

theorem execCopyComplete_memOk {n : ℕ} {s : State} (h : s.memOk) : Outcome.MemOk (execCopyComplete n s) := by
  unfold execCopyComplete
  split
  · exact .next h
  · refine Outcome.ite_memOk (.next h) ?_
    refine Outcome.ite_memOk (.next (State.engineDamage_memOk h)) ?_
    refine Outcome.ite_memOk (.next (State.engineKill_memOk h)) ?_
    refine Outcome.ite_memOk (.next (State.engineDamage_memOk (State.drainStores_memOk h))) ?_
    refine Outcome.ite_memOk ?_ ?_
    · refine .next ?_
      refine State.updateBatches_memOk ?_
      exact State.memOk_mk (State.releaseAct_memOk (State.copyLines_memOk (State.drainStores_memOk h)))
    · refine Outcome.ite_memOk (.next (State.engineKill_memOk (State.drainStores_memOk h))) ?_
      exact .next (State.requestNeeds_memOk (State.memOk_mk (State.copyLines_memOk (State.drainStores_memOk h))))

theorem execTaddr_memOk {f : VFmt} {s : State} (h : s.memOk) : Outcome.MemOk (execTaddr f s) := by
  refine issue_memOk (fun _ _ h => ?_) h
  dsimp only
  split
  · exact .trap
  · exact .writes h

theorem State.requestsOfSource_memOk {s : State} {e : ObjEntry} (h : s.memOk) : (s.requestsOfSource e).memOk := by
  unfold State.requestsOfSource
  exact State.memOk_mk h

theorem State.startConversion_memOk {s : State} {die dom index : ℕ} {e : ObjEntry} {tag : ℕ} (h : s.memOk) :
    (s.startConversion die dom index e tag).memOk := by
  unfold State.startConversion
  refine State.memOk_mk ?_
  refine State.requestsOfSource_memOk ?_
  refine State.dropEntry_memOk ?_
  refine State.setWord64_memOk _ _ _ ?_
  refine State.setWord64_memOk _ _ _ ?_
  refine State.setWord64_memOk _ _ _ ?_
  refine State.setBytes_memOk _ _ _ ?_
  exact State.foldl_memOk (fun _ _ h => State.setGranule_memOk h) (State.drainStores_memOk h)

theorem State.queueLayout_memOk {s : State} {t : Tensor} {qv : Bool} {tag : ℕ} (h : s.memOk) :
    (s.queueLayout t qv tag).memOk :=
  State.setWord64_memOk _ _ _ h

theorem State.relayout_memOk {s : State} {die dom index : ℕ} {e : ObjEntry} {tag : ℕ} (h : s.memOk) :
    (s.relayout die dom index e tag).memOk := by
  unfold State.relayout
  refine State.ite_memOk (State.ite_memOk h (State.startConversion_memOk h)) ?_
  refine State.ite_memOk (State.ite_memOk h (State.queueLayout_memOk h)) ?_
  exact State.ite_memOk (State.queueLayout_memOk h) (State.queueLayout_memOk h)

theorem execRelayout_memOk {f : VFmt} {s : State} (h : s.memOk) : Outcome.MemOk (execRelayout f s) := by
  refine issue_memOk (fun _ _ h => ?_) h
  dsimp only
  split
  · exact .trap
  · exact Act.ite_memOk .trap (Act.ite_memOk .trap (.writes (State.relayout_memOk h)))

theorem execRlwait_memOk {f : VFmt} {s : State} (h : s.memOk) : Outcome.MemOk (execRlwait f s) := by
  refine issue_memOk (fun _ _ h => ?_) h
  dsimp only
  split
  · exact .trap
  · exact Act.ite_memOk (.writes h) (Act.ite_memOk .trap (Act.ite_memOk .trap (.hold h)))

end Sys2Proof.Machine
end

