-- ==== Sys2Proof/Proofs/PlacementForm.lean ====
section
/-!
PROOFS. Residency, placement and the step rows about them keep the form of memory.
-/

namespace Sys2Proof.Machine

theorem State.copyGranule_memOk {s : State} {src dst : ℕ} (h : s.memOk) : (s.copyGranule src dst).memOk := by
  refine State.foldl_memOk (fun _ _ h => ?_) ?_
  · exact State.poisonSector_memOk h
  · exact State.foldl_memOk (fun _ _ h => State.setByte_memOk _ _ _ h) (State.clearRange_memOk _ _ _ h)

theorem State.dropLines_memOk {s : State} {a n : ℕ} (h : s.memOk) : (s.dropLines a n).memOk :=
  State.keepL2_memOk (State.foldl_memOk (fun _ _ h => State.dropRemote_memOk h) (State.memOk_mk h))

theorem State.drainGranule_memOk {s : State} {dom index g : ℕ} (h : s.memOk) : (s.drainGranule dom index g).memOk :=
  State.drainStores_memOk h

theorem State.takeFrom_map_memOk {s t : State} {list k tier f : ℕ} {p : ℕ → Bool} (h : s.memOk)
    (hx : (s.takeFrom list p).map (fun x => (k, x.1, x.2)) = some (tier, f, t)) : t.memOk := by
  obtain ⟨⟨g, u⟩, hu, hx⟩ := Option.map_eq_some_iff.1 hx
  cases hx
  exact State.takeFrom_memOk h hu

theorem State.evictionFrame_memOk {s t : State} {die dom tier f : ℕ} {e : ObjEntry} (h : s.memOk)
    (hx : s.evictionFrame die dom e = some (tier, f, t)) : t.memOk := by
  unfold State.evictionFrame at hx
  dsimp only at hx
  split at hx
  · obtain hx | ⟨-, hx⟩ := Option.or_eq_some_iff.1 hx
    · exact State.takeFrom_map_memOk h hx
    · exact State.takeFrom_map_memOk h hx
  · exact State.takeFrom_map_memOk h hx
  · exact State.takeFrom_map_memOk h hx

theorem State.evict_memOk {s : State} {die : ℕ} (h : s.memOk) : Optional.MemOk (s.evict die) := by
  unfold State.evict
  dsimp only
  split
  · exact .none
  · split
    · exact .none
    · rename_i hx
      split
      · refine .some ?_
        refine State.report_memOk ?_
        refine State.returnFrame_memOk ?_
        refine State.setGranule_memOk ?_
        refine State.copyGranule_memOk ?_
        exact State.dropLines_memOk (State.evictionFrame_memOk (State.drainGranule_memOk h) hx)
      · refine .some ?_
        refine State.returnFrame_memOk ?_
        refine State.setGranule_memOk ?_
        refine State.copyGranule_memOk ?_
        exact State.dropLines_memOk (State.evictionFrame_memOk (State.drainGranule_memOk h) hx)

theorem State.getFrame_memOk {s t : State} {die f : ℕ} (h : s.memOk) (hx : s.getFrame die = some (f, t)) : t.memOk := by
  unfold State.getFrame at hx
  split at hx
  · rename_i hy
    cases hx
    exact State.takeFrame_memOk h hy
  · obtain ⟨u, hu, hx⟩ := Option.bind_eq_some_iff.1 hx
    exact State.takeFrame_memOk (Optional.memOk_of_some (State.evict_memOk h) hu) hx

theorem State.streamAhead_memOk {s : State} {die : ℕ} {r : GranReq} (h : s.memOk) : (s.streamAhead die r).memOk := by
  unfold State.streamAhead
  split
  · split
    · exact State.foldl_memOk (fun _ _ h => State.ite_memOk (State.queueRequest_memOk h) h) h
    · exact h
  · exact h

theorem State.startMove_memOk {s : State} {die i : ℕ} {r : GranReq} {frame : ℕ} (h : s.memOk) :
    (s.startMove die i r frame).memOk := by
  refine State.streamAhead_memOk ?_
  exact State.memOk_mk (State.setNeed_memOk (State.ite_else_memOk (State.drainGranule_memOk h) State.dropLines_memOk))

theorem State.replayParked_memOk {s : State} (h : s.memOk) : s.replayParked.memOk := by
  refine State.foldl_memOk (fun _ _ h => ?_) h
  split
  · exact State.replay_memOk h
  · exact h

theorem State.rearmQueues_memOk {s : State} (h : s.memOk) : s.rearmQueues.memOk := by
  unfold State.rearmQueues
  exact State.memOk_mk h

theorem State.retryWaiters_memOk {s : State} (h : s.memOk) : s.retryWaiters.memOk := by
  refine State.foldl_memOk (fun _ _ h => ?_) ?_
  · exact State.passTokens_memOk h
  · exact State.rearmQueues_memOk (State.retrySignals_memOk (State.replayParked_memOk h))

theorem State.noteFetched_memOk {s : State} {dom index g : ℕ} (h : s.memOk) : (s.noteFetched dom index g).memOk := by
  refine State.foldl_memOk (fun _ _ h => ?_) h
  split
  · exact h
  · exact State.ite_else_memOk (State.ite_memOk h (State.memOk_mk h)) State.report_memOk

theorem execGranuleArrival_memOk {die : BitVec 2} {move : ℕ} {s : State} (h : s.memOk) :
    Outcome.MemOk (execGranuleArrival die move s) := by
  unfold execGranuleArrival
  refine Outcome.ite_memOk (.next h) ?_
  dsimp only
  split
  · exact .next h
  · split
    · exact .next h
    · refine .next ?_
      refine State.retryWaiters_memOk ?_
      refine State.noteFetched_memOk ?_
      refine State.touch_memOk ?_
      refine State.memOk_mk ?_
      refine State.returnGranule_memOk ?_
      exact State.setNeed_memOk (State.ite_memOk (State.clearRange_memOk _ _ _ h) (State.copyGranule_memOk h))

theorem State.failParked_memOk {s : State} {c : LateCause} {p : State → Acc → Bool} (h : s.memOk) :
    (s.failParked c p).memOk := by
  refine State.foldl_memOk (fun _ _ h => ?_) h
  split
  · split
    · exact State.lateTrap_memOk h
    · exact h
  · exact h

theorem State.failHolders_memOk {s : State} {c : LateCause} {p : Wait → Option DWord} (h : s.memOk) :
    (s.failHolders c p).memOk := by
  refine State.foldl_memOk (fun _ _ h => ?_) h
  split
  · exact State.settle_memOk (State.enterTrap_memOk h)
  · exact h

theorem State.failEngines_memOk {s : State} {c : LateCause} {ops : List (ℕ × CodeAddr)} (h : s.memOk) :
    (s.failEngines c ops).memOk :=
  State.foldl_memOk (fun _ _ h => State.engineKill_memOk h) h

theorem State.failRecords_memOk {s : State} {c : LateCause} {p : State → Acc → Bool} (h : s.memOk) :
    (s.failRecords c p).memOk := by
  refine State.foldl_memOk (fun _ _ h => ?_) h
  split
  · exact h
  · split
    · exact h
    · split
      · exact h
      · exact State.killContext_memOk h

theorem execRett_memOk {f : YFmt} {s : State} (h : s.memOk) : Outcome.MemOk (execRett f s) := by
  refine issue_memOk (fun _ _ h => ?_) h
  exact Act.ite_memOk .trap (Act.ite_memOk .trap (.placed (State.settle_memOk (State.modWave_memOk h))))

theorem execMark_memOk {f : YFmt} {s : State} (h : s.memOk) : Outcome.MemOk (execMark f s) := by
  refine issue_memOk (fun _ _ h => ?_) h
  dsimp only
  split
  · exact .writes h
  · exact .writes (State.ringWrite_memOk h)

theorem execWaitClk_memOk {f : YFmt} {s : State} (h : s.memOk) : Outcome.MemOk (execWaitClk f s) :=
  issue_memOk (fun _ _ h => Act.ite_memOk (.writes h) (.hold h)) h

theorem State.takeCores_memOk {la : Launch} {claims cs cores : List ℕ} {gs : List Workgroup} {s t : State} (h : s.memOk)
    (hx : State.takeCores la claims cs gs s = some (t, cores)) : t.memOk := by
  induction cs generalizing gs s cores with
  | nil =>
    cases gs with
    | nil => cases hx; exact h
    | cons g gs => cases hx
  | cons c cs ih =>
    cases gs with
    | nil => cases hx; exact h
    | cons g gs =>
      unfold State.takeCores at hx
      split at hx
      · obtain ⟨⟨u, k⟩, hu, hx⟩ := Option.map_eq_some_iff.1 hx
        cases hx
        exact ih (State.memOk_mk h) hu
      · exact ih h hx

theorem State.placeCluster_memOk {s : State} {n : ℕ} {la : Launch} {stage q : ℕ} (h : s.memOk) :
    Optional.MemOk (s.placeCluster n la stage q) := by
  refine Optional.memOk_iff.2 fun t ht => ?_
  obtain ⟨die, -, hx⟩ := List.exists_of_findSome?_eq_some ht
  obtain ⟨⟨u, k⟩, hu, rfl⟩ := Option.map_eq_some_iff.1 hx
  exact State.takeCores_memOk h hu

theorem State.withdrawStep_memOk {s : State} {wk : ℕ} (h : s.memOk) : (s.withdrawStep wk).memOk := by
  unfold State.withdrawStep
  exact State.memOk_mk h

theorem State.haltWave_memOk {s : State} {wk ctx : ℕ} {reason : BitVec 2} (h : s.memOk) :
    (s.haltWave wk ctx reason).memOk := by
  unfold State.haltWave
  exact State.ite_memOk (State.modWave_memOk (State.withdrawStep_memOk h)) h

theorem State.beginLaunch_memOk {s : State} {n : ℕ} (h : s.memOk) : (s.beginLaunch n).memOk :=
  State.foldl_memOk (fun _ _ h => State.arrive_memOk h) h

theorem State.beginWaves_memOk {s : State} {g : ℕ} (h : s.memOk) : (s.beginWaves g).memOk := by
  unfold State.beginWaves
  split
  · exact h
  · split
    · exact h
    · refine State.foldl_memOk (fun _ _ h => ?_) (State.foldl_memOk (fun _ _ h => State.memOk_mk h) h)
      exact State.haltWave_memOk (State.arrive_memOk h)

theorem State.startSlice_memOk {s : State} {ctx core : ℕ} (h : s.memOk) : (s.startSlice ctx core).memOk := by
  unfold State.startSlice
  exact State.ite_memOk h (State.modContext_memOk h)

theorem State.requestPreempt_memOk {s : State} {g : ℕ} {byPacket : Bool} (h : s.memOk) :
    (s.requestPreempt g byPacket).memOk := by
  unfold State.requestPreempt
  exact State.memOk_mk h

theorem State.makeRoom_memOk {w : Waiting × ℕ} {core : ℕ} {cs : List ℕ} {s : State} (h : s.memOk) :
    (State.makeRoom w core cs s).memOk := by
  induction cs generalizing s with
  | nil => exact h
  | cons c cs ih => exact State.ite_memOk h (ih (State.foldl_memOk (fun _ _ h => State.requestPreempt_memOk h) h))

theorem State.relieveFor_memOk {s : State} {die : ℕ} {w : Waiting} (h : s.memOk) : (s.relieveFor die w).memOk := by
  unfold State.relieveFor
  refine State.ite_memOk h ?_
  split
  · exact h
  · exact State.foldl_memOk (fun _ _ h => State.makeRoom_memOk h) h

theorem State.relieve_memOk {s : State} {die : ℕ} (h : s.memOk) : (s.relieve die).memOk := by
  unfold State.relieve
  split
  · exact h
  · exact State.relieveFor_memOk h

theorem execSliceEnd_memOk {core : ℕ} {ctx : BitVec 12} {s : State} (h : s.memOk) :
    Outcome.MemOk (execSliceEnd core ctx s) := by
  unfold execSliceEnd
  split
  · exact .next h
  · exact Outcome.ite_memOk (.next h) (.next (State.relieve_memOk (State.modContext_memOk h)))

theorem State.arrived_memOk {s : State} {q : BitVec 6} {g : Word} (h : s.memOk) : (s.arrived q g).memOk := by
  unfold State.arrived
  dsimp only
  split
  · refine State.ite_memOk ?_ (State.memOk_mk h)
    exact State.checkLaunchEnd_memOk (State.beginLaunch_memOk (State.memOk_mk (State.memOk_mk h)))
  · exact State.memOk_mk h

theorem State.sendArrival_memOk {s : State} {la : Launch} {g : Word} (h : s.memOk) : (s.sendArrival la g).memOk :=
  State.arrived_memOk (State.sendAll_memOk h)

theorem State.reserve_memOk {s : State} {n : ℕ} (h : s.memOk) : (s.reserve n).memOk := by
  unfold State.reserve
  split
  · exact h
  · split
    · exact h
    · exact State.ite_memOk h (State.sendArrival_memOk h)

theorem State.placeNext_memOk {s : State} {n : ℕ} {la : Launch} (h : s.memOk) :
    Optional.MemOk (s.placeNext n la) := by
  unfold State.placeNext
  split
  · exact .none
  · exact Optional.ite_memOk (State.placeCluster_memOk h) .none

theorem execClusterPlacement_memOk {n : ℕ} {s : State} (h : s.memOk) : Outcome.MemOk (execClusterPlacement n s) := by
  have hs : ((s.reserve n).passTokens n).memOk := State.passTokens_memOk (State.reserve_memOk h)
  unfold execClusterPlacement
  dsimp only
  split
  · exact .next hs
  · split
    · exact .next hs
    · refine Outcome.ite_memOk (.next hs) ?_
      split
      · exact .next (State.foldl_memOk (fun _ _ h => State.relieve_memOk h) hs)
      · rename_i hx
        have ht := Optional.memOk_of_some (State.placeNext_memOk hs) hx
        refine .next (State.passTokens_memOk (State.reserve_memOk (State.ite_then_memOk ?_ State.beginLaunch_memOk)))
        refine State.foldl_memOk (fun _ _ h => State.beginWaves_memOk h) ?_
        refine State.foldl_memOk (fun _ _ h => State.startSlice_memOk h) ?_
        exact State.ite_then_memOk (State.memOk_mk ht) fun h => State.acquireAll_memOk (State.releaseAll_memOk h)

theorem State.noteSlots_memOk {s : State} (h : s.memOk) : s.noteSlots.memOk := by
  unfold State.noteSlots
  exact State.memOk_mk h

theorem State.giveSlot_memOk {s : State} {wk fid : ℕ} (h : s.memOk) : (s.giveSlot wk fid).memOk := by
  unfold State.giveSlot
  dsimp only
  split
  · exact h
  · refine State.ite_memOk h ?_
    refine State.ite_memOk (State.modWave_memOk h) ?_
    split
    · exact h
    · exact State.modWave_memOk (State.modWave_memOk h)

theorem State.denySlot_memOk {s : State} {wk fid : ℕ} (h : s.memOk) : (s.denySlot wk fid).memOk :=
  State.modWave_memOk h

theorem State.modWaves_memOk {s : State} {g : ℕ} {f : Wave → Wave} (h : s.memOk) : (s.modWaves g f).memOk := by
  unfold State.modWaves
  exact State.memOk_mk h

theorem State.withdrawSteps_memOk {s : State} {g : ℕ} (h : s.memOk) : (s.withdrawSteps g).memOk := by
  unfold State.withdrawSteps
  exact State.memOk_mk h

theorem State.stopStanding_memOk {s : State} {g : ℕ} {isOver : Bool} (h : s.memOk) :
    (s.stopStanding g isOver).memOk :=
  State.modWaves_memOk h

theorem State.chargeOverrun_memOk {s : State} (h : s.memOk) : s.chargeOverrun.memOk := by
  refine State.foldl_memOk (fun _ _ h => ?_) h
  split
  · exact State.ite_memOk (State.memOk_mk (State.modContext_memOk h)) h
  · exact h

theorem State.stepPhases_memOk {s : State} (h : s.memOk) : s.stepPhases.memOk := by
  refine State.chargeOverrun_memOk ?_
  refine State.foldl_memOk (fun _ _ h => ?_) h
  split
  · exact State.stopStanding_memOk h
  · exact h

theorem execPreemptStepPhase_memOk {g : ℕ} {s : State} (h : s.memOk) : Outcome.MemOk (execPreemptStepPhase g s) := by
  unfold execPreemptStepPhase
  split
  · exact .next h
  · split
    · exact .next (State.withdrawSteps_memOk (State.stopStanding_memOk (State.memOk_mk h)))
    · exact .next h

theorem execStepPhaseTimeout_memOk {g : ℕ} {s : State} (h : s.memOk) : Outcome.MemOk (execStepPhaseTimeout g s) := by
  unfold execStepPhaseTimeout
  split
  · exact .next h
  · split
    · exact .next (State.withdrawSteps_memOk (State.stopStanding_memOk (State.memOk_mk h)))
    · exact .next h

theorem State.storeParts_memOk {s : State} {la : Launch} {base : ℕ} {w : Wave} {parts : List (ℕ × List Byte)}
    (h : s.memOk) :
    (s.storeParts la base w parts).memOk :=
  State.foldl_memOk (fun _ _ h => State.homeWrite_memOk h) h

theorem State.storeImage_memOk {s : State} {la : Launch} {base wk : ℕ} {w : Wave} (h : s.memOk) :
    (s.storeImage la base wk w).memOk :=
  State.modWave_memOk (State.storeParts_memOk h)

theorem State.runOn_memOk {s : State} {g : ℕ} {restored : Bool} (h : s.memOk) : (s.runOn g restored).memOk := by
  refine State.foldl_memOk (fun _ _ h => ?_) (State.modWaves_memOk (State.memOk_mk h))
  dsimp only
  split
  · refine State.arrive_memOk ?_
    refine State.ite_memOk ?_ h
    split
    · exact h
    · exact State.foldl_memOk (fun _ _ h => State.form_memOk h) h
  · refine State.foldl_memOk (fun _ _ h => ?_) (State.arrive_memOk ?_)
    · split
      · exact State.replay_memOk h
      · exact State.replaySampler_memOk h
      · exact h
    · refine State.ite_memOk ?_ h
      split
      · exact h
      · exact State.foldl_memOk (fun _ _ h => State.form_memOk h) h

theorem State.checkSwapout_memOk {s : State} {ctx : ℕ} (h : s.memOk) : (s.checkSwapout ctx).memOk := by
  unfold State.checkSwapout
  exact State.ite_memOk h (State.foldl_memOk (fun _ _ h => State.complete_memOk h) (State.modContext_memOk h))

theorem State.saveFails_memOk {s : State} {g : ℕ} {wg : Workgroup} {la : Launch} {byPacket : Bool} (h : s.memOk) :
    (s.saveFails g wg la byPacket).memOk := by
  unfold State.saveFails
  refine State.ite_memOk (State.killContext_memOk h) ?_
  exact State.runOn_memOk (State.chargeOverrun_memOk (State.modContext_memOk h))

theorem State.writeImage_memOk {s : State} {g : ℕ} {wg : Workgroup} {la : Launch} {base : ℕ} (h : s.memOk) :
    (s.writeImage g wg la base).memOk := by
  unfold State.writeImage
  refine State.memOk_mk (State.releaseAct_memOk (State.modWaves_memOk ?_))
  refine State.foldl_memOk (fun _ _ h => ?_) ?_
  · exact State.storeImage_memOk h
  · refine State.foldl_memOk (fun _ _ h => ?_) ?_
    · exact State.ite_memOk h (State.homeWrite_memOk h)
    · refine State.foldl_memOk (fun _ _ h => ?_) (State.modWaves_memOk (State.withdrawSteps_memOk ?_))
      · exact State.runRaysOn_memOk h
      · split
        · exact State.markUnits_memOk h
        · exact h

theorem execWorkgroupSave_memOk {g : ℕ} {s : State} (h : s.memOk) : Outcome.MemOk (execWorkgroupSave g s) := by
  unfold execWorkgroupSave
  split
  · exact .next h
  · split
    · refine Outcome.ite_memOk (.next h) ?_
      refine Outcome.ite_memOk (.next (State.killContext_memOk h)) ?_
      split
      · exact .next (State.saveFails_memOk h)
      · refine Outcome.ite_memOk ?_ ?_
        · exact Outcome.ite_memOk (.next (State.killContext_memOk h)) (.next (State.requestNeeds_memOk h))
        · refine .next ?_
          refine State.checkSwapout_memOk ?_
          exact State.dropSlice_memOk (State.writeImage_memOk (State.chargeOverrun_memOk h))
    · exact .next h

theorem State.restorePins_memOk {s : State} {wk core : ℕ} {pins : SMap ℕ} (h : s.memOk) :
    (s.restorePins wk core pins).memOk :=
  State.foldl_memOk (fun _ _ h => State.ite_memOk (State.modWave_memOk h) h) h

theorem State.moveTo_memOk {s : State} {g core : ℕ} (h : s.memOk) : (s.moveTo g core).memOk := by
  unfold State.moveTo
  exact State.memOk_mk h

theorem State.resumeCopies_memOk {s t : State} {la : Launch} {base g : ℕ} (h : s.memOk) :
    (s.resumeCopies t la base g).memOk := by
  unfold State.resumeCopies
  exact State.memOk_mk h

theorem State.readImage_memOk {s : State} {g : ℕ} {wg : Workgroup} {la : Launch} {base core : ℕ} (h : s.memOk) :
    (s.readImage g wg la base core).memOk := by
  refine State.freeImage_memOk ?_
  refine State.acquireAct_memOk ?_
  refine State.foldl_memOk (fun _ _ h => ?_) ?_
  · exact State.restorePins_memOk (State.memOk_mk h)
  · exact State.memOk_mk (State.moveTo_memOk (State.resumeCopies_memOk (State.modWaves_memOk h)))

theorem execWorkgroupRestore_memOk {g : ℕ} {s : State} (h : s.memOk) : Outcome.MemOk (execWorkgroupRestore g s) := by
  unfold execWorkgroupRestore
  split
  · exact .next h
  · split
    · refine Outcome.ite_memOk (.next h) ?_
      split
      · refine Outcome.ite_memOk (.next (State.killContext_memOk h)) ?_
        refine .next ?_
        refine State.foldl_memOk (fun _ _ h => ?_) ?_
        · exact State.haltWave_memOk h
        · exact State.startSlice_memOk (State.runOn_memOk (State.readImage_memOk h))
      · exact .next (State.relieve_memOk h)
    · exact .next h

theorem State.targetGranule_memOk {s : State} {c : Conv} {e : ObjEntry} {g : ℕ} (h : s.memOk) :
    Optional.MemOk (s.targetGranule c e g) := by
  unfold State.targetGranule
  refine Optional.ite_memOk (.some h) ?_
  refine Optional.ite_memOk ?_ .none
  split
  · rename_i hx
    refine .some ?_
    refine State.touch_memOk ?_
    exact State.setGranule_memOk (State.clearRange_memOk _ _ _ (State.dropLines_memOk (State.getFrame_memOk h hx)))
  · exact .none

theorem State.endConversion_memOk {s : State} {n : ℕ} {c : Conv} (h : s.memOk) : (s.endConversion n c).memOk := by
  refine State.ite_else_memOk ?_ (fun h => ?_)
  · refine State.foldl_memOk (fun _ _ h => ?_) ?_
    · exact State.returnGranule_memOk (State.ite_memOk (State.dropLines_memOk h) h)
    · refine State.setWord64_memOk _ _ _ ?_
      exact State.foldl_memOk (fun _ _ h => State.returnFrame_memOk h) (State.memOk_mk h)
  · exact State.startConversion_memOk (State.queueLayout_memOk h)

theorem execConversionTile_memOk {n tile : ℕ} {s : State} (h : s.memOk) :
    Outcome.MemOk (execConversionTile n tile s) := by
  unfold execConversionTile
  refine Outcome.ite_memOk (.next h) ?_
  split
  · exact .next h
  · refine Outcome.ite_memOk (.next h) ?_
    refine Outcome.ite_memOk (.next (State.requestNeeds_memOk h)) ?_
    split
    · exact Outcome.ite_memOk (.next h) (.next (State.request_memOk h))
    · rename_i hx
      refine .next ?_
      refine State.retryWaiters_memOk ?_
      refine State.ite_else_memOk ?_ State.endConversion_memOk
      refine State.memOk_mk ?_
      refine State.setByte_memOk _ _ _ ?_
      refine State.foldl_memOk (fun _ _ h => ?_) ?_
      · exact State.addPoison_memOk h
      · refine State.foldl_memOk (fun _ _ h => ?_) ?_
        · exact State.setByte_memOk _ _ _ h
        · refine State.clearRange_memOk _ _ _ ?_
          exact State.drainStores_memOk (Optional.memOk_of_some (State.targetGranule_memOk h) hx)

theorem State.failSaves_memOk {s : State} {c : LateCause} {dom index g : ℕ} (h : s.memOk) :
    (s.failSaves c dom index g).memOk :=
  State.foldl_memOk (fun _ _ h => State.killContext_memOk h) h

theorem State.failRequest_memOk {s : State} {die : ℕ} {r : GranReq} {c : LateCause} (h : s.memOk) :
    (s.failRequest die r c).memOk := by
  refine State.retrySignals_memOk ?_
  refine State.rearmQueues_memOk ?_
  refine State.failEngines_memOk ?_
  refine State.failSaves_memOk ?_
  exact State.failRecords_memOk (State.failHolders_memOk (State.failParked_memOk (State.memOk_mk h)))

theorem execMigrationMove_memOk {die : BitVec 2} {s : State} (h : s.memOk) :
    Outcome.MemOk (execMigrationMove die s) := by
  unfold execMigrationMove
  refine Outcome.ite_memOk (.next h) ?_
  dsimp only
  split
  · exact .next h
  · split
    · exact .next h
    · refine Outcome.ite_memOk (.next (State.failRequest_memOk h)) ?_
      refine Outcome.ite_memOk (.next (State.memOk_mk h)) ?_
      refine Outcome.ite_memOk (.next (State.failRequest_memOk h)) ?_
      split
      · exact .next h
      · rename_i hx
        exact .next (State.startMove_memOk (State.getFrame_memOk h hx))

theorem execResidencyTimeout_memOk {die : BitVec 2} {n : ℕ} {s : State} (h : s.memOk) :
    Outcome.MemOk (execResidencyTimeout die n s) := by
  unfold execResidencyTimeout
  split
  · exact .next h
  · exact .next (State.ite_memOk h (State.failRequest_memOk h))

theorem execConversionWaitTimeout_memOk {n : ℕ} {s : State} (h : s.memOk) :
    Outcome.MemOk (execConversionWaitTimeout n s) := by
  unfold execConversionWaitTimeout
  split
  · exact .next h
  · exact Outcome.ite_memOk (.next h) (.next (State.failEngines_memOk (State.replayParked_memOk (State.memOk_mk h))))

end Sys2Proof.Machine
end

