-- ==== Sys2Proof/Proofs/LaneForm.lean ====
section
/-!
PROOFS. Instructions on registers keep the form of memory.
-/

namespace Sys2Proof.Machine

theorem branchTo_memOk {f : CFmt} {takes : Env → ℕ → Bool} {e : Env} {s : State} (h : s.memOk) :
    (branchTo f takes e s).MemOk := by
  unfold branchTo
  exact Act.ite_memOk (.jump h) (Act.ite_memOk .trap (.jump h))

theorem State.writeNow_memOk {s : State} {e : Env} {ws : List RegWrite} (h : s.memOk) : (s.writeNow e ws).memOk :=
  State.modWave_memOk h

theorem indirect_memOk {e : Env} {s t : State} {pair : Operand} (ht : t.memOk) : (indirect e s t pair).MemOk := by
  unfold indirect
  split
  · exact .trap
  · exact .jump ht

theorem execHaltComplete_memOk {wk : ℕ} {s : State} (h : s.memOk) : Outcome.MemOk (execHaltComplete wk s) := by
  unfold execHaltComplete
  split
  · exact .next h
  · split
    · split
      · exact .next h
      · refine Outcome.ite_memOk (.next h) ?_
        dsimp only
        split
        · exact .next (State.modWave_memOk h)
        · exact .next (State.ringNotify_memOk (State.modWave_memOk h))
    · exact .next h

theorem State.haltContext_memOk {s : State} {n : ℕ} (h : s.memOk) : (s.haltContext n).memOk :=
  State.foldl_memOk (fun _ _ h => State.haltWave_memOk h) (State.memOk_mk h)

theorem State.resumeWave_memOk {s : State} {wk : ℕ} (h : s.memOk) : (s.resumeWave wk).memOk := by
  unfold State.resumeWave
  refine State.ite_memOk (State.modWave_memOk h) ?_
  split
  · exact State.modWave_memOk h
  · exact State.foldl_memOk (fun _ _ h => State.ite_memOk (State.settle_memOk h) h) (State.modWave_memOk h)

theorem State.resumeContext_memOk {s : State} {n : ℕ} (h : s.memOk) : (s.resumeContext n).memOk :=
  State.foldl_memOk (fun _ _ h => State.resumeWave_memOk h) (State.memOk_mk h)

theorem execDebugHalt_memOk {n : BitVec 3} {s : State} (h : s.memOk) : Outcome.MemOk (execDebugHalt n s) :=
  .next (State.ite_memOk (State.haltContext_memOk h) h)

theorem execDebugResume_memOk {n : BitVec 3} {s : State} (h : s.memOk) : Outcome.MemOk (execDebugResume n s) :=
  .next (State.ite_memOk (State.resumeContext_memOk h) h)

theorem execDebugSessionOpen_memOk {n : BitVec 3} {value : DWord} {s : State} (h : s.memOk) :
    Outcome.MemOk (execDebugSessionOpen n value s) := by
  unfold execDebugSessionOpen
  refine Outcome.ite_memOk (.next h) ?_
  refine .next ?_
  refine State.ite_else_memOk ?_ State.haltContext_memOk
  exact State.ite_memOk (State.resumeContext_memOk (State.setReg_memOk h)) (State.setReg_memOk h)

theorem execDebugSessionClose_memOk {n : BitVec 3} {s : State} (h : s.memOk) :
    Outcome.MemOk (execDebugSessionClose n s) := by
  unfold execDebugSessionClose
  exact Outcome.ite_memOk (.next (State.setReg_memOk (State.resumeContext_memOk h))) (.next h)

theorem execDbgctlWrite_memOk {n : BitVec 3} {value : DWord} {s : State} (h : s.memOk) :
    Outcome.MemOk (execDbgctlWrite n value s) := by
  unfold execDbgctlWrite
  refine Outcome.ite_memOk (execDebugSessionOpen_memOk h) ?_
  exact Outcome.ite_memOk (execDebugSessionClose_memOk h) (.next (State.setReg_memOk h))

theorem State.debugError_memOk {s : State} {n : ℕ} (h : s.memOk) : (s.debugError n).memOk := State.setReg_memOk h

theorem execDbgdataRead_memOk {n : BitVec 3} {s : State} (h : s.memOk) : Outcome.MemOk (execDbgdataRead n s) := by
  unfold execDbgdataRead
  refine Outcome.ite_memOk (.next (State.setReg_memOk (State.debugError_memOk h))) ?_
  split
  · exact .next (State.setReg_memOk (State.debugError_memOk h))
  · exact .next (State.setReg_memOk h)

theorem execDbgdataWrite_memOk {n : BitVec 3} {value : DWord} {s : State} (h : s.memOk) :
    Outcome.MemOk (execDbgdataWrite n value s) := by
  unfold execDbgdataWrite
  refine Outcome.ite_memOk (.next (State.debugError_memOk h)) ?_
  split
  · exact .next (State.debugError_memOk h)
  · refine Outcome.ite_memOk (.next h) ?_
    dsimp only
    split
    · exact .next (State.modWave_memOk h)
    · exact .next (State.modWave_memOk (State.storeImage_memOk h))

theorem dotOp_memOk {f : VFmt} {e : Env} {s : State} (h : s.memOk) : (dotOp f e s).MemOk := floatAct_memOk h

theorem vecCarry_memOk {o : Ty → ℕ → ℕ → ℕ → ℕ × Bool} {takes : Bool} {f : VFmt} {e : Env} {s : State} (h : s.memOk) :
    (vecCarry o takes f e s).MemOk :=
  .writes h

theorem vecAddSub_memOk {o : IntOp} {k : Ty → ℕ → ℕ → ℕ → ℕ × Bool} {f : VFmt} {e : Env} {s : State} (h : s.memOk) :
    (vecAddSub o k f e s).MemOk := by
  unfold vecAddSub
  exact Act.ite_memOk (vecOp_memOk h) (vecCarry_memOk h)

theorem vecDivide_memOk {o : IntOp} {f : VFmt} {e : Env} {s : State} (h : s.memOk) : (vecDivide o f e s).MemOk := by
  unfold vecDivide
  split
  · refine Act.ite_memOk .trap ?_
    split
    · rename_i hx
      exact .writes (Act.memOk_of_writes (vecOp_memOk h) hx)
    · exact vecOp_memOk h
  · exact vecOp_memOk h

theorem vecCount_memOk {o : Ty → ℕ → ℕ} {f : VFmt} {e : Env} {s : State} (h : s.memOk) : (vecCount o f e s).MemOk :=
  .writes h

theorem execMovx_memOk {f : VFmt} {s : State} (h : s.memOk) : Outcome.MemOk (execMovx f s) := by
  refine issue_memOk (fun _ _ h => ?_) h
  dsimp only
  split
  · exact .trap
  · exact .writes h

theorem execMovxs_memOk {f : VFmt} {s : State} (h : s.memOk) : Outcome.MemOk (execMovxs f s) := by
  refine issue_memOk (fun _ _ h => ?_) h
  dsimp only
  split
  · exact .trap
  · exact .writes h

theorem shuffle_memOk {from_ : ℕ → ℕ → ℤ} {f : VFmt} {e : Env} {s : State} (h : s.memOk) :
    (shuffle from_ f e s).MemOk :=
  .writes h

theorem vote_memOk {p : List ℕ → Bool} {f : VFmt} {e : Env} {s : State} (h : s.memOk) : (vote p f e s).MemOk :=
  .writes h

theorem logic_memOk {o : Bool → Bool → Bool} {f : VFmt} {e : Env} {s : State} (h : s.memOk) : (logic o f e s).MemOk :=
  .writes h

end Sys2Proof.Machine
end

