-- ==== Sys2Proof/Proofs/PlatformForm.lean ====
section
/-!
PROOFS. Queues, rasters, the platform, ports and the transport keep the form of memory.
-/

namespace Sys2Proof.Machine

theorem State.modSluice_memOk {s : State} {die q : ℕ} {f : QueueState → QueueState} (h : s.memOk) :
    (s.modSluice die q f).memOk := by
  unfold State.modSluice
  exact State.memOk_mk h

theorem State.stopQueue_memOk {s : State} {die q : ℕ} (h : s.memOk) : (s.stopQueue die q).memOk :=
  State.setReg_memOk h

theorem State.writeRptr_memOk {s : State} {die q : ℕ} {d : QueueDesc} {rptr : DWord} (h : s.memOk) :
    (s.writeRptr die q d rptr).memOk := by
  unfold State.writeRptr
  refine State.ite_memOk (State.modSluice_memOk h) ?_
  exact State.clearPoison_memOk (State.setWord64_memOk _ _ _ (State.modSluice_memOk h))

theorem State.rejectionRecord_memOk {s : State} {queue : ℕ} {rptr : DWord} {ctx dom die : ℕ} {r : Rejection}
    (h : s.memOk) :
    (s.rejectionRecord queue rptr ctx dom die r).memOk := by
  unfold State.rejectionRecord
  exact State.ite_memOk (State.ringNotify_memOk h) h

theorem State.reject_memOk {s : State} {die q : ℕ} {d : QueueDesc} {len : ℕ} {r : Rejection} (h : s.memOk) :
    (s.reject die q d len r).memOk :=
  State.ite_then_memOk (State.stopQueue_memOk (State.rejectionRecord_memOk h)) State.writeRptr_memOk

theorem execQueueDoorbell_memOk {off : BitVec 26} {bytes : ℕ} {wptr : DWord} {s : State} (h : s.memOk) :
    Outcome.MemOk (execQueueDoorbell off bytes wptr s) := by
  unfold execQueueDoorbell
  split
  · exact .next (State.ite_memOk (State.modSluice_memOk h) h)
  · exact .next h

theorem execQueueRestart_memOk {die : BitVec 2} {w : BitVec 5} {bits : DWord} {s : State} (h : s.memOk) :
    Outcome.MemOk (execQueueRestart die w bits s) :=
  .next (State.setReg_memOk h)

theorem State.noteServed_memOk {s : State} {die q : ℕ} (h : s.memOk) : (s.noteServed die q).memOk := by
  unfold State.noteServed
  exact State.memOk_mk h

theorem State.takePacket_memOk {s : State} {die q type : ℕ} {act : QueueDesc → Packet → State → Verdict}
    (h : s.memOk) (hact : ∀ x0 x1 t, t.memOk → (act x0 x1 t).MemOk) :
    (s.takePacket die q type act).memOk := by
  have hr {d : QueueDesc} {n : ℕ} {r : Rejection} : ((s.noteServed die q).reject die q d n r).memOk :=
    State.reject_memOk (State.noteServed_memOk h)
  unfold State.takePacket
  split
  · exact h
  · dsimp only
    split
    · exact h
    · refine State.ite_memOk ?_ ?_
      · exact State.ite_memOk hr (State.ite_memOk hr (State.ite_memOk hr (State.ite_memOk hr hr)))
      · refine State.ite_memOk h (State.ite_memOk hr ?_)
        split
        · exact hr
        · split
          · exact hr
          · rename_i hx
            exact Verdict.memOk_of_blocked (hact _ _ _ h) hx
          · rename_i hx
            exact State.writeRptr_memOk (State.noteServed_memOk (Verdict.memOk_of_taken (hact _ _ _ h) hx))

theorem execNopPacket_memOk {die : BitVec 2} {q : BitVec 11} {s : State} (h : s.memOk) :
    Outcome.MemOk (execNopPacket die q s) :=
  .next (State.takePacket_memOk h (fun _ _ _ h => .taken h))

theorem execSignal_memOk {die : BitVec 2} {q : BitVec 11} {s : State} (h : s.memOk) :
    Outcome.MemOk (execSignal die q s) := by
  refine .next ?_
  refine State.takePacket_memOk h (fun _ _ _ h => ?_)
  refine Verdict.ite_memOk .reject ?_
  exact Verdict.ite_memOk .reject (Verdict.ite_memOk .reject (.taken (State.putSignal_memOk h)))

theorem execWait_memOk {die : BitVec 2} {q : BitVec 11} {s : State} (h : s.memOk) :
    Outcome.MemOk (execWait die q s) := by
  refine .next ?_
  refine State.takePacket_memOk h (fun _ _ _ h => ?_)
  refine Verdict.ite_memOk .reject ?_
  refine Verdict.ite_memOk .reject ?_
  dsimp only
  split
  · exact .blocked (State.modSluice_memOk (State.askSignal_memOk h))
  · refine Verdict.ite_memOk ?_ (.blocked (State.touchRange_memOk h))
    exact .taken (State.modSluice_memOk (State.acquireAll_memOk (State.touchRange_memOk h)))

theorem State.finishInvs_memOk {s : State} (h : s.memOk) : s.finishInvs.memOk := by
  unfold State.finishInvs
  refine State.ite_memOk h ?_
  refine State.foldl_memOk (fun _ _ h => ?_) (State.memOk_mk h)
  exact State.ite_memOk (State.memOk_mk h) (State.complete_memOk h)

theorem execObjinv_memOk {die : BitVec 2} {q : BitVec 11} {s : State} (h : s.memOk) :
    Outcome.MemOk (execObjinv die q s) := by
  refine .next ?_
  refine State.finishInvs_memOk ?_
  refine State.takePacket_memOk h (fun _ _ _ h => ?_)
  refine Verdict.ite_memOk .reject ?_
  refine Verdict.ite_memOk .reject ?_
  exact .taken (State.memOk_mk (State.foldl_memOk (fun _ _ h => State.dropImages_memOk h) (State.dropEntry_memOk h)))

theorem execContext_memOk {die : BitVec 2} {q : BitVec 11} {s : State} (h : s.memOk) :
    Outcome.MemOk (execContext die q s) := by
  refine .next ?_
  refine State.takePacket_memOk h (fun _ _ _ h => ?_)
  dsimp only
  split
  · exact .reject
  · refine Verdict.ite_memOk .reject ?_
    refine Verdict.ite_memOk .reject ?_
    refine Verdict.ite_memOk .reject ?_
    refine Verdict.ite_memOk ?_ (.taken (State.complete_memOk (State.modContext_memOk h)))
    refine .taken ?_
    refine State.checkSwapout_memOk ?_
    refine State.modContext_memOk ?_
    exact State.foldl_memOk (fun _ _ h => State.requestPreempt_memOk h) (State.modContext_memOk h)

theorem State.writeReuse_memOk {s : State} {dom : ℕ} {l : List (ℕ × ℕ)} (h : s.memOk) : (s.writeReuse dom l).memOk :=
  State.foldl_memOk (fun _ _ h => State.ite_memOk (State.setWord64_memOk _ _ _ h) h) h

theorem State.abandon_memOk {s : State} {n : ℕ} (h : s.memOk) : (s.abandon n).memOk := by
  unfold State.abandon
  split
  · exact h
  · refine State.memOk_mk ?_
    exact State.markKilled_memOk (State.dropQueue_memOk (State.killWorkgroups_memOk (State.faultRecord_memOk h)))

theorem State.accept_memOk {s : State} {la : Launch} {reuse : List (ℕ × ℕ)} {packet : List Byte} (h : s.memOk) :
    (s.accept la reuse packet).memOk := by
  unfold State.accept
  refine State.ite_memOk ?_ ?_
  · refine State.abandon_memOk ?_
    refine State.ite_else_memOk ?_ State.sendAll_memOk
    exact State.memOk_mk (State.writeReuse_memOk (State.modContext_memOk (State.acquireAll_memOk h)))
  · refine State.reserve_memOk ?_
    refine State.ite_else_memOk ?_ State.sendAll_memOk
    exact State.memOk_mk (State.writeReuse_memOk (State.modContext_memOk (State.acquireAll_memOk h)))

theorem State.sendRejections_memOk {s : State} {to_ : List (BitVec 6)} {g : Word} (h : s.memOk) :
    (s.sendRejections to_ g).memOk :=
  State.sendAll_memOk h

theorem State.noteLaunch_memOk {s : State} {p : Packet} (h : s.memOk) : (s.noteLaunch p).memOk :=
  State.foldl_memOk (fun _ _ h => State.touchRange_memOk h) (State.touchRange_memOk h)

theorem execLaunch_memOk {die : BitVec 2} {q : BitVec 11} {s : State} (h : s.memOk) :
    Outcome.MemOk (execLaunch die q s) := by
  refine .next ?_
  refine State.takePacket_memOk h (fun _ _ _ h => ?_)
  refine Verdict.ite_memOk (.blocked h) ?_
  split
  · exact .reject
  · exact .blocked (State.modSluice_memOk (State.requestNeeds_memOk h))
  · exact .taken (State.modSluice_memOk (State.accept_memOk (State.noteLaunch_memOk h)))

theorem execLaunchReplica_memOk {from_ : BitVec 6} {ctx : BitVec 12} {dom : BitVec 16} {packet : List Byte}
    {s : State} (h : s.memOk) :
    Outcome.MemOk (execLaunchReplica from_ ctx dom packet s) := by
  unfold execLaunchReplica
  dsimp only
  refine Outcome.ite_memOk (.next h) ?_
  split
  · refine .next ?_
    exact State.sendRejections_memOk (State.memOk_mk (State.faultRecord_memOk (State.rejectionRecord_memOk h)))
  · split
    · refine .next ?_
      exact State.sendRejections_memOk (State.memOk_mk (State.faultRecord_memOk (State.rejectionRecord_memOk h)))
    · exact .next (State.requestNeeds_memOk h)
    · exact .next (State.accept_memOk (State.noteLaunch_memOk h))

theorem execStartArrival_memOk {from_ : BitVec 6} {g : Word} {s : State} (h : s.memOk) :
    Outcome.MemOk (execStartArrival from_ g s) :=
  .next (State.ite_memOk h (State.arrived_memOk h))

theorem execLaunchRejectionStamped_memOk {_from : BitVec 6} {g : Word} {s : State} (h : s.memOk) :
    Outcome.MemOk (execLaunchRejectionStamped _from g s) := by
  unfold execLaunchRejectionStamped
  split
  · exact .next (State.abandon_memOk h)
  · exact .next h

theorem execStartTimeout_memOk {n : ℕ} {s : State} (h : s.memOk) : Outcome.MemOk (execStartTimeout n s) := by
  unfold execStartTimeout
  split
  · exact .next h
  · split
    · exact .next h
    · exact .next (State.ite_memOk h (State.sendRejections_memOk (State.abandon_memOk h)))

theorem execArrivalExpiry_memOk {from_ : BitVec 6} {g : Word} {s : State} (h : s.memOk) :
    Outcome.MemOk (execArrivalExpiry from_ g s) :=
  .next (State.ite_memOk h (State.memOk_mk h))

theorem execPackageEndReport_memOk {from_ : BitVec 6} {g : Word} {s : State} (h : s.memOk) :
    Outcome.MemOk (execPackageEndReport from_ g s) := by
  unfold execPackageEndReport
  split
  · exact .next (State.ite_memOk (State.reportEnd_memOk h) h)
  · exact .next h

theorem State.modRaster_memOk {s : State} {launch b : ℕ} {f : RasterBinding → RasterBinding} (h : s.memOk) :
    (s.modRaster launch b f).memOk := by
  unfold State.modRaster
  exact State.memOk_mk h

theorem State.unitFails_memOk {s : State} {launch : ℕ} {c : LateCause} (h : s.memOk) :
    (s.unitFails launch c).memOk := by
  unfold State.unitFails
  split
  · exact State.killLaunch_memOk h
  · exact h

theorem State.emit_memOk {launch b ko : ℕ} {rs : List (List Word)} {s : State} (h : s.memOk) :
    (State.emit launch b ko rs s).memOk := by
  induction rs generalizing s with
  | nil => exact State.modRaster_memOk h
  | cons r rest ih =>
    unfold State.emit
    split
    · exact h
    · refine State.ite_memOk (State.modRaster_memOk h) ?_
      dsimp only
      split
      · rename_i hx
        exact State.modRaster_memOk (AccOut.memOk_of_wait (State.pushRecord_memOk h) hx)
      · rename_i hx
        exact State.unitFails_memOk (AccOut.memOk_of_late (State.pushRecord_memOk h) hx)
      · rename_i hx
        exact ih (State.modRaster_memOk (AccOut.memOk_of_done (State.pushRecord_memOk h) hx))

theorem State.unitPop_memOk {s : State} {launch k : ℕ} {take : State → List Word → State} {atEnd : State → State}
    (h : s.memOk) (htake : ∀ t x1, t.memOk → (take t x1).memOk) (hatEnd : ∀ t, t.memOk → (atEnd t).memOk) :
    (s.unitPop launch k take atEnd).memOk := by
  unfold State.unitPop
  split
  · exact h
  · split
    · rename_i hx
      exact AccOut.memOk_of_wait (State.popRecord_memOk h (fun _ _ h => .done (htake _ _ h)) (.done (hatEnd _ h))) hx
    · rename_i hx
      refine State.unitFails_memOk ?_
      exact AccOut.memOk_of_late (State.popRecord_memOk h (fun _ _ h => .done (htake _ _ h)) (.done (hatEnd _ h))) hx
    · rename_i hx
      exact AccOut.memOk_of_done (State.popRecord_memOk h (fun _ _ h => .done (htake _ _ h)) (.done (hatEnd _ h))) hx

theorem execRasterTriangle_memOk {launch : ℕ} {b : BitVec 1} {s : State} (h : s.memOk) :
    Outcome.MemOk (execRasterTriangle launch b s) := by
  unfold execRasterTriangle
  split
  · exact .next h
  · refine Outcome.ite_memOk (.next h) ?_
    refine Outcome.ite_memOk (.next (State.emit_memOk h)) ?_
    exact .next (State.unitPop_memOk h (fun _ _ h => State.emit_memOk h) (fun _ h => State.modQueue_memOk h))

theorem State.mergeWrite_memOk {s : State} {die : ℕ} {p : TargetOut} {bs : List Byte} (h : s.memOk) :
    (s.mergeWrite die p bs).memOk := by
  unfold State.mergeWrite
  split
  · exact State.dieWrite_memOk h
  · exact h

theorem State.mergeSample_memOk {s : State} {la : Launch} {b : RasterBinding} {elem : ℕ} {src : ℕ → FVal} {z : Word}
    (h : s.memOk) :
    Checked.MemOk (s.mergeSample la b elem src z) := by
  unfold State.mergeSample
  dsimp only
  split
  · exact .error
  · refine Checked.ite_memOk (.ok (State.bumpFree_memOk h)) ?_
    exact .ok (State.mergeWrite_memOk (State.mergeWrite_memOk (State.bumpFree_memOk h)))

theorem State.mergeRecord_memOk {s : State} {la : Launch} {b : RasterBinding} {r : List Word} (h : s.memOk) :
    Checked.MemOk (s.mergeRecord la b r) := by
  refine List.foldlRecOn (motive := Checked.MemOk) _ _ (.ok h) fun acc hacc k _ => ?_
  cases hacc with
  | error => exact .error
  | ok ht => exact Checked.ite_memOk (.ok ht) (State.mergeSample_memOk ht)

theorem execRasterMerge_memOk {launch : ℕ} {b : BitVec 1} {s : State} (h : s.memOk) :
    Outcome.MemOk (execRasterMerge launch b s) := by
  unfold execRasterMerge
  split
  · exact .next h
  · refine Outcome.ite_memOk (.next h) ?_
    split
    · refine Outcome.ite_memOk (.next (State.checkLaunchEnd_memOk (State.modRaster_memOk h))) ?_
      split
      · rename_i hx
        refine .next ?_
        exact State.checkLaunchEnd_memOk (State.modRaster_memOk (Checked.memOk_of_ok (State.mergeRecord_memOk h) hx))
      · exact Outcome.ite_memOk (.next (State.killLaunch_memOk h)) (.next (State.requestNeeds_memOk h))
    · exact .next (State.unitPop_memOk h (fun _ _ h => State.modRaster_memOk h) (fun _ h => State.modRaster_memOk h))

theorem execHoldLimit_memOk {wk fid : ℕ} {s : State} (h : s.memOk) : Outcome.MemOk (execHoldLimit wk fid s) := by
  unfold execHoldLimit
  split
  · exact .next (State.ite_memOk (State.arrive_memOk h) h)
  · exact .next h

theorem State.checkResult_memOk {s : State} {wk : ℕ} {pc : CodeAddr} {outcome : EngineOutcome}
    {pass : State → State} (h : s.memOk) (hpass : ∀ t, t.memOk → (pass t).memOk) :
    (s.checkResult wk pc outcome pass).memOk := by
  unfold State.checkResult
  split
  · exact h
  · dsimp only
    split
    · exact hpass _ (State.countOutcome_memOk h)
    · exact State.engineDamage_memOk (State.countOutcome_memOk h)

theorem execLongLatencyComplete_memOk {wk : ℕ} {ended : LatencyEnd} {s : State} (h : s.memOk) :
    Outcome.MemOk (execLongLatencyComplete wk ended s) := by
  unfold execLongLatencyComplete
  split
  · exact .next h
  · refine Outcome.ite_memOk (.next h) (.next ?_)
    refine State.ite_memOk ?_ ?_
    · refine State.checkResult_memOk h (fun _ h => ?_)
      split
      · exact State.modWave_memOk h
      · exact State.replay_memOk h
      · exact State.replaySampler_memOk h
      · exact h
    · dsimp only
      split
      · exact State.modWave_memOk h
      · exact State.replay_memOk h
      · exact State.replaySampler_memOk h
      · exact h

theorem execStoreAcknowledge_memOk {n : ℕ} {s : State} (h : s.memOk) : Outcome.MemOk (execStoreAcknowledge n s) := by
  unfold execStoreAcknowledge
  split
  · exact .next h
  · refine Outcome.ite_memOk ?_ ?_
    · refine Outcome.ite_memOk (.next (State.failRecords_memOk h)) ?_
      split
      · exact .next (State.requestAcc_memOk h)
      · exact .next (State.memOk_mk h)
    · exact Outcome.ite_memOk (.next h) (.next (State.memOk_mk (State.performStore_memOk h)))

theorem execLateCondition_memOk {wk id : ℕ} {c : LateCause} {s : State} (h : s.memOk) :
    Outcome.MemOk (execLateCondition wk id c s) := by
  unfold execLateCondition
  split
  · exact .next h
  · refine Outcome.ite_memOk (.next h) ?_
    split
    · exact .next (State.lateTrap_memOk h)
    · exact .next (State.lateTrap_memOk h)
    · exact .next (State.lateTrap_memOk h)
    · exact .next h

theorem execWaitClkExpiry_memOk {wk fid : ℕ} {s : State} (h : s.memOk) :
    Outcome.MemOk (execWaitClkExpiry wk fid s) := by
  unfold execWaitClkExpiry
  dsimp only
  split
  · exact Outcome.ite_memOk (execWaitClk_memOk (State.memOk_mk h)) (.next h)
  · exact .next h

theorem State.setMailbox_memOk {s : State} {n : ℕ} (h : s.memOk) : (s.setMailbox n).memOk := State.setReg_memOk h

theorem execRegisterWrite_memOk {off : BitVec 16} {value : DWord} {s : State} (h : s.memOk) :
    Outcome.MemOk (execRegisterWrite off value s) := by
  unfold execRegisterWrite
  refine Outcome.ite_memOk (.next h) ?_
  refine Outcome.ite_memOk ?_ ?_
  · exact Outcome.ite_memOk (.next h) (.next (State.setMailbox_memOk (State.setReg_memOk h)))
  · refine Outcome.ite_memOk (execDbgctlWrite_memOk h) ?_
    split
    · exact .next (State.ite_memOk (State.pump_memOk (State.setReg_memOk h)) (State.setReg_memOk h))
    · exact .next h

theorem execIdentify_memOk {s : State} (h : s.memOk) : Outcome.MemOk (execIdentify s) := by
  unfold execIdentify
  refine Outcome.ite_memOk ?_ (.next h)
  exact .next (State.setMailbox_memOk (State.setReg_memOk (State.setReg_memOk (State.setReg_memOk h))))

theorem execFwwrite_memOk {s : State} (h : s.memOk) : Outcome.MemOk (execFwwrite s) := by
  unfold execFwwrite
  refine Outcome.ite_memOk ?_ (.next h)
  exact Outcome.ite_memOk (.next (State.setMailbox_memOk h)) (.next (State.setMailbox_memOk (State.memOk_mk h)))

theorem execStatus_memOk {s : State} (h : s.memOk) : Outcome.MemOk (execStatus s) := by
  unfold execStatus
  exact Outcome.ite_memOk (.next (State.setMailbox_memOk (State.setReg_memOk h))) (.next h)

theorem State.boot_memOk {s : State} (h : s.memOk) : s.boot.memOk := by
  unfold State.memOk at h
  simp only [Bool.and_eq_true] at h
  obtain ⟨⟨hm, hh⟩, hd⟩ := h
  unfold State.boot State.memOk
  simp only [Bool.and_eq_true]
  refine ⟨⟨?_, hh⟩, ?_⟩
  · split
    · exact Memory.wf_filter _ _ hm
    · exact hm
  · split
    · rw [List.all_eq_true] at hd ⊢
      exact fun c hc => hd c (List.mem_filter.1 hc).1
    · exact hd

theorem execPowerOnReset_memOk {s : State} (h : s.memOk) : Outcome.MemOk (execPowerOnReset s) :=
  .next (State.boot_memOk h)

theorem execFwactivate_memOk {s : State} (h : s.memOk) : Outcome.MemOk (execFwactivate s) := by
  unfold execFwactivate
  exact Outcome.ite_memOk (.next (State.ite_memOk (State.setMailbox_memOk h) (State.boot_memOk h))) (.next h)

theorem State.respond_memOk {s : State} {r : SpdmResponse} (h : s.memOk) : (s.respond r).memOk := by
  unfold State.respond
  exact State.memOk_mk h

theorem execGetVersion_memOk {s : State} (h : s.memOk) : Outcome.MemOk (execGetVersion s) :=
  .next (State.respond_memOk h)

theorem execGetCapabilities_memOk {s : State} (h : s.memOk) : Outcome.MemOk (execGetCapabilities s) :=
  .next (State.respond_memOk h)

theorem execNegotiateAlgorithms_memOk {ecdsaP256 sha256 : Bool} {s : State} (h : s.memOk) :
    Outcome.MemOk (execNegotiateAlgorithms ecdsaP256 sha256 s) :=
  .next (State.respond_memOk h)

theorem execGetDigests_memOk {s : State} (h : s.memOk) : Outcome.MemOk (execGetDigests s) :=
  .next (State.respond_memOk h)

theorem execGetCertificate_memOk {offset length : BitVec 16} {s : State} (h : s.memOk) :
    Outcome.MemOk (execGetCertificate offset length s) :=
  .next (State.respond_memOk h)

theorem execChallenge_memOk {nonce : List Byte} {s : State} (h : s.memOk) : Outcome.MemOk (execChallenge nonce s) :=
  .next (State.respond_memOk (State.bumpFree_memOk h))

theorem execGetMeasurements_memOk {index : BitVec 8} {s : State} (h : s.memOk) :
    Outcome.MemOk (execGetMeasurements index s) :=
  .next (State.respond_memOk h)

theorem State.killAll_memOk {s : State} {record : FaultInfo} {reason : ℕ} (h : s.memOk) :
    (s.killAll record reason).memOk :=
  State.foldl_memOk (fun _ _ h => State.killContext_memOk h) (State.faultRecord_memOk h)

theorem State.alarm_memOk {s : State} {sources : BitVec 8} (h : s.memOk) : (s.alarm sources).memOk := by
  unfold State.alarm
  exact State.ite_memOk h (State.memOk_mk (State.memOk_mk (State.killAll_memOk (State.setReg_memOk h))))

theorem execSecurityAlarm_memOk {sources : BitVec 8} {s : State} (h : s.memOk) :
    Outcome.MemOk (execSecurityAlarm sources s) :=
  .next (State.alarm_memOk h)

theorem execFirmwareRemeasure_memOk {s : State} (h : s.memOk) : Outcome.MemOk (execFirmwareRemeasure s) :=
  .next (State.ite_memOk h (State.alarm_memOk h))

theorem State.setTemp_memOk {s : State} {temp : BitVec 8} (h : s.memOk) : (s.setTemp temp).memOk :=
  State.setReg_memOk h

theorem execThermalTrip_memOk {temp : BitVec 8} {s : State} (h : s.memOk) :
    Outcome.MemOk (execThermalTrip temp s) := by
  unfold execThermalTrip
  refine Outcome.ite_memOk (.next h) ?_
  exact .next (State.memOk_mk (State.killAll_memOk (State.setReg_memOk (State.setTemp_memOk h))))

theorem State.modIsland_memOk {s : State} {i : ℕ} {f : Bool → Bool → ℕ → ℕ → DWord} (h : s.memOk) :
    (s.modIsland i f).memOk :=
  State.setReg_memOk h

theorem State.retarget_memOk {s : State} {i t : ℕ} (h : s.memOk) : (s.retarget i t).memOk := State.modIsland_memOk h

theorem execIslandWrite_memOk {i : BitVec 6} {value : DWord} {s : State} (h : s.memOk) :
    Outcome.MemOk (execIslandWrite i value s) := by
  unfold execIslandWrite
  exact Outcome.ite_memOk (.next (State.memOk_mk h)) (.next (State.retarget_memOk h))

theorem execFrequencyChangeEnd_memOk {i : BitVec 6} {s : State} (h : s.memOk) :
    Outcome.MemOk (execFrequencyChangeEnd i s) := by
  unfold execFrequencyChangeEnd
  refine Outcome.ite_memOk ?_ (.next h)
  dsimp only
  split
  · exact .next (State.retarget_memOk (State.memOk_mk (State.modIsland_memOk h)))
  · exact .next (State.modIsland_memOk h)

theorem execThermalThrottle_memOk {temp : BitVec 8} {islands : List (BitVec 6 × BitVec 8)} {s : State} (h : s.memOk) :
    Outcome.MemOk (execThermalThrottle temp islands s) := by
  unfold execThermalThrottle
  refine Outcome.ite_memOk (.next h) ?_
  exact .next (State.foldl_memOk (fun _ _ h => State.modIsland_memOk h) (State.setTemp_memOk h))

theorem execThermalLimitRelease_memOk {temp : BitVec 8} {s : State} (h : s.memOk) :
    Outcome.MemOk (execThermalLimitRelease temp s) := by
  unfold execThermalLimitRelease
  refine Outcome.ite_memOk (.next h) ?_
  exact .next (State.foldl_memOk (fun _ _ h => State.ite_memOk (State.modIsland_memOk h) h) (State.setTemp_memOk h))

theorem execSkewMeasurement_memOk {pkg : Bool} {index : BitVec 6} {off : BitVec 48} {unc : BitVec 15} {s : State}
    (h : s.memOk) :
    Outcome.MemOk (execSkewMeasurement pkg index off unc s) := by
  unfold execSkewMeasurement
  exact Outcome.ite_memOk (.next (State.ite_memOk h (State.setReg_memOk h))) (.next (State.ite_memOk h (State.setReg_memOk h)))

theorem execHostMemAccess_memOk {addr : ℕ} {a : HostAccess} {s : State} (h : s.memOk) :
    Outcome.MemOk (execHostMemAccess addr a s) := by
  unfold execHostMemAccess
  refine Outcome.ite_memOk (.next h) ?_
  split
  · exact .next (State.memOk_mk h)
  · exact .next (State.homeWrite_memOk h)

theorem execHostCacheSnoop_memOk {pasid : BitVec 20} {iova : ℕ} {bytes : List Byte} {s : State} (h : s.memOk) :
    Outcome.MemOk (execHostCacheSnoop pasid iova bytes s) := by
  unfold execHostCacheSnoop
  refine Outcome.ite_memOk (.next h) ?_
  exact .next (State.clearPoison_memOk (State.setBytes_memOk _ _ _ (State.dropLines_memOk h)))

theorem execAtsInvalidation_memOk {pasid : BitVec 20} {granule : ℕ} {s : State} (h : s.memOk) :
    Outcome.MemOk (execAtsInvalidation pasid granule s) :=
  .next (State.drainStores_memOk h)

theorem execExpanderLinkLoss_memOk {d : BitVec 2} {s : State} (h : s.memOk) :
    Outcome.MemOk (execExpanderLinkLoss d s) := by
  refine .next ?_
  refine State.foldl_memOk (fun _ _ h => ?_) ?_
  · exact State.failRequest_memOk h
  · exact State.keepL2_memOk (State.setReg_memOk (State.countError_memOk h))

theorem State.moveRetired_memOk {s : State} {die frame : ℕ} (h : s.memOk) : (s.moveRetired die frame).memOk := by
  unfold State.moveRetired
  refine State.ite_memOk h ?_
  split
  · exact h
  · split
    · exact h
    · rename_i hx
      refine State.ite_memOk ?_ (State.getFrame_memOk (State.drainGranule_memOk h) hx)
      refine State.returnGranule_memOk ?_
      refine State.setGranule_memOk ?_
      exact State.copyGranule_memOk (State.dropLines_memOk (State.getFrame_memOk (State.drainGranule_memOk h) hx))

theorem State.moveAllRetired_memOk {s : State} {die : ℕ} (h : s.memOk) : (s.moveAllRetired die).memOk :=
  State.foldl_memOk (fun _ _ h => State.moveRetired_memOk h) h

theorem State.retire_memOk {s : State} {die frame : ℕ} (h : s.memOk) : (s.retire die frame).memOk := by
  unfold State.retire
  exact State.ite_memOk h (State.moveRetired_memOk (State.memOk_mk (State.countError_memOk h)))

theorem State.damageWorkgroup_memOk {s : State} {g : ℕ} (h : s.memOk) : (s.damageWorkgroup g).memOk := by
  unfold State.damageWorkgroup
  split
  · exact h
  · dsimp only
    split
    · exact h
    · exact State.damage_memOk (State.countError_memOk h)
    · exact h

theorem State.hardError_memOk {s : State} {x1 : HardError} (h : s.memOk) : (s.hardError x1).memOk := by
  unfold State.hardError
  split
  · exact State.ite_memOk h (State.countError_memOk h)
  · refine State.ite_memOk h ?_
    split
    · exact h
    · split
      · exact h
      · exact State.damage_memOk (State.countError_memOk h)
  · exact State.damageWorkgroup_memOk h
  · exact State.memOk_mk (State.countError_memOk h)
  · exact State.memOk_mk (State.countError_memOk h)
  · exact State.ite_memOk (State.poisonAs_memOk (State.dropLines_memOk h)) (State.keepL2_memOk (State.countError_memOk h))
  · dsimp only
    split
    · exact h
    · exact State.ite_memOk (State.memOk_mk (State.countError_memOk h)) (State.notePoison_memOk (State.memOk_mk h))
  · exact State.ite_memOk (State.poisonAs_memOk h) h
  · split
    · exact h
    · exact State.ite_memOk (State.killLaunch_memOk (State.countError_memOk h)) h
  · split
    · exact h
    · exact State.ite_memOk (State.checkResult_memOk h (fun _ h => h)) h
  · exact State.parityError_memOk h

theorem execScrubPass_memOk {die : BitVec 2} {corrected : List (ℕ × ℕ)} {found : ScrubFindings} {s : State}
    (h : s.memOk) :
    Outcome.MemOk (execScrubPass die corrected found s) := by
  refine .next ?_
  refine State.foldl_memOk (fun _ _ h => ?_) ?_
  · exact State.hardError_memOk h
  · refine State.foldl_memOk (fun _ _ h => ?_) ?_
    · exact State.poisonSector_memOk h
    · refine State.foldl_memOk (fun _ _ h => ?_) h
      exact State.ite_memOk (State.retire_memOk (State.countError_memOk h)) (State.countError_memOk h)

theorem State.endCollective_memOk {s : State} {la : Launch} {c : Coll} (h : s.memOk) :
    (s.endCollective la c).memOk := by
  unfold State.endCollective
  refine State.ite_memOk ?_ ?_
  · exact State.memOk_mk (State.releaseAct_memOk (State.setCstat_memOk (State.engineWrite_memOk h)))
  · exact State.ite_memOk (State.setCstat_memOk h) (State.memOk_mk (State.requestNeeds_memOk h))

theorem State.endCollectives_memOk {s : State} {n : ℕ} (h : s.memOk) : (s.endCollectives n).memOk := by
  unfold State.endCollectives
  refine State.memOk_mk ?_
  split
  · exact h
  · exact State.foldl_memOk (fun _ _ h => State.endCollective_memOk h) h

theorem State.countReplay_memOk {s : State} {p : ℕ} (h : s.memOk) : (s.countReplay p).memOk :=
  State.modPort_memOk (State.ite_memOk h (State.setReg_memOk h))

theorem State.askReplay_memOk {s : State} {p : ℕ} (h : s.memOk) : (s.askReplay p).memOk :=
  State.countReplay_memOk (State.sendFlit_memOk h)

theorem State.checkFlit_memOk {s : State} {p : ℕ} {bytes : List Byte} {good : State → State} (h : s.memOk)
    (hgood : ∀ t, t.memOk → (good t).memOk) :
    (s.checkFlit p bytes good).memOk := by
  unfold State.checkFlit
  exact State.ite_memOk h (State.ite_memOk (State.askReplay_memOk h) (hgood _ h))

theorem State.killTold_memOk {s : State} {reason n : ℕ} (h : s.memOk) : (s.killTold reason n).memOk := by
  unfold State.killTold
  split
  · exact h
  · exact State.killHere_memOk (State.endCollectives_memOk h)

theorem State.hearKill_memOk {s : State} {bytes : List Byte} (h : s.memOk) : (s.hearKill bytes).memOk := by
  unfold State.hearKill
  split
  · exact h
  · exact State.foldl_memOk (fun _ _ h => State.killTold_memOk h) h

theorem execFlitData_memOk {port : BitVec 6} {bytes : List Byte} {s : State} (h : s.memOk) :
    Outcome.MemOk (execFlitData port bytes s) := by
  unfold execFlitData
  refine Outcome.ite_memOk (.next h) ?_
  refine Outcome.ite_memOk (.next (State.askReplay_memOk h)) ?_
  refine Outcome.ite_memOk (.next h) ?_
  refine Outcome.ite_memOk (.next (State.askReplay_memOk h)) ?_
  exact .next (State.ite_else_memOk (State.sendFlit_memOk (State.modPort_memOk h)) State.hearKill_memOk)

theorem execFlitIdle_memOk {port : BitVec 6} {bytes : List Byte} {s : State} (h : s.memOk) :
    Outcome.MemOk (execFlitIdle port bytes s) :=
  .next (State.checkFlit_memOk h (fun _ h => State.ite_memOk (State.askReplay_memOk h) h))

theorem State.freeFlits_memOk {s : State} {p : ℕ} {seq : BitVec 10} (h : s.memOk) : (s.freeFlits p seq).memOk :=
  State.modPort_memOk h

theorem execFlitAcknowledge_memOk {port : BitVec 6} {bytes : List Byte} {s : State} (h : s.memOk) :
    Outcome.MemOk (execFlitAcknowledge port bytes s) :=
  .next (State.checkFlit_memOk h (fun _ h => State.ite_memOk (State.pump_memOk (State.freeFlits_memOk h)) h))

theorem execFlitReplayRequest_memOk {port : BitVec 6} {bytes : List Byte} {s : State} (h : s.memOk) :
    Outcome.MemOk (execFlitReplayRequest port bytes s) := by
  refine .next ?_
  refine State.checkFlit_memOk h (fun _ h => ?_)
  refine State.ite_memOk ?_ h
  refine State.pump_memOk ?_
  exact State.foldl_memOk (fun _ _ h => State.sendFlit_memOk h) (State.countReplay_memOk (State.freeFlits_memOk h))

theorem State.movePaths_memOk {s : State} {pkg : BitVec 6} (h : s.memOk) : (s.movePaths pkg).memOk := by
  unfold State.movePaths
  refine State.ite_memOk ?_ h
  exact State.pump_memOk (State.memOk_mk (State.foldl_memOk (fun _ _ h => State.modPort_memOk h) h))

theorem execPortRetrain_memOk {port : BitVec 6} {s : State} (h : s.memOk) :
    Outcome.MemOk (execPortRetrain port s) := by
  unfold execPortRetrain
  exact Outcome.ite_memOk (.next (State.movePaths_memOk (State.modPort_memOk (State.setPort_memOk h)))) (.next h)

theorem execPortTrainingEnd_memOk {port : BitVec 6} {lanes : BitVec 3} {peer : BitVec 6} {s : State} (h : s.memOk) :
    Outcome.MemOk (execPortTrainingEnd port lanes peer s) := by
  unfold execPortTrainingEnd
  refine Outcome.ite_memOk (.next h) ?_
  refine Outcome.ite_memOk (.next (State.movePaths_memOk (State.setPort_memOk h))) ?_
  refine .next ?_
  refine State.ite_memOk (State.setPort_memOk h) ?_
  refine State.pump_memOk ?_
  exact State.movePaths_memOk (State.foldl_memOk (fun _ _ h => State.sendFlit_memOk h) (State.setPort_memOk h))

theorem State.losePackage_memOk {s : State} {q : BitVec 6} (h : s.memOk) : (s.losePackage q).memOk := by
  unfold State.losePackage
  refine State.ite_memOk h ?_
  refine State.replayParked_memOk ?_
  refine State.foldl_memOk (fun _ _ h => ?_) ?_
  · exact State.failRequest_memOk h
  · refine State.foldl_memOk (fun _ _ h => ?_) ?_
    · exact State.memOk_mk (State.countError_memOk h)
    · refine State.foldl_memOk (fun _ _ h => ?_) ?_
      · exact State.abandon_memOk (State.endCollectives_memOk h)
      · refine State.foldl_memOk (fun _ _ h => ?_) (State.memOk_mk (State.memOk_mk h))
        exact State.ite_memOk (State.setPort_memOk h) h

theorem execPackageLoss_memOk {pkg : BitVec 6} {s : State} (h : s.memOk) : Outcome.MemOk (execPackageLoss pkg s) := by
  unfold execPackageLoss
  exact Outcome.ite_memOk (.next h) (.next (State.losePackage_memOk h))

theorem execPackageLossReport_memOk {pkg : BitVec 6} {s : State} (h : s.memOk) :
    Outcome.MemOk (execPackageLossReport pkg s) :=
  .next (State.losePackage_memOk h)

theorem State.modConn_memOk {s : State} {die c : ℕ} {f : Conn → Conn} (h : s.memOk) : (s.modConn die c f).memOk := by
  unfold State.modConn
  exact State.memOk_mk h

theorem execTransportDoorbell_memOk {off : BitVec 26} {bytes : ℕ} {value : DWord} {s : State} (h : s.memOk) :
    Outcome.MemOk (execTransportDoorbell off bytes value s) := by
  unfold execTransportDoorbell
  split
  · exact .next h
  · exact Outcome.ite_memOk (.next h) (.next (State.modConn_memOk h))

theorem State.sendFrame_memOk {s : State} {die : ℕ} {d : ConnDesc} {bs : List Byte} (h : s.memOk) :
    (s.sendFrame die d bs).memOk := by
  unfold State.sendFrame
  exact State.ite_memOk (State.memOk_mk h) h

theorem State.postFrame_memOk {s : State} {die c op : ℕ} {d : ConnDesc} {last : Bool} {off : DWord} {obj : Word}
    {len : ℕ} {payload : List Byte} {wr : Option ℕ} (h : s.memOk) :
    (s.postFrame die c op d last off obj len payload wr).memOk :=
  State.sendFrame_memOk (State.modConn_memOk h)

theorem State.postAll_memOk {s : State} {die c op : ℕ} {d : ConnDesc} {off : DWord} {obj : Word} {bs : List Byte}
    {wr : Option ℕ} (h : s.memOk) :
    (s.postAll die c op d off obj bs wr).memOk := by
  refine State.foldl_memOk (fun _ _ h => ?_) h
  split
  · exact State.postFrame_memOk h
  · exact h

theorem State.answer_memOk {s : State} {die c op : ℕ} {d : ConnDesc} {failed : Bool} (h : s.memOk) :
    (s.answer die c op d failed).memOk :=
  State.sendFrame_memOk h

theorem State.emitRecord_memOk {s : State} {die c : ℕ} {d : ConnDesc} {r : List Byte} (h : s.memOk) :
    (s.emitRecord die c d r).memOk := by
  unfold State.emitRecord
  exact State.ite_memOk (State.ringWrite_memOk (State.writeBackRemote_memOk h)) (State.modConn_memOk (State.writeBackRemote_memOk h))

theorem State.flushWork_memOk {die c : ℕ} {d : ConnDesc} {ws : List WorkReq} {s : State} (h : s.memOk) :
    (State.flushWork die c d ws s).memOk := by
  induction ws generalizing s with
  | nil => exact h
  | cons w ws ih =>
    unfold State.flushWork
    split
    · exact h
    · exact ih (State.emitRecord_memOk (State.modConn_memOk h))

theorem State.endWork_memOk {s : State} {die c : ℕ} {d : ConnDesc} {id status : ℕ} (h : s.memOk) :
    (s.endWork die c d id status).memOk :=
  State.flushWork_memOk (State.modConn_memOk h)

theorem State.transportWrite_memOk {s : State} {die dom : ℕ} {e : ObjEntry} {off : ℕ} {bs : List Byte} (h : s.memOk) :
    (s.transportWrite die dom e off bs).memOk :=
  State.foldl_memOk (fun _ _ h => State.dieWrite_memOk h) h

theorem State.transportReach_memOk {s : State} {die dom index : ℕ} {e : ObjEntry} {off n : ℕ}
    {wait go : State → State} (h : s.memOk) (hwait : ∀ t, t.memOk → (wait t).memOk) (hgo : ∀ t, t.memOk →
    (go t).memOk) :
    (s.transportReach die dom index e off n wait go).memOk := by
  unfold State.transportReach
  refine State.ite_memOk (hgo _ h) ?_
  refine State.ite_memOk (hwait _ h) ?_
  exact State.ite_memOk (hwait _ (State.requestNeeds_memOk h)) (hgo _ (State.touchRange_memOk h))

theorem State.takeWork_memOk {s : State} {die c op : ℕ} (h : s.memOk) : (s.takeWork die c op).memOk := by
  unfold State.takeWork
  split
  · exact h
  · refine State.ite_memOk h ?_
    refine State.ite_memOk h ?_
    dsimp only
    split
    · exact State.endWork_memOk (State.setWord64_memOk _ _ _ (State.modConn_memOk h))
    · refine State.ite_memOk ?_ ?_
      · exact State.endWork_memOk (State.setWord64_memOk _ _ _ (State.modConn_memOk h))
      · refine State.transportReach_memOk h (fun _ h => ?_) (fun _ h => ?_)
        · exact h
        · refine State.ite_memOk ?_ ?_
          · exact State.postFrame_memOk (State.setWord64_memOk _ _ _ (State.modConn_memOk h))
          · exact State.postAll_memOk (State.setWord64_memOk _ _ _ (State.modConn_memOk h))

theorem execWrWrite_memOk {die : BitVec 2} {c : BitVec 10} {s : State} (h : s.memOk) :
    Outcome.MemOk (execWrWrite die c s) :=
  .next (State.takeWork_memOk h)

theorem execWrRead_memOk {die : BitVec 2} {c : BitVec 10} {s : State} (h : s.memOk) :
    Outcome.MemOk (execWrRead die c s) :=
  .next (State.takeWork_memOk h)

theorem execWrSend_memOk {die : BitVec 2} {c : BitVec 10} {s : State} (h : s.memOk) :
    Outcome.MemOk (execWrSend die c s) :=
  .next (State.takeWork_memOk h)

theorem State.acknowledge_memOk {s : State} {die c : ℕ} {d : ConnDesc} {ack : Word} (h : s.memOk) :
    (s.acknowledge die c d ack).memOk := by
  refine State.foldl_memOk (fun _ _ h => ?_) (State.modConn_memOk h)
  split
  · exact State.ite_memOk (State.endWork_memOk h) h
  · exact h

theorem State.receive_memOk {s : State} {die op : ℕ} {bs : List Byte} {act : ConnDesc → Frame → State → State}
    (h : s.memOk) (hact : ∀ x0 x1 t, t.memOk → (act x0 x1 t).memOk) :
    (s.receive die op bs act).memOk := by
  unfold State.receive
  refine State.ite_memOk h ?_
  refine State.ite_memOk (State.ite_memOk h (State.setReg_memOk h)) ?_
  refine State.ite_memOk h ?_
  split
  · exact h
  · exact hact _ _ _ (State.ite_memOk (State.acknowledge_memOk h) h)

theorem State.inSequence_memOk {s : State} {die : ℕ} {d : ConnDesc} {f : Frame} {act : State → Option State}
    (h : s.memOk) (hact : ∀ t, t.memOk → Optional.MemOk (act t)) :
    (s.inSequence die d f act).memOk := by
  unfold State.inSequence
  refine State.ite_memOk ?_ ?_
  · split
    · rename_i hx
      exact State.answer_memOk (State.modConn_memOk (Optional.memOk_of_some (hact _ h) hx))
    · exact h
  · exact State.ite_memOk (State.answer_memOk h) (State.answer_memOk h)

theorem State.remote_memOk {s : State} {die : ℕ} {d : ConnDesc} {f : Frame} {write : Bool}
    {go : ObjEntry → State → State} (h : s.memOk) (hgo : ∀ x0 t, t.memOk → (go x0 t).memOk) :
    (s.remote die d f write go).memOk := by
  unfold State.remote
  refine State.ite_memOk (State.inSequence_memOk h (fun _ h => .none)) ?_
  dsimp only
  split
  · exact State.answer_memOk h
  · refine State.ite_memOk (State.answer_memOk h) ?_
    refine State.transportReach_memOk h (fun _ h => ?_) (fun _ h => ?_)
    · exact h
    · exact State.inSequence_memOk h (fun _ h => .some (hgo _ _ h))

theorem execFrameWrite_memOk {die : BitVec 2} {bytes : List Byte} {s : State} (h : s.memOk) :
    Outcome.MemOk (execFrameWrite die bytes s) := by
  refine .next ?_
  refine State.receive_memOk h (fun _ _ _ h => ?_)
  exact State.ite_memOk h (State.remote_memOk h (fun _ _ h => State.transportWrite_memOk h))

theorem execFrameReadRequest_memOk {die : BitVec 2} {bytes : List Byte} {s : State} (h : s.memOk) :
    Outcome.MemOk (execFrameReadRequest die bytes s) :=
  .next (State.receive_memOk h (fun _ _ _ h => State.remote_memOk h (fun _ _ h => State.postAll_memOk h)))

theorem execFrameReadResponse_memOk {die : BitVec 2} {bytes : List Byte} {s : State} (h : s.memOk) :
    Outcome.MemOk (execFrameReadResponse die bytes s) := by
  refine .next ?_
  refine State.receive_memOk h (fun _ _ _ h => ?_)
  dsimp only
  split
  · exact State.inSequence_memOk h (fun _ h => .some h)
  · refine State.ite_memOk (State.inSequence_memOk h (fun _ h => .none)) ?_
    split
    · exact State.inSequence_memOk h (fun _ h => .some (State.endWork_memOk h))
    · refine State.transportReach_memOk h (fun _ h => ?_) (fun _ h => ?_)
      · exact h
      · refine State.inSequence_memOk h (fun _ h => ?_)
        exact .some (State.ite_else_memOk (State.modConn_memOk (State.transportWrite_memOk h)) State.endWork_memOk)

theorem State.takeReceive_memOk {s t : State} {die c n : ℕ} {d : ConnDesc} {x y : DWord} (h : s.memOk)
    (hx : s.takeReceive die c d = some (t, x, y, n)) : t.memOk := by
  rw [State.takeReceive] at hx
  dsimp only at hx
  rw [Option.ite_none_left_eq_some] at hx
  obtain ⟨-, hx⟩ := hx
  injection hx with hx
  injection hx with hx
  rw [← hx]
  exact State.setWord64_memOk _ _ _ (State.modConn_memOk h)

theorem execFrameSend_memOk {die : BitVec 2} {bytes : List Byte} {s : State} (h : s.memOk) :
    Outcome.MemOk (execFrameSend die bytes s) := by
  refine .next (State.receive_memOk h (fun d f s h => ?_))
  have hb : Optional.MemOk (match (s.conn die.toNat f.conn).recv with
      | some _ => some s
      | none =>
        if !(s.conn die.toNat f.conn).waiting.isEmpty then none
        else
          match s.takeReceive die.toNat f.conn d with
          | none => none
          | some (t, ident, ref, len) =>
            some (t.modConn die.toNat f.conn fun x => { x with recv := some (ident, ref, len, 0, 0) })) := by
    split
    · exact .some h
    · refine Optional.ite_memOk .none ?_
      split
      · exact .none
      · rename_i hx
        exact .some (State.modConn_memOk (State.takeReceive_memOk h hx))
  refine State.ite_memOk (State.inSequence_memOk h (fun _ h => .none)) ?_
  dsimp only
  split
  · exact State.answer_memOk h
  · rename_i hx
    have ht := Optional.memOk_of_some hb hx
    split
    · exact ht
    · split
      · exact State.answer_memOk (State.emitRecord_memOk (State.modConn_memOk ht))
      · refine State.transportReach_memOk ht (fun _ h => h) (fun _ h => ?_)
        refine State.inSequence_memOk h (fun _ h => ?_)
        refine Optional.ite_memOk ?_ (.some (State.modConn_memOk (State.transportWrite_memOk h)))
        exact .some (State.emitRecord_memOk (State.modConn_memOk (State.transportWrite_memOk h)))

theorem execFrameAck_memOk {die : BitVec 2} {bytes : List Byte} {s : State} (h : s.memOk) :
    Outcome.MemOk (execFrameAck die bytes s) :=
  .next (State.receive_memOk h (fun _ _ _ h => State.acknowledge_memOk h))

theorem State.resend_memOk {s : State} {die c : ℕ} {d : ConnDesc} (h : s.memOk) : (s.resend die c d).memOk := by
  unfold State.resend
  dsimp only
  split
  · exact h
  · refine State.ite_memOk ?_ ?_
    · split
      · exact State.endWork_memOk (State.modConn_memOk h)
      · exact State.modConn_memOk h
    · exact State.foldl_memOk (fun _ _ h => State.sendFrame_memOk h) (State.modConn_memOk h)

theorem State.resendFrom_memOk {s : State} {die c : ℕ} {d : ConnDesc} (h : s.memOk) :
    (s.resendFrom die c d).memOk := by
  unfold State.resendFrom
  exact State.ite_memOk (State.modConn_memOk h) (State.modConn_memOk (State.resend_memOk h))

theorem execFrameNak_memOk {die : BitVec 2} {bytes : List Byte} {s : State} (h : s.memOk) :
    Outcome.MemOk (execFrameNak die bytes s) := by
  refine .next ?_
  refine State.receive_memOk h (fun _ _ _ h => ?_)
  dsimp only
  split
  · exact State.acknowledge_memOk h
  · refine State.ite_memOk ?_ (State.resendFrom_memOk (State.acknowledge_memOk h))
    split
    · refine State.endWork_memOk ?_
      exact State.foldl_memOk (fun _ _ h => State.sendFrame_memOk h) (State.modConn_memOk (State.acknowledge_memOk h))
    · exact State.foldl_memOk (fun _ _ h => State.sendFrame_memOk h) (State.modConn_memOk (State.acknowledge_memOk h))

theorem execTransportRetransmit_memOk {die : BitVec 2} {c : BitVec 10} {s : State} (h : s.memOk) :
    Outcome.MemOk (execTransportRetransmit die c s) := by
  unfold execTransportRetransmit
  split
  · exact .next h
  · exact .next (State.resend_memOk h)

theorem execCompletionRecordWrite_memOk {die : BitVec 2} {c : BitVec 10} {s : State} (h : s.memOk) :
    Outcome.MemOk (execCompletionRecordWrite die c s) := by
  unfold execCompletionRecordWrite
  split
  · refine Outcome.ite_memOk (.next h) ?_
    exact .next (State.ringWrite_memOk (State.writeBackRemote_memOk (State.modConn_memOk h)))
  · exact .next h

theorem execEthernetLinkChange_memOk {die : BitVec 2} {up : Bool} {s : State} (h : s.memOk) :
    Outcome.MemOk (execEthernetLinkChange die up s) :=
  .next (State.setReg_memOk h)

theorem uniCarry_memOk {o : Ty → ℕ → ℕ → ℕ → ℕ × Bool} {takes : Bool} {f : VFmt} {e : Env} {s : State} (h : s.memOk) :
    (uniCarry o takes f e s).MemOk :=
  .writes h

theorem uniDivide_memOk {o : IntOp} {f : VFmt} {e : Env} {s : State} (h : s.memOk) : (uniDivide o f e s).MemOk := by
  unfold uniDivide
  refine Act.ite_memOk .trap ?_
  split
  · rename_i hx
    exact .writes (Act.memOk_of_writes (uniOp_memOk h) hx)
  · exact uniOp_memOk h

theorem uniCount_memOk {o : Ty → ℕ → ℕ} {f : VFmt} {e : Env} {s : State} (h : s.memOk) : (uniCount o f e s).MemOk :=
  .writes h

end Sys2Proof.Machine
end

