-- ==== Sys2Proof/Proofs/MemoryInvariant.lean ====
section
/-!
PROOFS. Every step keeps the canonical form of memory: the rows of the opcode table, the moves of the engines and the turns.
-/

namespace Sys2Proof.Machine

theorem exec_memOk {i : Instr} {s : State} (h : s.memOk) : Outcome.MemOk (exec i s) := by
  cases i with
  | uadd _ | uaddc _ | usub _ | usubb _ => exact issue_memOk (fun _ _ h => uniCarry_memOk h) h
  | umul _ | umulhi _ | umin _ | umax _ | uand _ | uor _ | uxor _ | unot _ | ushl _ | ushr _ | usar _ | ubfe _
  | ubfi _ | umov _ =>
    exact issue_memOk (fun _ _ h => uniOp_memOk h) h
  | umulw _ | ucmp _ | usel _ | mulw _ | cmp _ | sel _ | bperm _ | ballot _ | compact _ | expand _ | rdfirst _
  | regang _ | pmov _ | bquery _ | astat _ | nop _ | derive _ | narrow _ | refadd _ | refoff _ | refset _ | refcmp _
  | refchk _ | objq _ | tdesc _ =>
    exact issue_memOk (fun _ _ h => .writes h) h
  | udiv _ | urem _ => exact issue_memOk (fun _ _ h => uniDivide_memOk h) h
  | upopc _ | uclz _ => exact issue_memOk (fun _ _ h => uniCount_memOk h) h
  | add _ | sub _ => exact issue_memOk (fun _ _ h => vecAddSub_memOk h) h
  | addc _ | subb _ => exact issue_memOk (fun _ _ h => vecCarry_memOk h) h
  | mul _ | mulhi _ | mad _ | min _ | max _ | abs _ | and _ | or _ | xor _ | not _ | shl _ | shr _ | sar _ | bfe _
  | bfi _ | brev _ | mov _ | fabs _ | fneg _ =>
    exact issue_memOk (fun _ _ h => vecOp_memOk h) h
  | div _ | rem _ => exact issue_memOk (fun _ _ h => vecDivide_memOk h) h
  | popc _ | clz _ => exact issue_memOk (fun _ _ h => vecCount_memOk h) h
  | movx _ => exact execMovx_memOk h
  | movxs _ => exact execMovxs_memOk h
  | fadd _ | fsub _ | fmul _ | ffma _ | fmin _ | fmax _ | frcp _ | frsq _ | fsqrt _ | fdiv _ | fexp2 _ | flog2 _
  | fsin _ | fcos _ | ftanh _ | ffloor _ | fceil _ | ftrunc _ | frint _ | ffrac _ | fmant _ | fmed3 _ =>
    exact issue_memOk (fun _ _ h => floatOp_memOk h) h
  | fcmp _ | fclass _ | fldexp _ | fexpo _ | cvt _ | cvtmx _ | pack _ | unpack _ | mxscale _ | scan _ | scanx _
  | reduce _ =>
    exact issue_memOk (fun _ _ h => floatAct_memOk h) h
  | fdot2 _ | fdot4 _ => exact issue_memOk (fun _ _ h => dotOp_memOk h) h
  | shfl _ | shflup _ | shfldn _ | shflx _ => exact issue_memOk (fun _ _ h => shuffle_memOk h) h
  | voteany _ | voteall _ | voteeq _ => exact issue_memOk (fun _ _ h => vote_memOk h) h
  | bra _ | brp _ | bru _ => exact issue_memOk (fun _ _ h => branchTo_memOk h) h
  | call _ => exact issue_memOk (fun _ _ h => .jump (State.writeNow_memOk h)) h
  | calli _ => exact issue_memOk (fun _ _ h => indirect_memOk (State.writeNow_memOk h)) h
  | ret _ | jmpi _ => exact issue_memOk (fun _ _ h => indirect_memOk h) h
  | exit _ => exact execExit_memOk h
  | pand _ | por _ | pxor _ | pandn _ | pnot _ => exact issue_memOk (fun _ _ h => logic_memOk h) h
  | ld _ | st _ | sld _ | sst _ => exact issue_memOk (fun _ _ h => Env.accesses_memOk h) h
  | lds _ | ldsr _ => exact issue_memOk (fun _ _ h => scratchLoad_memOk h) h
  | sts _ | stsr _ => exact issue_memOk (fun _ _ h => scratchStore_memOk h) h
  | tld _ | tst _ => exact issue_memOk (fun _ _ h => Env.elements_memOk h) h
  | pref _ => exact execPref_memOk h
  | evict _ => exact execEvict_memOk h
  | fence _ => exact execFence_memOk h
  | sqpush _ | sqpop _ => exact issue_memOk (fun _ _ h => Env.accessAct_memOk h) h
  | aadd _ | afadd _ | amin _ | amax _ | aand _ | aor _ | axor _ | axchg _ =>
    exact issue_memOk (fun _ _ h => atomForm_memOk h) h
  | acas _ | atile _ => exact issue_memOk (fun _ _ h => atomOp_memOk h) h
  | copy _ => exact execCopy_memOk h
  | copyin _ => exact execCopyin_memOk h
  | copyout _ => exact execCopyout_memOk h
  | copyt _ => exact execCopyt_memOk h
  | batch _ => exact execBatch_memOk h
  | waitb _ | waitbn _ =>
    exact issue_memOk (fun _ _ h => Act.ite_memOk (.writes (State.acquireAct_memOk h)) (.hold h)) h
  | mma _ => exact issue_memOk (fun _ _ h => Act.ite_memOk (sharedMma_memOk h) (tileOp_memOk h)) h
  | mmaGrp _ | mmaLut _ | mmaSa _ | lutb _ | aclr _ | ascale _ => exact issue_memOk (fun _ _ h => tileOp_memOk h) h
  | bload _ => exact execBload_memOk h
  | amovr _ =>
    exact issue_memOk (fun _ _ h => Env.withClaim_memOk h (fun _ h => Act.ite_memOk (.hold h) (.writes h))) h
  | amovw _ => exact execAmovw_memOk h
  | drain _ => exact execDrain_memOk h
  | drainAdd _ => exact execDrainAdd_memOk h
  | lend _ =>
    exact issue_memOk (fun _ _ h => Act.ite_memOk (.writes h) (.writes (State.memOk_mk (State.modWave_memOk h)))) h
  | sample _ => exact execSample_memOk h
  | sampleN _ => exact execSampleN_memOk h
  | gather _ => exact execGather_memOk h
  | texq _ => exact execTexq_memOk h
  | wpin _ => exact execWpin_memOk h
  | wunpin _ => exact execWunpin_memOk h
  | winv _ => exact execWinv_memOk h
  | rng _ => exact issue_memOk (fun _ _ h => .writes (State.ite_memOk (Env.reserve_memOk h) h)) h
  | rayPin _ => exact execRayPin_memOk h
  | rayTrace _ => exact execRayTrace_memOk h
  | rayNext _ => exact execRayNext_memOk h
  | rayUnpin _ => exact execRayUnpin_memOk h
  | bvhBuild _ | bvhRefit _ => exact issue_memOk (fun _ _ h => Env.buildChecked_memOk h) h
  | bvhBal _ | bvhPub _ => exact issue_memOk (fun _ _ h => Env.buildPlain_memOk h) h
  | bar _ | barCl _ => exact issue_memOk (fun _ _ h => barBody_memOk h) h
  | arrive _ => exact issue_memOk (fun _ _ h => arriveThen_memOk h (fun _ h => .writes h)) h
  | waitbar _ => exact issue_memOk (fun _ _ h => waitAt_memOk h) h
  | collRed _ | collGath _ | collScat _ | collBcast _ => exact issue_memOk (fun _ _ h => collOpBody_memOk h) h
  | collWait _ => exact issue_memOk (fun _ _ h => Act.ite_memOk (.hold h) (.writes (State.acquireAct_memOk h))) h
  | gate _ => exact execGate_memOk h
  | gateret _ => exact execGateret_memOk h
  | objGrant _ => exact execObjGrant_memOk h
  | trap _ => exact issue_memOk (fun _ _ h => .trapNext) h
  | rett _ => exact execRett_memOk h
  | sread _ | phint _ => exact issue_memOk (fun _ _ h => .writes (State.ite_memOk (State.modWave_memOk h) h)) h
  | swrite _ | enter _ | leave _ => exact issue_memOk (fun _ _ h => .writes (State.modWave_memOk h)) h
  | brk _ => exact issue_memOk (fun _ _ h => Act.ite_memOk (.writes (State.modWave_memOk h)) .trapNext) h
  | waitClk _ => exact execWaitClk_memOk h
  | yield _ => exact issue_memOk (fun _ _ h => Act.ite_memOk (.writes h) (.writes (State.memOk_mk h))) h
  | mark _ => exact execMark_memOk h
  | relayout _ => exact execRelayout_memOk h
  | rlwait _ => exact execRlwait_memOk h
  | taddr _ => exact execTaddr_memOk h
  | notAnInstruction _ => exact issue_memOk (fun _ _ h => .trap) h
  | holdLimit _ _ => exact execHoldLimit_memOk h
  | longLatencyComplete _ _ => exact execLongLatencyComplete_memOk h
  | storeAcknowledge _ => exact execStoreAcknowledge_memOk h
  | lateCondition _ _ _ => exact execLateCondition_memOk h
  | copyComplete _ => exact execCopyComplete_memOk h
  | matrixOpComplete _ _ => exact execMatrixOpComplete_memOk h
  | weightFillComplete _ _ => exact execWeightFillComplete_memOk h
  | rayTraversalEnd _ _ => exact execRayTraversalEnd_memOk h
  | armatureOpStart _ => exact execArmatureOpStart_memOk h
  | armatureOpComplete _ => exact execArmatureOpComplete_memOk h
  | collectiveComplete _ _ => exact execCollectiveComplete_memOk h
  | rasterTriangle _ _ => exact execRasterTriangle_memOk h
  | rasterMerge _ _ => exact execRasterMerge_memOk h
  | migrationMove _ => exact execMigrationMove_memOk h
  | granuleArrival _ _ => exact execGranuleArrival_memOk h
  | conversionTile _ _ => exact execConversionTile_memOk h
  | residencyTimeout _ _ => exact execResidencyTimeout_memOk h
  | conversionWaitTimeout _ => exact execConversionWaitTimeout_memOk h
  | context _ _ => exact execContext_memOk h
  | objinv _ _ => exact execObjinv_memOk h
  | signal _ _ => exact execSignal_memOk h
  | wait _ _ => exact execWait_memOk h
  | launch _ _ => exact execLaunch_memOk h
  | nopPacket _ _ => exact execNopPacket_memOk h
  | queueDoorbell _ _ _ => exact execQueueDoorbell_memOk h
  | queueRestart _ _ _ => exact execQueueRestart_memOk h
  | launchReplica _ _ _ _ => exact execLaunchReplica_memOk h
  | startArrival _ _ => exact execStartArrival_memOk h
  | launchRejectionStamped q _ => exact execLaunchRejectionStamped_memOk (_from := q) h
  | startTimeout _ => exact execStartTimeout_memOk h
  | arrivalExpiry _ _ => exact execArrivalExpiry_memOk h
  | packageEndReport _ _ => exact execPackageEndReport_memOk h
  | clusterPlacement _ => exact execClusterPlacement_memOk h
  | sliceEnd _ _ => exact execSliceEnd_memOk h
  | preemptStepPhase _ => exact execPreemptStepPhase_memOk h
  | stepPhaseTimeout _ => exact execStepPhaseTimeout_memOk h
  | workgroupSave _ => exact execWorkgroupSave_memOk h
  | workgroupRestore _ => exact execWorkgroupRestore_memOk h
  | waitClkExpiry _ _ => exact execWaitClkExpiry_memOk h
  | haltComplete _ => exact execHaltComplete_memOk h
  | debugSessionOpen _ _ => exact execDebugSessionOpen_memOk h
  | debugSessionClose _ => exact execDebugSessionClose_memOk h
  | debugHalt _ => exact execDebugHalt_memOk h
  | debugResume _ => exact execDebugResume_memOk h
  | dbgdataRead _ => exact execDbgdataRead_memOk h
  | dbgdataWrite _ _ => exact execDbgdataWrite_memOk h
  | islandWrite _ _ => exact execIslandWrite_memOk h
  | frequencyChangeEnd _ => exact execFrequencyChangeEnd_memOk h
  | registerWrite _ _ => exact execRegisterWrite_memOk h
  | identify => exact execIdentify_memOk h
  | fwwrite => exact execFwwrite_memOk h
  | fwactivate => exact execFwactivate_memOk h
  | status => exact execStatus_memOk h
  | powerOnReset => exact execPowerOnReset_memOk h
  | getVersion => exact execGetVersion_memOk h
  | getCapabilities => exact execGetCapabilities_memOk h
  | negotiateAlgorithms _ _ => exact execNegotiateAlgorithms_memOk h
  | getDigests => exact execGetDigests_memOk h
  | getCertificate _ _ => exact execGetCertificate_memOk h
  | challenge _ => exact execChallenge_memOk h
  | getMeasurements _ => exact execGetMeasurements_memOk h
  | firmwareRemeasure => exact execFirmwareRemeasure_memOk h
  | securityAlarm _ => exact execSecurityAlarm_memOk h
  | thermalThrottle _ _ => exact execThermalThrottle_memOk h
  | thermalTrip _ => exact execThermalTrip_memOk h
  | hostMemAccess _ _ => exact execHostMemAccess_memOk h
  | hostCacheSnoop _ _ _ => exact execHostCacheSnoop_memOk h
  | atsInvalidation _ _ => exact execAtsInvalidation_memOk h
  | expanderLinkLoss _ => exact execExpanderLinkLoss_memOk h
  | scrubPass _ _ _ => exact execScrubPass_memOk h
  | skewMeasurement _ _ _ _ => exact execSkewMeasurement_memOk h
  | flitData _ _ => exact execFlitData_memOk h
  | flitIdle _ _ => exact execFlitIdle_memOk h
  | flitAcknowledge _ _ => exact execFlitAcknowledge_memOk h
  | flitReplayRequest _ _ => exact execFlitReplayRequest_memOk h
  | portRetrain _ => exact execPortRetrain_memOk h
  | portTrainingEnd _ _ _ => exact execPortTrainingEnd_memOk h
  | packageLoss _ => exact execPackageLoss_memOk h
  | packageLossReport _ => exact execPackageLossReport_memOk h
  | transportDoorbell _ _ _ => exact execTransportDoorbell_memOk h
  | wrWrite _ _ => exact execWrWrite_memOk h
  | wrRead _ _ => exact execWrRead_memOk h
  | wrSend _ _ => exact execWrSend_memOk h
  | frameWrite _ _ => exact execFrameWrite_memOk h
  | frameReadRequest _ _ => exact execFrameReadRequest_memOk h
  | frameReadResponse _ _ => exact execFrameReadResponse_memOk h
  | frameSend _ _ => exact execFrameSend_memOk h
  | frameAck _ _ => exact execFrameAck_memOk h
  | frameNak _ _ => exact execFrameNak_memOk h
  | transportRetransmit _ _ => exact execTransportRetransmit_memOk h
  | completionRecordWrite _ _ => exact execCompletionRecordWrite_memOk h
  | ethernetLinkChange _ _ => exact execEthernetLinkChange_memOk h
  | thermalLimitRelease _ => exact execThermalLimitRelease_memOk h
  -- RECALL is left, whose name is a keyword of Mathlib.
  | _ => exact issue_memOk (fun _ _ h => .writes (State.memOk_mk (State.modWave_memOk h))) h

theorem State.pass_memOk {s : State} (h : s.memOk) : s.pass.memOk := by
  unfold State.pass
  exact State.memOk_mk (State.stepPhases_memOk h)

theorem State.catchUp_memOk {s : State} {core quad : ℕ} {members : List ℕ} (h : s.memOk) :
    (s.catchUp core quad members).memOk := by
  unfold State.catchUp
  refine State.memOk_mk ?_
  refine State.foldl_memOk (fun _ _ h => ?_) h
  refine State.ite_memOk h ?_
  split
  · exact h
  · exact State.modContext_memOk h

theorem State.choose_memOk {s t : State} {wk fid : ℕ} (h : s.memOk) (hx : s.choose = some (t, wk, fid)) : t.memOk := by
  unfold State.choose at hx
  dsimp only at hx
  split at hx
  · cases hx
  · obtain ⟨r, -, hx⟩ := Option.map_eq_some_iff.1 hx
    cases hx
    exact State.ite_memOk (State.modContext_memOk (State.catchUp_memOk h)) (State.catchUp_memOk h)

theorem after_memOk {s : State} {o : Host.Outcome State Fault Refusal} (h : s.memOk) (ho : Outcome.MemOk o) :
    (after s o).memOk := by
  cases ho with
  | next ht => exact ht
  | fault => exact h
  | refused => exact h

theorem State.servePacket_memOk {die : BitVec 2} {s : State} {t q : ℕ} (h : s.memOk) :
    (State.servePacket die s t q).memOk := by
  refine after_memOk h ?_
  split
  · exact execContext_memOk h
  · exact execObjinv_memOk h
  · exact execSignal_memOk h
  · exact execWait_memOk h
  · exact execLaunch_memOk h
  · exact execNopPacket_memOk h

theorem State.laneTake_memOk {s : State} {die : BitVec 2} {j : ℕ} (h : s.memOk) : (s.laneTake die j).1.memOk := by
  refine State.foldl_fst_memOk (fun _ _ h => ?_) h
  refine State.ite_fst_memOk h ?_
  split
  · exact h
  · exact State.ite_fst_memOk (State.servePacket_memOk h) h

theorem State.sluiceStep_memOk {die : BitVec 2} {s : State} (h : s.memOk) : (State.sluiceStep die s).memOk := by
  unfold State.sluiceStep
  dsimp only
  refine State.foldl_memOk (fun _ _ h => State.servePacket_memOk h) ?_
  refine State.foldl_fst_memOk (fun _ _ h => ?_) h
  dsimp only
  exact State.laneTake_memOk h

theorem State.tryArrivals_memOk {wk : ℕ} {s : State} (h : s.memOk) : (State.tryArrivals wk s).memOk := by
  unfold State.tryArrivals
  split
  · exact h
  · exact State.ite_memOk h (State.arrive_memOk h)

theorem State.noteFetch_memOk {s : State} {wk fid : ℕ} {i : Instr} (h : s.memOk) : (s.noteFetch wk fid i).memOk := by
  unfold State.noteFetch
  split
  · exact h
  · split
    · exact State.ite_memOk h (State.touchRange_memOk h)
    · exact h

theorem State.issueTurn_memOk {s : State} {wk fid : ℕ} (h : s.memOk) : (s.issueTurn wk fid).MemOk := by
  unfold State.issueTurn
  refine Moved.ite_memOk ?_ (.moved (State.pass_memOk (State.denySlot_memOk h)))
  dsimp only
  split
  · refine .run ?_
    exact State.pass_memOk (State.noteFetch_memOk (State.memOk_mk (State.modWave_memOk (State.giveSlot_memOk h))))
  · exact .moved (State.pass_memOk (State.memOk_mk (State.modWave_memOk (State.giveSlot_memOk h))))

/-! ## The moves of the engines -/

/-- Every move of a list keeps the form of the state in which it is made. -/
def KeepForm (l : List (State → Host.Outcome State Fault Refusal)) : Prop :=
  ∀ m ∈ l, ∀ t : State, t.memOk → Outcome.MemOk (m t)

section
variable {α : Type} {f : α → State → Host.Outcome State Fault Refusal} {l : List α}

theorem KeepForm.append {a b : List (State → Host.Outcome State Fault Refusal)} (ha : KeepForm a) (hb : KeepForm b) :
    KeepForm (a ++ b) :=
  List.forall_mem_append.2 ⟨ha, hb⟩

theorem KeepForm.map (hf : ∀ x t, t.memOk → Outcome.MemOk (f x t)) : KeepForm (l.map f) :=
  List.forall_mem_map.2 fun x _ => hf x

theorem KeepForm.flatMap {g : α → List (State → Host.Outcome State Fault Refusal)} (hg : ∀ x, KeepForm (g x)) :
    KeepForm (l.flatMap g) := fun m hm =>
  have ⟨x, _, hx⟩ := List.mem_flatMap.1 hm
  hg x m hx

theorem KeepForm.nil : KeepForm [] := fun _ hm => (nomatch hm)

theorem KeepForm.cons {m : State → Host.Outcome State Fault Refusal} {r : List (State → Host.Outcome State Fault Refusal)}
    (hm : ∀ t, t.memOk → Outcome.MemOk (m t)) (hr : KeepForm r) : KeepForm (m :: r) :=
  List.forall_mem_cons.2 ⟨hm, hr⟩

end

theorem State.keepForm_moves (s : State) : KeepForm s.moves := by
  unfold State.moves
  dsimp only
  repeat' refine KeepForm.append ?_ ?_
  · exact .map fun _ _ h => execStoreAcknowledge_memOk h
  · exact .flatMap fun _ => .map fun _ _ h => execLongLatencyComplete_memOk h
  · exact .flatMap fun _ => .map fun _ _ h => execRayTraversalEnd_memOk h
  · exact .map fun _ _ h => execHaltComplete_memOk h
  · exact .flatMap fun _ => .map fun _ _ h => execHoldLimit_memOk h
  · exact .map fun _ _ h => .next (State.tryArrivals_memOk h)
  · exact .map fun _ _ h => execCopyComplete_memOk h
  · exact .map fun _ _ h => execMatrixOpComplete_memOk h
  · exact .map fun _ _ h => execCollectiveComplete_memOk h
  · exact .map fun _ _ h => execArmatureOpStart_memOk h
  · exact .map fun _ _ h => execArmatureOpComplete_memOk h
  · exact .map fun _ _ h => execMigrationMove_memOk h
  · exact .flatMap fun _ => .map fun _ _ h => execGranuleArrival_memOk h
  · refine .flatMap fun n => ?_
    split
    · split
      · exact .cons (fun _ h => execConversionTile_memOk h) .nil
      · exact .nil
    · exact .nil
  · exact .flatMap fun _ => .map fun _ _ h => execWeightFillComplete_memOk h
  · refine .flatMap fun _ => .flatMap fun _ => ?_
    exact .cons (fun _ h => execRasterTriangle_memOk h) (.cons (fun _ h => execRasterMerge_memOk h) .nil)
  · exact .map fun _ _ h => .next (State.sluiceStep_memOk h)
  · exact .map fun _ _ h => execClusterPlacement_memOk h
  · exact .flatMap fun _ => .map fun _ _ h => execSliceEnd_memOk h
  · refine .flatMap fun _ => .cons (fun _ h => execPreemptStepPhase_memOk h) ?_
    exact .cons (fun _ h => execWorkgroupSave_memOk h) (.cons (fun _ h => execWorkgroupRestore_memOk h) .nil)
  · refine .flatMap fun _ => .cons (fun _ h => execWrWrite_memOk h) (.cons (fun _ h => execWrRead_memOk h) ?_)
    exact .cons (fun _ h => execWrSend_memOk h) (.cons (fun _ h => execCompletionRecordWrite_memOk h) .nil)
  · refine .cons (fun _ h => .next (State.pump_memOk (State.finishInvs_memOk (State.retrySignals_memOk ?_)))) ?_
    · exact State.foldl_memOk (fun _ _ h => State.checkSwapout_memOk h) h
    · refine .cons (fun _ h => .next (State.foldl_memOk (fun _ _ h => State.passTokens_memOk h) h)) ?_
      exact .cons (fun _ h => .next (State.foldl_memOk (fun _ _ h => State.moveAllRetired_memOk h) h)) .nil

theorem moveTurn_memOk {s : State} {k : ℕ} {m : State → Host.Outcome State Fault Refusal} (h : s.memOk)
    (hm : s.moves[k]? = some m) : (Moved.moved (after s (m s)).pass).MemOk :=
  .moved (State.pass_memOk (after_memOk h (s.keepForm_moves m (List.mem_of_getElem? hm) s h)))

theorem State.auto_memOk {s : State} (h : s.memOk) : s.auto.MemOk := by
  unfold State.auto
  dsimp only
  split
  · split
    · rename_i hx
      exact State.issueTurn_memOk (State.choose_memOk h hx)
    · split
      · exact moveTurn_memOk h ‹_›
      · exact .moved (State.pass_memOk h)
  · split
    · split
      · exact State.issueTurn_memOk h
      · split
        · exact moveTurn_memOk h ‹_›
        · exact .moved (State.pass_memOk h)
    · split
      · exact moveTurn_memOk h ‹_›
      · exact .moved (State.pass_memOk h)

theorem State.nextTurn_memOk {s : State} (h : s.memOk) : s.nextTurn.MemOk := by
  unfold State.nextTurn
  dsimp only
  split
  · exact State.issueTurn_memOk (State.memOk_mk (State.noteSlots_memOk h))
  · exact .run (State.pass_memOk (State.memOk_mk (State.noteSlots_memOk h)))
  · exact State.auto_memOk (State.noteSlots_memOk h)

theorem step_memOk {s : State} (h : s.memOk) : Outcome.MemOk (step s) := by
  have ht := State.nextTurn_memOk h
  unfold step
  generalize s.nextTurn = m at ht
  cases ht with
  | run ht => exact exec_memOk ht
  | moved ht => exact .next ht

/-- Settles O3: the form is carried through every function that gives a state; only single bytes written, ranges cleared
and the memory that survives a boot change the memories, and each keeps the form. -/
theorem memoryInvariant : Obligations.MemoryInvariant := by
  unfold Obligations.MemoryInvariant
  intro s t h hst
  have ht := step_memOk h
  rw [hst] at ht
  cases ht with
  | next ht => exact ht

end Sys2Proof.Machine
end
